-- ==== Sys2Proof/Word.lean ====
section
/-! DEFINITION. The words of the module (00_scope.md R8, R9; 02_core_streams_and_instructions.md R22):
bytes, 32-bit and 64-bit register words, the 128-bit instruction word, and the sparse table in which the state
holds its numbered units. -/

namespace Sys2Proof

abbrev Byte := BitVec 8
abbrev W32 := BitVec 32
abbrev Word := BitVec 64
/-- One instruction word (R22). -/
abbrev Word128 := BitVec 128
/-- A 24-bit module address: x [23:18], d [17:12], p [11:6], t [5:0] (Table 12-2). -/
abbrev ModAddr := BitVec 24

/-- A table of numbered units, keys strictly rising. A number that is not listed has the unit's default value. -/
abbrev Tab (α : Type) := List (Nat × α)

end Sys2Proof
end

