-- ==== Sys2Proof/Types.lean ====
section
/-! DEFINITION. The plain data that commands and state share: identifiers (R3), tensor descriptors (R99),
frames (R251), expert rows and count headers (R172, R176), and the contents of a Cribel image (R283). -/

namespace Sys2Proof

/-- The three stream contexts (R16): F is 0, B is 1, U is 2. -/
inductive Stream where
  | F | B | U
  deriving DecidableEq, Repr, Inhabited

def Stream.toNat : Stream → Nat
  | .F => 0 | .B => 1 | .U => 2

/-- Logical core id (R3). -/
abbrev CoreId := Fin 2048
abbrev CourseId := Fin 64
abbrev SlopeId := Fin 4
abbrev PortId := Fin 8
abbrev StackId := Fin 12
abbrev ChanId := Fin 4
abbrev LaneId := Fin 32

/-- The engine of an instruction, by its engine field (Table 02-4): DA 1, GME 2, VE 3, DMA 4, Valley 5. -/
inductive EngKind where
  | da | gme | ve | dma | val
  deriving DecidableEq, Repr

/-- Whether an engine instruction's completion or its destination arrival is meant (R26). -/
inductive Moment where
  | completion | arrival
  deriving DecidableEq, Repr

/-- The units of the dense array that run instructions (R124). -/
inductive DaUnit where
  | fill | stream | drain
  deriving DecidableEq, Repr

/-- The fields of a remote-flag descriptor (Table 03-3). -/
structure RemoteFlag where
  module : ModAddr
  core : Nat
  flag : Nat
  vc : Nat
  reserved : Bool      -- a reserved bit of bytes 16-127 is set
  deriving DecidableEq, Repr

/-- A tensor descriptor (Table 05-1). `reserved` records that one of its reserved bits is set. -/
structure Desc where
  base : Nat
  fmt : BitVec 8
  exactEnd : Bool := false
  write : Bool := false
  rank : Nat
  alloc : Nat
  scale : Byte := 0
  remote : Bool := false
  module : ModAddr := 0
  size : List Nat          -- size[0] .. size[5]
  stride : List Int        -- stride[1] .. stride[5], in lines
  reserved : Bool := false
  rflag : Option RemoteFlag := none
  deriving DecidableEq, Repr

/-- A Lanene frame (Table 12-2); the CRC is carried beside it. -/
structure Frame where
  dst : ModAddr
  src : ModAddr
  vc : BitVec 3
  type : BitVec 5
  seq : BitVec 16 := 0
  master : BitVec 12 := 0
  tag : BitVec 6 := 0
  detour : Bool := false
  operand : BitVec 37 := 0
  payload : List Byte := []
  deriving DecidableEq, Repr

/-- What a lane reports: it has lost lock, or its FEC has decoded `n` further code words, of which it corrected `corrected` and could not
correct those numbered in `bad`, counted from 0 and rising (R249). -/
inductive LaneReport where
  | lockLost
  | codeWords (n corrected : Nat) (bad : List Nat)
  deriving DecidableEq, Repr

/-- A lane and what it reports. -/
structure LaneEvent where
  lane : Nat
  why : LaneReport
  deriving DecidableEq, Repr

/-- A port that has lost its signal, and whether its own transmitter or receiver then fails the self-test (R263). -/
structure SignalLoss where
  port : PortId
  selfTestFails : Bool
  deriving DecidableEq, Repr

/-- The input voltage, in millivolts, and whether the input was removed and applied again (R324). -/
structure PowerInput where
  mv : BitVec 16
  reapplied : Bool
  deriving DecidableEq, Repr

/-- A dispatched expert row: its row header (Table 08-6) and its innermost extent. -/
structure ValRow where
  tag : BitVec 16
  epoch : Byte
  layer : Nat
  bitmap : BitVec 16
  backward : Bool
  count : Nat
  token : Nat
  sender : Nat
  ids : List (BitVec 16)
  gates : List W32
  data : List Byte
  deriving DecidableEq, Repr

/-- A count header (Table 08-7), with the course it comes from on the return path. -/
structure CountHdr where
  backward : Bool
  rows : Nat
  sender : Nat
  layer : Nat
  epoch : Byte
  tag : BitVec 16
  deriving DecidableEq, Repr

/-- A returned expert row (R176). -/
structure RetRow where
  tag : BitVec 16
  epoch : Byte
  layer : Nat
  backward : Bool
  token : Nat
  pos : Nat
  sender : Nat
  data : List Byte
  deriving DecidableEq, Repr

/-- A digest record (Table 10-10). -/
structure DigestRec where
  step : Word
  domain : Nat
  rank : Nat
  d0 : Nat
  d1 : Nat
  groups : Nat
  deriving DecidableEq, Repr

/-! ### Contents of an image (R283) -/

/-- An allocation (R103), with its digest domain and base (R218). -/
structure Alloc where
  base : Nat            -- byte address
  lines : Nat
  loc : Option ModAddr := none      -- none: this module
  domain : Option Nat := none
  digestBase : Nat := 0
  deriving DecidableEq, Repr

/-- A code region (R35). -/
structure CodeRegion where
  base : Nat
  lines : Nat
  deriving DecidableEq, Repr

/-- A declared barrier (R66, R70). -/
structure BarrierDecl where
  level : Nat
  index : Nat
  course : Nat := 0
  parts : List (Nat × Stream)
  members : List ModAddr := []
  root : ModAddr := 0
  deriving DecidableEq, Repr

/-- A declared completion queue (R117). -/
structure CqDecl where
  core : Nat
  chan : Nat
  base : Nat
  log2 : Nat
  release : Nat
  deriving DecidableEq, Repr

/-- A routed layer (Table 08-1). -/
structure Layer where
  theta : W32
  cap : Nat
  forceTop1 : Bool
  expertBase : Nat
  experts : Nat
  rowFormat : BitVec 8
  rowWidth : Nat
  returnFormat : BitVec 8
  group : Nat
  collector : Nat
  ring : Nat
  publishFlag : Nat
  returnsFlag : Nat
  placement : Nat
  deriving DecidableEq, Repr

/-- An expert-table entry, as its 16 bytes say (Table 08-2). -/
structure Expert where
  module : ModAddr
  course : Nat
  slot : Nat
  owner : Nat
  valid : Bool
  capacity : Nat
  overflow : Nat
  reservedClear : Bool := true  -- every reserved bit is zero
  deriving DecidableEq, Repr

/-- A collective sequencer entry, as its 64 bytes say (Table 12-7). -/
structure CollEntry where
  op : Nat
  group : Nat := 0
  triggerCore : Nat
  triggerFlag : Nat
  triggerInit : W32 := 0
  triggerInc : Nat := 0
  src : Nat := 0
  dst : Nat := 0
  lengths : Nat := 0            -- allocation handle of the length table, 0 for equal lengths
  lens : List Nat := []         -- what that table says, while the entry runs; [] for equal lengths
  chunk : Nat := 1
  root : Nat := 0
  outFormat : BitVec 8 := 1
  deliver : Nat := 0
  doneCore : Nat := 0
  doneFlag : Nat := 0
  borrowAxis : Nat := 0
  lendAxis : Nat := 0
  lendVcs : BitVec 8 := 0
  endCore : Nat := 0
  endCount : W32 := 0
  endFlag : Nat := 0
  reservedClear : Bool := true  -- every reserved bit and byte is zero
  deriving DecidableEq, Repr

/-- Schedule fields of a parameter group (Table 10-7). -/
structure Schedule where
  warmCosine : Bool := false
  warmSteps : Nat := 0
  decayShape : Nat := 0
  decaySteps : Nat := 0
  lrMin : W32 := 0
  gamma : W32 := 0
  cycle : Nat := 0
  cycleMul : Nat := 1
  deriving DecidableEq, Repr

/-- A parameter group (Table 10-1). -/
structure ParamGroup where
  rule : Nat
  nesterov : Bool := false
  lrBase : W32
  decay : W32 := 0
  betaStart : W32 := 0
  beta1 : W32 := 0
  beta2 : W32 := 0
  eps : W32 := 0
  gradScale : W32 := 0x3F800000
  halving : Nat := 64
  copyStochastic : Bool := false
  saveFormat : BitVec 8 := 6
  saveStochastic : Bool := false
  idleDecay : Bool := false
  emptySkip : Bool := false
  nonfiniteSkip : Bool := false
  sched : Schedule := {}
  refresh : Nat := 20
  iterLimit : Nat := 12
  tol : W32 := 0x3A83126F
  damp : W32 := 0x358CBCCC
  betaStat : W32 := 0x3F7FBE77
  deriving DecidableEq, Repr

/-- The owner of a run of a tensor's update groups, on this or another module, with the landing ring and the arrival flag of the owner
core (R205, R206). -/
structure Shard where
  firstGroup : Nat
  groups : Nat
  module : ModAddr
  core : Nat
  arrivalFlag : Nat
  ringBase : Nat
  ringLog2 : Nat
  slotLines : Nat
  deriving DecidableEq, Repr

/-- A tensor of the shard map (R205): its shape in rows of its innermost dimension, its parameter group, its marks, and the owners of its
update groups. -/
structure TensorShards where
  tensor : Nat                 -- allocation handle of the tensor's compute copy
  fmt : BitVec 8               -- its compute format
  rows : Nat
  width : Nat
  group : Nat := 0             -- parameter group
  expert : Bool := false
  frozen : Bool := false
  shards : List Shard := []
  deriving DecidableEq, Repr

/-- A region register pair (Table 11-10); base and limit are line numbers. -/
structure Region where
  enable : Bool := false
  read : Bool := false
  write : Bool := false
  code : Bool := false
  base : Nat := 0
  limit : Nat := 0
  deriving DecidableEq, Repr

/-- The sections of an image whose byte layout the manual does not give (R283: MEMORY, BANKS, ROUTES, FABRIC,
REGIONS, CODE_MAP, DESCRIPTORS, SYNC, ROUTING, COLLECTIVE, UPDATE, TABLES): what their bytes stand for. -/
structure ImageBodies where
  affinityGib : Nat := 0
  allocs : Tab Alloc := []
  overflowAlloc : Tab Nat := []                 -- course -> handle of its HBM overflow region
  spadRoles : Tab (List Nat) := []              -- core -> 32 roles (R285)
  spadPower : Tab (List Nat) := []              -- core -> 32 power states
  ulPower : Tab (List Nat) := []                -- course -> 64 power states
  partitions : Tab (List Nat) := []             -- course -> four partition sizes in banks
  routes : Tab (BitVec 256) := []               -- slope -> route bits (R286)
  sizes : List Nat := [1, 1, 1, 1]              -- T, P, D, X
  coords : List Nat := [0, 0, 0, 0]
  axisMap : List Nat := [0, 1, 2, 3]
  coreRegions : Tab (Tab Region) := []
  valRegions : Tab (Tab Region) := []
  collRegions : Tab (Tab Region) := []
  regions : Tab CodeRegion := []
  entries : List (Nat × Stream × Nat × Nat) := []       -- core, stream, region, index
  descs : Tab Desc := []                                -- pre-created descriptors
  binds : List (Nat × Stream × Nat × Nat) := []         -- core, stream, register, descriptor
  flags : Tab (Tab W32) := []                           -- core -> flag -> initial value
  barriers : List BarrierDecl := []
  stepBarrier : Nat := 0
  queues : List CqDecl := []
  layers : Tab Layer := []
  groups : Tab (List (ModAddr × Nat)) := []             -- dispatch groups: senders
  experts : Tab (List Byte) := []                       -- expert table, 16 bytes an entry
  collGroups : Tab (List ModAddr) := []
  collSlopes : Tab Nat := []                            -- collective group -> the slope whose engine serves it
  collTables : Tab (List (List Byte)) := []             -- slope -> sequencer table, 64 bytes an entry
  params : Tab ParamGroup := []
  shards : List TensorShards := []
  domains : Tab (List ModAddr) := []
  interval : Nat := 50
  initStep : Word := 0
  keys : Tab (Word × Word) := []                        -- key -> seed, stream
  funcs : Tab (List Byte × List Byte) := []             -- function entries 8-15: the 17 lines of function and derivative table
  deriving DecidableEq, Repr, Inhabited

/-- What an Ethernet frame carries above its MAC header (R294, R295). -/
inductive IpKind where
  | udp | tcp | fragment | icmpEcho | arpNd | other
  deriving DecidableEq, Repr

/-- A frame received at the host port, less what the standards' own headers add (R294, R295). -/
structure EthFrame where
  length : Nat                  -- from destination address to frame check sequence
  vlan : Option (BitVec 12)
  kind : IpKind
  srcAddr : Nat
  srcPort : Nat
  dstPort : Nat
  data : List Byte
  deriving DecidableEq, Repr

/-- A message of the Precision Time Protocol, in its domain (R296): a master's announcement, with its data set in the order of the best
master comparison and its identity; or a sync exchange with a master that measures the offset, the timebase's lead over it in nanoseconds. -/
inductive PtpMsg where
  | announce (domain : Byte) (rank : List Nat) (master : Nat)
  | sync (domain : Byte) (master : Nat) (offset : Int)
  deriving DecidableEq, Repr

/-- A bring-up function (R340): its kind code is that of BRINGUP_FAIL. -/
inductive BringUp where
  | hostPort | stack (k : StackId) | course (c : CourseId) | port (p : PortId)
  deriving DecidableEq, Repr

/-- The unit of a course or core reset (R335). -/
inductive ResetUnit where
  | course (c : CourseId) | core (c : CoreId)
  deriving DecidableEq, Repr

/-- The outcome that a remote party or a physical source gives a read (R259, R241). -/
inductive BankUnit where
  | spad (c : CoreId) (bank : Fin 32) | ul (c : CourseId) (bank : Fin 64)
  deriving DecidableEq, Repr

/-- A memory that a scrubber walks (R238). -/
inductive ScrubUnit where
  | spad (c : CoreId) | acc (c : CoreId) | icache (c : CoreId) | ul (c : CourseId) | codeCache (c : CourseId)
  | hbm (k : StackId)
  /-- A triplicated item of Table 11-2, with the copy that an upset has changed since it was last read, if any. -/
  | item (i : Fin 8) (upset : Option (Fin 3))
  deriving DecidableEq, Repr

/-- What the codes of a cached line come to as it is read (R236, R240): the words corrected, and whether one is beyond correction. -/
structure CacheRead where
  corrected : Nat := 0
  bad : Bool := false
  deriving DecidableEq, Repr

/-- A run of a test item (R353): its output lines, the multipliers P and Q of both lanes and the digest index under which they fold as a
group does (R220), and the package's two answers. -/
structure TestRun where
  lines : List Byte
  p : Nat × Nat
  q : Nat × Nat
  index : Nat
  answers : Nat × Nat
  deriving DecidableEq, Repr

/-- What a message of address assignment says (R295): a DHCPv4 server's offer, acknowledgement or refusal, or a router's
advertisement of an IPv6 prefix. -/
inductive DhcpKind where
  | offer | ack | nak | router
  deriving DecidableEq, Repr

/-- The status of an RCP response. The manual names these and gives them no numbers. -/
inductive Status where
  | ok | malformed | privilege | presenceRequired | wrongState | range | busy | duplicate | notReady
  | imageInvalid | signature | regionLive | eventsLost | reshardNoStaging
  deriving DecidableEq, Repr

/-- Where an increment that is about to be applied comes from (R53, R259). -/
inductive IncSource where
  | outbound (c : CoreId) (k : Nat)    -- the k-th entry of a core's outbound signal queue, from its head
  | frame (p : PortId) (f : Frame)     -- an INCREMENT frame delivered at a port
  deriving DecidableEq, Repr

end Sys2Proof
end

