-- ==== Sys2Proof/Syntax.lean ====
section
/-! DEFINITION. The commands of the module: one constructor for each row of the table of operations and events.
A core instruction carries the logical core and the stream that issue it and its 128-bit instruction word (R22);
an event carries the unit it befalls and what comes from outside the module; a command of the Ridge Command
Protocol carries its session and its payload. -/

namespace Sys2Proof

inductive Instr where
  /-- `ADD` (R27): Scalar instruction that writes s[a] + s[b] to s[dst] modulo 2^64. -/
  | add (c : CoreId) (t : Stream) (w : Word128)
  /-- `SUB` (R27): Scalar instruction that writes s[a] − s[b] to s[dst]. -/
  | sub (c : CoreId) (t : Stream) (w : Word128)
  /-- `MUL` (R27): Scalar instruction that writes the low 64 bits of s[a] × s[b] to s[dst]. -/
  | mul (c : CoreId) (t : Stream) (w : Word128)
  /-- `DIVU` (R27): Scalar unsigned divide; a zero divisor gives all ones. -/
  | divu (c : CoreId) (t : Stream) (w : Word128)
  /-- `REMU` (R27): Scalar unsigned remainder; a zero divisor gives s[a]. -/
  | remu (c : CoreId) (t : Stream) (w : Word128)
  /-- `AND` (R27): Scalar bitwise AND of two registers. -/
  | andOp (c : CoreId) (t : Stream) (w : Word128)
  /-- `OR` (R27): Scalar bitwise OR of two registers. -/
  | orOp (c : CoreId) (t : Stream) (w : Word128)
  /-- `XOR` (R27): Scalar bitwise exclusive OR of two registers. -/
  | xorOp (c : CoreId) (t : Stream) (w : Word128)
  /-- `SHL` (R27): Scalar shift left by s[b][5:0]. -/
  | shl (c : CoreId) (t : Stream) (w : Word128)
  /-- `SHR` (R27): Scalar logical shift right by s[b][5:0]. -/
  | shr (c : CoreId) (t : Stream) (w : Word128)
  /-- `SAR` (R27): Scalar arithmetic shift right by s[b][5:0]. -/
  | sar (c : CoreId) (t : Stream) (w : Word128)
  /-- `MINU` (R27): Scalar unsigned minimum of two registers. -/
  | minu (c : CoreId) (t : Stream) (w : Word128)
  /-- `MAXU` (R27): Scalar unsigned maximum of two registers. -/
  | maxu (c : CoreId) (t : Stream) (w : Word128)
  /-- `ADDI` (R27): Adds the sign-extended immediate to s[a] and writes s[dst]. -/
  | addi (c : CoreId) (t : Stream) (w : Word128)
  /-- `ANDI` (R27): ANDs s[a] with the zero-extended immediate. -/
  | andi (c : CoreId) (t : Stream) (w : Word128)
  /-- `SHLI` (R27): Shifts s[a] left by imm32[5:0]. -/
  | shli (c : CoreId) (t : Stream) (w : Word128)
  /-- `SHRI` (R27): Shifts s[a] logically right by imm32[5:0]. -/
  | shri (c : CoreId) (t : Stream) (w : Word128)
  /-- `LDI` (R27): Loads the sign-extended immediate into s[dst]. -/
  | ldi (c : CoreId) (t : Stream) (w : Word128)
  /-- `LDIH` (R27): Writes the immediate into the upper 32 bits of s[dst]. -/
  | ldih (c : CoreId) (t : Stream) (w : Word128)
  /-- `LOOPIDX` (R394): Reads the iteration index of an open loop level into s[dst]. -/
  | loopidx (c : CoreId) (t : Stream) (w : Word128)
  /-- `RDID` (R27): Reads the logical core id, course id, stream index or job epoch into s[dst]. -/
  | rdid (c : CoreId) (t : Stream) (w : Word128)
  /-- `LDL` (R28): Loads one line into eight scalar registers, after the alignment and region checks. -/
  | ldl (c : CoreId) (t : Stream) (w : Word128)
  /-- `STL` (R28): Stores eight scalar registers as one line, after the alignment, region and live-code checks. -/
  | stl (c : CoreId) (t : Stream) (w : Word128)
  /-- `LOOP` (R30): Opens a counted loop, or skips its body when the count is zero. -/
  | loop (c : CoreId) (t : Stream) (w : Word128)
  /-- `ENDLOOP` (R31): Repeats or closes the innermost loop, then applies any pending code swap. -/
  | endloop (c : CoreId) (t : Stream) (w : Word128)
  /-- `CALL` (R32): Pushes the return PC and continues at an index of a code region. -/
  | call (c : CoreId) (t : Stream) (w : Word128)
  /-- `RET` (R32): Pops the call stack and continues at the returned PC. -/
  | ret (c : CoreId) (t : Stream) (w : Word128)
  /-- `JMP` (R33): Moves the PC by a signed offset within the allowed bounds. -/
  | jmp (c : CoreId) (t : Stream) (w : Word128)
  /-- `LDD` (R105): Reads a 128-byte descriptor, validates it and binds it to a descriptor register. -/
  | ldd (c : CoreId) (t : Stream) (w : Word128)
  /-- `MOVD` (R27): Copies one descriptor register to another without revalidation. -/
  | movd (c : CoreId) (t : Stream) (w : Word128)
  /-- `DBASE` (R105): Moves a descriptor's base by a signed number of lines and revalidates it. -/
  | dbase (c : CoreId) (t : Stream) (w : Word128)
  /-- `DSIZE` (R27): Sets the size of one descriptor dimension and revalidates the descriptor. -/
  | dsize (c : CoreId) (t : Stream) (w : Word128)
  /-- `DCLR` (R27): Unsets a descriptor register. -/
  | dclr (c : CoreId) (t : Stream) (w : Word128)
  /-- `DA_FILL` (R127): Queues a fill of the shadow tile by rows and gives the shadow to the issuing stream. -/
  | daFill (c : CoreId) (t : Stream) (w : Word128)
  /-- `DA_FILLT` (R140): Queues a fill of the shadow tile by columns, including the transpose of a compressed tile. -/
  | daFillt (c : CoreId) (t : Stream) (w : Word128)
  /-- `DA_SWAP` (R125): Queues the move of the shadow tile into the cells and its transfer of ownership. -/
  | daSwap (c : CoreId) (t : Stream) (w : Word128)
  /-- `DA_MM` (R129): Queues the streaming of operand rows against the stationary tile into accumulator rows. -/
  | daMm (c : CoreId) (t : Stream) (w : Word128)
  /-- `DA_MMNM` (R139): Queues a product against a compressed N:M stationary tile, using position metadata. -/
  | daMmnm (c : CoreId) (t : Stream) (w : Word128)
  /-- `DA_DRAIN` (R141): Queues the move of accumulator rows to a destination tensor, raw or converted. -/
  | daDrain (c : CoreId) (t : Stream) (w : Word128)
  /-- `DA_CLEAR` (R143): Queues the zeroing of a run of accumulator rows. -/
  | daClear (c : CoreId) (t : Stream) (w : Word128)
  /-- `DA_INSTRUCTION_BEGIN` (R124): A queued DA instruction begins once the conditions of its unit hold. -/
  | daInstructionBegin (c : CoreId)
  /-- `DA_INSTRUCTION_COMPLETE` (R124): A running DA fill, product, drain or clear finishes and sends its completion signal. -/
  | daInstructionComplete (c : CoreId) (u : DaUnit)
  /-- `GME_SPMM` (R157): Sparse × dense product folded in the reference order. -/
  | gmeSpmm (c : CoreId) (t : Stream) (w : Word128)
  /-- `GME_SDDMM` (R158): Dense × dense product sampled at the entries of a mask. -/
  | gmeSddmm (c : CoreId) (t : Stream) (w : Word128)
  /-- `GME_GATHER` (R159): Gathers table rows at the given indices. -/
  | gmeGather (c : CoreId) (t : Stream) (w : Word128)
  /-- `GME_SCATTERADD` (R160): Adds source rows into destination rows at the given indices. -/
  | gmeScatteradd (c : CoreId) (t : Stream) (w : Word128)
  /-- `GME_SEGSUM` (R161): Sums each segment of rows by the reference order. -/
  | gmeSegsum (c : CoreId) (t : Stream) (w : Word128)
  /-- `GME_SORT` (R162): Stable sort of keys along the innermost dimension, with optional positions. -/
  | gmeSort (c : CoreId) (t : Stream) (w : Word128)
  /-- `GME_SELECT` (R170): Threshold and top-k selection of experts per token from gate scores. -/
  | gmeSelect (c : CoreId) (t : Stream) (w : Word128)
  /-- `GME_MERGE` (R162): Merge of two sorted key tensors. -/
  | gmeMerge (c : CoreId) (t : Stream) (w : Word128)
  /-- `GME_PACK` (R159): Packs the ragged slots of a tensor into consecutive rows. -/
  | gmePack (c : CoreId) (t : Stream) (w : Word128)
  /-- `GME_UNPACK` (R159): Unpacks consecutive rows into ragged slots, filling the rest with zero. -/
  | gmeUnpack (c : CoreId) (t : Stream) (w : Word128)
  /-- `GME_TRANSPOSE` (R110): Copies a tensor through the GME transpose tile. -/
  | gmeTranspose (c : CoreId) (t : Stream) (w : Word128)
  /-- `GME_INSTRUCTION_BEGIN` (R145): The next queued GME instruction begins when the previous one has completed. -/
  | gmeInstructionBegin (c : CoreId)
  /-- `YEALM_BEGIN` (R154): A lane begins a yealm, in-lane or deferred, once it may reserve its slots. -/
  | yealmBegin (c : CoreId) (lane : LaneId)
  /-- `YEALM_STEAL` (R153): An idle lane steals a yealm from a neighbouring lane's queue. -/
  | yealmSteal (c : CoreId) (lane : LaneId)
  /-- `MERGE_FOLD` (R154): The merge stage folds a deferred yealm's vectors once the row's lower ordinals have finished. -/
  | mergeFold (c : CoreId) (row : Nat)
  /-- `GME_INSTRUCTION_COMPLETE` (R145): A GME instruction completes when its last destination write has left the engine. -/
  | gmeInstructionComplete (c : CoreId)
  /-- `VE_ADD` (R29): Elementwise addition in FP32. -/
  | veAdd (c : CoreId) (t : Stream) (w : Word128)
  /-- `VE_SUB` (R29): Elementwise subtraction in FP32. -/
  | veSub (c : CoreId) (t : Stream) (w : Word128)
  /-- `VE_MUL` (R29): Elementwise multiplication in FP32. -/
  | veMul (c : CoreId) (t : Stream) (w : Word128)
  /-- `VE_MAX` (R29): Elementwise maximum. -/
  | veMax (c : CoreId) (t : Stream) (w : Word128)
  /-- `VE_MIN` (R29): Elementwise minimum. -/
  | veMin (c : CoreId) (t : Stream) (w : Word128)
  /-- `VE_FMA` (R29): Elementwise a × b + c. -/
  | veFma (c : CoreId) (t : Stream) (w : Word128)
  /-- `VE_ABS` (R29): Elementwise absolute value. -/
  | veAbs (c : CoreId) (t : Stream) (w : Word128)
  /-- `VE_NEG` (R29): Elementwise negation. -/
  | veNeg (c : CoreId) (t : Stream) (w : Word128)
  /-- `VE_SCALE` (R29): Multiplies every element by an FP32 immediate. -/
  | veScale (c : CoreId) (t : Stream) (w : Word128)
  /-- `VE_COPY` (R85): Copies a tensor with format conversion under the rounding of the modifiers. -/
  | veCopy (c : CoreId) (t : Stream) (w : Word128)
  /-- `VE_FILL` (R29): Sets every element to an FP32 immediate. -/
  | veFill (c : CoreId) (t : Stream) (w : Word128)
  /-- `VE_BLEND` (R395): Selects elements from one of two sources by a mask, per element. -/
  | veBlend (c : CoreId) (t : Stream) (w : Word128)
  /-- `VE_RSUM` (R94): Sums along the innermost dimension in the reference order. -/
  | veRsum (c : CoreId) (t : Stream) (w : Word128)
  /-- `VE_RMAX` (R94): Takes the maximum along the innermost dimension. -/
  | veRmax (c : CoreId) (t : Stream) (w : Word128)
  /-- `VE_RMIN` (R94): Takes the minimum along the innermost dimension. -/
  | veRmin (c : CoreId) (t : Stream) (w : Word128)
  /-- `VE_RSUMSQ` (R94): Sums squares along the innermost dimension. -/
  | veRsumsq (c : CoreId) (t : Stream) (w : Word128)
  /-- `VE_SMSTAT` (R94): Computes the row maximum and sum of exponentials for softmax. -/
  | veSmstat (c : CoreId) (t : Stream) (w : Word128)
  /-- `VE_SMNORM` (R94): Normalises softmax rows by their statistics. -/
  | veSmnorm (c : CoreId) (t : Stream) (w : Word128)
  /-- `VE_SMBWD` (R94): Computes the softmax backward from the output and the output gradient. -/
  | veSmbwd (c : CoreId) (t : Stream) (w : Word128)
  /-- `VE_FUNC` (R194): Evaluates a function table entry on each element. -/
  | veFunc (c : CoreId) (t : Stream) (w : Word128)
  /-- `VE_DFUNC` (R194): Evaluates a derivative table entry on each element of the saved input. -/
  | veDfunc (c : CoreId) (t : Stream) (w : Word128)
  /-- `VE_CONVERT` (R80): Narrowing conversion with block scaling and delayed or derived scale. -/
  | veConvert (c : CoreId) (t : Stream) (w : Word128)
  /-- `VE_OPT` (R210): Applies the optimiser update of one update group (op 0), writing master, moments, state and compute copy. -/
  | veOpt (c : CoreId) (t : Stream) (w : Word128)
  /-- `VE_OPT_COMMIT` (R214): Commits or refuses a candidate preconditioner root (op 1) and sets the stale flags. -/
  | veOptCommit (c : CoreId) (t : Stream) (w : Word128)
  /-- `VE_DIGEST` (R220): Folds every group of a tensor into the course's weight-digest accumulator. -/
  | veDigest (c : CoreId) (t : Stream) (w : Word128)
  /-- `VE_RNG` (R201): Fills a tensor with counter-generator output under a key. -/
  | veRng (c : CoreId) (t : Stream) (w : Word128)
  /-- `ENGINE_COMPLETION` (R26): An engine instruction finishes and signals at engine completion or destination arrival. -/
  | engineCompletion (c : CoreId) (e : EngKind) (m : Moment)
  /-- `DMA_START` (R110): Queues a transfer from one descriptor to another on a channel. -/
  | dmaStart (c : CoreId) (t : Stream) (w : Word128)
  /-- `DMA_STOP` (R119): Stops a channel at its next descriptor boundary and discards its queued transfers. -/
  | dmaStop (c : CoreId) (t : Stream) (w : Word128)
  /-- `DMA_QUEUE_ADMIT` (R115): A DMA.START at the head of the engine queue moves into its channel's transfer queue once it has room. -/
  | dmaQueueAdmit (c : CoreId)
  /-- `TRANSFER_BEGIN` (R115): A channel begins the transfer at the head of its queue once it has a completion-queue slot. -/
  | transferBegin (c : CoreId) (ch : ChanId)
  /-- `COMPLETION_RECORD` (R116): A transfer ends and writes its completion record, then flag 480 + channel increments. -/
  | completionRecord (c : CoreId) (ch : ChanId)
  /-- `STOPPED_RECORD` (R119): A stopped channel writes its STOPPED record once it has a completion-queue slot. -/
  | stoppedRecord (c : CoreId) (ch : ChanId)
  /-- `VAL_DISPATCH` (R172): Sends each token's row once to each member module that holds its selected experts, then the count headers. -/
  | valDispatch (c : CoreId) (t : Stream) (w : Word128)
  /-- `VAL_COMBINE` (R177): Queues the gate-weighted combination of the returned expert rows at the tokens' home. -/
  | valCombine (c : CoreId) (t : Stream) (w : Word128)
  /-- `COMBINE_BEGIN` (R177): A queued combine starts once its returns are complete and adds them in ascending expert index. -/
  | combineBegin (c : CoreId)
  /-- `VAL_RETURN` (R176): Sends expert output rows home by the route record, then return count headers. -/
  | valReturn (c : CoreId) (t : Stream) (w : Word128)
  /-- `VAL_CANCEL` (R180): Increments the epochs of a range of tag blocks and sends cancellations to every Valley engine. -/
  | valCancel (c : CoreId) (t : Stream) (w : Word128)
  /-- `NOP` (R27): Does nothing except act on its wait and signal fields. -/
  | nop (c : CoreId) (t : Stream) (w : Word128)
  /-- `WAIT` (R25): Waits on a flag condition and then issues like NOP. -/
  | waitOp (c : CoreId) (t : Stream) (w : Word128)
  /-- `SIGNAL` (R53): Signals a local flag, or sends one increment to a remote flag. -/
  | signal (c : CoreId) (t : Stream) (w : Word128)
  /-- `BARRIER` (R66): Arrives at a course, module or fabric barrier. -/
  | barrier (c : CoreId) (t : Stream) (w : Word128)
  /-- `TESTWIN` (R346): Stops the stream at the course's test window. -/
  | testwin (c : CoreId) (t : Stream) (w : Word128)
  /-- `CODESWAP` (R37): Records a pending swap of an old code region for a new one in a target stream. -/
  | codeswap (c : CoreId) (t : Stream) (w : Word128)
  /-- `HALT` (R40): Halts the core with reason NONE, following the halt order. -/
  | haltOp (c : CoreId) (t : Stream) (w : Word128)
  /-- `FLAGRD` (R51): Reads the visible value of a local flag into a scalar register. -/
  | flagrd (c : CoreId) (t : Stream) (w : Word128)
  /-- `HALT_DRAIN_COMPLETE` (R40): A halting core finishes draining its engines and channels and raises its HALT event. -/
  | haltDrainComplete (c : CoreId)
  /-- `DRAIN_TIMEOUT` (R40): Draining outlasts the watchdog period, the remaining work is discarded and drain_incomplete is set. -/
  | drainTimeout (c : CoreId)
  /-- `ICACHE_FILL` (R35): A demanded or prefetched instruction line arrives from the code cache or HBM and fills the cache. -/
  | icacheFill (c : CoreId) (t : Stream) (prefetch : Bool) (cached : CacheRead)
  /-- `WAIT_TIMEOUT` (R62): A stream's wait watchdog reaches its period and the core halts with WAIT_TIMEOUT. -/
  | waitTimeout (c : CoreId) (t : Stream)
  /-- `GATE_CLOSE` (R59): After 8 idle cycles the core's arithmetic clock gate closes. -/
  | gateClose (c : CoreId)
  /-- `BARRIER_ARRIVAL` (R67): An arrival reaches the barrier unit and is counted, held as lookahead or rejected as overrun. -/
  | barrierArrival (k : Nat)
  /-- `BARRIER_ARRIVE` (R70): A module's arrival at a fabric barrier reaches the root module. -/
  | barrierArrive (f : Fin 16) (gen : BitVec 2) (src : ModAddr)
  /-- `BARRIER_RELEASE` (R70): A fabric barrier release reaches a member module and releases its local participants. -/
  | barrierRelease (f : Fin 16) (gen : BitVec 2)
  /-- `INCREMENT` (R259): A remote flag increment frame is applied after every earlier write of its ordered path. -/
  | increment (src : IncSource)
  /-- `WRITE` (R259): A remote write frame is checked against the region registers and its permitted lines are written. -/
  | writeFrame (p : PortId) (f : Frame)
  /-- `WRITE_ACKED` (R259): A remote write frame whose lines are written and then acknowledged by WRITE_ACK. -/
  | writeAcked (p : PortId) (f : Frame)
  /-- `WRITE_ACK` (R26): An acknowledgement of committed lines reaches the requester. -/
  | writeAck (p : PortId) (f : Frame)
  /-- `READ_REQ` (R259): A remote read request is answered with READ_RESP. -/
  | readReq (p : PortId) (f : Frame)
  /-- `READ_RESP` (R259): A read response reaches the requester with lines or a failing status. -/
  | readResp (p : PortId) (f : Frame)
  /-- `REFUSED` (R259): A refusal of remote lines reaches the sender, whose transfer record carries the status. -/
  | refused (p : PortId) (f : Frame)
  /-- `DEST_ABSENT` (R54): A DEST_ABSENT return reaches the source master, which acts by its own rule. -/
  | destAbsent (p : PortId) (f : Frame)
  /-- `E2E_TIMEOUT` (R260): A remote read or acknowledged write is unanswered within the end-to-end timeout and completes as DEST_ABSENT. -/
  | e2eTimeout (p : PortId) (master : BitVec 12) (tag : BitVec 6)
  /-- `LINK_FRAME_RECEIVE` (R254): A frame arrives on a link and is accepted in sequence or refused with LINK_NACK. -/
  | linkFrameReceive (p : PortId) (f : Frame) (crc : W32)
  /-- `LINK_CTRL` (R254): A cumulative acknowledgement and credit grant reaches the sender. -/
  | linkCtrl (p : PortId) (f : Frame)
  /-- `LINK_NACK` (R254): A negative acknowledgement makes the sender resend from the expected frame. -/
  | linkNack (p : PortId) (f : Frame)
  /-- `LINK_ACK_DUE` (R254): The receiver sends a cumulative acknowledgement at least every 2 µs. -/
  | linkAckDue (p : PortId)
  /-- `LINK_RESEND_TIMEOUT` (R254): No acknowledgement advance for 10 µs makes the sender resend from the oldest frame. -/
  | linkResendTimeout (p : PortId)
  /-- `PORT_TRAINED` (R265): A port finishes training, checks the neighbour and resends its unacknowledged frames. -/
  | portTrained (p : PortId) (neighbour : ModAddr)
  /-- `PORT_SIGNAL_LOSS` (R263): A port loses signal, keeps its bypass open and keeps retraining. -/
  | portSignalLoss (l : SignalLoss)
  /-- `LANE_FAILURE` (R249): A lane loses lock or exceeds its FEC error limit and is spared or dropped. -/
  | laneFailure (p : PortId) (e : LaneEvent)
  /-- `LANE_RECALIBRATION` (R391): A lane's 100 ms recalibration falls due and proceeds or is deferred. -/
  | laneRecalibration (p : PortId) (lane : Nat)
  /-- `RECAL_DEFER_EXPIRY` (R391): A deferred recalibration proceeds after 10 ms, or at the first empty frame boundary. -/
  | recalDeferExpiry (p : PortId) (atLeast1ms : Bool)
  /-- `LANE_RECAL_END` (R250): A recalibrated lane returns to the striping at a frame boundary. -/
  | laneRecalEnd (p : PortId) (lane : Nat)
  /-- `BYPASS_OPEN` (R262): BYPASS_SET with action open opens a bypass and retrains its ports with new neighbours. -/
  | bypassOpen (ss : Nat) (pair : Byte) (force : Byte)
  /-- `BYPASS_CLOSE` (R262): BYPASS_SET with action close starts the axis drain before the bypass closes. -/
  | bypassClose (ss : Nat) (pair : Byte) (force : Byte)
  /-- `BYPASS_DRAIN_COMPLETE` (R264): The axis has drained, or 1 ms has passed, and the bypass closes. -/
  | bypassDrainComplete (pair : Fin 4)
  /-- `VALLEY_ROW` (R173): A dispatched row reaches the collector, fans out and lands in slots, replacing or dropping at capacity. -/
  | valleyRow (c : CourseId) (row : ValRow)
  /-- `COUNT_HEADER` (R175): A dispatch count header reaches the collector; the last one triggers completion notices. -/
  | countHeader (c : CourseId) (h : CountHdr)
  /-- `COMPLETION_NOTICE` (R175): A course receives the completion notice and sorts, places and publishes its slot counts. -/
  | completionNotice (c : CourseId) (layer : Nat) (tag : BitVec 16) (backward : Bool)
  /-- `VALLEY_CANCEL` (R180): A cancellation reaches a Valley engine and frees the sets and records of its blocks. -/
  | valleyCancel (c : CourseId) (block : Byte) (epoch : Byte)
  /-- `RETURN_ROW` (R176): A returned expert row lands in the sender course's return area. -/
  | returnRow (c : CourseId) (row : RetRow)
  /-- `RETURN_COUNT` (R177): A return count header arrives; the last one increments returns_flag. -/
  | returnCount (c : CourseId) (h : CountHdr) (fromModule : ModAddr) (fromCourse : Nat)
  /-- `COLL_ENTRY_BEGIN` (R270): A sequencer entry begins when its trigger flag reaches the trigger count. -/
  | collEntryBegin (sl : SlopeId)
  /-- `COLL_ENTRY_COMPLETE` (R270): An entry's last destination line commits and its done flag increments. -/
  | collEntryComplete (sl : SlopeId)
  /-- `COLL_DATA` (R272): A collective chunk arrives, is added in rank order and passed on or delivered. -/
  | collData (sl : SlopeId) (entry : Nat) (chunk : Nat) (fromRank : Nat) (elems : List W32)
  /-- `COLL_CREDIT` (R272): A chain credit arrives and lets the sender pass further chunks. -/
  | collCredit (sl : SlopeId) (entry : Nat) (freed : Nat)
  /-- `COLL_ABORT` (R275): An abort arrives in place of a chunk and is passed along its remaining path. -/
  | collAbort (sl : SlopeId) (entry : Nat) (chunk : Nat) (cause : Byte)
  /-- `LEND_WINDOW_END` (R268): A lend window's end trigger is reached and detoured routing stops. -/
  | lendWindowEnd (sl : SlopeId)
  /-- `RESHARD_START` (R278): A write of RESHARD_CTRL.start while PAUSED starts the staging check and vote of a host re-shard. -/
  | reshardStart (ss : Nat) (priv : Bool) (value : Word)
  /-- `RESHARD_VOTE` (R277): A re-shard vote arrives at rank 0, or rank 0's result arrives at a member. -/
  | reshardVote (rank : Nat) (digest : Word) (status : Status)
  /-- `RESHARD_COPY_COMPLETE` (R276): A copy of a permutation cycle completes and the cycle's next copy begins. -/
  | reshardCopyComplete (buffer : Fin 2) (cause : Byte)
  /-- `STEP_ADVANCE` (R215): A step-barrier generation completes; the schedule engine increments n, computes the values and releases. -/
  | stepAdvance (c : CourseId)
  /-- `DIGEST_CLOSE` (R222): Once every active course has passed step n, the digest is summed and its record sent. -/
  | digestClose
  /-- `DIGEST` (R223): A digest record arrives from another member; complete records are compared. -/
  | digestRecord (r : DigestRec)
  /-- `SCRUB_READ` (R238): The scrubber reads the next line at its pace, in an idle cycle or a forced slot. -/
  | scrubRead (u : ScrubUnit) (bank : Nat) (cached : CacheRead) (forced : Bool)
  /-- `SCRUB_WRITE_BACK` (R239): The scrubber writes a corrected line back, unless a master has rewritten it. -/
  | scrubWriteBack (u : ScrubUnit) (line : Nat)
  /-- `BANK_WAKE` (R231): A bank in retention finishes waking and the waiting access proceeds. -/
  | bankWake (b : BankUnit)
  /-- `BANK_OFF_ACCESS` (R231): An access to a bank that is off powers and zeroes it, then proceeds. -/
  | bankOffAccess (b : BankUnit) (master : BitVec 16)
  /-- `BANK_POWER` (R231): A write of BANK_POWER or UL_BANK_POWER changes bank power states. -/
  | bankPower (ss : Nat) (priv : Bool) (addr value : Word)
  /-- `REGION_WRITE` (R226): A privileged write of REGION_BASE or REGION_LIMIT, judged on the resulting pair. -/
  | regionWrite (ss : Nat) (priv : Bool) (addr value : Word)
  /-- `FLIP_ARM` (R242): A write of SPAD_FLIP, UL_FLIP or HBM_FLIP arms bit flips for the next written code word. -/
  | flipArm (ss : Nat) (priv : Bool) (addr value : Word)
  /-- `RNG_KEY_STREAM_WRITE` (R203): A write of a key's stream while PAUSED, taking effect at RESUME_JOB. -/
  | rngKeyStreamWrite (ss : Nat) (priv : Bool) (key : Fin 8) (value : Word)
  /-- `RCP_MESSAGE` (R298): An RCP datagram is received and passed through header, CRC, session and sequence checks. -/
  | rcpMessage (f : EthFrame)
  /-- `ARP_ND_REQUEST` (R295): An ARP or IPv6 neighbour-discovery request for the module's address is answered. -/
  | arpNdRequest (f : EthFrame) (target : BitVec 128)
  /-- `ICMP_ECHO` (R295): An ICMPv4 or ICMPv6 echo request is answered. -/
  | icmpEcho (f : EthFrame)
  /-- `DHCP_MESSAGE` (R295): A DHCPv4 or address-autoconfiguration message sets the module's address. -/
  | dhcpMessage (f : EthFrame) (kind : DhcpKind) (addr : BitVec 128)
  /-- `PTP_MESSAGE` (R296): A PTP message updates the timebase, stepping once at first lock and slewing afterwards. -/
  | ptpMessage (f : EthFrame) (m : PtpMsg)
  /-- `OPEN_SESSION` (R300): Opens a new owner or observer session. -/
  | openSession (src port : Nat) (hostSeq : Nat) (notify : Bool) (payload : List Byte)
  /-- `SESSION_RESUME` (R307): OPEN_SESSION with the resume flag moves an open session to the new source. -/
  | sessionResume (src port : Nat) (hostSeq : Nat) (notify : Bool) (payload : List Byte)
  /-- `CLOSE_SESSION` (R302): Closes the session after its response. -/
  | closeSession (ss : Nat)
  /-- `STATUS` (R299): Returns the module status and the current challenge. -/
  | statusCmd (ss : Nat)
  /-- `READ_REG` (R383): Reads 1–64 registers in order in the session's view. -/
  | readReg (ss : Nat) (priv : Bool) (addrs : List Word)
  /-- `WRITE_REG` (R11): Writes registers that have no behaviour of their own, stopping at the first refusal. -/
  | writeReg (ss : Nat) (priv : Bool) (pairs : List (Word × Word))
  /-- `LOAD_IMAGE` (R290): Checks a staged Cribel image in stages and applies it. -/
  | loadImage (ss : Nat) (staging : Word) (img : ImageBodies)
  /-- `UNLOAD_IMAGE` (R293): Unloads the image and returns the image and generator registers to reset. -/
  | unloadImage (ss : Nat)
  /-- `START_JOB` (R338): Starts the loaded job if every loaded course is ready. -/
  | startJob (ss : Nat)
  /-- `PAUSE_JOB` (R314): Sets pause_pending so cores stop after their next test window. -/
  | pauseJob (ss : Nat)
  /-- `JOB_PAUSED` (R314): Every loaded core has stopped and drained and the job becomes PAUSED. -/
  | jobPaused
  /-- `RESUME_JOB` (R314): Releases a paused job or withdraws a pending pause. -/
  | resumeJob (ss : Nat)
  /-- `CANCEL_JOB` (R315): Halts every core, stops every channel and bumps every epoch; the job drains. -/
  | cancelJob (ss : Nat)
  /-- `JOB_DRAIN_COMPLETE` (R315): Every halt has drained and the engines are idle, and the job becomes HALTED. -/
  | jobDrainComplete
  /-- `BULK_WRITE` (R317): Writes up to 128 lines from the host, with an optional flag increment afterwards. -/
  | bulkWrite (ss : Nat) (coalesce : Bool) (payload : List Byte)
  /-- `BULK_READ` (R319): Reads up to 128 lines to the host, ending early at an uncorrectable line. -/
  | bulkRead (ss : Nat) (payload : List Byte)
  /-- `EVENT_FETCH` (R309): Returns event records from a given device sequence. -/
  | eventFetch (ss : Nat) (first : Word) (count : BitVec 16)
  /-- `EVENT_NOTICE` (R310): A notify session is sent a notice within 1 ms of a new event. -/
  | eventNotice (ss : Nat)
  /-- `COALESCED_RESPONSE` (R306): One response is sent for a run of coalesced BULK_WRITE commands. -/
  | coalescedResponse (ss : Nat)
  /-- `REORDER_TIMEOUT` (R303): A held command whose gap stays open for 100 ms is discarded. -/
  | reorderTimeout (ss : Nat) (hostSeq : Nat)
  /-- `SESSION_IDLE` (R302): A session with no message for idle_s seconds closes. -/
  | sessionIdle (ss : Nat)
  /-- `CHALLENGE_ROLLOVER` (R301): The owner-authentication challenge changes every 60 s. -/
  | challengeRollover
  /-- `LONG_COMMAND_COMPLETE` (R305): A long command completes and its response is sent and cached. -/
  | longCommandComplete
  /-- `ATTEST` (R368): Returns an attestation report signed by the identity key. -/
  | attest (ss : Nat) (payload : List Byte)
  /-- `FW_STAGE` (R365): Verifies a firmware package and writes it into the inactive slot. -/
  | fwStage (ss : Nat) (staging length : Word) (kind : Byte)
  /-- `FW_COMMIT` (R366): Reverifies a staged package, switches the active slot and raises the rollback counter. -/
  | fwCommit (ss : Nat) (kind : Byte)
  /-- `LC_CHANGE` (R369): Performs an authorised life-cycle transition and wipes the secure bank. -/
  | lcChange (ss : Nat) (target : Byte) (r s : Nat)
  /-- `SECURE_WIPE` (R373): Scope 0 wipes the secure bank. -/
  | secureWipe (ss : Nat) (scope : Byte)
  /-- `SECURE_WIPE_FULL` (R373): Scope 1 also zeroes every HBM and SRAM line. -/
  | secureWipeFull (ss : Nat)
  /-- `MODULE_WARM_RESET` (R316): RESET level 0 drains the axes, unloads the image, closes sessions and restarts firmware. -/
  | moduleWarmReset (ss : Nat)
  /-- `COURSE_RESET` (R337): RESET level 1 resets one course and repeats its logic self-test. -/
  | courseReset (ss : Nat) (target : BitVec 16)
  /-- `CORE_RESET` (R337): RESET level 2 resets one logical core. -/
  | coreReset (ss : Nat) (target : BitVec 16)
  /-- `RESET_COMPLETE` (R337): A course or core reset completes and the held traffic and accesses are applied. -/
  | resetComplete (u : ResetUnit) (testPassed : Bool)
  /-- `TELEMETRY_CONTROL` (R320): A write of RIDGE_DMA_CTRL.telemetry_on starts or stops the telemetry channel. -/
  | telemetryControl (ss : Nat) (priv : Bool) (value : Word)
  /-- `SPILL_CONTROL` (R320): A write of RIDGE_DMA_CTRL.spill_on starts or stops the event-spill channel. -/
  | spillControl (ss : Nat) (priv : Bool) (value : Word)
  /-- `RIDGE_CQ_CONFIG` (R320): A write configures a ridge channel's completion queue, zeroing it and restarting its count. -/
  | ridgeCqConfig (ss : Nat) (priv : Bool) (ch : Fin 3) (value : Word)
  /-- `RIDGE_CQ_RELEASE` (R320): A write releases consumed ridge completion-queue entries. -/
  | ridgeCqRelease (ss : Nat) (priv : Bool) (ch : Fin 3) (value : Word)
  /-- `TELEMETRY_SNAPSHOT` (R392): A telemetry period falls due and a snapshot is written, or skipped. -/
  | telemetrySnapshot (begun : Bool)
  /-- `EVENT_SPILL` (R320): The spill channel copies event records to its ring, after 32 records or 1 ms of quiet. -/
  | eventSpill (quiet : Bool)
  /-- `POWER_ON` (R339): Input applied, or restart after a shutdown, begins bring-up from the boot ROM. -/
  | powerOn (input : PowerInput) (failed : List (Nat × Nat)) (tamperOpen : Bool)
  /-- `BRINGUP_FUNCTION_DONE` (R340): A bring-up function passes and sets its ready bit, or fails. -/
  | bringupFunctionDone (f : BringUp) (test : Option Nat)
  /-- `BRINGUP_DEADLINE` (R340): Every function is ready or failed, bringup_done is set and the power state becomes READY. -/
  | bringupDeadline
  /-- `SUPPLY_WARN` (R323): The input enters the reduced range and the cap may drop to 1,200 W. -/
  | supplyWarn (mv : BitVec 16)
  /-- `SUPPLY_RECOVERED` (R323): The input stays in the operating range for 1 s and the reduced cap ends. -/
  | supplyRecovered (mv : BitVec 16)
  /-- `UNDERVOLTAGE` (R323): The input stays below 45.0 V for 100 µs. -/
  | undervoltage (mv : BitVec 16)
  /-- `OVERVOLTAGE` (R323): The input stays above 62.0 V for 10 µs. -/
  | overvoltage (mv : BitVec 16)
  /-- `PD_BREAK` (R323): The presence-detect pin breaks. -/
  | pdBreak
  /-- `THERMAL_TRIP` (R325): A junction sensor reads 115 °C or more. -/
  | thermalTrip (sl : SlopeId) (tj : BitVec 16)
  /-- `COOLANT_WARN` (R325): Coolant inlet temperature or flow moves out of limits. -/
  | coolantWarn (inlet outlet flow : BitVec 16)
  /-- `SLOPE_HOT` (R325): A slope's junction or stack temperature crosses its limit and the slope becomes hot. -/
  | slopeHot (sl : SlopeId) (tj stack : BitVec 16)
  /-- `SLOPE_COOL` (R325): A hot slope's temperatures fall below their limits. -/
  | slopeCool (sl : SlopeId) (tj stack : BitVec 16)
  /-- `GOVERNOR_PERIOD` (R329): Every 1 ms the governor adjusts slope clocks and throttles against the cap. -/
  | governorPeriod (watts : Nat) (slopeWatts : List Nat)
  /-- `CLAMP` (R330): Power above 2,600 W over 20 µs clamps every fast slope to 800 MHz. -/
  | clamp (watts : Nat)
  /-- `STANDBY_ENTER` (R333): A write of 1 to POWER_CTRL.standby drains the axes and powers the slopes off. -/
  | standbyEnter (ss : Nat) (priv : Bool) (value : Word)
  /-- `STANDBY_EXIT` (R333): A write of 0 to POWER_CTRL.standby wakes HBM and repeats course and port bring-up. -/
  | standbyExit (ss : Nat) (priv : Bool) (value : Word)
  /-- `RIDGE_WATCHDOG_EXPIRY` (R343): One second without a firmware heartbeat causes a module warm reset. -/
  | ridgeWatchdogExpiry (ageMs : W32)
  /-- `TEST_WINDOW_OPEN` (R348): Every loaded core of a course is at the window; it migrates, is held or only releases. -/
  | testWindowOpen (c : CourseId)
  /-- `TEST_WINDOW_ABANDON` (R347): A window not opened within its gathering limit is abandoned and the cores resume. -/
  | testWindowAbandon (c : CourseId)
  /-- `MIGRATION_SWITCH` (R349): A role's copy ends, the core map switches, held traffic is released and the course resumes. -/
  | migrationSwitch (c : CourseId)
  /-- `TEST_ITEM_RESULT` (R356): The tester finishes a test item, rerunning it on failure and acting on the outcome. -/
  | testItemResult (c : CourseId) (item : W32) (run rerun : TestRun) (lastOfPass : Bool)
  /-- `SWEEP_ITEM` (R355): The ridge runs a shared-unit test item in idle cycles. -/
  | sweepItem (kind : Byte) (index : Nat) (item : W32) (pass rerunPass : Bool) (sweepDone : Option W32)
  /-- `TEST_WINDOW_LATE` (R345): A course passes its window spacing bound and the guarantee lapses. -/
  | testWindowLate (c : CourseId) (ms : W32)
  /-- `PRESENCE_BUTTON` (R372): A press of the presence button opens or restarts a 300 s presence window. -/
  | presenceButton
  /-- `SERVICE_JUMPER` (R372): Fitting or removing the service jumper starts or ends presence. -/
  | serviceJumper (fitted : Bool)
  /-- `PRESENCE_WINDOW_EXPIRY` (R372): The presence window runs out. -/
  | presenceWindowExpiry
  /-- `TAMPER_BREAK` (R375): A tamper-seal break wipes the secure bank, closes sessions and blows a tamper fuse. -/
  | tamperBreak
  /-- `OWNER_KEY_INSTALL` (R371): A write of OWNER_KEY_CTRL with action install installs an owner key. -/
  | ownerKeyInstall (ss : Nat) (priv : Bool) (slot : Fin 4)
  /-- `OWNER_KEY_REVOKE` (R371): A write of OWNER_KEY_CTRL with action revoke revokes an owner key slot. -/
  | ownerKeyRevoke (ss : Nat) (priv : Bool) (slot : Fin 4)
  /-- `OWNER_POLICY_WRITE` (R370): A write of OWNER_POLICY that takes effect for the next load and session. -/
  | ownerPolicyWrite (ss : Nat) (priv : Bool) (value : Word)
  /-- `DEBUG_UNLOCK` (R374): A write of DEBUG_CTRL.unlock opens debug access in SERVICE when permitted. -/
  | debugUnlock (ss : Nat) (priv : Bool) (value : Word)
  /-- `SECURE_BANK_ACCESS` (R377): A write of the secure bank window, refused for security-engine lines and during a wipe. -/
  | secureBankAccess (ss : Nat) (priv : Bool) (word : Fin 8) (value : Word)
  /-- `COOLANT_RESTORED` (R345): Coolant inlet returns to 40 °C or less and flow to 2.0 L/min or more, so the coolant condition holds again and the guarantee may be restored. -/
  | coolantRestored (inlet outlet flow : BitVec 16)
  /-- `DIGEST_COMPARISON_OVERDUE` (R345): No digest comparison of a domain has occurred within 600 s, or 450 s while a course has no spare, so the digest condition lapses with GUARANTEE_LAPSE. -/
  | digestComparisonOverdue (domain : Fin 4)
  /-- `SECURE_BANK_WIPE_END` (R245): The wipe of all 4,096 secure-bank lines finishes, and bank reads stop returning NOT_READY. -/
  | secureBankWipeEnd
  deriving DecidableEq, Repr

end Sys2Proof
end

