-- ==== Sys2Proof/Decode.lean ====
section
/-! DEFINITION. The table of operations gives its rows no bits: a command of this block is named, not encoded. -/

namespace Sys2Proof

/-- No word of the table's numbering spells a command, for no row of the table gives bits. -/
def decodeTableWord (_nbits _w : Nat) : Option Instr := none

end Sys2Proof
end

