-- ==== Sys2Proof/Config.lean ====
section
/-! DEFINITION. Constants of the module, and the free values: what the manual leaves open or what a chip fixes for
itself. A free value has no body, so nothing can be proved about which value it is. -/

namespace Sys2Proof.Config

/-! ### Free values -/

/-- A value the manual leaves open; the k-th one a run draws (`State.free` counts them). -/
opaque freeValue : Nat → Word
/-- The code of an RCP status in Table 14-3's field: the manual names the statuses and numbers none. -/
opaque statusCode : Status → BitVec 16
/-- The MAC address fused into the module. -/
opaque hostMac : BitVec 48
/-- The serial number fused into the module. -/
opaque serial : Word
/-- The session id given to the k-th session opened since power-on (R300: nonzero). -/
opaque sessionId : Nat → BitVec 32
/-- The k-th challenge of 32 bytes (R301). -/
opaque challengeByte : Nat → Nat → Byte
/-- The public identity key that the security engine derives from fused seed material and its physically unclonable response (R367). -/
opaque identityKey : Nat × Nat
/-- Byte i of that key's signature over a digest (R368). -/
opaque identitySign : Nat × Nat → Nat → Nat → Byte
/-- The certificates of the chain in DER (R367): the Knamon root, the intermediate, and the module's by part number, serial and
identity key. -/
opaque rootCert : List Byte
opaque intermediateCert : List Byte
opaque moduleCert : List Byte → Word → Nat × Nat → List Byte
/-- Knamon's factory key, which authorises some life-cycle transitions (R369). -/
opaque factoryKey : Nat × Nat
/-- The public key that a signing certificate in DER carries, and whether it chains to the Knamon root key of a digest (R363). -/
opaque certKey : List Byte → Nat × Nat
opaque certChains : List Byte → BitVec 384 → Bool
/-- What the bytes of an image's sections without a byte layout stand for (R283). -/
opaque imageBodies : List Byte → ImageBodies
/-- The line at which an image section without a byte layout fails (R290, R293). -/
opaque imageFaultLine : Nat → Nat → BitVec 42
/-- Credits that a LINK_CTRL payload grants (R254, R256): payload, pair of channel and class, private or shared. -/
opaque creditGrant : Nat → Nat → Bool → Nat
/-- Line address of a place that a layer's placement table names (Table 08-1; the manual gives the table no layout):
the table's bytes, then kind, direction, course, slot or core, set, index. Kinds: 0 row of a slot's underlay buffer, 1 row
of its overflow portion, 2 line of its gate vector, 3 line of the set's count area, 4 place of the return area. -/
opaque placement : List Byte → Nat → Bool → Nat → Nat → Nat → Nat → Nat

/-- What the end of a permutation table stands for (R278 gives it no layout): a replacement shard map, and replacement
digest bases by allocation handle. -/
opaque reshardShards : List Byte → List TensorShards
opaque reshardBases : List Byte → List (Nat × Nat)

/-- Scale byte under which returned rows of a layer in a plain scaled format are read: no field of Table 08-1 gives it. -/
opaque returnScale : Nat → Byte

/-- A contribution length that cannot be read from its table (R271 does not say): slope, entry and place in the table. -/
opaque unreadLength : Nat → Nat → Nat → Nat

/-- Tokens of a step that the return area of a layer holds, by the bytes of its placement table (Table 08-1; the manual gives the table
no layout). -/
opaque returnTokens : List Byte → Nat

/-- What GME.SDDMM writes at an output position that no row owns (R158 does not say): by code region and index of the instruction and by
position. -/
opaque unownedSum : Nat → Nat → Nat → BitVec 32

/-- Which of several required descriptors that are d0 or unset DESCRIPTOR_UNSET names (R43 does not say): an index, taken modulo
their number, by opcode and their registers. -/
opaque unsetPick : Nat → List Nat → Nat

/-- The code that a conversion to FP32's value gives in a format for which R83 and R84 state no conversion: INT32, UINT32, UINT64, BYTE,
CBF16 and CFP32, by format code and value. -/
opaque openCode : Nat → BitVec 32 → Nat

/-- The FP32 value of a complex element, which R75 does not state: by format code and element code. -/
opaque openValue : Nat → Nat → BitVec 32

/-- The place on its slope's grid at which the bridge joins it (R286 does not say), modulo 16. -/
opaque bridgeAt : Nat

/-! ### Sizes -/

def queueDepth : Nat := 16
def outboundDepth : Nat := 32
def channelDepth : Nat := 8
def stackDepth : Nat := 8

end Sys2Proof.Config
end

