-- ==== Sys2Proof/Machine/State.lean ====
section
/-! DEFINITION. Everything the manual gives the module to hold, as plain data, unit by unit, and the module right
after power-on reset. A table (`Tab`) lists a unit only where it differs from that unit's default value. -/

namespace Sys2Proof.Machine

/-! ### A stream context (R16, Table 02-1) -/

/-- An open loop (R30): start index, end index, iterations left, iteration index, the region its indices lie in
(R37) and the call depth at which it was opened (R32). The end index is formed without wrap. -/
structure LoopEntry where
  start : W32
  stop : Nat
  remaining : Word
  iter : Word
  region : Byte
  frame : Nat
  deriving DecidableEq, Repr

/-- A call-stack entry: the return PC (R32). -/
structure CallEntry where
  region : Byte
  index : W32
  deriving DecidableEq, Repr

/-- What a stream that does not issue is held by (Table 02-17). -/
inductive Hold where
  | none | flag | queue | fetch | window | paused
  deriving DecidableEq, Repr

/-- An arrival of a stream that has not been released yet, in the order of arrival (R68). -/
structure Unreleased where
  level : Nat
  course : Nat
  barrier : Nat
  gen : Nat
  done : Bool
  deriving DecidableEq, Repr

structure StreamCtx where
  hasEntry : Bool := false
  pcRegion : Byte := 0
  pcIndex : W32 := 0
  sregs : Tab Word := []
  dregs : Tab Desc := []
  loops : List LoopEntry := []          -- innermost first
  calls : List CallEntry := []          -- newest first
  swap : Option (Byte × Byte) := none   -- old and new region
  wdog : Nat := 0                       -- wait watchdog count (R61)
  hold : Hold := .none
  held : Option Word128 := none         -- the instruction that is held
  atWindow : Bool := false              -- has issued TESTWIN (R346)
  fetchLine : Option Nat := none        -- its one-line fetch buffer (R35): HBM address
  prefLine : Option Nat := none         -- its line of sequential prefetch
  prefetch : Option (Byte × Nat) := none        -- the prefetch request under way: region and HBM address
  adrift : List (Byte × Nat) := []      -- abandoned prefetch requests that still fill the cache, oldest first
  unreleased : List Unreleased := []
  deriving DecidableEq, Repr

/-! ### Engines of a core -/

/-- The signal of an instruction, its amount taken at issue (R21, R26). -/
structure Sig where
  en : Bool
  flag : Nat
  when_ : Nat
  amount : W32
  deriving DecidableEq, Repr

/-- Published schedule values of a group (Table 10-8). -/
structure SchedVal where
  eta : W32 := 0
  d : W32 := 0
  beta : W32 := 0
  deriving DecidableEq, Repr

/-- An instruction in an engine queue, with the operands taken at issue (R21). -/
structure EngOp where
  w : Word128
  stream : Stream
  region : Byte
  index : W32
  sig : Sig
  descs : Tab Desc                      -- the descriptor registers it names
  epochs : List Byte := []              -- Valley: epoch of the tag's block at issue (R179)
  step : Word := 0                      -- step counter of the course at issue (R215)
  sched : SchedVal := {}                -- VE.OPT: the schedule values of its group at issue (R215)
  begun : Bool := false
  deriving DecidableEq, Repr

/-- What is known of a stationary or shadow tile at issue and in execution (R125, R127, R137). -/
structure TileMeta where
  fmt : Byte := 0
  compressed : Bool := false
  pattern : Nat := 3
  transposed : Bool := false
  zero : Bool := false
  deriving DecidableEq, Repr

/-- A stored tile element: its bits and its scale byte (127 for an unscaled format). -/
structure Cell where
  bits : W32
  scale : Byte
  deriving DecidableEq, Repr

/-- A tile: cells by row × 4096 + column; for a compressed tile, stored slot row and stored column. -/
structure Tile where
  info : TileMeta := {}
  cells : Tab Cell := []
  deriving DecidableEq, Repr

structure DenseArray where
  queue : List EngOp := []
  running : List (DaUnit × EngOp) := []
  shadowOwner : Option Stream := none
  statOwner : Option Stream := none
  issShadow : TileMeta := {}                       -- the shadow as the instructions issued so far leave it
  issStat : TileMeta := { zero := true }
  shadow : Tile := {}
  stat : Tile := { info := { zero := true } }
  drained : List (List W32) := []                  -- rows the running drain has read, not yet written (R141)
  acc : Tab W32 := []                              -- row × 128 + column
  accErr : Tab (List Nat) := []                    -- row -> flipped bits of its code words
  extBanks : BitVec 30 := 0
  halving : BitVec 7 := 64
  freeze : Word := 0
  metaDrop : W32 := 0
  zeroSkip : Word := 0
  rowsStreamed : Word := 0
  deriving DecidableEq, Repr

/-- A yealm (Table 07-4) with its kept entries: positions and columns. -/
structure Yealm where
  row : Nat
  firstEntry : Nat
  firstChunk : Nat
  chunks : Nat
  ordinal : Nat
  last : Bool
  entries : List (Nat × Nat)
  number : Nat
  deriving DecidableEq, Repr

/-- The vectors a deferred yealm left in the segment store: per occupied chunk, one vector for each pass. -/
structure Deferred where
  row : Nat
  ordinal : Nat
  slots : Nat
  vectors : List (List W32)
  deriving DecidableEq, Repr

/-- An INDEX_DROP event under way (Table 07-3). -/
structure DropNote where
  reg : Nat
  kind : Nat
  position : Nat
  value : Nat
  count : Nat
  deriving DecidableEq, Repr

/-- A line that the GME has read through a zero stride: the descriptor, the indices of its other dimensions, the line of the row and
its bytes (R109). -/
structure Shared where
  desc : Desc
  key : List Nat
  line : Nat
  data : List Byte
  deriving DecidableEq, Repr

structure Gme where
  queue : List EngOp := []
  run : Option EngOp := none
  outs : Tab (Nat × W32) := []                     -- GME.SDDMM: row and result by output position (R158)
  shared : List Shared := []                       -- lines read through zero strides in this instruction
  laneBusy : Tab Nat := []                         -- lane -> arith_s cycles its yealm still takes (Table 07-7)
  inLane : Tab (Nat × Nat) := []                   -- lane -> row and ordinal of the yealm that folds in it (R154)
  dropped : Tab (List Nat) := []                   -- positions dropped so far, by register (R150)
  lastOpcode : Byte := 0
  lanes : Tab (List Yealm) := []                   -- the yealm queue of each lane, head first
  uncut : List Yealm := []                         -- yealms the cutter still holds (R152)
  finished : List (Nat × Nat) := []                -- row, next ordinal to finish
  deferred : List Deferred := []
  slotsUsed : Nat := 0
  drops : List DropNote := []
  segBanks : Nat := 0                              -- GME-segment extension banks (R285)
  steals : W32 := 0
  indexDrop : W32 := 0
  orderDrop : W32 := 0
  mergeStall : Word := 0
  yealms : Word := 0
  selEmptyPass : W32 := 0
  selEmptyForced : W32 := 0
  selNanScore : W32 := 0
  deriving DecidableEq, Repr

/-- A transfer in progress on a channel (R116). -/
structure Xfer where
  op : EngOp
  began : Nat := 0                                 -- arith_s cycle count at which it began
  status : Byte := 0
  own : Bool := false                              -- the fault is this core's, which halts with it
  write : Bool := false                            -- an own REGION_DENIED of a write
  lines : Nat := 0
  addr : Nat := 0
  todo : List Nat := []                            -- remote lines not yet asked for or sent
  sent : Nat := 0                                  -- remote destination lines that have left
  refused : Nat := 0                               -- those of them that were refused or lost
  signalled : Bool := false                        -- its own signal has been sent
  pending : Nat := 0                               -- remote lines not yet answered
  got : Tab (List Byte) := []                      -- source lines at hand: remote ones received, local ones read for a remote transfer
  deriving DecidableEq, Repr

/-- The arrival signal of a transfer whose record has been written: it waits for the acknowledgements still due (R116). -/
structure LateSignal where
  id : Nat
  op : EngOp
  pending : Nat
  deriving DecidableEq, Repr

/-- A stop that waits to write its STOPPED record (R119): the instruction that caused it, none for a halt. -/
structure Stopping where
  cause : Option EngOp
  next : Option EngOp
  deriving DecidableEq, Repr

structure DmaChan where
  declared : Bool := false
  cqBase : Nat := 0
  log2 : Nat := 0
  release : Nat := 0
  queue : List EngOp := []
  cur : Option Xfer := none
  stops : List Stopping := []
  records : W32 := 0
  stall : Word := 0
  deriving DecidableEq, Repr

/-- A signal that waits for its destination arrival (R26): engine, core whose flag it is, flag and amount. -/
structure PendArrive where
  eng : EngKind
  core : Nat
  flag : Nat
  amount : W32
  onPath : Bool := false                           -- its destination is that core's scratchpad, the path that orders it (R55)
  deriving DecidableEq, Repr

/-- An increment in a core's outbound signal queue (R53). -/
structure OutSignal where
  module : ModAddr
  core : Nat
  flag : Nat
  vc : Nat
  amount : W32
  deriving DecidableEq, Repr

/-- An instruction-cache line (R35): HBM address, region and code epoch at fill. -/
structure CacheLine where
  addr : Nat
  region : Byte
  epoch : W32
  deriving DecidableEq, Repr

/-- A flip mask register (Table 11-9). -/
structure Flip where
  armed : Bool := false
  target : Bool := false
  enable : BitVec 4 := 0
  pos : List (BitVec 10) := [0, 0, 0, 0]
  deriving DecidableEq, Repr

/-- The lap of a bank (R238, Table 11-8): the line that the scrubber reads next, the timebase at which the lap began, words corrected in it,
laps completed and the duration of the last. -/
structure Lap where
  next : Nat := 0
  began : Nat := 0
  ce : Nat := 0
  laps : W32 := 0
  lapMs : W32 := 0
  deriving DecidableEq, Repr

/-- The scrubber of a memory (R236 to R240): lines read and not yet written back, and the lap of each bank. -/
structure Scrub where
  fix : List Nat := []
  banks : Tab Lap := []
  deriving DecidableEq, Repr

/-- The halt record (Tables 02-13 to 02-16). -/
structure HaltRec where
  halted : Bool := false
  drainIncomplete : Bool := false
  draining : Bool := false
  engine : BitVec 3 := 0
  stream : BitVec 2 := 0
  pcRegion : Byte := 0
  pcIndex : W32 := 0
  reason : Byte := 0
  flag : BitVec 9 := 0
  info : Word := 0
  secondary : W32 := 0
  deriving DecidableEq, Repr

/-- A logical core: its role, which moves whole at a migration (R349). -/
structure Core where
  active : Bool := false
  f : StreamCtx := {}
  b : StreamCtx := {}
  u : StreamCtx := {}
  order : List Stream := [.B, .F, .U]              -- issue priority (R20)
  flags : Tab W32 := []
  halt : HaltRec := {}
  codeEpoch : W32 := 0
  leftAt : Tab W32 := []                           -- region -> code epoch at its last retirement
  icache : Tab (List CacheLine) := []              -- per set, most recently used first
  icacheMiss : Word := 0
  icacheUeRefetch : W32 := 0
  wdogLog2 : BitVec 6 := 32
  gated : Bool := false
  gatedCycles : Word := 0
  gateWakes : Word := 0
  outSignals : List OutSignal := []
  remoteSignalAbsent : W32 := 0
  arrives : List PendArrive := []
  rounds : Tab (BitVec 2) := []                    -- (level × 64 + barrier) × 3 + stream
  da : DenseArray := {}
  gme : Gme := {}
  ve : List EngOp := []
  dma : List EngOp := []
  chans : Tab DmaChan := []
  late : List LateSignal := []
  val : List EngOp := []                           -- its queue at the course port
  convertPlainSat : W32 := 0
  valCombineAbsent : W32 := 0
  optUpdates : Word := 0
  optIdleSkip : W32 := 0
  optEmptyGrad : W32 := 0
  optNonfinite : W32 := 0
  optPrecondStale : W32 := 0
  bankPower : Word := 0
  spadCe : W32 := 0
  spadUe : W32 := 0
  spadFlip : Flip := {}
  spadScrub : Scrub := {}
  accScrub : Scrub := {}
  icScrub : Scrub := {}
  regions : Tab Region := []
  deriving DecidableEq, Repr

/-! ### A course -/

/-- A barrier (R67, Table 03-13). -/
structure Barrier where
  declared : Bool := false
  gen : Nat := 0
  parts : List (Nat × Stream) := []
  arrived : Nat := 0
  look : Nat := 0
  members : List ModAddr := []
  root : ModAddr := 0
  localDone : Bool := false                        -- fabric: this module's arrival has been sent
  remote : List (ModAddr × Nat) := []              -- fabric root: module arrivals and their generations
  deriving DecidableEq, Repr

/-- A row landed in a slot (R173): sender, token, selection position, gate score, and the row of the slot where its data stand until
they are placed. -/
structure Landed where
  sender : Nat
  token : Nat
  pos : Nat
  gate : W32
  place : Nat
  held : List Byte := []                            -- its data, where its slot takes no write at that place
  deriving DecidableEq, Repr

/-- A buffer set held by a tag (R174): the rows of each course slot, the drops, the route record by slot, what has
been published and what has been returned in each direction. -/
structure ValSet where
  layer : Nat
  tag : BitVec 16
  epoch : Byte := 0                                -- of the tag's block when the set was taken
  rows : Tab (List Landed) := []
  drops : Nat := 0
  counts : Tab Nat := []                           -- published count by course slot
  route : Tab (List (Nat × Nat × Nat)) := []       -- slot -> (sender, token, position) by rank
  pubFwd : Bool := false
  pubBwd : Bool := false
  retFwd : List Nat := []
  retBwd : List Nat := []
  sentFwd : Tab Nat := []                          -- rows returned so far to each sender
  sentBwd : Tab Nat := []
  deriving DecidableEq, Repr

/-- Count headers the collector holds for a tag, layer and direction (R175). -/
structure CountRec where
  layer : Nat
  tag : BitVec 16
  backward : Bool
  senders : List Nat
  deriving DecidableEq, Repr

/-- The home side of a tag dispatched in an epoch of its block (R177, R178). -/
structure HomeRec where
  core : Nat
  layer : Nat
  tag : BitVec 16
  backward : Bool
  epoch : Byte
  returns : List (Nat × Nat) := []                 -- token and position of each row landed
  headers : List (ModAddr × Nat) := []             -- module, course
  complete : Bool := false
  combining : Bool := false
  absent : List ModAddr := []
  deriving DecidableEq, Repr

/-- What the engine sent under one transaction tag: per module, the token and the entries of each copy in order. -/
structure ValTxn where
  core : Nat
  layer : Nat
  tag : BitVec 16
  backward : Bool
  epoch : Byte
  copies : List (ModAddr × List (Nat × BitVec 16))
  lost : List (ModAddr × Nat) := []                -- copies already counted as lost
  deriving DecidableEq, Repr

structure Valley where
  epochs : Tab Byte := []
  summarised : List Nat := []                      -- blocks whose stale summary has been raised since the last change
  jobEpoch : Byte := 0
  sets : List ValSet := []
  counts : List CountRec := []
  homes : List HomeRec := []
  forward : List (Nat × Nat × BitVec 16 × Tab (BitVec 16)) := []   -- core, layer, tag, returned bitmap by token
  absent : List (ModAddr × BitVec 16 × Bool) := []
  txns : Tab ValTxn := []
  nextTxn : BitVec 6 := 0
  overflowDrop : W32 := 0
  staleReturn : W32 := 0
  absentDrop : W32 := 0
  ueDrop : W32 := 0
  rowsLanded : Word := 0
  rowsReturned : Word := 0
  deriving DecidableEq, Repr

/-- A digest accumulator (R220). -/
structure DigAcc where
  d0 : Nat := 0
  d1 : Nat := 0
  groups : Nat := 0
  deriving DecidableEq, Repr

/-- The health of a physical position (Table 16-8). -/
structure PosHealth where
  retired : Bool := false
  suspect : Bool := false
  ownSuspect : Bool := false                       -- by a mismatch of its own (R359)
  confirmed : Byte := 0
  transient : Byte := 0
  cleanPasses : Byte := 0
  ran : Bool := false
  lastRole : BitVec 11 := 0
  deriving DecidableEq, Repr

/-- A migration under way (R349): logical index, source and destination position. -/
structure Migration where
  k : Nat
  src : Nat
  dst : Nat
  suspect : Bool := false                          -- a suspect turn (R352)
  cancel : Option Nat := none                      -- host sequence of a CANCEL_JOB that waits for its end (R351)
  reset : Option (Nat × Nat) := none               -- session and sequence of a core reset that waits for its end
  deriving DecidableEq, Repr

structure Course where
  coreMap : Tab Nat := []                          -- logical index -> position, where it is not the identity
  tester : Option Nat := some 32
  pointer : Nat := 0
  rotationStopped : Bool := false
  passDone : Bool := false
  passMismatch : Bool := false
  nextSuspect : Bool := false
  lastSuspect : Nat := 32                          -- position of the last suspect turn
  suspectTurn : Bool := false                      -- the tester took its place at a suspect turn
  item : W32 := 0
  passItems : Nat := 0                             -- items of the tester's pass that have run (R353)
  windows : Word := 0
  windowsHeld : Word := 0
  windowsAbandoned : W32 := 0
  migratingWindows : Nat := 0                      -- clean migrating windows since the module mark (R359)
  migration : Option Migration := none
  pos : Tab PosHealth := []
  barriers : Tab Barrier := []
  valley : Valley := {}
  valRegions : Tab Region := []
  step : Word := 0
  sched : Tab SchedVal := []
  digests : Tab DigAcc := []                       -- domain × 2 + parity
  ulPower0 : Word := 0
  ulPower1 : Word := 0
  ulCe : W32 := 0
  ulUe : W32 := 0
  ulFlip : Flip := {}
  ulScrub : Scrub := {}
  ccScrub : Scrub := {}
  codeCache : List Nat := []                       -- HBM addresses of the lines its code cache holds
  inReset : Bool := false
  deriving DecidableEq, Repr

/-! ### The module -/

structure Stack where
  ce : W32 := 0
  ue : W32 := 0
  flip : Flip := {}
  scrub : Scrub := {}
  tokens : Nat := 0                                -- the scrubber's token bucket (R389)
  tokenPart : Nat := 0                             -- the part of a token gained, in 10^-9
  urgent : Bool := false                           -- the bucket has been full and has not yet fallen to 2,048
  deriving DecidableEq, Repr

structure Slope where
  fMhz : Nat := 1400
  ceiling : Nat := 1400
  throttle : Nat := 0
  hot : Bool := false
  tj : BitVec 16 := 0
  stackMax : BitVec 16 := 0
  lastThermal : Option Nat := none                 -- clock at the last THERMAL_LIMIT
  throttleCycles : Word := 0
  arithCycles : Word := 0
  phase : Nat := 0                                 -- the part of a cycle that has passed, in MHz × ns
  deriving DecidableEq, Repr

/-- A frame accepted for sending: for one in transit, the port and the channel and class whose buffer still holds it. -/
structure Waiting where
  frame : Frame
  source : Option (Nat × Nat)
  deriving DecidableEq, Repr

/-- A lane under recalibration (R250): the spare that stands in for it, if any, and its place in the striping order; a spare lane has no
place. -/
structure Recal where
  lane : Nat
  standIn : Option Nat
  place : Option Nat
  deriving DecidableEq, Repr

/-- What the FEC of a lane has seen (R249): code words decoded, and the numbers of the uncorrectable ones among the last 2^20. -/
structure FecLane where
  words : Nat := 0
  bad : List Nat := []
  deriving DecidableEq, Repr

/-- A Lanene port (R247 to R268, Tables 12-10 to 12-12). -/
structure Port where
  state : Nat := 0
  neighbour : ModAddr := 0
  lanes : Tab Nat := []                            -- lane -> 0 active, 1 spare, 2 failed, 3 recalibrating
  order : List Nat := []                           -- the active lanes in striping order (R248)
  stripe : Nat := 0                                -- place in it at which the next frame starts
  recal : Option Recal := none
  fec : Tab FecLane := []
  nextSeq : BitVec 16 := 0
  replay : List Frame := []                        -- sent and unacknowledged, oldest first
  waiting : List Waiting := []                     -- accepted for sending, waiting for credits or for training
  expect : BitVec 16 := 0
  nacked : Bool := false
  inbox : List Frame := []                         -- delivered here and not yet handled
  credit : Tab Nat := []                           -- vc × 2 + dateline class -> private credits spent
  shared : Tab Nat := []                           -- shared credits spent, by the same pairs
  pool : Tab Nat := []                             -- receive pool in use, in credits, by the same pairs (R256)
  owed : Tab Nat := []                             -- private credits to return, by the same pairs
  owedShared : Tab Nat := []                       -- shared credits to return
  ackSent : BitVec 16 := 0                         -- cumulative seq of the last LINK_CTRL sent
  granted : Tab Nat := []                          -- private credits that the last LINK_CTRL returned
  grantedShared : Tab Nat := []
  resent : List Frame := []                        -- frames of the last resend episode, in order (R254)
  nackSent : Option (BitVec 16) := none            -- expected seq of the last LINK_NACK sent
  episodes : Nat := 0
  draining : Bool := false
  drainAt : Nat := 0                               -- clock at which the drain began (R264)
  recalDue : List Nat := []
  recalSince : Tab Nat := []                       -- lane whose recalibration is deferred -> clock at which that began (R391)
  linkRetry : W32 := 0
  linkCrcErr : W32 := 0
  fecCorrected : Word := 0
  fecUncorrected : W32 := 0
  framesTx : Word := 0
  framesRx : Word := 0
  creditStall : Word := 0
  remoteRefused : W32 := 0
  destAbsentSent : W32 := 0
  frameMalformed : W32 := 0
  e2eTimeout : W32 := 0
  recalDeferred : W32 := 0
  regions : Tab Region := []
  deriving DecidableEq, Repr

/-- A remote request that waits for its answer (R260). -/
structure Outstanding where
  master : BitVec 12
  tag : BitVec 6
  module : ModAddr
  read : Bool
  core : Nat
  chan : Nat                                       -- channel; 4 none, 8 a re-shard copy, 16 + id a late signal
  addr : Nat                                       -- local line address of the first line, for a read
  lines : Nat
  deriving DecidableEq, Repr

/-- A chunk whose groups go to landing rings as credits come (R274): its first element and values, the groups still to be written, each
as number, first element and length, and whether its COLL_CREDIT is owed to the last rank. -/
structure Landing where
  chunk : Nat
  start : Nat
  values : List W32
  left : List (Nat × Nat × Nat)
  owes : Bool
  deriving DecidableEq, Repr

/-- The entry a collective engine runs (R270 to R275). -/
structure CollRun where
  entry : Nat
  lengths : List Nat := []                         -- the contribution lengths read from its length table
  landing : List Landing := []                     -- chunks on their way into landing rings, oldest first
  lost : List (Nat × Nat) := []                    -- rank and chunk of each moved chunk that an absent rank never got
  staged : List (Nat × List W32) := []             -- chunks that have come along the chain and wait for the next place, oldest first
  sent : List Nat := []                            -- chunks passed on
  chainLost : List Nat := []                       -- chunks of which this engine has passed on an abort
  pend : Tab W32 := []                             -- element of the destination -> value, of shingle blocks not yet whole
  done : List Nat := []                            -- chunks whose lines are committed here
  aborted : List Nat := []
  counts : List Nat := []                          -- ranks whose count header has come (all-to-all)
  deriving DecidableEq, Repr

structure Coll where
  next : Nat := 0
  run : Option CollRun := none
  last : Nat := 0
  triggers : Tab W32 := []                         -- entry -> current trigger count
  linkFree : Nat := 2                              -- chunks the next rank can take (R272)
  lend : List (Nat × Nat) := []                    -- open lend windows: virtual channel, entry
  aborts : W32 := 0
  rings : Tab Nat := []                            -- base of a landing ring -> its credits spent
  ringNext : Tab Nat := []                         -- base of a landing ring -> slots written
  regions : Tab Region := []
  deriving DecidableEq, Repr

/-- A cycle of a re-shard under way in a staging buffer (R276). -/
structure Cycle where
  anchor : Nat                                     -- table entry whose destination is the anchor
  slots : List Nat                                 -- its slots, each by the table entry whose destination it is
  copies : Nat := 0
  todo : List Nat := []                            -- lines of the copy under way not yet moved
  pending : Nat := 0                               -- lines asked for or written and not yet answered
  cause : Byte := 0                                -- what stops the copy
  deriving DecidableEq, Repr

structure Reshard where
  startGroup : BitVec 5 := 0                       -- RESHARD_CTRL
  table : BitVec 12 := 0
  runGroup : BitVec 5 := 0                         -- of the re-shard that runs
  runTable : BitVec 12 := 0
  result : Word := 0
  running : Bool := false
  voting : Bool := false
  votes : List (Nat × Word × Status) := []
  slope : Nat := 0                                 -- the collective engine that runs it
  interrupted : Nat := 0
  ints : Tab (Nat × Nat) := []                     -- buffer -> last copy, anchor entry
  buf0 : Option Cycle := none
  buf1 : Option Cycle := none
  todo : List Cycle := []
  await : List (Nat × Nat × Nat) := []             -- slots of this module that copies fill: address, lines, lines still to come
  fromHost : Bool := false
  deriving DecidableEq, Repr

/-- The job states (Table 14-7). -/
inductive JobState where
  | empty | loading | loaded | running | paused | faulted | draining | halted
  deriving DecidableEq, Repr

structure Job where
  state : JobState := .empty
  pausePending : Bool := false
  faulted : Bool := false
  deriving DecidableEq, Repr

/-- A message the module sends from its RCP port (R297), with that port and the 802.1Q tag of its frame (R294). -/
structure Reply where
  srcPort : Nat := 0
  tag : Option (BitVec 12 × BitVec 3) := none
  dst : Nat
  port : Nat
  type : Byte
  status : Status := .ok
  session : Nat := 0
  hostSeq : Nat := 0
  devSeq : Nat := 0
  coalesced : Bool := false
  payload : List Byte := []
  deriving DecidableEq, Repr

/-- Frames below RCP that the module sends (R295, R296). -/
inductive NetKind where
  | arpNdReply | echoReply | ptpDelayReq | dhcpDiscover | dhcpRequest
  deriving DecidableEq, Repr

/-- One of them: to whom, its 802.1Q tag, what it carries, and the timebase as it leaves. -/
structure NetOut where
  kind : NetKind
  dst : Nat
  tag : Option (BitVec 12 × BitVec 3)
  data : List Byte
  stamp : Nat
  deriving DecidableEq, Repr

/-- Where the DHCPv4 client stands (R295): it has asked no server, awaits an offer, awaits the acknowledgement of an address, or has one. -/
inductive Dhcp where
  | idle | selecting | requesting (addr : W32) | bound
  deriving DecidableEq, Repr

/-- The master that the timebase follows: its data set, its identity, and the clock at its last announcement (R296). -/
structure PtpMaster where
  rank : List Nat
  identity : Nat
  heard : Nat
  deriving DecidableEq, Repr

/-- An OPEN_SESSION of the last 10 s, with the response that a repeat of it gets again (R300). -/
structure Opening where
  src : Nat
  port : Nat
  nonce : Nat
  time : Nat                                       -- clock at the first one
  reply : Reply
  deriving DecidableEq, Repr

/-- A session (R300 to R307). -/
structure Session where
  id : Nat
  owner : Bool
  src : Nat
  port : Nat
  notify : Bool
  lastSeq : Nat
  noticed : Nat                                    -- newest device sequence a notice has covered
  holdQ : List (Nat × List Byte) := []             -- held commands (R303)
  cache : List (Nat × Reply) := []                 -- newest first, at most 256 (R304)
  run : List Nat := []                             -- coalesced BULK_WRITEs not yet answered (R306)
  deriving DecidableEq, Repr

/-- A long command under way (R305): session, sequence, type and the outcome that its completion makes. -/
structure LongCmd where
  session : Nat
  hostSeq : Nat
  type : Byte
  status : Status
  payload : List Byte := []
  fromState : JobState := .empty
  staging : Nat := 0
  stagingLines : Nat := 0
  courses : BitVec 64 := 0                         -- LOAD_IMAGE: the courses that its stage 6 found ready
  img : ImageBodies := {}
  deriving DecidableEq, Repr

structure Rcp where
  idleS : BitVec 16 := 60
  pcp : BitVec 3 := 0
  vlan : BitVec 12 := 0
  ptpDomain : Byte := 0
  udpPort : BitVec 16 := 47742
  static : Bool := false
  dhcp : Dhcp := .idle
  addr : W32 := 0
  ethRxDrop : W32 := 0
  discard : W32 := 0
  crcErr : W32 := 0
  reorderDrop : W32 := 0
  ptpLocked : Bool := false
  ptpOffset : W32 := 0
  everLocked : Bool := false
  ptpMaster : Option PtpMaster := none
  ptpSlew : Int := 0                               -- lead over the master not yet worked off
  addr6 : Option (BitVec 128) := none              -- address of IPv6 autoconfiguration (R295)
  openings : List Opening := []                    -- newest first
  sessions : List Session := []
  opened : Nat := 0                                -- sessions opened since power-on, from which ids are drawn
  challenge : Nat := 0                             -- challenges drawn
  prevOwner : Option (Nat × Nat) := none           -- previous owner session and its last sequence
  hostSeq : Nat := 0                               -- sequence of the command being executed
  long : Option LongCmd := none
  tx : List Reply := []                            -- messages sent, newest first
  icmpReplies : Nat := 0                           -- replies to echo, ARP and neighbour requests
  net : List NetOut := []                          -- those replies and the event messages of R296, newest first
  deriving DecidableEq, Repr

/-- An event record (Table 14-5). -/
structure Event where
  seq : Nat
  time : Nat
  code : BitVec 16
  kind : Byte
  source : W32
  body : List Byte
  deriving DecidableEq, Repr

structure EventLog where
  newest : Nat := 0
  records : List Event := []                       -- newest first, at most 4,096
  boot : W32 := 0
  deriving DecidableEq, Repr

/-- A ridge DMA channel (R320). -/
structure RidgeChan where
  declared : Bool := false
  log2 : BitVec 4 := 0
  base : BitVec 42 := 0
  released : W32 := 0
  records : W32 := 0
  slot : Nat := 0                                  -- ring slots written
  stopped : Option Event := none
  deriving DecidableEq, Repr

structure Ridge where
  spillOn : Bool := false
  telemetryOn : Bool := false
  periodMs : BitVec 10 := 100
  ringLog2 : BitVec 4 := 0
  ringBase : BitVec 42 := 0
  chans : Tab RidgeChan := []
  spilled : Nat := 0                               -- newest device sequence spilled
  telemetrySkip : W32 := 0
  regions : Tab Region := []
  deriving DecidableEq, Repr

structure Power where
  off : Bool := false                              -- a protective shutdown has removed power (R324)
  bootFailed : Bool := false                       -- no firmware slot verified (R339, 2)
  slopesOn : Bool := false                         -- bring-up has powered the slopes
  lastShutdown : Byte := 0
  causeRecord : Byte := 0                          -- non-volatile (R324)
  inputW : BitVec 16 := 0
  inputMv : BitVec 16 := 0
  ownerW : BitVec 16 := 2500
  jobW : BitVec 16 := 0
  reduced : Bool := false                          -- the 1,200 W cap of R323
  outOfRange : Bool := false                       -- the input has not yet stood in the operating range for 1 s
  lowNow : Bool := false                           -- the input stands in the reduced range
  locate : Bool := false
  standbyBit : Bool := false
  coolInlet : BitVec 16 := 0
  coolOutlet : BitVec 16 := 0
  coolFlow : BitVec 16 := 0
  coolBad : Bool := false
  lowPeriods : Nat := 0                            -- consecutive periods below cap − 50 (R329)
  clampEvents : W32 := 0
  deriving DecidableEq, Repr

/-- Readiness (Table 15-13). -/
structure Ready where
  hostPort : Bool := false
  hbm : BitVec 12 := 0
  ports : BitVec 8 := 0
  courses : BitVec 64 := 0
  done : Bool := false
  failed : List BringUp := []
  refreshed : Bool := false                        -- the stacks come out of self-refresh, not from power-on (R333)
  deriving DecidableEq, Repr

/-- Life-cycle states (Table 17-3). -/
inductive LcState where
  | manufacture | provisioned | deployed | service | decommissioned
  deriving DecidableEq, Repr

/-- A firmware package held in a slot (Table 17-1): its bytes, none for one that the module was delivered with, and its rollback index,
version, items and digest. -/
structure Package where
  bytes : Option (List Byte) := none
  rollback : Nat
  version : W32
  items : W32
  digest : Nat
  deriving DecidableEq, Repr

structure Security where
  lc : LcState := .provisioned
  transitions : Nat := 1
  decommissioned : Bool := false                   -- its own fuse (R369)
  tamperCount : BitVec 4 := 0
  clearCount : BitVec 4 := 0
  tamperFinal : Bool := false
  debugUnlocked : Bool := false
  jumper : Bool := false
  windowEnd : Option Nat := none                   -- timebase at which the presence window runs out
  policy : BitVec 4 := 0
  keys : Tab (Nat × Nat) := []                     -- slot -> x, y
  keyData : Tab Word := []
  activeFw : Bool := false                         -- slot B active, kind 0
  activeContent : Bool := false
  staged : BitVec 2 := 0                           -- bit k: the inactive slot's package of kind k is staged
  packages : Tab Package := []                     -- kind × 2 + slot
  bootedB : Bool := false
  rollback0 : BitVec 6 := 0
  rollback1 : BitVec 6 := 0
  version : W32 := 0
  fwDigest : Nat := 0
  bankLine : BitVec 12 := 0
  bank : Tab Word := []                            -- line × 8 + word
  wiping : Bool := false
  identity : Bool := true                          -- the identity seed fuse is whole (Table 17-4)
  keyed : Bool := true                             -- the identity key, derived at power-on from the seed (R367)
  chain : Bool := true                             -- the owner area holds the certificate chain (R367, Table 17-4)
  rootDigest : BitVec 384 := 0                     -- fused digest of the Knamon root key (R363)
  committing : Option Nat := none                  -- kind whose commit has still to raise its counter (R366)
  deriving DecidableEq, Repr

structure Health where
  suspect : Bool := false
  causeDigest : Bool := false
  causeUnit : Bool := false
  markDomains : List Nat := []                     -- domains that marked the module and have not cleared it
  sweepSinceMark : Bool := false
  conditions : BitVec 6 := 0
  held : Bool := false
  noSpare : BitVec 64 := 0
  contentItems : W32 := 0
  contentVersion : W32 := 0
  contentDigest : Nat := 0
  lateCourses : List Nat := []
  overdue : List Nat := []
  sweepS : W32 := 0
  sweeps : W32 := 0
  sweepClean : Bool := true
  swept : List (Nat × Nat) := []                   -- units of the sweep under way that an item has run on: kind, index (R355)
  migrations : Word := 0
  tmrItems : Byte := 0
  tmrCount : W32 := 0
  tmrOdd : Tab (List Nat) := []                    -- item of Table 11-2 -> those of its three copies that differ from their vote (R237)
  deriving DecidableEq, Repr

structure Fabric where
  loaded : Bool := false
  axisMap : List Nat := [0, 1, 2, 3]
  sizes : List Nat := [1, 1, 1, 1]                 -- T, P, D, X
  coord : ModAddr := 0
  e2eMs : BitVec 14 := 100
  forced : BitVec 4 := 0
  auto : BitVec 4 := 0
  open_ : BitVec 4 := 0
  closing : List (Nat × Nat × Nat × Bool) := []    -- a BYPASS_SET that waits for its drain: pair, session, sequence, force
  outstanding : List Outstanding := []
  deriving DecidableEq, Repr

/-- The generator keys and RNG_STATUS (Tables 09-6, 09-7). -/
structure Rng where
  keys : Tab (Word × Word) := []                   -- seed, stream in use
  written : Tab Word := []                         -- streams written while PAUSED, in force at RESUME_JOB (R203)
  declared : Byte := 0
  wrapWarned : Bool := false
  reused : Bool := false
  wrapDone : List Nat := []                        -- step values whose event has been raised
  deriving DecidableEq, Repr

/-- The weight digest of a domain (Table 10-14). -/
structure DigestState where
  step : Word := 0
  d0 : Nat := 0
  d1 : Nat := 0
  groups : Word := 0
  disagree : Word := 0
  suspect : Bool := false
  records : List DigestRec := []                   -- records of the step being compared
  awaited : Option Nat := none                     -- the digest step whose records are being gathered
  compared : Nat := 0                              -- the clock at the domain's last comparison, or at the load (R345)
  deriving DecidableEq, Repr

/-- The loaded image (R291), as the units consult it, and the registers of Table 13-8. -/
structure Image where
  loaded : Bool := false
  signed : Bool := false
  readySubset : Bool := false
  hold : Bool := false
  sections : Nat := 0
  courses : BitVec 64 := 0
  target : BitVec 64 := 0
  active : Tab W32 := []                           -- course -> active mask
  digest : List Byte := []
  lastError : Word := 0
  lastStatus : Option Status := none
  bodies : ImageBodies := {}
  selfTest : Bool := true
  windowBoundMs : Nat := 0
  issueOrder : List Stream := [.B, .F, .U]
  wdogLog2 : BitVec 6 := 32
  halving : BitVec 7 := 64
  retired : List Nat := []                         -- code regions that have left every map (R38)
  deriving DecidableEq, Repr

/-- A BARRIER arrival on its way to its barrier unit (R67, R69). -/
structure Arrival where
  level : Nat
  course : Nat
  barrier : Nat
  core : Nat
  stream : Stream
  round : Nat
  region : Byte
  index : W32
  deriving DecidableEq, Repr

/-- A message of expert traffic on its way within this module, with the course it goes to. -/
inductive ValMsg where
  | row (c : Nat) (r : ValRow)
  | count (c : Nat) (h : CountHdr)
  | cancel (c block epoch : Nat)
  | back (c : Nat) (r : RetRow)
  | backCount (c : Nat) (h : CountHdr) (module : ModAddr) (course : Nat)
  | notice (c layer : Nat) (tag : BitVec 16) (backward : Bool)
  deriving DecidableEq, Repr

/-- Such a message with the core that sent it, or whose course did. -/
structure ValTransit where
  source : Nat
  msg : ValMsg
  deriving DecidableEq, Repr

/-- A command of a session whose next access is held (R350, R384): what it has still to do, and what it has done. -/
inductive HeldCmd where
  | read (priv : Bool) (rest got : List Word)
  | write (priv : Bool) (rest : List (Word × Word)) (index : Nat)
  | bulkSignal (coalesce : Bool) (payload : List Byte)
  | bulkRead (payload : List Byte)
  deriving DecidableEq, Repr

/-- A reset of the module, or the way into STANDBY, that waits for the drain of the open axes (R264, R333): a warm reset with the
heartbeat's age when the ridge watchdog caused it. -/
inductive ResetDue where
  | warm (age : Option W32)
  | standby
  deriving DecidableEq, Repr

/-- Traffic held at a unit in reset or at a migrating role (R337, R350, R384). -/
inductive HeldOp where
  | inc (core flag : Nat) (amount : W32)
  | line (addr : Nat) (data : List Byte) (master : Nat)
  | cmd (ss seq : Nat) (c : HeldCmd)
  | read (port : PortId) (f : Frame)               -- a READ_REQ of a remote module (R350)
  | ack (f : Frame) (addr lines : Nat)             -- a WRITE_ACK that leaves once its lines have committed (R259)
  deriving DecidableEq, Repr

structure Held where
  core : Option Nat                                -- the logical core, none for the whole course
  course : Nat
  op : HeldOp
  deriving DecidableEq, Repr

/-- A course or core reset under way, with the session and sequence that its response answers (R337). -/
structure ResetRun where
  course : Bool
  index : Nat
  session : Nat
  hostSeq : Nat
  deriving DecidableEq, Repr

/-- The module. `pending` is the queue of commands that wait, first in, first out. -/
structure State where
  pending : List Instr := []
  mem : List Host.Cell := []
  memErr : Tab (List Nat) := []                    -- storage line -> flipped positions of its code words (R233, R234)
  cores : Tab Core := []
  courses : Tab Course := []
  hbm : Tab Stack := []
  slopes : Tab Slope := []
  ports : Tab Port := []
  colls : Tab Coll := []
  modBarriers : Tab Barrier := []                  -- module barriers 0-31, fabric barriers at 32-47
  arrivals : List Arrival := []
  held : List Held := []
  valPath : List ValTransit := []                  -- expert traffic on its way within the module
  coreReset : List Nat := []                       -- logical cores under core reset
  resetDue : Option ResetDue := none
  resets : List ResetRun := []                     -- course and core resets whose RESET response is due
  image : Image := {}
  job : Job := {}
  rcp : Rcp := {}
  log : EventLog := {}
  ridge : Ridge := {}
  bulkRegions : Tab Region := []
  rng : Rng := {}
  digest : Tab DigestState := []
  nextClose : Nat := 0                             -- the step that the digest closes next (R222)
  power : Power := {}
  ready : Ready := {}
  sec : Security := {}
  health : Health := {}
  fabric : Fabric := {}
  reshard : Reshard := {}
  hbmAffinity : Nat := 0
  ceEvent : Byte := 16
  hbmRate : BitVec 11 := 64
  sramLapMs : BitVec 16 := 1000
  timebase : Nat := 0
  clock : Nat := 0                                 -- nanoseconds that have passed, which PTP neither steps nor slews
  free : Nat := 0                                  -- the model's own counter of free values drawn
  deriving DecidableEq, Repr

/-- Reasons a step stops the machine. -/
inductive Fault where
  /-- Raised by no command: the manual states an outcome for every access, so none leaves the machine without a
  next state. Safe. -/
  | none
  deriving DecidableEq, Repr

/-- Reasons a command has no meaning. -/
inductive Refusal where
  /-- The command is not modelled yet; raised by `exec` alone. Safe. -/
  | notModelled (mnemonic : String)
  /-- The instruction word of a core-instruction command carries an opcode of the table that is not the command's
  own, so the command is not the one it says (the sender's error, R22); raised by the issue of a core instruction.
  Safe: nothing is said of such a command. -/
  | otherInstruction (opcode : Byte)
  deriving DecidableEq, Repr

/-- The regions the masters of the privileged view have at power-on (R243): read and write over all of HBM, all
underlay and all scratchpads. Bounds are line numbers. -/
def powerOnRegions : Tab Region :=
  [(0, { enable := true, read := true, write := true, base := 0, limit := 0x5FFFFFFFF }),
   (1, { enable := true, read := true, write := true, base := 0x4000000000, limit := 0x4001FFFFFF }),
   (2, { enable := true, read := true, write := true, base := 0x8000000000, limit := 0x8001FFFFFF })]

/-- The module right after power-on reset, before bring-up has made any function ready. -/
def State.reset : State :=
  { ports := [(0, { regions := powerOnRegions }), (1, { regions := powerOnRegions }), (2, { regions := powerOnRegions }),
              (3, { regions := powerOnRegions }), (4, { regions := powerOnRegions }), (5, { regions := powerOnRegions }),
              (6, { regions := powerOnRegions }), (7, { regions := powerOnRegions })]
    bulkRegions := powerOnRegions
    ridge := { regions := powerOnRegions }
    log := { boot := 1 }
    sec := { packages := [(0, { rollback := 0, version := 0, items := 0, digest := 0 }),
                          (2, { rollback := 0, version := 0, items := 0, digest := 0 })] } }

end Sys2Proof.Machine
end

