-- ==== Sys2Proof/Machine/Ops.lean ====
section
/-! DEFINITION. The named operations over State that every family shares: tables, bytes, memory with its codes,
events, job transitions, flag increments, live code, and the halting of a core. -/

namespace Sys2Proof.Machine

/-! ### Tables -/

/-- The unit of number k, or the default d. -/
def tget {α : Type} : Tab α → Nat → α → α
  | [], _, d => d
  | (j, v) :: r, k, d => if j = k then v else tget r k d

/-- The table with unit k set to v. -/
def tset {α : Type} : Tab α → Nat → α → Tab α
  | [], k, v => [(k, v)]
  | (j, w) :: r, k, v => if j = k then (k, v) :: r else if k < j then (k, v) :: (j, w) :: r else (j, w) :: tset r k v

/-- The table without unit k. -/
def terase {α : Type} (t : Tab α) (k : Nat) : Tab α := t.filter (fun x => x.1 != k)

def tmod {α : Type} (t : Tab α) (k : Nat) (d : α) (f : α → α) : Tab α := tset t k (f (tget t k d))

def thas {α : Type} (t : Tab α) (k : Nat) : Bool := t.any (fun x => x.1 == k)

def tfind {α : Type} : Tab α → Nat → Option α
  | [], _ => none
  | (j, v) :: r, k => if j = k then some v else tfind r k

/-! ### Bytes (R9: least significant byte first) -/

def leBytes (n v : Nat) : List Byte := (List.range n).map fun i => BitVec.ofNat 8 (v / 256 ^ i)

def leNat : List Byte → Nat
  | [] => 0
  | b :: r => b.toNat + 256 * leNat r

def beBytes (n v : Nat) : List Byte := (leBytes n v).reverse

def beNat (l : List Byte) : Nat := leNat l.reverse

/-- n bytes from place i, zero where the list has ended. -/
def bytesAt (l : List Byte) (i n : Nat) : List Byte := (List.range n).map fun k => l.getD (i + k) 0

def natAt (l : List Byte) (i n : Nat) : Nat := leNat (bytesAt l i n)

/-- A bit field of a number. -/
def bits (v lo len : Nat) : Nat := v / 2 ^ lo % 2 ^ len

/-- A saturating counter of 32 bits. -/
def sat32 (x : W32) (n : Nat) : W32 := BitVec.ofNat 32 (min (x.toNat + n) 0xFFFFFFFF)

def zeroLine : List Byte := List.replicate 64 0

/-- Cuts bytes into lines. -/
def toLines : Nat → List Byte → List (List Byte)
  | 0, _ => []
  | n + 1, l => bytesAt l 0 64 :: toLines n (l.drop 64)

/-! ### Units of the module -/

namespace State

def core (s : State) (n : Nat) : Core := tget s.cores n {}
def setCore (s : State) (n : Nat) (c : Core) : State := { s with cores := tset s.cores n c }
def modCore (s : State) (n : Nat) (f : Core → Core) : State := s.setCore n (f (s.core n))
def course (s : State) (c : Nat) : Course := tget s.courses c {}
def setCourse (s : State) (c : Nat) (x : Course) : State := { s with courses := tset s.courses c x }
def modCourse (s : State) (c : Nat) (f : Course → Course) : State := s.setCourse c (f (s.course c))
def slope (s : State) (k : Nat) : Slope := tget s.slopes k {}
def modSlope (s : State) (k : Nat) (f : Slope → Slope) : State := { s with slopes := tmod s.slopes k {} f }
def port (s : State) (p : Nat) : Port := tget s.ports p {}
def modPort (s : State) (p : Nat) (f : Port → Port) : State := { s with ports := tmod s.ports p {} f }
def stack (s : State) (k : Nat) : Stack := tget s.hbm k {}
def modStack (s : State) (k : Nat) (f : Stack → Stack) : State := { s with hbm := tmod s.hbm k {} f }
def coll (s : State) (k : Nat) : Coll := tget s.colls k {}
def modColl (s : State) (k : Nat) (f : Coll → Coll) : State := { s with colls := tmod s.colls k {} f }

/-- Draws the next free value. -/
def draw (s : State) : Word × State := (Config.freeValue s.free, { s with free := s.free + 1 })

end State

def courseOf (n : Nat) : Nat := n / 32
def slopeOf (c : Nat) : Nat := c / 16

def Core.ctx (c : Core) : Stream → StreamCtx
  | .F => c.f | .B => c.b | .U => c.u

def Core.setCtx (c : Core) : Stream → StreamCtx → Core
  | .F, x => { c with f := x }
  | .B, x => { c with b := x }
  | .U, x => { c with u := x }

def Core.modCtx (c : Core) (t : Stream) (f : StreamCtx → StreamCtx) : Core := c.setCtx t (f (c.ctx t))

def State.modCtx (s : State) (n : Nat) (t : Stream) (f : StreamCtx → StreamCtx) : State :=
  s.modCore n fun c => c.modCtx t f

/-- Register s0 reads as zero (R17). -/
def StreamCtx.sreg (x : StreamCtx) (k : Nat) : Word := if k = 0 then 0 else tget x.sregs k 0

/-- A write to s0 is discarded (R17). -/
def StreamCtx.setSreg (x : StreamCtx) (k : Nat) (v : Word) : StreamCtx :=
  if k = 0 then x else { x with sregs := tset x.sregs k v }

def StreamCtx.dreg (x : StreamCtx) (k : Nat) : Option Desc := if k = 0 then none else tfind x.dregs k

def StreamCtx.setDreg (x : StreamCtx) (k : Nat) (d : Desc) : StreamCtx :=
  if k = 0 then x else { x with dregs := tset x.dregs k d }

def State.sreg (s : State) (n : Nat) (t : Stream) (k : Nat) : Word := ((s.core n).ctx t).sreg k

def State.setSreg (s : State) (n : Nat) (t : Stream) (k : Nat) (v : Word) : State :=
  s.modCtx n t fun x => x.setSreg k v

def allStreams : List Stream := [.F, .B, .U]

/-! ### Events (R308, R311) -/

/-- A field lies at the next multiple of its size. -/
def packFields : List Byte → List (Nat × Nat) → List Byte
  | acc, [] => acc
  | acc, (n, v) :: r =>
    let pad := (n - acc.length % n) % n
    packFields (acc ++ List.replicate pad 0 ++ leBytes n v) r

/-- Raises an event: kind and index of its source, then its fields as (size in bytes, value). -/
def State.raise (s : State) (code kind source : Nat) (fields : List (Nat × Nat)) : State :=
  let e : Event := { seq := s.log.newest + 1, time := s.timebase, code := BitVec.ofNat 16 code,
                     kind := BitVec.ofNat 8 kind, source := BitVec.ofNat 32 source, body := packFields [] fields }
  { s with log := { s.log with newest := s.log.newest + 1, records := (e :: s.log.records).take 4096 } }

/-! ### The address map (R225, R228) -/

/-- The unit that an address names (Table 11-1). -/
inductive MemUnit where
  | hbm | ul (c : Nat) | sp (n : Nat)
  deriving DecidableEq, Repr

def memUnit (a : Nat) : Option MemUnit :=
  if a < 0x018000000000 then some .hbm
  else if 0x100000000000 ≤ a ∧ a < 0x100000000000 + 64 * 0x2000000 then some (.ul ((a - 0x100000000000) / 0x2000000))
  else if 0x200000000000 ≤ a ∧ a < 0x200000000000 + 2048 * 0x100000 then some (.sp ((a - 0x200000000000) / 0x100000))
  else none

/-- Code of a memory in HALT_INFO and in event bodies (Tables 02-10, 11-13). -/
def MemUnit.code : MemUnit → Nat
  | .sp _ => 0 | .ul _ => 1 | .hbm => 2

def spadBase (n : Nat) : Nat := 0x200000000000 + n * 0x100000
def ulBase (c : Nat) : Nat := 0x100000000000 + c * 0x2000000

/-- Stack and byte address within it of an HBM address, A in GiB (R228). -/
def hbmPlace (A x : Nat) : Nat × Nat :=
  let gib := 2 ^ 30
  let i := (1536 - 4 * A) * gib
  if x < i then
    let p := x / 4096
    (p % 12, p / 12 * 4096 + x % 4096)
  else
    let s := (x - i) / (A * gib)
    let q := (x - i - s * (A * gib)) / 4096
    (3 * s + q % 3, ((128 * gib - A / 3 * gib) / 4096 + q / 3) * 4096 + x % 4096)

/-- The place where memory holds the byte at an address: HBM by stack, so that content stays when A changes. -/
def storage (A x : Nat) : Nat :=
  if x < 0x018000000000 then let p := hbmPlace A x; p.1 * 2 ^ 37 + p.2 else x

/-! ### Bytes in memory: one canonical list -/

/-- A byte that memory does not list reads as zero (Table 15-9). -/
def memGet (m : List Host.Cell) (k : Nat) : Byte := tget m k 0

def memPut : List Host.Cell → Nat → Byte → List Host.Cell
  | [], k, b => if b = 0 then [] else [(k, b)]
  | (j, x) :: r, k, b =>
    if j = k then (if b = 0 then r else (k, b) :: r)
    else if k < j then (if b = 0 then (j, x) :: r else (k, b) :: (j, x) :: r)
    else (j, x) :: memPut r k b

/-- The canonical form: addresses strictly rising, no byte equal to what an unlisted address reads as. -/
def Memory.wfFrom : Nat → List Host.Cell → Bool
  | _, [] => true
  | lo, (j, x) :: r => decide (lo ≤ j) && x != 0 && wfFrom (j + 1) r

def Memory.wf (m : List Host.Cell) : Bool := Memory.wfFrom 0 m

/-- Writes consecutive bytes. -/
def memPutAll : List Host.Cell → Nat → List Byte → List Host.Cell
  | m, _, [] => m
  | m, k, b :: r => memPutAll (memPut m k b) (k + 1) r

/-! ### Code words (R233, R234) -/

/-- Position, counting from 1, of data bit k of an SRAM code word; check bits 0-8 stand at the powers of two. -/
def hamPos (k : Nat) : Nat :=
  ((List.range 10).map (fun j => k + 1 + j)).find?
    (fun p => p == k + 1 + Nat.log2 p + 1 && 2 ^ Nat.log2 p != p) |>.getD 0

/-- Hamming position of a code-word position of R242: check bit 9 has none. -/
def sramPos (p : Nat) : Nat := if p < 256 then hamPos p else if p < 265 then 2 ^ (p - 256) else 0

/-- What a decoder does with a word: the data bits it delivers flipped, or nothing; and whether it corrected. -/
structure WordRead where
  ok : Bool
  flips : List Nat       -- data bits that differ from the stored data
  corrected : Bool
  deriving DecidableEq, Repr

/-- R233 on the flipped positions of one word. -/
def sramDecode (fl : List Nat) : WordRead :=
  let syn := fl.foldl (fun a p => a ^^^ sramPos p) 0
  let data := fl.filter (fun p => p < 256)
  if fl.length % 2 = 1 then
    if syn ≤ 265 then
      if data.any (fun p => sramPos p == syn) then ⟨true, data.filter (fun p => sramPos p != syn), true⟩
      else ⟨true, data ++ ((List.range 256).filter fun p => hamPos p == syn), true⟩
    else ⟨false, [], false⟩
  else if syn = 0 then ⟨true, data, false⟩
  else ⟨false, [], false⟩

/-- Multiplication in GF(2^16) with x^16 + x^12 + x^3 + x + 1. -/
def gfMul (a b : Nat) : Nat :=
  ((List.range 16).foldl
    (fun (st : Nat × Nat) i =>
      let acc := if b.testBit i then st.1 ^^^ st.2 else st.1
      let x := 2 * st.2
      (acc, if x ≥ 65536 then x ^^^ 0x1100B else x)) (0, a)).1

def gfPow (e : Nat) : Nat := (List.range e).foldl (fun x _ => gfMul x 2) 1

/-- Error value of symbol q of a line's code word. -/
def symErr (fl : List Nat) (q : Nat) : Nat :=
  fl.foldl (fun a p => if p / 16 = q then a ^^^ 2 ^ (p % 16) else a) 0

/-- Syndrome j of the error pattern; symbol q is the coefficient of x^(35 − q). -/
def syndrome (fl : List Nat) (j : Nat) : Nat :=
  (List.range 36).foldl (fun a q => a ^^^ gfMul (symErr fl q) (gfPow (j * (35 - q)))) 0

/-- R234 on the flipped positions of a line. -/
def hbmDecode (fl : List Nat) : WordRead :=
  let s0 := syndrome fl 0
  let s1 := syndrome fl 1
  let s2 := syndrome fl 2
  let s3 := syndrome fl 3
  let data := fl.filter (fun p => p < 512)
  if s0 = 0 ∧ s1 = 0 ∧ s2 = 0 ∧ s3 = 0 then ⟨true, data, false⟩
  else
    match (List.range 36).find? (fun q =>
        s0 != 0 && gfMul s0 (gfPow (35 - q)) == s1 && gfMul s1 (gfPow (35 - q)) == s2
          && gfMul s2 (gfPow (35 - q)) == s3) with
    | some q =>
      let fix := (List.range 16).filterMap fun b => if s0.testBit b then some (16 * q + b) else none
      let fix := fix.filter (fun p => p < 512)
      ⟨true, data.filter (fun p => !fix.contains p) ++ fix.filter (fun p => !data.contains p), true⟩
    | none => ⟨false, [], false⟩

/-- Flips bits of a run of bytes: bit i of byte b is position 8b + i. -/
def flipBits (l : List Byte) (fl : List Nat) : List Byte :=
  fl.foldl (fun l p => l.set (p / 8) (l.getD (p / 8) 0 ^^^ BitVec.ofNat 8 (2 ^ (p % 8)))) l

/-- What a read of a line meets: the data delivered, none when a word is uncorrectable, and the words corrected. -/
structure LineRead where
  data : Option (List Byte)
  ce : Nat
  deriving DecidableEq, Repr

/-- Decodes a line of two SRAM words. -/
def sramLine (data : List Byte) (fl : List Nat) : LineRead :=
  let w0 := sramDecode (fl.filter (fun p => p < 266))
  let w1 := sramDecode ((fl.filter (fun p => 266 ≤ p)).map fun p => p - 266)
  let ce := (if w0.corrected then 1 else 0) + (if w1.corrected then 1 else 0)
  if w0.ok && w1.ok then ⟨some (flipBits data (w0.flips ++ w1.flips.map fun p => p + 256)), ce⟩ else ⟨none, ce⟩

namespace State

/-- The 64 bytes stored at a line, without its code. -/
def rawLine (s : State) (a : Nat) : List Byte :=
  let k := storage s.hbmAffinity a
  (List.range 64).map fun i => memGet s.mem (k + i)

def lineErr (s : State) (a : Nat) : List Nat := tget s.memErr (storage s.hbmAffinity a / 64) []

/-- What a read of the line at a delivers. -/
def lineRead (s : State) (a : Nat) : LineRead :=
  let fl := s.lineErr a
  if fl.isEmpty then ⟨some (s.rawLine a), 0⟩
  else
    match memUnit a with
    | some .hbm =>
      let w := hbmDecode fl
      if w.ok then ⟨some (flipBits (s.rawLine a) w.flips), if w.corrected then 1 else 0⟩ else ⟨none, 0⟩
    | _ => sramLine (s.rawLine a) fl

/-- Adds to the CE and UE counters of the memory that holds an address (Table 11-8). -/
def countErr (s : State) (a ce ue : Nat) : State :=
  if ce = 0 ∧ ue = 0 then s
  else
    match memUnit a with
    | some .hbm =>
      s.modStack (storage s.hbmAffinity a / 2 ^ 37) fun k => { k with ce := sat32 k.ce ce, ue := sat32 k.ue ue }
    | some (.ul c) => s.modCourse c fun x => { x with ulCe := sat32 x.ulCe ce, ulUe := sat32 x.ulUe ue }
    | some (.sp n) => s.modCore n fun x => { x with spadCe := sat32 x.spadCe ce, spadUe := sat32 x.spadUe ue }
    | none => s

end State

/-! ### Bank power (R231) -/

def spadBank (a : Nat) : Nat := a / 32768 % 32
def ulBank (a : Nat) : Nat := a / 524288 % 64

def Course.ulPower (c : Course) (b : Nat) : Nat :=
  if b < 32 then bits c.ulPower0.toNat (2 * b) 2 else bits c.ulPower1.toNat (2 * (b - 32)) 2

/-- Sets the two-bit field i of a word. -/
def setField2 (w : Word) (i v : Nat) : Word := (w &&& ~~~(BitVec.ofNat 64 (3 * 4 ^ i))) ||| BitVec.ofNat 64 (v * 4 ^ i)

def Course.setUlPower (c : Course) (b v : Nat) : Course :=
  if b < 32 then { c with ulPower0 := setField2 c.ulPower0 b v }
  else { c with ulPower1 := setField2 c.ulPower1 (b - 32) v }

namespace State

/-- Zeroes the lines of a range of storage, with valid check bits. -/
def zeroRange (s : State) (base bytes : Nat) : State :=
  { s with mem := s.mem.filter (fun x => x.1 < base || base + bytes ≤ x.1)
           memErr := s.memErr.filter (fun x => x.1 < base / 64 || (base + bytes) / 64 ≤ x.1) }

def bankState (s : State) (a : Nat) : Nat :=
  match memUnit a with
  | some (.sp n) => bits (s.core n).bankPower.toNat (2 * spadBank a) 2
  | some (.ul c) => (s.course c).ulPower (ulBank a)
  | _ => 0

/-- Base address and size of the bank of an address. -/
def bankRange (a : Nat) : Nat × Nat :=
  match memUnit a with
  | some (.sp _) => (a / 32768 * 32768, 32768)
  | _ => (a / 524288 * 524288, 524288)

/-- The bank of an address begins a fresh lap at time t, no line of it awaiting a write-back (R231). -/
def freshLap (t a b : Nat) (x : Scrub) : Scrub :=
  let r := bankRange a
  { fix := x.fix.filter fun l => decide (64 * l < r.1 ∨ r.1 + r.2 ≤ 64 * l)
    banks := tmod x.banks b {} fun y => { y with next := 0, began := t, ce := 0 } }

/-- A scratchpad bank with the extension role begins a fresh lap at time t: it is a bank of the accumulator's, the first two of which hold
the rows below 512 (R134, R231). -/
def freshRows (t bank : Nat) (c : Core) : Core :=
  if c.da.extBanks.getLsbD bank then
    let e := ((List.range bank).filter fun i => c.da.extBanks.getLsbD i).length
    { c with accScrub :=
        { fix := c.accScrub.fix.filter fun r => decide (r < 512 + 64 * e ∨ 576 + 64 * e ≤ r)
          banks := tmod c.accScrub.banks (2 + e) {} fun y => { y with next := 0, began := t, ce := 0 } } }
  else c

/-- Puts the bank of an address into a power state; one that comes on begins a fresh lap. -/
def setBankState (s : State) (a v : Nat) : State :=
  let wakes := v == 0 && s.bankState a != 0
  match memUnit a with
  | some (.sp n) => s.modCore n fun x =>
      { (if wakes then freshRows s.timebase (spadBank a) x else x) with
        bankPower := setField2 x.bankPower (spadBank a) v
        spadScrub := if wakes then freshLap s.timebase a (spadBank a) x.spadScrub else x.spadScrub }
  | some (.ul c) => s.modCourse c fun x =>
      { x.setUlPower (ulBank a) v with ulScrub := if wakes then freshLap s.timebase a (ulBank a) x.ulScrub else x.ulScrub }
  | _ => s

/-- An access to a bank that is in retention or off turns it on; one that was off is zeroed and raises
BANK_OFF_ACCESS, naming the core or course, the bank and the master. -/
def wakeBank (s : State) (a master : Nat) : State :=
  match s.bankState a, memUnit a with
  | 1, _ => s.setBankState a 0
  | 2, some (.sp n) =>
    ((s.zeroRange (bankRange a).1 (bankRange a).2).setBankState a 0).raise 0x20 3 n [(2, n), (1, spadBank a), (2, master)]
  | 2, some (.ul c) =>
    ((s.zeroRange (bankRange a).1 (bankRange a).2).setBankState a 0).raise 0x20 2 c [(1, c), (1, ulBank a), (2, master)]
  | _, _ => s

/-- A read of a line by a master: the bank wakes, correctable words are counted, and an uncorrectable one is counted
and delivers nothing. The event of an uncorrectable read is the master's own. -/
def readLine (s : State) (a master : Nat) : Option (List Byte) × State :=
  let s := s.wakeBank a master
  let r := s.lineRead a
  (r.data, s.countErr a r.ce (if r.data.isSome then 0 else 1))

/-- ECC_UE: memory, address, master (R396). -/
def raiseUe (s : State) (a master : Nat) : State :=
  match memUnit a with
  | some .hbm => s.raise 0x22 5 (storage s.hbmAffinity a / 2 ^ 37) [(1, 2), (8, a), (2, master)]
  | some (.ul c) => s.raise 0x22 2 c [(1, 1), (8, a), (2, master)]
  | some (.sp n) => s.raise 0x22 3 n [(1, 0), (8, a), (2, master)]
  | none => s

end State

/-- Address of a row of an accumulator-extension bank: the extension banks hold the rows from 512 up, in ascending order (R134). -/
def Core.rowAddress (c : Core) (n r : Nat) : Nat :=
  let banks := (List.range 30).filter fun i => c.da.extBanks.getLsbD i
  spadBase n + 32768 * banks.getD ((r - 512) / 64) 0 + 512 * ((r - 512) % 64)

/-- An uncorrectable accumulator row, counted, and its ECC_UE: a row of an extension bank is a scratchpad line (R396). -/
def State.rowUe (s : State) (n r master : Nat) : State :=
  (s.modCore n fun c => { c with spadUe := sat32 c.spadUe 1 }).raise 0x22 3 n
    (if r < 512 then [(1, 3), (8, r), (2, master)] else [(1, 0), (8, (s.core n).rowAddress n r), (2, master)])

/-- The regions of a stream's program counter map. -/
def StreamCtx.codeMap (x : StreamCtx) : List Nat :=
  if x.hasEntry then
    x.pcRegion.toNat :: x.calls.map (fun e => e.region.toNat) ++ (match x.swap with | some p => [p.2.toNat] | none => [])
  else []

def Core.codeMap (c : Core) : List Nat := c.f.codeMap ++ c.b.codeMap ++ c.u.codeMap

/-- The code epoch advances; on the wrap to zero the instruction cache is emptied (R38). -/
def Core.nextEpoch (c : Core) : Core :=
  let e := c.codeEpoch + 1
  { c with codeEpoch := e, leftAt := if e = 0 then [] else c.leftAt, icache := if e = 0 then [] else c.icache }

def regionHolds (r : CodeRegion) (a : Nat) : Bool := decide (r.base ≤ a ∧ a < r.base + 64 * r.lines)

/-- The fetch buffers drop what they hold of a region. -/
def StreamCtx.dropLines (x : StreamCtx) (r : CodeRegion) : StreamCtx :=
  { x with fetchLine := x.fetchLine.filter fun a => !regionHolds r a, prefLine := x.prefLine.filter fun a => !regionHolds r a }

/-- What the retirement of region r, declared as d, leaves of a core. -/
def Core.regionRetired (c : Core) (r : Nat) (d : Option CodeRegion) : Core :=
  let c := { c with leftAt := tset c.leftAt r c.codeEpoch }
  match d with
  | some d => { c with f := c.f.dropLines d, b := c.b.dropLines d, u := c.u.dropLines d }
  | none => c

namespace State

def region? (s : State) (r : Nat) : Option CodeRegion := tfind s.image.bodies.regions r

def isLive (s : State) (r : Nat) : Bool := s.cores.any fun x => x.2.codeMap.contains r

/-- The live region that holds an address. -/
def liveAt (s : State) (a : Nat) : Option Nat :=
  (s.image.bodies.regions.find? fun x =>
    regionHolds x.2 a && s.isLive x.1).map (·.1)

/-- A code region that has left every map of the module is retired: each core notes the epoch that its later lines of the region
carry at least, and no fetch buffer keeps a line of it (R38). -/
def retireRegion (s : State) (r : Nat) : State :=
  { s with cores := s.cores.map fun x => (x.1, x.2.regionRetired r (s.region? r))
           image := { s.image with retired := r :: s.image.retired } }

/-- After a change to the maps of core n: each region that left all of them advances the code epoch, the wrap to zero
empties the cache, and a region that left every map is retired (R38). -/
def settleCode (before s : State) (n : Nat) : State :=
  let gone := ((before.core n).codeMap.dedup).filter fun r => !((s.core n).codeMap.contains r)
  gone.foldl
    (fun s r =>
      let s := s.modCore n Core.nextEpoch
      if s.isLive r then s else s.retireRegion r) s

/-- Lines of a region whose code is written leave every course code cache (R36). -/
def dropCodeCache (s : State) (a : Nat) : State :=
  match s.image.bodies.regions.find? fun x => decide (x.2.base ≤ a ∧ a < x.2.base + 64 * x.2.lines) with
  | some x =>
    { s with courses := s.courses.map fun c =>
        (c.1, { c.2 with codeCache := c.2.codeCache.filter fun l => l < x.2.base || x.2.base + 64 * x.2.lines ≤ l }) }
  | none => s

/-! ### Writing a line (R232, R242) -/

end State

def Flip.positions (f : Flip) : List Nat :=
  (((List.range 4).filter fun i => f.enable.getLsbD i).map fun i => (f.pos.getD i 0).toNat).dedup

namespace State

/-- The flips a write of this line takes, and the state with the mask used up. -/
def takeFlip (s : State) (a : Nat) : List Nat × State :=
  match memUnit a with
  | some .hbm =>
    let k := storage s.hbmAffinity a / 2 ^ 37
    let f := (s.stack k).flip
    if f.armed then (f.positions, s.modStack k fun x => { x with flip := { x.flip with armed := false } }) else ([], s)
  | some (.ul c) =>
    let f := (s.course c).ulFlip
    if f.armed then (f.positions, s.modCourse c fun x => { x with ulFlip := { x.ulFlip with armed := false } })
    else ([], s)
  | some (.sp n) =>
    let f := (s.core n).spadFlip
    if f.armed && !f.target then
      (f.positions, s.modCore n fun x => { x with spadFlip := { x.spadFlip with armed := false } })
    else ([], s)
  | none => ([], s)

/-- Stores a whole line with fresh check bits, then the flips of an armed mask; a scrubber's pending write-back of
the line is abandoned (R239). -/
def putLine (s : State) (a : Nat) (data : List Byte) : State :=
  let k := storage s.hbmAffinity a
  let f := s.takeFlip a
  let s := f.2
  let s := { s with mem := memPutAll s.mem k (bytesAt data 0 64)
                    memErr := if f.1.isEmpty then terase s.memErr (k / 64) else tset s.memErr (k / 64) f.1 }
  let s :=
    match memUnit a with
    | some .hbm => s.modStack (k / 2 ^ 37) fun x => { x with scrub := { x.scrub with fix := x.scrub.fix.erase (a / 64) } }
    | some (.ul c) => s.modCourse c fun x => { x with ulScrub := { x.ulScrub with fix := x.ulScrub.fix.erase (a / 64) } }
    | some (.sp n) => s.modCore n fun x => { x with spadScrub := { x.spadScrub with fix := x.spadScrub.fix.erase (a / 64) } }
    | none => s
  if a < 0x018000000000 then s.dropCodeCache a else s

/-- A core whose role is in reset or migrates: what is addressed to it is held (R337, R350). -/
def roleHeld (s : State) (n : Nat) : Bool :=
  s.coreReset.contains n || (s.course (courseOf n)).inReset ||
    (match (s.course (courseOf n)).migration with | some m => m.k == n % 32 | none => false)

def lineHeld (s : State) (a : Nat) : Bool :=
  match memUnit a with
  | some (.sp n) => s.roleHeld n
  | some (.ul c) => (s.course c).inReset
  | _ => false

def heldUnit (a : Nat) : Option Nat × Nat :=
  match memUnit a with
  | some (.sp n) => (some n, courseOf n)
  | some (.ul c) => (none, c)
  | _ => (none, 0)

end State

/-! ### Regions (R226, R243, R134, R285) -/

inductive Perm where
  | read | write | code
  deriving DecidableEq, Repr

def regionGrants (r : Region) (p : Perm) (line : Nat) : Bool :=
  r.enable && decide (r.base ≤ line ∧ line ≤ r.limit) &&
    (match p with | .read => r.read | .write => r.write | .code => r.code)

/-- The line lies in a scratchpad bank with an extension role, which only its own core's units reach. -/
def State.extended (s : State) (a : Nat) : Bool :=
  match memUnit a with
  | some (.sp n) =>
    (s.core n).da.extBanks.getLsbD (spadBank a) ||
      ((tget s.image.bodies.spadRoles n []).getD (spadBank a) 0 == 2)
  | _ => false

/-- A line access that the regions permit: mapped, not in an extension bank, and granted. -/
def State.permits (s : State) (rs : Tab Region) (p : Perm) (a : Nat) : Bool :=
  (memUnit a).isSome && !s.extended a && rs.any fun x => regionGrants x.2 p (a / 64)

/-! ### Clock gate and flags (R46, R50, R60) -/

def Core.openGate (c : Core) : Core :=
  if c.gated then { c with gated := false, gateWakes := c.gateWakes + 1 } else c

def Core.flag (c : Core) (k : Nat) : W32 := tget c.flags k 0

def Core.addFlag (c : Core) (k : Nat) (amount : W32) : Core := { c with flags := tset c.flags k (c.flag k + amount) }

/-- The loaded image leaves the core inactive, and its clock gated (R284). -/
def State.staysGated (s : State) (n : Nat) : Bool := s.image.loaded && !(s.core n).active

/-- An increment reaches a core's flag unit: held for a unit in reset or a migrating role, else added once and the
gate opens. -/
def State.incFlag (s : State) (n k : Nat) (amount : W32) : State :=
  if s.roleHeld n then
    { s with held := s.held ++ [{ core := some n, course := courseOf n, op := .inc n k amount }] }
  else s.modCore n fun c => if s.staysGated n then c.addFlag k amount else (c.addFlag k amount).openGate

/-! ### Ordered paths (R55, R56) and the writing of a line -/

namespace State

/-- The destination arrivals of core n at core k's scratchpad come. -/
def flushArrivals (s : State) (n k : Nat) : State :=
  let mine (p : PendArrive) : Bool := p.onPath && p.core == k
  let due := (s.core n).arrives.filter mine
  if due.isEmpty then s
  else
    due.foldl (fun s p => s.incFlag p.core p.flag p.amount)
      (s.modCore n fun c => { c with arrives := c.arrives.filter fun p => !mine p })

/-- The SIGNALs of core n to core k of this module on channel 0 come. -/
def flushSignals (s : State) (n k : Nat) : State :=
  let mine (g : OutSignal) : Bool := g.module == s.fabric.coord && g.core == k && g.vc == 0
  let due := (s.core n).outSignals.filter mine
  if due.isEmpty then s
  else
    due.foldl (fun s g => s.incFlag g.core g.flag g.amount)
      (s.modCore n fun c => { c with outSignals := c.outSignals.filter fun g => !mine g })

/-- What core n has sent towards core k of this module on the path of its writes, and is still on its way, arrives: first the
destination arrivals, whose writes brought every SIGNAL before them along (R55). -/
def flushPath (s : State) (n k : Nat) : State := (s.flushArrivals n k).flushSignals n k

/-- A core's write into a scratchpad follows what its path carries already. -/
def flushFor (s : State) (a master : Nat) : State :=
  match memUnit a with
  | some (.sp k) => if master < 2048 then s.flushPath master k else s
  | _ => s

/-- A write by a master: held for a unit in reset or a migrating role, else stored, the bank awake. -/
def writeLine (s : State) (a : Nat) (data : List Byte) (master : Nat) : State :=
  let s := s.flushFor a master
  if s.lineHeld a then
    { s with held := s.held ++ [{ core := (heldUnit a).1, course := (heldUnit a).2, op := .line a data master }] }
  else (s.wakeBank a master).putLine a data

end State

/-! ### Job states (R313) -/

def JobState.code : JobState → Nat
  | .empty => 0 | .loading => 1 | .loaded => 2 | .running => 3 | .paused => 4 | .faulted => 5 | .draining => 6
  | .halted => 7

/-- A job transition with its JOB_STATE event: old state, new state, cause. -/
def State.jobMove (s : State) (target : JobState) (cause : Nat) : State :=
  ({ s with job := { s.job with state := target } }).raise 0x2 0 0 [(1, s.job.state.code), (1, target.code), (1, cause)]

/-! ### Halting a core (R40, R41): the one operation that every fault takes -/

/-- Why a core halts: reason, HALT_INFO and HALT_REASON.flag (Table 02-10). `waits`: no halt, but a read that is held (R350), so that
the work is not done yet. -/
structure Stop where
  reason : Nat
  info : Nat := 0
  flag : Nat := 0
  waits : Bool := false
  deriving DecidableEq, Repr

/-- Where a fault was detected: HALT_STREAM.engine and stream, and the PC of the instruction. -/
structure HaltAt where
  engine : Nat
  stream : Nat
  region : Byte := 0
  index : W32 := 0
  deriving DecidableEq, Repr

def opChan (o : EngOp) : Nat := bits o.w.toNat 32 2
def opCode (w : Word128) : Nat := bits w.toNat 120 8

/-- Each declared channel discards its transfers and owes a STOPPED record that names the first one discarded (R119). -/
def Core.stopChannels (c : Core) : Core :=
  { c with
    chans := c.chans.map fun x =>
      if x.2.declared then
        let next := match x.2.queue with
          | o :: _ => some o
          | [] => c.dma.find? fun o => opCode o.w == 0xC0 && opChan o == x.1
        (x.1, { x.2 with queue := [], stops := x.2.stops ++ [{ cause := none, next := next }] })
      else x
    dma := [] }

/-- The engine with nothing of an instruction in its lanes, segment store and notes. -/
def Gme.idle (g : Gme) : Gme :=
  { g with lanes := [], uncut := [], deferred := [], slotsUsed := 0, finished := [], drops := [], outs := [], dropped := [], shared := [],
           laneBusy := [], inLane := [] }

/-- The engine that detected the fault discards the rest of its queue (R40, 3). -/
def Core.discard (c : Core) (engine : Nat) : Core :=
  match engine with
  | 1 => { c with da := { c.da with queue := [] } }
  | 2 => { c with gme := { c.gme.idle with queue := [], run := none } }
  | 3 => { c with ve := [] }
  | 5 => { c with val := [] }
  | _ => c

def StreamCtx.stopped (x : StreamCtx) : StreamCtx := { x with hold := .none, held := none, prefetch := none, adrift := [] }

/-- Halts core n. The first fault is recorded; a later one, up to the end of draining, is counted. -/
def State.haltCore (s : State) (n : Nat) (at_ : HaltAt) (st : Stop) : State :=
  let c := s.core n
  if c.halt.halted then
    if c.halt.draining then
      s.setCore n { c.discard at_.engine with halt := { c.halt with secondary := sat32 c.halt.secondary 1 } }
    else s
  else
    let rec_ : HaltRec :=
      { c.halt with halted := true, draining := true, engine := BitVec.ofNat 3 at_.engine, stream := BitVec.ofNat 2 at_.stream,
                    pcRegion := at_.region, pcIndex := at_.index, reason := BitVec.ofNat 8 st.reason,
                    flag := BitVec.ofNat 9 st.flag, info := BitVec.ofNat 64 st.info }
    let c := c.stopChannels.discard at_.engine
    let s := s.setCore n { c with halt := rec_, f := c.f.stopped, b := c.b.stopped, u := c.u.stopped }
    if st.reason = 0 ∨ st.reason = 0x16 then s
    else
      let s := { s with job := { s.job with faulted := s.job.faulted || s.job.state == .running || s.job.state == .paused } }
      if s.job.state = .running then s.jobMove .faulted 0x07 else s

/-- The halt of an instruction in an engine. -/
def State.haltOp (s : State) (n engine : Nat) (o : EngOp) (st : Stop) : State :=
  s.haltCore n { engine := engine, stream := o.stream.toNat, region := o.region, index := o.index } st

/-- REGION_DENIED at an address: bit 48 read, 49 write, 50 code. -/
def denied (p : Perm) (a : Nat) : Stop :=
  { reason := 0x0A, info := a % 2 ^ 48 + (match p with | .read => 2 ^ 48 | .write => 2 ^ 49 | .code => 2 ^ 50) }

/-- UNCORRECTABLE at an address. -/
def uncorrectable (a : Nat) : Stop :=
  { reason := 0x0B, info := a % 2 ^ 48 + (match memUnit a with | some m => m.code | none => 0) * 2 ^ 48 }

/-- An engine's work: it may stop the core, and either way leaves a state. -/
abbrev Work (α : Type) := ExceptT Stop (StateM State) α

def stopWith {α : Type} (st : Stop) : Work α := throw st

/-- A line that the work reads is held at its course's entry (R350). -/
def heldRead : Stop := { reason := 0, waits := true }

/-- The state `after` without the lines written since `before`: their bytes, code bits, masks used up, scrubber write-backs
abandoned, code-cache lines dropped, and lines held (R40, 3). What reads have counted and reported stays, and so do the accumulator's
rows with the mask that one of them took. -/
def State.undoWrites (before after : State) : State :=
  { after with
    mem := before.mem, memErr := before.memErr
    held := before.held ++ (after.held.drop before.held.length).filter fun h => match h.op with | .line _ _ _ => false | _ => true
    cores := after.cores.map fun x =>
      (x.1, { x.2 with spadFlip := if (before.core x.1).spadFlip.target then x.2.spadFlip else (before.core x.1).spadFlip,
                       spadScrub := { x.2.spadScrub with fix := (before.core x.1).spadScrub.fix } })
    courses := after.courses.map fun x =>
      (x.1, { x.2 with ulFlip := (before.course x.1).ulFlip,
                       ulScrub := { x.2.ulScrub with fix := (before.course x.1).ulScrub.fix },
                       codeCache := (before.course x.1).codeCache })
    hbm := after.hbm.map fun x => (x.1, { x.2 with flip := (before.stack x.1).flip, scrub := { x.2.scrub with fix := (before.stack x.1).scrub.fix } }) }

/-- Runs the work of instruction o of an engine of core n, then what follows it; a fault halts the core with no line
written and no signal sent, and with a read held the work is still to do. -/
def State.runWork (s : State) (n engine : Nat) (o : EngOp) (w : Work Unit) (after : State → State) : State :=
  match (w.run s) with
  | (.ok _, s') => after s'
  | (.error st, s') => if st.waits then s else (s.undoWrites s').haltOp n engine o st

/-- The same for an engine whose lines written before the fault stay written (R163). -/
def State.runKeep (s : State) (n engine : Nat) (o : EngOp) (w : Work Unit) (after : State → State) : State :=
  match (w.run s) with
  | (.ok _, s') => after s'
  | (.error st, s') => if st.waits then s else s'.haltOp n engine o st

/-- A core's engine reads a line: the region rule, then the code. The line of a role that migrates is held (R350). -/
def coreRead (n a : Nat) : Work (List Byte) := do
  let s ← get
  if !s.permits (s.core n).regions .read a then stopWith (denied .read a)
  else if s.lineHeld a then stopWith heldRead
  else
    let r := s.readLine a n
    set r.2
    match r.1 with
    | some d => pure d
    | none => stopWith (uncorrectable a)

/-- CODE_LIVE at a line of a live region (R36). -/
def codeLive (a region : Nat) : Stop := { reason := 0x0C, info := a % 2 ^ 48 + region * 2 ^ 48 }

/-- A core's engine writes a line: the region rule, then the live-code rule. -/
def coreWrite (n a : Nat) (data : List Byte) : Work Unit := do
  let s ← get
  if !s.permits (s.core n).regions .write a then stopWith (denied .write a)
  else
    match s.liveAt a with
    | some r => stopWith (codeLive a r)
    | none => set (s.writeLine a data n)

end Sys2Proof.Machine
end

