-- ==== Sys2Proof/Machine/Flags.lean ====
section
/-! DEFINITION. Flag comparison, the wait condition and the signal of an instruction (R25, R26, R48), and the
instruction word's fields (R22). -/

namespace Sys2Proof.Machine

/-! ### Fields of the instruction word (Table 02-4) -/

def fOpcode (w : Word128) : Nat := bits w.toNat 120 8
def fEngine (w : Word128) : Nat := bits w.toNat 117 3
def fWaitEn (w : Word128) : Bool := bits w.toNat 116 1 == 1
def fWaitFlag (w : Word128) : Nat := bits w.toNat 107 9
def fWaitCond (w : Word128) : Nat := bits w.toNat 105 2
def fWaitSreg (w : Word128) : Nat := bits w.toNat 99 6
def fSigEn (w : Word128) : Bool := bits w.toNat 98 1 == 1
def fSigFlag (w : Word128) : Nat := bits w.toNat 89 9
def fSigWhen (w : Word128) : Nat := bits w.toNat 87 2
def fSigSreg (w : Word128) : Nat := bits w.toNat 81 6
def fDst (w : Word128) : Nat := bits w.toNat 75 6
def fA (w : Word128) : Nat := bits w.toNat 69 6
def fB (w : Word128) : Nat := bits w.toNat 63 6
def fC (w : Word128) : Nat := bits w.toNat 57 6
def fImm (w : Word128) : Nat := bits w.toNat 0 32
/-- Bits [lo + len − 1 : lo] of the word, as the manual numbers the modifiers. -/
def fBits (w : Word128) (lo len : Nat) : Nat := bits w.toNat lo len

/-- imm32 sign-extended to 64 bits. -/
def sextImm (w : Word128) : Word := (BitVec.ofNat 32 (fImm w)).signExtend 64
def zextImm (w : Word128) : Word := BitVec.ofNat 64 (fImm w)

/-! ### Comparison (R48) -/

def flagGe (f c : W32) : Bool := (f - c).toNat < 2 ^ 31

/-- Whether a condition code holds: 0 GE, 1 EQ, 2 NE; 3 counts as holding (R19). -/
def condHolds (cond : Nat) (f c : W32) : Bool :=
  match cond with
  | 0 => flagGe f c
  | 1 => f == c
  | 2 => f != c
  | _ => true

/-- The wait condition of a word (R19, R25). -/
def Core.waitHolds (c : Core) (t : Stream) (w : Word128) : Bool :=
  !fWaitEn w || condHolds (fWaitCond w) (c.flag (fWaitFlag w)) (((c.ctx t).sreg (fWaitSreg w)).truncate 32)

/-- The increment of a word's signal (R26): s0 means one. -/
def sigAmount (x : StreamCtx) (w : Word128) : W32 :=
  if fSigSreg w = 0 then 1 else (x.sreg (fSigSreg w)).truncate 32

def sigOf (x : StreamCtx) (w : Word128) : Sig :=
  { en := fSigEn w, flag := fSigFlag w, when_ := fSigWhen w, amount := sigAmount x w }

/-- Sends a signal to a flag of a core of this module. -/
def State.signal (s : State) (n : Nat) (g : Sig) : State := if g.en then s.incFlag n g.flag g.amount else s

/-- The core whose flag a destination-arrival signal increments: that of the scratchpad written, else the issuing
core (R26). -/
def arrivalCore (n : Nat) (d : Option Desc) : Nat :=
  match d with
  | some d => if d.remote then n else match memUnit d.base with
    | some (.sp k) => k
    | _ => n
  | none => n

/-- The destination is a scratchpad of this module. -/
def onScratchpad (d : Option Desc) : Bool :=
  match d with
  | some d => !d.remote && (match memUnit d.base with | some (.sp _) => true | _ => false)
  | none => false

/-- A destination arrival of core n that leaves on the path of its writes to a scratchpad leaves behind what that path carries
already, an instruction's that wrote no line as well (R55). -/
def State.joinPath (s : State) (n : Nat) (dst : Option Desc) : State :=
  if onScratchpad dst then s.flushPath n (arrivalCore n dst) else s

/-- Signals an engine instruction at engine completion; a signal for destination arrival waits, unless the
instruction writes no memory, when it acts as one at completion. -/
def State.completeSignal (s : State) (n : Nat) (e : EngKind) (g : Sig) (dst : Option Desc) : State :=
  if !g.en then s
  else if g.when_ = 1 then s.incFlag n g.flag g.amount
  else if g.when_ = 2 then
    match dst with
    | none => s.incFlag n g.flag g.amount
    | some _ =>
      (s.joinPath n dst).modCore n fun c =>
        { c with arrives := c.arrives ++
            [{ eng := e, core := arrivalCore n dst, flag := g.flag, amount := g.amount, onPath := onScratchpad dst }] }
  else s

/-- Delivers the oldest destination arrival of an engine, behind the earlier ones of its path (R55). -/
def State.deliverArrival (s : State) (n : Nat) (e : EngKind) : State :=
  let l := (s.core n).arrives
  match l.findIdx? fun p => p.eng == e with
  | none => s
  | some i =>
    match l[i]? with
    | none => s
    | some p =>
      let before (q : PendArrive) : Bool := p.onPath && q.onPath && q.core == p.core
      let s := s.modCore n fun c => { c with arrives := ((l.take i).filter fun q => !before q) ++ l.drop (i + 1) }
      ((l.take i).filter before ++ [p]).foldl (fun s q => s.incFlag q.core q.flag q.amount) s

/-- Barrier release flag (Table 03-1). -/
def releaseFlag (level : Nat) (t : Stream) : Nat := 490 + 3 * level + t.toNat

/-- Swap-completion flag (R26). -/
def swapFlag (t : Stream) : Nat := 508 + t.toNat

end Sys2Proof.Machine
end

