-- ==== Sys2Proof/Machine/Numeric.lean ====
section
/-! DEFINITION. Number formats, rounding, block scaling and the reference order
(04_formats_scaling_and_reference_order.md, R73 to R97). Values are exact; a rounding is written where the manual
writes one. -/

namespace Sys2Proof.Machine

/-- The exact value of an element (R75): NaN, an infinity, or (−1)^neg · m · 2^e. Zeros keep their sign. -/
inductive FVal where
  | nan
  | inf (neg : Bool)
  | fin (neg : Bool) (m : Nat) (e : Int)
  deriving DecidableEq, Repr, Inhabited

namespace FVal

def zero : FVal := .fin false 0 0
def one : FVal := .fin false 1 0

def isNan : FVal → Bool
  | .nan => true
  | _ => false

def isZero : FVal → Bool
  | .fin _ m _ => m == 0
  | _ => false

def isFinite : FVal → Bool
  | .fin _ _ _ => true
  | _ => false

def isNeg : FVal → Bool
  | .nan => false
  | .inf n => n
  | .fin n _ _ => n

def negate : FVal → FVal
  | .nan => .nan
  | .inf n => .inf (!n)
  | .fin n m e => .fin (!n) m e

def abs : FVal → FVal
  | .nan => .nan
  | .inf _ => .inf false
  | .fin _ m e => .fin false m e

/-- v · 2^k, exactly. -/
def scale2 (k : Int) : FVal → FVal
  | .fin n m e => .fin n m (e + k)
  | v => v

/-- The signed integer of a finite value in units of 2^q, for q at or below its exponent. -/
def toUnits (q : Int) : FVal → Int
  | .fin n m e => let u : Int := (m * 2 ^ (e - q).toNat : Nat); if n then -u else u
  | _ => 0

def expOf : FVal → Int
  | .fin _ _ e => e
  | _ => 0

def ofUnits (q : Int) (i : Int) : FVal := .fin (decide (i < 0)) i.natAbs q

/-- IEEE 754 addition before rounding: exact, with the zero signs of round to nearest. -/
def add (x y : FVal) : FVal :=
  match x, y with
  | .nan, _ | _, .nan => .nan
  | .inf a, .inf b => if a = b then .inf a else .nan
  | .inf a, _ => .inf a
  | _, .inf b => .inf b
  | .fin na ma ea, .fin nb mb eb =>
    let q := min ea eb
    let i := toUnits q (.fin na ma ea) + toUnits q (.fin nb mb eb)
    if i = 0 then .fin (na && nb) 0 0 else ofUnits q i

def sub (x y : FVal) : FVal := add x (negate y)

/-- IEEE 754 multiplication before rounding. -/
def mul (x y : FVal) : FVal :=
  match x, y with
  | .nan, _ | _, .nan => .nan
  | .inf a, .inf b => .inf (a != b)
  | .inf a, .fin n m _ => if m = 0 then .nan else .inf (a != n)
  | .fin n m _, .inf b => if m = 0 then .nan else .inf (n != b)
  | .fin na ma ea, .fin nb mb eb => .fin (na != nb) (ma * mb) (ea + eb)

/-- Product with the zero rule of R89: a zero factor gives +0 whatever the other factor is. -/
def prod (x y : FVal) : FVal := if x.isZero || y.isZero then zero else mul x y

/-- Exact sum of products (R89): NaN when any is NaN or infinities of both signs meet; an exact zero is +0. -/
def sumExact (vs : List FVal) : FVal :=
  if vs.any isNan then .nan
  else
    let pos := vs.contains (.inf false)
    let neg := vs.contains (.inf true)
    if pos && neg then .nan
    else if pos then .inf false
    else if neg then .inf true
    else
      let q := vs.foldl (fun q v => min q v.expOf) 0
      let i := vs.foldl (fun a v => a + v.toUnits q) 0
      if i = 0 then zero else ofUnits q i

/-- Numeric order of two values that are not NaN; zeros are equal. -/
def lt (x y : FVal) : Bool :=
  match x, y with
  | .nan, _ | _, .nan => false
  | .inf a, .inf b => a && !b
  | .inf a, _ => a
  | _, .inf b => !b
  | .fin na ma ea, .fin nb mb eb =>
    let q := min ea eb
    decide (toUnits q (.fin na ma ea) < toUnits q (.fin nb mb eb))

def le (x y : FVal) : Bool := !x.isNan && !y.isNan && !(lt y x)

end FVal

/-! ### Floating-point encodings (R74, Table 04-2) -/

/-- An encoding: mantissa bits, exponent of the smallest normal, total bits, code of the largest finite value, and
whether the code above it is an infinity. -/
structure FloatFmt where
  man : Nat
  emin : Int
  bits : Nat
  maxCode : Nat
  hasInf : Bool

def fp32Fmt : FloatFmt := ⟨23, -126, 32, 0x7F7FFFFF, true⟩
def bf16Fmt : FloatFmt := ⟨7, -126, 16, 0x7F7F, true⟩
def fp16Fmt : FloatFmt := ⟨10, -14, 16, 0x7BFF, true⟩
def e4m3Fmt : FloatFmt := ⟨3, -6, 8, 0x7E, false⟩
def e5m2Fmt : FloatFmt := ⟨2, -14, 8, 0x7B, true⟩
def e3m2Fmt : FloatFmt := ⟨2, -2, 6, 0x1F, false⟩
def e2m3Fmt : FloatFmt := ⟨3, 0, 6, 0x1F, false⟩
def e2m1Fmt : FloatFmt := ⟨1, 0, 4, 0x7, false⟩

/-- Significand and exponent of a magnitude code: its value is fst · 2^snd. -/
def FloatFmt.codeVal (f : FloatFmt) (c : Nat) : Nat × Int :=
  let e := c / 2 ^ f.man
  let fr := c % 2 ^ f.man
  if e = 0 then (fr, f.emin - f.man) else (2 ^ f.man + fr, f.emin - f.man + (e - 1 : Nat))

/-- The value a code stands for (R74, R75). Every encoding above the largest finite value is a NaN, save the
infinity that follows it in the formats that have one. -/
def FloatFmt.decode (f : FloatFmt) (bits : Nat) : FVal :=
  let half := 2 ^ (f.bits - 1)
  let neg := decide (bits % (2 * half) ≥ half)
  let c := bits % half
  if c ≤ f.maxCode then let v := f.codeVal c; .fin neg v.1 v.2
  else if f.hasInf && c == f.maxCode + 1 then .inf neg
  else .nan

/-- A positive real, known by how it compares with each dyadic m · 2^e: `cmp m e` is the order of m · 2^e against
it. -/
abbrev RealCmp := Nat → Int → Ordering

/-- Order of a · 2^p against b · 2^q. -/
def cmpDyadic (a : Nat) (p : Int) (b : Nat) (q : Int) : Ordering :=
  let r := min p q
  compare (a * 2 ^ (p - r).toNat) (b * 2 ^ (q - r).toNat)

def dyadicCmp (m : Nat) (e : Int) : RealCmp := fun a p => cmpDyadic a p m e

/-- The real num / den, for den above zero. -/
def ratioCmp (num den : Nat) : RealCmp := fun a p => cmpDyadic (a * den) p num 0

/-- The square root of num / den. -/
def sqrtCmp (num den : Nat) : RealCmp := fun a p => cmpDyadic (a * a * den) (2 * p) num 0

/-- The largest magnitude code whose value does not exceed the real, up to the code above the largest finite one,
found bit by bit from the top. -/
def FloatFmt.floorCode (f : FloatFmt) (x : RealCmp) : Nat :=
  (List.range (f.bits - 1)).foldl
    (fun c i =>
      let c' := c + 2 ^ (f.bits - 2 - i)
      if c' ≤ f.maxCode + 1 && (let v := f.codeVal c'; x v.1 v.2) != .gt then c' else c) 0

/-- Round to nearest even (R86): the code above the largest finite value stands for overflow. -/
def FloatFmt.nearCode (f : FloatFmt) (x : RealCmp) : Nat :=
  let c := f.floorCode x
  if c > f.maxCode then c
  else
    let v := f.codeVal c
    match x (2 * v.1 + 1) (v.2 - 1) with
    | .lt => c + 1
    | .gt => c
    | .eq => if c % 2 = 0 then c else c + 1

/-- Stochastic rounding of m · 2^e under the random word r (R87). -/
def FloatFmt.stochCode (f : FloatFmt) (m : Nat) (e : Int) (r : Nat) : Nat :=
  let c := f.floorCode (dyadicCmp m e)
  if c > f.maxCode then c
  else
    let v := f.codeVal c
    let q := min e v.2
    let diff := m * 2 ^ (e - q).toNat - v.1 * 2 ^ (v.2 - q).toNat
    let d := diff * 2 ^ 32 / 2 ^ (v.2 - q).toNat
    if r < d then c + 1 else c

/-- A rounding mode: nearest even, or stochastic under a random word. -/
inductive Rounding where
  | near
  | stoch (r : W32)
  deriving DecidableEq, Repr

def FloatFmt.roundCode (f : FloatFmt) (rd : Rounding) (m : Nat) (e : Int) : Nat :=
  match rd with
  | .near => f.nearCode (dyadicCmp m e)
  | .stoch r => f.stochCode m e r.toNat

def signBit (f : FloatFmt) (neg : Bool) : Nat := if neg then 2 ^ (f.bits - 1) else 0

/-! ### FP32 results -/

def canonNan32 : W32 := 0x7FC00000

/-- rne32 (R86), with the canonical NaN (R75). -/
def rne32 : FVal → W32
  | .nan => canonNan32
  | .inf n => BitVec.ofNat 32 (signBit fp32Fmt n + 0x7F800000)
  | .fin n m e => BitVec.ofNat 32 (signBit fp32Fmt n + fp32Fmt.nearCode (dyadicCmp m e))

def dec32 (w : W32) : FVal := fp32Fmt.decode w.toNat

def add32 (a b : W32) : W32 := rne32 ((dec32 a).add (dec32 b))
def sub32 (a b : W32) : W32 := rne32 ((dec32 a).sub (dec32 b))
def mul32 (a b : W32) : W32 := rne32 ((dec32 a).mul (dec32 b))
/-- a · b + c, rounded once. -/
def fma32 (a b c : W32) : W32 := rne32 (((dec32 a).mul (dec32 b)).add (dec32 c))

/-- The FP32 value nearest a positive real, and of a negative one by its sign. -/
def near32 (neg : Bool) (x : RealCmp) : W32 := BitVec.ofNat 32 (signBit fp32Fmt neg + fp32Fmt.nearCode x)

/-- num and den of a finite magnitude. -/
def magRatio (m : Nat) (e : Int) : Nat × Nat := (m * 2 ^ e.toNat, 2 ^ (-e).toNat)

/-- Correctly rounded IEEE 754 division (R210). -/
def div32 (a b : W32) : W32 :=
  match dec32 a, dec32 b with
  | .nan, _ | _, .nan => canonNan32
  | .inf _, .inf _ => canonNan32
  | .inf x, y => rne32 (.inf (x != y.isNeg))
  | x, .inf y => rne32 (.fin (x.isNeg != y) 0 0)
  | .fin na ma ea, .fin nb mb eb =>
    if mb = 0 then (if ma = 0 then canonNan32 else rne32 (.inf (na != nb)))
    else
      let x := magRatio ma ea
      let y := magRatio mb eb
      near32 (na != nb) (ratioCmp (x.1 * y.2) (x.2 * y.1))

/-- Correctly rounded IEEE 754 square root (R210). -/
def sqrt32 (a : W32) : W32 :=
  match dec32 a with
  | .nan => canonNan32
  | .inf n => if n then canonNan32 else rne32 (.inf false)
  | .fin n m e =>
    if m = 0 then a
    else if n then canonNan32
    else let x := magRatio m e; near32 false (sqrtCmp x.1 x.2)

/-- The FP32 value nearest the exact β^k, for a non-negative finite β (R210). -/
def pow32 (b : W32) (k : Nat) : W32 :=
  match dec32 b with
  | .fin _ m e => near32 false (dyadicCmp (m ^ k) (e * k))
  | _ => canonNan32

/-! ### Format codes (R73, Table 04-1) -/

inductive Fmt where
  | fp32 | bf16 | fp16 | e4m3 | e5m2 | e4m3sh | e5m2sh | e3m2sh | e2m3sh | e2m1sh | int8 | int32
  | cbf16 | cfp32 | uint32 | uint64 | byte | remoteFlag
  deriving DecidableEq, Repr

def Fmt.ofCode (c : Byte) : Option Fmt :=
  match c.toNat with
  | 0x01 => some .fp32 | 0x02 => some .bf16 | 0x03 => some .fp16 | 0x04 => some .e4m3 | 0x05 => some .e5m2
  | 0x06 => some .e4m3sh | 0x07 => some .e5m2sh | 0x08 => some .e3m2sh | 0x09 => some .e2m3sh
  | 0x0A => some .e2m1sh | 0x0B => some .int8 | 0x0C => some .int32 | 0x10 => some .cbf16
  | 0x11 => some .cfp32 | 0x20 => some .uint32 | 0x21 => some .uint64 | 0x22 => some .byte
  | 0xF0 => some .remoteFlag
  | _ => none

/-- Code of a format (Table 04-1). -/
def Fmt.code : Fmt → Nat
  | .fp32 => 0x01 | .bf16 => 0x02 | .fp16 => 0x03 | .e4m3 => 0x04 | .e5m2 => 0x05
  | .e4m3sh => 0x06 | .e5m2sh => 0x07 | .e3m2sh => 0x08 | .e2m3sh => 0x09
  | .e2m1sh => 0x0A | .int8 => 0x0B | .int32 => 0x0C | .cbf16 => 0x10
  | .cfp32 => 0x11 | .uint32 => 0x20 | .uint64 => 0x21 | .byte => 0x22 | .remoteFlag => 0xF0

/-- Bits per element. -/
def Fmt.width : Fmt → Nat
  | .fp32 | .int32 | .cbf16 | .uint32 => 32
  | .bf16 | .fp16 => 16
  | .e4m3 | .e5m2 | .e4m3sh | .e5m2sh | .int8 | .byte => 8
  | .e3m2sh | .e2m3sh => 6
  | .e2m1sh => 4
  | .cfp32 | .uint64 => 64
  | .remoteFlag => 0

def Fmt.isShingle : Fmt → Bool
  | .e4m3sh | .e5m2sh | .e3m2sh | .e2m3sh | .e2m1sh => true
  | _ => false

def Fmt.isPlain8 : Fmt → Bool
  | .e4m3 | .e5m2 => true
  | _ => false

/-- The floating encoding of a format, if it has one. -/
def Fmt.float? : Fmt → Option FloatFmt
  | .fp32 => some fp32Fmt | .bf16 => some bf16Fmt | .fp16 => some fp16Fmt
  | .e4m3 | .e4m3sh => some e4m3Fmt | .e5m2 | .e5m2sh => some e5m2Fmt
  | .e3m2sh => some e3m2Fmt | .e2m3sh => some e2m3Fmt | .e2m1sh => some e2m1Fmt
  | _ => none

/-- Lines of one shingle group: its scale line and its data lines (R76, R101). -/
def Fmt.groupLines : Fmt → Nat
  | .e4m3sh | .e5m2sh => 17
  | .e3m2sh | .e2m3sh => 13
  | .e2m1sh => 9
  | _ => 1

/-- Two's complement value of the low n bits. -/
def signed (n : Nat) (x : Nat) : Int := if x % 2 ^ n ≥ 2 ^ (n - 1) then (x % 2 ^ n : Nat) - (2 ^ n : Nat) else (x % 2 ^ n : Nat)

/-- The exact value of an element (R75): the scale byte applies to the scaled formats; 0xFF reads as NaN. The FP32 value of a complex
element is open (DESIGN CHOICE: log entry 26). -/
def decodeElem (f : Fmt) (bits : Nat) (scale : Byte) : FVal :=
  match f.float? with
  | some ff =>
    if f.isShingle || f.isPlain8 then
      if scale = 0xFF then .nan else (ff.decode bits).scale2 ((scale.toNat : Int) - 127)
    else ff.decode bits
  | none =>
    match f with
    | .int8 => FVal.ofUnits 0 (signed 8 bits)
    | .int32 => FVal.ofUnits 0 (signed 32 bits)
    | .byte => .fin false (bits % 256) 0
    | .uint32 => .fin false (bits % 2 ^ 32) 0
    | .uint64 => .fin false (bits % 2 ^ 64) 0
    | _ => dec32 (Config.openValue f.code bits)

/-! ### Conversions (R80 to R87) -/

/-- Rounds a value to an integer: nearest even, or by R87 with unit spacing. -/
def roundInt (rd : Rounding) (m : Nat) (e : Int) : Nat :=
  if e ≥ 0 then m * 2 ^ e.toNat
  else
    let d := 2 ^ (-e).toNat
    let q := m / d
    let r := m % d
    match rd with
    | .near => if 2 * r > d then q + 1 else if 2 * r < d then q else if q % 2 = 0 then q else q + 1
    | .stoch w => if w.toNat < r * 2 ^ 32 / d then q + 1 else q

/-- Conversion of one value into an unscaled format (R84): the code, and whether it counts in CONVERT_PLAIN_SAT. The code of a format that
R84 does not list is open (DESIGN CHOICE: log entry 26). -/
def convertPlain (f : Fmt) (scale : Byte) (rd : Rounding) (v : FVal) : Nat × Bool :=
  match f with
  | .fp32 => ((rne32 v).toNat, false)
  | .bf16 | .fp16 =>
    let ff := if f = .bf16 then bf16Fmt else fp16Fmt
    match v with
    | .nan => (if f = .bf16 then 0x7FC0 else 0x7E00, false)
    | .inf n => (signBit ff n + ff.maxCode + 1, false)
    | .fin n m e => (signBit ff n + ff.roundCode rd m e, false)
  | .e4m3 | .e5m2 =>
    let ff := if f = .e4m3 then e4m3Fmt else e5m2Fmt
    if scale = 0xFF then (0x7F, false)
    else
      match v with
      | .nan => (0x7F, false)
      | .inf n => (signBit ff n + ff.maxCode, true)
      | .fin n m e =>
        let e' := e + (127 - (scale.toNat : Int))
        let top := ff.codeVal ff.maxCode
        if cmpDyadic m e' top.1 top.2 = .gt then (signBit ff n + ff.maxCode, true)
        else (signBit ff n + ff.roundCode rd m e', false)
  | .int8 =>
    match v with
    | .nan => (0, true)
    | .inf n => (if n then 0x80 else 0x7F, true)
    | .fin n m e =>
      let k := roundInt rd m e
      if n then (if k > 128 then (0x80, true) else ((256 - k) % 256, false))
      else if k > 127 then (0x7F, true) else (k, false)
  | f => (Config.openCode f.code (rne32 v) % 2 ^ f.width, false)

/-- The state byte of a block (R76). -/
structure BlockState where
  overflow : Bool
  stale : Bool
  counter : Nat

def BlockState.ofByte (b : Byte) : BlockState := ⟨b.getLsbD 7, b.getLsbD 6, b.toNat % 64⟩

def BlockState.toByte (b : BlockState) : Byte :=
  BitVec.ofNat 8 ((if b.overflow then 128 else 0) + (if b.stale then 64 else 0) + b.counter % 64)

/-- The largest magnitude among values that are not NaN. -/
def maxAbs (vs : List FVal) : FVal := vs.foldl (fun a v => if FVal.lt a v.abs then v.abs else a) FVal.zero

def FloatFmt.maxVal (f : FloatFmt) : FVal := let v := f.codeVal f.maxCode; .fin false v.1 v.2

/-- The derived scale of a block whose largest in-size magnitude is m0 (R82): the least s, up to 0xFE, with
m0 ≤ fmax · 2^(s − 127). -/
def derivedScale (ff : FloatFmt) (m0 : FVal) : Nat :=
  if m0.isZero then 0x7F
  else ((List.range 0xFE).find? (fun (s : Nat) => m0.le (ff.maxVal.scale2 ((s : Int) - 127)))).getD 0xFE

/-- What a block conversion writes (R80): scale byte, state byte and the codes of the 32 elements. -/
structure BlockOut where
  scale : Byte
  state : Byte
  codes : List Nat

/-- The block procedure of R80 on the in-size source values (`none` for padding); h is the halving count, derived
the scale mode, rd the rounding of each place. -/
def convertBlock (ff : FloatFmt) (derived : Bool) (h : Nat) (scale state : Byte) (xs : List (Option FVal))
    (rd : List Rounding) : BlockOut :=
  let st := BlockState.ofByte state
  let ins := xs.filterMap id
  if ins.isEmpty then ⟨scale, state, xs.map fun _ => 0⟩
  else if ins.any FVal.isNan then ⟨0xFF, BitVec.ofNat 8 (if st.stale then 64 else 0), xs.map fun _ => 0⟩
  else
    let s : Nat :=
      if derived || scale = 0xFF then derivedScale ff (maxAbs ins)
      else if st.overflow && scale.toNat < 0xFE then scale.toNat + 1 else scale.toNat
    let m := (maxAbs ins).scale2 (127 - (s : Int))
    let ovf := FVal.lt ff.maxVal m
    let quarter := ff.maxVal.scale2 (-2)
    let r : Nat × Nat :=                               -- counter and scale to write
      if ovf || h = 0 || derived || quarter.le m then (0, s)
      else if st.counter + 1 ≥ h then (if s > 0 then (0, s - 1) else (0, s))
      else (st.counter + 1, s)
    let code (x : Option FVal) (rd : Rounding) : Nat :=
      match x with
      | none => 0
      | some v =>
        match v.scale2 (127 - (r.2 : Int)) with
        | .fin n mm e =>
          if FVal.lt ff.maxVal (.fin false mm e) then signBit ff n + ff.maxCode
          else signBit ff n + ff.roundCode rd mm e
        | .inf n => signBit ff n + ff.maxCode
        | .nan => 0
    ⟨BitVec.ofNat 8 r.2, (BlockState.mk ovf st.stale r.1).toByte, List.zipWith code xs rd⟩

/-! ### The reference order (R88 to R95) -/

/-- Cuts a list into runs of 32 (R88). -/
def chunks32 {α : Type} : Nat → List α → List (List α)
  | 0, _ => []
  | _, [] => []
  | n + 1, xs => xs.take 32 :: chunks32 n (xs.drop 32)

def chunksOf {α : Type} (xs : List α) : List (List α) := chunks32 xs.length xs

/-- One fold of the reference order: acc = rne32(acc + rne32(c)) for an exact chunk sum c. -/
def foldChunk (acc : W32) (ps : List FVal) : W32 := add32 acc (rne32 (FVal.sumExact ps))

/-- The dot product of R88 from acc. -/
def refDot (acc : W32) (a b : List FVal) : W32 := (chunksOf (List.zipWith FVal.prod a b)).foldl foldChunk acc

/-- hi(x): truncated toward zero to BF16; an infinity or NaN stays (R91). -/
def hiPart (w : W32) : FVal :=
  match dec32 w with
  | .fin _ _ _ => dec32 (w &&& 0xFFFF0000)
  | v => v

/-- lo(x) = rne(x − hi(x)) to BF16; +0 for an infinity or NaN (R91). -/
def loPart (w : W32) : FVal :=
  match dec32 w with
  | .fin n m e => bf16Fmt.decode (convertPlain .bf16 0x7F .near (FVal.sub (.fin n m e) (hiPart w))).1
  | _ => FVal.zero

/-- The FP32 dot product of three BF16 passes, each chunk folding its passes in order (R91). -/
def refDot3 (acc : W32) (a b : List W32) : W32 :=
  (chunksOf (List.zip a b)).foldl
    (fun acc ch =>
      let p1 := ch.map fun x => FVal.prod (hiPart x.1) (hiPart x.2)
      let p2 := ch.map fun x => FVal.prod (hiPart x.1) (loPart x.2)
      let p3 := ch.map fun x => FVal.prod (loPart x.1) (hiPart x.2)
      foldChunk (foldChunk (foldChunk acc p1) p2) p3) acc

/-- The integer dot product of R93: 32-bit two's complement, modulo 2^32. -/
def refDotInt (acc : W32) (a b : List Int) : W32 :=
  (List.zipWith (fun x y => x * y) a b).foldl (fun acc p => acc + BitVec.ofInt 32 p) acc

/-- The sum of R88 over elements taken as they are (b = 1). -/
def refSum (acc : W32) (a : List FVal) : W32 :=
  (chunksOf (a.map fun v => FVal.prod v FVal.one)).foldl foldChunk acc

/-- Sum of two halves of a CBF16 operand, rounded to BF16 (R92). -/
def cbf16Sum (bits : Nat) : FVal :=
  bf16Fmt.decode (convertPlain .bf16 0x7F .near
    ((bf16Fmt.decode (bits % 65536)).add (bf16Fmt.decode (bits / 65536)))).1

/-- Order of VE.RMAX and VE.RMIN and of sorting: +0 counts as greater than −0. -/
def totalLt (x y : FVal) : Bool :=
  FVal.lt x y || (x.isZero && y.isZero && x.isNeg && !y.isNeg)

/-- Largest element, the canonical NaN if any is NaN or there is none (R94). -/
def refMax (xs : List W32) : W32 :=
  if xs.isEmpty || xs.any (fun w => (dec32 w).isNan) then canonNan32
  else xs.foldl (fun a w => if totalLt (dec32 a) (dec32 w) then w else a) (xs.headD 0)

def refMin (xs : List W32) : W32 :=
  if xs.isEmpty || xs.any (fun w => (dec32 w).isNan) then canonNan32
  else xs.foldl (fun a w => if totalLt (dec32 w) (dec32 a) then w else a) (xs.headD 0)

/-- The reduction of a collective in ascending rank order, absent contributions skipped (R96). -/
def rankSum : List (Option W32) → W32
  | [] => 0
  | none :: cs => rankSum cs
  | some c :: cs => cs.foldl (fun acc x => match x with | none => acc | some v => add32 acc v) c

/-! ### The counter generator (R200) -/

def rotl64 (x : Word) (k : Nat) : Word := x.rotateLeft k

def genRounds (seed stream : Word) : Nat → Word → Word → Word × Word
  | 0, l, r => (l, r)
  | n + 1, l, r =>
    let i := 9 - n
    let k := (if i % 2 = 0 then seed else stream) + BitVec.ofNat 64 (i + 1) * 0x9E3779B97F4A7C15
    let f := rotl64 ((r ^^^ k) * 0xD1B54A32D192ED03) 29
    genRounds seed stream n r (l ^^^ f)

/-- Ten rounds: output (l, r), l in bits [127:64]. -/
def generator (seed stream : Word) (tensor : W32) (step : W32) (elem : Word) : Word × Word :=
  genRounds seed stream 10 elem (BitVec.ofNat 64 (tensor.toNat * 2 ^ 32 + step.toNat))

/-- The random word of the element at place e of the data line that lies L lines into its allocation (R87). -/
def randomWord (key : Word × Word) (tensor step : W32) (line place : Nat) : W32 :=
  let q := 256 * line + place
  let o := generator key.1 key.2 tensor step (BitVec.ofNat 64 (q / 4))
  let word := o.1.toNat * 2 ^ 64 + o.2.toNat
  BitVec.ofNat 32 (word / 2 ^ (32 * (q % 4)))

end Sys2Proof.Machine
end

