-- ==== Sys2Proof/Machine/Operands.lean ====
section
/-! DEFINITION. Tensor descriptors: their layout, the checks of their creation, and the elements they name
(R99 to R109); reading and writing the rows of a tensor (R76 to R87, R100 to R102). -/

namespace Sys2Proof.Machine

/-! ### Fields -/

def dFmt (d : Desc) : Option Fmt := Fmt.ofCode d.fmt
def dSize (d : Desc) (k : Nat) : Nat := d.size.getD k 0
/-- Size with every dimension at or above the rank counted as 1. -/
def dSize1 (d : Desc) (k : Nat) : Nat := if k < d.rank then dSize d k else 1
/-- Stride of dimension k, for k from 1. -/
def dStride (d : Desc) (k : Nat) : Int := d.stride.getD (k - 1) 0
def dEmpty (d : Desc) : Bool := (List.range d.rank).any fun k => dSize d k == 0
def dWidth (d : Desc) : Nat := match dFmt d with | some f => f.width | none => 0

/-- Innermost extent in lines (R101). -/
def dExtent (d : Desc) : Nat :=
  match dFmt d with
  | some f =>
    if f.isShingle then (dSize d 0 + 1023) / 1024 * f.groupLines else (dSize d 0 * f.width + 511) / 512
  | none => 0

/-- A descriptor from its 128 bytes (Table 05-1; Table 03-3 for format 0xF0). -/
def parseDesc (l : List Byte) : Desc :=
  let b7 := natAt l 7 1
  let m := natAt l 12 4
  let fmt : Byte := BitVec.ofNat 8 (natAt l 6 1)
  let head : Desc :=
    { base := natAt l 0 6, fmt := fmt, exactEnd := b7.testBit 5, write := b7.testBit 4, rank := b7 % 8,
      alloc := natAt l 8 2, scale := BitVec.ofNat 8 (natAt l 10 1), remote := m.testBit 31,
      module := BitVec.ofNat 24 m, size := [], stride := [] }
  let headReserved := b7 / 64 != 0 || b7.testBit 3 || natAt l 11 1 != 0 || bits m 24 7 != 0
  if fmt = 0xF0 then
    let md := natAt l 16 4
    let co := natAt l 20 2
    let fl := natAt l 22 2
    let r : RemoteFlag :=
      { module := BitVec.ofNat 24 md, core := co % 2048, flag := fl % 512, vc := natAt l 24 1,
        reserved := md / 2 ^ 24 != 0 || co / 2048 != 0 || fl / 512 != 0 || natAt l 25 103 != 0 }
    { head with size := [0, 0, 0, 0, 0, 0], stride := [0, 0, 0, 0, 0],
                reserved := headReserved || r.reserved, rflag := some r }
  else
    { head with
      size := (List.range 6).map fun k => natAt l (16 + 4 * k) 4
      stride := (List.range 5).map fun k => signed 64 (natAt l (40 + 8 * k) 8)
      reserved := headReserved || natAt l 80 48 != 0 }

/-! ### Creation (R105 to R107) -/

/-- Coordinates of a module address: T, P, D, X. -/
def coords (m : ModAddr) : List Nat := (List.range 4).map fun i => bits m.toNat (6 * i) 6

def State.inFabric (s : State) (m : ModAddr) : Bool :=
  (List.range 4).all fun i => decide ((coords m).getD i 0 < s.fabric.sizes.getD i 1)

def fits64 (i : Int) : Bool := decide (-(2 ^ 63) ≤ i ∧ i < 2 ^ 63)

/-- The footprint as line numbers, none when an operation of it overflows 64 bits (R105). -/
def footprint (d : Desc) : Option (Int × Int) :=
  let step (st : Option (Int × Int)) (k : Nat) : Option (Int × Int) :=
    match st with
    | none => none
    | some (lo, hi) =>
      let span := ((dSize d k : Int) - 1) * dStride d k
      if !fits64 span then none
      else if span < 0 then (if fits64 (lo + span) then some (lo + span, hi) else none)
      else if fits64 (hi + span) then some (lo, hi + span) else none
  match (List.range d.rank).tail.foldl step (some (0, (dExtent d : Int) - 1)) with
  | none => none
  | some (lo, hi) =>
    let b : Int := (d.base / 64 : Nat)
    if fits64 (b + lo) && fits64 (b + hi) then some (b + lo, b + hi) else none

/-- Insertion by stride magnitude, ties in order. -/
def insertByStride (d : Desc) (k : Nat) : List Nat → List Nat
  | [] => [k]
  | j :: r => if (dStride d k).natAbs < (dStride d j).natAbs then k :: j :: r else j :: insertByStride d k r

/-- The dimensions of the injectivity test in order of stride magnitude. -/
def aliasOrder (d : Desc) : List Nat :=
  ((List.range d.rank).tail.filter fun k => decide (2 ≤ dSize d k)).foldl (fun l k => insertByStride d k l) []

/-- The pair of dimensions whose strides conflict, if any (R107). -/
def aliasFault (d : Desc) : Option (Nat × Nat) :=
  let rec go (x : Nat) (prev : Nat) : List Nat → Option (Nat × Nat)
    | [] => none
    | k :: r =>
      let m := (dStride d k).natAbs
      if m < x then some (k, prev) else go (x + (dSize d k - 1) * m) k r
  go (dExtent d) 0 (aliasOrder d)

/-- Whether an exact_end write descriptor ends on a line boundary (R102). -/
def exactOk (d : Desc) : Bool :=
  match dFmt d with
  | some f => if f.isShingle then dSize d 0 % 1024 == 0 else dSize d 0 * f.width % 512 == 0
  | none => true

/-- Address of the last line of the origin row's extent and the in-size bytes it holds (R102). -/
def lastLine (d : Desc) : Nat × Nat :=
  let e := dExtent d
  let a := d.base + 64 * (e - 1)
  match dFmt d with
  | some f =>
    if f.isShingle then
      let inGroup := dSize d 0 - (dSize d 0 - 1) / 1024 * 1024
      (a, (inGroup * f.width + 7) / 8 - 64 * (f.groupLines - 2))
    else (a, (dSize d 0 * f.width + 7) / 8 - 64 * (e - 1))
  | none => (a, 0)

/-- DESCRIPTOR_RANGE at a check, for a descriptor bound to register k. -/
def rangeStop (k check base : Nat) : Stop := { reason := 0x05, info := k + check * 2 ^ 8 + base % 2 ^ 48 * 2 ^ 16 }

def reservedFault (d : Desc) : Bool :=
  if d.fmt = 0xF0 then
    d.reserved || d.base != 0 || d.exactEnd || d.write || d.rank != 0 || d.alloc != 0 || d.scale != 0 || d.remote ||
      d.module != 0 || d.size.any (· != 0) || d.stride.any (· != 0)
  else
    d.reserved || (List.range 6).any (fun k => decide (d.rank ≤ k) && dSize d k != 0) ||
      (List.range 6).tail.any (fun k => decide (d.rank ≤ k) && dStride d k != 0) ||
      (d.scale != 0 && d.fmt != 0x04 && d.fmt != 0x05) || (!d.remote && d.module != 0)

/-- The live regions that the footprint shares lines with, each with the address of the first shared line. -/
def State.liveShared (s : State) (lo hi : Int) : List (Nat × Nat) :=
  (s.image.bodies.regions.filter fun x => s.isLive x.1).filterMap fun x =>
    let rlo : Int := (x.2.base / 64 : Nat)
    let rhi : Int := rlo + x.2.lines - 1
    let first := max lo rlo
    if first ≤ hi ∧ first ≤ rhi then some (x.1, (64 * first).toNat) else none

/-- The first line of the footprint that lies in a live region: the region and the line's address (R43). -/
def State.liveIn (s : State) (lo hi : Int) : Option (Nat × Nat) :=
  match s.liveShared lo hi with
  | [] => none
  | x :: r => some (r.foldl (fun y z => if z.2 < y.2 then z else y) x)

/-- The checks of Table 05-3 in order, for a descriptor to be bound to register k. -/
def State.validate (s : State) (k : Nat) (d : Desc) : Option Stop :=
  let range (c : Nat) := some (rangeStop k c d.base)
  if reservedFault d then range 1
  else if d.fmt = 0xF0 then
    match d.rflag with
    | none => range 1
    | some r =>
      if !s.inFabric r.module then range 13
      else if 2047 < r.core then range 14
      else if 480 ≤ r.flag then range 15
      else if r.vc != 0 && r.vc != 3 && r.vc != 4 && r.vc != 5 then range 16
      else none
  else if (dFmt d).isNone then range 2
  else if d.rank = 0 ∨ d.rank = 7 then range 3
  else if d.base % 64 != 0 then some { reason := 0x09, info := d.base % 2 ^ 48 }
  else if d.stride.any (fun x => decide (2 ^ 42 ≤ x.natAbs)) then range 5
  else
    match tfind s.image.bodies.allocs d.alloc with
    | none => range 6
    | some al =>
      if d.alloc = 0 ∨ al.loc ≠ (if d.remote then some d.module else none) then range 6
      else if d.remote && (!s.inFabric d.module || d.module == s.fabric.coord) then range 7
      else if dEmpty d then none
      else
        match footprint d with
        | none => range 8
        | some (lo, hi) =>
          let alo : Int := (al.base / 64 : Nat)
          if lo < alo ∨ alo + al.lines ≤ hi then range 9
          else if !d.write then none
          else
            match aliasFault d with
            | some (a, b) => some { reason := 0x06, info := k + a * 2 ^ 8 + b * 2 ^ 12 }
            | none =>
              if d.exactEnd && !exactOk d then
                let l := lastLine d
                some { reason := 0x08, info := l.1 % 2 ^ 48 + l.2 % 256 * 2 ^ 48 }
              else if d.remote then none
              else
                match s.liveIn lo hi with
                | some (r, a) => some { reason := 0x0C, info := a % 2 ^ 48 + r * 2 ^ 48 }
                | none => none

/-! ### Elements (R76, R77, R100) -/

/-- All index vectors (i1, i2, …) over the outer sizes given, i1 running fastest. -/
def indexVectors : List Nat → List (List Nat)
  | [] => [[]]
  | n :: r => (indexVectors r).flatMap fun v => (List.range n).map fun i => i :: v

def dOuterSizes (d : Desc) : List Nat := (List.range d.rank).tail.map fun k => dSize d k
def dOuter (d : Desc) : List (List Nat) := indexVectors (dOuterSizes d)

/-- Address of the first line of the row at an index vector; a vector longer than the rank names size-1 dimensions. -/
def dRow (d : Desc) (idx : List Nat) : Nat :=
  let off := ((List.range d.rank).tail.zip idx).foldl (fun a x => a + (x.2 : Int) * dStride d x.1) (0 : Int)
  ((d.base : Int) + 64 * off).toNat

/-- Lines of the row at an index vector. -/
def dRowLines (d : Desc) (idx : List Nat) : List Nat := (List.range (dExtent d)).map fun i => dRow d idx + 64 * i

/-- w bits at bit place off of a run of bytes. -/
def getBits (l : List Byte) (off w : Nat) : Nat := bits (natAt l (off / 8) ((off % 8 + w + 7) / 8)) (off % 8) w

/-- Packs codes of w bits, least significant first. -/
def packCodes (w : Nat) (cs : List Nat) : Nat := cs.foldr (fun c acc => c % 2 ^ w + acc * 2 ^ w) 0

/-- Codes and scale bytes of the n elements that a row's bytes hold. -/
def rowElems (f : Fmt) (scale : Byte) (n : Nat) (l : List Byte) : List (Nat × Byte) :=
  (List.range n).map fun i =>
    if f.isShingle then
      let g := i / 1024 * f.groupLines * 64
      let j := i % 1024
      (getBits (l.drop (g + 64)) (j * f.width) f.width, l.getD (g + j / 32) 0)
    else (getBits l (i * f.width) f.width, scale)

def rowValues (f : Fmt) (scale : Byte) (n : Nat) (l : List Byte) : List FVal :=
  (rowElems f scale n l).map fun x => decodeElem f x.1 x.2

/-- An unscaled row's bytes from its codes: padding zero (R102). -/
def packRow (f : Fmt) (extent : Nat) (codes : List Nat) : List Byte := leBytes (64 * extent) (packCodes f.width codes)

/-- Line within the row, and place within the line, of element i of a row (R87): an element that crosses a line is
taken at the line in which it begins (DEDUCED). -/
def elemPlace (f : Fmt) (i : Nat) : Nat × Nat :=
  if f.isShingle then
    let g := i / 1024
    let j := i % 1024
    let line := j * f.width / 512
    (g * f.groupLines + 1 + line, j - (line * 512 + f.width - 1) / f.width)
  else (i * f.width / 512, i - i * f.width / 512 * (512 / f.width))

/-- How a conversion rounds and scales (R80, R85). -/
structure ConvMode where
  derived : Bool := false
  halving : Nat := 64
  stoch : Bool := false
  tensor : W32 := 0
  key : Word × Word := (0, 0)
  step : W32 := 0
  deriving DecidableEq, Repr

/-- The rounding of element i of a row that begins `line` lines into its allocation. -/
def ConvMode.rounding (m : ConvMode) (f : Fmt) (line i : Nat) : Rounding :=
  if m.stoch then
    let p := elemPlace f i
    .stoch (randomWord m.key m.tensor m.step (line + p.1) p.2)
  else .near

/-- Converts a row of values (R83, R84): the bytes to write and how many elements count as saturated. `old` is the
row's present content, whose scales and states a shingle conversion reads. -/
def convertRow (f : Fmt) (scale : Byte) (m : ConvMode) (extent line : Nat) (old : List Byte) (vs : List FVal) :
    List Byte × Nat :=
  match f.float? with
  | some ff =>
    if f.isShingle then
      let groups := extent / f.groupLines
      let out := (List.range groups).map fun g =>
        let at_ := g * f.groupLines * 64
        let blocks := (List.range 32).map fun b =>
          let xs := (List.range 32).map fun i => vs[1024 * g + 32 * b + i]?
          convertBlock ff m.derived m.halving (old.getD (at_ + b) 0) (old.getD (at_ + 32 + b) 0) xs
            ((List.range 32).map fun i => m.rounding f line (1024 * g + 32 * b + i))
        blocks.map (fun b => b.scale) ++ blocks.map (fun b => b.state) ++
          leBytes (64 * (f.groupLines - 1)) (packCodes f.width (blocks.flatMap fun b => b.codes))
      (out.flatten, 0)
    else
      let cs := vs.mapIdx fun i v => convertPlain f scale (m.rounding f line i) v
      (packRow f extent (cs.map (·.1)), (cs.filter (·.2)).length)
  | none =>
    let cs := vs.mapIdx fun i v => convertPlain f scale (m.rounding f line i) v
    (packRow f extent (cs.map (·.1)), (cs.filter (·.2)).length)

/-! ### Rows through memory -/

/-- Reads the lines of a row. -/
def readLines (n : Nat) : List Nat → Work (List Byte)
  | [] => pure []
  | a :: r => do
    let d ← coreRead n a
    let rest ← readLines n r
    pure (d ++ rest)

def writeLines (n : Nat) : List Nat → List Byte → Work Unit
  | [], _ => pure ()
  | a :: r, l => do
    coreWrite n a (bytesAt l 0 64)
    writeLines n r (l.drop 64)

/-- The values that the lines of a row of a tensor hold. -/
def lineValues (d : Desc) (l : List Byte) : List FVal :=
  match dFmt d with
  | some f => rowValues f d.scale (dSize d 0) l
  | none => []

/-- The codes that they hold, as numbers. -/
def lineCodes (d : Desc) (l : List Byte) : List Nat :=
  match dFmt d with
  | some f => (rowElems f d.scale (dSize d 0) l).map (·.1)
  | none => []

/-- The values of the row of a tensor at an index vector. -/
def readRow (n : Nat) (d : Desc) (idx : List Nat) : Work (List FVal) := do
  let l ← readLines n (dRowLines d idx)
  pure (lineValues d l)

/-- The codes of the row, as numbers. -/
def readCodes (n : Nat) (d : Desc) (idx : List Nat) : Work (List Nat) := do
  let l ← readLines n (dRowLines d idx)
  pure (lineCodes d l)

/-- The values of a row converted to FP32 (R75). -/
def readRow32 (n : Nat) (d : Desc) (idx : List Nat) : Work (List W32) := do
  let vs ← readRow n d idx
  pure (vs.map rne32)

/-- Lines from the base of the descriptor's allocation to a row (R87). -/
def State.allocLine (s : State) (d : Desc) (row : Nat) : Nat :=
  match tfind s.image.bodies.allocs d.alloc with
  | some al => (row - al.base) / 64
  | none => row / 64

/-- The present scale lines of a shingle row; its data lines are not read and stand as zeros. -/
def readScales (n gl : Nat) : Nat → List Nat → Work (List Byte)
  | _, [] => pure []
  | i, a :: r => do
    let d ← if i % gl = 0 then coreRead n a else pure zeroLine
    let rest ← readScales n gl (i + 1) r
    pure (d ++ rest)

/-- Converts values and writes the row, reading the present scale lines of a shingle group first. -/
def writeRow (n : Nat) (d : Desc) (m : ConvMode) (idx : List Nat) (vs : List FVal) : Work Unit := do
  match dFmt d with
  | none => pure ()
  | some f =>
    let lines := dRowLines d idx
    let old ← if f.isShingle then readScales n f.groupLines 0 lines else pure []
    let s ← get
    let r := convertRow f d.scale m (dExtent d) (s.allocLine d (dRow d idx)) old vs
    writeLines n lines r.1
    modify fun s => s.modCore n fun c => { c with convertPlainSat := sat32 c.convertPlainSat r.2 }

/-- Writes a row of codes of the descriptor's own format, which is unscaled. -/
def writeCodes (n : Nat) (d : Desc) (idx : List Nat) (cs : List Nat) : Work Unit :=
  match dFmt d with
  | none => pure ()
  | some f => writeLines n (dRowLines d idx) (packRow f (dExtent d) cs)

end Sys2Proof.Machine
end

