-- ==== Sys2Proof/Machine/Issue.lean ====
section
/-! DEFINITION. The issue stage (R19 to R26): the one operation through which every core instruction issues. -/

namespace Sys2Proof.Machine

abbrev Out := Host.Outcome State Fault Refusal

/-- Opcodes of Tables 02-6 and 02-7 with their engines, by ranges of opcode. -/
def opcodeRanges : List (Nat × Nat × Nat) :=
  [(0x01, 0x0D, 0), (0x10, 0x13, 0), (0x18, 0x1B, 0), (0x20, 0x21, 0), (0x28, 0x2C, 0), (0x30, 0x34, 0),
   (0x40, 0x46, 1), (0x60, 0x6A, 2), (0x80, 0x8B, 3), (0x90, 0x93, 3), (0x98, 0x9A, 3), (0xA0, 0xA2, 3),
   (0xA4, 0xA6, 3), (0xC0, 0xC1, 4), (0xD0, 0xD3, 5), (0xE0, 0xE7, 6)]

def assigned (op : Nat) : Bool := opcodeRanges.any fun r => decide (r.1 ≤ op ∧ op ≤ r.2.1)

/-! ### Masks of the fields an opcode uses (R23) -/

def mField (lo len : Nat) : Nat := (2 ^ len - 1) * 2 ^ lo
def mDst : Nat := mField 75 6
def mA : Nat := mField 69 6
def mB : Nat := mField 63 6
def mC : Nat := mField 57 6
def mImm : Nat := mField 0 32

/-- The form of an instruction: opcode, engine and the mask of the operand, modifier and immediate bits it uses. -/
structure Form where
  opcode : Nat
  engine : Nat
  used : Nat
  deriving DecidableEq, Repr

/-- Bits of the word that may be set. -/
def allowedMask (f : Form) (w : Word128) : Nat :=
  f.used + mField 116 12 + mField 98 1 + (if fWaitEn w then mField 99 17 else 0) + (if fSigEn w then mField 81 17 else 0)

def lowestBit (x : Nat) : Option Nat := (List.range 128).find? fun i => x.testBit i

/-- The offending bit of R23: the lowest of the bits that must be zero and are not, and of the low bits of the
fields that hold a reserved value. -/
def offending (f : Form) (w : Word128) (reserved : List Nat) : Option Nat :=
  let extra := (List.range 128).find? fun i => w.toNat.testBit i && !(allowedMask f w).testBit i
  let res := reserved ++ (if fWaitEn w && fWaitCond w == 3 then [105] else []) ++
    (if fSigEn w && fSigWhen w == 3 then [87] else []) ++ extra.toList
  res.min?

/-- A descriptor operand that an instruction requires: operand code of Table 02-10 and register; `write` for one that
is only written; `modifier` for one named by a modifier field. -/
structure Need where
  operand : Nat
  reg : Nat
  write : Bool := false
  modifier : Bool := false
  deriving DecidableEq, Repr

def needDst (w : Word128) : Need := { operand := 0, reg := fDst w }
def needA (w : Word128) : Need := { operand := 1, reg := fA w }
def needB (w : Word128) : Need := { operand := 2, reg := fB w }
def needC (w : Word128) : Need := { operand := 3, reg := fC w }

/-- DESCRIPTOR_UNSET for a required descriptor (Table 02-10). -/
def Need.stop (k : Need) (op : Nat) : Stop :=
  { reason := 0x04, info := op + k.reg * 2 ^ 8 + (if k.modifier then 2 ^ 16 else k.operand * 2 ^ 14) }

/-- A required descriptor is d0 or unset; of several, a free value says which the halt names (log entry 10). -/
def unsetStop (x : StreamCtx) (op : Nat) (needs : List Need) : Option Stop :=
  match needs.filter fun k => k.reg == 0 || (!k.write && (x.dreg k.reg).isNone) with
  | [] => none
  | [k] => some (k.stop op)
  | k :: l =>
    let i := Config.unsetPick op ((k :: l).map (·.reg)) % (l.length + 1)
    some (((k :: l).getD i k).stop op)

/-- Checks 1 to 5 of Table 02-5, then the instruction's own checks 6 to 8. -/
def issueCheck (x : StreamCtx) (w : Word128) (f : Form) (reserved : List Nat) (needs : List Need)
    (late : Option Stop) : Option Stop :=
  let op := fOpcode w
  if !assigned op then some { reason := 0x01, info := w.toNat / 2 ^ 64 }
  else if fEngine w ≠ f.engine then some { reason := 0x03, info := op + fEngine w * 2 ^ 8 }
  else
    match offending f w reserved with
    | some b => some { reason := 0x02, info := op + b * 2 ^ 8 }
    | none =>
      if fSigEn w && decide (480 ≤ fSigFlag w) then some { reason := 0x10, info := op, flag := fSigFlag w }
      else
        match unsetStop x op needs with
        | some st => some st
        | none => late

/-- NOT_IN_STATE of a case, with HALT_INFO[31:16] (R44). -/
def notInState (w : Word128) (case_ : Nat) (arg : Nat := 0) : Stop :=
  { reason := 0x14, info := fOpcode w + case_ * 2 ^ 8 + arg % 2 ^ 16 * 2 ^ 16 }

/-- STACK_DEPTH: 0 loop or 1 call stack; 0 overflow, 1 underflow, 2 nesting; depth. -/
def stackStop (call kind depth : Nat) : Stop := { reason := 0x13, info := call + kind * 2 + depth * 2 ^ 8 }

def formatStop (w : Word128) (reg : Nat) (fmt : Byte) : Stop :=
  { reason := 0x12, info := fOpcode w + reg * 2 ^ 8 + fmt.toNat * 2 ^ 16 }

def shapeStop (r1 r2 dim : Nat) : Stop := { reason := 0x11, info := r1 + r2 * 2 ^ 8 + dim * 2 ^ 16 }

/-! ### The operands of an instruction in a queue -/

def EngOp.d (o : EngOp) (k : Nat) : Desc :=
  (tfind o.descs k).getD { base := 0, fmt := 0, rank := 0, alloc := 0, size := [], stride := [] }
def EngOp.dst (o : EngOp) : Desc := o.d (fDst o.w)
def EngOp.a (o : EngOp) : Desc := o.d (fA o.w)
def EngOp.b (o : EngOp) : Desc := o.d (fB o.w)
def EngOp.c (o : EngOp) : Desc := o.d (fC o.w)

/-! ### The next instruction of a stream (R22, R35, R38) -/

def cacheSet (a : Nat) : Nat := a / 64 % 256

/-- A line of the cache serves a fetch unless its epoch precedes the retirement of its region (R38). -/
def Core.cacheHit (c : Core) (region a : Nat) : Bool :=
  (tget c.icache (cacheSet a) []).any fun l =>
    l.addr == a && l.region.toNat == region && decide ((tget c.leftAt region 0).toNat ≤ l.epoch.toNat)

/-- Puts a line first in its set, which keeps four. -/
def Core.cachePut (c : Core) (region a : Nat) : Core :=
  let old := (tget c.icache (cacheSet a) []).filter fun l => l.addr != a
  let line : CacheLine := { addr := a, region := BitVec.ofNat 8 region, epoch := c.codeEpoch }
  { c with icache := tset c.icache (cacheSet a) ((line :: old).take 4) }

/-- A hit moves its line first without a new tag. -/
def Core.cacheTouch (c : Core) (a : Nat) : Core :=
  let set_ := tget c.icache (cacheSet a) []
  { c with icache := tset c.icache (cacheSet a) ((set_.filter fun l => l.addr == a) ++ set_.filter fun l => l.addr != a) }

/-- HBM address of the line `ahead` lines after that of the stream's next instruction, at the base of the PC's region, wherever that
region ends (R22): a fetch beyond it meets the core's code permission and no other bound (R243). -/
def State.lineAhead (s : State) (n : Nat) (t : Stream) (ahead : Nat) : Option Nat :=
  let x := (s.core n).ctx t
  (s.region? x.pcRegion.toNat).map fun r => r.base + 64 * (x.pcIndex.toNat / 4 + ahead)

def State.fetchAddr (s : State) (n : Nat) (t : Stream) : Option Nat := s.lineAhead n t 0

/-- The line after the stream's next instruction lies in the PC's region. -/
def State.nextInside (s : State) (n : Nat) (t : Stream) : Bool :=
  let x := (s.core n).ctx t
  (s.region? x.pcRegion.toNat).any fun r => decide (x.pcIndex.toNat / 4 + 1 < r.lines)

/-- The stream's next instruction: 16 bytes at region base + index × 16, least significant first (R22). A line whose code the
HBM copy fails is the one stored, which a fetch buffer may hold. -/
def State.nextWord (s : State) (n : Nat) (t : Stream) : Option Word128 :=
  (s.fetchAddr n t).map fun a =>
    BitVec.ofNat 128 (natAt ((s.lineRead a).data.getD (s.rawLine a)) (16 * (((s.core n).ctx t).pcIndex.toNat % 4)) 16)

/-- The next instruction's line is in the stream's fetch buffer, was prefetched, or hits in the cache, which costs no cycle (R19,
condition 1; R35). -/
def State.fetched (s : State) (n : Nat) (t : Stream) : Bool :=
  let x := (s.core n).ctx t
  match s.fetchAddr n t with
  | some a => x.fetchLine == some a || x.prefLine == some a || (s.core n).cacheHit x.pcRegion.toNat a
  | none => false

/-- A prefetch of another line than the demanded one is abandoned: its request still fills the cache (R35). -/
def StreamCtx.abandonPrefetch (x : StreamCtx) (a : Option Nat) : StreamCtx :=
  match x.prefetch with
  | some p => if a = some p.2 then x else { x with prefetch := none, adrift := x.adrift ++ [p] }
  | none => x

/-- The stream's fetch buffer takes the line at a, and a prefetch of `next` is asked for. -/
def StreamCtx.takeLine (x : StreamCtx) (a : Nat) (next : Option Nat) : StreamCtx :=
  if x.fetchLine = some a then x
  else
    let y := { x.abandonPrefetch next with fetchLine := some a }
    match next with
    | some b => if y.prefetch.isSome || y.prefLine == some b then y else { y with prefetch := some (x.pcRegion, b) }
    | none => y

/-- The line that a stream prefetches as it takes a line: the next one of its region, where it may be fetched and is not in the
cache (the moment of a prefetch is the model's: log entry 14). -/
def State.prefetchAddr (s : State) (n : Nat) (t : Stream) : Option Nat :=
  match s.lineAhead n t 1 with
  | some b =>
    if s.nextInside n t && s.permits (s.core n).regions .code b && !(s.core n).cacheHit ((s.core n).ctx t).pcRegion.toNat b then some b else none
  | none => none

/-- The line of the next instruction moves into the stream's fetch buffer. -/
def Core.takeLine (c : Core) (t : Stream) (a next : Option Nat) : Core :=
  match a with
  | some a => if (c.ctx t).fetchLine = some a then c else (c.cacheTouch a).modCtx t fun x => x.takeLine a next
  | none => c

/-! ### Eligibility (R19, R20) -/

/-- The word is presented by a stream that runs: it is of a loaded core, has an entry, is neither halted nor stopped at a window
or by a pause, its job runs, and the word is its next instruction (R18, R21, R314, R346). -/
def State.presents (s : State) (n : Nat) (t : Stream) (w : Word128) : Bool :=
  let c := s.core n
  let x := c.ctx t
  (s.job.state == .running || s.job.state == .faulted) && c.active && x.hasEntry && !c.halt.halted && !x.atWindow &&
    x.hold != .paused && !s.roleHeld n && s.nextWord n t == some w

/-- It may issue once its line is fetched as well (R19, condition 1). Condition 2 always holds: an LDL and an LDD of the model
write their registers as they issue. -/
def State.canIssue (s : State) (n : Nat) (t : Stream) (w : Word128) : Bool := s.presents n t w && s.fetched n t

/-- A free slot in a core's engine queue (R19, condition 4). The VE's head is the instruction it executes. -/
def Core.queueFree (c : Core) : EngKind → Bool
  | .da => decide (c.da.queue.length < Config.queueDepth)
  | .gme => decide (c.gme.queue.length < Config.queueDepth)
  | .ve => decide (c.ve.length < Config.queueDepth + 1)
  | .dma => decide (c.dma.length < Config.queueDepth)
  | .val => decide (c.val.length < Config.queueDepth)

/-- The queue that an engine field names. -/
def EngKind.ofField : Nat → Option EngKind
  | 1 => some .da | 2 => some .gme | 3 => some .ve | 4 => some .dma | 5 => some .val | _ => none

/-- The shadow has no owner, or the stream is its owner (R125). -/
def DenseArray.shadowFor (d : DenseArray) (t : Stream) : Bool := d.shadowOwner.isNone || d.shadowOwner == some t

/-- A write into region r by a DMA channel of the module is in progress (R37). -/
def State.writingInto (s : State) (r : CodeRegion) : Bool :=
  let hits (o : EngOp) : Bool :=
    match footprint o.dst with
    | some (lo, hi) =>
      !o.dst.remote && decide ((r.base / 64 : Nat) ≤ hi ∧ lo < ((r.base / 64 + r.lines : Nat) : Int))
    | none => false
  s.cores.any fun c => c.2.chans.any fun ch => match ch.2.cur with | some x => hits x.op | none => false

/-- A read of the line by core n is held at the entry of a course whose role migrates or whose unit is in reset (R350; log entry 48). -/
def State.readHeld (s : State) (n a : Nat) : Bool := a % 64 == 0 && s.permits (s.core n).regions .read a && s.lineHeld a

/-- What the chapters ask of an opcode before it may issue: no line of an LDL or LDD whose read is held (R350), the shadow of a
fill or a swap (R125), room in the outbound queue for a SIGNAL of a remote flag (R53), and no write into the new region of a
CODESWAP (R37). -/
def State.mayGo (s : State) (n : Nat) (t : Stream) (w : Word128) : Bool :=
  let c := s.core n
  let a := (((c.ctx t).sreg (fA w)) + sextImm w).toNat
  match fOpcode w with
  | 0x20 => !s.readHeld n a
  | 0x30 => !s.readHeld n a && !s.readHeld n (a + 64)
  | 0x40 | 0x41 | 0x42 => c.da.shadowFor t
  | 0xE2 =>
    (((c.ctx t).dreg (fA w)).bind (·.rflag)).isNone || !fSigEn w || decide (c.outSignals.length < Config.outboundDepth)
  | 0xE5 => match s.region? (fBits w 48 8) with | some r => !s.writingInto r | none => true
  | _ => true

/-- The queue that the word's engine field names has a free slot, and nothing of its opcode keeps it (R19, condition 4). -/
def State.wordFree (s : State) (n : Nat) (t : Stream) (w : Word128) : Bool :=
  (match EngKind.ofField (fEngine w) with | some e => (s.core n).queueFree e | none => true) && s.mayGo n t w

/-- The stream is eligible with its next instruction (R19). -/
def State.eligible (s : State) (n : Nat) (t : Stream) : Bool :=
  match s.nextWord n t with
  | some w => s.canIssue n t w && (s.core n).waitHolds t w && s.wordFree n t w
  | none => false

/-- No stream that stands before t in the core's priority order is eligible (R20). -/
def State.goesFirst (s : State) (n : Nat) (t : Stream) : Bool :=
  ((s.core n).order.takeWhile fun u => u != t).all fun u => !s.eligible n u

/-- The stream is held with its instruction (Table 02-17). -/
def State.hold (s : State) (n : Nat) (t : Stream) (w : Word128) (h : Hold) : State :=
  s.modCtx n t fun x => { x with hold := h, held := some w }

/-- The stream demands a line that it does not have: it stalls, and a prefetch of another line is abandoned (R35). -/
def State.miss (s : State) (n : Nat) (t : Stream) : State :=
  s.modCtx n t fun x => { x.abandonPrefetch (s.fetchAddr n t) with hold := .fetch, held := none }

/-- The instruction leaves the issue stage: its line is in the fetch buffer, the PC advances, the watchdog returns to zero, and the
stream moves to the last place of the core's order (R20, R35, R61). -/
def State.retire (s : State) (n : Nat) (t : Stream) : State :=
  s.modCore n fun c =>
    { (c.takeLine t (s.fetchAddr n t) (s.prefetchAddr n t)).modCtx t fun x =>
        { x with pcIndex := x.pcIndex + 1, wdog := 0, hold := .none, held := none } with
      order := c.order.erase t ++ [t] }

def State.haltIssue (s : State) (n engine : Nat) (t : Stream) (st : Stop) : State :=
  let x := (s.core n).ctx t
  s.haltCore n { engine := engine, stream := t.toNat, region := x.pcRegion, index := x.pcIndex } st

/-- The parts of an instruction that the issue stage needs beyond its form. -/
structure IssueReq where
  form : Form
  reserved : List Nat := []
  needs : List Need := []
  late : Option Stop := none       -- checks 6 to 8
  ownSignal : Bool := true         -- the sig fields name a flag of this core

/-- The signal sent at issue: that of a scalar or sync instruction at any moment, of an engine instruction with
sig_when 0 (R26). -/
def issueSignal (r : IssueReq) (w : Word128) : Bool :=
  r.ownSignal && (r.form.engine == 0 || r.form.engine == 6 || fSigWhen w == 0)

/-- Issues the instruction w of stream t of core n. `eff` is its effect on the state in which it has retired; a fault
of the effect is detected by the scalar unit and its signal is not sent. -/
def State.issue (s : State) (n : Nat) (t : Stream) (w : Word128) (r : IssueReq) (eff : State → Except (Stop × State) State) :
    Out :=
  if assigned (fOpcode w) ∧ fOpcode w ≠ r.form.opcode then .refused (.otherInstruction (BitVec.ofNat 8 (fOpcode w)))
  else if !s.presents n t w then .next s
  else if !s.fetched n t then .next (s.miss n t)
  else if !(s.core n).waitHolds t w then .next (s.hold n t w .flag)
  else if !s.wordFree n t w then .next (s.hold n t w .queue)
  else if !s.goesFirst n t then .next s
  else
    let x := (s.core n).ctx t
    match issueCheck x w r.form r.reserved r.needs r.late with
    | some st => .next (s.haltIssue n 6 t st)
    | none =>
      let g := sigOf x w
      match eff (s.retire n t) with
      | .ok s' => .next (if issueSignal r w then s'.signal n g else s')
      | .error (st, s') =>
        .next (s'.haltCore n { engine := 0, stream := t.toNat, region := x.pcRegion, index := x.pcIndex } st)

/-! ### Engine queues -/

def EngKind.field : EngKind → Nat
  | .da => 1 | .gme => 2 | .ve => 3 | .dma => 4 | .val => 5

def Core.push (c : Core) (e : EngKind) (o : EngOp) : Core :=
  match e with
  | .da => { c with da := { c.da with queue := c.da.queue ++ [o] } }
  | .gme => { c with gme := { c.gme with queue := c.gme.queue ++ [o] } }
  | .ve => { c with ve := c.ve ++ [o] }
  | .dma => { c with dma := c.dma ++ [o] }
  | .val => { c with val := c.val ++ [o] }

/-- The instruction as it enters a queue: its operands taken at issue (R21). `regs` are the descriptor registers it
names. -/
def State.engOp (s : State) (n : Nat) (t : Stream) (w : Word128) (regs : List Nat) : EngOp :=
  let x := (s.core n).ctx t
  { w := w, stream := t, region := x.pcRegion, index := x.pcIndex, sig := sigOf x w,
    descs := (regs.filterMap fun k => (x.dreg k).map fun d => (k, d)).foldl (fun l p => tset l p.1 p.2) [],
    step := (s.course (courseOf n)).step }

/-- Issues an engine instruction into its queue. `upd` is what issue itself changes beyond the queue. -/
def State.issueEngine (s : State) (n : Nat) (t : Stream) (w : Word128) (e : EngKind) (r : IssueReq) (regs : List Nat)
    (upd : State → State := id) : Out :=
  let o := s.engOp n t w regs
  s.issue n t w r fun s => .ok (upd (s.modCore n fun c => c.push e o))

end Sys2Proof.Machine
end

