-- ==== Sys2Proof/Machine/Sync.lean ====
section
/-! DEFINITION. The sync instructions NOP, WAIT, SIGNAL, BARRIER, TESTWIN, HALT and FLAGRD (R25, R51, R53, R66, R67,
R346), and the arrival of a clock gate's closing and of a watchdog's period (R59, R62). -/

namespace Sys2Proof.Machine

/-- What the issue stage asks of Nop. -/
def nopReq (_ : State) (_ : CoreId) (_ : Stream) (_ : Word128) : IssueReq :=
  { form := ⟨0xE0, 6, 0⟩ }

def execNop (c : CoreId) (t : Stream) (w : Word128) (s : State) : Out :=
  s.issue c t w (nopReq s c t w) fun s => .ok s

/-- What the issue stage asks of WaitOp. -/
def waitOpReq (_ : State) (_ : CoreId) (_ : Stream) (_ : Word128) : IssueReq :=
  { form := ⟨0xE1, 6, 0⟩ }

def execWaitOp (c : CoreId) (t : Stream) (w : Word128) (s : State) : Out :=
  s.issue c t w (waitOpReq s c t w) fun s => .ok s

/-- What the issue stage asks of Flagrd. -/
def flagrdReq (_ : State) (_ : CoreId) (_ : Stream) (_ : Word128) : IssueReq :=
  { form := ⟨0xE7, 6, mDst + mField 0 9⟩ }

def execFlagrd (c : CoreId) (t : Stream) (w : Word128) (s : State) : Out :=
  let v := (s.core c).flag (fBits w 0 9)
  s.issue c t w (flagrdReq s c t w)
    fun s => .ok (s.setSreg c t (fDst w) (v.zeroExtend 64))

/-- What the issue stage asks of HaltOp. -/
def haltOpReq (_ : State) (_ : CoreId) (_ : Stream) (_ : Word128) : IssueReq :=
  { form := ⟨0xE6, 6, mImm⟩ }

/-- HALT: the core halts with reason NONE, HALT_INFO the immediate (R40). -/
def execHaltOp (c : CoreId) (t : Stream) (w : Word128) (s : State) : Out :=
  let x := (s.core c).ctx t
  s.issue c t w (haltOpReq s c t w)
    fun s => .ok (s.haltCore c { engine := 6, stream := t.toNat, region := x.pcRegion, index := x.pcIndex }
      { reason := 0, info := fImm w })

/-- What the issue stage asks of Testwin. -/
def testwinReq (_ : State) (_ : CoreId) (_ : Stream) (_ : Word128) : IssueReq :=
  { form := ⟨0xE4, 6, 0⟩ }

/-- TESTWIN: the stream stops at the window (R346). -/
def execTestwin (c : CoreId) (t : Stream) (w : Word128) (s : State) : Out :=
  s.issue c t w (testwinReq s c t w)
    fun s => .ok (s.modCtx c t fun x => { x with atWindow := true, hold := .window })

/-- What the issue stage asks of Signal. -/
def signalReq (s : State) (c : CoreId) (t : Stream) (w : Word128) : IssueReq :=
  let x := (s.core c).ctx t
  let remote := fA w != 0
  let d := x.dreg (fA w)
  let flagBits := if remote && fSigEn w then ((List.range 9).find? fun i => (fSigFlag w).testBit i).toList else []
  { form := ⟨0xE2, 6, mA⟩
    reserved := flagBits.map fun i => 89 + i
    needs := if remote then [needA w] else []
    late := match d with
      | some d => if d.fmt = 0xF0 then none else some (formatStop w (fA w) d.fmt)
      | none => none
    ownSignal := !remote }

/-- SIGNAL (R53): a local flag, or one increment into the outbound queue for a remote-flag descriptor. -/
def execSignal (c : CoreId) (t : Stream) (w : Word128) (s : State) : Out :=
  let x := (s.core c).ctx t
  let d := x.dreg (fA w)
  s.issue c t w (signalReq s c t w)
    fun s =>
      match d.bind (·.rflag) with
      | some r =>
        if fSigEn w then
          .ok (s.modCore c fun k =>
            { k with outSignals := k.outSignals ++
                [{ module := r.module, core := r.core, flag := r.flag, vc := r.vc, amount := sigAmount x w }] })
        else .ok s
      | none => .ok s

/-! ### Barriers, the issuing side (R66, R67) -/

/-- Barriers of a level (Table 03-7). -/
def barrierCount : Nat → Nat
  | 0 => 64 | 1 => 32 | 2 => 16 | _ => 0

/-- Place of a module or fabric barrier in `modBarriers`. -/
def barrierSlot (level index : Nat) : Nat := if level = 1 then index else 32 + index

def State.barrier (s : State) (level course index : Nat) : Barrier :=
  if level = 0 then tget (s.course course).barriers index {} else tget s.modBarriers (barrierSlot level index) {}

def State.setBarrier (s : State) (level course index : Nat) (b : Barrier) : State :=
  if level = 0 then s.modCourse course fun c => { c with barriers := tset c.barriers index b }
  else { s with modBarriers := tset s.modBarriers (barrierSlot level index) b }

def roundKey (level index : Nat) (t : Stream) : Nat := (level * 64 + index) * 3 + t.toNat

/-- What the issue stage asks of Barrier. -/
def barrierReq (s : State) (c : CoreId) (t : Stream) (w : Word128) : IssueReq :=
  let level := fBits w 38 2
  let index := fBits w 32 6
  let x := (s.core c).ctx t
  let b := s.barrier level (courseOf c) index
  let late :=
    if !b.declared || !b.parts.contains (c.val, t) then some (notInState w 0x08 t.toNat)
    else if 8 ≤ (x.unreleased.filter fun u => u.level == level).length then some (notInState w 0x09 t.toNat)
    else none
  { form := ⟨0xE3, 6, mField 32 8⟩
    reserved := if level = 3 then [38] else if barrierCount level ≤ index then [32] else []
    late := late }

def execBarrier (c : CoreId) (t : Stream) (w : Word128) (s : State) : Out :=
  let level := fBits w 38 2
  let index := fBits w 32 6
  let x := (s.core c).ctx t
  s.issue c t w (barrierReq s c t w)
    fun s =>
      let round := tget (s.core c).rounds (roundKey level index t) 0
      let s := s.modCore c fun k =>
        { k.modCtx t (fun y =>
            { y with unreleased := y.unreleased ++
                [{ level := level, course := courseOf c, barrier := index, gen := round.toNat, done := false }] }) with
          rounds := tset k.rounds (roundKey level index t) (round + 1) }
      .ok { s with arrivals := s.arrivals ++
        [{ level := level, course := courseOf c, barrier := index, core := c, stream := t, round := round.toNat,
           region := x.pcRegion, index := x.pcIndex }] }

/-! ### Watchdogs and the gate -/

/-- The instruction whose unmet wait condition holds a stream: its next one, once fetched, at a test window or a pause as well
(R61). -/
def State.waitsOn (s : State) (n : Nat) (t : Stream) : Option Word128 :=
  match s.nextWord n t with
  | some w =>
    let x := (s.core n).ctx t
    if x.hasEntry && s.fetched n t && !(s.core n).waitHolds t w then some w else none
  | none => none

/-- The watchdog of the stream has reached its period (R62). -/
def Core.barks (c : Core) (t : Stream) : Bool := decide (2 ^ c.wdogLog2.toNat ≤ (c.ctx t).wdog)

/-- A stream whose watchdog goes before that of t when both fire together: F, then B, then U. -/
def State.barksFirst (s : State) (n : Nat) (t : Stream) : Bool :=
  (allStreams.takeWhile fun u => u != t).any fun u => (s.waitsOn n u).isSome && (s.core n).barks u

/-- WAIT_TIMEOUT: the watchdog of a stream held by an unmet wait reaches its period (R62). One that fires beside the first of its
core is counted in HALT_SECONDARY. -/
def execWaitTimeout (c : CoreId) (t : Stream) (s : State) : Out :=
  let k := s.core c
  match s.waitsOn c t with
  | some w =>
    if k.barks t && !s.barksFirst c t then
      let f := k.flag (fWaitFlag w)
      let v : W32 := ((k.ctx t).sreg (fWaitSreg w)).truncate 32
      .next ((s.haltIssue c 6 t { reason := 0x0E, info := f.toNat * 2 ^ 32 + v.toNat, flag := fWaitFlag w }).modCtx c t
        fun x => { x with wdog := 0 })
    else .next s
  | none => .next s

/-- The engine queues, the engines, the course-port queue and the DMA channels are idle, with every record written. -/
def Core.idle (c : Core) : Bool :=
  c.da.queue.isEmpty && c.da.running.isEmpty && c.gme.queue.isEmpty && c.gme.run.isNone && c.ve.isEmpty && c.dma.isEmpty &&
    c.val.isEmpty && c.chans.all fun x => x.2.queue.isEmpty && x.2.cur.isNone && x.2.stops.isEmpty

/-- Nothing of the core works: no stream could issue, and no queue, engine, channel or fetch holds work (R59). -/
def Core.quiet (c : Core) : Bool :=
  c.idle && allStreams.all fun t => (c.ctx t).prefetch.isNone && (c.ctx t).adrift.isEmpty && (c.ctx t).hold != .fetch

/-- The stream is idle, halted, held only by an unmet wait, stopped at a window or by a pause (R59). -/
def State.streamQuiet (s : State) (n : Nat) (t : Stream) : Bool :=
  let x := (s.core n).ctx t
  !x.hasEntry || (s.core n).halt.halted || x.atWindow || x.hold == .paused || (s.waitsOn n t).isSome

/-- GATE_CLOSE: the arithmetic clock gate closes after eight idle cycles (R59). -/
def execGateClose (c : CoreId) (s : State) : Out :=
  let k := s.core c
  if !k.gated && k.quiet && allStreams.all (fun t => s.streamQuiet c t) then .next (s.setCore c { k with gated := true }) else .next s

end Sys2Proof.Machine
end

