-- ==== Sys2Proof/Machine/Crypto.lean ====
section
/-! DEFINITION. The functions the manual names by their standards: CRC-32C (R251, R297), SHA-384 (R277, R288) and
verification of ECDSA P-384 signatures (R284, R301, R363). -/

namespace Sys2Proof.Machine

/-! ### CRC-32C: reflected, polynomial 0x1EDC6F41 -/

def crcByte (c : W32) (b : Byte) : W32 :=
  (List.range 8).foldl (fun c _ => if c.getLsbD 0 then (c >>> 1) ^^^ 0x82F63B78 else c >>> 1) (c ^^^ b.zeroExtend 32)

def crc32c (l : List Byte) : W32 := ~~~(l.foldl crcByte 0xFFFFFFFF)

/-! ### SHA-384 (FIPS 180-4) -/

/-- The first 80 primes. -/
def primes80 : List Nat :=
  (List.range 410).filter fun n => decide (2 ≤ n) && (List.range 20).all fun d => decide (d < 2) || n % d != 0 || n == d

/-- Largest r below 2^n with r^k ≤ x. -/
def introot (k n x : Nat) : Nat :=
  (List.range n).foldl (fun r i => let c := r + 2 ^ (n - 1 - i); if c ^ k ≤ x then c else r) 0

/-- The first 64 fraction bits of the cube roots of the first 80 primes. -/
def shaK : List Word := primes80.map fun p => BitVec.ofNat 64 (introot 3 68 (p * 2 ^ 192))

/-- The first 64 fraction bits of the square roots of the 9th to 16th primes. -/
def shaInit : List Word := ((primes80.drop 8).take 8).map fun p => BitVec.ofNat 64 (introot 2 70 (p * 2 ^ 128))

def rotr64 (x : Word) (k : Nat) : Word := x.rotateRight k

/-- Extends the newest-first schedule by one word. -/
def shaNext (w : List Word) : List Word :=
  let a := w.getD 14 0
  let b := w.getD 1 0
  let s0 := rotr64 a 1 ^^^ rotr64 a 8 ^^^ (a >>> 7)
  let s1 := rotr64 b 19 ^^^ rotr64 b 61 ^^^ (b >>> 6)
  (w.getD 15 0 + s0 + w.getD 6 0 + s1) :: w

def shaRound (h : List Word) (kw : Word × Word) : List Word :=
  let a := h.getD 0 0
  let b := h.getD 1 0
  let c := h.getD 2 0
  let e := h.getD 4 0
  let f := h.getD 5 0
  let g := h.getD 6 0
  let s1 := rotr64 e 14 ^^^ rotr64 e 18 ^^^ rotr64 e 41
  let t1 := h.getD 7 0 + s1 + ((e &&& f) ^^^ (~~~e &&& g)) + kw.1 + kw.2
  let s0 := rotr64 a 28 ^^^ rotr64 a 34 ^^^ rotr64 a 39
  let t2 := s0 + ((a &&& b) ^^^ (a &&& c) ^^^ (b &&& c))
  [t1 + t2, a, b, c, h.getD 3 0 + t1, e, f, g]

def shaBlock (h : List Word) (block : List Byte) : List Word :=
  let w0 := ((List.range 16).map fun i => BitVec.ofNat 64 (beNat (bytesAt block (8 * i) 8))).reverse
  let w := ((List.range 64).foldl (fun w _ => shaNext w) w0).reverse
  List.zipWith (· + ·) h ((shaK.zip w).foldl shaRound h)

def shaPad (l : List Byte) : List Byte :=
  let n := l.length
  l ++ [0x80] ++ List.replicate ((128 - (n + 17) % 128) % 128) 0 ++ beBytes 16 (8 * n)

def shaBlocks : Nat → List Word → List Byte → List Word
  | 0, h, _ => h
  | n + 1, h, l => shaBlocks n (shaBlock h (l.take 128)) (l.drop 128)

/-- The 48 bytes of the digest. -/
def sha384 (l : List Byte) : List Byte :=
  let p := shaPad l
  ((shaBlocks (p.length / 128) shaInit p).take 6).flatMap fun w => beBytes 8 w.toNat

/-! ### ECDSA over P-384 (FIPS 186-4) -/

def p384P : Nat := 2 ^ 384 - 2 ^ 128 - 2 ^ 96 + 2 ^ 32 - 1
def p384N : Nat := 0xffffffffffffffffffffffffffffffffffffffffffffffffc7634d81f4372ddf581a0db248b0a77aecec196accc52973
def p384B : Nat := 0xb3312fa7e23ee7e4988e056be3f82d19181d9c6efe8141120314088f5013875ac656398d8a2ed19d2a85c8edd3ec2aef
def p384G : Nat × Nat :=
  (0xaa87ca22be8b05378eb1c71ef320ad746e1d3b628ba79b9859f741e082542a385502f25dbf55296c3a545e3872760ab7,
   0x3617de4a96262c6f5d9e98bf9292dc29f8f41dbd289a147ce9da3113b5f0b8c00a60b1ce1d7e819d7a431d7c90ea0e5f)

/-- b^e mod m by square and multiply over the low n bits of e. -/
def modPow (m : Nat) : Nat → Nat → Nat → Nat
  | 0, _, _ => 1 % m
  | n + 1, b, e => let r := modPow m n (b * b % m) (e / 2); if e % 2 = 1 then r * b % m else r

def modInv (m a : Nat) : Nat := modPow m 384 (a % m) (m - 2)

/-- A point of the curve; none is the point at infinity. -/
abbrev Point := Option (Nat × Nat)

def ecAdd (a b : Point) : Point :=
  match a, b with
  | none, q => q
  | q, none => q
  | some (x1, y1), some (x2, y2) =>
    let p := p384P
    if x1 = x2 ∧ (y1 + y2) % p = 0 then none
    else
      let l := if x1 = x2 then (3 * x1 * x1 + 3 * (p - 1)) % p * modInv p (2 * y1) % p
               else (y2 + p - y1) % p * modInv p (x2 + p - x1) % p
      let x := (l * l + 2 * p - x1 - x2) % p
      some (x, (l * (x1 + p - x) + p - y1) % p)

def ecMul : Nat → Nat → Point → Point
  | 0, _, _ => none
  | n + 1, k, q => let r := ecMul n (k / 2) (ecAdd q q); if k % 2 = 1 then ecAdd r q else r

def onCurve (q : Nat × Nat) : Bool :=
  decide (q.1 < p384P ∧ q.2 < p384P) && (q.2 * q.2 % p384P == (q.1 * q.1 % p384P * q.1 + 3 * (p384P - q.1) + p384B) % p384P)

/-- The signature (r, s) over a 48-byte hash verifies under a public key. -/
def ecdsaOk (key : Nat × Nat) (hash : List Byte) (r s : Nat) : Bool :=
  let n := p384N
  if !onCurve key || r = 0 || n ≤ r || s = 0 || n ≤ s then false
  else
    let w := modInv n s
    match ecAdd (ecMul 384 (beNat hash * w % n) (some p384G)) (ecMul 384 (r * w % n) (some key)) with
    | some q => q.1 % n == r
    | none => false

end Sys2Proof.Machine
end

