-- ==== Sys2Proof/Machine/FuncTables.lean ====
section
/-! DEFINITION. Function and derivative tables (R191 to R193): their evaluation, and the coefficients of the built-in
tables, formed in fixed point with 256 fraction bits and rounded once. -/

namespace Sys2Proof.Machine

/-! ### Fixed point: an integer i stands for i / 2^256 -/

def fixP : Nat := 256
def fixOne : Int := 2 ^ fixP
def fixMul (a b : Int) : Int := Int.fdiv (a * b) fixOne
def fixDiv (a b : Int) : Int := Int.fdiv (a * fixOne) b
def fixOfRat (n d : Int) : Int := Int.fdiv (n * fixOne) d

/-- Σ x^k / k! for k < n, for x at or above zero. -/
def expSeries : Nat → Nat → Int → Int → Int → Int
  | 0, _, _, _, acc => acc
  | n + 1, k, x, term, acc => expSeries n (k + 1) x (Int.fdiv (fixMul term x) (k + 1)) (acc + term)

def fixExp (x : Int) : Int :=
  if x ≥ 0 then expSeries 220 0 x fixOne 0 else fixDiv fixOne (expSeries 220 0 (-x) fixOne 0)

/-- 2 · (z + z³/3 + z⁵/5 + …). -/
def atanhSeries : Nat → Nat → Int → Int → Int → Int
  | 0, _, _, _, acc => 2 * acc
  | n + 1, k, z2, p, acc => atanhSeries n (k + 1) z2 (fixMul p z2) (acc + Int.fdiv p (2 * k + 1))

def fixLnUnit (y : Int) : Int :=
  let z := fixDiv (y - fixOne) (y + fixOne)
  atanhSeries 170 0 (fixMul z z) z 0

def fixLn2 : Int := let z := fixOfRat 1 3; atanhSeries 170 0 (fixMul z z) z 0

/-- ln y for y at or above 1. -/
def fixLn (y : Int) : Int :=
  let k := Nat.log2 (y.toNat / 2 ^ fixP)
  k * fixLn2 + fixLnUnit (Int.fdiv y (2 ^ k))

def atanSeries : Nat → Nat → Int → Int → Int → Int
  | 0, _, _, _, acc => acc
  | n + 1, k, z2, p, acc =>
    atanSeries n (k + 1) z2 (fixMul p z2) (if k % 2 = 0 then acc + Int.fdiv p (2 * k + 1) else acc - Int.fdiv p (2 * k + 1))

/-- π = 16 atan(1/5) − 4 atan(1/239). -/
def fixPi : Int :=
  let a := fixOfRat 1 5
  let b := fixOfRat 1 239
  16 * atanSeries 120 0 (fixMul a a) a 0 - 4 * atanSeries 120 0 (fixMul b b) b 0

/-- Integer square root by bits, for arguments below 4^n. -/
def isqrt (n x : Nat) : Nat :=
  (List.range n).foldl (fun r i => let c := r + 2 ^ (n - 1 - i); if c * c ≤ x then c else r) 0

def fixSqrt (x : Int) : Int := (isqrt 400 (x.toNat * 2 ^ fixP) : Nat)

/-- Normal density and distribution. -/
def fixPhi (x : Int) : Int := fixDiv (fixExp (-(Int.fdiv (fixMul x x) 2))) (fixSqrt (2 * fixPi))

def phiSeries : Nat → Nat → Int → Int → Int → Int
  | 0, _, _, _, acc => acc
  | n + 1, k, x2, term, acc => phiSeries n (k + 1) x2 (Int.fdiv (fixMul term x2) (2 * k + 3)) (acc + term)

def fixCdf (x : Int) : Int :=
  if x ≥ 0 then Int.fdiv fixOne 2 + fixMul (fixPhi x) (phiSeries 320 0 (fixMul x x) x 0)
  else Int.fdiv fixOne 2 - fixMul (fixPhi x) (phiSeries 320 0 (fixMul x x) (-x) 0)

def fixSigmoid (x : Int) : Int := fixDiv fixOne (fixOne + fixExp (-x))

/-! ### The functions of Table 09-4: f, f′ and f″ of entries 1 to 5 -/

/-- k-th derivative of the function of a direct-mode entry. -/
def directFn (entry k : Nat) (x : Int) : Int :=
  let s := fixSigmoid x
  let s1 := fixMul s (fixOne - s)
  let s2 := fixMul s1 (fixOne - 2 * s)
  match entry, k with
  | 1, 0 => s
  | 1, 1 => s1
  | 1, _ => s2
  | 2, _ =>
    let e := fixExp (2 * x)
    let t := fixDiv (e - fixOne) (e + fixOne)
    let t1 := fixOne - fixMul t t
    match k with
    | 0 => t
    | 1 => t1
    | _ => -2 * fixMul t t1
  | 3, 0 => fixMul x (fixCdf x)
  | 3, 1 => fixCdf x + fixMul x (fixPhi x)
  | 3, _ => fixMul (fixPhi x) (2 * fixOne - fixMul x x)
  | 4, 0 => fixMul x s
  | 4, 1 => s + fixMul x s1
  | 4, _ => 2 * s1 + fixMul x s2
  | _, 0 => fixLn (fixOne + fixExp x)
  | _, 1 => s
  | _, _ => s1

/-- g and g′ of an exponent or power entry at t; `deriv` chooses the derivative table. -/
def powerFn (entry : Nat) (deriv : Bool) (t : Int) : Int × Int :=
  match entry, deriv with
  | 0, _ => let g := fixExp (fixMul t fixLn2); (g, fixMul fixLn2 g)
  | 6, false => let r := fixDiv fixOne t; (r, -(fixMul r r))
  | 6, true => let r := fixDiv fixOne t; (-(fixMul r r), 2 * fixMul r (fixMul r r))
  | _, d =>
    let q := fixDiv fixOne (fixSqrt t)            -- m^(−1/2)
    let q3 := fixDiv q t
    let q5 := fixDiv q3 t
    if d then (-(Int.fdiv q3 2), Int.fdiv (3 * q5) 4) else (q, -(Int.fdiv q3 2))

/-- A fixed-point value rounded to FP32. -/
def fixTo32 (v : Int) : W32 := if v = 0 then 0 else near32 (decide (v < 0)) (dyadicCmp v.natAbs (-(fixP : Int)))

/-- The Hermite coefficients of a segment from t0 to t1 (R193). -/
def hermite (t0 t1 : Int) (g : Int → Int × Int) : W32 × W32 × W32 × W32 :=
  let a := g t0
  let b := g t1
  let d := t1 - t0
  let sl := fixDiv (b.1 - a.1) d
  let c2 := fixDiv (3 * sl - 2 * a.2 - b.2) d
  let c3 := fixDiv (fixDiv (a.2 + b.2 - 2 * sl) d) d
  (fixTo32 a.1, fixTo32 a.2, fixTo32 c2, fixTo32 c3)

/-- Header of a table: everything but its coefficients. -/
structure FuncHead where
  mode : Nat
  s : Int := 0
  k : Int := 0
  sym : Nat := 0
  base : W32 := 0
  tl0 : W32 := 0
  tl1 : W32 := 0
  th0 : W32 := 0
  th1 : W32 := 0
  deriving DecidableEq, Repr

def w32One : W32 := 0x3F800000
def w32MinusOne : W32 := 0xBF800000

/-- Headers of Table 09-4. -/
def builtinHead (entry : Nat) (deriv : Bool) : FuncHead :=
  let direct (lo : W32) (s : Int) (l0 l1 h0 h1 d0 d1 : W32) : FuncHead :=
    if deriv then { mode := 0, s := s, base := lo, th0 := d0, th1 := d1 }
    else { mode := 0, s := s, base := lo, tl0 := l0, tl1 := l1, th0 := h0, th1 := h1 }
  match entry with
  | 0 => { mode := 1, base := 0x3FB8AA3B }
  | 1 => direct 0xC1800000 (-1) 0 0 w32One 0 0 0
  | 2 => direct 0xC1000000 (-2) w32MinusOne 0 w32One 0 0 0
  | 3 => direct 0xC1000000 (-2) 0 0 0 w32One w32One 0
  | 4 => direct 0xC1800000 (-1) 0 0 0 w32One w32One 0
  | 5 => direct 0xC1800000 (-1) 0 0 0 w32One w32One 0
  | 6 => if deriv then { mode := 2, k := -4, sym := 2 } else { mode := 2, k := -2, sym := 1 }
  | _ => if deriv then { mode := 2, k := -3 } else { mode := 2, k := -1 }

/-- Coefficients of segment i of a built-in table. -/
def builtinSeg (entry : Nat) (deriv : Bool) (i : Nat) : W32 × W32 × W32 × W32 :=
  if entry = 0 then hermite (fixOfRat i 64) (fixOfRat (i + 1) 64) (powerFn 0 deriv)
  else if entry ≤ 5 then
    let lo : Int := if entry = 2 ∨ entry = 3 then -8 else -16
    let den : Int := if entry = 2 ∨ entry = 3 then 4 else 2
    let at_ (j : Nat) : Int := fixOfRat (lo * den + j) den
    let o := if deriv then 1 else 0
    hermite (at_ i) (at_ (i + 1)) fun t => (directFn entry o t, directFn entry (o + 1) t)
  else
    let b : Int := if i ≥ 32 then 2 else 1
    let j : Int := i % 32
    hermite (fixOfRat ((32 + j) * b) 32) (fixOfRat ((33 + j) * b) 32) (powerFn entry deriv)

/-! ### Evaluation (R192) -/

/-- fma of three values, rounded once. -/
def fmaV (a b c : FVal) : FVal := dec32 (rne32 ((a.mul b).add c))

def polyAt (c : W32 × W32 × W32 × W32) (u : FVal) : FVal :=
  fmaV (fmaV (fmaV (dec32 c.2.2.2) u (dec32 c.2.2.1)) u (dec32 c.2.1)) u (dec32 c.1)

/-- Floor of a finite value. -/
def floorV : FVal → Int
  | .fin n m e =>
    let v : Int := if n then -(m : Int) else m
    if e ≥ 0 then v * 2 ^ e.toNat else Int.fdiv v (2 ^ (-e).toNat)
  | _ => 0

def intV (i : Int) : FVal := FVal.ofUnits 0 i

def tailAt (t0 t1 : W32) (x : FVal) : W32 :=
  match x with
  | .inf n => if (dec32 t1).isZero then t0 else rne32 (.inf (n != (dec32 t1).isNeg))
  | _ => rne32 ((dec32 t0).add ((dec32 t1).mul x))

def evalDirect (h : FuncHead) (seg : Nat → W32 × W32 × W32 × W32) (x : FVal) : W32 :=
  let lo := dec32 h.base
  let hi := lo.add (FVal.one.scale2 (h.s + 6))
  if x.lt lo then tailAt h.tl0 h.tl1 x
  else if hi.le x then tailAt h.th0 h.th1 x
  else
    let i := (floorV ((x.sub lo).scale2 (-h.s))).toNat
    let u := dec32 (rne32 (x.sub (lo.add ((intV i).scale2 h.s))))
    rne32 (polyAt (seg i) u)

/-- Exponent mode (R192). Where rne32 of x · mult is an infinity although x is finite, the rule's floor is not defined: the model gives what
the infinity of that sign gives (DESIGN CHOICE: log entry 60). -/
def evalExponent (h : FuncHead) (seg : Nat → W32 × W32 × W32 × W32) (x : FVal) : W32 :=
  match x with
  | .inf n => if n then 0 else 0x7F800000
  | _ =>
    match dec32 (rne32 (x.mul (dec32 h.base))) with
    | .fin a m e =>
      let y : FVal := .fin a m e
      let n := floorV y
      let f := y.sub (intV n)
      let i := (floorV (f.scale2 6)).toNat
      let u := f.sub ((intV i).scale2 (-6))
      -- beyond ±400 the rounding has the same outcome as at ±400
      rne32 ((polyAt (seg i) u).scale2 (max (-400) (min 400 n)))
    | .inf n => if n then 0 else 0x7F800000
    | .nan => canonNan32

/-- Power mode (R192). A −0 under sym 1 counts as a negative x, though the rule's test is x < 0: its result takes the sign of segment 0's c0
negated (DESIGN CHOICE: log entry 60). -/
def evalPower (h : FuncHead) (seg : Nat → W32 × W32 × W32 × W32) (x : FVal) : W32 :=
  if x.isNeg && !x.isZero && h.sym = 0 then canonNan32
  else
    let flip := x.isNeg && h.sym == 1
    let sgn := (dec32 (seg 0).1).isNeg != flip
    match x with
    | .nan => canonNan32
    | .inf _ => rne32 (if h.k < 0 then .fin sgn 0 0 else .inf sgn)
    | .fin _ m e =>
      if m = 0 then rne32 (if h.k < 0 then .inf sgn else .fin sgn 0 0)
      else
        let l := Nat.log2 m
        let t : Int := e + l
        let q := Int.fdiv t 2
        let b := t - 2 * q
        let j := (m - 2 ^ l) * 32 / 2 ^ l
        let i := 32 * b.toNat + j
        let mant : FVal := .fin false m (e - 2 * q)
        let u := mant.sub ((intV (32 + j)).scale2 (b - 5))
        let p := (polyAt (seg i) u).scale2 (h.k * q)
        rne32 (if flip then p.negate else p)

/-- The value of a table at an FP32 input. -/
def evalTable (h : FuncHead) (seg : Nat → W32 × W32 × W32 × W32) (w : W32) : W32 :=
  match dec32 w with
  | .nan => canonNan32
  | x =>
    match h.mode with
    | 0 => evalDirect h seg x
    | 1 => evalExponent h seg x
    | _ => evalPower h seg x

/-- exp by the built-in exponential table (R94). -/
def exp32 (w : W32) : W32 := evalTable (builtinHead 0 false) (builtinSeg 0 false) w

end Sys2Proof.Machine
end

