-- ==== Sys2Proof/Machine/Ve.lean ====
section
/-! DEFINITION. The vector engine (R29, R85, R94, R194, R201, R395): issue of its instructions, and what each computes
when the engine runs it. VE.OPT and VE.DIGEST stand in Opt. -/

namespace Sys2Proof.Machine

/-! ### Formats and shapes -/

def isFloat (f : Byte) : Bool := match Fmt.ofCode f with | some x => x.float?.isSome | none => false
def veSource (f : Byte) : Bool := isFloat f || f == 0x0B || f == 0x0C || f == 0x20
def veMask (f : Byte) : Bool := veSource f || f == 0x22
def veDest (f : Byte) : Bool := isFloat f || f == 0x0B

/-- A source with the sizes its destination must have, and its register; `ranked` asks for the source's rank too (R94). -/
structure VeSrc where
  reg : Nat
  d : Desc
  ok : Byte → Bool
  want : Nat → Nat
  ranked : Bool := false

/-- The first dimension in which dst differs from what the source wants of it. Dimensions that only one of the two has count as of size 1,
so that operands whose ranks differ by dimensions of size 1 are of consistent shape, where R29 and R94 do not ask for one rank (DESIGN
CHOICE: log entry 19). -/
def shapeDiff (dst : Desc) (x : VeSrc) : Option Nat :=
  (List.range (max dst.rank x.d.rank)).find? fun i =>
    dSize1 dst i != x.want i || (x.ranked && decide (i < dst.rank) != decide (i < x.d.rank))

/-- The first check that fails. -/
def firstStop (l : List (Option Stop)) : Option Stop := l.findSome? id

def stopIf (b : Bool) (st : Stop) : Option Stop := if b then some st else none

/-- Check 17 of Table 05-3 for a destination bound to register k. A remote-flag descriptor takes no check 17 (R106): it is no tensor,
and its format is none that a destination may have; that failure takes the place of check 17, ahead of the shapes (DESIGN CHOICE: log
entry 10). -/
def writeStop (w : Word128) (k : Nat) (d : Desc) : Option Stop :=
  if d.fmt = 0xF0 then some (formatStop w k d.fmt) else stopIf (!d.write) (rangeStop k 17 d.base)

/-- Shape failures of the sources in order, then format failures in the order src_a, src_b, src_c, dst (R395). -/
def veCheck (w : Word128) (dst : Desc) (dstOk : Byte → Bool) (srcs : List VeSrc) : Option Stop :=
  firstStop
    [writeStop w (fDst w) dst, srcs.findSome? fun x => (shapeDiff dst x).map fun i => shapeStop (fDst w) x.reg i,
     srcs.findSome? fun x => stopIf (!x.ok x.d.fmt) (formatStop w x.reg x.d.fmt),
     stopIf (!dstOk dst.fmt) (formatStop w (fDst w) dst.fmt)]

def noDesc : Desc := { base := 0, fmt := 0, rank := 0, alloc := 0, size := [], stride := [] }
def StreamCtx.d (x : StreamCtx) (k : Nat) : Desc := (x.dreg k).getD noDesc

def elemSrc (ok : Byte → Bool) (k : Nat) (x : StreamCtx) : VeSrc := { reg := k, d := x.d k, ok := ok, want := dSize1 (x.d k) }

/-- A reduction's source: the destination has its rank and its sizes with size[0] = n (R94). -/
def reduceSrc (n k : Nat) (x : StreamCtx) : VeSrc :=
  { reg := k, d := x.d k, ok := veSource, want := fun i => if i = 0 then n else dSize1 (x.d k) i, ranked := true }

/-- What the issue stage asks of a VE instruction with one source: its opcode, further bits of the word, its source. -/
def ve1Req (opcode used : Nat) (src : Nat → StreamCtx → VeSrc) (s : State) (c : CoreId) (t : Stream) (w : Word128) : IssueReq :=
  let x := (s.core c).ctx t
  { form := ⟨opcode, 3, mDst + mA + used⟩, needs := [needA w, needDst w]
    late := veCheck w (x.d (fDst w)) veDest [src (fA w) x] }

def ve2Req (opcode : Nat) (s : State) (c : CoreId) (t : Stream) (w : Word128) : IssueReq :=
  let x := (s.core c).ctx t
  { form := ⟨opcode, 3, mDst + mA + mB⟩, needs := [needA w, needB w, needDst w]
    late := veCheck w (x.d (fDst w)) veDest [elemSrc veSource (fA w) x, elemSrc veSource (fB w) x] }

def ve3Req (opcode : Nat) (mask : Byte → Bool) (s : State) (c : CoreId) (t : Stream) (w : Word128) : IssueReq :=
  let x := (s.core c).ctx t
  { form := ⟨opcode, 3, mDst + mA + mB + mC⟩, needs := [needA w, needB w, needC w, needDst w]
    late := veCheck w (x.d (fDst w)) veDest
      [elemSrc veSource (fA w) x, elemSrc veSource (fB w) x, elemSrc mask (fC w) x] }

def regs1 (w : Word128) : List Nat := [fA w, fDst w]
def regs2 (w : Word128) : List Nat := [fA w, fB w, fDst w]
def regs3 (w : Word128) : List Nat := [fA w, fB w, fC w, fDst w]

def ve1 (opcode : Nat) (c : CoreId) (t : Stream) (w : Word128) (s : State) (used : Nat := 0) : Out :=
  s.issueEngine c t w .ve (ve1Req opcode used (elemSrc veSource) s c t w) (regs1 w)

def ve2 (opcode : Nat) (c : CoreId) (t : Stream) (w : Word128) (s : State) : Out :=
  s.issueEngine c t w .ve (ve2Req opcode s c t w) (regs2 w)

def ve3 (opcode : Nat) (mask : Byte → Bool) (c : CoreId) (t : Stream) (w : Word128) (s : State) : Out :=
  s.issueEngine c t w .ve (ve3Req opcode mask s c t w) (regs3 w)

def veReduce (opcode size0 : Nat) (c : CoreId) (t : Stream) (w : Word128) (s : State) : Out :=
  s.issueEngine c t w .ve (ve1Req opcode 0 (reduceSrc size0) s c t w) (regs1 w)

def execVeAdd (c : CoreId) (t : Stream) (w : Word128) (s : State) : Out := ve2 0x80 c t w s
def execVeSub (c : CoreId) (t : Stream) (w : Word128) (s : State) : Out := ve2 0x81 c t w s
def execVeMul (c : CoreId) (t : Stream) (w : Word128) (s : State) : Out := ve2 0x82 c t w s
def execVeMax (c : CoreId) (t : Stream) (w : Word128) (s : State) : Out := ve2 0x83 c t w s
def execVeMin (c : CoreId) (t : Stream) (w : Word128) (s : State) : Out := ve2 0x84 c t w s
def execVeFma (c : CoreId) (t : Stream) (w : Word128) (s : State) : Out := ve3 0x85 veSource c t w s
def execVeAbs (c : CoreId) (t : Stream) (w : Word128) (s : State) : Out := ve1 0x86 c t w s
def execVeNeg (c : CoreId) (t : Stream) (w : Word128) (s : State) : Out := ve1 0x87 c t w s
def execVeScale (c : CoreId) (t : Stream) (w : Word128) (s : State) : Out := ve1 0x88 c t w s mImm
def execVeBlend (c : CoreId) (t : Stream) (w : Word128) (s : State) : Out := ve3 0x8B veMask c t w s
def execVeRsum (c : CoreId) (t : Stream) (w : Word128) (s : State) : Out := veReduce 0x90 1 c t w s
def execVeRmax (c : CoreId) (t : Stream) (w : Word128) (s : State) : Out := veReduce 0x91 1 c t w s
def execVeRmin (c : CoreId) (t : Stream) (w : Word128) (s : State) : Out := veReduce 0x92 1 c t w s
def execVeRsumsq (c : CoreId) (t : Stream) (w : Word128) (s : State) : Out := veReduce 0x93 1 c t w s
def execVeSmstat (c : CoreId) (t : Stream) (w : Word128) (s : State) : Out := veReduce 0x98 2 c t w s
def execVeSmbwd (c : CoreId) (t : Stream) (w : Word128) (s : State) : Out := ve2 0x9A c t w s

/-- What the issue stage asks of VE.SMNORM: the statistics have size[0] = 2 and the outer sizes of the rows, and the rank of the source,
as VE.SMSTAT writes them (R94). -/
def veSmnormReq (s : State) (c : CoreId) (t : Stream) (w : Word128) : IssueReq :=
  let x := (s.core c).ctx t
  let dst := x.d (fDst w)
  let b := x.d (fB w)
  let stats : VeSrc := { reg := fB w, d := b, ok := veSource, want := fun i => if i = 0 then dSize1 dst 0 else dSize1 b i }
  let late :=
    if dSize1 b 0 ≠ 2 ∧ dst.write then some (shapeStop (fDst w) (fB w) 0)
    else if b.rank ≠ (x.d (fA w)).rank ∧ dst.write then some (shapeStop (fA w) (fB w) (min b.rank (x.d (fA w)).rank))
    else veCheck w dst veDest [elemSrc veSource (fA w) x, stats]
  { form := ⟨0x99, 3, mDst + mA + mB⟩, needs := [needA w, needB w, needDst w], late := late }

def execVeSmnorm (c : CoreId) (t : Stream) (w : Word128) (s : State) : Out :=
  s.issueEngine c t w .ve (veSmnormReq s c t w) (regs2 w)

def veFillReq (s : State) (c : CoreId) (t : Stream) (w : Word128) : IssueReq :=
  { form := ⟨0x8A, 3, mDst + mImm⟩, needs := [needDst w], late := veCheck w (((s.core c).ctx t).d (fDst w)) veDest [] }

def execVeFill (c : CoreId) (t : Stream) (w : Word128) (s : State) : Out :=
  s.issueEngine c t w .ve (veFillReq s c t w) [fDst w]

/-! ### Conversions (R85) -/

def State.keyDeclared (s : State) (k : Nat) : Bool := s.rng.declared.getLsbD k
def State.rngKey (s : State) (k : Nat) : Word × Word := tget s.rng.keys k (0, 0)

def convStoch (w : Word128) : Bool := fBits w 32 2 == 1

/-- The conversion that the modifiers of Table 04-3 name. -/
def convMode (s : State) (o : EngOp) : ConvMode :=
  { derived := fBits o.w 34 1 == 1, halving := fBits o.w 35 7, stoch := convStoch o.w, tensor := BitVec.ofNat 32 (fImm o.w),
    key := s.rngKey 0, step := o.step.truncate 32 }

def veConvReq (opcode : Nat) (s : State) (c : CoreId) (t : Stream) (w : Word128) : IssueReq :=
  let x := (s.core c).ctx t
  let late :=
    if convStoch w && !s.keyDeclared 0 then some (notInState w 0x21)
    else veCheck w (x.d (fDst w)) veDest [elemSrc veSource (fA w) x]
  { form := ⟨opcode, 3, mDst + mA + mField 32 10 + (if convStoch w then mImm else 0)⟩, needs := [needA w, needDst w]
    reserved := (if 2 ≤ fBits w 32 2 then [32] else []) ++ (if 65 ≤ fBits w 35 7 then [35] else []), late := late }

def veConv (opcode : Nat) (c : CoreId) (t : Stream) (w : Word128) (s : State) : Out :=
  s.issueEngine c t w .ve (veConvReq opcode s c t w) (regs1 w)

def execVeCopy (c : CoreId) (t : Stream) (w : Word128) (s : State) : Out := veConv 0x89 c t w s
def execVeConvert (c : CoreId) (t : Stream) (w : Word128) (s : State) : Out := veConv 0xA2 c t w s

/-! ### Loaded tables (R191, Table 09-3) -/

/-- Header of a table of 17 lines. -/
def loadedHead (l : List Byte) : FuncHead :=
  let w (i : Nat) : W32 := BitVec.ofNat 32 (natAt l i 4)
  { mode := natAt l 0 1, s := signed 8 (natAt l 1 1), k := signed 8 (natAt l 2 1), sym := natAt l 3 1, base := w 4, tl0 := w 8,
    tl1 := w 12, th0 := w 16, th1 := w 20 }

/-- Coefficients c0, c1, c2 and c3 of segment i. -/
def loadedSeg (l : List Byte) (i : Nat) : W32 × W32 × W32 × W32 :=
  let w (j : Nat) : W32 := BitVec.ofNat 32 (natAt l (64 + 16 * i + 4 * j) 4)
  (w 0, w 1, w 2, w 3)

/-! ### Functions and the generator -/

/-- A function entry exists: built-in, or loaded by the image (R191). -/
def State.funcDeclared (s : State) (k : Nat) : Bool := decide (k < 8) || thas s.image.bodies.funcs k

def State.evalFunc (s : State) (k : Nat) (deriv : Bool) (x : W32) : W32 :=
  if k < 8 then evalTable (builtinHead k deriv) (builtinSeg k deriv) x
  else
    match tfind s.image.bodies.funcs k with
    | some p => let t := if deriv then p.2 else p.1; evalTable (loadedHead t) (loadedSeg t) x
    | none => canonNan32

def veFnReq (opcode : Nat) (s : State) (c : CoreId) (t : Stream) (w : Word128) : IssueReq :=
  let x := (s.core c).ctx t
  let late :=
    if !s.funcDeclared (fBits w 32 4) then some (notInState w 0x20)
    else veCheck w (x.d (fDst w)) veDest [elemSrc isFloat (fA w) x]
  { form := ⟨opcode, 3, mDst + mA + mField 32 4⟩, needs := [needA w, needDst w], late := late }

def veFn (opcode : Nat) (c : CoreId) (t : Stream) (w : Word128) (s : State) : Out :=
  s.issueEngine c t w .ve (veFnReq opcode s c t w) (regs1 w)

def execVeFunc (c : CoreId) (t : Stream) (w : Word128) (s : State) : Out := veFn 0xA0 c t w s
def execVeDfunc (c : CoreId) (t : Stream) (w : Word128) (s : State) : Out := veFn 0xA1 c t w s

def veRngReq (s : State) (c : CoreId) (t : Stream) (w : Word128) : IssueReq :=
  let x := (s.core c).ctx t
  let dist := fBits w 35 2
  let late :=
    if !s.keyDeclared (fBits w 32 3) then some (notInState w 0x21)
    else veCheck w (x.d (fDst w)) (fun f => f == (if dist = 0 then 0x20 else 0x01)) []
  { form := ⟨0xA6, 3, mDst + mField 32 5 + mImm⟩, needs := [needDst w], reserved := if 2 ≤ dist then [35] else [], late := late }

def execVeRng (c : CoreId) (t : Stream) (w : Word128) (s : State) : Out :=
  s.issueEngine c t w .ve (veRngReq s c t w) [fDst w]

/-! ### Execution -/

/-- Rows computed for every index vector, in order. -/
def rowsOf (idxs : List (List Nat)) (f : List Nat → Work (List FVal)) : Work (List (List Nat × List FVal)) :=
  match idxs with
  | [] => pure []
  | i :: r => do
    let x ← f i
    let rest ← rowsOf r f
    pure ((i, x) :: rest)

def writeRows (n : Nat) (d : Desc) (m : ConvMode) : List (List Nat × List FVal) → Work Unit
  | [] => pure ()
  | (i, x) :: r => do
    writeRow n d m i x
    writeRows n d m r

/-- Computes every row of the destination, then writes them. -/
def veRows (n : Nat) (d : Desc) (m : ConvMode) (f : List Nat → Work (List FVal)) : Work Unit := do
  let rows ← rowsOf (dOuter d) f
  writeRows n d m rows

def vals (l : List W32) : List FVal := l.map dec32

/-- A source row in FP32 (R75, R395). -/
def src32 (n : Nat) (d : Desc) (i : List Nat) : Work (List W32) := readRow32 n d i

/-- A source row as the reductions take it: floating formats by their exact values, integers by rne32. -/
def srcExact (n : Nat) (d : Desc) (i : List Nat) : Work (List FVal) := do
  let v ← readRow n d i
  pure (if isFloat d.fmt then v else v.map fun x => dec32 (rne32 x))

/-- The larger and the smaller of two operands. For a NaN and for zeros of both signs VE.MAX and VE.MIN follow what Table 04-5 states of
VE.RMAX and VE.RMIN (DESIGN CHOICE: log entry 19). -/
def max32 (a b : W32) : W32 := refMax [a, b]
def min32 (a b : W32) : W32 := refMin [a, b]
def abs32 (a : W32) : W32 := rne32 (dec32 a).abs
def neg32 (a : W32) : W32 := rne32 (dec32 a).negate

def runElem1 (n : Nat) (o : EngOp) (m : ConvMode) (f : W32 → W32) : Work Unit :=
  veRows n o.dst m fun i => do
    let a ← src32 n o.a i
    pure (vals (a.map f))

def runElem2 (n : Nat) (o : EngOp) (f : W32 → W32 → W32) : Work Unit :=
  veRows n o.dst {} fun i => do
    let a ← src32 n o.a i
    let b ← src32 n o.b i
    pure (vals (List.zipWith f a b))

def zip3 (a b c : List W32) (f : W32 → W32 → W32 → W32) : List W32 :=
  List.zipWith (fun x (p : W32 × W32) => f x p.1 p.2) a (List.zip b c)

def runFma (n : Nat) (o : EngOp) : Work Unit :=
  veRows n o.dst {} fun i => do
    let a ← src32 n o.a i
    let b ← src32 n o.b i
    let c ← src32 n o.c i
    pure (vals (zip3 a b c fma32))

/-- The mask of VE.BLEND counts every NaN as nonzero and ±0 as zero. -/
def runBlend (n : Nat) (o : EngOp) : Work Unit :=
  veRows n o.dst {} fun i => do
    let a ← src32 n o.a i
    let b ← src32 n o.b i
    let m ← readRow n o.c i
    pure (List.zipWith (fun (x : W32 × W32) (q : FVal) => if q.isZero then dec32 x.2 else dec32 x.1) (List.zip a b) m)

def runReduceExact (n : Nat) (o : EngOp) (f : List FVal → W32) : Work Unit :=
  veRows n o.dst {} fun i => do
    let a ← srcExact n o.a i
    pure [dec32 (f a)]

def runReduce32 (n : Nat) (o : EngOp) (f : List W32 → List W32) : Work Unit :=
  veRows n o.dst {} fun i => do
    let a ← src32 n o.a i
    pure (vals (f a))

/-- t_i of the softmax rules. -/
def smTerm (m x : W32) : W32 := exp32 (sub32 x m)

def smStat (a : List W32) : List W32 :=
  let m := refMax a
  [m, refSum 0 (a.map fun x => dec32 (smTerm m x))]

def runSmnorm (n : Nat) (o : EngOp) : Work Unit :=
  veRows n o.dst {} fun i => do
    let a ← src32 n o.a i
    let st ← src32 n o.b i
    pure (vals (a.map fun x => div32 (smTerm (st.getD 0 0) x) (st.getD 1 0)))

def runSmbwd (n : Nat) (o : EngOp) : Work Unit :=
  veRows n o.dst {} fun i => do
    let y ← src32 n o.a i
    let dy ← src32 n o.b i
    let g := refDot 0 (vals y) (vals dy)
    pure (vals (List.zipWith (fun a b => mul32 a (sub32 b g)) y dy))

def runFill (n : Nat) (o : EngOp) : Work Unit :=
  veRows n o.dst {} fun _ => pure (List.replicate (dSize o.dst 0) (dec32 (BitVec.ofNat 32 (fImm o.w))))

/-- The word of each element of a row (R87, R201). -/
def rngRow (s : State) (o : EngOp) (i : List Nat) : List W32 :=
  let d := o.dst
  let f := (dFmt d).getD .uint32
  let line := s.allocLine d (dRow d i)
  (List.range (dSize d 0)).map fun k =>
    let p := elemPlace f k
    randomWord (s.rngKey (fBits o.w 32 3)) (BitVec.ofNat 32 (fImm o.w))
      (o.step.truncate 32) (line + p.1) p.2

def runRng (n : Nat) (o : EngOp) : Work Unit := do
  let s ← get
  let go (i : List Nat) : List Nat :=
    (rngRow s o i).map fun r =>
      if fBits o.w 35 2 = 0 then r.toNat else (rne32 (.fin false (r.toNat / 256) (-24))).toNat
  (dOuter o.dst).forM fun i => writeCodes n o.dst i (go i)

def runFunc (n : Nat) (o : EngOp) (deriv : Bool) : Work Unit := do
  let s ← get
  runElem1 n o {} (s.evalFunc (fBits o.w 32 4) deriv)

/-- An empty operand moves and computes nothing (R108), save a reduction whose destination is not empty. -/
def veSkips (o : EngOp) : Bool :=
  let op := fOpcode o.w
  dEmpty o.dst || (!(decide (0x90 ≤ op ∧ op ≤ 0x93) || op == 0x98) && o.descs.any fun x => dEmpty x.2)

/-- The VE reaches this module's memories alone: an operand on another module is refused (DESIGN CHOICE: the manual
gives the VE no path to one). -/
def veLocal (o : EngOp) : Option Stop :=
  (o.descs.find? fun x => x.2.remote).map fun x => denied (if x.2.write then .write else .read) x.2.base

/-- What the VE computes for the instructions of this file. -/
def veCompute (n : Nat) (o : EngOp) : Work Unit := do
  let s ← get
  if veSkips o then pure ()
  else if (veLocal o).isSome then stopWith ((veLocal o).getD { reason := 0 })
  else
    match fOpcode o.w with
    | 0x80 => runElem2 n o add32
    | 0x81 => runElem2 n o sub32
    | 0x82 => runElem2 n o mul32
    | 0x83 => runElem2 n o max32
    | 0x84 => runElem2 n o min32
    | 0x85 => runFma n o
    | 0x86 => runElem1 n o {} abs32
    | 0x87 => runElem1 n o {} neg32
    | 0x88 => runElem1 n o {} fun x => mul32 x (BitVec.ofNat 32 (fImm o.w))
    | 0x89 => runElem1 n o (convMode s o) id
    | 0x8A => runFill n o
    | 0x8B => runBlend n o
    | 0x90 => runReduceExact n o (refSum 0)
    | 0x91 => runReduce32 n o fun a => [refMax a]
    | 0x92 => runReduce32 n o fun a => [refMin a]
    | 0x93 => runReduceExact n o fun a => refDot 0 a a
    | 0x98 => runReduce32 n o smStat
    | 0x99 => runSmnorm n o
    | 0x9A => runSmbwd n o
    | 0xA0 => runFunc n o false
    | 0xA1 => runFunc n o true
    | 0xA2 => runElem1 n o (convMode s o) id
    | 0xA6 => runRng n o
    | _ => pure ()

end Sys2Proof.Machine
end

