-- ==== Sys2Proof/Machine/Opt.lean ====
section
/-! DEFINITION. The parameter update (R205 to R214) and the fold of the weight digest (R219, R220): issue of VE.OPT and
VE.DIGEST, and what the vector engine does when it runs them. -/

namespace Sys2Proof.Machine

/-! ### Places of operands (R123, R146, R208) -/

/-- The unit that holds an operand's allocation. -/
def State.allocUnit (s : State) (d : Desc) : Option MemUnit :=
  if d.remote then none else (tfind s.image.bodies.allocs d.alloc).bind fun al => memUnit al.base

/-- The core's own scratchpad. -/
def State.inSpad (s : State) (n : Nat) (d : Desc) : Bool := s.allocUnit d == some (.sp n)

/-- The core's own scratchpad or its course's underlay. -/
def State.inCourse (s : State) (n : Nat) (d : Desc) : Bool :=
  s.inSpad n d || s.allocUnit d == some (.ul (courseOf n))

/-- REGION_DENIED at issue, at the descriptor's base, for the first operand that fails the test; `true` marks a
destination. -/
def placeStop (test : Desc → Bool) (ops : List (Desc × Bool)) : Option Stop :=
  ops.findSome? fun o => if test o.1 then none else some (denied (if o.2 then .write else .read) o.1.base)

/-- Every dimension from 1 on has size 1. -/
def flatDim (d : Desc) : Option Nat := (List.range d.rank).tail.find? fun k => dSize d k != 1

/-- A descriptor of n elements in its innermost dimension alone, compared with register `ref` (0: with the table). -/
def sizeStop (ref k : Nat) (d : Desc) (n : Nat) : Option Stop :=
  if dSize d 0 ≠ n then some (if ref = 0 then shapeStop k 0 0 else shapeStop ref k 0)
  else (flatDim d).map fun i => shapeStop k 0 i

/-! ### Issue of VE.OPT (R208) -/

def optGroup (w : Word128) : Nat := fBits w 46 6
def optOp (w : Word128) : Nat := fBits w 44 2
def optUsage (w : Word128) : Bool := fBits w 43 1 == 1
def optRelease (w : Word128) : Bool := fBits w 42 1 == 1
def optSide (w : Word128) : Nat := fBits w 41 1

def State.param? (s : State) (g : Nat) : Option ParamGroup := tfind s.image.bodies.params g

/-- d[dst+3] takes part for rules 1 and 3 alone (Table 10-3). -/
def ruleHasSecond (p : Option ParamGroup) : Bool := match p with | some p => p.rule == 1 || p.rule == 3 | none => false

/-- imm32 is a tensor id for a group that rounds stochastically. -/
def optStoch (p : Option ParamGroup) : Bool := match p with | some p => p.copyStochastic | none => false

def copyFormat (f : Byte) : Bool :=
  match Fmt.ofCode f with
  | some x => x.isShingle || x.isPlain8 || x == .bf16 || x == .fp16
  | none => false

def shingleFormat (f : Byte) : Bool := match Fmt.ofCode f with | some x => x.isShingle | none => false

/-- The image marks the tensor as an expert tensor. -/
def State.expertTensor (s : State) (alloc : Nat) : Bool := s.image.bodies.shards.any fun x => x.tensor == alloc && x.expert

/-- The image marks the tensor frozen. -/
def State.frozenTensor (s : State) (alloc : Nat) : Bool := s.image.bodies.shards.any fun x => x.tensor == alloc && x.frozen

/-- Registers that an update names after dst, with what each must be: size, if any, and formats. -/
def optDests (p : Option ParamGroup) (G : Nat) : List (Nat × Nat × (Byte → Bool)) :=
  let fp32 (f : Byte) : Bool := f == 0x01
  let second : List (Nat × Nat × (Byte → Bool)) :=
    match p with
    | some p => if p.rule = 1 then [(3, G, fp32)] else if p.rule = 3 then [(3, 64, fp32)] else []
    | none => []
  [(0, G, fp32), (1, 8, fun f => f == 0x21), (2, G, fp32)] ++ second ++ [(4, G, copyFormat)]

/-- Checks 7 and 8 of an update (op 0). -/
def optLate (s : State) (n : Nat) (x : StreamCtx) (w : Word128) : Option Stop :=
  let p := s.param? (optGroup w)
  let ka := fA w
  let kd := fDst w
  let a := x.d ka
  let u := x.d (ka + 1)
  let G := dSize (x.d kd) 0
  let dests := optDests p G
  firstStop <|
    [stopIf p.isNone (notInState w 0x28),
     stopIf (optUsage w && !s.expertTensor (x.d (kd + 4)).alloc) (notInState w 0x29),
     stopIf (optStoch p && !s.keyDeclared 0) (notInState w 0x21)] ++
    dests.map (fun e => writeStop w (kd + e.1) (x.d (kd + e.1))) ++
    [if dEmpty a then none else sizeStop kd ka a G,
     if optUsage w then sizeStop 0 (ka + 1) u 1 else none,
     stopIf (G == 0 || decide (1024 < G)) (shapeStop kd 0 0)] ++
    dests.map (fun e => sizeStop (if e.1 = 0 ∨ e.2.1 ≠ G then 0 else kd) (kd + e.1) (x.d (kd + e.1)) e.2.1) ++
    [stopIf (a.fmt != 0x01 && a.fmt != 0x02) (formatStop w ka a.fmt),
     stopIf (optUsage w && u.fmt != 0x01) (formatStop w (ka + 1) u.fmt)] ++
    dests.map (fun e => stopIf (!e.2.2 (x.d (kd + e.1)).fmt) (formatStop w (kd + e.1) (x.d (kd + e.1)).fmt)) ++
    [placeStop (s.inCourse n)
      ([(a, false)] ++ (if optUsage w then [(u, false)] else []) ++ dests.map fun e => (x.d (kd + e.1), true))]

/-- Sizes of an n × n operand. -/
def squareStop (ref k : Nat) (d : Desc) (n : Nat) : Option Stop :=
  if d.rank ≠ 2 then some (shapeStop k 0 1)
  else if dSize d 0 ≠ n then some (if ref = k then shapeStop k 0 0 else shapeStop ref k 0)
  else if dSize d 1 ≠ n then some (if ref = k then shapeStop k 0 1 else shapeStop ref k 1)
  else none

/-- Checks 7 and 8 of a commit (op 1). -/
def commitLate (s : State) (n : Nat) (x : StreamCtx) (w : Word128) : Option Stop :=
  let ka := fA w
  let kd := fDst w
  let a := x.d ka
  let r := x.d (ka + 1)
  let d := x.d kd
  let cp := x.d (kd + 1)
  let m := dSize d 0
  firstStop
    [stopIf (s.param? (optGroup w)).isNone (notInState w 0x28),
     stopIf (match s.param? (optGroup w) with | some p => p.rule != 4 | none => false) (notInState w 0x29),
     writeStop w kd d, writeStop w (kd + 1) cp,
     squareStop kd ka a m, sizeStop 0 (ka + 1) r 1, squareStop kd kd d m, stopIf (decide (128 < m)) (shapeStop kd 0 0),
     stopIf (cp.rank != 2) (shapeStop (kd + 1) 0 1),
     stopIf (a.fmt != 0x01) (formatStop w ka a.fmt), stopIf (r.fmt != 0x01) (formatStop w (ka + 1) r.fmt),
     stopIf (d.fmt != 0x01) (formatStop w kd d.fmt), stopIf (!shingleFormat cp.fmt) (formatStop w (kd + 1) cp.fmt),
     placeStop (s.inCourse n) [(a, false), (r, false), (d, true), (cp, true)]]

def needAt (operand k : Nat) : Need := { operand := operand, reg := k }

/-- Reserved encodings of VE.OPT: op 2 and 3, dst above 59, and a register group that would pass d63. -/
def optReserved (w : Word128) : List Nat :=
  (if 2 ≤ optOp w then [44] else []) ++ (if 59 < fDst w then [75] else []) ++
    (if (optUsage w || optOp w == 1) && decide (62 < fA w) then [69] else [])

def optImm (s : State) (w : Word128) : Nat := if optStoch (s.param? (optGroup w)) then mImm else 0

/-- The operation at issue, with the published values that hold then (R215). -/
def State.issueOpt (s : State) (n : Nat) (t : Stream) (w : Word128) (r : IssueReq) (regs : List Nat) : Out :=
  let o := { s.engOp n t w regs with sched := tget (s.course (courseOf n)).sched (optGroup w) {} }
  s.issue n t w r fun s => .ok (s.modCore n fun c => c.push .ve o)

/-- What the issue stage asks of VeOpt. -/
def veOptReq (s : State) (c : CoreId) (t : Stream) (w : Word128) : IssueReq :=
  let x := (s.core c).ctx t
  let p := s.param? (optGroup w)
  let second := if ruleHasSecond p then [3] else []
  { form := ⟨0xA4, 3, mDst + mA + mField 42 10 + optImm s w⟩
    reserved := optReserved w
    needs := [needA w] ++ (if optUsage w then [needAt 1 (fA w + 1)] else []) ++
      ([0, 1, 2] ++ second ++ [4]).map fun i => needAt 0 (fDst w + i)
    late := optLate s c x w }

/-- VE.OPT, op 0. -/
def execVeOpt (c : CoreId) (t : Stream) (w : Word128) (s : State) : Out :=
  let p := s.param? (optGroup w)
  let second := if ruleHasSecond p then [3] else []
  if fOpcode w = 0xA4 ∧ optOp w = 1 then .refused (.otherInstruction 0xA4)
  else
    s.issueOpt c t w (veOptReq s c t w)
      ([fA w] ++ (if optUsage w then [fA w + 1] else []) ++ ([0, 1, 2] ++ second ++ [4]).map fun i => fDst w + i)

/-- What the issue stage asks of VeOptCommit. -/
def veOptCommitReq (s : State) (c : CoreId) (t : Stream) (w : Word128) : IssueReq :=
  let x := (s.core c).ctx t
  { form := ⟨0xA4, 3, mDst + mA + mField 44 8 + mField 41 1 + optImm s w⟩
    reserved := optReserved w
    needs := [needA w, needAt 1 (fA w + 1), needDst w, needAt 0 (fDst w + 1)]
    late := commitLate s c x w }

/-- VE.OPT, op 1. -/
def execVeOptCommit (c : CoreId) (t : Stream) (w : Word128) (s : State) : Out :=
  if fOpcode w = 0xA4 ∧ optOp w ≠ 1 then .refused (.otherInstruction 0xA4)
  else
    s.issueOpt c t w (veOptCommitReq s c t w)
      [fA w, fA w + 1, fDst w, fDst w + 1]

/-! ### The digest fold (R219, R220) -/

def digestP : Nat := 2 ^ 61 - 1

/-- The multipliers under key 1: P₀ and P₁, or Q₀ and Q₁. -/
def digestMul (key : Word × Word) (elem : Word) : Nat × Nat :=
  let o := generator key.1 key.2 0xFFFFFFFF 0 elem
  let f (x : Word) := 2 + x.toNat % (2 ^ 61 - 3)
  (f o.1, f o.2)

/-- x^e modulo p. -/
def powMod (p x : Nat) : Nat → Nat → Nat
  | 0, _ => 1
  | fuel + 1, e => if e = 0 then 1 else
    let h := powMod p (x * x % p) fuel (e / 2)
    if e % 2 = 1 then h * x % p else h

/-- h of a lane: Σ (w_j mod p) · P^(j+1), by Horner from the last word. -/
def digestHash (P : Nat) (ws : List Nat) : Nat := ws.foldr (fun w acc => (acc + w % digestP) * P % digestP) 0

def wordsOf (l : List Byte) : List Nat := (List.range (l.length / 8)).map fun j => natAt l (8 * j) 8

/-- The two terms of a group of digest index b. -/
def digestTerm (key : Word × Word) (b : Nat) (l : List Byte) : Nat × Nat :=
  let P := digestMul key 0
  let Q := digestMul key 1
  (digestHash P.1 (wordsOf l) * powMod digestP Q.1 64 (b + 1) % digestP,
   digestHash P.2 (wordsOf l) * powMod digestP Q.2 64 (b + 1) % digestP)

/-- Adds terms of groups to the accumulator of their domain at the parity of the step current at issue. -/
def State.foldInto (s : State) (n domain : Nat) (step : Word) (terms : List (Nat × Nat)) : State :=
  s.modCourse (courseOf n) fun c =>
    { c with digests := tmod c.digests (2 * domain + step.toNat % 2) {} fun a =>
        terms.foldl (fun a x => { d0 := (a.d0 + x.1) % digestP, d1 := (a.d1 + x.2) % digestP, groups := a.groups + 1 }) a }

/-- Lines of one update group of a format. -/
def groupLinesOf (f : Fmt) : Nat := if f.isShingle then f.groupLines else f.width * 2

/-- Cuts the lines of a row into its groups, with each group's first line. -/
def groupRuns (gl : Nat) : Nat → List Nat → List (Nat × List Nat)
  | 0, _ => []
  | _, [] => []
  | fuel + 1, a :: r => (a, (a :: r).take gl) :: groupRuns gl fuel ((a :: r).drop gl)

/-- The terms of groups, each read in address order. -/
def groupTerms (n : Nat) (d : Desc) (al : Alloc) : List (Nat × List Nat) → Work (List (Nat × Nat))
  | [] => pure []
  | (a, ls) :: r => do
    let l ← readLines n ls
    let s ← get
    let rest ← groupTerms n d al r
    pure (digestTerm (s.rngKey 1) (al.digestBase + s.allocLine d a) l :: rest)

/-- Folds every group of a tensor, if its allocation has a domain; a frozen tensor is never folded (R198). -/
def foldTensor (n : Nat) (o : EngOp) (d : Desc) : Work Unit := do
  let s ← get
  match tfind s.image.bodies.allocs d.alloc, dFmt d with
  | some al, some f =>
    match al.domain with
    | some k =>
      if dEmpty d || s.frozenTensor d.alloc then pure ()
      else
        let terms ← groupTerms n d al ((dOuter d).flatMap fun i =>
          let ls := dRowLines d i
          groupRuns (groupLinesOf f) ls.length ls)
        modify fun s => s.foldInto n k o.step terms
    | none => pure ()
  | _, _ => pure ()

/-- What the issue stage asks of VE.DIGEST. -/
def veDigestReq (s : State) (c : CoreId) (t : Stream) (w : Word128) : IssueReq :=
  let dom := (tfind s.image.bodies.allocs (((s.core c).ctx t).d (fA w)).alloc).bind (·.domain)
  { form := ⟨0xA5, 3, mA⟩, needs := [needA w], late := stopIf dom.isNone (notInState w 0x2A) }

/-- VE.DIGEST. -/
def execVeDigest (c : CoreId) (t : Stream) (w : Word128) (s : State) : Out :=
  s.issueEngine c t w .ve (veDigestReq s c t w) [fA w]

/-! ### The arithmetic of an update (R209 to R211) -/

def one32 : W32 := 0x3F800000
/-- 2^−5. -/
def inv32 : W32 := 0x3D000000

/-- sign of rule 2: ±1, +0 for a zero, NaN for NaN. -/
def sign32 (x : W32) : W32 :=
  let v := dec32 x
  if v.isNan then canonNan32 else if v.isZero then 0 else if v.isNeg then 0xBF800000 else one32

/-- β·x + c·y, each product and the sum rounded. -/
def blend32 (b x c y : W32) : W32 := add32 (mul32 b x) (mul32 c y)

/-- What rules 1 to 4 share: the constants of the step. -/
structure OptConst where
  eta : W32
  d : W32
  beta1 : W32
  beta2 : W32
  c1 : W32
  c2 : W32
  b1 : W32
  b2 : W32
  eps : W32

def optConst (p : ParamGroup) (v : SchedVal) (k : Nat) : OptConst :=
  { eta := v.eta, d := v.d, beta1 := v.beta, beta2 := p.beta2, c1 := sub32 one32 v.beta, c2 := sub32 one32 p.beta2,
    b1 := sub32 one32 (pow32 v.beta k), b2 := sub32 one32 (pow32 p.beta2 k), eps := p.eps }

/-- u of rules 1 and 3. -/
def adaptive (q : OptConst) (m v : W32) : W32 := div32 (div32 m q.b1) (add32 (sqrt32 (div32 v q.b2)) q.eps)

/-- New m and u of an element, given its second moment already formed. -/
def optStep (p : ParamGroup) (q : OptConst) (g m v : W32) : W32 × W32 :=
  match p.rule with
  | 0 =>
    let m' := add32 (mul32 q.beta1 m) g
    (m', if p.nesterov then add32 (mul32 q.beta1 m') g else m')
  | 1 | 3 =>
    let m' := blend32 q.beta1 m q.c1 g
    (m', adaptive q m' v)
  | 2 => (blend32 q.beta2 m q.c2 g, sign32 (blend32 q.beta1 m q.c1 g))
  | _ =>
    let m' := blend32 q.beta1 m q.c1 g
    (m', m')

def optWeight (q : OptConst) (w u : W32) : W32 := sub32 (mul32 w q.d) (mul32 q.eta u)

/-- Rule 3 (R211): new factors, and the second moment of each of the G elements. -/
def factored (q : OptConst) (f g : List W32) : List W32 × List W32 :=
  let sq (b e : Nat) : W32 := let x := g.getD (32 * b + e) 0; if 32 * b + e < g.length then mul32 x x else 0
  let upd (old total : W32) := add32 (mul32 q.beta2 old) (mul32 q.c2 (mul32 total inv32))
  let r32 := List.range 32
  let qs := r32.map fun b => upd (f.getD b 0) (refSum 0 (r32.map fun e => dec32 (sq b e)))
  let cs := r32.map fun e => upd (f.getD (32 + e) 0) (refSum 0 (r32.map fun b => dec32 (sq b e)))
  let Q := mul32 (refSum 0 (vals qs)) inv32
  (qs ++ cs, (List.range g.length).map fun j => div32 (mul32 (qs.getD (j / 32) 0) (cs.getD (j % 32) 0)) Q)

/-- A one-row operand in FP32. -/
def row0 (n : Nat) (d : Desc) : Work (List W32) := readRow32 n d []

/-- Adds to the counters of the update. -/
def optCount (n : Nat) (f : Core → Core) : Work Unit := modify fun s => s.modCore n f

/-- Writes an update: master, moments, state line, then the converted copy and its fold. -/
def optUpdate (n : Nat) (o : EngOp) (p : ParamGroup) (g : List W32) : Work Unit := do
  let s ← get
  let kd := fDst o.w
  let st ← readCodes n (o.d (kd + 1)) []
  let k := (st.getD 0 0 + 1) % 2 ^ 64
  let q := optConst p o.sched k
  let w ← row0 n o.dst
  let m ← row0 n (o.d (kd + 2))
  let v ← if ruleHasSecond (some p) then row0 n (o.d (kd + 3)) else pure []
  let second : List W32 × List W32 :=
    if p.rule = 1 then let v' := List.zipWith (fun x y => blend32 q.beta2 x q.c2 (mul32 y y)) v g; (v', v')
    else if p.rule = 3 then factored q v g
    else ([], [])
  let mu := g.mapIdx fun j x => optStep p q x (m.getD j 0) (second.2.getD j 0)
  let w' := mu.mapIdx fun j x => optWeight q (w.getD j 0) x.2
  writeRow n o.dst {} [] (vals w')
  writeRow n (o.d (kd + 2)) {} [] (vals (mu.map (·.1)))
  if ruleHasSecond (some p) then writeRow n (o.d (kd + 3)) {} [] (vals second.1) else pure ()
  writeCodes n (o.d (kd + 1)) [] [k, o.step.toNat, 0, 0, 0, 0, 0, 0]
  writeRow n (o.d (kd + 4))
    { halving := p.halving, stoch := p.copyStochastic, tensor := BitVec.ofNat 32 (fImm o.w), key := s.rngKey 0,
      step := o.step.truncate 32 } [] (vals w')
  foldTensor n o (o.d (kd + 4))

/-- The landing ring that holds an address. -/
def State.ringAt (s : State) (a : Nat) : Option Shard :=
  (s.image.bodies.shards.flatMap (·.shards)).find? fun x =>
    x.module == s.fabric.coord && decide (x.ringBase ≤ a ∧ a < x.ringBase + 64 * (x.slotLines * 2 ^ x.ringLog2))

/-- The engine that writes the ring at an address gets one of its credits back (R206). -/
def State.returnRing (s : State) (a : Nat) : State :=
  match s.ringAt a with
  | none => s
  | some x =>
    match (List.range 4).find? fun sl => tget (s.coll sl).rings x.ringBase 0 != 0 with
    | some sl => s.modColl sl fun c => { c with rings := tmod c.rings x.ringBase 0 (· - 1) }
    | none => s

/-- The gradient of an element as the rules take it. -/
def optGrad (p : ParamGroup) (raw : List W32) : List W32 := raw.map fun x => mul32 p.gradScale x

def nonFinite (x : W32) : Bool := !(dec32 x).isFinite

/-- Op 0: the first case of Table 10-5 that holds. -/
def optRun (n : Nat) (o : EngOp) (p : ParamGroup) : Work Unit := do
  let empty := dEmpty o.a
  let copy := o.d (fDst o.w + 4)
  let raw ← if empty then pure [] else row0 n o.a
  let idle ← if optUsage o.w then do
      let u ← row0 n (o.d (fA o.w + 1))
      pure ((dec32 (u.getD 0 0)).isZero)
    else pure false
  if optRelease o.w then modify fun s => s.returnRing o.a.base else pure ()
  let g := if empty then List.replicate (dSize o.dst 0) 0 else optGrad p raw
  if empty then
    if p.emptySkip then foldTensor n o copy else optUpdate n o p g
    optCount n fun c => { c with optEmptyGrad := sat32 c.optEmptyGrad 1 }
  else if idle && !p.idleDecay then
    foldTensor n o copy
    optCount n fun c => { c with optIdleSkip := sat32 c.optIdleSkip 1 }
  else if g.any nonFinite && p.nonfiniteSkip then
    foldTensor n o copy
    optCount n fun c => { c with optNonfinite := sat32 c.optNonfinite 1 }
  else
    optUpdate n o p g
    optCount n fun c =>
      { c with optUpdates := c.optUpdates + 1
               optNonfinite := if g.any nonFinite then sat32 c.optNonfinite 1 else c.optNonfinite }

/-! ### Commit of a preconditioner root (R214) -/

/-- A scale line with bit 6 of every block's state byte set to b. -/
def setStale (b : Bool) (l : List Byte) : List Byte :=
  l.mapIdx fun i x => if 32 ≤ i then (if b then x ||| 0x40 else x &&& 0xBF) else x

/-- Rewrites the scale lines of a shingle tensor with bit 6 set to b. -/
def rewriteStale (n : Nat) (b : Bool) : List Nat → Work Unit
  | [] => pure ()
  | a :: r => do
    let l ← coreRead n a
    coreWrite n a (setStale b l)
    rewriteStale n b r

/-- Addresses of the scale lines of a shingle tensor. -/
def scaleLines (d : Desc) : List Nat :=
  if dEmpty d then []
  else match dFmt d with
    | some f => (dOuter d).flatMap fun i => (List.range (dExtent d / f.groupLines)).map fun g => dRow d i + 64 * g * f.groupLines
    | none => []

/-- Every row of a tensor in FP32. -/
def rows32 (n : Nat) (d : Desc) : List (List Nat) → Work (List (List Nat × List W32))
  | [] => pure []
  | i :: r => do
    let x ← readRow32 n d i
    let rest ← rows32 n d r
    pure ((i, x) :: rest)

def commitRun (n : Nat) (o : EngOp) (p : ParamGroup) : Work Unit := do
  let d := o.dst
  let copy := o.d (fDst o.w + 1)
  let xs ← if dEmpty o.a then pure [] else rows32 n o.a (dOuter o.a)
  let rr ← row0 n (o.d (fA o.w + 1))
  let r := rr.getD 0 0
  let good := (dec32 r).isFinite && (dec32 r).le (dec32 p.tol) && xs.all fun x => x.2.all fun e => !nonFinite e
  if good then
    writeRows n d {} (xs.map fun x => (x.1, vals x.2))
    if optSide o.w = 0 then rewriteStale n false (scaleLines copy) else pure ()
  else
    optCount n fun c => { c with optPrecondStale := sat32 c.optPrecondStale 1 }
    rewriteStale n true (scaleLines copy)

/-- What the vector engine does for any instruction of its queue. -/
def veRun (n : Nat) (o : EngOp) : Work Unit := do
  let s ← get
  if fOpcode o.w = 0xA4 then
    match s.param? (optGroup o.w) with
    | some p => if optOp o.w = 1 then commitRun n o p else optRun n o p
    | none => pure ()
  else if fOpcode o.w = 0xA5 then
    match veLocal o with
    | some st => stopWith st
    | none => foldTensor n o o.a
  else veCompute n o

end Sys2Proof.Machine
end

