-- ==== Sys2Proof/Machine/Dense.lean ====
section
/-! DEFINITION. The dense array (R122 to R144): issue of its instructions, the begin and the completion of each, and the
bits it leaves in tiles, accumulator rows and drained tensors. -/

namespace Sys2Proof.Machine

/-! ### Classes and tiles (Tables 06-1, 06-7) -/

def isNarrow (f : Byte) : Bool := decide (4 ≤ f.toNat ∧ f.toNat ≤ 10)
def isFp4 (f : Byte) : Bool := f == 0x0A

/-- The class of a pairing; 0 for one that the array does not accept. -/
def daClass (a b : Byte) : Nat :=
  if isNarrow a && isNarrow b then (if isFp4 a && isFp4 b then 2 else 1)
  else if a == 0x0B && b == 0x0B then 3
  else if (a == 0x02 || a == 0x03) && (b == 0x02 || b == 0x03) then 4
  else if a == 0x01 && b == 0x01 then 5
  else if a == 0x10 && b == 0x10 then 6
  else 0

def fillable (f : Byte) : Bool := isNarrow f || f == 0x01 || f == 0x02 || f == 0x03 || f == 0x0B || f == 0x10

/-- Slot rows that a fill by rows reads. -/
def tileRows (f : Byte) : Nat := if isFp4 f then 64 else 32

/-- Kept and total elements of a pattern's group, N and M. -/
def patN (p : Nat) : Nat := if p = 1 then 1 else 2
def patM (p : Nat) : Nat := if p = 2 then 8 else 4
def patBits (p : Nat) : Nat := if p = 2 then 3 else 2

/-- Logical K of a tile met by a streaming operand of format a. -/
def TileMeta.logicalK (m : TileMeta) (a : Byte) : Nat :=
  let k := if daClass a m.fmt = 2 then 64 else 32
  if m.compressed then k * patM m.pattern / patN m.pattern else k

/-- Stored slot rows and columns of a compressed tile. -/
def TileMeta.stored (m : TileMeta) : Nat × Nat :=
  if m.transposed then (128 * patN m.pattern / patM m.pattern, tileRows m.fmt * patM m.pattern / patN m.pattern)
  else (tileRows m.fmt, 128)

def Core.accRows (c : Core) : Nat :=
  512 + 64 * ((List.range 30).filter fun i => c.da.extBanks.getLsbD i).length

def ownerCode : Option Stream → Nat
  | some t => t.toNat
  | none => 3

/-! ### Issue (R125 to R129, R141, R143) -/

def daPmap (w : Word128) : Nat := fBits w 48 6
def daPbit (w : Word128) : Nat := fBits w 32 16
def daNm (w : Word128) : Bool := fBits w 56 1 == 1
def daPattern (w : Word128) : Nat := fBits w 54 2

def fillLate (s : State) (n : Nat) (t : Stream) (w : Word128) : Option Stop :=
  let c := s.core n
  let x := c.ctx t
  let a := x.d (fA w)
  let pm := x.d (daPmap w)
  let mapped := daPmap w != 0
  firstStop
    [stopIf (c.da.shadowOwner == some t) (notInState w 0x10 t.toNat),
     stopIf (a.rank != 2) (shapeStop (fA w) 0 1),
     stopIf (mapped && (pm.rank != 1 || decide (8 * dSize pm 0 ≤ daPbit w))) (shapeStop (daPmap w) 0 0),
     stopIf (!fillable a.fmt || (daNm w && (a.fmt == 0x01 || a.fmt == 0x10))) (formatStop w (fA w) a.fmt),
     stopIf (mapped && pm.fmt != 0x22) (formatStop w (daPmap w) pm.fmt),
     placeStop (s.inSpad n) ([(a, false)] ++ if mapped then [(pm, false)] else [])]

/-- The shadow as the fill will leave it, judged at issue. -/
def fillMeta (f : Byte) (w : Word128) (transposed : Bool) : TileMeta :=
  { fmt := f, compressed := daNm w, pattern := if daNm w then daPattern w else 3, transposed := daNm w && transposed }

/-- What the issue stage asks of a fill. -/
def fillReq (opcode : Nat) (s : State) (c : CoreId) (t : Stream) (w : Word128) : IssueReq :=
  let mapped := daPmap w != 0
  { form := ⟨opcode, 1, mA + mField 56 1 + (if daNm w then mField 54 2 else 0) + mField 48 6 +
      (if mapped then mField 32 16 else 0) + mImm⟩
    reserved := if daNm w && daPattern w == 3 then [54] else []
    needs := [needA w] ++ if mapped then [{ operand := 0, reg := daPmap w, modifier := true }] else []
    late := fillLate s c t w }

def fillRegs (w : Word128) : List Nat := [fA w] ++ if daPmap w != 0 then [daPmap w] else []

/-- At issue the stream becomes the owner of the shadow (R125). -/
def fillOwns (transposed : Bool) (s : State) (c : CoreId) (t : Stream) (w : Word128) (s' : State) : State :=
  s'.modCore c fun k =>
    { k with da := { k.da with shadowOwner := some t, issShadow := fillMeta (((s.core c).ctx t).d (fA w)).fmt w transposed } }

def issueFill (opcode : Nat) (transposed : Bool) (c : CoreId) (t : Stream) (w : Word128) (s : State) : Out :=
  s.issueEngine c t w .da (fillReq opcode s c t w) (fillRegs w) (fillOwns transposed s c t w)

def execDaFill (c : CoreId) (t : Stream) (w : Word128) (s : State) : Out := issueFill 0x40 false c t w s
def execDaFillt (c : CoreId) (t : Stream) (w : Word128) (s : State) : Out := issueFill 0x41 true c t w s

/-- At issue the shadow loses its owner, and the stream owns the stationary tile (R125). -/
def swapOwns (c : CoreId) (t : Stream) (s : State) : State :=
  s.modCore c fun k => { k with da := { k.da with shadowOwner := none, statOwner := some t, issStat := k.da.issShadow } }

/-- What the issue stage asks of DaSwap. -/
def daSwapReq (s : State) (c : CoreId) (_ : Stream) (w : Word128) : IssueReq :=
  let da := (s.core c).da
  { form := ⟨0x42, 1, 0⟩
    late := stopIf da.shadowOwner.isNone (notInState w 0x01 3) }

def execDaSwap (c : CoreId) (t : Stream) (w : Word128) (s : State) : Out :=
  s.issueEngine c t w .da (daSwapReq s c t w) [] (swapOwns c t)

def mmRow (w : Word128) : Nat := fBits w 45 10
def mmKlen (w : Word128) : Nat := fBits w 37 8

/-- Accumulator rows that a product of M rows writes. -/
def mmSets (cls m : Nat) : Nat := if cls = 6 then 3 * m else m

/-- d[b] of DA.MMNM against the stored slots (R138). -/
def metaStop (k : Nat) (m : TileMeta) (b : Desc) : Option Stop :=
  firstStop
    [stopIf (b.rank != 2) (shapeStop k 0 1),
     stopIf (dSize b 0 != m.stored.2 * patBits m.pattern / 8) (shapeStop k 0 0),
     stopIf (dSize b 1 != m.stored.1) (shapeStop k 0 1)]

def mmLate (s : State) (n : Nat) (t : Stream) (w : Word128) (nm : Bool) : Option Stop :=
  let c := s.core n
  let a := (c.ctx t).d (fA w)
  let b := (c.ctx t).d (fB w)
  let st := c.da.issStat
  let M := dSize a 1
  firstStop
    [stopIf (c.da.statOwner != some t) (notInState w 0x11 (ownerCode c.da.statOwner)),
     stopIf (st.compressed != nm) (notInState w 0x12 (ownerCode c.da.statOwner)),
     stopIf (a.rank != 2 || decide (512 < M) || decide (c.accRows < mmRow w + mmSets (daClass a.fmt st.fmt) M))
       (shapeStop (fA w) 0 1),
     stopIf (decide (st.logicalK a.fmt < mmKlen w)) (shapeStop (fA w) 0 0),
     if nm then metaStop (fB w) st b else none,
     stopIf (daClass a.fmt st.fmt == 0) (formatStop w (fA w) a.fmt),
     stopIf (nm && b.fmt != 0x22) (formatStop w (fB w) b.fmt),
     placeStop (s.inSpad n) ([(a, false)] ++ if nm then [(b, false)] else [])]

/-- What the issue stage asks of DaMm. -/
def daMmReq (s : State) (c : CoreId) (t : Stream) (w : Word128) : IssueReq :=
  { form := ⟨0x43, 1, mA + mField 37 18 + mImm⟩, needs := [needA w], late := mmLate s c t w false }

def execDaMm (c : CoreId) (t : Stream) (w : Word128) (s : State) : Out :=
  s.issueEngine c t w .da (daMmReq s c t w) [fA w]

/-- What the issue stage asks of DaMmnm. -/
def daMmnmReq (s : State) (c : CoreId) (t : Stream) (w : Word128) : IssueReq :=
  { form := ⟨0x44, 1, mA + mB + mField 37 18 + mImm⟩, needs := [needA w, needB w], late := mmLate s c t w true }

def execDaMmnm (c : CoreId) (t : Stream) (w : Word128) (s : State) : Out :=
  s.issueEngine c t w .da (daMmnmReq s c t w)
    [fA w, fB w]

def drainRaw (f : Byte) : Bool := f == 0x01 || f == 0x0C || f == 0x11
def drainConv (f : Byte) : Bool := f == 0x02 || f == 0x03 || f == 0x0B || isNarrow f

def drClear (w : Word128) : Bool := fBits w 56 1 == 1
def drConvert (w : Word128) : Bool := fBits w 55 1 == 1
def drStoch (w : Word128) : Bool := fBits w 54 1 == 1
def drRow (w : Word128) : Nat := fBits w 44 10
def drCol (w : Word128) : Nat := 32 * fBits w 32 12

/-- Accumulator rows a drain reads for its size[1] destination rows. -/
def drainSets (d : Desc) : Nat := if d.fmt == 0x11 then 3 * dSize d 1 else dSize d 1

/-- What the issue stage asks of DaDrain. -/
def daDrainReq (s : State) (c : CoreId) (t : Stream) (w : Word128) : IssueReq :=
  let k := s.core c
  let d := (k.ctx t).d (fDst w)
  { form := ⟨0x45, 1, mDst + mField 32 25 + (if drStoch w then mImm else 0)⟩
    reserved := if drStoch w && !drConvert w then [54] else []
    needs := [needDst w]
    late := firstStop
      [stopIf (drStoch w && !s.keyDeclared 0) (notInState w 0x21),
       writeStop w (fDst w) d,
       stopIf (d.rank != 2 || decide (k.accRows < drRow w + drainSets d)) (shapeStop (fDst w) 0 1),
       stopIf (!(if drConvert w then drainConv d.fmt else drainRaw d.fmt)) (formatStop w (fDst w) d.fmt),
       placeStop (s.inSpad c) [(d, true)]] }

def execDaDrain (c : CoreId) (t : Stream) (w : Word128) (s : State) : Out :=
  s.issueEngine c t w .da (daDrainReq s c t w) [fDst w]

def clRow (w : Word128) : Nat := fBits w 45 10
def clCount (w : Word128) : Nat := fBits w 34 11

/-- What the issue stage asks of DaClear. -/
def daClearReq (s : State) (c : CoreId) (_ : Stream) (w : Word128) : IssueReq :=
  { form := ⟨0x46, 1, mField 34 21⟩
    reserved := if clCount w = 0 ∨ 1024 < clCount w then [34] else []
    late := stopIf (decide ((s.core c).accRows < clRow w + clCount w)) (shapeStop 0 0 1) }

def execDaClear (c : CoreId) (t : Stream) (w : Word128) (s : State) : Out :=
  s.issueEngine c t w .da (daClearReq s c t w) []

/-! ### Accumulator rows (R132, R135, R136, R242) -/

def DenseArray.accRow (d : DenseArray) (r : Nat) : List W32 := (List.range 128).map fun i => tget d.acc (128 * r + i) 0

def flipWords (l : List W32) (fl : List Nat) : List W32 :=
  fl.foldl (fun l p => l.set (p / 32) (l.getD (p / 32) 0 ^^^ BitVec.ofNat 32 (2 ^ (p % 32)))) l

/-- An access to a row of an extension bank wakes the bank, as every access does (R231). -/
def State.wakeRow (s : State) (n r : Nat) : State := if r < 512 then s else s.wakeBank ((s.core n).rowAddress n r) n

/-- A read of an accumulator row, whose flips lie in its first code word. -/
def readAcc (n r : Nat) : Work (List W32) := do
  modify fun s => s.wakeRow n r
  let s ← get
  let da := (s.core n).da
  let x := sramDecode (tget da.accErr r [])
  if x.ok then
    modify fun s => s.modCore n fun c => { c with spadCe := sat32 c.spadCe (if x.corrected then 1 else 0) }
    pure (flipWords (da.accRow r) x.flips)
  else
    modify fun s => s.modCore n fun c => { c with spadUe := sat32 c.spadUe 1 }
    stopWith { reason := 0x0B, info := r + 3 * 2 ^ 48 }

/-- A write of an accumulator row, which an armed flip mask meets. -/
def writeAcc (n r : Nat) (ws : List W32) : Work Unit :=
  modify fun s => (s.wakeRow n r).modCore n fun c =>
    let hit := c.spadFlip.armed && c.spadFlip.target
    { c with
      spadFlip := if hit then { c.spadFlip with armed := false } else c.spadFlip
      accScrub := { c.accScrub with fix := c.accScrub.fix.erase r }
      da := { c.da with
        acc := (List.range 128).foldl (fun a i => let v := ws.getD i 0
          if v = 0 then terase a (128 * r + i) else tset a (128 * r + i) v) c.da.acc
        accErr := if hit then tset c.da.accErr r c.spadFlip.positions else terase c.da.accErr r } }

/-! ### Reading source elements -/

/-- A line of a row that holds an element from `first` up to `last` (exclusive), or the scale line of its group. -/
def lineNeeded (f : Fmt) (first last i : Nat) : Bool :=
  if f.isShingle then
    let g := i / f.groupLines
    let lo := max first (1024 * g)
    let hi := min last (1024 * g + 1024)
    if hi ≤ lo then false
    else if i % f.groupLines = 0 then true
    else
      let j := i % f.groupLines - 1
      decide ((lo - 1024 * g) * f.width / 512 ≤ j ∧ j ≤ ((hi - 1024 * g) * f.width - 1) / 512)
  else decide (first < last ∧ first * f.width / 512 ≤ i ∧ i ≤ (last * f.width - 1) / 512)

/-- Reads the lines of a row that `need` names; the others stand as zeros. -/
def readSome (n : Nat) (need : Nat → Bool) : Nat → List Nat → Work (List Byte)
  | _, [] => pure []
  | i, a :: r => do
    let d ← if need i then coreRead n a else pure zeroLine
    let rest ← readSome n need (i + 1) r
    pure (d ++ rest)

/-- `count` elements from `first` on of a row of d, zero beyond its size, its lines read by `lines` where they are needed. -/
def spanOf (lines : (Nat → Bool) → Work (List Byte)) (d : Desc) (first count : Nat) : Work (List Cell) := do
  let zero : Cell := { bits := 0, scale := 127 }
  let last := min (dSize d 0) (first + count)
  if last ≤ first then pure (List.replicate count zero)
  else
    match dFmt d with
    | none => pure (List.replicate count zero)
    | some f =>
      let l ← lines (lineNeeded f first last)
      let es := (rowElems f (if f.isPlain8 then d.scale else 127) (dSize d 0) l).drop first
      pure ((List.range count).map fun i =>
        match es[i]? with
        | some e => { bits := BitVec.ofNat 32 e.1, scale := e.2 }
        | none => zero)

/-- `count` elements from `first` on of the row at an index vector, zero beyond its size. -/
def readSpan (n : Nat) (d : Desc) (idx : List Nat) (first count : Nat) : Work (List Cell) :=
  spanOf (fun need => readSome n need 0 (dRowLines d idx)) d first count

/-- `count` elements from `first` on of row m of a rank 2 source, zero beyond its sizes (R127, R129). -/
def readSlice (n : Nat) (d : Desc) (m first count : Nat) : Work (List Cell) :=
  if dSize d 1 ≤ m then pure (List.replicate count { bits := 0, scale := 127 }) else readSpan n d [m] first count

def readSlices (n : Nat) (d : Desc) (first count : Nat) : List Nat → Work (List (List Cell))
  | [] => pure []
  | m :: r => do
    let x ← readSlice n d m first count
    let rest ← readSlices n d first count r
    pure (x :: rest)

def cellVal (f : Byte) (c : Cell) : FVal :=
  match Fmt.ofCode f with
  | some x => decodeElem x c.bits.toNat c.scale
  | none => FVal.zero

/-- An element that decodes to a zero of either sign; both halves of a complex one. -/
def cellZero (f : Byte) (c : Cell) : Bool :=
  if f == 0x10 then (bf16Fmt.decode (c.bits.toNat % 65536)).isZero && (bf16Fmt.decode (c.bits.toNat / 65536)).isZero
  else (cellVal f c).isZero

/-! ### The fill (R127, R128, R140) -/

/-- The presence bit of a fill, true without a map. -/
def presence (n : Nat) (o : EngOp) : Work Bool := do
  if daPmap o.w = 0 then pure true
  else
    let off := daPbit o.w / 8
    let l ← coreRead n (dRow (o.d (daPmap o.w)) [] + 64 * (off / 64))
    pure ((l.getD (off % 64) 0).toNat.testBit (daPbit o.w % 8))

/-- The cells of a table of rows, by row × 4096 + column. -/
def cellTab (rows : List (List Cell)) : Tab Cell :=
  (rows.mapIdx fun r row => row.mapIdx fun c x => (4096 * r + c, x)).flatten

def transposeCells (cols : List (List Cell)) (k : Nat) : List (List Cell) :=
  (List.range k).map fun r => cols.map fun c => c.getD r { bits := 0, scale := 127 }

def runDaFill (n : Nat) (o : EngOp) : Work Unit := do
  let byCol := fOpcode o.w == 0x41
  let d := o.a
  let m := fillMeta d.fmt o.w byCol
  let here ← presence n o
  let ofs := 32 * fImm o.w
  let rows ←
    if !here then pure []
    else if m.compressed then readSlices n d ofs m.stored.2 (List.range m.stored.1)
    else if byCol then do
      let cols ← readSlices n d ofs (tileRows d.fmt) (List.range 128)
      pure (transposeCells cols (tileRows d.fmt))
    else readSlices n d ofs 128 (List.range (tileRows d.fmt))
  let zero := rows.all fun r => r.all (cellZero d.fmt)
  modify fun s => s.modCore n fun c =>
    { c with da := { c.da with shadow := { info := { m with zero := zero }, cells := cellTab rows } } }

/-! ### The product (R129 to R132, R138 to R140) -/

/-- Which element stands at logical index k of column n: stored row and column. -/
abbrev TileMap := Nat → Nat → Option (Nat × Nat)

def slotsOf (m : TileMeta) (g : Nat) : List Nat := (List.range (patN m.pattern)).map fun j => g * patN m.pattern + j

/-- A slot whose code repeats that of an earlier slot of its group is dropped (R139). -/
def slotKept (m : TileMeta) (codes : Nat → Nat → Nat) (s n : Nat) : Bool :=
  (slotsOf m (s / patN m.pattern)).all fun r => decide (s ≤ r) || codes r n != codes s n

/-- The kept slot at logical index k of stored column n. -/
def slotAt (m : TileMeta) (codes : Nat → Nat → Nat) (k n : Nat) : Option Nat :=
  (slotsOf m (k / patM m.pattern)).find? fun s =>
    decide (s < m.stored.1) && codes s n == k % patM m.pattern && slotKept m codes s n

/-- In a transposed tile an element takes part while fewer than N of its group precede it (R140, 3). -/
def rankIn (m : TileMeta) (codes : Nat → Nat → Nat) (k n : Nat) : Nat :=
  ((List.range (n % patM m.pattern)).filter fun j => (slotAt m codes k (n / patM m.pattern * patM m.pattern + j)).isSome).length

def tileMap (m : TileMeta) (codes : Nat → Nat → Nat) : TileMap := fun k n =>
  if !m.compressed then some (k, n)
  else if m.transposed then
    -- logical index k is a stored column, and column n a logical index of the stored weights
    match slotAt m codes n k with
    | some s => if rankIn m codes n k < patN m.pattern then some (s, k) else none
    | none => none
  else (slotAt m codes k n).map fun s => (s, n)

/-- Elements that the metadata drops. -/
def metaDrops (m : TileMeta) (codes : Nat → Nat → Nat) : Nat :=
  let slots := ((List.range m.stored.1).flatMap fun s => (List.range m.stored.2).filter fun n => !slotKept m codes s n).length
  if m.transposed then
    slots + ((List.range 128).flatMap fun k => (List.range m.stored.2).filter fun n =>
      (slotAt m codes k n).isSome && decide (patN m.pattern ≤ rankIn m codes k n)).length
  else slots

/-- The L cells of column n. -/
def Tile.column (t : Tile) (mp : TileMap) (L n : Nat) : List Cell :=
  (List.range L).map fun k =>
    match mp k n with
    | some p => tget t.cells (4096 * p.1 + p.2) { bits := 0, scale := 127 }
    | none => { bits := 0, scale := 127 }

/-- The passes of a class: set of rows, and how the streaming and stationary elements are read. -/
def daPasses (cls : Nat) (fa fb : Byte) : List (Nat × (Cell → FVal) × (Cell → FVal)) :=
  let re (c : Cell) := bf16Fmt.decode (c.bits.toNat % 65536)
  let im (c : Cell) := bf16Fmt.decode (c.bits.toNat / 65536)
  let both (c : Cell) := cbf16Sum c.bits.toNat
  let hi (c : Cell) := hiPart c.bits
  let lo (c : Cell) := loPart c.bits
  match cls with
  | 5 => [(0, hi, hi), (0, hi, lo), (0, lo, hi)]
  | 6 => [(0, re, re), (1, im, im), (2, both, both)]
  | _ => [(0, cellVal fa, cellVal fb)]

/-- One row of one pass. -/
def daWords (cls : Nat) (fa fb : Byte) (p : Nat × (Cell → FVal) × (Cell → FVal)) (a : List Cell) (cols : List (List Cell))
    (acc : List W32) : List W32 :=
  List.zipWith (fun (w : W32) (col : List Cell) =>
    if cls = 3 then
      refDotInt w (a.map fun c => (cellVal fa c).toUnits 0) (col.map fun c => (cellVal fb c).toUnits 0)
    else refDot w (a.map p.2.1) (col.map p.2.2)) acc cols

def daRows (n cls : Nat) (fa fb : Byte) (base M : Nat) (p : Nat × (Cell → FVal) × (Cell → FVal)) (cols : List (List Cell))
    (read : Nat → Work (List Cell)) : List Nat → Work Unit
  | [] => pure ()
  | m :: r => do
    let a ← read m
    let row := base + p.1 * M + m
    let acc ← readAcc n row
    writeAcc n row (daWords cls fa fb p a cols acc)
    modify fun s => s.modCore n fun c => { c with da := { c.da with rowsStreamed := c.da.rowsStreamed + 1 } }
    daRows n cls fa fb base M p cols read r

def daAllPasses (n cls : Nat) (fa fb : Byte) (base M : Nat) (cols : List (List Cell)) (read : Nat → Work (List Cell)) :
    List (Nat × (Cell → FVal) × (Cell → FVal)) → Work Unit
  | [] => pure ()
  | p :: r => do
    daRows n cls fa fb base M p cols read (List.range M)
    daAllPasses n cls fa fb base M cols read r

/-- The position codes of a compressed tile (R138). -/
def readMeta (n : Nat) (d : Desc) : List Nat → Work (List Nat)
  | [] => pure []
  | m :: r => do
    let l ← readLines n (dRowLines d [m])
    let rest ← readMeta n d r
    pure (leNat l :: rest)

def runMm (n : Nat) (o : EngOp) : Work Unit := do
  let s ← get
  let st := (s.core n).da.stat
  let nm := fOpcode o.w == 0x44
  if st.info.zero then
    modify fun s => s.modCore n fun c => { c with da := { c.da with zeroSkip := c.da.zeroSkip + 1 } }
  else if dEmpty o.a then pure ()
  else
    let rows ← if nm then readMeta n o.b (List.range st.info.stored.1) else pure []
    let b := patBits st.info.pattern
    let codes (slot col : Nat) : Nat := bits (rows.getD slot 0) (b * col) b
    let cls := daClass o.a.fmt st.info.fmt
    let L := if mmKlen o.w = 0 then st.info.logicalK o.a.fmt else mmKlen o.w
    let cols := (List.range 128).map (st.column (tileMap st.info codes) L)
    daAllPasses n cls o.a.fmt st.info.fmt (mmRow o.w) (dSize o.a 1) cols
      (fun m => readSlice n o.a m (32 * fImm o.w) L) (daPasses cls o.a.fmt st.info.fmt)
    if nm then
      modify fun s => s.modCore n fun c =>
        { c with da := { c.da with metaDrop := sat32 c.da.metaDrop (metaDrops st.info codes) } }
    else pure ()

/-! ### The drain and the clear (R141 to R143) -/

def readRows (n : Nat) (clear : Bool) : List Nat → Work (List (List W32))
  | [] => pure []
  | r :: rs => do
    let x ← readAcc n r
    if clear then writeAcc n r (List.replicate 128 0) else pure ()
    let rest ← readRows n clear rs
    pure (x :: rest)

/-- The drain reads its accumulator rows as it begins: no later product may change one it has not read (R133). -/
def beginDrain (n : Nat) (o : EngOp) : Work Unit := do
  let rows ← if dEmpty o.dst then pure [] else
    readRows n (drClear o.w) ((List.range (drainSets o.dst)).map fun i => drRow o.w + i)
  modify fun s => s.modCore n fun c => { c with da := { c.da with drained := rows } }

/-- Writes bits [lo, hi) of an area of lines; a line covered in part is read back first. -/
def writeBits (n : Nat) (ls : List Nat) (lo hi : Nat) (v : Nat) : Work Unit := do
  let touched (i : Nat) : Bool := decide (512 * i < hi ∧ lo < 512 * i + 512)
  let part (i : Nat) : Bool := touched i && decide (512 * i < lo ∨ hi < 512 * i + 512)
  let old ← readSome n part 0 ls
  let x := leNat old
  let y := x % 2 ^ lo + v * 2 ^ lo + x / 2 ^ hi * 2 ^ hi
  let out := leBytes (64 * ls.length) y
  ((ls.zip (List.range ls.length)).filter fun p => touched p.2).forM fun p => coreWrite n p.1 (bytesAt out (64 * p.2) 64)

/-- The words of a drained row as values of the conversion (R142). -/
def drainVals (f : Byte) (ws : List W32) : List FVal :=
  ws.map fun w => if f == 0x0B then decodeElem .int32 w.toNat 127 else dec32 w

/-- Writes elements [start, start + k) of an unscaled row and, when they reach its end, its padding. -/
def drainPlain (n : Nat) (d : Desc) (f : Fmt) (ls : List Nat) (start : Nat) (codes : List Nat) : Work Unit :=
  let stop := start + codes.length
  let hi := if stop = dSize d 0 then 512 * ls.length else stop * f.width
  writeBits n ls (start * f.width) hi (packCodes f.width codes)

/-- Converts the blocks of group g that elements [start, stop) touch and writes its lines. -/
def drainGroup (n : Nat) (d : Desc) (f : Fmt) (ff : FloatFmt) (m : ConvMode) (ls : List Nat) (line start stop : Nat)
    (vs : List FVal) (g : Nat) : Work Unit := do
  let gls := (ls.drop (g * f.groupLines)).take f.groupLines
  let lo := max start (1024 * g)
  let hi := min stop (1024 * g + 1024)
  if hi ≤ lo then pure ()
  else
    let old ← coreRead n (gls.headD 0)
    let value (i : Nat) : Option FVal := if i < stop then vs[i - start]? else none
    let blocks := (List.range 32).map fun b =>
      let e := 1024 * g + 32 * b
      if decide (start ≤ e) && decide (e < stop) then
        some (convertBlock ff m.derived m.halving (old.getD b 0) (old.getD (32 + b) 0)
          ((List.range 32).map fun i => value (e + i)) ((List.range 32).map fun i => m.rounding f line (e + i)))
      else none
    let scales := blocks.mapIdx fun b x => match x with | some y => y.scale | none => old.getD b 0
    let states := blocks.mapIdx fun b x => match x with | some y => y.state | none => old.getD (32 + b) 0
    let codes := (blocks.filterMap id).flatMap fun b => b.codes
    let last := if hi = dSize d 0 then 1024 else (lo - 1024 * g) + codes.length
    coreWrite n (gls.headD 0) (scales ++ states)
    writeBits n gls.tail ((lo - 1024 * g) * f.width) (last * f.width) (packCodes f.width codes)

/-- Writes one drained row: its words to elements 32 × col32 onward. -/
def drainRow (n : Nat) (o : EngOp) (m : Nat) (ws : List W32) (p2 p3 : List W32) : Work Unit := do
  let d := o.dst
  let s ← get
  let start := drCol o.w
  let stop := min (dSize d 0) (start + 128)
  let k := stop - start
  let ls := dRowLines d [m]
  match dFmt d with
  | none => pure ()
  | some f =>
    if stop ≤ start then pure ()
    else if !drConvert o.w then
      let codes :=
        if f = .cfp32 then
          (List.range k).map fun i =>
            let a := ws.getD i 0
            let b := p2.getD i 0
            (sub32 a b).toNat + (sub32 (sub32 (p3.getD i 0) a) b).toNat * 2 ^ 32
        else (ws.take k).map (·.toNat)
      drainPlain n d f ls start codes
    else
      let line := s.allocLine d (dRow d [m])
      let mode : ConvMode :=
        { halving := (s.core n).da.halving.toNat, stoch := drStoch o.w, tensor := BitVec.ofNat 32 (fImm o.w),
          key := s.rngKey 0, step := o.step.truncate 32 }
      let vs := (drainVals d.fmt ws).take k
      match f.float?, f.isShingle with
      | some ff, true =>
        (List.range (dExtent d / f.groupLines)).forM fun g => drainGroup n d f ff mode ls line start stop vs g
      | _, _ =>
        let cs := vs.mapIdx fun i v => convertPlain f d.scale (mode.rounding f line (start + i)) v
        drainPlain n d f ls start (cs.map (·.1))
        modify fun s => s.modCore n fun c => { c with convertPlainSat := sat32 c.convertPlainSat (cs.filter (·.2)).length }

def runDrain (n : Nat) (o : EngOp) : Work Unit := do
  let s ← get
  let rows := (s.core n).da.drained
  let M := if dEmpty o.dst then 0 else dSize o.dst 1
  (List.range M).forM fun m => drainRow n o m (rows.getD m []) (rows.getD (M + m) []) (rows.getD (2 * M + m) [])

def runClear (n : Nat) (o : EngOp) : Work Unit := do
  let _ ← readRows n true ((List.range (clCount o.w)).map fun i => clRow o.w + i)
  pure ()

/-! ### Beginning and completion (R124) -/

def daUnitOf (o : EngOp) : Option DaUnit :=
  match fOpcode o.w with
  | 0x40 | 0x41 => some .fill
  | 0x42 => none
  | 0x45 => some .drain
  | _ => some .stream

def DenseArray.busy (d : DenseArray) (u : DaUnit) : Bool := d.running.any fun x => x.1 == u

/-- Table 06-2. A drain has read its rows once it has begun, so a clear waits for the stream unit alone. -/
def DenseArray.mayBegin (d : DenseArray) (o : EngOp) : Bool :=
  match daUnitOf o with
  | some .fill => !d.busy .fill
  | none => !d.busy .fill && !d.busy .stream
  | some .stream => !d.busy .stream
  | some .drain => !d.busy .stream && !d.busy .drain

/-- The swap: the shadow moves into the cells with its marks. What the shadow then holds is not said; it keeps its content and its
zero mark until the next fill (DESIGN CHOICE: log entry 17). -/
def swapTiles (d : DenseArray) : DenseArray := { d with stat := d.shadow }

/-- Ends the running instruction of a unit; instructions begun after a faulting one are discarded with the queue. -/
def endRunning (l : List (DaUnit × EngOp)) (u : DaUnit) : List (DaUnit × EngOp) := l.filter fun x => x.1 != u
def cutRunning (l : List (DaUnit × EngOp)) (u : DaUnit) : List (DaUnit × EngOp) := l.takeWhile fun x => x.1 != u

def execDaInstructionBegin (c : CoreId) (s : State) : Out :=
  let da := (s.core c).da
  match da.queue with
  | [] => .next s
  | o :: r =>
    if !da.mayBegin o then .next s
    else
      match daUnitOf o with
      | none =>
        .next ((s.modCore c fun k => { k with da := { swapTiles k.da with queue := r } }).completeSignal c .da o.sig none)
      | some u =>
        let s' := s.modCore c fun k => { k with da := { k.da with queue := r, running := k.da.running ++ [(u, o)] } }
        if u = .drain then
          match (beginDrain c o).run s' with
          | (.ok _, s'') => .next s''
          | (.error st, s'') =>
            .next ((s''.modCore c fun k => { k with da := { k.da with running := endRunning k.da.running .drain } }).haltOp c 1 o st)
        else .next s'

/-- The unit's instruction has faulted: it goes with those begun after it, and the rows a drain has read go with that drain (R40). -/
def DenseArray.cut (d : DenseArray) (u : DaUnit) : DenseArray :=
  let l := cutRunning d.running u
  { d with running := l, drained := if l.any fun x => x.1 == .drain then d.drained else [] }

def daCompute (n : Nat) (o : EngOp) : Work Unit :=
  match fOpcode o.w with
  | 0x40 | 0x41 => runDaFill n o
  | 0x43 | 0x44 => runMm n o
  | 0x45 => runDrain n o
  | _ => runClear n o

def execDaInstructionComplete (c : CoreId) (u : DaUnit) (s : State) : Out :=
  match (s.core c).da.running.find? fun x => x.1 == u with
  | none => .next s
  | some (_, o) =>
    let after (s : State) : State :=
      (s.modCore c fun k =>
        { k with da := { k.da with running := endRunning k.da.running u
                                   drained := if u = .drain then [] else k.da.drained } }).completeSignal c .da o.sig
        (if u = .drain then some o.dst else none)
    match (daCompute c o).run s with
    | (.ok _, s') => .next (after s')
    | (.error st, s') =>
      if st.waits then .next s
      else .next (((s.undoWrites s').modCore c fun k => { k with da := k.da.cut u }).haltOp c 1 o st)

end Sys2Proof.Machine
end

