-- ==== Sys2Proof/Machine/Transfer.lean ====
section
/-! DEFINITION. What a transfer moves (R109 to R114): the checks at issue, and for each destination line the source lines
it comes from and its bytes. The DMA channels, GME.TRANSPOSE and the row moves of the GME use it. -/

namespace Sys2Proof.Machine

/-! ### Padding (R102, R112) -/

/-- Bits of line i of a row of n elements that hold elements, or all of a scale line. -/
def validBits (f : Fmt) (n i : Nat) : Nat :=
  if f.isShingle then
    let g := i / f.groupLines
    let j := i % f.groupLines
    if j = 0 then 512 else min 512 (min 1024 (n - 1024 * g) * f.width - 512 * (j - 1))
  else min 512 (n * f.width - 512 * i)

/-- The line with its padding zero. -/
def clearPad (f : Fmt) (n i : Nat) (l : List Byte) : List Byte :=
  let v := validBits f n i
  if v = 512 then bytesAt l 0 64 else leBytes 64 (leNat (bytesAt l 0 64) % 2 ^ v)

/-- A whole row moved with its encodings, its padding written zero. -/
def movedRow (f : Fmt) (n extent : Nat) (l : List Byte) : List Byte :=
  (List.range extent).flatMap fun i => clearPad f n i (bytesAt l (64 * i) 64)

/-! ### The permutation -/

def identityPerm : List Nat := [0, 1, 2, 3, 4, 5]

/-- Six-dimensional index of the source element that destination index `v` receives. -/
def permIndex (perm v : List Nat) : List Nat :=
  (List.range 6).map fun k => v.getD (perm.idxOf k) 0

/-- A full index: element e of the row at outer index idx. -/
def fullIndex (e : Nat) (idx : List Nat) : List Nat := (e :: idx ++ [0, 0, 0, 0, 0]).take 6

/-- A transfer as its line copies see it. -/
structure Move where
  src : Desc
  dst : Desc
  perm : List Nat
  deriving DecidableEq, Repr

/-- A BYTE tensor paired with another format moves its lines unchanged (R111). -/
def Move.raw (m : Move) : Bool := m.src.fmt != m.dst.fmt

/-- Through the transpose tile: the innermost dimension changes. -/
def Move.tiled (m : Move) : Bool := m.perm.getD 0 0 != 0

/-- Addresses of the source lines of line i of the destination row at idx. -/
def Move.sources (m : Move) (idx : List Nat) (i : Nat) : List Nat :=
  if m.tiled then
    match dFmt m.dst with
    | some f =>
      let per := 512 / f.width
      ((List.range (min per (dSize m.dst 0 - per * i))).map fun k =>
        let s := permIndex m.perm (fullIndex (per * i + k) idx)
        dRow m.src s.tail + 64 * (s.headD 0 * f.width / 512)).dedup
    | none => []
  else
    let s := permIndex m.perm (fullIndex 0 idx)
    [dRow m.src s.tail + 64 * i]

/-- Bytes of line i of the destination row at idx, from the source lines. -/
def Move.line (m : Move) (look : Nat → List Byte) (idx : List Nat) (i : Nat) : List Byte :=
  match dFmt m.dst with
  | none => zeroLine
  | some f =>
    if m.tiled then
      let per := 512 / f.width
      let codes := (List.range (min per (dSize m.dst 0 - per * i))).map fun k =>
        let s := permIndex m.perm (fullIndex (per * i + k) idx)
        let e := s.headD 0 * f.width
        getBits (look (dRow m.src s.tail + 64 * (e / 512))) (e % 512) f.width
      leBytes 64 (packCodes f.width codes)
    else
      let s := permIndex m.perm (fullIndex 0 idx)
      let l := look (dRow m.src s.tail + 64 * i)
      if m.raw then bytesAt l 0 64 else clearPad f (dSize m.dst 0) i l

/-- Every destination line: its address, outer index and place in the row, in order. -/
def Move.lines (m : Move) : List (Nat × List Nat × Nat) :=
  if dEmpty m.dst || dEmpty m.src then []
  else (dOuter m.dst).flatMap fun idx => (List.range (dExtent m.dst)).map fun i => (dRow m.dst idx + 64 * i, idx, i)

/-- The tile block of a destination line (R114): 64 source rows by one source line, by its place in each dimension. -/
def Move.tileKey (m : Move) (x : Nat × List Nat × Nat) : List Nat :=
  match dFmt m.dst with
  | some f =>
    let q := m.perm.idxOf 0
    (x.2.2 / (f.width / 8)) :: x.2.1.mapIdx fun k v => if k + 1 = q then v / (512 / f.width) else v
  | none => []

/-- Lines joined to the block of their key, blocks in the order of their first line. -/
def joinBlock (key : List Nat) (x : Nat × List Nat × Nat) :
    List (List Nat × List (Nat × List Nat × Nat)) → List (List Nat × List (Nat × List Nat × Nat))
  | [] => [(key, [x])]
  | b :: r => if b.1 = key then (b.1, b.2 ++ [x]) :: r else b :: joinBlock key x r

/-- The destination lines in the blocks in which a transfer moves them: a tile's lines together, any other line alone. The order of
the tiles is the model's (log entry 21). -/
def Move.blocks (m : Move) : List (List (Nat × List Nat × Nat)) :=
  if m.tiled then (m.lines.foldl (fun l x => joinBlock (m.tileKey x) x l) []).map (·.2) else m.lines.map fun x => [x]

/-- The source lines of a block, in source order. -/
def Move.blockSources (m : Move) (b : List (Nat × List Nat × Nat)) : List Nat := (b.flatMap fun x => m.sources x.2.1 x.2.2).dedup

/-- Copies blocks in order: the source lines of a block are read, each line of the source once (R109), and then its lines written. -/
def Move.copy (m : Move) (rd : Nat → Work (List Byte)) (wr : Nat → List Byte → Work Unit) :
    Tab (List Byte) → List (List (Nat × List Nat × Nat)) → Work Unit
  | _, [] => pure ()
  | cache, b :: r => do
    let cache ← (m.blockSources b).foldlM
      (fun c x => if thas c x then pure c else do
        let l ← rd x
        pure (tset c x l)) cache
    b.forM fun x => wr x.1 (m.line (fun a => tget cache a zeroLine) x.2.1 x.2.2)
    m.copy rd wr cache r

/-! ### Footprints (R113, R36) -/

/-- First and last line number of a footprint. -/
def span (d : Desc) : Int × Int := (footprint d).getD (0, -1)

/-- Address of the first line that two footprints share. -/
def sharedLine (a b : Desc) : Option Nat :=
  let x := span a
  let y := span b
  let lo := max x.1 y.1
  if lo ≤ min x.2 y.2 then some (64 * lo).toNat else none

/-- The stop of a local transfer as it begins: OVERLAP of a permuting one before CODE_LIVE. -/
def Move.beginStop (s : State) (m : Move) (permuting : Bool) (kd ka : Nat) : Option (Stop × Nat) :=
  if dEmpty m.dst || dEmpty m.src then none
  else
    match (if permuting && !m.dst.remote && !m.src.remote then sharedLine m.src m.dst else none) with
    | some a => some ({ reason := 0x07, info := kd + ka * 2 ^ 8 }, a)
    | none =>
      if m.dst.remote then none
      else
        match s.liveIn (span m.dst).1 (span m.dst).2 with
        | some (r, a) => some (codeLive a r, a)
        | none => none

/-! ### Checks at issue (R111) -/

/-- Innermost extent in bytes, as a BYTE tensor must match it; 0 for one that is no whole number of bytes. -/
def innerBytes (d : Desc) : Option Nat :=
  match dFmt d with
  | some f => if f.isShingle then some (64 * dExtent d) else if dSize d 0 * f.width % 8 = 0 then some (dSize d 0 * f.width / 8) else none
  | none => none

def bytePair (a b : Desc) : Bool := a.fmt != b.fmt && (a.fmt == 0x22 || b.fmt == 0x22)

/-- First dimension whose sizes differ. -/
def moveShape (m : Move) (permuting : Bool) : Option Nat :=
  (List.range 6).find? fun i =>
    if !permuting && i == 0 && bytePair m.src m.dst then innerBytes m.src != innerBytes m.dst
    else dSize1 m.dst i != dSize1 m.src (m.perm.getD i i)

/-- Formats that pass through the transpose tile. -/
def tileFormat (f : Byte) : Bool :=
  f == 0x01 || f == 0x02 || f == 0x03 || f == 0x04 || f == 0x05 || f == 0x0B || f == 0x0C || f == 0x20 || f == 0x10 || f == 0x22

def moveFormatOk (m : Move) (permuting : Bool) : Bool :=
  let same := m.src.fmt == m.dst.fmt && m.src.fmt != 0xF0 &&
    ((m.src.fmt != 0x04 && m.src.fmt != 0x05) || m.src.scale == m.dst.scale)
  (same || (!permuting && bytePair m.src m.dst && m.src.fmt != 0xF0 && m.dst.fmt != 0xF0)) &&
    !(m.tiled && !tileFormat m.dst.fmt) && !(m.src.remote && m.dst.remote)

/-- Shape, then format, of a transfer named by registers kd and ka. -/
def moveStop (w : Word128) (m : Move) (permuting : Bool) (kd ka : Nat) : Option Stop :=
  firstStop
    [writeStop w kd m.dst, (moveShape m permuting).map fun i => shapeStop kd ka i,
     stopIf (!moveFormatOk m permuting) (formatStop w kd m.dst.fmt)]

end Sys2Proof.Machine
end

