-- ==== Sys2Proof/Machine/Gme.lean ====
section
/-! DEFINITION. The gather-merge engine (R145 to R164, R169, R170): issue of its instructions, the cutting of rows into
yealms, their begin, stealing and merging, and what each operation writes. -/

namespace Sys2Proof.Machine

/-! ### Issue (R146, R147, R156, R169) -/

def rankStop (k : Nat) (d : Desc) (r : Nat) : Option Stop := stopIf (d.rank != r) (shapeStop k 0 (min r d.rank))

/-- Size of dimension i of register k must be v, as register `ref` fixes it (0: the table). -/
def dimStop (ref k : Nat) (d : Desc) (i v : Nat) : Option Stop :=
  stopIf (dSize d i != v) (if ref = 0 then shapeStop k 0 i else shapeStop ref k i)

def fmtStop (w : Word128) (k : Nat) (d : Desc) (ok : Byte → Bool) : Option Stop := stopIf (!ok d.fmt) (formatStop w k d.fmt)

def isU32 (f : Byte) : Bool := f == 0x20
def isU64 (f : Byte) : Bool := f == 0x21
def isFp32 (f : Byte) : Bool := f == 0x01

/-- Groups of formats that GME products pair: 8-bit group, the 16-bit formats, FP32. -/
def gmeGroup (f : Byte) : Nat := if isNarrow f then 1 else if f == 0x02 || f == 0x03 then 2 else if f == 0x01 then 3 else 0

def sortFormat (f : Byte) : Bool := f == 0x01 || f == 0x02 || f == 0x03 || f == 0x0C || f == 0x20 || f == 0x21

def spmmLate (s : State) (n : Nat) (x : StreamCtx) (w : Word128) : Option Stop :=
  let ka := fA w
  let kb := fB w
  let kd := fDst w
  let p := x.d ka
  let i := x.d (ka + 1)
  let v := x.d (ka + 2)
  let b := x.d kb
  let d := x.d kd
  firstStop
    [writeStop w kd d, rankStop ka p 1, stopIf (dSize p 0 == 0) (shapeStop ka 0 0), rankStop (ka + 1) i 1,
     rankStop (ka + 2) v 1, dimStop (ka + 1) (ka + 2) v 0 (dSize i 0),
     rankStop kb b 2, stopIf (decide (128 < dSize b 0)) (shapeStop kb 0 0), rankStop kd d 2,
     stopIf (dSize d 1 + 1 != dSize p 0) (shapeStop kd ka 1), dimStop kd kb b 0 (dSize d 0),
     fmtStop w ka p isU64, fmtStop w (ka + 1) i isU32, fmtStop w (ka + 2) v (fun f => gmeGroup f != 0),
     fmtStop w kb b (fun f => gmeGroup f == gmeGroup v.fmt), fmtStop w kd d isFp32,
     placeStop (s.inCourse n) [(p, false), (i, false), (v, false), (b, false), (d, true)]]

/-- What the issue stage asks of GmeSpmm. -/
def gmeSpmmReq (s : State) (c : CoreId) (t : Stream) (w : Word128) : IssueReq :=
  { form := ⟨0x60, 2, mDst + mA + mB + mField 32 1⟩
    reserved := if 62 ≤ fA w then [69] else []
    needs := [needA w, needAt 1 (fA w + 1), needAt 1 (fA w + 2), needB w, needDst w]
    late := spmmLate s c ((s.core c).ctx t) w }

def execGmeSpmm (c : CoreId) (t : Stream) (w : Word128) (s : State) : Out :=
  s.issueEngine c t w .gme (gmeSpmmReq s c t w)
    [fA w, fA w + 1, fA w + 2, fB w, fDst w]

def sddmmLate (s : State) (n : Nat) (x : StreamCtx) (w : Word128) : Option Stop :=
  let ka := fA w
  let kb := fB w
  let kc := fC w
  let kd := fDst w
  let a := x.d ka
  let b := x.d kb
  let p := x.d kc
  let i := x.d (kc + 1)
  let d := x.d kd
  firstStop
    [writeStop w kd d, rankStop ka a 2, rankStop kb b 2, dimStop ka kb b 0 (dSize a 0), rankStop kc p 1,
     stopIf (dSize a 1 + 1 != dSize p 0) (shapeStop ka kc 0), rankStop (kc + 1) i 1, rankStop kd d 1,
     dimStop (kc + 1) kd d 0 (dSize i 0),
     fmtStop w ka a (fun f => gmeGroup f != 0), fmtStop w kb b (fun f => gmeGroup f == gmeGroup a.fmt), fmtStop w kc p isU64,
     fmtStop w (kc + 1) i isU32, fmtStop w kd d isFp32,
     placeStop (s.inCourse n) [(a, false), (b, false), (p, false), (i, false), (d, true)]]

/-- What the issue stage asks of GmeSddmm. -/
def gmeSddmmReq (s : State) (c : CoreId) (t : Stream) (w : Word128) : IssueReq :=
  { form := ⟨0x61, 2, mDst + mA + mB + mC⟩
    reserved := if 63 ≤ fC w then [57] else []
    needs := [needA w, needB w, needC w, needAt 3 (fC w + 1), needDst w]
    late := sddmmLate s c ((s.core c).ctx t) w }

def execGmeSddmm (c : CoreId) (t : Stream) (w : Word128) (s : State) : Out :=
  s.issueEngine c t w .gme (gmeSddmmReq s c t w)
    [fA w, fB w, fC w, fC w + 1, fDst w]

/-- Issue of an operation of operands a, b and dst. -/
def gme2Req (opcode : Nat) (late : State → Nat → Word128 → StreamCtx → Option Stop) (s : State) (c : CoreId) (t : Stream) (w : Word128) :
    IssueReq :=
  { form := ⟨opcode, 2, mDst + mA + mB⟩, needs := [needA w, needB w, needDst w], late := late s c w ((s.core c).ctx t) }

def issueGme2 (opcode : Nat) (late : State → Nat → Word128 → StreamCtx → Option Stop) (c : CoreId) (t : Stream) (w : Word128) (s : State) :
    Out :=
  s.issueEngine c t w .gme (gme2Req opcode late s c t w) [fA w, fB w, fDst w]

/-- The source table of GME.GATHER may also lie in HBM. -/
def State.inCourseOrHbm (s : State) (n : Nat) (d : Desc) : Bool := s.inCourse n d || s.allocUnit d == some .hbm

def gatherLate (s : State) (n : Nat) (w : Word128) (x : StreamCtx) : Option Stop :=
  let a := x.d (fA w)
  let b := x.d (fB w)
  let d := x.d (fDst w)
  firstStop
    [writeStop w (fDst w) d, rankStop (fA w) a 2, rankStop (fB w) b 1, rankStop (fDst w) d 2,
     dimStop (fDst w) (fA w) a 0 (dSize d 0), stopIf (dSize b 0 != dSize d 1) (shapeStop (fDst w) (fB w) 0),
     fmtStop w (fA w) a (fun f => f != 0xF0), fmtStop w (fB w) b isU32, fmtStop w (fDst w) d (fun f => f == a.fmt),
     placeStop (s.inCourseOrHbm n) [(a, false)], placeStop (s.inCourse n) [(b, false), (d, true)]]

def execGmeGather (c : CoreId) (t : Stream) (w : Word128) (s : State) : Out := issueGme2 0x62 gatherLate c t w s

def scatterLate (s : State) (n : Nat) (w : Word128) (x : StreamCtx) : Option Stop :=
  let a := x.d (fA w)
  let b := x.d (fB w)
  let d := x.d (fDst w)
  firstStop
    [writeStop w (fDst w) d, rankStop (fA w) a 2, rankStop (fB w) b 1, stopIf (dSize b 0 != dSize a 1) (shapeStop (fA w) (fB w) 0),
     rankStop (fDst w) d 2, dimStop (fDst w) (fA w) a 0 (dSize d 0),
     fmtStop w (fA w) a isFloat, fmtStop w (fB w) b isU32, fmtStop w (fDst w) d isFp32,
     placeStop (s.inCourse n) [(a, false), (b, false), (d, true)]]

def execGmeScatteradd (c : CoreId) (t : Stream) (w : Word128) (s : State) : Out :=
  issueGme2 0x63 scatterLate c t w s

def segsumLate (s : State) (n : Nat) (w : Word128) (x : StreamCtx) : Option Stop :=
  let a := x.d (fA w)
  let b := x.d (fB w)
  let d := x.d (fDst w)
  firstStop
    [writeStop w (fDst w) d, rankStop (fA w) a 2, rankStop (fB w) b 1, rankStop (fDst w) d 2,
     dimStop (fDst w) (fA w) a 0 (dSize d 0), stopIf (dSize b 0 != dSize d 1 + 1) (shapeStop (fDst w) (fB w) 0),
     fmtStop w (fA w) a isFloat, fmtStop w (fB w) b isU64, fmtStop w (fDst w) d isFp32,
     placeStop (s.inCourse n) [(a, false), (b, false), (d, true)]]

def execGmeSegsum (c : CoreId) (t : Stream) (w : Word128) (s : State) : Out := issueGme2 0x64 segsumLate c t w s

def sortDesc (w : Word128) : Bool := fBits w 32 1 == 1
def sortPos (w : Word128) : Bool := fBits w 33 1 == 1

/-- First dimension in which two descriptors differ. -/
def sameShape (ref k : Nat) (d e : Desc) : Option Stop :=
  if d.rank ≠ e.rank then some (shapeStop ref k (min d.rank e.rank))
  else ((List.range d.rank).find? fun i => dSize d i != dSize e i).map fun i => shapeStop ref k i

def sortLate (s : State) (n : Nat) (x : StreamCtx) (w : Word128) : Option Stop :=
  let a := x.d (fA w)
  let d := x.d (fDst w)
  let p := x.d (fDst w + 1)
  firstStop
    [writeStop w (fDst w) d, if sortPos w then writeStop w (fDst w + 1) p else none,
     stopIf (a.rank != 1 && a.rank != 2) (shapeStop (fA w) 0 (min 2 a.rank)), stopIf (decide (8192 < dSize a 0)) (shapeStop (fA w) 0 0),
     sameShape (fDst w) (fA w) d a, if sortPos w then sameShape (fDst w) (fDst w + 1) d p else none,
     fmtStop w (fA w) a sortFormat, fmtStop w (fDst w) d (fun f => f == a.fmt),
     if sortPos w then fmtStop w (fDst w + 1) p isU32 else none,
     placeStop (s.inCourse n) ([(a, false), (d, true)] ++ if sortPos w then [(p, true)] else [])]

/-- What the issue stage asks of GmeSort. For positions = 1 with dst = 63 the manual does not say which field RESERVED_NONZERO reports:
the model reports dst, bit 75 (log entry 59). -/
def gmeSortReq (s : State) (c : CoreId) (t : Stream) (w : Word128) : IssueReq :=
  { form := ⟨0x65, 2, mDst + mA + mField 32 2⟩
    reserved := if sortPos w && fDst w == 63 then [75] else []
    needs := [needA w, needDst w] ++ if sortPos w then [needAt 0 (fDst w + 1)] else []
    late := sortLate s c ((s.core c).ctx t) w }

def execGmeSort (c : CoreId) (t : Stream) (w : Word128) (s : State) : Out :=
  s.issueEngine c t w .gme (gmeSortReq s c t w)
    ([fA w, fDst w] ++ if sortPos w then [fDst w + 1] else [])

def mergeLate (s : State) (n : Nat) (x : StreamCtx) (w : Word128) : Option Stop :=
  let a := x.d (fA w)
  let b := x.d (fB w)
  let d := x.d (fDst w)
  let p := x.d (fDst w + 1)
  firstStop
    [writeStop w (fDst w) d, if sortPos w then writeStop w (fDst w + 1) p else none,
     rankStop (fA w) a 1, rankStop (fB w) b 1, rankStop (fDst w) d 1, dimStop 0 (fDst w) d 0 (dSize a 0 + dSize b 0),
     if sortPos w then sameShape (fDst w) (fDst w + 1) d p else none,
     fmtStop w (fA w) a sortFormat, fmtStop w (fB w) b (fun f => f == a.fmt), fmtStop w (fDst w) d (fun f => f == a.fmt),
     if sortPos w then fmtStop w (fDst w + 1) p isU32 else none,
     placeStop (s.inCourse n) ([(a, false), (b, false), (d, true)] ++ if sortPos w then [(p, true)] else [])]

/-- What the issue stage asks of GmeMerge; positions = 1 with dst = 63 as for GME.SORT (log entry 59). -/
def gmeMergeReq (s : State) (c : CoreId) (t : Stream) (w : Word128) : IssueReq :=
  { form := ⟨0x67, 2, mDst + mA + mB + mField 32 2⟩
    reserved := if sortPos w && fDst w == 63 then [75] else []
    needs := [needA w, needB w, needDst w] ++ if sortPos w then [needAt 0 (fDst w + 1)] else []
    late := mergeLate s c ((s.core c).ctx t) w }

def execGmeMerge (c : CoreId) (t : Stream) (w : Word128) (s : State) : Out :=
  s.issueEngine c t w .gme (gmeMergeReq s c t w)
    ([fA w, fB w, fDst w] ++ if sortPos w then [fDst w + 1] else [])

def packLate (s : State) (n : Nat) (w : Word128) (x : StreamCtx) : Option Stop :=
  let a := x.d (fA w)
  let b := x.d (fB w)
  let d := x.d (fDst w)
  firstStop
    [writeStop w (fDst w) d, rankStop (fA w) a 3, rankStop (fB w) b 1, rankStop (fDst w) d 2,
     dimStop (fDst w) (fA w) a 0 (dSize d 0), stopIf (dSize b 0 != dSize a 2) (shapeStop (fA w) (fB w) 0),
     fmtStop w (fA w) a (fun f => f != 0xF0), fmtStop w (fB w) b isU32, fmtStop w (fDst w) d (fun f => f == a.fmt),
     placeStop (s.inCourse n) [(a, false), (b, false), (d, true)]]

def execGmePack (c : CoreId) (t : Stream) (w : Word128) (s : State) : Out := issueGme2 0x68 packLate c t w s

def unpackLate (s : State) (n : Nat) (w : Word128) (x : StreamCtx) : Option Stop :=
  let a := x.d (fA w)
  let b := x.d (fB w)
  let d := x.d (fDst w)
  firstStop
    [writeStop w (fDst w) d, rankStop (fA w) a 2, rankStop (fB w) b 1, rankStop (fDst w) d 3,
     dimStop (fDst w) (fA w) a 0 (dSize d 0), stopIf (dSize b 0 != dSize d 2) (shapeStop (fDst w) (fB w) 0),
     fmtStop w (fA w) a (fun f => f != 0xF0), fmtStop w (fB w) b isU32, fmtStop w (fDst w) d (fun f => f == a.fmt),
     placeStop (s.inCourse n) [(a, false), (b, false), (d, true)]]

def execGmeUnpack (c : CoreId) (t : Stream) (w : Word128) (s : State) : Out := issueGme2 0x69 unpackLate c t w s

def transposeMove (a d : Desc) : Move := { src := a, dst := d, perm := [1, 0, 2, 3, 4, 5] }

/-- What the issue stage asks of GmeTranspose. -/
def gmeTransposeReq (s : State) (c : CoreId) (t : Stream) (w : Word128) : IssueReq :=
  let x := (s.core c).ctx t
  let m := transposeMove (x.d (fA w)) (x.d (fDst w))
  { form := ⟨0x6A, 2, mDst + mA⟩, needs := [needA w, needDst w]
    late := firstStop [moveStop w m true (fDst w) (fA w), placeStop (s.inCourse c) [(m.src, false), (m.dst, true)]] }

def execGmeTranspose (c : CoreId) (t : Stream) (w : Word128) (s : State) : Out :=
  s.issueEngine c t w .gme (gmeTransposeReq s c t w)
    [fA w, fDst w]

def State.layer? (s : State) (k : Nat) : Option Layer := tfind s.image.bodies.layers k

def selectLate (s : State) (n : Nat) (x : StreamCtx) (w : Word128) : Option Stop :=
  let a := x.d (fA w)
  let kd := fDst w
  let T := dSize a 1
  firstStop
    [stopIf (s.layer? (fBits w 0 8)).isNone (notInState w 0x1B),
     writeStop w kd (x.d kd), writeStop w (kd + 1) (x.d (kd + 1)), writeStop w (kd + 2) (x.d (kd + 2)),
     rankStop (fA w) a 2,
     (s.layer? (fBits w 0 8)).bind fun l => dimStop 0 (fA w) a 0 l.experts,
     rankStop kd (x.d kd) 2, dimStop 0 kd (x.d kd) 0 16, dimStop (fA w) kd (x.d kd) 1 T,
     rankStop (kd + 1) (x.d (kd + 1)) 2, dimStop 0 (kd + 1) (x.d (kd + 1)) 0 16, dimStop (fA w) (kd + 1) (x.d (kd + 1)) 1 T,
     rankStop (kd + 2) (x.d (kd + 2)) 1, dimStop (fA w) (kd + 2) (x.d (kd + 2)) 0 T,
     fmtStop w (fA w) a (fun f => f == 0x01 || f == 0x02), fmtStop w kd (x.d kd) isU32,
     fmtStop w (kd + 1) (x.d (kd + 1)) isFp32, fmtStop w (kd + 2) (x.d (kd + 2)) isU32,
     placeStop (s.inCourse n) [(a, false), (x.d kd, true), (x.d (kd + 1), true), (x.d (kd + 2), true)]]

/-- What the issue stage asks of GmeSelect. -/
def gmeSelectReq (s : State) (c : CoreId) (t : Stream) (w : Word128) : IssueReq :=
  { form := ⟨0x66, 2, mDst + mA + mField 0 8⟩
    reserved := if 62 ≤ fDst w then [75] else []
    needs := [needA w, needDst w, needAt 0 (fDst w + 1), needAt 0 (fDst w + 2)]
    late := selectLate s c ((s.core c).ctx t) w }

def execGmeSelect (c : CoreId) (t : Stream) (w : Word128) (s : State) : Out :=
  s.issueEngine c t w .gme (gmeSelectReq s c t w)
    [fA w, fDst w, fDst w + 1, fDst w + 2]

def modGme (n : Nat) (f : Gme → Gme) : Work Unit := modify fun s => s.modCore n fun c => { c with gme := f c.gme }

/-! ### Reading (R109) -/

/-- The indices of the dimensions of nonzero stride, of a row of a descriptor with a zero stride; none where no dimension has one. -/
def broadcastKey (d : Desc) (idx : List Nat) : Option (List Nat) :=
  let flat (i : Nat) : Bool := decide (i + 1 < d.rank) && dStride d (i + 1) == 0
  if (List.range idx.length).any flat then some (((List.range idx.length).filter fun i => !flat i).map fun i => idx.getD i 0) else none

/-- Line i, at address a, of the row of d at an index vector: one reached through a zero stride is read once in an instruction. -/
def gmeLine (n : Nat) (d : Desc) (idx : List Nat) (i a : Nat) : Work (List Byte) := do
  match broadcastKey d idx with
  | none => coreRead n a
  | some key =>
    let s ← get
    match (s.core n).gme.shared.find? fun x => x.desc == d && x.key == key && x.line == i with
    | some x => pure x.data
    | none => do
      let l ← coreRead n a
      modGme n fun g => { g with shared := { desc := d, key := key, line := i, data := l } :: g.shared }
      pure l

/-- The lines of the row of d at an index vector, from line i on, that `need` names; the others stand as zeros. -/
def gmeLines (n : Nat) (d : Desc) (idx : List Nat) (need : Nat → Bool) : Nat → List Nat → Work (List Byte)
  | _, [] => pure []
  | i, a :: r => do
    let l ← if need i then gmeLine n d idx i a else pure zeroLine
    let rest ← gmeLines n d idx need (i + 1) r
    pure (l ++ rest)

def gmeRow (n : Nat) (d : Desc) (idx : List Nat) : Work (List Byte) := gmeLines n d idx (fun _ => true) 0 (dRowLines d idx)

def gmeValues (n : Nat) (d : Desc) (idx : List Nat) : Work (List FVal) := do
  let l ← gmeRow n d idx
  pure (lineValues d l)

def gmeCodes (n : Nat) (d : Desc) (idx : List Nat) : Work (List Nat) := do
  let l ← gmeRow n d idx
  pure (lineCodes d l)

def gmeSpan (n : Nat) (d : Desc) (idx : List Nat) (first count : Nat) : Work (List Cell) :=
  spanOf (fun need => gmeLines n d idx need 0 (dRowLines d idx)) d first count

/-! ### Drops (R148 to R150) -/

/-- Notes one drop in a register: the first by position makes the event's fields. -/
def noteDrop (l : List DropNote) (reg kind position value : Nat) : List DropNote :=
  match l.find? fun x => x.reg == reg with
  | none => l ++ [{ reg := reg, kind := kind, position := position, value := value, count := 1 }]
  | some x =>
    let y : DropNote := if position < x.position then { x with kind := kind, position := position, value := value } else x
    l.map fun z => if z.reg = reg then { y with count := min (x.count + 1) 0xFFFFFFFF } else z

/-- Counts an entry dropped at a position of a register, once in the instruction; kinds 1 and 2 count as order drops. -/
def dropAt (n reg kind position value : Nat) : Work Unit :=
  modGme n fun g =>
    if kind ≠ 3 ∧ (tget g.dropped reg []).contains position then g
    else
      let g := { g with drops := noteDrop g.drops reg kind position value
                        dropped := if kind = 3 then g.dropped else tmod g.dropped reg [] (position :: ·) }
      if kind = 1 ∨ kind = 2 then { g with orderDrop := sat32 g.orderDrop 1 } else { g with indexDrop := sat32 g.indexDrop 1 }

/-- Pointers as the cutter takes them: one above E is read as E and counted. -/
def clampPointers (n reg E : Nat) : Nat → List Nat → Work (List Nat)
  | _, [] => pure []
  | i, p :: r => do
    if E < p then dropAt n reg 3 i p else pure ()
    let rest ← clampPointers n reg E (i + 1) r
    pure (min p E :: rest)

/-- The runs of entries that rows own; a row that ends before it starts is empty and counted. -/
def rowRuns (n reg : Nat) : Nat → List Nat → Work (List (Nat × Nat))
  | i, p :: q :: r => do
    if q < p then dropAt n reg 3 (i + 1) q else pure ()
    let rest ← rowRuns n reg (i + 1) (q :: r)
    pure ((p, if q < p then p else q) :: rest)
  | _, _ => pure []

/-- The kept entries of a row (R149): positions and columns. -/
def keepEntries (n reg limit : Nat) : Option Nat → List (Nat × Nat) → Work (List (Nat × Nat))
  | _, [] => pure []
  | prev, (pos, col) :: r =>
    if limit ≤ col then do
      dropAt n reg 0 pos col
      keepEntries n reg limit prev r
    else
      match prev with
      | some p =>
        if col < p then do
          dropAt n reg 1 pos col
          keepEntries n reg limit prev r
        else if col = p then do
          dropAt n reg 2 pos col
          keepEntries n reg limit prev r
        else do
          let rest ← keepEntries n reg limit (some col) r
          pure ((pos, col) :: rest)
      | none => do
        let rest ← keepEntries n reg limit (some col) r
        pure ((pos, col) :: rest)

/-! ### Cutting (R151, R152) -/

/-- Entries grouped by occupied chunk, in order. -/
def byChunk : List (Nat × Nat) → List (List (Nat × Nat))
  | [] => []
  | e :: r =>
    match byChunk r with
    | (f :: g) :: rest => if f.2 / 32 = e.2 / 32 then (e :: f :: g) :: rest else [e] :: (f :: g) :: rest
    | _ => [[e]]

/-- Runs of whole chunks with at most 256 entries. -/
def packChunks : List (Nat × Nat) → List (List (Nat × Nat)) → List (List (Nat × Nat))
  | cur, [] => if cur.isEmpty then [] else [cur]
  | cur, ch :: r =>
    if 256 < cur.length + ch.length then cur :: packChunks ch r else packChunks (cur ++ ch) r

def cutRow (row : Nat) (kept : List (Nat × Nat)) : List Yealm :=
  let runs := packChunks [] (byChunk kept)
  runs.mapIdx fun o es =>
    { row := row, firstEntry := (es.headD (0, 0)).1, firstChunk := (es.headD (0, 0)).2 / 32, chunks := (byChunk es).length,
      ordinal := o, last := o + 1 == runs.length, entries := es, number := 0 }

/-- Deals yealms in cut order until one meets a full lane. -/
def deal (lanes : Tab (List Yealm)) : List Yealm → Tab (List Yealm) × List Yealm
  | [] => (lanes, [])
  | y :: r =>
    let q := tget lanes (y.number % 32) []
    if q.length < 64 then deal (tset lanes (y.number % 32) (q ++ [y])) r else (lanes, y :: r)

def Gme.redeal (g : Gme) : Gme :=
  let x := deal g.lanes g.uncut
  { g with lanes := x.1, uncut := x.2 }

def cutAll : Nat → List (List (Nat × Nat)) → List Yealm
  | _, [] => []
  | row, k :: r => cutRow row k ++ cutAll (row + 1) r

def keepRows (n reg limit : Nat) (cols : List Nat) : List (Nat × Nat) → Work (List (List (Nat × Nat)))
  | [] => pure []
  | (p, q) :: r => do
    let k ← keepEntries n reg limit none ((List.range (q - p)).map fun i => (p + i, cols.getD (p + i) 0))
    let rest ← keepRows n reg limit cols r
    pure (k :: rest)

/-- A line of 16 column indices that a row's run reaches into (R148: no other is read). -/
def ownedLine (runs : List (Nat × Nat)) (i : Nat) : Bool := runs.any fun r => decide (r.1 < r.2 ∧ r.1 < 16 * (i + 1) ∧ 16 * i < r.2)

/-- The cutter on a sparse operand at registers k and k + 1 of M rows with columns below a limit. -/
def cut (n : Nat) (o : EngOp) (k M limit : Nat) : Work Unit := do
  let E := dSize (o.d (k + 1)) 0
  let ps ← gmeCodes n (o.d k) []
  let ps ← clampPointers n k E 0 (ps.take (M + 1))
  let runs ← rowRuns n k 0 ps
  let lines ← gmeLines n (o.d (k + 1)) [] (ownedLine runs) 0 (dRowLines (o.d (k + 1)) [])
  let cols := lineCodes (o.d (k + 1)) lines
  let kept ← keepRows n (k + 1) limit cols runs
  let ys := (cutAll 0 kept).mapIdx fun i y => { y with number := i }
  modGme n fun g => { g with uncut := ys, yealms := g.yealms + BitVec.ofNat 64 ys.length }.redeal

/-! ### The products (R154, R157, R158) -/

/-- Exact products of one chunk for column c: per pass, in FP32 the three of R91. -/
def chunkPasses (fp32 : Bool) (a b : List (W32 × FVal)) : List (List FVal) :=
  let z (f g : W32 × FVal → FVal) := List.zipWith (fun x y => FVal.prod (f x) (g y)) a b
  if fp32 then
    [z (fun x => hiPart x.1) (fun y => hiPart y.1), z (fun x => hiPart x.1) (fun y => loPart y.1),
     z (fun x => loPart x.1) (fun y => hiPart y.1)]
  else [z (·.2) (·.2)]

def cellPair (f : Byte) (c : Cell) : W32 × FVal := (c.bits, cellVal f c)

/-- The rounded vectors of a yealm in fold order: per occupied chunk, one for each pass. -/
def yealmVectors (n : Nat) (o : EngOp) (y : Yealm) : Work (List (List W32)) := do
  let v := o.d (fA o.w + 2)
  let b := o.b
  let N := dSize b 0
  let rec chunk : List (List (Nat × Nat)) → Work (List (List W32))
    | [] => pure []
    | es :: r => do
      let xs ← es.foldlM (fun (acc : List ((W32 × FVal) × List (W32 × FVal))) e => do
        let a ← gmeSpan n v [] e.1 1
        let row ← gmeSpan n b [e.2] 0 N
        pure (acc ++ [(cellPair v.fmt (a.getD 0 ⟨0, 127⟩), row.map (cellPair b.fmt))])) []
      let passes := (List.range N).map fun c =>
        chunkPasses (v.fmt == 0x01) (xs.map (·.1)) (xs.map fun x => x.2.getD c (0, FVal.zero))
      let k := if v.fmt == 0x01 then 3 else 1
      let vecs := (List.range k).map fun p => passes.map fun ps => rne32 (FVal.sumExact (ps.getD p []))
      let rest ← chunk r
      pure (vecs ++ rest)
  chunk (byChunk y.entries)

def foldVectors (acc : List W32) (vs : List (List W32)) : List W32 := vs.foldl (fun a v => List.zipWith add32 a v) acc

/-- acc0 of a row, or the tile its predecessor wrote. -/
def tileRow (n : Nat) (o : EngOp) (row ordinal : Nat) : Work (List W32) :=
  if ordinal = 0 ∧ fBits o.w 32 1 = 0 then pure (List.replicate (dSize o.dst 0) 0) else readRow32 n o.dst [row]

def finishedOrd (g : Gme) (row : Nat) : Nat := ((g.finished.find? fun x => x.1 == row).map (·.2)).getD 0

/-- The ordinal of a row below which every yealm has finished: one that folds in its lane has not, while the lane is busy with it (R154). -/
def Gme.finishedFor (g : Gme) (row : Nat) : Nat :=
  match g.inLane.find? fun x => x.2.1 == row && thas g.laneBusy x.1 with
  | some x => x.2.2
  | none => finishedOrd g row

def setFinished (l : List (Nat × Nat)) (row k : Nat) : List (Nat × Nat) := (row, k) :: l.filter fun x => x.1 != row

/-- Runs a yealm that folds: in its lane onto the destination tile, which the lane is busy with to its end, or deferred into the segment
store. -/
def runSpmmYealm (n : Nat) (o : EngOp) (lane : Nat) (y : Yealm) : Work Unit := do
  let s ← get
  let g := (s.core n).gme
  let vs ← yealmVectors n o y
  if g.finishedFor y.row = y.ordinal then
    let acc ← tileRow n o y.row y.ordinal
    writeRow n o.dst {} [y.row] (vals (foldVectors acc vs))
    modGme n fun g => { g with finished := setFinished g.finished y.row (y.ordinal + 1), inLane := tset g.inLane lane (y.row, y.ordinal) }
  else
    modGme n fun g =>
      { g with deferred := g.deferred ++ [{ row := y.row, ordinal := y.ordinal, slots := y.chunks, vectors := vs }]
               slotsUsed := g.slotsUsed + y.chunks }

/-- A sum takes its output position. A faulty pointer may give one position to several rows; the manual does not say whose result then
stands: the model lets the sum of the row of the greatest number stand, in whatever order the yealms run (log entry 59). -/
def placeSum (row : Nat) (t : Tab (Nat × W32)) (x : Nat × W32) : Tab (Nat × W32) :=
  match tfind t x.1 with
  | some y => if row < y.1 then t else tset t x.1 (row, x.2)
  | none => tset t x.1 (row, x.2)

/-- Runs a yealm of the mask: independent sums, kept by output position. -/
def runSddmmYealm (n : Nat) (o : EngOp) (y : Yealm) : Work Unit := do
  let K := dSize o.a 0
  let a ← gmeSpan n o.a [y.row] 0 K
  let outs ← y.entries.foldlM (fun (acc : List (Nat × W32)) e => do
    let b ← gmeSpan n o.b [e.2] 0 K
    let v := if o.a.fmt == 0x01 then refDot3 0 (a.map (·.bits)) (b.map (·.bits))
      else refDot 0 (a.map (cellVal o.a.fmt)) (b.map (cellVal o.b.fmt))
    pure (acc ++ [(e.1, v)])) []
  modGme n fun g => { g with outs := outs.foldl (placeSum y.row) g.outs }

/-- A yealm may begin: it does not fold, its predecessors have finished, or its slots can be reserved (R155). -/
def Gme.mayBegin (g : Gme) (o : EngOp) (y : Yealm) : Bool :=
  fOpcode o.w != 0x60 || g.finishedFor y.row == y.ordinal || decide (g.slotsUsed + y.chunks ≤ 128)

/-- MAC, index and unpacking or splitting cycles of a kept entry (Table 07-7). -/
def entryCycles (o : EngOp) : Nat :=
  let fp4 (d : Desc) : Bool := isFp4 d.fmt
  if fOpcode o.w = 0x60 then
    let f := (o.d (fA o.w + 2)).fmt
    let N := dSize o.b 0
    if f == 0x01 then (N + 3) / 4 + 3 else (N + 7) / 8 + 2 + (if isFp4 f && fp4 o.b then 2 else 0)
  else
    let K := dSize o.a 0
    if o.a.fmt == 0x01 then (K + 3) / 4 + 3 else (K + 7) / 8 + (if fp4 o.a && fp4 o.b then 4 else 2)

/-- arith_s cycles for which a yealm keeps its lane: the header, then its chunks, a fold hidden behind at least 8 cycles each. -/
def yealmCycles (o : EngOp) (y : Yealm) : Nat :=
  1 + ((byChunk y.entries).map fun es => let k := es.length * entryCycles o; if fOpcode o.w = 0x60 then max k 8 else k).sum

def eraseYealm (l : List Yealm) (y : Yealm) : List Yealm := l.filter fun z => z.number != y.number

/-- Takes yealm y out of the queue of lane `owner` and runs it in a lane, whose last one has then finished, and which it keeps for its cycles and
those of a steal. -/
def beginYealm (n : Nat) (o : EngOp) (lane owner : Nat) (y : Yealm) : Work Unit := do
  modGme n fun g =>
    { g with lanes := tmod g.lanes owner [] fun q => eraseYealm q y
             inLane := terase g.inLane lane
             laneBusy := tset g.laneBusy lane (yealmCycles o y + if lane = owner then 0 else 4) }.redeal
  if fOpcode o.w = 0x60 then runSpmmYealm n o lane y else runSddmmYealm n o y

/-- The lane's own yealm that it begins (R152). -/
def Gme.ownYealm (g : Gme) (o : EngOp) (lane : Nat) : Option Yealm := (tget g.lanes lane []).find? (g.mayBegin o)

/-- The lane and yealm that a steal takes: nearest the tail, of l + 1, l − 1, l + 2, l − 2 in turn (R153). -/
def Gme.stolen (g : Gme) (o : EngOp) (lane : Nat) : Option (Nat × Yealm) :=
  [(lane + 1) % 32, (lane + 31) % 32, (lane + 2) % 32, (lane + 30) % 32].findSome? fun k =>
    ((tget g.lanes k []).reverse.find? (g.mayBegin o)).map fun y => (k, y)

/-- A lane that a cycle of GME_MERGE_STALL counts: it runs no yealm and has yealms queued, none of which may begin, and no steal
succeeds (R155). -/
def Gme.stalled (g : Gme) (o : EngOp) (lane : Nat) : Bool :=
  !thas g.laneBusy lane && !(tget g.lanes lane []).isEmpty && (g.ownYealm o lane).isNone && (g.stolen o lane).isNone

/-- Passes k arith_s cycles of the lanes: those whose yealm has taken its cycles are free, and the stalled ones are counted. -/
def Gme.cycles (g : Gme) (k : Nat) : Gme :=
  let stalls := match g.run with | some o => ((List.range 32).filter (g.stalled o)).length | none => 0
  { g with laneBusy := g.laneBusy.filterMap fun x => if x.2 ≤ k then none else some (x.1, x.2 - k)
           mergeStall := g.mergeStall + BitVec.ofNat 64 (stalls * k) }

def execYealmBegin (c : CoreId) (lane : LaneId) (s : State) : Out :=
  let g := (s.core c).gme
  match g.run with
  | none => .next s
  | some o =>
    match g.ownYealm o lane with
    | some y => .next (s.runKeep c 2 o (beginYealm c o lane lane y) id)
    | none => .next s

def execYealmSteal (c : CoreId) (lane : LaneId) (s : State) : Out :=
  let g := (s.core c).gme
  match g.run with
  | none => .next s
  | some o =>
    if (g.ownYealm o lane).isSome then .next s
    else
      match g.stolen o lane with
      | some (k, y) =>
        .next (s.runKeep c 2 o (do
          modGme c fun g => { g with steals := sat32 g.steals 1 }
          beginYealm c o lane k y) id)
      | none => .next s

/-- The merge stage folds a deferred yealm whose lower ordinals have finished. -/
def foldDeferred (n : Nat) (o : EngOp) (d : Deferred) : Work Unit := do
  let acc ← readRow32 n o.dst [d.row]
  writeRow n o.dst {} [d.row] (vals (foldVectors acc d.vectors))
  modGme n fun g =>
    { g with deferred := g.deferred.filter fun x => x.row != d.row || x.ordinal != d.ordinal
             slotsUsed := g.slotsUsed - d.slots, finished := setFinished g.finished d.row (d.ordinal + 1) }

def execMergeFold (c : CoreId) (row : Nat) (s : State) : Out :=
  let g := (s.core c).gme
  match g.run, g.deferred.find? (fun d => d.row == row && d.ordinal == g.finishedFor row) with
  | some o, some d => .next (s.runKeep c 2 o (foldDeferred c o d) id)
  | _, _ => .next s

/-! ### Moves of rows (R159) -/

/-- Copies the row at one index vector to another, or writes zero bytes. -/
def copyRow (n : Nat) (src dst : Desc) (source : Option (List Nat)) (idx : List Nat) : Work Unit :=
  match source, dFmt dst with
  | some i, some f => do
    let l ← gmeRow n src i
    writeLines n (dRowLines dst idx) (movedRow f (dSize dst 0) (dExtent dst) l)
  | _, _ => writeLines n (dRowLines dst idx) (List.replicate (64 * dExtent dst) 0)

def runGather (n : Nat) (o : EngOp) : Work Unit := do
  let ix ← gmeCodes n o.b []
  (ix.zip (List.range ix.length)).forM fun p => do
    if p.1 < dSize o.a 1 then copyRow n o.a o.dst (some [p.1]) [p.2]
    else do
      dropAt n (fB o.w) 0 p.2 p.1
      copyRow n o.a o.dst none [p.2]

/-- Lengths as read: above L they are read as L and counted. -/
def readLengths (n reg L : Nat) : Nat → List Nat → Work (List Nat)
  | _, [] => pure []
  | i, x :: r => do
    if L < x then dropAt n reg 0 i x else pure ()
    let rest ← readLengths n reg L (i + 1) r
    pure (min x L :: rest)

/-- A row dropped for want of room or of source counts in the lengths register (R159): one count per row. The manual does not say what
position and value the INDEX_DROP event then carries: the model gives the slot and its length as read (log entry 59). -/
def dropRow (n reg position value : Nat) : Work Unit :=
  modGme n fun g => { g with drops := noteDrop g.drops reg 0 position value, indexDrop := sat32 g.indexDrop 1 }

/-- The slots that a length vector selects, in order: (s, l). -/
def ragged (ls : List Nat) : List (Nat × Nat) :=
  (ls.mapIdx fun s x => (List.range x).map fun l => (s, l)).flatten

def runPack (n : Nat) (o : EngOp) : Work Unit := do
  let raw ← gmeCodes n o.b []
  let ls ← readLengths n (fB o.w) (dSize o.a 1) 0 raw
  let rows := ragged ls
  let Q := dSize o.dst 1
  ((rows.drop Q)).forM fun p => dropRow n (fB o.w) p.1 (raw.getD p.1 0)
  (List.range Q).forM fun q => copyRow n o.a o.dst (rows[q]?.map fun p => [p.2, p.1]) [q]

def runUnpack (n : Nat) (o : EngOp) : Work Unit := do
  let raw ← gmeCodes n o.b []
  let L := dSize o.dst 1
  let ls ← readLengths n (fB o.w) L 0 raw
  let rows := ragged ls
  (List.range (dSize o.dst 2)).forM fun s => (List.range L).forM fun l =>
    match (rows.zip (List.range rows.length)).find? (fun x => x.1 == (s, l)) with
    | some (_, q) =>
      if q < dSize o.a 1 then copyRow n o.a o.dst (some [q]) [l, s]
      else do
        dropRow n (fB o.w) s (raw.getD s 0)
        copyRow n o.a o.dst none [l, s]
    | none => copyRow n o.a o.dst none [l, s]

/-! ### Sums (R160, R161) -/

/-- Lines of the segment store for scatter-add assembly: 1,024, and 512 more for each GME-segment extension bank (R285). -/
def Gme.storeLines (g : Gme) : Nat := 1024 + 512 * g.segBanks

/-- Adds up to sixteen FP32 values to a line; its padding is zero (R102). -/
def addToLine (l : List Byte) (xs : List W32) : List Byte :=
  bytesAt (xs.mapIdx fun i x => leBytes 4 (add32 (BitVec.ofNat 32 (natAt l (4 * i) 4)) x).toNat).flatten 0 64

/-- A contribution to the line at a. The store lists the lines in use, the least recently updated first: a line in it is updated there,
any other is read, after the first of a full store is written back (R160). -/
def scatterLine (n : Nat) (store : List (Nat × List Byte)) (a : Nat) (xs : List W32) : Work (List (Nat × List Byte)) := do
  match store.find? fun x => x.1 == a with
  | some x => pure (store.filter (fun y => y.1 != a) ++ [(a, addToLine x.2 xs)])
  | none => do
    let s ← get
    let store ←
      match store with
      | old :: rest =>
        if (s.core n).gme.storeLines ≤ store.length then do
          coreWrite n old.1 old.2
          pure rest
        else pure store
      | [] => pure []
    let l ← coreRead n a
    pure (store ++ [(a, addToLine l xs)])

/-- Contributions in ascending source row. The store's lines are written at the end, the least recently updated first, an order that
the manual leaves open (log entry 59). -/
def runScatter (n : Nat) (o : EngOp) : Work Unit := do
  let ix ← gmeCodes n o.b []
  let store ← (ix.zip (List.range ix.length)).foldlM (fun (t : List (Nat × List Byte)) p => do
    if p.1 < dSize o.dst 1 then do
      let x ← gmeValues n o.a [p.2]
      let lines := dRowLines o.dst [p.1]
      (lines.zip (List.range lines.length)).foldlM (fun t q => scatterLine n t q.1 (((x.map rne32).drop (16 * q.2)).take 16)) t
    else do
      dropAt n (fB o.w) 0 p.2 p.1
      pure t) []
  store.forM fun x => coreWrite n x.1 x.2

def runSegsum (n : Nat) (o : EngOp) : Work Unit := do
  let ps ← gmeCodes n o.b []
  let ps ← clampPointers n (fB o.w) (dSize o.a 1) 0 ps
  let runs ← rowRuns n (fB o.w) 0 ps
  (runs.zip (List.range runs.length)).forM fun x => do
    let rows ← ((List.range (x.1.2 - x.1.1)).map fun i => x.1.1 + i).foldlM
      (fun (acc : List (List FVal)) r => do
        let v ← gmeValues n o.a [r]
        pure (acc ++ [v])) []
    writeRow n o.dst {} [x.2] ((List.range (dSize o.dst 0)).map fun c => dec32 (refSum 0 (rows.map fun r => r.getD c FVal.zero)))

/-! ### Sorting (R162) -/

/-- Ascending order of two keys, given by their codes. -/
def keyLt (f : Byte) (x y : Nat) : Bool :=
  match Fmt.ofCode f with
  | some g =>
    match g.float? with
    | some ff =>
      let a := ff.decode x
      let b := ff.decode y
      if a.isNan then false else if b.isNan then true else totalLt a b
    | none => if g == .int32 then decide (signed 32 x < signed 32 y) else decide (x < y)
  | none => false

def keyOrder (w : Word128) (f : Byte) (x y : Nat) : Bool := if sortDesc w then keyLt f y x else keyLt f x y

/-- Inserts after every key not above it: a stable sort. -/
def insertKey (lt : Nat → Nat → Bool) (e : Nat × Nat) : List (Nat × Nat) → List (Nat × Nat)
  | [] => [e]
  | x :: r => if lt e.1 x.1 then e :: x :: r else x :: insertKey lt e r

def sortKeys (lt : Nat → Nat → Bool) (ks : List (Nat × Nat)) : List (Nat × Nat) := ks.foldl (fun l e => insertKey lt e l) []

def runSort (n : Nat) (o : EngOp) : Work Unit :=
  (dOuter o.dst).forM fun i => do
    let ks ← gmeCodes n o.a i
    let out := sortKeys (keyOrder o.w o.a.fmt) (ks.mapIdx fun j k => (k, j))
    writeCodes n o.dst i (out.map (·.1))
    if sortPos o.w then writeCodes n (o.d (fDst o.w + 1)) i (out.map (·.2)) else pure ()

/-- The elements of an input in its order; one that breaks it is dropped. -/
def keepSorted (n reg : Nat) (lt : Nat → Nat → Bool) : Option Nat → List (Nat × Nat) → Work (List (Nat × Nat))
  | _, [] => pure []
  | prev, (k, j) :: r =>
    match prev with
    | some p =>
      if lt k p then do
        dropAt n reg 1 j k
        keepSorted n reg lt prev r
      else do
        let rest ← keepSorted n reg lt (some k) r
        pure ((k, j) :: rest)
    | none => do
      let rest ← keepSorted n reg lt (some k) r
      pure ((k, j) :: rest)

/-- Merges two sorted lists, the first list first among equal keys. -/
def mergeKeys (lt : Nat → Nat → Bool) : Nat → List (Nat × Nat) → List (Nat × Nat) → List (Nat × Nat)
  | 0, a, _ => a
  | _, [], b => b
  | _, a, [] => a
  | k + 1, x :: a, y :: b => if lt y.1 x.1 then y :: mergeKeys lt k (x :: a) b else x :: mergeKeys lt k a (y :: b)

def runMerge (n : Nat) (o : EngOp) : Work Unit := do
  let lt := keyOrder o.w o.a.fmt
  let a ← gmeCodes n o.a []
  let b ← gmeCodes n o.b []
  let a ← keepSorted n (fA o.w) lt none (a.mapIdx fun j k => (k, j))
  let b ← keepSorted n (fB o.w) lt none (b.mapIdx fun j k => (k, j))
  let m := mergeKeys lt (a.length + b.length) a (b.map fun x => (x.1, x.2 + 2 ^ 31))
  let pad := dSize o.dst 0 - m.length
  writeCodes n o.dst [] (m.map (·.1) ++ List.replicate pad 0)
  if sortPos o.w then writeCodes n (o.d (fDst o.w + 1)) [] (m.map (·.2) ++ List.replicate pad 0xFFFFFFFF) else pure ()

/-! ### Selection (R170) -/

/-- Inserts by descending score; equal scores keep their order, which is ascending index. -/
def insertScore (e : Nat × FVal) : List (Nat × FVal) → List (Nat × FVal)
  | [] => [e]
  | x :: r => if FVal.lt x.2 e.2 then e :: x :: r else x :: insertScore e r

def bestScores (l : List (Nat × FVal)) : List (Nat × FVal) := l.foldl (fun a e => insertScore e a) []

/-- The experts of a token, ascending; and whether one was forced. -/
def selectToken (l : Layer) (scores : List FVal) : List Nat × Bool :=
  let named := scores.mapIdx fun e v => (e, v)
  let cand := named.filter fun x => (dec32 l.theta).le x.2
  let kept := (bestScores cand).take l.cap
  if !cand.isEmpty then ((List.range scores.length).filter fun e => kept.any fun x => x.1 == e, false)
  else
    let some_ := bestScores (named.filter fun x => !x.2.isNan)
    if l.forceTop1 then
      match some_ with
      | x :: _ => ([x.1], true)
      | [] => ([], false)
    else ([], false)

def runSelect (n : Nat) (o : EngOp) (l : Layer) : Work Unit := do
  let kd := fDst o.w
  let T := dSize o.a 1
  let counts ← (List.range T).foldlM (fun (acc : List Nat) t => do
    let sc ← gmeValues n o.a [t]
    let r := selectToken l sc
    writeCodes n (o.d kd) [t] ((List.range 16).map fun i => r.1.getD i 0xFFFFFFFF)
    writeCodes n (o.d (kd + 1)) [t] ((List.range 16).map fun i =>
      match r.1[i]? with | some e => (rne32 (sc.getD e FVal.zero)).toNat | none => 0)
    modGme n fun g =>
      { g with selNanScore := sat32 g.selNanScore (sc.filter (·.isNan)).length
               selEmptyForced := sat32 g.selEmptyForced (if r.2 then 1 else 0)
               selEmptyPass := sat32 g.selEmptyPass (if r.1.isEmpty then 1 else 0) }
    pure (acc ++ [r.1.length])) []
  writeCodes n (o.d (kd + 2)) [] counts

/-! ### Beginning and completion (R145) -/

def gmeEmpty (o : EngOp) : Bool := o.descs.any fun x => dEmpty x.2

/-- Rows and column limit of the sparse operand that the cutter reads. -/
def beginCut (n : Nat) (o : EngOp) : Work Unit :=
  if gmeEmpty o then pure ()
  else if fOpcode o.w = 0x60 then cut n o (fA o.w) (dSize o.dst 1) (dSize o.b 1)
  else cut n o (fC o.w) (dSize o.a 1) (dSize o.b 1)

def beginTranspose (o : EngOp) : Work Unit := do
  let s ← get
  match (transposeMove o.a o.dst).beginStop s true (fDst o.w) (fA o.w) with
  | some (st, _) => stopWith st
  | none => pure ()

/-- What an instruction does as it begins: a sparse product's cutter, and the moment of a transpose's checks. -/
def beginGme (n : Nat) (o : EngOp) : Work Unit :=
  match fOpcode o.w with
  | 0x60 | 0x61 => beginCut n o
  | 0x6A => beginTranspose o
  | _ => pure ()

def execGmeInstructionBegin (c : CoreId) (s : State) : Out :=
  let g := (s.core c).gme
  match g.run, g.queue with
  | none, o :: r =>
    .next (s.runKeep c 2 o (do
      modGme c fun g => { g.idle with queue := r, run := some o, lastOpcode := BitVec.ofNat 8 (fOpcode o.w) }
      beginGme c o) id)
  | _, _ => .next s

/-- Rows of a sparse product with no kept entry: rne32(acc0 + 0). -/
def emptyRows (n : Nat) (o : EngOp) : Work Unit := do
  let s ← get
  let g := (s.core n).gme
  (List.range (dSize o.dst 1)).forM fun m =>
    if finishedOrd g m = 0 then do
      let acc ← tileRow n o m 0
      writeRow n o.dst {} [m] (vals (acc.map fun x => add32 x 0))
    else pure ()

/-- Output positions of a masked product: kept sums, +0 for dropped entries. A position that one row keeps and another drops takes the
sum (log entry 59). A position that no row owns is left open by the manual and takes a free value, which depends on the instruction
and the position alone, so that R14 holds. -/
def writeSddmm (n : Nat) (o : EngOp) : Work Unit := do
  let s ← get
  let g := (s.core n).gme
  let gone := tget g.dropped (fC o.w + 1) []
  writeCodes n o.dst [] ((List.range (dSize o.dst 0)).map fun e =>
    match tfind g.outs e with
    | some v => v.2.toNat
    | none => if gone.contains e then 0 else (Config.unownedSum o.region.toNat o.index.toNat e).toNat)

def gmeCompute (n : Nat) (o : EngOp) : Work Unit := do
  let s ← get
  if gmeEmpty o then pure ()
  else
    match fOpcode o.w with
    | 0x60 => emptyRows n o
    | 0x61 => writeSddmm n o
    | 0x62 => runGather n o
    | 0x63 => runScatter n o
    | 0x64 => runSegsum n o
    | 0x65 => runSort n o
    | 0x66 => match s.layer? (fBits o.w 0 8) with | some l => runSelect n o l | none => pure ()
    | 0x67 => runMerge n o
    | 0x68 => runPack n o
    | 0x69 => runUnpack n o
    | _ => let m := transposeMove o.a o.dst; m.copy (coreRead n) (coreWrite n) [] m.blocks

/-- The INDEX_DROP events of an instruction, one for each register (Table 07-3). -/
def State.raiseDrops (s : State) (n : Nat) (o : EngOp) (l : List DropNote) : State :=
  l.foldl (fun s x => s.raise 0x12 3 n
    [(2, n), (1, o.stream.toNat), (1, fOpcode o.w), (8, o.region.toNat * 2 ^ 32 + o.index.toNat), (1, x.reg), (1, x.kind),
     (8, x.position), (8, x.value), (4, x.count)]) s

/-- No yealm waits and none is deferred. -/
def Gme.drained (g : Gme) : Bool := g.uncut.isEmpty && g.lanes.all (fun x => x.2.isEmpty) && g.deferred.isEmpty

def execGmeInstructionComplete (c : CoreId) (s : State) : Out :=
  let g := (s.core c).gme
  match g.run with
  | none => .next s
  | some o =>
    if !g.drained then .next s
    else
      .next (s.runKeep c 2 o (gmeCompute c o) fun s =>
        let notes := (s.core c).gme.drops
        let s := s.modCore c fun k => { k with gme := { k.gme.idle with run := none } }
        (s.raiseDrops c o notes).completeSignal c .gme o.sig (some o.dst))

end Sys2Proof.Machine
end

