-- ==== Sys2Proof/Machine/Fabric.lean ====
section
/-! DEFINITION. The Lanene fabric below its masters: routing, credits, link retry, lanes, training and the bypass, and
the remote-write engines (R247 to R268). -/

namespace Sys2Proof.Machine

/-! ### Frame header (Table 12-2) -/

def headerNat (f : Frame) : Nat :=
  f.dst.toNat * 2 ^ 104 + f.src.toNat * 2 ^ 80 + f.vc.toNat * 2 ^ 77 + f.type.toNat * 2 ^ 72 + f.seq.toNat * 2 ^ 56 +
    f.master.toNat * 2 ^ 44 + f.tag.toNat * 2 ^ 38 + (if f.detour then 2 ^ 37 else 0) + f.operand.toNat

def fOp (f : Frame) (lo len : Nat) : Nat := bits f.operand.toNat lo len

/-- The CRC of a frame, over header and payload (R251). -/
def frameCrc (f : Frame) : W32 := crc32c (leBytes 16 (headerNat f) ++ f.payload)

/-- Credits of a frame: one for each 64 bytes, header and CRC included. -/
def frameCost (f : Frame) : Nat := (f.payload.length + 20 + 63) / 64

/-- Virtual channels on which a type may travel (Table 12-3). -/
def frameVcs (type : Nat) : List Nat :=
  match type with
  | 0x01 | 0x02 => [0, 3]
  | 0x03 | 0x06 | 0x07 | 0x1C => [2]
  | 0x04 => [0, 3, 4, 5]
  | 0x05 => [1]
  | 0x08 | 0x09 | 0x0A => [4]
  | 0x0B | 0x0C => [5]
  | 0x10 | 0x11 | 0x12 | 0x13 | 0x14 | 0x15 | 0x16 => [3]
  | 0x18 => [6]
  | _ => []

/-- Types that are discarded, and counted, when they cannot be delivered (R265). -/
def isAnswer (type : Nat) : Bool := type == 0x03 || type == 0x06 || type == 0x07 || type == 0x1C

/-! ### Axes and routes (R257, R267, R268) -/

namespace State

def coordAt (m : ModAddr) (axis : Nat) : Nat := (coords m).getD axis 0
def axisSize (s : State) (axis : Nat) : Nat := max 1 (s.fabric.sizes.getD axis 1)
/-- Port of a job axis and direction. -/
def portOf (s : State) (axis : Nat) (plus : Bool) : Nat := 2 * s.fabric.axisMap.getD axis axis + (if plus then 0 else 1)
/-- Job axis that a physical pair carries. -/
def axisOfPair (s : State) (pair : Nat) : Nat := s.fabric.axisMap.idxOf pair

/-- Steps from coordinate a to b on an axis of n places in a direction. -/
def steps (n a b : Nat) (plus : Bool) : Nat := if plus then (b + n - a) % n else (a + n - b) % n

/-- The lending axis of a detoured frame in transit: source and destination agree on it and this module does not. -/
def lendAxisOf (s : State) (f : Frame) : Option Nat :=
  if f.detour then
    [0, 1, 2, 3].find? fun i => coordAt f.src i == coordAt f.dst i && coordAt s.fabric.coord i != coordAt f.dst i
  else none

/-- Axis and direction by which a frame leaves this module. -/
def route (s : State) (f : Frame) : Option (Nat × Bool) :=
  let lend := s.lendAxisOf f
  let order := match lend with
    | some l => ([0, 1, 2, 3].filter fun i => i != l) ++ [l]
    | none => [0, 1, 2, 3]
  match order.find? fun i => coordAt s.fabric.coord i != coordAt f.dst i with
  | none => none
  | some i =>
    let n := s.axisSize i
    let d := steps n (coordAt s.fabric.coord i) (coordAt f.dst i) true
    some (i, if lend = some i then false else decide (2 * d ≤ n))

/-- The neighbour at a port lies beyond the destination on the axis (R265). -/
def beyond (s : State) (p axis : Nat) (plus : Bool) (f : Frame) : Bool :=
  let n := s.axisSize axis
  let me := coordAt s.fabric.coord axis
  let far := steps n me (coordAt f.dst axis) plus
  let near := steps n me (coordAt (s.port p).neighbour axis) plus
  far != 0 && decide (far < near)

/-- Dateline class on the hop between two coordinates of an axis (R257): 1 once the frame has crossed from the coordinate at which it
entered the ring. A frame enters at its source's coordinate; a detoured one returns along the lending axis in one hop, from where it stands. -/
def datelineClass (axis here next : Nat) (plus : Bool) (f : Frame) : Nat :=
  let back := f.detour && !plus && coordAt f.src axis == coordAt f.dst axis
  let from_ := if back then here else coordAt f.src axis
  if (if plus then decide (next < from_) else decide (from_ < next)) then 1 else 0

/-- Channel and dateline class of a frame on the hop by which it leaves, or has come, at a port. -/
def hopKey (s : State) (p : Nat) (leaves : Bool) (f : Frame) : Nat :=
  let axis := s.axisOfPair (p / 2)
  let me := coordAt s.fabric.coord axis
  let far := coordAt (s.port p).neighbour axis
  2 * f.vc.toNat + (if leaves then datelineClass axis me far (p % 2 == 0) f else datelineClass axis far me (p % 2 == 1) f)

end State

/-! ### On-slope routes (R286) -/

/-- The coordinates after a, one step at a time, up to b. -/
def stepsTo (a b : Nat) : List Nat := (List.range (max a b - min a b)).map fun i => if a < b then a + i + 1 else a - i - 1

/-- Courses of a slope that a path enters, from course-in-slope a to course-in-slope b: along the row first, or along the column first. -/
def gridPath (columnFirst : Bool) (a b : Nat) : List Nat :=
  if columnFirst then ((stepsTo (a / 4) (b / 4)).map fun r => 4 * r + a % 4) ++ (stepsTo (a % 4) (b % 4)).map fun c => 4 * (b / 4) + c
  else ((stepsTo (a % 4) (b % 4)).map fun c => 4 * (a / 4) + c) ++ (stepsTo (a / 4) (b / 4)).map fun r => 4 * r + b % 4

/-- The path between a course and its slope's bridge, which the manual places beside no course of the grid (log entry 64): row-first, in either
direction. -/
def bridgePath (toBridge : Bool) (a : Nat) : List Nat :=
  if toBridge then gridPath false a (Config.bridgeAt % 16) else gridPath false (Config.bridgeAt % 16) a

/-- The path between two courses of a slope that the image's ROUTES select. -/
def State.slopePath (s : State) (sl a b : Nat) : List Nat := gridPath ((tget s.image.bodies.routes sl 0).getLsbD (16 * a + b)) a b

/-! ### Sending (R254, R256) -/

def portLanes (p : Nat) : Nat := if p < 2 then 34 else 17
def portActive (p : Nat) : Nat := if p < 2 then 32 else 16
/-- Fewest good lanes of a port without a local port fault (R249). -/
def portFloor (p : Nat) : Nat := if p < 2 then 24 else 12
/-- Bytes of the replay buffer and of the receive pool. -/
def portBytes (p : Nat) : Nat := if p < 2 then 2 ^ 21 else 2 ^ 20
def privateCredits : Nat := 256
def sharedCredits (p : Nat) : Nat := portBytes p / 64 - 14 * privateCredits

def Port.laneState (x : Port) (i : Nat) : Nat := tget x.lanes i 0

def Port.up (x : Port) : Bool := x.state == 2 || x.state == 3

def tabSum (t : Tab Nat) : Nat := t.foldl (fun a x => a + x.2) 0

/-- Private credits a frame would spend, then shared ones; none without enough credits. -/
def Port.spend (x : Port) (p key cost : Nat) : Option (Nat × Nat) :=
  let own := min cost (privateCredits - tget x.credit key 0)
  let rest := cost - own
  if rest + tget x.shared key 0 ≤ sharedCredits p / 2 ∧ rest + tabSum x.shared ≤ sharedCredits p then some (own, rest)
  else none

/-- A frame of some bytes is striped over the active lanes in units of 80 bits; the next one starts on the lane after its last (R248). -/
def Port.carry (x : Port) (bytes : Nat) : Port := { x with stripe := (x.stripe + (8 * bytes + 79) / 80) % max 1 x.order.length }

/-- The lanes that carry the units of the next frame, in order. -/
def Port.unitLanes (x : Port) (bytes : Nat) : List Nat :=
  (List.range ((8 * bytes + 79) / 80)).map fun u => x.order.getD ((x.stripe + u) % max 1 x.order.length) 0

/-- Bytes of a frame on a link. -/
def frameBytes (f : Frame) : Nat := f.payload.length + 20

/-- Room in the replay buffer. -/
def Port.room (x : Port) (p : Nat) (f : Frame) : Bool :=
  decide (x.replay.length < 32767) &&
    decide (x.replay.foldl (fun a g => a + frameBytes g) (frameBytes f) ≤ portBytes p)

/-- A port in the course of emptying its waiting frames: kept back, bounced, freed buffers of other ports. -/
structure Pump where
  port : Port
  kept : List Waiting := []
  bounced : List Waiting := []
  freed : List (Nat × Nat × Nat) := []
  blocked : List (BitVec 3) := []

def freedOf (w : Waiting) : List (Nat × Nat × Nat) :=
  match w.source with
  | some (q, key) => [(q, key, frameCost w.frame)]
  | none => []

/-- Sends one waiting frame, keeps it back behind its channel, or bounces it. -/
def pumpOne (s : State) (p : Nat) (open_ : Bool) (a : Pump) (w : Waiting) : Pump :=
  let f := w.frame
  if a.blocked.contains f.vc then { a with kept := a.kept ++ [w] }
  else if !open_ || !a.port.up then { a with kept := a.kept ++ [w], blocked := f.vc :: a.blocked }
  else
    let hop := (s.route f).getD (0, true)
    -- a frame detoured from this module leaves by its lending port, which its route does not name
    if s.portOf hop.1 hop.2 = p ∧ s.beyond p hop.1 hop.2 f then { a with bounced := a.bounced ++ [w], freed := a.freed ++ freedOf w }
    else
      let key := s.hopKey p true f
      match a.port.spend p key (frameCost f), a.port.room p f with
      | some (own, rest), true =>
        let x := a.port.carry (frameBytes f)
        { a with
          port := { x with replay := x.replay ++ [{ f with seq := x.nextSeq }], nextSeq := x.nextSeq + 1, framesTx := x.framesTx + 1
                           credit := tmod x.credit key 0 (· + own), shared := tmod x.shared key 0 (· + rest) }
          freed := a.freed ++ freedOf w }
      | _, _ => { a with kept := a.kept ++ [w], blocked := f.vc :: a.blocked }

/-- Shared credits that some credits in use of a pair take of the pool: those above the pair's private reserve. -/
def sharedPart (held : Nat) : Nat := held - privateCredits

/-- A frame takes its credits of the receive pool. -/
def Port.fill (x : Port) (key cost : Nat) : Port := { x with pool := tmod x.pool key 0 (· + cost) }

/-- Credits of the pool are free again, the shared ones of the pair first, and due to the neighbour (R256). -/
def Port.free (x : Port) (key cost : Nat) : Port :=
  let held := tget x.pool key 0
  let gone := min cost held
  let rest := sharedPart held - sharedPart (held - gone)
  { x with pool := tset x.pool key (held - gone), owed := tmod x.owed key 0 (· + (gone - rest)),
           owedShared := tmod x.owedShared key 0 (· + rest) }

/-- Frees credits at several ports: port, channel and class, credits. -/
def owe (s : State) (l : List (Nat × Nat × Nat)) : State := l.foldl (fun s x => s.modPort x.1 fun q => q.free x.2.1 x.2.2) s

/-- Sends what a port can send: the new state and the frames whose destination its neighbour lies beyond. -/
def State.pump (s : State) (p : Nat) : State × List Waiting :=
  let open_ := s.fabric.open_.getLsbD (p / 2)
  let a := (s.port p).waiting.foldl (pumpOne s p open_) { port := s.port p }
  (owe (s.modPort p fun _ => { a.port with waiting := a.kept }) a.freed, a.bounced)

/-- The DEST_ABSENT return of a frame (R265). -/
def absentOf (s : State) (f : Frame) : Frame :=
  { dst := f.src, src := s.fabric.coord, vc := 2, type := 0x1C, master := f.master, tag := f.tag,
    operand := BitVec.ofNat 37 (f.vc.toNat + f.type.toNat * 8), payload := leBytes 16 (headerNat f) }

def State.enqueue (s : State) (p : Nat) (w : Waiting) : State := s.modPort p fun x => { x with waiting := x.waiting ++ [w] }

/-- Delivers a frame to this module at a port. -/
def State.deliver (s : State) (p : Nat) (f : Frame) : State := s.modPort p fun x => { x with inbox := x.inbox ++ [f] }

/-- Frames that cannot go on: an answer is discarded, any other returns DEST_ABSENT to its source. -/
def State.bounce (s : State) (p : Nat) (l : List Waiting) : State :=
  l.foldl
    (fun s w =>
      let s := s.modPort p fun x => { x with destAbsentSent := sat32 x.destAbsentSent 1 }
      if isAnswer w.frame.type.toNat then s
      else
        let f := absentOf s w.frame
        if f.dst = s.fabric.coord then s.deliver p f
        else
          match s.route f with
          | some (i, plus) =>
            let q := s.portOf i plus
            let x := (s.enqueue q { frame := f, source := none }).pump q
            x.2.foldl (fun s _ => s.modPort q fun y => { y with destAbsentSent := sat32 y.destAbsentSent 1 }) x.1
          | none => s)
    s

/-- Sends what a port can send and returns what it cannot. -/
def State.pumpAll (s : State) (p : Nat) : State := let x := s.pump p; x.1.bounce p x.2

/-- A frame enters the fabric, or is forwarded: `source` names the buffer it still holds. -/
def State.forward (s : State) (f : Frame) (source : Option (Nat × Nat)) : State :=
  match s.route f with
  | none => s.deliver 0 f
  | some (i, plus) => (s.enqueue (s.portOf i plus) { frame := f, source := source }).pumpAll (s.portOf i plus)

/-! ### Sequencer entries (Table 12-7) -/

/-- A sequencer table entry from its 64 bytes. -/
def CollEntry.ofBytes (l : List Byte) : CollEntry :=
  let n (i k : Nat) : Nat := natAt l i k
  let small (i len : Nat) : Nat := bits (n i 2) 0 len
  { op := n 0 1, group := n 1 1, triggerCore := small 2 11, triggerFlag := small 4 9, triggerInit := BitVec.ofNat 32 (n 6 4),
    triggerInc := n 10 2, src := n 12 2, dst := n 14 2, lengths := n 16 2, chunk := n 18 2, root := n 20 2,
    outFormat := BitVec.ofNat 8 (n 22 1), deliver := n 23 1, doneCore := n 24 2, doneFlag := n 26 2, borrowAxis := bits (n 28 1) 0 3,
    lendAxis := bits (n 28 1) 3 3, lendVcs := BitVec.ofNat 8 (n 29 1), endCore := n 30 2, endCount := BitVec.ofNat 32 (n 32 4),
    endFlag := n 36 2,
    reservedClear := n 2 2 < 2048 && n 4 2 < 512 && n 28 1 < 64 && (bytesAt l 38 26).all (· == 0) }

/-- The sequencer table of a slope's engine. -/
def State.collTable (s : State) (sl : Nat) : List CollEntry := (tget s.image.bodies.collTables sl []).map CollEntry.ofBytes

/-! ### Lend windows (R268) -/

/-- The sequencer entries of the open lend windows. -/
def State.lends (s : State) : List CollEntry :=
  ([0, 1, 2, 3] : List Nat).flatMap fun sl => (s.coll sl).lend.filterMap fun x => (s.collTable sl)[x.2]?

/-- The lend entry that a frame of this module falls under. -/
def State.lendOf (s : State) (f : Frame) : Option CollEntry :=
  s.lends.find? fun e =>
    let b := e.borrowAxis - 1
    let d := State.steps (s.axisSize b) (State.coordAt s.fabric.coord b) (State.coordAt f.dst b) true
    e.lendVcs.getLsbD f.vc.toNat && d % 2 == 1 &&
      ([0, 1, 2, 3] : List Nat).all fun i => i == b || State.coordAt f.dst i == State.coordAt s.fabric.coord i

/-- A frame that this module originates. -/
def State.sendFrame (s : State) (f : Frame) : State :=
  let f := { f with src := s.fabric.coord }
  if f.dst = s.fabric.coord then s.deliver 0 f
  else
    match s.lendOf f with
    | some e =>
      let p := s.portOf (e.lendAxis - 1) true
      (s.enqueue p { frame := { f with detour := true }, source := none }).pumpAll p
    | none => s.forward f none

/-! ### Link level (R254, R255) -/

def State.portEvent (s : State) (code p : Nat) : State := s.raise code 4 p []

/-- The frame is in sequence behind no earlier one of its path in the inbox; it leaves the inbox and its buffer is
free. A frame that no link delivered here is taken as it is presented. -/
def State.takeFrame (s : State) (p : Nat) (f : Frame) : Option State :=
  let x := s.port p
  match x.inbox.find? fun g => g.src == f.src && g.vc == f.vc with
  | some g =>
    if g = f then
      let t := s.modPort p fun y => { y with inbox := y.inbox.erase f }
      some (if f.src = s.fabric.coord then t else owe t [(p, s.hopKey p false f, frameCost f)])
    else if x.inbox.contains f then none
    else some s
  | none => some s

def State.malformed (s : State) (p : Nat) : State := s.modPort p fun x => { x with frameMalformed := sat32 x.frameMalformed 1 }

/-- A refused frame is answered by one LINK_NACK that names the frame expected. -/
def nack (x : Port) : Port := if x.nacked then x else { x.carry 20 with nacked := true, nackSent := some x.expect }

/-- The destination lies strictly between this module and the neighbour a frame came from (R265). -/
def State.between (s : State) (p : Nat) (f : Frame) : Bool :=
  let axis := s.axisOfPair (p / 2)
  let n := s.axisSize axis
  let me := State.coordAt s.fabric.coord axis
  let plus := p % 2 == 0
  let near := State.steps n me (State.coordAt (s.port p).neighbour axis) plus
  let far := State.steps n me (State.coordAt f.dst axis) plus
  decide (0 < far ∧ far < near)

/-- Frames still unacknowledged after a cumulative acknowledgement. -/
def afterAck (ack : BitVec 16) (l : List Frame) : List Frame := l.dropWhile fun g => decide ((ack - g.seq).toNat < 32768)

/-- A LINK_CTRL is acted on; one whose payload is not its 8 bytes is malformed (R251, Table 12-3). -/
def State.linkCtrl (s : State) (p : Nat) (f : Frame) : State :=
  let ack : BitVec 16 := BitVec.ofNat 16 (fOp f 0 16)
  let g := leNat (bytesAt f.payload 0 8)
  if f.payload.length ≠ 8 then s.malformed p
  else
    (s.modPort p fun x =>
      let left := afterAck ack x.replay
      { x with
        replay := left
        episodes := if left.length < x.replay.length then 0 else x.episodes
        credit := x.credit.map fun c => (c.1, c.2 - Config.creditGrant g c.1 false)
        shared := x.shared.map fun c => (c.1, c.2 - Config.creditGrant g c.1 true) }).pumpAll p

/-- LINK_CTRL: one whose CRC was good (a frame with its CRC comes by LINK_FRAME_RECEIVE). -/
def execLinkCtrl (p : PortId) (f : Frame) (s : State) : Out := if f.type ≠ 0x1E then .next s else .next (s.linkCtrl p f)

/-- The port sends some unacknowledged frames again, in order. -/
def Port.again (x : Port) (l : List Frame) : Port := { l.foldl (fun x f => x.carry (frameBytes f)) x with resent := l }

/-- One resend episode, from the first frame that meets a test; the sixteenth without an advance takes the link down (R255). -/
def resend (s : State) (p : Nat) (first : Frame → Bool) : State :=
  let s := s.modPort p fun x =>
    { x.again (x.replay.dropWhile fun g => !first g) with linkRetry := sat32 x.linkRetry 1, episodes := x.episodes + 1 }
  if 16 ≤ (s.port p).episodes then (s.modPort p fun x => { x with state := 1, episodes := 0 }).portEvent 0x32 p else s

/-- A LINK_NACK is acted on; one with a payload is malformed (R251, Table 12-3). -/
def State.linkNack (s : State) (p : Nat) (f : Frame) : State :=
  let named (g : Frame) : Bool := g.seq == BitVec.ofNat 16 (fOp f 0 16)
  if !f.payload.isEmpty then s.malformed p else if (s.port p).replay.any named then resend s p named else s

/-- LINK_NACK: one whose CRC was good. -/
def execLinkNack (p : PortId) (f : Frame) (s : State) : Out := if f.type ≠ 0x1F then .next s else .next (s.linkNack p f)

/-- A frame in sequence, behind its CRC: malformed, delivered, returned or forwarded. A management frame goes to the ridge firmware, which alone it
serves, and its buffer is free (R252). -/
def State.acceptFrame (s : State) (p : PortId) (f : Frame) : State :=
  let key := s.hopKey p false f
  let s := s.modPort p fun y =>
    { y.fill key (frameCost f) with expect := y.expect + 1, nacked := false, framesRx := y.framesRx + 1 }
  if f.payload.length % 8 ≠ 0 ∨ 512 < f.payload.length then owe (s.malformed p) [(p, key, frameCost f)]
  else if f.dst = s.fabric.coord then
    if !(frameVcs f.type.toNat).contains f.vc.toNat then owe (s.malformed p) [(p, key, frameCost f)]
    else if f.type = 0x18 then owe s [(p, key, frameCost f)]
    else s.deliver p f
  else if s.between p f then owe (s.bounce p [{ frame := f, source := none }]) [(p, key, frameCost f)]
  else s.forward f (some (p.val, key))

/-- LINK_FRAME_RECEIVE: a frame, with the CRC that came with it. LINK_CTRL and LINK_NACK carry no sequence number of the link's (R254). -/
def execLinkFrameReceive (p : PortId) (f : Frame) (crc : W32) (s : State) : Out :=
  let x := s.port p
  if !x.up || !s.fabric.open_.getLsbD (p / 2) then .next s
  else if crc ≠ frameCrc f then .next (s.modPort p fun y => nack { y with linkCrcErr := sat32 y.linkCrcErr 1 })
  else if f.type = 0x1E then .next (s.linkCtrl p f)
  else if f.type = 0x1F then .next (s.linkNack p f)
  else if f.seq ≠ x.expect then .next (s.modPort p nack)
  else .next (s.acceptFrame p f)

def execLinkResendTimeout (p : PortId) (s : State) : Out :=
  if (s.port p).replay.isEmpty || !(s.port p).up then .next s else .next (resend s p fun _ => true)

/-- LINK_CTRL leaves with the last frame accepted and, unless the axis drains, the credits freed. -/
def execLinkAckDue (p : PortId) (s : State) : Out :=
  .next (s.modPort p fun x =>
    let x := { x.carry 28 with ackSent := x.expect - 1 }
    if x.draining then { x with granted := [], grantedShared := [] }
    else { x with granted := x.owed, owed := [], grantedShared := x.owedShared, owedShared := [] })

/-! ### Training (R265) -/

def State.neighbourOk (s : State) (p : Nat) (m : ModAddr) : Bool :=
  let axis := s.axisOfPair (p / 2)
  let n := s.axisSize axis
  let me := State.coordAt s.fabric.coord axis
  ([1, 2, 3, 4] : List Nat).any (fun k => State.coordAt m axis == (if p % 2 = 0 then (me + k) % n else (me + 4 * n - k) % n)) &&
    ([0, 1, 2, 3] : List Nat).all fun i => i == axis || State.coordAt m i == State.coordAt s.fabric.coord i

/-- Good lanes: those not failed, a recalibrating one among them (R249, R250). -/
def Port.soundLanes (x : Port) (p : Nat) : Nat := ((List.range (portLanes p)).filter fun i => x.laneState i != 2).length

/-- Good lanes carrying traffic, and spare lanes free. -/
def Port.goodLanes (x : Port) (p : Nat) : Nat := ((List.range (portLanes p)).filter fun i => x.laneState i == 0).length
def Port.spares (x : Port) (p : Nat) : Nat := ((List.range (portLanes p)).filter fun i => x.laneState i == 1).length

/-- Frame numbering and credits start afresh with a neighbour that is not the last one: the unacknowledged frames go first of all that waits, and
spend its credits (R255, R256). -/
def Port.meet (x : Port) (m : ModAddr) : Port :=
  if x.neighbour = m then { x with nacked := false }
  else
    { x with neighbour := m, waiting := (x.replay.map fun f => { frame := f, source := none }) ++ x.waiting, replay := []
             nextSeq := 0, expect := 0, nacked := false, credit := [], shared := [], pool := [], owed := [], owedShared := [] }

/-- The bypass of an axis drains from this moment: its ports return no more credits (R264). -/
def State.drainAxis (s : State) (k : Nat) : State :=
  let hold (x : Port) : Port := if x.draining then x else { x with draining := true, drainAt := s.clock }
  (s.modPort (2 * k) hold).modPort (2 * k + 1) hold

/-- The axis of a port with a local fault, or a failed self-test, closes its bypass after the drain (R263). -/
def State.autoBypass (s : State) (p : Nat) : State :=
  let pair := p / 2
  if s.fabric.open_.getLsbD pair then
    let s := { s with fabric := { s.fabric with auto := s.fabric.auto ||| BitVec.ofNat 4 (2 ^ pair) } }
    (s.drainAxis pair).portEvent 0x33 p
  else s

/-- A port in fault: it carries no traffic. -/
def State.portFault (s : State) (p : Nat) : State := (s.modPort p fun x => { x with state := 4 }).autoBypass p

def execPortTrained (p : PortId) (neighbour : ModAddr) (s : State) : Out :=
  if (s.port p).state ≠ 1 then .next s
  else if !s.neighbourOk p neighbour then
    .next ((s.modPort p fun x => { x with state := 5, neighbour := neighbour }).portEvent 0x34 p)
  else
    let s := s.modPort p fun x =>
      let x := { x.meet neighbour with
        stripe := 0, order := (List.range (portLanes p)).filter fun i => x.laneState i == 0 }
      { x.again x.replay with state := if x.goodLanes p < portActive p then 3 else 2, episodes := 0 }
    if (s.port p).soundLanes p < portFloor p then .next (s.portFault p) else .next (s.pumpAll p)

/-- PORT_SIGNAL_LOSS: the port trains again, unless its own transmitter or receiver fails the self-test, while it trains as well (R263). -/
def execPortSignalLoss (l : SignalLoss) (s : State) : Out :=
  let x := s.port l.port
  if !x.up && x.state != 5 && x.state != 1 then .next s
  else if l.selfTestFails then .next (s.portFault l.port)
  else if x.state = 1 then .next s
  else .next ((s.modPort l.port fun x => { x with state := 1 }).portEvent 0x32 l.port)

/-! ### Lanes (R249, R250, R391) -/

/-- The first free spare lane. -/
def Port.spare (x : Port) (p : Nat) : Option Nat := (List.range (portLanes p)).find? fun i => x.laneState i == 1

/-- A place of the striping order passes from one lane to another; places that close up, or open, move those behind them, and with them the
place at which the next frame starts, so that it starts on the lane after the last one's (R248). -/
def Port.giveWay (x : Port) (lane k : Nat) : Port := { x with order := x.order.map fun i => if i = lane then k else i }
def Port.leave (x : Port) (lane : Nat) : Port :=
  { x with order := x.order.filter (· != lane)
           stripe := if x.order.idxOf lane < x.stripe then x.stripe - 1 else x.stripe
           recal := x.recal.map fun r => { r with place := r.place.map fun i => if x.order.idxOf lane < i then i - 1 else i } }
def Port.insertAt (x : Port) (place lane : Nat) : Port :=
  { x with order := x.order.take place ++ lane :: x.order.drop place
           stripe := if place < x.stripe then x.stripe + 1 else x.stripe }

/-- A lane's place in the order moves to a spare lane. -/
def Port.standFor (x : Port) (lane k : Nat) : Port := { x.giveWay lane k with lanes := tset x.lanes k 0 }

/-- An active lane fails: its place moves to a spare, or the port runs on the lanes that remain (R249). -/
def State.loseActive (s : State) (p lane : Nat) : State :=
  let x := s.port p
  let stood := x.recal.any fun r => r.standIn == some lane
  match x.spare p with
  | some k =>
    (s.modPort p fun y =>
      { y.standFor lane k with recal := if stood then y.recal.map fun r => { r with standIn := some k } else y.recal }).portEvent 0x30 p
  | none =>
    let place := x.order.idxOf lane
    let s := s.modPort p fun y =>
      let z := y.leave lane
      { z with recal := if stood then z.recal.map fun r => { r with standIn := none, place := some place } else z.recal
               state := if y.state = 2 then 3 else y.state }
    let s := s.portEvent 0x31 p
    if (s.port p).soundLanes p < portFloor p then s.portFault p else s

/-- A recalibrating lane fails: the spare in its place keeps it; without one, its place is lost, or a spare takes it. -/
def State.loseRecal (s : State) (p : Nat) (r : Recal) : State :=
  let s := s.modPort p fun y => { y with recal := none }
  match r.standIn, r.place with
  | some _, _ => s.portEvent 0x30 p
  | none, none => s
  | none, some place =>
    match (s.port p).spare p with
    | some k => (s.modPort p fun y => { y.insertAt place k with lanes := tset y.lanes k 0 }).portEvent 0x30 p
    | none =>
      let s := (s.modPort p fun y => { y with state := if y.state = 2 then 3 else y.state }).portEvent 0x31 p
      if (s.port p).soundLanes p < portFloor p then s.portFault p else s

/-- A lane is failed. -/
def State.failLane (s : State) (p lane : Nat) : State :=
  let x := s.port p
  let s := s.modPort p fun y => { y with lanes := tset y.lanes lane 2, recalDue := y.recalDue.filter (· != lane), recalSince := terase y.recalSince lane }
  match x.laneState lane, x.recal with
  | 0, _ => s.loseActive p lane
  | 3, some r => s.loseRecal p r
  | _, _ => s

/-- More than 16 of some 2^20 consecutive code words: the numbers, rising, of uncorrectable words. -/
def fecOver (bad : List Nat) : Bool :=
  (List.range (bad.length - 16)).any fun i => decide (bad.getD (i + 16) 0 - bad.getD i 0 < 2 ^ 20)

/-- A lane's FEC with n further code words, and whether the lane is over the limit. -/
def FecLane.decoded (l : FecLane) (n : Nat) (bad : List Nat) : FecLane × Bool :=
  let all := l.bad ++ bad.map (· + l.words)
  ({ words := l.words + n, bad := all.filter fun w => decide (l.words + n < w + 2 ^ 20) }, fecOver all)

/-- LANE_FAILURE: a lane reports, and is failed when it has lost lock or passed the limit of its FEC. -/
def execLaneFailure (p : PortId) (e : LaneEvent) (s : State) : Out :=
  let x := s.port p
  if portLanes p ≤ e.lane ∨ x.laneState e.lane = 2 then .next s
  else
    match e.why with
    | .lockLost => .next (s.failLane p e.lane)
    | .codeWords n corrected bad =>
      let l := (tget x.fec e.lane {}).decoded n bad
      let s := s.modPort p fun y =>
        { y with fec := tset y.fec e.lane l.1, fecCorrected := y.fecCorrected + BitVec.ofNat 64 corrected
                 fecUncorrected := sat32 y.fecUncorrected bad.length }
      if l.2 then .next (s.failLane p e.lane) else .next s

/-- A recalibration begins: a spare lane takes the lane's place, or the port runs on one lane fewer; a spare lane has no place. -/
def recalibrate (s : State) (p lane : Nat) : State :=
  s.modPort p fun x =>
    let y := { x with recalDue := x.recalDue.erase lane, recalSince := terase x.recalSince lane, lanes := tset x.lanes lane 3 }
    if x.laneState lane = 1 then { y with recal := some { lane := lane, standIn := none, place := none } }
    else
      match y.spare p with
      | some k => { y.standFor lane k with recal := some { lane := lane, standIn := some k, place := some (x.order.idxOf lane) } }
      | none => { y.leave lane with recal := some { lane := lane, standIn := none, place := some (x.order.idxOf lane) } }

/-- A lane that a recalibration may take: active or spare. -/
def Port.recalible (x : Port) (lane : Nat) : Bool := x.laneState lane == 0 || x.laneState lane == 1

def execLaneRecalibration (p : PortId) (lane : Nat) (s : State) : Out :=
  let x := s.port p
  if portLanes p ≤ lane ∨ !x.recalible lane then .next s
  else if x.recal.isNone && ((x.spare p).isSome || x.waiting.isEmpty) then .next (recalibrate s p lane)
  else .next (s.modPort p fun y => { y with recalDue := y.recalDue ++ [lane], recalSince := tset y.recalSince lane s.clock })

/-- Nanoseconds for which a lane's recalibration has been deferred. -/
def State.deferredFor (s : State) (p lane : Nat) : Nat := s.clock - tget (s.port p).recalSince lane s.clock

/-- RECAL_DEFER_EXPIRY: the deferral ends with a free spare lane, at an empty frame boundary, or after 10 ms (R391). One that says of its length what
the clock does not changes nothing. -/
def execRecalDeferExpiry (p : PortId) (atLeast1ms : Bool) (s : State) : Out :=
  let x := s.port p
  match x.recalDue with
  | [] => .next s
  | lane :: _ =>
    if x.recal.isSome then .next s
    else if !x.recalible lane then
      .next (s.modPort p fun y => { y with recalDue := y.recalDue.erase lane, recalSince := terase y.recalSince lane })
    else if atLeast1ms != decide (1000000 ≤ s.deferredFor p lane) ||
        !((x.spare p).isSome || x.waiting.isEmpty || decide (10000000 ≤ s.deferredFor p lane)) then .next s
    else
      .next (recalibrate (s.modPort p fun y => { y with recalDeferred := sat32 y.recalDeferred (if atLeast1ms then 1 else 0) }) p lane)

/-- The recalibrated lane returns to its place, and the spare that stood in for it is free again. -/
def Port.recalEnd (x : Port) (r : Recal) : Port :=
  let y := { x with recal := none }
  match r.standIn, r.place with
  | some k, _ => { y.giveWay k r.lane with lanes := tset (tset y.lanes k 1) r.lane 0 }
  | none, some place => { y.insertAt place r.lane with lanes := tset y.lanes r.lane 0 }
  | none, none => { y with lanes := tset y.lanes r.lane 1 }

def execLaneRecalEnd (p : PortId) (lane : Nat) (s : State) : Out :=
  match (s.port p).recal with
  | some r => if r.lane = lane then .next (s.modPort p fun x => x.recalEnd r) else .next s
  | none => .next s

/-! ### The bypass (R261, R264) -/

/-- The bypass of an axis closes: its ports see no light, and one in fault stays in fault. -/
def State.closeAxis (s : State) (k : Nat) : State :=
  let shut (x : Port) : Port := { x with draining := false, state := if x.state = 4 then 4 else 0 }
  let s := { s with fabric := { s.fabric with open_ := s.fabric.open_ &&& ~~~(BitVec.ofNat 4 (2 ^ k)) } }
  (s.modPort (2 * k) shut).modPort (2 * k + 1) shut

/-! ### The remote-write engines (R259) -/

/-- Address of the first line that a request names. -/
def frameAddr (f : Frame) : Nat :=
  64 * fOp f 0 35 + (match fOp f 35 2 with | 0 => 0 | 1 => 0x100000000000 | 2 => 0x200000000000 | _ => 2 ^ 47)

def frameLines (f : Frame) : Option Nat :=
  let n := f.payload.length / 64
  if f.payload.length % 64 = 0 ∧ 1 ≤ n ∧ n ≤ 8 then some n else none

/-- What becomes of each line of a write: 0 written, else the refusal status. -/
def writeRemote (p : Nat) : State → Nat → List (List Byte) → State × List Nat
  | s, _, [] => (s, [])
  | s, a, l :: r =>
    let st := if !s.permits (s.port p).regions .write a then 0x0A else if (s.liveAt a).isSome then 0x0C else 0
    let s' := if st = 0 then s.writeLine a l (2120 + p) else s
    let x := writeRemote p s' (a + 64) r
    (x.1, st :: x.2)

/-- A line of a slot that a running re-shard fills on this module is written (R276). -/
def Reshard.wrote (r : Reshard) (a : Nat) : Reshard :=
  { r with await := r.await.map fun x => if x.1 ≤ a ∧ a < x.1 + 64 * x.2.1 then (x.1, x.2.1, x.2.2 - 1) else x }

def State.slotWritten (s : State) (a : Nat) : State := if s.reshard.running then { s with reshard := s.reshard.wrote a } else s

/-- The lines of a frame that were written, from address a on: those of a collective engine's copy are noted. -/
def State.noteCopies (s : State) (f : Frame) (a : Nat) (st : List Nat) : State :=
  if 2112 ≤ f.master.toNat ∧ f.master.toNat < 2116 then
    st.zipIdx.foldl (fun s x => if x.1 = 0 then s.slotWritten (a + 64 * x.2) else s) s
  else s

/-- An answer to a request. -/
def answer (f : Frame) (type operand : Nat) (payload : List Byte := []) : Frame :=
  { dst := f.src, src := f.dst, vc := 2, type := BitVec.ofNat 5 type, master := f.master, tag := f.tag,
    operand := BitVec.ofNat 37 operand, payload := payload }

def countOf (l : List Nat) (x : Nat) : Nat := (l.filter fun y => y == x).length

/-- The unit at which a line of a run waits, if one does. -/
def State.lineWaits (s : State) (a n : Nat) : Option (Option Nat × Nat) :=
  (s.held.find? fun h => match h.op with | .line b _ _ => decide (a ≤ b ∧ b < a + 64 * n) | _ => false).map fun h => (h.core, h.course)

/-- A WRITE_ACK leaves once the lines of its frame have committed: behind those that wait for a unit in reset or migration. -/
def State.sendAck (s : State) (f : Frame) (a n : Nat) : State :=
  match s.lineWaits a n with
  | some u => { s with held := s.held ++ [{ core := u.1, course := u.2, op := .ack f a n }] }
  | none => s.sendFrame f

/-- Writes the permitted lines of a frame, acknowledges if asked, and reports the refused ones. -/
def remoteWrite (s : State) (p : Nat) (f : Frame) (acked : Bool) : State :=
  match frameLines f with
  | none => s.malformed p
  | some n =>
    let x := writeRemote p s (frameAddr f) (toLines n f.payload)
    let s := x.1.noteCopies f (frameAddr f) x.2
    let bad := countOf x.2 0x0A
    let live := countOf x.2 0x0C
    let s := if bad + live = 0 then s else s.modPort p fun y => { y with remoteRefused := sat32 y.remoteRefused (bad + live) }
    let s := if bad = 0 then s else s.sendFrame (answer f 0x07 (0x0A + bad * 2 ^ 8))
    let s := if live = 0 then s else s.sendFrame (answer f 0x07 (0x0C + live * 2 ^ 8))
    if acked && decide (0 < n - bad - live) then s.sendAck (answer f 0x03 (n - bad - live)) (frameAddr f) n else s

def execWriteFrame (p : PortId) (f : Frame) (s : State) : Out :=
  if f.type ≠ 0x01 then .next s
  else match s.takeFrame p f with
    | some s => .next (remoteWrite s p f false)
    | none => .next s

def execWriteAcked (p : PortId) (f : Frame) (s : State) : Out :=
  if f.type ≠ 0x02 then .next s
  else match s.takeFrame p f with
    | some s => .next (remoteWrite s p f true)
    | none => .next s

/-- Reads lines for a remote requester: the data, or the status that stops it. -/
def readRemote (p : Nat) : State → List Nat → State × Except Nat (List Byte)
  | s, [] => (s, .ok [])
  | s, a :: r =>
    if !s.permits (s.port p).regions .read a then
      (s.modPort p fun y => { y with remoteRefused := sat32 y.remoteRefused 1 }, .error 0x0A)
    else
      let x := s.readLine a (2120 + p)
      match x.1 with
      | none => (x.2.raiseUe a (2120 + p), .error 0x0B)
      | some l =>
        let y := readRemote p x.2 r
        (y.1, match y.2 with | .ok d => .ok (l ++ d) | .error e => .error e)

/-- Lines of a read request. -/
def requestLines (f : Frame) : List Nat := (List.range (natAt f.payload 0 8 % 8 + 1)).map fun i => frameAddr f + 64 * i

/-- Answers a read request, or holds it for a unit in reset or migration (R337, R350). -/
def State.answerRead (s : State) (p : PortId) (f : Frame) : State :=
  match (requestLines f).find? s.lineHeld with
  | some a => { s with held := s.held ++ [{ core := (heldUnit a).1, course := (heldUnit a).2, op := .read p f }] }
  | none =>
    let x := readRemote p s (requestLines f)
    match x.2 with
    | .ok d => x.1.sendFrame (answer f 0x06 0 d)
    | .error e => x.1.sendFrame (answer f 0x06 e)

def execReadReq (p : PortId) (f : Frame) (s : State) : Out :=
  if f.type ≠ 0x05 then .next s
  else
    match s.takeFrame p f with
    | none => .next s
    | some s => .next (s.answerRead p f)

/-- An increment of core c leaves: applied here, or sent as a frame. -/
def State.sendSignal (s : State) (c : Nat) (g : OutSignal) : State :=
  if g.module = s.fabric.coord then s.incFlag g.core g.flag g.amount
  else
    s.sendFrame { dst := g.module, src := s.fabric.coord, vc := BitVec.ofNat 3 g.vc, type := 0x04,
                  master := BitVec.ofNat 12 c, operand := BitVec.ofNat 37 (g.core + g.flag * 2 ^ 11),
                  payload := leBytes 8 g.amount.toNat }

/-- Two increments of a core travel on one ordered path (R55). -/
def OutSignal.samePath (a b : OutSignal) : Bool := a.module == b.module && a.core == b.core && a.vc == b.vc

/-- Before a write of core c leaves for a scratchpad of another module, the increments of its path have left (R55). -/
def State.flushRemote (s : State) (c : Nat) (m : ModAddr) (a : Nat) : State :=
  match memUnit a with
  | some (.sp k) =>
    let mine (g : OutSignal) : Bool := g.module == m && g.core == k && g.vc == 0
    let due := (s.core c).outSignals.filter mine
    if due.isEmpty then s
    else
      due.foldl (fun s g => s.sendSignal c g)
        (s.modCore c fun x => { x with outSignals := x.outSignals.filter fun g => !mine g })
  | _ => s

/-- INCREMENT: an entry of a core's outbound queue leaves, the first of its path (R55, R57), or a frame's increment is applied (R53,
R54, R259). A frame that names a flag from 480 up, which no sender's descriptor can name (R52), increments nothing (R49; log entry
58). -/
def execIncrement (src : IncSource) (s : State) : Out :=
  match src with
  | .outbound c k =>
    let l := (s.core c).outSignals
    match l[k]? with
    | none => .next s
    | some g =>
      if (l.take k).any g.samePath then .next s
      else
        let s := if g.module = s.fabric.coord && g.vc == 0 then s.flushArrivals c g.core else s
        .next ((s.modCore c fun x => { x with outSignals := l.eraseIdx k }).sendSignal c g)
  | .frame p f =>
    if f.type ≠ 0x04 then .next s
    else match s.takeFrame p f with
      | some s =>
        if 480 ≤ fOp f 11 9 then .next s
        else .next (s.incFlag (fOp f 0 11) (fOp f 11 9) (BitVec.ofNat 32 (natAt f.payload 0 4)))
      | none => .next s

end Sys2Proof.Machine
end

