-- ==== Sys2Proof/Machine/Dma.lean ====
section
/-! DEFINITION. The DMA engine of a core: its queue, its four channels, their completion queues and records (R110 to
R119). A transfer with a remote side asks for or sends one line a frame. -/

namespace Sys2Proof.Machine

/-! ### Issue (R110, R111, R117) -/

def opPerm (w : Word128) : List Nat :=
  if fBits w 35 1 = 1 then (List.range 6).map fun i => fBits w (36 + 3 * i) 3 else identityPerm

/-- The lowest bit of the first field of a permutation that breaks R111's rule. -/
def permFault (r : Nat) (p : List Nat) : Option Nat :=
  (List.range 6).findSome? fun i =>
    let v := p.getD i 0
    if i < r then (if decide (r ≤ v) || (p.take i).contains v then some (36 + 3 * i) else none)
    else ((List.range 3).find? fun k => v.testBit k).map fun k => 36 + 3 * i + k

/-- The move of a transfer; dimensions from the larger rank upward stay in their places. -/
def dmaMove (w : Word128) (src dst : Desc) : Move :=
  let r := max src.rank dst.rank
  { src := src, dst := dst, perm := (opPerm w).take r ++ identityPerm.drop r }

def State.chan (s : State) (n ch : Nat) : DmaChan := tget (s.core n).chans ch {}

def State.modChan (s : State) (n ch : Nat) (f : DmaChan → DmaChan) : State :=
  s.modCore n fun c => { c with chans := tmod c.chans ch {} f }

def undeclaredStop (s : State) (n : Nat) (w : Word128) : Option Stop :=
  let ch := fBits w 32 2
  stopIf (!(s.chan n ch).declared) (notInState w 0x02 ch)

/-- What the issue stage asks of DmaStart. -/
def dmaStartReq (s : State) (c : CoreId) (t : Stream) (w : Word128) : IssueReq :=
  let x := (s.core c).ctx t
  let src := x.d (fA w)
  let dst := x.d (fDst w)
  let m := dmaMove w src dst
  let permuting := fBits w 35 1 == 1
  let permStop : Option Stop :=
    if permuting then
      (permFault (max src.rank dst.rank) (opPerm w)).map fun b => { reason := 0x02, info := fOpcode w + b * 2 ^ 8 }
    else none
  { form := ⟨0xC0, 4, mDst + mA + mField 32 4 + (if permuting then mField 36 18 else 0) + mImm⟩
    needs := [needA w, needDst w]
    late := firstStop
      [undeclaredStop s c w, writeStop w (fDst w) dst, permStop, moveStop w m permuting (fDst w) (fA w)] }

def execDmaStart (c : CoreId) (t : Stream) (w : Word128) (s : State) : Out :=
  s.issueEngine c t w .dma (dmaStartReq s c t w)
    [fA w, fDst w]

/-- What the issue stage asks of DmaStop. -/
def dmaStopReq (s : State) (c : CoreId) (_ : Stream) (w : Word128) : IssueReq :=
  { form := ⟨0xC1, 4, mField 32 2⟩, late := undeclaredStop s c w }

def execDmaStop (c : CoreId) (t : Stream) (w : Word128) (s : State) : Out :=
  s.issueEngine c t w .dma (dmaStopReq s c t w) []

/-- The head of the engine queue moves into its channel's queue, or stops the channel (R115, R119). -/
def execDmaQueueAdmit (c : CoreId) (s : State) : Out :=
  match (s.core c).dma with
  | [] => .next s
  | o :: r =>
    let ch := opChan o
    let x := s.chan c ch
    let s' := s.modCore c fun k => { k with dma := r }
    if opCode o.w = 0xC1 then
      let s' := s'.modChan c ch fun y => { y with queue := [], stops := y.stops ++ [{ cause := some o, next := y.queue.head? }] }
      .next (s'.completeSignal c .dma o.sig none)
    else if x.queue.length < Config.channelDepth then .next (s'.modChan c ch fun y => { y with queue := y.queue ++ [o] })
    else .next s

/-! ### Completion queues (R116, R117) -/

/-- Fewer than 2^n records wait for the program; a release flag at or beyond w counts as an empty queue. -/
def State.cqSlot (s : State) (n ch : Nat) : Bool :=
  let x := s.chan n ch
  let f := (s.core n).flag x.release
  flagGe f x.records || decide ((x.records - f).toNat < 2 ^ x.log2)

/-- What a completion record says beyond its channel and time. -/
structure RecordBody where
  status : Nat
  op : Option EngOp                  -- the instruction whose stream and pc it names
  tag : Nat := 0
  lines : Nat := 0
  addr : Nat := 0
  next : Option EngOp := none
  cycles : Nat := 0
  deriving DecidableEq, Repr

/-- The 64 bytes of Table 05-6. -/
def recordBytes (ch phase now : Nat) (b : RecordBody) : List Byte :=
  let pc (o : Option EngOp) : List Byte :=
    match o with | some o => leBytes 4 o.index.toNat ++ [o.region] | none => leBytes 5 0
  let stream (o : Option EngOp) (d : Nat) : Nat := match o with | some o => o.stream.toNat | none => d
  let barrier := match b.op with | some o => if opCode o.w = 0xC0 then bits o.w.toNat 34 1 else 0 | none => 0
  [BitVec.ofNat 8 (phase * 128 + ch), BitVec.ofNat 8 b.status, BitVec.ofNat 8 (stream b.op 3),
   BitVec.ofNat 8 (barrier + (if b.next.isSome then 2 else 0))] ++
    leBytes 4 b.tag ++ leBytes 8 b.lines ++ leBytes 6 b.addr ++ pc b.op ++ leBytes 5 0 ++
    leBytes 4 (match b.next with | some o => fImm o.w | none => 0) ++ pc b.next ++
    [BitVec.ofNat 8 (stream b.next 0)] ++ leBytes 6 0 ++ leBytes 8 now ++ leBytes 8 b.cycles

/-- Writes a record at entry w mod 2^n and increments flag 480 + channel. -/
def State.putRecord (s : State) (n ch : Nat) (b : RecordBody) : State :=
  let x := s.chan n ch
  let w := x.records.toNat
  let bytes := recordBytes ch ((w / 2 ^ x.log2 % 2 + 1) % 2) s.timebase b
  let s := s.writeLine (x.cqBase + 64 * (w % 2 ^ x.log2)) bytes n
  (s.modChan n ch fun y => { y with records := y.records + 1 }).incFlag n (480 + ch) 1

/-! ### Moving lines (R109, R118, R241) -/

/-- What ends a transfer early: status, address, whether the fault is this core's own, and whether a write met it. -/
structure MoveFault where
  status : Byte
  addr : Nat
  own : Bool := false
  write : Bool := false
  deriving DecidableEq, Repr

/-- Reads a local source line. -/
def dmaRead (s : State) (n a : Nat) : State × Except MoveFault (List Byte) :=
  if !s.permits (s.core n).regions .read a then (s, .error ⟨0x0A, a, true, false⟩)
  else
    let r := s.readLine a n
    match r.1 with
    | some d => (r.2, .ok d)
    | none => (r.2.raiseUe a n, .error ⟨0x0B, a, false, false⟩)

/-- Reads the local source lines that are not yet at hand: each line of a block once, one that overlapping strides reach twice as well
(DESIGN CHOICE: log entry 21). -/
def dmaGather (n : Nat) : State → Tab (List Byte) → List Nat → State × Except MoveFault (Tab (List Byte))
  | s, c, [] => (s, .ok c)
  | s, c, a :: r =>
    if thas c a then dmaGather n s c r
    else
      match dmaRead s n a with
      | (s, .ok d) => dmaGather n s (tset c a d) r
      | (s, .error e) => (s, .error e)

/-- A source line of a remote transfer that has not come. -/
def missing (c : Tab (List Byte)) (l : List Nat) : Bool := l.any fun a => !thas c a

/-- Writes the destination lines of a block, counting them. -/
def dmaWrites (n : Nat) (m : Move) (c : Tab (List Byte)) : State → Nat → List (Nat × List Nat × Nat) → State × Nat × Option MoveFault
  | s, k, [] => (s, k, none)
  | s, k, (a, idx, i) :: r =>
    if !s.permits (s.core n).regions .write a then (s, k, some ⟨0x0A, a, true, true⟩)
    else dmaWrites n m c (s.writeLine a (m.line (fun x => tget c x zeroLine) idx i) n) (k + 1) r

/-- Moves blocks in order: the source lines of a block, then its destination lines; a line whose remote source has not come ends
the copy. -/
def dmaCopy (n : Nat) (m : Move) : State → Tab (List Byte) → Nat → List (List (Nat × List Nat × Nat)) →
    State × Nat × Option MoveFault
  | s, _, k, [] => (s, k, none)
  | s, c, k, b :: r =>
    let got : State × Except MoveFault (Tab (List Byte)) :=
      if m.src.remote then (s, .ok c) else dmaGather n s c (m.blockSources b)
    match got with
    | (s, .error e) => (s, k, some e)
    | (s, .ok c) =>
      if m.src.remote && missing c (m.blockSources b) then (s, k, none)
      else
        match dmaWrites n m c s k b with
        | (s, k, some e) => (s, k, some e)
        | (s, k, none) => dmaCopy n m s c k r

/-- A local transfer, or the writes of one whose source is remote. A plain one whose footprints share lines reads its
whole source first, and each line again as it copies it (R113). -/
def dmaLocal (s : State) (n : Nat) (m : Move) (got : Tab (List Byte)) : State × Nat × Option MoveFault :=
  if !m.src.remote && (sharedLine m.src m.dst).isSome then
    let all := m.lines.flatMap fun x => m.sources x.2.1 x.2.2
    match dmaGather n s [] all with
    | (s, .error e) => (s, 0, some e)
    | (s, .ok _) =>
      match dmaGather n s [] all with
      | (s, .error e) => (s, 0, some e)
      | (s, .ok c) => dmaCopy n m s c 0 m.blocks
  else dmaCopy n m s got 0 m.blocks

/-! ### Remote lines (R111, R259) -/

/-- Class and line offset of an address in a request (Table 12-3). -/
def addrOperand (a : Nat) : Nat :=
  match memUnit a with
  | some (.ul _) => 2 ^ 35 + (a - 0x100000000000) / 64
  | some (.sp _) => 2 * 2 ^ 35 + (a - 0x200000000000) / 64
  | _ => a / 64

/-- The first free tag of a master. -/
def State.freeTag (s : State) (master : Nat) : Option Nat :=
  (List.range 64).find? fun k => !s.fabric.outstanding.any fun o => o.master.toNat == master && o.tag.toNat == k

def State.outAdd (s : State) (o : Outstanding) : State :=
  { s with fabric := { s.fabric with outstanding := s.fabric.outstanding ++ [o] } }

def Xfer.fail (x : Xfer) (e : MoveFault) : Xfer :=
  if x.status ≠ 0 then { x with todo := [] }
  else { x with status := e.status, addr := e.addr, own := e.own, write := e.write, todo := [] }

def State.modXfer (s : State) (n ch : Nat) (f : Xfer → Xfer) : State :=
  s.modChan n ch fun y => { y with cur := y.cur.map f }

/-- The source lines of the block that a destination line belongs to. -/
def Move.sourcesWith (m : Move) (y : Nat × List Nat × Nat) : List Nat := m.blockSources ((m.blocks.find? fun b => b.contains y).getD [y])

/-- The next line that a transfer to another module sends waits: a source line of it is held at its course's entry (R350). -/
def State.sendHeld (s : State) (n : Nat) (m : Move) (k : Nat) : Bool :=
  match m.blocks.flatten[k]? with
  | some y => (m.sourcesWith y).any (s.readHeld n)
  | none => false

/-- A local transfer waits: a source line of it is held at its course's entry (R350). -/
def State.moveHeld (s : State) (n : Nat) (m : Move) : Bool :=
  !m.src.remote && (m.lines.flatMap fun x => m.sources x.2.1 x.2.2).any (s.readHeld n)

/-- The next line that a transfer to another module sends: the sources of its block are at hand or read now (R109, R114). -/
def dmaNext (s : State) (n : Nat) (m : Move) (x : Xfer) (k : Nat) :
    State × Except MoveFault (Tab (List Byte) × Nat × List Byte) :=
  match m.blocks.flatten[k]? with
  | none => (s, .error ⟨0, 0, false, false⟩)
  | some y =>
    match dmaGather n s x.got (m.sourcesWith y) with
    | (s, .error e) => (s, .error e)
    | (s, .ok c) => (s, .ok (c, y.1, m.line (fun a => tget c a zeroLine) y.2.1 y.2.2))

/-- Asks for, or sends, the next remote lines while the core has tags. `todo` holds source addresses of a remote source
and places in the list of destination lines for a remote destination. -/
def dmaSend (n ch : Nat) (m : Move) : Nat → State → State
  | 0, s => s
  | fuel + 1, s =>
    match (s.chan n ch).cur, s.freeTag n with
    | some x, some tag =>
      match x.todo with
      | [] => s
      | k :: r =>
        if !m.src.remote && s.sendHeld n m k then s
        else
        let s := s.modXfer n ch fun x => { x with todo := r }
        let ask (s : State) (addr : Nat) (f : Frame) (module : ModAddr) (read : Bool) : State :=
          ((s.modXfer n ch fun x => { x with pending := x.pending + 1 }).outAdd
            { master := BitVec.ofNat 12 n, tag := BitVec.ofNat 6 tag, module := module, read := read, core := n, chan := ch,
              addr := addr, lines := 1 }).sendFrame f
        if m.src.remote then
          dmaSend n ch m fuel (ask s k
            { dst := m.src.module, src := s.fabric.coord, vc := 1, type := 0x05, master := BitVec.ofNat 12 n,
              tag := BitVec.ofNat 6 tag, operand := BitVec.ofNat 37 (addrOperand k), payload := leBytes 8 0 } m.src.module true)
        else
          match dmaNext s n m x k with
          | (s, .error e) => s.modXfer n ch fun x => x.fail e
          | (s, .ok (c, a, l)) =>
            let s := (s.flushRemote n m.dst.module a).modXfer n ch fun x => { x with got := c, sent := x.sent + 1 }
            dmaSend n ch m fuel (ask s a
              { dst := m.dst.module, src := s.fabric.coord, vc := 0, type := 0x02, master := BitVec.ofNat 12 n,
                tag := BitVec.ofNat 6 tag, operand := BitVec.ofNat 37 (addrOperand a), payload := l } m.dst.module false)
    | _, _ => s

/-! ### The end of a transfer (R116, R118) -/

/-- The data signal of a transfer that ended OK. An arrival signal for a scratchpad of another module follows the last
write on its path (R26, R55). -/
def State.dmaSignal (s : State) (n : Nat) (o : EngOp) : State :=
  if o.sig.en && o.sig.when_ == 2 && o.dst.remote then
    match memUnit o.dst.base with
    | some (.sp k) =>
      (s.flushRemote n o.dst.module o.dst.base).sendSignal n
        { module := o.dst.module, core := k, flag := o.sig.flag, vc := 0, amount := o.sig.amount }
    | _ => s.completeSignal n .dma o.sig (some o.dst)
  else s.completeSignal n .dma o.sig (some o.dst)

/-- The signal of a transfer to another module: as its last line leaves, or once every line is acknowledged, whatever its record
waits for (R26, R116). -/
def State.dmaSettle (s : State) (n ch : Nat) : State :=
  match (s.chan n ch).cur with
  | some x =>
    if x.op.dst.remote && x.status == 0 && !x.signalled && x.todo.isEmpty &&
        (x.op.sig.when_ == 1 || (x.op.sig.when_ == 2 && x.pending == 0)) then
      (s.modXfer n ch fun x => { x with signalled := true }).dmaSignal n x.op
    else s
  | none => s

/-- Remote lines go on. A core has 64 tags, so one call sends at most 64 lines. -/
def State.dmaGoOn (s : State) (n ch : Nat) : State :=
  match (s.chan n ch).cur with
  | some x => (dmaSend n ch (dmaMove x.op.w x.op.a x.op.dst) 65 s).dmaSettle n ch
  | none => s

/-- The halt that a fault of this core's own makes. -/
def xferStop (o : EngOp) (x : Xfer) (s : State) : Stop :=
  if x.status = 0x07 then { reason := 0x07, info := fDst o.w + fA o.w * 2 ^ 8 }
  else if x.status = 0x0C then codeLive x.addr ((s.liveAt x.addr).getD 0)
  else denied (if x.write then .write else .read) x.addr

/-- The requests of a channel's transfer no longer belong to it: they belong to a late signal, or to nothing. -/
def State.detach (s : State) (n ch to_ : Nat) : State :=
  { s with fabric := { s.fabric with outstanding := s.fabric.outstanding.map fun (u : Outstanding) =>
      if u.core = n ∧ u.chan = ch ∧ u.master.toNat = n then { u with chan := to_ } else u } }

/-- The signal of a transfer whose record goes ahead of the acknowledgements still due. -/
def State.deferSignal (s : State) (n ch : Nat) (x : Xfer) : State :=
  let id := (s.core n).late.foldl (fun i l => max i (l.id + 1)) 0
  (s.modCore n fun c => { c with late := c.late ++ [{ id := id, op := x.op, pending := x.pending }] }).detach n ch (16 + id)

/-- The transfer on a channel ends: its record, then its signal, its halt or its DMA_FAULT event. -/
def State.dmaFinish (s : State) (n ch : Nat) : State :=
  match (s.chan n ch).cur with
  | none => s
  | some x =>
    let o := x.op
    let now := (s.slope (slopeOf (courseOf n))).arithCycles.toNat
    let s := s.putRecord n ch
      { status := x.status.toNat, op := some o, tag := fImm o.w, lines := x.lines,
        addr := if x.status = 0 then 0 else x.addr, cycles := now - x.began }
    let s := s.modChan n ch fun y => { y with cur := none }
    if x.status = 0 then
      if x.signalled then s.detach n ch 4
      else if o.dst.remote && o.sig.en && o.sig.when_ == 2 && x.pending != 0 then s.deferSignal n ch x
      else (s.detach n ch 4).dmaSignal n o
    else if x.own then (s.detach n ch 4).haltOp n 4 o (xferStop o x s)
    else (s.detach n ch 4).raise 0x11 3 n []

/-- A line of a late signal's transfer is acknowledged; the last one sends it. -/
def State.lateAnswered (s : State) (n id : Nat) : State :=
  match (s.core n).late.find? fun l => l.id == id with
  | none => s
  | some l =>
    if l.pending ≤ 1 then (s.modCore n fun c => { c with late := c.late.filter fun x => x.id != id }).dmaSignal n l.op
    else s.modCore n fun c => { c with late := c.late.map fun x => if x.id = id then { x with pending := x.pending - 1 } else x }

/-- A line of it is refused or lost: the signal is not sent. -/
def State.lateFails (s : State) (n id : Nat) : State :=
  s.modCore n fun c => { c with late := c.late.filter fun x => x.id != id }

/-- A channel begins the transfer at the head of its queue (R113, R115). -/
def execTransferBegin (c : CoreId) (ch : ChanId) (s : State) : Out :=
  let n : Nat := c
  let k : Nat := ch
  let x := s.chan n k
  match x.queue with
  | [] => .next s
  | o :: r =>
    if x.cur.isSome || !x.stops.isEmpty || !s.cqSlot n k then .next s
    else
      let m := dmaMove o.w o.a o.dst
      let run : Xfer := { op := o, began := (s.slope (slopeOf (courseOf n))).arithCycles.toNat }
      let start (x : Xfer) : State := s.modChan n k fun y => { y with queue := r, cur := some x }
      match m.beginStop s (fBits o.w 35 1 == 1) (fDst o.w) (fA o.w) with
      | some (st, a) => .next ((start { run with status := BitVec.ofNat 8 st.reason, own := true, addr := a }).dmaFinish n k)
      | none =>
        let todo :=
          if m.src.remote then (m.lines.flatMap fun x => m.sources x.2.1 x.2.2).dedup
          else if m.dst.remote then List.range m.blocks.flatten.length
          else []
        .next ((start { run with todo := todo }).dmaGoOn n k)

/-- A transfer ends and writes its completion record, unless a local source line of it is held (R350): with barrier 1 once every line is
acknowledged, with barrier 0 once the last one has left. Its own signal goes by itself (R116). -/
def execCompletionRecord (c : CoreId) (ch : ChanId) (s : State) : Out :=
  let n : Nat := c
  let k : Nat := ch
  match (s.chan n k).cur with
  | none => .next s
  | some x =>
    let o := x.op
    let waits := o.a.remote || fBits o.w 34 1 == 1
    if !x.todo.isEmpty || (waits && x.pending != 0) then .next s
    else if o.dst.remote then
      .next ((s.modXfer n k fun y => { y with lines := if waits then y.lines else y.sent - y.refused }).dmaFinish n k)
    else if s.moveHeld n (dmaMove o.w o.a o.dst) then .next s
    else
      let r := dmaLocal s n (dmaMove o.w o.a o.dst) x.got
      let s := r.1.modXfer n k fun y =>
        let y := { y with lines := r.2.1 }
        match r.2.2 with | some e => y.fail e | none => y
      .next (s.dmaFinish n k)

/-- A stopped channel writes its STOPPED record (R119). -/
def execStoppedRecord (c : CoreId) (ch : ChanId) (s : State) : Out :=
  let n : Nat := c
  let k : Nat := ch
  let x := s.chan n k
  match x.stops with
  | [] => .next s
  | st :: r =>
    if x.cur.isSome || !s.cqSlot n k then .next s
    else
      .next ((s.modChan n k fun y => { y with stops := r }).putRecord n k { status := 0x80, op := st.cause, next := st.next })

end Sys2Proof.Machine
end

