-- ==== Sys2Proof/Machine/Valley.lean ====
section
/-! DEFINITION. The Valley engines (R167 to R182): dispatch, landing, placement, return and combine of expert rows, epochs
and cancellation. -/

namespace Sys2Proof.Machine

/-! ### Layers, groups and experts (R167, R168) -/

def immTag (w : Word128) : BitVec 16 := BitVec.ofNat 16 (fBits w 0 16)
def immLayer (w : Word128) : Nat := fBits w 16 8
def immBack (w : Word128) : Bool := fBits w 24 1 == 1
def blockOf (tag : BitVec 16) : Nat := tag.toNat / 256

/-- An expert-table entry from its 16 bytes (Table 08-2). -/
def Expert.ofBytes (l : List Byte) : Expert :=
  let n (i k : Nat) : Nat := natAt l i k
  { module := BitVec.ofNat 24 (bits (n 0 4) 0 24), course := bits (n 4 1) 0 6, slot := n 5 1, owner := bits (n 6 1) 0 5,
    valid := (n 7 1).testBit 0, capacity := n 8 4, overflow := n 12 4,
    reservedClear := n 3 1 == 0 && decide (n 4 1 < 64) && decide (n 6 1 < 32) && decide (n 7 1 < 2) }

/-- An entry of an image's expert table. -/
def expertAt (b : ImageBodies) (k : Nat) : Option Expert := (tfind b.experts k).map Expert.ofBytes

def layerMembers (s : State) (l : Layer) : List (ModAddr × Nat) := tget s.image.bodies.groups l.group []

/-- The experts of a layer with their layer-local indices. -/
def layerTable (s : State) (l : Layer) : List (Nat × Expert) :=
  (List.range l.experts).filterMap fun e => (expertAt s.image.bodies (l.expertBase + e)).map fun x => (e, x)

def layerExpert (s : State) (l : Layer) (e : Nat) : Option Expert :=
  if e < l.experts then expertAt s.image.bodies (l.expertBase + e) else none

/-- Insertion that keeps a list ascending and without repeats. -/
def insertNat (k : Nat) : List Nat → List Nat
  | [] => [k]
  | j :: r => if k < j then k :: j :: r else if k = j then j :: r else j :: insertNat k r

def sortNats (l : List Nat) : List Nat := l.foldl (fun a k => insertNat k a) []

/-- Member modules of the layer's dispatch group, ascending. -/
def layerModules (s : State) (l : Layer) : List ModAddr :=
  let own := (layerMembers s l).map fun x => x.1.toNat
  let named := (s.image.bodies.layers.filter fun x => x.2.group == l.group).flatMap fun x => (layerTable s x.2).map fun e => e.2.module.toNat
  (sortNats (own ++ named)).map fun k => BitVec.ofNat 24 k

def layerSender (s : State) (l : Layer) (n : Nat) : Option Nat := (layerMembers s l).findIdx? fun x => x.1 == s.fabric.coord && x.2 == n

/-- Courses of this module that hold experts of the layer. -/
def layerCourses (s : State) (l : Layer) : List Nat :=
  sortNats (((layerTable s l).filter fun e => e.2.module == s.fabric.coord).map fun e => e.2.course)

/-- The experts of the layer in a course of this module, with their slots. -/
def layerSlots (s : State) (l : Layer) (c : Nat) : List Expert :=
  ((layerTable s l).map (·.2)).filter fun x => x.module == s.fabric.coord && x.course == c

/-- Every module and course that holds experts of the layer (R177). -/
def layerSources (s : State) (l : Layer) : List (ModAddr × Nat) := ((layerTable s l).map fun e => (e.2.module, e.2.course)).dedup

def State.modVal (s : State) (c : Nat) (f : Valley → Valley) : State := s.modCourse c fun x => { x with valley := f x.valley }
def State.valley (s : State) (c : Nat) : Valley := (s.course c).valley

/-! ### Messages (Tables 08-6, 08-7) -/

def rowBytes (r : ValRow) : List Byte :=
  leBytes 2 r.tag.toNat ++ [r.epoch] ++ leBytes 1 r.layer ++ leBytes 2 r.bitmap.toNat ++
    leBytes 1 (if r.backward then 1 else 0) ++ leBytes 1 r.count ++ leBytes 4 r.token ++ leBytes 2 r.sender ++ leBytes 2 0 ++
    (List.range 16).flatMap (fun i => leBytes 2 (r.ids.getD i 0xFFFF).toNat) ++ leBytes 16 0 ++
    (List.range 16).flatMap (fun i => leBytes 4 (r.gates.getD i 0).toNat) ++ r.data

def countBytes (h : CountHdr) : List Byte :=
  leBytes 8 (h.tag.toNat + h.epoch.toNat * 2 ^ 16 + h.layer % 256 * 2 ^ 24 + h.sender % 65536 * 2 ^ 32 + h.rows % 32768 * 2 ^ 48 +
    (if h.backward then 2 ^ 63 else 0))

/-- A returned row behind its one-line header; the manual names the header's fields and gives them no places. -/
def retBytes (r : RetRow) : List Byte :=
  bytesAt (leBytes 2 r.tag.toNat ++ [r.epoch] ++ leBytes 1 r.layer ++ leBytes 1 (if r.backward then 1 else 0) ++ leBytes 1 r.pos ++
    leBytes 2 r.sender ++ leBytes 4 r.token) 0 64 ++ r.data

/-- Type, virtual channel, destination course and payload of a message. -/
def ValMsg.wire : ValMsg → Nat × Nat × Nat × List Byte
  | .row c r => (0x08, 4, c, rowBytes r)
  | .count c h => (0x09, 4, c, countBytes h)
  | .cancel c b e => (0x0A, 4, c, leBytes 8 (b + e * 256))
  | .back c r => (0x0B, 5, c, retBytes r)
  | .backCount c h _ _ => (0x0C, 5, c, countBytes h)
  | .notice c _ _ _ => (0, 4, c, [])

/-- Frames of at most eight lines; a row's line index counts within its transfer. -/
def valFrames (module : ModAddr) (c txn line : Nat) (m : ValMsg) : List Frame :=
  let x := m.wire
  (List.range (max 1 ((x.2.2.2.length + 511) / 512))).map fun i =>
    { dst := module, src := 0, vc := BitVec.ofNat 3 x.2.1, type := BitVec.ofNat 5 x.1, master := BitVec.ofNat 12 (2048 + c),
      tag := BitVec.ofNat 6 txn, operand := BitVec.ofNat 37 (x.2.2.1 + (line + 8 * i) * 64),
      payload := (x.2.2.2.drop (512 * i)).take 512 }

/-- Sends a message of core n to a module: on the module's own path, or as frames of its course. -/
def State.sendVal (s : State) (n : Nat) (module : ModAddr) (txn line : Nat) (m : ValMsg) : State :=
  if module = s.fabric.coord then { s with valPath := s.valPath ++ [{ source := n, msg := m }] }
  else (valFrames module (courseOf n) txn line m).foldl (fun s f => s.sendFrame f) s

/-- Messages of one key travel one ordered path of this module: what a core dispatches or cancels to a course, what a course
returns to another, and notices (R172, R175, R176, R180). -/
def ValTransit.path (x : ValTransit) : Nat × Nat × Nat :=
  match x.msg with
  | .row c _ | .count c _ | .cancel c _ _ => (0, c, x.source)
  | .back c _ | .backCount c _ _ _ => (1, c, courseOf x.source)
  | .notice c _ _ _ => (2, c, x.source)

/-- The frames of one source that carry the payload, from the front of its frames of this type and course. -/
def payloadFrames (bytes : List Byte) : List Frame → Option (List Frame)
  | [] => if bytes.isEmpty then some [] else none
  | f :: r =>
    if bytes.isEmpty then some []
    else if f.payload = bytes.take f.payload.length ∧ !f.payload.isEmpty then
      (payloadFrames (bytes.drop f.payload.length) r).map fun l => f :: l
    else none

def takeFrames (p : Nat) : State → List Frame → Option State
  | s, [] => some s
  | s, f :: r => (s.takeFrame p f).bind fun s => takeFrames p s r

/-- No earlier message stands on the path of the i-th. -/
def firstOfPath (l : List ValTransit) (i : Nat) : Bool :=
  match l[i]? with | some x => !(l.take i).any fun y => y.path == x.path | none => false

/-- Takes a message off its path or its frames out of a port's inbox; none when an earlier one of its path waits. A
message that is in neither place is taken as it is presented. -/
def State.takeVal (s : State) (m : ValMsg) : Option State :=
  if s.valPath.any fun x => x.msg == m then
    ((List.range s.valPath.length).find? fun i => ((s.valPath[i]?).map (·.msg)) == some m && firstOfPath s.valPath i).map fun i =>
      { s with valPath := s.valPath.eraseIdx i }
  else
    let x := m.wire
    let found := (List.range 8).findSome? fun p =>
      let own := (s.port p).inbox.filter fun f => f.type.toNat == x.1 && fOp f 0 6 == x.2.2.1 &&
        (match m with | .backCount _ _ mo k => f.src == mo && f.master.toNat == 2048 + k | _ => true)
      ((own.map (·.src)).dedup.findSome? fun m' => payloadFrames x.2.2.2 (own.filter fun f => f.src == m')).map fun l => (p, l)
    match found with
    | some (p, l) => takeFrames p s l
    | none => some s

/-! ### Epochs and cancellation (R179 to R181) -/

/-- The effects of a cancellation of a block at a course's engine, whose epoch becomes e. -/
def State.cancelBlock (s : State) (c block : Nat) (e : Byte) : State :=
  let hit (tag : BitVec 16) : Bool := blockOf tag == block
  let s := s.modVal c fun v =>
    { v with epochs := tset v.epochs block e
             summarised := v.summarised.filter fun b => b != block
             sets := v.sets.filter fun (x : ValSet) => !hit x.tag
             counts := v.counts.filter fun (x : CountRec) => !hit x.tag
             homes := v.homes.filter fun (x : HomeRec) => !hit x.tag
             forward := v.forward.filter fun x => !hit x.2.2.1
             absent := v.absent.filter fun x => !hit x.2.1 }
  { s with valPath := s.valPath.filter fun m => match m.msg with | .notice k _ tag _ => !(k == c && hit tag) | _ => true }

/-- A stale frame: counted, and summed up once for each change of the block's epoch. -/
def State.staleDrop (s : State) (c block : Nat) : State :=
  let v := s.valley c
  let s := s.modVal c fun v => { v with staleReturn := sat32 v.staleReturn 1 }
  if v.summarised.contains block then s
  else
    (s.modVal c fun v => { v with summarised := block :: v.summarised }).raise 0x14 2 c
      [(1, block), (1, (tget v.epochs block 0).toNat), (1, v.jobEpoch.toNat)]

/-- The rule of R179 for a frame of a tag at an engine: the state, and whether the frame is accepted. -/
def State.epochRule (s : State) (c : Nat) (tag : BitVec 16) (e : Byte) : State × Bool :=
  let cur := tget (s.valley c).epochs (blockOf tag) 0
  let d := (cur - e).toNat
  if d = 0 then (s, true)
  else if d ≤ 127 then (s.staleDrop c (blockOf tag), false)
  else (s.cancelBlock c (blockOf tag) e, true)

/-! ### Reading and writing (R182, R244) -/

def State.valFault (s : State) (c addr cause : Nat) : State :=
  (s.modVal c fun v => { v with ueDrop := sat32 v.ueDrop 1 }).raise 0x16 2 c [(8, addr), (1, cause)]

/-- Lines of an operand of core n; an uncorrectable line delivers nothing and is its address. -/
def valLines (n : Nat) : List Nat → Work (Except Nat (List Byte))
  | [] => pure (.ok [])
  | a :: r => do
    let s ← get
    if !s.permits (s.core n).regions .read a then stopWith (denied .read a)
    else if s.lineHeld a then stopWith heldRead
    else
      let x := s.readLine a (2048 + courseOf n)
      match x.1 with
      | none => do
        set (x.2.raiseUe a (2048 + courseOf n))
        pure (.error a)
      | some l => do
        set x.2
        match ← valLines n r with
        | .ok t => pure (.ok (l ++ t))
        | .error e => pure (.error e)

/-- Codes of the row at an outer index, or the address that failed. -/
def valCodes (n : Nat) (d : Desc) (idx : List Nat) : Work (Except Nat (List Nat)) := do
  match ← valLines n (dRowLines d idx) with
  | .error a => pure (.error a)
  | .ok l =>
    match dFmt d with
    | some f => pure (.ok ((rowElems f d.scale (dSize d 0) l).map (·.1)))
    | none => pure (.ok [])

/-- Code of element t of a 32-bit row, from the one line that holds it. -/
def valElem (n : Nat) (d : Desc) (t : Nat) : Work (Except Nat Nat) := do
  match ← valLines n [dRow d [] + 64 * (t / 16)] with
  | .error a => pure (.error a)
  | .ok l => pure (.ok (natAt l (4 * (t % 16)) 4))

/-- The first line of a row that an engine may not write, and why. -/
def State.valRefusal (s : State) (c a lines : Nat) : Option (Nat × Nat) :=
  (List.range lines).findSome? fun i =>
    let x := a + 64 * i
    if !s.permits (s.course c).valRegions .write x then some (x, 0x0A)
    else if (s.liveAt x).isSome then some (x, 0x0C)
    else none

def putLines (master : Nat) : Nat → State → Nat → List Byte → State
  | 0, s, _, _ => s
  | k + 1, s, a, l => putLines master k (s.writeLine a (bytesAt l 0 64) master) (a + 64) (l.drop 64)

/-- Writes a row whole, or drops it. -/
def State.valPut (s : State) (c a lines : Nat) (data : List Byte) : State × Bool :=
  match s.valRefusal c a lines with
  | some (x, cause) => (s.valFault c x cause, false)
  | none => (putLines (2048 + c) lines s a data, true)

/-- Reads a row for the engine of course c: none, with a VAL_FAULT, where the regions refuse a line or one fails its code (R182). -/
def State.valGet (s : State) (c : Nat) (lines : List Nat) : State × Option (List Byte) :=
  match lines.find? fun x => !s.permits (s.course c).valRegions .read x with
  | some x => (s.valFault c x 0x0A, none)
  | none =>
    lines.foldl
      (fun (st : State × Option (List Byte)) x =>
        match st.2 with
        | none => st
        | some acc =>
          let y := st.1.readLine x (2048 + c)
          match y.1 with
          | some d => (y.2, some (acc ++ d))
          | none => ((y.2.raiseUe x (2048 + c)).valFault c x 0x0B, none)) (s, some [])

/-- Lines of a row of W elements. -/
def rowExtent (fmt : Byte) (width : Nat) : Nat :=
  dExtent { base := 0, fmt := fmt, rank := 1, alloc := 0, size := [width], stride := [] }

/-- The bytes of an allocation. -/
def State.allocBytes (s : State) (handle : Nat) : List Byte :=
  match tfind s.image.bodies.allocs handle with
  | some al => (List.range al.lines).flatMap fun i => s.rawLine (al.base + 64 * i)
  | none => []

/-- Address of a place that the layer's placement table names. -/
def State.place (s : State) (l : Layer) (kind : Nat) (back : Bool) (c slot set_ index : Nat) : Nat :=
  Config.placement (s.allocBytes l.placement) kind back c slot set_ index / 64 * 64

/-! ### Issue (R171, R176, R177, R180) -/

def valImm : Nat := mField 0 25

/-- T of a selection group: d[k], d[k+1], d[k+2]. -/
def selStops (w : Word128) (x : StreamCtx) (k ref T : Nat) : List (Option Stop) :=
  [rankStop k (x.d k) 2, dimStop 0 k (x.d k) 0 16, dimStop ref k (x.d k) 1 T,
   rankStop (k + 1) (x.d (k + 1)) 2, dimStop 0 (k + 1) (x.d (k + 1)) 0 16, dimStop ref (k + 1) (x.d (k + 1)) 1 T,
   rankStop (k + 2) (x.d (k + 2)) 1, dimStop ref (k + 2) (x.d (k + 2)) 0 T,
   fmtStop w k (x.d k) isU32, fmtStop w (k + 1) (x.d (k + 1)) isFp32, fmtStop w (k + 2) (x.d (k + 2)) isU32]

/-- The current epoch of a tag's block at a course. -/
def State.epochOf (s : State) (c : Nat) (tag : BitVec 16) : Byte := tget (s.valley c).epochs (blockOf tag) 0

/-- The home record is that of a core's tag, layer and direction in an epoch. -/
def HomeRec.is (h : HomeRec) (n layer : Nat) (tag : BitVec 16) (back : Bool) (epoch : Byte) : Bool :=
  h.core == n && h.layer == layer && h.tag == tag && h.backward == back && h.epoch == epoch

def State.homeAt (s : State) (n layer : Nat) (tag : BitVec 16) (back : Bool) (epoch : Byte) : Option HomeRec :=
  (s.valley (courseOf n)).homes.find? fun h => h.is n layer tag back epoch

/-- The tag that an instruction names has been dispatched in the current epoch of its block. -/
def State.home? (s : State) (n : Nat) (w : Word128) : Option HomeRec :=
  s.homeAt n (immLayer w) (immTag w) (immBack w) (s.epochOf (courseOf n) (immTag w))

/-- The forward record of a tag at its home (R177). -/
def State.forward? (s : State) (n layer : Nat) (tag : BitVec 16) : Option (Tab (BitVec 16)) :=
  ((s.valley (courseOf n)).forward.find? fun x => x.1 == n && x.2.1 == layer && x.2.2.1 == tag).map fun x => x.2.2.2

/-- An instruction of the core's queue at the course port names the same tag, layer and direction in an epoch. -/
def Core.valQueued (c : Core) (op layer : Nat) (tag : BitVec 16) (back : Bool) (epoch : Byte) : Bool :=
  c.val.any fun o => opCode o.w == op && immLayer o.w == layer && immTag o.w == tag && immBack o.w == back && o.epochs.headD 0 == epoch

def tagState (w : Word128) (case_ : Nat) : Stop := notInState w case_ (immTag w).toNat

/-- Issues a Valley instruction, which carries the epoch of its tag's block. -/
def State.issueVal (s : State) (n : Nat) (t : Stream) (w : Word128) (r : IssueReq) (regs : List Nat) : Out :=
  let o := { s.engOp n t w regs with epochs := [s.epochOf (courseOf n) (immTag w)] }
  s.issue n t w r fun s => .ok (s.modCore n fun c => c.push .val o)

def dispatchLate (s : State) (n : Nat) (x : StreamCtx) (w : Word128) : Option Stop :=
  let a := x.d (fA w)
  match s.layer? (immLayer w) with
  | none => some (tagState w 0x1B)
  | some l =>
    firstStop
      ([stopIf (layerSender s l n).isNone (tagState w 0x18),
        stopIf (immBack w && (s.forward? n (immLayer w) (immTag w)).isNone &&
          !(s.core n).valQueued 0xD1 (immLayer w) (immTag w) false (s.epochOf (courseOf n) (immTag w))) (tagState w 0x1A),
        rankStop (fA w) a 2, dimStop 0 (fA w) a 0 l.rowWidth, stopIf (decide (32767 < dSize a 1)) (shapeStop (fA w) 0 1)] ++
       (selStops w x (fB w) (fA w) (dSize a 1)).take 8 ++
       [stopIf (a.fmt != l.rowFormat) (formatStop w (fA w) a.fmt)] ++
       (selStops w x (fB w) (fA w) (dSize a 1)).drop 8)

/-- What the issue stage asks of ValDispatch. -/
def valDispatchReq (s : State) (c : CoreId) (t : Stream) (w : Word128) : IssueReq :=
  { form := ⟨0xD0, 5, mA + mB + valImm⟩
    reserved := if 62 ≤ fB w then [63] else []
    needs := [needA w, needB w, needAt 2 (fB w + 1), needAt 2 (fB w + 2)]
    late := dispatchLate s c ((s.core c).ctx t) w }

def execValDispatch (c : CoreId) (t : Stream) (w : Word128) (s : State) : Out :=
  s.issueVal c t w (valDispatchReq s c t w)
    [fA w, fB w, fB w + 1, fB w + 2]

def combineLate (s : State) (n : Nat) (x : StreamCtx) (w : Word128) : Option Stop :=
  let d := x.d (fDst w)
  match s.layer? (immLayer w) with
  | none => some (tagState w 0x1B)
  | some l =>
    firstStop
      ([stopIf ((s.home? n w).isNone && !(s.core n).valQueued 0xD0 (immLayer w) (immTag w) (immBack w) (s.epochOf (courseOf n) (immTag w))) (tagState w 0x03),
        writeStop w (fDst w) d, rankStop (fDst w) d 2, dimStop 0 (fDst w) d 0 l.rowWidth] ++
       (selStops w x (fA w) (fDst w) (dSize d 1)) ++ [fmtStop w (fDst w) d veDest])

/-- What the issue stage asks of ValCombine. -/
def valCombineReq (s : State) (c : CoreId) (t : Stream) (w : Word128) : IssueReq :=
  { form := ⟨0xD1, 5, mDst + mA + mField 32 1 + valImm⟩
    reserved := if 62 ≤ fA w then [69] else []
    needs := [needA w, needAt 1 (fA w + 1), needAt 1 (fA w + 2), needDst w]
    late := combineLate s c ((s.core c).ctx t) w }

def execValCombine (c : CoreId) (t : Stream) (w : Word128) (s : State) : Out :=
  s.issueVal c t w (valCombineReq s c t w)
    [fA w, fA w + 1, fA w + 2, fDst w]

def opSlot (w : Word128) : Nat := fBits w 32 8

/-- The set that holds a tag of a layer at a course. -/
def State.set? (s : State) (c layer : Nat) (tag : BitVec 16) : Option ValSet :=
  (s.valley c).sets.find? fun x => x.layer == layer && x.tag == tag

def returnLate (s : State) (n : Nat) (x : StreamCtx) (w : Word128) : Option Stop :=
  let c := courseOf n
  let a := x.d (fA w)
  match s.layer? (immLayer w) with
  | none => some (tagState w 0x1B)
  | some l =>
    let owned := (layerSlots s l c).any fun e => e.slot == opSlot w && e.owner == n % 32
    let set_ := s.set? c (immLayer w) (immTag w)
    let published := match set_ with | some x => if immBack w then x.pubBwd else x.pubFwd | none => false
    firstStop
      [stopIf (!owned || !published) (tagState w 0x19),
       rankStop (fA w) a 2, dimStop 0 (fA w) a 0 l.rowWidth,
       set_.bind fun v => dimStop 0 (fA w) a 1 (tget v.counts (opSlot w) 0),
       stopIf (a.fmt != l.returnFormat) (formatStop w (fA w) a.fmt)]

/-- What the issue stage asks of ValReturn. -/
def valReturnReq (s : State) (c : CoreId) (t : Stream) (w : Word128) : IssueReq :=
  { form := ⟨0xD2, 5, mA + mField 32 8 + valImm⟩, needs := [needA w], late := returnLate s c ((s.core c).ctx t) w }

def execValReturn (c : CoreId) (t : Stream) (w : Word128) (s : State) : Out :=
  s.issueVal c t w (valReturnReq s c t w) [fA w]

/-- What the issue stage asks of ValCancel. -/
def valCancelReq (_ : State) (_ : CoreId) (_ : Stream) (_ : Word128) : IssueReq :=
  { form := ⟨0xD3, 5, mField 32 16⟩ }

def execValCancel (c : CoreId) (t : Stream) (w : Word128) (s : State) : Out :=
  s.issueVal c t w (valCancelReq s c t w) []

/-! ### Dispatch (R171, R172, R178) -/

/-- A token's selection as it is read: entry, expert index and gate code. -/
structure Token where
  count : Nat
  kept : List (Nat × Nat)
  ids : List Nat
  gates : List Nat
  deriving DecidableEq, Repr

/-- Entries kept in order, with what GME_INDEX_DROP and GME_ORDER_DROP gain. -/
def tokenEntries (E : Nat) : Option Nat → Nat → List Nat → List (Nat × Nat) × Nat × Nat
  | _, _, [] => ([], 0, 0)
  | prev, i, e :: r =>
    if E ≤ e then let x := tokenEntries E prev (i + 1) r; (x.1, x.2.1 + 1, x.2.2)
    else if (match prev with | some p => decide (e ≤ p) | none => false) then
      let x := tokenEntries E prev (i + 1) r; (x.1, x.2.1, x.2.2 + 1)
    else let x := tokenEntries E (some e) (i + 1) r; ((i, e) :: x.1, x.2)

/-- Reads the selection of token t, or the address that failed. -/
def readToken (n : Nat) (o : EngOp) (k E t : Nat) : Work (Except Nat Token) := do
  let cnt ← valElem n (o.d (k + 2)) t
  let ids ← valCodes n (o.d k) [t]
  let gs ← valCodes n (o.d (k + 1)) [t]
  match cnt, ids, gs with
  | .ok cnt, .ok ids, .ok gs =>
    let m := min cnt 16
    let x := tokenEntries E none 0 (ids.take m)
    modify fun s => s.modCore n fun c =>
      { c with gme := { c.gme with indexDrop := sat32 c.gme.indexDrop x.2.1, orderDrop := sat32 c.gme.orderDrop x.2.2 } }
    pure (.ok { count := m, kept := x.1, ids := ids.take m, gates := gs.take m })
  | .error a, _, _ => pure (.error a)
  | _, .error a, _ => pure (.error a)
  | _, _, .error a => pure (.error a)

/-- The bitmap of entries that a module serves. -/
def bitmapFor (s : State) (l : Layer) (m : ModAddr) (kept : List (Nat × Nat)) : BitVec 16 :=
  kept.foldl (fun b x =>
    match layerExpert s l x.2 with
    | some e => if e.module = m then b ||| BitVec.ofNat 16 (2 ^ x.1) else b
    | none => b) 0

/-- Where a dispatch stands: the transaction and what each module has been sent. -/
structure Dispatch where
  op : EngOp
  layer : Nat
  entry : Layer
  sender : Nat
  modules : List ModAddr
  txn : Nat
  returned : Option (Tab (BitVec 16))
  deriving DecidableEq, Repr

def copiesOf (v : Valley) (txn : Nat) (m : ModAddr) : List (Nat × BitVec 16) :=
  match tfind v.txns txn with
  | some x => (match x.copies.find? fun y => y.1 == m with | some y => y.2 | none => [])
  | none => []

def noteCopy (s : State) (c txn : Nat) (m : ModAddr) (token : Nat) (b : BitVec 16) : State :=
  s.modVal c fun v =>
    { v with txns := v.txns.map fun (x : Nat × ValTxn) =>
      if x.1 = txn then
        (x.1, { x.2 with copies :=
          if x.2.copies.any fun y => y.1 == m then x.2.copies.map fun y => if y.1 = m then (m, y.2 ++ [(token, b)]) else y
          else x.2.copies ++ [(m, [(token, b)])] })
      else x }

/-- Opens a transaction under the next tag. -/
def State.openTxn (s : State) (c : Nat) (x : ValTxn) : Nat × State :=
  let k := (s.valley c).nextTxn
  (k.toNat, s.modVal c fun v => { v with txns := tset v.txns k.toNat x, nextTxn := k + 1 })

/-- Copies of one token. -/
def sendToken (n : Nat) (d : Dispatch) (t : Nat) (tok : Token) (data : List Byte) : Work Unit := do
  let c := courseOf n
  let mask : BitVec 16 := match d.returned with | some r => tget r t 0 | none => 0xFFFF
  d.modules.forM fun m => do
    let s ← get
    let b := bitmapFor s d.entry m tok.kept &&& mask
    if b = 0 then pure ()
    else
      let row : ValRow :=
        { tag := immTag d.op.w, epoch := d.op.epochs.headD 0, layer := d.layer, bitmap := b, backward := immBack d.op.w,
          count := tok.count, token := t, sender := d.sender, ids := tok.ids.map fun e => BitVec.ofNat 16 e,
          gates := tok.gates.map fun g => BitVec.ofNat 32 g, data := data }
      let line := (copiesOf (s.valley c) d.txn m).length * (2 + data.length / 64)
      set (noteCopy (s.sendVal n m d.txn line (.row d.entry.collector row)) c d.txn m t b)

/-- Runs VAL.DISPATCH: the rows, then a count header to every member module. -/
def runDispatch (n : Nat) (o : EngOp) : Work Unit := do
  let c := courseOf n
  let s ← get
  match s.layer? (immLayer o.w) with
  | none => stopWith (tagState o.w 0x1B)
  | some l =>
    let returned ← if immBack o.w then
        match s.forward? n (immLayer o.w) (immTag o.w) with
        | some r => pure (some r)
        | none => stopWith (tagState o.w 0x1A)
      else pure none
    let x := s.openTxn c { core := n, layer := immLayer o.w, tag := immTag o.w, backward := immBack o.w,
                              epoch := o.epochs.headD 0, copies := [] }
    let home : HomeRec := { core := n, layer := immLayer o.w, tag := immTag o.w, backward := immBack o.w, epoch := o.epochs.headD 0 }
    set (x.2.modVal c fun v =>
      { v with homes := home :: v.homes.filter fun (h : HomeRec) =>
        !(h.core == n && h.layer == home.layer && h.tag == home.tag && h.backward == home.backward) })
    let d : Dispatch :=
      { op := o, layer := immLayer o.w, entry := l, sender := (layerSender s l n).getD 0, modules := layerModules s l, txn := x.1,
        returned := returned }
    (List.range (dSize o.a 1)).forM fun t => do
      match ← readToken n o (fB o.w) l.experts t with
      | .error a => modify fun s => s.valFault c a 0x0B
      | .ok tok =>
        match ← valLines n (dRowLines o.a [t]) with
        | .error a => modify fun s => s.valFault c a 0x0B
        | .ok data => sendToken n d t tok data
    d.modules.forM fun m => modify fun s =>
      let sent := copiesOf (s.valley c) d.txn m
      s.sendVal n m d.txn (sent.length * (2 + rowExtent l.rowFormat l.rowWidth))
        (.count l.collector { backward := immBack o.w, rows := sent.length, sender := d.sender, layer := d.layer,
                              epoch := o.epochs.headD 0, tag := immTag o.w })

/-! ### Landing (R173, R174) -/

def rowLt (a b : Landed) : Bool := decide (a.sender < b.sender) || (a.sender == b.sender && decide (a.token < b.token))

def insertRow (x : Landed) : List Landed → List Landed
  | [] => [x]
  | y :: r => if rowLt x y then x :: y :: r else y :: insertRow x r

/-- Where a row of this key lands among the rows of a slot of `cap`, the lowest keys being kept: a row of the slot that none holds, or
that of the largest key, which is dropped; none where the arriving row is dropped (R173). -/
def landPlace (cap : Nat) (rows : List Landed) (x : Landed) : Option Nat :=
  if rows.length < cap then (List.range cap).find? fun k => !rows.any fun y => y.place == k
  else rows.getLast?.bind fun y => if rowLt x y then some y.place else none

/-- The set of a tag is held by another tag at a course. -/
def State.setHeld (s : State) (c layer ring : Nat) (tag : BitVec 16) : Bool :=
  (s.valley c).sets.any fun x => x.layer == layer && x.tag != tag && x.tag.toNat % ring == tag.toNat % ring

def State.modSet (s : State) (c layer : Nat) (tag : BitVec 16) (f : ValSet → ValSet) : State :=
  s.modVal c fun v =>
    { v with sets :=
      if v.sets.any fun x => x.layer == layer && x.tag == tag then
        v.sets.map fun (x : ValSet) => if x.layer = layer ∧ x.tag = tag then f x else x
      else v.sets ++ [f { layer := layer, tag := tag, epoch := tget v.epochs (blockOf tag) 0 }] }

/-- Destinations of a row on this module: position, expert. -/
def rowTargets (s : State) (l : Layer) (r : ValRow) : List (Nat × Expert) :=
  (List.range 16).filterMap fun i =>
    if r.bitmap.getLsbD i then
      match layerExpert s l ((r.ids.getD i 0xFFFF).toNat) with
      | some e => if e.module = s.fabric.coord then some (i, e) else none
      | none => none
    else none

def setIndex (l : Layer) (tag : BitVec 16) : Nat := tag.toNat % l.ring

/-- Place of rank j of a slot: the underlay buffer, then the overflow portion. -/
def State.rankPlace (s : State) (l : Layer) (back : Bool) (c slot cap set_ j : Nat) : Nat :=
  if j < cap then s.place l 0 back c slot set_ j else s.place l 1 back c slot set_ (j - cap)

/-- One more row of a set dropped at capacity. -/
def State.overflow (s : State) (c layer : Nat) (tag : BitVec 16) : State :=
  (s.modSet c layer tag fun y => { y with drops := y.drops + 1 }).modVal c fun v => { v with overflowDrop := sat32 v.overflowDrop 1 }

/-- A forward copy lands in a slot: its data go to a row of the slot, where they wait for their placement. Which row is the model's
choice (log entry 22); the engine keeps the data of a row that may not be written, so that a refusal is met at the place of a
rank, which no order of arrival decides (R14). -/
def landForward (s : State) (l : Layer) (r : ValRow) (i : Nat) (e : Expert) : State :=
  let c := e.course
  let old := match s.set? c r.layer r.tag with | some x => tget x.rows e.slot [] | none => []
  let cap := e.capacity + e.overflow
  let x : Landed := { sender := r.sender, token := r.token, pos := i, gate := r.gates.getD i 0, place := 0 }
  match landPlace cap old x with
  | none => s.overflow c r.layer r.tag
  | some k =>
    let a := s.rankPlace l false c e.slot e.capacity (setIndex l r.tag) k
    let lines := rowExtent l.rowFormat l.rowWidth
    let refused := (s.valRefusal c a lines).isSome
    let s := if refused then s else putLines (2048 + c) lines s a r.data
    let full := decide (cap ≤ old.length)
    let landed := { x with place := k, held := if refused then r.data else [] }
    let s := s.modSet c r.layer r.tag fun y =>
      { y with rows := tset y.rows e.slot (insertRow landed (if full then old.dropLast else old)) }
    let s := s.modVal c fun v => { v with rowsLanded := v.rowsLanded + 1 }
    if full then s.overflow c r.layer r.tag else s

/-- A backward copy goes to the rank that the forward record gives it. -/
def landBackward (s : State) (l : Layer) (r : ValRow) (i : Nat) (e : Expert) : State :=
  let c := e.course
  let rank := match s.set? c r.layer r.tag with
    | some x => if x.pubFwd then (tget x.route e.slot []).findIdx? fun y => y == (r.sender, r.token, i) else none
    | none => none
  match rank with
  | none => s.modVal c fun v => { v with staleReturn := sat32 v.staleReturn 1 }
  | some j =>
    let x := s.valPut c (s.rankPlace l true c e.slot e.capacity (setIndex l r.tag) j) (rowExtent l.rowFormat l.rowWidth) r.data
    if x.2 then x.1.modVal c fun v => { v with rowsLanded := v.rowsLanded + 1 } else x.1

/-- VALLEY_ROW: the collector takes a row and fans it out. While another tag holds a set it needs, the row stays. -/
def execValleyRow (c : CourseId) (row : ValRow) (s : State) : Out :=
  match s.layer? row.layer with
  | none => .next s
  | some l =>
    let targets := rowTargets s l row
    match s.takeVal (.row c row) with
    | none => .next s
    | some s1 =>
      let x := s1.epochRule c row.tag row.epoch
      if !x.2 then .next x.1
      else if !row.backward && targets.any fun y =>
          (x.1.epochRule y.2.course row.tag row.epoch).2 &&
            (x.1.epochRule y.2.course row.tag row.epoch).1.setHeld y.2.course row.layer l.ring row.tag then .next s
      else
        .next (targets.foldl
          (fun s y =>
            let z := s.epochRule y.2.course row.tag row.epoch
            if !z.2 then z.1
            else if row.backward then landBackward z.1 l row y.1 y.2
            else landForward z.1 l row y.1 y.2) x.1)

/-! ### Counts and placement (R175) -/

/-- COUNT_HEADER: the last of a tag's headers makes the completion notices. -/
def execCountHeader (c : CourseId) (h : CountHdr) (s : State) : Out :=
  match s.layer? h.layer with
  | none => .next s
  | some l =>
    match s.takeVal (.count c h) with
    | none => .next s
    | some s =>
      let x := s.epochRule c h.tag h.epoch
      if !x.2 then .next x.1
      else
        let s := x.1
        let is (r : CountRec) : Bool := r.layer == h.layer && r.tag == h.tag && r.backward == h.backward
        let had := match (s.valley c).counts.find? is with | some r => r.senders | none => []
        let got := insertNat h.sender had
        let rest := (s.valley c).counts.filter fun r => !is r
        if (List.range (layerMembers s l).length).all fun i => got.contains i then
          let s := s.modVal c fun v => { v with counts := rest }
          .next { s with valPath := s.valPath ++ (layerCourses s l).map fun (k : Nat) =>
            ({ source := 32 * c, msg := .notice k h.layer h.tag h.backward } : ValTransit) }
        else
          .next (s.modVal c fun v =>
            { v with counts := { layer := h.layer, tag := h.tag, backward := h.backward, senders := got } :: rest })

/-- Reads the kept rows of a slot where they landed; one that fails its code is dropped (R182). -/
def readLanded (l : Layer) (c slot cap set_ : Nat) : State → List Landed → State × List (Landed × List Byte)
  | s, [] => (s, [])
  | s, x :: r =>
    let a := s.rankPlace l false c slot cap set_ x.place
    let y :=
      if x.held.isEmpty then s.valGet c ((List.range (rowExtent l.rowFormat l.rowWidth)).map fun k => a + 64 * k)
      else (s, some x.held)
    let z := readLanded l c slot cap set_ y.1 r
    (z.1, match y.2 with | some d => (x, d) :: z.2 | none => z.2)

/-- A row that the placement reads is held at its course's entry (R350). -/
def State.landedHeld (s : State) (l : Layer) (c layer : Nat) (tag : BitVec 16) : Bool :=
  match s.set? c layer tag with
  | none => false
  | some v =>
    (layerSlots s l c).any fun e => (tget v.rows e.slot []).any fun x =>
      x.held.isEmpty && (List.range (rowExtent l.rowFormat l.rowWidth)).any fun k =>
        s.lineHeld (s.rankPlace l false c e.slot e.capacity (setIndex l tag) x.place + 64 * k)

/-- Places the rows of a slot in rank order; a row whose place is refused is dropped. -/
def placeRows (l : Layer) (c slot cap set_ : Nat) : State → List Landed → List (Landed × List Byte) → State × List Landed
  | s, done, [] => (s, done)
  | s, done, x :: r =>
    let y := s.valPut c (s.rankPlace l false c slot cap set_ done.length) (rowExtent l.rowFormat l.rowWidth) x.2
    placeRows l c slot cap set_ y.1 (if y.2 then done ++ [x.1] else done) r

/-- The gate vector of a slot, 16 scores a line. -/
def placeGates (l : Layer) (c slot set_ : Nat) (gates : List W32) (s : State) : State :=
  (List.range ((gates.length + 15) / 16)).foldl
    (fun s i =>
      (s.valPut c (s.place l 2 false c slot set_ i) 1
        ((List.range 16).flatMap fun k => leBytes 4 (gates.getD (16 * i + k) 0).toNat)).1) s

/-- The lines of the set's count area that hold slots of the layer. -/
def placeCounts (l : Layer) (back : Bool) (c set_ : Nat) (slots : List Nat) (counts : Tab Nat) (s : State) : State :=
  (sortNats (slots.map fun k => k / 8)).foldl
    (fun s i =>
      (s.valPut c (s.place l 3 back c 0 set_ i) 1
        ((List.range 8).flatMap fun k => leBytes 8 (if slots.contains (8 * i + k) then tget counts (8 * i + k) 0 else 0))).1) s

def publish (l : Layer) (c : Nat) (owners : List Nat) (s : State) : State :=
  owners.foldl (fun s k => s.incFlag (32 * c + k) l.publishFlag 1) s

/-- COMPLETION_NOTICE: the course sorts, places, records and publishes (R175), or republishes a backward tag (R178). -/
def execCompletionNotice (c : CourseId) (layer : Nat) (tag : BitVec 16) (backward : Bool) (s : State) : Out :=
  match s.layer? layer with
  | none => .next s
  | some l =>
    let n : Nat := c
    let slots := (layerSlots s l n)
    let owners := sortNats (slots.map (·.owner))
    let set_ := setIndex l tag
    if !backward && (s.setHeld n layer l.ring tag || s.landedHeld l n layer tag) then .next s
    else
      match s.takeVal (.notice n layer tag backward) with
      | none => .next s
      | some s =>
        if backward then
          match s.set? n layer tag with
          | none => .next s
          | some v =>
            let s := placeCounts l true n set_ (slots.map (·.slot)) v.counts s
            .next (publish l n owners (s.modSet n layer tag fun x => { x with pubBwd := true }))
        else
          let s := s.modSet n layer tag id
          let s := slots.foldl
            (fun s e =>
              let kept := match s.set? n layer tag with | some v => tget v.rows e.slot [] | none => []
              let read := readLanded l n e.slot e.capacity set_ s kept
              let x := placeRows l n e.slot e.capacity set_ read.1 [] read.2
              let s := placeGates l n e.slot set_ (x.2.map (·.gate)) x.1
              s.modSet n layer tag fun v =>
                { v with rows := tset v.rows e.slot []
                         route := tset v.route e.slot (x.2.map fun (y : Landed) => (y.sender, y.token, y.pos))
                         counts := tset v.counts e.slot x.2.length }) s
          let v := (s.set? n layer tag).getD { layer := layer, tag := tag }
          let s := placeCounts l false n set_ (slots.map (·.slot)) v.counts s
          let s := publish l n owners (s.modSet n layer tag fun x => { x with pubFwd := true })
          .next (if v.drops = 0 then s else s.raise 0x13 2 n [(1, layer), (2, tag.toNat), (1, n), (4, v.drops)])

/-! ### Return (R176) -/

/-- Runs VAL.RETURN: the rows of a slot, and after the last slot the count headers. One whose tag was cancelled once it was issued
finds neither route nor set of its epoch, and sends nothing (R180). -/
def runReturn (n : Nat) (o : EngOp) : Work Unit := do
  let c := courseOf n
  let layer := immLayer o.w
  let tag := immTag o.w
  let back := immBack o.w
  let s ← get
  match s.layer? layer, s.set? c layer tag with
  | some l, some v =>
    if v.epoch ≠ o.epochs.headD 0 then pure () else
    let x := s.openTxn c { core := n, layer := layer, tag := tag, backward := back, epoch := o.epochs.headD 0, copies := [] }
    set x.2
    let route := tget v.route (opSlot o.w) []
    (List.range (dSize o.a 1)).forM fun m => do
      let dest := route.getD m (0, 0, 0)
      match ← valLines n (dRowLines o.a [m]) with
      | .error a => modify fun s => s.valFault c a 0x0B
      | .ok data => modify fun s =>
        let who := (layerMembers s l).getD dest.1 (s.fabric.coord, 0)
        let row : RetRow :=
          { tag := tag, epoch := o.epochs.headD 0, layer := layer, backward := back, token := dest.2.1, pos := dest.2.2,
            sender := dest.1, data := data }
        let line := (copiesOf (s.valley c) x.1 who.1).length * (1 + data.length / 64)
        let s := noteCopy (s.sendVal n who.1 x.1 line (.back (courseOf who.2) row)) c x.1 who.1 dest.2.1 (BitVec.ofNat 16 (2 ^ dest.2.2))
        let s := s.modSet c layer tag (fun y =>
          if back then { y with sentBwd := tmod y.sentBwd dest.1 0 (· + 1) } else { y with sentFwd := tmod y.sentFwd dest.1 0 (· + 1) })
        (s.modVal c fun v => { v with rowsReturned := v.rowsReturned + 1 })
    modify fun s =>
      let s := s.modSet c layer tag fun y =>
        if back then { y with retBwd := insertNat (opSlot o.w) y.retBwd } else { y with retFwd := insertNat (opSlot o.w) y.retFwd }
      match s.set? c layer tag with
      | none => s
      | some y =>
        let gone := if back then y.retBwd else y.retFwd
        if (layerSlots s l c).all fun e => gone.contains e.slot then
          let counts := if back then y.sentBwd else y.sentFwd
          let s := (layerMembers s l).mapIdx (fun i who => (i, who)) |>.foldl
            (fun s x' =>
              s.sendVal n x'.2.1 x.1 0
                (.backCount (courseOf x'.2.2)
                  { backward := back, rows := tget counts x'.1 0, sender := x'.1, layer := layer, epoch := o.epochs.headD 0, tag := tag }
                  s.fabric.coord c)) s
          if back then s.modVal c fun v => { v with sets := v.sets.filter fun (z : ValSet) => !(z.layer == layer && z.tag == tag) } else s
        else s
  | _, _ => pure ()

/-! ### The home side (R177, R178) -/

def State.modHome (s : State) (n layer : Nat) (tag : BitVec 16) (back : Bool) (epoch : Byte) (f : HomeRec → HomeRec) : State :=
  s.modVal (courseOf n) fun v => { v with homes := v.homes.map fun (h : HomeRec) => if h.is n layer tag back epoch then f h else h }

/-- Returns of a dispatched tag are complete once every source's header has come or its module is absent; the returns
flag then rises once. -/
def State.settleHome (s : State) (n layer : Nat) (tag : BitVec 16) (back : Bool) (epoch : Byte) : State :=
  match s.homeAt n layer tag back epoch, s.layer? layer with
  | some h, some l =>
    if !h.complete && (layerSources s l).all fun x => h.headers.contains x || h.absent.contains x.1 then
      (s.modHome n layer tag back epoch fun h => { h with complete := true }).incFlag n l.returnsFlag 1
    else s
  | _, _ => s

/-- Place of the return of (token, position) in a core's return area. -/
def State.returnPlace (s : State) (l : Layer) (back : Bool) (n token pos : Nat) (tag : BitVec 16) : Nat :=
  s.place l 4 back (courseOf n) (n % 32) (setIndex l tag) (16 * token + pos)

/-- RETURN_ROW: a returned row lands in the return area of the sender's course. -/
def execReturnRow (c : CourseId) (row : RetRow) (s : State) : Out :=
  match s.layer? row.layer with
  | none => .next s
  | some l =>
    match s.takeVal (.back c row) with
    | none => .next s
    | some s =>
      let x := s.epochRule c row.tag row.epoch
      if !x.2 then .next x.1
      else
        let s := x.1
        let n := ((layerMembers s l).getD row.sender (0, 0)).2
        match (s.valley c).homes.find? fun h => h.is n row.layer row.tag row.backward row.epoch with
        | none => .next (s.modVal c fun v => { v with staleReturn := sat32 v.staleReturn 1 })
        | some _ =>
          let y := s.valPut c (s.returnPlace l row.backward n row.token row.pos row.tag) (rowExtent l.returnFormat l.rowWidth) row.data
          if y.2 then .next (y.1.modHome n row.layer row.tag row.backward row.epoch fun h => { h with returns := h.returns ++ [(row.token, row.pos)] })
          else .next y.1

/-- RETURN_COUNT: a source's header arrives. -/
def execReturnCount (c : CourseId) (h : CountHdr) (fromModule : ModAddr) (fromCourse : Nat) (s : State) : Out :=
  match s.layer? h.layer with
  | none => .next s
  | some l =>
    match s.takeVal (.backCount c h fromModule fromCourse) with
    | none => .next s
    | some s =>
      let x := s.epochRule c h.tag h.epoch
      if !x.2 then .next x.1
      else
        let s := x.1
        let n := ((layerMembers s l).getD h.sender (0, 0)).2
        let s := s.modHome n h.layer h.tag h.backward h.epoch fun k => { k with headers := (fromModule, fromCourse) :: k.headers }
        .next (s.settleHome n h.layer h.tag h.backward h.epoch)

/-- The exact values of a returned row, or none where it did not arrive or failed its code. -/
def returnedRow (n : Nat) (o : EngOp) (l : Layer) (h : HomeRec) (t i : Nat) : Work (Option (List FVal)) := do
  let s ← get
  let c := courseOf n
  if !h.returns.contains (t, i) then pure none
  else
    let a := s.returnPlace l (immBack o.w) n t i (immTag o.w)
    let lines := (List.range (rowExtent l.returnFormat l.rowWidth)).map fun k => a + 64 * k
    if lines.any s.lineHeld then stopWith heldRead
    let r := s.valGet c lines
    set r.1
    match r.2, Fmt.ofCode l.returnFormat with
    | some bytes, some f => pure (some (rowValues f (Config.returnScale (immLayer o.w)) l.rowWidth bytes))
    | _, _ => pure none

/-- Adds one returned row to the accumulators of a token. -/
def combineRow (weighted : Bool) (gate : W32) (acc : List W32) (row : List FVal) : List W32 :=
  List.zipWith (fun a v => rne32 ((dec32 a).add (if weighted then (dec32 gate).mul v else v))) acc row

/-- One token's accumulators, its bitmap of arrived entries and its absent entries. -/
def combineToken (n : Nat) (o : EngOp) (l : Layer) (h : HomeRec) (t : Nat) (gates : List Nat) :
    List Nat → List W32 → BitVec 16 → Nat → Work (List W32 × BitVec 16 × Nat)
  | [], acc, b, miss => pure (acc, b, miss)
  | i :: r, acc, b, miss => do
    match ← returnedRow n o l h t i with
    | none => combineToken n o l h t gates r acc b (miss + 1)
    | some row =>
      combineToken n o l h t gates r (combineRow (fBits o.w 32 1 == 1) (BitVec.ofNat 32 (gates.getD i 0)) acc row)
        (b ||| BitVec.ofNat 16 (2 ^ i)) miss

/-- Runs VAL.COMBINE. A token whose selection fails its code is combined as one with no entry. -/
def runCombine (n : Nat) (o : EngOp) (l : Layer) (h : HomeRec) : Work Unit := do
  let c := courseOf n
  let k := fA o.w
  let maps ← (List.range (dSize o.dst 1)).mapM fun t => do
    let cnt ← valElem n (o.d (k + 2)) t
    let gs ← valCodes n (o.d (k + 1)) [t]
    let zero := List.replicate l.rowWidth (0 : W32)
    let x ← match cnt, gs with
      | .ok cnt, .ok gs => combineToken n o l h t gs (List.range (min cnt 16)) zero 0 0
      | .error a, _ => do
        modify fun s => s.valFault c a 0x0B
        pure (zero, (0 : BitVec 16), 0)
      | _, .error a => do
        modify fun s => s.valFault c a 0x0B
        pure (zero, (0 : BitVec 16), 0)
    modify fun s => s.modCore n fun y => { y with valCombineAbsent := sat32 y.valCombineAbsent x.2.2 }
    writeRow n o.dst {} [t] (vals x.1)
    pure (t, x.2.1)
  if immBack o.w then pure ()
  else
    modify fun s => s.modVal c fun v =>
      { v with forward := (n, immLayer o.w, immTag o.w, maps) ::
        v.forward.filter fun x => !(x.1 == n && x.2.1 == immLayer o.w && x.2.2.1 == immTag o.w) }

def setBegun (c : Core) : Core :=
  match c.val with
  | o :: r => { c with val := { o with begun := true } :: r }
  | [] => c

/-- COMBINE_BEGIN: the combine at the head of its queue starts once its returns are complete. -/
def execCombineBegin (c : CoreId) (s : State) : Out :=
  let n : Nat := c
  match (s.core n).val with
  | [] => .next s
  | o :: _ =>
    if opCode o.w ≠ 0xD1 ∨ o.begun then .next s
    else
      match (if s.epochOf (courseOf n) (immTag o.w) = o.epochs.headD 0 then s.home? n o.w else none), s.layer? (immLayer o.w) with
      | some h, some l =>
        if !h.complete then .next s
        else .next (s.runWork n 5 o (runCombine n o l h) fun s => s.modCore n setBegun)
      | _, _ => .next (s.haltOp n 5 o (tagState o.w 0x03))

/-! ### Cancellation (R180) -/

/-- Every module that is a member of any dispatch group. -/
def State.allMembers (s : State) : List ModAddr :=
  (sortNats (s.image.bodies.layers.flatMap (fun x => (layerModules s x.2).map (·.toNat)) ++
    s.image.bodies.groups.flatMap fun x => x.2.map fun y => y.1.toNat)).map fun k => BitVec.ofNat 24 k

/-- Runs VAL.CANCEL: its own engine, then a cancellation to every engine of every member module. -/
def State.runCancel (s : State) (n : Nat) (o : EngOp) : State :=
  let c := courseOf n
  let first := fBits o.w 32 8
  let blocks := (List.range (fBits o.w 40 8 + 1)).map fun i => (first + i) % 256
  let s := blocks.foldl (fun s b => s.cancelBlock c b (tget (s.valley c).epochs b 0 + 1)) s
  s.allMembers.foldl
    (fun s m =>
      (List.range 64).foldl
        (fun s k =>
          if m = s.fabric.coord ∧ k = c then s
          else blocks.foldl (fun s b => s.sendVal n m 63 0 (.cancel k b (tget (s.valley c).epochs b 0).toNat)) s) s) s

/-- VALLEY_CANCEL: a cancellation reaches an engine. -/
def execValleyCancel (c : CourseId) (block : Byte) (epoch : Byte) (s : State) : Out :=
  match s.takeVal (.cancel c block.toNat epoch.toNat) with
  | none => .next s
  | some s =>
    let cur := tget (s.valley c).epochs block.toNat 0
    if 128 ≤ (cur - epoch).toNat then .next (s.cancelBlock c block.toNat epoch) else .next s

/-! ### The queue at the course port -/

/-- The work of a queued instruction other than a combine. -/
def State.valRun (s : State) (n : Nat) (o : EngOp) (after : State → State) : State :=
  match opCode o.w with
  | 0xD0 => s.runKeep n 5 o (runDispatch n o) after
  | 0xD2 => s.runKeep n 5 o (runReturn n o) after
  | 0xD3 => after (s.runCancel n o)
  | _ => after s

/-- A destination that lies beyond this module's memory, for the arrival signal of a dispatch or return. -/
def farDesc : Desc := { noDesc with remote := true }

/-- The instruction at the head of a core's queue at the course port ends. -/
def State.valComplete (s : State) (n : Nat) : State :=
  match (s.core n).val with
  | [] => s
  | o :: r =>
    let pop (s : State) : State := s.modCore n fun c => { c with val := r }
    if opCode o.w = 0xD1 then
      if !o.begun then s
      else
        let s := pop s
        let s := if immBack o.w then s.modVal (courseOf n) fun v =>
            { v with forward := v.forward.filter fun x => !(x.1 == n && x.2.1 == immLayer o.w && x.2.2.1 == immTag o.w) }
          else s
        s.completeSignal n .val o.sig (some o.dst)
    else
      s.valRun n o fun s => (pop s).completeSignal n .val o.sig (if opCode o.w = 0xD3 then none else some farDesc)

end Sys2Proof.Machine
end

