-- ==== Sys2Proof/Machine/Halt.lean ====
section
/-! DEFINITION. The end of a halt (R40), its event and registers (Tables 02-13 to 02-16), and the filling of the
instruction cache (R35, R38, R39). -/

namespace Sys2Proof.Machine

/-! ### The halt registers -/

def b2n (b : Bool) : Nat := if b then 1 else 0

def haltStreamWord (h : HaltRec) : Nat :=
  b2n h.halted * 2 ^ 63 + b2n h.drainIncomplete * 2 ^ 62 + h.engine.toNat * 2 ^ 8 + h.stream.toNat
def haltPcWord (h : HaltRec) : Nat := h.pcRegion.toNat * 2 ^ 32 + h.pcIndex.toNat
def haltReasonWord (h : HaltRec) : Nat := h.flag.toNat * 2 ^ 16 + h.reason.toNat

/-- HALT: the logical core is the event's source, and the body holds the halt record. -/
def State.haltEvent (s : State) (n : Nat) : State :=
  let h := (s.core n).halt
  s.raise 0x1 3 n [(8, haltStreamWord h), (8, haltPcWord h), (8, haltReasonWord h), (8, h.info.toNat)]

/-! ### Draining (R40) -/

/-- Nothing that was queued or running when the core halted is left. -/
def Core.drained (c : Core) : Bool := c.quiet && c.arrives.isEmpty && c.late.isEmpty

/-- A loaded core that counts as halted and drained: a core with no stream entry counts from START_JOB (R313). -/
def Core.finished (c : Core) : Bool :=
  !c.active || (c.halt.halted && !c.halt.draining) || (!c.f.hasEntry && !c.b.hasEntry && !c.u.hasEntry)

def State.allFinished (s : State) : Bool := s.cores.all fun x => x.2.finished

/-- The job becomes HALTED once every loaded core has halted and drained. -/
def State.settleJob (s : State) : State :=
  if (s.job.state == .running || s.job.state == .faulted) && s.allFinished then s.jobMove .halted 0x08 else s

def State.endDrain (s : State) (n : Nat) (incomplete : Bool) : State :=
  let s := s.modCore n fun c => { c with halt := { c.halt with draining := false, drainIncomplete := incomplete } }
  (s.haltEvent n).settleJob

def execHaltDrainComplete (c : CoreId) (s : State) : Out :=
  let k := s.core c
  if k.halt.draining && k.drained then .next (s.endDrain c false) else .next s

/-- The work a core still has is discarded. -/
def Core.abandon (c : Core) : Core :=
  { c with
    da := { c.da with queue := [], running := [], drained := [] }
    gme := { c.gme.idle with queue := [], run := none }
    ve := [], dma := [], val := [], arrives := [], late := []
    chans := c.chans.map fun x => (x.1, { x.2 with queue := [], cur := none, stops := [] }) }

def execDrainTimeout (c : CoreId) (s : State) : Out :=
  let k := s.core c
  if k.halt.draining && !k.drained then .next ((s.setCore c k.abandon).endDrain c true) else .next s

/-! ### The instruction cache (R35, R38, R39) -/

/-- Lines that a course code cache holds. -/
def codeCacheLines : Nat := 16384

/-- The instruction cache drops a line. -/
def Core.cacheDrop (c : Core) (a : Nat) : Core :=
  { c with icache := tset c.icache (cacheSet a) ((tget c.icache (cacheSet a) []).filter fun l => l.addr != a) }

/-- An uncorrectable error in a line that the instruction cache holds: the line is discarded, counted and reported (R39, R241). -/
def State.icacheUe (s : State) (n a : Nat) : State :=
  (s.modCore n fun c =>
    { c.cacheDrop a with icacheUeRefetch := sat32 c.icacheUeRefetch 1, spadUe := sat32 c.spadUe 1 }).raise 0x22 3 n
      [(1, 4), (8, a), (2, n)]

/-- The same in the code cache of the core's course. -/
def State.codeCacheUe (s : State) (n a : Nat) : State :=
  ((s.modCore n fun c => { c with icacheUeRefetch := sat32 c.icacheUeRefetch 1 }).modCourse (courseOf n) fun x =>
    { x with codeCache := x.codeCache.filter (· != a), ulUe := sat32 x.ulUe 1 }).raise 0x22 2 (courseOf n) [(1, 5), (8, a), (2, n)]

/-- A line is read from HBM into the code cache of the course and into the core's cache; the flag says whether its code held. -/
def State.readCode (s : State) (n region a : Nat) : Bool × State :=
  let y := s.readLine a n
  match y.1 with
  | none => (false, y.2)
  | some _ =>
    (true, (y.2.modCourse (courseOf n) fun z => { z with codeCache := (a :: z.codeCache.filter (· != a)).take codeCacheLines }).modCore n
      fun c => c.cachePut region a)

/-- Words that a read of the instruction cache, or of the code cache of the core's course, corrects are counted (R236). -/
def State.icacheCe (s : State) (n k : Nat) : State := s.modCore n fun c => { c with spadCe := sat32 c.spadCe k }
def State.codeCacheCe (s : State) (n k : Nat) : State := s.modCourse (courseOf n) fun x => { x with ulCe := sat32 x.ulCe k }

/-- Brings a line of a region into the core's cache: from the cache itself, from the code cache of the course, or from HBM; `r` is what the
codes of the cached line come to, and one that is uncorrectable is discarded and read from HBM. `demand`: a miss of it counts, one that
such an error makes included (the rule is silent on that: log entry 14). -/
def State.bringLine (s : State) (n region a : Nat) (demand : Bool) (r : CacheRead) : Bool × State :=
  let hit := (s.core n).cacheHit region a
  let inCourse := (s.course (courseOf n)).codeCache.contains a
  if hit && !r.bad then (true, (s.icacheCe n r.corrected).modCore n fun c => c.cacheTouch a)
  else
    let s := if demand then s.modCore n fun c => { c with icacheMiss := c.icacheMiss + 1 } else s
    if hit then ((s.icacheCe n r.corrected).icacheUe n a).readCode n region a
    else if inCourse then
      if r.bad then ((s.codeCacheCe n r.corrected).codeCacheUe n a).readCode n region a
      else (true, (s.codeCacheCe n r.corrected).modCore n fun c => c.cachePut region a)
    else s.readCode n region a

/-- A stream's demand of the line at a is met, or its HBM copy halts the core. -/
def State.demandLine (s : State) (n : Nat) (t : Stream) (region a : Nat) (r : CacheRead) : State :=
  let next := s.prefetchAddr n t
  let y := s.bringLine n region a true r
  if y.1 then y.2.modCtx n t fun x => { x.takeLine a next with hold := if x.hold = .fetch then .none else x.hold }
  else y.2.haltIssue n 6 t (uncorrectable a)

/-- The stream's oldest prefetch request fills the cache, and, where it has not been abandoned, its line of prefetch. -/
def State.prefetchLine (s : State) (n : Nat) (t : Stream) (e : CacheRead) : State :=
  let x := (s.core n).ctx t
  match x.adrift, x.prefetch with
  | p :: r, _ =>
    let y := (s.modCtx n t fun x => { x with adrift := r }).bringLine n p.1.toNat p.2 false e
    if y.1 then y.2 else y.2.haltIssue n 6 t (uncorrectable p.2)
  | [], some p =>
    let y := (s.modCtx n t fun x => { x with prefetch := none }).bringLine n p.1.toNat p.2 false e
    if y.1 then y.2.modCtx n t fun x => { x with prefLine := some p.2, hold := if x.hold = .fetch then .none else x.hold }
    else y.2.haltIssue n 6 t (uncorrectable p.2)
  | [], none => s

/-- ICACHE_FILL: the line a stream demands, or one that it has prefetched, arrives from the course code cache or HBM. A demanded
line whose prefetch is under way comes with the prefetch (R35). -/
def execIcacheFill (c : CoreId) (t : Stream) (prefetch : Bool) (cached : CacheRead) (s : State) : Out :=
  let n : Nat := c
  let k := s.core n
  let x := k.ctx t
  if !x.hasEntry || k.halt.halted then .next s
  else if prefetch then .next (s.prefetchLine n t cached)
  else
    match s.fetchAddr n t with
    | none => .next s
    | some a =>
      if x.prefetch.map (·.2) == some a then .next s
      else if !s.permits k.regions .code a then .next (s.haltIssue n 6 t (denied .code a))
      else .next ((s.modCtx n t fun x => x.abandonPrefetch (some a)).demandLine n t x.pcRegion.toNat a cached)

end Sys2Proof.Machine
end

