-- ==== Sys2Proof/Machine/Barrier.lean ====
section
/-! DEFINITION. The barrier units (R66 to R71) and the schedule engines (R202, R203, R215 to R217). -/

namespace Sys2Proof.Machine

/-! ### Releases (R68) -/

/-- Marks the arrival of a generation as released. -/
def markDone (level course index gen : Nat) (l : List Unreleased) : List Unreleased :=
  match l.findIdx? fun u => u.level == level && u.course == course && u.barrier == index && u.gen == gen && !u.done with
  | some i => l.modify i fun u => { u with done := true }
  | none => l

/-- Releases due to a stream at a level: those before its first arrival not yet released. -/
def dueReleases (level : Nat) : List Unreleased → List Unreleased × Nat
  | [] => ([], 0)
  | u :: r =>
    if u.level ≠ level then let x := dueReleases level r; (u :: x.1, x.2)
    else if u.done then let x := dueReleases level r; (x.1, x.2 + 1)
    else (u :: r, 0)

/-- A participant's release: its flag rises once for each release that is due. One whose arrivals a core reset has
cleared is released at once. -/
def State.releaseOne (s : State) (level course index gen : Nat) (p : Nat × Stream) : State :=
  let l := ((s.core p.1).ctx p.2).unreleased
  let known := l.any fun u => u.level == level && u.course == course && u.barrier == index && u.gen == gen && !u.done
  if known then
    let x := dueReleases level (markDone level course index gen l)
    let s := s.modCtx p.1 p.2 fun y => { y with unreleased := x.1 }
    if x.2 = 0 then s else s.incFlag p.1 (releaseFlag level p.2) (BitVec.ofNat 32 x.2)
  else s.incFlag p.1 (releaseFlag level p.2) 1

/-- Generation g of a barrier completes. -/
def State.completeBarrier (s : State) (level course index : Nat) : State :=
  let b := s.barrier level course index
  let s := b.parts.foldl (fun s p => s.releaseOne level course index b.gen p) s
  s.setBarrier level course index { b with gen := (b.gen + 1) % 4, arrived := b.look, look := 0, localDone := false }

/-! ### Fabric barriers (R70) -/

def barrierFrame (s : State) (m : ModAddr) (type index gen : Nat) : Frame :=
  { dst := m, src := s.fabric.coord, vc := 3, type := BitVec.ofNat 5 type, operand := BitVec.ofNat 37 (index + gen * 16) }

/-- The count that completes a barrier's generation. -/
def Barrier.full (b : Barrier) : Bool := b.arrived == b.parts.length

/-- The root completes the generation once every member module has arrived. -/
def State.settleRoot (s : State) (index : Nat) : State :=
  let b := s.barrier 2 0 index
  if b.members.all fun m => b.remote.contains (m, b.gen) then
    let others := b.members.filter fun m => m != s.fabric.coord
    let s := others.foldl (fun s m => s.sendFrame (barrierFrame s m 0x14 index b.gen)) s
    (s.setBarrier 2 0 index { b with remote := b.remote.filter fun x => x.2 != b.gen }).completeBarrier 2 0 index
  else s

/-- This module's arrival at a fabric barrier. -/
def State.moduleArrives (s : State) (index : Nat) : State :=
  let b := s.barrier 2 0 index
  let s := s.setBarrier 2 0 index { b with localDone := true }
  if b.root = s.fabric.coord then
    (s.setBarrier 2 0 index { b with localDone := true, remote := (s.fabric.coord, b.gen) :: b.remote }).settleRoot index
  else s.sendFrame (barrierFrame s b.root 0x13 index b.gen)

/-! ### Completing a generation -/

/-- The course's step barrier, whose generation the schedule engine completes (R215). -/
def State.isStepBarrier (s : State) (level index : Nat) : Bool := level == 0 && s.image.loaded && index == s.image.bodies.stepBarrier

/-- Completes the generation whose count is full; the lookahead may complete the next one at once. -/
def State.settleBarrier (s : State) (level course index : Nat) : Nat → State
  | 0 => s
  | fuel + 1 =>
    let b := s.barrier level course index
    if !b.declared || b.parts.isEmpty || !b.full || s.isStepBarrier level index then s
    else if level = 2 then (if b.localDone then s else (s.moduleArrives index).settleBarrier level course index fuel)
    else (s.completeBarrier level course index).settleBarrier level course index fuel

/-- BARRIER_ARRIVAL: the k-th arrival on its way reaches its barrier unit (R67). -/
def execBarrierArrival (k : Nat) (s : State) : Out :=
  match s.arrivals[k]? with
  | none => .next s
  | some a =>
    if (s.arrivals.take k).any fun x => x.core == a.core && x.stream == a.stream then .next s
    else
      let s := { s with arrivals := s.arrivals.eraseIdx k }
      let b := s.barrier a.level a.course a.barrier
      if a.round = b.gen then
        .next ((s.setBarrier a.level a.course a.barrier { b with arrived := b.arrived + 1 }).settleBarrier a.level a.course a.barrier 2)
      else if a.round = (b.gen + 1) % 4 then
        .next (s.setBarrier a.level a.course a.barrier { b with look := b.look + 1 })
      else
        let s := s.modCtx a.core a.stream fun x =>
          { x with unreleased := x.unreleased.eraseP fun u =>
              u.level == a.level && u.barrier == a.barrier && u.gen == a.round && !u.done }
        .next (s.haltCore a.core { engine := 6, stream := a.stream.toNat, region := a.region, index := a.index }
          { reason := 0x0F, info := a.barrier + a.level * 2 ^ 8 + a.round * 2 ^ 10 + b.gen * 2 ^ 12 })

/-- Takes a frame of a type, source and operand out of the inbox that holds it; none when an earlier one of its path
waits. A frame that no port holds is taken as it is presented. -/
def State.takeOperand (s : State) (type : Nat) (src : ModAddr) (operand : Nat) : Option State :=
  let found := (List.range 8).findSome? fun p =>
    ((s.port p).inbox.find? fun f => f.type.toNat == type && f.src == src && f.operand.toNat == operand).map fun f => (p, f)
  match found with
  | some (p, f) => s.takeFrame p f
  | none => some s

/-- BARRIER_ARRIVE: a member module's arrival reaches the root. -/
def execBarrierArrive (f : Fin 16) (gen : BitVec 2) (src : ModAddr) (s : State) : Out :=
  match s.takeOperand 0x13 src (f.val + gen.toNat * 16) with
  | none => .next s
  | some s =>
    let b := s.barrier 2 0 f
    if b.declared && b.root == s.fabric.coord then
      .next (((s.setBarrier 2 0 f { b with remote := (src, gen.toNat) :: b.remote }).settleRoot f).settleBarrier 2 0 f 2)
    else .next s

/-- BARRIER_RELEASE: the root's release reaches a member module. -/
def execBarrierRelease (f : Fin 16) (gen : BitVec 2) (s : State) : Out :=
  match s.takeOperand 0x14 (s.barrier 2 0 f).root (f.val + gen.toNat * 16) with
  | none => .next s
  | some s =>
    let b := s.barrier 2 0 f
    if b.declared && b.localDone && b.gen == gen.toNat then
      .next ((s.completeBarrier 2 0 f).settleBarrier 2 0 f 2)
    else .next s

/-! ### The schedule (R217) -/

/-- The FP32 value nearest a ÷ b. -/
def frac32 (a b : Nat) : W32 := if a = 0 then 0 else near32 false (ratioCmp a b)

/-- Σ (−1)^k y^2k / (2k)!. -/
def cosSeries : Nat → Nat → Int → Int → Int → Int
  | 0, _, _, _, acc => acc
  | n + 1, k, y2, term, acc =>
    cosSeries n (k + 1) y2 (Int.fdiv (fixMul term y2) ((2 * k + 1) * (2 * k + 2))) (if k % 2 = 0 then acc + term else acc - term)

/-- The FP32 value nearest cos(πx) for x from 0 to 1. -/
def cospi32 (x : W32) : W32 :=
  let v := (dec32 x).toUnits (-(fixP : Int))
  let half := Int.fdiv fixOne 2
  if v = half then 0
  else
    let y := fixMul fixPi (if v < half then v else fixOne - v)
    let c := cosSeries 60 0 (fixMul y y) fixOne 0
    fixTo32 (if v < half then c else -c)

def fpOne : W32 := 0x3F800000
def fpHalf : W32 := 0x3F000000

def max32p (a b : W32) : W32 := if FVal.lt (dec32 a) (dec32 b) then b else a

/-- p and the length of the cycle it lies in, for a multiplier of at least 2; lengths saturate. -/
def cyclePlace : Nat → Nat → Nat → Nat → Nat × Nat
  | 0, p, len, _ => (p, len)
  | n + 1, p, len, mul => if len ≤ p then cyclePlace n (p - len) (min (len * mul) (2 ^ 63)) mul else (p, len)

/-- The shape factor after warm-up. -/
def decayFactor (c : Schedule) (p len : Nat) : W32 :=
  let x := if len = 0 then fpOne else frac32 p len
  let r := c.lrMin
  match c.decayShape with
  | 1 => sub32 fpOne (mul32 (sub32 fpOne r) x)
  | 2 => add32 r (mul32 (sub32 fpOne r) (mul32 fpHalf (add32 fpOne (cospi32 x))))
  | 3 => max32p r (pow32 c.gamma p)
  | 4 => let w := max c.warmSteps 1; max32p r (near32 false (sqrtCmp w (w + p)))
  | _ => fpOne

/-- η, d and β of a group at step n. -/
def scheduleAt (g : ParamGroup) (n : Nat) : SchedVal :=
  let c := g.sched
  let warm := n < c.warmSteps
  let u := frac32 (n + 1) c.warmSteps
  let place :=
    let p := n - c.warmSteps
    if c.cycle = 0 then (min p c.decaySteps, c.decaySteps)
    else if c.cycleMul = 1 then (p % c.cycle, c.cycle)
    else cyclePlace 64 p c.cycle c.cycleMul
  let s :=
    if warm then (if c.warmCosine then mul32 fpHalf (sub32 fpOne (cospi32 u)) else u)
    else decayFactor c place.1 place.2
  let beta := if warm then add32 g.betaStart (mul32 (sub32 g.beta1 g.betaStart) u) else g.beta1
  let eta := mul32 g.lrBase s
  { eta := eta, d := sub32 fpOne (mul32 eta g.decay), beta := beta }

/-- Publishes the values of every declared group. -/
def State.publishSchedule (s : State) (c : Nat) : State :=
  let n := (s.course c).step.toNat
  let vals := s.image.bodies.params.map fun p => (p.1, scheduleAt p.2 n)
  s.modCourse c fun x => { x with sched := vals }

/-- The events of the generator's step field (R202, R203): one for each value, by the first course to reach it. -/
def State.stepEvents (s : State) (c : Nat) : State :=
  let n := (s.course c).step.toNat
  if s.rng.wrapDone.contains n then s
  else if n % 2 ^ 32 = 0xFFF00000 then
    { s with rng := { s.rng with wrapWarned := true, wrapDone := n :: s.rng.wrapDone } }.raise 0x17 0 0 [(8, n)]
  else if n % 2 ^ 32 = 0 then
    let s1 := { s with rng := { s.rng with wrapDone := n :: s.rng.wrapDone } }
    if s.rng.wrapWarned then { s1 with rng := { s1.rng with reused := true } }.raise 0x18 0 0 [(8, n)] else s1
  else s

/-- STEP_ADVANCE: a step-barrier generation completes; n, then the values, then the releases (R215). -/
def execStepAdvance (c : CourseId) (s : State) : Out :=
  let k := s.image.bodies.stepBarrier
  let b := s.barrier 0 c k
  if !s.image.loaded || !b.declared || b.parts.isEmpty || !b.full then .next s
  else
    let s := s.modCourse c fun x => { x with step := x.step + 1 }
    .next (((s.publishSchedule c).stepEvents c).completeBarrier 0 c k)

end Sys2Proof.Machine
end

