-- ==== Sys2Proof/Machine/Collective.lean ====
section
/-! DEFINITION. The collective engines (R268 to R275): the sequencer, the rank-order chain, delivery, aborts and lend
windows. A chunk's elements travel as FP32 values; an operation that only moves a tensor of its own format carries the
32-bit words of its lines, or of its element codes where a boundary falls within a line. -/

namespace Sys2Proof.Machine

/-! ### Tensors as one run of elements or lines -/

/-- A stretch of a row: its address, its first element and the one past its last, and where its values stand. -/
structure Seg where
  row : Nat
  a : Nat
  b : Nat
  off : Nat
  deriving DecidableEq, Repr

def elemCount (d : Desc) : Nat := (List.range d.rank).foldl (fun x k => x * dSize d k) 1

/-- The stretches of rows that hold elements start to start + count of a tensor. -/
def segments (d : Desc) (start count : Nat) : List Seg :=
  let n := dSize d 0
  if n = 0 then []
  else
    (dOuter d).zipIdx.filterMap fun x =>
      let lo := max start (x.2 * n)
      let hi := min (start + count) ((x.2 + 1) * n)
      if lo < hi then some { row := dRow d x.1, a := lo - x.2 * n, b := hi - x.2 * n, off := lo - start } else none

/-- Lines of a row that hold elements a to b. -/
def segLines (f : Fmt) (a b : Nat) : List Nat :=
  if f.isShingle then
    let g0 := a / 1024
    let g1 := (b - 1) / 1024
    (List.range ((g1 + 1 - g0) * f.groupLines)).map fun i => g0 * f.groupLines + i
  else
    let l0 := a * f.width / 512
    (List.range ((b * f.width - 1) / 512 + 1 - l0)).map fun i => l0 + i

/-- A collective engine reads a line: the data, or the cause of an abort. -/
def collRead (s : State) (sl a : Nat) : State × Except Nat (List Byte) :=
  if !s.permits (s.coll sl).regions .read a then (s, .error 0x0A)
  else
    let r := s.readLine a (2112 + sl)
    match r.1 with
    | some d => (r.2, .ok d)
    | none => (r.2.raiseUe a (2112 + sl), .error 0x0B)

/-- The cause that keeps a line from being written (R275). -/
def State.collRefusal (s : State) (sl a : Nat) : Option Nat :=
  if !s.permits (s.coll sl).regions .write a then some 0x0A else if (s.liveAt a).isSome then some 0x0C else none

/-- The image of a row with the given lines read and the others zero. -/
def rowImage (sl row extent : Nat) (need : List Nat) : State → List Nat → State × Except Nat (List Byte)
  | s, [] => (s, .ok [])
  | s, i :: r =>
    if need.contains i then
      match collRead s sl (row + 64 * i) with
      | (s, .error e) => (s, .error e)
      | (s, .ok l) =>
        match rowImage sl row extent need s r with
        | (s, .ok t) => (s, .ok (l ++ t))
        | (s, .error e) => (s, .error e)
    else
      match rowImage sl row extent need s r with
      | (s, .ok t) => (s, .ok (zeroLine ++ t))
      | (s, .error e) => (s, .error e)

/-- Values of elements start to start + count, as FP32 (R75). -/
def readFlat (sl : Nat) (d : Desc) (f : Fmt) : State → List Seg → State × Except Nat (List W32)
  | s, [] => (s, .ok [])
  | s, g :: r =>
    match rowImage sl g.row (dExtent d) (segLines f g.a g.b) s (List.range (dExtent d)) with
    | (s, .error e) => (s, .error e)
    | (s, .ok row) =>
      let vs := (((rowValues f d.scale (dSize d 0) row).drop g.a).take (g.b - g.a)).map rne32
      match readFlat sl d f s r with
      | (s, .ok t) => (s, .ok (vs ++ t))
      | (s, .error e) => (s, .error e)

/-- Lines of a stretch, of a format that is no shingle format, whose present content its new content depends on. -/
def segKeeps (f : Fmt) (n a b : Nat) : List Nat :=
  (segLines f a b).filter fun i => !(decide (a * f.width ≤ 512 * i) && decide (min (n * f.width) (512 * (i + 1)) ≤ b * f.width))

/-- Replaces places a on of a list. -/
def overlay {α : Type} (l : List α) (a : Nat) (v : List α) : List α := l.take a ++ v ++ l.drop (a + v.length)

/-! ### What a write comes to, row by row -/

/-- The lines of a row that a write gives new content, and that content as bytes of the row. -/
structure RowWrite where
  row : Nat
  lines : List Nat
  bytes : List Byte
  deriving DecidableEq, Repr

/-- The lines that a write of stretches needs of what stands there are all read before any line is written (R275): what each stretch comes to. -/
def planRows (plan : State → Seg → State × Except Nat RowWrite) : State → List Seg → State × Except Nat (List RowWrite)
  | s, [] => (s, .ok [])
  | s, g :: r =>
    match plan s g with
    | (s, .error e) => (s, .error e)
    | (s, .ok x) =>
      match planRows plan s r with
      | (s, .ok l) => (s, .ok (x :: l))
      | (s, .error e) => (s, .error e)

def RowWrite.addrs (x : RowWrite) : List Nat := x.lines.map fun i => x.row + 64 * i

def putRow (sl : Nat) (s : State) (x : RowWrite) : State :=
  x.lines.foldl (fun s i => s.writeLine (x.row + 64 * i) (bytesAt x.bytes (64 * i) 64) (2112 + sl)) s

/-- Writes what stretches come to, all or nothing. -/
def landRows (s : State) (sl : Nat) (plan : State → Seg → State × Except Nat RowWrite) (segs : List Seg) : State × Except Nat Unit :=
  match planRows plan s segs with
  | (s, .error e) => (s, .error e)
  | (s, .ok l) =>
    match (l.flatMap RowWrite.addrs).findSome? fun a => s.collRefusal sl a with
    | some e => (s, .error e)
    | none => (l.foldl (putRow sl) s, .ok ())

/-- A stretch of a row in an unscaled or plain scaled format, its values converted (R84). -/
def plainRow (sl : Nat) (d : Desc) (f : Fmt) (vs : List W32) (s : State) (g : Seg) : State × Except Nat RowWrite :=
  match rowImage sl g.row (dExtent d) (segKeeps f (dSize d 0) g.a g.b) s (List.range (dExtent d)) with
  | (s, .error e) => (s, .error e)
  | (s, .ok row) =>
    let old := (rowElems f d.scale (dSize d 0) row).map (·.1)
    let new := ((vs.drop g.off).take (g.b - g.a)).map fun v => (convertPlain f d.scale .near (dec32 v)).1
    (s, .ok { row := g.row, lines := segLines f g.a g.b, bytes := packRow f (dExtent d) (overlay old g.a new) })

/-! ### Blocks of a shingle destination (R76, R78, R80) -/

/-- Block of 32 elements of a shingle row to which byte i of the row belongs: its scale, its state or its elements (R76). -/
def shingleBlock (f : Fmt) (i : Nat) : Nat :=
  let g := i / (64 * f.groupLines)
  let o := i % (64 * f.groupLines)
  32 * g + (if o < 64 then o % 32 else (o - 64) / (4 * f.width))

/-- Blocks to which the bytes of line i of a shingle row belong. -/
def lineBlocks (f : Fmt) (i : Nat) : List Nat := ((List.range 64).map fun j => shingleBlock f (64 * i + j)).dedup

/-- A block of a row of n elements has come whole: each of its elements that the entry writes, of those before `stop`, has its value. `base` is
the number of the row's first element. -/
def blockWhole (pend : Tab W32) (n base stop k : Nat) : Bool :=
  (List.range 32).all fun i => decide (n ≤ 32 * k + i ∨ stop ≤ base + 32 * k + i) || thas pend (base + 32 * k + i)

/-- Blocks that hold an element from a to b − 1 and have come whole. -/
def wholeBlocks (pend : Tab W32) (n base stop a b : Nat) : List Nat :=
  (List.range ((b + 31) / 32)).filter fun k => decide (a < 32 * (k + 1)) && blockWhole pend n base stop k

/-- The blocks of padding alone behind the last block of a row's elements, which are written with it (R78). -/
def padBlocks (n : Nat) (ks : List Nat) : List Nat :=
  let last := (n - 1) / 32
  if ks.contains last then (List.range (32 - last % 32 - 1)).map fun i => last + 1 + i else []

/-- Lines of a row with a byte of some blocks; those of them whose new content depends on what stands there: scale lines, and lines with
a byte of another block, or of one that holds elements that the entry does not write. -/
def blockLines (f : Fmt) (extent : Nat) (ks : List Nat) : List Nat :=
  (List.range extent).filter fun i => (lineBlocks f i).any ks.contains

def blockKeeps (f : Fmt) (n base stop : Nat) (ks lines : List Nat) : List Nat :=
  let open_ (k : Nat) : Bool := decide (stop < base + min n (32 * (k + 1)) ∧ 32 * k < n)
  lines.filter fun i => i % f.groupLines == 0 || (lineBlocks f i).any fun k => !ks.contains k || open_ k

/-- The blocks of a stretch of a shingle row that have come whole: each is converted once, from all of its values (R80). An element that the
entry does not write enters at the value it has (DESIGN CHOICE: log entry 26). -/
def shingleRow (sl : Nat) (d : Desc) (f : Fmt) (pend : Tab W32) (start stop : Nat) (s : State) (g : Seg) : State × Except Nat RowWrite :=
  let n := dSize d 0
  let base := start + g.off - g.a
  let own := wholeBlocks pend n base stop g.a g.b
  let ks := own ++ padBlocks n own
  let lines := blockLines f (dExtent d) ks
  match rowImage sl g.row (dExtent d) (blockKeeps f n base stop ks lines) s (List.range (dExtent d)) with
  | (s, .error e) => (s, .error e)
  | (s, .ok row) =>
    let vs := (rowValues f d.scale n row).mapIdx fun i v =>
      match tfind pend (base + i) with | some w => if own.contains (i / 32) then dec32 w else v | none => v
    let new := (convertRow f d.scale {} (dExtent d) 0 row vs).1
    (s, .ok { row := g.row, lines := lines
              bytes := new.mapIdx fun i x => if ks.contains (shingleBlock f i) then x else row.getD i 0 })

def State.modRun (s : State) (sl : Nat) (f : CollRun → CollRun) : State := s.modColl sl fun c => { c with run := c.run.map f }

/-- The values that wait in shingle blocks not yet whole, with some more from `start` on. -/
def pendWith (pend : Tab W32) (start : Nat) (vs : List W32) : Tab W32 := vs.zipIdx.foldl (fun t x => tset t (start + x.2) x.1) pend

/-- Writes values to elements from start on, all or nothing; `stop` is the first element behind those that the entry writes. In a shingle format
a block that the cut into chunks divides waits until the last of its values comes (R14, R80). -/
def writeFlat (s : State) (sl : Nat) (d : Desc) (start stop : Nat) (vs : List W32) : State × Except Nat Unit :=
  match dFmt d with
  | none => (s, .ok ())
  | some f =>
    let segs := segments d start vs.length
    match (segs.flatMap fun g => (segLines f g.a g.b).map fun i => g.row + 64 * i).findSome? fun a => s.collRefusal sl a with
    | some e => (s, .error e)
    | none =>
      if f.isShingle then
        let pend := pendWith (match (s.coll sl).run with | some r => r.pend | none => []) start vs
        match landRows s sl (shingleRow sl d f pend start stop) segs with
        | (s, .error e) => (s, .error e)
        | (s, .ok _) => (s.modRun sl fun r => { r with pend := pend }, .ok ())
      else landRows s sl (plainRow sl d f vs) segs

/-- Address of line i of a tensor's lines in row order. -/
def flatLine (d : Desc) (i : Nat) : Option Nat :=
  (dOuter d)[i / max 1 (dExtent d)]?.map fun idx => dRow d idx + 64 * (i % max 1 (dExtent d))

/-- Lines that the first L elements of a tensor take. -/
def linesOf (d : Desc) (L : Nat) : Nat :=
  let n := max 1 (dSize d 0)
  L / n * dExtent d + dExtent { d with size := [L % n] }

def wordsOfLine (l : List Byte) : List W32 := (List.range 16).map fun i => BitVec.ofNat 32 (natAt l (4 * i) 4)

/-- The words of lines start to start + count. -/
def readRaw (sl : Nat) (d : Desc) : State → List Nat → State × Except Nat (List W32)
  | s, [] => (s, .ok [])
  | s, i :: r =>
    match flatLine d i with
    | none => (s, .ok [])
    | some a =>
      match collRead s sl a with
      | (s, .error e) => (s, .error e)
      | (s, .ok l) =>
        match readRaw sl d s r with
        | (s, .ok t) => (s, .ok (wordsOfLine l ++ t))
        | (s, .error e) => (s, .error e)

/-- Writes words to lines from start on, all or nothing. -/
def writeRaw (s : State) (sl : Nat) (d : Desc) (start : Nat) (ws : List W32) : State × Except Nat Unit :=
  let n := ws.length / 16
  let addrs := (List.range n).filterMap fun i => (flatLine d (start + i)).map fun a => (i, a)
  match addrs.findSome? fun x => s.collRefusal sl x.2 with
  | some e => (s, .error e)
  | none =>
    (addrs.foldl (fun s x => s.writeLine x.2 (((ws.drop (16 * x.1)).take 16).flatMap fun w => leBytes 4 w.toNat) (2112 + sl)) s, .ok ())

/-! ### Element codes, where a boundary falls within a line -/

/-- The words of an element code: its low 32 bits, and the high ones of a wider format. -/
def codeWords (f : Fmt) (c : Nat) : List W32 :=
  if f.width ≤ 32 then [BitVec.ofNat 32 c] else [BitVec.ofNat 32 c, BitVec.ofNat 32 (c / 2 ^ 32)]

/-- Words that carry one element code. -/
def codeSize (f : Fmt) : Nat := if f.width ≤ 32 then 1 else 2

def wordCodes (f : Fmt) : List W32 → List Nat
  | [] => []
  | w :: r =>
    if f.width ≤ 32 then w.toNat :: wordCodes f r
    else
      match r with
      | [] => [w.toNat]
      | v :: r => (w.toNat + v.toNat * 2 ^ 32) :: wordCodes f r

/-- The code words of the elements of stretches of rows. -/
def readWords (sl : Nat) (d : Desc) (f : Fmt) : State → List Seg → State × Except Nat (List W32)
  | s, [] => (s, .ok [])
  | s, g :: r =>
    match rowImage sl g.row (dExtent d) (segLines f g.a g.b) s (List.range (dExtent d)) with
    | (s, .error e) => (s, .error e)
    | (s, .ok row) =>
      let ws := ((((rowElems f d.scale (dSize d 0) row).drop g.a).take (g.b - g.a)).map (·.1)).flatMap (codeWords f)
      match readWords sl d f s r with
      | (s, .ok t) => (s, .ok (ws ++ t))
      | (s, .error e) => (s, .error e)

/-- A stretch of a row with new element codes. -/
def codeRow (sl : Nat) (d : Desc) (f : Fmt) (cs : List Nat) (s : State) (g : Seg) : State × Except Nat RowWrite :=
  match rowImage sl g.row (dExtent d) (segKeeps f (dSize d 0) g.a g.b) s (List.range (dExtent d)) with
  | (s, .error e) => (s, .error e)
  | (s, .ok row) =>
    let old := (rowElems f d.scale (dSize d 0) row).map (·.1)
    (s, .ok { row := g.row, lines := segLines f g.a g.b
              bytes := packRow f (dExtent d) (overlay old g.a ((cs.drop g.off).take (g.b - g.a))) })

/-- Writes element codes from element start on, all or nothing. -/
def writeWords (s : State) (sl : Nat) (d : Desc) (start : Nat) (ws : List W32) : State × Except Nat Unit :=
  match dFmt d with
  | none => (s, .ok ())
  | some f => landRows s sl (codeRow sl d f (wordCodes f ws)) (segments d start (wordCodes f ws).length)

/-! ### Entries (R270, R271) -/

/-- Entry k of a slope's table, with the lengths that its table gave when it began. -/
def State.collEntry? (s : State) (sl k : Nat) : Option CollEntry :=
  ((s.collTable sl)[k]?).map fun e =>
    match (s.coll sl).run with
    | some run => if run.entry = k then { e with lens := run.lengths } else e
    | none => e
def State.groupOf (s : State) (e : CollEntry) : List ModAddr := tget s.image.bodies.collGroups e.group []
def State.rankIn (s : State) (e : CollEntry) : Nat := (s.groupOf e).idxOf s.fabric.coord
def State.preDesc (s : State) (k : Nat) : Desc := tget s.image.bodies.descs k noDesc

/-- The contribution length of rank j; for an all-to-all, of rank j to rank i. -/
def State.collLength (s : State) (e : CollEntry) (j i : Nat) : Nat :=
  let N := max 1 (s.groupOf e).length
  let own := elemCount (s.preDesc e.src)
  if e.lens.isEmpty then (if e.op = 1 ∨ e.op = 3 then own / N else own)
  else if e.op = 3 then e.lens.getD (j * N + i) 0
  else e.lens.getD j 0

/-- Lengths that an entry's table holds: one for each rank, or for each pair of an all-to-all (Table 12-8). -/
def State.lengthCount (s : State) (e : CollEntry) : Nat :=
  let N := (s.groupOf e).length
  if e.op = 3 then N * N else N

/-- The UINT64 lengths of a table, its lines read one by one; from a line that cannot be read on, their values are open. -/
def readLenTable (sl entry base : Nat) : Nat → State → List Nat → State × List Nat
  | 0, s, acc => (s, acc)
  | n + 1, s, acc =>
    match collRead s sl (base + 64 * (acc.length / 8)) with
    | (s, .ok l) => readLenTable sl entry base n s (acc ++ (List.range 8).map fun i => natAt l (8 * i) 8)
    | (s, .error _) => readLenTable sl entry base n s (acc ++ (List.range 8).map fun i => Config.unreadLength sl entry (acc.length + i))

/-- The contribution lengths of an entry that begins (R271). -/
def State.entryLengths (s : State) (sl k : Nat) (e : CollEntry) : State × List Nat :=
  if e.lengths = 0 ∨ 5 ≤ e.op then (s, [])
  else
    match tfind s.image.bodies.allocs e.lengths with
    | none => (s, [])
    | some a =>
      let n := s.lengthCount e
      let x := readLenTable sl k a.base ((n + 7) / 8) s []
      (x.1, x.2.take n)

/-- Sum of f over 0 to n − 1. -/
def sumTo (n : Nat) (f : Nat → Nat) : Nat := (List.range n).foldl (fun x i => x + f i) 0

/-- How an operation that moves carries its elements: as whole lines, as element codes, or as FP32 values. -/
inductive MoveMode where
  | lines | codes | values
  deriving DecidableEq, Repr

/-- The lengths at which the rows and lines of a tensor are cut for the ranks. -/
def State.moveLengths (s : State) (e : CollEntry) : List Nat :=
  let N := (s.groupOf e).length
  if e.op = 3 then (List.range N).flatMap fun j => (List.range N).map fun i => s.collLength e j i
  else if e.op = 4 then [s.collLength e e.root 0]
  else (List.range N).map fun j => s.collLength e j 0

/-- Every boundary falls between lines: rows and lengths of whole lines, or lengths of whole rows of one width. -/
def State.wholeLines (s : State) (e : CollEntry) (f : Fmt) : Bool :=
  let u := if f.isShingle then 1024 else max 1 (512 / max 1 f.width)
  let n := dSize (s.preDesc e.src) 0
  let m := dSize (s.preDesc e.dst) 0
  let l := s.moveLengths e
  (512 % max 1 f.width == 0 || f.isShingle) &&
    ((n % u == 0 && m % u == 0 && l.all fun x => x % u == 0) || (n == m && n != 0 && l.all fun x => x % n == 0))

/-- An operation that moves between tensors of the result format alters no element: its lines or codes go as they stand. -/
def State.moveMode (s : State) (e : CollEntry) : MoveMode :=
  let d := s.preDesc e.src
  let t := s.preDesc e.dst
  match Fmt.ofCode e.outFormat with
  | some f =>
    if !(2 ≤ e.op && e.op ≤ 4) || d.fmt != e.outFormat || t.fmt != e.outFormat || (f.isPlain8 && d.scale != t.scale) then .values
    else if s.wholeLines e f then .lines
    else if f.isShingle then .values
    else .codes
  | none => .values

/-- Elements of a chunk: its lines hold the result format. -/
def chunkElems (e : CollEntry) : Nat :=
  match Fmt.ofCode e.outFormat with
  | some f =>
    if f.isShingle then max 1 (e.chunk / f.groupLines) * 1024 else max 1 (e.chunk * 512 / f.width)
  | none => 16 * e.chunk

/-- Cuts a run into chunks: start and length of each. -/
def cutRun (start total n : Nat) : List (Nat × Nat) :=
  (List.range ((total + n - 1) / max 1 n)).map fun i => (start + n * i, min n (total - n * i))

/-- The tensor of the shard map to which an entry delivers. -/
def State.shardTensor (s : State) (e : CollEntry) : Option TensorShards :=
  s.image.bodies.shards.find? fun x => x.tensor == (s.preDesc e.dst).alloc

/-- Innermost size of the tensor whose groups an entry delivers. -/
def State.groupWidth (s : State) (e : CollEntry) : Nat :=
  max 1 (match s.shardTensor e with | some t => t.width | none => dSize (s.preDesc e.dst) 0)

/-- Update groups of a row (R205). -/
def groupsPerRow (width : Nat) : Nat := (width + 1023) / 1024

/-- The update groups of elements a to b − 1 of a tensor: number, first element and length of each. The last group of a row is shorter
(R205). -/
def cutGroups (width b : Nat) : Nat → Nat → List (Nat × Nat × Nat)
  | 0, _ => []
  | fuel + 1, a =>
    if b ≤ a then []
    else
      let row := a / width
      let g := a % width / 1024
      let stop := min b (row * width + min width (1024 * (g + 1)))
      (row * groupsPerRow width + g, a, stop - a) :: cutGroups width b fuel stop

/-- Chunks of whole groups, so many to a chunk: first element and elements of each. -/
def packGroups (m : Nat) : Nat → List (Nat × Nat × Nat) → List (Nat × Nat)
  | 0, _ => []
  | _, [] => []
  | fuel + 1, x :: r =>
    let l := (x :: r).take m
    (x.2.1, sumTo l.length fun i => (l.getD i (0, 0, 0)).2.2) :: packGroups m fuel ((x :: r).drop m)

/-- Chunks of a reduction in order: first element, elements, owner. A delivery is cut between groups. -/
def State.reduceChunks (s : State) (e : CollEntry) : List (Nat × Nat × Nat) :=
  let N := (s.groupOf e).length
  let E := chunkElems e
  if e.op = 0 then
    (cutRun 0 ((List.range N).foldl (fun m j => max m (s.collLength e j 0)) 0) E).map fun x => (x.1, x.2, 0)
  else
    (List.range N).flatMap fun j =>
      let a := sumTo j fun i => s.collLength e i 0
      let n := s.collLength e j 0
      let l := if e.deliver = 1 then packGroups (max 1 (E / 1024)) n (cutGroups (s.groupWidth e) (a + n) n a) else cutRun a n E
      l.map fun x => (x.1, x.2, j)

/-- Chunks that rank j sends to rank i in an operation that moves: start and length in its source, in lines or elements. -/
def State.moveChunks (s : State) (e : CollEntry) (j i : Nat) : List (Nat × Nat) :=
  let d := s.preDesc e.src
  let before := if e.op = 3 then sumTo i fun k => s.collLength e j k else 0
  let len := s.collLength e j i
  if s.moveMode e = .lines then
    let first := linesOf d before
    cutRun first (linesOf d (before + len) - first) (max 1 e.chunk)
  else cutRun before len (chunkElems e)

/-- Where the chunks of rank j begin in this rank's destination. -/
def State.moveBase (s : State) (e : CollEntry) (j : Nat) : Nat :=
  let r := s.rankIn e
  let before := if e.op = 4 then 0 else sumTo j fun k => s.collLength e k r
  if s.moveMode e = .lines then linesOf (s.preDesc e.dst) before else before

/-! ### Sending -/

def State.sendColl (s : State) (sl : Nat) (e : CollEntry) (entry rank type arg : Nat) (payload : List Byte) : State :=
  match (s.groupOf e)[rank]? with
  | none => s
  | some m =>
    s.sendFrame { dst := m, src := s.fabric.coord, vc := 3, type := BitVec.ofNat 5 type, master := BitVec.ofNat 12 (2112 + sl),
                  operand := BitVec.ofNat 37 (entry + arg * 64), payload := payload }

def elemBytes (l : List W32) : List Byte := l.flatMap fun w => leBytes 4 w.toNat

/-- The whole lines that carry a chunk (Table 12-3). -/
def padElems (elems : List W32) : List Byte :=
  let b := elemBytes elems
  b ++ List.replicate ((64 - b.length % 64) % 64) 0

/-- Most words that an element takes on the way: one, or two for a code of a format wider than 32 bits. -/
def outWords (e : CollEntry) : Nat := match Fmt.ofCode e.outFormat with | some f => if f.width ≤ 32 then 1 else 2 | none => 1

/-- Line indices that each chunk of an entry takes within its transfer: those of its elements as FP32 or as codes, or its lines. They count
modulo 2^31 in the operand (Table 12-3). -/
def chunkPitch (e : CollEntry) : Nat := max (max 1 e.chunk) ((outWords e * chunkElems e + 15) / 16)

/-- Line index of a chunk's first line within its transfer. -/
def chunkLine (e : CollEntry) (k : Nat) : Nat := chunkPitch e * k

/-- A line index of the operand lies in chunk k. -/
def inChunk (e : CollEntry) (k line : Nat) : Bool := decide ((line + 2 ^ 31 - chunkLine e k % 2 ^ 31) % 2 ^ 31 < chunkPitch e)

def State.sendChunk (s : State) (sl : Nat) (e : CollEntry) (entry rank k : Nat) (elems : List W32) : State :=
  let bytes := padElems elems
  (List.range (max 1 ((bytes.length + 511) / 512))).foldl
    (fun s i => s.sendColl sl e entry rank 0x10 (chunkLine e k + 8 * i) ((bytes.drop (512 * i)).take 512)) s

def State.sendCredit (s : State) (sl : Nat) (e : CollEntry) (entry rank freed : Nat) : State :=
  s.sendColl sl e entry rank 0x11 freed []

def State.sendAbort (s : State) (sl : Nat) (e : CollEntry) (entry rank k cause : Nat) : State :=
  s.sendColl sl e entry rank 0x12 k (leBytes 8 cause)

/-- COLL_FAULT: entry, chunk, rank and cause (R275). -/
def State.collFault (s : State) (sl entry k rank cause : Nat) : State :=
  (s.modColl sl fun c => { c with aborts := sat32 c.aborts 1 }).raise 0x35 1 sl [(1, entry), (4, k), (2, rank), (1, cause)]

def runAborted (k : Nat) (r : CollRun) : CollRun := { r with aborted := k :: r.aborted }
def runDone (k : Nat) (r : CollRun) : CollRun := { r with done := k :: r.done }
def runSent (k : Nat) (r : CollRun) : CollRun := { r with sent := k :: r.sent }

def spendLink (c : Coll) : Coll := { c with linkFree := c.linkFree - 1 }

/-! ### Delivery (R273, R274) -/

/-- The shard that owns a group of the destination's tensor on this module. -/
def State.shardOf (s : State) (e : CollEntry) (g : Nat) : Option Shard :=
  match s.shardTensor e with
  | some t => t.shards.find? fun x => decide (x.firstGroup ≤ g ∧ g < x.firstGroup + x.groups) && x.module == s.fabric.coord
  | none => none

/-- The groups of a chunk that this module owns. -/
def State.groupsOf (s : State) (e : CollEntry) (start count : Nat) : List (Nat × Nat × Nat) :=
  (cutGroups (s.groupWidth e) (start + count) count start).filter fun g => (s.shardOf e g.1).isSome

/-- Address of the ring slot that takes the k-th further group of a ring. -/
def slotAddr (c : Coll) (x : Shard) (k : Nat) : Nat :=
  x.ringBase + 64 * (x.slotLines * ((tget c.ringNext x.ringBase 0 + k) % 2 ^ x.ringLog2))

/-- The cause that keeps the groups of a chunk from their slots. -/
def State.slotRefusal (s : State) (sl : Nat) (e : CollEntry) (l : List (Nat × Nat × Nat)) : Option Nat :=
  let xs := l.filterMap fun g => s.shardOf e g.1
  xs.zipIdx.findSome? fun x =>
    let k := ((xs.take x.2).filter fun y => y.ringBase == x.1.ringBase).length
    (List.range x.1.slotLines).findSome? fun i => s.collRefusal sl (slotAddr (s.coll sl) x.1 k + 64 * i)

/-- The bytes of a group in a landing ring's slot: in a shingle format with derived scales and fresh states, in a plain scaled format under
scale byte 127 (DESIGN CHOICE: log entry 61). -/
def slotBytes (f : Fmt) (lines : Nat) (part : List W32) : List Byte :=
  if f.isShingle then (convertRow f 127 { derived := true } lines 0 [] (part.map dec32)).1
  else packRow f lines (part.map fun v => (convertPlain f 127 .near (dec32 v)).1)

/-- Writes one group into the next slot of its ring, spends a credit and raises the arrival flag (R206, R274). -/
def deliverGroup (sl : Nat) (e : CollEntry) (x : Shard) (part : List W32) (s : State) : State :=
  match Fmt.ofCode e.outFormat with
  | none => s
  | some f =>
    let bytes := slotBytes f x.slotLines part
    let s := putLines (2112 + sl) x.slotLines s (slotAddr (s.coll sl) x 0) bytes
    let s := s.modColl sl fun c =>
      { c with rings := tmod c.rings x.ringBase 0 (· + 1), ringNext := tmod c.ringNext x.ringBase 0 (· + 1) }
    s.incFlag x.core x.arrivalFlag 1

/-- The chunk at the head of the landings is delivered: it is done, and the credit it owes goes to the last rank. -/
def State.landed (s : State) (sl : Nat) (e : CollEntry) (entry : Nat) (x : Landing) : State :=
  let s := s.modRun sl fun r => { r with landing := r.landing.tail, done := x.chunk :: r.done }
  if x.owes then s.sendCredit sl e entry ((s.groupOf e).length - 1) 1 else s

/-- Delivers groups in ascending order while their rings have credits (R274). -/
def landOn (sl : Nat) (e : CollEntry) (entry : Nat) : Nat → State → State
  | 0, s => s
  | fuel + 1, s =>
    match (s.coll sl).run with
    | none => s
    | some run =>
      match run.landing with
      | [] => s
      | x :: r =>
        match x.left with
        | [] => landOn sl e entry fuel (s.landed sl e entry x)
        | g :: l =>
          match s.shardOf e g.1 with
          | none => landOn sl e entry fuel (s.modRun sl fun y => { y with landing := { x with left := l } :: r })
          | some h =>
            if tget (s.coll sl).rings h.ringBase 0 < 2 ^ h.ringLog2 then
              landOn sl e entry fuel
                ((deliverGroup sl e h ((x.values.drop (g.2.1 - x.start)).take g.2.2) s).modRun sl fun y =>
                  { y with landing := { x with left := l } :: r })
            else s

/-- Steps that the landings of a run can take. -/
def CollRun.landSteps (r : CollRun) : Nat := r.landing.foldl (fun a x => a + x.left.length + 1) 1

/-- Goes on with the landings of the entry that runs. -/
def State.landGoOn (s : State) (sl : Nat) : State :=
  match (s.coll sl).run with
  | none => s
  | some run =>
    match s.collEntry? sl run.entry with
    | none => s
    | some e => landOn sl e run.entry run.landSteps s

/-- A final chunk goes to the landing rings of this module, none of whose slots refuses it. -/
def landRing (s : State) (sl : Nat) (e : CollEntry) (k start : Nat) (vs : List W32) (owes : Bool) : State × Except Nat Unit :=
  let l := s.groupsOf e start vs.length
  match s.slotRefusal sl e l with
  | some c => (s, .error c)
  | none =>
    ((s.modRun sl fun r => { r with landing := r.landing ++ [{ chunk := k, start := start, values := vs, left := l, owes := owes }] }).landGoOn sl,
     .ok ())

/-- Elements of this module's destination that an entry writes, from the first on (Table 12-8). -/
def State.landEnd (s : State) (e : CollEntry) : Nat :=
  let N := (s.groupOf e).length
  let r := s.rankIn e
  match e.op with
  | 0 => (List.range N).foldl (fun m j => max m (s.collLength e j 0)) 0
  | 1 => s.collLength e r 0
  | 4 => s.collLength e e.root 0
  | _ => sumTo N fun j => s.collLength e j r

/-- The final chunk of a reduction lands in this module's destination. -/
def landFinal (s : State) (sl : Nat) (e : CollEntry) (start : Nat) (vs : List W32) : State × Except Nat Unit :=
  let first := if e.op = 0 then 0 else sumTo (s.rankIn e) fun i => s.collLength e i 0
  writeFlat s sl (s.preDesc e.dst) (start - first) (s.landEnd e) vs

/-! ### The chain (R272) -/

/-- This rank's contribution to elements start to start + count. -/
def ownPart (s : State) (sl : Nat) (e : CollEntry) (start count : Nat) : State × Except Nat (List W32) :=
  let r := s.rankIn e
  let len := if e.op = 0 then s.collLength e r 0 else sumTo (s.groupOf e).length fun i => s.collLength e i 0
  let d := s.preDesc e.src
  match dFmt d with
  | some f => readFlat sl d f s (segments d start (min count (len - start)))
  | none => (s, .ok [])

/-- Adds a contribution in rank order; where one of the two is absent the other stands. -/
def addPart : List W32 → List W32 → List W32
  | [], b => b
  | a, [] => a
  | x :: a, y :: b => add32 x y :: addPart a b

/-- A run of values in a shingle format, as FP32: blocks of 32 from its first, each with its derived scale (R82). -/
def throughShingle (ff : FloatFmt) (vs : List W32) : List W32 :=
  (chunksOf vs).flatMap fun b =>
    let x := convertBlock ff true 0 127 0 (b.map fun v => some (dec32 v)) (b.map fun _ => .near)
    x.codes.map fun c => if x.scale = 0xFF then canonNan32 else rne32 ((ff.decode c).scale2 ((x.scale.toNat : Int) - 127))

/-- The final sum in the result format, as FP32. Where that is the destination's format, the destination's own conversion is the one that
R96 asks for. Elsewhere out_format names no scale: a plain scaled format is taken under scale byte 127, a shingle format in blocks of 32
from the chunk's first element with derived scales (DESIGN CHOICE: log entry 61). -/
def toOut (e : CollEntry) (d : Desc) (vs : List W32) : List W32 :=
  match Fmt.ofCode e.outFormat with
  | some f =>
    if d.fmt == e.outFormat then vs
    else if f.isShingle then (match f.float? with | some ff => throughShingle ff vs | none => vs)
    else vs.map fun v => rne32 (decodeElem f (convertPlain f 127 .near (dec32 v)).1 127)
  | none => vs

/-- COLL_FAULT for an abort that this engine passes, once for a chunk. -/
def State.abortEvent (s : State) (sl entry k cause : Nat) (r : Nat) : State :=
  let told := match (s.coll sl).run with | some x => x.chainLost.contains k | none => false
  if told then s else (s.modRun sl fun x => { x with chainLost := k :: x.chainLost }).collFault sl entry k r cause

/-- An abort goes on along the chunk's path from this rank, or ends here. `chain` says which part of the path it is on; on the chain the
chunk is settled here only when its abort comes round. -/
def passAbort (s : State) (sl : Nat) (e : CollEntry) (entry k cause : Nat) (chain : Bool) : State :=
  let N := (s.groupOf e).length
  let r := s.rankIn e
  let s := s.abortEvent sl entry k cause r
  if chain && decide (r + 1 < N) then (s.modRun sl (runSent k)).sendAbort sl e entry (r + 1) k cause
  else
  let s := s.modRun sl (runAborted k)
  if chain then
    if e.op = 0 then (if 1 < N then s.sendAbort sl e entry 0 k cause else s)
    else
      match (s.reduceChunks e)[k]? with
      | some (_, _, q) => if q = r then s else s.sendAbort sl e entry q k cause
      | none => s
  else if e.op = 0 ∧ r + 2 < N then s.sendAbort sl e entry (r + 1) k cause
  else s

/-- A final chunk at this rank: it lands, and an all-reduce passes it up to rank N − 2. `owes` says that the last rank awaits a credit
for it. -/
def finalHere (s : State) (sl : Nat) (e : CollEntry) (entry k start : Nat) (vs : List W32) (owes : Bool) : State :=
  let N := (s.groupOf e).length
  let r := s.rankIn e
  if e.op = 1 then
    if e.deliver = 1 then
      match landRing s sl e k start vs owes with
      | (s, .ok _) => s
      | (s, .error c) =>
        let s := passAbort s sl e entry k c (r + 1 == N)
        if owes then s.sendCredit sl e entry (N - 1) 1 else s
    else
      let s := match landFinal s sl e start vs with
        | (s, .error c) => passAbort s sl e entry k c (r + 1 == N)
        | (s, .ok _) => s.modRun sl (runDone k)
      if owes then s.sendCredit sl e entry (N - 1) 1 else s
  else
    match landFinal s sl e start vs with
    | (s, .error c) => passAbort s sl e entry k c (r + 1 == N)
    | (s, .ok _) =>
      let s := s.modRun sl (runDone k)
      if r + 1 = N then (if 1 < N then s.sendChunk sl e entry 0 k vs else s)
      else if r + 2 < N then s.sendChunk sl e entry (r + 1) k vs
      else s

/-- The chunk leaves this rank of the chain: on to the next, or final at the last. -/
def chainOut (s : State) (sl : Nat) (e : CollEntry) (entry k : Nat) (c : Nat × Nat × Nat) (vs : List W32) : State :=
  let N := (s.groupOf e).length
  let r := s.rankIn e
  let s := s.modRun sl (runSent k)
  if r + 1 < N then (s.modColl sl spendLink).sendChunk sl e entry (r + 1) k vs
  else
    let out := toOut e (s.preDesc e.dst) vs
    if e.op = 0 ∨ c.2.2 = r then finalHere s sl e entry k c.1 out false
    else (s.modColl sl spendLink).sendChunk sl e entry c.2.2 k out

/-- No chunk waits for credits of a landing ring. -/
def Coll.landingsEmpty (c : Coll) : Bool := match c.run with | some r => r.landing.isEmpty | none => true

/-- The range of addresses of a unit that is in reset or migrates, if a byte range meets one (R337, R350). -/
def State.rangeHeld (s : State) (lo hi : Nat) : Bool :=
  let meets (base size : Nat) : Bool := decide (lo < base + size ∧ base ≤ hi)
  (s.coreReset.any fun n => meets (spadBase n) 0x100000) ||
    s.courses.any fun x =>
      (x.2.inReset && (meets (ulBase x.1) 0x2000000 || meets (spadBase (32 * x.1)) 0x2000000)) ||
        (match x.2.migration with | some m => meets (spadBase (32 * x.1 + m.k)) 0x100000 | none => false)

/-- A tensor of this module meets such a unit. -/
def State.descHeld (s : State) (d : Desc) : Bool :=
  !dEmpty d && (match footprint d with | some (lo, hi) => s.rangeHeld (64 * lo).toNat (64 * hi).toNat | none => false)

/-- The entry reads a tensor of a role that migrates, or of a unit in reset: its reads are held, and its engine waits (R350). -/
def State.entryHeld (s : State) (e : CollEntry) : Bool :=
  (decide (e.op ≤ 4) && (s.descHeld (s.preDesc e.src) || s.descHeld (s.preDesc e.dst))) ||
    (decide (e.op ≤ 4 ∨ e.op = 6) &&
      match tfind s.image.bodies.allocs e.lengths with | some a => s.rangeHeld a.base (a.base + 64 * a.lines - 1) | none => false)

/-- This rank can take chunk k through: it holds the credits that the next place asks for. -/
def chainReady (s : State) (sl : Nat) (e : CollEntry) (c : Nat × Nat × Nat) : Bool :=
  let N := (s.groupOf e).length
  let r := s.rankIn e
  if r + 1 < N then (s.coll sl).linkFree != 0
  else if e.op = 0 then true
  else if c.2.2 = r then e.deliver != 1 || (s.coll sl).landingsEmpty
  else (s.coll sl).linkFree != 0

/-- Forms chunk k at this rank from the partial sum that came and its own part. -/
def chainStage (s : State) (sl : Nat) (e : CollEntry) (entry k : Nat) (c : Nat × Nat × Nat) (partialSum : List W32) : State :=
  match ownPart s sl e c.1 c.2.1 with
  | (s, .error cause) => passAbort s sl e entry k cause true
  | (s, .ok own) => chainOut s sl e entry k c (addPart partialSum own)

/-- Rank 0 forms further chunks while the chain takes them and the job does not drain. -/
def chainFeed (sl : Nat) (e : CollEntry) (entry : Nat) (chunks : List (Nat × Nat × Nat)) : Nat → State → State
  | 0, s => s
  | fuel + 1, s =>
    match (s.coll sl).run with
    | none => s
    | some run =>
      match chunks.zipIdx.find? fun x => !run.sent.contains x.2 with
      | none => s
      | some (c, k) =>
        if s.job.state = .draining ∨ !chainReady s sl e c then s
        else chainFeed sl e entry chunks fuel (chainStage s sl e entry k c [])

def runStaged (l : List (Nat × List W32)) (r : CollRun) : CollRun := { r with staged := l }

/-- A later rank forms the chunks that have come along the chain, in order, while the chain takes them and the job does not drain. Each that has
left its staging gives the rank before it a credit (R272). -/
def chainPass (sl : Nat) (e : CollEntry) (entry : Nat) (chunks : List (Nat × Nat × Nat)) : Nat → State → State
  | 0, s => s
  | fuel + 1, s =>
    match (s.coll sl).run with
    | none => s
    | some run =>
      match run.staged with
      | [] => s
      | (k, vs) :: l =>
        match chunks[k]? with
        | none => chainPass sl e entry chunks fuel (s.modRun sl (runStaged l))
        | some c =>
          if s.job.state = .draining ∨ !chainReady s sl e c then s
          else
            chainPass sl e entry chunks fuel
              ((chainStage (s.modRun sl (runStaged l)) sl e entry k c vs).sendCredit sl e entry (s.rankIn e - 1) 1)

/-- A reduction goes on with what this rank can send. -/
def State.feed (s : State) (sl : Nat) : State :=
  match (s.coll sl).run with
  | none => s
  | some run =>
    match s.collEntry? sl run.entry with
    | none => s
    | some e =>
      if 2 ≤ e.op ∨ s.entryHeld e then s
      else if s.rankIn e = 0 then chainFeed sl e run.entry (s.reduceChunks e) ((s.reduceChunks e).length + 1) s
      else chainPass sl e run.entry (s.reduceChunks e) (run.staged.length + 1) s

/-- Every collective engine goes on with the groups that wait for credits of their landing rings, and with its chain (R206, R274). -/
def State.landAll (s : State) : State := ([0, 1, 2, 3] : List Nat).foldl (fun s sl => (s.landGoOn sl).feed sl) s

/-! ### Operations that move (R273) -/

def moveKey (rank k : Nat) : Nat := rank * 2 ^ 32 + k

/-- Reads a chunk of this rank's contribution. -/
def moveRead (s : State) (sl : Nat) (e : CollEntry) (c : Nat × Nat) : State × Except Nat (List W32) :=
  let d := s.preDesc e.src
  match s.moveMode e, dFmt d with
  | .lines, _ => readRaw sl d s ((List.range c.2).map fun i => c.1 + i)
  | .codes, some f => readWords sl d f s (segments d c.1 c.2)
  | .values, some f => readFlat sl d f s (segments d c.1 c.2)
  | _, none => (s, .ok [])

/-- Writes a chunk of rank j's contribution to this module's destination. -/
def moveLand (s : State) (sl : Nat) (e : CollEntry) (j k : Nat) (vs : List W32) : State × Except Nat Unit :=
  let cs := s.moveChunks e j (s.rankIn e)
  let first := match cs.head? with | some c => c.1 | none => 0
  let place := s.moveBase e j + ((cs.getD k (first, 0)).1 - first)
  let d := s.preDesc e.dst
  match s.moveMode e with
  | .lines => writeRaw s sl d place vs
  | .codes => writeWords s sl d place vs
  | .values => writeFlat s sl d place (s.landEnd e) (toOut e d vs)

/-- A chunk of rank j's contribution that this rank does not get. -/
def moveLost (s : State) (sl entry j k rank cause : Nat) : State :=
  (s.modRun sl (runAborted (moveKey j k))).collFault sl entry k rank cause

/-- This rank's chunk k, which it could read, goes to rank i, or lands here. -/
def moveSend (sl : Nat) (e : CollEntry) (entry k : Nat) (vs : List W32) (s : State) (i : Nat) : State :=
  let r := s.rankIn e
  if i = r then
    match moveLand s sl e r k vs with
    | (s, .ok _) => s.modRun sl (runDone (moveKey r k))
    | (s, .error c) => moveLost s sl entry r k r c
  else s.sendChunk sl e entry i k vs

/-- Sends this rank's chunk k to the ranks that are to have it; one that it cannot read is aborted at each, with one event (R275). -/
def moveOne (sl : Nat) (e : CollEntry) (entry : Nat) (ranks : List Nat) (s : State) (x : (Nat × Nat) × Nat) : State :=
  let r := s.rankIn e
  match moveRead s sl e x.1 with
  | (s, .error c) =>
    let s := s.collFault sl entry x.2 r c
    ranks.foldl (fun s i => if i = r then s.modRun sl (runAborted (moveKey r x.2)) else s.sendAbort sl e entry i x.2 c) s
  | (s, .ok vs) => ranks.foldl (moveSend sl e entry x.2 vs) s

/-- An all-gather or a broadcast: each chunk goes to every rank. -/
def moveAll (s : State) (sl : Nat) (e : CollEntry) (entry : Nat) : State :=
  (s.moveChunks e (s.rankIn e) 0).zipIdx.foldl (moveOne sl e entry (List.range (s.groupOf e).length)) s

/-- An all-to-all: this rank's contribution to rank i, ended by a count header, an empty chunk. -/
def moveTo (sl : Nat) (e : CollEntry) (entry : Nat) (s : State) (i : Nat) : State :=
  let r := s.rankIn e
  let cs := s.moveChunks e r i
  let s := cs.zipIdx.foldl (moveOne sl e entry [i]) s
  if i ≠ r then s.sendChunk sl e entry i cs.length [] else s

/-! ### The sequencer (R270) -/

/-- The fabric barrier of an entry's group: the first declared one whose members are the group's (R273; DEDUCED: log entry 61). -/
def State.groupBarrier (s : State) (e : CollEntry) : Option Nat :=
  let g := s.groupOf e
  (s.image.bodies.barriers.find? fun b => b.level == 2 && b.members.all g.contains && g.all b.members.contains).map (·.index)

/-- COLL_ENTRY_BEGIN for the operations other than a re-shard. -/
def State.startEntry (s : State) (sl : Nat) (e : CollEntry) (k : Nat) : State :=
  let N := (s.groupOf e).length
  match e.op with
  | 0 => s.feed sl
  | 1 => s.feed sl
  | 2 => moveAll s sl e k
  | 3 => (List.range N).foldl (moveTo sl e k) s
  | 4 => if s.rankIn e = e.root then moveAll s sl e k else s
  | 5 =>
    match s.groupBarrier e with
    | some b => (s.modRun sl (runSent (s.barrier 2 0 b).gen)).moduleArrives b
    | none => s
  | 7 => s.modColl sl fun c =>
      { c with lend := c.lend ++ ((List.range 8).filter fun v => e.lendVcs.getLsbD v).map fun v => (v, k) }
  | _ => s

/-- A line that a collective engine has written is held at a unit in reset or migrating: it has not committed. -/
def State.collHeld (s : State) (sl : Nat) : Bool :=
  s.held.any fun h => match h.op with | .line _ _ m => m == 2112 + sl | _ => false

/-- Whether everything the entry has to write on this module is written. -/
def State.entryWritten (s : State) (e : CollEntry) (run : CollRun) : Bool :=
  let N := (s.groupOf e).length
  let r := s.rankIn e
  let settled (k : Nat) : Bool := run.done.contains k || run.aborted.contains k
  let moved (j : Nat) : Bool := (List.range (s.moveChunks e j r).length).all fun k => settled (moveKey j k)
  match e.op with
  | 0 => (List.range (s.reduceChunks e).length).all settled
  | 1 => (s.reduceChunks e).zipIdx.all fun x => settled x.2 || (x.1.2.2 != r && run.sent.contains x.2)
  | 2 => (List.range N).all moved
  | 3 => (List.range N).all fun j => moved j && (j == r || run.counts.contains j)
  | 4 => moved e.root
  | 5 => match s.groupBarrier e with | some b => run.sent.all fun g => (s.barrier 2 0 b).gen != g | none => true
  | 6 => !s.reshard.running
  | _ => true

/-- The entry has completed: every destination line it writes on this module has committed (R270). -/
def State.entryDone (s : State) (sl : Nat) (e : CollEntry) (run : CollRun) : Bool := s.entryWritten e run && !s.collHeld sl

/-- COLL_ENTRY_COMPLETE: the done flag of the done core increments and the next entry is due. -/
def execCollEntryComplete (sl : SlopeId) (s : State) : Out :=
  match (s.coll sl).run with
  | none => .next s
  | some run =>
    match s.collEntry? sl run.entry with
    | none => .next s
    | some e =>
      if s.entryDone sl e run then
        let s := s.modColl sl fun c =>
          { c with run := none, last := run.entry, next := (run.entry + 1) % max 1 (s.collTable sl).length, linkFree := 2 }
        .next (s.incFlag e.doneCore e.doneFlag 1)
      else .next s

/-! ### Arrivals -/

/-- Takes the frames of a chunk out of the inbox that holds them. -/
def State.takeChunk (s : State) (e : CollEntry) (src : ModAddr) (entry chunk : Nat) (bytes : List Byte) : Option State :=
  let found := (List.range 8).findSome? fun p =>
    let own := (s.port p).inbox.filter fun f => f.type == 0x10 && f.src == src && fOp f 0 6 == entry && inChunk e chunk (fOp f 6 31)
    match own with
    | [] => none
    | f :: _ => if bytes.isEmpty then (if f.payload.isEmpty then some (p, [f]) else none)
                else (payloadFrames bytes own).map fun l => (p, l)
  match found with
  | some (p, l) => takeFrames p s l
  | none => some s

/-- The first frame of a type, an entry and an argument that an inbox holds, with its port. -/
def State.collFrame (s : State) (type entry arg : Nat) : Option (Nat × Frame) :=
  (List.range 8).findSome? fun p =>
    ((s.port p).inbox.find? fun f => f.type.toNat == type && fOp f 0 6 == entry && fOp f 6 31 == arg).map fun f => (p, f)

/-- Takes such a frame out of its inbox: the rank that sent it, and the state. None when an earlier frame of its path waits; a frame that
no port holds is taken as it is presented. -/
def State.takeColl (s : State) (e : CollEntry) (type entry arg : Nat) : Option (Option Nat × State) :=
  match s.collFrame type entry arg with
  | some (p, f) => (s.takeFrame p f).map fun t => (some ((s.groupOf e).idxOf f.src), t)
  | none => some (none, s)

/-- The frames of a type and an entry are taken from every inbox, and go. -/
def State.dropColl (s : State) (type entry : Nat) : State :=
  (List.range 8).foldl
    (fun s p =>
      let gone (f : Frame) : Bool := f.type.toNat == type && fOp f 0 6 == entry
      let l := (s.port p).inbox.filter gone
      owe (s.modPort p fun x => { x with inbox := x.inbox.filter fun f => !gone f })
        ((l.filter fun f => f.src != s.fabric.coord).map fun f => (p, s.hopKey p false f, frameCost f))) s

/-- Frames of an entry that does not run: a job that may still begin it keeps them waiting; without one no entry begins, and they are taken and
discarded (R315; DESIGN CHOICE: log entry 27). -/
def State.strayColl (s : State) (type entry : Nat) : State :=
  if [JobState.loaded, .running, .paused, .faulted].contains s.job.state then s else s.dropColl type entry

/-- COLL_DATA: a chunk arrives from another rank. One of the chain goes into its staging, and on from there while the next place has a credit
(R272); while the job drains no further chunk is begun (R315). -/
def execCollData (sl : SlopeId) (entry : Nat) (chunk : Nat) (fromRank : Nat) (elems : List W32) (s : State) : Out :=
  match (s.coll sl).run, s.collEntry? sl entry with
  | some run, some e =>
    let N := (s.groupOf e).length
    let r := s.rankIn e
    if run.entry ≠ entry then .next (s.strayColl 0x10 entry)
    else if N ≤ fromRank ∨ fromRank = r ∨ s.entryHeld e then .next s
    else
      match s.takeChunk e ((s.groupOf e).getD fromRank 0) entry chunk (padElems elems) with
      | none => .next s
      | some s1 =>
        if e.op ≤ 1 then
          match (s.reduceChunks e)[chunk]? with
          | none => .next s
          | some c =>
            let final := if e.op = 1 then fromRank + 1 == N && r + 1 != N
                         else (r == 0 && fromRank + 1 == N) || (run.sent.contains chunk && fromRank + 1 == r)
            if final then .next (finalHere s1 sl e entry chunk c.1 elems (e.op == 1))
            else if fromRank + 1 ≠ r ∨ run.sent.contains chunk ∨ (run.staged.any fun x => x.1 == chunk) ∨ 2 ≤ run.staged.length then
              .next s
            else .next ((s1.modRun sl (runStaged (run.staged ++ [(chunk, elems)]))).feed sl)
        else if elems.isEmpty && e.op == 3 then
          .next (s1.modRun sl fun x => { x with counts := fromRank :: x.counts })
        else
          match moveLand s1 sl e fromRank chunk elems with
          | (s2, .ok _) => .next (s2.modRun sl (runDone (moveKey fromRank chunk)))
          | (s2, .error c) => .next (moveLost s2 sl entry fromRank chunk r c)
  | _, _ => .next (s.strayColl 0x10 entry)

/-- The next rank of the chain can take so many further chunks. -/
def State.linkGrant (s : State) (sl freed : Nat) : State :=
  (s.modColl sl fun c => { c with linkFree := min 2 (c.linkFree + freed) }).feed sl

/-- A credit that comes once its entry has completed is taken, and grants nothing. -/
def State.lateCredit (s : State) (entry freed : Nat) : State :=
  match s.collFrame 0x11 entry freed with
  | some (p, f) => (s.takeFrame p f).getD s
  | none => s

/-- COLL_CREDIT: the next rank takes further chunks. -/
def execCollCredit (sl : SlopeId) (entry : Nat) (freed : Nat) (s : State) : Out :=
  match (s.coll sl).run, s.collEntry? sl entry with
  | some run, some e =>
    if run.entry ≠ entry then .next (s.lateCredit entry freed)
    else
      match s.takeColl e 0x11 entry freed with
      | some (_, s) => .next (s.linkGrant sl freed)
      | none => .next s
  | _, _ => .next (s.lateCredit entry freed)

/-- The abort of a chunk of a reduction finds this rank where the chain has still to pass. -/
def abortInChain (s : State) (e : CollEntry) (run : CollRun) (k : Nat) : Bool :=
  let r := s.rankIn e
  r != 0 && !run.sent.contains k && !(e.op == 1 && r + 1 != (s.groupOf e).length &&
    match (s.reduceChunks e)[k]? with | some c => c.2.2 == r && run.sent.contains k | none => false)

/-- The first rank whose moved chunk of this number is still awaited. -/
def awaitedRank (s : State) (e : CollEntry) (run : CollRun) (k : Nat) : Option Nat :=
  let r := s.rankIn e
  (List.range (s.groupOf e).length).find? fun j =>
    j != r && decide (k < (s.moveChunks e j r).length) && !run.done.contains (moveKey j k) && !run.aborted.contains (moveKey j k)

/-- COLL_ABORT: a chunk's abort arrives and is passed along its remaining path. -/
def execCollAbort (sl : SlopeId) (entry : Nat) (chunk : Nat) (cause : Byte) (s : State) : Out :=
  match (s.coll sl).run, s.collEntry? sl entry with
  | some run, some e =>
    if run.entry ≠ entry then .next (s.strayColl 0x12 entry)
    else
      match s.takeColl e 0x12 entry chunk with
      | none => .next s
      | some (src, s) =>
        if e.op ≤ 1 then
          if run.aborted.contains chunk then .next s
          else .next (passAbort s sl e entry chunk cause.toNat (abortInChain s e run chunk))
        else
          match src.orElse fun _ => awaitedRank s e run chunk with
          | some j => .next (if run.aborted.contains (moveKey j chunk) then s
                             else moveLost s sl entry j chunk (s.rankIn e) cause.toNat)
          | none => .next s
  | _, _ => .next (s.strayColl 0x12 entry)

/-- LEND_WINDOW_END: the end trigger of an open lend window is reached (R268). -/
def execLendWindowEnd (sl : SlopeId) (s : State) : Out :=
  let due := (s.coll sl).lend.find? fun x =>
    match s.collEntry? sl x.2 with
    | some e => flagGe ((s.core e.endCore).flag e.endFlag) e.endCount
    | none => true
  match due with
  | some x => .next (s.modColl sl fun c => { c with lend := c.lend.filter fun y => y.2 != x.2 })
  | none => .next s

end Sys2Proof.Machine
end

