-- ==== Sys2Proof/Machine/Rcp.lean ====
section
/-! DEFINITION. Sessions, responses and their cache, and the checks that every command of the Ridge Command Protocol
passes (R297 to R307, R372). -/

namespace Sys2Proof.Machine

/-- The MAC address: an individual and universally administered one, bits 0 and 1 of its first octet zero. The first octet is the register's
lowest byte (R9; DEDUCED: log entry 62). -/
def hostMac : Nat := Config.hostMac.toNat / 4 * 4

namespace State

def session? (s : State) (ss : Nat) : Option Session := s.rcp.sessions.find? fun x => x.id == ss

def modSession (s : State) (ss : Nat) (f : Session → Session) : State :=
  { s with rcp := { s.rcp with sessions := s.rcp.sessions.map fun x => if x.id = ss then f x else x } }

def isOwner (s : State) (ss : Nat) : Bool := match s.session? ss with | some x => x.owner | none => false

/-- Physical presence is shown: the jumper is fitted, or a presence window is open (R372). -/
def presence (s : State) : Bool :=
  s.sec.jumper || (match s.sec.windowEnd with | some t => decide (s.timebase < t) | none => false)

end State

/-! ### Responses (R297, R304, R306) -/

/-- A session remembers the responses of its last 256 sequences, e − 255 to e. -/
def Session.remember (x : Session) (seq : Nat) (r : Reply) : Session :=
  { x with cache := ((seq, r) :: x.cache.filter fun c => c.1 != seq).filter fun c => decide (x.lastSeq < c.1 + 256) }

/-- The datagram of a message: header, payload, and the CRC-32C of the payload (R297, Tables 14-1, 14-2). -/
def Reply.datagram (r : Reply) : List Byte :=
  let flags := b2n (r.type != 0x40) + b2n r.coalesced * 32
  leBytes 2 0x4B4E ++ [1, r.type] ++ leBytes 2 flags ++ leBytes 2 (if r.type = 0x40 then 0 else (Config.statusCode r.status).toNat) ++
    leBytes 4 r.session ++ leBytes 4 r.payload.length ++ leBytes 8 r.hostSeq ++ leBytes 8 r.devSeq ++ r.payload ++
    leBytes 4 (crc32c r.payload).toNat

namespace State

/-- The 802.1Q tag of a frame that the module sends (R294). -/
def frameTag (s : State) : Option (BitVec 12 × BitVec 3) := if s.rcp.vlan = 0 then none else some (s.rcp.vlan, s.rcp.pcp)

/-- A message leaves from the RCP port, in a frame tagged as configured. -/
def send (s : State) (r : Reply) : State :=
  { s with rcp := { s.rcp with tx := { r with srcPort := s.rcp.udpPort.toNat, tag := s.frameTag } :: s.rcp.tx } }

/-- Another frame leaves, with the timebase at that moment. -/
def sendNet (s : State) (kind : NetKind) (dst : Nat) (data : List Byte) : State :=
  { s with rcp := { s.rcp with net := { kind := kind, dst := dst, tag := s.frameTag, data := data, stamp := s.timebase } :: s.rcp.net } }

/-- The DHCPv4 client asks for an address, unless it is static (R295). -/
def dhcpDiscover (s : State) : State :=
  if s.rcp.static then s
  else ({ s with rcp := { s.rcp with dhcp := .selecting } }).sendNet .dhcpDiscover 0xFFFFFFFF (leBytes 6 hostMac)

/-- The one response to a run of coalesced BULK_WRITEs: the last sequence in the header, the first in the payload. -/
def flushRun (s : State) (ss : Nat) : State :=
  match s.session? ss with
  | none => s
  | some x =>
    match x.run.head?, x.run.getLast? with
    | some first, some last =>
      let r : Reply := { dst := x.src, port := x.port, type := 0x0C, session := ss, hostSeq := last, devSeq := s.log.newest,
                         coalesced := true, payload := leBytes 8 first }
      (s.send r).modSession ss fun y => { x.run.foldl (fun y q => y.remember q r) y with run := [] }
    | _, _ => s

/-- Answers a command of a session and caches the response. A command other than a coalesced one ends the run before it. -/
def reply (s : State) (ss seq type : Nat) (st : Status) (payload : List Byte := []) : State :=
  let s := s.flushRun ss
  match s.session? ss with
  | none => s
  | some x =>
    let r : Reply := { dst := x.src, port := x.port, type := BitVec.ofNat 8 type, status := st, session := ss, hostSeq := seq,
                       devSeq := s.log.newest, payload := payload }
    (s.send r).modSession ss fun y => y.remember seq r

/-- A refusal; WRONG_STATE carries the job state in payload byte 0 (R299). -/
def refuse (s : State) (ss seq type : Nat) (st : Status) : State :=
  s.reply ss seq type st (if st = .wrongState then leBytes 1 s.job.state.code else [])

/-- Checks 1, 3 and 4 of R299: the role, the job state (any when none is listed), and presence. -/
def turnAway (s : State) (ss : Nat) (owner : Bool) (states : List JobState) (needsPresence : Bool) : Option Status :=
  if owner && !s.isOwner ss then some .privilege
  else if !states.isEmpty && !states.contains s.job.state then some .wrongState
  else if needsPresence && !s.presence then some .presenceRequired
  else none

/-- Closes a session, with its SESSION event (R302). -/
def endSession (s : State) (ss cause : Nat) : State :=
  match s.session? ss with
  | none => s
  | some x =>
    let s := { s with rcp := { s.rcp with sessions := s.rcp.sessions.filter fun y => y.id != ss
                                          prevOwner := if x.owner then some (x.id, x.lastSeq) else s.rcp.prevOwner } }
    s.raise 0x3 6 ss [(4, ss), (1, cause)]

def endSessions (s : State) (cause : Nat) : State := s.rcp.sessions.foldl (fun s x => s.endSession x.id cause) s

/-- A long command takes its place in the module, which holds one at a time (R305). -/
def startLong (s : State) (c : LongCmd) : State := { s with rcp := { s.rcp with long := some c } }

end State

end Sys2Proof.Machine
end

