-- ==== Sys2Proof/Machine/Health.lean ====
section
/-! DEFINITION. Suspicion of positions and of the module, retirement, and the conditions of the single-fault guarantee
(R344, R345, R356 to R360). -/

namespace Sys2Proof.Machine

/-! ### Positions (R4, R352) -/

def Course.health (c : Course) (p : Nat) : PosHealth := tget c.pos p {}
def Course.modPos (c : Course) (p : Nat) (f : PosHealth → PosHealth) : Course := { c with pos := tmod c.pos p {} f }
/-- Position of a logical index. -/
def Course.position (c : Course) (k : Nat) : Nat := tget c.coreMap k k

def numCourses : Nat := 64
def numPositions : Nat := 33

/-- A position in the order of rotation after p, skipping retired ones. -/
def Course.after (c : Course) (p : Nat) : Nat :=
  ((List.range numPositions).map fun i => (p + 1 + i) % numPositions).find? (fun q => !(c.health q).retired) |>.getD p

/-- The course holds a suspect position other than the tester. -/
def Course.suspects (c : Course) : Bool :=
  (List.range numPositions).any fun p => (c.health p).suspect && !(c.health p).retired && c.tester != some p

/-! ### The turn (R352) -/

/-- Every position that is not retired is suspect. -/
def Course.allSuspect (x : Course) : Bool :=
  (List.range numPositions).all fun p => (x.health p).retired || (x.health p).suspect

/-- The next position in the order of rotation after p that holds a role and passes a test. -/
def Course.nextRole (x : Course) (p : Nat) (f : PosHealth → Bool) : Option Nat :=
  ((List.range numPositions).map fun i => (p + 1 + i) % numPositions).find?
    fun q => !(x.health q).retired && x.tester != some q && f (x.health q)

/-- The position of the pointer, or the next one when the tester stands there. -/
def Course.atPointer (x : Course) : Option Nat :=
  if x.tester = some x.pointer ∨ (x.health x.pointer).retired = true then x.nextRole x.pointer (fun _ => true) else some x.pointer

/-- Source position of the next migration, and whether it is a suspect turn. -/
def Course.turn (x : Course) : Option (Nat × Bool) :=
  if x.suspects && x.nextSuspect then
    if x.allSuspect then x.atPointer.map fun p => (p, true)
    else (x.nextRole x.lastSuspect (·.suspect)).map fun p => (p, true)
  else x.atPointer.map fun p => (p, false)

namespace State

/-- A course takes part in the loaded image. -/
def courseLoaded (s : State) (c : Nat) : Bool := s.image.courses.getLsbD c
/-- The test content runs (R352). -/
def testsRun (s : State) : Bool := s.image.selfTest

/-- Makes a position suspect, with POSITION_SUSPECT: cause 0 transient, 1 confirmed, 2 module. -/
def suspectPos (s : State) (c p item cause : Nat) : State :=
  let h := (s.course c).health p
  let s := s.modCourse c fun x => x.modPos p fun h =>
    { h with suspect := true, ownSuspect := h.ownSuspect || cause != 2, cleanPasses := 0 }
  if h.suspect then s else s.raise 0x0111 2 c [(1, p), (4, item), (1, cause)]

/-- The step of the last comparison of any domain. -/
def lastDigestStep (s : State) : Nat := s.digest.foldl (fun m x => max m x.2.step.toNat) 0

/-- The module becomes suspect: cause 0 digest, 1 shared unit (R359). -/
def suspectModule (s : State) (cause domain step : Nat) : State :=
  let s := { s with health :=
    { s.health with suspect := true, causeDigest := s.health.causeDigest || cause == 0, causeUnit := s.health.causeUnit || cause == 1,
                    markDomains := if cause = 0 then domain :: s.health.markDomains.filter (· != domain) else s.health.markDomains,
                    sweepSinceMark := false, sweepClean := true, swept := [] } }
  let s := s.raise 0x0115 0 0 [(1, cause), (1, domain), (8, step)]
  let s := (List.range numCourses).foldl
    (fun s c =>
      if (s.course c).tester.isSome then
        (List.range numPositions).foldl (fun s p => if ((s.course c).health p).retired then s else s.suspectPos c p 0 2) s
      else s) s
  (List.range numCourses).foldl (fun s c => s.modCourse c fun x => { x with migratingWindows := 0 }) s

/-- The mark clears once windows, sweep and comparisons have all passed since it was set. -/
def settleMark (s : State) : State :=
  if s.health.suspect && s.health.sweepSinceMark && s.health.markDomains.isEmpty &&
      (List.range numCourses).all (fun c => (s.course c).tester.isNone || decide (33 ≤ (s.course c).migratingWindows)) then
    let s := { s with health := { s.health with suspect := false, causeDigest := false, causeUnit := false } }
    let s := (List.range numCourses).foldl
      (fun s c => s.modCourse c fun x =>
        { x with pos := x.pos.map fun h => if h.2.ownSuspect then h else (h.1, { h.2 with suspect := false }) }) s
    s.raise 0x0116 0 0 [(8, s.lastDigestStep)]
  else s

/-! ### Items stored as three copies (R237) -/

/-- A read of item i of Table 11-2: where its copies disagree the vote stands, counted and reported with the first copy that differs. A
volatile or stored item is rewritten from the vote; a fused one, items 0 to 2, is not. -/
def vote (s : State) (i : Nat) : State :=
  match tget s.health.tmrOdd i [] with
  | [] => s
  | c :: _ =>
    let s := { s with health :=
      { s.health with
        tmrItems := s.health.tmrItems ||| BitVec.ofNat 8 (2 ^ i)
        tmrCount := sat32 s.health.tmrCount 1
        tmrOdd := if i ≤ 2 then s.health.tmrOdd else terase s.health.tmrOdd i } }
    s.raise 0x23 0 0 [(1, i), (1, c)]

/-- Reads of several items. -/
def votes (s : State) (l : List Nat) : State := l.foldl vote s


/-! ### The guarantee (R344, R345) -/

def loadedCourses (s : State) : List Nat := (List.range numCourses).filter s.courseLoaded

/-- A loaded course has its bit set in NO_SPARE_COURSES. -/
def sparesShort (s : State) : Bool := s.loadedCourses.any fun c => s.health.noSpare.getLsbD c

/-- Bits 5 to 0: windows, digest, scrub, self_test, supply, coolant (Table 16-3). -/
def guaranteeBits (s : State) : BitVec 6 :=
  let windows := decide (1 ≤ s.image.windowBoundMs ∧ s.image.windowBoundMs ≤ 10000) &&
    s.loadedCourses.all fun c => (s.course c).tester.isNone || !s.health.lateCourses.contains c
  let I := s.image.bodies.interval
  let paired := s.image.bodies.domains.any fun d => decide (2 ≤ d.2.length)
  let digest := decide (1 ≤ I ∧ I ≤ 100) && s.health.overdue.isEmpty && (paired || !s.sparesShort)
  let scrub := decide (64 ≤ s.hbmRate.toNat ∧ 10 ≤ s.sramLapMs.toNat ∧ s.sramLapMs.toNat ≤ 1000)
  BitVec.ofNat 6 (b2n windows * 32 + b2n digest * 16 + b2n scrub * 8 + b2n (s.image.selfTest && !s.image.hold) * 4 +
    b2n (!s.power.outOfRange) * 2 + b2n (!s.power.coolBad))

/-- Evaluates the conditions while a job is loaded: one GUARANTEE_LAPSE for each that stops holding, and
GUARANTEE_RESTORED when all hold again. -/
def settleGuarantee (s : State) : State :=
  if !s.image.loaded then s
  else
    let now := s.guaranteeBits
    let before := s.health.conditions
    let was := s.health.held
    let s := { s with health := { s.health with conditions := now, held := now == 63 } }
    let s := (List.range 6).foldl
      (fun s b => if before.getLsbD b && !now.getLsbD b then s.raise 0x0119 0 0 [(1, b)] else s) s
    if now == 63 && !was then s.raise 0x011A 0 0 [] else s

/-! ### Mismatches at a position (R357, R358) -/

/-- Halts the logical core that last ran on a position. -/
def haltRole (s : State) (c p : Nat) (st : Stop) : State :=
  let h := (s.course c).health p
  if h.ran then
    let n := h.lastRole.toNat
    let k := s.core n
    if k.halt.halted then s.setCore n { k with halt := { k.halt with secondary := sat32 k.halt.secondary 1 } }
    else s.haltCore n { engine := 6, stream := 3 } st
  else s

/-- The course is left without a tester. -/
def stopRotation (s : State) (c p : Nat) : State :=
  let s := s.modCourse c fun x => { x with tester := none, rotationStopped := true }
  let s := { s with health := { s.health with noSpare := s.health.noSpare ||| BitVec.ofNat 64 (2 ^ c) } }
  (s.raise 0x0113 2 c [(1, p), (2, ((s.course c).health p).lastRole.toNat)]).raise 0x0114 2 c [(1, p)]

/-- A confirmed mismatch of an item at a position; the third retires it. -/
def confirmedMismatch (s : State) (c p item : Nat) : State :=
  let s := s.modCourse c fun x => x.modPos p fun h => { h with confirmed := BitVec.ofNat 8 (min 255 (h.confirmed.toNat + 1)) }
  let s := s.suspectPos c p item 1
  let n := ((s.course c).health p).confirmed.toNat
  let s := s.raise 0x0110 2 c [(1, p), (4, item), (1, n)]
  if 3 ≤ n then
    let s := s.haltRole c p { reason := 0x17, info := p + n * 2 ^ 8 }
    let s := s.modCourse c fun x => x.modPos p fun h => { h with retired := true }
    (s.stopRotation c p).settleMark.settleGuarantee
  else s.haltRole c p { reason := 0x15, info := item % 2 ^ 32 + p * 2 ^ 32 + n * 2 ^ 48 }

end State

/-! ### The binding at power-on (R360) -/

/-- Binds logical indices to the positions that are not retired, in ascending order; the one left over is the tester. -/
def Course.bind (x : Course) : Course :=
  let good := (List.range numPositions).filter fun p => !(x.health p).retired
  let map := (good.take 32).zipIdx.filterMap fun a => if a.1 = a.2 then none else some (a.2, a.1)
  let tester := good.drop 32 |>.head?
  let x := { x with coreMap := map, tester := tester, pointer := 0 }
  { x with pointer := match tester with | some t => x.after t | none => 0 }

end Sys2Proof.Machine
end

