-- ==== Sys2Proof/Machine/Digest.lean ====
section
/-! DEFINITION. Closing a step of the weight digest and comparing its records (R222, R223). -/

namespace Sys2Proof.Machine

def numDomains : Nat := 4

namespace State

def domain (s : State) (d : Nat) : List ModAddr := tget s.image.bodies.domains d []
def digestOf (s : State) (d : Nat) : DigestState := tget s.digest d {}
def modDigest (s : State) (d : Nat) (f : DigestState → DigestState) : State := { s with digest := tmod s.digest d {} f }

/-- Takes the frame of a type, source and payload out of the inbox that holds it; none when an earlier one of its path
waits. A frame that no port holds is taken as it is presented. -/
def takePayload (s : State) (type : Nat) (src : ModAddr) (payload : List Byte) : Option State :=
  let found := (List.range 8).findSome? fun p =>
    ((s.port p).inbox.find? fun f => f.type.toNat == type && f.src == src && f.payload == payload).map fun f => (p, f)
  match found with
  | some (p, f) => s.takeFrame p f
  | none => some s

end State

/-- The 64 bytes of Table 10-10. -/
def digestBytes (r : DigestRec) : List Byte :=
  leBytes 8 r.step.toNat ++ [BitVec.ofNat 8 r.domain, BitVec.ofNat 8 r.rank] ++ leBytes 6 0 ++ leBytes 8 r.d0 ++ leBytes 8 r.d1 ++
    leBytes 8 r.groups ++ leBytes 24 0

def agreeing (a b : DigestRec) : Bool := a.d0 == b.d0 && a.d1 == b.d1 && a.groups == b.groups

/-- One record of each rank. -/
def presentRecords (n : Nat) (l : List DigestRec) (members : Nat) : List DigestRec :=
  (List.range members).filterMap fun r => l.find? fun x => x.step.toNat == n && x.rank == r

/-- The class of more than half of at least three records. -/
def majority (l : List DigestRec) : Option DigestRec :=
  if l.length < 3 then none
  else l.find? fun x => decide (l.length < 2 * (l.filter fun y => agreeing x y).length)

def rankBits (l : List Nat) : Nat := l.foldl (fun a r => a ||| 2 ^ r) 0

/-- Ranks outside the largest class; every rank present when there is no majority. -/
def outsiders (l : List DigestRec) : List Nat :=
  match majority l with
  | some x => (l.filter fun y => !agreeing x y).map (·.rank)
  | none => l.map (·.rank)

/-- Compares the records of step n that are present. -/
def State.compareDigest (s : State) (d n : Nat) : State :=
  let members := s.domain d
  let l := presentRecords n (s.digestOf d).records members.length
  let missing := (List.range members.length).filter fun r => !l.any fun x => x.rank == r
  let s := if missing.isEmpty then s else s.raise 0x001A 0 0 [(1, d), (8, n), (8, rankBits missing)]
  let s := s.modDigest d fun x => { x with awaited := none, records := x.records.filter fun r => decide (n < r.step.toNat) }
  if l.length < 2 then s
  else
    let s := s.modDigest d fun x => { x with compared := s.clock }
    let s := { s with health := { s.health with overdue := s.health.overdue.filter (· != d) } }
    let same := match l.head? with | some x => l.all fun y => agreeing x y | none => true
    if same then
      let s := s.modDigest d fun x => { x with suspect := false }
      ({ s with health := { s.health with markDomains := s.health.markDomains.filter (· != d) } }).settleMark.settleGuarantee
    else
      let out := outsiders l
      let me := out.contains (members.idxOf s.fabric.coord)
      let s := s.raise 0x0019 0 0 [(1, d), (8, n), (8, rankBits out), (1, b2n me)]
      let s := s.modDigest d fun x => { x with disagree := BitVec.ofNat 64 (rankBits out), suspect := me }
      if me then (s.suspectModule 0 d n).settleGuarantee
      else
        ({ s with health := { s.health with markDomains := s.health.markDomains.filter (· != d) } }).settleMark.settleGuarantee

/-- Compares a step as soon as every member's record is present. -/
def State.settleDigest (s : State) (d : Nat) : State :=
  match (s.digestOf d).awaited with
  | some n =>
    let members := (s.domain d).length
    if (presentRecords n (s.digestOf d).records members).length = members then s.compareDigest d n else s
  | none => s

/-- Sums and clears the course accumulators of a domain for a step. -/
def State.sumDigest (s : State) (d n : Nat) : DigAcc × State :=
  let key := 2 * d + n % 2
  (List.range numCourses).foldl
    (fun x c =>
      let a := tget (x.2.course c).digests key {}
      ({ d0 := (x.1.d0 + a.d0) % digestP, d1 := (x.1.d1 + a.d1) % digestP, groups := x.1.groups + a.groups },
       x.2.modCourse c fun y => { y with digests := terase y.digests key })) ({}, s)

/-- The result of a digest step: DIGEST_LAST, and a record to every other member. -/
def State.publishDigest (s : State) (d n : Nat) (a : DigAcc) : State :=
  let s := match (s.digestOf d).awaited with | some m => s.compareDigest d m | none => s
  let members := s.domain d
  let r : DigestRec := { step := BitVec.ofNat 64 n, domain := d, rank := members.idxOf s.fabric.coord, d0 := a.d0, d1 := a.d1,
                         groups := a.groups }
  let s := s.modDigest d fun x =>
    { x with step := r.step, d0 := a.d0, d1 := a.d1, groups := BitVec.ofNat 64 a.groups, awaited := some n, records := r :: x.records }
  let others := members.filter fun m => m != s.fabric.coord
  let s := others.foldl (fun s m => s.sendFrame { dst := m, src := s.fabric.coord, vc := 3, type := 0x15, master := 2112,
                                                   payload := digestBytes r }) s
  s.settleDigest d

/-- The loaded courses that have an active core: the others take no part in a step (R215, R222). -/
def State.activeCourses (s : State) : List Nat := s.loadedCourses.filter fun c => tget s.image.active c 0 != 0

/-- DIGEST_CLOSE: every active course has passed the step. -/
def execDigestClose (s : State) : Out :=
  let n := s.nextClose
  if !s.image.loaded || s.activeCourses.isEmpty || s.activeCourses.any fun c => decide ((s.course c).step.toNat ≤ n) then .next s
  else
    let I := s.image.bodies.interval
    .next ((List.range numDomains).foldl
      (fun s d =>
        if (s.domain d).isEmpty then s
        else
          let x := s.sumDigest d n
          if I ≠ 0 ∧ n % I = 0 then x.2.publishDigest d n x.1 else x.2) { s with nextClose := n + 1 })

/-- DIGEST: a record arrives; one of a step already compared is discarded. -/
def execDigestRecord (r : DigestRec) (s : State) : Out :=
  let members := s.domain r.domain
  if members.length ≤ r.rank ∨ r.rank = members.idxOf s.fabric.coord then .next s
  else
    match s.takePayload 0x15 (members.getD r.rank 0) (digestBytes r) with
    | none => .next s
    | some s =>
      if (s.digestOf r.domain).awaited == some r.step.toNat || decide (s.nextClose ≤ r.step.toNat) then
        .next ((s.modDigest r.domain fun x => { x with records := r :: x.records }).settleDigest r.domain)
      else .next s

end Sys2Proof.Machine
end

