-- ==== Sys2Proof/Machine/Reshard.lean ====
section
/-! DEFINITION. The beginning of sequencer entries (R270) and re-sharding in place (R276 to R279). The module whose rank
holds a cycle's anchor moves the cycle's blocks, a line at a time. -/

namespace Sys2Proof.Machine

/-! ### The permutation table (R276) -/

structure Slot where
  rank : Nat
  alloc : Nat
  off : Nat
  len : Nat
  deriving DecidableEq, Repr

structure PermEntry where
  src : Slot
  dst : Slot
  deriving DecidableEq, Repr

def permEntry (l : List Byte) : PermEntry :=
  let n := natAt l 24 8
  { src := { rank := natAt l 0 2, alloc := natAt l 4 2, off := natAt l 8 8, len := n }
    dst := { rank := natAt l 2 2, alloc := natAt l 6 2, off := natAt l 16 8, len := n } }

/-- Entries up to the first of no length, then the bytes that follow it. -/
def permEntries : Nat → List Byte → List PermEntry × List Byte
  | 0, l => ([], l)
  | fuel + 1, l =>
    if l.length < 32 then ([], [])
    else if (permEntry l).dst.len = 0 then ([], l.drop 32)
    else
      let x := permEntries fuel (l.drop 32)
      (permEntry l :: x.1, x.2)

/-- The bytes of an allocation, read by a collective engine; none at an uncorrectable line. -/
def readAlloc (master : Nat) : State → List Nat → State × Option (List Byte)
  | s, [] => (s, some [])
  | s, a :: r =>
    match s.readLine a master with
    | (none, s) => (s.raiseUe a master, none)
    | (some l, s) =>
      match readAlloc master s r with
      | (s, some t) => (s, some (l ++ t))
      | (s, none) => (s, none)

def State.permTable (s : State) (sl handle : Nat) : State × Option (List Byte) :=
  match tfind s.image.bodies.allocs handle with
  | some a => readAlloc (2112 + sl) s ((List.range a.lines).map fun i => a.base + 64 * i)
  | none => (s, none)

def Slot.overlaps (a b : Slot) : Bool :=
  a.rank == b.rank && a.alloc == b.alloc && decide (a.off < b.off + b.len ∧ b.off < a.off + a.len)

def disjointSlots : List Slot → Bool
  | [] => true
  | a :: r => r.all (fun b => !a.overlaps b) && disjointSlots r

/-- The table is a permutation of slots that exist. -/
def permValid (s : State) (members : List ModAddr) (l : List PermEntry) : Bool :=
  let dsts := l.map (·.dst)
  let srcs := l.map (·.src)
  let exists_ (x : Slot) : Bool :=
    decide (x.rank < members.length) &&
      (x.rank != members.idxOf s.fabric.coord ||
        match tfind s.image.bodies.allocs x.alloc with | some a => decide (x.off + x.len ≤ a.lines) | none => false)
  disjointSlots dsts && disjointSlots srcs && dsts.all (srcs.contains ·) && srcs.all (dsts.contains ·) && dsts.all exists_

/-- Entry whose destination is a slot. -/
def entryOf (l : List PermEntry) (x : Slot) : Nat := l.findIdx fun e => e.dst == x

def Slot.key (x : Slot) : Nat := (x.rank * 2 ^ 16 + x.alloc) * 2 ^ 64 + x.off

/-- The entries of the cycle through entry i, from i on: each next one's destination is the source of the one before. -/
def cycleFrom (l : List PermEntry) (start : Nat) : Nat → Nat → List Nat
  | 0, _ => []
  | fuel + 1, i =>
    match l[i]? with
    | none => []
    | some e =>
      let j := entryOf l e.src
      if j = start then [i] else i :: cycleFrom l start fuel j

/-- The cycles anchored at a rank, in table order; those of one slot are skipped. -/
def cyclesAt (l : List PermEntry) (rank : Nat) : List Cycle :=
  (List.range l.length).filterMap fun i =>
    match l[i]? with
    | none => none
    | some e =>
      let c := cycleFrom l i l.length i
      let least := c.all fun j => match l[j]? with | some x => decide (e.dst.key ≤ x.dst.key) | none => true
      if e.dst.rank = rank ∧ 2 ≤ c.length ∧ least then some { anchor := i, slots := c } else none

/-! ### Staging (R285, R277) -/

/-- The re-shard staging banks, as (course, bank), in ascending order. -/
def State.reshardBanks (s : State) : List (Nat × Nat) :=
  (List.range 64).flatMap fun c =>
    let p := tget s.image.bodies.partitions c []
    let before := sumTo 3 fun i => p.getD i 0
    let n := p.getD 3 0
    (List.range n).map fun i => (c, 64 - before - n + i)

def bufferBanks : Nat := 128
def bufferLines : Nat := 1048576

/-- Address of a line of a staging buffer. -/
def State.stagingLine (s : State) (b i : Nat) : Nat :=
  match s.reshardBanks[b * bufferBanks + i / 8192]? with
  | some x => ulBase x.1 + 524288 * x.2 + 64 * (i % 8192)
  | none => 0

def stagingOk (s : State) (l : List PermEntry) : Bool :=
  decide (2 * bufferBanks ≤ s.reshardBanks.length) && l.all fun e => decide (e.dst.len ≤ bufferLines)

/-! ### Moving the lines of a copy -/

/-- A place of a copy: a slot of a rank, or this rank's staging buffer. -/
inductive CopyEnd where
  | slot (x : Slot)
  | staging
  deriving DecidableEq, Repr

/-- Source, destination and length of copy k of a cycle of L slots, k from 1 to L + 1. -/
def copyOf (l : List PermEntry) (c : Cycle) (k : Nat) : CopyEnd × CopyEnd × Nat :=
  let L := c.slots.length
  let at_ (i : Nat) : CopyEnd := match l[c.slots.getD i 0]? with | some e => .slot e.dst | none => .staging
  let len := match l[c.anchor]? with | some e => e.dst.len | none => 0
  if k = 1 then (at_ 1, .staging, len)
  else if k < L then (at_ k, at_ (k - 1), len)
  else if k = L then (at_ 0, at_ (L - 1), len)
  else (.staging, at_ 0, len)

def Reshard.buf (r : Reshard) (b : Nat) : Option Cycle := if b = 0 then r.buf0 else r.buf1
def Reshard.setBuf (r : Reshard) (b : Nat) (c : Option Cycle) : Reshard := if b = 0 then { r with buf0 := c } else { r with buf1 := c }

namespace State

def modCycle (s : State) (b : Nat) (f : Cycle → Cycle) : State :=
  { s with reshard := s.reshard.setBuf b ((s.reshard.buf b).map f) }

def reshardGroup (s : State) : List ModAddr := tget s.image.bodies.collGroups s.reshard.runGroup.toNat []

/-- Module and line address of line i of a place; no module for one of this module. -/
def copyPlace (s : State) (b : Nat) (e : CopyEnd) (i : Nat) : Option ModAddr × Nat :=
  match e with
  | .staging => (none, s.stagingLine b i)
  | .slot x =>
    let base := match tfind s.image.bodies.allocs x.alloc with | some a => a.base | none => 0
    let m := s.reshardGroup.getD x.rank 0
    (if m = s.fabric.coord then none else some m, base + 64 * (x.off + i))

/-- A request of the collective engine for a line of a copy. -/
def copyAsk (s : State) (b i tag : Nat) (m : ModAddr) (a : Nat) (read : Bool) (f : Frame) : State :=
  ((s.modCycle b fun c => { c with pending := c.pending + 1 }).outAdd
    { master := BitVec.ofNat 12 (2112 + s.reshard.slope), tag := BitVec.ofNat 6 tag, module := m, read := read, core := b, chan := 8,
      addr := i, lines := 1 }).sendFrame { f with dst := m, master := BitVec.ofNat 12 (2112 + s.reshard.slope), tag := BitVec.ofNat 6 tag,
                                                  operand := BitVec.ofNat 37 (addrOperand a) }

/-- Puts a line at its destination: here, or by an acknowledged write. -/
def copyPut (s : State) (b : Nat) (dst : CopyEnd) (i : Nat) (data : List Byte) : State :=
  match s.copyPlace b dst i with
  | (none, a) =>
    match s.collRefusal s.reshard.slope a with
    | some e => s.modCycle b fun c => { c with cause := BitVec.ofNat 8 e, todo := [] }
    | none => (s.writeLine a data (2112 + s.reshard.slope)).slotWritten a
  | (some m, a) =>
    match s.freeTag (2112 + s.reshard.slope) with
    | some tag => s.copyAsk b i tag m a false { dst := m, src := s.fabric.coord, vc := 3, type := 0x02, payload := data }
    | none => s.modCycle b fun c => { c with todo := i :: c.todo }

end State

/-- Goes on with the lines of the copy in a buffer while tags are free, up to one that a read of a migrating role holds (R350). -/
def copyGoOn (b : Nat) (src dst : CopyEnd) : Nat → State → State
  | 0, s => s
  | fuel + 1, s =>
    match s.reshard.buf b, s.freeTag (2112 + s.reshard.slope) with
    | some c, some tag =>
      match c.todo with
      | [] => s
      | i :: r =>
        match s.copyPlace b src i with
        | (some m, a) =>
          copyGoOn b src dst fuel
            ((s.modCycle b fun c => { c with todo := r }).copyAsk b i tag m a true
              { dst := m, src := s.fabric.coord, vc := 1, type := 0x05, payload := leBytes 8 0 })
        | (none, a) =>
          if s.lineHeld a then s
          else
          match collRead (s.modCycle b fun c => { c with todo := r }) s.reshard.slope a with
          | (s, .error e) => s.modCycle b fun c => { c with cause := BitVec.ofNat 8 e, todo := [] }
          | (s, .ok d) => copyGoOn b src dst fuel (s.copyPut b dst i d)
    | _, _ => s

namespace State

/-- The entries of the running re-shard. -/
def reshardEntries (s : State) : List PermEntry :=
  match (s.permTable s.reshard.slope s.reshard.runTable.toNat).2 with
  | some l => (permEntries l.length l).1
  | none => []

def reshardGoOn (s : State) (b : Nat) : State :=
  match s.reshard.buf b with
  | some c =>
    let x := copyOf s.reshardEntries c (c.copies + 1)
    copyGoOn b x.1 x.2.1 (c.todo.length + 1) s
  | none => s

/-- A cycle begins its next copy. -/
def copyBegin (s : State) (b : Nat) (c : Cycle) : State :=
  let x := copyOf s.reshardEntries c (c.copies + 1)
  ({ s with reshard := s.reshard.setBuf b (some { c with todo := List.range x.2.2, pending := 0 }) }).reshardGoOn b

/-- A free buffer takes the next cycle. -/
def cycleNext (s : State) (b : Nat) : State :=
  match s.reshard.buf b, s.reshard.todo with
  | none, c :: r => ({ s with reshard := { s.reshard with todo := r } }).copyBegin b c
  | _, _ => s

/-- The re-shard ends with a result, which its event carries. -/
def reshardEnd (s : State) (st : Status) : State :=
  let s := { s with reshard := { s.reshard with result := (Config.statusCode st).setWidth 64, running := false, voting := false,
                                                votes := [], todo := [], buf0 := none, buf1 := none } }
  s.raise 0x0036 0 0 [(2, (Config.statusCode st).toNat)]

/-- The replacement shard map and digest bases of the table take effect. -/
def reshardReplace (s : State) : State :=
  match (s.permTable s.reshard.slope s.reshard.runTable.toNat).2 with
  | none => s
  | some l =>
    let rest := (permEntries l.length l).2
    if rest.all (· == 0) then s
    else
      let bases := Config.reshardBases rest
      { s with image := { s.image with bodies :=
        { s.image.bodies with
          shards := Config.reshardShards rest
          allocs := s.image.bodies.allocs.map fun a =>
            match bases.find? fun x => x.1 == a.1 with | some x => (a.1, { a.2 with digestBase := x.2 }) | none => a } } }

/-- Every slot of this module that copies fill is written, and none of its lines waits at a unit in reset or migrating. -/
def slotsFilled (s : State) : Bool :=
  s.reshard.await.all fun x => x.2.2 == 0 &&
    !s.held.any fun h => match h.op with | .line a _ _ => decide (x.1 ≤ a ∧ a < x.1 + 64 * x.2.1) | _ => false

/-- The last cycle of this rank has ended, and its slots are filled: the re-shard ends here (log entry 28). -/
def reshardSettle (s : State) : State :=
  if s.reshard.running && !s.reshard.voting && s.reshard.buf0.isNone && s.reshard.buf1.isNone && s.reshard.todo.isEmpty &&
      s.slotsFilled then
    s.reshardReplace.reshardEnd .ok
  else s

/-- The vote has passed: the cycles anchored here begin, two at a time. While the job drains none begins (R315). -/
def reshardBegin (s : State) : State :=
  if s.job.state = .draining then s.reshardEnd .notReady
  else
  let cycles := cyclesAt s.reshardEntries (s.reshardGroup.idxOf s.fabric.coord)
  let s := { s with reshard := { s.reshard with voting := false, todo := cycles } }
  ((s.cycleNext 0).cycleNext 1).reshardSettle

/-- The cycles begun and not ended are reported: by buffer, their last copy and anchor (R279). -/
def reshardReport (s : State) : State :=
  let note (b : Nat) : List (Nat × (Nat × Nat)) :=
    match s.reshard.buf b with | some c => [(b, (c.copies, c.anchor))] | none => []
  let ints := note 0 ++ note 1
  { s with reshard := { s.reshard with interrupted := ints.length, ints := ints } }

/-- A fault stops every cycle at its current copy; those begun are reported (R279). -/
def reshardFault (s : State) (cause : Nat) : State :=
  let s := s.reshardReport
  let copy := match s.reshard.ints.head? with | some x => x.2.1 | none => 0
  let s := s.raise 0x0035 1 s.reshard.slope
    [(1, (s.coll s.reshard.slope).last), (4, copy), (2, s.reshardGroup.idxOf s.fabric.coord), (1, cause)]
  -- lines still unanswered no longer belong to a copy
  let s := { s with fabric := { s.fabric with outstanding := s.fabric.outstanding.map fun (u : Outstanding) =>
    if u.chan = 8 then { u with chan := 4 } else u } }
  s.reshardEnd .notReady

/-- Every copy under way has moved its last line, or a fault has stopped it. -/
def copiesIdle (s : State) : Bool :=
  ([0, 1] : List Nat).all (fun b => match s.reshard.buf b with | some c => c.todo.isEmpty && c.pending == 0 | none => true) &&
    !s.held.any fun h => match h.op with | .line _ _ m => m == 2112 + s.reshard.slope | _ => false

/-- The job has drained: a re-shard that runs stops behind the copies it had begun, with NOT_READY, or as its fault says (R279, R315; log
entry 28). -/
def reshardStop (s : State) : State :=
  if !s.reshard.running then s
  else
    match ([0, 1] : List Nat).findSome? fun b => (s.reshard.buf b).bind fun c => if c.cause ≠ 0 then some c.cause.toNat else none with
    | some e => s.reshardFault e
    | none =>
      let done (c : Cycle) : Option Cycle := if c.copies = c.slots.length then none else some { c with copies := c.copies + 1 }
      let s := { s with reshard := { s.reshard with buf0 := s.reshard.buf0.bind done, buf1 := s.reshard.buf1.bind done } }
      s.reshardReport.reshardEnd .notReady

/-! ### The vote (R277) -/

def voteFrame (s : State) (m : ModAddr) (st : Status) (digest : Word) : Frame :=
  { dst := m, src := s.fabric.coord, vc := 3, type := 0x16, master := BitVec.ofNat 12 (2112 + s.reshard.slope),
    operand := BitVec.ofNat 37 ((Config.statusCode st).toNat % 256), payload := leBytes 8 digest.toNat }

/-- What the votes of every member come to. -/
def voteResult (votes : List (Nat × Word × Status)) : Status :=
  match votes.find? fun v => v.2.2 != .ok with
  | some v => v.2.2
  | none =>
    match votes with
    | v :: r => if r.all fun x => x.2.1 == v.2.1 then .ok else .malformed
    | [] => .ok

/-- The result reaches this module. -/
def reshardResult (s : State) (st : Status) : State := if st = .ok then s.reshardBegin else s.reshardEnd st

/-- Rank 0 returns the result once every member has voted. -/
def settleVote (s : State) (digest : Word) : State :=
  let g := s.reshardGroup
  if (List.range g.length).all fun r => s.reshard.votes.any fun v => v.1 == r then
    let st := voteResult s.reshard.votes
    let s := (g.filter fun m => m != s.fabric.coord).foldl (fun s m => s.sendFrame (s.voteFrame m st digest)) s
    s.reshardResult st
  else s

/-- The slope whose collective engine serves a group (R269). -/
def slopeFor (s : State) (group : Nat) : Nat := tget s.image.bodies.collSlopes group 0

def tableDigest (l : List Byte) : Word := BitVec.ofNat 64 (leNat ((sha384 l).take 8))

/-- The slots of this module that the copies of a table fill: those of cycles longer than one. -/
def ownSlots (s : State) (l : List PermEntry) : List (Nat × Nat × Nat) :=
  (l.filter fun e => e.src != e.dst && s.reshardGroup.getD e.dst.rank 0 == s.fabric.coord).map fun e =>
    let base := match tfind s.image.bodies.allocs e.dst.alloc with | some a => a.base | none => 0
    (base + 64 * e.dst.off, e.dst.len, e.dst.len)

/-- A re-shard begins with the vote. `status` is this module's own. -/
def reshardVoteBegin (s : State) (sl group table : Nat) (bytes : List Byte) (status : Status) (fromHost : Bool) : State :=
  let n := (permEntries bytes.length bytes).1.length
  let digest := tableDigest (bytes.take (32 * n))
  let s := { s with reshard := { s.reshard with runGroup := BitVec.ofNat 5 group, runTable := BitVec.ofNat 12 table, running := true,
                                                voting := true, slope := sl, interrupted := 0, ints := [], fromHost := fromHost } }
  let s := { s with reshard := { s.reshard with await := s.ownSlots (permEntries bytes.length bytes).1 } }
  let g := s.reshardGroup
  let r := g.idxOf s.fabric.coord
  if r = 0 then ({ s with reshard := { s.reshard with votes := (0, digest, status) :: s.reshard.votes } }).settleVote digest
  else s.sendFrame (s.voteFrame (g.getD 0 0) status digest)

end State

/-- RESHARD_VOTE: a member's vote at rank 0, or rank 0's result at a member. -/
def execReshardVote (rank : Nat) (digest : Word) (status : Status) (s : State) : Out :=
  let g := s.reshardGroup
  match s.takePayload 0x16 (g.getD rank 0) (leBytes 8 digest.toNat) with
  | none => .next s
  | some s =>
    let r := g.idxOf s.fabric.coord
    if r = 0 ∧ rank ≠ 0 then
      let s := { s with reshard := { s.reshard with votes := s.reshard.votes.filter (fun (v : Nat × Word × Status) => v.1 != rank) ++ [(rank, digest, status)] } }
      match s.reshard.running && s.reshard.voting, s.reshard.votes.find? fun (v : Nat × Word × Status) => v.1 == 0 with
      | true, some own => .next (s.settleVote own.2.1)
      | _, _ => .next s
    else if r ≠ 0 ∧ rank = 0 ∧ s.reshard.running ∧ s.reshard.voting then .next (s.reshardResult status)
    else .next s

/-- RESHARD_COPY_COMPLETE: the copy in a buffer has completed, or a fault has met it; without a copy in it, another rank's last copy into this
module has, or a fault has met the re-shard. While the job drains no further copy begins (R315). -/
def execReshardCopyComplete (buffer : Fin 2) (cause : Byte) (s : State) : Out :=
  let b : Nat := buffer
  match s.reshard.buf b with
  | none => .next (if s.reshard.running && !s.reshard.voting && cause != 0 then s.reshardFault cause.toNat else s.reshardSettle)
  | some c =>
    if !s.reshard.running then .next s
    else if cause ≠ 0 ∨ c.cause ≠ 0 then .next (s.reshardFault (if c.cause ≠ 0 then c.cause.toNat else cause.toNat))
    else if !c.todo.isEmpty || c.pending != 0 || s.collHeld s.reshard.slope || s.job.state == .draining then .next s
    else
      let c := { c with copies := c.copies + 1 }
      if c.copies = c.slots.length + 1 then
        .next ((({ s with reshard := s.reshard.setBuf b none }).cycleNext b).reshardSettle)
      else .next (s.copyBegin b c)

/-- A write of RESHARD_CTRL with start set (R278): its status, and the state. -/
def reshardCtrl (s : State) (value : Word) : Status × State :=
  let group := bits value.toNat 16 5
  let table := bits value.toNat 0 12
  if s.job.state ≠ .paused then (.wrongState, s)
  else if s.reshard.running then (.busy, s)
  else
    let sl := s.slopeFor group
    match s.permTable sl table with
    | (s1, none) => (.range, s1)
    | (s1, some l) =>
      let es := (permEntries l.length l).1
      if !permValid s (tget s.image.bodies.collGroups group []) es then (.range, s1)
      else if !stagingOk s es then (.reshardNoStaging, s1)
      else (.ok, s1.reshardVoteBegin sl group table l .ok true)

/-! ### COLL_ENTRY_BEGIN (R270) -/

/-- The entry that a slope's engine would run next may begin: its trigger is reached, no other runs, and no re-shard does where it is a
permute entry (R276: a module has two staging buffers). -/
def State.entryDue (s : State) (sl : Nat) (e : CollEntry) : Bool :=
  let c := s.coll sl
  c.run.isNone && (s.job.state == .running || s.job.state == .paused || s.job.state == .faulted) &&
    flagGe ((s.core e.triggerCore).flag e.triggerFlag) (tget c.triggers c.next e.triggerInit) && !(e.op == 6 && s.reshard.running) && !s.entryHeld e

/-- The entry is taken up: its trigger count grows, and its lengths are read. -/
def State.takeEntry (s : State) (sl k : Nat) (e : CollEntry) : State :=
  let x := s.entryLengths sl k e
  x.1.modColl sl fun c =>
    { c with run := some { entry := k, lengths := x.2 }, last := k, linkFree := 2
             triggers := tset c.triggers k (tget c.triggers k e.triggerInit + BitVec.ofNat 32 e.triggerInc) }

/-- The next entry of a slope's table begins when its trigger flag reaches the trigger count. -/
def execCollEntryBegin (sl : SlopeId) (s : State) : Out :=
  let k := (s.coll sl).next
  match (s.collTable sl)[k]? with
  | none => .next s
  | some e =>
    if !s.entryDue sl e then .next s
    else
      let s := s.takeEntry sl k e
      if e.op = 6 then
        match s.permTable sl e.lengths with
        | (s, some l) =>
          .next (s.reshardVoteBegin sl e.group e.lengths l
            (if stagingOk s (permEntries l.length l).1 then .ok else .reshardNoStaging) false)
        | (s, none) => .next (s.reshardVoteBegin sl e.group e.lengths [] .malformed false)
      else
        match s.collEntry? sl k with
        | some e => .next (s.startEntry sl e k)
        | none => .next s

end Sys2Proof.Machine
end

