-- ==== Sys2Proof/Machine/Answers.lean ====
section
/-! DEFINITION. The answers that come back to a requester: acknowledgements, read responses, refusals, DEST_ABSENT returns
and the end-to-end timeout (R26, R54, R70, R118, R182, R259, R260, R275, R279). -/

namespace Sys2Proof.Machine

/-! ### Requests that wait for an answer -/

namespace State

/-- The request that an answer answers. -/
def outFind (s : State) (master : BitVec 12) (tag : BitVec 6) (src : Option ModAddr) (kinds : List Bool) : Option Outstanding :=
  s.fabric.outstanding.find? fun o =>
    o.master == master && o.tag == tag && kinds.contains o.read && (match src with | some m => o.module == m | none => true)

def outDrop (s : State) (o : Outstanding) : State :=
  { s with fabric := { s.fabric with outstanding := s.fabric.outstanding.erase o } }

/-- An answer that comes after its timeout is discarded and counted (R260). -/
def lateAnswer (s : State) (p : Nat) : State := s.modPort p fun x => { x with e2eTimeout := sat32 x.e2eTimeout 1 }

/-- One line of a transfer is answered well. -/
def dmaAnswered (s : State) (o : Outstanding) (f : Xfer → Xfer) : State :=
  (s.modXfer o.core o.chan fun x => f { x with pending := x.pending - 1 }).dmaGoOn o.core o.chan

/-- One line of a copy is answered well. -/
def copyAnswered (s : State) (o : Outstanding) (data : Option (List Byte)) : State :=
  let s := s.modCycle o.core fun c => { c with pending := c.pending - 1 }
  match s.reshard.buf o.core, data with
  | some c, some d => (s.copyPut o.core (copyOf s.reshardEntries c (c.copies + 1)).2.1 o.addr d).reshardGoOn o.core
  | some _, none => s.reshardGoOn o.core
  | none, _ => s

/-- A request that fails with a status ends its transfer, or stops its copy; others it belongs to are gone. -/
def outFails (s : State) (o : Outstanding) (status : Nat) : State :=
  if o.chan < 4 then
    s.modXfer o.core o.chan fun x =>
      { x with pending := x.pending - 1, refused := x.refused + 1 }.fail { status := BitVec.ofNat 8 status, addr := o.addr }
  else if o.chan = 8 then
    s.modCycle o.core fun c => { c with pending := c.pending - 1, cause := BitVec.ofNat 8 status, todo := [] }
  else if 16 ≤ o.chan then s.lateFails o.core (o.chan - 16)
  else s

end State

/-! ### Answers -/

/-- WRITE_ACK: the lines are committed at their destination (R26). -/
def execWriteAck (p : PortId) (f : Frame) (s : State) : Out :=
  if f.type ≠ 0x03 then .next s
  else
    match s.takeFrame p f with
    | none => .next s
    | some s =>
      match s.outFind f.master f.tag (some f.src) [false] with
      | none => .next (s.lateAnswer p)
      | some o =>
        let s := s.outDrop o
        if o.chan < 4 then .next (s.dmaAnswered o fun x => { x with lines := x.lines + fOp f 0 4 })
        else if o.chan = 8 then .next (s.copyAnswered o none)
        else if 16 ≤ o.chan then .next (s.lateAnswered o.core (o.chan - 16))
        else .next s

/-- READ_RESP: lines, or a failing status (R259). A payload that is not 1–8 whole lines is discarded. -/
def execReadResp (p : PortId) (f : Frame) (s : State) : Out :=
  if f.type ≠ 0x06 then .next s
  else
    match s.takeFrame p f with
    | none => .next s
    | some s =>
      match s.outFind f.master f.tag (some f.src) [true] with
      | none => .next (s.lateAnswer p)
      | some o =>
        let status := fOp f 0 8
        if status = 0 then
          match frameLines f with
          | none => .next (s.malformed p)
          | some _ =>
            let s := s.outDrop o
            let data := bytesAt f.payload 0 64
            if o.chan < 4 then .next (s.dmaAnswered o fun x => { x with got := tset x.got o.addr data })
            else if o.chan = 8 then .next (s.copyAnswered o (some data))
            else .next s
        else .next ((s.outDrop o).outFails o status)

/-- REFUSED: the receiver wrote none of the lines it refused (R259). -/
def execRefused (p : PortId) (f : Frame) (s : State) : Out :=
  if f.type ≠ 0x07 then .next s
  else
    match s.takeFrame p f with
    | none => .next s
    | some s =>
      match s.outFind f.master f.tag (some f.src) [false] with
      | none => .next (s.lateAnswer p)
      | some o => .next ((s.outDrop o).outFails o (fOp f 0 8))

/-! ### Absent modules -/

/-- Bits set in an entry bitmap. -/
def bitCount (b : BitVec 16) : Nat := ((List.range 16).filter fun i => b.getLsbD i).length

/-- Copy of a transfer that a frame of line index `line` belongs to: rows take one span of lines each. -/
def copyIndex (s : State) (x : ValTxn) (back : Bool) (line : Nat) : Nat :=
  let span := match s.layer? x.layer with
    | some l => if back then 1 + rowExtent l.returnFormat l.rowWidth else 2 + rowExtent l.rowFormat l.rowWidth
    | none => 1
  line / span

/-- Expert traffic of course c lost to an absent module: the entries of a copy are counted once, and one event names the
module and the tag of a direction (R182). -/
def State.valAbsent (s : State) (c txn type line : Nat) (m : ModAddr) : State :=
  match tfind (s.valley c).txns txn with
  | none => s
  | some x =>
    let back := type = 0x0B || type = 0x0C
    let copies := copiesOf (s.valley c) txn m
    let k := copyIndex s x back line
    let row := type = 0x08 || type = 0x0B
    let fresh := row && decide (k < copies.length) && !x.lost.contains (m, k)
    let gone := if fresh then bitCount (copies.getD k (0, 0)).2 else 0
    let s := s.modVal c fun v =>
      { v with
        absentDrop := sat32 v.absentDrop gone
        txns := if fresh then tset v.txns txn { x with lost := (m, k) :: x.lost } else v.txns }
    let key := (m, x.tag, x.backward)
    let s := if (s.valley c).absent.contains key then s
      else (s.modVal c fun v => { v with absent := key :: v.absent }).raise 0x15 2 c [(4, m.toNat), (2, x.tag.toNat)]
    if back then s
    else
      (s.modHome x.core x.layer x.tag x.backward x.epoch fun h =>
        { h with absent := if h.absent.contains m then h.absent else m :: h.absent }).settleHome x.core x.layer x.tag x.backward x.epoch

/-- What went to rank i was on the chain of chunk k, from this rank: the chunk's way to a rank further up, before this rank is done with
it (R272). -/
def onChain (s : State) (e : CollEntry) (run : CollRun) (k i : Nat) : Bool :=
  let r := s.rankIn e
  decide (r < i ∧ r + 1 < (s.groupOf e).length) && !run.done.contains k && !run.aborted.contains k

/-- The rank after an absent one on the remaining path of a reduction's chunk, none where the path ends with it (R272, R273, R275). -/
def pathAfter (s : State) (e : CollEntry) (run : CollRun) (k absent : Nat) : Option Nat :=
  let N := (s.groupOf e).length
  if onChain s e run k absent then
    if absent + 1 < N then some (absent + 1)
    else if e.op = 0 then some 0
    else ((s.reduceChunks e)[k]?).bind fun c => if c.2.2 = absent then none else some c.2.2
  else if e.op = 0 ∧ absent + 2 < N then some (absent + 1)
  else none

/-- The abort of chunk k goes to rank q of its remaining path: at this rank itself the chunk is settled, and an all-reduce's goes on up. -/
def State.abortTo (s : State) (sl : Nat) (e : CollEntry) (entry k q : Nat) : State :=
  if q = s.rankIn e then
    let s := s.modRun sl (runAborted k)
    if e.op = 0 ∧ q + 2 < (s.groupOf e).length then s.sendAbort sl e entry (q + 1) k 0x81 else s
  else s.sendAbort sl e entry q k 0x81

/-- Rank i never got what this rank sent it of chunk k, since its module is absent: the engine passes an abort to the rest of the path and, where
that was a chunk that had spent a credit, has it again (R275). The event comes once for a chunk and rank. -/
def State.collAbsent (s : State) (sl entry k : Nat) (m : ModAddr) (data : Bool) : State :=
  match (s.coll sl).run, s.collEntry? sl entry with
  | some run, some e =>
    let i := (s.groupOf e).idxOf m
    let r := s.rankIn e
    if run.entry ≠ entry ∨ run.lost.contains (i, k) then s
    else
      let s := s.modRun sl fun r => { r with lost := (i, k) :: r.lost }
      if e.op ≤ 1 then
        let s := s.abortEvent sl entry k 0x81 r
        let s := match pathAfter s e run k i with
          | some q => s.abortTo sl e entry k q
          | none => s
        if data && (onChain s e run k i || decide (r + 1 = (s.groupOf e).length)) then s.linkGrant sl 1 else s
      else s.collFault sl entry k r 0x81
  | _, _ => s

/-- The chunk of an entry to which a line index of its transfer belongs. -/
def State.chunkAt (s : State) (sl entry line : Nat) : Nat :=
  match s.collEntry? sl entry, (s.coll sl).run with
  | some e, some run =>
    ((run.sent.find? fun k => e.op ≤ 1 && inChunk e k line).getD (line / chunkPitch e))
  | _, _ => 0

/-- What a request of this module becomes when its destination is absent, by its type. -/
def State.absentActs (s : State) (type dst master tag operand : Nat) : State :=
  let m : ModAddr := BitVec.ofNat 24 dst
  match type with
  | 0x01 | 0x02 | 0x05 =>
    match s.outFind (BitVec.ofNat 12 master) (BitVec.ofNat 6 tag) (some m) [type == 0x05] with
    | some o => (s.outDrop o).outFails o 0x81
    | none => s
  | 0x04 =>
    (s.modCore master fun c => { c with remoteSignalAbsent := sat32 c.remoteSignalAbsent 1 }).raise 0x10 3 master
      [(4, dst), (2, bits operand 0 11), (2, bits operand 11 9)]
  | 0x08 | 0x09 | 0x0B | 0x0C => if 2048 ≤ master ∧ master < 2112 then s.valAbsent (master - 2048) tag type (bits operand 6 31) m else s
  | 0x10 => if 2112 ≤ master ∧ master < 2116 then
        s.collAbsent (master - 2112) (bits operand 0 6) (s.chunkAt (master - 2112) (bits operand 0 6) (bits operand 6 31)) m true else s
  | 0x12 => if 2112 ≤ master ∧ master < 2116 then
        s.collAbsent (master - 2112) (bits operand 0 6) (bits operand 6 31) m false else s
  | 0x13 | 0x14 => s.raise 0x10 0 0 [(1, bits operand 0 4)]
  | 0x16 => if s.reshard.running then s.reshardFault 0x81 else s
  | _ => s

/-- DEST_ABSENT: the original header comes back to its source (R265). -/
def execDestAbsent (p : PortId) (f : Frame) (s : State) : Out :=
  if f.type ≠ 0x1C then .next s
  else
    match s.takeFrame p f with
    | none => .next s
    | some s =>
      let h := natAt f.payload 0 16
      .next (s.absentActs (fOp f 3 5) (bits h 104 24) (bits h 44 12) (bits h 38 6) (bits h 0 37))

/-- E2E_TIMEOUT: a request unanswered within e2e_timeout_ms completes as if DEST_ABSENT had returned (R260). -/
def execE2eTimeout (p : PortId) (master : BitVec 12) (tag : BitVec 6) (s : State) : Out :=
  match s.outFind master tag none [true, false] with
  | none => .next s
  | some o => .next (((s.lateAnswer p).outDrop o).outFails o 0x81)

end Sys2Proof.Machine
end

