-- ==== Sys2Proof/Machine/Banks.lean ====
section
/-! DEFINITION. Bank power by access (R231) and the scrubbers (R236 to R240, R389). When a scrubber reads its next line is its pace against
the timebase: the command is that moment. -/

namespace Sys2Proof.Machine

/-! ### Banks (R231) -/

/-- First address of a bank. -/
def bankBase : BankUnit → Nat
  | .spad c b => spadBase c + 32768 * b
  | .ul c b => ulBase c + 524288 * b

/-- BANK_WAKE: a bank in retention has woken, and stays on. -/
def execBankWake (b : BankUnit) (s : State) : Out :=
  if s.bankState (bankBase b) = 1 then .next (s.setBankState (bankBase b) 0) else .next s

/-- BANK_OFF_ACCESS: a master's access to a bank that is off powers it on, its lines zero. -/
def execBankOffAccess (b : BankUnit) (master : BitVec 16) (s : State) : Out :=
  if s.bankState (bankBase b) = 2 then .next (s.wakeBank (bankBase b) master.toNat) else .next s

/-! ### Scrubbing -/

/-- Address of a byte of an HBM stack, A in GiB: the inverse of the placement of R228. -/
def hbmAddress (A k x : Nat) : Nat :=
  let gib := 2 ^ 30
  let page := x / 4096
  let first := (128 * gib - A / 3 * gib) / 4096
  if page < first then (page * 12 + k) * 4096 + x % 4096
  else (1536 - 4 * A) * gib + k / 3 * (A * gib) + ((page - first) * 3 + k % 3) * 4096 + x % 4096

/-- Address of line i of a scrubbed memory, for one that has addresses. -/
def State.scrubAddress (s : State) (u : ScrubUnit) (i : Nat) : Option Nat :=
  match u with
  | .spad c => if i < 16384 then some (spadBase c + 64 * i) else none
  | .ul c => if i < 524288 then some (ulBase c + 64 * i) else none
  | .hbm k => if i < 2147483648 then some (hbmAddress s.hbmAffinity k (64 * i)) else none
  | _ => none

/-- Lines, or accumulator rows, of a bank of a scrubbed memory (Table 11-3): none for a bank that it has not. An accumulator has two banks,
and a bank for each extension; a cache is one bank. -/
def State.bankLines (s : State) (u : ScrubUnit) (b : Nat) : Nat :=
  match u with
  | .spad c => if b < 32 ∧ !(s.core c).da.extBanks.getLsbD b then 512 else 0
  | .ul _ => if b < 64 then 8192 else 0
  | .acc c => if b < 2 then 256 else if 512 + 64 * (b - 2) < (s.core c).accRows then 64 else 0
  | .icache _ => if b = 0 then 1024 else 0
  | .codeCache _ => if b = 0 then codeCacheLines else 0
  | .hbm _ => if b = 0 then 2147483648 else 0
  | .item _ _ => 0

/-- First line of a bank. -/
def bankFirst (u : ScrubUnit) (b : Nat) : Nat :=
  match u with
  | .spad _ => 512 * b
  | .ul _ => 8192 * b
  | .acc _ => if b < 2 then 256 * b else 512 + 64 * (b - 2)
  | _ => 0

def State.modScrub (s : State) (u : ScrubUnit) (f : Scrub → Scrub) : State :=
  match u with
  | .spad c => s.modCore c fun x => { x with spadScrub := f x.spadScrub }
  | .acc c => s.modCore c fun x => { x with accScrub := f x.accScrub }
  | .icache c => s.modCore c fun x => { x with icScrub := f x.icScrub }
  | .ul c => s.modCourse c fun x => { x with ulScrub := f x.ulScrub }
  | .codeCache c => s.modCourse c fun x => { x with ccScrub := f x.ccScrub }
  | .hbm k => s.modStack k fun x => { x with scrub := f x.scrub }
  | .item _ _ => s

def State.scrubOf (s : State) (u : ScrubUnit) : Scrub :=
  match u with
  | .spad c => (s.core c).spadScrub
  | .acc c => (s.core c).accScrub
  | .icache c => (s.core c).icScrub
  | .ul c => (s.course c).ulScrub
  | .codeCache c => (s.course c).ccScrub
  | .hbm k => (s.stack k).scrub
  | .item _ _ => {}

def State.lapOf (s : State) (u : ScrubUnit) (b : Nat) : Lap := tget (s.scrubOf u).banks b {}

def State.modLap (s : State) (u : ScrubUnit) (b : Nat) (f : Lap → Lap) : State :=
  s.modScrub u fun x => { x with banks := tmod x.banks b {} f }

/-- Memory code, source kind, index and corrected words so far of a bank of a scrubbed memory (R396, Table 11-13): an extension bank is
scratchpad. -/
def State.scrubName (s : State) (u : ScrubUnit) (b : Nat) : Nat × Nat × Nat × Nat :=
  match u with
  | .spad c => (0, 3, c, (s.core c).spadCe.toNat)
  | .acc c => (if b < 2 then 3 else 0, 3, c, (s.core c).spadCe.toNat)
  | .icache c => (4, 3, c, (s.core c).spadCe.toNat)
  | .ul c => (1, 2, c, (s.course c).ulCe.toNat)
  | .codeCache c => (5, 2, c, (s.course c).ulCe.toNat)
  | .hbm k => (2, 5, k, (s.stack k).ce.toNat)
  | .item _ _ => (0, 0, 0, 0)

/-- Line i of a memory lies in a bank that is on, so that the scrubber reaches it. -/
def State.scrubOn (s : State) (u : ScrubUnit) (i : Nat) : Bool :=
  match u with
  | .spad _ => (s.scrubAddress u i).any fun a => s.bankState a == 0
  | .ul _ => (s.scrubAddress u i).any fun a => s.bankState a == 0
  | .acc c => decide (i < 512) || s.bankState ((s.core c).rowAddress c i) == 0
  | _ => true

/-- The scrubber has a pace, and for an HBM stack a token to spend (R389). -/
def State.scrubPaced (s : State) (u : ScrubUnit) : Bool :=
  match u with
  | .hbm k => s.hbmRate != 0 && (s.stack k).tokens != 0
  | _ => s.sramLapMs != 0

/-- The scrubber takes an access: a stack's spends a token (R389). -/
def State.scrubSpend (s : State) (u : ScrubUnit) : State :=
  match u with
  | .hbm k => s.modStack k fun x => { x with tokens := x.tokens - 1, urgent := x.urgent && decide (2048 < x.tokens - 1) }
  | _ => s

/-- Words corrected at a line in a lap of its bank, whose write-back waits under a key. -/
def State.scrubFound (s : State) (u : ScrubUnit) (b key ce : Nat) : State :=
  (s.modLap u b fun y => { y with ce := y.ce + ce }).modScrub u fun y => { y with fix := key :: y.fix.erase key }

/-- The cached code line at place i of an instruction cache, set by set, or of a code cache: its HBM address. -/
def State.cachedAt (s : State) (u : ScrubUnit) (i : Nat) : Option Nat :=
  match u with
  | .icache c => ((tget (s.core c).icache (i / 4) [])[i % 4]?).map (·.addr)
  | .codeCache c => (s.course c).codeCache[i]?
  | _ => none

/-- The correctable words of a cached line are counted; a line with an uncorrectable one is counted, reported and invalidated (R240). -/
def State.scrubCached (s : State) (u : ScrubUnit) (b a : Nat) (r : CacheRead) : State :=
  let s := s.modLap u b fun y => { y with ce := y.ce + r.corrected }
  match u with
  | .icache c =>
    let s := s.modCore c fun k => { k with spadCe := sat32 k.spadCe r.corrected }
    if r.bad then ((s.modCore c fun k => { k.cacheDrop a with spadUe := sat32 k.spadUe 1 }).raise 0x22 3 c [(1, 4), (8, a), (2, 2128)])
    else s
  | .codeCache c =>
    let s := s.modCourse c fun x => { x with ulCe := sat32 x.ulCe r.corrected }
    if r.bad then
      ((s.modCourse c fun x => { x with codeCache := x.codeCache.filter (· != a), ulUe := sat32 x.ulUe 1 }).raise 0x22 2 c
        [(1, 5), (8, a), (2, 2128)])
    else s
  | _ => s

/-- The scrubber reads row i of an accumulator. -/
def State.scrubRow (s : State) (c : Nat) (u : ScrubUnit) (b i : Nat) : State :=
  let x := sramDecode (tget (s.core c).da.accErr i [])
  if !x.ok then s.rowUe c i 2128
  else if x.corrected then (s.modCore c fun k => { k with spadCe := sat32 k.spadCe 1 }).scrubFound u b i 1
  else s

/-- What the scrubber meets at line i of a memory, in bank b: correctable words are counted and await their write-back; an uncorrectable
one is counted and reported, and stays. The codes of a cached line are not state: what they come to is the command's. -/
def State.scrubLine (s : State) (u : ScrubUnit) (b i : Nat) (cached : CacheRead) : State :=
  match u, s.scrubAddress u i with
  | .acc c, _ => s.scrubRow c u b i
  | _, some a =>
    let r := s.lineRead a
    let s := s.countErr a r.ce (if r.data.isSome then 0 else 1)
    if r.data.isNone then s.raiseUe a 2128 else if r.ce = 0 then s else s.scrubFound u b (a / 64) r.ce
  | _, none =>
    match s.cachedAt u i with
    | some a => s.scrubCached u b a cached
    | none => s

/-- The end of a bank's lap: its duration, its number, and ECC_CE_BURST when it corrected ce_event words or more (R236). -/
def State.endLap (s : State) (u : ScrubUnit) (b : Nat) : State :=
  let n := (s.lapOf u b).ce
  let ms : W32 := BitVec.ofNat 32 ((s.timebase - (s.lapOf u b).began) / 1000000)
  let s := s.modLap u b fun y => { y with next := 0, began := s.timebase, ce := 0, laps := y.laps + 1, lapMs := ms }
  let x := s.scrubName u b
  if s.ceEvent ≠ 0 ∧ s.ceEvent.toNat ≤ n then s.raise 0x21 x.2.1 x.2.2.1 [(1, x.1), (2, x.2.2.1), (4, x.2.2.2)] else s

/-- The scrubber reads the next line of a bank's lap, in address order (R238). -/
def State.scrubNext (s : State) (u : ScrubUnit) (bank : Nat) (cached : CacheRead) : State :=
  let i := (s.lapOf u bank).next
  let n := s.bankLines u bank
  let s := (s.scrubSpend u).scrubLine u bank (bankFirst u bank + i) cached
    if i + 1 = n then s.endLap u bank else s.modLap u bank fun y => { y with next := i + 1 }

/-- The scrubber reads a triplicated item (R237): an upset has changed one of its copies, or none. -/
def State.scrubItem (s : State) (i : Nat) (upset : Option (Fin 3)) : State :=
  match upset with
  | none => s.vote i
  | some c =>
    let odd := tget s.health.tmrOdd i []
    ({ s with health := { s.health with tmrOdd := tset s.health.tmrOdd i (if odd.contains c.val then odd else odd ++ [c.val]) } }).vote i

/-- A forced slot of a bank freezes the dense array while it streams: one of an accumulator bank, or of the scratchpad bank that holds a
line of the streaming operand (R133, R238, R390; which line the feeder needs in that cycle is timing: log entry 54). -/
def Core.freezes (k : Core) (n : Nat) (u : ScrubUnit) (bank : Nat) : Bool :=
  match k.da.running.find? fun x => x.1 == .stream with
  | none => false
  | some (_, o) =>
    match u with
    | .acc _ => true
    | .spad _ => (dOuter o.a).any fun idx => (dRowLines o.a idx).any fun a => (a - spadBase n) / 32768 == bank && decide (spadBase n ≤ a)
    | _ => false

/-- The frozen cycle is counted in DA_FREEZE_CYCLES. -/
def State.forceSlot (s : State) (u : ScrubUnit) (bank : Nat) : State :=
  match u with
  | .spad c | .acc c =>
    s.modCore c fun k => if k.freezes c u bank then { k with da := { k.da with freeze := k.da.freeze + 1 } } else k
  | _ => s

/-- The scrubber of a memory has a line of the bank to read. -/
def State.scrubs (s : State) (u : ScrubUnit) (bank : Nat) : Bool :=
  let i := (s.lapOf u bank).next
  s.scrubPaced u && decide (i < s.bankLines u bank) && s.scrubOn u (bankFirst u bank + i)

/-- SCRUB_READ: a memory's scrubber reads its next line, in an idle cycle or a forced slot, or the scrubber reads a triplicated item. -/
def execScrubRead (u : ScrubUnit) (bank : Nat) (cached : CacheRead) (forced : Bool) (s : State) : Out :=
  match u with
  | .item i upset => if s.sramLapMs = 0 then .next s else .next (s.scrubItem i upset)
  | _ => if s.scrubs u bank then .next ((if forced then s.forceSlot u bank else s).scrubNext u bank cached) else .next s

/-- SCRUB_WRITE_BACK: the corrected line goes back, unless a master has written the line since (R239). -/
def execScrubWriteBack (u : ScrubUnit) (line : Nat) (s : State) : Out :=
  match u, s.scrubAddress u line with
  | .acc c, _ =>
    if (s.core c).accScrub.fix.contains line && s.scrubOn u line then
      let x := sramDecode (tget (s.core c).da.accErr line [])
      .next ((writeAcc c line (flipWords ((s.core c).da.accRow line) x.flips)).run s).2
    else .next s
  | _, some a =>
    if (s.scrubOf u).fix.contains (a / 64) && s.scrubPaced u && s.scrubOn u line then
      match (s.lineRead a).data with
      | some d => .next ((s.scrubSpend u).putLine a d)
      | none => .next (s.modScrub u fun y => { y with fix := y.fix.erase (a / 64) })
    else .next s
  | _, none => .next s

end Sys2Proof.Machine
end

