-- ==== Sys2Proof/Machine/Registers.lean ====
section
/-! DEFINITION. The register address map and what every register reads as (R10, R378 to R384; Tables 02-12 to 19-3). A block
answers none at an offset that no table assigns. -/

namespace Sys2Proof.Machine

/-! ### Values that registers show -/

namespace State

/-- POWER_STATUS.state (R332): 0 off, 1 STANDBY, 2 READY, 3 ACTIVE. -/
def powerState (s : State) : Nat :=
  if s.power.off then 0
  else if s.job.state = .running ∨ s.job.state = .faulted ∨ s.job.state = .draining then 3
  else if s.ready.done && !s.power.standbyBit then 2
  else 1

/-- The effective cap in watts (R328). -/
def effectiveCap (s : State) : Nat :=
  let a := s.power.ownerW.toNat
  let b := if s.power.jobW = 0 then a else min a s.power.jobW.toNat
  if s.power.reduced then min b 1200 else b

def moduleReady (s : State) : Bool :=
  s.ready.hostPort && s.ready.hbm == BitVec.allOnes 12 && s.ready.courses == BitVec.allOnes 64

def rdyMap (s : State) : Nat :=
  b2n s.moduleReady * 2 ^ 63 + b2n s.ready.done * 2 ^ 62 + s.ready.ports.toNat * 2 ^ 24 + s.ready.hbm.toNat * 2 ^ 12 +
    b2n s.ready.hostPort

def tampered (s : State) : Bool := s.sec.tamperFinal || decide (s.sec.clearCount < s.sec.tamperCount)

/-- Nanoseconds left in an open presence window. -/
def windowLeft (s : State) : Nat := match s.sec.windowEnd with | some t => t - s.timebase | none => 0

end State

def LcState.code : LcState → Nat
  | .manufacture => 0 | .provisioned => 1 | .deployed => 2 | .service => 3 | .decommissioned => 4

def jobStatusWord (s : State) : Nat := b2n s.job.pausePending * 128 + b2n s.job.faulted * 64 + s.job.state.code

/-- The 32 bits of FP32 and similar counts. -/
def w32 (x : W32) : Nat := x.toNat

def regionBaseWord (r : Region) : Nat :=
  b2n r.enable * 2 ^ 63 + b2n r.read * 2 ^ 62 + b2n r.write * 2 ^ 61 + b2n r.code * 2 ^ 60 + r.base % 2 ^ 42 * 64
def regionLimitWord (r : Region) : Nat := r.limit % 2 ^ 42 * 64

/-- A region pair at an offset from the first pair, of 16. -/
def regionReg (rs : Tab Region) (off : Nat) : Nat :=
  let r := tget rs (off / 16) {}
  if off % 16 = 0 then regionBaseWord r else regionLimitWord r

def flipWord (f : Flip) : Nat :=
  b2n f.armed * 2 ^ 63 + b2n f.target * 2 ^ 44 + f.enable.toNat * 2 ^ 40 + (f.pos.getD 3 0).toNat * 2 ^ 30 +
    (f.pos.getD 2 0).toNat * 2 ^ 20 + (f.pos.getD 1 0).toNat * 2 ^ 10 + (f.pos.getD 0 0).toNat

def lapWord (x : Lap) : Nat := w32 x.laps * 2 ^ 32 + w32 x.lapMs

/-- The slower of two banks has completed fewer laps, counted modulo 2^32 (R388), or the longer last one. -/
def Lap.slower (x y : Lap) : Lap := if decide (1 ≤ (x.laps - y.laps).toNat ∧ (x.laps - y.laps).toNat < 2 ^ 31) || (y.laps == x.laps && decide (x.lapMs < y.lapMs)) then y else x

/-- The laps of the slowest of some banks (Table 11-8). -/
def slowest : List Lap → Lap
  | [] => {}
  | x :: r => r.foldl Lap.slower x

/-- The banks of a core that its scrubbers walk: those of the scratchpad that are on and have no extension role, the accumulator's and its
instruction cache, which SPAD_CE counts together. -/
def Core.laps (c : Core) : List Lap :=
  (((List.range 32).filter fun b => bits c.bankPower.toNat (2 * b) 2 == 0 && !c.da.extBanks.getLsbD b).map fun b => tget c.spadScrub.banks b {}) ++
    ((List.range ((c.accRows - 512) / 64 + 2)).map fun b => tget c.accScrub.banks b {}) ++ [tget c.icScrub.banks 0 {}]

/-- The banks of a course: those of its underlay that are on, and its code cache. -/
def Course.laps (x : Course) : List Lap :=
  (((List.range 64).filter fun b => x.ulPower b == 0).map fun b => tget x.ulScrub.banks b {}) ++ [tget x.ccScrub.banks 0 {}]

def barrierWord (b : Barrier) : Nat :=
  b2n b.declared * 2 ^ 63 + b.gen % 4 * 2 ^ 56 + b.parts.length * 2 ^ 40 + b.arrived * 2 ^ 24 + b.look * 2 ^ 8

/-! ### Core blocks (Table 18-3) -/

/-- STREAM_STATUS.state (Table 02-17). A stream that a pause keeps stopped shows 5, of which the manual says nothing (DESIGN
CHOICE: log entry 57); one that waits for another stream's turn shows 1. -/
def streamState (s : State) (n : Nat) (t : Stream) : Nat :=
  let c := s.core n
  let x := c.ctx t
  if !x.hasEntry then 0
  else if c.halt.halted then 6
  else if x.atWindow || x.hold == .paused then 5
  else
    match s.nextWord n t with
    | none => 4
    | some w => if !s.fetched n t then 4 else if !c.waitHolds t w then 2 else if !s.wordFree n t w then 3 else 1

def streamWord (s : State) (n : Nat) (t : Stream) : Nat :=
  let x := (s.core n).ctx t
  x.pcRegion.toNat * 2 ^ 56 + x.pcIndex.toNat * 2 ^ 24 + x.loops.length * 2 ^ 20 + x.calls.length * 2 ^ 16 +
    b2n x.swap.isSome * 256 + streamState s n t

/-- Accumulator rows: 512 and 64 more for each extension bank. -/
def extCount (b : BitVec 30) : Nat := ((List.range 30).filter fun i => b.getLsbD i).length

def daBusy (d : DenseArray) (u : DaUnit) : Bool := d.running.any fun x => x.1 == u

def daStatusWord (d : DenseArray) : Nat :=
  let st := d.stat.info
  ownerCode d.shadowOwner * 2 ^ 62 + ownerCode d.statOwner * 2 ^ 60 + b2n d.shadow.info.zero * 2 ^ 59 + b2n st.zero * 2 ^ 58 +
    b2n st.compressed * 2 ^ 57 + b2n (st.compressed && st.transposed) * 2 ^ 56 + (if st.compressed then st.pattern else 3) * 2 ^ 54 +
    st.fmt.toNat * 2 ^ 40 + b2n (daBusy d .drain) * 8 + b2n (daBusy d .stream) * 4 + b2n (daBusy d .fill) * 2

def chanStatusWord (s : State) (n ch : Nat) : Nat :=
  let x := s.chan n ch
  let state := if !x.stops.isEmpty then 3 else if x.cur.isSome then 1 else if !x.queue.isEmpty && !s.cqSlot n ch then 2 else 0
  state * 2 ^ 61 + x.queue.length * 2 ^ 57 + (match x.cur with | some y => fImm y.op.w | none => 0)

def chanReg (s : State) (n off : Nat) : Nat :=
  let ch := off / 32
  let x := s.chan n ch
  match off % 32 / 8 with
  | 0 => b2n x.declared * 2 ^ 63 + x.log2 * 2 ^ 59 + x.release * 2 ^ 50 + x.cqBase / 64 % 2 ^ 42 * 64
  | 1 => chanStatusWord s n ch
  | 2 => x.stall.toNat
  | _ => w32 x.records

/-- Register at an offset of core n's block. -/
def coreReg (s : State) (n off : Nat) : Option Nat :=
  let c := s.core n
  match off with
  | 0x000 => some (haltStreamWord c.halt)
  | 0x008 => some (haltPcWord c.halt)
  | 0x010 => some (haltReasonWord c.halt)
  | 0x018 => some c.halt.info.toNat
  | 0x020 => some (w32 c.halt.secondary)
  | 0x040 => some (streamWord s n .F)
  | 0x048 => some (streamWord s n .B)
  | 0x050 => some (streamWord s n .U)
  | 0x060 => some (w32 c.codeEpoch)
  | 0x068 => some c.icacheMiss.toNat
  | 0x070 => some (w32 c.icacheUeRefetch)
  | 0x080 => some c.wdogLog2.toNat
  | 0x088 => some c.gatedCycles.toNat
  | 0x090 => some c.gateWakes.toNat
  | 0x098 => some (w32 c.remoteSignalAbsent)
  | 0x0A0 => some (w32 c.convertPlainSat)
  | 0x200 => some (c.da.extBanks.toNat * 2 ^ 32 + (512 + 64 * extCount c.da.extBanks) * 2 ^ 16 + c.da.halving.toNat)
  | 0x208 => some (daStatusWord c.da)
  | 0x210 => some c.da.freeze.toNat
  | 0x218 => some (w32 c.da.metaDrop)
  | 0x220 => some c.da.zeroSkip.toNat
  | 0x228 => some c.da.rowsStreamed.toNat
  | 0x300 => some (b2n c.gme.run.isSome * 2 ^ 63 + c.gme.lastOpcode.toNat * 2 ^ 48 + c.gme.slotsUsed * 2 ^ 40
      + (c.gme.laneBusy.map fun x => 2 ^ x.1).sum)
  | 0x308 => some (w32 c.gme.steals)
  | 0x310 => some (w32 c.gme.indexDrop)
  | 0x318 => some (w32 c.gme.orderDrop)
  | 0x320 => some c.gme.mergeStall.toNat
  | 0x328 => some c.gme.yealms.toNat
  | 0x330 => some (w32 c.gme.selEmptyPass)
  | 0x338 => some (w32 c.gme.selEmptyForced)
  | 0x340 => some (w32 c.gme.selNanScore)
  | 0x348 => some (w32 c.valCombineAbsent)
  | 0x350 => some c.optUpdates.toNat
  | 0x358 => some (w32 c.optIdleSkip)
  | 0x360 => some (w32 c.optEmptyGrad)
  | 0x368 => some (w32 c.optNonfinite)
  | 0x370 => some (w32 c.optPrecondStale)
  | 0x600 => some c.bankPower.toNat
  | 0x608 => some (w32 c.spadCe)
  | 0x610 => some (w32 c.spadUe)
  | 0x618 => some (flipWord c.spadFlip)
  | 0x620 => some (lapWord (slowest c.laps))
  | _ =>
    if 0x100 ≤ off ∧ off < 0x180 then some (chanReg s n (off - 0x100))
    else if 0x800 ≤ off ∧ off < 0x900 then some (regionReg c.regions (off - 0x800))
    else if 0x1000 ≤ off ∧ off < 0x2000 then some (w32 (c.flag ((off - 0x1000) / 8)))
    else none

/-! ### Course-shared blocks (Table 18-4) -/

def posWord (x : Course) (p : Nat) : Nat :=
  let h := x.health p
  b2n h.retired * 2 ^ 63 + b2n h.suspect * 2 ^ 62 + b2n (x.tester == some p) * 2 ^ 61 + h.confirmed.toNat * 2 ^ 48 +
    h.transient.toNat * 2 ^ 40 + h.cleanPasses.toNat * 2 ^ 32 + h.lastRole.toNat

def coreMapWord (x : Course) (j : Nat) : Nat := (List.range 8).foldl (fun a i => a + x.position (8 * j + i) * 256 ^ i) 0

def testStatusWord (x : Course) : Nat :=
  x.tester.getD 63 * 2 ^ 58 + x.pointer * 2 ^ 52 + b2n x.rotationStopped * 2 ^ 51 + b2n x.passDone * 2 ^ 50 +
    (match x.turn with | some y => b2n y.2 | none => 0) * 2 ^ 49 + w32 x.item

/-- The Valley engine executes: an instruction of a core's queue at the course port has begun. A placement takes no time here. -/
def valBusy (s : State) (c : Nat) : Bool := (List.range 32).any fun k => (s.core (32 * c + k)).val.any (·.begun)

/-- Register at an offset of course c's shared block. -/
def courseReg (s : State) (c off : Nat) : Option Nat :=
  let x := s.course c
  match off with
  | 0x400 => some (x.valley.jobEpoch.toNat * 2 ^ 56 + x.valley.sets.length * 2 ^ 32 + b2n (valBusy s c))
  | 0x408 => some (w32 x.valley.overflowDrop)
  | 0x410 => some (w32 x.valley.staleReturn)
  | 0x418 => some (w32 x.valley.absentDrop)
  | 0x420 => some (w32 x.valley.ueDrop)
  | 0x428 => some x.valley.rowsLanded.toNat
  | 0x430 => some x.valley.rowsReturned.toNat
  | 0x500 => some x.step.toNat
  | 0x600 => some x.ulPower0.toNat
  | 0x608 => some x.ulPower1.toNat
  | 0x610 => some (w32 x.ulCe)
  | 0x618 => some (w32 x.ulUe)
  | 0x620 => some (flipWord x.ulFlip)
  | 0x628 => some (lapWord (slowest x.laps))
  | 0x3220 => some (testStatusWord x)
  | 0x3228 => some x.windows.toNat
  | 0x3230 => some x.windowsHeld.toNat
  | 0x3238 => some (w32 x.windowsAbandoned)
  | _ =>
    if 0x800 ≤ off ∧ off < 0xA00 then some (barrierWord (tget x.barriers ((off - 0x800) / 8) {}))
    else if 0x1000 ≤ off ∧ off < 0x1800 then some (tget x.valley.epochs ((off - 0x1000) / 8) 0).toNat
    else if 0x2000 ≤ off ∧ off < 0x2400 then
      let v := tget x.sched ((off - 0x2000) / 16) {}
      some (if off % 16 = 0 then w32 v.d * 2 ^ 32 + w32 v.eta else w32 v.beta)
    else if 0x2800 ≤ off ∧ off < 0x2900 then some (regionReg x.valRegions (off - 0x2800))
    else if 0x3000 ≤ off ∧ off ≤ 0x3100 then some (posWord x ((off - 0x3000) / 8))
    else if 0x3200 ≤ off ∧ off < 0x3220 then some (coreMapWord x ((off - 0x3200) / 8))
    else none

/-! ### Ports, stacks and the fabric (Tables 12-10 to 12-14, 11-7) -/

def lanesWord (x : Port) (first n : Nat) : Nat := (List.range n).foldl (fun a i => a + x.laneState (first + i) % 4 * 4 ^ i) 0

/-- Register at an offset of port p's block. -/
def portReg (s : State) (p off : Nat) : Option Nat :=
  let x := s.port p
  match off with
  | 0x000 =>
    let up := x.up
    some (x.state * 2 ^ 61 + (if up then x.goodLanes p else 0) * 2 ^ 50 + x.spares p * 2 ^ 48 + x.neighbour.toNat)
  | 0x008 => some (lanesWord x 0 (if p < 2 then 32 else 17))
  | 0x010 => some (w32 x.linkRetry)
  | 0x018 => some (w32 x.linkCrcErr)
  | 0x020 => some x.fecCorrected.toNat
  | 0x028 => some (w32 x.fecUncorrected)
  | 0x030 => some x.framesTx.toNat
  | 0x038 => some x.framesRx.toNat
  | 0x040 => some x.creditStall.toNat
  | 0x048 => some (w32 x.remoteRefused)
  | 0x050 => some (w32 x.destAbsentSent)
  | 0x058 => some (w32 x.frameMalformed)
  | 0x060 => some (w32 x.e2eTimeout)
  | 0x068 => some (w32 x.recalDeferred)
  | 0x070 => some (if p < 2 then lanesWord x 32 2 else 0)
  | _ => if 0x800 ≤ off ∧ off < 0x900 then some (regionReg x.regions (off - 0x800)) else none

def stackReg (s : State) (k off : Nat) : Option Nat :=
  let x := s.stack k
  match off with
  | 0x000 => some (w32 x.ce)
  | 0x008 => some (w32 x.ue)
  | 0x010 => some (flipWord x.flip)
  | 0x018 => some (lapWord (tget x.scrub.banks 0 {}))
  | _ => none

def fabricConfigWord (f : Fabric) : Nat :=
  if f.loaded then
    2 ^ 63 + (f.axisMap.getD 0 0 + f.axisMap.getD 1 0 * 4 + f.axisMap.getD 2 0 * 16) * 2 ^ 56 +
      (List.range 4).foldl (fun a i => a + (f.sizes.getD i 1 - 1) * 2 ^ (24 + 6 * i)) 0 + f.coord.toNat
  else 0

def bypassWord (f : Fabric) : Nat := f.e2eMs.toNat * 2 ^ 16 + f.forced.toNat * 2 ^ 12 + f.auto.toNat * 2 ^ 8 + f.open_.toNat

def collWord (c : Coll) : Nat :=
  b2n c.run.isSome * 2 ^ 63 + c.last % 256 * 2 ^ 40 + (c.lend.map (·.1)).dedup.foldl (fun a v => a + 2 ^ (32 + v)) 0 + w32 c.aborts

def reshardIntWord (r : Reshard) (b : Nat) : Nat :=
  match tfind r.ints b with
  | some x => 2 ^ 63 + x.1 % 2 ^ 31 * 2 ^ 32 + x.2 % 2 ^ 32
  | none => 0

/-- Register at an offset of the fabric-common block. -/
def fabricReg (s : State) (off : Nat) : Option Nat :=
  match off with
  | 0x000 => some (fabricConfigWord s.fabric)
  | 0x008 => some (bypassWord s.fabric)
  | 0x010 => some (s.reshard.startGroup.toNat * 2 ^ 16 + s.reshard.table.toNat)
  | 0x018 => some (s.reshard.result.toNat % 2 ^ 16 * 2 ^ 48 + b2n s.reshard.running * 2 ^ 47 + s.reshard.interrupted % 4 * 2 ^ 45)
  | 0x040 => some (reshardIntWord s.reshard 0)
  | 0x048 => some (reshardIntWord s.reshard 1)
  | _ =>
    if 0x020 ≤ off ∧ off < 0x040 then some (collWord (s.coll ((off - 0x020) / 8)))
    else if 0x800 ≤ off ∧ off < 0xC00 then some (regionReg (s.coll ((off - 0x800) / 256)).regions ((off - 0x800) % 256))
    else none

/-! ### Status, host, security, power, event, health and memory blocks -/

def imageStatusWord (i : Image) : Nat :=
  b2n i.loaded * 2 ^ 63 + b2n i.signed * 2 ^ 62 + b2n i.readySubset * 2 ^ 61 + b2n i.hold * 2 ^ 60 + i.sections % 2048 * 2 ^ 32

def digestReg (x : DigestState) (i : Nat) : Option Nat :=
  match i with
  | 0 => some x.step.toNat
  | 1 => some x.d0
  | 2 => some x.d1
  | 3 => some x.groups.toNat
  | 4 => some x.disagree.toNat
  | 5 => some (b2n x.suspect)
  | _ => none

def declaredDomains (s : State) : Nat :=
  (List.range numDomains).foldl (fun a d => if (s.domain d).isEmpty then a else a + 2 ^ d) 0

/-- Register at an offset of the status block (Table 18-2). -/
def statusReg (s : State) (off : Nat) : Option Nat :=
  match off with
  | 0x000 => some (0x1536 * 2 ^ 32 + 2 ^ 24 + 2 ^ 16 + 2 ^ 8)
  | 0x010 => some s.rdyMap
  | 0x018 => some s.ready.courses.toNat
  | 0x020 => some s.timebase
  | 0x100 => some (jobStatusWord s)
  | 0x180 => some (imageStatusWord s.image)
  | 0x188 => some s.image.courses.toNat
  | 0x1C0 => some s.image.lastError.toNat
  | 0x280 => some (b2n s.rng.reused * 512 + b2n s.rng.wrapWarned * 256 + s.rng.declared.toNat)
  | 0x300 => some (if s.image.loaded then declaredDomains s * 2 ^ 32 + s.image.bodies.interval else 0)
  | _ =>
    if 0x040 ≤ off ∧ off < 0x060 then some (s.slope ((off - 0x040) / 8)).arithCycles.toNat
    else if 0x190 ≤ off ∧ off < 0x1C0 then some (natAt s.image.digest (off - 0x190) 8)
    else if 0x200 ≤ off ∧ off < 0x280 then
      let n := (off - 0x200) / 16
      let k := tget s.rng.keys n (0, 0)
      some (if off % 16 = 0 then k.1 else tget s.rng.written n k.2).toNat
    else if 0x340 ≤ off ∧ off < 0x440 then digestReg (s.digestOf ((off - 0x340) / 64)) ((off - 0x340) % 64 / 8)
    else if 0x800 ≤ off ∧ off < 0x900 then some (barrierWord (s.barrier 1 0 ((off - 0x800) / 8)))
    else if 0x900 ≤ off ∧ off < 0x980 then some (barrierWord (s.barrier 2 0 ((off - 0x900) / 8)))
    else none

def State.owner? (s : State) : Option Session := s.rcp.sessions.find? fun x => x.owner
def State.observers (s : State) : Nat := (s.rcp.sessions.filter fun x => !x.owner).length

/-- Register at an offset of the host block. -/
def hostReg (s : State) (off : Nat) : Option Nat :=
  let r := s.rcp
  match off with
  | 0x000 => some (r.ptpDomain.toNat * 2 ^ 48 + r.idleS.toNat * 2 ^ 32 + r.pcp.toNat * 2 ^ 28 + r.vlan.toNat * 2 ^ 16 + r.udpPort.toNat)
  | 0x008 => some (b2n r.static * 2 ^ 32 + w32 r.addr)
  | 0x010 => some hostMac
  | 0x018 => some (b2n s.owner?.isSome * 2 ^ 63 + s.observers % 8 * 2 ^ 60 + (match s.owner? with | some x => x.id % 2 ^ 32 | none => 0))
  | 0x020 => some (w32 r.ethRxDrop)
  | 0x028 => some (w32 r.discard)
  | 0x030 => some (w32 r.crcErr)
  | 0x038 => some (w32 r.reorderDrop)
  | 0x040 => some (b2n r.ptpLocked * 2 ^ 63 + w32 r.ptpOffset)
  | _ => if 0x800 ≤ off ∧ off < 0x900 then some (regionReg s.bulkRegions (off - 0x800)) else none

/-- The line that the secure bank's window shows; lines of the security engine read as zero. -/
def bankWord (s : State) (n : Nat) : Nat :=
  if s.sec.bankLine.toNat < 1024 then 0 else (tget s.sec.bank (8 * s.sec.bankLine.toNat + n) 0).toNat

/-- Register at an offset of the security block; a field of no unprivileged access reads zero there. -/
def securityReg (s : State) (priv : Bool) (off : Nat) : Option Nat :=
  let x := s.sec
  match off with
  | 0x000 =>
    let presence := if x.jumper then 2 else if s.presence then 1 else 0
    some (x.lc.code * 2 ^ 61 + b2n s.tampered * 2 ^ 60 + x.transitions % 128 * 2 ^ 53 + b2n x.debugUnlocked * 2 ^ 52 + presence * 2 ^ 50 +
      x.tamperCount.toNat * 2 ^ 46 + x.clearCount.toNat * 2 ^ 42 + b2n x.tamperFinal * 2 ^ 41 + (s.windowLeft / 1000000000) % 512)
  | 0x008 => some x.policy.toNat
  | 0x010 => some 0
  | 0x018 => some ((List.range 4).foldl (fun a i => if thas x.keys i then a + 2 ^ i else a) 0)
  | 0x080 =>
    some (b2n x.activeContent * 2 ^ 63 + b2n x.activeFw * 2 ^ 62 + x.staged.toNat * 2 ^ 60 + b2n x.bootedB * 2 ^ 58 +
      x.rollback1.toNat * 2 ^ 38 + x.rollback0.toNat * 2 ^ 32 + w32 x.version)
  | 0x090 => some 0
  | 0x098 => some (if priv then x.bankLine.toNat else 0)
  | 0x0E0 => some Config.serial.toNat
  | _ =>
    if 0x020 ≤ off ∧ off < 0x080 then some 0
    else if 0x0A0 ≤ off ∧ off < 0x0E0 then some (if priv then bankWord s ((off - 0x0A0) / 8) else 0)
    else none

/-- Register at an offset of the power block (Table 15-12). -/
def powerReg (s : State) (off : Nat) : Option Nat :=
  let p := s.power
  match off with
  | 0x000 => some (s.powerState * 2 ^ 62 + p.lastShutdown.toNat * 2 ^ 48 + p.inputW.toNat * 2 ^ 32 + p.inputMv.toNat * 2 ^ 16)
  | 0x008 => some (s.effectiveCap * 2 ^ 32 + p.jobW.toNat * 2 ^ 16 + p.ownerW.toNat)
  | 0x010 => some (b2n p.locate * 2 + b2n p.standbyBit)
  | 0x060 => some (p.coolFlow.toNat * 2 ^ 32 + p.coolOutlet.toNat * 2 ^ 16 + p.coolInlet.toNat)
  | 0x0A0 => some (w32 p.clampEvents)
  | _ =>
    if 0x020 ≤ off ∧ off < 0x040 then
      let x := s.slope ((off - 0x020) / 8)
      some (x.ceiling * 2 ^ 32 + x.throttle * 2 ^ 28 + b2n x.hot * 2 ^ 27 + x.fMhz)
    else if 0x040 ≤ off ∧ off < 0x060 then
      let x := s.slope ((off - 0x040) / 8)
      some (x.stackMax.toNat * 2 ^ 16 + x.tj.toNat)
    else if 0x080 ≤ off ∧ off < 0x0A0 then some (s.slope ((off - 0x080) / 8)).throttleCycles.toNat
    else none

/-- Register at an offset of the event block. -/
def eventReg (s : State) (off : Nat) : Option Nat :=
  let r := s.ridge
  match off with
  | 0x000 => some s.log.newest
  | 0x008 => some (match s.log.records.getLast? with | some e => e.seq | none => 0)
  | 0x010 => some (w32 s.log.boot)
  | 0x018 =>
    some (b2n r.spillOn * 2 ^ 57 + b2n r.telemetryOn * 2 ^ 56 + r.periodMs.toNat * 2 ^ 46 + r.ringLog2.toNat * 2 ^ 42 + r.ringBase.toNat)
  | 0x060 => some (w32 r.telemetrySkip)
  | _ =>
    if 0x020 ≤ off ∧ off < 0x050 then
      let c := tget r.chans ((off - 0x020) / 16) {}
      some (if off % 16 = 0 then b2n c.declared * 2 ^ 63 + c.log2.toNat * 2 ^ 59 + c.base.toNat * 64 else w32 c.released)
    else if 0x800 ≤ off ∧ off < 0x900 then some (regionReg r.regions (off - 0x800))
    else none

/-- Register at an offset of the health block. -/
def healthReg (s : State) (off : Nat) : Option Nat :=
  let h := s.health
  match off with
  | 0x000 => some (b2n h.suspect * 2 ^ 63 + b2n h.causeUnit * 2 ^ 62 + b2n h.causeDigest * 2 ^ 61)
  | 0x008 => some (b2n h.held * 64 + h.conditions.toNat)
  | 0x010 => some h.noSpare.toNat
  | 0x018 => some (w32 h.contentItems * 2 ^ 32 + w32 h.contentVersion)
  | 0x020 => some (w32 h.sweepS * 2 ^ 32 + w32 h.sweeps)
  | 0x028 => some h.migrations.toNat
  | 0x030 => some (h.tmrItems.toNat * 2 ^ 32 + w32 h.tmrCount)
  | _ => none

/-- Register at an offset of the memory-common block. -/
def memoryReg (s : State) (off : Nat) : Option Nat :=
  match off with
  | 0x000 => some s.hbmAffinity
  | 0x008 => some (s.ceEvent.toNat * 2 ^ 48 + s.hbmRate.toNat * 2 ^ 32 + s.sramLapMs.toNat)
  | _ => none

/-! ### The map (Table 18-1) -/

/-- The blocks of the address map. -/
inductive RegBlock where
  | status | host | security | power | event | health | port (p : Nat) | fabric | stack (k : Nat) | memory
  | course (c : Nat) | core (n : Nat)
  deriving DecidableEq, Repr

/-- Block and offset of an address. -/
def regBlock (a : Nat) : Option (RegBlock × Nat) :=
  let win := a / 0x10000
  let off := a % 0x10000
  if 0x01000000 ≤ a ∧ a < 0x01000000 + 64 * 0x40000 then
    some (.core ((a - 0x01000000) / 0x2000), (a - 0x01000000) % 0x2000)
  else if 0x00800000 ≤ a ∧ a < 0x00800000 + 64 * 0x4000 then
    some (.course ((a - 0x00800000) / 0x4000), (a - 0x00800000) % 0x4000)
  else if win = 0x00 then some (.status, off)
  else if win = 0x10 then some (.host, off)
  else if win = 0x20 then some (.security, off)
  else if win = 0x30 then some (.power, off)
  else if win = 0x40 then some (.event, off)
  else if win = 0x50 then some (.health, off)
  else if 0x60 ≤ win ∧ win < 0x68 then some (.port (win - 0x60), off)
  else if win = 0x68 then some (.fabric, off)
  else if 0x70 ≤ win ∧ win < 0x7C then some (.stack (win - 0x70), off)
  else if win = 0x7C then some (.memory, off)
  else none

/-- The value at an address in a view; none where no register is assigned. -/
def readAt (s : State) (priv : Bool) (a : Nat) : Option Nat :=
  match regBlock a with
  | none => none
  | some (b, off) =>
    match b with
    | .status => statusReg s off
    | .host => hostReg s off
    | .security => securityReg s priv off
    | .power => powerReg s off
    | .event => eventReg s off
    | .health => healthReg s off
    | .port p => portReg s p off
    | .fabric => fabricReg s off
    | .stack k => stackReg s k off
    | .memory => memoryReg s off
    | .course c => courseReg s c off
    | .core n => coreReg s n off

/-- The two checks of every address (R383). -/
def addrStatus (s : State) (a : Word) : Option Status :=
  if 2 ^ 32 ≤ a.toNat ∨ a.toNat % 8 ≠ 0 then some .malformed
  else if (readAt s true a.toNat).isNone then some .range
  else none

/-- The register's unit has power only while the slopes have (R384). -/
def slopeUnit (a : Nat) : Bool :=
  match regBlock a with
  | some (.core _, _) => true
  | some (.course _, _) => true
  | some (.port _, _) => true
  | some (.stack _, _) => true
  | some (.fabric, off) => decide (0x020 ≤ off ∧ off < 0x040) || decide (0x800 ≤ off)
  | _ => false

/-- The unit that holds an access back: a course or core in reset, or a migrating role (R384). -/
def State.regHeld (s : State) (a : Nat) : Option (Option Nat × Nat) :=
  match regBlock a with
  | some (.core n, _) => if s.roleHeld n then some (some n, courseOf n) else none
  | some (.course c, _) => if (s.course c).inReset then some (none, c) else none
  | _ => none

/-- What an access must be refused with before it is tried: a unit without power, or the secure bank under a wipe. -/
def State.regRefused (s : State) (priv : Bool) (a : Nat) : Option Status :=
  if slopeUnit a && !s.power.slopesOn then some .notReady
  else
    match regBlock a with
    | some (.security, off) => if priv && s.sec.wiping && decide (0x0A0 ≤ off ∧ off < 0x0E0) then some .notReady else none
    | _ => none

end Sys2Proof.Machine
end

