-- ==== Sys2Proof/Machine/Ridge.lean ====
section
/-! DEFINITION. The ridge DMA: its channels' completion queues, telemetry snapshots and event spill (R120, R320, R392). A slot of
the spill ring holds one event record. -/

namespace Sys2Proof.Machine

def ridgeMaster : Nat := 2116

namespace State

def ridgeChan (s : State) (ch : Nat) : RidgeChan := tget s.ridge.chans ch {}
def modRidgeChan (s : State) (ch : Nat) (f : RidgeChan → RidgeChan) : State :=
  { s with ridge := { s.ridge with chans := tmod s.ridge.chans ch {} f } }

/-- A slot of the channel's completion queue is free; a channel without a queue always has one. -/
def ridgeSlot (s : State) (ch : Nat) : Bool :=
  let x := s.ridgeChan ch
  !x.declared || flagGe x.released x.records || decide ((x.records - x.released).toNat < 2 ^ x.log2.toNat)

/-- A line written by the ridge DMA: its refusal, or none. -/
def ridgeWrite (s : State) (a : Nat) (data : List Byte) : State × Option Nat :=
  if !s.permits s.ridge.regions .write a then (s, some 0x0A)
  else if (s.liveAt a).isSome then (s, some 0x0C)
  else (s.writeLine a data ridgeMaster, none)

/-- Eight 8-byte fields. -/
def lineFields (l : List Byte) : List (Nat × Nat) := (List.range 8).map fun i => (8, natAt l (8 * i) 8)

/-- A channel's record goes to its queue, or to the event log when no queue is configured. -/
def ridgeRecord (s : State) (ch : Nat) (b : RecordBody) : State :=
  let x := s.ridgeChan ch
  if x.declared then
    let w := x.records.toNat
    let n := x.log2.toNat
    let s := (s.ridgeWrite (64 * x.base.toNat + 64 * (w % 2 ^ n)) (recordBytes ch ((w / 2 ^ n % 2 + 1) % 2) s.timebase b)).1
    s.modRidgeChan ch fun y => { y with records := y.records + 1 }
  else s.raise 0x4 0 0 (lineFields (recordBytes ch 0 s.timebase b))

def ringSlots (s : State) : Nat := 2 ^ (s.ridge.ringLog2.toNat + 4)

end State

/-- Writes lines from an address until one is refused: lines written, then the failing address and its status. -/
def ridgePut : State → Nat → Nat → List (List Byte) → State × Nat × Option (Nat × Nat)
  | s, _, k, [] => (s, k, none)
  | s, a, k, l :: r =>
    match s.ridgeWrite a l with
    | (s, none) => ridgePut s (a + 64) (k + 1) r
    | (s, some e) => (s, k, some (a, e))

/-- A transfer ends with its record. -/
def ridgeEnd (ch : Nat) (r : State × Nat × Option (Nat × Nat)) : State :=
  r.1.ridgeRecord ch
    { status := match r.2.2 with | some x => x.2 | none => 0, op := none, lines := r.2.1,
      addr := match r.2.2 with | some x => x.1 | none => 0 }

/-- The 128 registers of a snapshot. -/
def snapshotBytes (s : State) : List Byte :=
  (List.range 128).flatMap fun i => leBytes 8 ((powerReg s (8 * i)).getD 0)

/-- TELEMETRY_SNAPSHOT: a period falls due. One that has not begun by the next is skipped. -/
def execTelemetrySnapshot (begun : Bool) (s : State) : Out :=
  if !s.ridge.telemetryOn then .next s
  else if !begun then .next { s with ridge := { s.ridge with telemetrySkip := sat32 s.ridge.telemetrySkip 1 } }
  else if !s.ridgeSlot 0 then .next s
  else
    let k := (s.ridgeChan 0).slot
    let a := 64 * s.ridge.ringBase.toNat + 1024 * (k % s.ringSlots)
    .next (ridgeEnd 0 (ridgePut (s.modRidgeChan 0 fun y => { y with slot := k + 1 }) a 0 (toLines 16 (snapshotBytes s))))

/-! ### Events as records (Table 14-5) -/

def eventBytes (e : Event) : List Byte :=
  leBytes 8 e.seq ++ leBytes 8 e.time ++ leBytes 2 e.code.toNat ++ [e.kind, 0] ++ leBytes 4 e.source.toNat ++ leBytes 8 0 ++
    bytesAt e.body 0 96

/-- Records that the spill channel has not copied, oldest first. -/
def State.unspilled (s : State) : List Event := (s.log.records.filter fun e => decide (s.ridge.spilled < e.seq)).reverse

/-- Puts event records in consecutive slots of the spill ring. -/
def spillPut (base slots : Nat) : State → Nat → Nat → List Event → State × Nat × Option (Nat × Nat)
  | s, _, k, [] => (s, k, none)
  | s, slot, k, e :: r =>
    match ridgePut s (base + 128 * (slot % slots)) k (toLines 2 (eventBytes e)) with
    | (s, k, none) => spillPut base slots s (slot + 1) k r
    | (s, k, some x) => (s, k, some x)

/-- EVENT_SPILL: 32 records are due, or fewer after 1 ms without a new event. -/
def execEventSpill (quiet : Bool) (s : State) : Out :=
  let due := s.unspilled.take 32
  if !s.ridge.spillOn || due.isEmpty || (!quiet && decide (due.length < 32)) || !s.ridgeSlot 1 then .next s
  else
    let k := (s.ridgeChan 1).slot
    let base := 64 * s.ridge.ringBase.toNat + 1024 * s.ringSlots
    let last := match due.getLast? with | some e => e.seq | none => s.ridge.spilled
    let s := s.modRidgeChan 1 fun y => { y with slot := k + due.length }
    let s := { s with ridge := { s.ridge with spilled := last } }
    .next (ridgeEnd 1 (spillPut base s.ringSlots s k 0 due))

/-! ### Its registers' effects (R320) -/

/-- A new queue is zeroed, and its count restarts. -/
def ridgeCqSet (s : State) (ch : Nat) (value : Word) : State :=
  let n := bits value.toNat 59 4
  let base := bits value.toNat 6 42
  let declared := value.toNat.testBit 63
  let s := s.modRidgeChan ch fun y =>
    { y with declared := declared, log2 := BitVec.ofNat 4 n, base := BitVec.ofNat 42 base, records := 0 }
  if declared then (List.range (2 ^ n)).foldl (fun s i => (s.ridgeWrite (64 * base + 64 * i) zeroLine).1) s else s

end Sys2Proof.Machine
end

