-- ==== Sys2Proof/Machine/Power.lean ====
section
/-! DEFINITION. Supply, cooling, the governor, the power states and bring-up (R322 to R342, R360, R364, R375). -/

namespace Sys2Proof.Machine

/-! ### Light pipes (R327) -/

inductive Light where
  | off | red | amber | green | white | greenBlink | amberBlink
  deriving DecidableEq, Repr

/-- The four light pipes. The lowest state of Table 15-4 that applies wins, but for the red of failed boot firmware, which R339 states of
itself (DEDUCED: log entry 62). Where some ports are ready and the others are down, no row of pipe 2
applies, and the model shows it off (DESIGN CHOICE: log entry 62). -/
def lightPipe (s : State) (k : Nat) : Light :=
  match k with
  | 0 =>
    if s.power.bootFailed then .red
    else if 2 ≤ s.powerState then .green
    else if s.powerState = 1 then .amber
    else if s.power.causeRecord ≠ 0 then .red else .off
  | 1 =>
    match s.job.state with
    | .empty => .off
    | .loading => .greenBlink
    | .loaded => .greenBlink
    | .running => .green
    | .paused => .amber
    | .faulted => .amber
    | .draining => .amber
    | .halted => .red
  | 2 =>
    let states := (List.range 8).map fun p => (s.port p).state
    if states.all fun x => x != 2 && x != 3 then .off
    else if states.all (· == 2) then .green
    else if states.any fun x => x == 1 || x == 3 then .amber
    else if states.any fun x => x == 4 || x == 5 then .red
    else .off
  | _ => if s.power.locate then .white else if s.presence then .amberBlink else if s.tampered then .red else .off

/-! ### Content of SRAM -/

namespace State

/-- Every SRAM line of Table 11-1 reads as zero with valid check bits, accumulator rows as +0, and caches are empty. -/
def loseSram (s : State) : State :=
  { s with mem := s.mem.filter (fun x => x.1 < 0x100000000000)
           memErr := s.memErr.filter (fun x => x.1 < 0x100000000000 / 64)
           cores := s.cores.map fun x =>
             (x.1, { x.2 with da := { x.2.da with acc := [], accErr := [] }, icache := [] })
           courses := s.courses.map fun x => (x.1, { x.2 with codeCache := [] }) }

/-! ### The secure bank and the tamper fuses (R245, R375) -/

/-- The wipe of the secure bank: its lines are zero, and reads are refused until its end. -/
def wipeBank (s : State) : State := { s with sec := { s.sec with bank := [], wiping := true } }

/-- A tamper blows the next fuse, the final one once all fifteen are blown; found is 1 for a break found at power-on. -/
def blowTamper (s : State) (found : Nat) : State :=
  let x := s.sec
  let s := { s with sec := if x.tamperCount = 15 then { x with tamperFinal := true } else { x with tamperCount := x.tamperCount + 1 } }
  s.raise 0x0124 0 0 [(1, found)]

end State

/-! ### Firmware packages (R363, R364) -/

/-- Bytes of a slot's part of a kind. -/
def partBytes (kind : Nat) : Nat := if kind = 0 then 24 * 2 ^ 20 else 4 * 2 ^ 20

/-- Length of the DER sequence at the front of some bytes, 0 where there is none. -/
def derLength (l : List Byte) : Nat :=
  let n := natAt l 1 1
  if natAt l 0 1 != 0x30 then 0
  else if n < 0x80 then 2 + n
  else if n = 0x81 then 3 + natAt l 2 1
  else if n = 0x82 then 4 + beNat (bytesAt l 2 2)
  else 0

/-- The bytes of a package before its certificate. -/
def packageHead (b : List Byte) : Nat := 64 + natAt b 16 8 + 96

/-- Bytes of the package that stands at the front of some bytes. -/
def packageLength (b : List Byte) : Nat := packageHead b + derLength (b.drop (packageHead b))

/-- The header is that of a package of a kind, which with its certificate of at most 2 KiB lies within its staged bytes. -/
def packageForm (kind : Nat) (b : List Byte) : Bool :=
  let n := derLength (b.drop (packageHead b))
  natAt b 0 4 == 0x4B465750 && natAt b 4 1 == kind && decide (natAt b 5 1 ≤ 63) && natAt b 6 2 == 0 &&
    (kind == 1 || natAt b 12 4 == 0) && decide (natAt b 16 8 ≤ partBytes kind - 64) && (bytesAt b 24 40).all (· == 0) &&
    decide (0 < n) && decide (n ≤ 2048) && decide (packageLength b ≤ b.length)

/-- The trailer's signature over header and body verifies under the key of its certificate, which chains to the root of a digest. -/
def packageSigned (root : BitVec 384) (b : List Byte) : Bool :=
  let n := 64 + natAt b 16 8
  let cert := b.drop (n + 96)
  ecdsaOk (Config.certKey cert) (sha384 (b.take n)) (natAt b n 48) (natAt b (n + 48) 48) && Config.certChains cert root

namespace State

def counterOf (s : State) (kind : Nat) : Nat := if kind = 0 then s.sec.rollback0.toNat else s.sec.rollback1.toNat
def activeSlot (s : State) (kind : Nat) : Nat := if kind = 0 then b2n s.sec.activeFw else b2n s.sec.activeContent

/-- A package of a kind is acceptable: its signature verifies, as that of a delivered package does (DESIGN CHOICE: log entry 5), and its
rollback index is at least the counter (R364). -/
def accepts (s : State) (kind : Nat) (p : Package) : Bool :=
  (match p.bytes with | some b => packageSigned s.sec.rootDigest b | none => true) && decide (s.counterOf kind ≤ p.rollback)

/-- Step 3 of a commit: the fused counter rises to the index of the package now active (R366). -/
def raiseCounter (s : State) : State :=
  match s.sec.committing with
  | none => s
  | some kind =>
    let s := { s with sec := { s.sec with committing := none } }
    match tfind s.sec.packages (2 * kind + s.activeSlot kind) with
    | none => s
    | some p =>
      if p.rollback ≤ s.counterOf kind then s
      else if kind = 0 then { s with sec := { s.sec with rollback0 := BitVec.ofNat 6 p.rollback } }
      else { s with sec := { s.sec with rollback1 := BitVec.ofNat 6 p.rollback } }

/-! ### Boot (R364) -/

/-- The management firmware of a slot is acceptable. -/
def bootable (s : State) (slot : Nat) : Bool :=
  match tfind s.sec.packages slot with
  | some p => s.accepts 0 p
  | none => false

def bootSlot (s : State) (slot : Nat) : State :=
  match tfind s.sec.packages slot with
  | some p =>
    { s with sec := { s.sec with bootedB := slot == 1, version := p.version, fwDigest := p.digest }
             power := { s.power with bootFailed := false } }
  | none => s

/-- Items of Table 11-2 that a boot reads, the selectors of R366 with the owner policy; their events follow the first ones of the
boot (R364). -/
def bootItems : List Nat := [0, 1, 2, 3, 7]

/-- No slot boots: the module stays in STANDBY with its host port down (R339). -/
def bootFails (s : State) : State :=
  { s with power := { s.power with bootFailed := true, slopesOn := false }
           ready := { refreshed := s.ready.refreshed, failed := s.ready.failed } }

/-- The boot ROM completes a commit that power interrupted, then tries the active slot and the other. -/
def bootFirmware (s : State) : State :=
  let s := s.raiseCounter
  let a := b2n s.sec.activeFw
  let b := 1 - a
  if s.bootable a then s.bootSlot a
  else if s.bootable b then (s.bootSlot b).raise 0x0120 0 0 [(1, b), (1, a)]
  else s.bootFails

/-- The active content package, if it is acceptable, comes in force (R354). -/
def contentInForce (s : State) : State :=
  match tfind s.sec.packages (2 + b2n s.sec.activeContent) with
  | some p =>
    if s.accepts 1 p then
      { s with health := { s.health with contentItems := p.items, contentVersion := p.version, contentDigest := p.digest } }
    else s
  | none => s

/-! ### What stands without power (Table 15-9, R324) -/

def PosHealth.table (h : PosHealth) : PosHealth :=
  { retired := h.retired, suspect := h.suspect, ownSuspect := h.ownSuspect, confirmed := h.confirmed, transient := h.transient }

/-- The reset state with what is fused, in the firmware store, in the health table or in the owner area. The queue, the
messages already sent and the counters of drawn values are the model's own. -/
def retain (s : State) : State :=
  { State.reset with
    pending := s.pending
    free := s.free
    clock := s.clock
    courses := s.courses.map fun x =>
      (x.1, { rotationStopped := x.2.rotationStopped, pos := x.2.pos.map fun h => (h.1, PosHealth.table h.2) })
    log := { boot := s.log.boot }
    rcp := { tx := s.rcp.tx, net := s.rcp.net, opened := s.rcp.opened, challenge := s.rcp.challenge }
    power := { ownerW := s.power.ownerW, causeRecord := s.power.causeRecord }
    sec := { lc := s.sec.lc, transitions := s.sec.transitions, decommissioned := s.sec.decommissioned, tamperCount := s.sec.tamperCount,
             clearCount := s.sec.clearCount, tamperFinal := s.sec.tamperFinal, jumper := s.sec.jumper, policy := s.sec.policy,
             keys := s.sec.keys, activeFw := s.sec.activeFw, activeContent := s.sec.activeContent, packages := s.sec.packages,
             rollback0 := s.sec.rollback0, rollback1 := s.sec.rollback1, identity := s.sec.identity, keyed := false,
             chain := s.sec.chain, rootDigest := s.sec.rootDigest, committing := s.sec.committing }
    health := { suspect := s.health.suspect, causeDigest := s.health.causeDigest, causeUnit := s.health.causeUnit,
                markDomains := s.health.markDomains, contentItems := s.health.contentItems, contentVersion := s.health.contentVersion,
                contentDigest := s.health.contentDigest, tmrOdd := s.health.tmrOdd.filter fun x => x.1 ≤ 3 || x.1 == 7 } }

/-- A protective shutdown: the cause is recorded, and every die loses power. Sessions close without an event (R302). -/
def shutdown (s : State) (cause : Nat) : State :=
  if s.power.off then s
  else
    let s := s.retain
    { s with power := { s.power with off := true, causeRecord := BitVec.ofNat 8 cause } }

/-! ### Supply (R322, R323) -/

def operating (mv : Nat) : Bool := decide (50000 ≤ mv ∧ mv ≤ 59500)
def reducedRange (mv : Nat) : Bool := decide (45000 ≤ mv ∧ mv < 50000) || decide (59500 < mv ∧ mv ≤ 62000)

/-- The input stands in the reduced range: one event on entry, and the 1,200 W cap below 50.0 V. -/
def supplyLow (s : State) (mv : BitVec 16) : State :=
  let was := s.power.lowNow
  let s := { s with power :=
    { s.power with inputMv := mv, outOfRange := true, lowNow := true, reduced := s.power.reduced || decide (mv.toNat < 50000) } }
  (if was then s else s.raise 0x0101 0 0 [(2, mv.toNat)]).settleGuarantee

end State

/-- SUPPLY_WARN: the input enters the reduced range, or, with any other voltage, leaves it: into the operating range, before its 1 s; or
beyond a limit of R324, for less than the time that shuts down. -/
def execSupplyWarn (mv : BitVec 16) (s : State) : Out :=
  if s.power.off then .next s
  else if State.reducedRange mv.toNat then .next (s.supplyLow mv)
  else
    let p := { s.power with inputMv := mv, lowNow := false }
    .next ({ s with power := if State.operating mv.toNat then p
                             else { p with outOfRange := true, reduced := p.reduced || decide (mv.toNat < 50000) } }).settleGuarantee

/-- The input has stayed in the operating range for 1 s. -/
def execSupplyRecovered (mv : BitVec 16) (s : State) : Out :=
  if s.power.off || !State.operating mv.toNat then .next s
  else .next ({ s with power := { s.power with inputMv := mv, outOfRange := false, lowNow := false, reduced := false } }).settleGuarantee

def execUndervoltage (mv : BitVec 16) (s : State) : Out :=
  if mv.toNat < 45000 then .next (s.shutdown 1) else .next s

def execOvervoltage (mv : BitVec 16) (s : State) : Out :=
  if 62000 < mv.toNat then .next (s.shutdown 2) else .next s

def execPdBreak (s : State) : Out := .next (s.shutdown 3)

/-! ### Cooling (R325): temperatures in tenths of a degree, signed -/

def execThermalTrip (_ : SlopeId) (tj : BitVec 16) (s : State) : Out :=
  if 1150 ≤ tj.toInt then .next (s.shutdown 4) else .next s

/-- The coolant is within its limits. -/
def coolantOk (inlet flow : BitVec 16) : Bool := decide (inlet.toInt ≤ 400) && decide (2000 ≤ flow.toNat)

def State.coolant (s : State) (inlet outlet flow : BitVec 16) (bad : Bool) : State :=
  { s with power := { s.power with coolInlet := inlet, coolOutlet := outlet, coolFlow := flow, coolBad := bad } }

def execCoolantWarn (inlet outlet flow : BitVec 16) (s : State) : Out :=
  if s.power.off || coolantOk inlet flow then .next s
  else
    let was := s.power.coolBad
    let s := s.coolant inlet outlet flow true
    .next (if was then s else s.raise 0x0102 0 0 [(2, inlet.toNat), (2, flow.toNat)]).settleGuarantee

def execCoolantRestored (inlet outlet flow : BitVec 16) (s : State) : Out :=
  if s.power.off || !coolantOk inlet flow then .next s else .next (s.coolant inlet outlet flow false).settleGuarantee

/-- A slope's readings make it hot. -/
def hotReading (tj stack : BitVec 16) : Bool := decide (1050 ≤ tj.toInt) || decide (950 ≤ stack.toInt)

/-- 60 s in nanoseconds. -/
def thermalGap : Nat := 60000000000

/-- SLOPE_HOT: a junction at 115 °C or above is a thermal trip; else the slope is hot, with one THERMAL_LIMIT in any 60 s. -/
def execSlopeHot (sl : SlopeId) (tj stack : BitVec 16) (s : State) : Out :=
  if s.power.off || !hotReading tj stack then .next s
  else if 1150 ≤ tj.toInt then .next (s.shutdown 4)
  else
    let x := s.slope sl
    let s := s.modSlope sl fun y => { y with tj := tj, stackMax := stack, hot := true }
    let due := !x.hot && (match x.lastThermal with | some t => decide (t + thermalGap ≤ s.clock) | none => true)
    if due then
      .next ((s.modSlope sl fun y => { y with lastThermal := some s.clock }).raise 0x0103 1 sl [(2, tj.toNat), (2, stack.toNat)])
    else .next s

def execSlopeCool (sl : SlopeId) (tj stack : BitVec 16) (s : State) : Out :=
  if s.power.off || hotReading tj stack then .next s
  else .next (s.modSlope sl fun y => { y with tj := tj, stackMax := stack, hot := false })

/-! ### The governor (R328 to R331) -/

def numSlopes : Nat := 4

/-- One slope's step down: 50 MHz while above 600, else a sixteenth more throttle. -/
def Slope.down (x : Slope) : Slope := if 600 < x.fMhz then { x with fMhz := x.fMhz - 50 } else { x with throttle := min (x.throttle + 1) 12 }

/-- The first of some slopes whose key is the largest. -/
def bestSlope (key : Nat → Nat) : List Nat → Option Nat
  | [] => none
  | k :: r => match bestSlope key r with
    | none => some k
    | some j => if key j ≤ key k then some k else some j

namespace State

def eachSlope (s : State) (f : Slope → Slope) : State := (List.range numSlopes).foldl (fun s k => s.modSlope k f) s

/-- Power above the cap: the slope of the highest power loses 50 MHz, or every slope throttles. -/
def governDown (s : State) (watts : List Nat) : State :=
  match bestSlope (fun k => watts.getD k 0) ((List.range numSlopes).filter fun k => 600 < (s.slope k).fMhz) with
  | some k => s.modSlope k fun x => { x with fMhz := x.fMhz - 50 }
  | none => s.eachSlope fun x => { x with throttle := min (x.throttle + 1) 12 }

/-- Room below the cap: throttles go first, then the slowest slope below its ceiling gains 50 MHz. -/
def governUp (s : State) : State :=
  if (List.range numSlopes).any fun k => 0 < (s.slope k).throttle then s.eachSlope fun x => { x with throttle := x.throttle - 1 }
  else
    match bestSlope (fun k => 100000 - (s.slope k).fMhz)
        ((List.range numSlopes).filter fun k => (s.slope k).fMhz < (s.slope k).ceiling) with
    | some k => s.modSlope k fun x => { x with fMhz := x.fMhz + 50 }
    | none => s

def govern (s : State) (p : Nat) (watts : List Nat) : State :=
  let s := s.eachSlope fun x => { x with fMhz := min x.fMhz x.ceiling }
  let s := s.eachSlope fun x => if x.hot then x.down else x
  let cap := s.effectiveCap
  let low := if p + 50 < cap then s.power.lowPeriods + 1 else 0
  let s := { s with power := { s.power with inputW := BitVec.ofNat 16 p, lowPeriods := min low 10 } }
  let cool := (List.range numSlopes).all fun k =>
    decide ((s.slope k).tj.toInt < 1000) && decide ((s.slope k).stackMax.toInt < 900)
  if cap < p then s.governDown watts
  else if 10 ≤ low && cool then s.governUp
  else s

end State

/-- GOVERNOR_PERIOD: 1 ms has passed, with the power drawn and each slope's power averaged over it. -/
def execGovernorPeriod (watts : Nat) (slopeWatts : List Nat) (s : State) : Out :=
  if s.power.off then .next s else .next (s.govern watts slopeWatts)

def execClamp (watts : Nat) (s : State) : Out :=
  if s.power.off || decide (watts ≤ 2600) then .next s
  else
    let s := s.eachSlope fun x => { x with fMhz := min x.fMhz 800 }
    .next (({ s with power := { s.power with clampEvents := sat32 s.power.clampEvents 1 } }).raise 0x0105 0 0 [(2, watts)])

/-! ### Bring-up (R339, R340, R360) -/

namespace State

/-- A position that fails its self-test at power-on is retired. -/
def retireFailed (s : State) (failed : List (Nat × Nat)) : State :=
  failed.foldl (fun s f => s.modCourse f.1 fun x => x.modPos f.2 fun h => { h with retired := true }) s

/-- Binds every course, and notes those that have no tester. -/
def bindCourses (s : State) : State :=
  (List.range numCourses).foldl
    (fun s c =>
      let s := s.modCourse c Course.bind
      if (s.course c).tester.isSome then s
      else { s with health := { s.health with noSpare := s.health.noSpare ||| BitVec.ofNat 64 (2 ^ c) } }) s

end State

/-- Power may come (R324): the input has been removed and applied again, within its limits; or, after a shutdown other than a thermal trip,
it has stayed in the operating range for 1 s. -/
def State.mayPowerOn (s : State) (mv : Nat) (reapplied : Bool) : Bool :=
  if reapplied then State.operating mv || State.reducedRange mv else s.power.off && s.power.causeRecord != 4 && State.operating mv

/-- Power-on: from what stood without power, up to the start of the bring-up functions. -/
def State.powerUp (s : State) (mv : BitVec 16) (failed : List (Nat × Nat)) (tamperOpen : Bool) : State :=
  let cause := s.power.causeRecord
  let s := s.retain
  let s := { s with log := { s.log with boot := s.log.boot + 1 }
                    power := { s.power with lastShutdown := cause, causeRecord := 0, inputMv := mv }
                    sec := { s.sec with keyed := s.sec.identity } }
  let s := (s.retireFailed failed).bindCourses
  let s := if cause = 0 then s else s.raise 0x0104 0 0 [(1, cause.toNat)]
  let s := s.bootFirmware
  let s := (if tamperOpen then s.wipeBank.blowTamper 1 else s).votes State.bootItems
  let s := s.contentInForce
  if State.reducedRange mv.toNat then s.supplyLow mv else s

/-- POWER_ON: the input is applied, or the module restarts after a shutdown. -/
def execPowerOn (input : PowerInput) (failed : List (Nat × Nat)) (tamperOpen : Bool) (s : State) : Out :=
  if s.mayPowerOn input.mv.toNat input.reapplied then .next (s.powerUp input.mv failed tamperOpen) else .next s

def allFunctions : List BringUp :=
  .hostPort :: (List.finRange 12).map .stack ++ (List.finRange 64).map .course ++ (List.finRange 8).map .port

def bringUpCode : BringUp → Nat × Nat
  | .hostPort => (0, 0)
  | .stack k => (1, k)
  | .course c => (2, c)
  | .port p => (3, p)

namespace State

def functionReady (s : State) : BringUp → Bool
  | .hostPort => s.ready.hostPort
  | .stack k => s.ready.hbm.getLsbD k
  | .course c => s.ready.courses.getLsbD c
  | .port p => s.ready.ports.getLsbD p

/-- The function has passed or failed its test. -/
def functionDone (s : State) (f : BringUp) : Bool := s.functionReady f || s.ready.failed.contains f

/-- The turn of a function has come (R339): stacks start one at a time in ascending number, unless they come out of self-refresh, and courses
are tested in rounds, i, 16 + i, 32 + i and 48 + i together. -/
def functionTurn (s : State) (f : BringUp) : Bool :=
  match f with
  | .stack k => s.ready.refreshed || (List.finRange 12).all fun j => decide (k ≤ j) || s.functionDone (.stack j)
  | .course c => (List.finRange 64).all fun d => decide (c.val % 16 ≤ d.val % 16) || s.functionDone (.course d)
  | .hostPort => true
  | .port _ => true

/-- A course whose reset repeats its self-test is none of bring-up's (R337). -/
def functionResets (s : State) (f : BringUp) : Bool := match f with | .course c => (s.course c).inReset | _ => false

/-- Bring-up runs the function: it has neither passed nor failed, it has power, and its turn has come. -/
def functionRuns (s : State) (f : BringUp) : Bool :=
  !s.power.off && !s.power.bootFailed && !s.functionDone f && (f == .hostPort || !s.power.standbyBit) && s.functionTurn f &&
    !s.functionResets f

/-- The lanes of a port after training: the last ones are spares, two on a T port and one on another. -/
def trainedLanes (p : Nat) : Tab Nat := if p < 2 then [(32, 1), (33, 1)] else [(16, 1)]

/-- The function is ready, and may be used from this moment. -/
def functionPasses (s : State) (f : BringUp) : State :=
  let r := s.ready
  match f with
  | .hostPort => ({ s with ready := { r with hostPort := true } }).dhcpDiscover
  | .stack k => { s with ready := { r with hbm := r.hbm ||| BitVec.ofNat 12 (2 ^ k.val) } }
  | .course c => { s with ready := { r with courses := r.courses ||| BitVec.ofNat 64 (2 ^ c.val) } }
  | .port p =>
    ({ s with ready := { r with ports := r.ports ||| BitVec.ofNat 8 (2 ^ p.val) } }).modPort p fun x =>
      { x with state := 2, lanes := trainedLanes p, order := List.range (portActive p), stripe := 0, recal := none, fec := [] }

/-- Bring-up is done once every function has become ready or failed (R340). -/
def settleBringUp (s : State) : State :=
  if s.power.off || s.power.bootFailed || s.power.standbyBit || s.ready.done || !allFunctions.all s.functionDone then s
  else { s with ready := { s.ready with done := true } }

/-- The function stays not ready, with its event. -/
def functionFails (s : State) (f : BringUp) (test : Nat) : State :=
  let s := { s with ready := { s.ready with failed := f :: s.ready.failed } }
  let s := match f with | .port p => s.portFault p | _ => s
  s.raise 0x0100 0 0 [(1, (bringUpCode f).1), (1, (bringUpCode f).2), (8, test)]

/-- Two positions of the course are retired. -/
def courseUnfit (s : State) (f : BringUp) : Bool :=
  match f with
  | .course c => decide (2 ≤ ((List.range numPositions).filter fun p => ((s.course c).health p).retired).length)
  | _ => false

end State

/-- BRINGUP_FUNCTION_DONE: a function passes its test, or fails the one named. A course with two retired positions fails; the
manual gives that test no code. -/
def execBringupFunctionDone (f : BringUp) (test : Option Nat) (s : State) : Out :=
  if !s.functionRuns f then .next s
  else
    let s := if f = .hostPort then s else { s with power := { s.power with slopesOn := true } }
    match test with
    | some t => .next (s.functionFails f t).settleBringUp
    | none =>
      if s.courseUnfit f then
        let d := s.draw
        .next (d.2.functionFails f (d.1.toNat % 256)).settleBringUp
      else .next (s.functionPasses f).settleBringUp

/-- BRINGUP_DEADLINE: every function is ready or has failed. -/
def execBringupDeadline (s : State) : Out := .next s.settleBringUp

/-! ### Resets behind the drain of the axes, and standby (R264, R333) -/

namespace State

/-- Every bypass is closed. -/
def closeAxes (s : State) : State :=
  (List.range 4).foldl (fun s k => if s.fabric.open_.getLsbD k then s.closeAxis k else s)
    { s with fabric := { s.fabric with closing := [] } }

/-- A port without power: what it buffers is lost, its counters and regions stand. -/
def Port.unpowered (x : Port) : Port :=
  { regions := x.regions, linkRetry := x.linkRetry, linkCrcErr := x.linkCrcErr, fecCorrected := x.fecCorrected,
    fecUncorrected := x.fecUncorrected, framesTx := x.framesTx, framesRx := x.framesRx, creditStall := x.creditStall,
    remoteRefused := x.remoteRefused, destAbsentSent := x.destAbsentSent, frameMalformed := x.frameMalformed,
    e2eTimeout := x.e2eTimeout, recalDeferred := x.recalDeferred }

/-- A function whose bring-up neither a warm reset nor the way out of STANDBY repeats (R333, Table 15-8): the host port and the
stacks. -/
def survives : BringUp → Bool
  | .hostPort => true
  | .stack _ => true
  | .course _ => false
  | .port _ => false

/-- The slopes lose power: SRAM is lost, HBM kept. -/
def slopesOff (s : State) : State :=
  let s := s.closeAxes.loseSram
  { s with ports := s.ports.map fun x => (x.1, Port.unpowered x.2)
           power := { s.power with slopesOn := false }
           ready := { hostPort := s.ready.hostPort, refreshed := true, failed := s.ready.failed.filter survives } }

/-- The axes that are open. -/
def openAxes (s : State) : List Nat := (List.range 4).filter fun k => s.fabric.open_.getLsbD k

/-- A reset, or the loss of the slopes' power, waits for the drain of every open axis. -/
def drainFor (s : State) (d : ResetDue) : State := s.openAxes.foldl drainAxis { s with resetDue := some d }

/-- POWER_CTRL.standby = 1: the slopes go off, behind the drain of the open axes. -/
def enterStandby (s : State) : State :=
  let s := { s with power := { s.power with standbyBit := true } }
  if s.openAxes.isEmpty then s.slopesOff else s.drainFor .standby

/-- The way out of STANDBY: stacks, courses and ports repeat their bring-up. Before the slopes are off, nothing has to. -/
def leaveStandby (s : State) : State :=
  { s with power := { s.power with standbyBit := false }, resetDue := if s.resetDue = some .standby then none else s.resetDue }

end State

end Sys2Proof.Machine
end

