-- ==== Sys2Proof/Machine/Security.lean ====
section
/-! DEFINITION. Physical presence, tamper, owner keys and policy, firmware packages, the life cycle, wipes and attestation
(R363 to R377). -/

namespace Sys2Proof.Machine

/-! ### Presence (R372) -/

/-- 300 s in nanoseconds. -/
def windowNs : Nat := 300000000000

namespace State

def presenceEvent (s : State) (source start : Nat) : State := s.raise 0x0123 0 0 [(1, source), (1, start)]

/-- An open window ends, with its event. -/
def closeWindow (s : State) : State :=
  if s.sec.windowEnd.isSome then ({ s with sec := { s.sec with windowEnd := none } }).presenceEvent 0 0 else s

end State

def execPresenceButton (s : State) : Out :=
  if s.power.off then .next s else
  let s := s.vote 3
  if s.sec.policy.getLsbD 2 then .next s
  else
    let live := match s.sec.windowEnd with | some t => decide (s.timebase < t) | none => false
    let s := if live then s else s.closeWindow
    let s := { s with sec := { s.sec with windowEnd := some (s.timebase + windowNs) } }
    .next (if live then s else s.presenceEvent 0 1)

def execServiceJumper (fitted : Bool) (s : State) : Out :=
  if s.sec.jumper == fitted then .next s
  else
    let s := { s with sec := { s.sec with jumper := fitted } }
    .next (if s.power.off then s else s.presenceEvent 1 (b2n fitted))

def execPresenceWindowExpiry (s : State) : Out :=
  match s.sec.windowEnd with
  | some t => if t ≤ s.timebase then .next s.closeWindow else .next s
  | none => .next s

/-! ### Tamper (R375) and the end of a wipe (R245) -/

def execTamperBreak (s : State) : Out :=
  if s.power.off then .next s else .next ((s.wipeBank.closeWindow.endSessions 3).blowTamper 0)

def execSecureBankWipeEnd (s : State) : Out := .next { s with sec := { s.sec with wiping := false } }

/-! ### Owner keys, policy and debug access (R370, R371, R374): what the register writes do -/

namespace State

/-- The life-cycle states in which keys and policy may change. -/
def ownerStates (s : State) : Bool := s.sec.lc == .provisioned || s.sec.lc == .deployed || s.sec.lc == .service

/-- What every key and policy write checks first: the job state, then the life cycle. -/
def ownerWrite (s : State) (act : State → Status × State) : Status × State :=
  if !([JobState.empty, .loaded, .halted].contains s.job.state) then (.wrongState, s)
  else
    let s := s.vote 0
    if !s.ownerStates then (.range, s) else act s

/-- The point in the key data registers, each coordinate big-endian over its 48 bytes. -/
def keyPoint (s : State) : Nat × Nat :=
  let coord (i : Nat) : Nat := beNat ((List.range 6).flatMap fun k => leBytes 8 (tget s.sec.keyData (i + k) 0).toNat)
  (coord 0, coord 6)

def keyInstall (s : State) (slot : Nat) : Status × State :=
  s.ownerWrite fun s =>
    if !onCurve s.keyPoint || thas s.sec.keys slot then (.range, s)
    else (.ok, { s with sec := { s.sec with keys := tset s.sec.keys slot s.keyPoint } })

def keyRevoke (s : State) (slot : Nat) : Status × State :=
  s.ownerWrite fun s =>
    let left := terase s.sec.keys slot
    let s := if left.isEmpty then s.vote 3 else s
    if left.isEmpty && (s.sec.policy.getLsbD 0 || s.sec.policy.getLsbD 1) then (.range, s)
    else (.ok, { s with sec := { s.sec with keys := left } })

def policySet (s : State) (v : BitVec 4) : Status × State :=
  s.ownerWrite fun s => (.ok, { s with sec := { s.sec with policy := v } })

def debugSet (s : State) (unlock : Bool) : Status × State :=
  if !unlock then (.ok, s) else
  let s := s.votes [0, 3]
  if s.sec.lc == .service && s.sec.policy.getLsbD 3 then
    (.ok, ({ s with sec := { s.sec with debugUnlocked := true } }).raise 0x0125 0 0 [])
  else (.range, s)

/-! ### Challenges (R301) -/

def challengeBytes (s : State) : List Byte := (List.range 32).map (Config.challengeByte s.rcp.challenge)
def nextChallenge (s : State) : State := { s with rcp := { s.rcp with challenge := s.rcp.challenge + 1 } }

/-- One of the installed owner keys verifies the signature. -/
def ownerSigned (s : State) (hash : List Byte) (r g : Nat) : Bool := s.sec.keys.any fun k => ecdsaOk k.2 hash r g

end State

/-! ### Staging and committing firmware packages (R365, R366) -/

/-- Reads consecutive lines; none once a word is uncorrectable, which the manual gives no master code. -/
def readStaged : State → List Nat → State × Option (List Byte)
  | s, [] => (s, some [])
  | s, a :: r =>
    let x := s.lineRead a
    let s := s.countErr a x.ce (if x.data.isSome then 0 else 1)
    match x.data with
    | none => let d := s.draw; (d.2.raiseUe a (d.1.toNat % 65536), none)
    | some l =>
      let y := readStaged s r
      (y.1, y.2.map fun t => l ++ t)

def lineAddrs (a n : Nat) : List Nat := (List.range n).map fun i => a + 64 * i

/-- Writes the package into the slot that is not active and marks it staged. -/
def State.stage (s : State) (kind : Nat) (b : List Byte) : State :=
  let p : Package := { bytes := some b, rollback := natAt b 5 1, version := BitVec.ofNat 32 (natAt b 8 4),
                       items := BitVec.ofNat 32 (natAt b 12 4), digest := beNat (sha384 b) }
  { s with sec := { s.sec with packages := tset s.sec.packages (2 * kind + (1 - s.activeSlot kind)) p
                               staged := s.sec.staged ||| BitVec.ofNat 2 (2 ^ kind) } }

/-- A long command's outcome awaits its completion. -/
def longDone (ss seq type : Nat) (st : Status) (payload : List Byte := []) : LongCmd :=
  { session := ss, hostSeq := seq, type := BitVec.ofNat 8 type, status := st, payload := payload }

def opFwStage (s : State) (ss seq : Nat) (staging length : Nat) (kind : Nat) : State :=
  match s.turnAway ss true [] true with
  | some e => s.refuse ss seq 0x10 e
  | none =>
    if staging % 64 ≠ 0 ∨ length % 64 ≠ 0 ∨ length = 0 ∨ 0x018000000000 < staging + length ∨ 1 < kind ∨ partBytes kind < length then
      s.refuse ss seq 0x10 .range
    else if s.rcp.long.isSome then s.refuse ss seq 0x10 .busy
    else
      let x := readStaged s (lineAddrs staging (length / 64))
      match x.2 with
      | none => x.1.refuse ss seq 0x10 .signature
      | some b =>
        if !packageForm kind b then x.1.refuse ss seq 0x10 .malformed
        else
          let s := x.1.votes [1, 2]
          let b := b.take (packageLength b)
          if !packageSigned s.sec.rootDigest b || decide (natAt b 5 1 < s.counterOf kind) then s.refuse ss seq 0x10 .signature
          else (s.stage kind b).startLong (longDone ss seq 0x10 .ok)

/-- Step 2 of a commit, the selector, with the package's event; step 3, the counter, comes when the command completes, or at the boot
after a loss of power (R366). -/
def State.commit (s : State) (kind : Nat) (p : Package) : State :=
  let slot := 1 - s.activeSlot kind
  let x := { s.sec with staged := s.sec.staged &&& ~~~(BitVec.ofNat 2 (2 ^ kind)), committing := some kind }
  let s := { s with sec := if kind = 0 then { x with activeFw := slot == 1 } else { x with activeContent := slot == 1 } }
  s.raise 0x0121 0 0 [(1, kind), (1, slot), (4, p.version.toNat), (1, p.rollback)]

def opFwCommit (s : State) (ss seq kind : Nat) : State :=
  match s.turnAway ss true [.empty, .loaded, .halted] true with
  | some e => s.refuse ss seq 0x11 e
  | none =>
    if 1 < kind then s.refuse ss seq 0x11 .range
    else if s.rcp.long.isSome then s.refuse ss seq 0x11 .busy
    else
      match s.sec.staged.getLsbD kind, tfind s.sec.packages (2 * kind + (1 - s.activeSlot kind)) with
      | true, some p =>
        let s := s.votes [1, 2]
        if !s.accepts kind p then s.refuse ss seq 0x11 .signature
        else (s.commit kind p).startLong (longDone ss seq 0x11 .ok)
      | _, _ => s.refuse ss seq 0x11 .notReady

/-! ### Life cycle (R369) -/

def lcOf : Nat → Option LcState
  | 0 => some .manufacture | 1 => some .provisioned | 2 => some .deployed | 3 => some .service | 4 => some .decommissioned
  | _ => none

/-- Who may authorise a transition of Table 17-4: an owner key, the factory key. -/
def lcAuth (s : State) (x y : LcState) : Option (Bool × Bool) :=
  match x, y with
  | .manufacture, .provisioned => some (false, true)
  | .provisioned, .deployed => some (true, false)
  | .deployed, .service => some (true, false)
  | .service, .deployed => some (true, false)
  | .deployed, .provisioned => some (true, true)
  | .service, .provisioned => some (true, true)
  | .decommissioned, .decommissioned => none
  | _, .decommissioned => some (true, s.sec.keys.isEmpty)
  | _, _ => none

/-- Every line of HBM and of every SRAM reads as zero with valid check bits (R373). -/
def State.fullWipe (s : State) : State := ({ s with mem := [], memErr := [] }).loseSram.wipeBank

/-- The health table is cleared with the owner area that holds it: retired and suspect positions, their counts, and the module's mark
(R369). -/
def State.clearHealth (s : State) : State :=
  { s with courses := s.courses.map fun x => (x.1, { x.2 with pos := x.2.pos.map fun h =>
             (h.1, { h.2 with retired := false, suspect := false, ownSuspect := false, confirmed := 0, transient := 0 }) })
           health := { s.health with suspect := false, causeDigest := false, causeUnit := false, markDomains := [] } }

/-- A transition and its further effects. -/
def State.lcMove (s : State) (target : LcState) : State :=
  let old := s.sec.lc
  let x := { s.sec with lc := target, transitions := min (s.sec.transitions + 1) 64, debugUnlocked := false }
  let x :=
    match target with
    | .provisioned =>
      if old = .manufacture then { x with chain := true } else { x with keys := [], policy := 0, clearCount := x.tamperCount }
    | .decommissioned => { x with keys := [], policy := 0, chain := false, decommissioned := true, identity := false }
    | _ => x
  let s := { s with sec := x }
  let s := if target = .decommissioned then s.clearHealth.fullWipe else s.wipeBank
  s.raise 0x0122 0 0 [(1, old.code), (1, target.code)]

/-- The hash that authorises a transition. -/
def lcHash (s : State) (target : LcState) : List Byte :=
  sha384 (leBytes 8 Config.serial.toNat ++ [BitVec.ofNat 8 s.sec.lc.code, BitVec.ofNat 8 target.code] ++ s.challengeBytes)

def opLcChange (s : State) (ss seq target r g : Nat) : State :=
  match s.turnAway ss true [.empty] true with
  | some e => s.refuse ss seq 0x12 e
  | none =>
    match lcOf target with
    | none => s.refuse ss seq 0x12 .range
    | some t =>
      let s := s.vote 0
      match lcAuth s s.sec.lc t with
      | none => s.refuse ss seq 0x12 .range
      | some who =>
        if t ≠ .decommissioned ∧ (64 ≤ s.sec.transitions ∨ s.sec.tamperFinal = true) then s.refuse ss seq 0x12 .range
        else if s.rcp.long.isSome then s.refuse ss seq 0x12 .busy
        else if s.sec.lc == .provisioned && t == .deployed && s.sec.keys.isEmpty then s.refuse ss seq 0x12 .notReady
        else
          let hash := lcHash s t
          if (who.1 && s.ownerSigned hash r g) || (who.2 && ecdsaOk Config.factoryKey hash r g) then
            (s.lcMove t).startLong (longDone ss seq 0x12 .ok)
          else s.refuse ss seq 0x12 .signature

/-! ### Wipes (R373) -/

def opSecureWipe (s : State) (ss seq scope : Nat) : State :=
  match s.turnAway ss true (if scope = 1 then [.empty] else [.empty, .loaded, .halted]) true with
  | some e => s.refuse ss seq 0x13 e
  | none =>
    if 1 < scope then s.refuse ss seq 0x13 .range
    else if s.rcp.long.isSome then s.refuse ss seq 0x13 .busy
    else if scope = 1 then
      s.fullWipe.startLong (longDone ss seq 0x13 .ok)
    else s.wipeBank.startLong (longDone ss seq 0x13 .ok)

/-! ### Attestation (R368, Table 17-2) -/

def State.countPositions (s : State) (f : PosHealth → Bool) : Nat :=
  s.courses.foldl (fun a x => a + ((List.range numPositions).filter fun p => f (x.2.health p)).length) 0

/-- The part number, in ASCII. -/
def partNumber : List Byte := [0x4B, 0x4E, 0x56, 0x32, 0x2D, 0x31, 0x35, 0x33, 0x36]

/-- The three certificates of the owner area (R367). -/
def chainBytes : List Byte := Config.rootCert ++ Config.intermediateCert ++ Config.moduleCert partNumber Config.serial Config.identityKey

/-- Bytes 0 to 287 of the report. -/
def reportBody (s : State) (nonce : List Byte) : List Byte :=
  let flags := b2n s.tampered + b2n s.image.signed * 2 + b2n s.presence * 4 + b2n s.sec.debugUnlocked * 8 + b2n s.health.held * 16 +
    b2n s.health.suspect * 32
  leBytes 2 1 ++ [BitVec.ofNat 8 s.sec.lc.code, BitVec.ofNat 8 flags] ++ leBytes 4 s.log.boot.toNat ++ bytesAt nonce 0 48 ++
    bytesAt partNumber 0 16 ++ leBytes 8 Config.serial.toNat ++ beBytes 48 s.sec.fwDigest ++ beBytes 48 s.health.contentDigest ++
    bytesAt s.image.digest 0 48 ++ leBytes 8 s.rdyMap ++ leBytes 8 s.health.noSpare.toNat ++
    leBytes 2 (s.countPositions (·.retired)) ++ leBytes 2 (s.countPositions (·.suspect)) ++
    [BitVec.ofNat 8 (b2n s.sec.bootedB), BitVec.ofNat 8 s.sec.rollback0.toNat, BitVec.ofNat 8 s.sec.rollback1.toNat, 0] ++
    leBytes 4 s.sec.version.toNat ++ leBytes 4 s.health.contentVersion.toNat ++ leBytes 8 s.log.newest ++ leBytes 8 s.timebase ++
    bytesAt [] 0 16

/-- The report with its signature by the identity key, if the security engine has derived one, and the certificate chain when asked. -/
def report (s : State) (nonce : List Byte) (chain : Bool) : List Byte :=
  let body := reportBody s nonce
  body ++ (if s.sec.keyed then (List.range 96).map (Config.identitySign Config.identityKey (beNat (sha384 body))) else List.replicate 96 0) ++
    (if chain && s.sec.chain then chainBytes else [])

def opAttest (s : State) (ss seq : Nat) (payload : List Byte) : State :=
  if payload.length ≠ 64 ∨ (bytesAt payload 49 15).any (· != 0) ∨ 1 < natAt payload 48 1 then s.refuse ss seq 0x0F .malformed
  else
  let s := s.votes [0, 2, 7]
  if s.sec.lc = .decommissioned then s.refuse ss seq 0x0F .notReady
  else s.reply ss seq 0x0F .ok (report s payload (natAt payload 48 1 == 1))

end Sys2Proof.Machine
end

