-- ==== Sys2Proof/Machine/RegWrite.lean ====
section
/-! DEFINITION. Register writes (R10, R11, R226, R231, R242, R320, R383 to R385): which registers have a writable field, what
refuses a write, and what it does. -/

namespace Sys2Proof.Machine

/-! ### Registers with a writable field -/

/-- Owner of a set of regions that the privileged view writes (Table 11-5). -/
inductive RegionOwner where
  | bulk | ridge | port (p : Nat)
  deriving DecidableEq, Repr

inductive WReg where
  | keyStream (n : Nat) | bankPower (n : Nat) | ulPower (c half : Nat) | ridgeCtrl | ridgeCq (ch : Nat) | ridgeRelease (ch : Nat)
  | powerCtrl | waitConfig (n : Nat) | daConfig (n : Nat) | spadFlip (n : Nat) | ulFlip (c : Nat) | hbmFlip (k : Nat)
  | regionBase (o : RegionOwner) (r : Nat) | regionLimit (o : RegionOwner) (r : Nat) | scrubConfig | tmr | bypassState | reshardCtrl
  | powerCap | slopeClock (k : Nat) | rcpConfig | hostAddr | ownerPolicy | keyCtrl | keyData (n : Nat) | debugCtrl | bankAddr
  | bankData (n : Nat)
  deriving DecidableEq, Repr

def regionAt (o : RegionOwner) (off : Nat) : WReg := if off % 16 = 0 then .regionBase o (off / 16) else .regionLimit o (off / 16)

/-- The register at an address, if some view may write one of its fields. -/
def writable (a : Nat) : Option WReg :=
  match regBlock a with
  | some (.status, off) => if 0x200 ≤ off ∧ off < 0x280 ∧ off % 16 = 8 then some (.keyStream ((off - 0x200) / 16)) else none
  | some (.host, off) =>
    if off = 0 then some .rcpConfig else if off = 8 then some .hostAddr
    else if 0x800 ≤ off ∧ off < 0x900 then some (regionAt .bulk (off - 0x800)) else none
  | some (.security, off) =>
    if off = 0x008 then some .ownerPolicy else if off = 0x010 then some .keyCtrl else if off = 0x090 then some .debugCtrl
    else if off = 0x098 then some .bankAddr
    else if 0x020 ≤ off ∧ off < 0x080 then some (.keyData ((off - 0x020) / 8))
    else if 0x0A0 ≤ off ∧ off < 0x0E0 then some (.bankData ((off - 0x0A0) / 8)) else none
  | some (.power, off) =>
    if off = 0x008 then some .powerCap else if off = 0x010 then some .powerCtrl
    else if 0x020 ≤ off ∧ off < 0x040 then some (.slopeClock ((off - 0x020) / 8)) else none
  | some (.event, off) =>
    if off = 0x018 then some .ridgeCtrl
    else if 0x020 ≤ off ∧ off < 0x050 then
      some (if off % 16 = 0 then .ridgeCq ((off - 0x020) / 16) else .ridgeRelease ((off - 0x020) / 16))
    else if 0x800 ≤ off ∧ off < 0x900 then some (regionAt .ridge (off - 0x800)) else none
  | some (.health, off) => if off = 0x030 then some .tmr else none
  | some (.port p, off) => if 0x800 ≤ off ∧ off < 0x900 then some (regionAt (.port p) (off - 0x800)) else none
  | some (.fabric, off) => if off = 0x008 then some .bypassState else if off = 0x010 then some .reshardCtrl else none
  | some (.stack k, off) => if off = 0x010 then some (.hbmFlip k) else none
  | some (.memory, off) => if off = 0x008 then some .scrubConfig else none
  | some (.course c, off) =>
    if off = 0x600 then some (.ulPower c 0) else if off = 0x608 then some (.ulPower c 1) else if off = 0x620 then some (.ulFlip c)
    else none
  | some (.core n, off) =>
    if off = 0x080 then some (.waitConfig n) else if off = 0x200 then some (.daConfig n) else if off = 0x600 then some (.bankPower n)
    else if off = 0x618 then some (.spadFlip n) else none
  | none => none

/-- Some field is writable in the unprivileged view. -/
def WReg.unprivileged : WReg → Bool
  | .keyStream _ => true
  | .bankPower _ => true
  | .ulPower _ _ => true
  | .ridgeCtrl => true
  | .ridgeCq _ => true
  | .ridgeRelease _ => true
  | .powerCtrl => true
  | _ => false

/-- Reserved bits, as runs of (first bit, length). -/
def WReg.reserved : WReg → List (Nat × Nat)
  | .keyStream _ => []
  | .bankPower _ => []
  | .ulPower _ _ => []
  | .ridgeCtrl => [(58, 6)]
  | .ridgeCq _ => [(48, 11), (0, 6)]
  | .ridgeRelease _ => [(32, 32)]
  | .powerCtrl => [(2, 62)]
  | .waitConfig _ => [(6, 58)]
  | .daConfig _ => [(62, 2), (27, 5), (7, 9)]
  | .spadFlip _ => [(45, 18)]
  | .ulFlip _ => [(44, 19)]
  | .hbmFlip _ => [(44, 19)]
  | .regionBase _ _ => [(48, 12), (0, 6)]
  | .regionLimit _ _ => [(48, 16), (0, 6)]
  | .scrubConfig => [(56, 8), (43, 5), (16, 16)]
  | .tmr => [(40, 24)]
  | .bypassState => [(30, 34), (4, 4)]
  | .reshardCtrl => [(21, 42), (12, 4)]
  | .powerCap => [(48, 16)]
  | .slopeClock _ => [(48, 16), (16, 11)]
  | .rcpConfig => [(56, 8), (31, 1)]
  | .hostAddr => [(33, 31)]
  | .ownerPolicy => [(4, 60)]
  | .keyCtrl => [(4, 60)]
  | .keyData _ => []
  | .debugCtrl => [(1, 63)]
  | .bankAddr => [(12, 52)]
  | .bankData _ => []

def WReg.reservedSet (r : WReg) (v : Nat) : Bool := r.reserved.any fun x => bits v x.1 x.2 != 0

/-! ### Bank power (R231) -/

/-- The bank at an address holds an allocation, a completion queue or accumulator rows. -/
def State.bankHeld (s : State) (base size : Nat) : Bool :=
  let meets (a n : Nat) : Bool := decide (a < base + size ∧ base < a + n)
  (s.image.loaded && s.image.bodies.allocs.any fun x => x.2.loc.isNone && meets x.2.base (64 * x.2.lines)) ||
    (s.cores.any fun c => c.2.chans.any fun x => x.2.declared && meets x.2.cqBase (64 * 2 ^ x.2.log2)) ||
    (s.ridge.chans.any fun x => x.2.declared && meets (64 * x.2.base.toNat) (64 * 2 ^ x.2.log2.toNat)) ||
    (match memUnit base with
      | some (.sp n) => (s.core n).da.extBanks.getLsbD (spadBank base)
      | _ => false)

/-- Puts 32 banks, from the one at an address, into the states of a word. -/
def State.setBanks (s : State) (base size : Nat) (v : Nat) : Status × State :=
  if !([JobState.empty, .loaded, .paused, .halted].contains s.job.state) then (.wrongState, s)
  else if (List.range 32).any (fun i => bits v (2 * i) 2 == 3 || (bits v (2 * i) 2 == 2 && s.bankHeld (base + size * i) size)) then
    (.range, s)
  else
    (.ok, (List.range 32).foldl
      (fun s i =>
        let a := base + size * i
        let x := bits v (2 * i) 2
        let s := if x = 2 ∧ s.bankState a ≠ 2 then s.zeroRange a size else s
        s.setBankState a x) s)

/-! ### Regions (R226) -/

/-- The enabled region holds an unmapped line or crosses from one row of Table 11-1 into another. -/
def regionBreaks (r : Region) : Bool :=
  r.enable && decide (r.base ≤ r.limit) &&
    !(decide (r.limit < 0x600000000) || decide (0x4000000000 ≤ r.base ∧ r.limit < 0x4000000000 + 64 * 0x80000) ||
      decide (0x8000000000 ≤ r.base ∧ r.limit < 0x8000000000 + 2048 * 0x4000))

def State.regionsOf (s : State) : RegionOwner → Tab Region
  | .bulk => s.bulkRegions
  | .ridge => s.ridge.regions
  | .port p => (s.port p).regions

def State.setRegions (s : State) (o : RegionOwner) (t : Tab Region) : State :=
  match o with
  | .bulk => { s with bulkRegions := t }
  | .ridge => { s with ridge := { s.ridge with regions := t } }
  | .port p => s.modPort p fun x => { x with regions := t }

/-- A region write is judged on the pair as it would stand. -/
def State.setRegion (s : State) (o : RegionOwner) (r : Nat) (x : Region) : Status × State :=
  if regionBreaks x then (.range, s) else (.ok, s.setRegions o (tset (s.regionsOf o) r x))

/-! ### The other fields -/

def flipOf (v : Nat) : Flip :=
  { armed := v.testBit 63, target := v.testBit 44, enable := BitVec.ofNat 4 (bits v 40 4),
    pos := (List.range 4).map fun i => BitVec.ofNat 10 (bits v (10 * i) 10) }

/-- Arming needs an enabled position, and every enabled one within the code word. -/
def flipBad (f : Flip) (size : Nat) : Bool := f.armed && (f.positions.isEmpty || f.positions.any fun p => decide (size ≤ p))

namespace State

def setRidgeCtrl (s : State) (v : Nat) : Status × State :=
  let period := bits v 46 10
  if period < 1 ∨ 1000 < period then (.range, s)
  else
    let t := v.testBit 56
    let p := v.testBit 57
    let s := if t && !s.ridge.telemetryOn then s.modRidgeChan 0 fun y => { y with slot := 0 } else s
    let s := if p && !s.ridge.spillOn then
        let s := s.modRidgeChan 1 fun y => { y with slot := 0 }
        { s with ridge := { s.ridge with spilled := s.log.newest } }
      else s
    (.ok, { s with ridge := { s.ridge with telemetryOn := t, spillOn := p, periodMs := BitVec.ofNat 10 period,
                                           ringLog2 := BitVec.ofNat 4 (bits v 42 4), ringBase := BitVec.ofNat 42 (bits v 0 42) } })

def setKeyStream (s : State) (n : Nat) (v : Word) : Status × State :=
  if s.job.state ≠ .paused then (.wrongState, s)
  else if !s.rng.declared.getLsbD n then (.range, s)
  else (.ok, { s with rng := { s.rng with written := tset s.rng.written n v, wrapWarned := false } })

/-- POWER_CTRL: locate in every view, standby in the privileged view (R333). -/
def setPowerCtrl (s : State) (priv : Bool) (v : Nat) : Status × State :=
  let lit (s : State) : State := { s with power := { s.power with locate := v.testBit 1 } }
  if !priv then (.ok, lit s)
  else if v.testBit 0 then
    if s.job.state ≠ .empty then (.wrongState, s)
    else (.ok, lit (if s.power.standbyBit then s else s.enterStandby))
  else (.ok, lit (if s.power.standbyBit then s.leaveStandby else s))

def setRcpConfig (s : State) (v : Nat) : Status × State :=
  let idle := bits v 32 16
  let vlan := bits v 16 12
  let port := bits v 0 16
  if idle < 10 ∨ 3600 < idle ∨ vlan = 4095 ∨ port = 0 ∨ port = 319 ∨ port = 320 then (.range, s)
  else
    (.ok, { s with rcp := { s.rcp with idleS := BitVec.ofNat 16 idle, vlan := BitVec.ofNat 12 vlan, udpPort := BitVec.ofNat 16 port,
                                       pcp := BitVec.ofNat 3 (bits v 28 3), ptpDomain := BitVec.ofNat 8 (bits v 48 8) } })

def setHostAddr (s : State) (v : Nat) : Status × State :=
  (.ok, if v.testBit 32 then { s with rcp := { s.rcp with static := true, addr := BitVec.ofNat 32 v, dhcp := .idle } }
        else if s.rcp.static then ({ s with rcp := { s.rcp with static := false } }).dhcpDiscover
        else s)

def setScrub (s : State) (v : Nat) : Status × State :=
  let rate := bits v 32 11
  let lap := bits v 0 16
  if 1024 < rate ∨ (lap ≠ 0 ∧ (lap < 10 ∨ 60000 < lap)) then (.range, s)
  else
    (.ok, ({ s with ceEvent := BitVec.ofNat 8 (bits v 48 8), hbmRate := BitVec.ofNat 11 rate,
                    sramLapMs := BitVec.ofNat 16 lap }).settleGuarantee)

/-- RESHARD_CTRL: a write of start begins a host re-shard, another sets the fields alone. -/
def setReshard (s : State) (v : Word) : Status × State :=
  let fields (s : State) : State :=
    { s with reshard := { s.reshard with startGroup := BitVec.ofNat 5 (bits v.toNat 16 5), table := BitVec.ofNat 12 (bits v.toNat 0 12) } }
  if v.toNat.testBit 63 then
    let x := reshardCtrl s v
    if x.1 = .ok then (.ok, fields x.2) else x
  else (.ok, fields s)

def setBankWord (s : State) (n : Nat) (v : Word) : Status × State :=
  if s.sec.bankLine.toNat < 1024 then (.privilege, s)
  else (.ok, { s with sec := { s.sec with bank := tset s.sec.bank (8 * s.sec.bankLine.toNat + n) v } })

def setKeyCtrl (s : State) (v : Nat) : Status × State :=
  match bits v 2 2 with
  | 1 => s.keyInstall (bits v 0 2)
  | 2 => s.keyRevoke (bits v 0 2)
  | _ => s.ownerWrite fun s => (.range, s)

/-- What a write that passes R11 does: the state it needs, its ranges, its effect. -/
def setReg (s : State) (priv : Bool) (r : WReg) (value : Word) : Status × State :=
  let v := value.toNat
  match r with
  | .keyStream n => s.setKeyStream n value
  | .bankPower n => s.setBanks (spadBase n) 32768 v
  | .ulPower c half => s.setBanks (ulBase c + 32 * 524288 * half) 524288 v
  | .ridgeCtrl => s.setRidgeCtrl v
  | .ridgeCq ch => if bits v 59 4 < 4 ∨ 12 < bits v 59 4 then (.range, s) else (.ok, ridgeCqSet s ch value)
  | .ridgeRelease ch => (.ok, s.modRidgeChan ch fun y => { y with released := BitVec.ofNat 32 v })
  | .powerCtrl => s.setPowerCtrl priv v
  | .waitConfig n =>
    if bits v 0 6 < 16 ∨ 40 < bits v 0 6 then (.range, s)
    else (.ok, s.modCore n fun c => { c with wdogLog2 := BitVec.ofNat 6 (bits v 0 6) })
  | .daConfig n =>
    if 64 < bits v 0 7 then (.range, s)
    else (.ok, s.modCore n fun c => { c with da := { c.da with halving := BitVec.ofNat 7 (bits v 0 7) } })
  | .spadFlip n => if flipBad (flipOf v) 266 then (.range, s) else (.ok, s.modCore n fun c => { c with spadFlip := flipOf v })
  | .ulFlip c => if flipBad (flipOf v) 266 then (.range, s) else (.ok, s.modCourse c fun x => { x with ulFlip := flipOf v })
  | .hbmFlip k => if flipBad (flipOf v) 576 then (.range, s) else (.ok, s.modStack k fun x => { x with flip := flipOf v })
  | .regionBase o r =>
    s.setRegion o r { tget (s.regionsOf o) r {} with enable := v.testBit 63, read := v.testBit 62, write := v.testBit 61,
                                                     code := v.testBit 60, base := bits v 6 42 }
  | .regionLimit o r => s.setRegion o r { tget (s.regionsOf o) r {} with limit := bits v 6 42 }
  | .scrubConfig => s.setScrub v
  | .tmr => (.ok, { s with health := { s.health with tmrItems := s.health.tmrItems &&& ~~~(BitVec.ofNat 8 (bits v 32 8)) } })
  | .bypassState =>
    if bits v 16 14 < 60 ∨ 10000 < bits v 16 14 then (.range, s)
    else (.ok, { s with fabric := { s.fabric with e2eMs := BitVec.ofNat 14 (bits v 16 14) } })
  | .reshardCtrl => s.setReshard value
  | .powerCap =>
    if bits v 0 16 < 1200 ∨ 2500 < bits v 0 16 then (.range, s)
    else (.ok, { s with power := { s.power with ownerW := BitVec.ofNat 16 v } })
  | .slopeClock k =>
    if bits v 32 16 < 600 ∨ 1600 < bits v 32 16 ∨ bits v 32 16 % 50 ≠ 0 then (.range, s)
    else (.ok, s.modSlope k fun x => { x with ceiling := bits v 32 16 })
  | .rcpConfig => s.setRcpConfig v
  | .hostAddr => s.setHostAddr v
  | .ownerPolicy => s.policySet (BitVec.ofNat 4 v)
  | .keyCtrl => s.setKeyCtrl v
  | .keyData n => (.ok, { s with sec := { s.sec with keyData := tset s.sec.keyData n value } })
  | .debugCtrl => s.debugSet (v.testBit 0)
  | .bankAddr => (.ok, { s with sec := { s.sec with bankLine := BitVec.ofNat 12 v } })
  | .bankData n => s.setBankWord n value

/-- One register write by a session's view: R11, then the register's own rules. -/
def regWrite (s : State) (priv : Bool) (a : Nat) (v : Word) : Status × State :=
  match writable a with
  | none => (.privilege, s)
  | some r =>
    if !priv && !r.unprivileged then (.privilege, s)
    else if priv && !s.presence then (.presenceRequired, s)
    else if r.reservedSet v.toNat then (.malformed, s)
    else s.setReg priv r v

end State

/-! ### READ_REG and WRITE_REG (R299, R383, R384) -/

/-- A refusal at an index: payload bytes 0 to 7, or 8 to 15 beside the job state of a WRONG_STATE. -/
def indexBytes (s : State) (st : Status) (i : Nat) : List Byte :=
  if st = .wrongState then leBytes 8 s.job.state.code ++ leBytes 8 i else leBytes 8 i

def State.refuseAt (s : State) (ss seq type : Nat) (st : Status) (i : Nat) : State := s.reply ss seq type st (indexBytes s st i)

/-- First address that fails the checks of R383, with its index: the form of every address is checked before any is
looked up. -/
def badAddr (s : State) (addrs : List Word) : Option (Status × Nat) :=
  let fails (e : Status) := (addrs.findIdx? fun a => addrStatus s a == some e).map fun i => (e, i)
  match fails .malformed with
  | some x => some x
  | none => fails .range

/-- The access waits for its unit (R384). -/
def State.holdCmd (s : State) (u : Option Nat × Nat) (ss seq : Nat) (c : HeldCmd) : State :=
  { s with held := s.held ++ [{ core := u.1, course := u.2, op := .cmd ss seq c }] }

/-- Writes the pairs in order, stopping at the first refusal. -/
def writeLoop (ss seq : Nat) (priv : Bool) : State → Nat → List (Word × Word) → State
  | s, _, [] => s.reply ss seq 0x05 .ok
  | s, i, (a, v) :: r =>
    match s.regRefused priv a.toNat with
    | some e => s.refuseAt ss seq 0x05 e i
    | none =>
      match s.regHeld a.toNat with
      | some u => s.holdCmd u ss seq (.write priv ((a, v) :: r) i)
      | none =>
        match s.regWrite priv a.toNat v with
        | (.ok, s) => writeLoop ss seq priv s (i + 1) r
        | (e, s) => s.refuseAt ss seq 0x05 e i

def opWriteReg (s : State) (ss seq : Nat) (priv : Bool) (pairs : List (Word × Word)) : State :=
  if !s.isOwner ss then s.refuse ss seq 0x05 .privilege
  else if pairs.isEmpty || decide (64 < pairs.length) then s.refuse ss seq 0x05 .malformed
  else
    match badAddr s (pairs.map (·.1)) with
    | some e => s.refuseAt ss seq 0x05 e.1 e.2
    | none => writeLoop ss seq priv s 0 pairs

/-- The triplicated items that a register shows, which its read votes on (R237, Table 11-2). -/
def registerItems (a : Nat) : List Nat :=
  match regBlock a with
  | some (.security, off) => if off = 0x000 then [0] else if off = 0x008 then [3] else if off = 0x080 then [2] else []
  | some (.fabric, off) => if off = 0x008 then [4] else []
  | some (.course _, off) => if 0x3000 ≤ off ∧ off < 0x3108 then [7] else if 0x3200 ≤ off ∧ off < 0x3220 then [6] else []
  | _ => []

/-- Reads the registers in order; got holds the values read so far, newest first. -/
def readLoop (ss seq : Nat) (priv : Bool) : State → List Word → List Word → State
  | s, [], got => s.reply ss seq 0x04 .ok (got.reverse.flatMap fun w => leBytes 8 w.toNat)
  | s, a :: r, got =>
    match s.regRefused priv a.toNat with
    | some e => s.refuseAt ss seq 0x04 e got.length
    | none =>
      match s.regHeld a.toNat with
      | some u => s.holdCmd u ss seq (.read priv (a :: r) got)
      | none => readLoop ss seq priv (s.votes (registerItems a.toNat)) r (BitVec.ofNat 64 ((readAt s priv a.toNat).getD 0) :: got)

def opReadReg (s : State) (ss seq : Nat) (priv : Bool) (addrs : List Word) : State :=
  if priv && !s.isOwner ss then s.refuse ss seq 0x04 .privilege
  else if addrs.isEmpty || decide (64 < addrs.length) then s.refuse ss seq 0x04 .malformed
  else
    match badAddr s addrs with
    | some e => s.refuseAt ss seq 0x04 e.1 e.2
    | none => readLoop ss seq priv s addrs []

end Sys2Proof.Machine
end

