-- ==== Sys2Proof/Machine/Bypass.lean ====
section
/-! DEFINITION. BYPASS_SET and the end of an axis's drain (R261 to R264, Table 12-6). -/

namespace Sys2Proof.Machine

/-- Both ports of a pair are ready, neither in fault, and coordinates are in force (R267); no bypass opens while a reset drains the axes. -/
def State.openable (s : State) (k : Nat) : Bool :=
  s.ready.ports.getLsbD (2 * k) && s.ready.ports.getLsbD (2 * k + 1) && s.fabric.loaded && (s.port (2 * k)).state != 4 &&
    (s.port (2 * k + 1)).state != 4 && s.resetDue.isNone

/-- The bypass opens, and its ports train with the new neighbours. -/
def State.openAxis (s : State) (k : Nat) : State :=
  let off := ~~~(BitVec.ofNat 4 (2 ^ k))
  let train (x : Port) : Port := { x with state := 1 }
  let s := { s with fabric := { s.fabric with open_ := s.fabric.open_ ||| BitVec.ofNat 4 (2 ^ k), auto := s.fabric.auto &&& off,
                                              forced := s.fabric.forced &&& off } }
  (s.modPort (2 * k) train).modPort (2 * k + 1) train

/-- The drain of an axis begins: its ports return no more credits, and the command is answered at the end. -/
def State.startDrain (s : State) (k ss seq : Nat) (force : Bool) : State :=
  ({ s with fabric := { s.fabric with closing := s.fabric.closing ++ [(k, ss, seq, force)] } }).drainAxis k

/-- The job forbids a close without force, unless the bypass is closed as it is. -/
def State.bypassBusy (s : State) (pair action force : Nat) : Bool :=
  action == 1 && force == 0 && (decide (3 < pair) || s.fabric.open_.getLsbD pair) && (s.job.state == .running || s.job.state == .draining)

/-- BYPASS_SET: role, job state, presence of a forced command, ranges, then the rows of Table 12-6. -/
def opBypassSet (s : State) (ss seq pair action force : Nat) : State :=
  match s.turnAway ss true [] (force == 1 && !s.bypassBusy pair action force) with
  | some e => s.refuse ss seq 0x14 e
  | none =>
    if s.bypassBusy pair action force then s.refuse ss seq 0x14 .wrongState
    else if 3 < pair ∨ 1 < action ∨ 1 < force then s.refuse ss seq 0x14 .range
    else if action = 0 then
      if s.fabric.open_.getLsbD pair then s.reply ss seq 0x14 .ok
      else if s.openable pair then (s.openAxis pair).reply ss seq 0x14 .ok
      else s.refuse ss seq 0x14 .notReady
    else if !s.fabric.open_.getLsbD pair then s.reply ss seq 0x14 .ok
    else s.startDrain pair ss seq (force == 1)

/-- Every frame accepted from a port has been delivered, or forwarded (R264, step 2). -/
def State.portEmptied (s : State) (p : Nat) : Bool :=
  (s.port p).inbox.isEmpty &&
    (List.range 8).all fun q => (s.port q).waiting.all fun w => match w.source with | some x => x.1 != p | none => true

/-- 1 ms of the drain has passed (R264). -/
def State.drainOver (s : State) (p : Nat) : Bool := decide ((s.port p).drainAt + 1000000 ≤ s.clock)

/-- The drain of an open axis is complete: every frame delivered or forwarded and every one sent acknowledged, or 1 ms has passed, what then still
waits in this module staying here (log entry 31). -/
def State.drained (s : State) (k : Nat) : Bool :=
  s.fabric.open_.getLsbD k && ([2 * k, 2 * k + 1] : List Nat).all fun p =>
    (s.port p).draining && (s.drainOver p || (s.portEmptied p && (s.port p).replay.isEmpty))

/-- The drained axis closes, and each command that asked for it is answered. -/
def State.axisDrained (s : State) (k : Nat) : State :=
  let asked := s.fabric.closing.filter fun x => x.1 == k
  let s := s.closeAxis k
  let s := { s with fabric :=
    { s.fabric with closing := s.fabric.closing.filter fun x => x.1 != k
                    forced := if asked.any fun x => x.2.2.2 then s.fabric.forced ||| BitVec.ofNat 4 (2 ^ k) else s.fabric.forced } }
  asked.foldl (fun s x => s.reply x.2.1 x.2.2.1 0x14 .ok) s

end Sys2Proof.Machine
end

