-- ==== Sys2Proof/Machine/Scalar.lean ====
section
/-! DEFINITION. The scalar instructions: arithmetic, immediates, LOOPIDX, RDID, LDL and STL (R27, R28, R394). -/

namespace Sys2Proof.Machine

/-! ### Shared forms -/

/-- dst, a, b: s[dst] ← op s[a] s[b] (Table 02-6). -/
def scalar3 (opcode : Nat) (op : Word → Word → Word) (n : Nat) (t : Stream) (w : Word128) (s : State) : Out :=
  let x := (s.core n).ctx t
  s.issue n t w { form := ⟨opcode, 0, mDst + mA + mB⟩ }
    fun s => .ok (s.setSreg n t (fDst w) (op (x.sreg (fA w)) (x.sreg (fB w))))

/-- dst, a and the immediate; `used` is the part of the immediate in use. -/
def scalarImm (opcode : Nat) (used : Nat) (op : Word → Word) (n : Nat) (t : Stream) (w : Word128) (s : State) : Out :=
  let x := (s.core n).ctx t
  s.issue n t w { form := ⟨opcode, 0, mDst + mA + used⟩ }
    fun s => .ok (s.setSreg n t (fDst w) (op (x.sreg (fA w))))

def divuOp (a b : Word) : Word := if b = 0 then BitVec.allOnes 64 else a / b
def remuOp (a b : Word) : Word := if b = 0 then a else a % b
def minuOp (a b : Word) : Word := if a ≤ b then a else b
def maxuOp (a b : Word) : Word := if a ≤ b then b else a
/-- The shift amount s[b][5:0]. -/
def shamt (b : Word) : Nat := b.toNat % 64

def execAdd (c : CoreId) (t : Stream) (w : Word128) (s : State) : Out := scalar3 0x01 (fun a b => a + b) c t w s
def execSub (c : CoreId) (t : Stream) (w : Word128) (s : State) : Out := scalar3 0x02 (fun a b => a - b) c t w s
def execMul (c : CoreId) (t : Stream) (w : Word128) (s : State) : Out := scalar3 0x03 (fun a b => a * b) c t w s
def execDivu (c : CoreId) (t : Stream) (w : Word128) (s : State) : Out := scalar3 0x04 divuOp c t w s
def execRemu (c : CoreId) (t : Stream) (w : Word128) (s : State) : Out := scalar3 0x05 remuOp c t w s
def execAndOp (c : CoreId) (t : Stream) (w : Word128) (s : State) : Out := scalar3 0x06 (fun a b => a &&& b) c t w s
def execOrOp (c : CoreId) (t : Stream) (w : Word128) (s : State) : Out := scalar3 0x07 (fun a b => a ||| b) c t w s
def execXorOp (c : CoreId) (t : Stream) (w : Word128) (s : State) : Out := scalar3 0x08 (fun a b => a ^^^ b) c t w s
def execShl (c : CoreId) (t : Stream) (w : Word128) (s : State) : Out :=
  scalar3 0x09 (fun a b => a <<< shamt b) c t w s
def execShr (c : CoreId) (t : Stream) (w : Word128) (s : State) : Out :=
  scalar3 0x0A (fun a b => a >>> shamt b) c t w s
def execSar (c : CoreId) (t : Stream) (w : Word128) (s : State) : Out :=
  scalar3 0x0B (fun a b => a.sshiftRight (shamt b)) c t w s
def execMinu (c : CoreId) (t : Stream) (w : Word128) (s : State) : Out := scalar3 0x0C minuOp c t w s
def execMaxu (c : CoreId) (t : Stream) (w : Word128) (s : State) : Out := scalar3 0x0D maxuOp c t w s

def execAddi (c : CoreId) (t : Stream) (w : Word128) (s : State) : Out :=
  scalarImm 0x10 mImm (fun a => a + sextImm w) c t w s
def execAndi (c : CoreId) (t : Stream) (w : Word128) (s : State) : Out :=
  scalarImm 0x11 mImm (fun a => a &&& zextImm w) c t w s
def execShli (c : CoreId) (t : Stream) (w : Word128) (s : State) : Out :=
  scalarImm 0x12 (mField 0 6) (fun a => a <<< fBits w 0 6) c t w s
def execShri (c : CoreId) (t : Stream) (w : Word128) (s : State) : Out :=
  scalarImm 0x13 (mField 0 6) (fun a => a >>> fBits w 0 6) c t w s

/-- What the issue stage asks of Ldi. -/
def ldiReq (_ : State) (_ : CoreId) (_ : Stream) (_ : Word128) : IssueReq :=
  { form := ⟨0x18, 0, mDst + mImm⟩ }

def execLdi (c : CoreId) (t : Stream) (w : Word128) (s : State) : Out :=
  s.issue c t w (ldiReq s c t w) fun s => .ok (s.setSreg c t (fDst w) (sextImm w))

/-- Upper half from the immediate, lower half kept. -/
def ldihOp (old : Word) (imm : Nat) : Word := BitVec.ofNat 64 (imm * 2 ^ 32 + old.toNat % 2 ^ 32)

/-- What the issue stage asks of Ldih. -/
def ldihReq (_ : State) (_ : CoreId) (_ : Stream) (_ : Word128) : IssueReq :=
  { form := ⟨0x19, 0, mDst + mImm⟩ }

def execLdih (c : CoreId) (t : Stream) (w : Word128) (s : State) : Out :=
  s.issue c t w (ldihReq s c t w)
    fun s => .ok (s.setSreg c t (fDst w) (ldihOp (s.sreg c t (fDst w)) (fImm w)))

/-- What the issue stage asks of Loopidx. -/
def loopidxReq (s : State) (c : CoreId) (t : Stream) (w : Word128) : IssueReq :=
  let x := (s.core c).ctx t
  let level := fBits w 0 3
  { form := ⟨0x1A, 0, mDst + mField 0 3⟩
    late := if x.loops.length ≤ level then some (stackStop 0 1 x.loops.length) else none }

def execLoopidx (c : CoreId) (t : Stream) (w : Word128) (s : State) : Out :=
  let x := (s.core c).ctx t
  let level := fBits w 0 3
  s.issue c t w (loopidxReq s c t w)
    fun s => .ok (s.setSreg c t (fDst w) ((x.loops[level]?.map (·.iter)).getD 0))

/-- The values RDID reads: logical core id, course id, stream index, job epoch. -/
def rdidValue (s : State) (n : Nat) (t : Stream) (k : Nat) : Word :=
  match k with
  | 0 => BitVec.ofNat 64 n
  | 1 => BitVec.ofNat 64 (courseOf n)
  | 2 => BitVec.ofNat 64 t.toNat
  | _ => ((s.course (courseOf n)).valley.jobEpoch).zeroExtend 64

/-- What the issue stage asks of Rdid. -/
def rdidReq (_ : State) (_ : CoreId) (_ : Stream) (w : Word128) : IssueReq :=
  { form := ⟨0x1B, 0, mDst + mImm⟩, reserved := if 3 < fImm w then [0] else [] }

def execRdid (c : CoreId) (t : Stream) (w : Word128) (s : State) : Out :=
  s.issue c t w (rdidReq s c t w)
    fun s => .ok (s.setSreg c t (fDst w) (rdidValue s c t (fImm w)))

/-! ### Memory (R28) -/

/-- The register group does not start at a multiple of 8. -/
def groupOff : Option Nat → Bool
  | some g => g % 8 != 0
  | none => false

/-- The checks of R28 in order on an address; `group` is the register group of LDL and STL, which starts at a
multiple of 8. -/
def lineStop (s : State) (n : Nat) (p : Perm) (a : Word) (group : Option Nat) : Option Stop :=
  let lo := a.toNat % 2 ^ 48
  if a.toNat % 64 ≠ 0 then some { reason := 0x09, info := lo }
  else if groupOff group then
    some { reason := 0x09, info := group.getD 0 + 2 ^ 56 }
  else if 2 ^ 48 ≤ a.toNat then
    let d := denied p lo
    some { d with info := d.info + 2 ^ 51 }
  else if !s.permits (s.core n).regions p lo then some (denied p lo)
  else none

/-- Writes eight consecutive registers from a line. -/
def setGroup (x : StreamCtx) (r : Nat) (l : List Byte) : StreamCtx :=
  (List.range 8).foldl (fun x i => x.setSreg (r + i) (BitVec.ofNat 64 (natAt l (8 * i) 8))) x

def groupLine (x : StreamCtx) (r : Nat) : List Byte := (List.range 8).flatMap fun i => leBytes 8 (x.sreg (r + i)).toNat

/-- The scalar unit reads a line for LDL or LDD; a fault halts the core with the error counters kept. -/
def scalarRead (s : State) (n a : Nat) : Except (Stop × State) (List Byte × State) :=
  let r := s.readLine a n
  match r.1 with
  | some d => .ok (d, r.2)
  | none => .error (uncorrectable a, r.2)

/-- What the issue stage asks of Ldl. -/
def ldlReq (_ : State) (_ : CoreId) (_ : Stream) (_ : Word128) : IssueReq :=
  { form := ⟨0x20, 0, mDst + mA + mImm⟩ }

def execLdl (c : CoreId) (t : Stream) (w : Word128) (s : State) : Out :=
  let a := s.sreg c t (fA w) + sextImm w
  let fault := lineStop s c .read a (some (fDst w))
  s.issue c t w (ldlReq s c t w) fun s =>
    match fault with
    | some st => .error (st, s)
    | none =>
      match scalarRead s c a.toNat with
      | .ok (l, s) => .ok (s.modCtx c t fun x => setGroup x (fDst w) l)
      | .error e => .error e

/-- What the issue stage asks of Stl. -/
def stlReq (_ : State) (_ : CoreId) (_ : Stream) (w : Word128) : IssueReq :=
  { form := ⟨0x21, 0, mA + mB + mImm⟩, ownSignal := fSigWhen w != 2 }

def execStl (c : CoreId) (t : Stream) (w : Word128) (s : State) : Out :=
  let x := (s.core c).ctx t
  let a := x.sreg (fB w) + sextImm w
  let fault := lineStop s c .write a (some (fA w))
  s.issue c t w (stlReq s c t w) fun s =>
    match fault with
    | some st => .error (st, s)
    | none =>
      match s.liveAt a.toNat with
      | some r => .error ({ reason := 0x0C, info := a.toNat + r * 2 ^ 48 }, s)
      | none =>
        let s := s.writeLine a.toNat (groupLine x (fA w)) c
        -- at destination arrival the flag is that of the core whose scratchpad is written (R26)
        let own := match memUnit a.toNat with | some (.sp k) => k | _ => c
        .ok (if fSigWhen w = 2 then s.signal own (sigOf x w) else s)

end Sys2Proof.Machine
end

