-- ==== Sys2Proof/Machine/Control.lean ====
section
/-! DEFINITION. Loops, calls and jumps (R30 to R34), and the code swap (R37). -/

namespace Sys2Proof.Machine

/-- The innermost open loop of the current call frame (R30, R32). -/
def StreamCtx.frameLoop (x : StreamCtx) : Option LoopEntry :=
  match x.loops with
  | l :: _ => if l.frame = x.calls.length then some l else none
  | [] => none

/-- LOOP's checks: its end below that of the innermost open loop of the frame, and at most eight loops. -/
def loopStop (x : StreamCtx) (stop : Nat) (count : Word) : Option Stop :=
  match x.frameLoop with
  | some l =>
    if l.stop ≤ stop then some (stackStop 0 2 x.loops.length)
    else if count ≠ 0 ∧ Config.stackDepth ≤ x.loops.length then some (stackStop 0 0 x.loops.length)
    else none
  | none =>
    if count ≠ 0 ∧ Config.stackDepth ≤ x.loops.length then some (stackStop 0 0 x.loops.length) else none

/-- Opens a loop, or skips to the index after its end. Where that index passes 2^32 − 1 the manual says nothing, and the 32-bit PC
takes it modulo 2^32 (DESIGN CHOICE: log entry 57). -/
def enterLoop (x : StreamCtx) (pc : W32) (stop : Nat) (count : Word) : StreamCtx :=
  if count = 0 then { x with pcIndex := BitVec.ofNat 32 (stop + 1) }
  else
    { x with loops := { start := pc + 1, stop := stop, remaining := count, iter := 0, region := x.pcRegion,
                        frame := x.calls.length } :: x.loops
             pcIndex := pc + 1 }

/-- What the issue stage asks of Loop. -/
def loopReq (s : State) (c : CoreId) (t : Stream) (w : Word128) : IssueReq :=
  let x := (s.core c).ctx t
  let stop := x.pcIndex.toNat + fImm w
  let count := x.sreg (fA w)
  { form := ⟨0x28, 0, mA + mImm⟩, reserved := if fImm w = 0 then [0] else [], late := loopStop x stop count }

def execLoop (c : CoreId) (t : Stream) (w : Word128) (s : State) : Out :=
  let x := (s.core c).ctx t
  let stop := x.pcIndex.toNat + fImm w
  let count := x.sreg (fA w)
  s.issue c t w (loopReq s c t w)
    fun s => .ok (s.modCtx c t fun y => enterLoop y x.pcIndex stop count)

/-- The pending swap takes effect: every reference to the old region becomes the new one (R37). -/
def StreamCtx.applySwap (x : StreamCtx) : StreamCtx :=
  match x.swap with
  | none => x
  | some (o, nw) =>
    { x with
      pcRegion := if x.pcRegion = o then nw else x.pcRegion
      calls := x.calls.map fun e => if e.region = o then { e with region := nw } else e
      loops := x.loops.map fun e => if e.region = o then { e with region := nw } else e
      swap := none }

/-- ENDLOOP's step on the loop stack and the PC (R31). -/
def StreamCtx.endLoop (x : StreamCtx) (pc : W32) : StreamCtx :=
  match x.loops with
  | [] => x
  | l :: r =>
    if l.remaining - 1 ≠ 0 then
      { x with loops := { l with remaining := l.remaining - 1, iter := l.iter + 1 } :: r, pcIndex := l.start }
    else { x with loops := r, pcIndex := pc + 1 }

def endloopStop (x : StreamCtx) : Option Stop :=
  match x.loops with
  | [] => some (stackStop 0 1 0)
  | l :: _ => if l.stop = x.pcIndex.toNat then none else some (stackStop 0 2 x.loops.length)

/-- A pending swap takes effect, the flag of the stream increments, and the old region leaves the maps. -/
def State.takeSwap (s : State) (n : Nat) (t : Stream) : State :=
  match ((s.core n).ctx t).swap with
  | none => s
  | some _ => (s.settleCode (s.modCtx n t StreamCtx.applySwap) n).incFlag n (swapFlag t) 1

/-- What the issue stage asks of Endloop. -/
def endloopReq (s : State) (c : CoreId) (t : Stream) (_ : Word128) : IssueReq :=
  let x := (s.core c).ctx t
  { form := ⟨0x29, 0, 0⟩, late := endloopStop x }

def execEndloop (c : CoreId) (t : Stream) (w : Word128) (s : State) : Out :=
  let x := (s.core c).ctx t
  s.issue c t w (endloopReq s c t w)
    fun s => .ok ((s.modCtx c t fun y => y.endLoop x.pcIndex).takeSwap c t)

/-- CALL's refusals: an undeclared region or an index beyond its length, and a retired region. -/
def callStop (s : State) (n : Nat) (region index : Nat) : Option Stop :=
  let out : Stop := { reason := 0x0A, info := index * 16 % 2 ^ 48 + 2 ^ 50 + 2 ^ 52 + region * 2 ^ 56 }
  match s.region? region with
  | none => some out
  | some r =>
    if 4 * r.lines ≤ index then some out
    else if s.image.retired.contains region then
      some { reason := 0x0D, info := (r.base + 16 * index) / 64 * 64 % 2 ^ 48 + region * 2 ^ 48 +
                                     (s.core n).codeEpoch.toNat % 256 * 2 ^ 56 }
    else if !s.permits (s.core n).regions .code ((r.base + 16 * index) / 64 * 64) then
      some (denied .code ((r.base + 16 * index) / 64 * 64))
    else none

/-- What the issue stage asks of Call. -/
def callReq (s : State) (c : CoreId) (t : Stream) (w : Word128) : IssueReq :=
  let x := (s.core c).ctx t
  let late :=
    if Config.stackDepth ≤ x.calls.length then some (stackStop 1 0 x.calls.length)
    else callStop s c (fBits w 32 8) (fImm w)
  { form := ⟨0x2A, 0, mField 32 8 + mImm⟩, late := late }

def execCall (c : CoreId) (t : Stream) (w : Word128) (s : State) : Out :=
  let x := (s.core c).ctx t
  s.issue c t w (callReq s c t w) fun s =>
    .ok (s.modCtx c t fun y =>
      { y with calls := { region := x.pcRegion, index := x.pcIndex + 1 } :: y.calls
               pcRegion := BitVec.ofNat 8 (fBits w 32 8), pcIndex := BitVec.ofNat 32 (fImm w) })

def retStop (x : StreamCtx) : Option Stop :=
  if x.calls.isEmpty then some (stackStop 1 1 0)
  else if x.frameLoop.isSome then some (stackStop 0 2 x.loops.length)
  else none

def StreamCtx.popCall (x : StreamCtx) : StreamCtx :=
  match x.calls with
  | [] => x
  | e :: r => { x with calls := r, pcRegion := e.region, pcIndex := e.index }

/-- What the issue stage asks of Ret. -/
def retReq (s : State) (c : CoreId) (t : Stream) (_ : Word128) : IssueReq :=
  let x := (s.core c).ctx t
  { form := ⟨0x2B, 0, 0⟩, late := retStop x }

def execRet (c : CoreId) (t : Stream) (w : Word128) (s : State) : Out :=
  s.issue c t w (retReq s c t w)
    fun s => .ok (s.settleCode (s.modCtx c t StreamCtx.popCall) c)

/-- Bounds of a JMP: its own code region and, with a loop open in the frame, the innermost loop's body (R33). -/
def jmpOk (s : State) (x : StreamCtx) (target : Int) : Bool :=
  (match s.region? x.pcRegion.toNat with
   | some r => decide (0 ≤ target ∧ target < 4 * r.lines)
   | none => false) &&
  (match x.frameLoop with
   | some l => decide ((l.start.toNat : Int) ≤ target ∧ target ≤ l.stop)
   | none => true)

/-- What the issue stage asks of Jmp. -/
def jmpReq (s : State) (c : CoreId) (t : Stream) (w : Word128) : IssueReq :=
  let x := (s.core c).ctx t
  let target : Int := x.pcIndex.toNat + (BitVec.ofNat 32 (fImm w)).toInt
  { form := ⟨0x2C, 0, mImm⟩
    late := if jmpOk s x target then none else some (stackStop 0 2 x.loops.length) }

def execJmp (c : CoreId) (t : Stream) (w : Word128) (s : State) : Out :=
  let x := (s.core c).ctx t
  let target : Int := x.pcIndex.toNat + (BitVec.ofNat 32 (fImm w)).toInt
  s.issue c t w (jmpReq s c t w)
    fun s => .ok (s.modCtx c t fun y => { y with pcIndex := BitVec.ofInt 32 target })

/-! ### CODESWAP (R37) -/

def streamOf : Nat → Stream
  | 0 => .F | 1 => .B | _ => .U

/-- The halt of a CODESWAP whose target stream, or whose regions, do not permit it. HALT_INFO names the target stream, the one whose state is at
fault (DESIGN CHOICE: log entry 11). -/
def swapStop (s : State) (n : Nat) (w : Word128) : Option Stop :=
  let t := streamOf (fBits w 32 2)
  let x := (s.core n).ctx t
  let o := fBits w 40 8
  let nw := fBits w 48 8
  if x.swap.isSome then some (notInState w 0x04 t.toNat)
  else if !x.hasEntry then some (notInState w 0x05 t.toNat)
  else if !x.codeMap.contains o then some (notInState w 0x06 t.toNat)
  else
    match s.region? o, s.region? nw with
    | some ro, some rn => if nw = o ∨ rn.lines < ro.lines then some (notInState w 0x07 t.toNat) else none
    | _, _ => some (notInState w 0x07 t.toNat)

/-- What the issue stage asks of Codeswap. -/
def codeswapReq (s : State) (c : CoreId) (_ : Stream) (w : Word128) : IssueReq :=
  { form := ⟨0xE5, 6, mField 32 2 + mField 40 16⟩
    reserved := if fBits w 32 2 = 3 then [32] else []
    late := swapStop s c w }

def execCodeswap (c : CoreId) (t : Stream) (w : Word128) (s : State) : Out :=
  let nw := fBits w 48 8
  s.issue c t w (codeswapReq s c t w)
    fun s =>
      let s := s.modCtx c (streamOf (fBits w 32 2)) fun x =>
        { x with swap := some (BitVec.ofNat 8 (fBits w 40 8), BitVec.ofNat 8 nw) }
      .ok { s with image := { s.image with retired := s.image.retired.filter (· != nw) } }

end Sys2Proof.Machine
end

