-- ==== Sys2Proof/Machine/DescIns.lean ====
section
/-! DEFINITION. The instructions on descriptor registers: LDD, MOVD, DBASE, DSIZE and DCLR (R27, R105). -/

namespace Sys2Proof.Machine

/-- Binds d to register k after the checks of Table 05-3; a failing check leaves the register as it was. -/
def State.bind (s : State) (n : Nat) (t : Stream) (k : Nat) (d : Desc) : Except (Stop × State) State :=
  match s.validate k d with
  | some st => .error (st, s)
  | none => .ok (s.modCtx n t fun x => x.setDreg k d)

/-- What the issue stage asks of Ldd. -/
def lddReq (_ : State) (_ : CoreId) (_ : Stream) (w : Word128) : IssueReq :=
  { form := ⟨0x30, 0, mDst + mA + mImm⟩, needs := [{ operand := 0, reg := fDst w, write := true }] }

def execLdd (c : CoreId) (t : Stream) (w : Word128) (s : State) : Out :=
  let a := s.sreg c t (fA w) + sextImm w
  let fault := lineStop s c .read a none
  s.issue c t w (lddReq s c t w)
    fun s =>
      match fault with
      | some st => .error (st, s)
      | none =>
        match scalarRead s c a.toNat with
        | .error e => .error e
        | .ok (l0, s) =>
          match lineStop s c .read (a + 64) none with
          | some st => .error (st, s)
          | none =>
            match scalarRead s c (a.toNat + 64) with
            | .error e => .error e
            | .ok (l1, s) => s.bind c t (fDst w) (parseDesc (l0 ++ l1))

/-- What the issue stage asks of Movd. -/
def movdReq (_ : State) (_ : CoreId) (_ : Stream) (w : Word128) : IssueReq :=
  { form := ⟨0x31, 0, mDst + mA⟩, needs := [needA w, { operand := 0, reg := fDst w, write := true }] }

def execMovd (c : CoreId) (t : Stream) (w : Word128) (s : State) : Out :=
  let x := (s.core c).ctx t
  s.issue c t w (movdReq s c t w)
    fun s =>
      match x.dreg (fA w) with
      | some d => .ok (s.modCtx c t fun y => y.setDreg (fDst w) d)
      | none => .ok s

/-- The base after a move by k lines, none where R105 refuses it. -/
def movedBase (base : Nat) (k : Word) : Option Nat :=
  let m := 64 * k.toInt
  let b := (base : Int) + m
  if fits64 m && fits64 b && decide (0 ≤ b ∧ b < 2 ^ 48) then some b.toNat else none

/-- What the issue stage asks of Dbase. -/
def dbaseReq (_ : State) (_ : CoreId) (_ : Stream) (w : Word128) : IssueReq :=
  { form := ⟨0x32, 0, mDst + mA + mB⟩, needs := [needA w, { operand := 0, reg := fDst w, write := true }] }

/-- DBASE. A base moved below zero or beyond 2^48 fails check 8 before any other, in a remote-flag descriptor too, of which R106 names only
checks 1, 2 and 13 to 16 (DESIGN CHOICE: log entry 10). -/
def execDbase (c : CoreId) (t : Stream) (w : Word128) (s : State) : Out :=
  let x := (s.core c).ctx t
  s.issue c t w (dbaseReq s c t w)
    fun s =>
      match x.dreg (fA w) with
      | none => .ok s
      | some d =>
        match movedBase d.base (x.sreg (fB w)) with
        | none => .error (rangeStop (fDst w) 8 d.base, s)
        | some b => s.bind c t (fDst w) { d with base := b }

/-- What the issue stage asks of Dsize. -/
def dsizeReq (_ : State) (_ : CoreId) (_ : Stream) (w : Word128) : IssueReq :=
  let k := fBits w 32 3
  { form := ⟨0x33, 0, mDst + mA + mB + mField 32 3⟩
    reserved := if 6 ≤ k then [32] else []
    needs := [needA w, { operand := 0, reg := fDst w, write := true }] }

def execDsize (c : CoreId) (t : Stream) (w : Word128) (s : State) : Out :=
  let x := (s.core c).ctx t
  let k := fBits w 32 3
  s.issue c t w (dsizeReq s c t w)
    fun s =>
      match x.dreg (fA w) with
      | none => .ok s
      | some d => s.bind c t (fDst w) { d with size := d.size.set k ((x.sreg (fB w)).toNat % 2 ^ 32) }

/-- What the issue stage asks of Dclr. -/
def dclrReq (_ : State) (_ : CoreId) (_ : Stream) (w : Word128) : IssueReq :=
  { form := ⟨0x34, 0, mDst⟩, needs := [{ operand := 0, reg := fDst w, write := true }] }

def execDclr (c : CoreId) (t : Stream) (w : Word128) (s : State) : Out :=
  s.issue c t w (dclrReq s c t w)
    fun s => .ok (s.modCtx c t fun x => { x with dregs := terase x.dregs (fDst w) })

end Sys2Proof.Machine
end

