-- ==== Sys2Proof/Machine/ImageCheck.lean ====
section
/-! DEFINITION. The Cribel image as it lies in memory and the six stages of its checks (R63, R103, R106, R117, R134, R167 to R169,
R191, R205, R207, R215, R226, R228, R231, R267 to R270, R277, R281 to R292). Sections without a byte layout are judged on what their
bytes stand for; the line at which one fails is a free value. -/

namespace Sys2Proof.Machine

/-! ### Reading -/

def imageMaster : Nat := 2130

/-- Byte k of an image given as lines. -/
def imgByte (l : List (List Byte)) (k : Nat) : Byte := (l.getD (k / 64) zeroLine).getD (k % 64) 0
def imgBytes (l : List (List Byte)) (k n : Nat) : List Byte := (List.range n).map fun i => imgByte l (k + i)
def imgNat (l : List (List Byte)) (k n : Nat) : Nat := leNat (imgBytes l k n)

/-- Reads the staged lines from an address until one is uncorrectable: the lines read, and whether all were. -/
def readImage : State → Nat → Nat → State × List (List Byte) × Bool
  | s, _, 0 => (s, [], true)
  | s, a, n + 1 =>
    match s.readLine a imageMaster with
    | (none, s) => (s.raiseUe a imageMaster, [], false)
    | (some d, s) =>
      let x := readImage s (a + 64) n
      (x.1, d :: x.2.1, x.2.2)

/-! ### Sections (R281, R282) -/

/-- A section: its place in the image (1 for the first), type, instance, first line, body length in bytes, lines. -/
structure Sect where
  index : Nat
  type : Nat
  inst : Nat
  start : Nat
  len : Nat
  lines : Nat
  deriving DecidableEq, Repr

/-- The next sections from a line on, as far as the image of a number of lines reaches. -/
def sections (l : List (List Byte)) (total : Nat) : Nat → Nat → Nat → List Sect
  | 0, _, _ => []
  | n + 1, i, p =>
    if total ≤ p then []
    else
      let len := imgNat l (64 * p + 8) 8
      let k := (16 + len + 63) / 64
      { index := i, type := imgNat l (64 * p) 2, inst := imgNat l (64 * p + 2) 2, start := p, len := len, lines := k } ::
        sections l total n (i + 1) (p + k)

/-- Bytes of a section's body. -/
def Sect.bytes (x : Sect) (l : List (List Byte)) (off n : Nat) : List Byte := imgBytes l (64 * x.start + 16 + off) n
def Sect.nat (x : Sect) (l : List (List Byte)) (off n : Nat) : Nat := leNat (x.bytes l off n)
/-- Line of the section that holds a byte of its body. -/
def bodyLine (off : Nat) : Nat := (16 + off) / 64

def sectOf (ss : List Sect) (type : Nat) : Option Sect := ss.find? fun x => x.type == type

/-! ### Failures (Tables 13-6, 13-7) -/

structure ImgErr where
  status : Status
  cause : Nat
  section_ : Nat := 0
  line : Nat := 0
  deriving DecidableEq, Repr

/-- IMAGE_LAST_ERROR, which is also the detail record of the response. -/
def ImgErr.word (e : ImgErr) : Word :=
  BitVec.ofNat 64 ((Config.statusCode e.status).toNat * 2 ^ 48 + e.cause * 2 ^ 40 + e.section_ % 2048 * 2 ^ 29 + e.line % 2 ^ 29)

def invalid (cause : Nat) (section_ line : Nat := 0) : ImgErr := { status := .imageInvalid, cause := cause, section_ := section_, line := line }

def firstErr : List (Option ImgErr) → Option ImgErr
  | [] => none
  | some e :: _ => some e
  | none :: r => firstErr r

def errIf (bad : Bool) (e : ImgErr) : Option ImgErr := if bad then some e else none

/-- The section and line of a line that cannot be read. -/
def applyErr (ss : List Sect) (line : Nat) : ImgErr :=
  match ss.find? fun x => decide (x.start ≤ line ∧ line < x.start + x.lines) with
  | some x => invalid 0x0C x.index (line - x.start)
  | none => invalid 0x0C 0 line

/-! ### Stage 1 -/

def hbmEnd : Nat := 0x018000000000

def headerErr (staging : Nat) (l : List (List Byte)) : Option ImgErr :=
  let length := imgNat l 8 8
  let n := imgNat l 6 2
  firstErr
    [errIf (imgNat l 0 4 != 0x4C425243 || imgNat l 4 2 != 1 || decide (n < 2) || decide (1024 < n) || length % 64 != 0 ||
        decide (length < 64) || decide (2 ^ 34 < length)) (invalid 0x01),
     errIf (decide (1 < imgNat l 16 1)) (invalid 0x02),
     errIf ((imgBytes l 17 15).any (· != 0) || (imgBytes l 48 16).any (· != 0)) (invalid 0x08),
     errIf (decide (hbmEnd < staging + length)) (invalid 0x03)]

/-! ### Stage 2 (R288, R289) -/

/-- SHA-384 over the header and every section but SIGNATURE. -/
def imageDigest (l : List (List Byte)) (ss : List Sect) : List Byte :=
  sha384 (imgBytes l 0 64 ++ (ss.filter fun x => x.type != 0xFF).flatMap fun x => imgBytes l (64 * x.start) (64 * x.lines))

def signatureErr (s : State) (l : List (List Byte)) (ss : List Sect) : Option ImgErr :=
  match sectOf ss 0xFF with
  | none => errIf (s.sec.policy.getLsbD 0) { status := .signature, cause := 0x20 }
  | some x =>
    match tfind s.sec.keys (x.nat l 96 1) with
    | none => some { status := .signature, cause := 0x22, section_ := x.index, line := bodyLine 96 }
    | some k =>
      errIf (!ecdsaOk k (imageDigest l ss) (x.nat l 0 48) (x.nat l 48 48))
        { status := .signature, cause := 0x21, section_ := x.index }

/-! ### Stage 3 -/

def knownType (t : Nat) : Bool := decide (1 ≤ t ∧ t ≤ 0x10) || t == 0xFF

/-- Bytes that a body must have for its fields; a SIGNATURE body has no others (R289). -/
def minBody (t : Nat) : Nat := if t = 0x01 then 272 else if t = 0x0F then 64 else if t = 0x10 then 64 else if t = 0xFF then 128 else 0

def sectErr (l : List (List Byte)) (total : Nat) (prev : Option Sect) (x : Sect) : Option ImgErr :=
  let disorder := match prev with
    | none => false
    | some p => decide (x.type < p.type) || p.type == 0xFF ||
        (x.type == p.type && (!(x.type == 0x08 || x.type == 0x10) || decide (x.inst ≤ p.inst)))
  let pad := (List.range (64 * x.lines - 16 - x.len)).find? fun i => imgByte l (64 * x.start + 16 + x.len + i) != 0
  firstErr
    [errIf (!knownType x.type) (invalid 0x04 x.index),
     errIf disorder (invalid 0x05 x.index),
     errIf ((imgBytes l (64 * x.start + 4) 4).any (· != 0) || (!(x.type == 0x08 || x.type == 0x10) && x.inst != 0) ||
        (x.type == 0x08 && decide (255 < x.inst))) (invalid 0x08 x.index),
     errIf (decide (total < x.start + x.lines) || decide (x.len < minBody x.type) ||
        (x.type == 0xFF && x.len != 128)) (invalid 0x06 x.index),
     match pad with | some i => some (invalid 0x06 x.index (bodyLine (x.len + i))) | none => none]

def structureErr (l : List (List Byte)) (total count : Nat) (ss : List Sect) : Option ImgErr :=
  firstErr
    ((ss.zipIdx.map fun x => sectErr l total (if x.2 = 0 then none else ss[x.2 - 1]?) x.1) ++
     [errIf (ss.length != count || (match ss.getLast? with | some x => x.start + x.lines != total | none => true)) (invalid 0x01),
      errIf ((sectOf ss 0x01).isNone || (sectOf ss 0x07).isNone) (invalid 0x07)])

/-! ### The bodies with a layout: COURSES and POLICY (Tables 13-4, 13-5) -/

structure CoursesSec where
  subset : Bool
  hold : Bool
  target : BitVec 64
  active : List W32
  deriving DecidableEq, Repr

def coursesSec (l : List (List Byte)) (ss : List Sect) : CoursesSec :=
  match sectOf ss 0x01 with
  | none => { subset := false, hold := false, target := 0, active := [] }
  | some x =>
    { subset := x.nat l 0 1 == 1, hold := x.nat l 1 1 == 1, target := BitVec.ofNat 64 (x.nat l 8 8),
      active := (List.range 64).map fun c => BitVec.ofNat 32 (x.nat l (16 + 4 * c) 4) }

/-- Logical core n is active in the image: its course is a target and its mask bit is set. -/
def CoursesSec.has (c : CoursesSec) (n : Nat) : Bool :=
  decide (n < 2048) && c.target.getLsbD (courseOf n) && (c.active.getD (courseOf n) 0).getLsbD (n % 32)

/-- The course has an active core. -/
def CoursesSec.busy (c : CoursesSec) (k : Nat) : Bool := c.target.getLsbD k && c.active.getD k 0 != 0

structure PolicySec where
  cap : Nat := 0
  order : List Stream := [.B, .F, .U]
  wdog : Nat := 32
  halving : Nat := 64
  selfTest : Bool := true
  bound : Nat := 0
  deriving DecidableEq, Repr

def orderOf (v : Nat) : List Stream := [streamOf (bits v 0 2), streamOf (bits v 2 2), streamOf (bits v 4 2)]

def policySec (l : List (List Byte)) (ss : List Sect) : PolicySec :=
  match sectOf ss 0x0F with
  | none => {}
  | some x =>
    { cap := x.nat l 0 2, order := orderOf (x.nat l 2 1), wdog := x.nat l 3 1, halving := x.nat l 4 1, selfTest := x.nat l 5 1 == 1,
      bound := x.nat l 8 4 }

/-! ### The other bodies: an absent section takes its default (Table 13-3) -/

def bodiesPresent (b : ImageBodies) (ss : List Sect) : ImageBodies :=
  let has (t : Nat) : Bool := (sectOf ss t).isSome
  let d : ImageBodies := {}
  let b := if has 0x02 then b else { b with affinityGib := 0, allocs := [], overflowAlloc := [] }
  let b := if has 0x03 then b else { b with spadRoles := [], spadPower := [], ulPower := [], partitions := [] }
  let b := if has 0x04 then b else { b with routes := [] }
  let b := if has 0x05 then b else { b with sizes := d.sizes, coords := d.coords, axisMap := d.axisMap }
  let b := if has 0x06 then b else { b with coreRegions := [], valRegions := [], collRegions := [] }
  let b := if has 0x09 then b else { b with descs := [], binds := [] }
  let b := if has 0x0A then b else { b with flags := [], barriers := [], stepBarrier := 0, queues := [] }
  let b := if has 0x0B then b else { b with layers := [], groups := [], experts := [] }
  let b := if has 0x0C then b else { b with collGroups := [], collSlopes := [], collTables := [] }
  let b := if has 0x0D then b
    else { b with params := [], shards := [], domains := [], interval := 50, initStep := 0, keys := [] }
  if has 0x0E then b else { b with funcs := [] }

/-- The bytes of the sections that have no layout of their own. -/
def bodyBytes (l : List (List Byte)) (ss : List Sect) : List Byte :=
  (ss.filter fun x => decide (0x02 ≤ x.type ∧ x.type ≤ 0x0E) && x.type != 0x08).flatMap fun x => imgBytes l (64 * x.start) (64 * x.lines)

/-! ### Stage 4: fields -/

def finite32 (w : W32) : Bool := bits w.toNat 23 8 != 255
/-- An FP32 value from 0 to a bound of positive sign. -/
def fromZero (w top : W32) : Bool := decide (w.toNat ≤ top.toNat) || w == 0x80000000
def belowOne (w : W32) : Bool := fromZero w 0x3F7FFFFF
def upToOne (w : W32) : Bool := fromZero w 0x3F800000
def fmtKnown (f : BitVec 8) : Bool := (Fmt.ofCode f).isSome

def distinct {α : Type} [DecidableEq α] (l : List α) : Bool := decide (l.dedup.length = l.length)

/-- No key of a table is assigned twice. -/
def once {α : Type} (t : Tab α) : Bool := distinct (t.map (·.1))

/-- A table of packed fields: keys below a bound. -/
def keysBelow {α : Type} (t : Tab α) (n : Nat) : Bool := t.all fun x => decide (x.1 < n)

def allocUnitOk (a : Alloc) : Bool :=
  a.loc.isSome || a.lines == 0 ||
    (match memUnit a.base, memUnit (a.base + 64 * a.lines - 64) with | some x, some y => x == y | _, _ => false)

def rolesOk (r : List Nat) : Bool :=
  decide ((r.filter (· == 1)).length ≤ 8) && decide (((r.take 30).filter (· == 2)).length ≤ 2) &&
    (r.drop 30).all (· == 0)

def layerOk (b : ImageBodies) (x : Layer) : Bool :=
  let es := (List.range x.experts).map fun e => expertAt b (x.expertBase + e)
  finite32 x.theta && decide (1 ≤ x.cap ∧ x.cap ≤ 16) && decide (1 ≤ x.experts) && decide (x.expertBase + x.experts ≤ 16384) &&
    decide (1 ≤ x.ring ∧ x.ring ≤ 16) && fmtKnown x.rowFormat && fmtKnown x.returnFormat && decide (x.collector < 64) &&
    decide (x.publishFlag < 480) && decide (x.returnsFlag < 480) && decide (x.group < 16) &&
    es.all (fun e => match e with | some y => y.valid | none => false) &&
    distinct (es.filterMap fun e => e.map fun y => (y.module, y.course, y.slot))

/-- The 64 bytes of a sequencer table entry (Table 12-7). -/
def entryOk (l : List Byte) : Bool :=
  let e := CollEntry.ofBytes l
  l.length == 64 && e.reservedClear && decide (e.op ≤ 7) && decide (e.group < 32) && decide (e.triggerCore < 2048) &&
    decide (e.triggerFlag < 480) && decide (e.deliver ≤ 1) && (decide (5 ≤ e.op) || decide (1 ≤ e.chunk ∧ e.chunk ≤ 1024)) &&
    (decide (5 ≤ e.op) || fmtKnown e.outFormat) && decide (e.doneCore < 2048) && decide (e.doneFlag < 480) &&
    (e.op != 7 || (decide (1 ≤ e.borrowAxis ∧ e.borrowAxis ≤ 4) && decide (1 ≤ e.lendAxis ∧ e.lendAxis ≤ 4) &&
      e.lendVcs &&& 0xC6 == 0 && decide (e.endCore < 2048) && decide (e.endFlag < 480)))

def paramOk (p : ParamGroup) : Bool :=
  decide (p.rule ≤ 4) && fromZero p.lrBase 0x7F7FFFFF && upToOne p.decay && belowOne p.betaStart && belowOne p.beta1 && belowOne p.beta2 &&
    finite32 p.eps && (!(p.rule == 1 || p.rule == 3) || (p.eps != 0 && decide (p.eps.toNat < 0x80000000))) && finite32 p.gradScale &&
    decide (p.halving ≤ 64) && decide (p.sched.decayShape ≤ 4) && upToOne p.sched.lrMin &&
    upToOne p.sched.gamma && decide (1 ≤ p.sched.cycleMul ∧ p.sched.cycleMul ≤ 15) && decide (1 ≤ p.refresh ∧ p.refresh ≤ 65535) &&
    decide (1 ≤ p.iterLimit ∧ p.iterLimit ≤ 31) && finite32 p.tol && finite32 p.damp && finite32 p.betaStat

/-- The 17 lines of a loaded table (R191, Table 09-3): a field that is zero outside its mode is in range only as zero. -/
def funcOk (l : List Byte) : Bool :=
  let h := loadedHead l
  l.length == 1088 && decide (h.mode ≤ 2) && decide (h.sym ≤ 2) && (bytesAt l 24 40).all (· == 0) &&
    (if h.mode = 0 then decide (-24 ≤ h.s ∧ h.s ≤ 24) else h.s == 0) &&
    (if h.mode = 2 then h.k != 0 && decide (-4 ≤ h.k ∧ h.k ≤ 4) && h.base == 0 else h.k == 0 && h.sym == 0) &&
    [h.base, h.tl0, h.tl1, h.th0, h.th1].all finite32 &&
    (List.range 64).all fun i =>
      let c := loadedSeg l i
      finite32 c.1 && finite32 c.2.1 && finite32 c.2.2.1 && finite32 c.2.2.2

/-- The save formats a group may name, and the compute format of each of its tensors (R189). Which format the computed one is, the manual
does not say of a group: the model takes that of its tensors' compute copies (DEDUCED: log entry 60). -/
def saveFormatOk (b : ImageBodies) (k : Nat) (p : ParamGroup) : Bool :=
  decide (6 ≤ p.saveFormat.toNat ∧ p.saveFormat.toNat ≤ 9) ||
    (let l := b.shards.filter fun t => !t.frozen && t.group == k
     !l.isEmpty && l.all fun t => t.fmt == p.saveFormat)

def shardOk (x : Shard) : Bool :=
  decide (2 ≤ x.ringLog2 ∧ x.ringLog2 ≤ 10 ∧ x.arrivalFlag < 480 ∧ x.core < 2048 ∧ 1 ≤ x.slotLines) && x.ringBase % 64 == 0

/-- Sections without a layout: type, cause, and whether the check of its fields fails. -/
def fieldChecks (b : ImageBodies) : List (Nat × Nat × Bool) :=
  let d4 (t : Nat) (ok : Bool) : Nat × Nat × Bool := (t, 0x08, !ok)
  [d4 0x02 (b.affinityGib % 3 == 0 && decide (b.affinityGib ≤ 384)),
   d4 0x02 (b.allocs.all fun x => decide (1 ≤ x.1 ∧ x.1 ≤ 4095) && x.2.base % 64 == 0 && allocUnitOk x.2 && decide (x.2.digestBase < 2 ^ 40) &&
      (match x.2.domain with | some k => decide (k < 4) | none => true)),
   d4 0x02 (keysBelow b.overflowAlloc 64),
   d4 0x03 (keysBelow b.spadRoles 2048 && (b.spadRoles.all fun x => x.2.all fun r => decide (r ≤ 2)) && keysBelow b.spadPower 2048 && b.spadPower.all fun x => x.2.all fun v => decide (v ≤ 2)),
   (0x03, 0x0A, !(b.spadRoles.all fun x => rolesOk x.2)),
   d4 0x03 (keysBelow b.ulPower 64 && b.ulPower.all fun x => x.2.all fun v => decide (v ≤ 2)),
   (0x03, 0x0A, !(b.partitions.all fun x => decide (x.2.sum ≤ 64))),
   d4 0x04 (keysBelow b.routes 4),
   d4 0x05 (b.sizes.all (fun n => decide (1 ≤ n ∧ n ≤ 64)) && (b.coords.zip b.sizes).all (fun x => decide (x.1 < x.2)) &&
      b.sizes.length == 4 && b.coords.length == 4),
   d4 0x05 (b.axisMap.length == 4 && b.axisMap.all (fun p => decide (p < 4)) && distinct b.axisMap),
   d4 0x06 (([b.coreRegions, b.valRegions, b.collRegions].all fun t => t.all fun x => keysBelow x.2 16 && x.2.all fun r => !regionBreaks r.2) &&
      keysBelow b.coreRegions 2048 && keysBelow b.valRegions 64 && keysBelow b.collRegions 4),
   d4 0x07 (keysBelow b.regions 256 && b.regions.all fun x => x.2.base % 64 == 0 && decide (x.2.base + 64 * x.2.lines ≤ hbmEnd) &&
      decide (x.2.lines ≤ 2 ^ 26)),
   (0x07, 0x09, !(b.entries.all fun e => match tfind b.regions e.2.2.1 with | some r => decide (e.2.2.2 < 4 * r.lines) | none => false)),
   d4 0x09 (keysBelow b.descs 65536 && b.binds.all fun x => decide (1 ≤ x.2.2.1 ∧ x.2.2.1 < 64)),
   d4 0x0A (b.flags.all fun x => keysBelow x.2 480),
   d4 0x0A (b.barriers.all fun x =>
      decide (x.level ≤ 2 ∧ x.index < [64, 32, 16].getD x.level 0 ∧ x.course < 64) && x.parts.all (fun p => decide (p.1 < 2048) &&
        (x.level != 0 || courseOf p.1 == x.course))),
   d4 0x0A (decide (b.stepBarrier < 64)),
   d4 0x0A (b.queues.all fun q => q.base % 64 == 0 && decide (4 ≤ q.log2 ∧ q.log2 ≤ 12 ∧ q.release < 480 ∧ q.chan < 4 ∧ q.core < 2048)),
   d4 0x0B (keysBelow b.layers 256 && keysBelow b.groups 16 && keysBelow b.experts 16384 && b.groups.all (fun g => decide (g.2.length ≤ 32768)) &&
      b.experts.all fun e => e.2.length == 16 && (Expert.ofBytes e.2).reservedClear),
   d4 0x0B (b.layers.all fun x => layerOk b x.2),
   d4 0x0C (keysBelow b.collGroups 32 && b.collSlopes.all (fun x => decide (x.1 < 32 ∧ x.2 < 4)) &&
      b.collGroups.all (fun g => decide (g.2.length ≤ 4096)) && keysBelow b.collTables 4 &&
      b.collTables.all fun t => decide (t.2.length ≤ 64) && t.2.all entryOk),
   (0x0C, 0x0A, !(b.collGroups.all fun g => distinct g.2)),
   d4 0x0D (keysBelow b.params 64 && b.params.all fun p => paramOk p.2),
   d4 0x0D (keysBelow b.domains 4 && b.domains.all (fun d => decide (d.2.length ≤ 64)) && decide (b.interval ≤ 1000) && keysBelow b.keys 8),
   d4 0x0D (b.params.all fun p => saveFormatOk b p.1 p.2),
   d4 0x0D (b.shards.all fun t => decide (t.group < 64) && copyFormat t.fmt && t.shards.all shardOk),
   d4 0x0E (b.funcs.all fun f => decide (8 ≤ f.1 ∧ f.1 ≤ 15) && funcOk f.2.1 && funcOk f.2.2)]

/-- A failing check of a section without a layout, at the line its bytes put it. -/
def bodyErr (ss : List Sect) (c : Nat × Nat × Bool) : Option ImgErr :=
  if c.2.2 then
    match sectOf ss c.1 with
    | some x => some (invalid c.2.1 x.index (Config.imageFaultLine c.1 c.2.1).toNat)
    | none => some (invalid c.2.1)
  else none

def bodyErrs (ss : List Sect) (cs : List (Nat × Nat × Bool)) (lo hi : Nat) : List (Option ImgErr) :=
  (cs.filter fun c => decide (lo ≤ c.1 ∧ c.1 < hi)).map (bodyErr ss)

def nonzero (l : List Byte) : Bool := l.any (· != 0)

def coursesErr (l : List (List Byte)) (x : Sect) : Option ImgErr :=
  errIf (decide (1 < x.nat l 0 1) || decide (1 < x.nat l 1 1) || nonzero (x.bytes l 2 6)) (invalid 0x08 x.index (bodyLine 0))

def policyErr (s : State) (l : List (List Byte)) (x : Sect) : Option ImgErr :=
  let cap := x.nat l 0 2
  let o := x.nat l 2 1
  firstErr
    [errIf ((cap != 0 && (decide (cap < 1200) || decide (2500 < cap))) || decide (64 ≤ o) || bits o 0 2 == 3 || bits o 2 2 == 3 ||
        bits o 4 2 == 3 || !distinct (orderOf o) || decide (x.nat l 3 1 < 16) || decide (40 < x.nat l 3 1) || decide (64 < x.nat l 4 1) ||
        decide (1 < x.nat l 5 1) || nonzero (x.bytes l 6 2) || decide (10000 < x.nat l 8 4) || nonzero (x.bytes l 12 36))
      (invalid 0x08 x.index 0),
     errIf (nonzero (x.bytes l 48 16)) (invalid 0x08 x.index 1),
     errIf (decide (s.power.ownerW.toNat < cap)) (invalid 0x0B x.index 0)]

def dataFieldErr (l : List (List Byte)) (x : Sect) : Option ImgErr :=
  firstErr
    [errIf (nonzero (x.bytes l 2 6) || nonzero (x.bytes l 16 32)) (invalid 0x08 x.index 0),
     errIf (nonzero (x.bytes l 48 16)) (invalid 0x08 x.index 1),
     errIf (x.len % 64 != 0) (invalid 0x08 x.index 0)]

def ofType (ss : List Sect) (t : Nat) (f : Sect → Option ImgErr) : List (Option ImgErr) := (ss.filter fun x => x.type == t).map f

def fieldsErr (s : State) (l : List (List Byte)) (ss : List Sect) (b : ImageBodies) : Option ImgErr :=
  let cs := fieldChecks b
  firstErr
    (ofType ss 0x01 (coursesErr l) ++ bodyErrs ss cs 0x02 0x08 ++ ofType ss 0x08 (fun x => errIf (x.len % 16 != 0) (invalid 0x08 x.index)) ++
      bodyErrs ss cs 0x09 0x0F ++ ofType ss 0x0F (policyErr s l) ++ ofType ss 0x10 (dataFieldErr l) ++
      ofType ss 0xFF fun x => errIf (nonzero (x.bytes l 97 31)) (invalid 0x08 x.index (bodyLine 97)))

/-! ### Stage 5: references -/

/-- The state in which the image's descriptors and references are judged. No stream stands anywhere in it, so no code region counts
as live for check 12 of a pre-created descriptor: the manual does not say which do at LOAD_IMAGE (DESIGN CHOICE: log entry 45). -/
def State.judge (s : State) (b : ImageBodies) : State :=
  { s with image := { s.image with bodies := b, loaded := true }, cores := [], hbmAffinity := b.affinityGib
           fabric := { s.fabric with sizes := b.sizes, axisMap := b.axisMap,
                                     coord := BitVec.ofNat 24 (packCodes 6 b.coords) } }

def overlap (a n b m : Nat) : Bool := decide (a < b + m ∧ b < a + n)

def disjointRuns : List (Nat × Nat) → Bool
  | [] => true
  | a :: r => r.all (fun b => !overlap a.1 a.2 b.1 b.2) && disjointRuns r

def localAllocs (b : ImageBodies) : List Alloc := (b.allocs.map (·.2)).filter fun a => a.loc.isNone
def allocHas (b : ImageBodies) (h : Nat) : Bool := match tfind b.allocs h with | some a => a.loc.isNone | none => false

/-- The banks of an address range, by their place in an underlay or scratchpad, meet a condition. -/
def bankClash (b : ImageBodies) (base n : Nat) : Bool :=
  match memUnit base with
  | some (.sp c) =>
    (List.range 32).any fun i => overlap base n (spadBase c + 32768 * i) 32768 &&
      ((tget b.spadRoles c []).getD i 0 == 1 || (tget b.spadPower c []).getD i 0 == 2)
  | some (.ul c) =>
    let p := tget b.partitions c []
    (List.range 64).any fun i => overlap base n (ulBase c + 524288 * i) 524288 &&
      (decide (64 - p.sum ≤ i) || (tget b.ulPower c []).getD i 0 == 2)
  | _ => false

/-- A queue in a bank that is off. -/
def queueClash (b : ImageBodies) (q : CqDecl) : Bool :=
  match memUnit q.base with
  | some (.sp c) => (List.range 32).any fun i => overlap q.base (64 * 2 ^ q.log2) (spadBase c + 32768 * i) 32768 &&
      (tget b.spadPower c []).getD i 0 == 2
  | some (.ul c) => (List.range 64).any fun i => overlap q.base (64 * 2 ^ q.log2) (ulBase c + 524288 * i) 524288 &&
      (tget b.ulPower c []).getD i 0 == 2
  | _ => false

/-- Every line of a queue lies within write regions of its core. -/
def queueOk (b : ImageBodies) (q : CqDecl) : Bool :=
  (List.range (2 ^ q.log2)).all fun i => (tget b.coreRegions q.core []).any fun r => regionGrants r.2 .write (q.base / 64 + i)

def stageBanks (b : ImageBodies) (sl : Nat) : Nat :=
  (List.range 16).foldl (fun a i => a + (tget b.partitions (16 * sl + i) []).getD 2 0) 0

/-- The bytes of an allocation as the load leaves them: lines of DATA sections, and what memory holds elsewhere. -/
def loadedBytes (t : State) (l : List (List Byte)) (ss : List Sect) (b : ImageBodies) (h : Nat) : List Byte :=
  match tfind b.allocs h with
  | none => []
  | some a =>
    let data := ss.reverse.filter fun x => x.type == 0x10 && x.nat l 0 2 == h
    (List.range a.lines).flatMap fun i =>
      match data.find? fun x => decide (x.nat l 8 8 ≤ i ∧ i < x.nat l 8 8 + (x.len - 64) / 64) with
      | some x => x.bytes l (64 * (i - x.nat l 8 8) + 64) 64
      | none => t.rawLine (a.base + 64 * i)

/-- Banks of a course's Valley-buffer partition, from bank 63 downward (R285). -/
def valBanks (b : ImageBodies) (c : Nat) : Nat := (tget b.partitions c []).getD 0 0

/-- Lines from an address on lie in the Valley-buffer partition of a course. -/
def inValBanks (b : ImageBodies) (c a lines : Nat) : Bool :=
  decide (ulBase c + 524288 * (64 - valBanks b c) ≤ a ∧ a + 64 * lines ≤ ulBase c + 524288 * 64)

/-- Lines from an address on lie in the overflow region of a course. -/
def inOverflow (b : ImageBodies) (c a lines : Nat) : Bool :=
  match (tfind b.overflowAlloc c).bind fun h => tfind b.allocs h with
  | some x => decide (x.base ≤ a ∧ a + 64 * lines ≤ x.base + 64 * x.lines)
  | none => false

/-- This module is a member of a dispatch group: it holds a sender of the group, or an expert of one of its layers (R168). -/
def isMember (b : ImageBodies) (me : ModAddr) (group : Nat) : Bool :=
  ((tget b.groups group []).any fun p => p.1 == me) ||
    b.layers.any fun x => x.2.group == group && (List.range x.2.experts).any fun e =>
      match expertAt b (x.2.expertBase + e) with | some y => y.module == me | none => false

/-- The places of a layer on this module lie where R167 puts them, and its collector course hosts its Valley buffers where this module is a
member of its group (R168; which course's banks those are, DEDUCED: log entry 22). -/
def placesOk (t : State) (l : List (List Byte)) (ss : List Sect) (b : ImageBodies) (x : Layer) : Bool :=
  let me := t.fabric.coord
  let bytes := loadedBytes t l ss b x.placement
  let es := ((List.range x.experts).filterMap fun e => expertAt b (x.expertBase + e)).filter fun y => y.valid && y.module == me
  let senders := ((tget b.groups x.group []).filter fun p => p.1 == me).map (·.2)
  let n := rowExtent x.rowFormat x.rowWidth
  let m := rowExtent x.returnFormat x.rowWidth
  let at_ (kind : Nat) (back : Bool) (c slot set_ i : Nat) : Nat := Config.placement bytes kind back c slot set_ i / 64 * 64
  let each (f : Bool → Nat → Bool) : Bool := [false, true].all fun back => (List.range x.ring).all fun k => f back k
  (es.all fun y => each fun back k =>
    ((List.range y.capacity).all fun i => inValBanks b y.course (at_ 0 back y.course y.slot k i) n) &&
      ((List.range y.overflow).all fun i => inOverflow b y.course (at_ 1 back y.course y.slot k i) n) &&
      inValBanks b y.course (at_ 3 back y.course 0 k (y.slot / 8)) 1) &&
    (senders.all fun p => each fun back k =>
      (List.range (Config.returnTokens bytes)).all fun i => (List.range 16).all fun q =>
        inValBanks b (courseOf p) (at_ 4 back (courseOf p) (p % 32) k (16 * i + q)) m) &&
    (!isMember b me x.group || decide (1 ≤ valBanks b x.collector))

/-- The owners of a tensor's update groups (R205): each group has exactly one, a frozen tensor none. -/
def ownersOk (t : TensorShards) : Bool :=
  let l := t.shards.filter fun x => x.groups != 0
  let n := t.rows * groupsPerRow t.width
  if t.frozen then l.isEmpty
  else
    (disjointRuns (l.map fun x => (x.firstGroup, x.groups))) && l.all (fun x => decide (x.firstGroup + x.groups ≤ n)) &&
      (l.map (·.groups)).sum == n

/-- A landing ring lies in the scratchpad of its owner core or the underlay of its course (R206). -/
def ringOk (x : Shard) : Bool :=
  let last := x.ringBase + 64 * (x.slotLines * 2 ^ x.ringLog2) - 64
  let home (a : Nat) : Bool := memUnit a == some (.sp x.core) || memUnit a == some (.ul (courseOf x.core))
  home x.ringBase && memUnit last == memUnit x.ringBase

/-- A permute entry passes the checks of R277 that one module can make. -/
def permOk (t : State) (l : List (List Byte)) (ss : List Sect) (b : ImageBodies) (e : CollEntry) : Bool :=
  let bytes := loadedBytes t l ss b e.lengths
  stagingOk t (permEntries bytes.length bytes).1

def refChecks (s : State) (l : List (List Byte)) (ss : List Sect) (co : CoursesSec) (b : ImageBodies) : List (Nat × Nat × Bool) :=
  let t := s.judge b
  let me := t.fabric.coord
  let undeclared (k : Nat) (ok : Bool) : Nat × Nat × Bool := (k, 0x09, !ok)
  let conflict (k : Nat) (ok : Bool) : Nat × Nat × Bool := (k, 0x0A, !ok)
  let tables := b.collTables.map fun x => (x.1, x.2.map CollEntry.ofBytes)
  let entries := (tables.map (·.2)).flatten
  let experts := b.experts.map fun e => Expert.ofBytes e.2
  [conflict 0x02 (once b.allocs && once b.overflowAlloc),
   undeclared 0x02 (b.overflowAlloc.all fun x => allocHas b x.2),
   undeclared 0x02 (b.allocs.all fun x => match x.2.domain with | some d => (tfind b.domains d).isSome | none => true),
   conflict 0x02 ((localAllocs b).all fun a => !bankClash b a.base (64 * a.lines)),
   conflict 0x03 (once b.spadRoles && once b.spadPower && once b.ulPower && once b.partitions),
   conflict 0x03 (experts.all fun e => !e.valid || e.module != me || e.overflow == 0 ||
      decide (1 ≤ (tget b.partitions e.course []).getD 1 0)),
   conflict 0x03 (b.spadRoles.all fun x => (List.range 32).all fun i => x.2.getD i 0 != 1 || (tget b.spadPower x.1 []).getD i 0 != 2),
   conflict 0x04 (once b.routes),
   conflict 0x05 (s.fabric.open_ == 0 || (t.fabric.coord == s.fabric.coord && b.axisMap == s.fabric.axisMap)),
   conflict 0x06 ([b.coreRegions, b.valRegions, b.collRegions].all fun t => once t && t.all fun x => once x.2),
   conflict 0x06 (b.coreRegions.all fun x => x.2.isEmpty || co.has x.1),
   conflict 0x07 (once b.regions),
   conflict 0x07 (b.entries.all fun e => co.has e.1),
   conflict 0x07 (distinct (b.entries.map fun e => (e.1, e.2.1)) && disjointRuns (b.regions.map fun r => (r.2.base, 64 * r.2.lines))),
   conflict 0x09 (once b.descs),
   undeclared 0x09 (b.descs.all fun d => d.2.fmt == 0xF0 || (tfind b.allocs d.2.alloc).isSome),
   (0x09, 0x08, !(b.descs.all fun d => (t.validate 1 d.2).isNone)),
   undeclared 0x09 (b.binds.all fun x => (tfind b.descs x.2.2.2).isSome),
   conflict 0x09 ((b.binds.all fun x => co.has x.1) && distinct (b.binds.map fun x => (x.1, x.2.1, x.2.2.1))),
   conflict 0x0A (once b.flags && b.flags.all fun x => once x.2),
   conflict 0x0A ((b.queues.all fun q => co.has q.core) && distinct (b.queues.map fun q => (q.core, q.chan)) &&
      b.queues.all fun q => queueOk b q && !queueClash b q),
   conflict 0x0A (distinct (b.barriers.map fun x => (x.level, x.index, if x.level = 0 then x.course else 0)) &&
      b.barriers.all fun x => distinct x.parts && distinct x.members && (x.level != 2 || (x.members.all t.inFabric && x.members.contains x.root))),
   undeclared 0x0A ((List.range 64).all fun c => !co.busy c ||
      b.barriers.any fun x => x.level == 0 && x.course == c && x.index == b.stepBarrier),
   conflict 0x0B (once b.layers && once b.groups && once b.experts),
   undeclared 0x0B (b.layers.all fun x => allocHas b x.2.placement && (tfind b.groups x.2.group).isSome),
   conflict 0x0B (b.layers.all fun x => (List.range x.2.experts).all fun e =>
      match expertAt b (x.2.expertBase + e) with | some y => t.inFabric y.module | none => false),
   conflict 0x0B (b.layers.all fun x => placesOk t l ss b x.2),
   conflict 0x0C (once b.collGroups && once b.collSlopes && once b.collTables),
   undeclared 0x0C (entries.all fun e => e.op == 7 || ((tfind b.collGroups e.group).isSome && (tfind b.collSlopes e.group).isSome)),
   conflict 0x0C (tables.all fun x => x.2.all fun e => e.op == 7 || tget b.collSlopes e.group 0 == x.1),
   undeclared 0x0C (entries.all fun e => decide (5 ≤ e.op) || ((tfind b.descs e.src).isSome && (tfind b.descs e.dst).isSome)),
   undeclared 0x0C (entries.all fun e => if e.op = 6 then allocHas b e.lengths else e.lengths == 0 || allocHas b e.lengths),
   conflict 0x0C (b.collGroups.all fun g => g.2.all t.inFabric),
   (0x0C, 0x08, !(entries.all fun e => e.op != 4 || decide (e.root < (tget b.collGroups e.group []).length))),
   conflict 0x0C (tables.all fun x => x.2.all fun e => decide (2 ≤ e.op) || decide (2 * e.chunk ≤ 8192 * stageBanks b x.1)),
   conflict 0x0C (entries.all fun e => e.op != 6 || permOk t l ss b e),
   conflict 0x0D (once b.params && once b.domains && once b.keys),
   undeclared 0x0D (b.shards.all fun x => (tfind b.allocs x.tensor).isSome && (x.frozen || (tfind b.params x.group).isSome)),
   conflict 0x0D (distinct (b.shards.map (·.tensor)) && b.shards.all ownersOk),
   conflict 0x0D (b.shards.all fun t => t.shards.all fun x => x.module != me || ringOk x),
   conflict 0x0D (b.domains.all fun d => distinct d.2 && d.2.all t.inFabric),
   conflict 0x0E (once b.funcs)]

def codeRefErr (b : ImageBodies) (x : Sect) : Option ImgErr :=
  match tfind b.regions x.inst with
  | none => some (invalid 0x09 x.index)
  | some r => errIf (decide (64 * r.lines < x.len)) (invalid 0x0A x.index)

def dataRefErr (l : List (List Byte)) (b : ImageBodies) (x : Sect) : Option ImgErr :=
  match tfind b.allocs (x.nat l 0 2) with
  | none => some (invalid 0x09 x.index)
  | some a =>
    errIf (a.loc.isSome || decide (a.lines < x.nat l 8 8 + (x.len - 64) / 64)) (invalid 0x08 x.index)

def refsErr (s : State) (staging : Nat) (l : List (List Byte)) (ss : List Sect) (co : CoursesSec) (b : ImageBodies) : Option ImgErr :=
  let cs := refChecks s l ss co b
  let n := 64 * l.length
  firstErr
    ([errIf (b.regions.any (fun r => overlap staging n r.2.base (64 * r.2.lines)) ||
        (localAllocs b).any fun a => overlap staging n a.base (64 * a.lines)) (invalid 0x03)] ++
      bodyErrs ss cs 0x02 0x08 ++ ofType ss 0x08 (codeRefErr b) ++ bodyErrs ss cs 0x09 0x0F ++ ofType ss 0x10 (dataRefErr l b))

/-! ### Stage 6: readiness (R292) -/

/-- Stack k serves a page of an HBM range. -/
def serves (A base n k : Nat) : Bool :=
  decide (0 < n) && (List.range (n / 4096 + 2)).any fun i =>
    let x := base / 4096 * 4096 + 4096 * i
    decide (x < base + n) && (hbmPlace A x).1 == k

/-- A range of HBM is served by ready stacks alone. -/
def stacksReady (s : State) (A base n : Nat) : Bool :=
  (List.range 12).all fun k => s.ready.hbm.getLsbD k || !serves A base n k

/-- The first of the entries that depend on a course left out, a target that is not ready: its section type. -/
def leftOut (me : ModAddr) (b : ImageBodies) (absent : BitVec 64) : Option Nat :=
  let out (c : Nat) : Bool := absent.getLsbD c
  let outCore (n : Nat) : Bool := out (courseOf n)
  if b.descs.any fun d => match d.2.rflag with | some f => f.module == me && outCore f.core | none => false then some 0x09
  else if b.barriers.any fun x => x.level != 0 && x.parts.any fun p => outCore p.1 then some 0x0A
  else if b.layers.any (fun x => out x.2.collector) || b.groups.any (fun g => g.2.any fun p => p.1 == me && outCore p.2) ||
      b.experts.any (fun e => let x := Expert.ofBytes e.2; x.valid && x.module == me && out x.course) then some 0x0B
  else if b.shards.any fun t => t.shards.any fun x => x.module == me && outCore x.core then some 0x0D
  else none

/-- The readiness check: what fails, or the courses to load. -/
def readyErr (s : State) (ss : List Sect) (co : CoursesSec) (b : ImageBodies) : ImgErr ⊕ BitVec 64 :=
  let place (t cause : Nat) : ImgErr :=
    match sectOf ss t with
    | some x => { status := .notReady, cause := cause, section_ := x.index, line := (Config.imageFaultLine t cause).toNat }
    | none => { status := .notReady, cause := cause }
  let A := b.affinityGib
  let inHbm := (localAllocs b).filter fun a => decide (a.base < hbmEnd)
  if !inHbm.all fun a => stacksReady s A a.base (64 * a.lines) then .inl (place 0x02 0x11)
  else if !b.regions.all fun r => stacksReady s A r.2.base (64 * r.2.lines) then .inl (place 0x07 0x11)
  else
    let loaded := co.target &&& s.ready.courses
    if !co.subset then
      match (List.range 64).find? fun c => co.target.getLsbD c && !s.ready.courses.getLsbD c with
      | some c =>
        .inl { status := .notReady, cause := 0x10, section_ := (match sectOf ss 0x01 with | some x => x.index | none => 0),
               line := bodyLine (16 + 4 * c) }
      | none => .inr loaded
    else
      match leftOut (s.judge b).fabric.coord b (co.target &&& ~~~s.ready.courses) with
      | some t => .inl (place t 0x10)
      | none => .inr loaded

/-! ### All stages -/

/-- What the checks of LOAD_IMAGE find: a failure, or the courses to load; and the image's size in lines. The sections without a
layout are given, or are what their bytes stand for. An image whose header fails is as long as the header says, within HBM, and at least its
header line. -/
def checkImage (s : State) (staging : Nat) (given : Option ImageBodies) : State × (ImgErr ⊕ BitVec 64) × Nat × ImageBodies :=
  if staging % 64 ≠ 0 ∨ hbmEnd < staging + 64 then (s, .inl (invalid 0x03), 1, {})
  else
    let h := readImage s staging 1
    match h.2 with
    | (_, false) => (h.1, .inl (invalid 0x0C), 1, {})
    | (hl, true) =>
      match headerErr staging hl with
      | some e => (h.1, .inl e, max 1 (min (imgNat hl 8 8 / 64) ((hbmEnd - staging) / 64)), {})
      | none =>
        let total := imgNat hl 8 8 / 64
        let count := imgNat hl 6 2
        let r := readImage s staging total
        let s := r.1
        let l := r.2.1
        let ss := sections l total count 1 1
        if !r.2.2 then (s, .inl (applyErr ss l.length), total, {})
        else
          let s := s.vote 3
          let b := bodiesPresent (given.getD (Config.imageBodies (bodyBytes l ss))) ss
          let co := coursesSec l ss
          let e := firstErr [signatureErr s l ss, structureErr l total count ss, fieldsErr s l ss b, refsErr s staging l ss co b]
          match e with
          | some e => (s, .inl e, total, b)
          | none => (s, readyErr s ss co b, total, b)

end Sys2Proof.Machine
end

