-- ==== Sys2Proof/Machine/Image.lean ====
section
/-! DEFINITION. Applying and unloading an image (R18, R47, R71, R117, R135, R180, R191, R199, R204, R215, R243, R287, R291 to R293, R354,
R387), and what a core or course gets from the image. -/

namespace Sys2Proof.Machine

/-! ### A core as the image gives it -/

/-- The context of a stream at job start (R18). -/
def startCtx (b : ImageBodies) (n : Nat) (t : Stream) : StreamCtx :=
  match b.entries.find? fun e => e.1 == n && e.2.1 == t with
  | none => {}
  | some e =>
    { hasEntry := true, pcRegion := BitVec.ofNat 8 e.2.2.1, pcIndex := BitVec.ofNat 32 e.2.2.2,
      dregs := (b.binds.filter fun x => x.1 == n && x.2.1 == t).foldl
        (fun d x => match tfind b.descs x.2.2.2 with | some y => tset d x.2.2.1 y | none => d) [] }

/-- Bit i for each bank i that has a role. -/
def roleBits (roles : List Nat) (role : Nat) : Nat :=
  (List.range 32).foldl (fun a i => if roles.getD i 0 = role then a + 2 ^ i else a) 0

/-- The channels that the image declares; the stall counts stand (R387). -/
def startChans (b : ImageBodies) (n : Nat) (old : Tab DmaChan) : Tab DmaChan :=
  (List.range 4).foldl
    (fun t ch =>
      let stall := (tget old ch {}).stall
      match b.queues.find? fun q => q.core == n && q.chan == ch with
      | some q => tset t ch { declared := true, cqBase := q.base, log2 := q.log2, release := q.release, stall := stall }
      | none => if stall = 0 then t else tset t ch { stall := stall }) []

/-- A core gets its configuration, streams, flags and queues; counters stand, all else is at its reset value. The clock of an inactive core
is gated (R284). -/
def startCore (i : Image) (n : Nat) (c : Core) : Core :=
  let b := i.bodies
  let active := i.courses.getLsbD (courseOf n) && (tget i.active (courseOf n) 0).getLsbD (n % 32)
  let roles := if active then tget b.spadRoles n [] else []
  { c with
    active := active, f := startCtx b n .F, b := startCtx b n .B, u := startCtx b n .U, order := i.issueOrder,
    flags := tget b.flags n [], halt := {}, codeEpoch := 0, leftAt := [], icache := [], wdogLog2 := i.wdogLog2,
    gated := !active, outSignals := [], arrives := [], late := [], rounds := [],
    da := { extBanks := BitVec.ofNat 30 (roleBits roles 1), halving := i.halving, freeze := c.da.freeze, metaDrop := c.da.metaDrop,
            zeroSkip := c.da.zeroSkip, rowsStreamed := c.da.rowsStreamed },
    gme := { segBanks := ((List.range 32).filter fun k => roles.getD k 0 == 2).length, steals := c.gme.steals,
             indexDrop := c.gme.indexDrop, orderDrop := c.gme.orderDrop, mergeStall := c.gme.mergeStall, yealms := c.gme.yealms,
             selEmptyPass := c.gme.selEmptyPass, selEmptyForced := c.gme.selEmptyForced, selNanScore := c.gme.selNanScore },
    ve := [], dma := [], val := [], chans := startChans b n c.chans, regions := tget b.coreRegions n [] }

/-- A course gets its barriers, epochs and step (R71, R180, R215); counters stand. -/
def startCourse (i : Image) (c : Nat) (x : Course) : Course :=
  let b := i.bodies
  let loaded := i.courses.getLsbD c
  let v := x.valley
  { x with
    barriers := (b.barriers.filter fun d => d.level == 0 && d.course == c).foldl
      (fun t d => tset t d.index { declared := true, parts := d.parts }) []
    valley := { overflowDrop := v.overflowDrop, staleReturn := v.staleReturn, absentDrop := v.absentDrop, ueDrop := v.ueDrop,
                rowsLanded := v.rowsLanded, rowsReturned := v.rowsReturned }
    valRegions := tget b.valRegions c []
    step := if loaded then b.initStep else x.step
    sched := if loaded then b.params.map fun p => (p.1, scheduleAt p.2 b.initStep.toNat) else x.sched
    digests := [] }

/-- Module barriers at 0 to 31, fabric barriers at 32 to 47. -/
def startBarriers (b : ImageBodies) : Tab Barrier :=
  (b.barriers.filter fun d => d.level != 0).foldl
    (fun t d => tset t (if d.level = 1 then d.index else 32 + d.index)
      { declared := true, parts := d.parts, members := d.members, root := d.root }) []

namespace State

/-- Every declared queue of a core is zeroed (R117), its bank awake (R231). -/
def zeroQueues (s : State) (n : Nat) : State :=
  (s.core n).chans.foldl
    (fun s x =>
      if x.2.declared then (List.range (2 ^ x.2.log2)).foldl
          (fun s i => (s.wakeBank (x.2.cqBase + 64 * i) imageMaster).putLine (x.2.cqBase + 64 * i) zeroLine) s
      else s) s

/-- Banks as the image powers them; one that goes off loses its content. -/
def powerBanks (s : State) (base size : Nat) (v : List Nat) (count : Nat) : State :=
  (List.range count).foldl
    (fun s i =>
      let a := base + size * i
      let p := v.getD i 0
      let s := if p = 2 ∧ s.bankState a ≠ 2 then s.zeroRange a size else s
      s.setBankState a p) s

/-! ### Unloading (R293) -/

/-- The image, generator and job-cap registers at reset, the image's regions disabled, no core loaded. -/
def unload (s : State) : State :=
  { s with
    image := { lastError := s.image.lastError, lastStatus := s.image.lastStatus }
    rng := {}
    power := { s.power with jobW := 0 }
    health := { s.health with conditions := 0, held := false, lateCourses := [], overdue := [] }
    cores := s.cores.map fun x => (x.1, { x.2 with active := false, regions := [] })
    courses := s.courses.map fun x => (x.1, { x.2 with valRegions := [] })
    colls := s.colls.map fun x => (x.1, { x.2 with regions := [] }) }

end State

/-! ### Applying (R291) -/

/-- The entries of the courses that are not loaded drop out (R292). -/
def keepCourses (loaded : BitVec 64) (b : ImageBodies) : ImageBodies :=
  let c (k : Nat) : Bool := loaded.getLsbD k
  let n (k : Nat) : Bool := c (courseOf k)
  { b with
    overflowAlloc := b.overflowAlloc.filter fun x => c x.1, spadRoles := b.spadRoles.filter fun x => n x.1,
    spadPower := b.spadPower.filter fun x => n x.1, ulPower := b.ulPower.filter fun x => c x.1,
    partitions := b.partitions.filter fun x => c x.1, coreRegions := b.coreRegions.filter fun x => n x.1,
    valRegions := b.valRegions.filter fun x => c x.1, entries := b.entries.filter fun x => n x.1, binds := b.binds.filter fun x => n x.1,
    flags := b.flags.filter fun x => n x.1, barriers := b.barriers.filter fun x => x.level != 0 || c x.course,
    queues := b.queues.filter fun x => n x.core }

/-- Step 1: the configuration of every section. -/
def configure (s : State) (loaded : BitVec 64) (count : Nat) (signed : Bool) (co : CoursesSec) (po : PolicySec) (b : ImageBodies) : State :=
  let i : Image :=
    { loaded := false, signed := signed, readySubset := co.subset, hold := co.hold, sections := count, courses := loaded,
      target := co.target, active := (List.range 64).map fun c => (c, co.active.getD c 0), lastError := s.image.lastError,
      lastStatus := s.image.lastStatus, bodies := b, selfTest := po.selfTest, windowBoundMs := po.bound, issueOrder := po.order,
      wdogLog2 := BitVec.ofNat 6 po.wdog, halving := BitVec.ofNat 7 po.halving }
  let s := { s with
    image := i, hbmAffinity := b.affinityGib
    fabric := { s.fabric with loaded := true, axisMap := b.axisMap, sizes := b.sizes, coord := BitVec.ofNat 24 (packCodes 6 b.coords) }
    power := { s.power with jobW := BitVec.ofNat 16 po.cap }
    rng := { keys := b.keys, declared := BitVec.ofNat 8 (b.keys.foldl (fun a k => a ||| 2 ^ k.1) 0) }
    colls := (List.range 4).map fun k =>
      (k, { aborts := (s.coll k).aborts, regions := tget b.collRegions k []
            triggers := (tget b.collTables k []).zipIdx.map fun e => (e.2, (CollEntry.ofBytes e.1).triggerInit) }) }
  let s := ((List.range 2048).filter co.has).foldl
    (fun s n => if loaded.getLsbD (courseOf n) then s.powerBanks (spadBase n) 32768 (tget b.spadPower n []) 32 else s) s
  ((List.range 64).filter fun c => loaded.getLsbD c).foldl (fun s c => s.powerBanks (ulBase c) 524288 (tget b.ulPower c []) 64) s

/-- The lines of step 2, each with the staged line it needs last, its address and its content. -/
def contentLines (l : List (List Byte)) (ss : List Sect) (b : ImageBodies) : List (Nat × Nat × List Byte) :=
  let bare := b.regions.filter fun r => !ss.any fun x => x.type == 0x08 && x.inst == r.1
  let zeros := bare.flatMap fun r => (List.range r.2.lines).map fun i => (0, r.2.base + 64 * i, zeroLine)
  let code := (ss.filter fun x => x.type == 0x08).flatMap fun x =>
    match tfind b.regions x.inst with
    | none => []
    | some r => (List.range r.lines).map fun i =>
        (x.start + min (bodyLine (64 * i + 63)) (x.lines - 1), r.base + 64 * i, bytesAt (x.bytes l (64 * i) (min 64 (x.len - 64 * i))) 0 64)
  let data := (ss.filter fun x => x.type == 0x10).flatMap fun x =>
    match tfind b.allocs (x.nat l 0 2) with
    | none => []
    | some a => (List.range ((x.len - 64) / 64)).map fun i =>
        (x.start + bodyLine (64 * i + 127), a.base + 64 * (x.nat l 8 8 + i), x.bytes l (64 * i + 64) 64)
  zeros ++ code ++ data

def writeContent (s : State) (ls : List (Nat × Nat × List Byte)) : State :=
  ls.foldl (fun s x => (s.wakeBank x.2.1 imageMaster).putLine x.2.1 x.2.2) s

/-- Step 3: all other state, as the earlier rules require of a load. -/
def initialise (s : State) : State :=
  let i := s.image
  let s := (List.range 2048).foldl (fun s n => s.modCore n (startCore i n)) s
  let s := (List.range 64).foldl (fun s c => s.modCourse c fun x => { startCourse i c x with codeCache := [], passItems := 0 }) s
  let s := ((List.range 2048).filter fun n => (s.core n).active).foldl State.zeroQueues s
  { s with
    modBarriers := startBarriers i.bodies, arrivals := [], valPath := [], nextClose := i.bodies.initStep.toNat
    digest := ([0, 1, 2, 3] : List Nat).foldl (fun t d => tmod t d {} fun x => { x with records := [], awaited := none, compared := s.clock }) s.digest
    reshard := { startGroup := s.reshard.startGroup, table := s.reshard.table, result := s.reshard.result }
    health := { s.health with lateCourses := [], overdue := [] }
    job := { s.job with pausePending := false, faulted := false } }

/-- Applies a checked image; an uncorrectable staged line halts the apply and leaves the module unloaded. -/
def applyImage (s : State) (k : LongCmd) : State × Option ImgErr :=
  let r := readImage s.contentInForce k.staging k.stagingLines
  let l := r.2.1
  let count := imgNat l 6 2
  let ss := sections l k.stagingLines count 1 1
  let co := coursesSec l ss
  let b := keepCourses k.courses k.img
  let s := configure r.1 k.courses count (sectOf ss 0xFF).isSome co (policySec l ss) b
  let s := writeContent s ((contentLines l ss b).takeWhile fun x => decide (x.1 < l.length))
  if r.2.2 then
    let s := initialise s
    (({ s with image := { s.image with loaded := true, digest := imageDigest l ss } }), none)
  else (s.unload, some (applyErr ss l.length))

/-! ### The commands -/

/-- LOAD_IMAGE: the checks run at once, and the job is LOADING until the command completes. -/
def opLoadImage (s : State) (ss seq staging : Nat) (given : Option ImageBodies) : State :=
  match s.turnAway ss true [.empty, .loaded, .halted] false with
  | some e => s.refuse ss seq 0x06 e
  | none =>
    let s := s.vote 0
    if s.sec.lc = .manufacture ∨ s.sec.lc = .decommissioned then s.refuse ss seq 0x06 .notReady
    else if s.rcp.long.isSome then s.refuse ss seq 0x06 .busy
    else
      let old := s.job.state
      let x := checkImage (s.jobMove .loading 0x01) staging given
      let k : LongCmd := { session := ss, hostSeq := seq, type := 0x06, status := .ok, fromState := old, staging := staging,
                           stagingLines := x.2.2.1, img := x.2.2.2 }
      match x.2.1 with
      | .inl e => x.1.startLong { k with status := e.status, payload := leBytes 8 e.word.toNat }
      | .inr loaded => x.1.startLong { k with courses := loaded }

def State.imageFailed (s : State) (st : Status) (payload : List Byte) : State :=
  { s with image := { s.image with lastError := BitVec.ofNat 64 (leNat payload), lastStatus := some st } }

/-- The end of LOAD_IMAGE. -/
def endLoad (s : State) (k : LongCmd) : State :=
  if k.status ≠ .ok then
    ((s.imageFailed k.status k.payload).jobMove k.fromState 0x03).reply k.session k.hostSeq 0x06 k.status k.payload
  else
    match applyImage s k with
    | (s, none) => (s.jobMove .loaded 0x02).settleGuarantee.reply k.session k.hostSeq 0x06 .ok
    | (s, some e) =>
      let p := leBytes 8 e.word.toNat
      ((s.imageFailed e.status p).jobMove .empty 0x04).reply k.session k.hostSeq 0x06 e.status p

/-- LONG_COMMAND_COMPLETE: the command under way ends, and its response is sent and cached (R305). -/
def execLongCommandComplete (s : State) : Out :=
  match s.rcp.long with
  | none => .next s
  | some k =>
    let s := { s with rcp := { s.rcp with long := none } }
    let s := if k.type = 0x11 then s.raiseCounter else s
    if k.type = 0x06 then .next (endLoad s k)
    else .next (s.reply k.session k.hostSeq k.type.toNat k.status k.payload)

def opUnloadImage (s : State) (ss seq : Nat) : State :=
  match s.turnAway ss true [.loaded, .halted] false with
  | some e => s.refuse ss seq 0x07 e
  | none => (s.unload.jobMove .empty 0x05).reply ss seq 0x07 .ok

end Sys2Proof.Machine
end

