-- ==== Sys2Proof/Machine/Job.lean ====
section
/-! DEFINITION. Starting, pausing, resuming and cancelling a job (R313 to R315, R338). -/

namespace Sys2Proof.Machine

/-! ### Streams stopped by a pause -/

/-- A stream of the core has an entry point. -/
def Core.hasStreams (c : Core) : Bool := c.f.hasEntry || c.b.hasEntry || c.u.hasEntry

/-- The core runs once it is released: it is loaded, has not halted, and has a stream. -/
def Core.resumes (c : Core) : Bool := c.active && !c.halt.halted && c.hasStreams

/-- Every stream of a running core stays stopped after its window. -/
def Core.pausedStreams (c : Core) : Bool := allStreams.all fun t => !(c.ctx t).hasEntry || (c.ctx t).hold == .paused

/-- The core has stopped for a pause, and nothing of it works. -/
def Core.stoppedCore (c : Core) : Bool := !c.active || ((!c.resumes || c.pausedStreams) && c.drained)

/-- A stopped stream goes on. -/
def StreamCtx.unpaused (x : StreamCtx) : StreamCtx := { x with hold := if x.hold = .paused then .none else x.hold }

def Core.anyPaused (c : Core) : Bool := allStreams.any fun t => (c.ctx t).hold == .paused

/-- The flag of the test window. -/
def windowFlag : Nat := 488

namespace State

/-- A core stopped by a pause resumes, and flag 488 increments. -/
def unpauseCore (s : State) (n : Nat) : State :=
  let c := s.core n
  if c.resumes && c.anyPaused then
    (s.setCore n { c with f := c.f.unpaused, b := c.b.unpaused, u := c.u.unpaused }).incFlag n windowFlag 1
  else s

def unpauseAll (s : State) : State := s.cores.foldl (fun s x => s.unpauseCore x.1) s

/-- A logical core runs at its position (R357, Table 16-8). -/
def noteRole (s : State) (n : Nat) : State :=
  s.modCourse (courseOf n) fun x =>
    x.modPos (x.position (n % 32)) fun h => { h with ran := true, lastRole := BitVec.ofNat 11 n }

/-! ### The commands -/

/-- A course of the loaded image is not ready (R338). -/
def courseMissing (s : State) : Bool := (s.image.courses &&& ~~~s.ready.courses) != 0

/-- The job runs from the next cycle: every loaded core is the last one of its position. -/
def beginJob (s : State) : State :=
  let s := s.jobMove .running 0x06
  (s.cores.foldl (fun (t : State) x => if x.2.active then t.noteRole x.1 else t) s).settleJob

/-- Streams written while PAUSED come in force (R203). -/
def applyStreams (s : State) : State :=
  { s with rng :=
    { s.rng with keys := s.rng.written.foldl (fun t x => tset t x.1 ((tget s.rng.keys x.1 (0, 0)).1, x.2)) s.rng.keys
                 written := [] } }

def pausing (s : State) (on : Bool) : State := { s with job := { s.job with pausePending := on } }

/-- A pause ends, or is withdrawn while it is pending. -/
def resumeRun (s : State) : State :=
  if s.job.state = .paused then
    let s := s.applyStreams
    ((s.jobMove (if s.job.faulted then .faulted else .running) 0x0A).unpauseAll).settleJob
  else (s.pausing false).unpauseAll

end State

def opStartJob (s : State) (ss seq : Nat) : State :=
  match s.turnAway ss true [.loaded] false with
  | some e => s.refuse ss seq 0x08 e
  | none => if s.courseMissing then s.refuse ss seq 0x08 .notReady else s.beginJob.reply ss seq 0x08 .ok

def opPauseJob (s : State) (ss seq : Nat) : State :=
  match s.turnAway ss true [.running, .faulted] false with
  | some e => s.refuse ss seq 0x09 e
  | none => (s.pausing true).reply ss seq 0x09 .ok

/-- JOB_PAUSED: every loaded core has stopped, and every queue and transfer has drained. -/
def execJobPaused (s : State) : Out :=
  if s.job.pausePending && (s.job.state == .running || s.job.state == .faulted) && s.cores.all (fun x => x.2.stoppedCore) then
    .next ((s.pausing false).jobMove .paused 0x09)
  else .next s

def opResumeJob (s : State) (ss seq : Nat) : State :=
  match s.turnAway ss true [.paused, .running, .faulted] false with
  | some e => s.refuse ss seq 0x0A e
  | none =>
    if s.job.state ≠ .paused ∧ s.job.pausePending = false then s.refuse ss seq 0x0A .wrongState
    else s.resumeRun.reply ss seq 0x0A .ok

/-! ### Cancelling (R315) -/

/-- Every set, record and count of a Valley engine goes, and its epochs advance (R180). -/
def Valley.cancelAll (v : Valley) : Valley :=
  { v with
    epochs := (List.range 256).foldl (fun t b => tset t b (tget v.epochs b 0 + 1)) v.epochs
    jobEpoch := v.jobEpoch + 1, summarised := [], sets := [], counts := [], homes := [], forward := [], absent := [] }

namespace State

/-- HOST_HALT of a loaded core that runs; on one that still drains it is a further fault, which is counted (R41, R315). The channels of a core
that has halted before, or that has no stream entry, take no STOP again and write no further STOPPED record (DESIGN CHOICE: log
entry 47). -/
def hostHalt (s : State) (n seq : Nat) : State :=
  if (s.core n).resumes || (s.core n).halt.draining then s.haltCore n { engine := 7, stream := 3 } { reason := 0x16, info := seq } else s

/-- The halt of a role that migrates waits for the migration's end (R351). -/
def migrates (s : State) (n : Nat) : Bool :=
  match (s.course (courseOf n)).migration with | some m => m.k == n % 32 | none => false

def cancelCore (s : State) (n seq : Nat) : State :=
  if s.migrates n then
    s.modCourse (courseOf n) fun x => { x with migration := x.migration.map fun m => { m with cancel := some seq } }
  else s.hostHalt n seq

def cancelRun (s : State) (seq : Nat) : State :=
  let s := s.cores.foldl (fun s x => s.cancelCore x.1 seq) s
  let s := (List.range 64).foldl (fun s c => s.modCourse c fun x => { x with valley := x.valley.cancelAll }) s
  let s := { s with valPath := s.valPath.filter fun m => match m.msg with | .notice _ _ _ _ => false | _ => true }
  (s.pausing false).jobMove .draining 0x0B

end State

def opCancelJob (s : State) (ss seq : Nat) : State :=
  match s.turnAway ss true [.running, .paused, .faulted] false with
  | some e => s.refuse ss seq 0x0B e
  | none => (s.cancelRun seq).reply ss seq 0x0B .ok

/-- A collective engine has finished the chunks that it had begun: a chunk of a reduce-scatter that another rank owns with its sending,
one that waits for credits of a landing ring as far as the cores that have halted let it, a copy of a re-shard with its last line (R315). -/
def State.collIdle (s : State) (sl : Nat) : Bool :=
  (!(s.reshard.running && s.reshard.slope == sl) || s.copiesIdle) &&
  match (s.coll sl).run with
  | none => true
  | some run =>
    match s.collEntry? sl run.entry with
    | none => true
    | some e =>
      decide (2 ≤ e.op) ||
        run.sent.all fun k => run.done.contains k || run.aborted.contains k || (run.landing.any fun x => x.chunk == k) ||
          (e.op == 1 && match (s.reduceChunks e)[k]? with | some c => c.2.2 != s.rankIn e | none => true)

/-- JOB_DRAIN_COMPLETE: every halt has drained, and the Valley and collective engines are idle. -/
def execJobDrainComplete (s : State) : Out :=
  if s.job.state == .draining && s.allFinished && s.courses.all (fun x => x.2.migration.isNone) && s.valPath.isEmpty &&
      ([0, 1, 2, 3] : List Nat).all s.collIdle then
    let s := s.reshardStop
    .next (({ s with colls := s.colls.map fun x => (x.1, { x.2 with run := none }) } : State).jobMove .halted 0x0C)
  else .next s

end Sys2Proof.Machine
end

