-- ==== Sys2Proof/Machine/Bulk.lean ====
section
/-! DEFINITION. The host bulk engine: BULK_WRITE and BULK_READ (R317 to R319), and the one response of a run of
coalesced writes (R306). -/

namespace Sys2Proof.Machine

def bulkMaster : Nat := 2117

/-! ### The parameter block (Table 14-9) -/

structure BulkBlock where
  addr : Nat
  lines : Nat
  signal : Bool
  core : Nat
  flag : Nat
  amount : W32
  deriving DecidableEq, Repr

def bulkBlock (p : List Byte) : BulkBlock :=
  { addr := natAt p 0 8, lines := natAt p 8 2, signal := natAt p 10 1 == 1, core := natAt p 12 2, flag := natAt p 14 2,
    amount := BitVec.ofNat 32 (if natAt p 16 4 = 0 then 1 else natAt p 16 4) }

/-- The first check: the address, the line count, the zero fields, and the length. -/
def bulkForm (p : List Byte) (dataLines : Bool) : Bool :=
  let b := bulkBlock p
  b.addr % 64 == 0 && decide (b.addr < 2 ^ 48) && decide (1 ≤ b.lines) && decide (b.lines ≤ 128) &&
    p.length == 32 + (if dataLines then 64 * b.lines else 0) && natAt p 11 1 == 0 && (bytesAt p 20 12).all (· == 0) &&
    (if dataLines then decide (natAt p 10 1 ≤ 1) else (bytesAt p 10 10).all (· == 0))

def bulkLines (b : BulkBlock) : List Nat := lineAddrs b.addr b.lines

namespace State

/-- Every line is mapped and in the bulk engine's regions. -/
def bulkPermits (s : State) (p : Perm) (b : BulkBlock) : Bool := (bulkLines b).all fun a => s.permits s.bulkRegions p a

/-- A line lies in the staging range of a LOAD_IMAGE that runs. -/
def stagingMeets (s : State) (b : BulkBlock) : Bool :=
  match s.rcp.long with
  | some k => k.type == 0x06 && decide (b.addr < k.staging + 64 * k.stagingLines ∧ k.staging < b.addr + 64 * b.lines)
  | none => false

/-- The checks of BULK_WRITE in order. -/
def bulkRefused (s : State) (p : List Byte) : Option Status :=
  let b := bulkBlock p
  if !bulkForm p true then some .malformed
  else if 2047 < b.core ∨ 479 < b.flag then some .range
  else if !s.bulkPermits .write b then some .privilege
  else if (bulkLines b).any (fun a => (s.liveAt a).isSome) then some .regionLive
  else if s.stagingMeets b then some .busy
  else none

/-! ### Lines -/

/-- A region that the host writes is retired no more (R38). -/
def revive (s : State) (a : Nat) : State :=
  match s.image.bodies.regions.find? fun x => decide (x.2.base ≤ a ∧ a < x.2.base + 64 * x.2.lines) with
  | some x => { s with image := { s.image with retired := s.image.retired.filter (· != x.1) } }
  | none => s

/-- Writes lines of data in ascending address order. -/
def bulkPut (s : State) : Nat → Nat → List Byte → State
  | 0, _, _ => s
  | n + 1, a, data => bulkPut ((s.writeLine a (bytesAt data 0 64) bulkMaster).revive a) n (a + 64) (data.drop 64)

/-- The first unit of a block in reset or migrating, if any. -/
def bulkHeld (s : State) (b : BulkBlock) : Option (Option Nat × Nat) := ((bulkLines b).find? s.lineHeld).map heldUnit

/-- A unit for which an earlier BULK_WRITE of the session waits: the increment of a later one waits with it (R318). -/
def earlierHeld (s : State) (ss seq : Nat) : Option (Option Nat × Nat) :=
  (s.held.find? fun x =>
    match x.op with
    | .cmd t q (.bulkSignal _ _) => t == ss && decide (q < seq)
    | _ => false).map fun x => (x.core, x.course)

/-! ### BULK_WRITE -/

/-- A coalesced write that ends with OK joins the run, which is answered once it holds 64 commands. -/
def joinRun (s : State) (ss seq : Nat) : State :=
  let follows := match s.session? ss with
    | some x => match x.run.getLast? with | some q => q + 1 == seq | none => true
    | none => true
  let s := if follows then s else s.flushRun ss
  let s := s.modSession ss fun x => { x with run := x.run ++ [seq] }
  match s.session? ss with
  | some x => if 64 ≤ x.run.length then s.flushRun ss else s
  | none => s

/-- What remains of a BULK_WRITE once its lines are written: its increment and its response. -/
def bulkSignal (s : State) (ss seq : Nat) (coalesce : Bool) (p : List Byte) : State :=
  let b := bulkBlock p
  let s := if b.signal then s.incFlag b.core b.flag b.amount else s
  if coalesce then s.joinRun ss seq else s.reply ss seq 0x0C .ok

/-- A BULK_WRITE ends once no unit of its lines holds one, and, if it has an increment, behind the earlier ones of its session. -/
def bulkEnd (s : State) (ss seq : Nat) (coalesce : Bool) (p : List Byte) : State :=
  match s.bulkHeld (bulkBlock p) with
  | some u => s.holdCmd u ss seq (.bulkSignal coalesce p)
  | none =>
    match (if (bulkBlock p).signal then s.earlierHeld ss seq else none) with
    | some u => s.holdCmd u ss seq (.bulkSignal coalesce p)
    | none => s.bulkSignal ss seq coalesce p

/-- What a BULK_WRITE that passed its checks does: each of its lines is written, or held at a unit in reset or migrating (R337,
R350), and then it ends. -/
def bulkDo (s : State) (ss seq : Nat) (coalesce : Bool) (p : List Byte) : State :=
  (s.bulkPut (bulkBlock p).lines (bulkBlock p).addr (p.drop 32)).bulkEnd ss seq coalesce p

end State

def opBulkWrite (s : State) (ss seq : Nat) (coalesce : Bool) (p : List Byte) : State :=
  if !s.isOwner ss then s.refuse ss seq 0x0C .privilege
  else
    match s.bulkRefused p with
    | some e => s.refuse ss seq 0x0C e
    | none => s.bulkDo ss seq coalesce p

/-! ### BULK_READ -/

/-- Reads lines until one fails its code: the lines before it, and its address. -/
def bulkGet : State → List Nat → State × List (List Byte) × Option Nat
  | s, [] => (s, [], none)
  | s, a :: r =>
    let x := s.readLine a bulkMaster
    match x.1 with
    | none => (x.2.raiseUe a bulkMaster, [], some a)
    | some l =>
      let y := bulkGet x.2 r
      (y.1, l :: y.2.1, y.2.2)

/-- The response's payload: a head of 32 bytes, then the lines. -/
def bulkPayload (ls : List (List Byte)) (bad : Option Nat) : List Byte :=
  let head := leBytes 2 ls.length ++
    (match bad with | some a => [0x0B, 0, 0, 0, 0, 0] ++ leBytes 8 a | none => bytesAt [] 0 14)
  bytesAt head 0 32 ++ ls.flatten

def State.bulkReply (s : State) (ss seq : Nat) (p : List Byte) : State :=
  let x := bulkGet s (bulkLines (bulkBlock p))
  x.1.reply ss seq 0x0D .ok (bulkPayload x.2.1 x.2.2)

/-- What a BULK_READ that passed its checks does, once no unit of its lines is in reset or migrates. -/
def State.bulkFetch (s : State) (ss seq : Nat) (p : List Byte) : State :=
  match s.bulkHeld (bulkBlock p) with
  | some u => s.holdCmd u ss seq (.bulkRead p)
  | none => s.bulkReply ss seq p

def opBulkRead (s : State) (ss seq : Nat) (p : List Byte) : State :=
  let b := bulkBlock p
  if !bulkForm p false then s.refuse ss seq 0x0D .malformed
  else if !s.bulkPermits .read b then s.refuse ss seq 0x0D .privilege
  else s.bulkFetch ss seq p

/-- COALESCED_RESPONSE: 10 µs have passed since the last command of the run. -/
def execCoalescedResponse (ss : Nat) (s : State) : Out := .next (s.flushRun ss)

/-! ### Held traffic is applied (R337, R350) -/

/-- The transfers of every channel, the copies of a re-shard and the collective engines go on where a read of theirs was held. -/
def State.readsGoOn (s : State) : State :=
  let s := s.cores.foldl (fun s c => ([0, 1, 2, 3] : List Nat).foldl (fun s ch => s.dmaGoOn c.1 ch) s) s
  ((s.reshardGoOn 0).reshardGoOn 1).landAll

/-- One held write, increment or command goes on. -/
def State.applyHeld (s : State) (h : Held) : State :=
  match h.op with
  | .inc n k amount => s.incFlag n k amount
  | .line a data master => s.writeLine a data master
  | .cmd ss seq (.read priv rest got) => readLoop ss seq priv s rest got
  | .cmd ss seq (.write priv rest i) => writeLoop ss seq priv s i rest
  | .cmd ss seq (.bulkSignal coalesce p) => s.bulkEnd ss seq coalesce p
  | .cmd ss seq (.bulkRead p) => s.bulkFetch ss seq p
  | .read port f => s.answerRead port f
  | .ack f a n => s.sendAck f a n

/-- Everything held for a unit goes on in its order of arrival: for a course, that of its cores too. What must then wait at another
unit keeps its place among what is held. The transfers whose reads waited go on (R350). -/
def State.applyAll (s : State) (mine : Held → Bool) : State :=
  (s.held.foldl (fun (s : State) h => if mine h then s.applyHeld h else { s with held := s.held ++ [h] }) { s with held := [] }).readsGoOn

end Sys2Proof.Machine
end

