-- ==== Sys2Proof/Machine/Reset.lean ====
section
/-! DEFINITION. RESET: the module warm reset, the course reset and the core reset (R316, R335 to R337, R343, R351). -/

namespace Sys2Proof.Machine

/-! ### What a reset leaves of a unit (Table 15-9) -/

/-- A course keeps its core map, health table, rotation and bank power. -/
def Course.kept (x : Course) : Course :=
  { coreMap := x.coreMap, tester := x.tester, pointer := x.pointer, rotationStopped := x.rotationStopped, passDone := x.passDone,
    passMismatch := x.passMismatch, nextSuspect := x.nextSuspect, lastSuspect := x.lastSuspect, suspectTurn := x.suspectTurn, item := x.item,
    passItems := x.passItems,
    migratingWindows := x.migratingWindows, pos := x.pos, ulPower0 := x.ulPower0, ulPower1 := x.ulPower1, codeCache := x.codeCache }

/-- A core reset alone keeps the power of the scratchpad's banks, with their content. -/
def Core.kept (c : Core) : Core := { bankPower := c.bankPower }

namespace State

/-! ### Module warm reset (R316) -/

/-- Every unit at what Table 15-9 gives a module warm reset; HBM, the event log, the health table and the settings of the
privileged view stand. -/
def resetUnits (s : State) : State :=
  let s := s.loseSram
  { s with
    cores := []
    courses := s.courses.map fun x => (x.1, { x.2.kept with ulPower0 := 0, ulPower1 := 0 })
    hbm := s.hbm.map fun x => (x.1, { x.2 with ce := 0, ue := 0, scrub := {} })
    slopes := s.slopes.map fun x => (x.1, { x.2 with throttleCycles := 0 })
    ports := s.ports.map fun x => (x.1, ({ regions := x.2.regions } : Port))
    resetDue := none
    colls := [], modBarriers := [], arrivals := [], held := [], valPath := [], coreReset := [], resets := []
    job := {}
    rcp := { s.rcp with ethRxDrop := 0, discard := 0, crcErr := 0, reorderDrop := 0, sessions := [], long := none }
    ridge := { s.ridge with telemetrySkip := 0 }
    digest := s.digest.map fun x => (x.1, { x.2 with records := [], awaited := none })
    nextClose := 0
    power := { s.power with lowPeriods := 0, clampEvents := 0 }
    ready := { hostPort := s.ready.hostPort, hbm := s.ready.hbm, refreshed := s.ready.refreshed, failed := s.ready.failed.filter survives }
    sec := { s.sec with debugUnlocked := false }
    health := { s.health with migrations := 0, sweeps := 0, tmrCount := 0 }
    fabric := { s.fabric with closing := [], outstanding := [] }
    reshard := { startGroup := s.reshard.startGroup, table := s.reshard.table, result := s.reshard.result } }

/-- The reset, every axis drained, then the firmware's start; age is the heartbeat's when the ridge watchdog caused it. -/
def warmReset (s : State) (age : Option W32) : State :=
  let s := s.closeAxes.unload
  let s := (s.endSessions 2).closeWindow
  let s := (s.jobMove .empty 0x0D).resetUnits
  let s := match age with | some a => s.raise 0x011C 0 0 [(4, a.toNat)] | none => s
  s.bootFirmware.votes bootItems

/-- The warm reset takes effect at once, or when every open axis has drained (R264). -/
def askWarmReset (s : State) (age : Option W32) : State :=
  if s.openAxes.isEmpty then s.warmReset age else s.drainFor (.warm age)

/-- What waited for the drain of the axes. -/
def settleReset (s : State) : State :=
  if !s.openAxes.isEmpty then s
  else
    match s.resetDue with
    | none => s
    | some (.warm age) => s.warmReset age
    | some .standby => { s.slopesOff with resetDue := none }

/-! ### Course reset and core reset (R337, R351) -/

def beginCoreReset (s : State) (n ss seq : Nat) : State :=
  { s with coreReset := n :: s.coreReset.filter (· != n)
           resets := s.resets ++ [{ course := false, index := n, session := ss, hostSeq := seq }] }

/-- What waited for the migration's end: a cancelled role halts, and a core reset begins. -/
def afterMigration (s : State) (c : Nat) (m : Migration) : State :=
  let n := 32 * c + m.k
  let s := match m.cancel with | some q => s.hostHalt n q | none => s
  match m.reset with | some r => s.beginCoreReset n r.1 r.2 | none => s

/-- A core reset of a migrating role waits for the end of the migration. -/
def askCoreReset (s : State) (n ss seq : Nat) : State :=
  match (s.course (courseOf n)).migration with
  | some m =>
    if m.k = n % 32 ∧ m.reset = none then s.modCourse (courseOf n) fun x => { x with migration := some { m with reset := some (ss, seq) } }
    else s.beginCoreReset n ss seq
  | none => s.beginCoreReset n ss seq

/-- A course reset abandons a migration of its course, and the course is not ready until its test has passed. -/
def beginCourseReset (s : State) (c ss seq : Nat) : State :=
  let s := match (s.course c).migration with
    | some m => (s.modCourse c fun x => { x with migration := none }).afterMigration c m
    | none => s
  let s := s.modCourse c fun x => { x with inReset := true }
  { s with ready := { s.ready with courses := s.ready.courses &&& ~~~(BitVec.ofNat 64 (2 ^ c))
                                   failed := s.ready.failed.filter fun f => match f with | .course d => d.val != c | _ => true }
           resets := s.resets ++ [{ course := true, index := c, session := ss, hostSeq := seq }] }

/-- A core at its reset values, or as the loaded image gives it, its banks' power with it. -/
def resetCore (s : State) (n : Nat) : State :=
  let s := s.modCore n fun c => if s.image.loaded then startCore s.image n c.kept else c.kept
  let s := s.powerBanks (spadBase n) 32768 (tget s.image.bodies.spadPower n []) 32
  if s.image.loaded && (s.core n).active then s.zeroQueues n else s

def resetCourse (s : State) (c : Nat) : State :=
  let s := s.modCourse c fun x => if s.image.loaded then startCourse s.image c x.kept else x.kept
  let s := s.powerBanks (ulBase c) 524288 (tget s.image.bodies.ulPower c []) 64
  (List.range 32).foldl (fun s k => s.resetCore (32 * c + k)) s

/-- The responses to the resets of a unit that have completed. -/
def answerResets (s : State) (course : Bool) (i : Nat) : State :=
  let due := s.resets.filter fun r => r.course == course && r.index == i
  let s := { s with resets := s.resets.filter fun r => !(r.course == course && r.index == i) }
  due.foldl (fun s r => s.reply r.session r.hostSeq 0x15 .ok) s

end State

/-! ### The command -/

/-- RESET: level 0 in any state; a course or a core in EMPTY, LOADED or HALTED. -/
def opReset (s : State) (ss seq level target : Nat) : State :=
  match s.turnAway ss true (if level = 0 then [] else [.empty, .loaded, .halted]) false with
  | some e => s.refuse ss seq 0x15 e
  | none =>
    match level with
    | 0 => (s.reply ss seq 0x15 .ok).askWarmReset none
    | 1 => if 64 ≤ target then s.refuse ss seq 0x15 .range else s.beginCourseReset target ss seq
    | 2 => if 2048 ≤ target then s.refuse ss seq 0x15 .range else s.askCoreReset target ss seq
    | _ => s.refuse ss seq 0x15 .range

/-- RESET_COMPLETE: a unit leaves its reset, its response is sent, and what was held for it is applied. A course that fails its test
raises BRINGUP_FAIL (R340); the command says not which test, whose code is left open. -/
def execResetComplete (u : ResetUnit) (testPassed : Bool) (s : State) : Out :=
  match u with
  | .course c =>
    if !(s.course c).inReset then .next s
    else
      let s := s.resetCourse c
      let s := if testPassed then { s with ready := { s.ready with courses := s.ready.courses ||| BitVec.ofNat 64 (2 ^ c.val) } }
        else let d := s.draw; d.2.functionFails (.course c) (d.1.toNat % 256)
      .next ((s.settleBringUp.answerResets true c).applyAll fun h => h.course == c.val)
  | .core n =>
    if !s.coreReset.contains n.val then .next s
    else
      let s := { s with coreReset := s.coreReset.filter (· != n.val) }
      .next (((s.resetCore n).answerResets false n).applyAll fun h => h.core == some n.val)

/-- RIDGE_WATCHDOG_EXPIRY: 1 s has passed without a heartbeat of the firmware. -/
def execRidgeWatchdogExpiry (ageMs : W32) (s : State) : Out :=
  if s.power.off || decide (ageMs.toNat < 1000) then .next s else .next (s.askWarmReset (some ageMs))

/-- BYPASS_DRAIN_COMPLETE: an axis that has drained closes; the last one lets a reset that waits take effect. -/
def execBypassDrainComplete (pair : Fin 4) (s : State) : Out :=
  if s.drained pair then .next (s.axisDrained pair).settleReset else .next s

end Sys2Proof.Machine
end

