-- ==== Sys2Proof/Machine/Windows.lean ====
section
/-! DEFINITION. Test windows, migrations, test items and the sweep of the shared units (R345 to R357, R359). -/

namespace Sys2Proof.Machine

/-! ### At the window (R346) -/

/-- Every stream of the core that has an entry has issued TESTWIN. -/
def Core.allAtWindow (c : Core) : Bool := allStreams.all fun t => !(c.ctx t).hasEntry || (c.ctx t).atWindow

/-- A core that runs has arrived: its streams wait at the window, and its engines and channels are idle. -/
def Core.waitsAtWindow (c : Core) : Bool := c.resumes && c.allAtWindow && c.idle

/-- The core counts as at the window: it has halted, has no stream, or waits. -/
def Core.countsAtWindow (c : Core) : Bool := !c.resumes || c.waitsAtWindow

def coresOf (c : Nat) : List Nat := (List.range 32).map fun k => 32 * c + k

namespace State

/-- Loaded cores of a course. -/
def courseCores (s : State) (c : Nat) : List Nat := (coresOf c).filter fun n => (s.core n).active

def jobRuns (s : State) : Bool := s.job.state == .running || s.job.state == .faulted

/-- A window may open or be abandoned: the course runs, and some core has arrived. -/
def gathers (s : State) (c : Nat) : Bool :=
  s.jobRuns && s.courseLoaded c && (s.course c).migration.isNone && !(s.course c).inReset &&
    (s.courseCores c).any fun n => (s.core n).waitsAtWindow

/-! ### Release (R348, R314) -/

def releaseStream (paused : Bool) (x : StreamCtx) : StreamCtx :=
  if x.atWindow then { x with atWindow := false, hold := if paused then .paused else .none } else x

/-- A core leaves the window: it runs again and flag 488 increments, or a pending pause keeps it stopped. -/
def releaseCore (s : State) (n : Nat) (paused : Bool) : State :=
  let c := s.core n
  if c.resumes && allStreams.any (fun t => (c.ctx t).atWindow) then
    let s := s.setCore n { c with f := releaseStream paused c.f, b := releaseStream paused c.b, u := releaseStream paused c.u }
    if paused then s else s.incFlag n windowFlag 1
  else s

def releaseCourse (s : State) (c : Nat) : State :=
  (s.courseCores c).foldl (fun s n => s.releaseCore n s.job.pausePending) s

end State

/-! ### Opening (R348) -/

/-- Logical index of the role at a position. -/
def Course.roleAt (x : Course) (p : Nat) : Option Nat := (List.range 32).find? fun k => x.position k == p

/-- What a window does at opening: the migration it starts, none, or none because the tester's pass is not complete. -/
inductive WindowAct where
  | nothing | held | migrate (m : Migration)
  deriving DecidableEq, Repr

def State.windowAct (s : State) (c : Nat) : WindowAct :=
  let x := s.course c
  if s.image.hold || !s.image.selfTest then .nothing
  else
    match x.tester with
    | none => .nothing
    | some t =>
      if !x.passDone then .held
      else
        match x.turn with
        | none => .nothing
        | some (p, suspect) =>
          match x.roleAt p with
          | none => .nothing
          | some k => .migrate { k := k, src := p, dst := t, suspect := suspect }

/-- TEST_WINDOW_OPEN: every loaded core of the course is at the window; the opening opens their gates (R60). -/
def execTestWindowOpen (c : CourseId) (s : State) : Out :=
  if !(s.gathers c && (s.courseCores c).all fun n => (s.core n).countsAtWindow) then .next s
  else
    let act := s.windowAct c
    let s := (s.courseCores c).foldl (fun s n => s.modCore n Core.openGate) s
    let s := s.modCourse c fun x => { x with windows := x.windows + 1 }
    let s := ({ s with health := { s.health with lateCourses := s.health.lateCourses.filter (· != c.val) } } : State).settleGuarantee
    match act with
    | .nothing => .next (s.releaseCourse c)
    | .held => .next ((s.modCourse c fun x => { x with windowsHeld := x.windowsHeld + 1 }).releaseCourse c)
    | .migrate m => .next (s.modCourse c fun x => { x with migration := some m })

/-- TEST_WINDOW_ABANDON: the gathering limit has run out; the cores that wait resume. -/
def execTestWindowAbandon (c : CourseId) (s : State) : Out :=
  match (s.courseCores c).find? fun n => !(s.core n).countsAtWindow with
  | none => .next s
  | some missing =>
    if !s.gathers c then .next s
    else
      let s := (s.courseCores c).foldl (fun s n => if (s.core n).waitsAtWindow then s.releaseCore n false else s) s
      let s := s.modCourse c fun x => { x with windowsAbandoned := sat32 x.windowsAbandoned 1 }
      .next (s.raise 0x0117 2 c [(2, missing)])

/-- TEST_WINDOW_LATE: the execution time since the course's last window has passed 10 s (R345, Table 16-3). -/
def execTestWindowLate (c : CourseId) (ms : W32) (s : State) : Out :=
  if !s.jobRuns || !s.courseLoaded c || (s.course c).tester.isNone || s.health.lateCourses.contains c.val || decide (ms.toNat ≤ 10000) then
    .next s
  else
    let s := s.raise 0x0118 2 c [(4, ms.toNat)]
    .next ({ s with health := { s.health with lateCourses := c.val :: s.health.lateCourses } } : State).settleGuarantee

/-! ### The end of a migration (R349 to R351) -/

def migrationMaster : Nat := 2129

namespace State

/-- Copies a scratchpad line whose code word holds flips: corrected, or as it stands with an ECC_UE. -/
def copyLine (s : State) (a : Nat) : State :=
  let r := s.lineRead a
  let s := s.countErr a r.ce (if r.data.isSome then 0 else 1)
  match r.data with
  | some d => { s with mem := memPutAll s.mem a d, memErr := terase s.memErr (a / 64) }
  | none => s.raiseUe a migrationMaster

/-- Copies an accumulator row whose code word holds flips. -/
def copyRow (s : State) (n r : Nat) : State :=
  let x := sramDecode (tget (s.core n).da.accErr r [])
  if x.ok then
    s.modCore n fun c =>
      let ws := flipWords (c.da.accRow r) x.flips
      { c with
        spadCe := sat32 c.spadCe (if x.corrected then 1 else 0)
        da := { c.da with
          acc := (List.range 128).foldl (fun a i => let v := ws.getD i 0
            if v = 0 then terase a (128 * r + i) else tset a (128 * r + i) v) c.da.acc
          accErr := terase c.da.accErr r } }
  else s.rowUe n r migrationMaster

/-- Every line and row of the role that holds flips, in ascending order; the others are copied as they are. A bank that is
off is not copied. -/
def copyRole (s : State) (n : Nat) : State :=
  let lines := (s.memErr.map (·.1)).filter fun l =>
    decide (spadBase n ≤ 64 * l ∧ 64 * l < spadBase n + 0x100000) && s.bankState (64 * l) != 2
  let s := lines.foldl (fun s l => s.copyLine (64 * l)) s
  ((s.core n).da.accErr.map (·.1)).foldl (fun s r => s.copyRow n r) s

/-- Scratchpad banks of the role that a migration copies: those on or in retention (R349). -/
def copiedBanks (s : State) (n : Nat) : Nat :=
  ((List.range 32).filter fun b => s.bankState (spadBase n + 32768 * b) != 2).length

end State

/-- The destination's caches and fetch buffers start empty. -/
def Core.moved (c : Core) : Core :=
  let x (y : StreamCtx) : StreamCtx := { y with fetchLine := none, prefLine := none, prefetch := none, adrift := [] }
  { c with icache := [], f := x c.f, b := x c.b, u := x c.u }

/-- The core map, the tester, the pointer and the next turn after a migration. -/
def Course.switched (x : Course) (c : Nat) (m : Migration) : Course :=
  let role := BitVec.ofNat 11 (32 * c + m.k)
  let advance := !m.suspect || x.allSuspect
  let x := { x with
    coreMap := if m.k = m.dst then terase x.coreMap m.k else tset x.coreMap m.k m.dst
    tester := some m.src, passDone := false, passMismatch := false, passItems := 0, migration := none, suspectTurn := m.suspect
    lastSuspect := if m.suspect then m.src else x.lastSuspect
    migratingWindows := x.migratingWindows + 1 }
  let x := (x.modPos m.src fun h => { h with ran := true, lastRole := role }).modPos m.dst fun h => { h with ran := true, lastRole := role }
  { x with pointer := if advance then x.after m.src else x.pointer, nextSuspect := x.suspects && !m.suspect }

/-- MIGRATION_SWITCH: the copy has ended. The core map switches, held traffic is applied, and the course resumes. The lines of the
migration's record are those of the copied scratchpad banks, the accumulator's rows not among them (DESIGN CHOICE: log entry 52). -/
def execMigrationSwitch (c : CourseId) (s : State) : Out :=
  match (s.course c).migration with
  | none => .next s
  | some m =>
    if !s.ridgeSlot 2 then .next s
    else
      let n := 32 * c.val + m.k
      let s := (s.copyRole n).modCore n Core.moved
      let s := s.modCourse c fun x => x.switched c m
      let s := { s with health := { s.health with migrations := s.health.migrations + 1 } }
      let s := s.ridgeRecord 2 { status := 0, op := none, tag := c.val + m.src * 2 ^ 8 + m.dst * 2 ^ 16, lines := 512 * s.copiedBanks n }
      let s := s.settleMark
      let s := s.applyAll fun h => h.core == some n
      .next ((s.afterMigration c m).releaseCourse c)

/-! ### Test items (R353, R356, R357) -/

def sat8 (x : Byte) : Byte := BitVec.ofNat 8 (min 255 (x.toNat + 1))

namespace State

/-- A mismatch at the tester: the pass is not clean, and windows without a mismatch are counted anew (R359). -/
def noteMismatch (s : State) (c p : Nat) : State :=
  s.modCourse c fun x => { x.modPos p (fun h => { h with cleanPasses := 0 }) with passMismatch := true, migratingWindows := 0 }

/-- The outcome of an item at position p. -/
def itemOutcome (s : State) (c p item : Nat) (pass rerunPass : Bool) : State :=
  if pass then s
  else if rerunPass then
    ((s.modCourse c fun x => x.modPos p fun h => { h with transient := sat8 h.transient }).noteMismatch c p).suspectPos c p item 0
  else (s.noteMismatch c p).confirmedMismatch c p item

/-- A pass of a suspect position without a mismatch counts when a suspect turn brought it; the eighth clears the position. -/
def endPass (s : State) (c p : Nat) : State :=
  let x := s.course c
  let s := s.modCourse c fun x => { x with passDone := true, passMismatch := false, passItems := 0 }
  if x.tester = some p ∧ (x.health p).suspect = true ∧ x.suspectTurn = true ∧ x.passMismatch = false then
    let n := (x.health p).cleanPasses.toNat + 1
    let s := s.modCourse c fun x => x.modPos p fun h =>
      { h with cleanPasses := BitVec.ofNat 8 n, suspect := decide (n < 8), ownSuspect := h.ownSuspect && decide (n < 8) }
    if n < 8 then s else s.raise 0x0112 2 c [(1, p)]
  else s

end State

/-- A lane of the fold of a run's output lines (R220). -/
def testLane (r : TestRun) (p q : Nat) : Nat := digestHash p (wordsOf r.lines) * powMod digestP q 64 (r.index + 1) % digestP

/-- The run passes: the fold of its output gives both answers of the package. -/
def testPasses (r : TestRun) : Bool := testLane r r.p.1 r.q.1 == r.answers.1 && testLane r r.p.2 r.q.2 == r.answers.2

/-- The item is the next of the course's pass: of a kind of Table 16-5 that a tester runs, after the one before in item order, and the last
exactly when it completes the number of items of the content in force (R353). -/
def State.nextItem (s : State) (c : Nat) (item : W32) (lastOfPass : Bool) : Bool :=
  let x := s.course c
  decide (item.toNat / 2 ^ 24 ≤ 6) && (x.passItems == 0 || decide (x.item.toNat < item.toNat)) &&
    decide (x.passItems < s.health.contentItems.toNat) && lastOfPass == (x.passItems + 1 == s.health.contentItems.toNat)

/-- TEST_ITEM_RESULT: the tester has finished the next item of its pass, and run it again if it failed. -/
def execTestItemResult (c : CourseId) (item : W32) (run rerun : TestRun) (lastOfPass : Bool) (s : State) : Out :=
  let x := s.course c
  match x.tester with
  | none => .next s
  | some p =>
    if !s.image.selfTest || (x.passDone && !s.image.hold) || !s.nextItem c item lastOfPass then .next s
    else
      let s := s.modCourse c fun x => { x with item := item, passItems := x.passItems + 1 }
      let s := s.itemOutcome c p item.toNat (testPasses run) (testPasses rerun)
      .next (if lastOfPass then s.endPass c p else s)

/-! ### The sweep of the shared units (R355, R356) -/

/-- Units of each kind of UNIT_TEST_FAIL. -/
def sweepUnits : Nat → Nat
  | 0 => 4 | 1 => 4 | 2 => 1 | 3 => 12 | 4 => 8 | _ => 0

/-- A full sweep ends. -/
def State.endSweep (s : State) (seconds : W32) : State :=
  ({ s with health :=
      { s.health with sweepS := seconds, sweeps := s.health.sweeps + 1, sweepSinceMark := s.health.sweepSinceMark || s.health.sweepClean
                      sweepClean := true, swept := [] } } : State).settleMark

/-- The sweep has run an item on every shared unit (R355). -/
def State.sweptAll (s : State) : Bool :=
  ([0, 1, 2, 3, 4] : List Nat).all fun k => (List.range (sweepUnits k)).all fun i => s.health.swept.contains (k, i)

/-- SWEEP_ITEM: an item of kind 0x10 has run on a shared unit, again if it failed. A sweep ends, with its duration, once every unit has had
an item. A module that becomes suspect begins its sweep anew. -/
def execSweepItem (kind : Byte) (index : Nat) (item : W32) (pass rerunPass : Bool) (sweepDone : Option W32) (s : State) : Out :=
  if s.power.off || decide (sweepUnits kind.toNat ≤ index) || item.toNat / 2 ^ 24 != 0x10 then .next s
  else
    let s := { s with health := { s.health with swept := (kind.toNat, index) :: s.health.swept.filter (· != (kind.toNat, index)) } }
    let done (s : State) : State := match sweepDone with | some t => if s.sweptAll then s.endSweep t else s | none => s
    let failed (t : Nat) : State := s.raise 0x011B 0 0 [(1, kind.toNat), (1, index), (4, item.toNat), (1, t)]
    if pass then .next (done s)
    else if rerunPass then
      let s := failed 1
      .next (done { s with health := { s.health with sweepClean := false } })
    else .next ((failed 0).suspectModule 1 0 0)

/-- The spacing of comparisons in nanoseconds: 600 s, or 450 s while a loaded course has no tester (Table 16-3, R345). -/
def State.digestSpacing (s : State) : Nat := (if s.sparesShort then 450 else 600) * 10 ^ 9

/-- DIGEST_COMPARISON_OVERDUE: a domain's comparison has not come within its spacing, counted from the last one or the load (R345). -/
def execDigestComparisonOverdue (domain : Fin 4) (s : State) : Out :=
  if decide (s.clock ≤ (tget s.digest domain.val {}).compared + s.digestSpacing) || !s.image.loaded || decide ((s.domain domain).length < 2) || s.health.overdue.contains domain.val then .next s
  else .next ({ s with health := { s.health with overdue := domain.val :: s.health.overdue } } : State).settleGuarantee

end Sys2Proof.Machine
end

