-- ==== Sys2Proof/Machine/Commands.lean ====
section
/-! DEFINITION. The host port and the commands of the Ridge Command Protocol (R294 to R310): frames, sessions, sequence
numbers, the command table, and each command as one row. -/

namespace Sys2Proof.Machine

/-! ### Frames (R294, R295) -/

/-- The port receives the frame: its length and its VLAN identifier are as configured. -/
def State.frameTaken (s : State) (f : EthFrame) : Bool :=
  decide (64 ≤ f.length ∧ f.length ≤ 9216) &&
    (if s.rcp.vlan = 0 then f.vlan.isNone else f.vlan == some s.rcp.vlan)

/-- A dropped frame is counted and has no answer. -/
def State.dropFrame (s : State) : State := { s with rcp := { s.rcp with ethRxDrop := sat32 s.rcp.ethRxDrop 1 } }

/-- A frame that is not for the protocol at hand: unsupported ones are dropped, supported ones belong to another command. -/
def State.supported (s : State) (f : EthFrame) : Bool :=
  match f.kind with
  | .udp => f.dstPort == s.rcp.udpPort.toNat || f.dstPort == 319 || f.dstPort == 320
  | .icmpEcho => true
  | .arpNd => true
  | .tcp => false
  | .fragment => false
  | .other => false

/-- The answer to a frame of some kinds, or its drop. -/
def State.onFrame (s : State) (f : EthFrame) (mine : Bool) (act : State → State) : Out :=
  if !s.ready.hostPort then .next s
  else if !s.frameTaken f then .next s.dropFrame
  else if mine then .next (act s)
  else if s.supported f then .next s
  else .next s.dropFrame

/-- The sender of a frame gets a reply of some kind. -/
def State.answerFrame (s : State) (f : EthFrame) (kind : NetKind) (data : List Byte) : State :=
  ({ s with rcp := { s.rcp with icmpReplies := s.rcp.icmpReplies + 1 } }).sendNet kind f.srcAddr data

/-- An IP address of the module. -/
def State.ownAddress (s : State) (a : BitVec 128) : Bool := a == s.rcp.addr.zeroExtend 128 || s.rcp.addr6 == some a

/-- ARP_ND_REQUEST: a request for an address of the module's is answered with its MAC address. -/
def execArpNdRequest (f : EthFrame) (target : BitVec 128) (s : State) : Out :=
  s.onFrame f (f.kind == .arpNd) fun s =>
    if s.ownAddress target then s.answerFrame f .arpNdReply (leBytes 16 target.toNat ++ leBytes 6 hostMac) else s

/-- ICMP_ECHO: the reply carries what the request carried. -/
def execIcmpEcho (f : EthFrame) (s : State) : Out := s.onFrame f (f.kind == .icmpEcho) fun s => s.answerFrame f .echoReply f.data

/-- The interface identifier of the MAC address, as the standard of autoconfiguration forms it: FF-FE in its middle, and the
universal bit of its first octet inverted. -/
def interfaceId : Nat :=
  let m := leBytes 6 hostMac
  beNat ([m.getD 0 0 ^^^ 2, m.getD 1 0, m.getD 2 0, 0xFF, 0xFE, m.getD 3 0, m.getD 4 0, m.getD 5 0])

/-- What the DHCPv4 client does with a server's message: it asks for the first address offered, and takes it once acknowledged. -/
def State.dhcpAnswer (s : State) (kind : DhcpKind) (a : W32) : State :=
  match kind, s.rcp.dhcp with
  | .offer, .selecting =>
    ({ s with rcp := { s.rcp with dhcp := .requesting a } }).sendNet .dhcpRequest 0xFFFFFFFF (leBytes 6 hostMac ++ leBytes 4 a.toNat)
  | .ack, .requesting b => if a = b then { s with rcp := { s.rcp with addr := a, dhcp := .bound } } else s
  | .nak, .requesting _ => s.dhcpDiscover
  | _, _ => s

/-- DHCP_MESSAGE: a DHCPv4 server's message, for the client of an address that is not static; or a router's advertisement, whose prefix
makes the address of IPv6 autoconfiguration. -/
def execDhcpMessage (f : EthFrame) (kind : DhcpKind) (addr : BitVec 128) (s : State) : Out :=
  if kind = .router then
    s.onFrame f (f.kind == .arpNd) fun s =>
      { s with rcp := { s.rcp with addr6 := some (BitVec.ofNat 128 (addr.toNat / 2 ^ 64 * 2 ^ 64 + interfaceId)) } }
  else s.onFrame f (f.kind == .udp && f.dstPort == 68 && !s.rcp.static) fun s => s.dhcpAnswer kind (addr.setWidth 32)

/-! ### The timebase and its master (R296) -/

/-- The first of two data sets is better: lower at the first place where they differ. -/
def lexLess : List Nat → List Nat → Bool
  | a :: r, b :: q => decide (a < b) || (a == b && lexLess r q)
  | [], _ :: _ => true
  | _, [] => false

namespace State

/-- A master announces itself: the best one heard is followed, and a change of master ends the lock. -/
def ptpAnnounce (s : State) (rank : List Nat) (master : Nat) : State :=
  let m : PtpMaster := { rank := rank, identity := master, heard := s.clock }
  match s.rcp.ptpMaster with
  | none => { s with rcp := { s.rcp with ptpMaster := some m } }
  | some b =>
    if b.identity = master then { s with rcp := { s.rcp with ptpMaster := some m } }
    else if lexLess (rank ++ [master]) (b.rank ++ [b.identity]) then
      { s with rcp := { s.rcp with ptpMaster := some m, ptpLocked := false } }
    else s

/-- An offset from the master is measured: at the first lock the timebase steps to the master's time, after that it slews. The exchange
sends an event message, and a lock raises PTP_LOCK. -/
def ptpSync (s : State) (offset : Int) : State :=
  let first := !s.rcp.everLocked
  let s := if first then { s with timebase := (Int.ofNat s.timebase - offset).toNat } else s
  let locks := !s.rcp.ptpLocked
  let s := { s with rcp := { s.rcp with ptpLocked := true, everLocked := true, ptpOffset := BitVec.ofInt 32 offset
                                        ptpSlew := if first then 0 else offset } }
  let s := match s.rcp.ptpMaster with | some m => s.sendNet .ptpDelayReq m.identity [] | none => s
  if locks then s.raise 0x5 0 0 [] else s

end State

/-- PTP_MESSAGE: one of another domain, or of a master that is not followed, does nothing. -/
def execPtpMessage (f : EthFrame) (m : PtpMsg) (s : State) : Out :=
  s.onFrame f (f.kind == .udp && (f.dstPort == 319 || f.dstPort == 320)) fun s =>
    match m with
    | .announce d rank master => if d = s.rcp.ptpDomain then s.ptpAnnounce rank master else s
    | .sync d master offset =>
      if d = s.rcp.ptpDomain && s.rcp.ptpMaster.any fun b => b.identity == master then s.ptpSync offset else s

/-! ### Opening and resuming sessions (R300, R301, R307) -/

namespace State

/-- A message outside a session's order: it is neither cached nor numbered. -/
def bare (s : State) (src port type : Nat) (st : Status) (ss q : Nat) (payload : List Byte := []) : Reply :=
  { dst := src, port := port, type := BitVec.ofNat 8 type, status := st, session := ss, hostSeq := q, devSeq := s.log.newest,
    payload := payload }

def bareReply (s : State) (src port type : Nat) (st : Status) (ss q : Nat) (payload : List Byte := []) : State :=
  s.send (s.bare src port type st ss q payload)

/-- The id of the next session: nonzero, and no open session's. -/
def newId (s : State) : Nat :=
  let k := (Config.sessionId s.rcp.opened).toNat
  ((List.range 8).map fun i => (k + i) % 2 ^ 32).find? (fun x => x != 0 && (s.session? x).isNone) |>.getD 1

/-- Response bytes of Table 14-4. -/
def openBytes (s : State) (id last : Nat) : List Byte :=
  let prev := s.rcp.prevOwner.getD (0, 0)
  leBytes 4 id ++ leBytes 4 s.job.state.code ++ leBytes 8 last ++ leBytes 8 s.log.newest ++ leBytes 4 prev.1 ++
    leBytes 4 s.log.boot.toNat ++ leBytes 8 prev.2

/-- An owner's OPEN_SESSION must carry a signature over the current challenge and bytes 0 to 31, when the policy demands it. -/
def openSigned (s : State) (p : List Byte) : Bool :=
  s.ownerSigned (sha384 (s.challengeBytes ++ bytesAt p 0 32)) (natAt p 32 48) (natAt p 80 48)

def openForm (p : List Byte) : Bool :=
  p.length == 128 && (bytesAt p 1 7).all (· == 0) && (bytesAt p 20 12).all (· == 0)

/-- 10 s in nanoseconds. -/
def repeatNs : Nat := 10000000000

/-- The response to an OPEN_SESSION, which a repeat within 10 s gets again. -/
def openReply (s : State) (src port q nonce : Nat) (st : Status) (id : Nat) (payload : List Byte) : State :=
  let r := s.bare src port 0x01 st id q payload
  let o : Opening := { src := src, port := port, nonce := nonce, time := s.clock, reply := r }
  { s.send r with rcp := { (s.send r).rcp with openings := o :: s.rcp.openings.filter fun x => decide (s.clock ≤ x.time + repeatNs) } }

/-- The response that a repeat of an OPEN_SESSION gets. -/
def repeated (s : State) (src port nonce : Nat) : Option Reply :=
  (s.rcp.openings.find? fun x => x.src == src && x.port == port && x.nonce == nonce && decide (s.clock ≤ x.time + repeatNs)).map (·.reply)

/-- A new session. -/
def newSession (s : State) (src port q : Nat) (notify owner : Bool) (nonce : Nat) : State :=
  let id := s.newId
  let bytes := s.openBytes id q
  let x : Session := { id := id, owner := owner, src := src, port := port, notify := notify, lastSeq := q, noticed := s.log.newest }
  let s := { s with rcp := { s.rcp with sessions := s.rcp.sessions ++ [x], opened := s.rcp.opened + 1 } }
  s.openReply src port q nonce .ok id bytes

/-- The signature check of an owner's command, which reads the policy; its challenge is used up. -/
def ownerProof (s : State) (owner : Bool) (p : List Byte) : Bool × State :=
  if owner then
    let s := s.vote 3
    if s.sec.policy.getLsbD 1 then (s.openSigned p, s.nextChallenge) else (true, s)
  else (true, s)

def opOpen (s : State) (src port q : Nat) (notify : Bool) (p : List Byte) : State :=
  let role := natAt p 0 1
  let nonce := natAt p 8 8
  let refuse (s : State) (st : Status) : State := s.openReply src port q nonce st 0 []
  if !openForm p then s.bareReply src port 0x01 .malformed 0 q
  else
    match s.repeated src port nonce with
    | some r => s.send r
    | none =>
      let owner := role == 0
      if 1 < role then refuse s .range
      else if (owner && s.owner?.isSome) || (!owner && decide (4 ≤ s.observers)) then refuse s .busy
      else
        match s.ownerProof owner p with
        | (true, s) => s.newSession src port q notify owner nonce
        | (false, s) => refuse s .signature

/-- The resume: the session moves to the source of the command. -/
def opResume (s : State) (src port q : Nat) (notify : Bool) (p : List Byte) : State :=
  let role := natAt p 0 1
  let nonce := natAt p 8 8
  let ss := natAt p 16 4
  let refuse (s : State) (st : Status) : State := s.openReply src port q nonce st 0 []
  if !openForm p then s.bareReply src port 0x01 .malformed 0 q
  else
    match s.repeated src port nonce, s.session? ss with
    | some r, _ => s.send r
    | none, none => refuse s .range
    | none, some x =>
      if 1 < role then refuse s .range
      else if x.owner != (role == 0) then refuse s .privilege
      else
        match s.ownerProof x.owner p with
        | (false, s) => refuse s .signature
        | (true, s) =>
          let s := s.modSession ss fun y => { y with src := src, port := port, notify := notify }
          s.openReply src port q nonce .ok ss (s.openBytes ss x.lastSeq)

end State

def execOpenSession (src port q : Nat) (notify : Bool) (p : List Byte) (s : State) : Out :=
  if s.ready.hostPort then .next (s.opOpen src port q notify p) else .next s

def execSessionResume (src port q : Nat) (notify : Bool) (p : List Byte) (s : State) : Out :=
  if s.ready.hostPort then .next (s.opResume src port q notify p) else .next s

/-! ### Commands without a chapter of their own -/

/-- CLOSE_SESSION: the response, then the close. -/
def opCloseSession (s : State) (ss seq : Nat) : State := (s.reply ss seq 0x02 .ok).endSession ss 0

/-- What STATUS returns: the job state, the power state, RDY_MAP and the current challenge. -/
def statusBytes (s : State) : List Byte :=
  bytesAt ([BitVec.ofNat 8 s.job.state.code, BitVec.ofNat 8 s.powerState] ++ leBytes 6 0 ++ leBytes 8 s.rdyMap ++ s.challengeBytes) 0 48

def opStatus (s : State) (ss seq : Nat) : State := s.reply ss seq 0x03 .ok (statusBytes s)

/-- EVENT_FETCH (R309): device sequences count from 1. -/
def opEventFetch (s : State) (ss seq first count : Nat) : State :=
  if count < 1 ∨ 64 < count then s.refuse ss seq 0x0E .range
  else
    let f := max first 1
    let oldest := match s.log.records.getLast? with | some e => e.seq | none => s.log.newest + 1
    let got := ((s.log.records.filter fun e => decide (f ≤ e.seq)).reverse.take count).flatMap eventBytes
    if f < oldest ∧ f ≤ s.log.newest then s.reply ss seq 0x0E .eventsLost (leBytes 8 (oldest - f) ++ got)
    else s.reply ss seq 0x0E .ok got

/-! ### The table of commands (Table 14-3) -/

/-- The owner alone may send the command. -/
def ownerOnly (type : Nat) : Bool := decide (0x05 ≤ type ∧ type ≤ 0x0C) || decide (0x10 ≤ type ∧ type ≤ 0x15)

/-- Header flags that a type uses, as bits. -/
def usedFlags (type : Nat) : Nat :=
  match type with
  | 0x01 => 0x18
  | 0x04 => 0x02
  | 0x05 => 0x02
  | 0x0C => 0x04
  | _ => 0

def commandType (type : Nat) : Bool := decide (1 ≤ type ∧ type ≤ 0x15)

def words (p : List Byte) (n : Nat) : List Word := (List.range n).map fun i => BitVec.ofNat 64 (natAt p (8 * i) 8)

def zeroFrom (p : List Byte) (i : Nat) : Bool := (p.drop i).all (· == 0)

/-- Addresses of READ_REG after their count. -/
def readAddrs (p : List Byte) : Option (List Word) :=
  let n := natAt p 0 8
  if 1 ≤ n ∧ n ≤ 64 ∧ p.length = 8 + 8 * n then some (words (p.drop 8) n) else none

def writePairs (p : List Byte) : Option (List (Word × Word)) :=
  let n := p.length / 16
  if 1 ≤ n ∧ n ≤ 64 ∧ p.length = 16 * n then
    some ((List.range n).map fun i => (BitVec.ofNat 64 (natAt p (16 * i) 8), BitVec.ofNat 64 (natAt p (16 * i + 8) 8)))
  else none

/-- The payload has one of some lengths, and is zero from a place on. -/
def shaped (p : List Byte) (lengths : List Nat) (from_ : Nat) : Bool := lengths.contains p.length && zeroFrom p from_

/-- Executes a command of a session: its role, its payload's size and layout, then its own rules. -/
def runCommand (s : State) (ss seq type flags : Nat) (p : List Byte) : State :=
  let priv := flags.testBit 1
  let lay (ok : Bool) (act : State) : State := if ok then act else s.refuse ss seq type .malformed
  if (ownerOnly type || (type == 0x04 && priv)) && !s.isOwner ss then s.refuse ss seq type .privilege
  else
    match type with
    | 0x02 => lay p.isEmpty (opCloseSession s ss seq)
    | 0x03 => lay p.isEmpty (opStatus s ss seq)
    | 0x04 => match readAddrs p with | some l => opReadReg s ss seq priv l | none => s.refuse ss seq type .malformed
    | 0x05 => match writePairs p with | some l => opWriteReg s ss seq priv l | none => s.refuse ss seq type .malformed
    | 0x06 => lay (shaped p [16] 8) (opLoadImage s ss seq (natAt p 0 8) none)
    | 0x07 => lay p.isEmpty (opUnloadImage s ss seq)
    | 0x08 => lay p.isEmpty (opStartJob s ss seq)
    | 0x09 => lay p.isEmpty (opPauseJob s ss seq)
    | 0x0A => lay p.isEmpty (opResumeJob s ss seq)
    | 0x0B => lay p.isEmpty (opCancelJob s ss seq)
    | 0x0C => opBulkWrite s ss seq (flags.testBit 2) p
    | 0x0D => opBulkRead s ss seq p
    | 0x0E => lay (shaped p [10, 16] 10) (opEventFetch s ss seq (natAt p 0 8) (natAt p 8 2))
    | 0x0F => opAttest s ss seq p
    | 0x10 => lay (shaped p [32] 17) (opFwStage s ss seq (natAt p 0 8) (natAt p 8 8) (natAt p 16 1))
    | 0x11 => lay (shaped p [8] 1) (opFwCommit s ss seq (natAt p 0 1))
    | 0x12 =>
      lay (p.length == 112 && (bytesAt p 1 15).all (· == 0))
        (opLcChange s ss seq (natAt p 0 1) (natAt p 16 48) (natAt p 64 48))
    | 0x13 => lay (shaped p [8] 1) (opSecureWipe s ss seq (natAt p 0 1))
    | 0x14 => lay (shaped p [8] 3) (opBypassSet s ss seq (natAt p 0 1) (natAt p 1 1) (natAt p 2 1))
    | 0x15 => lay (shaped p [4, 8] 4 && natAt p 1 1 == 0) (opReset s ss seq (natAt p 0 1) (natAt p 2 2))
    | _ => s

/-! ### Sequence numbers (R303, R304) -/

namespace State

/-- The command leaves the order: it is the last executed one of its session, and the one that now executes. -/
def advance (s : State) (ss seq : Nat) : State :=
  let s := s.modSession ss fun x => { x with lastSeq := seq, holdQ := x.holdQ.filter fun h => h.1 != seq }
  { s with rcp := { s.rcp with hostSeq := seq } }

/-- Executes the datagram that is next in its session. -/
def runNext (s : State) (ss seq : Nat) (d : List Byte) : State :=
  runCommand (s.advance ss seq) ss seq (natAt d 3 1) (natAt d 4 2) (bytesAt d 32 (natAt d 12 4))

/-- Held commands whose turn has come execute in turn. -/
def drainHeld : Nat → State → Nat → State
  | 0, s, _ => s
  | n + 1, s, ss =>
    match s.session? ss with
    | none => s
    | some x =>
      match x.holdQ.find? fun h => h.1 == x.lastSeq + 1 with
      | some h => drainHeld n (s.runNext ss h.1 h.2) ss
      | none => s

/-- Commands that a session may hold. -/
def holdLimit : Nat := 1024

/-- The command has executed but its response is still to come. -/
def awaits (s : State) (x : Session) (q : Nat) : Bool :=
  (match s.rcp.long with | some k => k.session == x.id && k.hostSeq == q | none => false) || x.run.contains q ||
    (s.resets.any fun r => r.session == x.id && r.hostSeq == q) ||
    (s.held.any fun h => match h.op with | .cmd t y _ => t == x.id && y == q | _ => false) ||
    (s.fabric.closing.any fun k => k.2.1 == x.id && k.2.2.1 == q) ||
    (s.courses.any fun c => match c.2.migration with | some m => m.reset == some (x.id, q) | none => false)

/-- A datagram of an open session, by its sequence number. -/
def ordered (s : State) (x : Session) (q : Nat) (d : List Byte) : State :=
  let type := natAt d 3 1
  let bare (st : Status) : State := s.bareReply x.src x.port type st x.id q
  if q = x.lastSeq + 1 then (s.runNext x.id q d).drainHeld holdLimit x.id
  else if x.lastSeq + holdLimit < q then bare .busy
  else if x.lastSeq < q then
    if x.holdQ.any fun h => h.1 == q then s else s.modSession x.id fun y => { y with holdQ := y.holdQ ++ [(q, d)] }
  else
    match x.cache.find? fun c => c.1 == q && decide (x.lastSeq < q + 256) with
    | some c => s.send { c.2 with dst := x.src, port := x.port }
    | none => if s.awaits x q then s else bare .duplicate

/-- Checks 3 to 5 of R298 on a datagram with a good CRC. -/
def onMessage (s : State) (src port : Nat) (d : List Byte) : State :=
  let type := natAt d 3 1
  let flags := natAt d 4 2
  let ss := natAt d 8 4
  let q := natAt d 16 8
  let bare (st : Status) : State := s.bareReply src port type st ss q
  if natAt d 12 4 + 36 ≠ d.length ∨ natAt d 6 2 ≠ 0 ∨ flags &&& usedFlags type ≠ flags ∨ commandType type = false then bare .malformed
  else
    let p := bytesAt d 32 (natAt d 12 4)
    if type = 0x01 then
      if flags.testBit 3 then s.opResume src port q (flags.testBit 4) p else s.opOpen src port q (flags.testBit 4) p
    else if type = 0x03 ∧ ss = 0 then
      if p.isEmpty then s.bareReply src port 0x03 .ok 0 q (statusBytes s) else bare .malformed
    else
      match s.session? ss with
      | none => bare .malformed
      | some x => if x.src = src ∧ x.port = port then s.ordered x q d else bare .malformed

/-- A UDP datagram at the RCP port: checks 1 and 2 of R298. -/
def onDatagram (s : State) (src port : Nat) (d : List Byte) : State :=
  if d.length < 36 ∨ natAt d 0 2 ≠ 0x4B4E ∨ natAt d 2 1 ≠ 1 then { s with rcp := { s.rcp with discard := sat32 s.rcp.discard 1 } }
  else if (crc32c (bytesAt d 32 (d.length - 36))).toNat ≠ natAt d (d.length - 4) 4 then
    { s with rcp := { s.rcp with crcErr := sat32 s.rcp.crcErr 1 } }
  else s.onMessage src port d

end State

/-- RCP_MESSAGE: a frame reaches the port. -/
def execRcpMessage (f : EthFrame) (s : State) : Out :=
  s.onFrame f (f.kind == .udp && f.dstPort == s.rcp.udpPort.toNat) fun s => s.onDatagram f.srcAddr f.srcPort f.data

/-! ### Timers of sessions -/

/-- REORDER_TIMEOUT: the gap below a held command has stayed open for 100 ms. -/
def execReorderTimeout (ss q : Nat) (s : State) : Out :=
  match s.session? ss with
  | none => .next s
  | some x =>
    if x.holdQ.any fun h => h.1 == q then
      let s := s.modSession ss fun y => { y with holdQ := y.holdQ.filter fun h => h.1 != q }
      .next { s with rcp := { s.rcp with reorderDrop := sat32 s.rcp.reorderDrop 1 } }
    else .next s

/-- SESSION_IDLE: no message has come for idle_s seconds. -/
def execSessionIdle (ss : Nat) (s : State) : Out := .next (s.endSession ss 1)

/-- CHALLENGE_ROLLOVER: 60 s have passed. -/
def execChallengeRollover (s : State) : Out := .next s.nextChallenge

/-- EVENT_NOTICE: a notify session learns that events have come since its last notice. -/
def execEventNotice (ss : Nat) (s : State) : Out :=
  match s.session? ss with
  | none => .next s
  | some x =>
    if x.notify && decide (x.noticed < s.log.newest) then
      let s := s.bareReply x.src x.port 0x40 .ok ss 0
      .next (s.modSession ss fun y => { y with noticed := s.log.newest })
    else .next s

/-! ### Each command as the next one of an open session -/

/-- The command takes its session's next sequence number; held commands that it frees follow. -/
def State.runRow (s : State) (ss : Nat) (f : State → Nat → State) : Out :=
  match s.session? ss with
  | none => .next s
  | some x =>
    let seq := x.lastSeq + 1
    .next ((f (s.advance ss seq) seq).drainHeld State.holdLimit ss)

def execCloseSession (ss : Nat) (s : State) : Out := s.runRow ss fun s seq => opCloseSession s ss seq

/-- STATUS: sessionless with session 0, as an answer to no one's sequence. -/
def execStatusCmd (ss : Nat) (s : State) : Out :=
  if ss = 0 then (if s.ready.hostPort then .next (s.bareReply 0 0 0x03 .ok 0 0 (statusBytes s)) else .next s)
  else s.runRow ss fun s seq => opStatus s ss seq

def execReadReg (ss : Nat) (priv : Bool) (addrs : List Word) (s : State) : Out :=
  s.runRow ss fun s seq => opReadReg s ss seq priv addrs

def execWriteReg (ss : Nat) (priv : Bool) (pairs : List (Word × Word)) (s : State) : Out :=
  s.runRow ss fun s seq => opWriteReg s ss seq priv pairs

def execLoadImage (ss : Nat) (staging : Word) (img : ImageBodies) (s : State) : Out :=
  s.runRow ss fun s seq => opLoadImage s ss seq staging.toNat (some img)

def execUnloadImage (ss : Nat) (s : State) : Out := s.runRow ss fun s seq => opUnloadImage s ss seq
def execStartJob (ss : Nat) (s : State) : Out := s.runRow ss fun s seq => opStartJob s ss seq
def execPauseJob (ss : Nat) (s : State) : Out := s.runRow ss fun s seq => opPauseJob s ss seq
def execResumeJob (ss : Nat) (s : State) : Out := s.runRow ss fun s seq => opResumeJob s ss seq
def execCancelJob (ss : Nat) (s : State) : Out := s.runRow ss fun s seq => opCancelJob s ss seq

def execBulkWrite (ss : Nat) (coalesce : Bool) (payload : List Byte) (s : State) : Out :=
  s.runRow ss fun s seq => opBulkWrite s ss seq coalesce payload

def execBulkRead (ss : Nat) (payload : List Byte) (s : State) : Out := s.runRow ss fun s seq => opBulkRead s ss seq payload

def execEventFetch (ss : Nat) (first : Word) (count : BitVec 16) (s : State) : Out :=
  s.runRow ss fun s seq => opEventFetch s ss seq first.toNat count.toNat

def execAttest (ss : Nat) (payload : List Byte) (s : State) : Out := s.runRow ss fun s seq => opAttest s ss seq payload

def execFwStage (ss : Nat) (staging length : Word) (kind : Byte) (s : State) : Out :=
  s.runRow ss fun s seq => opFwStage s ss seq staging.toNat length.toNat kind.toNat

def execFwCommit (ss : Nat) (kind : Byte) (s : State) : Out := s.runRow ss fun s seq => opFwCommit s ss seq kind.toNat

def execLcChange (ss : Nat) (target : Byte) (r g : Nat) (s : State) : Out :=
  s.runRow ss fun s seq => opLcChange s ss seq target.toNat r g

def execSecureWipe (ss : Nat) (scope : Byte) (s : State) : Out := s.runRow ss fun s seq => opSecureWipe s ss seq scope.toNat
def execSecureWipeFull (ss : Nat) (s : State) : Out := s.runRow ss fun s seq => opSecureWipe s ss seq 1

def execBypassOpen (ss : Nat) (pair force : Byte) (s : State) : Out :=
  s.runRow ss fun s seq => opBypassSet s ss seq pair.toNat 0 force.toNat

def execBypassClose (ss : Nat) (pair force : Byte) (s : State) : Out :=
  s.runRow ss fun s seq => opBypassSet s ss seq pair.toNat 1 force.toNat

def execModuleWarmReset (ss : Nat) (s : State) : Out := s.runRow ss fun s seq => opReset s ss seq 0 0
def execCourseReset (ss : Nat) (target : BitVec 16) (s : State) : Out := s.runRow ss fun s seq => opReset s ss seq 1 target.toNat
def execCoreReset (ss : Nat) (target : BitVec 16) (s : State) : Out := s.runRow ss fun s seq => opReset s ss seq 2 target.toNat

/-! ### Writes of registers with a behaviour of their own: each is a WRITE_REG of one pair -/

/-- A write of one register; an address that is not of the command's kind makes it no such command. -/
def State.regRow (s : State) (ss : Nat) (priv : Bool) (mine : Bool) (a : Nat) (v : Word) : Out :=
  if mine then s.runRow ss fun s seq => opWriteReg s ss seq priv [(BitVec.ofNat 64 a, v)] else .next s

def isBankPower : Option WReg → Bool
  | some (.bankPower _) => true
  | some (.ulPower _ _) => true
  | _ => false

def isRegion : Option WReg → Bool
  | some (.regionBase _ _) => true
  | some (.regionLimit _ _) => true
  | _ => false

def isFlip : Option WReg → Bool
  | some (.spadFlip _) => true
  | some (.ulFlip _) => true
  | some (.hbmFlip _) => true
  | _ => false

def execBankPower (ss : Nat) (priv : Bool) (addr value : Word) (s : State) : Out :=
  s.regRow ss priv (isBankPower (writable addr.toNat)) addr.toNat value

def execRegionWrite (ss : Nat) (priv : Bool) (addr value : Word) (s : State) : Out :=
  s.regRow ss priv (isRegion (writable addr.toNat)) addr.toNat value

def execFlipArm (ss : Nat) (priv : Bool) (addr value : Word) (s : State) : Out :=
  s.regRow ss priv (isFlip (writable addr.toNat)) addr.toNat value

def execRngKeyStreamWrite (ss : Nat) (priv : Bool) (key : Fin 8) (value : Word) (s : State) : Out :=
  s.regRow ss priv true (0x208 + 16 * key.val) value

def execReshardStart (ss : Nat) (priv : Bool) (value : Word) (s : State) : Out :=
  s.regRow ss priv (value.getLsbD 63) 0x680010 value

def execTelemetryControl (ss : Nat) (priv : Bool) (value : Word) (s : State) : Out := s.regRow ss priv true 0x400018 value
def execSpillControl (ss : Nat) (priv : Bool) (value : Word) (s : State) : Out := s.regRow ss priv true 0x400018 value

def execRidgeCqConfig (ss : Nat) (priv : Bool) (ch : Fin 3) (value : Word) (s : State) : Out :=
  s.regRow ss priv true (0x400020 + 16 * ch.val) value

def execRidgeCqRelease (ss : Nat) (priv : Bool) (ch : Fin 3) (value : Word) (s : State) : Out :=
  s.regRow ss priv true (0x400028 + 16 * ch.val) value

def execStandbyEnter (ss : Nat) (priv : Bool) (value : Word) (s : State) : Out :=
  s.regRow ss priv (value.getLsbD 0) 0x300010 value

def execStandbyExit (ss : Nat) (priv : Bool) (value : Word) (s : State) : Out :=
  s.regRow ss priv (!value.getLsbD 0) 0x300010 value

def execOwnerKeyInstall (ss : Nat) (priv : Bool) (slot : Fin 4) (s : State) : Out :=
  s.regRow ss priv true 0x200010 (BitVec.ofNat 64 (slot.val + 4))

def execOwnerKeyRevoke (ss : Nat) (priv : Bool) (slot : Fin 4) (s : State) : Out :=
  s.regRow ss priv true 0x200010 (BitVec.ofNat 64 (slot.val + 8))

def execOwnerPolicyWrite (ss : Nat) (priv : Bool) (value : Word) (s : State) : Out := s.regRow ss priv true 0x200008 value

def execDebugUnlock (ss : Nat) (priv : Bool) (value : Word) (s : State) : Out :=
  s.regRow ss priv (value.getLsbD 0) 0x200090 value

def execSecureBankAccess (ss : Nat) (priv : Bool) (word : Fin 8) (value : Word) (s : State) : Out :=
  s.regRow ss priv true (0x2000A0 + 8 * word.val) value

end Sys2Proof.Machine
end

