-- ==== Sys2Proof/Machine/Completion.lean ====
section
/-! DEFINITION. The completion of an instruction of the vector or Valley engine, and the arrival of an engine
instruction's last write (R26). A VE.OPT may return a credit to a landing ring, so that a collective engine goes on (R206). -/

namespace Sys2Proof.Machine

/-- The vector engine finishes the instruction at the head of its queue: what it writes, then its signal. -/
def State.veComplete (s : State) (n : Nat) : State :=
  match (s.core n).ve with
  | [] => s
  | o :: _ =>
    s.runWork n 3 o (veRun n o) fun s =>
      (s.modCore n fun c => { c with ve := c.ve.tail }).completeSignal n .ve o.sig (if opCode o.w = 0xA5 then none else some o.dst)

/-- ENGINE_COMPLETION: DA, GME and DMA instructions complete by the events of their own chapters. -/
def execEngineCompletion (c : CoreId) (e : EngKind) (m : Moment) (s : State) : Out :=
  match m, e with
  | .arrival, _ => .next (s.deliverArrival c e)
  | .completion, .ve => .next (s.veComplete c).landAll
  | .completion, .val => .next (s.valComplete c)
  | .completion, .da => .next s
  | .completion, .gme => .next s
  | .completion, .dma => .next s

end Sys2Proof.Machine
end

