-- ==== Sys2Proof/Machine/Dispatch.lean ====
section
/-! DEFINITION. Dispatch: each command's effect on everything but the queue, one arm per row of the table. -/

namespace Sys2Proof.Machine

def exec (i : Instr) (s : State) : Host.Outcome State Fault Refusal :=
  match i with
  | .add c t w => Sys2Proof.Machine.execAdd c t w s
  | .sub c t w => Sys2Proof.Machine.execSub c t w s
  | .mul c t w => Sys2Proof.Machine.execMul c t w s
  | .divu c t w => Sys2Proof.Machine.execDivu c t w s
  | .remu c t w => Sys2Proof.Machine.execRemu c t w s
  | .andOp c t w => Sys2Proof.Machine.execAndOp c t w s
  | .orOp c t w => Sys2Proof.Machine.execOrOp c t w s
  | .xorOp c t w => Sys2Proof.Machine.execXorOp c t w s
  | .shl c t w => Sys2Proof.Machine.execShl c t w s
  | .shr c t w => Sys2Proof.Machine.execShr c t w s
  | .sar c t w => Sys2Proof.Machine.execSar c t w s
  | .minu c t w => Sys2Proof.Machine.execMinu c t w s
  | .maxu c t w => Sys2Proof.Machine.execMaxu c t w s
  | .addi c t w => Sys2Proof.Machine.execAddi c t w s
  | .andi c t w => Sys2Proof.Machine.execAndi c t w s
  | .shli c t w => Sys2Proof.Machine.execShli c t w s
  | .shri c t w => Sys2Proof.Machine.execShri c t w s
  | .ldi c t w => Sys2Proof.Machine.execLdi c t w s
  | .ldih c t w => Sys2Proof.Machine.execLdih c t w s
  | .loopidx c t w => Sys2Proof.Machine.execLoopidx c t w s
  | .rdid c t w => Sys2Proof.Machine.execRdid c t w s
  | .ldl c t w => Sys2Proof.Machine.execLdl c t w s
  | .stl c t w => Sys2Proof.Machine.execStl c t w s
  | .loop c t w => Sys2Proof.Machine.execLoop c t w s
  | .endloop c t w => Sys2Proof.Machine.execEndloop c t w s
  | .call c t w => Sys2Proof.Machine.execCall c t w s
  | .ret c t w => Sys2Proof.Machine.execRet c t w s
  | .jmp c t w => Sys2Proof.Machine.execJmp c t w s
  | .ldd c t w => Sys2Proof.Machine.execLdd c t w s
  | .movd c t w => Sys2Proof.Machine.execMovd c t w s
  | .dbase c t w => Sys2Proof.Machine.execDbase c t w s
  | .dsize c t w => Sys2Proof.Machine.execDsize c t w s
  | .dclr c t w => Sys2Proof.Machine.execDclr c t w s
  | .daFill c t w => Sys2Proof.Machine.execDaFill c t w s
  | .daFillt c t w => Sys2Proof.Machine.execDaFillt c t w s
  | .daSwap c t w => Sys2Proof.Machine.execDaSwap c t w s
  | .daMm c t w => Sys2Proof.Machine.execDaMm c t w s
  | .daMmnm c t w => Sys2Proof.Machine.execDaMmnm c t w s
  | .daDrain c t w => Sys2Proof.Machine.execDaDrain c t w s
  | .daClear c t w => Sys2Proof.Machine.execDaClear c t w s
  | .daInstructionBegin c => Sys2Proof.Machine.execDaInstructionBegin c s
  | .daInstructionComplete c u => Sys2Proof.Machine.execDaInstructionComplete c u s
  | .gmeSpmm c t w => Sys2Proof.Machine.execGmeSpmm c t w s
  | .gmeSddmm c t w => Sys2Proof.Machine.execGmeSddmm c t w s
  | .gmeGather c t w => Sys2Proof.Machine.execGmeGather c t w s
  | .gmeScatteradd c t w => Sys2Proof.Machine.execGmeScatteradd c t w s
  | .gmeSegsum c t w => Sys2Proof.Machine.execGmeSegsum c t w s
  | .gmeSort c t w => Sys2Proof.Machine.execGmeSort c t w s
  | .gmeSelect c t w => Sys2Proof.Machine.execGmeSelect c t w s
  | .gmeMerge c t w => Sys2Proof.Machine.execGmeMerge c t w s
  | .gmePack c t w => Sys2Proof.Machine.execGmePack c t w s
  | .gmeUnpack c t w => Sys2Proof.Machine.execGmeUnpack c t w s
  | .gmeTranspose c t w => Sys2Proof.Machine.execGmeTranspose c t w s
  | .gmeInstructionBegin c => Sys2Proof.Machine.execGmeInstructionBegin c s
  | .yealmBegin c lane => Sys2Proof.Machine.execYealmBegin c lane s
  | .yealmSteal c lane => Sys2Proof.Machine.execYealmSteal c lane s
  | .mergeFold c row => Sys2Proof.Machine.execMergeFold c row s
  | .gmeInstructionComplete c => Sys2Proof.Machine.execGmeInstructionComplete c s
  | .veAdd c t w => Sys2Proof.Machine.execVeAdd c t w s
  | .veSub c t w => Sys2Proof.Machine.execVeSub c t w s
  | .veMul c t w => Sys2Proof.Machine.execVeMul c t w s
  | .veMax c t w => Sys2Proof.Machine.execVeMax c t w s
  | .veMin c t w => Sys2Proof.Machine.execVeMin c t w s
  | .veFma c t w => Sys2Proof.Machine.execVeFma c t w s
  | .veAbs c t w => Sys2Proof.Machine.execVeAbs c t w s
  | .veNeg c t w => Sys2Proof.Machine.execVeNeg c t w s
  | .veScale c t w => Sys2Proof.Machine.execVeScale c t w s
  | .veCopy c t w => Sys2Proof.Machine.execVeCopy c t w s
  | .veFill c t w => Sys2Proof.Machine.execVeFill c t w s
  | .veBlend c t w => Sys2Proof.Machine.execVeBlend c t w s
  | .veRsum c t w => Sys2Proof.Machine.execVeRsum c t w s
  | .veRmax c t w => Sys2Proof.Machine.execVeRmax c t w s
  | .veRmin c t w => Sys2Proof.Machine.execVeRmin c t w s
  | .veRsumsq c t w => Sys2Proof.Machine.execVeRsumsq c t w s
  | .veSmstat c t w => Sys2Proof.Machine.execVeSmstat c t w s
  | .veSmnorm c t w => Sys2Proof.Machine.execVeSmnorm c t w s
  | .veSmbwd c t w => Sys2Proof.Machine.execVeSmbwd c t w s
  | .veFunc c t w => Sys2Proof.Machine.execVeFunc c t w s
  | .veDfunc c t w => Sys2Proof.Machine.execVeDfunc c t w s
  | .veConvert c t w => Sys2Proof.Machine.execVeConvert c t w s
  | .veOpt c t w => Sys2Proof.Machine.execVeOpt c t w s
  | .veOptCommit c t w => Sys2Proof.Machine.execVeOptCommit c t w s
  | .veDigest c t w => Sys2Proof.Machine.execVeDigest c t w s
  | .veRng c t w => Sys2Proof.Machine.execVeRng c t w s
  | .engineCompletion c e m => Sys2Proof.Machine.execEngineCompletion c e m s
  | .dmaStart c t w => Sys2Proof.Machine.execDmaStart c t w s
  | .dmaStop c t w => Sys2Proof.Machine.execDmaStop c t w s
  | .dmaQueueAdmit c => Sys2Proof.Machine.execDmaQueueAdmit c s
  | .transferBegin c ch => Sys2Proof.Machine.execTransferBegin c ch s
  | .completionRecord c ch => Sys2Proof.Machine.execCompletionRecord c ch s
  | .stoppedRecord c ch => Sys2Proof.Machine.execStoppedRecord c ch s
  | .valDispatch c t w => Sys2Proof.Machine.execValDispatch c t w s
  | .valCombine c t w => Sys2Proof.Machine.execValCombine c t w s
  | .combineBegin c => Sys2Proof.Machine.execCombineBegin c s
  | .valReturn c t w => Sys2Proof.Machine.execValReturn c t w s
  | .valCancel c t w => Sys2Proof.Machine.execValCancel c t w s
  | .nop c t w => Sys2Proof.Machine.execNop c t w s
  | .waitOp c t w => Sys2Proof.Machine.execWaitOp c t w s
  | .signal c t w => Sys2Proof.Machine.execSignal c t w s
  | .barrier c t w => Sys2Proof.Machine.execBarrier c t w s
  | .testwin c t w => Sys2Proof.Machine.execTestwin c t w s
  | .codeswap c t w => Sys2Proof.Machine.execCodeswap c t w s
  | .haltOp c t w => Sys2Proof.Machine.execHaltOp c t w s
  | .flagrd c t w => Sys2Proof.Machine.execFlagrd c t w s
  | .haltDrainComplete c => Sys2Proof.Machine.execHaltDrainComplete c s
  | .drainTimeout c => Sys2Proof.Machine.execDrainTimeout c s
  | .icacheFill c t prefetch cached => Sys2Proof.Machine.execIcacheFill c t prefetch cached s
  | .waitTimeout c t => Sys2Proof.Machine.execWaitTimeout c t s
  | .gateClose c => Sys2Proof.Machine.execGateClose c s
  | .barrierArrival k => Sys2Proof.Machine.execBarrierArrival k s
  | .barrierArrive f gen src => Sys2Proof.Machine.execBarrierArrive f gen src s
  | .barrierRelease f gen => Sys2Proof.Machine.execBarrierRelease f gen s
  | .increment src => Sys2Proof.Machine.execIncrement src s
  | .writeFrame p f => Sys2Proof.Machine.execWriteFrame p f s
  | .writeAcked p f => Sys2Proof.Machine.execWriteAcked p f s
  | .writeAck p f => Sys2Proof.Machine.execWriteAck p f s
  | .readReq p f => Sys2Proof.Machine.execReadReq p f s
  | .readResp p f => Sys2Proof.Machine.execReadResp p f s
  | .refused p f => Sys2Proof.Machine.execRefused p f s
  | .destAbsent p f => Sys2Proof.Machine.execDestAbsent p f s
  | .e2eTimeout p master tag => Sys2Proof.Machine.execE2eTimeout p master tag s
  | .linkFrameReceive p f crc => Sys2Proof.Machine.execLinkFrameReceive p f crc s
  | .linkCtrl p f => Sys2Proof.Machine.execLinkCtrl p f s
  | .linkNack p f => Sys2Proof.Machine.execLinkNack p f s
  | .linkAckDue p => Sys2Proof.Machine.execLinkAckDue p s
  | .linkResendTimeout p => Sys2Proof.Machine.execLinkResendTimeout p s
  | .portTrained p neighbour => Sys2Proof.Machine.execPortTrained p neighbour s
  | .portSignalLoss l => Sys2Proof.Machine.execPortSignalLoss l s
  | .laneFailure p e => Sys2Proof.Machine.execLaneFailure p e s
  | .laneRecalibration p lane => Sys2Proof.Machine.execLaneRecalibration p lane s
  | .recalDeferExpiry p atLeast1ms => Sys2Proof.Machine.execRecalDeferExpiry p atLeast1ms s
  | .laneRecalEnd p lane => Sys2Proof.Machine.execLaneRecalEnd p lane s
  | .bypassOpen ss pair force => Sys2Proof.Machine.execBypassOpen ss pair force s
  | .bypassClose ss pair force => Sys2Proof.Machine.execBypassClose ss pair force s
  | .bypassDrainComplete pair => Sys2Proof.Machine.execBypassDrainComplete pair s
  | .valleyRow c row => Sys2Proof.Machine.execValleyRow c row s
  | .countHeader c h => Sys2Proof.Machine.execCountHeader c h s
  | .completionNotice c layer tag backward => Sys2Proof.Machine.execCompletionNotice c layer tag backward s
  | .valleyCancel c block epoch => Sys2Proof.Machine.execValleyCancel c block epoch s
  | .returnRow c row => Sys2Proof.Machine.execReturnRow c row s
  | .returnCount c h fromModule fromCourse => Sys2Proof.Machine.execReturnCount c h fromModule fromCourse s
  | .collEntryBegin sl => Sys2Proof.Machine.execCollEntryBegin sl s
  | .collEntryComplete sl => Sys2Proof.Machine.execCollEntryComplete sl s
  | .collData sl entry chunk fromRank elems => Sys2Proof.Machine.execCollData sl entry chunk fromRank elems s
  | .collCredit sl entry freed => Sys2Proof.Machine.execCollCredit sl entry freed s
  | .collAbort sl entry chunk cause => Sys2Proof.Machine.execCollAbort sl entry chunk cause s
  | .lendWindowEnd sl => Sys2Proof.Machine.execLendWindowEnd sl s
  | .reshardStart ss priv value => Sys2Proof.Machine.execReshardStart ss priv value s
  | .reshardVote rank digest status => Sys2Proof.Machine.execReshardVote rank digest status s
  | .reshardCopyComplete buffer cause => Sys2Proof.Machine.execReshardCopyComplete buffer cause s
  | .stepAdvance c => Sys2Proof.Machine.execStepAdvance c s
  | .digestClose => Sys2Proof.Machine.execDigestClose s
  | .digestRecord r => Sys2Proof.Machine.execDigestRecord r s
  | .scrubRead u bank cached forced => Sys2Proof.Machine.execScrubRead u bank cached forced s
  | .scrubWriteBack u line => Sys2Proof.Machine.execScrubWriteBack u line s
  | .bankWake b => Sys2Proof.Machine.execBankWake b s
  | .bankOffAccess b master => Sys2Proof.Machine.execBankOffAccess b master s
  | .bankPower ss priv addr value => Sys2Proof.Machine.execBankPower ss priv addr value s
  | .regionWrite ss priv addr value => Sys2Proof.Machine.execRegionWrite ss priv addr value s
  | .flipArm ss priv addr value => Sys2Proof.Machine.execFlipArm ss priv addr value s
  | .rngKeyStreamWrite ss priv key value => Sys2Proof.Machine.execRngKeyStreamWrite ss priv key value s
  | .rcpMessage f => Sys2Proof.Machine.execRcpMessage f s
  | .arpNdRequest f target => Sys2Proof.Machine.execArpNdRequest f target s
  | .icmpEcho f => Sys2Proof.Machine.execIcmpEcho f s
  | .dhcpMessage f kind addr => Sys2Proof.Machine.execDhcpMessage f kind addr s
  | .ptpMessage f m => Sys2Proof.Machine.execPtpMessage f m s
  | .openSession src port hostSeq notify payload => Sys2Proof.Machine.execOpenSession src port hostSeq notify payload s
  | .sessionResume src port hostSeq notify payload => Sys2Proof.Machine.execSessionResume src port hostSeq notify payload s
  | .closeSession ss => Sys2Proof.Machine.execCloseSession ss s
  | .statusCmd ss => Sys2Proof.Machine.execStatusCmd ss s
  | .readReg ss priv addrs => Sys2Proof.Machine.execReadReg ss priv addrs s
  | .writeReg ss priv pairs => Sys2Proof.Machine.execWriteReg ss priv pairs s
  | .loadImage ss staging img => Sys2Proof.Machine.execLoadImage ss staging img s
  | .unloadImage ss => Sys2Proof.Machine.execUnloadImage ss s
  | .startJob ss => Sys2Proof.Machine.execStartJob ss s
  | .pauseJob ss => Sys2Proof.Machine.execPauseJob ss s
  | .jobPaused => Sys2Proof.Machine.execJobPaused s
  | .resumeJob ss => Sys2Proof.Machine.execResumeJob ss s
  | .cancelJob ss => Sys2Proof.Machine.execCancelJob ss s
  | .jobDrainComplete => Sys2Proof.Machine.execJobDrainComplete s
  | .bulkWrite ss coalesce payload => Sys2Proof.Machine.execBulkWrite ss coalesce payload s
  | .bulkRead ss payload => Sys2Proof.Machine.execBulkRead ss payload s
  | .eventFetch ss first count => Sys2Proof.Machine.execEventFetch ss first count s
  | .eventNotice ss => Sys2Proof.Machine.execEventNotice ss s
  | .coalescedResponse ss => Sys2Proof.Machine.execCoalescedResponse ss s
  | .reorderTimeout ss hostSeq => Sys2Proof.Machine.execReorderTimeout ss hostSeq s
  | .sessionIdle ss => Sys2Proof.Machine.execSessionIdle ss s
  | .challengeRollover => Sys2Proof.Machine.execChallengeRollover s
  | .longCommandComplete => Sys2Proof.Machine.execLongCommandComplete s
  | .attest ss payload => Sys2Proof.Machine.execAttest ss payload s
  | .fwStage ss staging length kind => Sys2Proof.Machine.execFwStage ss staging length kind s
  | .fwCommit ss kind => Sys2Proof.Machine.execFwCommit ss kind s
  | .lcChange ss target r g => Sys2Proof.Machine.execLcChange ss target r g s
  | .secureWipe ss scope => Sys2Proof.Machine.execSecureWipe ss scope s
  | .secureWipeFull ss => Sys2Proof.Machine.execSecureWipeFull ss s
  | .moduleWarmReset ss => Sys2Proof.Machine.execModuleWarmReset ss s
  | .courseReset ss target => Sys2Proof.Machine.execCourseReset ss target s
  | .coreReset ss target => Sys2Proof.Machine.execCoreReset ss target s
  | .resetComplete u testPassed => Sys2Proof.Machine.execResetComplete u testPassed s
  | .telemetryControl ss priv value => Sys2Proof.Machine.execTelemetryControl ss priv value s
  | .spillControl ss priv value => Sys2Proof.Machine.execSpillControl ss priv value s
  | .ridgeCqConfig ss priv ch value => Sys2Proof.Machine.execRidgeCqConfig ss priv ch value s
  | .ridgeCqRelease ss priv ch value => Sys2Proof.Machine.execRidgeCqRelease ss priv ch value s
  | .telemetrySnapshot begun => Sys2Proof.Machine.execTelemetrySnapshot begun s
  | .eventSpill quiet => Sys2Proof.Machine.execEventSpill quiet s
  | .powerOn input failed tamperOpen => Sys2Proof.Machine.execPowerOn input failed tamperOpen s
  | .bringupFunctionDone f test => Sys2Proof.Machine.execBringupFunctionDone f test s
  | .bringupDeadline => Sys2Proof.Machine.execBringupDeadline s
  | .supplyWarn mv => Sys2Proof.Machine.execSupplyWarn mv s
  | .supplyRecovered mv => Sys2Proof.Machine.execSupplyRecovered mv s
  | .undervoltage mv => Sys2Proof.Machine.execUndervoltage mv s
  | .overvoltage mv => Sys2Proof.Machine.execOvervoltage mv s
  | .pdBreak => Sys2Proof.Machine.execPdBreak s
  | .thermalTrip sl tj => Sys2Proof.Machine.execThermalTrip sl tj s
  | .coolantWarn inlet outlet flow => Sys2Proof.Machine.execCoolantWarn inlet outlet flow s
  | .slopeHot sl tj stack => Sys2Proof.Machine.execSlopeHot sl tj stack s
  | .slopeCool sl tj stack => Sys2Proof.Machine.execSlopeCool sl tj stack s
  | .governorPeriod watts slopeWatts => Sys2Proof.Machine.execGovernorPeriod watts slopeWatts s
  | .clamp watts => Sys2Proof.Machine.execClamp watts s
  | .standbyEnter ss priv value => Sys2Proof.Machine.execStandbyEnter ss priv value s
  | .standbyExit ss priv value => Sys2Proof.Machine.execStandbyExit ss priv value s
  | .ridgeWatchdogExpiry ageMs => Sys2Proof.Machine.execRidgeWatchdogExpiry ageMs s
  | .testWindowOpen c => Sys2Proof.Machine.execTestWindowOpen c s
  | .testWindowAbandon c => Sys2Proof.Machine.execTestWindowAbandon c s
  | .migrationSwitch c => Sys2Proof.Machine.execMigrationSwitch c s
  | .testItemResult c item run rerun lastOfPass => Sys2Proof.Machine.execTestItemResult c item run rerun lastOfPass s
  | .sweepItem kind index item pass rerunPass sweepDone => Sys2Proof.Machine.execSweepItem kind index item pass rerunPass sweepDone s
  | .testWindowLate c ms => Sys2Proof.Machine.execTestWindowLate c ms s
  | .presenceButton => Sys2Proof.Machine.execPresenceButton s
  | .serviceJumper fitted => Sys2Proof.Machine.execServiceJumper fitted s
  | .presenceWindowExpiry => Sys2Proof.Machine.execPresenceWindowExpiry s
  | .tamperBreak => Sys2Proof.Machine.execTamperBreak s
  | .ownerKeyInstall ss priv slot => Sys2Proof.Machine.execOwnerKeyInstall ss priv slot s
  | .ownerKeyRevoke ss priv slot => Sys2Proof.Machine.execOwnerKeyRevoke ss priv slot s
  | .ownerPolicyWrite ss priv value => Sys2Proof.Machine.execOwnerPolicyWrite ss priv value s
  | .debugUnlock ss priv value => Sys2Proof.Machine.execDebugUnlock ss priv value s
  | .secureBankAccess ss priv word value => Sys2Proof.Machine.execSecureBankAccess ss priv word value s
  | .coolantRestored inlet outlet flow => Sys2Proof.Machine.execCoolantRestored inlet outlet flow s
  | .digestComparisonOverdue domain => Sys2Proof.Machine.execDigestComparisonOverdue domain s
  | .secureBankWipeEnd => Sys2Proof.Machine.execSecureBankWipeEnd s

end Sys2Proof.Machine
end

