-- ==== Sys2Proof/Machine/Tick.lean ====
section
/-! DEFINITION. One nanosecond passes: what the module counts when no command waits (R61, R117, R256, R329, R386, Table 19-3). -/

namespace Sys2Proof.Machine

/-! ### Cycles of a slope's clock -/

/-- Whole arithmetic cycles that end in this nanosecond. -/
def Slope.cycles (x : Slope) : Nat := (x.phase + x.fMhz) / 1000

/-- A throttle of t withholds issue in t of every 16 cycles. -/
def Slope.withheld (x : Slope) : Nat :=
  ((List.range x.cycles).filter fun i => decide ((x.arithCycles.toNat + i) % 16 < x.throttle)).length

def Slope.tick (x : Slope) : Slope :=
  { x with phase := (x.phase + x.fMhz) % 1000, arithCycles := x.arithCycles + BitVec.ofNat 64 x.cycles
           throttleCycles := x.throttleCycles + BitVec.ofNat 64 x.withheld }

/-! ### A core's counters -/

/-- The wait watchdog of a stream runs while its next instruction waits for an unmet condition (R61). -/
def StreamCtx.watch (x : StreamCtx) (unmet : Bool) (n : Nat) : StreamCtx := if unmet then { x with wdog := x.wdog + n } else x

/-- The stream's watchdog runs: the stream waits, its core is not halted, the job is not PAUSED and the role does not migrate. -/
def State.watched (s : State) (n : Nat) (t : Stream) : Bool :=
  s.job.state != .paused && !s.roleHeld n && !(s.core n).halt.halted && (s.waitsOn n t).isSome

/-- The channel waits for a slot of its completion queue (R117). -/
def Core.cqWaits (c : Core) (x : DmaChan) : Bool :=
  let f := c.flag x.release
  x.declared && !(flagGe f x.records || decide ((x.records - f).toNat < 2 ^ x.log2)) &&
    (!x.stops.isEmpty || (x.cur.isNone && !x.queue.isEmpty))

/-- A core after n cycles: gated cycles, the watchdogs that run, the lanes of its gather-merge engine and the stalls of its channels. -/
def Core.tick (c : Core) (n : Nat) (watched : Stream → Bool) : Core :=
  let w (t : Stream) : StreamCtx := (c.ctx t).watch (watched t) n
  { c with
    gatedCycles := if c.gated then c.gatedCycles + BitVec.ofNat 64 n else c.gatedCycles
    f := w .F, b := w .B, u := w .U
    gme := if c.gated || c.halt.halted && !c.halt.draining then c.gme else c.gme.cycles n
    chans := c.chans.map fun x => (x.1, { x.2 with stall := if c.cqWaits x.2 then x.2.stall + BitVec.ofNat 64 n else x.2.stall }) }

/-! ### The scrubbers of the stacks (R389) -/

/-- A nanosecond of a stack's token bucket, of at most 4,096: one token for each 64 bytes of a pace of rate × 64 MiB per second. Full, it puts
the scrubber's requests ahead until it has fallen to 2,048. -/
def Stack.gain (x : Stack) (rate : Nat) : Stack :=
  let p := x.tokenPart + rate * 2 ^ 20
  let n := min 4096 (x.tokens + p / 10 ^ 9)
  { x with tokens := n, tokenPart := p % 10 ^ 9, urgent := x.urgent || n == 4096 }

/-! ### The module -/

/-- Port cycles, at 1.25 GHz, that end in the nanosecond after t. -/
def portCycles (t : Nat) : Nat := 5 * (t + 1) / 4 - 5 * t / 4

namespace State

/-- A frame, the first of its channel, waits at a port of an open axis for credits (R256). -/
def creditWaits (s : State) (p : Nat) : Bool :=
  let x := s.port p
  x.up && s.fabric.open_.getLsbD (p / 2) && (List.range 7).any fun vc =>
    match x.waiting.find? fun w => w.frame.vc.toNat == vc with
    | some w => (x.spend p (s.hopKey p true w.frame) (frameCost w.frame)).isNone
    | none => false

def tickSlopes (s : State) : State := (List.range 4).foldl (fun s k => s.modSlope k Slope.tick) s

def tickCores (s : State) (n : Nat → Nat) : State :=
  { s with cores := s.cores.map fun x =>
      (x.1, x.2.tick (n (slopeOf (courseOf x.1))) (s.watched x.1)) }

def tickPorts (s : State) : State :=
  { s with ports := s.ports.map fun x =>
      (x.1, if s.creditWaits x.1 then { x.2 with creditStall := x.2.creditStall + BitVec.ofNat 64 (portCycles s.timebase) } else x.2) }

/-- Every stack's bucket gains at the pace of SCRUB_CONFIG. -/
def tickStacks (s : State) : State := (List.range 12).foldl (fun s k => s.modStack k fun x => x.gain s.hbmRate.toNat) s

/-- A master not heard for 6 s is no longer followed; the timebase works off its lead over the master, or its lag, by one nanosecond in every
10,000: 100 ppm (R296). The announcements' timeout is the default profile's (PRESUMED: log entry 62). -/
def tickPtp (s : State) : State :=
  let r := s.rcp
  let s := if r.ptpMaster.any fun m => decide (m.heard + 6000000000 ≤ s.clock) then
      { s with rcp := { r with ptpMaster := none, ptpLocked := false } } else s
  if s.rcp.ptpLocked && s.clock % 10000 == 9999 && s.rcp.ptpSlew != 0 then
    if 0 < s.rcp.ptpSlew then { s with timebase := s.timebase - 1, rcp := { s.rcp with ptpSlew := s.rcp.ptpSlew - 1 } }
    else { s with timebase := s.timebase + 1, rcp := { s.rcp with ptpSlew := s.rcp.ptpSlew + 1 } }
  else s

end State

/-- A nanosecond; without power to the slopes, only the timebase and the clock count. -/
def tick (s : State) : State :=
  let t : State :=
    if s.power.off || !s.power.slopesOn then s
    else (((s.tickCores fun k => (s.slope k).cycles).tickPorts).tickSlopes).tickStacks
  ({ t with timebase := s.timebase + 1, clock := s.clock + 1 }).tickPtp

end Sys2Proof.Machine
end

