-- ==== Sys2Proof/Safety.lean ====
section
/-! DEFINITION. What counts as a safe run, in the terms the claims use. -/

namespace Sys2Proof.Machine

/-- The machine goes on: a step has a next state. -/
def Goes (o : Host.Outcome State Fault Refusal) : Prop := ∃ s', o = .next s'

/-- A memory in its canonical form. -/
def State.memOk (s : State) : Prop := Memory.wf s.mem = true

end Sys2Proof.Machine
end

