-- ==== Sys2Proof/WellFormed.lean ====
section
/-! DEFINITION. Well-formed commands: a core-instruction command carries a word of its own opcode, a frame command a
frame of its own type, and operands lie in the ranges the manual gives them. -/

namespace Sys2Proof

/-- A bit field of an instruction word (R22). -/
def wordField (w : Word128) (lo len : Nat) : Nat := w.toNat / 2 ^ lo % 2 ^ len

/-- Physical lanes of a port (R248). -/
def lanesOf (p : Nat) : Nat := if p < 2 then 34 else 17

/-- The uncorrectable code words are numbered in rising order, and with the corrected ones are no more than were decoded. -/
def LaneReport.wf : LaneReport → Bool
  | .lockLost => true
  | .codeWords n corrected bad =>
    decide (corrected + bad.length ≤ n) && bad.all (fun w => decide (w < n)) &&
      (bad.zip (bad.drop 1)).all fun x => decide (x.1 < x.2)

/-- A cached line has two code words. -/
def cacheReadOk (r : CacheRead) : Bool := decide (r.corrected + (if r.bad then 1 else 0) ≤ 2)

def WellFormed : Instr → Bool
  | .add _ _ w => wordField w 120 8 == 0x01
  | .sub _ _ w => wordField w 120 8 == 0x02
  | .mul _ _ w => wordField w 120 8 == 0x03
  | .divu _ _ w => wordField w 120 8 == 0x04
  | .remu _ _ w => wordField w 120 8 == 0x05
  | .andOp _ _ w => wordField w 120 8 == 0x06
  | .orOp _ _ w => wordField w 120 8 == 0x07
  | .xorOp _ _ w => wordField w 120 8 == 0x08
  | .shl _ _ w => wordField w 120 8 == 0x09
  | .shr _ _ w => wordField w 120 8 == 0x0A
  | .sar _ _ w => wordField w 120 8 == 0x0B
  | .minu _ _ w => wordField w 120 8 == 0x0C
  | .maxu _ _ w => wordField w 120 8 == 0x0D
  | .addi _ _ w => wordField w 120 8 == 0x10
  | .andi _ _ w => wordField w 120 8 == 0x11
  | .shli _ _ w => wordField w 120 8 == 0x12
  | .shri _ _ w => wordField w 120 8 == 0x13
  | .ldi _ _ w => wordField w 120 8 == 0x18
  | .ldih _ _ w => wordField w 120 8 == 0x19
  | .loopidx _ _ w => wordField w 120 8 == 0x1A
  | .rdid _ _ w => wordField w 120 8 == 0x1B
  | .ldl _ _ w => wordField w 120 8 == 0x20
  | .stl _ _ w => wordField w 120 8 == 0x21
  | .loop _ _ w => wordField w 120 8 == 0x28
  | .endloop _ _ w => wordField w 120 8 == 0x29
  | .call _ _ w => wordField w 120 8 == 0x2A
  | .ret _ _ w => wordField w 120 8 == 0x2B
  | .jmp _ _ w => wordField w 120 8 == 0x2C
  | .ldd _ _ w => wordField w 120 8 == 0x30
  | .movd _ _ w => wordField w 120 8 == 0x31
  | .dbase _ _ w => wordField w 120 8 == 0x32
  | .dsize _ _ w => wordField w 120 8 == 0x33
  | .dclr _ _ w => wordField w 120 8 == 0x34
  | .daFill _ _ w => wordField w 120 8 == 0x40
  | .daFillt _ _ w => wordField w 120 8 == 0x41
  | .daSwap _ _ w => wordField w 120 8 == 0x42
  | .daMm _ _ w => wordField w 120 8 == 0x43
  | .daMmnm _ _ w => wordField w 120 8 == 0x44
  | .daDrain _ _ w => wordField w 120 8 == 0x45
  | .daClear _ _ w => wordField w 120 8 == 0x46
  | .gmeSpmm _ _ w => wordField w 120 8 == 0x60
  | .gmeSddmm _ _ w => wordField w 120 8 == 0x61
  | .gmeGather _ _ w => wordField w 120 8 == 0x62
  | .gmeScatteradd _ _ w => wordField w 120 8 == 0x63
  | .gmeSegsum _ _ w => wordField w 120 8 == 0x64
  | .gmeSort _ _ w => wordField w 120 8 == 0x65
  | .gmeSelect _ _ w => wordField w 120 8 == 0x66
  | .gmeMerge _ _ w => wordField w 120 8 == 0x67
  | .gmePack _ _ w => wordField w 120 8 == 0x68
  | .gmeUnpack _ _ w => wordField w 120 8 == 0x69
  | .gmeTranspose _ _ w => wordField w 120 8 == 0x6A
  | .veAdd _ _ w => wordField w 120 8 == 0x80
  | .veSub _ _ w => wordField w 120 8 == 0x81
  | .veMul _ _ w => wordField w 120 8 == 0x82
  | .veMax _ _ w => wordField w 120 8 == 0x83
  | .veMin _ _ w => wordField w 120 8 == 0x84
  | .veFma _ _ w => wordField w 120 8 == 0x85
  | .veAbs _ _ w => wordField w 120 8 == 0x86
  | .veNeg _ _ w => wordField w 120 8 == 0x87
  | .veScale _ _ w => wordField w 120 8 == 0x88
  | .veCopy _ _ w => wordField w 120 8 == 0x89
  | .veFill _ _ w => wordField w 120 8 == 0x8A
  | .veBlend _ _ w => wordField w 120 8 == 0x8B
  | .veRsum _ _ w => wordField w 120 8 == 0x90
  | .veRmax _ _ w => wordField w 120 8 == 0x91
  | .veRmin _ _ w => wordField w 120 8 == 0x92
  | .veRsumsq _ _ w => wordField w 120 8 == 0x93
  | .veSmstat _ _ w => wordField w 120 8 == 0x98
  | .veSmnorm _ _ w => wordField w 120 8 == 0x99
  | .veSmbwd _ _ w => wordField w 120 8 == 0x9A
  | .veFunc _ _ w => wordField w 120 8 == 0xA0
  | .veDfunc _ _ w => wordField w 120 8 == 0xA1
  | .veConvert _ _ w => wordField w 120 8 == 0xA2
  | .veOpt _ _ w => wordField w 120 8 == 0xA4 && wordField w 44 2 != 1
  | .veOptCommit _ _ w => wordField w 120 8 == 0xA4 && wordField w 44 2 == 1
  | .veDigest _ _ w => wordField w 120 8 == 0xA5
  | .veRng _ _ w => wordField w 120 8 == 0xA6
  | .dmaStart _ _ w => wordField w 120 8 == 0xC0
  | .dmaStop _ _ w => wordField w 120 8 == 0xC1
  | .valDispatch _ _ w => wordField w 120 8 == 0xD0
  | .valCombine _ _ w => wordField w 120 8 == 0xD1
  | .valReturn _ _ w => wordField w 120 8 == 0xD2
  | .valCancel _ _ w => wordField w 120 8 == 0xD3
  | .nop _ _ w => wordField w 120 8 == 0xE0
  | .waitOp _ _ w => wordField w 120 8 == 0xE1
  | .signal _ _ w => wordField w 120 8 == 0xE2
  | .barrier _ _ w => wordField w 120 8 == 0xE3
  | .testwin _ _ w => wordField w 120 8 == 0xE4
  | .codeswap _ _ w => wordField w 120 8 == 0xE5
  | .haltOp _ _ w => wordField w 120 8 == 0xE6
  | .flagrd _ _ w => wordField w 120 8 == 0xE7
  | .daInstructionBegin _ => true
  | .daInstructionComplete _ _ => true
  | .gmeInstructionBegin _ => true
  | .yealmBegin _ _ => true
  | .yealmSteal _ _ => true
  | .mergeFold _ _ => true
  | .gmeInstructionComplete _ => true
  | .engineCompletion _ _ _ => true
  | .dmaQueueAdmit _ => true
  | .transferBegin _ _ => true
  | .completionRecord _ _ => true
  | .stoppedRecord _ _ => true
  | .combineBegin _ => true
  | .haltDrainComplete _ => true
  | .drainTimeout _ => true
  | .icacheFill _ _ _ r => cacheReadOk r
  | .waitTimeout _ _ => true
  | .gateClose _ => true
  | .barrierArrival _ => true
  | .barrierArrive _ _ _ => true
  | .barrierRelease _ _ => true
  | .increment _ => true
  | .writeFrame _ f => f.type == 0x01
  | .writeAcked _ f => f.type == 0x02
  | .writeAck _ f => f.type == 0x03
  | .readReq _ f => f.type == 0x05
  | .readResp _ f => f.type == 0x06
  | .refused _ f => f.type == 0x07
  | .destAbsent _ f => f.type == 0x1C
  | .e2eTimeout _ _ _ => true
  | .linkFrameReceive _ f _ => f.type != 0x1E && f.type != 0x1F
  | .linkCtrl _ f => f.type == 0x1E
  | .linkNack _ f => f.type == 0x1F
  | .linkAckDue _ => true
  | .linkResendTimeout _ => true
  | .portTrained _ _ => true
  | .portSignalLoss _ => true
  | .laneFailure p e => decide (e.lane < lanesOf p.val) && e.why.wf
  | .laneRecalibration p lane => decide (lane < lanesOf p.val)
  | .recalDeferExpiry _ _ => true
  | .laneRecalEnd p lane => decide (lane < lanesOf p.val)
  | .bypassOpen _ _ _ => true
  | .bypassClose _ _ _ => true
  | .bypassDrainComplete _ => true
  | .valleyRow _ _ => true
  | .countHeader _ _ => true
  | .completionNotice _ _ _ _ => true
  | .valleyCancel _ _ _ => true
  | .returnRow _ _ => true
  | .returnCount _ _ _ _ => true
  | .collEntryBegin _ => true
  | .collEntryComplete _ => true
  | .collData _ _ _ _ _ => true
  | .collCredit _ _ _ => true
  | .collAbort _ _ _ _ => true
  | .lendWindowEnd _ => true
  | .reshardStart _ _ _ => true
  | .reshardVote _ _ _ => true
  | .reshardCopyComplete _ _ => true
  | .stepAdvance _ => true
  | .digestClose => true
  | .digestRecord _ => true
  | .scrubRead _ _ r _ => cacheReadOk r
  | .scrubWriteBack _ _ => true
  | .bankWake _ => true
  | .bankOffAccess _ _ => true
  | .bankPower _ _ _ _ => true
  | .regionWrite _ _ _ _ => true
  | .flipArm _ _ _ _ => true
  | .rngKeyStreamWrite _ _ _ _ => true
  | .rcpMessage _ => true
  | .arpNdRequest _ _ => true
  | .icmpEcho _ => true
  | .dhcpMessage _ _ _ => true
  | .ptpMessage _ _ => true
  | .openSession _ _ _ _ _ => true
  | .sessionResume _ _ _ _ _ => true
  | .closeSession _ => true
  | .statusCmd _ => true
  | .readReg _ _ addrs => decide (1 ≤ addrs.length ∧ addrs.length ≤ 64)
  | .writeReg _ _ pairs => decide (1 ≤ pairs.length)
  | .loadImage _ _ _ => true
  | .unloadImage _ => true
  | .startJob _ => true
  | .pauseJob _ => true
  | .jobPaused => true
  | .resumeJob _ => true
  | .cancelJob _ => true
  | .jobDrainComplete => true
  | .bulkWrite _ _ _ => true
  | .bulkRead _ _ => true
  | .eventFetch _ _ _ => true
  | .eventNotice _ => true
  | .coalescedResponse _ => true
  | .reorderTimeout _ _ => true
  | .sessionIdle _ => true
  | .challengeRollover => true
  | .longCommandComplete => true
  | .attest _ _ => true
  | .fwStage _ _ _ _ => true
  | .fwCommit _ _ => true
  | .lcChange _ _ _ _ => true
  | .secureWipe _ _ => true
  | .secureWipeFull _ => true
  | .moduleWarmReset _ => true
  | .courseReset _ _ => true
  | .coreReset _ _ => true
  | .resetComplete _ _ => true
  | .telemetryControl _ _ _ => true
  | .spillControl _ _ _ => true
  | .ridgeCqConfig _ _ _ _ => true
  | .ridgeCqRelease _ _ _ _ => true
  | .telemetrySnapshot _ => true
  | .eventSpill _ => true
  | .powerOn _ _ _ => true
  | .bringupFunctionDone _ _ => true
  | .bringupDeadline => true
  | .supplyWarn _ => true
  | .supplyRecovered _ => true
  | .undervoltage mv => decide (mv.toNat < 45000)
  | .overvoltage mv => decide (62000 < mv.toNat)
  | .pdBreak => true
  | .thermalTrip _ _ => true
  | .coolantWarn _ _ _ => true
  | .slopeHot _ _ _ => true
  | .slopeCool _ _ _ => true
  | .governorPeriod _ slopeWatts => slopeWatts.length == 4
  | .clamp watts => decide (2600 < watts)
  | .standbyEnter _ _ _ => true
  | .standbyExit _ _ _ => true
  | .ridgeWatchdogExpiry _ => true
  | .testWindowOpen _ => true
  | .testWindowAbandon _ => true
  | .migrationSwitch _ => true
  | .testItemResult _ item _ _ _ => decide (item.toNat / 2 ^ 24 ≤ 6)
  | .sweepItem _ _ item _ _ _ => item.toNat / 2 ^ 24 == 0x10
  | .testWindowLate _ _ => true
  | .presenceButton => true
  | .serviceJumper _ => true
  | .presenceWindowExpiry => true
  | .tamperBreak => true
  | .ownerKeyInstall _ _ _ => true
  | .ownerKeyRevoke _ _ _ => true
  | .ownerPolicyWrite _ _ _ => true
  | .debugUnlock _ _ _ => true
  | .secureBankAccess _ _ _ _ => true
  | .coolantRestored _ _ _ => true
  | .digestComparisonOverdue _ => true
  | .secureBankWipeEnd => true

end Sys2Proof
end

