-- ==== Sys2Proof/Claims.lean ====
section
/-! DEFINITION. The terms in which the statements are written: an answer with a property, an instruction that the issue stage
lets go, and the tables of constructors of one shape. -/

namespace Sys2Proof.Machine

/-- The command answers a next state of which P holds. -/
def Answers (o : Out) (P : State → Prop) : Prop := ∃ t, o = .next t ∧ P t

/-- The word w of stream t issues on core n as the instruction that r describes: it is the stream's next instruction and its line
is fetched, its wait condition holds, its queue and its own conditions let it, no stream before it in the core's order is eligible,
and it passes every check of Table 02-5 (R19, R20, R24). -/
structure Passes (s : State) (n : CoreId) (t : Stream) (w : Word128) (r : IssueReq) : Prop where
  own : fOpcode w = r.form.opcode
  may : s.canIssue n t w = true
  waits : (s.core n).waitHolds t w = true
  free : s.wordFree n t w = true
  first : s.goesFirst n t = true
  checks : issueCheck ((s.core n).ctx t) w r.form r.reserved r.needs r.late = none

/-- The state u with the signal that w of s sends at issue (R26). -/
def signalled (s : State) (n : CoreId) (t : Stream) (w : Word128) (r : IssueReq) (u : State) : State :=
  if issueSignal r w then u.signal n (sigOf ((s.core n).ctx t) w) else u

/-- A constructor of core instructions. -/
abbrev CoreInstr := CoreId → Stream → Word128 → Instr

/-- A scalar instruction: its opcode, the bits of its word that it uses, and the value it computes from the word, s[a] and s[b]. -/
structure ScalarRow where
  ctor : CoreInstr
  opcode : Nat
  used : Nat
  value : Word128 → Word → Word → Word

def ScalarRow.req (p : ScalarRow) : IssueReq := { form := ⟨p.opcode, 0, p.used⟩ }

/-- Registers dst, a and b (Table 02-6). -/
def threeOperand : List ScalarRow :=
  [⟨.add, 0x01, mDst + mA + mB, fun _ a b => a + b⟩, ⟨.sub, 0x02, mDst + mA + mB, fun _ a b => a - b⟩,
   ⟨.mul, 0x03, mDst + mA + mB, fun _ a b => a * b⟩,
   ⟨.divu, 0x04, mDst + mA + mB, fun _ a b => if b = 0 then BitVec.allOnes 64 else a / b⟩,
   ⟨.remu, 0x05, mDst + mA + mB, fun _ a b => if b = 0 then a else a % b⟩,
   ⟨.andOp, 0x06, mDst + mA + mB, fun _ a b => a &&& b⟩, ⟨.orOp, 0x07, mDst + mA + mB, fun _ a b => a ||| b⟩,
   ⟨.xorOp, 0x08, mDst + mA + mB, fun _ a b => a ^^^ b⟩, ⟨.shl, 0x09, mDst + mA + mB, fun _ a b => a <<< (b.toNat % 64)⟩,
   ⟨.shr, 0x0A, mDst + mA + mB, fun _ a b => a >>> (b.toNat % 64)⟩,
   ⟨.sar, 0x0B, mDst + mA + mB, fun _ a b => a.sshiftRight (b.toNat % 64)⟩,
   ⟨.minu, 0x0C, mDst + mA + mB, fun _ a b => if a ≤ b then a else b⟩,
   ⟨.maxu, 0x0D, mDst + mA + mB, fun _ a b => if a ≤ b then b else a⟩]

/-- Registers dst and a, and the immediate. -/
def immediateOperand : List ScalarRow :=
  [⟨.addi, 0x10, mDst + mA + mImm, fun w a _ => a + sextImm w⟩, ⟨.andi, 0x11, mDst + mA + mImm, fun w a _ => a &&& zextImm w⟩,
   ⟨.shli, 0x12, mDst + mA + mField 0 6, fun w a _ => a <<< fBits w 0 6⟩,
   ⟨.shri, 0x13, mDst + mA + mField 0 6, fun w a _ => a >>> fBits w 0 6⟩, ⟨.ldi, 0x18, mDst + mImm, fun w _ _ => sextImm w⟩]

/-- Every scalar instruction that only writes a register, with what the issue stage asks of it. -/
def scalarTable : List (CoreInstr × (State → CoreId → Stream → Word128 → IssueReq)) :=
  (threeOperand ++ immediateOperand).map (fun p => (p.ctor, fun _ _ _ _ => p.req)) ++
  [(.ldih, ldihReq), (.loopidx, loopidxReq), (.rdid, rdidReq), (.flagrd, flagrdReq)]

/-- An instruction of an engine: its engine, what the issue stage asks of it, the descriptor registers it names, what enters the
queue and what issue itself changes. -/
structure EngineRow where
  ctor : CoreInstr
  eng : EngKind
  req : State → CoreId → Stream → Word128 → IssueReq
  regs : Word128 → List Nat
  op : State → CoreId → Word128 → EngOp → EngOp := fun _ _ _ o => o
  upd : State → CoreId → Stream → Word128 → State → State := fun _ _ _ _ u => u

/-- The state in which the instruction has entered its queue, its operands taken at issue (R21). -/
def EngineRow.queued (p : EngineRow) (s : State) (n : CoreId) (t : Stream) (w : Word128) : State :=
  let o := p.op s n w (s.engOp n t w (p.regs w))
  signalled s n t w (p.req s n t w) (p.upd s n t w ((s.retire n t).modCore n fun c => c.push p.eng o))

def denseRows : List EngineRow :=
  [{ ctor := .daFill, eng := .da, req := fillReq 0x40, regs := fillRegs, upd := fillOwns false },
   { ctor := .daFillt, eng := .da, req := fillReq 0x41, regs := fillRegs, upd := fillOwns true },
   { ctor := .daSwap, eng := .da, req := daSwapReq, regs := fun _ => [], upd := fun _ n t _ u => swapOwns n t u },
   { ctor := .daMm, eng := .da, req := daMmReq, regs := fun w => [fA w] },
   { ctor := .daMmnm, eng := .da, req := daMmnmReq, regs := fun w => [fA w, fB w] },
   { ctor := .daDrain, eng := .da, req := daDrainReq, regs := fun w => [fDst w] },
   { ctor := .daClear, eng := .da, req := daClearReq, regs := fun _ => [] }]

def gmeRows : List EngineRow :=
  [{ ctor := .gmeSpmm, eng := .gme, req := gmeSpmmReq, regs := fun w => [fA w, fA w + 1, fA w + 2, fB w, fDst w] },
   { ctor := .gmeSddmm, eng := .gme, req := gmeSddmmReq, regs := fun w => [fA w, fB w, fC w, fC w + 1, fDst w] },
   { ctor := .gmeGather, eng := .gme, req := gme2Req 0x62 gatherLate, regs := regs2 },
   { ctor := .gmeScatteradd, eng := .gme, req := gme2Req 0x63 scatterLate, regs := regs2 },
   { ctor := .gmeSegsum, eng := .gme, req := gme2Req 0x64 segsumLate, regs := regs2 },
   { ctor := .gmeSort, eng := .gme, req := gmeSortReq, regs := fun w => [fA w, fDst w] ++ if sortPos w then [fDst w + 1] else [] },
   { ctor := .gmeSelect, eng := .gme, req := gmeSelectReq, regs := fun w => [fA w, fDst w, fDst w + 1, fDst w + 2] },
   { ctor := .gmeMerge, eng := .gme, req := gmeMergeReq,
     regs := fun w => [fA w, fB w, fDst w] ++ if sortPos w then [fDst w + 1] else [] },
   { ctor := .gmePack, eng := .gme, req := gme2Req 0x68 packLate, regs := regs2 },
   { ctor := .gmeUnpack, eng := .gme, req := gme2Req 0x69 unpackLate, regs := regs2 },
   { ctor := .gmeTranspose, eng := .gme, req := gmeTransposeReq, regs := regs1 }]

/-- VE.OPT takes its group's schedule values at issue (R215). -/
def withSched (s : State) (n : CoreId) (w : Word128) (o : EngOp) : EngOp :=
  { o with sched := tget (s.course (courseOf n)).sched (optGroup w) {} }

def vectorRows : List EngineRow :=
  [{ ctor := .veAdd, eng := .ve, req := ve2Req 0x80, regs := regs2 }, { ctor := .veSub, eng := .ve, req := ve2Req 0x81, regs := regs2 },
   { ctor := .veMul, eng := .ve, req := ve2Req 0x82, regs := regs2 }, { ctor := .veMax, eng := .ve, req := ve2Req 0x83, regs := regs2 },
   { ctor := .veMin, eng := .ve, req := ve2Req 0x84, regs := regs2 },
   { ctor := .veFma, eng := .ve, req := ve3Req 0x85 veSource, regs := regs3 },
   { ctor := .veAbs, eng := .ve, req := ve1Req 0x86 0 (elemSrc veSource), regs := regs1 },
   { ctor := .veNeg, eng := .ve, req := ve1Req 0x87 0 (elemSrc veSource), regs := regs1 },
   { ctor := .veScale, eng := .ve, req := ve1Req 0x88 mImm (elemSrc veSource), regs := regs1 },
   { ctor := .veCopy, eng := .ve, req := veConvReq 0x89, regs := regs1 },
   { ctor := .veFill, eng := .ve, req := veFillReq, regs := fun w => [fDst w] },
   { ctor := .veBlend, eng := .ve, req := ve3Req 0x8B veMask, regs := regs3 },
   { ctor := .veRsum, eng := .ve, req := ve1Req 0x90 0 (reduceSrc 1), regs := regs1 },
   { ctor := .veRmax, eng := .ve, req := ve1Req 0x91 0 (reduceSrc 1), regs := regs1 },
   { ctor := .veRmin, eng := .ve, req := ve1Req 0x92 0 (reduceSrc 1), regs := regs1 },
   { ctor := .veRsumsq, eng := .ve, req := ve1Req 0x93 0 (reduceSrc 1), regs := regs1 },
   { ctor := .veSmstat, eng := .ve, req := ve1Req 0x98 0 (reduceSrc 2), regs := regs1 },
   { ctor := .veSmnorm, eng := .ve, req := veSmnormReq, regs := regs2 },
   { ctor := .veSmbwd, eng := .ve, req := ve2Req 0x9A, regs := regs2 },
   { ctor := .veFunc, eng := .ve, req := veFnReq 0xA0, regs := regs1 },
   { ctor := .veDfunc, eng := .ve, req := veFnReq 0xA1, regs := regs1 },
   { ctor := .veConvert, eng := .ve, req := veConvReq 0xA2, regs := regs1 },
   { ctor := .veDigest, eng := .ve, req := veDigestReq, regs := fun w => [fA w] },
   { ctor := .veRng, eng := .ve, req := veRngReq, regs := fun w => [fDst w] }]

/-- Registers of VE.OPT, op 0. -/
def optRegs (s : State) (w : Word128) : List Nat :=
  [fA w] ++ (if optUsage w then [fA w + 1] else []) ++
    ([0, 1, 2] ++ (if ruleHasSecond (s.param? (optGroup w)) then [3] else []) ++ [4]).map fun i => fDst w + i

/-- An instruction of the Valley engine carries the epoch of its tag's block (R179). -/
def withEpoch (s : State) (n : CoreId) (w : Word128) (o : EngOp) : EngOp :=
  { o with epochs := [tget (s.valley (courseOf n)).epochs (blockOf (immTag w)) 0] }

def moveRows : List EngineRow :=
  [{ ctor := .dmaStart, eng := .dma, req := dmaStartReq, regs := regs1 },
   { ctor := .dmaStop, eng := .dma, req := dmaStopReq, regs := fun _ => [] },
   { ctor := .valDispatch, eng := .val, req := valDispatchReq, regs := fun w => [fA w, fB w, fB w + 1, fB w + 2], op := withEpoch },
   { ctor := .valCombine, eng := .val, req := valCombineReq, regs := fun w => [fA w, fA w + 1, fA w + 2, fDst w], op := withEpoch },
   { ctor := .valReturn, eng := .val, req := valReturnReq, regs := fun w => [fA w], op := withEpoch },
   { ctor := .valCancel, eng := .val, req := valCancelReq, regs := fun _ => [], op := withEpoch }]

/-- VE.OPT and VE.OPT_COMMIT, one opcode with two operations (R206, R212). -/
def optRows : List EngineRow :=
  [{ ctor := .veOpt, eng := .ve, req := veOptReq, regs := fun _ => [] },
   { ctor := .veOptCommit, eng := .ve, req := veOptCommitReq, regs := fun _ => [] }]

/-- Every core instruction with what the issue stage asks of it. -/
def coreTable : List (CoreInstr × (State → CoreId → Stream → Word128 → IssueReq)) :=
  scalarTable ++
  [(.ldl, ldlReq), (.stl, stlReq), (.loop, loopReq), (.endloop, endloopReq),
   (.call, callReq), (.ret, retReq), (.jmp, jmpReq), (.ldd, lddReq), (.movd, movdReq), (.dbase, dbaseReq), (.dsize, dsizeReq),
   (.dclr, dclrReq), (.nop, nopReq), (.waitOp, waitOpReq), (.signal, signalReq), (.barrier, barrierReq), (.testwin, testwinReq),
   (.codeswap, codeswapReq), (.haltOp, haltOpReq)] ++
  (denseRows ++ gmeRows ++ vectorRows ++ optRows ++ moveRows).map fun p => (p.ctor, p.req)

/-- The core instructions that are no row of an engine's or of a scalar table. -/
def singleTable : List (CoreInstr × (State → CoreId → Stream → Word128 → IssueReq)) :=
  [(.ldih, ldihReq), (.loopidx, loopidxReq), (.rdid, rdidReq), (.flagrd, flagrdReq), (.ldl, ldlReq), (.stl, stlReq), (.loop, loopReq), (.endloop, endloopReq), (.call, callReq), (.ret, retReq), (.jmp, jmpReq), (.ldd, lddReq), (.movd, movdReq), (.dbase, dbaseReq), (.dsize, dsizeReq), (.dclr, dclrReq), (.nop, nopReq), (.waitOp, waitOpReq), (.signal, signalReq), (.barrier, barrierReq), (.testwin, testwinReq), (.codeswap, codeswapReq), (.haltOp, haltOpReq)]

/-- The word is that of this command: its opcode, and for opcode 0xA4 also its operation (R22, R206). -/
def ownWord (ctor : CoreInstr) (n : CoreId) (t : Stream) (w : Word128) : Bool := WellFormed (ctor n t w)

/-- Each instruction of the table that passes the issue stage has the effect `eff` on the state in which it has retired, and
then sends its signal. -/
def Issues (ctor : CoreInstr) (req : State → CoreId → Stream → Word128 → IssueReq)
    (cond : State → CoreId → Stream → Word128 → Prop) (eff : State → CoreId → Stream → Word128 → State → State) : Prop :=
  ∀ s n t w, Passes s n t w (req s n t w) → cond s n t w →
    exec (ctor n t w) s = .next (signalled s n t w (req s n t w) (eff s n t w (s.retire n t)))

/-- No further condition. -/
def always (_ : State) (_ : CoreId) (_ : Stream) (_ : Word128) : Prop := True

/-- Where stream t of core n stands, as a fault of the given engine reports it. -/
def State.haltPlace (s : State) (n : Nat) (t : Stream) (engine : Nat) : HaltAt :=
  { engine := engine, stream := t.toNat, region := ((s.core n).ctx t).pcRegion, index := ((s.core n).ctx t).pcIndex }

/-- The halt record of a core's first fault (Tables 02-13 to 02-16). -/
def firstRecord (h : HaltRec) (p : HaltAt) (st : Stop) : HaltRec :=
  { h with halted := true, draining := true, engine := BitVec.ofNat 3 p.engine, stream := BitVec.ofNat 2 p.stream,
           pcRegion := p.region, pcIndex := p.index, reason := BitVec.ofNat 8 st.reason, flag := BitVec.ofNat 9 st.flag,
           info := BitVec.ofNat 64 st.info }

/-- The byte that memory holds at an address. -/
def State.byteAt (s : State) (a : Nat) : Byte := memGet s.mem (storage s.hbmAffinity a)

/-- Everything of a stream but its scalar registers, its instruction index, its watchdog, its hold and its fetch buffer. -/
def StreamCtx.beside (x : StreamCtx) : StreamCtx :=
  { x with sregs := [], pcIndex := 0, wdog := 0, hold := .none, held := none, fetchLine := none, prefLine := none,
           prefetch := none, adrift := [] }

/-- Everything of a core but its streams, its issue order, its flags, its clock gate and the use order of its instruction
cache. -/
def Core.beside (c : Core) : Core :=
  { c with f := {}, b := {}, u := {}, order := [], flags := [], gated := false, gateWakes := 0, icache := [] }

/-- Everything of the module but its cores. -/
def State.beside (s : State) : State := { s with cores := [] }

/-- The flag k of core n is unchanged unless the word signals it. -/
def flagsKept (s u : State) (n : CoreId) (w : Word128) : Prop :=
  ∀ k, (fSigEn w = true ∧ fSigFlag w = k) ∨ (u.core n).flag k = (s.core n).flag k

/-! ### Expert traffic -/

/-- The message is the next one that its path to course c presents: taking it leaves u; and it bears the epoch of its tag's block
there (R172, R179). -/
structure Comes (s u : State) (c : CourseId) (m : ValMsg) (tag : BitVec 16) (epoch : Byte) : Prop where
  taken : s.takeVal m = some u
  current : tget (s.valley c).epochs (blockOf tag) 0 = epoch

/-- The senders whose count headers of a layer, tag and direction course c has kept. -/
def countSenders (s : State) (c : CourseId) (h : CountHdr) : List Nat :=
  match (s.valley c).counts.find? fun r => r.layer == h.layer && r.tag == h.tag && r.backward == h.backward with
  | some r => r.senders
  | none => []

/-! ### Commands of a session and register writes -/

/-- Session ss is open, and the command that is its next one takes number q in the state u (R303). -/
def Turn (s : State) (ss q : Nat) (u : State) : Prop := ∃ x, s.session? ss = some x ∧ q = x.lastSeq + 1 ∧ u = s.advance ss q

/-- The answer to a command whose effect leaves v: the held commands that it frees follow (R303). -/
def followed (v : State) (ss : Nat) : Out := .next (v.drainHeld State.holdLimit ss)

/-- The command has the effect v and is answered with OK. -/
def answered (v : State) (ss q type : Nat) (payload : List Byte := []) : Out := followed (v.reply ss q type .ok payload) ss

/-- The session may write the value to the register at an address now: nothing of R11, R299, R383 or R384 refuses or holds it. -/
structure MayWrite (u : State) (ss : Nat) (priv : Bool) (a : Nat) (r : WReg) (v : Word) : Prop where
  owner : u.isOwner ss = true
  form : badAddr u [BitVec.ofNat 64 a] = none
  small : a < 2 ^ 32
  powered : u.regRefused priv a = none
  free : u.regHeld a = none
  is : writable a = some r
  view : priv = true ∨ r.unprivileged = true
  shown : priv = true → u.presence = true
  zeros : r.reservedSet v.toNat = false

end Sys2Proof.Machine
end

