-- ==== Sys2Proof/Certificates/Slice0/Obligations.lean ====
section
/-! DEFINITION. The statements for the provers, each a rule of the manual or what follows from several of them. -/

open Sys2Proof Sys2Proof.Machine

/-! ### The queue, the tick and the issue stage -/

/-- With command c in front of the queue, a step is c's effect with the rest of the queue left (the queue and the step are the model's own:
log entry 1, DESIGN CHOICE). -/
def Obligations.StepRunsFront : Prop :=
  ∀ (c : Instr) (r : List Instr) (s : State), step { s with pending := c :: r } = exec c { s with pending := r }

/-- With no command waiting, a step lets one nanosecond pass on the model's own clock (log entry 2, DESIGN CHOICE) and does nothing to memory,
to the log, to the job or to the queue. The timebase gains a nanosecond, and in a step in which it works off a lead over its PTP master or a
lag behind it none or two (R296). -/
def Obligations.EmptyQueueIsANanosecond : Prop :=
  ∀ s : State, s.pending = [] →
    ∃ t, step s = .next t ∧ t.clock = s.clock + 1 ∧ t.mem = s.mem ∧ t.log = s.log ∧ t.pending = [] ∧ t.job = s.job ∧
      (s.rcp.ptpLocked = false ∨ s.rcp.ptpSlew = 0 → t.timebase = s.timebase + 1) ∧
      s.timebase ≤ t.timebase ∧ t.timebase ≤ s.timebase + 2

/-- R19, conditions 1 to 4, R20, R25, R35: an instruction that does not issue because its line is not fetched, because its wait
condition does not hold, or because the queue that its engine field names or a condition of its own keeps it, changes nothing but its
own stream's hold, and an abandoned prefetch; one that an eligible stream before it in the order keeps changes nothing. -/
def Obligations.WaitAndFullQueueHoldTheStream : Prop :=
  (∀ p ∈ coreTable, ∀ (s : State) (n : CoreId) (t : Stream) (w : Word128),
    ownWord p.1 n t w = true → s.canIssue n t w = true → (s.core n).waitHolds t w = false →
      exec (p.1 n t w) s = .next (s.setCore n ((s.core n).setCtx t { (s.core n).ctx t with hold := .flag, held := some w }))) ∧
  (∀ p ∈ coreTable, ∀ (s : State) (n : CoreId) (t : Stream) (w : Word128),
    ownWord p.1 n t w = true → s.canIssue n t w = true → (s.core n).waitHolds t w = true → s.wordFree n t w = false →
      exec (p.1 n t w) s = .next (s.setCore n ((s.core n).setCtx t { (s.core n).ctx t with hold := .queue, held := some w }))) ∧
  (∀ p ∈ coreTable, ∀ (s : State) (n : CoreId) (t : Stream) (w : Word128),
    ownWord p.1 n t w = true → s.presents n t w = true → s.fetched n t = false →
      ∃ q d, exec (p.1 n t w) s = .next (s.setCore n ((s.core n).setCtx t
        { (s.core n).ctx t with hold := .fetch, held := none, prefetch := q, adrift := d })) ∧
        ((((s.core n).ctx t).prefetch = none ∨ ((s.core n).ctx t).prefetch.map (·.2) = s.fetchAddr n t) →
          q = ((s.core n).ctx t).prefetch ∧ d = ((s.core n).ctx t).adrift)) ∧
  (∀ p ∈ coreTable, ∀ (s : State) (n : CoreId) (t u : Stream) (w : Word128),
    ownWord p.1 n t w = true → s.canIssue n t w = true → (s.core n).waitHolds t w = true → s.wordFree n t w = true →
    u ≠ t → s.eligible n u = true → u ∈ (s.core n).order.takeWhile (fun v => v != t) → exec (p.1 n t w) s = .next s)

/-- R25: the condition of a wait field compares the flag with the wait register modulo 2^32: condition 0 holds when the difference is
below 2^31, 1 when they are equal, 2 when they differ; a word with no wait enabled waits for nothing. -/
def Obligations.WaitConditionComparesModulo : Prop :=
  ∀ (c : Core) (t : Stream) (w : Word128),
    let f := (c.flag (fWaitFlag w)).toNat
    let v := ((c.ctx t).sreg (fWaitSreg w)).toNat % 2 ^ 32
    let d := (f + 2 ^ 32 - v) % 2 ^ 32
    fWaitFlag w < 512 ∧
    (fWaitEn w = false → c.waitHolds t w = true) ∧
    (fWaitEn w = true → fWaitCond w = 0 → (c.waitHolds t w = true ↔ d < 2 ^ 31)) ∧
    (fWaitEn w = true → fWaitCond w = 1 → (c.waitHolds t w = true ↔ d = 0)) ∧
    (fWaitEn w = true → fWaitCond w = 2 → (c.waitHolds t w = true ↔ d ≠ 0))

/-- Table 02-5, checks 1 to 5 in their order; the instruction's own checks come last (R24). -/
def Obligations.IssueChecksInOrder : Prop :=
  ∀ (x : StreamCtx) (w : Word128) (f : Form) (reserved : List Nat) (needs : List Need) (late : Option Stop),
    let op := fOpcode w
    let check := issueCheck x w f reserved needs late
    (assigned op = false → check = some { reason := 0x01, info := w.toNat / 2 ^ 64 }) ∧
    (assigned op = true → fEngine w ≠ f.engine → check = some { reason := 0x03, info := op + fEngine w * 2 ^ 8 }) ∧
    (assigned op = true → fEngine w = f.engine → ∀ b, offending f w reserved = some b →
      check = some { reason := 0x02, info := op + b * 2 ^ 8 }) ∧
    (assigned op = true → fEngine w = f.engine → offending f w reserved = none → fSigEn w = true → 480 ≤ fSigFlag w →
      check = some { reason := 0x10, info := op, flag := fSigFlag w }) ∧
    (assigned op = true → fEngine w = f.engine → offending f w reserved = none → (fSigEn w = true → fSigFlag w < 480) →
      check = (unsetStop x op needs).or late)

/-- R24, R41: at the first check that fails the core halts with that check's reason, its first fault recorded with the PC of the
instruction; nothing is signalled and no queue receives it. -/
def Obligations.FailedCheckHaltsTheCore : Prop :=
  ∀ p ∈ coreTable, ∀ (s : State) (n : CoreId) (t : Stream) (w : Word128) (st : Stop),
    ownWord p.1 n t w = true → s.canIssue n t w = true → (s.core n).waitHolds t w = true → s.wordFree n t w = true →
    s.goesFirst n t = true →
    issueCheck ((s.core n).ctx t) w (p.2 s n t w).form (p.2 s n t w).reserved (p.2 s n t w).needs (p.2 s n t w).late = some st →
      ∃ u, exec (p.1 n t w) s = .next u ∧ (u.core n).halt = firstRecord (s.core n).halt (s.haltPlace n t 6) st ∧
        (u.core n).flags = (s.core n).flags ∧ (u.core n).ve = (s.core n).ve ∧ (u.core n).da = (s.core n).da ∧
        (u.core n).gme = (s.core n).gme ∧ (u.core n).val = (s.core n).val ∧ (u.core n).outSignals = (s.core n).outSignals ∧
        u.mem = s.mem

/-- R27: an opcode that no row of the table has halts the core with ILLEGAL_OPCODE, whatever command carries the word; 0x00 is
one. -/
def Obligations.UnlistedOpcodeIsIllegal : Prop :=
  assigned 0 = false ∧
  ∀ p ∈ coreTable, ∀ (s : State) (n : CoreId) (t : Stream) (w : Word128),
    assigned (fOpcode w) = false → s.canIssue n t w = true → (s.core n).waitHolds t w = true → s.wordFree n t w = true →
    s.goesFirst n t = true →
      ∃ u, exec (p.1 n t w) s = .next u ∧
        (u.core n).halt = firstRecord (s.core n).halt (s.haltPlace n t 6) { reason := 0x01, info := w.toNat / 2 ^ 64 }

/-- A command whose word carries another instruction's opcode is refused by that opcode (the model's own reading of an ill-formed
command: log entry 3). -/
def Obligations.AnotherInstructionsWordIsRefused : Prop :=
  ∀ p ∈ coreTable, ∀ (s : State) (n : CoreId) (t : Stream) (w : Word128),
    assigned (fOpcode w) = true → ownWord p.1 n t w = false →
      exec (p.1 n t w) s = .refused (.otherInstruction (BitVec.ofNat 8 (fOpcode w)))

/-! ### Scalar instructions -/

/-- Table 02-6: s[dst] takes s[a] op s[b], and a write to s0 is discarded (R17). -/
def Obligations.ThreeOperandScalarResults : Prop :=
  ∀ p ∈ threeOperand, ∀ (s : State) (n : CoreId) (t : Stream) (w : Word128), Passes s n t w p.req →
    exec (p.ctor n t w) s = .next (signalled s n t w p.req
      ((s.retire n t).setSreg n t (fDst w) (p.value w (s.sreg n t (fA w)) (s.sreg n t (fB w)))))

/-- Table 02-7: ADDI, ANDI, SHLI, SHRI and LDI, and LDIH, LOOPIDX, RDID and FLAGRD. -/
def Obligations.ImmediateAndReadingScalarResults : Prop :=
  (∀ p ∈ immediateOperand, ∀ (s : State) (n : CoreId) (t : Stream) (w : Word128), Passes s n t w p.req →
    exec (p.ctor n t w) s = .next (signalled s n t w p.req
      ((s.retire n t).setSreg n t (fDst w) (p.value w (s.sreg n t (fA w)) (s.sreg n t (fB w)))))) ∧
  Issues .ldih ldihReq always (fun s n t w u =>
    u.setSreg n t (fDst w) (BitVec.ofNat 64 (fImm w * 2 ^ 32 + (s.sreg n t (fDst w)).toNat % 2 ^ 32))) ∧
  Issues .loopidx loopidxReq always (fun s n t w u =>
    u.setSreg n t (fDst w) (((((s.core n).ctx t).loops[fBits w 0 3]?).map (·.iter)).getD 0)) ∧
  Issues .rdid rdidReq always (fun s n t w u => u.setSreg n t (fDst w)
    (match fImm w with
     | 0 => BitVec.ofNat 64 n
     | 1 => BitVec.ofNat 64 (n / 32)
     | 2 => BitVec.ofNat 64 t.toNat
     | _ => ((s.course (courseOf n)).valley.jobEpoch).zeroExtend 64)) ∧
  Issues .flagrd flagrdReq always (fun s n t w u =>
    u.setSreg n t (fDst w) (((s.core n).flag (fBits w 0 9)).zeroExtend 64))

/-- The frame of the scalar instructions that write a register: every other register, every descriptor register, loop and call
stack, every engine, queue, halt register and counter of the core, every other core and everything else of the module, memory
included, are unchanged; and no flag changes but the one that the word signals. -/
def Obligations.ScalarFrame : Prop :=
  ∀ p ∈ scalarTable, ∀ (s u : State) (n : CoreId) (t : Stream) (w : Word128),
    Passes s n t w (p.2 s n t w) → exec (p.1 n t w) s = .next u →
      u.beside = s.beside ∧ (∀ m, m ≠ n.val → u.core m = s.core m) ∧ (u.core n).beside = (s.core n).beside ∧
      (∀ t', t' ≠ t → (u.core n).ctx t' = (s.core n).ctx t') ∧
      ((u.core n).ctx t).beside = ((s.core n).ctx t).beside ∧
      (∀ k, k ≠ fDst w → u.sreg n t k = s.sreg n t k) ∧ u.sreg n t 0 = 0 ∧
      flagsKept s u n w ∧ (∀ a, u.byteAt a = s.byteAt a)

/-- R17: s0 reads as zero and takes no write; d0 is never set; and an instruction that requires a descriptor operand and names d0
for it, to read or to write, is stopped with DESCRIPTOR_UNSET. -/
def Obligations.RegisterZero : Prop :=
  ∀ (x : StreamCtx), x.sreg 0 = 0 ∧ (∀ v, x.setSreg 0 v = x) ∧ x.dreg 0 = none ∧ (∀ d, x.setDreg 0 d = x) ∧
    ∀ (op : Nat) (needs : List Need) (k : Need), k ∈ needs → k.operand < 4 → k.reg = 0 →
      ∃ st, unsetStop x op needs = some st ∧ st.reason = 0x04

/-- R28: an LDL that passes its checks writes eight consecutive registers from the line, the word for s0 discarded. -/
def Obligations.LdlLoadsEightRegisters : Prop :=
  ∀ (s : State) (n : CoreId) (t : Stream) (w : Word128) (l : List Byte),
    let a := s.sreg n t (fA w) + sextImm w
    let u := (s.retire n t).readLine a.toNat n
    Passes s n t w (ldlReq s n t w) → lineStop s n .read a (some (fDst w)) = none → u.1 = some l →
      ∃ v, exec (.ldl n t w) s = .next (signalled s n t w (ldlReq s n t w) v) ∧
        (∀ i, i < 8 → fDst w + i ≠ 0 → v.sreg n t (fDst w + i) = BitVec.ofNat 64 (natAt l (8 * i) 8)) ∧
        (∀ k, k < fDst w ∨ fDst w + 8 ≤ k → v.sreg n t k = s.sreg n t k) ∧ v.sreg n t 0 = 0 ∧
        (∀ m k, (v.core m).flag k = (s.core m).flag k) ∧ (v.mem = s.mem ∨ s.bankState a.toNat = 2)

/-- R28: an STL that passes its checks stores its eight registers as one line at the address it forms; every byte of memory
outside that line (and outside a bank that the access turns on, R231) is unchanged, and so is every scalar register. -/
def Obligations.StlStoresOneLine : Prop :=
  ∀ (s : State) (n : CoreId) (t : Stream) (w : Word128),
    let a := (s.sreg n t (fB w) + sextImm w).toNat
    Passes s n t w (stlReq s n t w) → lineStop s n .write (s.sreg n t (fB w) + sextImm w) (some (fA w)) = none →
    s.liveAt a = none → s.lineHeld a = false → s.memOk →
      ∃ v, exec (.stl n t w) s = .next v ∧
        (∀ i j, i < 8 → j < 8 → v.byteAt (a + 8 * i + j) = BitVec.ofNat 8 ((s.sreg n t (fA w + i)).toNat / 256 ^ j)) ∧
        (∀ b, storage s.hbmAffinity b < storage s.hbmAffinity a ∨ storage s.hbmAffinity a + 64 ≤ storage s.hbmAffinity b →
          (s.bankState a = 2 ∧ (State.bankRange a).1 ≤ storage s.hbmAffinity b ∧
            storage s.hbmAffinity b < (State.bankRange a).1 + (State.bankRange a).2) ∨ v.byteAt b = s.byteAt b) ∧
        (∀ m t' k, v.sreg m t' k = s.sreg m t' k)

/-- R28: the checks of LDL, STL and LDD on their address, in order, and the halt that the first failing one makes; and what an LDL with
dst 0 writes. -/
def Obligations.LineChecksInOrder : Prop :=
  (∀ (s : State) (n : Nat) (p : Perm) (a : Word) (group : Option Nat),
    let lo := a.toNat % 2 ^ 48
    let off := ∃ g, group = some g ∧ g % 8 ≠ 0
    (a.toNat % 64 ≠ 0 → lineStop s n p a group = some { reason := 0x09, info := lo }) ∧
    (a.toNat % 64 = 0 → ∀ g, group = some g → g % 8 ≠ 0 → lineStop s n p a group = some { reason := 0x09, info := g + 2 ^ 56 }) ∧
    (a.toNat % 64 = 0 → ¬ off → a.toNat ≠ lo → ∃ st, lineStop s n p a group = some st ∧ st.reason = 0x0A ∧
      st.info % 2 ^ 48 = lo ∧ st.info.testBit 51 = true) ∧
    (a.toNat % 64 = 0 → ¬ off → a.toNat = lo → s.permits (s.core n).regions p lo = false →
      ∃ st, lineStop s n p a group = some st ∧ st.reason = 0x0A) ∧
    (a.toNat % 64 = 0 → ¬ off → a.toNat = lo → s.permits (s.core n).regions p lo = true → lineStop s n p a group = none)) ∧
  (∀ (s : State) (n : CoreId) (t : Stream) (w : Word128) (st : Stop),
    (Passes s n t w (ldlReq s n t w) → lineStop s n .read (s.sreg n t (fA w) + sextImm w) (some (fDst w)) = some st →
      ∃ u, exec (.ldl n t w) s = .next u ∧ (u.core n).halt = firstRecord (s.core n).halt (s.haltPlace n t 0) st) ∧
    (Passes s n t w (lddReq s n t w) → lineStop s n .read (s.sreg n t (fA w) + sextImm w) none = some st →
      ∃ u, exec (.ldd n t w) s = .next u ∧ (u.core n).halt = firstRecord (s.core n).halt (s.haltPlace n t 0) st) ∧
    (Passes s n t w (stlReq s n t w) → lineStop s n .write (s.sreg n t (fB w) + sextImm w) (some (fA w)) = some st →
      ∃ u, exec (.stl n t w) s = .next u ∧ (u.core n).halt = firstRecord (s.core n).halt (s.haltPlace n t 0) st ∧ u.mem = s.mem) ∧
    (∀ r, Passes s n t w (stlReq s n t w) → lineStop s n .write (s.sreg n t (fB w) + sextImm w) (some (fA w)) = none →
      s.liveAt (s.sreg n t (fB w) + sextImm w).toNat = some r →
      ∃ u, exec (.stl n t w) s = .next u ∧ (u.core n).halt.halted = true ∧ (u.core n).halt.reason = 0x0C ∧ u.mem = s.mem)) ∧
  (∀ (s : State) (n : CoreId) (t : Stream) (w : Word128) (l : List Byte), Passes s n t w (ldlReq s n t w) → fDst w = 0 →
    lineStop s n .read (s.sreg n t (fA w) + sextImm w) (some (fDst w)) = none →
    ((s.retire n t).readLine (s.sreg n t (fA w) + sextImm w).toNat n).1 = some l →
      ∃ v, exec (.ldl n t w) s = .next v ∧ v.sreg n t 0 = 0 ∧
        ∀ i, 0 < i → i < 8 → v.sreg n t i = BitVec.ofNat 64 (natAt l (8 * i) 8))

/-! ### Control flow -/

/-- R30 to R34: where LOOP, ENDLOOP, CALL, RET and JMP leave the stream; and R37: an ENDLOOP with a swap pending also replaces the old
region by the new one in its stream's PC, calls and loops, and increments the stream's completion flag, beside the signal of its own word.
A LOOP of count 0 takes the index after its end modulo 2^32 (log entry 57, DESIGN CHOICE). -/
def Obligations.LoopsCallsAndJumps : Prop :=
  (Issues .loop loopReq always (fun s n t w u =>
    let x := (s.core n).ctx t
    let count := s.sreg n t (fA w)
    u.modCtx n t fun y =>
      if count = 0 then { y with pcIndex := BitVec.ofNat 32 (x.pcIndex.toNat + fImm w + 1) }
      else { y with
        loops := { start := x.pcIndex + 1, stop := x.pcIndex.toNat + fImm w, remaining := count, iter := 0, region := y.pcRegion,
                   frame := y.calls.length } :: y.loops
        pcIndex := x.pcIndex + 1 }) ∧
  Issues .endloop endloopReq (fun s n t _ => ((s.core n).ctx t).swap = none) (fun s n t _ u =>
    u.modCtx n t fun y =>
      match y.loops with
      | [] => y
      | l :: r =>
        if l.remaining ≠ 1 then { y with loops := { l with remaining := l.remaining - 1, iter := l.iter + 1 } :: r, pcIndex := l.start }
        else { y with loops := r, pcIndex := ((s.core n).ctx t).pcIndex + 1 }) ∧
  Issues .call callReq always (fun s n t w u =>
    u.modCtx n t fun y =>
      { y with calls := { region := ((s.core n).ctx t).pcRegion, index := ((s.core n).ctx t).pcIndex + 1 } :: y.calls
               pcRegion := BitVec.ofNat 8 (fBits w 32 8), pcIndex := BitVec.ofNat 32 (fImm w) }) ∧
  Issues .ret retReq always (fun _ n t _ u =>
    State.settleCode u (u.modCtx n t fun y =>
      match y.calls with
      | [] => y
      | e :: r => { y with calls := r, pcRegion := e.region, pcIndex := e.index }) n) ∧
  Issues .jmp jmpReq always (fun s n t w u =>
    u.modCtx n t fun y =>
      { y with pcIndex := BitVec.ofInt 32 (((s.core n).ctx t).pcIndex.toNat + (BitVec.ofNat 32 (fImm w)).toInt) })) ∧
  (∀ (s : State) (n : CoreId) (t : Stream) (w : Word128) (o nw : Byte), Passes s n t w (endloopReq s n t w) →
    ((s.core n).ctx t).swap = some (o, nw) →
      ∃ u, exec (.endloop n t w) s = .next u ∧ ((u.core n).ctx t).swap = none ∧
        ((u.core n).ctx t).pcRegion = (if ((s.core n).ctx t).pcRegion = o then nw else ((s.core n).ctx t).pcRegion) ∧
        ((u.core n).ctx t).calls = ((s.core n).ctx t).calls.map (fun e => if e.region = o then { e with region := nw } else e) ∧
        ((u.core n).ctx t).loops = (((s.core n).ctx t).endLoop ((s.core n).ctx t).pcIndex).loops.map
          (fun e => if e.region = o then { e with region := nw } else e) ∧
        (u.core n).flag (swapFlag t) = (s.core n).flag (swapFlag t) + 1 ∧
        (fSigEn w = true → (u.core n).flag (fSigFlag w) = (s.core n).flag (fSigFlag w) + sigAmount ((s.core n).ctx t) w) ∧
        (∀ k, u.sreg n t k = s.sreg n t k))

/-- R33: where a JMP may go, and that any other target halts the core with STACK_DEPTH. -/
def Obligations.JumpTargetBounds : Prop :=
  ∀ (s : State) (n : CoreId) (t : Stream) (w : Word128),
    let x := (s.core n).ctx t
    let r := jmpReq s n t w
    let target : Int := x.pcIndex.toNat + (BitVec.ofNat 32 (fImm w)).toInt
    let inRegion := ∃ r, s.region? x.pcRegion.toNat = some r ∧ 0 ≤ target ∧ target < 4 * r.lines
    let inLoop := ∀ l, x.frameLoop = some l → (l.start.toNat : Int) ≤ target ∧ target ≤ l.stop
    ownWord .jmp n t w = true → s.canIssue n t w = true → (s.core n).waitHolds t w = true → s.wordFree n t w = true →
    s.goesFirst n t = true →
    issueCheck x w r.form r.reserved r.needs none = none →
      (inRegion ∧ inLoop → ∃ u, exec (.jmp n t w) s = .next u ∧ ((u.core n).ctx t).pcIndex = BitVec.ofInt 32 target ∧
        ((u.core n).ctx t).pcRegion = x.pcRegion ∧ (u.core n).halt = (s.core n).halt) ∧
      (¬ (inRegion ∧ inLoop) → ∃ u, exec (.jmp n t w) s = .next u ∧ (u.core n).halt.halted = true ∧ (u.core n).halt.reason = 0x13)

/-! ### Descriptor registers -/

/-- R27, R105: LDD binds the descriptor its two lines hold, MOVD copies one, DBASE moves a base by lines, DSIZE sets a size, and
DCLR unsets a register. A descriptor that LDD, DBASE or DSIZE would bind and that fails a check of Table 05-3 halts the core, and the register
keeps what it held. -/
def Obligations.DescriptorInstructions : Prop :=
  ((∀ (s u v : State) (n : CoreId) (t : Stream) (w : Word128) (l m : List Byte),
    let a := s.sreg n t (fA w) + sextImm w
    Passes s n t w (lddReq s n t w) → lineStop s n .read a none = none → scalarRead (s.retire n t) n a.toNat = .ok (l, u) →
    lineStop u n .read (a + 64) none = none → scalarRead u n (a.toNat + 64) = .ok (m, v) →
    v.validate (fDst w) (parseDesc (l ++ m)) = none →
      exec (.ldd n t w) s = .next (signalled s n t w (lddReq s n t w)
        (v.modCtx n t fun x => x.setDreg (fDst w) (parseDesc (l ++ m))))) ∧
  Issues .movd movdReq always (fun s n t w u =>
    match s.core n |>.ctx t |>.dreg (fA w) with
    | some d => u.modCtx n t fun x => x.setDreg (fDst w) d
    | none => u) ∧
  (∀ (s : State) (n : CoreId) (t : Stream) (w : Word128) (d : Desc) (b : Nat),
    Passes s n t w (dbaseReq s n t w) → ((s.core n).ctx t).dreg (fA w) = some d →
    movedBase d.base (s.sreg n t (fB w)) = some b → (s.retire n t).validate (fDst w) { d with base := b } = none →
      exec (.dbase n t w) s = .next (signalled s n t w (dbaseReq s n t w)
        ((s.retire n t).modCtx n t fun x => x.setDreg (fDst w) { d with base := b }))) ∧
  (∀ (s : State) (n : CoreId) (t : Stream) (w : Word128) (d : Desc),
    let e := { d with size := d.size.set (fBits w 32 3) ((s.sreg n t (fB w)).toNat % 2 ^ 32) }
    Passes s n t w (dsizeReq s n t w) → ((s.core n).ctx t).dreg (fA w) = some d → (s.retire n t).validate (fDst w) e = none →
      exec (.dsize n t w) s = .next (signalled s n t w (dsizeReq s n t w)
        ((s.retire n t).modCtx n t fun x => x.setDreg (fDst w) e))) ∧
  Issues .dclr dclrReq always (fun _ n t w u => u.modCtx n t fun x => { x with dregs := terase x.dregs (fDst w) })) ∧
  (∀ (s : State) (n : CoreId) (t : Stream) (w : Word128) (d : Desc) (st : Stop),
    let e := { d with size := d.size.set (fBits w 32 3) ((s.sreg n t (fB w)).toNat % 2 ^ 32) }
    Passes s n t w (dsizeReq s n t w) → ((s.core n).ctx t).dreg (fA w) = some d →
    (s.retire n t).validate (fDst w) e = some st →
      ∃ u, exec (.dsize n t w) s = .next u ∧ (u.core n).halt = firstRecord (s.core n).halt (s.haltPlace n t 0) st ∧
        ((u.core n).ctx t).dregs = ((s.core n).ctx t).dregs ∧ (u.core n).flags = (s.core n).flags) ∧
  (∀ (s : State) (n : CoreId) (t : Stream) (w : Word128) (d : Desc) (st : Stop),
    Passes s n t w (dbaseReq s n t w) → ((s.core n).ctx t).dreg (fA w) = some d →
    (match movedBase d.base (s.sreg n t (fB w)) with
     | none => st = rangeStop (fDst w) 8 d.base
     | some b => (s.retire n t).validate (fDst w) { d with base := b } = some st) →
      ∃ u, exec (.dbase n t w) s = .next u ∧ (u.core n).halt = firstRecord (s.core n).halt (s.haltPlace n t 0) st ∧
        ((u.core n).ctx t).dregs = ((s.core n).ctx t).dregs ∧ (u.core n).flags = (s.core n).flags) ∧
  (∀ (s u v : State) (n : CoreId) (t : Stream) (w : Word128) (l m : List Byte) (st : Stop),
    let a := s.sreg n t (fA w) + sextImm w
    Passes s n t w (lddReq s n t w) → lineStop s n .read a none = none → scalarRead (s.retire n t) n a.toNat = .ok (l, u) →
    lineStop u n .read (a + 64) none = none → scalarRead u n (a.toNat + 64) = .ok (m, v) →
    v.validate (fDst w) (parseDesc (l ++ m)) = some st →
      ∃ x, exec (.ldd n t w) s = .next x ∧ (x.core n).halt = firstRecord (s.core n).halt (s.haltPlace n t 0) st ∧
        ((x.core n).ctx t).dregs = ((s.core n).ctx t).dregs ∧ (x.core n).flags = (s.core n).flags)

/-! ### Sync instructions -/

/-- R53, R66 to R68, R346, R37, R40: NOP, WAIT, SIGNAL, BARRIER, TESTWIN, CODESWAP and HALT. -/
def Obligations.SyncInstructions : Prop :=
  Issues .nop nopReq always (fun _ _ _ _ u => u) ∧
  Issues .waitOp waitOpReq always (fun _ _ _ _ u => u) ∧
  Issues .signal signalReq always (fun s n t w u =>
    match ((s.core n).ctx t).dreg (fA w) with
    | none => u
    | some d =>
      match d.rflag with
      | none => u
      | some r =>
        if fSigEn w then u.modCore n fun c =>
          { c with outSignals := c.outSignals ++
              [{ module := r.module, core := r.core, flag := r.flag, vc := r.vc, amount := sigAmount ((s.core n).ctx t) w }] }
        else u) ∧
  Issues .testwin testwinReq always (fun _ n t _ u =>
    u.modCtx n t fun x => { x with atWindow := true, hold := .window }) ∧
  Issues .codeswap codeswapReq always (fun _ n _ w u =>
    let v := u.modCtx n (streamOf (fBits w 32 2)) fun x =>
      { x with swap := some (BitVec.ofNat 8 (fBits w 40 8), BitVec.ofNat 8 (fBits w 48 8)) }
    { v with image := { v.image with retired := v.image.retired.filter (· != fBits w 48 8) } }) ∧
  Issues .haltOp haltOpReq always (fun s n t w u => u.haltCore n (s.haltPlace n t 6) { reason := 0, info := fImm w }) ∧
  (∀ (s : State) (n : CoreId) (t : Stream) (w : Word128), Passes s n t w (barrierReq s n t w) →
    ∃ u, exec (.barrier n t w) s = .next (signalled s n t w (barrierReq s n t w) u) ∧
      ∃ a : Arrival, u.arrivals = s.arrivals ++ [a] ∧ a.level = fBits w 38 2 ∧ a.barrier = fBits w 32 6 ∧
        a.course = courseOf n ∧ a.core = n ∧ a.stream = t ∧ a.region = ((s.core n).ctx t).pcRegion ∧
        a.index = ((s.core n).ctx t).pcIndex ∧ a.round < 4 ∧
        ((u.core n).ctx t).unreleased = ((s.core n).ctx t).unreleased ++
          [{ level := a.level, course := a.course, barrier := a.barrier, gen := a.round, done := false }])

/-- R40, R41: the first fault of a core is recorded and every stream of it stops; a fault that follows while it drains is only
counted, up to the end of the counter. -/
def Obligations.FirstFaultIsRecorded : Prop :=
  ∀ (s : State) (n : Nat) (p : HaltAt) (st : Stop),
    ((s.core n).halt.halted = false →
      ((s.haltCore n p st).core n).halt = firstRecord (s.core n).halt p st ∧
      (∀ t, (((s.haltCore n p st).core n).ctx t).held = none ∧ (((s.haltCore n p st).core n).ctx t).hold = .none) ∧
      ((s.haltCore n p st).core n).flags = (s.core n).flags ∧ (s.haltCore n p st).mem = s.mem) ∧
    ((s.core n).halt.halted = true → (s.core n).halt.draining = true →
      ((s.haltCore n p st).core n).halt =
        { (s.core n).halt with secondary := BitVec.ofNat 32 (min ((s.core n).halt.secondary.toNat + 1) (2 ^ 32 - 1)) }) ∧
    ((s.core n).halt.halted = true → (s.core n).halt.draining = false → s.haltCore n p st = s)

/-- R46, R50, R42, R60, R284: an increment that a core's flag unit accepts adds its amount once, modulo 2^32, to that one flag, whether
the core is gated or halted; it opens a closed gate, but for a core that the loaded image leaves inactive, whose clock stays gated;
and it changes nothing else of the core: no stream, no place in the issue order, no queue, engine, channel or other counter. -/
def Obligations.IncrementAddsOnce : Prop :=
  ∀ (s : State) (n k : Nat) (amount : W32), s.roleHeld n = false →
    ((s.incFlag n k amount).core n).flag k = (s.core n).flag k + amount ∧
    (∀ j, j ≠ k → ((s.incFlag n k amount).core n).flag j = (s.core n).flag j) ∧
    (¬ (s.image.loaded = true ∧ (s.core n).active = false) →
      ((s.incFlag n k amount).core n).gated = false ∧
      ((s.incFlag n k amount).core n).gateWakes = (s.core n).gateWakes + (if (s.core n).gated then 1 else 0)) ∧
    (s.image.loaded = true → (s.core n).active = false →
      ((s.incFlag n k amount).core n).gated = (s.core n).gated ∧
      ((s.incFlag n k amount).core n).gateWakes = (s.core n).gateWakes) ∧
    ((s.incFlag n k amount).core n).halt = (s.core n).halt ∧
    ((s.incFlag n k amount).core n).beside = (s.core n).beside ∧ (∀ t, ((s.incFlag n k amount).core n).ctx t = (s.core n).ctx t) ∧
    ((s.incFlag n k amount).core n).order = (s.core n).order ∧ ((s.incFlag n k amount).core n).icache = (s.core n).icache ∧
    (∀ m, m ≠ n → (s.incFlag n k amount).core m = s.core m) ∧ (s.incFlag n k amount).beside = s.beside

/-! ### Instructions of the engines, as they issue -/

/-- R21, R19, R215, R179: an instruction of an engine that passes enters the engine's queue with its operands taken at issue. DA.FILL and
DA.SWAP take their tile at once, VE.OPT takes its group's published schedule values beside the descriptors of its sources and its
destinations, and a Valley instruction carries the epoch of its tag's block. -/
def Obligations.EngineInstructionsEnterTheirQueue : Prop :=
  (∀ p ∈ denseRows, ∀ (s : State) (n : CoreId) (t : Stream) (w : Word128), Passes s n t w (p.req s n t w) →
    exec (p.ctor n t w) s = .next (p.queued s n t w)) ∧
  (∀ p ∈ gmeRows, ∀ (s : State) (n : CoreId) (t : Stream) (w : Word128), Passes s n t w (p.req s n t w) →
    exec (p.ctor n t w) s = .next (p.queued s n t w)) ∧
  ((∀ p ∈ vectorRows, ∀ (s : State) (n : CoreId) (t : Stream) (w : Word128), Passes s n t w (p.req s n t w) →
    exec (p.ctor n t w) s = .next (p.queued s n t w)) ∧
  (∀ p ∈ [(Instr.veOpt, veOptReq, optRegs), (Instr.veOptCommit, veOptCommitReq, fun _ w => [fA w, fA w + 1, fDst w, fDst w + 1])],
    ∀ (s : State) (n : CoreId) (t : Stream) (w : Word128), ownWord p.1 n t w = true → Passes s n t w (p.2.1 s n t w) →
      exec (p.1 n t w) s = .next (signalled s n t w (p.2.1 s n t w) ((s.retire n t).modCore n fun c =>
        c.push .ve { s.engOp n t w (p.2.2 s w) with sched := tget (s.course (courseOf n)).sched (optGroup w) {} })))) ∧
  (∀ p ∈ moveRows, ∀ (s : State) (n : CoreId) (t : Stream) (w : Word128), Passes s n t w (p.req s n t w) →
    exec (p.ctor n t w) s = .next (p.queued s n t w))

/-- The frame of an engine instruction at issue: its registers, every memory byte, every other core and everything of the module
beside the cores are unchanged, and no flag changes but the one that it signals at issue. -/
def Obligations.EngineIssueFrame : Prop :=
  ∀ p ∈ denseRows ++ gmeRows ++ vectorRows ++ optRows ++ moveRows, ∀ (s u : State) (n : CoreId) (t : Stream) (w : Word128),
    ownWord p.ctor n t w = true → Passes s n t w (p.req s n t w) → exec (p.ctor n t w) s = .next u →
      u.beside = s.beside ∧ (∀ m, m ≠ n.val → u.core m = s.core m) ∧ (∀ k, u.sreg n t k = s.sreg n t k) ∧
      (∀ t' k, ((u.core n).ctx t').dreg k = ((s.core n).ctx t').dreg k) ∧
      (∀ t', t' ≠ t → (u.core n).ctx t' = (s.core n).ctx t') ∧ (u.core n).halt = (s.core n).halt ∧
      (∀ k, (fSigEn w = true ∧ fSigWhen w = 0 ∧ fSigFlag w = k) ∨ (u.core n).flag k = (s.core n).flag k) ∧
      (∀ a, u.byteAt a = s.byteAt a)

/-! ### Instructions of the engines, as they execute -/

/-- R124, R127, R141: the head of the dense array's queue begins when its unit is free: a swap puts the shadow in the stationary tile's
place and is finished at once; a fill or a product occupies its unit; a drain takes its rows, and one that meets a fault in them goes
and halts the core. R26, R40: one that meets no fault ends with its unit free and its signal sent; on a fault no line of memory has
changed, nothing is signalled, its unit is free and the core halts with the array as the engine that detected it. R350: one that meets a line
whose read is held is still to do. That a drain reads its rows at its begin, and that a swap acts and signals at its begin and leaves the
shadow as it stands, are the model's (log entry 17, DEDUCED and DESIGN CHOICE). -/
def Obligations.DenseInstructionEvents : Prop :=
  (∀ (s : State) (n : CoreId) (o : EngOp) (r : List EngOp),
    (s.core n).da.queue = o :: r → (s.core n).da.mayBegin o = true →
    (daUnitOf o = none →
      exec (.daInstructionBegin n) s = .next ((s.modCore n fun c =>
        { c with da := { c.da with stat := c.da.shadow, queue := r } }).completeSignal n .da o.sig none)) ∧
    (∀ u, daUnitOf o = some u → u ≠ .drain →
      exec (.daInstructionBegin n) s = .next (s.modCore n fun c =>
        { c with da := { c.da with queue := r, running := c.da.running ++ [(u, o)] } })) ∧
    (daUnitOf o = some .drain →
      ∀ u v, u = (s.modCore n fun c => { c with da := { c.da with queue := r, running := c.da.running ++ [(.drain, o)] } }) →
        ((beginDrain n o).run u = (.ok (), v) → exec (.daInstructionBegin n) s = .next v) ∧
        (∀ st, (beginDrain n o).run u = (.error st, v) → (v.core n).halt.halted = false →
          ∃ t, exec (.daInstructionBegin n) s = .next t ∧ t.mem = v.mem ∧ (t.core n).halt.halted = true ∧
            (t.core n).halt.reason = BitVec.ofNat 8 st.reason ∧ (t.core n).halt.engine = 1 ∧ (t.core n).halt.pcIndex = o.index ∧
            (∀ m k, (t.core m).flag k = (v.core m).flag k) ∧ (t.core n).arrives = (v.core n).arrives ∧
            (t.core n).da.queue = [] ∧ ((t.core n).da.running.find? fun x => x.1 == .drain) = none))) ∧
  (∀ (s v : State) (n : CoreId) (u : DaUnit) (o : EngOp) (st : Stop),
    ((s.core n).da.running.find? fun x => x.1 == u) = some (u, o) →
    ((daCompute n o).run s = (.ok (), v) →
      exec (.daInstructionComplete n u) s = .next ((v.modCore n fun c =>
          { c with da := { c.da with running := c.da.running.filter fun x => x.1 != u
                                     drained := if u = .drain then [] else c.da.drained } }).completeSignal n .da o.sig
        (if u = .drain then some o.dst else none))) ∧
    ((daCompute n o).run s = (.error st, v) → st.waits = true → exec (.daInstructionComplete n u) s = .next s) ∧
    ((daCompute n o).run s = (.error st, v) → st.waits = false → (v.core n).halt.halted = false →
      ∃ t, exec (.daInstructionComplete n u) s = .next t ∧ t.mem = s.mem ∧ t.memErr = s.memErr ∧
        (∀ m k, (t.core m).flag k = (v.core m).flag k) ∧ (t.core n).arrives = (v.core n).arrives ∧
        (t.core n).halt.halted = true ∧ (t.core n).halt.reason = BitVec.ofNat 8 st.reason ∧ (t.core n).halt.engine = 1 ∧
        (t.core n).halt.pcIndex = o.index ∧ (t.core n).halt.pcRegion = o.region ∧
        ((t.core n).da.running.find? fun x => x.1 == u) = none))

/-- R145 to R163: an instruction of the gather-merge engine begins, its yealms begin in their own lane or in another's, its
deferred sums fold in order, and it completes once nothing of it is left. R350: a begin whose reads are held is still to do. -/
def Obligations.GatherMergeEvents : Prop :=
  (∀ (s : State) (n : CoreId) (o : EngOp) (r : List EngOp), (s.core n).gme.run = none → (s.core n).gme.queue = o :: r →
    ∃ v : State, (v.core n).gme.run = some o ∧ (v.core n).gme.queue = r ∧ (v.core n).gme.lastOpcode = BitVec.ofNat 8 (fOpcode o.w) ∧
      v.mem = s.mem ∧
      (fOpcode o.w ≠ 0x60 → fOpcode o.w ≠ 0x61 → fOpcode o.w ≠ 0x6A → exec (.gmeInstructionBegin n) s = .next v) ∧
      (∀ work, (fOpcode o.w = 0x60 ∨ fOpcode o.w = 0x61) ∧ work = beginCut n o ∨ fOpcode o.w = 0x6A ∧ work = beginTranspose o →
        (∀ x, work.run v = (.ok (), x) → exec (.gmeInstructionBegin n) s = .next x) ∧
        (∀ st x, work.run v = (.error st, x) → st.waits = false → exec (.gmeInstructionBegin n) s = .next (x.haltOp n 2 o st)) ∧
        (∀ st x, work.run v = (.error st, x) → st.waits = true → exec (.gmeInstructionBegin n) s = .next s))) ∧
  (∀ (s : State) (n : CoreId) (lane : LaneId) (o : EngOp) (y : Yealm), (s.core n).gme.run = some o →
    (s.core n).gme.ownYealm o lane = some y →
      exec (.yealmBegin n lane) s = .next (s.runKeep n 2 o (beginYealm n o lane lane y) id)) ∧
  (∀ (s : State) (n : CoreId) (lane : LaneId) (o : EngOp) (k : Nat) (y : Yealm), (s.core n).gme.run = some o →
    (s.core n).gme.ownYealm o lane = none → (s.core n).gme.stolen o lane = some (k, y) →
      exec (.yealmSteal n lane) s = .next (s.runKeep n 2 o (do
        modGme n fun g => { g with steals := sat32 g.steals 1 }
        beginYealm n o lane k y) id)) ∧
  (∀ (s : State) (n : CoreId) (row : Nat) (o : EngOp) (d : Deferred), (s.core n).gme.run = some o →
    ((s.core n).gme.deferred.find? fun d => d.row == row && d.ordinal == (s.core n).gme.finishedFor row) = some d →
      exec (.mergeFold n row) s = .next (s.runKeep n 2 o (foldDeferred n o d) id)) ∧
  (∀ (s v : State) (n : CoreId) (o : EngOp), (s.core n).gme.run = some o → (s.core n).gme.drained = true →
    (gmeCompute n o).run s = (.ok (), v) →
      exec (.gmeInstructionComplete n) s = .next (((v.modCore n fun c =>
        { c with gme := { c.gme.idle with run := none } }).raiseDrops n o
          (v.core n).gme.drops).completeSignal n .gme o.sig (some o.dst)))

/-- R26, R29: the vector engine finishes the head of its queue and signals; on a fault it has changed no line of memory and its core halts
(R40); work that meets a held read is still to do (R350); and the collective engines then go on with what waited for a ring's credits
(R206, R274). An arrival signal is delivered once, oldest first of its engine, with the earlier ones of its path before it (R55). A signal at
completion is sent then, one at destination arrival waits when the instruction writes memory and is sent at completion when it writes none; on
the path to a scratchpad it leaves nothing of that path behind it. -/
def Obligations.EngineCompletions : Prop :=
  ((∀ (s v : State) (n : CoreId) (o : EngOp) (r : List EngOp), (s.core n).ve = o :: r → (veRun n o).run s = (.ok (), v) →
    exec (.engineCompletion n .ve .completion) s = .next ((v.modCore n fun c => { c with ve := c.ve.tail }).completeSignal n .ve o.sig
      (if opCode o.w = 0xA5 then none else some o.dst)).landAll) ∧
  (∀ (s v : State) (n : CoreId) (o : EngOp) (r : List EngOp) (st : Stop), (s.core n).ve = o :: r →
    (veRun n o).run s = (.error st, v) → st.waits = true → exec (.engineCompletion n .ve .completion) s = .next s.landAll) ∧
  (∀ (s v : State) (n : CoreId) (o : EngOp) (r : List EngOp) (st : Stop), (s.core n).ve = o :: r →
    (veRun n o).run s = (.error st, v) → st.waits = false → (v.core n).halt.halted = false →
      ∃ t : State, exec (.engineCompletion n .ve .completion) s = .next t.landAll ∧ t.mem = s.mem ∧ (t.core n).ve = [] ∧
        (t.core n).halt.halted = true ∧ (t.core n).halt.reason = BitVec.ofNat 8 st.reason ∧ (t.core n).halt.engine = 3) ∧
  (∀ (s : State) (n : CoreId) (e : EngKind) (p : PendArrive) (i : Nat),
    ((s.core n).arrives.findIdx? fun p => p.eng == e) = some i → (s.core n).arrives[i]? = some p → s.roleHeld p.core = false →
      ∃ t, exec (.engineCompletion n e .arrival) s = .next t ∧
        (t.core n).arrives = (((s.core n).arrives.take i).filter fun q => !(p.onPath && q.onPath && q.core == p.core)) ++
          (s.core n).arrives.drop (i + 1) ∧
        (((s.core n).arrives.take i).all (fun q => !(p.onPath && q.onPath && q.core == p.core)) = true →
          (t.core p.core).flag p.flag = (s.core p.core).flag p.flag + p.amount))) ∧
  (∀ (s : State) (n : Nat) (e : EngKind) (g : Sig) (d : Desc), s.roleHeld n = false →
    (g.en = false → ∀ x, s.completeSignal n e g x = s) ∧
    (g.en = true → g.when_ = 0 → ∀ x, s.completeSignal n e g x = s) ∧
    (g.en = true → g.when_ = 1 → ∀ x, s.completeSignal n e g x = s.incFlag n g.flag g.amount) ∧
    (g.en = true → g.when_ = 2 → s.completeSignal n e g none = s.incFlag n g.flag g.amount) ∧
    (g.en = true → g.when_ = 2 → onScratchpad (some d) = true → ∃ l, ((s.completeSignal n e g (some d)).core n).arrives =
      l ++ [{ eng := e, core := arrivalCore n (some d), flag := g.flag, amount := g.amount, onPath := true }] ∧
      (∀ p ∈ l, ¬ (p.onPath = true ∧ p.core = arrivalCore n (some d))) ∧
      ∀ q ∈ ((s.completeSignal n e g (some d)).core n).outSignals,
        ¬ (q.module = s.fabric.coord ∧ q.core = arrivalCore n (some d) ∧ q.vc = 0)) ∧
    (g.en = true → g.when_ = 2 → onScratchpad (some d) = false → ((s.completeSignal n e g (some d)).core n).arrives =
      (s.core n).arrives ++ [{ eng := e, core := arrivalCore n (some d), flag := g.flag, amount := g.amount,
                               onPath := false }] ∧
      ∀ k, ((s.completeSignal n e g (some d)).core n).flag k = (s.core n).flag k))

/-! ### DMA -/

/-- R115, R119: a DMA instruction leaves the engine's queue in order: a START enters its channel's queue while that has a slot, a STOP
discards what its channel still has queued and owes it a record. R113, R116, R117: a channel with no transfer under way, no stop owed
and a slot in its completion queue begins its next transfer; when the transfer may not begin, it ends at once with the fault's record
and the core's halt. One from another module asks for each source line once, one into another module sends its destination lines in order.
That a local transfer moves nothing at its begin, and that a STOP signals as it acts, are the model's (log entry 21, DEDUCED). -/
def Obligations.DmaQueueAndTransferBegin : Prop :=
  (∀ (s : State) (n : CoreId) (o : EngOp) (r : List EngOp), (s.core n).dma = o :: r →
    (opCode o.w ≠ 0xC1 → (s.chan n (opChan o)).queue.length < Config.channelDepth →
      exec (.dmaQueueAdmit n) s = .next ((s.modCore n fun c => { c with dma := r }).modChan n (opChan o) fun x =>
        { x with queue := x.queue ++ [o] })) ∧
    (opCode o.w ≠ 0xC1 → ¬ (s.chan n (opChan o)).queue.length < Config.channelDepth → exec (.dmaQueueAdmit n) s = .next s) ∧
    (opCode o.w = 0xC1 →
      exec (.dmaQueueAdmit n) s = .next (((s.modCore n fun c => { c with dma := r }).modChan n (opChan o) fun x =>
        { x with queue := [], stops := x.stops ++ [{ cause := some o, next := x.queue.head? }] }).completeSignal n .dma o.sig none))) ∧
  (∀ (s : State) (n : CoreId) (k : ChanId) (o : EngOp) (r : List EngOp),
    let m := dmaMove o.w o.a o.dst
    (s.chan n k).queue = o :: r → (s.chan n k).cur = none → (s.chan n k).stops = [] → s.cqSlot n k = true →
    (m.beginStop s (fBits o.w 35 1 == 1) (fDst o.w) (fA o.w) = none → m.src.remote = false → m.dst.remote = false →
      ∃ t x, exec (.transferBegin n k) s = .next t ∧ (t.chan n k).cur = some x ∧ x.op = o ∧ x.status = 0 ∧
        x.began = (s.slope (slopeOf (courseOf n))).arithCycles.toNat ∧ (t.chan n k).queue = r ∧ t.mem = s.mem) ∧
    (m.beginStop s (fBits o.w 35 1 == 1) (fDst o.w) (fA o.w) = none →
      exec (.transferBegin n k) s = .next ((s.modChan n k fun x =>
        { x with queue := r, cur := some { op := o, began := (s.slope (slopeOf (courseOf n))).arithCycles.toNat,
                                           todo := if m.src.remote then (m.lines.flatMap fun y => m.sources y.2.1 y.2.2).dedup
                                             else if m.dst.remote then List.range m.blocks.flatten.length else [] } }).dmaGoOn n k)) ∧
    (∀ st a, m.beginStop s (fBits o.w 35 1 == 1) (fDst o.w) (fA o.w) = some (st, a) →
      exec (.transferBegin n k) s = .next ((s.modChan n k fun x =>
        { x with queue := r, cur := some { op := o, began := (s.slope (slopeOf (courseOf n))).arithCycles.toNat,
                                           status := BitVec.ofNat 8 st.reason, own := true, addr := a } }).dmaFinish n k)))

/-- R116, R118, R119: a transfer whose lines are all sent ends with its record: one into another module with barrier 0 whether its
acknowledgements have come or not, with the lines that left and were not refused, and with barrier 1 once they all have; one from another
module once every line has come. One into this module moves its lines in that step, which is the model's choice of the moment (log entry 21,
DEDUCED), unless a source line of it is held (R350). A stopped channel writes its STOPPED record, status
0x80, once no transfer is under way and a slot is free. Each record is counted, and the channel's flag 480 + k takes one increment. -/
def Obligations.CompletionRecords : Prop :=
  (∀ (s : State) (n : CoreId) (k : ChanId) (x : Xfer), (s.chan n k).cur = some x → x.todo = [] → x.op.dst.remote = false →
    (x.pending = 0 → s.moveHeld n (dmaMove x.op.w x.op.a x.op.dst) = false → ∀ y, y = dmaLocal s n (dmaMove x.op.w x.op.a x.op.dst) x.got →
      exec (.completionRecord n k) s = .next ((y.1.modXfer n k fun z =>
        match y.2.2 with
        | some e => ({ z with lines := y.2.1 } : Xfer).fail e
        | none => { z with lines := y.2.1 }).dmaFinish n k)) ∧
    (x.pending = 0 → s.moveHeld n (dmaMove x.op.w x.op.a x.op.dst) = true → exec (.completionRecord n k) s = .next s) ∧
    (x.op.a.remote = true → x.pending ≠ 0 → exec (.completionRecord n k) s = .next s)) ∧
  (∀ (s : State) (n : CoreId) (k : ChanId) (x : Xfer), (s.chan n k).cur = some x → x.todo = [] → x.op.dst.remote = true →
    x.op.a.remote = false →
    (fBits x.op.w 34 1 ≠ 1 → exec (.completionRecord n k) s =
      .next ((s.modXfer n k fun y => { y with lines := y.sent - y.refused }).dmaFinish n k)) ∧
    (fBits x.op.w 34 1 = 1 → x.pending = 0 → exec (.completionRecord n k) s = .next ((s.modXfer n k fun y => y).dmaFinish n k)) ∧
    (fBits x.op.w 34 1 = 1 → x.pending ≠ 0 → exec (.completionRecord n k) s = .next s)) ∧
  (∀ (s : State) (n : CoreId) (k : ChanId) (st : Stopping) (r : List Stopping), (s.chan n k).stops = st :: r →
    (s.chan n k).cur = none → s.cqSlot n k = true →
      exec (.stoppedRecord n k) s = .next ((s.modChan n k fun y => { y with stops := r }).putRecord n k
        { status := 0x80, op := st.cause, next := st.next })) ∧
  (∀ (s : State) (n k : Nat) (b : RecordBody), s.roleHeld n = false → (∀ p ∈ (s.core n).arrives, p.flag ≠ 480 + k) →
    (∀ g ∈ (s.core n).outSignals, g.flag ≠ 480 + k) →
    ((s.putRecord n k b).chan n k).records = (s.chan n k).records + 1 ∧
    ((s.putRecord n k b).core n).flag (480 + k) = (s.core n).flag (480 + k) + 1)

/-! ### The Valley engine -/

/-- R173 to R180: what reaches a course by expert traffic. A row of a stale epoch is dropped and counted. Of the tag's own epoch: a
row for one expert of the course lands, and a backward one goes to the rank of its copy; a count header that is not the last of its
tag is kept, and the last one makes a completion notice for every course of the layer; a notice publishes to every owner of a slot of the
layer, once for each; a return row lands at its place of the tag's return area, or is counted where its home record is gone; a
return header is noted at its home; a cancellation newer than the block's epoch takes effect, and an older one none. The combine
at the head of its core's queue runs once its returns are complete, and not before; one whose tag was cancelled since its issue, so that its
home record is gone, halts the core with NOT_IN_STATE, case 0x03. That a return row without a home record is counted as stale is the model's
(log entry 23, DEDUCED). -/
def Obligations.ExpertTrafficEvents : Prop :=
  ((∀ (s u : State) (c : CourseId) (row : ValRow) (l : Layer), s.layer? row.layer = some l → s.takeVal (.row c row) = some u →
    (u.epochRule c row.tag row.epoch).2 = false →
      exec (.valleyRow c row) s = .next (u.epochRule c row.tag row.epoch).1) ∧
  (∀ (s u : State) (c : CourseId) (row : ValRow) (l : Layer) (k : Nat) (e : Expert), s.layer? row.layer = some l →
    Comes s u c (.row c row) row.tag row.epoch → rowTargets s l row = [(k, e)] → e.course = c.val →
    (row.backward = false → s.setHeld c row.layer l.ring row.tag = false → exec (.valleyRow c row) s = .next (landForward u l row k e)) ∧
    (row.backward = true → exec (.valleyRow c row) s = .next (landBackward u l row k e))) ∧
  (∀ (s u : State) (c : CourseId) (h : CountHdr) (l : Layer), s.layer? h.layer = some l → Comes s u c (.count c h) h.tag h.epoch →
    ∀ got, got = insertNat h.sender (countSenders s c h) →
      (((List.range (layerMembers s l).length).all (fun i => got.contains i) = true →
        ∃ t, exec (.countHeader c h) s = .next t ∧ countSenders t c h = [] ∧
          t.valPath = u.valPath ++ (layerCourses s l).map fun k => { source := 32 * c, msg := .notice k h.layer h.tag h.backward }) ∧
      ((List.range (layerMembers s l).length).all (fun i => got.contains i) = false →
        ∃ t, exec (.countHeader c h) s = .next t ∧ countSenders t c h = got ∧ t.valPath = u.valPath))) ∧
  (∀ (s u : State) (c : CourseId) (layer : Nat) (tag : BitVec 16) (l : Layer) (v : ValSet), s.layer? layer = some l →
    s.takeVal (.notice c layer tag true) = some u → u.set? c layer tag = some v →
      ∃ t, exec (.completionNotice c layer tag true) s = .next t ∧
        t = publish l c (sortNats ((layerSlots s l c).map (·.owner)))
          ((placeCounts l true c (setIndex l tag) ((layerSlots s l c).map (·.slot)) v.counts u).modSet c layer tag fun x =>
            { x with pubBwd := true })) ∧
  (∀ (s u : State) (c : CourseId) (layer : Nat) (tag : BitVec 16) (l : Layer), s.layer? layer = some l →
    s.setHeld c layer l.ring tag = false → s.landedHeld l c layer tag = false → s.takeVal (.notice c layer tag false) = some u →
      ∃ t, exec (.completionNotice c layer tag false) s = .next t ∧ (t.set? c layer tag).map (·.pubFwd) = some true ∧
        ∀ e ∈ layerSlots s l c, s.roleHeld (32 * c + e.owner) = false →
          (t.core (32 * c + e.owner)).flag l.publishFlag = (s.core (32 * c + e.owner)).flag l.publishFlag + 1)) ∧
  ((∀ (s u : State) (c : CourseId) (row : RetRow) (l : Layer) (n : Nat), s.layer? row.layer = some l →
    Comes s u c (.back c row) row.tag row.epoch → n = ((layerMembers s l).getD row.sender (0, 0)).2 →
    (((s.valley c).homes.find? fun h => h.is n row.layer row.tag row.backward row.epoch) = none →
      ∃ t, exec (.returnRow c row) s = .next t ∧ (t.valley c).staleReturn = sat32 (s.valley c).staleReturn 1 ∧ t.mem = u.mem) ∧
    (∀ h y, ((s.valley c).homes.find? fun h => h.is n row.layer row.tag row.backward row.epoch) = some h →
      y = u.valPut c (u.returnPlace l row.backward n row.token row.pos row.tag) (rowExtent l.returnFormat l.rowWidth) row.data →
      (y.2 = true → exec (.returnRow c row) s = .next (y.1.modHome n row.layer row.tag row.backward row.epoch fun x =>
        { x with returns := x.returns ++ [(row.token, row.pos)] })) ∧
      (y.2 = false → exec (.returnRow c row) s = .next y.1))) ∧
  (∀ (s u : State) (c : CourseId) (h : CountHdr) (m : ModAddr) (k : Nat) (l : Layer) (n : Nat), s.layer? h.layer = some l →
    Comes s u c (.backCount c h m k) h.tag h.epoch → n = ((layerMembers s l).getD h.sender (0, 0)).2 →
      exec (.returnCount c h m k) s = .next ((u.modHome n h.layer h.tag h.backward h.epoch fun x =>
        { x with headers := (m, k) :: x.headers }).settleHome n h.layer h.tag h.backward h.epoch)) ∧
  (∀ (s u : State) (c : CourseId) (block epoch : Byte), s.takeVal (.cancel c block.toNat epoch.toNat) = some u →
    (128 ≤ (tget (s.valley c).epochs block.toNat 0 - epoch).toNat →
      exec (.valleyCancel c block epoch) s = .next (u.cancelBlock c block.toNat epoch)) ∧
    (¬ 128 ≤ (tget (s.valley c).epochs block.toNat 0 - epoch).toNat → exec (.valleyCancel c block epoch) s = .next u))) ∧
  (∀ (s : State) (n : CoreId) (o : EngOp) (r : List EngOp), (s.core n).val = o :: r → opCode o.w = 0xD1 → o.begun = false →
    (∀ (h : HomeRec) (l : Layer), s.epochOf (courseOf n) (immTag o.w) = o.epochs.headD 0 → s.home? n o.w = some h →
      s.layer? (immLayer o.w) = some l →
      (∀ v, h.complete = true → (runCombine n o l h).run s = (.ok (), v) → exec (.combineBegin n) s = .next (v.modCore n setBegun)) ∧
      (h.complete = false → exec (.combineBegin n) s = .next s)) ∧
    (s.epochOf (courseOf n) (immTag o.w) ≠ o.epochs.headD 0 ∨ s.home? n o.w = none → (s.core n).halt.halted = false →
      ∃ t, exec (.combineBegin n) s = .next t ∧ (t.core n).halt.halted = true ∧ (t.core n).halt.reason = 0x14 ∧
        (t.core n).halt.info = BitVec.ofNat 64 (fOpcode o.w + 0x03 * 2 ^ 8 + (immTag o.w).toNat * 2 ^ 16) ∧
        (t.core n).halt.engine = 5 ∧ t.mem = s.mem))

/-! ### Halts, the instruction cache and the clock gate -/

/-- R40: a core that has drained raises HALT; at the bound a core that has not drained loses what it has left, and says so. R313: the job,
RUNNING or FAULTED, is HALTED once every loaded core has halted and drained, and as long as one has not it stays as it was. -/
def Obligations.DrainingEnds : Prop :=
  ∀ (s : State) (n : CoreId), (s.core n).halt.draining = true →
    ((s.core n).drained = true → ∃ t e, exec (.haltDrainComplete n) s = .next t ∧ (t.core n).halt.draining = false ∧
      (t.core n).halt.drainIncomplete = false ∧ e ∈ t.log.records ∧ e.code = 0x1 ∧ e.source = BitVec.ofNat 32 n ∧ e.kind = 3 ∧ t.mem = s.mem) ∧
    ((s.core n).drained = false → exec (.haltDrainComplete n) s = .next s) ∧
    ((s.core n).drained = false → ∃ t, exec (.drainTimeout n) s = .next t ∧ (t.core n).halt.draining = false ∧
      (t.core n).halt.drainIncomplete = true ∧ (t.core n).ve = [] ∧ (t.core n).dma = [] ∧ (t.core n).gme.run = none ∧ t.mem = s.mem) ∧
    (∀ t, (s.core n).drained = true ∧ exec (.haltDrainComplete n) s = .next t ∨
        (s.core n).drained = false ∧ exec (.drainTimeout n) s = .next t →
      ((s.job.state = .running ∨ s.job.state = .faulted) → (∀ x ∈ t.cores, x.2.finished = true) → t.job.state = .halted) ∧
      (∀ x ∈ t.cores, x.2.finished = false → t.job = s.job))

/-- R22, R35, R38, R39: a demanded line, at the base of the PC's code region, comes from the cache, else from the course's code cache, else
from memory; the core's cache takes it with the region and the epoch of the fill, a line of memory the course's code cache as well, and the
stream may go on. The counter of misses counts the demands that the cache does not meet, and a prefetch counts none; the words that a
cache's code corrects are counted (R236). A code region that the core may not read, or a line of memory that cannot be corrected, halts the
core, with engine 6 in the record (log entry 13, DEDUCED). A demanded line whose prefetch is under way comes with the prefetch (log entry 14,
DESIGN CHOICE). -/
def Obligations.InstructionFetch : Prop :=
  ∀ (s : State) (n : CoreId) (t : Stream) (r : CodeRegion),
    let x := (s.core n).ctx t
    let a := r.base + 64 * (x.pcIndex.toNat / 4)
    let filled (u : State) : Prop := ((u.core n).ctx t).fetchLine = some a ∧
      (u.core n).icacheMiss = (s.core n).icacheMiss + 1 ∧ ∃ l ∈ tget (u.core n).icache (cacheSet a) [],
        l.addr = a ∧ l.region = x.pcRegion ∧ l.epoch = (s.core n).codeEpoch
    s.region? x.pcRegion.toNat = some r → x.hasEntry = true → (s.core n).halt.halted = false →
    (x.prefetch.map (·.2) ≠ some a →
      ((∀ q : CacheRead, q.bad = false → s.permits (s.core n).regions .code a = true → (s.core n).cacheHit x.pcRegion.toNat a = true →
        ∃ u, exec (.icacheFill n t false q) s = .next u ∧ ((u.core n).ctx t).fetchLine = some a ∧
          (u.core n).icacheMiss = (s.core n).icacheMiss ∧ (u.core n).spadCe = sat32 (s.core n).spadCe q.corrected ∧ u.mem = s.mem) ∧
      (∀ q : CacheRead, q.bad = false → s.permits (s.core n).regions .code a = true → (s.core n).cacheHit x.pcRegion.toNat a = false →
        (s.course (courseOf n)).codeCache.contains a = true →
        ∃ u, exec (.icacheFill n t false q) s = .next u ∧ filled u ∧
          (u.course (courseOf n)).ulCe = sat32 (s.course (courseOf n)).ulCe q.corrected ∧ u.mem = s.mem) ∧
      (∀ d, s.permits (s.core n).regions .code a = true → (s.core n).cacheHit x.pcRegion.toNat a = false →
        (s.course (courseOf n)).codeCache.contains a = false → (s.lineRead a).data = some d →
        ∃ u, exec (.icacheFill n t false {}) s = .next u ∧ filled u ∧ (u.course (courseOf n)).codeCache.contains a = true) ∧
      (s.permits (s.core n).regions .code a = true → (s.core n).cacheHit x.pcRegion.toNat a = false →
        (s.course (courseOf n)).codeCache.contains a = false → (s.lineRead a).data = none →
        ∃ u, exec (.icacheFill n t false {}) s = .next u ∧
          (u.core n).halt = firstRecord (s.core n).halt (s.haltPlace n t 6) (uncorrectable a)) ∧
      (s.permits (s.core n).regions .code a = false →
        ∃ u, exec (.icacheFill n t false {}) s = .next u ∧
          (u.core n).halt = firstRecord (s.core n).halt (s.haltPlace n t 6) (denied .code a)))) ∧
    (x.prefetch.map (·.2) = some a → exec (.icacheFill n t false {}) s = .next s) ∧
    (∀ g b, x.adrift = [] → x.prefetch = some (g, b) → (s.core n).cacheHit g.toNat b = true →
      ∃ u, exec (.icacheFill n t true {}) s = .next u ∧ ((u.core n).ctx t).prefLine = some b ∧ ((u.core n).ctx t).prefetch = none ∧
        (u.core n).icacheMiss = (s.core n).icacheMiss ∧ u.mem = s.mem)

/-- R61, R62: when the watchdog of a stream whose wait is unmet has reached its period, and no other of its core has before it, the core
halts with WAIT_TIMEOUT: the flag, its value and the compare value; below the period nothing happens. That the record names engine 6 is the
model's (log entry 13, DEDUCED). -/
def Obligations.WatchdogHaltsTheCore : Prop :=
  ∀ (s : State) (n : CoreId) (t : Stream) (w : Word128), s.waitsOn n t = some w → (s.core n).halt.halted = false →
    (2 ^ (s.core n).wdogLog2.toNat ≤ ((s.core n).ctx t).wdog → s.barksFirst n t = false →
      ∃ u, exec (.waitTimeout n t) s = .next u ∧ (u.core n).halt = firstRecord (s.core n).halt (s.haltPlace n t 6)
        { reason := 0x0E, flag := fWaitFlag w,
          info := ((s.core n).flag (fWaitFlag w)).toNat * 2 ^ 32 + (s.sreg n t (fWaitSreg w)).toNat % 2 ^ 32 }) ∧
    (((s.core n).ctx t).wdog < 2 ^ (s.core n).wdogLog2.toNat → exec (.waitTimeout n t) s = .next s)

/-- R59, R60, R284: the gate of an idle core closes, whatever else stays, and that of a core at work does not; an accepted increment opens it,
but for a core that the loaded image leaves inactive. -/
def Obligations.ClockGate : Prop :=
  (∀ (s : State) (n : CoreId), (s.core n).gated = false → (s.core n).quiet = true →
    (∀ t, s.streamQuiet n t = true) → exec (.gateClose n) s = .next (s.setCore n { s.core n with gated := true })) ∧
  (∀ (s : State) (n : CoreId), (s.core n).quiet = false → exec (.gateClose n) s = .next s) ∧
  (∀ (s : State) (n k : Nat) (amount : W32), s.roleHeld n = false → ¬ (s.image.loaded = true ∧ (s.core n).active = false) →
    ((s.incFlag n k amount).core n).gated = false)

/-! ### Barriers and the step -/

/-- R67, R68, R70, R215: an arrival of the open generation is counted, one of the next generation is looked ahead, and any other halts its core
with BARRIER_OVERRUN. R70: a member module's arrival is recorded at the root, which completes the generation when every member has
arrived, and the next one too where its own participants have arrived ahead; the root's release completes the generation at a member that has arrived. When the
course's step barrier is full, its step counter advances by one, the group values of that step are published, and then the
participants are released. -/
def Obligations.BarriersAndSteps : Prop :=
  (∀ (s : State) (k : Nat) (a : Arrival), s.arrivals[k]? = some a →
    ((s.arrivals.take k).any fun x => x.core == a.core && x.stream == a.stream) = false →
    let b := s.barrier a.level a.course a.barrier
    let u : State := { s with arrivals := s.arrivals.eraseIdx k }
    (a.round = b.gen → exec (.barrierArrival k) s =
      .next ((u.setBarrier a.level a.course a.barrier { b with arrived := b.arrived + 1 }).settleBarrier a.level a.course a.barrier 2)) ∧
    (a.round ≠ b.gen → a.round = (b.gen + 1) % 4 →
      exec (.barrierArrival k) s = .next (u.setBarrier a.level a.course a.barrier { b with look := b.look + 1 })) ∧
    (a.round ≠ b.gen → a.round ≠ (b.gen + 1) % 4 → (s.core a.core).halt.halted = false →
      ∃ t, exec (.barrierArrival k) s = .next t ∧ (t.core a.core).halt.halted = true ∧ (t.core a.core).halt.reason = 0x0F ∧
        t.modBarriers = s.modBarriers)) ∧
  ((∀ (s u : State) (f : Fin 16) (gen : BitVec 2) (src : ModAddr), s.takeOperand 0x13 src (f.val + gen.toNat * 16) = some u →
    (u.barrier 2 0 f).declared = true → (u.barrier 2 0 f).root = u.fabric.coord →
      exec (.barrierArrive f gen src) s = .next (((u.setBarrier 2 0 f { u.barrier 2 0 f with
        remote := (src, gen.toNat) :: (u.barrier 2 0 f).remote }).settleRoot f).settleBarrier 2 0 f 2)) ∧
  (∀ (s u : State) (f : Fin 16) (gen : BitVec 2), s.takeOperand 0x14 (s.barrier 2 0 f).root (f.val + gen.toNat * 16) = some u →
    (u.barrier 2 0 f).declared = true → (u.barrier 2 0 f).localDone = true → (u.barrier 2 0 f).gen = gen.toNat →
      exec (.barrierRelease f gen) s = .next ((u.completeBarrier 2 0 f).settleBarrier 2 0 f 2))) ∧
  (∀ (s : State) (c : CourseId),
    let b := s.barrier 0 c s.image.bodies.stepBarrier
    s.image.loaded = true → b.declared = true → b.parts ≠ [] → b.arrived = b.parts.length →
      ∃ u : State, exec (.stepAdvance c) s = .next (u.completeBarrier 0 c s.image.bodies.stepBarrier) ∧
        (u.course c).step = (s.course c).step + 1 ∧
        (u.course c).sched = s.image.bodies.params.map (fun p => (p.1, scheduleAt p.2 ((s.course c).step + 1).toNat)) ∧
        u.mem = s.mem ∧ (∀ d, d ≠ c.val → u.course d = s.course d))

/-! ### The fabric -/

/-- R53, R55, R57, R259: an increment of a core's outbound queue, the first of its path, leaves once, applied here or sent as one frame; an
INCREMENT frame that arrives is applied once; a WRITE or WRITE_ACKED frame whose lines may all be written has them written, and
WRITE_ACKED answers with their count once they have committed (a re-shard notes those that are copied into its slots, R276); a line that its port's regions do not permit is not written, and is
counted and answered with REFUSED; a READ_REQ answers with the lines, or with the status that stopped it, and one for a unit in
reset or migration is held. A frame that names a flag from 480 up increments none (the model's own: log entry 58). -/
def Obligations.RemoteRequests : Prop :=
  (∀ (s : State) (c : CoreId) (k : Nat) (g : OutSignal), (s.core c).outSignals[k]? = some g →
    (((s.core c).outSignals.take k).any g.samePath = false → g.module = s.fabric.coord → s.roleHeld g.core = false →
      (∀ p ∈ (s.core c).arrives, p.onPath = false) →
      ∃ t, exec (.increment (.outbound c k)) s = .next t ∧ (t.core c).outSignals = (s.core c).outSignals.eraseIdx k ∧
        (t.core g.core).flag g.flag = (s.core g.core).flag g.flag + g.amount ∧ t.mem = s.mem) ∧
    (((s.core c).outSignals.take k).any g.samePath = false → g.module ≠ s.fabric.coord →
      exec (.increment (.outbound c k)) s = .next ((s.modCore c fun x => { x with outSignals := x.outSignals.eraseIdx k }).sendFrame
        { dst := g.module, src := s.fabric.coord, vc := BitVec.ofNat 3 g.vc, type := 0x04, master := BitVec.ofNat 12 c,
          operand := BitVec.ofNat 37 (g.core + g.flag * 2 ^ 11), payload := leBytes 8 g.amount.toNat })) ∧
    (((s.core c).outSignals.take k).any g.samePath = true → exec (.increment (.outbound c k)) s = .next s)) ∧
  (∀ (s u : State) (p : PortId) (f : Frame), f.type = 0x04 → s.takeFrame p f = some u →
    (fOp f 11 9 < 480 → s.roleHeld (fOp f 0 11) = false →
      ∃ t, exec (.increment (.frame p f)) s = .next t ∧
        (t.core (fOp f 0 11)).flag (fOp f 11 9) = (s.core (fOp f 0 11)).flag (fOp f 11 9) + BitVec.ofNat 32 (natAt f.payload 0 4) ∧
        t.mem = s.mem) ∧
    (480 ≤ fOp f 11 9 → exec (.increment (.frame p f)) s = .next u)) ∧
  (∀ (s u : State) (p : PortId) (f : Frame) (n : Nat), s.takeFrame p f = some u → frameLines f = some n →
    let x := writeRemote p u (frameAddr f) (toLines n f.payload)
    countOf x.2 0x0A = 0 → countOf x.2 0x0C = 0 →
      (f.type = 0x01 → exec (.writeFrame p f) s = .next (x.1.noteCopies f (frameAddr f) x.2)) ∧
      (f.type = 0x02 → exec (.writeAcked p f) s =
        .next ((x.1.noteCopies f (frameAddr f) x.2).sendAck (answer f 0x03 n) (frameAddr f) n))) ∧
  (∀ (s u : State) (p : PortId) (f : Frame), f.type = 0x01 → s.takeFrame p f = some u → frameLines f = some 1 →
    u.permits (u.port p).regions .write (frameAddr f) = false →
      exec (.writeFrame p f) s = .next ((u.modPort p fun y =>
        { y with remoteRefused := sat32 y.remoteRefused 1 }).sendFrame (answer f 0x07 (0x0A + 2 ^ 8)))) ∧
  (∀ (s u : State) (p : Nat) (a : Nat) (l : List Byte) (r : List (List Byte)),
    s.permits (s.port p).regions .write a = true → s.liveAt a = none → writeRemote p (s.writeLine a l (2120 + p)) (a + 64) r = (u, []) →
      writeRemote p s a (l :: r) = (u, [0])) ∧
  (∀ (s : State) (f : Frame) (a n : Nat), (s.lineWaits a n = none → s.sendAck f a n = s.sendFrame f) ∧
    (∀ x, s.lineWaits a n = some x →
      s.sendAck f a n = { s with held := s.held ++ [{ core := x.1, course := x.2, op := .ack f a n }] })) ∧
  (∀ (s u v : State) (p : PortId) (f : Frame), f.type = 0x05 → s.takeFrame p f = some u →
    ((requestLines f).find? u.lineHeld = none →
      (∀ d, readRemote p u (requestLines f) = (v, .ok d) → exec (.readReq p f) s = .next (v.sendFrame (answer f 0x06 0 d))) ∧
      (∀ e, readRemote p u (requestLines f) = (v, .error e) → exec (.readReq p f) s = .next (v.sendFrame (answer f 0x06 e)))) ∧
    (∀ a, (requestLines f).find? u.lineHeld = some a → exec (.readReq p f) s =
      .next { u with held := u.held ++ [{ core := (State.heldUnit a).1, course := (State.heldUnit a).2, op := .read p f }] }))

/-- R26, R260, R265: an answer finishes the one request of this module that it answers; one that answers none is discarded and
counted; a refusal, an absent destination and an answer that stays out end the request with a failing status. R54, R70, R182, R275, R279: an
increment, a barrier frame, a row of expert traffic, a chunk or an abort of a collective and a vote that return with DEST_ABSENT are counted,
reported or stop what they belonged to. The port at which E2E_TIMEOUT counts is the model's (log entry 32, DESIGN CHOICE). -/
def Obligations.AnswersFinishTheirRequest : Prop :=
  (∀ (s u : State) (p : PortId) (f : Frame) (o : Outstanding), f.type = 0x03 → s.takeFrame p f = some u →
    u.outFind f.master f.tag (some f.src) [false] = some o → o.chan < 4 →
      exec (.writeAck p f) s = .next ((u.outDrop o).dmaAnswered o fun x => { x with lines := x.lines + fOp f 0 4 })) ∧
  (∀ (s u : State) (p : PortId) (f : Frame) (o : Outstanding), f.type = 0x03 → s.takeFrame p f = some u →
    u.outFind f.master f.tag (some f.src) [false] = some o → 16 ≤ o.chan →
      exec (.writeAck p f) s = .next ((u.outDrop o).lateAnswered o.core (o.chan - 16))) ∧
  (∀ (s u : State) (p : PortId) (f : Frame) (o : Outstanding) (n : Nat), f.type = 0x06 → s.takeFrame p f = some u →
    u.outFind f.master f.tag (some f.src) [true] = some o → fOp f 0 8 = 0 → frameLines f = some n → o.chan < 4 →
      exec (.readResp p f) s = .next ((u.outDrop o).dmaAnswered o fun x => { x with got := tset x.got o.addr (bytesAt f.payload 0 64) })) ∧
  (∀ (s u : State) (p : PortId) (f : Frame) (o : Outstanding), f.type = 0x06 → s.takeFrame p f = some u →
    u.outFind f.master f.tag (some f.src) [true] = some o → fOp f 0 8 ≠ 0 →
      exec (.readResp p f) s = .next ((u.outDrop o).outFails o (fOp f 0 8))) ∧
  (∀ (s u : State) (p : PortId) (f : Frame) (o : Outstanding), f.type = 0x07 → s.takeFrame p f = some u →
    u.outFind f.master f.tag (some f.src) [false] = some o →
      exec (.refused p f) s = .next ((u.outDrop o).outFails o (fOp f 0 8))) ∧
  (∀ (s u : State) (p : PortId) (f : Frame), s.takeFrame p f = some u →
    (f.type = 0x03 → u.outFind f.master f.tag (some f.src) [false] = none → ∃ t, exec (.writeAck p f) s = .next t ∧
      (t.port p).e2eTimeout = sat32 (u.port p).e2eTimeout 1 ∧ t.cores = u.cores ∧ t.mem = u.mem) ∧
    (f.type = 0x06 → u.outFind f.master f.tag (some f.src) [true] = none → ∃ t, exec (.readResp p f) s = .next t ∧
      (t.port p).e2eTimeout = sat32 (u.port p).e2eTimeout 1 ∧ t.cores = u.cores ∧ t.mem = u.mem)) ∧
  (∀ (s u : State) (p : PortId) (f : Frame) (o : Outstanding), f.type = 0x1C → s.takeFrame p f = some u → fOp f 3 5 = 0x02 →
    (let h := natAt f.payload 0 16
     u.outFind (BitVec.ofNat 12 (bits h 44 12)) (BitVec.ofNat 6 (bits h 38 6)) (some (BitVec.ofNat 24 (bits h 104 24))) [false] = some o) →
      exec (.destAbsent p f) s = .next ((u.outDrop o).outFails o 0x81)) ∧
  (∀ (s u : State) (p : PortId) (f : Frame), f.type = 0x1C → s.takeFrame p f = some u →
    let h := natAt f.payload 0 16
    let m : ModAddr := BitVec.ofNat 24 (bits h 104 24)
    let master := bits h 44 12
    let tag := bits h 38 6
    let op := bits h 0 37
    (∀ o, fOp f 3 5 = 0x05 → u.outFind (BitVec.ofNat 12 master) (BitVec.ofNat 6 tag) (some m) [true] = some o →
      exec (.destAbsent p f) s = .next ((u.outDrop o).outFails o 0x81)) ∧
    (fOp f 3 5 = 0x04 → exec (.destAbsent p f) s = .next
      ((u.modCore master fun c => { c with remoteSignalAbsent := sat32 c.remoteSignalAbsent 1 }).raise 0x10 3 master
        [(4, bits h 104 24), (2, bits op 0 11), (2, bits op 11 9)])) ∧
    (∀ x k, fOp f 3 5 = 0x08 ∨ fOp f 3 5 = 0x0B → 2048 ≤ master → master < 2112 → tfind (u.valley (master - 2048)).txns tag = some x →
      k = copyIndex u x (fOp f 3 5 = 0x0B) (bits op 6 31) → k < (copiesOf (u.valley (master - 2048)) tag m).length →
      x.lost.contains (m, k) = false →
        ∃ t, exec (.destAbsent p f) s = .next t ∧ (t.valley (master - 2048)).absentDrop =
          sat32 (u.valley (master - 2048)).absentDrop (bitCount ((copiesOf (u.valley (master - 2048)) tag m).getD k (0, 0)).2)) ∧
    (2112 ≤ master → master < 2116 →
      (fOp f 3 5 = 0x10 → exec (.destAbsent p f) s = .next (u.collAbsent (master - 2112) (bits op 0 6)
        (u.chunkAt (master - 2112) (bits op 0 6) (bits op 6 31)) m true)) ∧
      (fOp f 3 5 = 0x12 → exec (.destAbsent p f) s =
        .next (u.collAbsent (master - 2112) (bits op 0 6) (bits op 6 31) m false))) ∧
    (fOp f 3 5 = 0x13 ∨ fOp f 3 5 = 0x14 → exec (.destAbsent p f) s = .next (u.raise 0x10 0 0 [(1, bits op 0 4)])) ∧
    (fOp f 3 5 = 0x16 → exec (.destAbsent p f) s = .next (if u.reshard.running then u.reshardFault 0x81 else u))) ∧
  (∀ (s : State) (p : PortId) (master : BitVec 12) (tag : BitVec 6) (o : Outstanding),
    s.outFind master tag none [true, false] = some o →
      ∃ t, exec (.e2eTimeout p master tag) s = .next t ∧ t = ((s.lateAnswer p).outDrop o).outFails o 0x81 ∧ t.mem = s.mem)

/-- R251, R252, R254, R255, R256: an in-sequence frame that bears its CRC is accepted once and, when it is addressed here on a channel of its
type, waits in the port's inbox, but a management frame, which the ridge firmware takes; any other is answered by one LINK_NACK, and one whose
CRC is wrong, of whatever type, is counted. LINK_CTRL and LINK_NACK are acted on behind their CRC, and one of the wrong length is malformed. A cumulative acknowledgement frees what it covers; a
LINK_NACK sends again from the frame that it names, and a silent link from the oldest, a resend episode, and the sixteenth without an
advance takes the link down; an acknowledgement leaves with the number of the last frame accepted and the credits freed. -/
def Obligations.LinkLevel : Prop :=
  (∀ (s : State) (p : PortId) (f : Frame), (s.port p).up = true → s.fabric.open_.getLsbD (p / 2) = true →
    f.type ≠ 0x1E → f.type ≠ 0x1F →
      (f.seq = (s.port p).expect → f.payload.length % 8 = 0 → f.payload.length ≤ 512 → f.dst = s.fabric.coord →
        (frameVcs f.type.toNat).contains f.vc.toNat = true →
        ∃ t, exec (.linkFrameReceive p f (frameCrc f)) s = .next t ∧
          (t.port p).inbox = (s.port p).inbox ++ (if f.type = 0x18 then [] else [f]) ∧
          (t.port p).expect = (s.port p).expect + 1 ∧ (t.port p).nacked = false ∧ t.cores = s.cores ∧ t.mem = s.mem) ∧
      (f.seq ≠ (s.port p).expect → ∃ t, exec (.linkFrameReceive p f (frameCrc f)) s = .next t ∧ (t.port p).nacked = true ∧
        (t.port p).inbox = (s.port p).inbox ∧ (t.port p).expect = (s.port p).expect ∧
        ((s.port p).nacked = false → (t.port p).nackSent = some (s.port p).expect) ∧
        ((s.port p).nacked = true → (t.port p).nackSent = (s.port p).nackSent))) ∧
  (∀ (s : State) (p : PortId) (f : Frame), (s.port p).up = true → s.fabric.open_.getLsbD (p / 2) = true →
    (∀ crc, crc ≠ frameCrc f → ∃ t, exec (.linkFrameReceive p f crc) s = .next t ∧ (t.port p).nacked = true ∧
      (t.port p).inbox = (s.port p).inbox ∧ (t.port p).replay = (s.port p).replay ∧
      (t.port p).linkCrcErr = sat32 (s.port p).linkCrcErr 1) ∧
    (f.type = 0x1E → exec (.linkFrameReceive p f (frameCrc f)) s = exec (.linkCtrl p f) s) ∧
    (f.type = 0x1F → exec (.linkFrameReceive p f (frameCrc f)) s = exec (.linkNack p f) s)) ∧
  (∀ (s : State) (p : PortId) (f : Frame), f.type = 0x1E →
    (f.payload.length = 8 → (s.port p).waiting = [] →
      ∃ t, exec (.linkCtrl p f) s = .next t ∧ (t.port p).replay = afterAck (BitVec.ofNat 16 (fOp f 0 16)) (s.port p).replay ∧
        (t.port p).inbox = (s.port p).inbox) ∧
    (f.payload.length ≠ 8 → exec (.linkCtrl p f) s = .next (s.malformed p))) ∧
  (∀ (s : State) (p : PortId), (s.port p).replay ≠ [] → (s.port p).up = true →
    ∃ t, exec (.linkResendTimeout p) s = .next t ∧ (t.port p).linkRetry = sat32 (s.port p).linkRetry 1 ∧
      (t.port p).resent = (s.port p).replay ∧
      ((s.port p).episodes < 15 → (t.port p).state = (s.port p).state ∧ (t.port p).episodes = (s.port p).episodes + 1) ∧
      (15 ≤ (s.port p).episodes → (t.port p).state = 1)) ∧
  (∀ (s : State) (p : PortId) (f : Frame), f.type = 0x1F → f.payload ≠ [] → exec (.linkNack p f) s = .next (s.malformed p)) ∧
  (∀ (s : State) (p : PortId) (f : Frame), f.type = 0x1F → f.payload = [] →
    ((s.port p).replay.any fun g => g.seq == BitVec.ofNat 16 (fOp f 0 16)) = true →
    ∃ t, exec (.linkNack p f) s = .next t ∧ (t.port p).linkRetry = sat32 (s.port p).linkRetry 1 ∧
      (t.port p).replay = (s.port p).replay ∧
      (t.port p).resent = (s.port p).replay.dropWhile fun g => !(g.seq == BitVec.ofNat 16 (fOp f 0 16))) ∧
  (∀ (s : State) (p : PortId), ∃ t, exec (.linkAckDue p) s = .next t ∧ (t.port p).ackSent = (s.port p).expect - 1 ∧
    ((s.port p).draining = false → (t.port p).granted = (s.port p).owed ∧ (t.port p).owed = [] ∧
      (t.port p).grantedShared = (s.port p).owedShared ∧ (t.port p).owedShared = []) ∧
    ((s.port p).draining = true → (t.port p).granted = [] ∧ (t.port p).owed = (s.port p).owed ∧
      (t.port p).owedShared = (s.port p).owedShared))

/-- R248, R249, R250, R255, R263, R265, R391: a training port meets its neighbour, or reports one it may not have, and keeps its replay
buffer; a port without light trains again, and one whose self-test fails, while it trains as well, is in fault; a failed lane is replaced by a
spare, else the port is degraded, and below its floor of good lanes it fails, and an open axis of it starts to close; a lane's code words are
counted, and fail it above the limit; a recalibrating lane leaves and returns, the spare that stood in for it being free again, and one that
must wait is due until a spare is free, no frame waits or 10 ms have passed. That frame numbers go on with the same neighbour and start
afresh with another, whose link then carries the unacknowledged frames first, is the model's (log entry 31, PRESUMED). -/
def Obligations.PortsAndLanes : Prop :=
  (∀ (s : State) (p : PortId) (m : ModAddr), (s.port p).state = 1 →
    (s.neighbourOk p m = false → ∃ t e, exec (.portTrained p m) s = .next t ∧ (t.port p).state = 5 ∧ (t.port p).neighbour = m ∧
      e ∈ t.log.records ∧ e.code = 0x34 ∧ e.source = BitVec.ofNat 32 p) ∧
    (s.neighbourOk p m = true → (s.port p).waiting = [] → (s.port p).neighbour = m ∨ (s.port p).replay = [] →
      portFloor p ≤ (s.port p).soundLanes p →
      ∃ t, exec (.portTrained p m) s = .next t ∧
        (t.port p).state = (if (s.port p).goodLanes p < portActive p then 3 else 2) ∧ (t.port p).episodes = 0 ∧
        (t.port p).neighbour = m ∧ (t.port p).order = (List.range (portLanes p)).filter (fun i => (s.port p).laneState i == 0) ∧
        ((s.port p).neighbour = m → (t.port p).replay = (s.port p).replay ∧ (t.port p).nextSeq = (s.port p).nextSeq)) ∧
    (s.neighbourOk p m = true → (s.port p).soundLanes p < portFloor p → ∃ t, exec (.portTrained p m) s = .next t ∧ (t.port p).state = 4)) ∧
  (∀ (x : Port) (m : ModAddr), x.neighbour ≠ m → (x.meet m).replay = [] ∧ (x.meet m).nextSeq = 0 ∧ (x.meet m).expect = 0 ∧
    (x.meet m).credit = [] ∧ (x.meet m).waiting.map (·.frame) = x.replay ++ x.waiting.map (·.frame)) ∧
  (∀ (s : State) (p : PortId), (s.port p).up = true ∨ (s.port p).state = 5 →
    (∃ t e, exec (.portSignalLoss ⟨p, false⟩) s = .next t ∧ (t.port p).state = 1 ∧
      (t.port p).replay = (s.port p).replay ∧ e ∈ t.log.records ∧ e.code = 0x32 ∧ e.source = BitVec.ofNat 32 p) ∧
    (∃ t, exec (.portSignalLoss ⟨p, true⟩) s = .next t ∧ (t.port p).state = 4 ∧ (t.port p).replay = (s.port p).replay ∧
      (s.fabric.open_.getLsbD (p / 2) = true → (t.port p).draining = true))) ∧
  (∀ (s : State) (p : PortId), (s.port p).state = 1 → ∃ t, exec (.portSignalLoss ⟨p, true⟩) s = .next t ∧ (t.port p).state = 4 ∧
    (s.fabric.open_.getLsbD (p / 2) = true → (t.port p).draining = true)) ∧
  (∀ (s : State) (p : PortId) (lane k : Nat), lane < portLanes p → (s.port p).laneState lane = 0 →
    ({ s.port p with lanes := tset (s.port p).lanes lane 2 } : Port).spare p = some k →
      ∃ t e, exec (.laneFailure p ⟨lane, .lockLost⟩) s = .next t ∧ (t.port p).laneState lane = 2 ∧ (t.port p).laneState k = 0 ∧
        (t.port p).order = (s.port p).order.map (fun i => if i = lane then k else i) ∧
        (t.port p).state = (s.port p).state ∧ e ∈ t.log.records ∧ e.code = 0x30) ∧
  (∀ (s : State) (p : PortId) (lane : Nat), lane < portLanes p → (s.port p).laneState lane = 0 → (s.port p).state = 2 →
    ({ s.port p with lanes := tset (s.port p).lanes lane 2 } : Port).spare p = none →
    portFloor p ≤ ({ s.port p with lanes := tset (s.port p).lanes lane 2 } : Port).soundLanes p →
      ∃ t e, exec (.laneFailure p ⟨lane, .lockLost⟩) s = .next t ∧ (t.port p).laneState lane = 2 ∧ (t.port p).state = 3 ∧
        (t.port p).order = (s.port p).order.filter (· != lane) ∧ e ∈ t.log.records ∧ e.code = 0x31) ∧
  (∀ (s : State) (p : PortId) (lane : Nat), lane < portLanes p → (s.port p).laneState lane = 0 →
    ({ s.port p with lanes := tset (s.port p).lanes lane 2 } : Port).spare p = none →
    ({ s.port p with lanes := tset (s.port p).lanes lane 2 } : Port).soundLanes p < portFloor p →
      ∃ t e, exec (.laneFailure p ⟨lane, .lockLost⟩) s = .next t ∧ (t.port p).state = 4 ∧ e ∈ t.log.records ∧ e.code = 0x31 ∧
        (s.fabric.open_.getLsbD (p / 2) = true → (t.port p).draining = true)) ∧
  (∀ (s u : State) (p : PortId) (lane n corrected : Nat) (bad : List Nat) (l : FecLane), lane < portLanes p →
    (s.port p).laneState lane ≠ 2 → l = ((tget (s.port p).fec lane {}).decoded n bad).1 →
    u = (s.modPort p fun y => { y with fec := tset y.fec lane l, fecCorrected := y.fecCorrected + BitVec.ofNat 64 corrected
                                       fecUncorrected := sat32 y.fecUncorrected bad.length }) →
      exec (.laneFailure p ⟨lane, .codeWords n corrected bad⟩) s =
        .next (if fecOver ((tget (s.port p).fec lane {}).bad ++ bad.map (· + (tget (s.port p).fec lane {}).words)) then u.failLane p lane
          else u)) ∧
  (∀ (s : State) (p : PortId) (lane : Nat), lane < portLanes p → (s.port p).recalible lane = true →
    ((s.port p).recal = none → ((s.port p).spare p).isSome = true ∨ (s.port p).waiting = [] →
      ∃ t, exec (.laneRecalibration p lane) s = .next t ∧ (t.port p).laneState lane = 3 ∧ t.mem = s.mem) ∧
    ((s.port p).recal.isSome = true → ∃ t, exec (.laneRecalibration p lane) s = .next t ∧
      (t.port p).recalDue = (s.port p).recalDue ++ [lane] ∧ (t.port p).lanes = (s.port p).lanes)) ∧
  (∀ (s : State) (p : PortId) (lane : Nat) (r : List Nat), (s.port p).recalDue = lane :: r → (s.port p).recal = none →
    (s.port p).recalible lane = true →
    (((s.port p).spare p).isSome = true ∨ (s.port p).waiting = [] ∨ 10000000 ≤ s.deferredFor p lane →
      ∀ long, long = decide (1000000 ≤ s.deferredFor p lane) →
      ∃ t, exec (.recalDeferExpiry p long) s = .next t ∧ (t.port p).laneState lane = 3 ∧ (t.port p).recalDue = r ∧
        (t.port p).recalDeferred = sat32 (s.port p).recalDeferred (if long then 1 else 0)) ∧
    ((s.port p).spare p = none → (s.port p).waiting ≠ [] → s.deferredFor p lane < 10000000 →
      ∀ long, exec (.recalDeferExpiry p long) s = .next s)) ∧
  (∀ (s : State) (p : PortId) (r : Recal), (s.port p).recal = some r →
    ∃ t, exec (.laneRecalEnd p r.lane) s = .next t ∧ (t.port p).recal = none ∧ (t.port p).state = (s.port p).state ∧
      ((r.standIn.isSome = true ∨ r.place.isSome = true) → (t.port p).laneState r.lane = 0) ∧
      (r.standIn = none → r.place = none → (t.port p).laneState r.lane = 1) ∧
      (∀ k, r.standIn = some k → k ≠ r.lane → (t.port p).laneState k = 1))

/-! ### Collectives, the re-shard and the weight digest -/

/-- R268, R270 to R275, R277: the next entry of a slope's table begins when its trigger flag has reached the trigger count, which then
moves on by its increment; a permute entry begins with the vote of its group; a reduction's chunk is staged at the rank that it reaches,
which forms it and gives the rank before it a credit while it can send on and the job does not drain; the final chunk lands; a moved chunk
lands; a credit lets the chain go on, and one that comes after its entry has ended is taken; an abort travels the rest of the chunk's path;
frames of an entry that does not run wait while a job may begin it and are else discarded (DESIGN CHOICE: log entry 27); an entry with
everything committed increments its done flag, and the next one is due; a lend window ends with its trigger. -/
def Obligations.CollectiveSequencer : Prop :=
  (∀ (s t : State) (sl : SlopeId) (e : CollEntry) (k : Nat) (count : W32), k = (s.coll sl).next → (s.collTable sl)[k]? = some e →
    count = tget (s.coll sl).triggers k e.triggerInit → (s.coll sl).run = none →
    (s.job.state = .running ∨ s.job.state = .paused ∨ s.job.state = .faulted) → s.entryHeld e = false → t = s.takeEntry sl k e →
    (flagGe ((s.core e.triggerCore).flag e.triggerFlag) count = true → e.op ≠ 6 →
      ∀ e', t.collEntry? sl k = some e' → exec (.collEntryBegin sl) s = .next (t.startEntry sl e' k)) ∧
    (flagGe ((s.core e.triggerCore).flag e.triggerFlag) count = true → e.op = 6 → s.reshard.running = false →
      ∀ u l, t.permTable sl e.lengths = (u, some l) → exec (.collEntryBegin sl) s = .next (u.reshardVoteBegin sl e.group e.lengths l
        (if stagingOk u (permEntries l.length l).1 then .ok else .reshardNoStaging) false)) ∧
    (flagGe ((s.core e.triggerCore).flag e.triggerFlag) count = false → exec (.collEntryBegin sl) s = .next s) ∧
    tget (t.coll sl).triggers k 0 = count + BitVec.ofNat 32 e.triggerInc ∧ (t.coll sl).run.map (·.entry) = some k ∧
    (t.coll sl).last = k ∧ (t.coll sl).linkFree = 2) ∧
  (∀ (s u : State) (sl : SlopeId) (e : CollEntry) (entry chunk r N : Nat) (run : CollRun) (elems : List W32) (c : Nat × Nat × Nat),
    (s.coll sl).run = some run → run.entry = entry → s.collEntry? sl entry = some e → s.entryHeld e = false → r = s.rankIn e →
    N = (s.groupOf e).length → 0 < r → r < N → e.op ≤ 1 → run.sent.contains chunk = false → (s.reduceChunks e)[chunk]? = some c →
    (run.staged.any fun x => x.1 == chunk) = false → run.staged.length < 2 →
    s.takeChunk e ((s.groupOf e).getD (r - 1) 0) entry chunk (padElems elems) = some u →
      exec (.collData sl entry chunk (r - 1) elems) s =
        .next ((u.modRun sl (runStaged (run.staged ++ [(chunk, elems)]))).feed sl)) ∧
  (∀ (s : State) (sl n : Nat) (e : CollEntry) (entry k : Nat) (chunks : List (Nat × Nat × Nat)) (run : CollRun) (vs : List W32)
    (l : List (Nat × List W32)) (c : Nat × Nat × Nat), (s.coll sl).run = some run → run.staged = (k, vs) :: l → chunks[k]? = some c →
    (s.job.state ≠ .draining → chainReady s sl e c = true →
      chainPass sl e entry chunks (n + 1) s = chainPass sl e entry chunks n
        ((chainStage (s.modRun sl (runStaged l)) sl e entry k c vs).sendCredit sl e entry (s.rankIn e - 1) 1)) ∧
    (s.job.state = .draining ∨ chainReady s sl e c = false → chainPass sl e entry chunks (n + 1) s = s)) ∧
  (∀ (s u : State) (sl : SlopeId) (e : CollEntry) (entry chunk N : Nat) (run : CollRun) (elems : List W32) (c : Nat × Nat × Nat),
    (s.coll sl).run = some run → run.entry = entry → s.collEntry? sl entry = some e → s.entryHeld e = false →
    N = (s.groupOf e).length → s.rankIn e + 1 < N → (s.reduceChunks e)[chunk]? = some c →
    s.takeChunk e ((s.groupOf e).getD (N - 1) 0) entry chunk (padElems elems) = some u →
      (e.op = 1 → exec (.collData sl entry chunk (N - 1) elems) s = .next (finalHere u sl e entry chunk c.1 elems true)) ∧
      (e.op = 0 → s.rankIn e = 0 →
        exec (.collData sl entry chunk (N - 1) elems) s = .next (finalHere u sl e entry chunk c.1 elems false))) ∧
  (∀ (s u v : State) (sl : SlopeId) (e : CollEntry) (entry chunk j : Nat) (run : CollRun) (elems : List W32),
    (s.coll sl).run = some run → run.entry = entry → s.collEntry? sl entry = some e → s.entryHeld e = false → 2 ≤ e.op → elems ≠ [] →
    j < (s.groupOf e).length → j ≠ s.rankIn e → s.takeChunk e ((s.groupOf e).getD j 0) entry chunk (padElems elems) = some u →
    moveLand u sl e j chunk elems = (v, .ok ()) →
      exec (.collData sl entry chunk j elems) s = .next (v.modRun sl (runDone (moveKey j chunk)))) ∧
  (∀ (s u : State) (sl : SlopeId) (e : CollEntry) (entry freed : Nat) (run : CollRun) (src : Option Nat), (s.coll sl).run = some run →
    run.entry = entry → s.collEntry? sl entry = some e → s.takeColl e 0x11 entry freed = some (src, u) →
      exec (.collCredit sl entry freed) s = .next ((u.modColl sl fun c => { c with linkFree := min 2 (c.linkFree + freed) }).feed sl)) ∧
  (∀ (s : State) (sl : SlopeId) (entry chunk j freed : Nat) (elems : List W32) (cause : Byte), (s.coll sl).run = none →
    (∀ p f u, s.collFrame 0x11 entry freed = some (p, f) → s.takeFrame p f = some u → exec (.collCredit sl entry freed) s = .next u) ∧
    (s.collFrame 0x11 entry freed = none → exec (.collCredit sl entry freed) s = .next s) ∧
    (s.job.state = .loaded ∨ s.job.state = .running ∨ s.job.state = .paused ∨ s.job.state = .faulted →
      exec (.collData sl entry chunk j elems) s = .next s ∧ exec (.collAbort sl entry chunk cause) s = .next s) ∧
    (s.job.state = .halted ∨ s.job.state = .empty →
      exec (.collData sl entry chunk j elems) s = .next (s.dropColl 0x10 entry) ∧
      exec (.collAbort sl entry chunk cause) s = .next (s.dropColl 0x12 entry))) ∧
  (∀ (s u : State) (sl : SlopeId) (e : CollEntry) (entry chunk : Nat) (cause : Byte) (run : CollRun) (src : Option Nat),
    (s.coll sl).run = some run → run.entry = entry → s.collEntry? sl entry = some e → s.takeColl e 0x12 entry chunk = some (src, u) →
    (e.op ≤ 1 → run.aborted.contains chunk = false → ∃ t, exec (.collAbort sl entry chunk cause) s = .next t ∧
      t = passAbort u sl e entry chunk cause.toNat (abortInChain u e run chunk) ∧ t.mem = u.mem) ∧
    (∀ j, 1 < e.op → src = some j → run.aborted.contains (moveKey j chunk) = false →
      exec (.collAbort sl entry chunk cause) s = .next (moveLost u sl entry j chunk (u.rankIn e) cause.toNat))) ∧
  (∀ (s : State) (sl : SlopeId) (e : CollEntry) (run : CollRun), (s.coll sl).run = some run → s.collEntry? sl run.entry = some e →
    s.entryDone sl e run = true → s.roleHeld e.doneCore = false →
      ∃ t, exec (.collEntryComplete sl) s = .next t ∧ (t.coll sl).run = none ∧ (t.coll sl).last = run.entry ∧
        (t.coll sl).next = (run.entry + 1) % max 1 (s.collTable sl).length ∧
        (t.core e.doneCore).flag e.doneFlag = (s.core e.doneCore).flag e.doneFlag + 1 ∧ t.mem = s.mem) ∧
  (∀ (s : State) (sl : SlopeId) (e : CollEntry) (k : Nat), (s.coll sl).lend ≠ [] → (∀ x, x ∈ (s.coll sl).lend → x.2 = k) →
    s.collEntry? sl k = some e →
    (flagGe ((s.core e.endCore).flag e.endFlag) e.endCount = true →
      ∃ t, exec (.lendWindowEnd sl) s = .next t ∧ (t.coll sl).lend = [] ∧ t.cores = s.cores) ∧
    (flagGe ((s.core e.endCore).flag e.endFlag) e.endCount = false → exec (.lendWindowEnd sl) s = .next s))

/-- R277 to R279: rank 0 of a re-shard's group takes the votes of the others; a member takes rank 0's result, which begins its cycles or ends
the re-shard; the copy in a buffer that has completed is counted, and the cycle goes on or ends, but begins no copy while the job drains (R315);
the re-shard ends here once no cycle is left and every slot of this module that copies fill is written (DEDUCED: log entry 28); a fault interrupts
every cycle. -/
def Obligations.ReshardCommands : Prop :=
  (∀ (s u : State) (digest : Word) (st : Status), 0 < s.reshardGroup.idxOf s.fabric.coord →
    s.takePayload 0x16 (s.reshardGroup.getD 0 0) (leBytes 8 digest.toNat) = some u → s.reshard.running = true → s.reshard.voting = true →
      (st = .ok → exec (.reshardVote 0 digest st) s = .next u.reshardBegin) ∧
      (st ≠ .ok → ∃ t, exec (.reshardVote 0 digest st) s = .next t ∧ t.reshard.running = false ∧ t.reshard.voting = false ∧
        t.reshard.result = (Config.statusCode st).setWidth 64 ∧ t.mem = u.mem)) ∧
  (∀ (s u : State) (rank : Nat) (digest : Word) (st : Status), rank ≠ 0 → s.reshardGroup.idxOf s.fabric.coord = 0 →
    s.takePayload 0x16 (s.reshardGroup.getD rank 0) (leBytes 8 digest.toNat) = some u → s.reshard.running = false →
      ∃ t, exec (.reshardVote rank digest st) s = .next t ∧ (rank, digest, st) ∈ t.reshard.votes ∧ t.mem = u.mem) ∧
  (∀ (s : State) (b : Fin 2) (c : Cycle), s.reshard.buf b = some c → s.reshard.running = true → s.collHeld s.reshard.slope = false →
    (∀ cause : Byte, cause ≠ 0 → c.cause = 0 → exec (.reshardCopyComplete b cause) s = .next (s.reshardFault cause.toNat)) ∧
    (c.cause = 0 → s.job.state = .draining → exec (.reshardCopyComplete b 0) s = .next s) ∧
    (c.cause = 0 → s.job.state ≠ .draining → c.todo = [] → c.pending = 0 → c.copies + 1 ≠ c.slots.length + 1 →
      exec (.reshardCopyComplete b 0) s = .next (s.copyBegin b { c with copies := c.copies + 1 })) ∧
    (c.cause = 0 → s.job.state ≠ .draining → c.todo = [] → c.pending = 0 → c.copies + 1 = c.slots.length + 1 →
      exec (.reshardCopyComplete b 0) s =
        .next ((({ s with reshard := s.reshard.setBuf b none }).cycleNext b).reshardSettle)) ∧
    (c.cause = 0 → c.todo ≠ [] → exec (.reshardCopyComplete b 0) s = .next s)) ∧
  (∀ (s : State) (b : Fin 2), s.reshard.buf b = none → s.reshard.running = true →
    exec (.reshardCopyComplete b 0) s = .next s.reshardSettle) ∧
  (∀ s : State, s.slotsFilled = false → s.reshardSettle = s) ∧
  (∀ s : State, s.slotsFilled = true → s.reshard.running = true → s.reshard.voting = false → s.reshard.buf0 = none → s.reshard.buf1 = none →
    s.reshard.todo = [] → s.reshardSettle.reshard.running = false ∧
      s.reshardSettle.reshard.result = (Config.statusCode .ok).setWidth 64 ∧ s.reshardSettle.mem = s.mem) ∧
  (∀ (s : State) (cause : Nat), ∃ e, e ∈ (s.reshardFault cause).log.records ∧ e.code = 0x35 ∧
    (s.reshardFault cause).reshard.running = false ∧ (s.reshardFault cause).reshard.buf0 = none ∧
    (s.reshardFault cause).reshard.buf1 = none ∧
    (s.reshardFault cause).reshard.interrupted = s.reshard.buf0.toList.length + s.reshard.buf1.toList.length ∧
    (s.reshardFault cause).mem = s.mem)

/-- R215, R222, R223: a digest step closes once every loaded course with an active core has passed it, and not before; a record of another rank is kept and, with
every member's record present, compared; the majority is a record with which more than half of at least three agree, and the ranks
outside it are those of the records that disagree with it. A comparison that has not come for 600 s, 450 s while spare courses are short, is
overdue (R345). -/
def Obligations.WeightDigest : Prop :=
  (∀ s : State, s.image.loaded = true → s.activeCourses ≠ [] →
    ((∀ c, c ∈ s.activeCourses → s.nextClose < (s.course c).step.toNat) →
      (∀ d, d < 4 → s.domain d = []) → exec .digestClose s = .next { s with nextClose := s.nextClose + 1 }) ∧
    ((∀ c, c ∈ s.activeCourses → s.nextClose < (s.course c).step.toNat) → ∃ t, exec .digestClose s = .next t ∧
      t.nextClose = s.nextClose + 1) ∧
    ((∃ c, c ∈ s.activeCourses ∧ (s.course c).step.toNat ≤ s.nextClose) → exec .digestClose s = .next s)) ∧
  (∀ (s u : State) (r : DigestRec), r.rank < (s.domain r.domain).length → r.rank ≠ (s.domain r.domain).idxOf s.fabric.coord →
    s.takePayload 0x15 ((s.domain r.domain).getD r.rank 0) (digestBytes r) = some u →
    ((u.digestOf r.domain).awaited = some r.step.toNat ∨ u.nextClose ≤ r.step.toNat →
      exec (.digestRecord r) s =
        .next ((u.modDigest r.domain fun x => { x with records := r :: x.records }).settleDigest r.domain)) ∧
    ((u.digestOf r.domain).awaited ≠ some r.step.toNat → r.step.toNat < u.nextClose → exec (.digestRecord r) s = .next u)) ∧
  (∀ (s : State) (d : Fin 4),
    (s.image.loaded = true → 2 ≤ (s.domain d).length → s.health.overdue.contains d.val = false →
      (s.digestOf d).compared + (if s.sparesShort then 450 else 600) * 10 ^ 9 < s.clock → exec (.digestComparisonOverdue d) s =
        .next ({ s with health := { s.health with overdue := d.val :: s.health.overdue } } : State).settleGuarantee) ∧
    (s.clock ≤ (s.digestOf d).compared + (if s.sparesShort then 450 else 600) * 10 ^ 9 →
      exec (.digestComparisonOverdue d) s = .next s)) ∧
  (∀ (l : List DigestRec) (x : DigestRec), majority l = some x →
    3 ≤ l.length ∧ x ∈ l ∧ l.length < 2 * (l.filter fun y => agreeing x y).length ∧
      ∀ r, r ∈ outsiders l ↔ ∃ y, y ∈ l ∧ agreeing x y = false ∧ y.rank = r)

/-! ### Register writes -/

/-- R10, R11, R383: the commands that write one register each have that register's effect and are answered with OK, once the session
may write the value: bank power (R231), regions (R226), armed flips (R242), RNG key streams (R203), RESHARD_CTRL (R278), the ridge
DMA's controls and queues (R320), POWER_CTRL (R333), owner keys and policy (R370, R371), whose write reads the life-cycle state of Table 11-2
by vote, debug access (R374), and the secure bank (R245). -/
def Obligations.RegisterWriteCommands : Prop :=
  (∀ (s u v : State) (ss q : Nat) (priv : Bool) (r : WReg) (x : Word), Turn s ss q u → u.setReg priv r x = (.ok, v) →
    (∀ a : Word, MayWrite u ss priv a.toNat r x →
      (isBankPower (some r) = true → exec (.bankPower ss priv a x) s = answered v ss q 0x05) ∧
      (isRegion (some r) = true → exec (.regionWrite ss priv a x) s = answered v ss q 0x05) ∧
      (isFlip (some r) = true → exec (.flipArm ss priv a x) s = answered v ss q 0x05)) ∧
    (MayWrite u ss priv 0x680010 r x → x.getLsbD 63 = true → exec (.reshardStart ss priv x) s = answered v ss q 0x05) ∧
    (MayWrite u ss priv 0x300010 r x →
      (x.getLsbD 0 = true → exec (.standbyEnter ss priv x) s = answered v ss q 0x05) ∧
      (x.getLsbD 0 = false → exec (.standbyExit ss priv x) s = answered v ss q 0x05)) ∧
    (∀ ch : Fin 3, MayWrite u ss priv (0x400020 + 16 * ch.val) r x → exec (.ridgeCqConfig ss priv ch x) s = answered v ss q 0x05)) ∧
  (∀ (s u : State) (ss q : Nat) (priv : Bool) (key : Fin 8) (x : Word) (r : WReg), Turn s ss q u →
    MayWrite u ss priv (0x208 + 16 * key.val) r x → u.job.state = .paused → u.rng.declared.getLsbD key = true →
      exec (.rngKeyStreamWrite ss priv key x) s = answered { u with rng :=
        { u.rng with written := tset u.rng.written key x, wrapWarned := false } } ss q 0x05) ∧
  (∀ (s u : State) (ss q : Nat) (priv : Bool) (x : Word) (r : WReg), Turn s ss q u → MayWrite u ss priv 0x400018 r x →
    1 ≤ bits x.toNat 46 10 → bits x.toNat 46 10 ≤ 1000 →
      ∃ v, exec (.telemetryControl ss priv x) s = answered v ss q 0x05 ∧ exec (.spillControl ss priv x) s = answered v ss q 0x05 ∧
        v.ridge.telemetryOn = x.toNat.testBit 56 ∧ v.ridge.spillOn = x.toNat.testBit 57 ∧
        v.ridge.ringBase = BitVec.ofNat 42 (bits x.toNat 0 42) ∧ v.mem = u.mem) ∧
  (∀ (s u : State) (ss q : Nat) (priv : Bool) (ch : Fin 3) (x : Word) (r : WReg), Turn s ss q u →
    MayWrite u ss priv (0x400028 + 16 * ch.val) r x →
      exec (.ridgeCqRelease ss priv ch x) s =
        answered (u.modRidgeChan ch fun y => { y with released := BitVec.ofNat 32 x.toNat }) ss q 0x05) ∧
  (∀ (s u v : State) (ss q : Nat) (priv : Bool) (slot : Fin 4) (r : WReg), Turn s ss q u →
    u.job.state = .empty ∨ u.job.state = .loaded ∨ u.job.state = .halted →
    u.sec.lc = .provisioned ∨ u.sec.lc = .deployed ∨ u.sec.lc = .service → v = u.vote 0 →
    (MayWrite u ss priv 0x200010 r (BitVec.ofNat 64 (slot.val + 4)) → onCurve u.keyPoint = true → thas u.sec.keys slot = false →
      exec (.ownerKeyInstall ss priv slot) s = answered { v with sec :=
        { u.sec with keys := tset u.sec.keys slot u.keyPoint } } ss q 0x05) ∧
    (MayWrite u ss priv 0x200010 r (BitVec.ofNat 64 (slot.val + 8)) → terase u.sec.keys slot ≠ [] →
      exec (.ownerKeyRevoke ss priv slot) s = answered { v with sec := { u.sec with keys := terase u.sec.keys slot } } ss q 0x05) ∧
    (∀ x : Word, MayWrite u ss priv 0x200008 r x →
      exec (.ownerPolicyWrite ss priv x) s = answered { v with sec := { u.sec with policy := BitVec.ofNat 4 x.toNat } } ss q 0x05)) ∧
  (∀ (s u : State) (ss q : Nat) (priv : Bool) (x : Word) (r : WReg), Turn s ss q u →
    (MayWrite u ss priv 0x200090 r x → x = 1 → u.sec.lc = .service → u.sec.policy.getLsbD 3 = true →
      ∃ v e, exec (.debugUnlock ss priv x) s = answered v ss q 0x05 ∧ v.sec.debugUnlocked = true ∧ e ∈ v.log.records ∧ e.code = 0x0125) ∧
    (∀ i : Fin 8, MayWrite u ss priv (0x2000A0 + 8 * i.val) r x → 1024 ≤ u.sec.bankLine.toNat →
      exec (.secureBankAccess ss priv i x) s = answered { u with sec :=
        { u.sec with bank := tset u.sec.bank (8 * u.sec.bankLine.toNat + i.val) x } } ss q 0x05)) ∧
  (∀ (s : State) (o : RegionOwner) (k : Nat) (x : Region),
    (regionBreaks x = true → s.setRegion o k x = (.range, s)) ∧
    (regionBreaks x = false → ∃ v, s.setRegion o k x = (.ok, v) ∧ tget (v.regionsOf o) k {} = x ∧ v.mem = s.mem ∧
      ∀ j, j ≠ k → tget (v.regionsOf o) j {} = tget (s.regionsOf o) j {}))

/-! ### The host port and its sessions -/

/-- R294 to R296, R300, R301, R307, R308, R311: what the host port does with a frame: one that it does not take is dropped, a request for an
own address and an echo are answered, the DHCPv4 client asks for the address it is offered and takes it once acknowledged, a router's prefix makes
an address, and a message of the followed master locks the timebase, stepping it at the first lock and slewing it after; opening, resuming and
closing a session, a repeat of an opening being answered again; a session's timers and notices; and STATUS. DESIGN CHOICE: the client's exchange
and the form of its frames, the sign of a PTP offset, the clamp of a step at 0 and which master is followed (log entry 51); that a session's
timers are taken when their rows come, and the layout of STATUS (log entry 50). -/
def Obligations.HostPortAndSessions : Prop :=
  (∀ (s : State) (f : EthFrame), s.ready.hostPort = true →
    (s.frameTaken f = false → ∃ t, exec (.rcpMessage f) s = .next t ∧ t.rcp.ethRxDrop = sat32 s.rcp.ethRxDrop 1 ∧ t.rcp.tx = s.rcp.tx) ∧
    (s.frameTaken f = true →
      (f.kind = .udp → f.dstPort = s.rcp.udpPort.toNat → exec (.rcpMessage f) s = .next (s.onDatagram f.srcAddr f.srcPort f.data)) ∧
      (f.kind = .arpNd → ∀ target,
        (s.ownAddress target = true → ∃ t, exec (.arpNdRequest f target) s = .next t ∧ t.rcp.icmpReplies = s.rcp.icmpReplies + 1 ∧
          t.rcp.net = { kind := .arpNdReply, dst := f.srcAddr, tag := s.frameTag, data := leBytes 16 target.toNat ++ leBytes 6 hostMac,
                        stamp := s.timebase } :: s.rcp.net) ∧
        (s.ownAddress target = false → exec (.arpNdRequest f target) s = .next s) ∧
        ∃ t, exec (.dhcpMessage f .router target) s = .next t ∧ t.rcp.addr = s.rcp.addr ∧
          t.rcp.addr6 = some (BitVec.ofNat 128 (target.toNat / 2 ^ 64 * 2 ^ 64 + interfaceId))) ∧
      (f.kind = .icmpEcho → ∃ t, exec (.icmpEcho f) s = .next t ∧ t.rcp.icmpReplies = s.rcp.icmpReplies + 1 ∧
        t.rcp.net = { kind := .echoReply, dst := f.srcAddr, tag := s.frameTag, data := f.data, stamp := s.timebase } :: s.rcp.net) ∧
      (∀ (a : BitVec 128) (b : W32), f.kind = .udp → f.dstPort = 68 → s.rcp.static = false →
        (s.rcp.dhcp = .selecting → ∃ t, exec (.dhcpMessage f .offer a) s = .next t ∧ t.rcp.dhcp = .requesting (a.setWidth 32) ∧
          t.rcp.addr = s.rcp.addr ∧ t.rcp.net =
            { kind := .dhcpRequest, dst := 0xFFFFFFFF, tag := s.frameTag, data := leBytes 6 hostMac ++ leBytes 4 (a.setWidth 32).toNat
              stamp := s.timebase } :: s.rcp.net) ∧
        (s.rcp.dhcp = .requesting b →
          (a.setWidth 32 = b → ∃ t, exec (.dhcpMessage f .ack a) s = .next t ∧ t.rcp.addr = b ∧ t.rcp.dhcp = .bound ∧ t.mem = s.mem) ∧
          (a.setWidth 32 ≠ b → exec (.dhcpMessage f .ack a) s = .next s) ∧
          exec (.dhcpMessage f .nak a) s = .next s.dhcpDiscover) ∧
        (s.rcp.dhcp = .selecting → exec (.dhcpMessage f .ack a) s = .next s)) ∧
      (f.kind = .udp → f.dstPort = 319 ∨ f.dstPort = 320 →
        (∀ b offset, s.rcp.ptpMaster = some b →
          ∃ t, exec (.ptpMessage f (.sync s.rcp.ptpDomain b.identity offset)) s = .next t ∧
            t.rcp.ptpLocked = true ∧ t.rcp.ptpOffset = BitVec.ofInt 32 offset ∧
            (s.rcp.everLocked = true → t.timebase = s.timebase ∧ t.rcp.ptpSlew = offset) ∧
            (s.rcp.everLocked = false → (t.timebase : Int) = max 0 (s.timebase - offset)) ∧
            (s.rcp.ptpLocked = false → ∃ e, e ∈ t.log.records ∧ e.code = 0x5)) ∧
        (∀ rank master, s.rcp.ptpMaster = none → ∃ t, exec (.ptpMessage f (.announce s.rcp.ptpDomain rank master)) s = .next t ∧
          t.rcp.ptpMaster = some { rank := rank, identity := master, heard := s.clock } ∧ t.timebase = s.timebase) ∧
        (∀ d master offset, d ≠ s.rcp.ptpDomain → exec (.ptpMessage f (.sync d master offset)) s = .next s)))) ∧
  (∀ (s : State) (src port q : Nat) (notify : Bool) (p : List Byte) (r : Reply), s.ready.hostPort = true → State.openForm p = true →
    s.repeated src port (natAt p 8 8) = some r →
      exec (.openSession src port q notify p) s = .next (s.send r) ∧ exec (.sessionResume src port q notify p) s = .next (s.send r)) ∧
  (∀ (s : State) (src port q : Nat) (notify : Bool) (p : List Byte), s.ready.hostPort = true → State.openForm p = true →
    s.repeated src port (natAt p 8 8) = none →
    (natAt p 0 1 = 1 → s.observers < 4 →
      exec (.openSession src port q notify p) s = .next (s.newSession src port q notify false (natAt p 8 8))) ∧
    (natAt p 0 1 = 0 → s.owner? = none → s.sec.policy.getLsbD 1 = false →
      exec (.openSession src port q notify p) s = .next ((s.vote 3).newSession src port q notify true (natAt p 8 8))) ∧
    (natAt p 0 1 = 0 → s.owner? = none → s.sec.policy.getLsbD 1 = true →
      exec (.openSession src port q notify p) s = .next (if (s.vote 3).openSigned p then
        (s.vote 3).nextChallenge.newSession src port q notify true (natAt p 8 8)
        else (s.vote 3).nextChallenge.openReply src port q (natAt p 8 8) .signature 0 []))) ∧
  (∀ (s : State) (src port q : Nat) (notify : Bool) (p : List Byte) (x : Session), s.ready.hostPort = true → State.openForm p = true →
    s.repeated src port (natAt p 8 8) = none → s.session? (natAt p 16 4) = some x → natAt p 0 1 = 1 → x.owner = false →
      ∃ t, exec (.sessionResume src port q notify p) s = .next t ∧
        t.session? (natAt p 16 4) = some { x with src := src, port := port, notify := notify } ∧ t.mem = s.mem) ∧
  (∀ (s u : State) (ss q : Nat), Turn s ss q u → ∃ v, v = u.reply ss q 0x02 .ok ∧
    exec (.closeSession ss) s = .next (v.endSession ss 0) ∧ (v.endSession ss 0).session? ss = none) ∧
  (∀ (s u : State) (ss q : Nat), Turn s ss q u → ss ≠ 0 → exec (.statusCmd ss) s = answered u ss q 0x03 (statusBytes u)) ∧
  (∀ (s : State), s.ready.hostPort = true → exec (.statusCmd 0) s = .next (s.bareReply 0 0 0x03 .ok 0 0 (statusBytes s))) ∧
  (∀ (s : State) (ss : Nat) (x : Session), s.session? ss = some x →
    (∃ t, exec (.sessionIdle ss) s = .next t ∧ t.session? ss = none ∧ t.rcp.tx = s.rcp.tx) ∧
    (x.notify = true → x.noticed < s.log.newest → ∃ t, exec (.eventNotice ss) s = .next t ∧
      t.session? ss = some { x with noticed := s.log.newest } ∧ t.rcp.tx.length = s.rcp.tx.length + 1) ∧
    (∀ q, (x.holdQ.any fun h => h.1 == q) = true → ∃ t, exec (.reorderTimeout ss q) s = .next t ∧
      t.session? ss = some { x with holdQ := x.holdQ.filter fun h => h.1 != q } ∧ t.rcp.reorderDrop = sat32 s.rcp.reorderDrop 1) ∧
    exec (.coalescedResponse ss) s = .next (s.flushRun ss)) ∧
  (∀ (s : State), ∃ t, exec .challengeRollover s = .next t ∧ t.rcp.challenge = s.rcp.challenge + 1 ∧ t.mem = s.mem)

/-- R303, R304: an open session's datagram executes when it is its session's next command; one that comes early is held, up to 1,024
ahead; one whose response is cached is answered with that response again and executes nothing. -/
def Obligations.SessionOrder : Prop :=
  ∀ (s : State) (x : Session) (q : Nat) (d : List Byte), s.session? x.id = some x →
    (q = x.lastSeq + 1 → s.ordered x q d = (s.runNext x.id q d).drainHeld State.holdLimit x.id) ∧
    (x.lastSeq + 1 < q → q ≤ x.lastSeq + 1024 → (x.holdQ.any fun h => h.1 == q) = false →
      (s.ordered x q d).session? x.id = some { x with holdQ := x.holdQ ++ [(q, d)] } ∧ (s.ordered x q d).rcp.tx = s.rcp.tx) ∧
    (x.lastSeq + 1024 < q → ∃ r, (s.ordered x q d).rcp.tx = r :: s.rcp.tx ∧ r.status = .busy ∧
      (s.ordered x q d).session? x.id = some x) ∧
    (∀ c, q ≤ x.lastSeq → x.cache.find? (fun c => c.1 == q && decide (x.lastSeq < q + 256)) = some c →
      (s.ordered x q d).rcp.tx = { c.2 with dst := x.src, port := x.port, srcPort := s.rcp.udpPort.toNat, tag := s.frameTag } :: s.rcp.tx ∧ (s.ordered x q d).mem = s.mem ∧
        (s.ordered x q d).job = s.job ∧ (s.ordered x q d).cores = s.cores)

/-- R237, R308, R309, R310, R317 to R319, R383: READ_REG, which votes on the triplicated items it shows, WRITE_REG, EVENT_FETCH, BULK_WRITE,
whose increment waits behind an earlier held write of its session, and BULK_READ. DESIGN CHOICE: a BULK_WRITE writes its lines at once, those of a
unit in reset or migrating being held one by one, and then waits as one for that unit, or behind the earlier write (log entry 48). -/
def Obligations.ReadsWritesAndBulk : Prop :=
  (∀ (s u : State) (ss q : Nat) (priv : Bool) (a : Word), Turn s ss q u → (priv = true → u.isOwner ss = true) →
    badAddr u [a] = none → u.regRefused priv a.toNat = none → u.regHeld a.toNat = none →
      exec (.readReg ss priv [a]) s = answered (u.votes (registerItems a.toNat)) ss q 0x04 (leBytes 8 ((readAt u priv a.toNat).getD 0 % 2 ^ 64))) ∧
  (∀ (s u v : State) (ss q : Nat) (priv : Bool) (a : Nat) (r : WReg) (x : Word), Turn s ss q u → MayWrite u ss priv a r x →
    u.setReg priv r x = (.ok, v) → exec (.writeReg ss priv [(BitVec.ofNat 64 a, x)]) s = answered v ss q 0x05) ∧
  (∀ (s u : State) (ss q : Nat) (priv : Bool) (a : Nat) (x : Word), Turn s ss q u → u.isOwner ss = true →
    badAddr u [BitVec.ofNat 64 a] = none → a < 2 ^ 32 → u.regRefused priv a = none → u.regHeld a = none → writable a = none →
      exec (.writeReg ss priv [(BitVec.ofNat 64 a, x)]) s = followed (u.reply ss q 0x05 .privilege (leBytes 8 0)) ss) ∧
  (∀ (s u : State) (ss q : Nat) (first : Word) (count : BitVec 16), Turn s ss q u → 1 ≤ count.toNat → count.toNat ≤ 64 →
    (∃ e, u.log.records.getLast? = some e ∧ e.seq ≤ max first.toNat 1) →
      exec (.eventFetch ss first count) s = answered u ss q 0x0E
        (((u.log.records.filter fun e => decide (max first.toNat 1 ≤ e.seq)).reverse.take count.toNat).flatMap eventBytes)) ∧
  (∀ (s u v : State) (ss q : Nat) (p : List Byte), Turn s ss q u → u.isOwner ss = true → u.bulkRefused p = none →
    v = u.bulkPut (bulkBlock p).lines (bulkBlock p).addr (p.drop 32) →
      (v.bulkHeld (bulkBlock p) = none →
        ((bulkBlock p).signal = false → exec (.bulkWrite ss false p) s = answered v ss q 0x0C) ∧
        ((bulkBlock p).signal = true → v.earlierHeld ss q = none → exec (.bulkWrite ss false p) s =
          answered (v.incFlag (bulkBlock p).core (bulkBlock p).flag (bulkBlock p).amount) ss q 0x0C) ∧
        (∀ h, (bulkBlock p).signal = true → v.earlierHeld ss q = some h →
          exec (.bulkWrite ss false p) s = followed (v.holdCmd h ss q (.bulkSignal false p)) ss)) ∧
      (∀ h, v.bulkHeld (bulkBlock p) = some h →
        exec (.bulkWrite ss false p) s = followed (v.holdCmd h ss q (.bulkSignal false p)) ss)) ∧
  (∀ (s u : State) (ss q : Nat) (p : List Byte), Turn s ss q u → bulkForm p false = true → u.bulkPermits .read (bulkBlock p) = true →
    u.bulkHeld (bulkBlock p) = none →
      exec (.bulkRead ss p) s = answered (bulkGet u (bulkLines (bulkBlock p))).1 ss q 0x0D
        (bulkPayload (bulkGet u (bulkLines (bulkBlock p))).2.1 (bulkGet u (bulkLines (bulkBlock p))).2.2)) ∧
  (∀ (s u : State) (ss q : Nat) (p : List Byte), Turn s ss q u → u.isOwner ss = true → bulkForm p true = true →
    (bulkBlock p).core ≤ 2047 → (bulkBlock p).flag ≤ 479 → u.bulkPermits .write (bulkBlock p) = false →
      exec (.bulkWrite ss false p) s = followed (u.reply ss q 0x0C .privilege) ss)

/-! ### The job -/

/-- R305, R312 to R315: an image loads, unloads and, at the end of the command, is reported; a job starts, pauses once every core has
stopped, resumes, is cancelled, and is HALTED when everything has drained. Of the other long commands only FW_COMMIT has an effect at its end
(R366). DESIGN CHOICE: an image's content is the command's operand (log entry 9), and its checks come with the command, its content with
LONG_COMMAND_COMPLETE (log entry 46). -/
def Obligations.JobCommands : Prop :=
  (∀ (s u : State) (ss q : Nat), Turn s ss q u → u.isOwner ss = true →
    (∀ (staging : Word) (img : ImageBodies), u.job.state = .empty ∨ u.job.state = .loaded ∨ u.job.state = .halted →
      u.sec.lc ≠ .manufacture → u.sec.lc ≠ .decommissioned → u.rcp.long = none →
        ∃ k : LongCmd, exec (.loadImage ss staging img) s =
            followed ((checkImage ((u.vote 0).jobMove .loading 0x01) staging.toNat (some img)).1.startLong k) ss ∧
          k.session = ss ∧ k.hostSeq = q ∧ k.type = 0x06 ∧ k.fromState = u.job.state) ∧
    (u.job.state = .loaded ∨ u.job.state = .halted →
      exec (.unloadImage ss) s = answered (u.unload.jobMove .empty 0x05) ss q 0x07) ∧
    (u.job.state = .loaded → u.courseMissing = false → exec (.startJob ss) s = answered u.beginJob ss q 0x08) ∧
    (u.job.state = .running ∨ u.job.state = .faulted → exec (.pauseJob ss) s = answered (u.pausing true) ss q 0x09) ∧
    (u.job.state = .paused ∨ (u.job.state = .running ∨ u.job.state = .faulted) ∧ u.job.pausePending = true →
      exec (.resumeJob ss) s = answered u.resumeRun ss q 0x0A) ∧
    (u.job.state = .running ∨ u.job.state = .paused ∨ u.job.state = .faulted →
      exec (.cancelJob ss) s = answered (u.cancelRun q) ss q 0x0B) ∧
    (u.job.state = .empty → exec (.startJob ss) s = followed (u.reply ss q 0x08 .wrongState (leBytes 1 u.job.state.code)) ss)) ∧
  (∀ s : State, s.job.pausePending = true → s.job.state = .running ∨ s.job.state = .faulted →
    (∀ x, x ∈ s.cores → x.2.stoppedCore = true) →
      ∃ t e, exec .jobPaused s = .next t ∧ t.job.state = .paused ∧ t.job.pausePending = false ∧ t.mem = s.mem ∧ t.cores = s.cores ∧
        e ∈ t.log.records ∧ e.code = 0x2) ∧
  (∀ s : State, s.job.state = .draining → s.allFinished = true → (∀ x, x ∈ s.courses → x.2.migration = none) → s.valPath = [] →
    (∀ sl, sl < 4 → s.collIdle sl = true) →
      ∃ t e, exec .jobDrainComplete s = .next t ∧ t.job.state = .halted ∧ t.mem = s.mem ∧ e ∈ t.log.records ∧ e.code = 0x2) ∧
  (∀ (s : State) (k : LongCmd), s.rcp.long = some k →
    (k.type = 0x06 → exec .longCommandComplete s = .next (endLoad { s with rcp := { s.rcp with long := none } } k)) ∧
    (k.type = 0x11 → exec .longCommandComplete s = .next (({ s with rcp := { s.rcp with long := none } } : State).raiseCounter.reply
      k.session k.hostSeq 0x11 k.status k.payload)) ∧
    (k.type ≠ 0x06 → k.type ≠ 0x11 → exec .longCommandComplete s = .next (({ s with rcp := { s.rcp with long := none } } : State).reply
      k.session k.hostSeq k.type.toNat k.status k.payload))) ∧
  (∀ (s : State) (k : LongCmd), k.status ≠ .ok →
    (endLoad s k).job.state = k.fromState ∧ (endLoad s k).image.lastStatus = some k.status ∧ (endLoad s k).mem = s.mem)

/-! ### Security -/

/-- R363 to R369, R372, R373, R375: physical presence, tamper, firmware staging and commit, life-cycle changes, wipes and attestation; what these
read of the items of Table 11-2 they read by vote (R237). DESIGN CHOICE: a long command has its effect at its row, and its answer comes with
LONG_COMMAND_COMPLETE (log entry 43). -/
def Obligations.SecurityCommands : Prop :=
  (∀ s : State, s.power.off = false → s.sec.policy.getLsbD 2 = false →
    ∃ t, exec .presenceButton s = .next t ∧ t.sec.windowEnd = some (s.timebase + 300000000000) ∧ t.presence = true) ∧
  (∀ (s : State) (fitted : Bool), s.sec.jumper ≠ fitted → ∃ t, exec (.serviceJumper fitted) s = .next t ∧ t.sec.jumper = fitted ∧
    (s.power.off = false → ∃ e, e ∈ t.log.records ∧ e.code = 0x0123)) ∧
  (∀ (s : State) (e : Nat), s.sec.windowEnd = some e → e ≤ s.timebase → ∃ t, exec .presenceWindowExpiry s = .next t ∧
    t.sec.windowEnd = none ∧ t.sec.jumper = s.sec.jumper) ∧
  (∀ s : State, s.power.off = false → ∃ t, exec .tamperBreak s = .next t ∧ t.sec.bank = [] ∧ t.sec.wiping = true ∧
    t.sec.windowEnd = none ∧ t.rcp.sessions = [] ∧
    t.sec.tamperCount = (if s.sec.tamperCount = 15 then 15 else s.sec.tamperCount + 1) ∧
    (s.sec.tamperCount = 15 → t.sec.tamperFinal = true)) ∧
  (∀ s : State, exec .secureBankWipeEnd s = .next { s with sec := { s.sec with wiping := false } }) ∧
  (∀ (s u : State) (ss q : Nat), Turn s ss q u → u.isOwner ss = true → u.presence = true → u.rcp.long = none →
    (∀ (staging length : Word) (kind : Byte) (b : List Byte) (v : State), staging.toNat % 64 = 0 → length.toNat % 64 = 0 → length ≠ 0 →
      staging.toNat + length.toNat ≤ 0x018000000000 → kind.toNat ≤ 1 → length.toNat ≤ partBytes kind.toNat →
      readStaged u (lineAddrs staging.toNat (length.toNat / 64)) = (v, some b) → packageForm kind.toNat b = true →
      ∀ (w : State) (k : List Byte), w = v.votes [1, 2] → k = b.take (packageLength b) → w.counterOf kind.toNat ≤ natAt k 5 1 →
        exec (.fwStage ss staging length kind) s = (if packageSigned w.sec.rootDigest k then
          followed ((w.stage kind.toNat k).startLong (longDone ss q 0x10 .ok)) ss
          else followed (w.reply ss q 0x10 .signature) ss)) ∧
    (∀ (kind : Byte) (p : Package) (w : State), kind.toNat ≤ 1 → u.job.state = .empty → u.sec.staged.getLsbD kind.toNat = true →
      tfind u.sec.packages (2 * kind.toNat + (1 - u.activeSlot kind.toNat)) = some p → w = u.votes [1, 2] →
        exec (.fwCommit ss kind) s = (if w.accepts kind.toNat p then
          followed ((w.commit kind.toNat p).startLong (longDone ss q 0x11 .ok)) ss else followed (w.reply ss q 0x11 .signature) ss)) ∧
    (∀ (target : Byte) (t : LcState) (r g : Nat) (who : Bool × Bool) (w : State), u.job.state = .empty → lcOf target.toNat = some t →
      w = u.vote 0 → lcAuth w w.sec.lc t = some who → (t = .decommissioned ∨ w.sec.transitions < 64 ∧ w.sec.tamperFinal = false) →
      (w.sec.keys ≠ [] ∨ t ≠ .deployed) →
        exec (.lcChange ss target r g) s = (if (who.1 && w.ownerSigned (lcHash w t) r g) ||
            (who.2 && ecdsaOk Config.factoryKey (lcHash w t) r g) then
          followed ((w.lcMove t).startLong (longDone ss q 0x12 .ok)) ss
          else followed (w.reply ss q 0x12 .signature) ss)) ∧
    (u.job.state = .empty →
      exec (.secureWipe ss 0) s = followed (u.wipeBank.startLong (longDone ss q 0x13 .ok)) ss ∧
      exec (.secureWipe ss 1) s = followed (u.fullWipe.startLong (longDone ss q 0x13 .ok)) ss ∧
      exec (.secureWipeFull ss) s = followed (u.fullWipe.startLong (longDone ss q 0x13 .ok)) ss)) ∧
  (∀ (s u : State) (ss q : Nat) (p : List Byte), Turn s ss q u → p.length = 64 → (bytesAt p 49 15).any (· != 0) = false → natAt p 48 1 ≤ 1 →
    u.sec.lc ≠ .decommissioned →
      exec (.attest ss p) s = answered (u.votes [0, 2, 7]) ss q 0x0F (report (u.votes [0, 2, 7]) p (natAt p 48 1 == 1))) ∧
  (∀ (s : State) (kind : Nat) (p : Package), s.sec.committing = some kind → kind ≤ 1 → p.rollback ≤ 63 →
    tfind s.sec.packages (2 * kind + s.activeSlot kind) = some p →
      s.raiseCounter.sec.committing = none ∧ s.raiseCounter.counterOf kind = max (s.counterOf kind) p.rollback) ∧
  (∀ (s : State) (t : LcState), (s.lcMove t).sec.lc = t ∧ (s.lcMove t).sec.bank = [] ∧ (s.lcMove t).sec.wiping = true ∧
    (t = .decommissioned → (s.lcMove t).mem = [] ∧ (s.lcMove t).sec.keys = [] ∧ (s.lcMove t).sec.identity = false ∧
      (s.lcMove t).health.suspect = false ∧ ∀ c p, (((s.lcMove t).course c).health p).retired = false) ∧
    (t ≠ .decommissioned → (s.lcMove t).mem = s.mem))

/-! ### Resets -/

/-- R264, R316, R335 to R337, R343: a module warm reset answers first, waits while an open axis drains, and then leaves the job EMPTY, the
sessions closed and HBM as it was; the ridge watchdog asks for the same reset with its own event; a course or core reset holds its unit until it completes, and is answered then. -/
def Obligations.ResetCommands : Prop :=
  (∀ (s u : State) (ss q : Nat), Turn s ss q u → u.isOwner ss = true →
    exec (.moduleWarmReset ss) s = .next ((u.reply ss q 0x15 .ok).askWarmReset none) ∧
    (∀ target : BitVec 16, u.job.state = .empty ∨ u.job.state = .loaded ∨ u.job.state = .halted →
      (target.toNat < 64 → exec (.courseReset ss target) s = followed (u.beginCourseReset target.toNat ss q) ss) ∧
      (target.toNat < 2048 → exec (.coreReset ss target) s = followed (u.askCoreReset target.toNat ss q) ss) ∧
      (64 ≤ target.toNat → exec (.courseReset ss target) s = followed (u.reply ss q 0x15 .range) ss))) ∧
  (∀ (s : State) (a : Option W32), (s.warmReset a).job.state = .empty ∧ (s.warmReset a).rcp.sessions = [] ∧ (s.warmReset a).cores = [] ∧
    (s.warmReset a).image.loaded = false ∧ (s.warmReset a).rcp.long = none ∧
    (s.fabric.open_ = 0 → (s.warmReset a).timebase = s.timebase ∧ (s.warmReset a).sec.keys = s.sec.keys ∧
      (s.warmReset a).sec.policy = s.sec.policy ∧ (s.warmReset a).health.suspect = s.health.suspect ∧
      (s.warmReset a).mem = s.mem.filter fun x => x.1 < 0x100000000000)) ∧
  (∀ (s : State) (age : W32), s.power.off = false → 1000 ≤ age.toNat →
    exec (.ridgeWatchdogExpiry age) s = .next (s.askWarmReset (some age))) ∧
  (∀ (s : State) (a : Option W32),
    (s.openAxes = [] → s.askWarmReset a = s.warmReset a) ∧
    (s.openAxes ≠ [] → (s.askWarmReset a).resetDue = some (.warm a) ∧ (s.askWarmReset a).mem = s.mem ∧
      (∀ k, k ∈ s.openAxes → ((s.askWarmReset a).port (2 * k)).draining = true ∧ ((s.askWarmReset a).port (2 * k + 1)).draining = true)) ∧
    (s.openAxes = [] → s.resetDue = some (.warm a) → s.settleReset = s.warmReset a)) ∧
  (∀ (s : State) (c : CourseId) (ok : Bool), (s.course c).inReset = true →
    ∃ u : State, exec (.resetComplete (.course c) ok) s = .next ((u.answerResets true c).applyAll fun h => h.course == c.val) ∧
      (u.course c).inReset = false ∧ u.ready.courses.getLsbD c = (ok || s.ready.courses.getLsbD c) ∧ u.held = s.held) ∧
  (∀ (s : State) (n : CoreId) (ok : Bool), s.coreReset.contains n.val = true →
    ∃ u : State, exec (.resetComplete (.core n) ok) s = .next ((u.answerResets false n).applyAll fun h => h.core == some n.val) ∧
      u.coreReset.contains n.val = false ∧ u.held = s.held ∧ u.log = s.log ∧ u.job = s.job ∧ u.health = s.health ∧
      ∀ m, m ≠ n.val → (u.core m).flags = (s.core m).flags ∧ (u.core m).halt = (s.core m).halt)

/-! ### Supply, cooling, the governor -/

/-- R322 to R325, R328 to R331: an input outside its limits and a thermal trip shut the module down with a recorded cause; a reduced
supply and a bad coolant are reported once, when they begin, not while they last, and again once they have ended, and a supply that has left
the reduced range either way is reported when it comes back (SUPPLY_WARN with such a voltage is the model's command for it: DESIGN CHOICE, log
entry 41); each slope's readings make it hot or not, or trip it; the clamp takes every slope to at most 800 MHz; a period of the governor leaves every clock at or below its ceiling and, above the cap, takes 50 MHz from the one
slope that can give way. -/
def Obligations.SupplyAndCooling : Prop :=
  (∀ s : State, s.power.off = false →
    (∀ mv : BitVec 16, mv.toNat < 45000 → ∃ t, exec (.undervoltage mv) s = .next t ∧ t.power.off = true ∧ t.power.causeRecord = 1 ∧
      t.mem = [] ∧ t.job.state = .empty ∧ t.rcp.sessions = []) ∧
    (∀ mv : BitVec 16, 62000 < mv.toNat → ∃ t, exec (.overvoltage mv) s = .next t ∧ t.power.off = true ∧ t.power.causeRecord = 2 ∧
      t.mem = []) ∧
    (∃ t, exec .pdBreak s = .next t ∧ t.power.off = true ∧ t.power.causeRecord = 3 ∧ t.mem = [] ∧ t.sec.keys = s.sec.keys) ∧
    (∀ (sl : SlopeId) (tj : BitVec 16), 1150 ≤ tj.toInt → ∃ t, exec (.thermalTrip sl tj) s = .next t ∧ t.power.off = true ∧
      t.power.causeRecord = 4 ∧ t.mem = [])) ∧
  (∀ s : State, s.power.off = false →
    (∀ mv : BitVec 16, State.reducedRange mv.toNat = true → ∃ t, exec (.supplyWarn mv) s = .next t ∧ t.power.outOfRange = true ∧
      t.power.inputMv = mv ∧ t.power.lowNow = true ∧ (mv.toNat < 50000 → t.power.reduced = true) ∧
      (s.power.lowNow = false → ∃ e, e ∈ t.log.records ∧ e.code = 0x0101) ∧
      (s.power.lowNow = true → ∀ e, e ∈ t.log.records → e.code = 0x0101 → e ∈ s.log.records)) ∧
    (∀ mv : BitVec 16, State.reducedRange mv.toNat = false → State.operating mv.toNat = false →
      ∃ t, exec (.supplyWarn mv) s = .next t ∧ t.power.lowNow = false ∧ t.power.outOfRange = true ∧
        ∀ e, e ∈ t.log.records → e.code = 0x0101 → e ∈ s.log.records) ∧
    (∀ mv : BitVec 16, State.operating mv.toNat = true →
      (∃ t, exec (.supplyWarn mv) s = .next t ∧ t.power.lowNow = false ∧ t.power.outOfRange = s.power.outOfRange ∧
        t.power.reduced = s.power.reduced ∧ ∀ e, e ∈ t.log.records → e.code = 0x0101 → e ∈ s.log.records) ∧
      (∃ t, exec (.supplyRecovered mv) s = .next t ∧ t.power.outOfRange = false ∧ t.power.reduced = false ∧ t.power.inputMv = mv)) ∧
    (∀ inlet outlet flow : BitVec 16,
      (coolantOk inlet flow = false → ∃ t, exec (.coolantWarn inlet outlet flow) s = .next t ∧ t.power.coolBad = true ∧
        t.power.coolInlet = inlet ∧ (s.power.coolBad = false → ∃ e, e ∈ t.log.records ∧ e.code = 0x0102) ∧
        (s.power.coolBad = true → ∀ e, e ∈ t.log.records → e.code = 0x0102 → e ∈ s.log.records)) ∧
      (coolantOk inlet flow = true → ∃ t, exec (.coolantRestored inlet outlet flow) s = .next t ∧ t.power.coolBad = false ∧
        t.power.coolFlow = flow)) ∧
    (∀ (sl : SlopeId) (tj stack : BitVec 16),
      (hotReading tj stack = true → 1150 ≤ tj.toInt → exec (.slopeHot sl tj stack) s = .next (s.shutdown 4)) ∧
      (hotReading tj stack = true → tj.toInt < 1150 → ∃ t, exec (.slopeHot sl tj stack) s = .next t ∧ (t.slope sl).hot = true ∧ (t.slope sl).tj = tj ∧
        ((s.slope sl).hot = false → (s.slope sl).lastThermal = none → ∃ e, e ∈ t.log.records ∧ e.code = 0x0103) ∧
        ((s.slope sl).hot = true → t.log = s.log)) ∧
      (hotReading tj stack = false → ∃ t, exec (.slopeCool sl tj stack) s = .next t ∧ (t.slope sl).hot = false ∧
        (t.slope sl).stackMax = stack))) ∧
  (∀ (s : State) (w : Nat), s.power.off = false → 2600 < w → ∃ t e, exec (.clamp w) s = .next t ∧
    (∀ k, k < 4 → (t.slope k).fMhz = min (s.slope k).fMhz 800) ∧ t.power.clampEvents = sat32 s.power.clampEvents 1 ∧
    e ∈ t.log.records ∧ e.code = 0x0105 ∧ t.mem = s.mem) ∧
  (∀ (s : State) (p : Nat) (l : List Nat), s.power.off = false →
    (∀ j, j < 4 → (s.slope j).fMhz % 50 = 0 ∧ (s.slope j).ceiling % 50 = 0) →
    ∃ t, exec (.governorPeriod p l) s = .next t ∧ t.power.inputW = BitVec.ofNat 16 p ∧ t.mem = s.mem ∧
      (∀ k, k < 4 → (t.slope k).fMhz ≤ (s.slope k).ceiling ∧ (t.slope k).ceiling = (s.slope k).ceiling)) ∧
  (∀ (s : State) (l : List Nat) (k : Nat), k < 4 → s.power.off = false →
    (∀ j, j < 4 → (s.slope j).hot = false ∧ (s.slope j).fMhz = (s.slope j).ceiling ∧ (s.slope j).throttle = 0) →
    600 < (s.slope k).fMhz → (∀ j, j < 4 → j ≠ k → (s.slope j).fMhz ≤ 600) →
      ∃ t, exec (.governorPeriod (s.effectiveCap + 1) l) s = .next t ∧ (t.slope k).fMhz = (s.slope k).fMhz - 50)

/-! ### Power-on and bring-up -/

/-- R338 to R341, R324, R364: the module starts when its input is applied, or comes back after a shutdown that was no thermal trip, within its
limits; power-on counts the boot, reports the cause of the last shutdown and leaves nothing ready; each function becomes
ready or fails, with its event, once its turn has come: stacks in ascending order, courses in rounds of four; bring-up is done with the last
function that is one or the other. -/
def Obligations.PowerOnAndBringUp : Prop :=
  (∀ (s : State) (mv : BitVec 16) (reapplied : Bool) (failed : List (Nat × Nat)) (open_ : Bool),
    (s.power.off = true → s.power.causeRecord = 4 → exec (.powerOn ⟨mv, false⟩ failed open_) s = .next s) ∧
    (mv.toNat < 45000 → exec (.powerOn ⟨mv, reapplied⟩ failed open_) s = .next s) ∧
    (reapplied = true ∧ (State.operating mv.toNat = true ∨ State.reducedRange mv.toNat = true) ∨
      s.power.off = true ∧ s.power.causeRecord ≠ 4 ∧ State.operating mv.toNat = true →
    ∃ t, exec (.powerOn ⟨mv, reapplied⟩ failed open_) s = .next t ∧ t.log.boot = s.log.boot + 1 ∧ t.power.off = false ∧
      t.power.lastShutdown = s.power.causeRecord ∧ t.power.causeRecord = 0 ∧ t.power.inputMv = mv ∧ t.mem = [] ∧
      t.job.state = .empty ∧ t.ready.hostPort = false ∧ t.ready.courses = 0 ∧ t.ready.hbm = 0 ∧ t.ready.ports = 0 ∧
      t.sec.keys = s.sec.keys ∧ t.sec.lc = s.sec.lc ∧ t.pending = s.pending ∧
      (s.power.causeRecord ≠ 0 → ∃ e, e ∈ t.log.records ∧ e.code = 0x0104))) ∧
  (∀ (s : State) (k j : Fin 12) (test : Option Nat), j < k → s.ready.refreshed = false → s.functionDone (.stack j) = false →
    exec (.bringupFunctionDone (.stack k) test) s = .next s) ∧
  (∀ (s : State) (c d : CourseId) (test : Option Nat), d.val % 16 < c.val % 16 → s.functionDone (.course d) = false →
    exec (.bringupFunctionDone (.course c) test) s = .next s) ∧
  (∀ (s : State) (f : BringUp), s.functionRuns f = true →
    (∀ test, ∃ t e, exec (.bringupFunctionDone f (some test)) s = .next t ∧ t.functionReady f = false ∧ f ∈ t.ready.failed ∧
      e ∈ t.log.records ∧ e.code = 0x0100) ∧
    (s.courseUnfit f = false → ∃ t, exec (.bringupFunctionDone f none) s = .next t ∧ t.functionReady f = true ∧
      t.ready.failed = s.ready.failed ∧ (∀ g, g ≠ f → t.functionReady g = s.functionReady g) ∧
      (s.power.standbyBit = false → (∀ g, g ∈ allFunctions → g ≠ f → s.functionReady g = true ∨ g ∈ s.ready.failed) →
        t.ready.done = true))) ∧
  (∀ s : State, s.power.off = false → s.power.bootFailed = false → s.power.standbyBit = false → s.ready.done = false →
    ((∀ f, f ∈ allFunctions → s.functionReady f = true ∨ f ∈ s.ready.failed) →
      exec .bringupDeadline s = .next { s with ready := { s.ready with done := true } }) ∧
    ((∃ f, f ∈ allFunctions ∧ s.functionReady f = false ∧ f ∉ s.ready.failed) → exec .bringupDeadline s = .next s))

/-! ### Test windows, tests and the ridge DMA -/

/-- R345 to R359: a window opens when every loaded core of its course has gathered, and either starts a migration or lets the cores go; one
that cannot be gathered is abandoned, and one that is 10 s late is reported; at the end of a migration the roles switch; the next item of a
pass, by the fold of its output against the package's answers, passes or counts against the position of the tester; a swept unit passes or makes
the module suspect, a transient mismatch making the sweep not clean, and a sweep ends once every unit has had an item. DESIGN CHOICE: the runs
that a test item's command carries, and that a transient mismatch spoils the sweep (log entry 52). -/
def Obligations.WindowsAndTests : Prop :=
  (∀ (s : State) (c : CourseId), s.gathers c = true → (∀ n, n ∈ s.courseCores c → (s.core n).countsAtWindow = true) →
    (∀ m, s.windowAct c = .migrate m → ∃ t, exec (.testWindowOpen c) s = .next t ∧ (t.course c).migration = some m ∧
      (t.course c).windows = (s.course c).windows + 1 ∧ t.cores = s.cores ∧ t.mem = s.mem) ∧
    (s.windowAct c = .nothing ∨ s.windowAct c = .held → ∃ t, exec (.testWindowOpen c) s = .next t ∧ (t.course c).migration = none ∧
      (t.course c).windows = (s.course c).windows + 1 ∧
      (t.course c).windowsHeld = (s.course c).windowsHeld + (if s.windowAct c = .held then 1 else 0) ∧ t.mem = s.mem)) ∧
  (∀ (s : State) (c : CourseId) (missing : Nat), s.gathers c = true →
    ((s.courseCores c).find? fun n => !(s.core n).countsAtWindow) = some missing →
      ∃ t e, exec (.testWindowAbandon c) s = .next t ∧ (t.course c).windowsAbandoned = sat32 (s.course c).windowsAbandoned 1 ∧
        e ∈ t.log.records ∧ e.code = 0x0117 ∧ e.source = BitVec.ofNat 32 c ∧ t.mem = s.mem) ∧
  (∀ (s : State) (c : CourseId) (ms : W32), s.jobRuns = true → s.courseLoaded c = true → (s.course c).tester.isSome = true →
    s.health.lateCourses.contains c.val = false → 10000 < ms.toNat →
      ∃ t e, exec (.testWindowLate c ms) s = .next t ∧ c.val ∈ t.health.lateCourses ∧ e ∈ t.log.records ∧ e.code = 0x0118) ∧
  (∀ (s : State) (c : CourseId) (m : Migration), (s.course c).migration = some m → s.ridgeSlot 2 = true →
    ∃ t v w : State, exec (.migrationSwitch c) s = .next t ∧ t = (w.afterMigration c m).releaseCourse c ∧
      w = v.applyAll (fun h => h.core == some (32 * c.val + m.k)) ∧
      (v.course c).tester = some m.src ∧ (v.course c).position m.k = m.dst ∧ (v.course c).migration = none ∧
      v.health.migrations = s.health.migrations + 1) ∧
  (∀ (s : State) (c : CourseId) (item : W32) (run rerun : TestRun) (p : Nat), (s.course c).tester = some p → s.image.selfTest = true →
    (s.course c).passDone = false ∨ s.image.hold = true →
    (s.nextItem c item false = true →
      (testPasses run = true → ∃ t, exec (.testItemResult c item run rerun false) s = .next t ∧ (t.course c).item = item ∧
        (t.course c).passItems = (s.course c).passItems + 1 ∧ (t.course c).pos = (s.course c).pos ∧ t.log = s.log) ∧
      (testPasses run = false → testPasses rerun = true → ∃ t, exec (.testItemResult c item run rerun false) s = .next t ∧
        ((t.course c).health p).suspect = true ∧ ((t.course c).health p).transient = sat8 ((s.course c).health p).transient ∧
        (t.course c).passMismatch = true) ∧
      (testPasses run = false → testPasses rerun = false → ∃ t, exec (.testItemResult c item run rerun false) s = .next t ∧
        ((t.course c).health p).suspect = true ∧ ((t.course c).health p).confirmed = sat8 ((s.course c).health p).confirmed)) ∧
    (s.nextItem c item true = true → testPasses run = true → ∃ t, exec (.testItemResult c item run rerun true) s = .next t ∧
      (t.course c).passDone = true ∧ (t.course c).passItems = 0) ∧
    (∀ last, s.nextItem c item last = false → exec (.testItemResult c item run rerun last) s = .next s)) ∧
  (∀ (s : State) (kind : Byte) (i : Nat) (item : W32), s.power.off = false → i < sweepUnits kind.toNat →
    (item.toNat / 2 ^ 24 = 0x10 →
      (exec (.sweepItem kind i item true true none) s = .next { s with health :=
        { s.health with swept := (kind.toNat, i) :: s.health.swept.filter (· != (kind.toNat, i)) } }) ∧
      (∀ seconds, (∀ k j, k < 5 → j < sweepUnits k → (k, j) ≠ (kind.toNat, i) → (k, j) ∈ s.health.swept) →
        ∃ t, exec (.sweepItem kind i item true true (some seconds)) s = .next t ∧ t.health.sweeps = s.health.sweeps + 1 ∧
          t.health.sweepS = seconds ∧ t.health.swept = []) ∧
      (∃ t e, exec (.sweepItem kind i item false true none) s = .next t ∧ t.health.sweepClean = false ∧ e ∈ t.log.records ∧
        e.code = 0x011B) ∧
      (∃ t, exec (.sweepItem kind i item false false none) s = .next t ∧ t.health.suspect = true ∧ t.health.causeUnit = true)) ∧
    (∀ pass again done, item.toNat / 2 ^ 24 ≠ 0x10 → exec (.sweepItem kind i item pass again done) s = .next s))

/-- R120, R308, R310, R392: a telemetry period writes its snapshot and its record, or is skipped and counted; a spill copies the event records
that are due, and its record follows. -/
def Obligations.RidgeDmaEvents : Prop :=
  (∀ s : State, s.ridge.telemetryOn = true →
    exec (.telemetrySnapshot false) s =
      .next { s with ridge := { s.ridge with telemetrySkip := sat32 s.ridge.telemetrySkip 1 } } ∧
    (s.ridgeSlot 0 = true → ∃ k, k = (s.ridgeChan 0).slot ∧ exec (.telemetrySnapshot true) s =
      .next (ridgeEnd 0 (ridgePut (s.modRidgeChan 0 fun y => { y with slot := k + 1 })
        (64 * s.ridge.ringBase.toNat + 1024 * (k % s.ringSlots)) 0 (toLines 16 (snapshotBytes s))))) ∧
    (s.ridgeSlot 0 = false → exec (.telemetrySnapshot true) s = .next s)) ∧
  (∀ (s u : State) (quiet : Bool) (due : List Event) (last : Event), s.ridge.spillOn = true → due = s.unspilled.take 32 →
    due.getLast? = some last → quiet = true ∨ due.length = 32 → s.ridgeSlot 1 = true →
    ({ s.modRidgeChan 1 (fun y => { y with slot := (s.ridgeChan 1).slot + due.length }) with ridge :=
      { (s.modRidgeChan 1 fun y => { y with slot := (s.ridgeChan 1).slot + due.length }).ridge with spilled := last.seq } } : State) = u →
      exec (.eventSpill quiet) s = .next (ridgeEnd 1 (spillPut (64 * s.ridge.ringBase.toNat + 1024 * s.ringSlots) s.ringSlots u
        (s.ridgeChan 1).slot 0 due))) ∧
  (∀ (s : State) (a : Nat) (l : List Byte),
    (s.permits s.ridge.regions .write a = false → s.ridgeWrite a l = (s, some 0x0A)) ∧
    (s.permits s.ridge.regions .write a = true → s.liveAt a = none → s.ridgeWrite a l = (s.writeLine a l ridgeMaster, none)))

/-! ### Banks, scrubbers and the bypass -/

/-- R231, R236 to R240, R389: an access to a bank that is off turns it on, its lines zero and the event raised, and one in retention comes on;
a scrubber with a pace, and for HBM a token, reads the next line of a bank's lap; the line is checked, its correctable words are counted and
written back unless the line has been written since or its bank is not on; a lap ends with its number and its duration; a triplicated item
with an upset copy is counted, reported and, if it can be written, rewritten. A forced slot of a bank that the dense array then needs freezes it
for a cycle, which is counted (R390; which bank it needs is DESIGN CHOICE: log entry 54). -/
def Obligations.BanksAndScrubbers : Prop :=
  (∀ (s : State) (b : BankUnit),
    (s.bankState (bankBase b) = 1 → exec (.bankWake b) s = .next (s.setBankState (bankBase b) 0)) ∧
    (s.bankState (bankBase b) = 2 → ∀ m : BitVec 16, ∃ t e, exec (.bankOffAccess b m) s = .next t ∧ t.bankState (bankBase b) = 0 ∧
      e ∈ t.log.records ∧ e.code = 0x20 ∧ ∀ i, i < (State.bankRange (bankBase b)).2 → t.byteAt (bankBase b + i) = 0) ∧
    (s.bankState (bankBase b) = 0 → exec (.bankWake b) s = .next s ∧ ∀ m : BitVec 16, exec (.bankOffAccess b m) s = .next s)) ∧
  (∀ (s : State) (u : ScrubUnit) (bank : Nat) (r : CacheRead), (∀ i x, u ≠ .item i x) → s.scrubPaced u = true →
    s.scrubOn u (bankFirst u bank + (s.lapOf u bank).next) = true →
    ((s.lapOf u bank).next + 1 < s.bankLines u bank → exec (.scrubRead u bank r false) s = .next
      (((s.scrubSpend u).scrubLine u bank (bankFirst u bank + (s.lapOf u bank).next) r).modLap u bank fun y =>
        { y with next := (s.lapOf u bank).next + 1 })) ∧
    ((s.lapOf u bank).next + 1 = s.bankLines u bank → exec (.scrubRead u bank r false) s = .next
      (((s.scrubSpend u).scrubLine u bank (bankFirst u bank + (s.lapOf u bank).next) r).endLap u bank)) ∧
    ((s.lapOf u bank).next < s.bankLines u bank →
      exec (.scrubRead u bank r true) s = .next ((s.forceSlot u bank).scrubNext u bank r))) ∧
  (∀ (s : State) (u : ScrubUnit) (bank : Nat) (c : CoreId), u = .spad c ∨ u = .acc c → (s.core c).freezes c u bank = true →
    ((s.forceSlot u bank).core c).da.freeze = (s.core c).da.freeze + 1 ∧ (s.forceSlot u bank).mem = s.mem) ∧
  (∀ (s : State) (u : ScrubUnit) (bank : Nat) (r : CacheRead) (forced : Bool), (∀ i x, u ≠ .item i x) → s.scrubPaced u = false →
    exec (.scrubRead u bank r forced) s = .next s) ∧
  (∀ (s : State) (i : Fin 8) (c : Fin 3) (bank : Nat) (r : CacheRead) (forced : Bool), s.sramLapMs ≠ 0 →
    (tget s.health.tmrOdd i [] = [] → exec (.scrubRead (.item i none) bank r forced) s = .next s ∧
      ∃ t e, exec (.scrubRead (.item i (some c)) bank r forced) s = .next t ∧ t.health.tmrCount = sat32 s.health.tmrCount 1 ∧
        t.health.tmrItems = s.health.tmrItems ||| BitVec.ofNat 8 (2 ^ i.val) ∧ e ∈ t.log.records ∧ e.code = 0x23 ∧
        (2 < i.val → tget t.health.tmrOdd i [] = []))) ∧
  (∀ (s : State) (k : StackId) (line a : Nat) (d : List Byte), s.scrubAddress (.hbm k) line = some a →
    (s.stack k).scrub.fix.contains (a / 64) = true → s.hbmRate ≠ 0 → (s.stack k).tokens ≠ 0 → (s.lineRead a).data = some d →
      ∃ t, exec (.scrubWriteBack (.hbm k) line) s = .next t ∧ t = (s.scrubSpend (.hbm k)).putLine a d ∧
        (t.stack k).tokens = (s.stack k).tokens - 1) ∧
  (∀ (s : State) (u : ScrubUnit) (i a : Nat) (d : List Byte), (∀ c, u ≠ .acc c) → (∀ k, u ≠ .hbm k) → s.scrubAddress u i = some a →
    (s.scrubOf u).fix.contains (a / 64) = true → s.sramLapMs ≠ 0 → (s.lineRead a).data = some d →
      (s.bankState a = 0 → exec (.scrubWriteBack u i) s = .next (s.putLine a d)) ∧
      (s.bankState a ≠ 0 → exec (.scrubWriteBack u i) s = .next s)) ∧
  (∀ (s : State) (u : ScrubUnit) (i a : Nat), (∀ c, u ≠ .acc c) → s.scrubAddress u i = some a →
    (s.scrubOf u).fix.contains (a / 64) = false → exec (.scrubWriteBack u i) s = .next s) ∧
  (∀ (s : State) (u : ScrubUnit) (bank i a : Nat) (r : CacheRead), (∀ c, u ≠ .acc c) → s.scrubAddress u i = some a →
    (s.lineRead a).data.isSome = true → (s.lineRead a).ce ≠ 0 →
      (a / 64) ∈ ((s.scrubLine u bank i r).scrubOf u).fix ∧ (s.scrubLine u bank i r).mem = s.mem) ∧
  (∀ (s : State) (u : ScrubUnit) (bank : Nat), (∀ i x, u ≠ .item i x) →
    ((s.endLap u bank).lapOf u bank).laps = (s.lapOf u bank).laps + 1 ∧
    ((s.endLap u bank).lapOf u bank).next = 0 ∧ ((s.endLap u bank).lapOf u bank).ce = 0 ∧
    ((s.endLap u bank).lapOf u bank).lapMs = BitVec.ofNat 32 ((s.timebase - (s.lapOf u bank).began) / 1000000))

/-- R261 to R264: BYPASS_SET opens an axis whose ports and coordinates stand, and closes one only after its drain, every accepted frame
delivered or forwarded and every sent one acknowledged or out of time, when the command is answered; a job that runs keeps its axes unless the close is forced. -/
def Obligations.BypassCommands : Prop :=
  (∀ (s u : State) (ss q : Nat) (pair force : Byte), Turn s ss q u → u.isOwner ss = true → pair.toNat ≤ 3 → force.toNat ≤ 1 →
    (force = 1 → u.presence = true) →
    (u.fabric.open_.getLsbD pair.toNat = true →
      exec (.bypassOpen ss pair force) s = answered u ss q 0x14 ∧
      ((force = 1 ∨ u.job.state ≠ .running ∧ u.job.state ≠ .draining) →
        exec (.bypassClose ss pair force) s = followed (u.startDrain pair.toNat ss q (force == 1)) ss) ∧
      (force = 0 → u.job.state = .running →
        exec (.bypassClose ss pair force) s = followed (u.reply ss q 0x14 .wrongState (leBytes 1 u.job.state.code)) ss)) ∧
    (u.fabric.open_.getLsbD pair.toNat = false →
      exec (.bypassClose ss pair force) s = answered u ss q 0x14 ∧
      (u.openable pair.toNat = true → exec (.bypassOpen ss pair force) s = answered (u.openAxis pair.toNat) ss q 0x14) ∧
      (u.openable pair.toNat = false → exec (.bypassOpen ss pair force) s = followed (u.reply ss q 0x14 .notReady) ss))) ∧
  (∀ (s : State) (pair : Fin 4), s.drained pair = false → exec (.bypassDrainComplete pair) s = .next s) ∧
  (∀ (s : State) (pair : Fin 4), s.drained pair = true → s.resetDue = none →
    ∃ t, exec (.bypassDrainComplete pair) s = .next t ∧ t.fabric.open_.getLsbD pair = false ∧ (t.port (2 * pair)).state = 0 ∧
      (t.port (2 * pair + 1)).state = 0 ∧ (∀ x, x ∈ t.fabric.closing → x.1 ≠ pair.val) ∧ t.mem = s.mem)

/-! ### Data: placement, codes, order -/

/-- R227, R228: with an affinity window of any size that the map admits, no two addresses share a place, and an HBM address is
placed within one of the twelve stacks of 128 GiB. -/
def Obligations.StorageIsInjective : Prop :=
  ∀ A : Nat, A % 3 = 0 → A ≤ 384 →
    (∀ x y, storage A x = storage A y → x = y) ∧
    (∀ x, x < 0x018000000000 → (hbmPlace A x).1 < 12 ∧ (hbmPlace A x).2 < 128 * 2 ^ 30)

/-- R233: the code of an SRAM word corrects any one flipped bit of its 266 and reports any two; of an undisturbed word every bit
comes back and nothing counts as corrected. -/
def Obligations.SramCodeCorrectsOneDetectsTwo : Prop :=
  (sramDecode [] = { ok := true, flips := [], corrected := false }) ∧
  (∀ p, p < 266 → sramDecode [p] = { ok := true, flips := [], corrected := true }) ∧
  (∀ p q, p < 266 → q < 266 → p ≠ q → (sramDecode [p, q]).ok = false)

/-- R162: sorting by an order of keys returns the same elements, none before one that it should follow, and equal keys in their
source order; integer keys are in the order of their values, in both directions; a floating-point NaN is above every key that is none, and
equal to every other NaN. -/
def Obligations.SortIsStable : Prop :=
  (∀ lt : Nat → Nat → Bool, (∀ a b, lt a b = true → lt b a = false) →
    (∀ a b c, lt a b = false → lt b c = false → lt a c = false) → ∀ ks : List (Nat × Nat),
      (sortKeys lt ks).Perm ks ∧ (sortKeys lt ks).Pairwise (fun a b => lt b.1 a.1 = false) ∧
      ∀ k, (sortKeys lt ks).filter (fun x => !lt x.1 k && !lt k x.1) = ks.filter (fun x => !lt x.1 k && !lt k x.1)) ∧
  (∀ (w : Word128) (f : Byte) (g : Fmt), Fmt.ofCode f = some g → g.float? = none →
    (∀ a b, g = .int32 → a < 2 ^ 32 → b < 2 ^ 32 → keyOrder w f a b = (if sortDesc w then
      decide ((BitVec.ofNat 32 b).toInt < (BitVec.ofNat 32 a).toInt) else decide ((BitVec.ofNat 32 a).toInt < (BitVec.ofNat 32 b).toInt))) ∧
    (∀ a b, g ≠ .int32 → keyOrder w f a b = (if sortDesc w then decide (b < a) else decide (a < b))) ∧
    (∀ a b, keyOrder w f a b = true → keyOrder w f b a = false) ∧
    (∀ a b c, keyOrder w f a b = false → keyOrder w f b c = false → keyOrder w f a c = false)) ∧
  (∀ (f : Byte) (g : Fmt) (ff : FloatFmt) (a b : Nat), Fmt.ofCode f = some g → g.float? = some ff → (ff.decode b).isNan = true →
    keyLt f a b = !(ff.decode a).isNan ∧ keyLt f b a = false)

/-! ### The whole machine -/

/-- Table 15-9, R336, R313: after power-on no job, image or session stands, nothing is ready or open, memory reads as zero, the log is empty, and every core's
flags, registers and halt record are clear. The queue of waiting commands, which is the model's own, is empty. -/
def Obligations.ResetState : Prop :=
  State.reset.pending = [] ∧ State.reset.memOk ∧ (∀ a, State.reset.byteAt a = 0) ∧ State.reset.job.state = .empty ∧
  State.reset.image.loaded = false ∧ State.reset.rcp.sessions = [] ∧ State.reset.log.records = [] ∧ State.reset.timebase = 0 ∧
  State.reset.rdyMap = 0 ∧ State.reset.fabric.open_ = 0 ∧
  ∀ n, (∀ k, (State.reset.core n).flag k = 0) ∧ (State.reset.core n).halt.halted = false ∧
    (∀ t k, State.reset.sreg n t k = 0 ∧ ((State.reset.core n).ctx t).dreg k = none) ∧ (State.reset.core n).gated = false

/-- Every step keeps memory in the model's canonical form (DESIGN CHOICE: log entry 6): its listed bytes by rising place, none that an unlisted
place would read as. -/
def Obligations.MemoryStaysCanonical : Prop :=
  ∀ s t : State, s.memOk → step s = .next t → t.memOk

/-- A well-formed command is never turned away by the model: while all the commands that wait are well-formed, every step answers a
next state and takes exactly the first of them from the queue. The queue, the well-formedness that the model asks of operands and its refusal of
others are the model's own (DESIGN CHOICE: log entries 1, 3 and 4). -/
def Obligations.WellFormedCommandsAreCarriedOut : Prop :=
  ∀ s : State, (∀ c, c ∈ s.pending → WellFormed c = true) → ∃ t, step s = .next t ∧ t.pending = s.pending.tail
end

