-- ==== Sys2Proof/Laws/Dispatch.lean ====
section
/-! SUPPORT. The meaning that each command is dispatched to. -/

namespace Sys2Proof.Machine

@[simp] theorem exec_add (c : CoreId) (t : Stream) (w : Word128) (st : State) : exec (.add c t w) st = execAdd c t w st := rfl
@[simp] theorem exec_sub (c : CoreId) (t : Stream) (w : Word128) (st : State) : exec (.sub c t w) st = execSub c t w st := rfl
@[simp] theorem exec_mul (c : CoreId) (t : Stream) (w : Word128) (st : State) : exec (.mul c t w) st = execMul c t w st := rfl
@[simp] theorem exec_divu (c : CoreId) (t : Stream) (w : Word128) (st : State) : exec (.divu c t w) st = execDivu c t w st := rfl
@[simp] theorem exec_remu (c : CoreId) (t : Stream) (w : Word128) (st : State) : exec (.remu c t w) st = execRemu c t w st := rfl
@[simp] theorem exec_andOp (c : CoreId) (t : Stream) (w : Word128) (st : State) : exec (.andOp c t w) st = execAndOp c t w st := rfl
@[simp] theorem exec_orOp (c : CoreId) (t : Stream) (w : Word128) (st : State) : exec (.orOp c t w) st = execOrOp c t w st := rfl
@[simp] theorem exec_xorOp (c : CoreId) (t : Stream) (w : Word128) (st : State) : exec (.xorOp c t w) st = execXorOp c t w st := rfl
@[simp] theorem exec_shl (c : CoreId) (t : Stream) (w : Word128) (st : State) : exec (.shl c t w) st = execShl c t w st := rfl
@[simp] theorem exec_shr (c : CoreId) (t : Stream) (w : Word128) (st : State) : exec (.shr c t w) st = execShr c t w st := rfl
@[simp] theorem exec_sar (c : CoreId) (t : Stream) (w : Word128) (st : State) : exec (.sar c t w) st = execSar c t w st := rfl
@[simp] theorem exec_minu (c : CoreId) (t : Stream) (w : Word128) (st : State) : exec (.minu c t w) st = execMinu c t w st := rfl
@[simp] theorem exec_maxu (c : CoreId) (t : Stream) (w : Word128) (st : State) : exec (.maxu c t w) st = execMaxu c t w st := rfl
@[simp] theorem exec_addi (c : CoreId) (t : Stream) (w : Word128) (st : State) : exec (.addi c t w) st = execAddi c t w st := rfl
@[simp] theorem exec_andi (c : CoreId) (t : Stream) (w : Word128) (st : State) : exec (.andi c t w) st = execAndi c t w st := rfl
@[simp] theorem exec_shli (c : CoreId) (t : Stream) (w : Word128) (st : State) : exec (.shli c t w) st = execShli c t w st := rfl
@[simp] theorem exec_shri (c : CoreId) (t : Stream) (w : Word128) (st : State) : exec (.shri c t w) st = execShri c t w st := rfl
@[simp] theorem exec_ldi (c : CoreId) (t : Stream) (w : Word128) (st : State) : exec (.ldi c t w) st = execLdi c t w st := rfl
@[simp] theorem exec_ldih (c : CoreId) (t : Stream) (w : Word128) (st : State) : exec (.ldih c t w) st = execLdih c t w st := rfl
@[simp] theorem exec_loopidx (c : CoreId) (t : Stream) (w : Word128) (st : State) : exec (.loopidx c t w) st = execLoopidx c t w st := rfl
@[simp] theorem exec_rdid (c : CoreId) (t : Stream) (w : Word128) (st : State) : exec (.rdid c t w) st = execRdid c t w st := rfl
@[simp] theorem exec_ldl (c : CoreId) (t : Stream) (w : Word128) (st : State) : exec (.ldl c t w) st = execLdl c t w st := rfl
@[simp] theorem exec_stl (c : CoreId) (t : Stream) (w : Word128) (st : State) : exec (.stl c t w) st = execStl c t w st := rfl
@[simp] theorem exec_loop (c : CoreId) (t : Stream) (w : Word128) (st : State) : exec (.loop c t w) st = execLoop c t w st := rfl
@[simp] theorem exec_endloop (c : CoreId) (t : Stream) (w : Word128) (st : State) : exec (.endloop c t w) st = execEndloop c t w st := rfl
@[simp] theorem exec_call (c : CoreId) (t : Stream) (w : Word128) (st : State) : exec (.call c t w) st = execCall c t w st := rfl
@[simp] theorem exec_ret (c : CoreId) (t : Stream) (w : Word128) (st : State) : exec (.ret c t w) st = execRet c t w st := rfl
@[simp] theorem exec_jmp (c : CoreId) (t : Stream) (w : Word128) (st : State) : exec (.jmp c t w) st = execJmp c t w st := rfl
@[simp] theorem exec_ldd (c : CoreId) (t : Stream) (w : Word128) (st : State) : exec (.ldd c t w) st = execLdd c t w st := rfl
@[simp] theorem exec_movd (c : CoreId) (t : Stream) (w : Word128) (st : State) : exec (.movd c t w) st = execMovd c t w st := rfl
@[simp] theorem exec_dbase (c : CoreId) (t : Stream) (w : Word128) (st : State) : exec (.dbase c t w) st = execDbase c t w st := rfl
@[simp] theorem exec_dsize (c : CoreId) (t : Stream) (w : Word128) (st : State) : exec (.dsize c t w) st = execDsize c t w st := rfl
@[simp] theorem exec_dclr (c : CoreId) (t : Stream) (w : Word128) (st : State) : exec (.dclr c t w) st = execDclr c t w st := rfl
@[simp] theorem exec_daFill (c : CoreId) (t : Stream) (w : Word128) (st : State) : exec (.daFill c t w) st = execDaFill c t w st := rfl
@[simp] theorem exec_daFillt (c : CoreId) (t : Stream) (w : Word128) (st : State) : exec (.daFillt c t w) st = execDaFillt c t w st := rfl
@[simp] theorem exec_daSwap (c : CoreId) (t : Stream) (w : Word128) (st : State) : exec (.daSwap c t w) st = execDaSwap c t w st := rfl
@[simp] theorem exec_daMm (c : CoreId) (t : Stream) (w : Word128) (st : State) : exec (.daMm c t w) st = execDaMm c t w st := rfl
@[simp] theorem exec_daMmnm (c : CoreId) (t : Stream) (w : Word128) (st : State) : exec (.daMmnm c t w) st = execDaMmnm c t w st := rfl
@[simp] theorem exec_daDrain (c : CoreId) (t : Stream) (w : Word128) (st : State) : exec (.daDrain c t w) st = execDaDrain c t w st := rfl
@[simp] theorem exec_daClear (c : CoreId) (t : Stream) (w : Word128) (st : State) : exec (.daClear c t w) st = execDaClear c t w st := rfl
@[simp] theorem exec_daInstructionBegin (c : CoreId) (st : State) : exec (.daInstructionBegin c) st = execDaInstructionBegin c st := rfl
@[simp] theorem exec_daInstructionComplete (c : CoreId) (u : DaUnit) (st : State) : exec (.daInstructionComplete c u) st = execDaInstructionComplete c u st := rfl
@[simp] theorem exec_gmeSpmm (c : CoreId) (t : Stream) (w : Word128) (st : State) : exec (.gmeSpmm c t w) st = execGmeSpmm c t w st := rfl
@[simp] theorem exec_gmeSddmm (c : CoreId) (t : Stream) (w : Word128) (st : State) : exec (.gmeSddmm c t w) st = execGmeSddmm c t w st := rfl
@[simp] theorem exec_gmeGather (c : CoreId) (t : Stream) (w : Word128) (st : State) : exec (.gmeGather c t w) st = execGmeGather c t w st := rfl
@[simp] theorem exec_gmeScatteradd (c : CoreId) (t : Stream) (w : Word128) (st : State) : exec (.gmeScatteradd c t w) st = execGmeScatteradd c t w st := rfl
@[simp] theorem exec_gmeSegsum (c : CoreId) (t : Stream) (w : Word128) (st : State) : exec (.gmeSegsum c t w) st = execGmeSegsum c t w st := rfl
@[simp] theorem exec_gmeSort (c : CoreId) (t : Stream) (w : Word128) (st : State) : exec (.gmeSort c t w) st = execGmeSort c t w st := rfl
@[simp] theorem exec_gmeSelect (c : CoreId) (t : Stream) (w : Word128) (st : State) : exec (.gmeSelect c t w) st = execGmeSelect c t w st := rfl
@[simp] theorem exec_gmeMerge (c : CoreId) (t : Stream) (w : Word128) (st : State) : exec (.gmeMerge c t w) st = execGmeMerge c t w st := rfl
@[simp] theorem exec_gmePack (c : CoreId) (t : Stream) (w : Word128) (st : State) : exec (.gmePack c t w) st = execGmePack c t w st := rfl
@[simp] theorem exec_gmeUnpack (c : CoreId) (t : Stream) (w : Word128) (st : State) : exec (.gmeUnpack c t w) st = execGmeUnpack c t w st := rfl
@[simp] theorem exec_gmeTranspose (c : CoreId) (t : Stream) (w : Word128) (st : State) : exec (.gmeTranspose c t w) st = execGmeTranspose c t w st := rfl
@[simp] theorem exec_gmeInstructionBegin (c : CoreId) (st : State) : exec (.gmeInstructionBegin c) st = execGmeInstructionBegin c st := rfl
@[simp] theorem exec_yealmBegin (c : CoreId) (lane : LaneId) (st : State) : exec (.yealmBegin c lane) st = execYealmBegin c lane st := rfl
@[simp] theorem exec_yealmSteal (c : CoreId) (lane : LaneId) (st : State) : exec (.yealmSteal c lane) st = execYealmSteal c lane st := rfl
@[simp] theorem exec_mergeFold (c : CoreId) (row : Nat) (st : State) : exec (.mergeFold c row) st = execMergeFold c row st := rfl
@[simp] theorem exec_gmeInstructionComplete (c : CoreId) (st : State) : exec (.gmeInstructionComplete c) st = execGmeInstructionComplete c st := rfl
@[simp] theorem exec_veAdd (c : CoreId) (t : Stream) (w : Word128) (st : State) : exec (.veAdd c t w) st = execVeAdd c t w st := rfl
@[simp] theorem exec_veSub (c : CoreId) (t : Stream) (w : Word128) (st : State) : exec (.veSub c t w) st = execVeSub c t w st := rfl
@[simp] theorem exec_veMul (c : CoreId) (t : Stream) (w : Word128) (st : State) : exec (.veMul c t w) st = execVeMul c t w st := rfl
@[simp] theorem exec_veMax (c : CoreId) (t : Stream) (w : Word128) (st : State) : exec (.veMax c t w) st = execVeMax c t w st := rfl
@[simp] theorem exec_veMin (c : CoreId) (t : Stream) (w : Word128) (st : State) : exec (.veMin c t w) st = execVeMin c t w st := rfl
@[simp] theorem exec_veFma (c : CoreId) (t : Stream) (w : Word128) (st : State) : exec (.veFma c t w) st = execVeFma c t w st := rfl
@[simp] theorem exec_veAbs (c : CoreId) (t : Stream) (w : Word128) (st : State) : exec (.veAbs c t w) st = execVeAbs c t w st := rfl
@[simp] theorem exec_veNeg (c : CoreId) (t : Stream) (w : Word128) (st : State) : exec (.veNeg c t w) st = execVeNeg c t w st := rfl
@[simp] theorem exec_veScale (c : CoreId) (t : Stream) (w : Word128) (st : State) : exec (.veScale c t w) st = execVeScale c t w st := rfl
@[simp] theorem exec_veCopy (c : CoreId) (t : Stream) (w : Word128) (st : State) : exec (.veCopy c t w) st = execVeCopy c t w st := rfl
@[simp] theorem exec_veFill (c : CoreId) (t : Stream) (w : Word128) (st : State) : exec (.veFill c t w) st = execVeFill c t w st := rfl
@[simp] theorem exec_veBlend (c : CoreId) (t : Stream) (w : Word128) (st : State) : exec (.veBlend c t w) st = execVeBlend c t w st := rfl
@[simp] theorem exec_veRsum (c : CoreId) (t : Stream) (w : Word128) (st : State) : exec (.veRsum c t w) st = execVeRsum c t w st := rfl
@[simp] theorem exec_veRmax (c : CoreId) (t : Stream) (w : Word128) (st : State) : exec (.veRmax c t w) st = execVeRmax c t w st := rfl
@[simp] theorem exec_veRmin (c : CoreId) (t : Stream) (w : Word128) (st : State) : exec (.veRmin c t w) st = execVeRmin c t w st := rfl
@[simp] theorem exec_veRsumsq (c : CoreId) (t : Stream) (w : Word128) (st : State) : exec (.veRsumsq c t w) st = execVeRsumsq c t w st := rfl
@[simp] theorem exec_veSmstat (c : CoreId) (t : Stream) (w : Word128) (st : State) : exec (.veSmstat c t w) st = execVeSmstat c t w st := rfl
@[simp] theorem exec_veSmnorm (c : CoreId) (t : Stream) (w : Word128) (st : State) : exec (.veSmnorm c t w) st = execVeSmnorm c t w st := rfl
@[simp] theorem exec_veSmbwd (c : CoreId) (t : Stream) (w : Word128) (st : State) : exec (.veSmbwd c t w) st = execVeSmbwd c t w st := rfl
@[simp] theorem exec_veFunc (c : CoreId) (t : Stream) (w : Word128) (st : State) : exec (.veFunc c t w) st = execVeFunc c t w st := rfl
@[simp] theorem exec_veDfunc (c : CoreId) (t : Stream) (w : Word128) (st : State) : exec (.veDfunc c t w) st = execVeDfunc c t w st := rfl
@[simp] theorem exec_veConvert (c : CoreId) (t : Stream) (w : Word128) (st : State) : exec (.veConvert c t w) st = execVeConvert c t w st := rfl
@[simp] theorem exec_veOpt (c : CoreId) (t : Stream) (w : Word128) (st : State) : exec (.veOpt c t w) st = execVeOpt c t w st := rfl
@[simp] theorem exec_veOptCommit (c : CoreId) (t : Stream) (w : Word128) (st : State) : exec (.veOptCommit c t w) st = execVeOptCommit c t w st := rfl
@[simp] theorem exec_veDigest (c : CoreId) (t : Stream) (w : Word128) (st : State) : exec (.veDigest c t w) st = execVeDigest c t w st := rfl
@[simp] theorem exec_veRng (c : CoreId) (t : Stream) (w : Word128) (st : State) : exec (.veRng c t w) st = execVeRng c t w st := rfl
@[simp] theorem exec_engineCompletion (c : CoreId) (e : EngKind) (m : Moment) (st : State) : exec (.engineCompletion c e m) st = execEngineCompletion c e m st := rfl
@[simp] theorem exec_dmaStart (c : CoreId) (t : Stream) (w : Word128) (st : State) : exec (.dmaStart c t w) st = execDmaStart c t w st := rfl
@[simp] theorem exec_dmaStop (c : CoreId) (t : Stream) (w : Word128) (st : State) : exec (.dmaStop c t w) st = execDmaStop c t w st := rfl
@[simp] theorem exec_dmaQueueAdmit (c : CoreId) (st : State) : exec (.dmaQueueAdmit c) st = execDmaQueueAdmit c st := rfl
@[simp] theorem exec_transferBegin (c : CoreId) (ch : ChanId) (st : State) : exec (.transferBegin c ch) st = execTransferBegin c ch st := rfl
@[simp] theorem exec_completionRecord (c : CoreId) (ch : ChanId) (st : State) : exec (.completionRecord c ch) st = execCompletionRecord c ch st := rfl
@[simp] theorem exec_stoppedRecord (c : CoreId) (ch : ChanId) (st : State) : exec (.stoppedRecord c ch) st = execStoppedRecord c ch st := rfl
@[simp] theorem exec_valDispatch (c : CoreId) (t : Stream) (w : Word128) (st : State) : exec (.valDispatch c t w) st = execValDispatch c t w st := rfl
@[simp] theorem exec_valCombine (c : CoreId) (t : Stream) (w : Word128) (st : State) : exec (.valCombine c t w) st = execValCombine c t w st := rfl
@[simp] theorem exec_combineBegin (c : CoreId) (st : State) : exec (.combineBegin c) st = execCombineBegin c st := rfl
@[simp] theorem exec_valReturn (c : CoreId) (t : Stream) (w : Word128) (st : State) : exec (.valReturn c t w) st = execValReturn c t w st := rfl
@[simp] theorem exec_valCancel (c : CoreId) (t : Stream) (w : Word128) (st : State) : exec (.valCancel c t w) st = execValCancel c t w st := rfl
@[simp] theorem exec_nop (c : CoreId) (t : Stream) (w : Word128) (st : State) : exec (.nop c t w) st = execNop c t w st := rfl
@[simp] theorem exec_waitOp (c : CoreId) (t : Stream) (w : Word128) (st : State) : exec (.waitOp c t w) st = execWaitOp c t w st := rfl
@[simp] theorem exec_signal (c : CoreId) (t : Stream) (w : Word128) (st : State) : exec (.signal c t w) st = execSignal c t w st := rfl
@[simp] theorem exec_barrier (c : CoreId) (t : Stream) (w : Word128) (st : State) : exec (.barrier c t w) st = execBarrier c t w st := rfl
@[simp] theorem exec_testwin (c : CoreId) (t : Stream) (w : Word128) (st : State) : exec (.testwin c t w) st = execTestwin c t w st := rfl
@[simp] theorem exec_codeswap (c : CoreId) (t : Stream) (w : Word128) (st : State) : exec (.codeswap c t w) st = execCodeswap c t w st := rfl
@[simp] theorem exec_haltOp (c : CoreId) (t : Stream) (w : Word128) (st : State) : exec (.haltOp c t w) st = execHaltOp c t w st := rfl
@[simp] theorem exec_flagrd (c : CoreId) (t : Stream) (w : Word128) (st : State) : exec (.flagrd c t w) st = execFlagrd c t w st := rfl
@[simp] theorem exec_haltDrainComplete (c : CoreId) (st : State) : exec (.haltDrainComplete c) st = execHaltDrainComplete c st := rfl
@[simp] theorem exec_drainTimeout (c : CoreId) (st : State) : exec (.drainTimeout c) st = execDrainTimeout c st := rfl
@[simp] theorem exec_icacheFill (c : CoreId) (t : Stream) (prefetch : Bool) (cached : CacheRead) (st : State) : exec (.icacheFill c t prefetch cached) st = execIcacheFill c t prefetch cached st := rfl
@[simp] theorem exec_waitTimeout (c : CoreId) (t : Stream) (st : State) : exec (.waitTimeout c t) st = execWaitTimeout c t st := rfl
@[simp] theorem exec_gateClose (c : CoreId) (st : State) : exec (.gateClose c) st = execGateClose c st := rfl
@[simp] theorem exec_barrierArrival (k : Nat) (st : State) : exec (.barrierArrival k) st = execBarrierArrival k st := rfl
@[simp] theorem exec_barrierArrive (f : Fin 16) (gen : BitVec 2) (src : ModAddr) (st : State) : exec (.barrierArrive f gen src) st = execBarrierArrive f gen src st := rfl
@[simp] theorem exec_barrierRelease (f : Fin 16) (gen : BitVec 2) (st : State) : exec (.barrierRelease f gen) st = execBarrierRelease f gen st := rfl
@[simp] theorem exec_increment (src : IncSource) (st : State) : exec (.increment src) st = execIncrement src st := rfl
@[simp] theorem exec_writeFrame (p : PortId) (f : Frame) (st : State) : exec (.writeFrame p f) st = execWriteFrame p f st := rfl
@[simp] theorem exec_writeAcked (p : PortId) (f : Frame) (st : State) : exec (.writeAcked p f) st = execWriteAcked p f st := rfl
@[simp] theorem exec_writeAck (p : PortId) (f : Frame) (st : State) : exec (.writeAck p f) st = execWriteAck p f st := rfl
@[simp] theorem exec_readReq (p : PortId) (f : Frame) (st : State) : exec (.readReq p f) st = execReadReq p f st := rfl
@[simp] theorem exec_readResp (p : PortId) (f : Frame) (st : State) : exec (.readResp p f) st = execReadResp p f st := rfl
@[simp] theorem exec_refused (p : PortId) (f : Frame) (st : State) : exec (.refused p f) st = execRefused p f st := rfl
@[simp] theorem exec_destAbsent (p : PortId) (f : Frame) (st : State) : exec (.destAbsent p f) st = execDestAbsent p f st := rfl
@[simp] theorem exec_e2eTimeout (p : PortId) (master : BitVec 12) (tag : BitVec 6) (st : State) : exec (.e2eTimeout p master tag) st = execE2eTimeout p master tag st := rfl
@[simp] theorem exec_linkFrameReceive (p : PortId) (f : Frame) (crc : W32) (st : State) : exec (.linkFrameReceive p f crc) st = execLinkFrameReceive p f crc st := rfl
@[simp] theorem exec_linkCtrl (p : PortId) (f : Frame) (st : State) : exec (.linkCtrl p f) st = execLinkCtrl p f st := rfl
@[simp] theorem exec_linkNack (p : PortId) (f : Frame) (st : State) : exec (.linkNack p f) st = execLinkNack p f st := rfl
@[simp] theorem exec_linkAckDue (p : PortId) (st : State) : exec (.linkAckDue p) st = execLinkAckDue p st := rfl
@[simp] theorem exec_linkResendTimeout (p : PortId) (st : State) : exec (.linkResendTimeout p) st = execLinkResendTimeout p st := rfl
@[simp] theorem exec_portTrained (p : PortId) (neighbour : ModAddr) (st : State) : exec (.portTrained p neighbour) st = execPortTrained p neighbour st := rfl
@[simp] theorem exec_portSignalLoss (l : SignalLoss) (st : State) : exec (.portSignalLoss l) st = execPortSignalLoss l st := rfl
@[simp] theorem exec_laneFailure (p : PortId) (e : LaneEvent) (st : State) : exec (.laneFailure p e) st = execLaneFailure p e st := rfl
@[simp] theorem exec_laneRecalibration (p : PortId) (lane : Nat) (st : State) : exec (.laneRecalibration p lane) st = execLaneRecalibration p lane st := rfl
@[simp] theorem exec_recalDeferExpiry (p : PortId) (atLeast1ms : Bool) (st : State) : exec (.recalDeferExpiry p atLeast1ms) st = execRecalDeferExpiry p atLeast1ms st := rfl
@[simp] theorem exec_laneRecalEnd (p : PortId) (lane : Nat) (st : State) : exec (.laneRecalEnd p lane) st = execLaneRecalEnd p lane st := rfl
@[simp] theorem exec_bypassOpen (ss : Nat) (pair : Byte) (force : Byte) (st : State) : exec (.bypassOpen ss pair force) st = execBypassOpen ss pair force st := rfl
@[simp] theorem exec_bypassClose (ss : Nat) (pair : Byte) (force : Byte) (st : State) : exec (.bypassClose ss pair force) st = execBypassClose ss pair force st := rfl
@[simp] theorem exec_bypassDrainComplete (pair : Fin 4) (st : State) : exec (.bypassDrainComplete pair) st = execBypassDrainComplete pair st := rfl
@[simp] theorem exec_valleyRow (c : CourseId) (row : ValRow) (st : State) : exec (.valleyRow c row) st = execValleyRow c row st := rfl
@[simp] theorem exec_countHeader (c : CourseId) (h : CountHdr) (st : State) : exec (.countHeader c h) st = execCountHeader c h st := rfl
@[simp] theorem exec_completionNotice (c : CourseId) (layer : Nat) (tag : BitVec 16) (backward : Bool) (st : State) : exec (.completionNotice c layer tag backward) st = execCompletionNotice c layer tag backward st := rfl
@[simp] theorem exec_valleyCancel (c : CourseId) (block : Byte) (epoch : Byte) (st : State) : exec (.valleyCancel c block epoch) st = execValleyCancel c block epoch st := rfl
@[simp] theorem exec_returnRow (c : CourseId) (row : RetRow) (st : State) : exec (.returnRow c row) st = execReturnRow c row st := rfl
@[simp] theorem exec_returnCount (c : CourseId) (h : CountHdr) (fromModule : ModAddr) (fromCourse : Nat) (st : State) : exec (.returnCount c h fromModule fromCourse) st = execReturnCount c h fromModule fromCourse st := rfl
@[simp] theorem exec_collEntryBegin (sl : SlopeId) (st : State) : exec (.collEntryBegin sl) st = execCollEntryBegin sl st := rfl
@[simp] theorem exec_collEntryComplete (sl : SlopeId) (st : State) : exec (.collEntryComplete sl) st = execCollEntryComplete sl st := rfl
@[simp] theorem exec_collData (sl : SlopeId) (entry : Nat) (chunk : Nat) (fromRank : Nat) (elems : List W32) (st : State) : exec (.collData sl entry chunk fromRank elems) st = execCollData sl entry chunk fromRank elems st := rfl
@[simp] theorem exec_collCredit (sl : SlopeId) (entry : Nat) (freed : Nat) (st : State) : exec (.collCredit sl entry freed) st = execCollCredit sl entry freed st := rfl
@[simp] theorem exec_collAbort (sl : SlopeId) (entry : Nat) (chunk : Nat) (cause : Byte) (st : State) : exec (.collAbort sl entry chunk cause) st = execCollAbort sl entry chunk cause st := rfl
@[simp] theorem exec_lendWindowEnd (sl : SlopeId) (st : State) : exec (.lendWindowEnd sl) st = execLendWindowEnd sl st := rfl
@[simp] theorem exec_reshardStart (ss : Nat) (priv : Bool) (value : Word) (st : State) : exec (.reshardStart ss priv value) st = execReshardStart ss priv value st := rfl
@[simp] theorem exec_reshardVote (rank : Nat) (digest : Word) (status : Status) (st : State) : exec (.reshardVote rank digest status) st = execReshardVote rank digest status st := rfl
@[simp] theorem exec_reshardCopyComplete (buffer : Fin 2) (cause : Byte) (st : State) : exec (.reshardCopyComplete buffer cause) st = execReshardCopyComplete buffer cause st := rfl
@[simp] theorem exec_stepAdvance (c : CourseId) (st : State) : exec (.stepAdvance c) st = execStepAdvance c st := rfl
@[simp] theorem exec_digestClose (st : State) : exec (.digestClose ) st = execDigestClose st := rfl
@[simp] theorem exec_digestRecord (r : DigestRec) (st : State) : exec (.digestRecord r) st = execDigestRecord r st := rfl
@[simp] theorem exec_scrubRead (u : ScrubUnit) (bank : Nat) (cached : CacheRead) (forced : Bool) (st : State) : exec (.scrubRead u bank cached forced) st = execScrubRead u bank cached forced st := rfl
@[simp] theorem exec_scrubWriteBack (u : ScrubUnit) (line : Nat) (st : State) : exec (.scrubWriteBack u line) st = execScrubWriteBack u line st := rfl
@[simp] theorem exec_bankWake (b : BankUnit) (st : State) : exec (.bankWake b) st = execBankWake b st := rfl
@[simp] theorem exec_bankOffAccess (b : BankUnit) (master : BitVec 16) (st : State) : exec (.bankOffAccess b master) st = execBankOffAccess b master st := rfl
@[simp] theorem exec_bankPower (ss : Nat) (priv : Bool) (addr value : Word) (st : State) : exec (.bankPower ss priv addr value) st = execBankPower ss priv addr value st := rfl
@[simp] theorem exec_regionWrite (ss : Nat) (priv : Bool) (addr value : Word) (st : State) : exec (.regionWrite ss priv addr value) st = execRegionWrite ss priv addr value st := rfl
@[simp] theorem exec_flipArm (ss : Nat) (priv : Bool) (addr value : Word) (st : State) : exec (.flipArm ss priv addr value) st = execFlipArm ss priv addr value st := rfl
@[simp] theorem exec_rngKeyStreamWrite (ss : Nat) (priv : Bool) (key : Fin 8) (value : Word) (st : State) : exec (.rngKeyStreamWrite ss priv key value) st = execRngKeyStreamWrite ss priv key value st := rfl
@[simp] theorem exec_rcpMessage (f : EthFrame) (st : State) : exec (.rcpMessage f) st = execRcpMessage f st := rfl
@[simp] theorem exec_arpNdRequest (f : EthFrame) (target : BitVec 128) (st : State) : exec (.arpNdRequest f target) st = execArpNdRequest f target st := rfl
@[simp] theorem exec_icmpEcho (f : EthFrame) (st : State) : exec (.icmpEcho f) st = execIcmpEcho f st := rfl
@[simp] theorem exec_dhcpMessage (f : EthFrame) (kind : DhcpKind) (addr : BitVec 128) (st : State) : exec (.dhcpMessage f kind addr) st = execDhcpMessage f kind addr st := rfl
@[simp] theorem exec_ptpMessage (f : EthFrame) (m : PtpMsg) (st : State) : exec (.ptpMessage f m) st = execPtpMessage f m st := rfl
@[simp] theorem exec_openSession (src port : Nat) (hostSeq : Nat) (notify : Bool) (payload : List Byte) (st : State) : exec (.openSession src port hostSeq notify payload) st = execOpenSession src port hostSeq notify payload st := rfl
@[simp] theorem exec_sessionResume (src port : Nat) (hostSeq : Nat) (notify : Bool) (payload : List Byte) (st : State) : exec (.sessionResume src port hostSeq notify payload) st = execSessionResume src port hostSeq notify payload st := rfl
@[simp] theorem exec_closeSession (ss : Nat) (st : State) : exec (.closeSession ss) st = execCloseSession ss st := rfl
@[simp] theorem exec_statusCmd (ss : Nat) (st : State) : exec (.statusCmd ss) st = execStatusCmd ss st := rfl
@[simp] theorem exec_readReg (ss : Nat) (priv : Bool) (addrs : List Word) (st : State) : exec (.readReg ss priv addrs) st = execReadReg ss priv addrs st := rfl
@[simp] theorem exec_writeReg (ss : Nat) (priv : Bool) (pairs : List (Word × Word)) (st : State) : exec (.writeReg ss priv pairs) st = execWriteReg ss priv pairs st := rfl
@[simp] theorem exec_loadImage (ss : Nat) (staging : Word) (img : ImageBodies) (st : State) : exec (.loadImage ss staging img) st = execLoadImage ss staging img st := rfl
@[simp] theorem exec_unloadImage (ss : Nat) (st : State) : exec (.unloadImage ss) st = execUnloadImage ss st := rfl
@[simp] theorem exec_startJob (ss : Nat) (st : State) : exec (.startJob ss) st = execStartJob ss st := rfl
@[simp] theorem exec_pauseJob (ss : Nat) (st : State) : exec (.pauseJob ss) st = execPauseJob ss st := rfl
@[simp] theorem exec_jobPaused (st : State) : exec (.jobPaused ) st = execJobPaused st := rfl
@[simp] theorem exec_resumeJob (ss : Nat) (st : State) : exec (.resumeJob ss) st = execResumeJob ss st := rfl
@[simp] theorem exec_cancelJob (ss : Nat) (st : State) : exec (.cancelJob ss) st = execCancelJob ss st := rfl
@[simp] theorem exec_jobDrainComplete (st : State) : exec (.jobDrainComplete ) st = execJobDrainComplete st := rfl
@[simp] theorem exec_bulkWrite (ss : Nat) (coalesce : Bool) (payload : List Byte) (st : State) : exec (.bulkWrite ss coalesce payload) st = execBulkWrite ss coalesce payload st := rfl
@[simp] theorem exec_bulkRead (ss : Nat) (payload : List Byte) (st : State) : exec (.bulkRead ss payload) st = execBulkRead ss payload st := rfl
@[simp] theorem exec_eventFetch (ss : Nat) (first : Word) (count : BitVec 16) (st : State) : exec (.eventFetch ss first count) st = execEventFetch ss first count st := rfl
@[simp] theorem exec_eventNotice (ss : Nat) (st : State) : exec (.eventNotice ss) st = execEventNotice ss st := rfl
@[simp] theorem exec_coalescedResponse (ss : Nat) (st : State) : exec (.coalescedResponse ss) st = execCoalescedResponse ss st := rfl
@[simp] theorem exec_reorderTimeout (ss : Nat) (hostSeq : Nat) (st : State) : exec (.reorderTimeout ss hostSeq) st = execReorderTimeout ss hostSeq st := rfl
@[simp] theorem exec_sessionIdle (ss : Nat) (st : State) : exec (.sessionIdle ss) st = execSessionIdle ss st := rfl
@[simp] theorem exec_challengeRollover (st : State) : exec (.challengeRollover ) st = execChallengeRollover st := rfl
@[simp] theorem exec_longCommandComplete (st : State) : exec (.longCommandComplete ) st = execLongCommandComplete st := rfl
@[simp] theorem exec_attest (ss : Nat) (payload : List Byte) (st : State) : exec (.attest ss payload) st = execAttest ss payload st := rfl
@[simp] theorem exec_fwStage (ss : Nat) (staging length : Word) (kind : Byte) (st : State) : exec (.fwStage ss staging length kind) st = execFwStage ss staging length kind st := rfl
@[simp] theorem exec_fwCommit (ss : Nat) (kind : Byte) (st : State) : exec (.fwCommit ss kind) st = execFwCommit ss kind st := rfl
@[simp] theorem exec_lcChange (ss : Nat) (target : Byte) (r s : Nat) (st : State) : exec (.lcChange ss target r s) st = execLcChange ss target r s st := rfl
@[simp] theorem exec_secureWipe (ss : Nat) (scope : Byte) (st : State) : exec (.secureWipe ss scope) st = execSecureWipe ss scope st := rfl
@[simp] theorem exec_secureWipeFull (ss : Nat) (st : State) : exec (.secureWipeFull ss) st = execSecureWipeFull ss st := rfl
@[simp] theorem exec_moduleWarmReset (ss : Nat) (st : State) : exec (.moduleWarmReset ss) st = execModuleWarmReset ss st := rfl
@[simp] theorem exec_courseReset (ss : Nat) (target : BitVec 16) (st : State) : exec (.courseReset ss target) st = execCourseReset ss target st := rfl
@[simp] theorem exec_coreReset (ss : Nat) (target : BitVec 16) (st : State) : exec (.coreReset ss target) st = execCoreReset ss target st := rfl
@[simp] theorem exec_resetComplete (u : ResetUnit) (testPassed : Bool) (st : State) : exec (.resetComplete u testPassed) st = execResetComplete u testPassed st := rfl
@[simp] theorem exec_telemetryControl (ss : Nat) (priv : Bool) (value : Word) (st : State) : exec (.telemetryControl ss priv value) st = execTelemetryControl ss priv value st := rfl
@[simp] theorem exec_spillControl (ss : Nat) (priv : Bool) (value : Word) (st : State) : exec (.spillControl ss priv value) st = execSpillControl ss priv value st := rfl
@[simp] theorem exec_ridgeCqConfig (ss : Nat) (priv : Bool) (ch : Fin 3) (value : Word) (st : State) : exec (.ridgeCqConfig ss priv ch value) st = execRidgeCqConfig ss priv ch value st := rfl
@[simp] theorem exec_ridgeCqRelease (ss : Nat) (priv : Bool) (ch : Fin 3) (value : Word) (st : State) : exec (.ridgeCqRelease ss priv ch value) st = execRidgeCqRelease ss priv ch value st := rfl
@[simp] theorem exec_telemetrySnapshot (begun : Bool) (st : State) : exec (.telemetrySnapshot begun) st = execTelemetrySnapshot begun st := rfl
@[simp] theorem exec_eventSpill (quiet : Bool) (st : State) : exec (.eventSpill quiet) st = execEventSpill quiet st := rfl
@[simp] theorem exec_powerOn (input : PowerInput) (failed : List (Nat × Nat)) (tamperOpen : Bool) (st : State) : exec (.powerOn input failed tamperOpen) st = execPowerOn input failed tamperOpen st := rfl
@[simp] theorem exec_bringupFunctionDone (f : BringUp) (test : Option Nat) (st : State) : exec (.bringupFunctionDone f test) st = execBringupFunctionDone f test st := rfl
@[simp] theorem exec_bringupDeadline (st : State) : exec (.bringupDeadline ) st = execBringupDeadline st := rfl
@[simp] theorem exec_supplyWarn (mv : BitVec 16) (st : State) : exec (.supplyWarn mv) st = execSupplyWarn mv st := rfl
@[simp] theorem exec_supplyRecovered (mv : BitVec 16) (st : State) : exec (.supplyRecovered mv) st = execSupplyRecovered mv st := rfl
@[simp] theorem exec_undervoltage (mv : BitVec 16) (st : State) : exec (.undervoltage mv) st = execUndervoltage mv st := rfl
@[simp] theorem exec_overvoltage (mv : BitVec 16) (st : State) : exec (.overvoltage mv) st = execOvervoltage mv st := rfl
@[simp] theorem exec_pdBreak (st : State) : exec (.pdBreak ) st = execPdBreak st := rfl
@[simp] theorem exec_thermalTrip (sl : SlopeId) (tj : BitVec 16) (st : State) : exec (.thermalTrip sl tj) st = execThermalTrip sl tj st := rfl
@[simp] theorem exec_coolantWarn (inlet outlet flow : BitVec 16) (st : State) : exec (.coolantWarn inlet outlet flow) st = execCoolantWarn inlet outlet flow st := rfl
@[simp] theorem exec_slopeHot (sl : SlopeId) (tj stack : BitVec 16) (st : State) : exec (.slopeHot sl tj stack) st = execSlopeHot sl tj stack st := rfl
@[simp] theorem exec_slopeCool (sl : SlopeId) (tj stack : BitVec 16) (st : State) : exec (.slopeCool sl tj stack) st = execSlopeCool sl tj stack st := rfl
@[simp] theorem exec_governorPeriod (watts : Nat) (slopeWatts : List Nat) (st : State) : exec (.governorPeriod watts slopeWatts) st = execGovernorPeriod watts slopeWatts st := rfl
@[simp] theorem exec_clamp (watts : Nat) (st : State) : exec (.clamp watts) st = execClamp watts st := rfl
@[simp] theorem exec_standbyEnter (ss : Nat) (priv : Bool) (value : Word) (st : State) : exec (.standbyEnter ss priv value) st = execStandbyEnter ss priv value st := rfl
@[simp] theorem exec_standbyExit (ss : Nat) (priv : Bool) (value : Word) (st : State) : exec (.standbyExit ss priv value) st = execStandbyExit ss priv value st := rfl
@[simp] theorem exec_ridgeWatchdogExpiry (ageMs : W32) (st : State) : exec (.ridgeWatchdogExpiry ageMs) st = execRidgeWatchdogExpiry ageMs st := rfl
@[simp] theorem exec_testWindowOpen (c : CourseId) (st : State) : exec (.testWindowOpen c) st = execTestWindowOpen c st := rfl
@[simp] theorem exec_testWindowAbandon (c : CourseId) (st : State) : exec (.testWindowAbandon c) st = execTestWindowAbandon c st := rfl
@[simp] theorem exec_migrationSwitch (c : CourseId) (st : State) : exec (.migrationSwitch c) st = execMigrationSwitch c st := rfl
@[simp] theorem exec_testItemResult (c : CourseId) (item : W32) (run rerun : TestRun) (lastOfPass : Bool) (st : State) : exec (.testItemResult c item run rerun lastOfPass) st = execTestItemResult c item run rerun lastOfPass st := rfl
@[simp] theorem exec_sweepItem (kind : Byte) (index : Nat) (item : W32) (pass rerunPass : Bool) (sweepDone : Option W32) (st : State) : exec (.sweepItem kind index item pass rerunPass sweepDone) st = execSweepItem kind index item pass rerunPass sweepDone st := rfl
@[simp] theorem exec_testWindowLate (c : CourseId) (ms : W32) (st : State) : exec (.testWindowLate c ms) st = execTestWindowLate c ms st := rfl
@[simp] theorem exec_presenceButton (st : State) : exec (.presenceButton ) st = execPresenceButton st := rfl
@[simp] theorem exec_serviceJumper (fitted : Bool) (st : State) : exec (.serviceJumper fitted) st = execServiceJumper fitted st := rfl
@[simp] theorem exec_presenceWindowExpiry (st : State) : exec (.presenceWindowExpiry ) st = execPresenceWindowExpiry st := rfl
@[simp] theorem exec_tamperBreak (st : State) : exec (.tamperBreak ) st = execTamperBreak st := rfl
@[simp] theorem exec_ownerKeyInstall (ss : Nat) (priv : Bool) (slot : Fin 4) (st : State) : exec (.ownerKeyInstall ss priv slot) st = execOwnerKeyInstall ss priv slot st := rfl
@[simp] theorem exec_ownerKeyRevoke (ss : Nat) (priv : Bool) (slot : Fin 4) (st : State) : exec (.ownerKeyRevoke ss priv slot) st = execOwnerKeyRevoke ss priv slot st := rfl
@[simp] theorem exec_ownerPolicyWrite (ss : Nat) (priv : Bool) (value : Word) (st : State) : exec (.ownerPolicyWrite ss priv value) st = execOwnerPolicyWrite ss priv value st := rfl
@[simp] theorem exec_debugUnlock (ss : Nat) (priv : Bool) (value : Word) (st : State) : exec (.debugUnlock ss priv value) st = execDebugUnlock ss priv value st := rfl
@[simp] theorem exec_secureBankAccess (ss : Nat) (priv : Bool) (word : Fin 8) (value : Word) (st : State) : exec (.secureBankAccess ss priv word value) st = execSecureBankAccess ss priv word value st := rfl
@[simp] theorem exec_coolantRestored (inlet outlet flow : BitVec 16) (st : State) : exec (.coolantRestored inlet outlet flow) st = execCoolantRestored inlet outlet flow st := rfl
@[simp] theorem exec_digestComparisonOverdue (domain : Fin 4) (st : State) : exec (.digestComparisonOverdue domain) st = execDigestComparisonOverdue domain st := rfl
@[simp] theorem exec_secureBankWipeEnd (st : State) : exec (.secureBankWipeEnd ) st = execSecureBankWipeEnd st := rfl

end Sys2Proof.Machine
end

