-- ==== Sys2Proof/Laws/Tables.lean ====
section
/-! SUPPORT. Laws of tables, of units in their tables, and of a core's streams: what a read gives after a write. -/

namespace Sys2Proof.Machine

/-! ### Tables -/

theorem tget_tset_same {α : Type} (t : Tab α) (k : Nat) (v d : α) : tget (tset t k v) k d = v := by
  induction t with
  | nil => simp [tset, tget]
  | cons x r ih =>
    obtain ⟨j, w⟩ := x
    simp only [tset]
    split
    · simp [tget]
    · split
      · simp [tget]
      · simp [tget, *]

theorem tget_tset_other {α : Type} (t : Tab α) (k m : Nat) (v d : α) (h : m ≠ k) : tget (tset t k v) m d = tget t m d := by
  induction t with
  | nil => simp [tset, tget, Ne.symm h]
  | cons x r ih =>
    obtain ⟨j, w⟩ := x
    simp only [tset]
    split
    · rename_i e; simp [tget, e, Ne.symm h]
    · split
      · simp [tget, Ne.symm h]
      · simp [tget, ih]

@[simp] theorem tget_tset {α : Type} (t : Tab α) (k m : Nat) (v d : α) :
    tget (tset t k v) m d = if m = k then v else tget t m d := by
  split
  · rename_i h; subst h; exact tget_tset_same t m v d
  · rename_i h; exact tget_tset_other t k m v d h

theorem tfind_tset_same {α : Type} (t : Tab α) (k : Nat) (v : α) : tfind (tset t k v) k = some v := by
  induction t with
  | nil => simp [tset, tfind]
  | cons x r ih =>
    obtain ⟨j, w⟩ := x
    simp only [tset]
    split
    · simp [tfind]
    · split
      · simp [tfind]
      · simp [tfind, *]

theorem tfind_tset_other {α : Type} (t : Tab α) (k m : Nat) (v : α) (h : m ≠ k) : tfind (tset t k v) m = tfind t m := by
  induction t with
  | nil => simp [tset, tfind, Ne.symm h]
  | cons x r ih =>
    obtain ⟨j, w⟩ := x
    simp only [tset]
    split
    · rename_i e; simp [tfind, e, Ne.symm h]
    · split
      · simp [tfind, Ne.symm h]
      · simp [tfind, ih]

@[simp] theorem tfind_tset {α : Type} (t : Tab α) (k m : Nat) (v : α) :
    tfind (tset t k v) m = if m = k then some v else tfind t m := by
  split
  · rename_i h; subst h; exact tfind_tset_same t m v
  · rename_i h; exact tfind_tset_other t k m v h

theorem tfind_terase_same {α : Type} (t : Tab α) (k : Nat) : tfind (terase t k) k = none := by
  induction t with
  | nil => rfl
  | cons x r ih =>
    obtain ⟨j, w⟩ := x
    by_cases e : j = k
    · simpa [terase, e] using ih
    · simpa [terase, e, tfind] using ih

theorem tfind_terase_other {α : Type} (t : Tab α) (k m : Nat) (h : m ≠ k) : tfind (terase t k) m = tfind t m := by
  induction t with
  | nil => rfl
  | cons x r ih =>
    obtain ⟨j, w⟩ := x
    by_cases e : j = k
    · subst e; simpa [terase, tfind, Ne.symm h] using ih
    · simp only [terase, List.filter_cons, bne_iff_ne, ne_eq, e, not_false_eq_true, if_true, tfind]
      split
      · rfl
      · exact ih

/-! ### Units -/

namespace State

@[simp] theorem core_setCore (s : State) (n m : Nat) (c : Core) : (s.setCore n c).core m = if m = n then c else s.core m := by
  simp [core, setCore]

@[simp] theorem core_modCore (s : State) (n m : Nat) (f : Core → Core) :
    (s.modCore n f).core m = if m = n then f (s.core n) else s.core m := by
  simp [modCore]

@[simp] theorem core_modCtx (s : State) (n m : Nat) (t : Stream) (f : StreamCtx → StreamCtx) :
    (s.modCtx n t f).core m = if m = n then (s.core n).modCtx t f else s.core m := by
  simp [State.modCtx]

@[simp] theorem course_setCourse (s : State) (c d : Nat) (x : Course) :
    (s.setCourse c x).course d = if d = c then x else s.course d := by
  simp [course, setCourse]

@[simp] theorem course_modCourse (s : State) (c d : Nat) (f : Course → Course) :
    (s.modCourse c f).course d = if d = c then f (s.course c) else s.course d := by
  simp [modCourse]

@[simp] theorem slope_modSlope (s : State) (k m : Nat) (f : Slope → Slope) :
    (s.modSlope k f).slope m = if m = k then f (s.slope k) else s.slope m := by
  simp [slope, modSlope, tmod]

@[simp] theorem port_modPort (s : State) (k m : Nat) (f : Port → Port) :
    (s.modPort k f).port m = if m = k then f (s.port k) else s.port m := by
  simp [port, modPort, tmod]

@[simp] theorem stack_modStack (s : State) (k m : Nat) (f : Stack → Stack) :
    (s.modStack k f).stack m = if m = k then f (s.stack k) else s.stack m := by
  simp [stack, modStack, tmod]

@[simp] theorem coll_modColl (s : State) (k m : Nat) (f : Coll → Coll) :
    (s.modColl k f).coll m = if m = k then f (s.coll k) else s.coll m := by
  simp [coll, modColl, tmod]

end State

/-! ### Streams of a core -/

@[simp] theorem Core.ctx_setCtx (c : Core) (t u : Stream) (x : StreamCtx) : (c.setCtx t x).ctx u = if u = t then x else c.ctx u := by
  cases t <;> cases u <;> rfl

@[simp] theorem Core.ctx_modCtx (c : Core) (t u : Stream) (f : StreamCtx → StreamCtx) :
    (c.modCtx t f).ctx u = if u = t then f (c.ctx t) else c.ctx u := by
  simp [Core.modCtx]

@[simp] theorem StreamCtx.sreg_zero (x : StreamCtx) : x.sreg 0 = 0 := rfl

@[simp] theorem StreamCtx.setSreg_zero (x : StreamCtx) (v : Word) : x.setSreg 0 v = x := rfl

@[simp] theorem StreamCtx.sreg_setSreg (x : StreamCtx) (k m : Nat) (v : Word) :
    (x.setSreg k v).sreg m = if m = k ∧ k ≠ 0 then v else x.sreg m := by
  by_cases hk : k = 0
  · simp [setSreg, hk]
  · by_cases hm : m = 0
    · subst hm; simp [sreg, Ne.symm hk]
    · simp [setSreg, sreg, hk, hm]

@[simp] theorem StreamCtx.dreg_zero (x : StreamCtx) : x.dreg 0 = none := rfl

@[simp] theorem StreamCtx.dreg_setDreg (x : StreamCtx) (k m : Nat) (d : Desc) :
    (x.setDreg k d).dreg m = if m = k ∧ k ≠ 0 then some d else x.dreg m := by
  by_cases hk : k = 0
  · simp [setDreg, hk]
  · by_cases hm : m = 0
    · subst hm; simp [dreg, Ne.symm hk]
    · simp [setDreg, dreg, hk, hm]

@[simp] theorem Core.flag_addFlag (c : Core) (k m : Nat) (a : W32) :
    (c.addFlag k a).flag m = if m = k then c.flag k + a else c.flag m := by
  simp [Core.flag, Core.addFlag]

end Sys2Proof.Machine
end

