-- ==== Sys2Proof/Laws/State.lean ====
section
/-! SUPPORT. What each update of State leaves: one law for a field and an update, so that no proof unfolds a record. -/

namespace Sys2Proof.Machine

/-! ### After setCore -/

@[simp] theorem State.pending_setCore (s : State) (n : Nat) (c : Core) : (s.setCore n c).pending = s.pending := rfl
@[simp] theorem State.mem_setCore (s : State) (n : Nat) (c : Core) : (s.setCore n c).mem = s.mem := rfl
@[simp] theorem State.memErr_setCore (s : State) (n : Nat) (c : Core) : (s.setCore n c).memErr = s.memErr := rfl
@[simp] theorem State.courses_setCore (s : State) (n : Nat) (c : Core) : (s.setCore n c).courses = s.courses := rfl
@[simp] theorem State.hbm_setCore (s : State) (n : Nat) (c : Core) : (s.setCore n c).hbm = s.hbm := rfl
@[simp] theorem State.slopes_setCore (s : State) (n : Nat) (c : Core) : (s.setCore n c).slopes = s.slopes := rfl
@[simp] theorem State.ports_setCore (s : State) (n : Nat) (c : Core) : (s.setCore n c).ports = s.ports := rfl
@[simp] theorem State.colls_setCore (s : State) (n : Nat) (c : Core) : (s.setCore n c).colls = s.colls := rfl
@[simp] theorem State.modBarriers_setCore (s : State) (n : Nat) (c : Core) : (s.setCore n c).modBarriers = s.modBarriers := rfl
@[simp] theorem State.arrivals_setCore (s : State) (n : Nat) (c : Core) : (s.setCore n c).arrivals = s.arrivals := rfl
@[simp] theorem State.held_setCore (s : State) (n : Nat) (c : Core) : (s.setCore n c).held = s.held := rfl
@[simp] theorem State.valPath_setCore (s : State) (n : Nat) (c : Core) : (s.setCore n c).valPath = s.valPath := rfl
@[simp] theorem State.coreReset_setCore (s : State) (n : Nat) (c : Core) : (s.setCore n c).coreReset = s.coreReset := rfl
@[simp] theorem State.resetDue_setCore (s : State) (n : Nat) (c : Core) : (s.setCore n c).resetDue = s.resetDue := rfl
@[simp] theorem State.resets_setCore (s : State) (n : Nat) (c : Core) : (s.setCore n c).resets = s.resets := rfl
@[simp] theorem State.image_setCore (s : State) (n : Nat) (c : Core) : (s.setCore n c).image = s.image := rfl
@[simp] theorem State.job_setCore (s : State) (n : Nat) (c : Core) : (s.setCore n c).job = s.job := rfl
@[simp] theorem State.rcp_setCore (s : State) (n : Nat) (c : Core) : (s.setCore n c).rcp = s.rcp := rfl
@[simp] theorem State.log_setCore (s : State) (n : Nat) (c : Core) : (s.setCore n c).log = s.log := rfl
@[simp] theorem State.ridge_setCore (s : State) (n : Nat) (c : Core) : (s.setCore n c).ridge = s.ridge := rfl
@[simp] theorem State.bulkRegions_setCore (s : State) (n : Nat) (c : Core) : (s.setCore n c).bulkRegions = s.bulkRegions := rfl
@[simp] theorem State.rng_setCore (s : State) (n : Nat) (c : Core) : (s.setCore n c).rng = s.rng := rfl
@[simp] theorem State.digest_setCore (s : State) (n : Nat) (c : Core) : (s.setCore n c).digest = s.digest := rfl
@[simp] theorem State.nextClose_setCore (s : State) (n : Nat) (c : Core) : (s.setCore n c).nextClose = s.nextClose := rfl
@[simp] theorem State.power_setCore (s : State) (n : Nat) (c : Core) : (s.setCore n c).power = s.power := rfl
@[simp] theorem State.ready_setCore (s : State) (n : Nat) (c : Core) : (s.setCore n c).ready = s.ready := rfl
@[simp] theorem State.sec_setCore (s : State) (n : Nat) (c : Core) : (s.setCore n c).sec = s.sec := rfl
@[simp] theorem State.health_setCore (s : State) (n : Nat) (c : Core) : (s.setCore n c).health = s.health := rfl
@[simp] theorem State.fabric_setCore (s : State) (n : Nat) (c : Core) : (s.setCore n c).fabric = s.fabric := rfl
@[simp] theorem State.reshard_setCore (s : State) (n : Nat) (c : Core) : (s.setCore n c).reshard = s.reshard := rfl
@[simp] theorem State.hbmAffinity_setCore (s : State) (n : Nat) (c : Core) : (s.setCore n c).hbmAffinity = s.hbmAffinity := rfl
@[simp] theorem State.ceEvent_setCore (s : State) (n : Nat) (c : Core) : (s.setCore n c).ceEvent = s.ceEvent := rfl
@[simp] theorem State.hbmRate_setCore (s : State) (n : Nat) (c : Core) : (s.setCore n c).hbmRate = s.hbmRate := rfl
@[simp] theorem State.sramLapMs_setCore (s : State) (n : Nat) (c : Core) : (s.setCore n c).sramLapMs = s.sramLapMs := rfl
@[simp] theorem State.timebase_setCore (s : State) (n : Nat) (c : Core) : (s.setCore n c).timebase = s.timebase := rfl
@[simp] theorem State.clock_setCore (s : State) (n : Nat) (c : Core) : (s.setCore n c).clock = s.clock := rfl
@[simp] theorem State.free_setCore (s : State) (n : Nat) (c : Core) : (s.setCore n c).free = s.free := rfl
@[simp] theorem State.course_setCore (s : State) (n : Nat) (c : Core) (m : Nat) : (s.setCore n c).course m = s.course m := rfl
@[simp] theorem State.slope_setCore (s : State) (n : Nat) (c : Core) (m : Nat) : (s.setCore n c).slope m = s.slope m := rfl
@[simp] theorem State.port_setCore (s : State) (n : Nat) (c : Core) (m : Nat) : (s.setCore n c).port m = s.port m := rfl
@[simp] theorem State.stack_setCore (s : State) (n : Nat) (c : Core) (m : Nat) : (s.setCore n c).stack m = s.stack m := rfl
@[simp] theorem State.coll_setCore (s : State) (n : Nat) (c : Core) (m : Nat) : (s.setCore n c).coll m = s.coll m := rfl

/-! ### After modCore -/

@[simp] theorem State.pending_modCore (s : State) (n : Nat) (f : Core → Core) : (s.modCore n f).pending = s.pending := rfl
@[simp] theorem State.mem_modCore (s : State) (n : Nat) (f : Core → Core) : (s.modCore n f).mem = s.mem := rfl
@[simp] theorem State.memErr_modCore (s : State) (n : Nat) (f : Core → Core) : (s.modCore n f).memErr = s.memErr := rfl
@[simp] theorem State.courses_modCore (s : State) (n : Nat) (f : Core → Core) : (s.modCore n f).courses = s.courses := rfl
@[simp] theorem State.hbm_modCore (s : State) (n : Nat) (f : Core → Core) : (s.modCore n f).hbm = s.hbm := rfl
@[simp] theorem State.slopes_modCore (s : State) (n : Nat) (f : Core → Core) : (s.modCore n f).slopes = s.slopes := rfl
@[simp] theorem State.ports_modCore (s : State) (n : Nat) (f : Core → Core) : (s.modCore n f).ports = s.ports := rfl
@[simp] theorem State.colls_modCore (s : State) (n : Nat) (f : Core → Core) : (s.modCore n f).colls = s.colls := rfl
@[simp] theorem State.modBarriers_modCore (s : State) (n : Nat) (f : Core → Core) : (s.modCore n f).modBarriers = s.modBarriers := rfl
@[simp] theorem State.arrivals_modCore (s : State) (n : Nat) (f : Core → Core) : (s.modCore n f).arrivals = s.arrivals := rfl
@[simp] theorem State.held_modCore (s : State) (n : Nat) (f : Core → Core) : (s.modCore n f).held = s.held := rfl
@[simp] theorem State.valPath_modCore (s : State) (n : Nat) (f : Core → Core) : (s.modCore n f).valPath = s.valPath := rfl
@[simp] theorem State.coreReset_modCore (s : State) (n : Nat) (f : Core → Core) : (s.modCore n f).coreReset = s.coreReset := rfl
@[simp] theorem State.resetDue_modCore (s : State) (n : Nat) (f : Core → Core) : (s.modCore n f).resetDue = s.resetDue := rfl
@[simp] theorem State.resets_modCore (s : State) (n : Nat) (f : Core → Core) : (s.modCore n f).resets = s.resets := rfl
@[simp] theorem State.image_modCore (s : State) (n : Nat) (f : Core → Core) : (s.modCore n f).image = s.image := rfl
@[simp] theorem State.job_modCore (s : State) (n : Nat) (f : Core → Core) : (s.modCore n f).job = s.job := rfl
@[simp] theorem State.rcp_modCore (s : State) (n : Nat) (f : Core → Core) : (s.modCore n f).rcp = s.rcp := rfl
@[simp] theorem State.log_modCore (s : State) (n : Nat) (f : Core → Core) : (s.modCore n f).log = s.log := rfl
@[simp] theorem State.ridge_modCore (s : State) (n : Nat) (f : Core → Core) : (s.modCore n f).ridge = s.ridge := rfl
@[simp] theorem State.bulkRegions_modCore (s : State) (n : Nat) (f : Core → Core) : (s.modCore n f).bulkRegions = s.bulkRegions := rfl
@[simp] theorem State.rng_modCore (s : State) (n : Nat) (f : Core → Core) : (s.modCore n f).rng = s.rng := rfl
@[simp] theorem State.digest_modCore (s : State) (n : Nat) (f : Core → Core) : (s.modCore n f).digest = s.digest := rfl
@[simp] theorem State.nextClose_modCore (s : State) (n : Nat) (f : Core → Core) : (s.modCore n f).nextClose = s.nextClose := rfl
@[simp] theorem State.power_modCore (s : State) (n : Nat) (f : Core → Core) : (s.modCore n f).power = s.power := rfl
@[simp] theorem State.ready_modCore (s : State) (n : Nat) (f : Core → Core) : (s.modCore n f).ready = s.ready := rfl
@[simp] theorem State.sec_modCore (s : State) (n : Nat) (f : Core → Core) : (s.modCore n f).sec = s.sec := rfl
@[simp] theorem State.health_modCore (s : State) (n : Nat) (f : Core → Core) : (s.modCore n f).health = s.health := rfl
@[simp] theorem State.fabric_modCore (s : State) (n : Nat) (f : Core → Core) : (s.modCore n f).fabric = s.fabric := rfl
@[simp] theorem State.reshard_modCore (s : State) (n : Nat) (f : Core → Core) : (s.modCore n f).reshard = s.reshard := rfl
@[simp] theorem State.hbmAffinity_modCore (s : State) (n : Nat) (f : Core → Core) : (s.modCore n f).hbmAffinity = s.hbmAffinity := rfl
@[simp] theorem State.ceEvent_modCore (s : State) (n : Nat) (f : Core → Core) : (s.modCore n f).ceEvent = s.ceEvent := rfl
@[simp] theorem State.hbmRate_modCore (s : State) (n : Nat) (f : Core → Core) : (s.modCore n f).hbmRate = s.hbmRate := rfl
@[simp] theorem State.sramLapMs_modCore (s : State) (n : Nat) (f : Core → Core) : (s.modCore n f).sramLapMs = s.sramLapMs := rfl
@[simp] theorem State.timebase_modCore (s : State) (n : Nat) (f : Core → Core) : (s.modCore n f).timebase = s.timebase := rfl
@[simp] theorem State.clock_modCore (s : State) (n : Nat) (f : Core → Core) : (s.modCore n f).clock = s.clock := rfl
@[simp] theorem State.free_modCore (s : State) (n : Nat) (f : Core → Core) : (s.modCore n f).free = s.free := rfl
@[simp] theorem State.course_modCore (s : State) (n : Nat) (f : Core → Core) (m : Nat) : (s.modCore n f).course m = s.course m := rfl
@[simp] theorem State.slope_modCore (s : State) (n : Nat) (f : Core → Core) (m : Nat) : (s.modCore n f).slope m = s.slope m := rfl
@[simp] theorem State.port_modCore (s : State) (n : Nat) (f : Core → Core) (m : Nat) : (s.modCore n f).port m = s.port m := rfl
@[simp] theorem State.stack_modCore (s : State) (n : Nat) (f : Core → Core) (m : Nat) : (s.modCore n f).stack m = s.stack m := rfl
@[simp] theorem State.coll_modCore (s : State) (n : Nat) (f : Core → Core) (m : Nat) : (s.modCore n f).coll m = s.coll m := rfl

/-! ### After modCtx -/

@[simp] theorem State.pending_modCtx (s : State) (n : Nat) (t : Stream) (f : StreamCtx → StreamCtx) : (s.modCtx n t f).pending = s.pending := rfl
@[simp] theorem State.mem_modCtx (s : State) (n : Nat) (t : Stream) (f : StreamCtx → StreamCtx) : (s.modCtx n t f).mem = s.mem := rfl
@[simp] theorem State.memErr_modCtx (s : State) (n : Nat) (t : Stream) (f : StreamCtx → StreamCtx) : (s.modCtx n t f).memErr = s.memErr := rfl
@[simp] theorem State.courses_modCtx (s : State) (n : Nat) (t : Stream) (f : StreamCtx → StreamCtx) : (s.modCtx n t f).courses = s.courses := rfl
@[simp] theorem State.hbm_modCtx (s : State) (n : Nat) (t : Stream) (f : StreamCtx → StreamCtx) : (s.modCtx n t f).hbm = s.hbm := rfl
@[simp] theorem State.slopes_modCtx (s : State) (n : Nat) (t : Stream) (f : StreamCtx → StreamCtx) : (s.modCtx n t f).slopes = s.slopes := rfl
@[simp] theorem State.ports_modCtx (s : State) (n : Nat) (t : Stream) (f : StreamCtx → StreamCtx) : (s.modCtx n t f).ports = s.ports := rfl
@[simp] theorem State.colls_modCtx (s : State) (n : Nat) (t : Stream) (f : StreamCtx → StreamCtx) : (s.modCtx n t f).colls = s.colls := rfl
@[simp] theorem State.modBarriers_modCtx (s : State) (n : Nat) (t : Stream) (f : StreamCtx → StreamCtx) : (s.modCtx n t f).modBarriers = s.modBarriers := rfl
@[simp] theorem State.arrivals_modCtx (s : State) (n : Nat) (t : Stream) (f : StreamCtx → StreamCtx) : (s.modCtx n t f).arrivals = s.arrivals := rfl
@[simp] theorem State.held_modCtx (s : State) (n : Nat) (t : Stream) (f : StreamCtx → StreamCtx) : (s.modCtx n t f).held = s.held := rfl
@[simp] theorem State.valPath_modCtx (s : State) (n : Nat) (t : Stream) (f : StreamCtx → StreamCtx) : (s.modCtx n t f).valPath = s.valPath := rfl
@[simp] theorem State.coreReset_modCtx (s : State) (n : Nat) (t : Stream) (f : StreamCtx → StreamCtx) : (s.modCtx n t f).coreReset = s.coreReset := rfl
@[simp] theorem State.resetDue_modCtx (s : State) (n : Nat) (t : Stream) (f : StreamCtx → StreamCtx) : (s.modCtx n t f).resetDue = s.resetDue := rfl
@[simp] theorem State.resets_modCtx (s : State) (n : Nat) (t : Stream) (f : StreamCtx → StreamCtx) : (s.modCtx n t f).resets = s.resets := rfl
@[simp] theorem State.image_modCtx (s : State) (n : Nat) (t : Stream) (f : StreamCtx → StreamCtx) : (s.modCtx n t f).image = s.image := rfl
@[simp] theorem State.job_modCtx (s : State) (n : Nat) (t : Stream) (f : StreamCtx → StreamCtx) : (s.modCtx n t f).job = s.job := rfl
@[simp] theorem State.rcp_modCtx (s : State) (n : Nat) (t : Stream) (f : StreamCtx → StreamCtx) : (s.modCtx n t f).rcp = s.rcp := rfl
@[simp] theorem State.log_modCtx (s : State) (n : Nat) (t : Stream) (f : StreamCtx → StreamCtx) : (s.modCtx n t f).log = s.log := rfl
@[simp] theorem State.ridge_modCtx (s : State) (n : Nat) (t : Stream) (f : StreamCtx → StreamCtx) : (s.modCtx n t f).ridge = s.ridge := rfl
@[simp] theorem State.bulkRegions_modCtx (s : State) (n : Nat) (t : Stream) (f : StreamCtx → StreamCtx) : (s.modCtx n t f).bulkRegions = s.bulkRegions := rfl
@[simp] theorem State.rng_modCtx (s : State) (n : Nat) (t : Stream) (f : StreamCtx → StreamCtx) : (s.modCtx n t f).rng = s.rng := rfl
@[simp] theorem State.digest_modCtx (s : State) (n : Nat) (t : Stream) (f : StreamCtx → StreamCtx) : (s.modCtx n t f).digest = s.digest := rfl
@[simp] theorem State.nextClose_modCtx (s : State) (n : Nat) (t : Stream) (f : StreamCtx → StreamCtx) : (s.modCtx n t f).nextClose = s.nextClose := rfl
@[simp] theorem State.power_modCtx (s : State) (n : Nat) (t : Stream) (f : StreamCtx → StreamCtx) : (s.modCtx n t f).power = s.power := rfl
@[simp] theorem State.ready_modCtx (s : State) (n : Nat) (t : Stream) (f : StreamCtx → StreamCtx) : (s.modCtx n t f).ready = s.ready := rfl
@[simp] theorem State.sec_modCtx (s : State) (n : Nat) (t : Stream) (f : StreamCtx → StreamCtx) : (s.modCtx n t f).sec = s.sec := rfl
@[simp] theorem State.health_modCtx (s : State) (n : Nat) (t : Stream) (f : StreamCtx → StreamCtx) : (s.modCtx n t f).health = s.health := rfl
@[simp] theorem State.fabric_modCtx (s : State) (n : Nat) (t : Stream) (f : StreamCtx → StreamCtx) : (s.modCtx n t f).fabric = s.fabric := rfl
@[simp] theorem State.reshard_modCtx (s : State) (n : Nat) (t : Stream) (f : StreamCtx → StreamCtx) : (s.modCtx n t f).reshard = s.reshard := rfl
@[simp] theorem State.hbmAffinity_modCtx (s : State) (n : Nat) (t : Stream) (f : StreamCtx → StreamCtx) : (s.modCtx n t f).hbmAffinity = s.hbmAffinity := rfl
@[simp] theorem State.ceEvent_modCtx (s : State) (n : Nat) (t : Stream) (f : StreamCtx → StreamCtx) : (s.modCtx n t f).ceEvent = s.ceEvent := rfl
@[simp] theorem State.hbmRate_modCtx (s : State) (n : Nat) (t : Stream) (f : StreamCtx → StreamCtx) : (s.modCtx n t f).hbmRate = s.hbmRate := rfl
@[simp] theorem State.sramLapMs_modCtx (s : State) (n : Nat) (t : Stream) (f : StreamCtx → StreamCtx) : (s.modCtx n t f).sramLapMs = s.sramLapMs := rfl
@[simp] theorem State.timebase_modCtx (s : State) (n : Nat) (t : Stream) (f : StreamCtx → StreamCtx) : (s.modCtx n t f).timebase = s.timebase := rfl
@[simp] theorem State.clock_modCtx (s : State) (n : Nat) (t : Stream) (f : StreamCtx → StreamCtx) : (s.modCtx n t f).clock = s.clock := rfl
@[simp] theorem State.free_modCtx (s : State) (n : Nat) (t : Stream) (f : StreamCtx → StreamCtx) : (s.modCtx n t f).free = s.free := rfl
@[simp] theorem State.course_modCtx (s : State) (n : Nat) (t : Stream) (f : StreamCtx → StreamCtx) (m : Nat) : (s.modCtx n t f).course m = s.course m := rfl
@[simp] theorem State.slope_modCtx (s : State) (n : Nat) (t : Stream) (f : StreamCtx → StreamCtx) (m : Nat) : (s.modCtx n t f).slope m = s.slope m := rfl
@[simp] theorem State.port_modCtx (s : State) (n : Nat) (t : Stream) (f : StreamCtx → StreamCtx) (m : Nat) : (s.modCtx n t f).port m = s.port m := rfl
@[simp] theorem State.stack_modCtx (s : State) (n : Nat) (t : Stream) (f : StreamCtx → StreamCtx) (m : Nat) : (s.modCtx n t f).stack m = s.stack m := rfl
@[simp] theorem State.coll_modCtx (s : State) (n : Nat) (t : Stream) (f : StreamCtx → StreamCtx) (m : Nat) : (s.modCtx n t f).coll m = s.coll m := rfl

/-! ### After setSreg -/

@[simp] theorem State.pending_setSreg (s : State) (n : Nat) (t : Stream) (k : Nat) (v : Word) : (s.setSreg n t k v).pending = s.pending := rfl
@[simp] theorem State.mem_setSreg (s : State) (n : Nat) (t : Stream) (k : Nat) (v : Word) : (s.setSreg n t k v).mem = s.mem := rfl
@[simp] theorem State.memErr_setSreg (s : State) (n : Nat) (t : Stream) (k : Nat) (v : Word) : (s.setSreg n t k v).memErr = s.memErr := rfl
@[simp] theorem State.courses_setSreg (s : State) (n : Nat) (t : Stream) (k : Nat) (v : Word) : (s.setSreg n t k v).courses = s.courses := rfl
@[simp] theorem State.hbm_setSreg (s : State) (n : Nat) (t : Stream) (k : Nat) (v : Word) : (s.setSreg n t k v).hbm = s.hbm := rfl
@[simp] theorem State.slopes_setSreg (s : State) (n : Nat) (t : Stream) (k : Nat) (v : Word) : (s.setSreg n t k v).slopes = s.slopes := rfl
@[simp] theorem State.ports_setSreg (s : State) (n : Nat) (t : Stream) (k : Nat) (v : Word) : (s.setSreg n t k v).ports = s.ports := rfl
@[simp] theorem State.colls_setSreg (s : State) (n : Nat) (t : Stream) (k : Nat) (v : Word) : (s.setSreg n t k v).colls = s.colls := rfl
@[simp] theorem State.modBarriers_setSreg (s : State) (n : Nat) (t : Stream) (k : Nat) (v : Word) : (s.setSreg n t k v).modBarriers = s.modBarriers := rfl
@[simp] theorem State.arrivals_setSreg (s : State) (n : Nat) (t : Stream) (k : Nat) (v : Word) : (s.setSreg n t k v).arrivals = s.arrivals := rfl
@[simp] theorem State.held_setSreg (s : State) (n : Nat) (t : Stream) (k : Nat) (v : Word) : (s.setSreg n t k v).held = s.held := rfl
@[simp] theorem State.valPath_setSreg (s : State) (n : Nat) (t : Stream) (k : Nat) (v : Word) : (s.setSreg n t k v).valPath = s.valPath := rfl
@[simp] theorem State.coreReset_setSreg (s : State) (n : Nat) (t : Stream) (k : Nat) (v : Word) : (s.setSreg n t k v).coreReset = s.coreReset := rfl
@[simp] theorem State.resetDue_setSreg (s : State) (n : Nat) (t : Stream) (k : Nat) (v : Word) : (s.setSreg n t k v).resetDue = s.resetDue := rfl
@[simp] theorem State.resets_setSreg (s : State) (n : Nat) (t : Stream) (k : Nat) (v : Word) : (s.setSreg n t k v).resets = s.resets := rfl
@[simp] theorem State.image_setSreg (s : State) (n : Nat) (t : Stream) (k : Nat) (v : Word) : (s.setSreg n t k v).image = s.image := rfl
@[simp] theorem State.job_setSreg (s : State) (n : Nat) (t : Stream) (k : Nat) (v : Word) : (s.setSreg n t k v).job = s.job := rfl
@[simp] theorem State.rcp_setSreg (s : State) (n : Nat) (t : Stream) (k : Nat) (v : Word) : (s.setSreg n t k v).rcp = s.rcp := rfl
@[simp] theorem State.log_setSreg (s : State) (n : Nat) (t : Stream) (k : Nat) (v : Word) : (s.setSreg n t k v).log = s.log := rfl
@[simp] theorem State.ridge_setSreg (s : State) (n : Nat) (t : Stream) (k : Nat) (v : Word) : (s.setSreg n t k v).ridge = s.ridge := rfl
@[simp] theorem State.bulkRegions_setSreg (s : State) (n : Nat) (t : Stream) (k : Nat) (v : Word) : (s.setSreg n t k v).bulkRegions = s.bulkRegions := rfl
@[simp] theorem State.rng_setSreg (s : State) (n : Nat) (t : Stream) (k : Nat) (v : Word) : (s.setSreg n t k v).rng = s.rng := rfl
@[simp] theorem State.digest_setSreg (s : State) (n : Nat) (t : Stream) (k : Nat) (v : Word) : (s.setSreg n t k v).digest = s.digest := rfl
@[simp] theorem State.nextClose_setSreg (s : State) (n : Nat) (t : Stream) (k : Nat) (v : Word) : (s.setSreg n t k v).nextClose = s.nextClose := rfl
@[simp] theorem State.power_setSreg (s : State) (n : Nat) (t : Stream) (k : Nat) (v : Word) : (s.setSreg n t k v).power = s.power := rfl
@[simp] theorem State.ready_setSreg (s : State) (n : Nat) (t : Stream) (k : Nat) (v : Word) : (s.setSreg n t k v).ready = s.ready := rfl
@[simp] theorem State.sec_setSreg (s : State) (n : Nat) (t : Stream) (k : Nat) (v : Word) : (s.setSreg n t k v).sec = s.sec := rfl
@[simp] theorem State.health_setSreg (s : State) (n : Nat) (t : Stream) (k : Nat) (v : Word) : (s.setSreg n t k v).health = s.health := rfl
@[simp] theorem State.fabric_setSreg (s : State) (n : Nat) (t : Stream) (k : Nat) (v : Word) : (s.setSreg n t k v).fabric = s.fabric := rfl
@[simp] theorem State.reshard_setSreg (s : State) (n : Nat) (t : Stream) (k : Nat) (v : Word) : (s.setSreg n t k v).reshard = s.reshard := rfl
@[simp] theorem State.hbmAffinity_setSreg (s : State) (n : Nat) (t : Stream) (k : Nat) (v : Word) : (s.setSreg n t k v).hbmAffinity = s.hbmAffinity := rfl
@[simp] theorem State.ceEvent_setSreg (s : State) (n : Nat) (t : Stream) (k : Nat) (v : Word) : (s.setSreg n t k v).ceEvent = s.ceEvent := rfl
@[simp] theorem State.hbmRate_setSreg (s : State) (n : Nat) (t : Stream) (k : Nat) (v : Word) : (s.setSreg n t k v).hbmRate = s.hbmRate := rfl
@[simp] theorem State.sramLapMs_setSreg (s : State) (n : Nat) (t : Stream) (k : Nat) (v : Word) : (s.setSreg n t k v).sramLapMs = s.sramLapMs := rfl
@[simp] theorem State.timebase_setSreg (s : State) (n : Nat) (t : Stream) (k : Nat) (v : Word) : (s.setSreg n t k v).timebase = s.timebase := rfl
@[simp] theorem State.clock_setSreg (s : State) (n : Nat) (t : Stream) (k : Nat) (v : Word) : (s.setSreg n t k v).clock = s.clock := rfl
@[simp] theorem State.free_setSreg (s : State) (n : Nat) (t : Stream) (k : Nat) (v : Word) : (s.setSreg n t k v).free = s.free := rfl
@[simp] theorem State.course_setSreg (s : State) (n : Nat) (t : Stream) (k : Nat) (v : Word) (m : Nat) : (s.setSreg n t k v).course m = s.course m := rfl
@[simp] theorem State.slope_setSreg (s : State) (n : Nat) (t : Stream) (k : Nat) (v : Word) (m : Nat) : (s.setSreg n t k v).slope m = s.slope m := rfl
@[simp] theorem State.port_setSreg (s : State) (n : Nat) (t : Stream) (k : Nat) (v : Word) (m : Nat) : (s.setSreg n t k v).port m = s.port m := rfl
@[simp] theorem State.stack_setSreg (s : State) (n : Nat) (t : Stream) (k : Nat) (v : Word) (m : Nat) : (s.setSreg n t k v).stack m = s.stack m := rfl
@[simp] theorem State.coll_setSreg (s : State) (n : Nat) (t : Stream) (k : Nat) (v : Word) (m : Nat) : (s.setSreg n t k v).coll m = s.coll m := rfl

/-! ### After setCourse -/

@[simp] theorem State.pending_setCourse (s : State) (c : Nat) (x : Course) : (s.setCourse c x).pending = s.pending := rfl
@[simp] theorem State.mem_setCourse (s : State) (c : Nat) (x : Course) : (s.setCourse c x).mem = s.mem := rfl
@[simp] theorem State.memErr_setCourse (s : State) (c : Nat) (x : Course) : (s.setCourse c x).memErr = s.memErr := rfl
@[simp] theorem State.cores_setCourse (s : State) (c : Nat) (x : Course) : (s.setCourse c x).cores = s.cores := rfl
@[simp] theorem State.hbm_setCourse (s : State) (c : Nat) (x : Course) : (s.setCourse c x).hbm = s.hbm := rfl
@[simp] theorem State.slopes_setCourse (s : State) (c : Nat) (x : Course) : (s.setCourse c x).slopes = s.slopes := rfl
@[simp] theorem State.ports_setCourse (s : State) (c : Nat) (x : Course) : (s.setCourse c x).ports = s.ports := rfl
@[simp] theorem State.colls_setCourse (s : State) (c : Nat) (x : Course) : (s.setCourse c x).colls = s.colls := rfl
@[simp] theorem State.modBarriers_setCourse (s : State) (c : Nat) (x : Course) : (s.setCourse c x).modBarriers = s.modBarriers := rfl
@[simp] theorem State.arrivals_setCourse (s : State) (c : Nat) (x : Course) : (s.setCourse c x).arrivals = s.arrivals := rfl
@[simp] theorem State.held_setCourse (s : State) (c : Nat) (x : Course) : (s.setCourse c x).held = s.held := rfl
@[simp] theorem State.valPath_setCourse (s : State) (c : Nat) (x : Course) : (s.setCourse c x).valPath = s.valPath := rfl
@[simp] theorem State.coreReset_setCourse (s : State) (c : Nat) (x : Course) : (s.setCourse c x).coreReset = s.coreReset := rfl
@[simp] theorem State.resetDue_setCourse (s : State) (c : Nat) (x : Course) : (s.setCourse c x).resetDue = s.resetDue := rfl
@[simp] theorem State.resets_setCourse (s : State) (c : Nat) (x : Course) : (s.setCourse c x).resets = s.resets := rfl
@[simp] theorem State.image_setCourse (s : State) (c : Nat) (x : Course) : (s.setCourse c x).image = s.image := rfl
@[simp] theorem State.job_setCourse (s : State) (c : Nat) (x : Course) : (s.setCourse c x).job = s.job := rfl
@[simp] theorem State.rcp_setCourse (s : State) (c : Nat) (x : Course) : (s.setCourse c x).rcp = s.rcp := rfl
@[simp] theorem State.log_setCourse (s : State) (c : Nat) (x : Course) : (s.setCourse c x).log = s.log := rfl
@[simp] theorem State.ridge_setCourse (s : State) (c : Nat) (x : Course) : (s.setCourse c x).ridge = s.ridge := rfl
@[simp] theorem State.bulkRegions_setCourse (s : State) (c : Nat) (x : Course) : (s.setCourse c x).bulkRegions = s.bulkRegions := rfl
@[simp] theorem State.rng_setCourse (s : State) (c : Nat) (x : Course) : (s.setCourse c x).rng = s.rng := rfl
@[simp] theorem State.digest_setCourse (s : State) (c : Nat) (x : Course) : (s.setCourse c x).digest = s.digest := rfl
@[simp] theorem State.nextClose_setCourse (s : State) (c : Nat) (x : Course) : (s.setCourse c x).nextClose = s.nextClose := rfl
@[simp] theorem State.power_setCourse (s : State) (c : Nat) (x : Course) : (s.setCourse c x).power = s.power := rfl
@[simp] theorem State.ready_setCourse (s : State) (c : Nat) (x : Course) : (s.setCourse c x).ready = s.ready := rfl
@[simp] theorem State.sec_setCourse (s : State) (c : Nat) (x : Course) : (s.setCourse c x).sec = s.sec := rfl
@[simp] theorem State.health_setCourse (s : State) (c : Nat) (x : Course) : (s.setCourse c x).health = s.health := rfl
@[simp] theorem State.fabric_setCourse (s : State) (c : Nat) (x : Course) : (s.setCourse c x).fabric = s.fabric := rfl
@[simp] theorem State.reshard_setCourse (s : State) (c : Nat) (x : Course) : (s.setCourse c x).reshard = s.reshard := rfl
@[simp] theorem State.hbmAffinity_setCourse (s : State) (c : Nat) (x : Course) : (s.setCourse c x).hbmAffinity = s.hbmAffinity := rfl
@[simp] theorem State.ceEvent_setCourse (s : State) (c : Nat) (x : Course) : (s.setCourse c x).ceEvent = s.ceEvent := rfl
@[simp] theorem State.hbmRate_setCourse (s : State) (c : Nat) (x : Course) : (s.setCourse c x).hbmRate = s.hbmRate := rfl
@[simp] theorem State.sramLapMs_setCourse (s : State) (c : Nat) (x : Course) : (s.setCourse c x).sramLapMs = s.sramLapMs := rfl
@[simp] theorem State.timebase_setCourse (s : State) (c : Nat) (x : Course) : (s.setCourse c x).timebase = s.timebase := rfl
@[simp] theorem State.clock_setCourse (s : State) (c : Nat) (x : Course) : (s.setCourse c x).clock = s.clock := rfl
@[simp] theorem State.free_setCourse (s : State) (c : Nat) (x : Course) : (s.setCourse c x).free = s.free := rfl
@[simp] theorem State.core_setCourse (s : State) (c : Nat) (x : Course) (m : Nat) : (s.setCourse c x).core m = s.core m := rfl
@[simp] theorem State.slope_setCourse (s : State) (c : Nat) (x : Course) (m : Nat) : (s.setCourse c x).slope m = s.slope m := rfl
@[simp] theorem State.port_setCourse (s : State) (c : Nat) (x : Course) (m : Nat) : (s.setCourse c x).port m = s.port m := rfl
@[simp] theorem State.stack_setCourse (s : State) (c : Nat) (x : Course) (m : Nat) : (s.setCourse c x).stack m = s.stack m := rfl
@[simp] theorem State.coll_setCourse (s : State) (c : Nat) (x : Course) (m : Nat) : (s.setCourse c x).coll m = s.coll m := rfl

/-! ### After modCourse -/

@[simp] theorem State.pending_modCourse (s : State) (c : Nat) (f : Course → Course) : (s.modCourse c f).pending = s.pending := rfl
@[simp] theorem State.mem_modCourse (s : State) (c : Nat) (f : Course → Course) : (s.modCourse c f).mem = s.mem := rfl
@[simp] theorem State.memErr_modCourse (s : State) (c : Nat) (f : Course → Course) : (s.modCourse c f).memErr = s.memErr := rfl
@[simp] theorem State.cores_modCourse (s : State) (c : Nat) (f : Course → Course) : (s.modCourse c f).cores = s.cores := rfl
@[simp] theorem State.hbm_modCourse (s : State) (c : Nat) (f : Course → Course) : (s.modCourse c f).hbm = s.hbm := rfl
@[simp] theorem State.slopes_modCourse (s : State) (c : Nat) (f : Course → Course) : (s.modCourse c f).slopes = s.slopes := rfl
@[simp] theorem State.ports_modCourse (s : State) (c : Nat) (f : Course → Course) : (s.modCourse c f).ports = s.ports := rfl
@[simp] theorem State.colls_modCourse (s : State) (c : Nat) (f : Course → Course) : (s.modCourse c f).colls = s.colls := rfl
@[simp] theorem State.modBarriers_modCourse (s : State) (c : Nat) (f : Course → Course) : (s.modCourse c f).modBarriers = s.modBarriers := rfl
@[simp] theorem State.arrivals_modCourse (s : State) (c : Nat) (f : Course → Course) : (s.modCourse c f).arrivals = s.arrivals := rfl
@[simp] theorem State.held_modCourse (s : State) (c : Nat) (f : Course → Course) : (s.modCourse c f).held = s.held := rfl
@[simp] theorem State.valPath_modCourse (s : State) (c : Nat) (f : Course → Course) : (s.modCourse c f).valPath = s.valPath := rfl
@[simp] theorem State.coreReset_modCourse (s : State) (c : Nat) (f : Course → Course) : (s.modCourse c f).coreReset = s.coreReset := rfl
@[simp] theorem State.resetDue_modCourse (s : State) (c : Nat) (f : Course → Course) : (s.modCourse c f).resetDue = s.resetDue := rfl
@[simp] theorem State.resets_modCourse (s : State) (c : Nat) (f : Course → Course) : (s.modCourse c f).resets = s.resets := rfl
@[simp] theorem State.image_modCourse (s : State) (c : Nat) (f : Course → Course) : (s.modCourse c f).image = s.image := rfl
@[simp] theorem State.job_modCourse (s : State) (c : Nat) (f : Course → Course) : (s.modCourse c f).job = s.job := rfl
@[simp] theorem State.rcp_modCourse (s : State) (c : Nat) (f : Course → Course) : (s.modCourse c f).rcp = s.rcp := rfl
@[simp] theorem State.log_modCourse (s : State) (c : Nat) (f : Course → Course) : (s.modCourse c f).log = s.log := rfl
@[simp] theorem State.ridge_modCourse (s : State) (c : Nat) (f : Course → Course) : (s.modCourse c f).ridge = s.ridge := rfl
@[simp] theorem State.bulkRegions_modCourse (s : State) (c : Nat) (f : Course → Course) : (s.modCourse c f).bulkRegions = s.bulkRegions := rfl
@[simp] theorem State.rng_modCourse (s : State) (c : Nat) (f : Course → Course) : (s.modCourse c f).rng = s.rng := rfl
@[simp] theorem State.digest_modCourse (s : State) (c : Nat) (f : Course → Course) : (s.modCourse c f).digest = s.digest := rfl
@[simp] theorem State.nextClose_modCourse (s : State) (c : Nat) (f : Course → Course) : (s.modCourse c f).nextClose = s.nextClose := rfl
@[simp] theorem State.power_modCourse (s : State) (c : Nat) (f : Course → Course) : (s.modCourse c f).power = s.power := rfl
@[simp] theorem State.ready_modCourse (s : State) (c : Nat) (f : Course → Course) : (s.modCourse c f).ready = s.ready := rfl
@[simp] theorem State.sec_modCourse (s : State) (c : Nat) (f : Course → Course) : (s.modCourse c f).sec = s.sec := rfl
@[simp] theorem State.health_modCourse (s : State) (c : Nat) (f : Course → Course) : (s.modCourse c f).health = s.health := rfl
@[simp] theorem State.fabric_modCourse (s : State) (c : Nat) (f : Course → Course) : (s.modCourse c f).fabric = s.fabric := rfl
@[simp] theorem State.reshard_modCourse (s : State) (c : Nat) (f : Course → Course) : (s.modCourse c f).reshard = s.reshard := rfl
@[simp] theorem State.hbmAffinity_modCourse (s : State) (c : Nat) (f : Course → Course) : (s.modCourse c f).hbmAffinity = s.hbmAffinity := rfl
@[simp] theorem State.ceEvent_modCourse (s : State) (c : Nat) (f : Course → Course) : (s.modCourse c f).ceEvent = s.ceEvent := rfl
@[simp] theorem State.hbmRate_modCourse (s : State) (c : Nat) (f : Course → Course) : (s.modCourse c f).hbmRate = s.hbmRate := rfl
@[simp] theorem State.sramLapMs_modCourse (s : State) (c : Nat) (f : Course → Course) : (s.modCourse c f).sramLapMs = s.sramLapMs := rfl
@[simp] theorem State.timebase_modCourse (s : State) (c : Nat) (f : Course → Course) : (s.modCourse c f).timebase = s.timebase := rfl
@[simp] theorem State.clock_modCourse (s : State) (c : Nat) (f : Course → Course) : (s.modCourse c f).clock = s.clock := rfl
@[simp] theorem State.free_modCourse (s : State) (c : Nat) (f : Course → Course) : (s.modCourse c f).free = s.free := rfl
@[simp] theorem State.core_modCourse (s : State) (c : Nat) (f : Course → Course) (m : Nat) : (s.modCourse c f).core m = s.core m := rfl
@[simp] theorem State.slope_modCourse (s : State) (c : Nat) (f : Course → Course) (m : Nat) : (s.modCourse c f).slope m = s.slope m := rfl
@[simp] theorem State.port_modCourse (s : State) (c : Nat) (f : Course → Course) (m : Nat) : (s.modCourse c f).port m = s.port m := rfl
@[simp] theorem State.stack_modCourse (s : State) (c : Nat) (f : Course → Course) (m : Nat) : (s.modCourse c f).stack m = s.stack m := rfl
@[simp] theorem State.coll_modCourse (s : State) (c : Nat) (f : Course → Course) (m : Nat) : (s.modCourse c f).coll m = s.coll m := rfl

/-! ### After modSlope -/

@[simp] theorem State.pending_modSlope (s : State) (k : Nat) (f : Slope → Slope) : (s.modSlope k f).pending = s.pending := rfl
@[simp] theorem State.mem_modSlope (s : State) (k : Nat) (f : Slope → Slope) : (s.modSlope k f).mem = s.mem := rfl
@[simp] theorem State.memErr_modSlope (s : State) (k : Nat) (f : Slope → Slope) : (s.modSlope k f).memErr = s.memErr := rfl
@[simp] theorem State.cores_modSlope (s : State) (k : Nat) (f : Slope → Slope) : (s.modSlope k f).cores = s.cores := rfl
@[simp] theorem State.courses_modSlope (s : State) (k : Nat) (f : Slope → Slope) : (s.modSlope k f).courses = s.courses := rfl
@[simp] theorem State.hbm_modSlope (s : State) (k : Nat) (f : Slope → Slope) : (s.modSlope k f).hbm = s.hbm := rfl
@[simp] theorem State.ports_modSlope (s : State) (k : Nat) (f : Slope → Slope) : (s.modSlope k f).ports = s.ports := rfl
@[simp] theorem State.colls_modSlope (s : State) (k : Nat) (f : Slope → Slope) : (s.modSlope k f).colls = s.colls := rfl
@[simp] theorem State.modBarriers_modSlope (s : State) (k : Nat) (f : Slope → Slope) : (s.modSlope k f).modBarriers = s.modBarriers := rfl
@[simp] theorem State.arrivals_modSlope (s : State) (k : Nat) (f : Slope → Slope) : (s.modSlope k f).arrivals = s.arrivals := rfl
@[simp] theorem State.held_modSlope (s : State) (k : Nat) (f : Slope → Slope) : (s.modSlope k f).held = s.held := rfl
@[simp] theorem State.valPath_modSlope (s : State) (k : Nat) (f : Slope → Slope) : (s.modSlope k f).valPath = s.valPath := rfl
@[simp] theorem State.coreReset_modSlope (s : State) (k : Nat) (f : Slope → Slope) : (s.modSlope k f).coreReset = s.coreReset := rfl
@[simp] theorem State.resetDue_modSlope (s : State) (k : Nat) (f : Slope → Slope) : (s.modSlope k f).resetDue = s.resetDue := rfl
@[simp] theorem State.resets_modSlope (s : State) (k : Nat) (f : Slope → Slope) : (s.modSlope k f).resets = s.resets := rfl
@[simp] theorem State.image_modSlope (s : State) (k : Nat) (f : Slope → Slope) : (s.modSlope k f).image = s.image := rfl
@[simp] theorem State.job_modSlope (s : State) (k : Nat) (f : Slope → Slope) : (s.modSlope k f).job = s.job := rfl
@[simp] theorem State.rcp_modSlope (s : State) (k : Nat) (f : Slope → Slope) : (s.modSlope k f).rcp = s.rcp := rfl
@[simp] theorem State.log_modSlope (s : State) (k : Nat) (f : Slope → Slope) : (s.modSlope k f).log = s.log := rfl
@[simp] theorem State.ridge_modSlope (s : State) (k : Nat) (f : Slope → Slope) : (s.modSlope k f).ridge = s.ridge := rfl
@[simp] theorem State.bulkRegions_modSlope (s : State) (k : Nat) (f : Slope → Slope) : (s.modSlope k f).bulkRegions = s.bulkRegions := rfl
@[simp] theorem State.rng_modSlope (s : State) (k : Nat) (f : Slope → Slope) : (s.modSlope k f).rng = s.rng := rfl
@[simp] theorem State.digest_modSlope (s : State) (k : Nat) (f : Slope → Slope) : (s.modSlope k f).digest = s.digest := rfl
@[simp] theorem State.nextClose_modSlope (s : State) (k : Nat) (f : Slope → Slope) : (s.modSlope k f).nextClose = s.nextClose := rfl
@[simp] theorem State.power_modSlope (s : State) (k : Nat) (f : Slope → Slope) : (s.modSlope k f).power = s.power := rfl
@[simp] theorem State.ready_modSlope (s : State) (k : Nat) (f : Slope → Slope) : (s.modSlope k f).ready = s.ready := rfl
@[simp] theorem State.sec_modSlope (s : State) (k : Nat) (f : Slope → Slope) : (s.modSlope k f).sec = s.sec := rfl
@[simp] theorem State.health_modSlope (s : State) (k : Nat) (f : Slope → Slope) : (s.modSlope k f).health = s.health := rfl
@[simp] theorem State.fabric_modSlope (s : State) (k : Nat) (f : Slope → Slope) : (s.modSlope k f).fabric = s.fabric := rfl
@[simp] theorem State.reshard_modSlope (s : State) (k : Nat) (f : Slope → Slope) : (s.modSlope k f).reshard = s.reshard := rfl
@[simp] theorem State.hbmAffinity_modSlope (s : State) (k : Nat) (f : Slope → Slope) : (s.modSlope k f).hbmAffinity = s.hbmAffinity := rfl
@[simp] theorem State.ceEvent_modSlope (s : State) (k : Nat) (f : Slope → Slope) : (s.modSlope k f).ceEvent = s.ceEvent := rfl
@[simp] theorem State.hbmRate_modSlope (s : State) (k : Nat) (f : Slope → Slope) : (s.modSlope k f).hbmRate = s.hbmRate := rfl
@[simp] theorem State.sramLapMs_modSlope (s : State) (k : Nat) (f : Slope → Slope) : (s.modSlope k f).sramLapMs = s.sramLapMs := rfl
@[simp] theorem State.timebase_modSlope (s : State) (k : Nat) (f : Slope → Slope) : (s.modSlope k f).timebase = s.timebase := rfl
@[simp] theorem State.clock_modSlope (s : State) (k : Nat) (f : Slope → Slope) : (s.modSlope k f).clock = s.clock := rfl
@[simp] theorem State.free_modSlope (s : State) (k : Nat) (f : Slope → Slope) : (s.modSlope k f).free = s.free := rfl
@[simp] theorem State.core_modSlope (s : State) (k : Nat) (f : Slope → Slope) (m : Nat) : (s.modSlope k f).core m = s.core m := rfl
@[simp] theorem State.course_modSlope (s : State) (k : Nat) (f : Slope → Slope) (m : Nat) : (s.modSlope k f).course m = s.course m := rfl
@[simp] theorem State.port_modSlope (s : State) (k : Nat) (f : Slope → Slope) (m : Nat) : (s.modSlope k f).port m = s.port m := rfl
@[simp] theorem State.stack_modSlope (s : State) (k : Nat) (f : Slope → Slope) (m : Nat) : (s.modSlope k f).stack m = s.stack m := rfl
@[simp] theorem State.coll_modSlope (s : State) (k : Nat) (f : Slope → Slope) (m : Nat) : (s.modSlope k f).coll m = s.coll m := rfl

/-! ### After modPort -/

@[simp] theorem State.pending_modPort (s : State) (p : Nat) (f : Port → Port) : (s.modPort p f).pending = s.pending := rfl
@[simp] theorem State.mem_modPort (s : State) (p : Nat) (f : Port → Port) : (s.modPort p f).mem = s.mem := rfl
@[simp] theorem State.memErr_modPort (s : State) (p : Nat) (f : Port → Port) : (s.modPort p f).memErr = s.memErr := rfl
@[simp] theorem State.cores_modPort (s : State) (p : Nat) (f : Port → Port) : (s.modPort p f).cores = s.cores := rfl
@[simp] theorem State.courses_modPort (s : State) (p : Nat) (f : Port → Port) : (s.modPort p f).courses = s.courses := rfl
@[simp] theorem State.hbm_modPort (s : State) (p : Nat) (f : Port → Port) : (s.modPort p f).hbm = s.hbm := rfl
@[simp] theorem State.slopes_modPort (s : State) (p : Nat) (f : Port → Port) : (s.modPort p f).slopes = s.slopes := rfl
@[simp] theorem State.colls_modPort (s : State) (p : Nat) (f : Port → Port) : (s.modPort p f).colls = s.colls := rfl
@[simp] theorem State.modBarriers_modPort (s : State) (p : Nat) (f : Port → Port) : (s.modPort p f).modBarriers = s.modBarriers := rfl
@[simp] theorem State.arrivals_modPort (s : State) (p : Nat) (f : Port → Port) : (s.modPort p f).arrivals = s.arrivals := rfl
@[simp] theorem State.held_modPort (s : State) (p : Nat) (f : Port → Port) : (s.modPort p f).held = s.held := rfl
@[simp] theorem State.valPath_modPort (s : State) (p : Nat) (f : Port → Port) : (s.modPort p f).valPath = s.valPath := rfl
@[simp] theorem State.coreReset_modPort (s : State) (p : Nat) (f : Port → Port) : (s.modPort p f).coreReset = s.coreReset := rfl
@[simp] theorem State.resetDue_modPort (s : State) (p : Nat) (f : Port → Port) : (s.modPort p f).resetDue = s.resetDue := rfl
@[simp] theorem State.resets_modPort (s : State) (p : Nat) (f : Port → Port) : (s.modPort p f).resets = s.resets := rfl
@[simp] theorem State.image_modPort (s : State) (p : Nat) (f : Port → Port) : (s.modPort p f).image = s.image := rfl
@[simp] theorem State.job_modPort (s : State) (p : Nat) (f : Port → Port) : (s.modPort p f).job = s.job := rfl
@[simp] theorem State.rcp_modPort (s : State) (p : Nat) (f : Port → Port) : (s.modPort p f).rcp = s.rcp := rfl
@[simp] theorem State.log_modPort (s : State) (p : Nat) (f : Port → Port) : (s.modPort p f).log = s.log := rfl
@[simp] theorem State.ridge_modPort (s : State) (p : Nat) (f : Port → Port) : (s.modPort p f).ridge = s.ridge := rfl
@[simp] theorem State.bulkRegions_modPort (s : State) (p : Nat) (f : Port → Port) : (s.modPort p f).bulkRegions = s.bulkRegions := rfl
@[simp] theorem State.rng_modPort (s : State) (p : Nat) (f : Port → Port) : (s.modPort p f).rng = s.rng := rfl
@[simp] theorem State.digest_modPort (s : State) (p : Nat) (f : Port → Port) : (s.modPort p f).digest = s.digest := rfl
@[simp] theorem State.nextClose_modPort (s : State) (p : Nat) (f : Port → Port) : (s.modPort p f).nextClose = s.nextClose := rfl
@[simp] theorem State.power_modPort (s : State) (p : Nat) (f : Port → Port) : (s.modPort p f).power = s.power := rfl
@[simp] theorem State.ready_modPort (s : State) (p : Nat) (f : Port → Port) : (s.modPort p f).ready = s.ready := rfl
@[simp] theorem State.sec_modPort (s : State) (p : Nat) (f : Port → Port) : (s.modPort p f).sec = s.sec := rfl
@[simp] theorem State.health_modPort (s : State) (p : Nat) (f : Port → Port) : (s.modPort p f).health = s.health := rfl
@[simp] theorem State.fabric_modPort (s : State) (p : Nat) (f : Port → Port) : (s.modPort p f).fabric = s.fabric := rfl
@[simp] theorem State.reshard_modPort (s : State) (p : Nat) (f : Port → Port) : (s.modPort p f).reshard = s.reshard := rfl
@[simp] theorem State.hbmAffinity_modPort (s : State) (p : Nat) (f : Port → Port) : (s.modPort p f).hbmAffinity = s.hbmAffinity := rfl
@[simp] theorem State.ceEvent_modPort (s : State) (p : Nat) (f : Port → Port) : (s.modPort p f).ceEvent = s.ceEvent := rfl
@[simp] theorem State.hbmRate_modPort (s : State) (p : Nat) (f : Port → Port) : (s.modPort p f).hbmRate = s.hbmRate := rfl
@[simp] theorem State.sramLapMs_modPort (s : State) (p : Nat) (f : Port → Port) : (s.modPort p f).sramLapMs = s.sramLapMs := rfl
@[simp] theorem State.timebase_modPort (s : State) (p : Nat) (f : Port → Port) : (s.modPort p f).timebase = s.timebase := rfl
@[simp] theorem State.clock_modPort (s : State) (p : Nat) (f : Port → Port) : (s.modPort p f).clock = s.clock := rfl
@[simp] theorem State.free_modPort (s : State) (p : Nat) (f : Port → Port) : (s.modPort p f).free = s.free := rfl
@[simp] theorem State.core_modPort (s : State) (p : Nat) (f : Port → Port) (m : Nat) : (s.modPort p f).core m = s.core m := rfl
@[simp] theorem State.course_modPort (s : State) (p : Nat) (f : Port → Port) (m : Nat) : (s.modPort p f).course m = s.course m := rfl
@[simp] theorem State.slope_modPort (s : State) (p : Nat) (f : Port → Port) (m : Nat) : (s.modPort p f).slope m = s.slope m := rfl
@[simp] theorem State.stack_modPort (s : State) (p : Nat) (f : Port → Port) (m : Nat) : (s.modPort p f).stack m = s.stack m := rfl
@[simp] theorem State.coll_modPort (s : State) (p : Nat) (f : Port → Port) (m : Nat) : (s.modPort p f).coll m = s.coll m := rfl

/-! ### After modStack -/

@[simp] theorem State.pending_modStack (s : State) (k : Nat) (f : Stack → Stack) : (s.modStack k f).pending = s.pending := rfl
@[simp] theorem State.mem_modStack (s : State) (k : Nat) (f : Stack → Stack) : (s.modStack k f).mem = s.mem := rfl
@[simp] theorem State.memErr_modStack (s : State) (k : Nat) (f : Stack → Stack) : (s.modStack k f).memErr = s.memErr := rfl
@[simp] theorem State.cores_modStack (s : State) (k : Nat) (f : Stack → Stack) : (s.modStack k f).cores = s.cores := rfl
@[simp] theorem State.courses_modStack (s : State) (k : Nat) (f : Stack → Stack) : (s.modStack k f).courses = s.courses := rfl
@[simp] theorem State.slopes_modStack (s : State) (k : Nat) (f : Stack → Stack) : (s.modStack k f).slopes = s.slopes := rfl
@[simp] theorem State.ports_modStack (s : State) (k : Nat) (f : Stack → Stack) : (s.modStack k f).ports = s.ports := rfl
@[simp] theorem State.colls_modStack (s : State) (k : Nat) (f : Stack → Stack) : (s.modStack k f).colls = s.colls := rfl
@[simp] theorem State.modBarriers_modStack (s : State) (k : Nat) (f : Stack → Stack) : (s.modStack k f).modBarriers = s.modBarriers := rfl
@[simp] theorem State.arrivals_modStack (s : State) (k : Nat) (f : Stack → Stack) : (s.modStack k f).arrivals = s.arrivals := rfl
@[simp] theorem State.held_modStack (s : State) (k : Nat) (f : Stack → Stack) : (s.modStack k f).held = s.held := rfl
@[simp] theorem State.valPath_modStack (s : State) (k : Nat) (f : Stack → Stack) : (s.modStack k f).valPath = s.valPath := rfl
@[simp] theorem State.coreReset_modStack (s : State) (k : Nat) (f : Stack → Stack) : (s.modStack k f).coreReset = s.coreReset := rfl
@[simp] theorem State.resetDue_modStack (s : State) (k : Nat) (f : Stack → Stack) : (s.modStack k f).resetDue = s.resetDue := rfl
@[simp] theorem State.resets_modStack (s : State) (k : Nat) (f : Stack → Stack) : (s.modStack k f).resets = s.resets := rfl
@[simp] theorem State.image_modStack (s : State) (k : Nat) (f : Stack → Stack) : (s.modStack k f).image = s.image := rfl
@[simp] theorem State.job_modStack (s : State) (k : Nat) (f : Stack → Stack) : (s.modStack k f).job = s.job := rfl
@[simp] theorem State.rcp_modStack (s : State) (k : Nat) (f : Stack → Stack) : (s.modStack k f).rcp = s.rcp := rfl
@[simp] theorem State.log_modStack (s : State) (k : Nat) (f : Stack → Stack) : (s.modStack k f).log = s.log := rfl
@[simp] theorem State.ridge_modStack (s : State) (k : Nat) (f : Stack → Stack) : (s.modStack k f).ridge = s.ridge := rfl
@[simp] theorem State.bulkRegions_modStack (s : State) (k : Nat) (f : Stack → Stack) : (s.modStack k f).bulkRegions = s.bulkRegions := rfl
@[simp] theorem State.rng_modStack (s : State) (k : Nat) (f : Stack → Stack) : (s.modStack k f).rng = s.rng := rfl
@[simp] theorem State.digest_modStack (s : State) (k : Nat) (f : Stack → Stack) : (s.modStack k f).digest = s.digest := rfl
@[simp] theorem State.nextClose_modStack (s : State) (k : Nat) (f : Stack → Stack) : (s.modStack k f).nextClose = s.nextClose := rfl
@[simp] theorem State.power_modStack (s : State) (k : Nat) (f : Stack → Stack) : (s.modStack k f).power = s.power := rfl
@[simp] theorem State.ready_modStack (s : State) (k : Nat) (f : Stack → Stack) : (s.modStack k f).ready = s.ready := rfl
@[simp] theorem State.sec_modStack (s : State) (k : Nat) (f : Stack → Stack) : (s.modStack k f).sec = s.sec := rfl
@[simp] theorem State.health_modStack (s : State) (k : Nat) (f : Stack → Stack) : (s.modStack k f).health = s.health := rfl
@[simp] theorem State.fabric_modStack (s : State) (k : Nat) (f : Stack → Stack) : (s.modStack k f).fabric = s.fabric := rfl
@[simp] theorem State.reshard_modStack (s : State) (k : Nat) (f : Stack → Stack) : (s.modStack k f).reshard = s.reshard := rfl
@[simp] theorem State.hbmAffinity_modStack (s : State) (k : Nat) (f : Stack → Stack) : (s.modStack k f).hbmAffinity = s.hbmAffinity := rfl
@[simp] theorem State.ceEvent_modStack (s : State) (k : Nat) (f : Stack → Stack) : (s.modStack k f).ceEvent = s.ceEvent := rfl
@[simp] theorem State.hbmRate_modStack (s : State) (k : Nat) (f : Stack → Stack) : (s.modStack k f).hbmRate = s.hbmRate := rfl
@[simp] theorem State.sramLapMs_modStack (s : State) (k : Nat) (f : Stack → Stack) : (s.modStack k f).sramLapMs = s.sramLapMs := rfl
@[simp] theorem State.timebase_modStack (s : State) (k : Nat) (f : Stack → Stack) : (s.modStack k f).timebase = s.timebase := rfl
@[simp] theorem State.clock_modStack (s : State) (k : Nat) (f : Stack → Stack) : (s.modStack k f).clock = s.clock := rfl
@[simp] theorem State.free_modStack (s : State) (k : Nat) (f : Stack → Stack) : (s.modStack k f).free = s.free := rfl
@[simp] theorem State.core_modStack (s : State) (k : Nat) (f : Stack → Stack) (m : Nat) : (s.modStack k f).core m = s.core m := rfl
@[simp] theorem State.course_modStack (s : State) (k : Nat) (f : Stack → Stack) (m : Nat) : (s.modStack k f).course m = s.course m := rfl
@[simp] theorem State.slope_modStack (s : State) (k : Nat) (f : Stack → Stack) (m : Nat) : (s.modStack k f).slope m = s.slope m := rfl
@[simp] theorem State.port_modStack (s : State) (k : Nat) (f : Stack → Stack) (m : Nat) : (s.modStack k f).port m = s.port m := rfl
@[simp] theorem State.coll_modStack (s : State) (k : Nat) (f : Stack → Stack) (m : Nat) : (s.modStack k f).coll m = s.coll m := rfl

/-! ### After modColl -/

@[simp] theorem State.pending_modColl (s : State) (k : Nat) (f : Coll → Coll) : (s.modColl k f).pending = s.pending := rfl
@[simp] theorem State.mem_modColl (s : State) (k : Nat) (f : Coll → Coll) : (s.modColl k f).mem = s.mem := rfl
@[simp] theorem State.memErr_modColl (s : State) (k : Nat) (f : Coll → Coll) : (s.modColl k f).memErr = s.memErr := rfl
@[simp] theorem State.cores_modColl (s : State) (k : Nat) (f : Coll → Coll) : (s.modColl k f).cores = s.cores := rfl
@[simp] theorem State.courses_modColl (s : State) (k : Nat) (f : Coll → Coll) : (s.modColl k f).courses = s.courses := rfl
@[simp] theorem State.hbm_modColl (s : State) (k : Nat) (f : Coll → Coll) : (s.modColl k f).hbm = s.hbm := rfl
@[simp] theorem State.slopes_modColl (s : State) (k : Nat) (f : Coll → Coll) : (s.modColl k f).slopes = s.slopes := rfl
@[simp] theorem State.ports_modColl (s : State) (k : Nat) (f : Coll → Coll) : (s.modColl k f).ports = s.ports := rfl
@[simp] theorem State.modBarriers_modColl (s : State) (k : Nat) (f : Coll → Coll) : (s.modColl k f).modBarriers = s.modBarriers := rfl
@[simp] theorem State.arrivals_modColl (s : State) (k : Nat) (f : Coll → Coll) : (s.modColl k f).arrivals = s.arrivals := rfl
@[simp] theorem State.held_modColl (s : State) (k : Nat) (f : Coll → Coll) : (s.modColl k f).held = s.held := rfl
@[simp] theorem State.valPath_modColl (s : State) (k : Nat) (f : Coll → Coll) : (s.modColl k f).valPath = s.valPath := rfl
@[simp] theorem State.coreReset_modColl (s : State) (k : Nat) (f : Coll → Coll) : (s.modColl k f).coreReset = s.coreReset := rfl
@[simp] theorem State.resetDue_modColl (s : State) (k : Nat) (f : Coll → Coll) : (s.modColl k f).resetDue = s.resetDue := rfl
@[simp] theorem State.resets_modColl (s : State) (k : Nat) (f : Coll → Coll) : (s.modColl k f).resets = s.resets := rfl
@[simp] theorem State.image_modColl (s : State) (k : Nat) (f : Coll → Coll) : (s.modColl k f).image = s.image := rfl
@[simp] theorem State.job_modColl (s : State) (k : Nat) (f : Coll → Coll) : (s.modColl k f).job = s.job := rfl
@[simp] theorem State.rcp_modColl (s : State) (k : Nat) (f : Coll → Coll) : (s.modColl k f).rcp = s.rcp := rfl
@[simp] theorem State.log_modColl (s : State) (k : Nat) (f : Coll → Coll) : (s.modColl k f).log = s.log := rfl
@[simp] theorem State.ridge_modColl (s : State) (k : Nat) (f : Coll → Coll) : (s.modColl k f).ridge = s.ridge := rfl
@[simp] theorem State.bulkRegions_modColl (s : State) (k : Nat) (f : Coll → Coll) : (s.modColl k f).bulkRegions = s.bulkRegions := rfl
@[simp] theorem State.rng_modColl (s : State) (k : Nat) (f : Coll → Coll) : (s.modColl k f).rng = s.rng := rfl
@[simp] theorem State.digest_modColl (s : State) (k : Nat) (f : Coll → Coll) : (s.modColl k f).digest = s.digest := rfl
@[simp] theorem State.nextClose_modColl (s : State) (k : Nat) (f : Coll → Coll) : (s.modColl k f).nextClose = s.nextClose := rfl
@[simp] theorem State.power_modColl (s : State) (k : Nat) (f : Coll → Coll) : (s.modColl k f).power = s.power := rfl
@[simp] theorem State.ready_modColl (s : State) (k : Nat) (f : Coll → Coll) : (s.modColl k f).ready = s.ready := rfl
@[simp] theorem State.sec_modColl (s : State) (k : Nat) (f : Coll → Coll) : (s.modColl k f).sec = s.sec := rfl
@[simp] theorem State.health_modColl (s : State) (k : Nat) (f : Coll → Coll) : (s.modColl k f).health = s.health := rfl
@[simp] theorem State.fabric_modColl (s : State) (k : Nat) (f : Coll → Coll) : (s.modColl k f).fabric = s.fabric := rfl
@[simp] theorem State.reshard_modColl (s : State) (k : Nat) (f : Coll → Coll) : (s.modColl k f).reshard = s.reshard := rfl
@[simp] theorem State.hbmAffinity_modColl (s : State) (k : Nat) (f : Coll → Coll) : (s.modColl k f).hbmAffinity = s.hbmAffinity := rfl
@[simp] theorem State.ceEvent_modColl (s : State) (k : Nat) (f : Coll → Coll) : (s.modColl k f).ceEvent = s.ceEvent := rfl
@[simp] theorem State.hbmRate_modColl (s : State) (k : Nat) (f : Coll → Coll) : (s.modColl k f).hbmRate = s.hbmRate := rfl
@[simp] theorem State.sramLapMs_modColl (s : State) (k : Nat) (f : Coll → Coll) : (s.modColl k f).sramLapMs = s.sramLapMs := rfl
@[simp] theorem State.timebase_modColl (s : State) (k : Nat) (f : Coll → Coll) : (s.modColl k f).timebase = s.timebase := rfl
@[simp] theorem State.clock_modColl (s : State) (k : Nat) (f : Coll → Coll) : (s.modColl k f).clock = s.clock := rfl
@[simp] theorem State.free_modColl (s : State) (k : Nat) (f : Coll → Coll) : (s.modColl k f).free = s.free := rfl
@[simp] theorem State.core_modColl (s : State) (k : Nat) (f : Coll → Coll) (m : Nat) : (s.modColl k f).core m = s.core m := rfl
@[simp] theorem State.course_modColl (s : State) (k : Nat) (f : Coll → Coll) (m : Nat) : (s.modColl k f).course m = s.course m := rfl
@[simp] theorem State.slope_modColl (s : State) (k : Nat) (f : Coll → Coll) (m : Nat) : (s.modColl k f).slope m = s.slope m := rfl
@[simp] theorem State.port_modColl (s : State) (k : Nat) (f : Coll → Coll) (m : Nat) : (s.modColl k f).port m = s.port m := rfl
@[simp] theorem State.stack_modColl (s : State) (k : Nat) (f : Coll → Coll) (m : Nat) : (s.modColl k f).stack m = s.stack m := rfl

/-! ### After raise -/

@[simp] theorem State.pending_raise (s : State) (code kind source : Nat) (l : List (Nat × Nat)) : (s.raise code kind source l).pending = s.pending := rfl
@[simp] theorem State.mem_raise (s : State) (code kind source : Nat) (l : List (Nat × Nat)) : (s.raise code kind source l).mem = s.mem := rfl
@[simp] theorem State.memErr_raise (s : State) (code kind source : Nat) (l : List (Nat × Nat)) : (s.raise code kind source l).memErr = s.memErr := rfl
@[simp] theorem State.cores_raise (s : State) (code kind source : Nat) (l : List (Nat × Nat)) : (s.raise code kind source l).cores = s.cores := rfl
@[simp] theorem State.courses_raise (s : State) (code kind source : Nat) (l : List (Nat × Nat)) : (s.raise code kind source l).courses = s.courses := rfl
@[simp] theorem State.hbm_raise (s : State) (code kind source : Nat) (l : List (Nat × Nat)) : (s.raise code kind source l).hbm = s.hbm := rfl
@[simp] theorem State.slopes_raise (s : State) (code kind source : Nat) (l : List (Nat × Nat)) : (s.raise code kind source l).slopes = s.slopes := rfl
@[simp] theorem State.ports_raise (s : State) (code kind source : Nat) (l : List (Nat × Nat)) : (s.raise code kind source l).ports = s.ports := rfl
@[simp] theorem State.colls_raise (s : State) (code kind source : Nat) (l : List (Nat × Nat)) : (s.raise code kind source l).colls = s.colls := rfl
@[simp] theorem State.modBarriers_raise (s : State) (code kind source : Nat) (l : List (Nat × Nat)) : (s.raise code kind source l).modBarriers = s.modBarriers := rfl
@[simp] theorem State.arrivals_raise (s : State) (code kind source : Nat) (l : List (Nat × Nat)) : (s.raise code kind source l).arrivals = s.arrivals := rfl
@[simp] theorem State.held_raise (s : State) (code kind source : Nat) (l : List (Nat × Nat)) : (s.raise code kind source l).held = s.held := rfl
@[simp] theorem State.valPath_raise (s : State) (code kind source : Nat) (l : List (Nat × Nat)) : (s.raise code kind source l).valPath = s.valPath := rfl
@[simp] theorem State.coreReset_raise (s : State) (code kind source : Nat) (l : List (Nat × Nat)) : (s.raise code kind source l).coreReset = s.coreReset := rfl
@[simp] theorem State.resetDue_raise (s : State) (code kind source : Nat) (l : List (Nat × Nat)) : (s.raise code kind source l).resetDue = s.resetDue := rfl
@[simp] theorem State.resets_raise (s : State) (code kind source : Nat) (l : List (Nat × Nat)) : (s.raise code kind source l).resets = s.resets := rfl
@[simp] theorem State.image_raise (s : State) (code kind source : Nat) (l : List (Nat × Nat)) : (s.raise code kind source l).image = s.image := rfl
@[simp] theorem State.job_raise (s : State) (code kind source : Nat) (l : List (Nat × Nat)) : (s.raise code kind source l).job = s.job := rfl
@[simp] theorem State.rcp_raise (s : State) (code kind source : Nat) (l : List (Nat × Nat)) : (s.raise code kind source l).rcp = s.rcp := rfl
@[simp] theorem State.ridge_raise (s : State) (code kind source : Nat) (l : List (Nat × Nat)) : (s.raise code kind source l).ridge = s.ridge := rfl
@[simp] theorem State.bulkRegions_raise (s : State) (code kind source : Nat) (l : List (Nat × Nat)) : (s.raise code kind source l).bulkRegions = s.bulkRegions := rfl
@[simp] theorem State.rng_raise (s : State) (code kind source : Nat) (l : List (Nat × Nat)) : (s.raise code kind source l).rng = s.rng := rfl
@[simp] theorem State.digest_raise (s : State) (code kind source : Nat) (l : List (Nat × Nat)) : (s.raise code kind source l).digest = s.digest := rfl
@[simp] theorem State.nextClose_raise (s : State) (code kind source : Nat) (l : List (Nat × Nat)) : (s.raise code kind source l).nextClose = s.nextClose := rfl
@[simp] theorem State.power_raise (s : State) (code kind source : Nat) (l : List (Nat × Nat)) : (s.raise code kind source l).power = s.power := rfl
@[simp] theorem State.ready_raise (s : State) (code kind source : Nat) (l : List (Nat × Nat)) : (s.raise code kind source l).ready = s.ready := rfl
@[simp] theorem State.sec_raise (s : State) (code kind source : Nat) (l : List (Nat × Nat)) : (s.raise code kind source l).sec = s.sec := rfl
@[simp] theorem State.health_raise (s : State) (code kind source : Nat) (l : List (Nat × Nat)) : (s.raise code kind source l).health = s.health := rfl
@[simp] theorem State.fabric_raise (s : State) (code kind source : Nat) (l : List (Nat × Nat)) : (s.raise code kind source l).fabric = s.fabric := rfl
@[simp] theorem State.reshard_raise (s : State) (code kind source : Nat) (l : List (Nat × Nat)) : (s.raise code kind source l).reshard = s.reshard := rfl
@[simp] theorem State.hbmAffinity_raise (s : State) (code kind source : Nat) (l : List (Nat × Nat)) : (s.raise code kind source l).hbmAffinity = s.hbmAffinity := rfl
@[simp] theorem State.ceEvent_raise (s : State) (code kind source : Nat) (l : List (Nat × Nat)) : (s.raise code kind source l).ceEvent = s.ceEvent := rfl
@[simp] theorem State.hbmRate_raise (s : State) (code kind source : Nat) (l : List (Nat × Nat)) : (s.raise code kind source l).hbmRate = s.hbmRate := rfl
@[simp] theorem State.sramLapMs_raise (s : State) (code kind source : Nat) (l : List (Nat × Nat)) : (s.raise code kind source l).sramLapMs = s.sramLapMs := rfl
@[simp] theorem State.timebase_raise (s : State) (code kind source : Nat) (l : List (Nat × Nat)) : (s.raise code kind source l).timebase = s.timebase := rfl
@[simp] theorem State.clock_raise (s : State) (code kind source : Nat) (l : List (Nat × Nat)) : (s.raise code kind source l).clock = s.clock := rfl
@[simp] theorem State.free_raise (s : State) (code kind source : Nat) (l : List (Nat × Nat)) : (s.raise code kind source l).free = s.free := rfl
@[simp] theorem State.core_raise (s : State) (code kind source : Nat) (l : List (Nat × Nat)) (m : Nat) : (s.raise code kind source l).core m = s.core m := rfl
@[simp] theorem State.course_raise (s : State) (code kind source : Nat) (l : List (Nat × Nat)) (m : Nat) : (s.raise code kind source l).course m = s.course m := rfl
@[simp] theorem State.slope_raise (s : State) (code kind source : Nat) (l : List (Nat × Nat)) (m : Nat) : (s.raise code kind source l).slope m = s.slope m := rfl
@[simp] theorem State.port_raise (s : State) (code kind source : Nat) (l : List (Nat × Nat)) (m : Nat) : (s.raise code kind source l).port m = s.port m := rfl
@[simp] theorem State.stack_raise (s : State) (code kind source : Nat) (l : List (Nat × Nat)) (m : Nat) : (s.raise code kind source l).stack m = s.stack m := rfl
@[simp] theorem State.coll_raise (s : State) (code kind source : Nat) (l : List (Nat × Nat)) (m : Nat) : (s.raise code kind source l).coll m = s.coll m := rfl

/-! ### A core after an update of one stream -/

@[simp] theorem Core.active_setCtx (c : Core) (t : Stream) (x : StreamCtx) : (c.setCtx t x).active = c.active := by cases t <;> rfl
@[simp] theorem Core.order_setCtx (c : Core) (t : Stream) (x : StreamCtx) : (c.setCtx t x).order = c.order := by cases t <;> rfl
@[simp] theorem Core.flags_setCtx (c : Core) (t : Stream) (x : StreamCtx) : (c.setCtx t x).flags = c.flags := by cases t <;> rfl
@[simp] theorem Core.halt_setCtx (c : Core) (t : Stream) (x : StreamCtx) : (c.setCtx t x).halt = c.halt := by cases t <;> rfl
@[simp] theorem Core.codeEpoch_setCtx (c : Core) (t : Stream) (x : StreamCtx) : (c.setCtx t x).codeEpoch = c.codeEpoch := by cases t <;> rfl
@[simp] theorem Core.leftAt_setCtx (c : Core) (t : Stream) (x : StreamCtx) : (c.setCtx t x).leftAt = c.leftAt := by cases t <;> rfl
@[simp] theorem Core.icache_setCtx (c : Core) (t : Stream) (x : StreamCtx) : (c.setCtx t x).icache = c.icache := by cases t <;> rfl
@[simp] theorem Core.icacheMiss_setCtx (c : Core) (t : Stream) (x : StreamCtx) : (c.setCtx t x).icacheMiss = c.icacheMiss := by cases t <;> rfl
@[simp] theorem Core.icacheUeRefetch_setCtx (c : Core) (t : Stream) (x : StreamCtx) : (c.setCtx t x).icacheUeRefetch = c.icacheUeRefetch := by cases t <;> rfl
@[simp] theorem Core.wdogLog2_setCtx (c : Core) (t : Stream) (x : StreamCtx) : (c.setCtx t x).wdogLog2 = c.wdogLog2 := by cases t <;> rfl
@[simp] theorem Core.gated_setCtx (c : Core) (t : Stream) (x : StreamCtx) : (c.setCtx t x).gated = c.gated := by cases t <;> rfl
@[simp] theorem Core.gatedCycles_setCtx (c : Core) (t : Stream) (x : StreamCtx) : (c.setCtx t x).gatedCycles = c.gatedCycles := by cases t <;> rfl
@[simp] theorem Core.gateWakes_setCtx (c : Core) (t : Stream) (x : StreamCtx) : (c.setCtx t x).gateWakes = c.gateWakes := by cases t <;> rfl
@[simp] theorem Core.outSignals_setCtx (c : Core) (t : Stream) (x : StreamCtx) : (c.setCtx t x).outSignals = c.outSignals := by cases t <;> rfl
@[simp] theorem Core.remoteSignalAbsent_setCtx (c : Core) (t : Stream) (x : StreamCtx) : (c.setCtx t x).remoteSignalAbsent = c.remoteSignalAbsent := by cases t <;> rfl
@[simp] theorem Core.arrives_setCtx (c : Core) (t : Stream) (x : StreamCtx) : (c.setCtx t x).arrives = c.arrives := by cases t <;> rfl
@[simp] theorem Core.rounds_setCtx (c : Core) (t : Stream) (x : StreamCtx) : (c.setCtx t x).rounds = c.rounds := by cases t <;> rfl
@[simp] theorem Core.da_setCtx (c : Core) (t : Stream) (x : StreamCtx) : (c.setCtx t x).da = c.da := by cases t <;> rfl
@[simp] theorem Core.gme_setCtx (c : Core) (t : Stream) (x : StreamCtx) : (c.setCtx t x).gme = c.gme := by cases t <;> rfl
@[simp] theorem Core.ve_setCtx (c : Core) (t : Stream) (x : StreamCtx) : (c.setCtx t x).ve = c.ve := by cases t <;> rfl
@[simp] theorem Core.dma_setCtx (c : Core) (t : Stream) (x : StreamCtx) : (c.setCtx t x).dma = c.dma := by cases t <;> rfl
@[simp] theorem Core.chans_setCtx (c : Core) (t : Stream) (x : StreamCtx) : (c.setCtx t x).chans = c.chans := by cases t <;> rfl
@[simp] theorem Core.late_setCtx (c : Core) (t : Stream) (x : StreamCtx) : (c.setCtx t x).late = c.late := by cases t <;> rfl
@[simp] theorem Core.val_setCtx (c : Core) (t : Stream) (x : StreamCtx) : (c.setCtx t x).val = c.val := by cases t <;> rfl
@[simp] theorem Core.convertPlainSat_setCtx (c : Core) (t : Stream) (x : StreamCtx) : (c.setCtx t x).convertPlainSat = c.convertPlainSat := by cases t <;> rfl
@[simp] theorem Core.valCombineAbsent_setCtx (c : Core) (t : Stream) (x : StreamCtx) : (c.setCtx t x).valCombineAbsent = c.valCombineAbsent := by cases t <;> rfl
@[simp] theorem Core.optUpdates_setCtx (c : Core) (t : Stream) (x : StreamCtx) : (c.setCtx t x).optUpdates = c.optUpdates := by cases t <;> rfl
@[simp] theorem Core.optIdleSkip_setCtx (c : Core) (t : Stream) (x : StreamCtx) : (c.setCtx t x).optIdleSkip = c.optIdleSkip := by cases t <;> rfl
@[simp] theorem Core.optEmptyGrad_setCtx (c : Core) (t : Stream) (x : StreamCtx) : (c.setCtx t x).optEmptyGrad = c.optEmptyGrad := by cases t <;> rfl
@[simp] theorem Core.optNonfinite_setCtx (c : Core) (t : Stream) (x : StreamCtx) : (c.setCtx t x).optNonfinite = c.optNonfinite := by cases t <;> rfl
@[simp] theorem Core.optPrecondStale_setCtx (c : Core) (t : Stream) (x : StreamCtx) : (c.setCtx t x).optPrecondStale = c.optPrecondStale := by cases t <;> rfl
@[simp] theorem Core.bankPower_setCtx (c : Core) (t : Stream) (x : StreamCtx) : (c.setCtx t x).bankPower = c.bankPower := by cases t <;> rfl
@[simp] theorem Core.spadCe_setCtx (c : Core) (t : Stream) (x : StreamCtx) : (c.setCtx t x).spadCe = c.spadCe := by cases t <;> rfl
@[simp] theorem Core.spadUe_setCtx (c : Core) (t : Stream) (x : StreamCtx) : (c.setCtx t x).spadUe = c.spadUe := by cases t <;> rfl
@[simp] theorem Core.spadFlip_setCtx (c : Core) (t : Stream) (x : StreamCtx) : (c.setCtx t x).spadFlip = c.spadFlip := by cases t <;> rfl
@[simp] theorem Core.spadScrub_setCtx (c : Core) (t : Stream) (x : StreamCtx) : (c.setCtx t x).spadScrub = c.spadScrub := by cases t <;> rfl
@[simp] theorem Core.accScrub_setCtx (c : Core) (t : Stream) (x : StreamCtx) : (c.setCtx t x).accScrub = c.accScrub := by cases t <;> rfl
@[simp] theorem Core.icScrub_setCtx (c : Core) (t : Stream) (x : StreamCtx) : (c.setCtx t x).icScrub = c.icScrub := by cases t <;> rfl
@[simp] theorem Core.regions_setCtx (c : Core) (t : Stream) (x : StreamCtx) : (c.setCtx t x).regions = c.regions := by cases t <;> rfl
@[simp] theorem Core.active_modCtx (c : Core) (t : Stream) (g : StreamCtx → StreamCtx) : (c.modCtx t g).active = c.active := by
  simp [Core.modCtx]
@[simp] theorem Core.order_modCtx (c : Core) (t : Stream) (g : StreamCtx → StreamCtx) : (c.modCtx t g).order = c.order := by
  simp [Core.modCtx]
@[simp] theorem Core.flags_modCtx (c : Core) (t : Stream) (g : StreamCtx → StreamCtx) : (c.modCtx t g).flags = c.flags := by
  simp [Core.modCtx]
@[simp] theorem Core.halt_modCtx (c : Core) (t : Stream) (g : StreamCtx → StreamCtx) : (c.modCtx t g).halt = c.halt := by
  simp [Core.modCtx]
@[simp] theorem Core.codeEpoch_modCtx (c : Core) (t : Stream) (g : StreamCtx → StreamCtx) : (c.modCtx t g).codeEpoch = c.codeEpoch := by
  simp [Core.modCtx]
@[simp] theorem Core.leftAt_modCtx (c : Core) (t : Stream) (g : StreamCtx → StreamCtx) : (c.modCtx t g).leftAt = c.leftAt := by
  simp [Core.modCtx]
@[simp] theorem Core.icache_modCtx (c : Core) (t : Stream) (g : StreamCtx → StreamCtx) : (c.modCtx t g).icache = c.icache := by
  simp [Core.modCtx]
@[simp] theorem Core.icacheMiss_modCtx (c : Core) (t : Stream) (g : StreamCtx → StreamCtx) : (c.modCtx t g).icacheMiss = c.icacheMiss := by
  simp [Core.modCtx]
@[simp] theorem Core.icacheUeRefetch_modCtx (c : Core) (t : Stream) (g : StreamCtx → StreamCtx) : (c.modCtx t g).icacheUeRefetch = c.icacheUeRefetch := by
  simp [Core.modCtx]
@[simp] theorem Core.wdogLog2_modCtx (c : Core) (t : Stream) (g : StreamCtx → StreamCtx) : (c.modCtx t g).wdogLog2 = c.wdogLog2 := by
  simp [Core.modCtx]
@[simp] theorem Core.gated_modCtx (c : Core) (t : Stream) (g : StreamCtx → StreamCtx) : (c.modCtx t g).gated = c.gated := by
  simp [Core.modCtx]
@[simp] theorem Core.gatedCycles_modCtx (c : Core) (t : Stream) (g : StreamCtx → StreamCtx) : (c.modCtx t g).gatedCycles = c.gatedCycles := by
  simp [Core.modCtx]
@[simp] theorem Core.gateWakes_modCtx (c : Core) (t : Stream) (g : StreamCtx → StreamCtx) : (c.modCtx t g).gateWakes = c.gateWakes := by
  simp [Core.modCtx]
@[simp] theorem Core.outSignals_modCtx (c : Core) (t : Stream) (g : StreamCtx → StreamCtx) : (c.modCtx t g).outSignals = c.outSignals := by
  simp [Core.modCtx]
@[simp] theorem Core.remoteSignalAbsent_modCtx (c : Core) (t : Stream) (g : StreamCtx → StreamCtx) : (c.modCtx t g).remoteSignalAbsent = c.remoteSignalAbsent := by
  simp [Core.modCtx]
@[simp] theorem Core.arrives_modCtx (c : Core) (t : Stream) (g : StreamCtx → StreamCtx) : (c.modCtx t g).arrives = c.arrives := by
  simp [Core.modCtx]
@[simp] theorem Core.rounds_modCtx (c : Core) (t : Stream) (g : StreamCtx → StreamCtx) : (c.modCtx t g).rounds = c.rounds := by
  simp [Core.modCtx]
@[simp] theorem Core.da_modCtx (c : Core) (t : Stream) (g : StreamCtx → StreamCtx) : (c.modCtx t g).da = c.da := by
  simp [Core.modCtx]
@[simp] theorem Core.gme_modCtx (c : Core) (t : Stream) (g : StreamCtx → StreamCtx) : (c.modCtx t g).gme = c.gme := by
  simp [Core.modCtx]
@[simp] theorem Core.ve_modCtx (c : Core) (t : Stream) (g : StreamCtx → StreamCtx) : (c.modCtx t g).ve = c.ve := by
  simp [Core.modCtx]
@[simp] theorem Core.dma_modCtx (c : Core) (t : Stream) (g : StreamCtx → StreamCtx) : (c.modCtx t g).dma = c.dma := by
  simp [Core.modCtx]
@[simp] theorem Core.chans_modCtx (c : Core) (t : Stream) (g : StreamCtx → StreamCtx) : (c.modCtx t g).chans = c.chans := by
  simp [Core.modCtx]
@[simp] theorem Core.late_modCtx (c : Core) (t : Stream) (g : StreamCtx → StreamCtx) : (c.modCtx t g).late = c.late := by
  simp [Core.modCtx]
@[simp] theorem Core.val_modCtx (c : Core) (t : Stream) (g : StreamCtx → StreamCtx) : (c.modCtx t g).val = c.val := by
  simp [Core.modCtx]
@[simp] theorem Core.convertPlainSat_modCtx (c : Core) (t : Stream) (g : StreamCtx → StreamCtx) : (c.modCtx t g).convertPlainSat = c.convertPlainSat := by
  simp [Core.modCtx]
@[simp] theorem Core.valCombineAbsent_modCtx (c : Core) (t : Stream) (g : StreamCtx → StreamCtx) : (c.modCtx t g).valCombineAbsent = c.valCombineAbsent := by
  simp [Core.modCtx]
@[simp] theorem Core.optUpdates_modCtx (c : Core) (t : Stream) (g : StreamCtx → StreamCtx) : (c.modCtx t g).optUpdates = c.optUpdates := by
  simp [Core.modCtx]
@[simp] theorem Core.optIdleSkip_modCtx (c : Core) (t : Stream) (g : StreamCtx → StreamCtx) : (c.modCtx t g).optIdleSkip = c.optIdleSkip := by
  simp [Core.modCtx]
@[simp] theorem Core.optEmptyGrad_modCtx (c : Core) (t : Stream) (g : StreamCtx → StreamCtx) : (c.modCtx t g).optEmptyGrad = c.optEmptyGrad := by
  simp [Core.modCtx]
@[simp] theorem Core.optNonfinite_modCtx (c : Core) (t : Stream) (g : StreamCtx → StreamCtx) : (c.modCtx t g).optNonfinite = c.optNonfinite := by
  simp [Core.modCtx]
@[simp] theorem Core.optPrecondStale_modCtx (c : Core) (t : Stream) (g : StreamCtx → StreamCtx) : (c.modCtx t g).optPrecondStale = c.optPrecondStale := by
  simp [Core.modCtx]
@[simp] theorem Core.bankPower_modCtx (c : Core) (t : Stream) (g : StreamCtx → StreamCtx) : (c.modCtx t g).bankPower = c.bankPower := by
  simp [Core.modCtx]
@[simp] theorem Core.spadCe_modCtx (c : Core) (t : Stream) (g : StreamCtx → StreamCtx) : (c.modCtx t g).spadCe = c.spadCe := by
  simp [Core.modCtx]
@[simp] theorem Core.spadUe_modCtx (c : Core) (t : Stream) (g : StreamCtx → StreamCtx) : (c.modCtx t g).spadUe = c.spadUe := by
  simp [Core.modCtx]
@[simp] theorem Core.spadFlip_modCtx (c : Core) (t : Stream) (g : StreamCtx → StreamCtx) : (c.modCtx t g).spadFlip = c.spadFlip := by
  simp [Core.modCtx]
@[simp] theorem Core.spadScrub_modCtx (c : Core) (t : Stream) (g : StreamCtx → StreamCtx) : (c.modCtx t g).spadScrub = c.spadScrub := by
  simp [Core.modCtx]
@[simp] theorem Core.accScrub_modCtx (c : Core) (t : Stream) (g : StreamCtx → StreamCtx) : (c.modCtx t g).accScrub = c.accScrub := by
  simp [Core.modCtx]
@[simp] theorem Core.icScrub_modCtx (c : Core) (t : Stream) (g : StreamCtx → StreamCtx) : (c.modCtx t g).icScrub = c.icScrub := by
  simp [Core.modCtx]
@[simp] theorem Core.regions_modCtx (c : Core) (t : Stream) (g : StreamCtx → StreamCtx) : (c.modCtx t g).regions = c.regions := by
  simp [Core.modCtx]

/-! ### A stream after a write of a register -/

@[simp] theorem StreamCtx.hasEntry_setSreg (x : StreamCtx) (k : Nat) (v : Word) : (x.setSreg k v).hasEntry = x.hasEntry := by
  unfold StreamCtx.setSreg; split <;> rfl
@[simp] theorem StreamCtx.pcRegion_setSreg (x : StreamCtx) (k : Nat) (v : Word) : (x.setSreg k v).pcRegion = x.pcRegion := by
  unfold StreamCtx.setSreg; split <;> rfl
@[simp] theorem StreamCtx.pcIndex_setSreg (x : StreamCtx) (k : Nat) (v : Word) : (x.setSreg k v).pcIndex = x.pcIndex := by
  unfold StreamCtx.setSreg; split <;> rfl
@[simp] theorem StreamCtx.dregs_setSreg (x : StreamCtx) (k : Nat) (v : Word) : (x.setSreg k v).dregs = x.dregs := by
  unfold StreamCtx.setSreg; split <;> rfl
@[simp] theorem StreamCtx.loops_setSreg (x : StreamCtx) (k : Nat) (v : Word) : (x.setSreg k v).loops = x.loops := by
  unfold StreamCtx.setSreg; split <;> rfl
@[simp] theorem StreamCtx.calls_setSreg (x : StreamCtx) (k : Nat) (v : Word) : (x.setSreg k v).calls = x.calls := by
  unfold StreamCtx.setSreg; split <;> rfl
@[simp] theorem StreamCtx.swap_setSreg (x : StreamCtx) (k : Nat) (v : Word) : (x.setSreg k v).swap = x.swap := by
  unfold StreamCtx.setSreg; split <;> rfl
@[simp] theorem StreamCtx.wdog_setSreg (x : StreamCtx) (k : Nat) (v : Word) : (x.setSreg k v).wdog = x.wdog := by
  unfold StreamCtx.setSreg; split <;> rfl
@[simp] theorem StreamCtx.hold_setSreg (x : StreamCtx) (k : Nat) (v : Word) : (x.setSreg k v).hold = x.hold := by
  unfold StreamCtx.setSreg; split <;> rfl
@[simp] theorem StreamCtx.held_setSreg (x : StreamCtx) (k : Nat) (v : Word) : (x.setSreg k v).held = x.held := by
  unfold StreamCtx.setSreg; split <;> rfl
@[simp] theorem StreamCtx.atWindow_setSreg (x : StreamCtx) (k : Nat) (v : Word) : (x.setSreg k v).atWindow = x.atWindow := by
  unfold StreamCtx.setSreg; split <;> rfl
@[simp] theorem StreamCtx.fetchLine_setSreg (x : StreamCtx) (k : Nat) (v : Word) : (x.setSreg k v).fetchLine = x.fetchLine := by
  unfold StreamCtx.setSreg; split <;> rfl
@[simp] theorem StreamCtx.prefLine_setSreg (x : StreamCtx) (k : Nat) (v : Word) : (x.setSreg k v).prefLine = x.prefLine := by
  unfold StreamCtx.setSreg; split <;> rfl
@[simp] theorem StreamCtx.prefetch_setSreg (x : StreamCtx) (k : Nat) (v : Word) : (x.setSreg k v).prefetch = x.prefetch := by
  unfold StreamCtx.setSreg; split <;> rfl
@[simp] theorem StreamCtx.adrift_setSreg (x : StreamCtx) (k : Nat) (v : Word) : (x.setSreg k v).adrift = x.adrift := by
  unfold StreamCtx.setSreg; split <;> rfl
@[simp] theorem StreamCtx.unreleased_setSreg (x : StreamCtx) (k : Nat) (v : Word) : (x.setSreg k v).unreleased = x.unreleased := by
  unfold StreamCtx.setSreg; split <;> rfl
@[simp] theorem StreamCtx.hasEntry_setDreg (x : StreamCtx) (k : Nat) (d : Desc) : (x.setDreg k d).hasEntry = x.hasEntry := by
  unfold StreamCtx.setDreg; split <;> rfl
@[simp] theorem StreamCtx.pcRegion_setDreg (x : StreamCtx) (k : Nat) (d : Desc) : (x.setDreg k d).pcRegion = x.pcRegion := by
  unfold StreamCtx.setDreg; split <;> rfl
@[simp] theorem StreamCtx.pcIndex_setDreg (x : StreamCtx) (k : Nat) (d : Desc) : (x.setDreg k d).pcIndex = x.pcIndex := by
  unfold StreamCtx.setDreg; split <;> rfl
@[simp] theorem StreamCtx.sregs_setDreg (x : StreamCtx) (k : Nat) (d : Desc) : (x.setDreg k d).sregs = x.sregs := by
  unfold StreamCtx.setDreg; split <;> rfl
@[simp] theorem StreamCtx.loops_setDreg (x : StreamCtx) (k : Nat) (d : Desc) : (x.setDreg k d).loops = x.loops := by
  unfold StreamCtx.setDreg; split <;> rfl
@[simp] theorem StreamCtx.calls_setDreg (x : StreamCtx) (k : Nat) (d : Desc) : (x.setDreg k d).calls = x.calls := by
  unfold StreamCtx.setDreg; split <;> rfl
@[simp] theorem StreamCtx.swap_setDreg (x : StreamCtx) (k : Nat) (d : Desc) : (x.setDreg k d).swap = x.swap := by
  unfold StreamCtx.setDreg; split <;> rfl
@[simp] theorem StreamCtx.wdog_setDreg (x : StreamCtx) (k : Nat) (d : Desc) : (x.setDreg k d).wdog = x.wdog := by
  unfold StreamCtx.setDreg; split <;> rfl
@[simp] theorem StreamCtx.hold_setDreg (x : StreamCtx) (k : Nat) (d : Desc) : (x.setDreg k d).hold = x.hold := by
  unfold StreamCtx.setDreg; split <;> rfl
@[simp] theorem StreamCtx.held_setDreg (x : StreamCtx) (k : Nat) (d : Desc) : (x.setDreg k d).held = x.held := by
  unfold StreamCtx.setDreg; split <;> rfl
@[simp] theorem StreamCtx.atWindow_setDreg (x : StreamCtx) (k : Nat) (d : Desc) : (x.setDreg k d).atWindow = x.atWindow := by
  unfold StreamCtx.setDreg; split <;> rfl
@[simp] theorem StreamCtx.fetchLine_setDreg (x : StreamCtx) (k : Nat) (d : Desc) : (x.setDreg k d).fetchLine = x.fetchLine := by
  unfold StreamCtx.setDreg; split <;> rfl
@[simp] theorem StreamCtx.prefLine_setDreg (x : StreamCtx) (k : Nat) (d : Desc) : (x.setDreg k d).prefLine = x.prefLine := by
  unfold StreamCtx.setDreg; split <;> rfl
@[simp] theorem StreamCtx.prefetch_setDreg (x : StreamCtx) (k : Nat) (d : Desc) : (x.setDreg k d).prefetch = x.prefetch := by
  unfold StreamCtx.setDreg; split <;> rfl
@[simp] theorem StreamCtx.adrift_setDreg (x : StreamCtx) (k : Nat) (d : Desc) : (x.setDreg k d).adrift = x.adrift := by
  unfold StreamCtx.setDreg; split <;> rfl
@[simp] theorem StreamCtx.unreleased_setDreg (x : StreamCtx) (k : Nat) (d : Desc) : (x.setDreg k d).unreleased = x.unreleased := by
  unfold StreamCtx.setDreg; split <;> rfl

end Sys2Proof.Machine
end

