-- ==== Sys2Proof/Laws/Issue.lean ====
section
/-! SUPPORT. What the issue stage can do, said once: each outcome of `State.issue` under the condition that leads to it; and
what retiring, an increment and a halt leave of a core. -/

namespace Sys2Proof.Machine

/-! ### Outcomes of the issue stage -/

/-- A word of another instruction is refused. -/
theorem issue_other (s : State) (n : Nat) (t : Stream) (w : Word128) (r : IssueReq) (eff : State → Except (Stop × State) State)
    (ha : assigned (fOpcode w) = true) (ho : fOpcode w ≠ r.form.opcode) :
    s.issue n t w r eff = .refused (.otherInstruction (BitVec.ofNat 8 (fOpcode w))) := by
  simp [State.issue, ha, ho]

/-- A stream that does not present the word stays as it is. -/
theorem issue_idle (s : State) (n : Nat) (t : Stream) (w : Word128) (r : IssueReq) (eff : State → Except (Stop × State) State)
    (ho : assigned (fOpcode w) = true → fOpcode w = r.form.opcode) (hp : s.presents n t w = false) :
    s.issue n t w r eff = .next s := by
  have : ¬ (assigned (fOpcode w) = true ∧ fOpcode w ≠ r.form.opcode) := fun h => h.2 (ho h.1)
  simp [State.issue, this, hp]

/-- A stream whose line is not fetched stalls. -/
theorem issue_miss (s : State) (n : Nat) (t : Stream) (w : Word128) (r : IssueReq) (eff : State → Except (Stop × State) State)
    (ho : assigned (fOpcode w) = true → fOpcode w = r.form.opcode) (hp : s.presents n t w = true)
    (hf : s.fetched n t = false) : s.issue n t w r eff = .next (s.miss n t) := by
  have : ¬ (assigned (fOpcode w) = true ∧ fOpcode w ≠ r.form.opcode) := fun h => h.2 (ho h.1)
  simp [State.issue, this, hp, hf]

theorem canIssue_presents (s : State) (n : Nat) (t : Stream) (w : Word128) (h : s.canIssue n t w = true) :
    s.presents n t w = true := (Bool.and_eq_true _ _ ▸ h).1

theorem canIssue_fetched (s : State) (n : Nat) (t : Stream) (w : Word128) (h : s.canIssue n t w = true) :
    s.fetched n t = true := (Bool.and_eq_true _ _ ▸ h).2

/-- An unmet wait holds its stream. -/
theorem issue_wait (s : State) (n : Nat) (t : Stream) (w : Word128) (r : IssueReq) (eff : State → Except (Stop × State) State)
    (ho : assigned (fOpcode w) = true → fOpcode w = r.form.opcode) (hi : s.canIssue n t w = true)
    (hw : (s.core n).waitHolds t w = false) : s.issue n t w r eff = .next (s.hold n t w .flag) := by
  have : ¬ (assigned (fOpcode w) = true ∧ fOpcode w ≠ r.form.opcode) := fun h => h.2 (ho h.1)
  simp [State.issue, this, canIssue_presents s n t w hi, canIssue_fetched s n t w hi, hw]

/-- So does a queue that is full, or a condition of the instruction's own. -/
theorem issue_queue (s : State) (n : Nat) (t : Stream) (w : Word128) (r : IssueReq) (eff : State → Except (Stop × State) State)
    (ho : assigned (fOpcode w) = true → fOpcode w = r.form.opcode) (hi : s.canIssue n t w = true)
    (hw : (s.core n).waitHolds t w = true) (he : s.wordFree n t w = false) :
    s.issue n t w r eff = .next (s.hold n t w .queue) := by
  have : ¬ (assigned (fOpcode w) = true ∧ fOpcode w ≠ r.form.opcode) := fun h => h.2 (ho h.1)
  simp [State.issue, this, canIssue_presents s n t w hi, canIssue_fetched s n t w hi, hw, he]

/-- A stream waits for one that is eligible before it in the order. -/
theorem issue_later (s : State) (n : Nat) (t : Stream) (w : Word128) (r : IssueReq) (eff : State → Except (Stop × State) State)
    (ho : assigned (fOpcode w) = true → fOpcode w = r.form.opcode) (hi : s.canIssue n t w = true)
    (hw : (s.core n).waitHolds t w = true) (he : s.wordFree n t w = true) (hg : s.goesFirst n t = false) :
    s.issue n t w r eff = .next s := by
  have : ¬ (assigned (fOpcode w) = true ∧ fOpcode w ≠ r.form.opcode) := fun h => h.2 (ho h.1)
  simp [State.issue, this, canIssue_presents s n t w hi, canIssue_fetched s n t w hi, hw, he, hg]

/-- A check that fails halts the core. -/
theorem issue_trap (s : State) (n : Nat) (t : Stream) (w : Word128) (r : IssueReq) (eff : State → Except (Stop × State) State)
    (st : Stop) (ho : assigned (fOpcode w) = true → fOpcode w = r.form.opcode) (hi : s.canIssue n t w = true)
    (hw : (s.core n).waitHolds t w = true) (he : s.wordFree n t w = true) (hg : s.goesFirst n t = true)
    (hc : issueCheck ((s.core n).ctx t) w r.form r.reserved r.needs r.late = some st) :
    s.issue n t w r eff = .next (s.haltIssue n 6 t st) := by
  have : ¬ (assigned (fOpcode w) = true ∧ fOpcode w ≠ r.form.opcode) := fun h => h.2 (ho h.1)
  simp [State.issue, this, canIssue_presents s n t w hi, canIssue_fetched s n t w hi, hw, he, hg, hc]

/-- An instruction that passes has its effect on the state in which it has retired. -/
theorem issue_effect (s : State) (n : Nat) (t : Stream) (w : Word128) (r : IssueReq) (eff : State → Except (Stop × State) State)
    (ho : fOpcode w = r.form.opcode) (hi : s.canIssue n t w = true)
    (hw : (s.core n).waitHolds t w = true) (he : s.wordFree n t w = true) (hg : s.goesFirst n t = true)
    (hc : issueCheck ((s.core n).ctx t) w r.form r.reserved r.needs r.late = none) :
    s.issue n t w r eff =
      match eff (s.retire n t) with
      | .ok u => .next (if issueSignal r w then u.signal n (sigOf ((s.core n).ctx t) w) else u)
      | .error (st, u) =>
        .next (u.haltCore n { engine := 0, stream := t.toNat, region := ((s.core n).ctx t).pcRegion,
                              index := ((s.core n).ctx t).pcIndex } st) := by
  simp [State.issue, ho, canIssue_presents s n t w hi, canIssue_fetched s n t w hi, hw, he, hg, hc]
  all_goals rfl

/-- Whatever the word, an issue answers a next state or refuses another instruction's word. -/
theorem issue_total (s : State) (n : Nat) (t : Stream) (w : Word128) (r : IssueReq) (eff : State → Except (Stop × State) State) :
    (∃ u, s.issue n t w r eff = .next u) ∨
      (assigned (fOpcode w) = true ∧ fOpcode w ≠ r.form.opcode ∧
        s.issue n t w r eff = .refused (.otherInstruction (BitVec.ofNat 8 (fOpcode w)))) := by
  unfold State.issue
  split
  · rename_i h; exact .inr ⟨h.1, h.2, rfl⟩
  · left; dsimp only
    repeat' split
    all_goals exact ⟨_, rfl⟩

/-! ### Retiring -/

theorem canIssue_role (s : State) (n : Nat) (t : Stream) (w : Word128) (h : s.canIssue n t w = true) : s.roleHeld n = false := by
  have h := canIssue_presents s n t w h
  simp only [State.presents, Bool.and_eq_true, Bool.not_eq_true'] at h
  exact h.1.2

theorem canIssue_running (s : State) (n : Nat) (t : Stream) (w : Word128) (h : s.canIssue n t w = true) :
    (s.core n).halt.halted = false := by
  have h := canIssue_presents s n t w h
  simp only [State.presents, Bool.and_eq_true, Bool.not_eq_true'] at h
  exact h.1.1.1.1.2

theorem canIssue_active (s : State) (n : Nat) (t : Stream) (w : Word128) (h : s.canIssue n t w = true) :
    (s.core n).active = true := by
  have h := canIssue_presents s n t w h
  simp only [State.presents, Bool.and_eq_true, Bool.not_eq_true'] at h
  exact h.1.1.1.1.1.1.2

/-- A core that issues has an active clock: an increment opens its gate. -/
theorem canIssue_gate (s : State) (n : Nat) (t : Stream) (w : Word128) (h : s.canIssue n t w = true) : s.staysGated n = false := by
  simp [State.staysGated, canIssue_active s n t w h]

/-! A stream that takes a line changes its fetch buffer and its prefetches alone. -/

theorem StreamCtx.takeLine_eq (x : StreamCtx) (a : Nat) (b : Option Nat) :
    ∃ f p q d, x.takeLine a b = { x with fetchLine := f, prefLine := p, prefetch := q, adrift := d } := by
  unfold StreamCtx.takeLine StreamCtx.abandonPrefetch
  split
  · exact ⟨_, _, _, _, rfl⟩
  · dsimp only
    repeat' split
    all_goals exact ⟨_, _, _, _, rfl⟩

theorem Core.takeLine_eq (c : Core) (t : Stream) (a b : Option Nat) :
    ∃ i f p q d, c.takeLine t a b =
      ({ c with icache := i } : Core).setCtx t { c.ctx t with fetchLine := f, prefLine := p, prefetch := q, adrift := d } := by
  unfold Core.takeLine
  split
  · rename_i a
    split
    · exact ⟨c.icache, (c.ctx t).fetchLine, (c.ctx t).prefLine, (c.ctx t).prefetch, (c.ctx t).adrift, by cases t <;> rfl⟩
    · obtain ⟨f, p, q, d, e⟩ := (c.ctx t).takeLine_eq a b
      refine ⟨(c.cacheTouch a).icache, f, p, q, d, ?_⟩
      have : (c.cacheTouch a).ctx t = c.ctx t := by cases t <;> rfl
      simp only [Core.modCtx, this, e]
      rfl
  · exact ⟨c.icache, (c.ctx t).fetchLine, (c.ctx t).prefLine, (c.ctx t).prefetch, (c.ctx t).adrift, by cases t <;> rfl⟩

@[simp] theorem Core.ctx_takeLine_other (c : Core) (t u : Stream) (a b : Option Nat) (h : u ≠ t) : (c.takeLine t a b).ctx u = c.ctx u := by
  obtain ⟨i, f, p, q, d, e⟩ := c.takeLine_eq t a b
  rw [e]; cases t <;> cases u <;> first | rfl | exact absurd rfl h

/-- What retiring leaves of a core: all but the use order of its cache, its issue order and the stream's buffer, PC and hold. -/
theorem core_retire (s : State) (n : Nat) (t : Stream) :
    ∃ i f p q d, (s.retire n t).core n =
      { ({ s.core n with icache := i } : Core).setCtx t
          { (s.core n).ctx t with fetchLine := f, prefLine := p, prefetch := q, adrift := d,
                                  pcIndex := ((s.core n).ctx t).pcIndex + 1, wdog := 0, hold := .none, held := none } with
        order := (s.core n).order.erase t ++ [t] } := by
  obtain ⟨i, f, p, q, d, e⟩ := (s.core n).takeLine_eq t (s.fetchAddr n t) (s.prefetchAddr n t)
  refine ⟨i, f, p, q, d, ?_⟩
  unfold State.retire
  rw [State.core_modCore, if_pos rfl, e]
  cases t <;> rfl

/-- The stream after its instruction has retired. -/
theorem ctx_retire (s : State) (n : Nat) (t : Stream) :
    ∃ f p q d, ((s.retire n t).core n).ctx t =
      { (s.core n).ctx t with fetchLine := f, prefLine := p, prefetch := q, adrift := d,
                              pcIndex := ((s.core n).ctx t).pcIndex + 1, wdog := 0, hold := .none, held := none } := by
  obtain ⟨i, f, p, q, d, e⟩ := core_retire s n t
  refine ⟨f, p, q, d, ?_⟩
  rw [e]; cases t <;> rfl

theorem ctx_retire_other (s : State) (n : Nat) (t u : Stream) (h : u ≠ t) :
    ((s.retire n t).core n).ctx u = (s.core n).ctx u := by
  obtain ⟨i, f, p, q, d, e⟩ := core_retire s n t
  rw [e]; cases t <;> cases u <;> first | rfl | exact absurd rfl h

theorem core_retire_other (s : State) (n m : Nat) (t : Stream) (h : m ≠ n) : (s.retire n t).core m = s.core m := by
  simp [State.retire, h]

/-! ### Increments (R46, R50, R60) -/

theorem roleHeld_modCore (s : State) (n m : Nat) (f : Core → Core) : (s.modCore n f).roleHeld m = s.roleHeld m := rfl

theorem incFlag_free (s : State) (n k : Nat) (a : W32) (h : s.roleHeld n = false) (hg : s.staysGated n = false) :
    s.incFlag n k a = s.modCore n fun c => (c.addFlag k a).openGate := by
  simp [State.incFlag, h, hg]

@[simp] theorem Core.flag_openGate (c : Core) (k : Nat) : c.openGate.flag k = c.flag k := by
  unfold Core.openGate; split <;> rfl

@[simp] theorem Core.ctx_openGate (c : Core) (t : Stream) : c.openGate.ctx t = c.ctx t := by
  unfold Core.openGate; split <;> cases t <;> rfl

@[simp] theorem Core.ctx_addFlag (c : Core) (k : Nat) (a : W32) (t : Stream) : (c.addFlag k a).ctx t = c.ctx t := by
  cases t <;> rfl

/-- The signal of an instruction to a core whose role is not held adds its amount to one flag. -/
theorem signal_free (s : State) (n : Nat) (g : Sig) (h : s.roleHeld n = false) (hg : s.staysGated n = false) :
    s.signal n g = if g.en then s.modCore n fun c => (c.addFlag g.flag g.amount).openGate else s := by
  simp [State.signal, incFlag_free, h, hg]

/-! ### Halting (R40, R41) -/

theorem flags_stopChannels (c : Core) : c.stopChannels.flags = c.flags := rfl

@[simp] theorem Core.flags_discard (c : Core) (e : Nat) : (c.discard e).flags = c.flags := by
  unfold Core.discard; split <;> rfl

@[simp] theorem Core.ctx_discard (c : Core) (e : Nat) (t : Stream) : (c.discard e).ctx t = c.ctx t := by
  unfold Core.discard; split <;> cases t <;> rfl

@[simp] theorem Core.ctx_stopChannels (c : Core) (t : Stream) : c.stopChannels.ctx t = c.ctx t := by cases t <;> rfl

@[simp] theorem State.core_jobMove (s : State) (x : JobState) (k n : Nat) : (s.jobMove x k).core n = s.core n := rfl
@[simp] theorem State.mem_jobMove (s : State) (x : JobState) (k : Nat) : (s.jobMove x k).mem = s.mem := rfl

/-- What the first fault of a core leaves of that core. -/
theorem core_haltCore_first (s : State) (n : Nat) (p : HaltAt) (st : Stop) (h : (s.core n).halt.halted = false) :
    (s.haltCore n p st).core n =
      { (s.core n).stopChannels.discard p.engine with
        halt := { (s.core n).halt with
          halted := true, draining := true, engine := BitVec.ofNat 3 p.engine, stream := BitVec.ofNat 2 p.stream,
          pcRegion := p.region, pcIndex := p.index, reason := BitVec.ofNat 8 st.reason, flag := BitVec.ofNat 9 st.flag,
          info := BitVec.ofNat 64 st.info }
        f := ((s.core n).ctx .F).stopped, b := ((s.core n).ctx .B).stopped, u := ((s.core n).ctx .U).stopped } := by
  have hf : ((s.core n).stopChannels.discard p.engine).f = (s.core n).f := by unfold Core.discard; split <;> rfl
  have hb : ((s.core n).stopChannels.discard p.engine).b = (s.core n).b := by unfold Core.discard; split <;> rfl
  have hu : ((s.core n).stopChannels.discard p.engine).u = (s.core n).u := by unfold Core.discard; split <;> rfl
  simp only [State.haltCore, h, Bool.false_eq_true, if_false, hf, hb, hu]
  have hj : ∀ (u : State) (j : Job), State.core { u with job := j } n = u.core n := fun _ _ => rfl
  split
  · simp only [State.core_setCore, if_true, Core.ctx]
  · split
    · simp only [State.core_jobMove, hj, State.core_setCore, if_true, Core.ctx]
    · simp only [hj, State.core_setCore, if_true, Core.ctx]

theorem mem_haltCore (s : State) (n : Nat) (p : HaltAt) (st : Stop) : (s.haltCore n p st).mem = s.mem := by
  unfold State.haltCore
  dsimp only
  repeat' split
  all_goals rfl

theorem core_haltCore_other (s : State) (n m : Nat) (p : HaltAt) (st : Stop) (h : m ≠ n) :
    (s.haltCore n p st).core m = s.core m := by
  unfold State.haltCore
  dsimp only
  repeat' split
  all_goals simp [State.core, State.setCore, h, State.jobMove, State.raise]

end Sys2Proof.Machine
end

