-- ==== Sys2Proof/Laws/CoreTable.lean ====
section
/-! SUPPORT. Every core instruction goes through the issue stage: the table of core instructions, row by row. -/

namespace Sys2Proof.Machine

theorem wordField_opcode (w : Word128) : wordField w 120 8 = fOpcode w := rfl

/-- The scalar rows as issues. -/
theorem scalarRow_issue : ∀ p ∈ threeOperand ++ immediateOperand, ∀ (s : State) (n : CoreId) (t : Stream) (w : Word128),
    exec (p.ctor n t w) s = s.issue n t w p.req fun u =>
      .ok (u.setSreg n t (fDst w) (p.value w (s.sreg n t (fA w)) (s.sreg n t (fB w)))) := by
  simp only [threeOperand, immediateOperand, List.cons_append, List.nil_append, List.forall_mem_cons]
  and_intros
  · intro s n t w; rw [exec_add]; rfl
  · intro s n t w; rw [exec_sub]; rfl
  · intro s n t w; rw [exec_mul]; rfl
  · intro s n t w; rw [exec_divu]; rfl
  · intro s n t w; rw [exec_remu]; rfl
  · intro s n t w; rw [exec_andOp]; rfl
  · intro s n t w; rw [exec_orOp]; rfl
  · intro s n t w; rw [exec_xorOp]; rfl
  · intro s n t w; rw [exec_shl]; rfl
  · intro s n t w; rw [exec_shr]; rfl
  · intro s n t w; rw [exec_sar]; rfl
  · intro s n t w; rw [exec_minu]; rfl
  · intro s n t w; rw [exec_maxu]; rfl
  · intro s n t w; rw [exec_addi]; rfl
  · intro s n t w; rw [exec_andi]; rfl
  · intro s n t w; rw [exec_shli]; rfl
  · intro s n t w; rw [exec_shri]; rfl
  · intro s n t w; rw [exec_ldi]; rfl
  · simp

/-- The rows of the engines as issues. -/
theorem engineRow_issue : ∀ p ∈ denseRows ++ gmeRows ++ vectorRows ++ moveRows, ∀ (s : State) (n : CoreId) (t : Stream) (w : Word128),
    exec (p.ctor n t w) s = s.issue n t w (p.req s n t w) fun u =>
      .ok (p.upd s n t w (u.modCore n fun c => c.push p.eng (p.op s n w (s.engOp n t w (p.regs w))))) := by
  simp only [denseRows, gmeRows, vectorRows, moveRows, List.cons_append, List.nil_append, List.forall_mem_cons]
  and_intros
  · intro s n t w; rw [exec_daFill]; rfl
  · intro s n t w; rw [exec_daFillt]; rfl
  · intro s n t w; rw [exec_daSwap]; rfl
  · intro s n t w; rw [exec_daMm]; rfl
  · intro s n t w; rw [exec_daMmnm]; rfl
  · intro s n t w; rw [exec_daDrain]; rfl
  · intro s n t w; rw [exec_daClear]; rfl
  · intro s n t w; rw [exec_gmeSpmm]; rfl
  · intro s n t w; rw [exec_gmeSddmm]; rfl
  · intro s n t w; rw [exec_gmeGather]; rfl
  · intro s n t w; rw [exec_gmeScatteradd]; rfl
  · intro s n t w; rw [exec_gmeSegsum]; rfl
  · intro s n t w; rw [exec_gmeSort]; rfl
  · intro s n t w; rw [exec_gmeSelect]; rfl
  · intro s n t w; rw [exec_gmeMerge]; rfl
  · intro s n t w; rw [exec_gmePack]; rfl
  · intro s n t w; rw [exec_gmeUnpack]; rfl
  · intro s n t w; rw [exec_gmeTranspose]; rfl
  · intro s n t w; rw [exec_veAdd]; rfl
  · intro s n t w; rw [exec_veSub]; rfl
  · intro s n t w; rw [exec_veMul]; rfl
  · intro s n t w; rw [exec_veMax]; rfl
  · intro s n t w; rw [exec_veMin]; rfl
  · intro s n t w; rw [exec_veFma]; rfl
  · intro s n t w; rw [exec_veAbs]; rfl
  · intro s n t w; rw [exec_veNeg]; rfl
  · intro s n t w; rw [exec_veScale]; rfl
  · intro s n t w; rw [exec_veCopy]; rfl
  · intro s n t w; rw [exec_veFill]; rfl
  · intro s n t w; rw [exec_veBlend]; rfl
  · intro s n t w; rw [exec_veRsum]; rfl
  · intro s n t w; rw [exec_veRmax]; rfl
  · intro s n t w; rw [exec_veRmin]; rfl
  · intro s n t w; rw [exec_veRsumsq]; rfl
  · intro s n t w; rw [exec_veSmstat]; rfl
  · intro s n t w; rw [exec_veSmnorm]; rfl
  · intro s n t w; rw [exec_veSmbwd]; rfl
  · intro s n t w; rw [exec_veFunc]; rfl
  · intro s n t w; rw [exec_veDfunc]; rfl
  · intro s n t w; rw [exec_veConvert]; rfl
  · intro s n t w; rw [exec_veDigest]; rfl
  · intro s n t w; rw [exec_veRng]; rfl
  · intro s n t w; rw [exec_dmaStart]; rfl
  · intro s n t w; rw [exec_dmaStop]; rfl
  · intro s n t w; rw [exec_valDispatch]; rfl
  · intro s n t w; rw [exec_valCombine]; rfl
  · intro s n t w; rw [exec_valReturn]; rfl
  · intro s n t w; rw [exec_valCancel]; rfl
  · simp

/-- VE.OPT, op 0 and op 1. -/
theorem optRow_issue : ∀ p ∈ optRows, ∀ (s : State) (n : CoreId) (t : Stream) (w : Word128), ownWord p.ctor n t w = true →
    ∃ l, exec (p.ctor n t w) s = s.issue n t w (p.req s n t w) fun u =>
      .ok (u.modCore n fun c => c.push .ve { s.engOp n t w l with sched := tget (s.course (courseOf n)).sched (optGroup w) {} }) := by
  simp only [optRows, List.forall_mem_cons]
  refine ⟨?_, ?_, by simp⟩
  · intro s n t w h
    have h2 : optOp w ≠ 1 := by
      intro e
      simp only [ownWord, WellFormed, Bool.and_eq_true, bne_iff_ne, ne_eq] at h
      exact h.2 e
    rw [exec_veOpt]; unfold execVeOpt
    rw [if_neg (by simp [h2])]
    exact ⟨_, rfl⟩
  · intro s n t w h
    have h2 : optOp w = 1 := by
      simp only [ownWord, WellFormed, Bool.and_eq_true, beq_iff_eq] at h
      exact h.2
    rw [exec_veOptCommit]; unfold execVeOptCommit
    rw [if_neg (by simp [h2])]
    exact ⟨_, rfl⟩


/-- The word of a scalar row is its own by its opcode alone. -/
theorem scalarRow_own : ∀ p ∈ threeOperand ++ immediateOperand, ∀ (n : CoreId) (t : Stream) (w : Word128),
    ownWord p.ctor n t w = (fOpcode w == p.opcode) := by
  simp only [threeOperand, immediateOperand, List.cons_append, List.nil_append, List.forall_mem_cons]
  and_intros <;> first | rfl | exact List.forall_mem_nil _ | (intros; rfl)

theorem engineRow_own : ∀ p ∈ denseRows ++ gmeRows ++ vectorRows ++ moveRows, ∀ (s : State) (n : CoreId) (t : Stream) (w : Word128),
    ownWord p.ctor n t w = (fOpcode w == (p.req s n t w).form.opcode) := by
  simp only [denseRows, gmeRows, vectorRows, moveRows, List.cons_append, List.nil_append, List.forall_mem_cons]
  and_intros <;> first | rfl | exact List.forall_mem_nil _ | (intros; rfl)

/-- The instructions that stand alone, as issues. -/
theorem singleTable_issue : ∀ p ∈ singleTable, ∀ (s : State) (n : CoreId) (t : Stream) (w : Word128),
    ownWord p.1 n t w = (fOpcode w == (p.2 s n t w).form.opcode) ∧
      ∃ eff, exec (p.1 n t w) s = s.issue n t w (p.2 s n t w) eff := by
  simp only [singleTable, List.forall_mem_cons]
  and_intros
  · intro s n t w; refine ⟨rfl, ?_⟩; rw [exec_ldih]; unfold execLdih; exact ⟨_, rfl⟩
  · intro s n t w; refine ⟨rfl, ?_⟩; rw [exec_loopidx]; unfold execLoopidx; exact ⟨_, rfl⟩
  · intro s n t w; refine ⟨rfl, ?_⟩; rw [exec_rdid]; unfold execRdid; exact ⟨_, rfl⟩
  · intro s n t w; refine ⟨rfl, ?_⟩; rw [exec_flagrd]; unfold execFlagrd; exact ⟨_, rfl⟩
  · intro s n t w; refine ⟨rfl, ?_⟩; rw [exec_ldl]; unfold execLdl; exact ⟨_, rfl⟩
  · intro s n t w; refine ⟨rfl, ?_⟩; rw [exec_stl]; unfold execStl; exact ⟨_, rfl⟩
  · intro s n t w; refine ⟨rfl, ?_⟩; rw [exec_loop]; unfold execLoop; exact ⟨_, rfl⟩
  · intro s n t w; refine ⟨rfl, ?_⟩; rw [exec_endloop]; unfold execEndloop; exact ⟨_, rfl⟩
  · intro s n t w; refine ⟨rfl, ?_⟩; rw [exec_call]; unfold execCall; exact ⟨_, rfl⟩
  · intro s n t w; refine ⟨rfl, ?_⟩; rw [exec_ret]; unfold execRet; exact ⟨_, rfl⟩
  · intro s n t w; refine ⟨rfl, ?_⟩; rw [exec_jmp]; unfold execJmp; exact ⟨_, rfl⟩
  · intro s n t w; refine ⟨rfl, ?_⟩; rw [exec_ldd]; unfold execLdd; exact ⟨_, rfl⟩
  · intro s n t w; refine ⟨rfl, ?_⟩; rw [exec_movd]; unfold execMovd; exact ⟨_, rfl⟩
  · intro s n t w; refine ⟨rfl, ?_⟩; rw [exec_dbase]; unfold execDbase; exact ⟨_, rfl⟩
  · intro s n t w; refine ⟨rfl, ?_⟩; rw [exec_dsize]; unfold execDsize; exact ⟨_, rfl⟩
  · intro s n t w; refine ⟨rfl, ?_⟩; rw [exec_dclr]; unfold execDclr; exact ⟨_, rfl⟩
  · intro s n t w; refine ⟨rfl, ?_⟩; rw [exec_nop]; unfold execNop; exact ⟨_, rfl⟩
  · intro s n t w; refine ⟨rfl, ?_⟩; rw [exec_waitOp]; unfold execWaitOp; exact ⟨_, rfl⟩
  · intro s n t w; refine ⟨rfl, ?_⟩; rw [exec_signal]; unfold execSignal; exact ⟨_, rfl⟩
  · intro s n t w; refine ⟨rfl, ?_⟩; rw [exec_barrier]; unfold execBarrier; exact ⟨_, rfl⟩
  · intro s n t w; refine ⟨rfl, ?_⟩; rw [exec_testwin]; unfold execTestwin; exact ⟨_, rfl⟩
  · intro s n t w; refine ⟨rfl, ?_⟩; rw [exec_codeswap]; unfold execCodeswap; exact ⟨_, rfl⟩
  · intro s n t w; refine ⟨rfl, ?_⟩; rw [exec_haltOp]; unfold execHaltOp; exact ⟨_, rfl⟩
  · simp

theorem optRow_opcode : ∀ p ∈ optRows, ∀ (s : State) (n : CoreId) (t : Stream) (w : Word128),
    (p.req s n t w).form.opcode = 0xA4 ∧ (ownWord p.ctor n t w = true → fOpcode w = 0xA4) := by
  simp only [optRows, List.forall_mem_cons]
  refine ⟨?_, ?_, by simp⟩
  · intro s n t w
    refine ⟨rfl, fun h => ?_⟩
    simp only [ownWord, WellFormed, Bool.and_eq_true, beq_iff_eq] at h
    exact h.1
  · intro s n t w
    refine ⟨rfl, fun h => ?_⟩
    simp only [ownWord, WellFormed, Bool.and_eq_true, beq_iff_eq] at h
    exact h.1

/-- The table in three stretches: the scalar rows, the instructions that stand alone, the rows of the engines. -/
theorem coreTable_split :
    coreTable = (threeOperand ++ immediateOperand).map (fun p => (p.ctor, fun _ _ _ _ => p.req)) ++
      (singleTable ++ (denseRows ++ gmeRows ++ vectorRows ++ optRows ++ moveRows).map fun p => (p.ctor, p.req)) := rfl

/-- A row of the table is a scalar row, one of the instructions that stand alone, or a row of an engine. -/
theorem coreTable_cases (p : CoreInstr × (State → CoreId → Stream → Word128 → IssueReq)) (hp : p ∈ coreTable) :
    (∃ q ∈ threeOperand ++ immediateOperand, p = (q.ctor, fun _ _ _ _ => q.req)) ∨ p ∈ singleTable ∨
      (∃ q ∈ denseRows ++ gmeRows ++ vectorRows ++ moveRows, p = (q.ctor, q.req)) ∨
      (∃ q ∈ optRows, p = (q.ctor, q.req)) := by
  rw [coreTable_split, List.mem_append, List.mem_append, List.mem_map, List.mem_map] at hp
  obtain ⟨row, found, same⟩ | alone | ⟨row, found, same⟩ := hp
  · exact .inl ⟨row, found, same.symm⟩
  · exact .inr (.inl alone)
  · by_cases update : row ∈ optRows
    · exact .inr (.inr (.inr ⟨row, update, same.symm⟩))
    · refine .inr (.inr (.inl ⟨row, ?_, same.symm⟩))
      simpa only [List.mem_append, update, or_false] using found

/-- A command of the table whose word is its own: its meaning is an issue with what its row asks. -/
theorem coreTable_issue (p : CoreInstr × (State → CoreId → Stream → Word128 → IssueReq)) (hp : p ∈ coreTable) (s : State)
    (n : CoreId) (t : Stream) (w : Word128) (h : ownWord p.1 n t w = true) :
    fOpcode w = (p.2 s n t w).form.opcode ∧ ∃ eff, exec (p.1 n t w) s = s.issue n t w (p.2 s n t w) eff := by
  rcases coreTable_cases p hp with ⟨q, hq, rfl⟩ | hp | ⟨q, hq, rfl⟩ | ⟨q, hq, rfl⟩
  · exact ⟨beq_iff_eq.mp ((scalarRow_own q hq n t w).symm.trans h), _, scalarRow_issue q hq s n t w⟩
  · exact ⟨beq_iff_eq.mp ((singleTable_issue p hp s n t w).1.symm.trans h), (singleTable_issue p hp s n t w).2⟩
  · exact ⟨beq_iff_eq.mp ((engineRow_own q hq s n t w).symm.trans h), _, engineRow_issue q hq s n t w⟩
  · obtain ⟨l, e⟩ := optRow_issue q hq s n t w h
    exact ⟨((optRow_opcode q hq s n t w).2 h).trans (optRow_opcode q hq s n t w).1.symm, _, e⟩

/-! ### Instructions that pass -/

/-- An instruction that passes the issue stage has its effect, then sends its signal. -/
theorem issue_passes {s u : State} {n : CoreId} {t : Stream} {w : Word128} {r : IssueReq}
    {eff : State → Except (Stop × State) State} (h : Passes s n t w r) (he : eff (s.retire n t) = .ok u) :
    s.issue n t w r eff = .next (signalled s n t w r u) := by
  rw [issue_effect s n t w r eff h.own h.may h.waits h.free h.first h.checks, he]; rfl

/-- A fault of its effect halts the core, and no signal is sent. -/
theorem issue_faults {s u : State} {n : CoreId} {t : Stream} {w : Word128} {r : IssueReq} {st : Stop}
    {eff : State → Except (Stop × State) State} (h : Passes s n t w r) (he : eff (s.retire n t) = .error (st, u)) :
    s.issue n t w r eff = .next (u.haltCore n (s.haltPlace n t 0) st) := by
  rw [issue_effect s n t w r eff h.own h.may h.waits h.free h.first h.checks, he]; rfl

/-- A signal at issue changes one flag, opening a closed gate, or nothing. -/
theorem signalled_cases (s u : State) (n : CoreId) (t : Stream) (w : Word128) (r : IssueReq) (h : u.roleHeld n = false)
    (hg : u.staysGated n = false) :
    signalled s n t w r u = u ∨
      (fSigEn w = true ∧ issueSignal r w = true ∧ signalled s n t w r u =
        u.modCore n fun c => (c.addFlag (fSigFlag w) (sigAmount ((s.core n).ctx t) w)).openGate) := by
  unfold signalled
  split
  · rename_i hh
    rw [signal_free _ _ _ h hg]
    by_cases e : fSigEn w
    · right; exact ⟨e, hh, by simp [sigOf, e]⟩
    · left; simp [sigOf, e]
  · exact .inl rfl

@[simp] theorem Core.beside_gate (c : Core) (k : Nat) (a : W32) : (c.addFlag k a).openGate.beside = c.beside := by
  unfold Core.openGate; split <;> rfl

@[simp] theorem Core.beside_setCtx (c : Core) (t : Stream) (x : StreamCtx) : (c.setCtx t x).beside = c.beside := by cases t <;> rfl

theorem State.beside_modCore (s : State) (n : Nat) (f : Core → Core) : (s.modCore n f).beside = s.beside := rfl

end Sys2Proof.Machine
end

