-- ==== Sys2Proof/Laws/Memory.lean ====
section
/-! SUPPORT. Laws of memory: every operation keeps the canonical form, a read after a write gives what was written, and a write
leaves every other place alone; and the places of a line. -/

namespace Sys2Proof.Machine

/-! ### The canonical form -/

theorem wfFrom_mono {lo lo' : Nat} (h : lo' ≤ lo) : ∀ m : List Host.Cell, Memory.wfFrom lo m = true → Memory.wfFrom lo' m = true
  | [], _ => rfl
  | (j, x) :: r, hw => by
    simp only [Memory.wfFrom, Bool.and_eq_true, decide_eq_true_eq] at hw ⊢
    exact ⟨⟨le_trans h hw.1.1, hw.1.2⟩, hw.2⟩

/-- A byte below every listed address reads as zero. -/
theorem memGet_below {lo k : Nat} (h : k < lo) : ∀ m : List Host.Cell, Memory.wfFrom lo m = true → memGet m k = 0
  | [], _ => rfl
  | (j, x) :: r, hw => by
    simp only [Memory.wfFrom, Bool.and_eq_true, decide_eq_true_eq] at hw
    have hj : j ≠ k := by omega
    simp only [memGet, tget, if_neg hj]
    exact memGet_below (lo := j + 1) (by omega) r hw.2

theorem wfFrom_memPut {lo k : Nat} (b : Byte) (h : lo ≤ k) :
    ∀ m : List Host.Cell, Memory.wfFrom lo m = true → Memory.wfFrom lo (memPut m k b) = true
  | [], _ => by
    unfold memPut; split
    · rfl
    · rename_i hb
      simp only [Memory.wfFrom, Bool.and_eq_true, decide_eq_true_eq, bne_iff_ne, ne_eq]
      exact ⟨⟨h, hb⟩, trivial⟩
  | (j, x) :: r, hw => by
    simp only [Memory.wfFrom, Bool.and_eq_true, decide_eq_true_eq, bne_iff_ne, ne_eq] at hw
    unfold memPut
    split
    · rename_i e; subst e
      split
      · exact wfFrom_mono (by omega) r hw.2
      · rename_i hb
        simp only [Memory.wfFrom, Bool.and_eq_true, decide_eq_true_eq, bne_iff_ne, ne_eq]
        exact ⟨⟨h, hb⟩, hw.2⟩
    · split
      · split
        · simp only [Memory.wfFrom, Bool.and_eq_true, decide_eq_true_eq, bne_iff_ne, ne_eq]
          exact hw
        · rename_i hkj hb
          have : k + 1 ≤ j := by omega
          simp only [Memory.wfFrom, Bool.and_eq_true, decide_eq_true_eq, bne_iff_ne, ne_eq]
          exact ⟨⟨h, hb⟩, ⟨this, hw.1.2⟩, hw.2⟩
      · rename_i e1 e2
        have := wfFrom_memPut b (lo := j + 1) (k := k) (by omega) r hw.2
        simp only [Memory.wfFrom, Bool.and_eq_true, decide_eq_true_eq, bne_iff_ne, ne_eq]
        exact ⟨hw.1, this⟩

theorem wf_memPut (m : List Host.Cell) (k : Nat) (b : Byte) (h : Memory.wf m = true) : Memory.wf (memPut m k b) = true :=
  wfFrom_memPut b (Nat.zero_le k) m h

theorem wf_memPutAll (m : List Host.Cell) (k : Nat) (l : List Byte) (h : Memory.wf m = true) : Memory.wf (memPutAll m k l) = true := by
  induction l generalizing m k with
  | nil => exact h
  | cons b r ih => exact ih _ _ (wf_memPut m k b h)

theorem wfFrom_filter (p : Host.Cell → Bool) :
    ∀ (lo : Nat) (m : List Host.Cell), Memory.wfFrom lo m = true → Memory.wfFrom lo (m.filter p) = true
  | _, [], _ => rfl
  | lo, (j, x) :: r, hw => by
    simp only [Memory.wfFrom, Bool.and_eq_true, decide_eq_true_eq] at hw
    simp only [List.filter_cons]
    split
    · simp only [Memory.wfFrom, Bool.and_eq_true, decide_eq_true_eq]
      exact ⟨hw.1, wfFrom_filter p _ r hw.2⟩
    · exact wfFrom_mono (by omega) _ (wfFrom_filter p (j + 1) r hw.2)

theorem wf_filter (p : Host.Cell → Bool) (m : List Host.Cell) (h : Memory.wf m = true) : Memory.wf (m.filter p) = true :=
  wfFrom_filter p 0 m h

theorem wf_reset : Memory.wf State.reset.mem = true := rfl

/-! ### Reading after writing -/

theorem memGet_memPut_other (k j : Nat) (b : Byte) (h : j ≠ k) : ∀ m : List Host.Cell, memGet (memPut m k b) j = memGet m j
  | [] => by
    unfold memPut; split
    · rfl
    · simp [memGet, tget, Ne.symm h]
  | (i, x) :: r => by
    have ih := memGet_memPut_other k j b h r
    unfold memGet at ih ⊢
    unfold memPut
    split
    · rename_i e; subst e
      split
      · simp [tget, Ne.symm h]
      · simp [tget, Ne.symm h]
    · split
      · split
        · rfl
        · simp [tget, Ne.symm h]
      · simp only [tget, ih]

theorem memGet_memPut_same (k : Nat) (b : Byte) : ∀ (lo : Nat) (m : List Host.Cell), Memory.wfFrom lo m = true →
    memGet (memPut m k b) k = b
  | _, [], _ => by
    unfold memPut; split
    · rename_i e; simp [memGet, tget, e]
    · simp [memGet, tget]
  | lo, (i, x) :: r, hw => by
    simp only [Memory.wfFrom, Bool.and_eq_true, decide_eq_true_eq] at hw
    unfold memPut
    split
    · rename_i e; subst e
      split
      · rename_i e2; rw [memGet_below (lo := i + 1) (by omega) r hw.2, e2]
      · simp [memGet, tget]
    · split
      · split
        · rename_i e1 e2 e3
          have : memGet ((i, x) :: r) k = 0 := by
            simp only [memGet, tget, if_neg e1]
            exact memGet_below (lo := i + 1) (by omega) r hw.2
          rw [this, e3]
        · simp [memGet, tget]
      · rename_i e1 e2
        have := memGet_memPut_same k b (i + 1) r hw.2
        simpa [memGet, tget, e1] using this

/-- In a canonical memory, a read after a write gives the byte written there, and every other byte as before. -/
theorem memGet_memPut (m : List Host.Cell) (k j : Nat) (b : Byte) (h : Memory.wf m = true) :
    memGet (memPut m k b) j = if j = k then b else memGet m j := by
  split
  · rename_i e; subst e; exact memGet_memPut_same j b 0 m h
  · rename_i e; exact memGet_memPut_other k j b e m

theorem memGet_memPutAll_other (l : List Byte) (m : List Host.Cell) (k j : Nat) (h : j < k ∨ k + l.length ≤ j) :
    memGet (memPutAll m k l) j = memGet m j := by
  induction l generalizing m k with
  | nil => rfl
  | cons b r ih =>
    simp only [List.length_cons] at h
    simp only [memPutAll]
    rw [ih _ _ (by omega), memGet_memPut_other k j b (by omega)]

theorem memGet_memPutAll (l : List Byte) (m : List Host.Cell) (k i : Nat) (hw : Memory.wf m = true) (h : i < l.length) :
    memGet (memPutAll m k l) (k + i) = l[i] := by
  induction l generalizing m k i with
  | nil => simp at h
  | cons b r ih =>
    simp only [memPutAll]
    cases i with
    | zero =>
      rw [memGet_memPutAll_other r _ _ _ (by omega), Nat.add_zero, memGet_memPut m k k b hw]
      simp
    | succ i =>
      have := ih (memPut m k b) (k + 1) i (wf_memPut m k b hw) (by simpa using h)
      have e : k + 1 + i = k + (i + 1) := by omega
      rw [e] at this
      simpa using this

theorem memGet_filter (p : Nat → Bool) (j : Nat) (hp : p j = true) :
    ∀ m : List Host.Cell, memGet (m.filter fun x => p x.1) j = memGet m j
  | [] => rfl
  | (i, x) :: r => by
    have ih := memGet_filter p j hp r
    simp only [List.filter_cons]
    split
    · simp only [memGet, tget]; split
      · rfl
      · exact ih
    · rename_i e
      have : i ≠ j := by intro c; subst c; exact e hp
      simp only [memGet, tget, if_neg this]
      exact ih

/-! ### Places (R228) -/

theorem storage_hbm (A x : Nat) (h : x < 0x018000000000) : storage A x = (hbmPlace A x).1 * 2 ^ 37 + (hbmPlace A x).2 := if_pos h

theorem storage_own (A x : Nat) (h : ¬ x < 0x018000000000) : storage A x = x := if_neg h

theorem hbmPlace_low (A x : Nat) (h : x < (1536 - 4 * A) * 2 ^ 30) :
    hbmPlace A x = (x / 4096 % 12, x / 4096 / 12 * 4096 + x % 4096) := if_pos h

theorem hbmPlace_high (A x i k b : Nat) (hi : (1536 - 4 * A) * 2 ^ 30 = i) (hk : A * 2 ^ 30 = k)
    (hb : (128 * 2 ^ 30 - A / 3 * 2 ^ 30) / 4096 = b) (h : ¬ x < i) :
    hbmPlace A x =
      (3 * ((x - i) / k) + (x - i - (x - i) / k * k) / 4096 % 3, (b + (x - i - (x - i) / k * k) / 4096 / 3) * 4096 + x % 4096) := by
  subst hi hk hb; exact if_neg h

/-- A line lies within one unit of interleaving. -/
theorem line_in_page {y d : Nat} (hy : y % 64 = 0) (hd : d < 64) : (y + d) / 4096 = y / 4096 := by omega

theorem line_within {y d k : Nat} (hy : y % 64 = 0) (hk : k % 64 = 0) (hd : d < 64) : y + d < k ↔ y < k := by omega

theorem mul_mod_64 (a : Nat) : a * 2 ^ 30 % 64 = 0 := by
  have : a * 2 ^ 30 = a * 2 ^ 24 * 64 := by ring
  rw [this]; exact Nat.mul_mod_left _ _

theorem line_quotient (y d k : Nat) (hy : y % 64 = 0) (hk : k % 64 = 0) (hd : d < 64) : (y + d) / k = y / k := by
  obtain ⟨j, rfl⟩ : ∃ j, k = 64 * j := ⟨k / 64, by omega⟩
  rw [← Nat.div_div_eq_div_mul, ← Nat.div_div_eq_div_mul]
  congr 1; omega

/-- The place of a byte of a line in its stack. -/
theorem hbmPlace_line (A a d : Nat) (ha : a % 64 = 0) (hd : d < 64) :
    hbmPlace A (a + d) = ((hbmPlace A a).1, (hbmPlace A a).2 + d) := by
  have hi := mul_mod_64 (1536 - 4 * A)
  have hk := mul_mod_64 A
  have e2 : (a + d) % 4096 = a % 4096 + d := by omega
  by_cases h : a < (1536 - 4 * A) * 2 ^ 30
  · rw [hbmPlace_low A a h, hbmPlace_low A (a + d) ((line_within ha hi hd).mpr h), line_in_page ha hd, e2]
    simp only [Nat.add_assoc]
  · obtain ⟨i, ei⟩ : ∃ i, (1536 - 4 * A) * 2 ^ 30 = i := ⟨_, rfl⟩
    obtain ⟨k, ek⟩ : ∃ k, A * 2 ^ 30 = k := ⟨_, rfl⟩
    rw [ei] at h hi
    rw [ek] at hk
    rw [hbmPlace_high A a i k _ ei ek rfl h, hbmPlace_high A (a + d) i k _ ei ek rfl (fun c => h ((line_within ha hi hd).mp c))]
    have hs : a + d - i = a - i + d := by omega
    have hx : (a - i) % 64 = 0 := by omega
    rw [hs, e2]
    generalize a - i = x at *
    rw [line_quotient x d k hx hk hd]
    have e4 : x / k * k ≤ x := Nat.div_mul_le_self _ _
    have e5 : x / k * k % 64 = 0 := by
      obtain ⟨j, rfl⟩ : ∃ j, k = 64 * j := ⟨k / 64, by omega⟩
      rw [Nat.mul_left_comm]; exact Nat.mul_mod_right _ _
    generalize x / k = q at *
    generalize q * k = y at *
    have e6 : (x + d - y) / 4096 = (x - y) / 4096 := by
      have : x + d - y = x - y + d := by omega
      rw [this]; exact line_in_page (by omega) hd
    rw [e6]
    simp only [Nat.add_assoc]

/-- The bytes of a line lie side by side. -/
theorem storage_line (A a d : Nat) (ha : a % 64 = 0) (hd : d < 64) : storage A (a + d) = storage A a + d := by
  by_cases h : a < 0x018000000000
  · rw [storage_hbm A a h, storage_hbm A (a + d) ((line_within ha (by decide) hd).mpr h), hbmPlace_line A a d ha hd]
    generalize hbmPlace A a = p
    obtain ⟨x, y⟩ := p
    generalize 2 ^ 37 = k
    simp only [Nat.add_assoc]
  · rw [storage_own A a h, storage_own A (a + d) (fun c => h ((line_within ha (by decide) hd).mp c))]

/-! ### Waking a bank, reading and writing a line (R231, R232, R236) -/

namespace State

@[simp] theorem mem_setBankState (s : State) (a v : Nat) : (s.setBankState a v).mem = s.mem := by
  unfold setBankState; split <;> rfl

@[simp] theorem hbmAffinity_setBankState (s : State) (a v : Nat) : (s.setBankState a v).hbmAffinity = s.hbmAffinity := by
  unfold setBankState; split <;> rfl

/-- Waking a bank leaves memory as it is, or zeroes the bank when it was off. -/
theorem mem_wakeBank (s : State) (a master : Nat) :
    (s.wakeBank a master).mem = s.mem ∨
      (s.bankState a = 2 ∧
        (s.wakeBank a master).mem = s.mem.filter fun x => x.1 < (bankRange a).1 || (bankRange a).1 + (bankRange a).2 ≤ x.1) := by
  unfold wakeBank
  split
  · exact .inl (mem_setBankState _ _ _)
  · rename_i h _; exact .inr ⟨h, by simp [zeroRange]⟩
  · rename_i h _; exact .inr ⟨h, by simp [zeroRange]⟩
  · exact .inl rfl

theorem wf_wakeBank (s : State) (a master : Nat) (h : Memory.wf s.mem = true) : Memory.wf (s.wakeBank a master).mem = true := by
  rcases mem_wakeBank s a master with e | ⟨_, e⟩
  · rw [e]; exact h
  · rw [e]; exact wf_filter _ _ h

@[simp] theorem hbmAffinity_wakeBank (s : State) (a master : Nat) : (s.wakeBank a master).hbmAffinity = s.hbmAffinity := by
  unfold wakeBank; split <;> first | rfl | simp [zeroRange]

/-! ### Increments on their way (R55) -/

theorem mem_incFlag (s : State) (n k : Nat) (a : W32) : (s.incFlag n k a).mem = s.mem := by
  unfold incFlag; split <;> rfl

theorem hbmAffinity_incFlag (s : State) (n k : Nat) (a : W32) : (s.incFlag n k a).hbmAffinity = s.hbmAffinity := by
  unfold incFlag; split <;> rfl

/-- Increments in a row leave what one leaves. -/
theorem keeps_incFlags {α β : Type} (l : List α) (g : State → β) (n k : α → Nat) (a : α → W32)
    (hg : ∀ s n k a, g (incFlag s n k a) = g s) (s : State) :
    g (l.foldl (fun s p => s.incFlag (n p) (k p) (a p)) s) = g s := by
  induction l generalizing s with
  | nil => rfl
  | cons p l ih => exact (ih _).trans (hg s _ _ _)

theorem mem_flushArrivals (s : State) (n k : Nat) : (s.flushArrivals n k).mem = s.mem := by
  unfold flushArrivals; dsimp only; split
  · rfl
  · exact keeps_incFlags _ State.mem _ _ _ mem_incFlag _

theorem mem_flushSignals (s : State) (n k : Nat) : (s.flushSignals n k).mem = s.mem := by
  unfold flushSignals; dsimp only; split
  · rfl
  · exact keeps_incFlags _ State.mem _ _ _ mem_incFlag _

/-- What is on its way before a write changes no byte of memory. -/
theorem mem_flushFor (s : State) (a master : Nat) : (s.flushFor a master).mem = s.mem := by
  unfold flushFor; split
  · split
    · exact (mem_flushSignals _ _ _).trans (mem_flushArrivals _ _ _)
    · rfl
  · rfl

@[simp] theorem mem_countErr (s : State) (a ce ue : Nat) : (s.countErr a ce ue).mem = s.mem := by
  unfold countErr; split
  · rfl
  · split <;> rfl

@[simp] theorem mem_readLine (s : State) (a master : Nat) : (s.readLine a master).2.mem = (s.wakeBank a master).mem :=
  mem_countErr _ _ _ _

@[simp] theorem mem_takeFlip (s : State) (a : Nat) : (s.takeFlip a).2.mem = s.mem := by
  unfold takeFlip; split
  · dsimp only; split <;> rfl
  · dsimp only; split <;> rfl
  · dsimp only; split <;> rfl
  · rfl

@[simp] theorem mem_dropCodeCache (s : State) (a : Nat) : (s.dropCodeCache a).mem = s.mem := by
  unfold dropCodeCache; split <;> rfl

/-- A line stored is its 64 bytes at its place. -/
theorem mem_putLine (s : State) (a : Nat) (l : List Byte) :
    (s.putLine a l).mem = memPutAll s.mem (storage s.hbmAffinity a) (bytesAt l 0 64) := by
  unfold putLine
  dsimp only
  have h : (s.takeFlip a).2.mem = s.mem := mem_takeFlip s a
  have key : ∀ u : State, (if a < 0x018000000000 then u.dropCodeCache a else u).mem = u.mem := by
    intro u; split
    · exact mem_dropCodeCache u a
    · rfl
  rw [key]
  split <;> simp

theorem wf_putLine (s : State) (a : Nat) (l : List Byte) (h : Memory.wf s.mem = true) : Memory.wf (s.putLine a l).mem = true := by
  rw [mem_putLine]; exact wf_memPutAll _ _ _ h

theorem wf_writeLine (s : State) (a master : Nat) (l : List Byte) (h : Memory.wf s.mem = true) :
    Memory.wf (s.writeLine a l master).mem = true := by
  have hf : Memory.wf (s.flushFor a master).mem = true := by rw [mem_flushFor]; exact h
  unfold writeLine; dsimp only; split
  · exact hf
  · exact wf_putLine _ _ _ (wf_wakeBank _ a master hf)

theorem wf_readLine (s : State) (a master : Nat) (h : Memory.wf s.mem = true) : Memory.wf (s.readLine a master).2.mem = true := by
  rw [mem_readLine]; exact wf_wakeBank s a master h

theorem wf_zeroRange (s : State) (base n : Nat) (h : Memory.wf s.mem = true) : Memory.wf (s.zeroRange base n).mem = true :=
  wf_filter _ _ h

end State

end Sys2Proof.Machine
end

