-- ==== Sys2Proof/Laws/Kept.lean ====
section
/-! SUPPORT. What every step keeps: the queue of waiting commands, which no command touches, and the canonical form of memory. How the
property passes through updates, folds and the work of engines; the files Kept* beside this one say it of every operation. -/

namespace Sys2Proof.Machine

/-- From s to t the queue of commands stands, and memory keeps its canonical form. -/
structure State.Kept (s t : State) : Prop where
  pending : t.pending = s.pending
  mem : Memory.wf s.mem = true → Memory.wf t.mem = true

theorem kept_refl (s : State) : s.Kept s := ⟨rfl, id⟩

theorem kept_trans {s t u : State} (h : s.Kept t) (k : t.Kept u) : s.Kept u := ⟨k.pending.trans h.pending, k.mem ∘ h.mem⟩

theorem kept_same {s₀ s t : State} (h : s₀.Kept s) (hp : t.pending = s.pending) (hm : t.mem = s.mem) : s₀.Kept t :=
  ⟨hp.trans h.pending, fun w => hm ▸ h.mem w⟩

theorem kept_mem {s₀ s t : State} (h : s₀.Kept s) (hp : t.pending = s.pending)
    (hm : Memory.wf s.mem = true → Memory.wf t.mem = true) : s₀.Kept t := ⟨hp.trans h.pending, hm ∘ h.mem⟩

/-- Only the queue and memory count. -/
theorem kept_mk {s₀ : State} {p m x2 x3 x4 x5 x6 x7 x8 x9 x10 x11 x12 x13 x14 x15 x16 x17 x18 x19 x20 x21 x22 x23 x24 x25 x26 x27 x28 x29 x30 x31 x32 x33 x34 x35 x36 x37} :
    s₀.Kept (State.mk p m x2 x3 x4 x5 x6 x7 x8 x9 x10 x11 x12 x13 x14 x15 x16 x17 x18 x19 x20 x21 x22 x23 x24 x25 x26 x27 x28 x29 x30 x31 x32 x33 x34 x35 x36 x37) ↔
      (p = s₀.pending ∧ (Memory.wf s₀.mem = true → Memory.wf m = true)) :=
  ⟨fun h => ⟨h.pending, h.mem⟩, fun h => ⟨h.1, h.2⟩⟩

theorem kept_fields {s₀ s : State} : (s.pending = s₀.pending ∧ (Memory.wf s₀.mem = true → Memory.wf s.mem = true)) ↔ s₀.Kept s :=
  ⟨fun h => ⟨h.1, h.2⟩, fun h => ⟨h.pending, h.mem⟩⟩

theorem kept_foldl {α : Type} {s₀ : State} {f : State → α → State} (hf : ∀ s a, s₀.Kept s → s₀.Kept (f s a)) (l : List α) :
    ∀ s : State, s₀.Kept s → s₀.Kept (l.foldl f s) := by
  induction l with
  | nil => exact fun _ h => h
  | cons a r ih => exact fun s h => ih _ (hf s a h)

theorem kept_foldl_fst {α β : Type} {s₀ : State} {f : State × β → α → State × β} (hf : ∀ x a, s₀.Kept x.1 → s₀.Kept (f x a).1) (l : List α) :
    ∀ x : State × β, s₀.Kept x.1 → s₀.Kept (l.foldl f x).1 := by
  induction l with
  | nil => exact fun _ h => h
  | cons a r ih => exact fun x h => ih _ (hf x a h)

theorem kept_foldl_snd {α β : Type} {s₀ : State} {f : β × State → α → β × State} (hf : ∀ x a, s₀.Kept x.2 → s₀.Kept (f x a).2) (l : List α) :
    ∀ x : β × State, s₀.Kept x.2 → s₀.Kept (l.foldl f x).2 := by
  induction l with
  | nil => exact fun _ h => h
  | cons a r ih => exact fun x h => ih _ (hf x a h)

theorem kept_foldr {α : Type} {s₀ : State} {f : α → State → State} (hf : ∀ a s, s₀.Kept s → s₀.Kept (f a s)) (l : List α)
    (s : State) (h : s₀.Kept s) : s₀.Kept (l.foldr f s) := by
  induction l with
  | nil => exact h
  | cons a r ih => exact hf a _ ih

theorem kept_fst {α : Type} {s₀ t : State} {x : State × α} {a : α} (e : x = (t, a)) (h : s₀.Kept x.1) : s₀.Kept t := by
  rw [e] at h; exact h

theorem kept_snd {α : Type} {s₀ t : State} {x : α × State} {a : α} (e : x = (a, t)) (h : s₀.Kept x.2) : s₀.Kept t := by
  rw [e] at h; exact h

theorem kept_id {s₀ t : State} (h : s₀.Kept t) : s₀.Kept (id t) := h

/-! ### Work -/

/-- The work m, begun in s, leaves a state that s₀ keeps to, whether it stops or not. -/
def KeptAt {α : Type} (s₀ s : State) (m : Work α) : Prop := s₀.Kept (m.run s).2

theorem keptAt_pure {α : Type} {s₀ s : State} (h : s₀.Kept s) (a : α) : KeptAt s₀ s (pure a) := h
theorem keptAt_stop {α : Type} {s₀ s : State} (h : s₀.Kept s) (st : Stop) : KeptAt s₀ s (stopWith st : Work α) := h

theorem keptAt_bind {α β : Type} {s₀ s : State} {m : Work α} {k : α → Work β} (hm : KeptAt s₀ s m)
    (hk : ∀ a t, s₀.Kept t → KeptAt s₀ t (k a)) : KeptAt s₀ s (m >>= k) := by
  unfold KeptAt at *
  show s₀.Kept (ExceptT.run (ExceptT.bind m k) s).2
  simp only [ExceptT.bind, ExceptT.run, ExceptT.mk, bind, StateT.bind]
  generalize hx : (m : StateM State (Except Stop α)) s = x at *
  simp only [ExceptT.run, hx] at hm
  obtain ⟨e, t⟩ := x
  cases e with
  | ok a => exact hk a t hm
  | error e => exact hm

theorem keptAt_get {β : Type} {s₀ s : State} {k : State → Work β} (hk : KeptAt s₀ s (k s)) : KeptAt s₀ s (get >>= k) := hk
theorem keptAt_set {s₀ s t : State} (h : s₀.Kept t) : KeptAt s₀ s (set t) := h
theorem keptAt_set_bind {β : Type} {s₀ s t : State} {k : PUnit → Work β} (h : KeptAt s₀ t (k ⟨⟩)) : KeptAt s₀ s (set t >>= k) := h
theorem keptAt_modify {s₀ s : State} {f : State → State} (h : s₀.Kept (f s)) : KeptAt s₀ s (modify f) := h
theorem keptAt_modifyGet {α : Type} {s₀ s : State} {f : State → α × State} (h : s₀.Kept (f s).2) : KeptAt s₀ s (modifyGet f) := h

theorem keptAt_ite {α : Type} {s₀ s : State} {c : Prop} [Decidable c] {a b : Work α} (ha : c → KeptAt s₀ s a) (hb : ¬ c → KeptAt s₀ s b) :
    KeptAt s₀ s (if c then a else b) := by
  split
  · exact ha ‹_›
  · exact hb ‹_›

theorem keptAt_map {α β : Type} {s₀ s : State} {m : Work α} {f : α → β} (h : KeptAt s₀ s m) : KeptAt s₀ s (f <$> m) :=
  keptAt_bind (k := fun a => pure (f a)) h fun a _ ht => keptAt_pure ht (f a)

theorem keptAt_forM {α : Type} {s₀ : State} {f : α → Work PUnit} (hf : ∀ a t, s₀.Kept t → KeptAt s₀ t (f a)) :
    ∀ (l : List α) {s : State}, s₀.Kept s → KeptAt s₀ s (l.forM f)
  | [], _, h => h
  | a :: r, s, h => keptAt_bind (hf a s h) fun _ _ ht => keptAt_forM hf r ht

theorem keptAt_foldlM {α β : Type} {s₀ : State} {f : β → α → Work β} (hf : ∀ b a t, s₀.Kept t → KeptAt s₀ t (f b a)) :
    ∀ (l : List α) (b : β) {s : State}, s₀.Kept s → KeptAt s₀ s (l.foldlM f b)
  | [], _, _, h => h
  | a :: r, b, s, h => keptAt_bind (hf b a s h) fun c _ ht => keptAt_foldlM hf r c ht

theorem keptAt_mapM {α β : Type} {s₀ : State} {f : α → Work β} (hf : ∀ a t, s₀.Kept t → KeptAt s₀ t (f a)) (l : List α) :
    ∀ {s : State}, s₀.Kept s → KeptAt s₀ s (l.mapM f) := by
  induction l with
  | nil => intro s h; rw [List.mapM_nil]; exact h
  | cons a r ih =>
    intro s h
    rw [List.mapM_cons]
    exact keptAt_bind (hf a s h) fun b t ht => keptAt_bind (ih ht) fun c u hu => hu

/-! ### Outcomes -/

/-- The command answers a next state that s₀ keeps to. -/
def KeptOut (s₀ : State) (o : Out) : Prop := ∃ t, o = .next t ∧ s₀.Kept t

/-- If the command answers a next state, s₀ keeps to it. -/
def KeptIf (s₀ : State) (o : Out) : Prop := ∀ t, o = .next t → s₀.Kept t

/-- The effect of an instruction at issue leaves a state that s₀ keeps to, whether it halts or not. -/
def KeptEx (s₀ : State) : Except (Stop × State) State → Prop
  | .ok t => s₀.Kept t
  | .error x => s₀.Kept x.2

theorem keptOut_next {s₀ t : State} (h : s₀.Kept t) : KeptOut s₀ (.next t) := ⟨t, rfl, h⟩

theorem keptIf_next {s₀ t : State} (h : s₀.Kept t) : KeptIf s₀ (.next t) := by
  intro u e
  injection e with e
  exact e ▸ h

theorem keptIf_refused {s₀ : State} (r : Refusal) : KeptIf s₀ (.refused r) := by
  intro u e
  cases e

theorem keptOut_if {s₀ : State} {o : Out} (h : KeptOut s₀ o) : KeptIf s₀ o := by
  obtain ⟨t, rfl, h⟩ := h
  exact keptIf_next h

theorem keptEx_ok {s₀ t : State} (h : s₀.Kept t) : KeptEx s₀ (.ok t) := h
theorem keptEx_error {s₀ t : State} {st : Stop} (h : s₀.Kept t) : KeptEx s₀ (.error (st, t)) := h

end Sys2Proof.Machine
end

