-- ==== Sys2Proof/Laws/KeptOps.lean ====
section
/-! SUPPORT. The queue and the form of memory stand (State.Kept): the shared operations on State, operands, flags and the issue stage. -/

namespace Sys2Proof.Machine

open State

theorem kept_setCore {s₀ : State} (s : State) (n : ℕ) (c : Core) (hs : s₀.Kept s) :
  s₀.Kept (State.setCore s n c) := by
  unfold State.setCore
  try dsimp only
  repeat' first
    | with_reducible assumption | (refine kept_fst (by with_reducible assumption) ?_) | (refine kept_snd (by with_reducible assumption) ?_)
    | intro _ | (simp only [kept_mk, kept_fields])

theorem kept_modCore {s₀ : State} (s : State) (n : ℕ) (f : Core → Core) (hs : s₀.Kept s) :
  s₀.Kept (State.modCore s n f) := by
  unfold State.modCore
  try dsimp only
  repeat' first
    | with_reducible assumption | with_reducible apply kept_setCore

theorem kept_setCourse {s₀ : State} (s : State) (c : ℕ) (x : Course) (hs : s₀.Kept s) :
  s₀.Kept (State.setCourse s c x) := by
  unfold State.setCourse
  try dsimp only
  repeat' first
    | with_reducible assumption | (refine kept_fst (by with_reducible assumption) ?_) | (refine kept_snd (by with_reducible assumption) ?_)
    | intro _ | (simp only [kept_mk, kept_fields])

theorem kept_modCourse {s₀ : State} (s : State) (c : ℕ) (f : Course → Course) (hs : s₀.Kept s) :
  s₀.Kept (State.modCourse s c f) := by
  unfold State.modCourse
  try dsimp only
  repeat' first
    | with_reducible assumption | with_reducible apply kept_setCourse

theorem kept_modSlope {s₀ : State} (s : State) (k : ℕ) (f : Slope → Slope) (hs : s₀.Kept s) :
  s₀.Kept (State.modSlope s k f) := by
  unfold State.modSlope
  try dsimp only
  repeat' first
    | with_reducible assumption | (refine kept_fst (by with_reducible assumption) ?_) | (refine kept_snd (by with_reducible assumption) ?_)
    | intro _ | (simp only [kept_mk, kept_fields])

theorem kept_modPort {s₀ : State} (s : State) (p : ℕ) (f : Port → Port) (hs : s₀.Kept s) :
  s₀.Kept (State.modPort s p f) := by
  unfold State.modPort
  try dsimp only
  repeat' first
    | with_reducible assumption | (refine kept_fst (by with_reducible assumption) ?_) | (refine kept_snd (by with_reducible assumption) ?_)
    | intro _ | (simp only [kept_mk, kept_fields])

theorem kept_modStack {s₀ : State} (s : State) (k : ℕ) (f : Stack → Stack) (hs : s₀.Kept s) :
  s₀.Kept (State.modStack s k f) := by
  unfold State.modStack
  try dsimp only
  repeat' first
    | with_reducible assumption | (refine kept_fst (by with_reducible assumption) ?_) | (refine kept_snd (by with_reducible assumption) ?_)
    | intro _ | (simp only [kept_mk, kept_fields])

theorem kept_modColl {s₀ : State} (s : State) (k : ℕ) (f : Coll → Coll) (hs : s₀.Kept s) :
  s₀.Kept (State.modColl s k f) := by
  unfold State.modColl
  try dsimp only
  repeat' first
    | with_reducible assumption | (refine kept_fst (by with_reducible assumption) ?_) | (refine kept_snd (by with_reducible assumption) ?_)
    | intro _ | (simp only [kept_mk, kept_fields])

theorem kept_draw {s₀ : State} (s : State) (hs : s₀.Kept s) :
  s₀.Kept (State.draw s).2 := by
  unfold State.draw
  try dsimp only
  repeat' first
    | with_reducible assumption | (refine kept_fst (by with_reducible assumption) ?_) | (refine kept_snd (by with_reducible assumption) ?_)
    | intro _ | (simp only [kept_mk, kept_fields])

theorem kept_modCtx {s₀ : State} (s : State) (n : ℕ) (t : Stream) (f : StreamCtx → StreamCtx) (hs : s₀.Kept s) :
  s₀.Kept (State.modCtx s n t f) := by
  unfold State.modCtx
  try dsimp only
  repeat' first
    | with_reducible assumption | with_reducible apply kept_modCore

theorem kept_setSreg {s₀ : State} (s : State) (n : ℕ) (t : Stream) (k : ℕ) (v : Word) (hs : s₀.Kept s) :
  s₀.Kept (State.setSreg s n t k v) := by
  unfold State.setSreg
  try dsimp only
  repeat' first
    | with_reducible assumption | with_reducible apply kept_modCtx

theorem kept_raise {s₀ : State} (s : State) (code : ℕ) (kind : ℕ) (source : ℕ) (fields : List (ℕ × ℕ)) (hs : s₀.Kept s) :
  s₀.Kept (State.raise s code kind source fields) := by
  unfold State.raise
  try dsimp only
  repeat' first
    | with_reducible assumption | (refine kept_fst (by with_reducible assumption) ?_) | (refine kept_snd (by with_reducible assumption) ?_)
    | intro _ | (simp only [kept_mk, kept_fields])

theorem kept_countErr {s₀ : State} (s : State) (a : ℕ) (ce : ℕ) (ue : ℕ) (hs : s₀.Kept s) :
  s₀.Kept (State.countErr s a ce ue) := by
  unfold State.countErr
  try dsimp only
  repeat' first
    | with_reducible assumption | with_reducible apply kept_modCore | with_reducible apply kept_modCourse
    | with_reducible apply kept_modStack | (refine kept_fst (by with_reducible assumption) ?_)
    | (refine kept_snd (by with_reducible assumption) ?_) | split

theorem kept_zeroRange {s₀ : State} (s : State) (base : ℕ) (bytes : ℕ) (hs : s₀.Kept s) :
  s₀.Kept (State.zeroRange s base bytes) := by
  unfold State.zeroRange
  exact kept_mem hs rfl fun w => wf_filter _ _ w

theorem kept_setBankState {s₀ : State} (s : State) (a : ℕ) (v : ℕ) (hs : s₀.Kept s) :
  s₀.Kept (State.setBankState s a v) := by
  unfold State.setBankState
  try dsimp only
  repeat' first
    | with_reducible assumption | with_reducible apply kept_modCore | with_reducible apply kept_modCourse
    | (refine kept_fst (by with_reducible assumption) ?_) | (refine kept_snd (by with_reducible assumption) ?_) | split

theorem kept_wakeBank {s₀ : State} (s : State) (a : ℕ) (master : ℕ) (hs : s₀.Kept s) :
  s₀.Kept (State.wakeBank s a master) := by
  unfold State.wakeBank
  try dsimp only
  repeat' first
    | with_reducible assumption | with_reducible apply kept_zeroRange | with_reducible apply kept_setBankState
    | with_reducible apply kept_raise | (refine kept_fst (by with_reducible assumption) ?_)
    | (refine kept_snd (by with_reducible assumption) ?_) | split

theorem kept_readLine {s₀ : State} (s : State) (a : ℕ) (master : ℕ) (hs : s₀.Kept s) :
  s₀.Kept (State.readLine s a master).2 := by
  unfold State.readLine
  try dsimp only
  repeat' first
    | with_reducible assumption | with_reducible apply kept_countErr | with_reducible apply kept_wakeBank

theorem kept_raiseUe {s₀ : State} (s : State) (a : ℕ) (master : ℕ) (hs : s₀.Kept s) :
  s₀.Kept (State.raiseUe s a master) := by
  unfold State.raiseUe
  try dsimp only
  repeat' first
    | with_reducible assumption | with_reducible apply kept_raise | (refine kept_fst (by with_reducible assumption) ?_)
    | (refine kept_snd (by with_reducible assumption) ?_) | split

theorem kept_retireRegion {s₀ : State} (s : State) (r : ℕ) (hs : s₀.Kept s) :
  s₀.Kept (State.retireRegion s r) := by
  unfold State.retireRegion
  try dsimp only
  repeat' first
    | with_reducible assumption | (refine kept_fst (by with_reducible assumption) ?_) | (refine kept_snd (by with_reducible assumption) ?_)
    | intro _ | (simp only [kept_mk, kept_fields])

theorem kept_settleCode {s₀ : State} (before : State) (s : State) (n : ℕ) (hs : s₀.Kept s) :
  s₀.Kept (State.settleCode before s n) := by
  unfold State.settleCode
  try dsimp only
  repeat' first
    | with_reducible assumption | with_reducible apply kept_modCore | with_reducible apply kept_retireRegion
    | with_reducible apply kept_foldl_fst | with_reducible apply kept_foldl_snd | with_reducible apply kept_foldl
    | (refine kept_fst (by with_reducible assumption) ?_) | (refine kept_snd (by with_reducible assumption) ?_) | split | intro _

theorem kept_dropCodeCache {s₀ : State} (s : State) (a : ℕ) (hs : s₀.Kept s) :
  s₀.Kept (State.dropCodeCache s a) := by
  unfold State.dropCodeCache
  try dsimp only
  repeat' first
    | with_reducible assumption | (refine kept_fst (by with_reducible assumption) ?_) | (refine kept_snd (by with_reducible assumption) ?_)
    | split | intro _ | (simp only [kept_mk, kept_fields])

theorem kept_takeFlip {s₀ : State} (s : State) (a : ℕ) (hs : s₀.Kept s) :
  s₀.Kept (State.takeFlip s a).2 := by
  unfold State.takeFlip
  try dsimp only
  repeat' first
    | with_reducible assumption | with_reducible apply kept_modCore | with_reducible apply kept_modCourse
    | with_reducible apply kept_modStack | (refine kept_fst (by with_reducible assumption) ?_)
    | (refine kept_snd (by with_reducible assumption) ?_) | split

theorem kept_putLine {s₀ : State} (s : State) (a : ℕ) (data : List Byte) (hs : s₀.Kept s) :
  s₀.Kept (State.putLine s a data) := by
  unfold State.putLine
  dsimp only
  have hx : ∀ e, s₀.Kept { (s.takeFlip a).2 with mem := memPutAll (s.takeFlip a).2.mem (storage s.hbmAffinity a) (bytesAt data 0 64), memErr := e } :=
    fun e => kept_mk.2 ⟨(kept_takeFlip s a hs).pending, fun w => wf_memPutAll _ _ _ ((kept_takeFlip s a hs).mem w)⟩
  repeat' first
    | with_reducible apply hx
    | with_reducible apply kept_dropCodeCache
    | with_reducible apply kept_modStack
    | with_reducible apply kept_modCourse
    | with_reducible apply kept_modCore
    | split

theorem kept_incFlag {s₀ : State} (s : State) (n : ℕ) (k : ℕ) (amount : W32) (hs : s₀.Kept s) :
  s₀.Kept (State.incFlag s n k amount) := by
  unfold State.incFlag
  try dsimp only
  repeat' first
    | with_reducible assumption | with_reducible apply kept_modCore | (refine kept_fst (by with_reducible assumption) ?_)
    | (refine kept_snd (by with_reducible assumption) ?_) | split | intro _ | (simp only [kept_mk, kept_fields])

theorem kept_flushArrivals {s₀ : State} (s : State) (n : ℕ) (k : ℕ) (hs : s₀.Kept s) :
  s₀.Kept (State.flushArrivals s n k) := by
  unfold State.flushArrivals
  try dsimp only
  repeat' first
    | with_reducible assumption | with_reducible apply kept_modCore | with_reducible apply kept_incFlag
    | with_reducible apply kept_foldl_fst | with_reducible apply kept_foldl_snd | with_reducible apply kept_foldl
    | (refine kept_fst (by with_reducible assumption) ?_) | (refine kept_snd (by with_reducible assumption) ?_) | split | intro _

theorem kept_flushSignals {s₀ : State} (s : State) (n : ℕ) (k : ℕ) (hs : s₀.Kept s) :
  s₀.Kept (State.flushSignals s n k) := by
  unfold State.flushSignals
  try dsimp only
  repeat' first
    | with_reducible assumption | with_reducible apply kept_modCore | with_reducible apply kept_incFlag
    | with_reducible apply kept_foldl_fst | with_reducible apply kept_foldl_snd | with_reducible apply kept_foldl
    | (refine kept_fst (by with_reducible assumption) ?_) | (refine kept_snd (by with_reducible assumption) ?_) | split | intro _

theorem kept_flushPath {s₀ : State} (s : State) (n : ℕ) (k : ℕ) (hs : s₀.Kept s) :
  s₀.Kept (State.flushPath s n k) := by
  unfold State.flushPath
  try dsimp only
  repeat' first
    | with_reducible assumption | with_reducible apply kept_flushArrivals | with_reducible apply kept_flushSignals

theorem kept_flushFor {s₀ : State} (s : State) (a : ℕ) (master : ℕ) (hs : s₀.Kept s) :
  s₀.Kept (State.flushFor s a master) := by
  unfold State.flushFor
  try dsimp only
  repeat' first
    | with_reducible assumption | with_reducible apply kept_flushPath | (refine kept_fst (by with_reducible assumption) ?_)
    | (refine kept_snd (by with_reducible assumption) ?_) | split

theorem kept_writeLine {s₀ : State} (s : State) (a : ℕ) (data : List Byte) (master : ℕ) (hs : s₀.Kept s) :
  s₀.Kept (State.writeLine s a data master) := by
  unfold State.writeLine
  try dsimp only
  repeat' first
    | with_reducible assumption | with_reducible apply kept_putLine | with_reducible apply kept_wakeBank
    | with_reducible apply kept_flushFor | (refine kept_fst (by with_reducible assumption) ?_)
    | (refine kept_snd (by with_reducible assumption) ?_) | split | intro _ | (simp only [kept_mk, kept_fields])

theorem kept_jobMove {s₀ : State} (s : State) (target : JobState) (cause : ℕ) (hs : s₀.Kept s) :
  s₀.Kept (State.jobMove s target cause) := by
  unfold State.jobMove
  try dsimp only
  repeat' first
    | with_reducible assumption | with_reducible apply kept_raise | (refine kept_fst (by with_reducible assumption) ?_)
    | (refine kept_snd (by with_reducible assumption) ?_) | intro _ | (simp only [kept_mk, kept_fields])

theorem kept_haltCore {s₀ : State} (s : State) (n : ℕ) (at_ : HaltAt) (st : Stop) (hs : s₀.Kept s) :
  s₀.Kept (State.haltCore s n at_ st) := by
  unfold State.haltCore
  try dsimp only
  repeat' first
    | with_reducible assumption | with_reducible apply kept_setCore | with_reducible apply kept_jobMove
    | (refine kept_fst (by with_reducible assumption) ?_) | (refine kept_snd (by with_reducible assumption) ?_) | split | intro _
    | (simp only [kept_mk, kept_fields])

theorem kept_haltOp {s₀ : State} (s : State) (n : ℕ) (engine : ℕ) (o : EngOp) (st : Stop) (hs : s₀.Kept s) :
  s₀.Kept (State.haltOp s n engine o st) := by
  unfold State.haltOp
  try dsimp only
  repeat' first
    | with_reducible assumption | with_reducible apply kept_haltCore

theorem kept_undoWrites {s₀ : State} (before : State) (after : State) (hbefore : s₀.Kept before) (hafter : s₀.Kept after) :
  s₀.Kept (State.undoWrites before after) := by
  exact kept_mk.2 ⟨hafter.pending, hbefore.mem⟩

theorem kept_runWork {s₀ : State} (s : State) (n : ℕ) (engine : ℕ) (o : EngOp) (w : Work Unit) (after : State → State) (hs : s₀.Kept s)
    (hw : ∀ t, s₀.Kept t → KeptAt s₀ t w) (hafter : ∀ t , s₀.Kept t → s₀.Kept (after t )) :
  s₀.Kept (State.runWork s n engine o w after) := by
  have hx : s₀.Kept (w.run s).2 := hw s hs
  unfold State.runWork
  split
  · rename_i e
    rw [show (w.run s).2 = _ from congrArg Prod.snd e] at hx
    exact hafter _ hx
  · rename_i e
    rw [show (w.run s).2 = _ from congrArg Prod.snd e] at hx
    split
    · exact hs
    · apply kept_haltOp
      exact kept_mem hs (hx.pending.trans hs.pending.symm) id

theorem kept_runKeep {s₀ : State} (s : State) (n : ℕ) (engine : ℕ) (o : EngOp) (w : Work Unit) (after : State → State) (hs : s₀.Kept s)
    (hw : ∀ t, s₀.Kept t → KeptAt s₀ t w) (hafter : ∀ t , s₀.Kept t → s₀.Kept (after t )) :
  s₀.Kept (State.runKeep s n engine o w after) := by
  have hx : s₀.Kept (w.run s).2 := hw s hs
  unfold State.runKeep
  split
  · rename_i e
    rw [show (w.run s).2 = _ from congrArg Prod.snd e] at hx
    exact hafter _ hx
  · rename_i e
    rw [show (w.run s).2 = _ from congrArg Prod.snd e] at hx
    split
    · exact hs
    · exact kept_haltOp _ _ _ _ _ hx

theorem kept_coreRead {s₀ : State} (n : ℕ) (a : ℕ) {s : State} (hk : s₀.Kept s) :
  KeptAt s₀ s (coreRead n a) := by
  unfold coreRead
  try dsimp only
  repeat' first
    | with_reducible assumption | with_reducible apply keptAt_ite | with_reducible apply keptAt_get | with_reducible apply keptAt_set_bind
    | with_reducible apply keptAt_set | with_reducible apply kept_readLine | with_reducible apply keptAt_pure
    | with_reducible apply keptAt_stop | (refine kept_fst (by with_reducible assumption) ?_)
    | (refine kept_snd (by with_reducible assumption) ?_) | with_reducible apply keptAt_bind | split | intro _

theorem kept_coreWrite {s₀ : State} (n : ℕ) (a : ℕ) (data : List Byte) {s : State} (hk : s₀.Kept s) :
  KeptAt s₀ s (coreWrite n a data) := by
  unfold coreWrite
  try dsimp only
  repeat' first
    | with_reducible assumption | with_reducible apply keptAt_ite | with_reducible apply keptAt_get | with_reducible apply keptAt_set_bind
    | with_reducible apply keptAt_set | with_reducible apply kept_writeLine | with_reducible apply keptAt_pure
    | with_reducible apply keptAt_stop | (refine kept_fst (by with_reducible assumption) ?_)
    | (refine kept_snd (by with_reducible assumption) ?_) | with_reducible apply keptAt_bind | split | intro _

theorem kept_signal {s₀ : State} (s : State) (n : ℕ) (g : Sig) (hs : s₀.Kept s) :
  s₀.Kept (State.signal s n g) := by
  unfold State.signal
  try dsimp only
  repeat' first
    | with_reducible assumption | with_reducible apply kept_incFlag | (refine kept_fst (by with_reducible assumption) ?_)
    | (refine kept_snd (by with_reducible assumption) ?_) | split

theorem kept_joinPath {s₀ : State} (s : State) (n : Nat) (dst : Option Desc) (hs : s₀.Kept s) :
    s₀.Kept (State.joinPath s n dst) := by
  unfold State.joinPath
  try dsimp only
  repeat' first
    | with_reducible assumption
    | with_reducible apply kept_flushPath
    | with_reducible apply kept_foldl_fst | with_reducible apply kept_foldl_snd | with_reducible apply kept_foldl
    | (refine kept_fst (by with_reducible assumption) ?_) | (refine kept_snd (by with_reducible assumption) ?_) | split

theorem kept_completeSignal {s₀ : State} (s : State) (n : ℕ) (e : EngKind) (g : Sig) (dst : Option Desc) (hs : s₀.Kept s) :
  s₀.Kept (State.completeSignal s n e g dst) := by
  unfold State.completeSignal
  try dsimp only
  repeat' first
    | with_reducible assumption | with_reducible apply kept_joinPath | with_reducible apply kept_modCore | with_reducible apply kept_incFlag
    | (refine kept_fst (by with_reducible assumption) ?_) | (refine kept_snd (by with_reducible assumption) ?_) | split

theorem kept_deliverArrival {s₀ : State} (s : State) (n : ℕ) (e : EngKind) (hs : s₀.Kept s) :
  s₀.Kept (State.deliverArrival s n e) := by
  unfold State.deliverArrival
  try dsimp only
  repeat' first
    | with_reducible assumption | with_reducible apply kept_modCore | with_reducible apply kept_incFlag
    | with_reducible apply kept_foldl_fst | with_reducible apply kept_foldl_snd | with_reducible apply kept_foldl
    | (refine kept_fst (by with_reducible assumption) ?_) | (refine kept_snd (by with_reducible assumption) ?_) | split | intro _

theorem kept_readLines {s₀ : State} (n : ℕ) (x1 : List ℕ) {s : State} (hk : s₀.Kept s) :
  KeptAt s₀ s (readLines n x1) := by
  unfold readLines
  try dsimp only
  repeat' first
    | with_reducible assumption | with_reducible apply kept_coreRead | with_reducible apply kept_readLines
    | with_reducible apply keptAt_pure | (refine kept_fst (by with_reducible assumption) ?_)
    | (refine kept_snd (by with_reducible assumption) ?_) | with_reducible apply keptAt_bind | split | intro _

theorem kept_writeLines {s₀ : State} (n : ℕ) (x1 : List ℕ) (x2 : List Byte) {s : State} (hk : s₀.Kept s) :
  KeptAt s₀ s (writeLines n x1 x2) := by
  unfold writeLines
  try dsimp only
  repeat' first
    | with_reducible assumption | with_reducible apply kept_coreWrite | with_reducible apply kept_writeLines
    | with_reducible apply keptAt_pure | (refine kept_fst (by with_reducible assumption) ?_)
    | (refine kept_snd (by with_reducible assumption) ?_) | with_reducible apply keptAt_bind | split | intro _

theorem kept_readRow {s₀ : State} (n : ℕ) (d : Desc) (idx : List ℕ) {s : State} (hk : s₀.Kept s) :
  KeptAt s₀ s (readRow n d idx) := by
  unfold readRow
  try dsimp only
  repeat' first
    | with_reducible assumption | with_reducible apply kept_readLines | with_reducible apply keptAt_pure
    | (refine kept_fst (by with_reducible assumption) ?_) | (refine kept_snd (by with_reducible assumption) ?_)
    | with_reducible apply keptAt_bind | intro _

theorem kept_readCodes {s₀ : State} (n : ℕ) (d : Desc) (idx : List ℕ) {s : State} (hk : s₀.Kept s) :
  KeptAt s₀ s (readCodes n d idx) := by
  unfold readCodes
  try dsimp only
  repeat' first
    | with_reducible assumption | with_reducible apply kept_readLines | with_reducible apply keptAt_pure
    | (refine kept_fst (by with_reducible assumption) ?_) | (refine kept_snd (by with_reducible assumption) ?_)
    | with_reducible apply keptAt_bind | intro _

theorem kept_readRow32 {s₀ : State} (n : ℕ) (d : Desc) (idx : List ℕ) {s : State} (hk : s₀.Kept s) :
  KeptAt s₀ s (readRow32 n d idx) := by
  unfold readRow32
  try dsimp only
  repeat' first
    | with_reducible assumption | with_reducible apply kept_readRow | with_reducible apply keptAt_pure
    | (refine kept_fst (by with_reducible assumption) ?_) | (refine kept_snd (by with_reducible assumption) ?_)
    | with_reducible apply keptAt_bind | intro _

theorem kept_readScales {s₀ : State} (n : ℕ) (gl : ℕ) (x2 : ℕ) (x3 : List ℕ) {s : State} (hk : s₀.Kept s) :
  KeptAt s₀ s (readScales n gl x2 x3) := by
  unfold readScales
  try dsimp only
  repeat' first
    | with_reducible assumption | with_reducible apply keptAt_ite | with_reducible apply kept_coreRead
    | with_reducible apply kept_readScales | with_reducible apply keptAt_pure | (refine kept_fst (by with_reducible assumption) ?_)
    | (refine kept_snd (by with_reducible assumption) ?_) | with_reducible apply keptAt_bind | split | intro _

theorem kept_writeRow {s₀ : State} (n : ℕ) (d : Desc) (m : ConvMode) (idx : List ℕ) (vs : List FVal) {s : State} (hk : s₀.Kept s) :
  KeptAt s₀ s (writeRow n d m idx vs) := by
  unfold writeRow
  try dsimp only
  repeat' first
    | with_reducible assumption | with_reducible apply keptAt_ite | with_reducible apply keptAt_get | with_reducible apply keptAt_modify
    | with_reducible apply kept_modCore | with_reducible apply kept_readScales | with_reducible apply kept_writeLines
    | with_reducible apply keptAt_pure | (refine kept_fst (by with_reducible assumption) ?_)
    | (refine kept_snd (by with_reducible assumption) ?_) | with_reducible apply keptAt_bind | split | intro _

theorem kept_writeCodes {s₀ : State} (n : ℕ) (d : Desc) (idx : List ℕ) (cs : List ℕ) {s : State} (hk : s₀.Kept s) :
  KeptAt s₀ s (writeCodes n d idx cs) := by
  unfold writeCodes
  try dsimp only
  repeat' first
    | with_reducible assumption | with_reducible apply kept_writeLines | with_reducible apply keptAt_pure
    | (refine kept_fst (by with_reducible assumption) ?_) | (refine kept_snd (by with_reducible assumption) ?_)
    | with_reducible apply keptAt_bind | split

theorem kept_hold {s₀ : State} (s : State) (n : ℕ) (t : Stream) (w : Word128) (h : Hold) (hs : s₀.Kept s) :
  s₀.Kept (State.hold s n t w h) := by
  unfold State.hold
  try dsimp only
  repeat' first
    | with_reducible assumption | with_reducible apply kept_modCtx

theorem kept_miss {s₀ : State} (s : State) (n : ℕ) (t : Stream) (hs : s₀.Kept s) :
  s₀.Kept (State.miss s n t) := by
  unfold State.miss
  try dsimp only
  repeat' first
    | with_reducible assumption | with_reducible apply kept_hold | with_reducible apply kept_modCtx

theorem kept_retire {s₀ : State} (s : State) (n : ℕ) (t : Stream) (hs : s₀.Kept s) :
  s₀.Kept (State.retire s n t) := by
  unfold State.retire
  try dsimp only
  repeat' first
    | with_reducible assumption | with_reducible apply kept_hold | with_reducible apply kept_modCtx | with_reducible apply kept_modCore

theorem kept_haltIssue {s₀ : State} (s : State) (n : ℕ) (engine : ℕ) (t : Stream) (st : Stop) (hs : s₀.Kept s) :
  s₀.Kept (State.haltIssue s n engine t st) := by
  unfold State.haltIssue
  try dsimp only
  repeat' first
    | with_reducible assumption | with_reducible apply kept_haltCore

theorem kept_issue {s₀ : State} (s : State) (n : ℕ) (t : Stream) (w : Word128) (r : IssueReq) (eff : State → Except
    (Stop × State) State) (hs : s₀.Kept s) (heff : ∀ t, s₀.Kept t → KeptEx s₀ (eff t)) :
  KeptIf s₀ (State.issue s n t w r eff) := by
  have hr : s₀.Kept (s.retire n t) := kept_retire s n t hs
  unfold State.issue
  dsimp only
  split
  · exact keptIf_refused _
  split
  · exact keptIf_next hs
  split
  · exact keptIf_next (kept_miss _ _ _ hs)
  split
  · exact keptIf_next (kept_hold _ _ _ _ _ hs)
  split
  · exact keptIf_next (kept_hold _ _ _ _ _ hs)
  split
  · exact keptIf_next hs
  split
  · exact keptIf_next (kept_haltIssue _ _ _ _ _ hs)
  have he := heff _ hr
  split
  · rename_i e
    rw [e] at he
    apply keptIf_next
    split
    · exact kept_signal _ _ _ he
    · exact he
  · rename_i e
    rw [e] at he
    exact keptIf_next (kept_haltCore _ _ _ _ he)

theorem kept_issueEngine {s₀ : State} (s : State) (n : ℕ) (t : Stream) (w : Word128) (e : EngKind) (r : IssueReq) (regs : List ℕ)
    (upd : State → State) (hs : s₀.Kept s) (hupd : ∀ t , s₀.Kept t → s₀.Kept (upd t )) :
  KeptIf s₀ (State.issueEngine s n t w e r regs upd) := by
  unfold State.issueEngine
  try dsimp only
  repeat' first
    | with_reducible assumption | with_reducible apply kept_id | with_reducible apply keptIf_next | exact keptIf_refused _ | (with_reducible apply keptEx_ok)
    | with_reducible apply hupd | with_reducible apply kept_issue | with_reducible apply kept_modCore
    | (refine kept_fst (by with_reducible assumption) ?_) | (refine kept_snd (by with_reducible assumption) ?_)
    | with_reducible apply keptEx_ok | intro _

end Sys2Proof.Machine
end

