-- ==== Sys2Proof/Laws/KeptVector.lean ====
section
/-! SUPPORT. The queue and the form of memory stand (State.Kept): the vector engine and the optimizer. -/

namespace Sys2Proof.Machine

open State

theorem kept_ve1 {s₀ : State} (opcode : ℕ) (c : CoreId) (t : Stream) (w : Word128) (s : State) (used : ℕ) (hs : s₀.Kept s) :
  KeptIf s₀ (ve1 opcode c t w s used) := by
  unfold ve1
  try dsimp only
  repeat' first
    | with_reducible assumption | with_reducible apply keptIf_next | exact keptIf_refused _ | with_reducible apply kept_issueEngine
    | with_reducible apply kept_id

theorem kept_ve2 {s₀ : State} (opcode : ℕ) (c : CoreId) (t : Stream) (w : Word128) (s : State) (hs : s₀.Kept s) :
  KeptIf s₀ (ve2 opcode c t w s) := by
  unfold ve2
  try dsimp only
  repeat' first
    | with_reducible assumption | with_reducible apply keptIf_next | exact keptIf_refused _ | with_reducible apply kept_issueEngine
    | with_reducible apply kept_id

theorem kept_ve3 {s₀ : State} (opcode : ℕ) (mask : Byte → Bool) (c : CoreId) (t : Stream) (w : Word128) (s : State) (hs : s₀.Kept s) :
  KeptIf s₀ (ve3 opcode mask c t w s) := by
  unfold ve3
  try dsimp only
  repeat' first
    | with_reducible assumption | with_reducible apply keptIf_next | exact keptIf_refused _ | with_reducible apply kept_issueEngine
    | with_reducible apply kept_id

theorem kept_veReduce {s₀ : State} (opcode : ℕ) (size0 : ℕ) (c : CoreId) (t : Stream) (w : Word128) (s : State) (hs : s₀.Kept s) :
  KeptIf s₀ (veReduce opcode size0 c t w s) := by
  unfold veReduce
  try dsimp only
  repeat' first
    | with_reducible assumption | with_reducible apply keptIf_next | exact keptIf_refused _ | with_reducible apply kept_issueEngine
    | with_reducible apply kept_id

theorem kept_execVeAdd {s₀ : State} (c : CoreId) (t : Stream) (w : Word128) (s : State) (hs : s₀.Kept s) :
  KeptIf s₀ (execVeAdd c t w s) := by
  unfold execVeAdd
  try dsimp only
  repeat' first
    | with_reducible assumption | with_reducible apply keptIf_next | exact keptIf_refused _ | with_reducible apply kept_ve2

theorem kept_execVeSub {s₀ : State} (c : CoreId) (t : Stream) (w : Word128) (s : State) (hs : s₀.Kept s) :
  KeptIf s₀ (execVeSub c t w s) := by
  unfold execVeSub
  try dsimp only
  repeat' first
    | with_reducible assumption | with_reducible apply keptIf_next | exact keptIf_refused _ | with_reducible apply kept_ve2

theorem kept_execVeMul {s₀ : State} (c : CoreId) (t : Stream) (w : Word128) (s : State) (hs : s₀.Kept s) :
  KeptIf s₀ (execVeMul c t w s) := by
  unfold execVeMul
  try dsimp only
  repeat' first
    | with_reducible assumption | with_reducible apply keptIf_next | exact keptIf_refused _ | with_reducible apply kept_ve2

theorem kept_execVeMax {s₀ : State} (c : CoreId) (t : Stream) (w : Word128) (s : State) (hs : s₀.Kept s) :
  KeptIf s₀ (execVeMax c t w s) := by
  unfold execVeMax
  try dsimp only
  repeat' first
    | with_reducible assumption | with_reducible apply keptIf_next | exact keptIf_refused _ | with_reducible apply kept_ve2

theorem kept_execVeMin {s₀ : State} (c : CoreId) (t : Stream) (w : Word128) (s : State) (hs : s₀.Kept s) :
  KeptIf s₀ (execVeMin c t w s) := by
  unfold execVeMin
  try dsimp only
  repeat' first
    | with_reducible assumption | with_reducible apply keptIf_next | exact keptIf_refused _ | with_reducible apply kept_ve2

theorem kept_execVeFma {s₀ : State} (c : CoreId) (t : Stream) (w : Word128) (s : State) (hs : s₀.Kept s) :
  KeptIf s₀ (execVeFma c t w s) := by
  unfold execVeFma
  try dsimp only
  repeat' first
    | with_reducible assumption | with_reducible apply keptIf_next | exact keptIf_refused _ | with_reducible apply kept_ve3

theorem kept_execVeAbs {s₀ : State} (c : CoreId) (t : Stream) (w : Word128) (s : State) (hs : s₀.Kept s) :
  KeptIf s₀ (execVeAbs c t w s) := by
  unfold execVeAbs
  try dsimp only
  repeat' first
    | with_reducible assumption | with_reducible apply keptIf_next | exact keptIf_refused _ | with_reducible apply kept_ve1

theorem kept_execVeNeg {s₀ : State} (c : CoreId) (t : Stream) (w : Word128) (s : State) (hs : s₀.Kept s) :
  KeptIf s₀ (execVeNeg c t w s) := by
  unfold execVeNeg
  try dsimp only
  repeat' first
    | with_reducible assumption | with_reducible apply keptIf_next | exact keptIf_refused _ | with_reducible apply kept_ve1

theorem kept_execVeScale {s₀ : State} (c : CoreId) (t : Stream) (w : Word128) (s : State) (hs : s₀.Kept s) :
  KeptIf s₀ (execVeScale c t w s) := by
  unfold execVeScale
  try dsimp only
  repeat' first
    | with_reducible assumption | with_reducible apply keptIf_next | exact keptIf_refused _ | with_reducible apply kept_ve1

theorem kept_execVeBlend {s₀ : State} (c : CoreId) (t : Stream) (w : Word128) (s : State) (hs : s₀.Kept s) :
  KeptIf s₀ (execVeBlend c t w s) := by
  unfold execVeBlend
  try dsimp only
  repeat' first
    | with_reducible assumption | with_reducible apply keptIf_next | exact keptIf_refused _ | with_reducible apply kept_ve3

theorem kept_execVeRsum {s₀ : State} (c : CoreId) (t : Stream) (w : Word128) (s : State) (hs : s₀.Kept s) :
  KeptIf s₀ (execVeRsum c t w s) := by
  unfold execVeRsum
  try dsimp only
  repeat' first
    | with_reducible assumption | with_reducible apply keptIf_next | exact keptIf_refused _ | with_reducible apply kept_veReduce

theorem kept_execVeRmax {s₀ : State} (c : CoreId) (t : Stream) (w : Word128) (s : State) (hs : s₀.Kept s) :
  KeptIf s₀ (execVeRmax c t w s) := by
  unfold execVeRmax
  try dsimp only
  repeat' first
    | with_reducible assumption | with_reducible apply keptIf_next | exact keptIf_refused _ | with_reducible apply kept_veReduce

theorem kept_execVeRmin {s₀ : State} (c : CoreId) (t : Stream) (w : Word128) (s : State) (hs : s₀.Kept s) :
  KeptIf s₀ (execVeRmin c t w s) := by
  unfold execVeRmin
  try dsimp only
  repeat' first
    | with_reducible assumption | with_reducible apply keptIf_next | exact keptIf_refused _ | with_reducible apply kept_veReduce

theorem kept_execVeRsumsq {s₀ : State} (c : CoreId) (t : Stream) (w : Word128) (s : State) (hs : s₀.Kept s) :
  KeptIf s₀ (execVeRsumsq c t w s) := by
  unfold execVeRsumsq
  try dsimp only
  repeat' first
    | with_reducible assumption | with_reducible apply keptIf_next | exact keptIf_refused _ | with_reducible apply kept_veReduce

theorem kept_execVeSmstat {s₀ : State} (c : CoreId) (t : Stream) (w : Word128) (s : State) (hs : s₀.Kept s) :
  KeptIf s₀ (execVeSmstat c t w s) := by
  unfold execVeSmstat
  try dsimp only
  repeat' first
    | with_reducible assumption | with_reducible apply keptIf_next | exact keptIf_refused _ | with_reducible apply kept_veReduce

theorem kept_execVeSmbwd {s₀ : State} (c : CoreId) (t : Stream) (w : Word128) (s : State) (hs : s₀.Kept s) :
  KeptIf s₀ (execVeSmbwd c t w s) := by
  unfold execVeSmbwd
  try dsimp only
  repeat' first
    | with_reducible assumption | with_reducible apply keptIf_next | exact keptIf_refused _ | with_reducible apply kept_ve2

theorem kept_execVeSmnorm {s₀ : State} (c : CoreId) (t : Stream) (w : Word128) (s : State) (hs : s₀.Kept s) :
  KeptIf s₀ (execVeSmnorm c t w s) := by
  unfold execVeSmnorm
  try dsimp only
  repeat' first
    | with_reducible assumption | with_reducible apply keptIf_next | exact keptIf_refused _ | with_reducible apply kept_issueEngine
    | with_reducible apply kept_id

theorem kept_execVeFill {s₀ : State} (c : CoreId) (t : Stream) (w : Word128) (s : State) (hs : s₀.Kept s) :
  KeptIf s₀ (execVeFill c t w s) := by
  unfold execVeFill
  try dsimp only
  repeat' first
    | with_reducible assumption | with_reducible apply keptIf_next | exact keptIf_refused _ | with_reducible apply kept_issueEngine
    | with_reducible apply kept_id

theorem kept_veConv {s₀ : State} (opcode : ℕ) (c : CoreId) (t : Stream) (w : Word128) (s : State) (hs : s₀.Kept s) :
  KeptIf s₀ (veConv opcode c t w s) := by
  unfold veConv
  try dsimp only
  repeat' first
    | with_reducible assumption | with_reducible apply keptIf_next | exact keptIf_refused _ | with_reducible apply kept_issueEngine
    | with_reducible apply kept_id

theorem kept_execVeCopy {s₀ : State} (c : CoreId) (t : Stream) (w : Word128) (s : State) (hs : s₀.Kept s) :
  KeptIf s₀ (execVeCopy c t w s) := by
  unfold execVeCopy
  try dsimp only
  repeat' first
    | with_reducible assumption | with_reducible apply keptIf_next | exact keptIf_refused _ | with_reducible apply kept_veConv

theorem kept_execVeConvert {s₀ : State} (c : CoreId) (t : Stream) (w : Word128) (s : State) (hs : s₀.Kept s) :
  KeptIf s₀ (execVeConvert c t w s) := by
  unfold execVeConvert
  try dsimp only
  repeat' first
    | with_reducible assumption | with_reducible apply keptIf_next | exact keptIf_refused _ | with_reducible apply kept_veConv

theorem kept_veFn {s₀ : State} (opcode : ℕ) (c : CoreId) (t : Stream) (w : Word128) (s : State) (hs : s₀.Kept s) :
  KeptIf s₀ (veFn opcode c t w s) := by
  unfold veFn
  try dsimp only
  repeat' first
    | with_reducible assumption | with_reducible apply keptIf_next | exact keptIf_refused _ | with_reducible apply kept_issueEngine
    | with_reducible apply kept_id

theorem kept_execVeFunc {s₀ : State} (c : CoreId) (t : Stream) (w : Word128) (s : State) (hs : s₀.Kept s) :
  KeptIf s₀ (execVeFunc c t w s) := by
  unfold execVeFunc
  try dsimp only
  repeat' first
    | with_reducible assumption | with_reducible apply keptIf_next | exact keptIf_refused _ | with_reducible apply kept_veFn

theorem kept_execVeDfunc {s₀ : State} (c : CoreId) (t : Stream) (w : Word128) (s : State) (hs : s₀.Kept s) :
  KeptIf s₀ (execVeDfunc c t w s) := by
  unfold execVeDfunc
  try dsimp only
  repeat' first
    | with_reducible assumption | with_reducible apply keptIf_next | exact keptIf_refused _ | with_reducible apply kept_veFn

theorem kept_execVeRng {s₀ : State} (c : CoreId) (t : Stream) (w : Word128) (s : State) (hs : s₀.Kept s) :
  KeptIf s₀ (execVeRng c t w s) := by
  unfold execVeRng
  try dsimp only
  repeat' first
    | with_reducible assumption | with_reducible apply keptIf_next | exact keptIf_refused _ | with_reducible apply kept_issueEngine
    | with_reducible apply kept_id

theorem kept_rowsOf {s₀ : State} (idxs : List (List ℕ)) (f : List ℕ → Work (List FVal)) (hf : ∀ a t, s₀.Kept t → KeptAt s₀ t (f a))
    {s : State} (hk : s₀.Kept s) :
  KeptAt s₀ s (rowsOf idxs f) := by
  unfold rowsOf
  try dsimp only
  repeat' first
    | with_reducible assumption | with_reducible apply hf | with_reducible apply kept_rowsOf | with_reducible apply keptAt_pure
    | (refine kept_fst (by with_reducible assumption) ?_) | (refine kept_snd (by with_reducible assumption) ?_)
    | with_reducible apply keptAt_bind | split | intro _

theorem kept_writeRows {s₀ : State} (n : ℕ) (d : Desc) (m : ConvMode) (x3 : List (List ℕ × List FVal)) {s : State} (hk : s₀.Kept s) :
  KeptAt s₀ s (writeRows n d m x3) := by
  unfold writeRows
  try dsimp only
  repeat' first
    | with_reducible assumption | with_reducible apply kept_writeRow | with_reducible apply kept_writeRows
    | with_reducible apply keptAt_pure | (refine kept_fst (by with_reducible assumption) ?_)
    | (refine kept_snd (by with_reducible assumption) ?_) | with_reducible apply keptAt_bind | split | intro _

theorem kept_veRows {s₀ : State} (n : ℕ) (d : Desc) (m : ConvMode) (f : List ℕ → Work (List FVal)) (hf : ∀ a t, s₀.Kept t → KeptAt s₀ t
    (f a)) {s : State} (hk : s₀.Kept s) :
  KeptAt s₀ s (veRows n d m f) := by
  unfold veRows
  try dsimp only
  repeat' first
    | with_reducible assumption | with_reducible apply hf | with_reducible apply kept_rowsOf | with_reducible apply kept_writeRows
    | with_reducible apply keptAt_pure | (refine kept_fst (by with_reducible assumption) ?_)
    | (refine kept_snd (by with_reducible assumption) ?_) | with_reducible apply keptAt_bind

theorem kept_src32 {s₀ : State} (n : ℕ) (d : Desc) (i : List ℕ) {s : State} (hk : s₀.Kept s) :
  KeptAt s₀ s (src32 n d i) := by
  unfold src32
  try dsimp only
  repeat' first
    | with_reducible assumption | with_reducible apply kept_readRow32

theorem kept_srcExact {s₀ : State} (n : ℕ) (d : Desc) (i : List ℕ) {s : State} (hk : s₀.Kept s) :
  KeptAt s₀ s (srcExact n d i) := by
  unfold srcExact
  try dsimp only
  repeat' first
    | with_reducible assumption | with_reducible apply keptAt_ite | with_reducible apply kept_readRow | with_reducible apply keptAt_pure
    | (refine kept_fst (by with_reducible assumption) ?_) | (refine kept_snd (by with_reducible assumption) ?_)
    | with_reducible apply keptAt_bind | split | intro _

theorem kept_runElem1 {s₀ : State} (n : ℕ) (o : EngOp) (m : ConvMode) (f : W32 → W32) {s : State} (hk : s₀.Kept s) :
  KeptAt s₀ s (runElem1 n o m f) := by
  unfold runElem1
  try dsimp only
  repeat' first
    | with_reducible assumption | with_reducible apply kept_veRows | with_reducible apply kept_src32 | with_reducible apply keptAt_pure
    | (refine kept_fst (by with_reducible assumption) ?_) | (refine kept_snd (by with_reducible assumption) ?_)
    | with_reducible apply keptAt_bind | intro _

theorem kept_runElem2 {s₀ : State} (n : ℕ) (o : EngOp) (f : W32 → W32 → W32) {s : State} (hk : s₀.Kept s) :
  KeptAt s₀ s (runElem2 n o f) := by
  unfold runElem2
  try dsimp only
  repeat' first
    | with_reducible assumption | with_reducible apply kept_veRows | with_reducible apply kept_src32 | with_reducible apply keptAt_pure
    | (refine kept_fst (by with_reducible assumption) ?_) | (refine kept_snd (by with_reducible assumption) ?_)
    | with_reducible apply keptAt_bind | intro _

theorem kept_runFma {s₀ : State} (n : ℕ) (o : EngOp) {s : State} (hk : s₀.Kept s) :
  KeptAt s₀ s (runFma n o) := by
  unfold runFma
  try dsimp only
  repeat' first
    | with_reducible assumption | with_reducible apply kept_veRows | with_reducible apply kept_src32 | with_reducible apply keptAt_pure
    | (refine kept_fst (by with_reducible assumption) ?_) | (refine kept_snd (by with_reducible assumption) ?_)
    | with_reducible apply keptAt_bind | intro _

theorem kept_runBlend {s₀ : State} (n : ℕ) (o : EngOp) {s : State} (hk : s₀.Kept s) :
  KeptAt s₀ s (runBlend n o) := by
  unfold runBlend
  try dsimp only
  repeat' first
    | with_reducible assumption | with_reducible apply keptAt_ite | with_reducible apply kept_readRow | with_reducible apply kept_veRows
    | with_reducible apply kept_src32 | with_reducible apply keptAt_pure | (refine kept_fst (by with_reducible assumption) ?_)
    | (refine kept_snd (by with_reducible assumption) ?_) | with_reducible apply keptAt_bind | split | intro _

theorem kept_runReduceExact {s₀ : State} (n : ℕ) (o : EngOp) (f : List FVal → W32) {s : State} (hk : s₀.Kept s) :
  KeptAt s₀ s (runReduceExact n o f) := by
  unfold runReduceExact
  try dsimp only
  repeat' first
    | with_reducible assumption | with_reducible apply kept_veRows | with_reducible apply kept_srcExact | with_reducible apply keptAt_pure
    | (refine kept_fst (by with_reducible assumption) ?_) | (refine kept_snd (by with_reducible assumption) ?_)
    | with_reducible apply keptAt_bind | intro _

theorem kept_runReduce32 {s₀ : State} (n : ℕ) (o : EngOp) (f : List W32 → List W32) {s : State} (hk : s₀.Kept s) :
  KeptAt s₀ s (runReduce32 n o f) := by
  unfold runReduce32
  try dsimp only
  repeat' first
    | with_reducible assumption | with_reducible apply kept_veRows | with_reducible apply kept_src32 | with_reducible apply keptAt_pure
    | (refine kept_fst (by with_reducible assumption) ?_) | (refine kept_snd (by with_reducible assumption) ?_)
    | with_reducible apply keptAt_bind | intro _

theorem kept_runSmnorm {s₀ : State} (n : ℕ) (o : EngOp) {s : State} (hk : s₀.Kept s) :
  KeptAt s₀ s (runSmnorm n o) := by
  unfold runSmnorm
  try dsimp only
  repeat' first
    | with_reducible assumption | with_reducible apply keptAt_get | with_reducible apply kept_veRows | with_reducible apply kept_src32
    | with_reducible apply keptAt_pure | (refine kept_fst (by with_reducible assumption) ?_)
    | (refine kept_snd (by with_reducible assumption) ?_) | with_reducible apply keptAt_bind | intro _

theorem kept_runSmbwd {s₀ : State} (n : ℕ) (o : EngOp) {s : State} (hk : s₀.Kept s) :
  KeptAt s₀ s (runSmbwd n o) := by
  unfold runSmbwd
  try dsimp only
  repeat' first
    | with_reducible assumption | with_reducible apply kept_veRows | with_reducible apply kept_src32 | with_reducible apply keptAt_pure
    | (refine kept_fst (by with_reducible assumption) ?_) | (refine kept_snd (by with_reducible assumption) ?_)
    | with_reducible apply keptAt_bind | intro _

theorem kept_runFill {s₀ : State} (n : ℕ) (o : EngOp) {s : State} (hk : s₀.Kept s) :
  KeptAt s₀ s (runFill n o) := by
  unfold runFill
  try dsimp only
  repeat' first
    | with_reducible assumption | with_reducible apply kept_veRows | with_reducible apply keptAt_pure
    | (refine kept_fst (by with_reducible assumption) ?_) | (refine kept_snd (by with_reducible assumption) ?_)
    | with_reducible apply keptAt_bind | intro _

theorem kept_runRng {s₀ : State} (n : ℕ) (o : EngOp) {s : State} (hk : s₀.Kept s) :
  KeptAt s₀ s (runRng n o) := by
  unfold runRng
  try dsimp only
  repeat' first
    | with_reducible assumption | with_reducible apply keptAt_ite | with_reducible apply keptAt_get | with_reducible apply kept_writeCodes
    | with_reducible apply keptAt_pure | with_reducible apply keptAt_forM | (refine kept_fst (by with_reducible assumption) ?_)
    | (refine kept_snd (by with_reducible assumption) ?_) | with_reducible apply keptAt_bind | split | intro _

theorem kept_runFunc {s₀ : State} (n : ℕ) (o : EngOp) (deriv : Bool) {s : State} (hk : s₀.Kept s) :
  KeptAt s₀ s (runFunc n o deriv) := by
  unfold runFunc
  try dsimp only
  repeat' first
    | with_reducible assumption | with_reducible apply keptAt_get | with_reducible apply kept_runElem1

theorem kept_veCompute {s₀ : State} (n : ℕ) (o : EngOp) {s : State} (hk : s₀.Kept s) :
  KeptAt s₀ s (veCompute n o) := by
  unfold veCompute
  try dsimp only
  repeat' first
    | with_reducible assumption | with_reducible apply kept_id | with_reducible apply keptAt_ite | with_reducible apply keptAt_get | with_reducible apply kept_runFunc
    | with_reducible apply kept_runReduce32 | with_reducible apply kept_runFma | with_reducible apply kept_runSmnorm
    | with_reducible apply kept_runFill | with_reducible apply kept_runElem2 | with_reducible apply kept_runRng
    | with_reducible apply kept_runReduceExact | with_reducible apply kept_runElem1 | with_reducible apply kept_runBlend
    | with_reducible apply kept_runSmbwd | with_reducible apply keptAt_pure | with_reducible apply keptAt_stop
    | (refine kept_fst (by with_reducible assumption) ?_) | (refine kept_snd (by with_reducible assumption) ?_)
    | with_reducible apply keptAt_bind | split | intro _

theorem kept_issueOpt {s₀ : State} (s : State) (n : ℕ) (t : Stream) (w : Word128) (r : IssueReq) (regs : List ℕ) (hs : s₀.Kept s) :
  KeptIf s₀ (State.issueOpt s n t w r regs) := by
  unfold State.issueOpt
  try dsimp only
  repeat' first
    | with_reducible assumption | with_reducible apply keptIf_next | exact keptIf_refused _ | (with_reducible apply keptEx_ok)
    | with_reducible apply kept_issue | with_reducible apply kept_modCore | (refine kept_fst (by with_reducible assumption) ?_)
    | (refine kept_snd (by with_reducible assumption) ?_) | with_reducible apply keptEx_ok | intro _

theorem kept_execVeOpt {s₀ : State} (c : CoreId) (t : Stream) (w : Word128) (s : State) (hs : s₀.Kept s) :
  KeptIf s₀ (execVeOpt c t w s) := by
  unfold execVeOpt
  try dsimp only
  repeat' first
    | with_reducible assumption | with_reducible apply keptIf_next | exact keptIf_refused _ | with_reducible apply kept_issueOpt
    | (refine kept_fst (by with_reducible assumption) ?_) | (refine kept_snd (by with_reducible assumption) ?_) | split

theorem kept_execVeOptCommit {s₀ : State} (c : CoreId) (t : Stream) (w : Word128) (s : State) (hs : s₀.Kept s) :
  KeptIf s₀ (execVeOptCommit c t w s) := by
  unfold execVeOptCommit
  try dsimp only
  repeat' first
    | with_reducible assumption | with_reducible apply keptIf_next | exact keptIf_refused _ | with_reducible apply kept_issueOpt
    | (refine kept_fst (by with_reducible assumption) ?_) | (refine kept_snd (by with_reducible assumption) ?_) | split

theorem kept_foldInto {s₀ : State} (s : State) (n : ℕ) (domain : ℕ) (step : Word) (terms : List (ℕ × ℕ)) (hs : s₀.Kept s) :
  s₀.Kept (State.foldInto s n domain step terms) := by
  unfold State.foldInto
  try dsimp only
  repeat' first
    | with_reducible assumption | with_reducible apply kept_foldl | with_reducible apply kept_modCourse

theorem kept_groupTerms {s₀ : State} (n : ℕ) (d : Desc) (al : Alloc) (x3 : List (ℕ × List ℕ)) {s : State} (hk : s₀.Kept s) :
  KeptAt s₀ s (groupTerms n d al x3) := by
  unfold groupTerms
  try dsimp only
  repeat' first
    | with_reducible assumption | with_reducible apply keptAt_get | with_reducible apply kept_readLines
    | with_reducible apply kept_groupTerms | with_reducible apply keptAt_pure | (refine kept_fst (by with_reducible assumption) ?_)
    | (refine kept_snd (by with_reducible assumption) ?_) | with_reducible apply keptAt_bind | split | intro _

theorem kept_foldTensor {s₀ : State} (n : ℕ) (o : EngOp) (d : Desc) {s : State} (hk : s₀.Kept s) :
  KeptAt s₀ s (foldTensor n o d) := by
  unfold foldTensor
  try dsimp only
  repeat' first
    | with_reducible assumption | with_reducible apply keptAt_ite | with_reducible apply keptAt_get | with_reducible apply keptAt_modify
    | with_reducible apply kept_groupTerms | with_reducible apply kept_foldInto | with_reducible apply keptAt_pure
    | (refine kept_fst (by with_reducible assumption) ?_) | (refine kept_snd (by with_reducible assumption) ?_)
    | with_reducible apply keptAt_bind | split | intro _

theorem kept_execVeDigest {s₀ : State} (c : CoreId) (t : Stream) (w : Word128) (s : State) (hs : s₀.Kept s) :
  KeptIf s₀ (execVeDigest c t w s) := by
  unfold execVeDigest
  try dsimp only
  repeat' first
    | with_reducible assumption | with_reducible apply keptIf_next | exact keptIf_refused _ | with_reducible apply kept_issueEngine
    | with_reducible apply kept_id

theorem kept_row0 {s₀ : State} (n : ℕ) (d : Desc) {s : State} (hk : s₀.Kept s) :
  KeptAt s₀ s (row0 n d) := by
  unfold row0
  try dsimp only
  repeat' first
    | with_reducible assumption | with_reducible apply kept_readRow32

theorem kept_optCount {s₀ : State} (n : ℕ) (f : Core → Core) {s : State} (hk : s₀.Kept s) :
  KeptAt s₀ s (optCount n f) := by
  unfold optCount
  try dsimp only
  repeat' first
    | with_reducible assumption | with_reducible apply keptAt_modify | with_reducible apply kept_modCore

theorem kept_optUpdate {s₀ : State} (n : ℕ) (o : EngOp) (p : ParamGroup) (g : List W32) {s : State} (hk : s₀.Kept s) :
  KeptAt s₀ s (optUpdate n o p g) := by
  unfold optUpdate
  try dsimp only
  repeat' first
    | with_reducible assumption | with_reducible apply keptAt_ite | with_reducible apply keptAt_get | with_reducible apply kept_readCodes
    | with_reducible apply kept_foldTensor | with_reducible apply kept_writeRow | with_reducible apply kept_writeCodes
    | with_reducible apply kept_row0 | with_reducible apply keptAt_pure | (refine kept_fst (by with_reducible assumption) ?_)
    | (refine kept_snd (by with_reducible assumption) ?_) | with_reducible apply keptAt_bind | split | intro _

theorem kept_returnRing {s₀ : State} (s : State) (a : ℕ) (hs : s₀.Kept s) :
  s₀.Kept (State.returnRing s a) := by
  unfold State.returnRing
  try dsimp only
  repeat' first
    | with_reducible assumption | with_reducible apply kept_modColl | (refine kept_fst (by with_reducible assumption) ?_)
    | (refine kept_snd (by with_reducible assumption) ?_) | split

theorem kept_optRun {s₀ : State} (n : ℕ) (o : EngOp) (p : ParamGroup) {s : State} (hk : s₀.Kept s) :
  KeptAt s₀ s (optRun n o p) := by
  unfold optRun
  extract_lets
  repeat' first
    | with_reducible assumption
    | with_reducible apply keptAt_ite
    | with_reducible apply keptAt_modify
    | with_reducible apply keptAt_pure
    | with_reducible apply kept_row0
    | with_reducible apply kept_returnRing
    | with_reducible apply kept_foldTensor
    | with_reducible apply kept_optUpdate
    | with_reducible apply kept_optCount
    | with_reducible apply keptAt_bind
    | intro _

theorem kept_rewriteStale {s₀ : State} (n : ℕ) (b : Bool) (x2 : List ℕ) {s : State} (hk : s₀.Kept s) :
  KeptAt s₀ s (rewriteStale n b x2) := by
  unfold rewriteStale
  try dsimp only
  repeat' first
    | with_reducible assumption | with_reducible apply kept_coreWrite | with_reducible apply kept_coreRead
    | with_reducible apply kept_rewriteStale | with_reducible apply keptAt_pure | (refine kept_fst (by with_reducible assumption) ?_)
    | (refine kept_snd (by with_reducible assumption) ?_) | with_reducible apply keptAt_bind | split | intro _

theorem kept_rows32 {s₀ : State} (n : ℕ) (d : Desc) (x2 : List (List ℕ)) {s : State} (hk : s₀.Kept s) :
  KeptAt s₀ s (rows32 n d x2) := by
  unfold rows32
  try dsimp only
  repeat' first
    | with_reducible assumption | with_reducible apply kept_readRow32 | with_reducible apply kept_rows32 | with_reducible apply keptAt_pure
    | (refine kept_fst (by with_reducible assumption) ?_) | (refine kept_snd (by with_reducible assumption) ?_)
    | with_reducible apply keptAt_bind | split | intro _

theorem kept_commitRun {s₀ : State} (n : ℕ) (o : EngOp) (p : ParamGroup) {s : State} (hk : s₀.Kept s) :
  KeptAt s₀ s (commitRun n o p) := by
  unfold commitRun
  try dsimp only
  repeat' first
    | with_reducible assumption | with_reducible apply keptAt_ite | with_reducible apply keptAt_get | with_reducible apply kept_optCount
    | with_reducible apply kept_rewriteStale | with_reducible apply kept_rows32 | with_reducible apply kept_writeRows
    | with_reducible apply kept_row0 | with_reducible apply keptAt_pure | (refine kept_fst (by with_reducible assumption) ?_)
    | (refine kept_snd (by with_reducible assumption) ?_) | with_reducible apply keptAt_bind | split | intro _

theorem kept_veRun {s₀ : State} (n : ℕ) (o : EngOp) {s : State} (hk : s₀.Kept s) :
  KeptAt s₀ s (veRun n o) := by
  unfold veRun
  try dsimp only
  repeat' first
    | with_reducible assumption | with_reducible apply keptAt_ite | with_reducible apply keptAt_get | with_reducible apply kept_commitRun
    | with_reducible apply kept_foldTensor | with_reducible apply kept_veCompute | with_reducible apply kept_optRun
    | with_reducible apply keptAt_pure | with_reducible apply keptAt_stop | (refine kept_fst (by with_reducible assumption) ?_)
    | (refine kept_snd (by with_reducible assumption) ?_) | with_reducible apply keptAt_bind | split | intro _

end Sys2Proof.Machine
end

