-- ==== Sys2Proof/Laws/KeptEngines.lean ====
section
/-! SUPPORT. The queue and the form of memory stand (State.Kept): the dense array, transfers between tensors and the GME. -/

namespace Sys2Proof.Machine

open State

theorem kept_fillOwns {s₀ : State} (transposed : Bool) (s : State) (c : CoreId) (t : Stream) (w : Word128) (s' : State) (hs' : s₀.Kept s') :
  s₀.Kept (fillOwns transposed s c t w s') := by
  unfold fillOwns
  try dsimp only
  repeat' first
    | with_reducible assumption | with_reducible apply kept_modCore

theorem kept_issueFill {s₀ : State} (opcode : ℕ) (transposed : Bool) (c : CoreId) (t : Stream) (w : Word128) (s : State) (hs : s₀.Kept s) :
  KeptIf s₀ (issueFill opcode transposed c t w s) := by
  unfold issueFill
  try dsimp only
  repeat' first
    | with_reducible assumption | with_reducible apply keptIf_next | exact keptIf_refused _ | with_reducible apply kept_fillOwns
    | with_reducible apply kept_issueEngine

theorem kept_execDaFill {s₀ : State} (c : CoreId) (t : Stream) (w : Word128) (s : State) (hs : s₀.Kept s) :
  KeptIf s₀ (execDaFill c t w s) := by
  unfold execDaFill
  try dsimp only
  repeat' first
    | with_reducible assumption | with_reducible apply keptIf_next | exact keptIf_refused _ | with_reducible apply kept_issueFill

theorem kept_execDaFillt {s₀ : State} (c : CoreId) (t : Stream) (w : Word128) (s : State) (hs : s₀.Kept s) :
  KeptIf s₀ (execDaFillt c t w s) := by
  unfold execDaFillt
  try dsimp only
  repeat' first
    | with_reducible assumption | with_reducible apply keptIf_next | exact keptIf_refused _ | with_reducible apply kept_issueFill

theorem kept_swapOwns {s₀ : State} (c : CoreId) (t : Stream) (s : State) (hs : s₀.Kept s) :
  s₀.Kept (swapOwns c t s) := by
  unfold swapOwns
  try dsimp only
  repeat' first
    | with_reducible assumption | with_reducible apply kept_modCore

theorem kept_execDaSwap {s₀ : State} (c : CoreId) (t : Stream) (w : Word128) (s : State) (hs : s₀.Kept s) :
  KeptIf s₀ (execDaSwap c t w s) := by
  unfold execDaSwap
  try dsimp only
  repeat' first
    | with_reducible assumption | with_reducible apply keptIf_next | exact keptIf_refused _ | with_reducible apply kept_swapOwns
    | with_reducible apply kept_issueEngine

theorem kept_execDaMm {s₀ : State} (c : CoreId) (t : Stream) (w : Word128) (s : State) (hs : s₀.Kept s) :
  KeptIf s₀ (execDaMm c t w s) := by
  unfold execDaMm
  try dsimp only
  repeat' first
    | with_reducible assumption | with_reducible apply keptIf_next | exact keptIf_refused _ | with_reducible apply kept_issueEngine
    | with_reducible apply kept_id

theorem kept_execDaMmnm {s₀ : State} (c : CoreId) (t : Stream) (w : Word128) (s : State) (hs : s₀.Kept s) :
  KeptIf s₀ (execDaMmnm c t w s) := by
  unfold execDaMmnm
  try dsimp only
  repeat' first
    | with_reducible assumption | with_reducible apply keptIf_next | exact keptIf_refused _ | with_reducible apply kept_issueEngine
    | with_reducible apply kept_id

theorem kept_execDaDrain {s₀ : State} (c : CoreId) (t : Stream) (w : Word128) (s : State) (hs : s₀.Kept s) :
  KeptIf s₀ (execDaDrain c t w s) := by
  unfold execDaDrain
  try dsimp only
  repeat' first
    | with_reducible assumption | with_reducible apply keptIf_next | exact keptIf_refused _ | with_reducible apply kept_issueEngine
    | with_reducible apply kept_id

theorem kept_execDaClear {s₀ : State} (c : CoreId) (t : Stream) (w : Word128) (s : State) (hs : s₀.Kept s) :
  KeptIf s₀ (execDaClear c t w s) := by
  unfold execDaClear
  try dsimp only
  repeat' first
    | with_reducible assumption | with_reducible apply keptIf_next | exact keptIf_refused _ | with_reducible apply kept_issueEngine
    | with_reducible apply kept_id

theorem kept_wakeRow {s₀ : State} (s : State) (n : Nat) (r : Nat) (hs : s₀.Kept s) :
    s₀.Kept (State.wakeRow s n r) := by
  unfold State.wakeRow
  try dsimp only
  repeat' first
    | with_reducible assumption
    | with_reducible apply kept_wakeBank
    | with_reducible apply kept_foldl_fst | with_reducible apply kept_foldl_snd | with_reducible apply kept_foldl
    | (refine kept_fst (by with_reducible assumption) ?_) | (refine kept_snd (by with_reducible assumption) ?_) | split

theorem kept_readAcc {s₀ : State} (n : ℕ) (r : ℕ) {s : State} (hk : s₀.Kept s) :
  KeptAt s₀ s (readAcc n r) := by
  unfold readAcc
  try dsimp only
  repeat' first
    | with_reducible assumption | with_reducible apply kept_wakeRow | with_reducible apply keptAt_ite | with_reducible apply keptAt_get | with_reducible apply keptAt_modify
    | with_reducible apply kept_modCore | with_reducible apply keptAt_pure | with_reducible apply keptAt_stop
    | (refine kept_fst (by with_reducible assumption) ?_) | (refine kept_snd (by with_reducible assumption) ?_)
    | with_reducible apply keptAt_bind | split | intro _

theorem kept_writeAcc {s₀ : State} (n : ℕ) (r : ℕ) (ws : List W32) {s : State} (hk : s₀.Kept s) :
  KeptAt s₀ s (writeAcc n r ws) := by
  unfold writeAcc
  try dsimp only
  repeat' first
    | with_reducible assumption | with_reducible apply kept_wakeRow | with_reducible apply kept_foldl | with_reducible apply keptAt_ite | with_reducible apply keptAt_get | with_reducible apply keptAt_set_bind
    | with_reducible apply keptAt_set | with_reducible apply keptAt_modify | with_reducible apply kept_modCore

theorem kept_readSome {s₀ : State} (n : ℕ) (need : ℕ → Bool) (x2 : ℕ) (x3 : List ℕ) {s : State} (hk : s₀.Kept s) :
  KeptAt s₀ s (readSome n need x2 x3) := by
  unfold readSome
  try dsimp only
  repeat' first
    | with_reducible assumption | with_reducible apply keptAt_ite | with_reducible apply kept_coreRead | with_reducible apply kept_readSome
    | with_reducible apply keptAt_pure | (refine kept_fst (by with_reducible assumption) ?_)
    | (refine kept_snd (by with_reducible assumption) ?_) | with_reducible apply keptAt_bind | split | intro _

theorem kept_spanOf {s₀ : State} (lines : (ℕ → Bool) → Work (List Byte)) (d : Desc) (first : ℕ) (count : ℕ)
    (hlines : ∀ a t, s₀.Kept t → KeptAt s₀ t (lines a)) {s : State} (hk : s₀.Kept s) :
  KeptAt s₀ s (spanOf lines d first count) := by
  unfold spanOf
  try dsimp only
  repeat' first
    | with_reducible assumption | with_reducible apply keptAt_ite | with_reducible apply hlines | with_reducible apply keptAt_pure
    | (refine kept_fst (by with_reducible assumption) ?_) | (refine kept_snd (by with_reducible assumption) ?_)
    | with_reducible apply keptAt_bind | split | intro _

theorem kept_readSpan {s₀ : State} (n : ℕ) (d : Desc) (idx : List ℕ) (first : ℕ) (count : ℕ) {s : State} (hk : s₀.Kept s) :
  KeptAt s₀ s (readSpan n d idx first count) := by
  unfold readSpan
  try dsimp only
  repeat' first
    | with_reducible assumption | with_reducible apply kept_spanOf | with_reducible apply kept_readSome | with_reducible apply keptAt_pure
    | (refine kept_fst (by with_reducible assumption) ?_) | (refine kept_snd (by with_reducible assumption) ?_)
    | with_reducible apply keptAt_bind | intro _

theorem kept_readSlice {s₀ : State} (n : ℕ) (d : Desc) (m : ℕ) (first : ℕ) (count : ℕ) {s : State} (hk : s₀.Kept s) :
  KeptAt s₀ s (readSlice n d m first count) := by
  unfold readSlice
  try dsimp only
  repeat' first
    | with_reducible assumption | with_reducible apply keptAt_ite | with_reducible apply kept_readSpan | with_reducible apply keptAt_pure
    | (refine kept_fst (by with_reducible assumption) ?_) | (refine kept_snd (by with_reducible assumption) ?_)
    | with_reducible apply keptAt_bind | split | intro _

theorem kept_readSlices {s₀ : State} (n : ℕ) (d : Desc) (first : ℕ) (count : ℕ) (x4 : List ℕ) {s : State} (hk : s₀.Kept s) :
  KeptAt s₀ s (readSlices n d first count x4) := by
  unfold readSlices
  try dsimp only
  repeat' first
    | with_reducible assumption | with_reducible apply kept_readSlice | with_reducible apply kept_readSlices
    | with_reducible apply keptAt_pure | (refine kept_fst (by with_reducible assumption) ?_)
    | (refine kept_snd (by with_reducible assumption) ?_) | with_reducible apply keptAt_bind | split | intro _

theorem kept_presence {s₀ : State} (n : ℕ) (o : EngOp) {s : State} (hk : s₀.Kept s) :
  KeptAt s₀ s (presence n o) := by
  unfold presence
  try dsimp only
  repeat' first
    | with_reducible assumption | with_reducible apply keptAt_ite | with_reducible apply keptAt_get | with_reducible apply kept_coreRead
    | with_reducible apply keptAt_pure | (refine kept_fst (by with_reducible assumption) ?_)
    | (refine kept_snd (by with_reducible assumption) ?_) | with_reducible apply keptAt_bind | split | intro _

theorem kept_runDaFill {s₀ : State} (n : ℕ) (o : EngOp) {s : State} (hk : s₀.Kept s) :
  KeptAt s₀ s (runDaFill n o) := by
  unfold runDaFill
  try dsimp only
  repeat' first
    | with_reducible assumption | with_reducible apply keptAt_ite | with_reducible apply keptAt_modify | with_reducible apply kept_modCore
    | with_reducible apply kept_readSlices | with_reducible apply kept_presence | with_reducible apply keptAt_pure
    | (refine kept_fst (by with_reducible assumption) ?_) | (refine kept_snd (by with_reducible assumption) ?_)
    | with_reducible apply keptAt_bind | split | intro _

theorem kept_daRows {s₀ : State} (n : ℕ) (cls : ℕ) (fa : Byte) (fb : Byte) (base : ℕ) (M : ℕ) (p : ℕ × (Cell → FVal) × (Cell → FVal))
    (cols : List (List Cell)) (read : ℕ → Work (List Cell)) (x9 : List ℕ) (hread : ∀ a t, s₀.Kept t → KeptAt s₀ t (read a)) {s : State}
    (hk : s₀.Kept s) :
  KeptAt s₀ s (daRows n cls fa fb base M p cols read x9) := by
  unfold daRows
  try dsimp only
  repeat' first
    | with_reducible assumption | with_reducible apply keptAt_modify | with_reducible apply hread | with_reducible apply kept_modCore
    | with_reducible apply kept_readAcc | with_reducible apply kept_writeAcc | with_reducible apply kept_daRows
    | with_reducible apply keptAt_pure | (refine kept_fst (by with_reducible assumption) ?_)
    | (refine kept_snd (by with_reducible assumption) ?_) | with_reducible apply keptAt_bind | split | intro _

theorem kept_daAllPasses {s₀ : State} (n : ℕ) (cls : ℕ) (fa : Byte) (fb : Byte) (base : ℕ) (M : ℕ) (cols : List (List Cell))
    (read : ℕ → Work (List Cell)) (x8 : List (ℕ × (Cell → FVal) × (Cell → FVal))) (hread : ∀ a t, s₀.Kept t → KeptAt s₀ t (read a))
    {s : State} (hk : s₀.Kept s) :
  KeptAt s₀ s (daAllPasses n cls fa fb base M cols read x8) := by
  unfold daAllPasses
  try dsimp only
  repeat' first
    | with_reducible assumption | with_reducible apply hread | with_reducible apply kept_daRows | with_reducible apply kept_daAllPasses
    | with_reducible apply keptAt_pure | (refine kept_fst (by with_reducible assumption) ?_)
    | (refine kept_snd (by with_reducible assumption) ?_) | with_reducible apply keptAt_bind | split | intro _

theorem kept_readMeta {s₀ : State} (n : ℕ) (d : Desc) (x2 : List ℕ) {s : State} (hk : s₀.Kept s) :
  KeptAt s₀ s (readMeta n d x2) := by
  unfold readMeta
  try dsimp only
  repeat' first
    | with_reducible assumption | with_reducible apply kept_readLines | with_reducible apply kept_readMeta
    | with_reducible apply keptAt_pure | (refine kept_fst (by with_reducible assumption) ?_)
    | (refine kept_snd (by with_reducible assumption) ?_) | with_reducible apply keptAt_bind | split | intro _

theorem kept_runMm {s₀ : State} (n : ℕ) (o : EngOp) {s : State} (hk : s₀.Kept s) :
  KeptAt s₀ s (runMm n o) := by
  unfold runMm
  try dsimp only
  repeat' first
    | with_reducible assumption | with_reducible apply keptAt_ite | with_reducible apply keptAt_get | with_reducible apply keptAt_modify
    | with_reducible apply kept_modCore | with_reducible apply kept_daAllPasses | with_reducible apply kept_readSlice
    | with_reducible apply kept_readMeta | with_reducible apply keptAt_pure | (refine kept_fst (by with_reducible assumption) ?_)
    | (refine kept_snd (by with_reducible assumption) ?_) | with_reducible apply keptAt_bind | split | intro _

theorem kept_readRows {s₀ : State} (n : ℕ) (clear : Bool) (x2 : List ℕ) {s : State} (hk : s₀.Kept s) :
  KeptAt s₀ s (readRows n clear x2) := by
  unfold readRows
  try dsimp only
  repeat' first
    | with_reducible assumption | with_reducible apply keptAt_ite | with_reducible apply kept_readAcc | with_reducible apply kept_writeAcc
    | with_reducible apply kept_readRows | with_reducible apply keptAt_pure | (refine kept_fst (by with_reducible assumption) ?_)
    | (refine kept_snd (by with_reducible assumption) ?_) | with_reducible apply keptAt_bind | split | intro _

theorem kept_beginDrain {s₀ : State} (n : ℕ) (o : EngOp) {s : State} (hk : s₀.Kept s) :
  KeptAt s₀ s (beginDrain n o) := by
  unfold beginDrain
  try dsimp only
  repeat' first
    | with_reducible assumption | with_reducible apply keptAt_ite | with_reducible apply keptAt_modify | with_reducible apply kept_modCore
    | with_reducible apply kept_readRows | with_reducible apply keptAt_pure | (refine kept_fst (by with_reducible assumption) ?_)
    | (refine kept_snd (by with_reducible assumption) ?_) | with_reducible apply keptAt_bind | split | intro _

theorem kept_writeBits {s₀ : State} (n : ℕ) (ls : List ℕ) (lo : ℕ) (hi : ℕ) (v : ℕ) {s : State} (hk : s₀.Kept s) :
  KeptAt s₀ s (writeBits n ls lo hi v) := by
  unfold writeBits
  try dsimp only
  repeat' first
    | with_reducible assumption | with_reducible apply kept_readSome | with_reducible apply kept_coreWrite
    | with_reducible apply keptAt_pure | with_reducible apply keptAt_forM | (refine kept_fst (by with_reducible assumption) ?_)
    | (refine kept_snd (by with_reducible assumption) ?_) | with_reducible apply keptAt_bind | intro _

theorem kept_drainPlain {s₀ : State} (n : ℕ) (d : Desc) (f : Fmt) (ls : List ℕ) (start : ℕ) (codes : List ℕ) {s : State} (hk : s₀.Kept s) :
  KeptAt s₀ s (drainPlain n d f ls start codes) := by
  unfold drainPlain
  try dsimp only
  repeat' first
    | with_reducible assumption | with_reducible apply keptAt_ite | with_reducible apply kept_writeBits

theorem kept_drainGroup {s₀ : State} (n : ℕ) (d : Desc) (f : Fmt) (ff : FloatFmt) (m : ConvMode) (ls : List ℕ) (line : ℕ) (start : ℕ)
    (stop : ℕ) (vs : List FVal) (g : ℕ) {s : State} (hk : s₀.Kept s) :
  KeptAt s₀ s (drainGroup n d f ff m ls line start stop vs g) := by
  unfold drainGroup
  try dsimp only
  repeat' first
    | with_reducible assumption | with_reducible apply kept_id | with_reducible apply keptAt_ite | with_reducible apply keptAt_get | with_reducible apply kept_writeBits
    | with_reducible apply kept_coreWrite | with_reducible apply kept_coreRead | with_reducible apply keptAt_pure
    | (refine kept_fst (by with_reducible assumption) ?_) | (refine kept_snd (by with_reducible assumption) ?_)
    | with_reducible apply keptAt_bind | split | intro _

theorem kept_drainRow {s₀ : State} (n : ℕ) (o : EngOp) (m : ℕ) (ws : List W32) (p2 : List W32) (p3 : List W32) {s : State}
    (hk : s₀.Kept s) :
  KeptAt s₀ s (drainRow n o m ws p2 p3) := by
  unfold drainRow
  try dsimp only
  repeat' first
    | with_reducible assumption | with_reducible apply keptAt_ite | with_reducible apply keptAt_get | with_reducible apply keptAt_modify
    | with_reducible apply kept_drainPlain | with_reducible apply kept_modCore | with_reducible apply kept_drainGroup
    | with_reducible apply keptAt_pure | with_reducible apply keptAt_forM | (refine kept_fst (by with_reducible assumption) ?_)
    | (refine kept_snd (by with_reducible assumption) ?_) | with_reducible apply keptAt_bind | split | intro _

theorem kept_runDrain {s₀ : State} (n : ℕ) (o : EngOp) {s : State} (hk : s₀.Kept s) :
  KeptAt s₀ s (runDrain n o) := by
  unfold runDrain
  try dsimp only
  repeat' first
    | with_reducible assumption | with_reducible apply keptAt_ite | with_reducible apply keptAt_get | with_reducible apply kept_drainRow
    | with_reducible apply keptAt_pure | with_reducible apply keptAt_forM | (refine kept_fst (by with_reducible assumption) ?_)
    | (refine kept_snd (by with_reducible assumption) ?_) | with_reducible apply keptAt_bind | split | intro _

theorem kept_runClear {s₀ : State} (n : ℕ) (o : EngOp) {s : State} (hk : s₀.Kept s) :
  KeptAt s₀ s (runClear n o) := by
  unfold runClear
  try dsimp only
  repeat' first
    | with_reducible assumption | with_reducible apply kept_readRows | with_reducible apply keptAt_pure
    | (refine kept_fst (by with_reducible assumption) ?_) | (refine kept_snd (by with_reducible assumption) ?_)
    | with_reducible apply keptAt_bind | intro _

theorem kept_execDaInstructionBegin {s₀ : State} (c : CoreId) (s : State) (hs : s₀.Kept s) :
  KeptOut s₀ (execDaInstructionBegin c s) := by
  unfold execDaInstructionBegin
  dsimp only
  split
  · exact keptOut_next hs
  split
  · exact keptOut_next hs
  split
  · exact keptOut_next (kept_completeSignal _ _ _ _ _ (kept_modCore _ _ _ hs))
  split
  · rename_i o r _ _ _ u _ _
    have hx := kept_beginDrain c o (kept_modCore s c (fun k => { k with da := { k.da with queue := r, running := k.da.running ++ [(u, o)] } }) hs)
    split
    · rename_i e
      rw [KeptAt, show (beginDrain c o).run _ = _ from e] at hx
      exact keptOut_next hx
    · rename_i e
      rw [KeptAt, show (beginDrain c o).run _ = _ from e] at hx
      exact keptOut_next (kept_haltOp _ _ _ _ _ (kept_modCore _ _ _ hx))
  · exact keptOut_next (kept_modCore _ _ _ hs)

theorem kept_daCompute {s₀ : State} (n : ℕ) (o : EngOp) {s : State} (hk : s₀.Kept s) :
  KeptAt s₀ s (daCompute n o) := by
  unfold daCompute
  try dsimp only
  repeat' first
    | with_reducible assumption | with_reducible apply kept_runDaFill | with_reducible apply kept_runClear
    | with_reducible apply kept_runDrain | with_reducible apply kept_runMm | with_reducible apply keptAt_pure
    | (refine kept_fst (by with_reducible assumption) ?_) | (refine kept_snd (by with_reducible assumption) ?_)
    | with_reducible apply keptAt_bind | split

theorem kept_execDaInstructionComplete {s₀ : State} (c : CoreId) (u : DaUnit) (s : State) (hs : s₀.Kept s) :
  KeptOut s₀ (execDaInstructionComplete c u s) := by
  unfold execDaInstructionComplete
  split
  · exact keptOut_next hs
  · rename_i o _
    have hx : s₀.Kept ((daCompute c o).run s).2 := kept_daCompute c o hs
    dsimp only
    split
    · rename_i e
      rw [show ((daCompute c o).run s).2 = _ from congrArg Prod.snd e] at hx
      exact keptOut_next (kept_completeSignal _ _ _ _ _ (kept_modCore _ _ _ hx))
    · rename_i e
      rw [show ((daCompute c o).run s).2 = _ from congrArg Prod.snd e] at hx
      split
      · exact keptOut_next hs
      · exact keptOut_next (kept_haltOp _ _ _ _ _ (kept_modCore _ _ _ (kept_undoWrites _ _ hs hx)))

theorem kept_Move_copy {s₀ : State} (m : Move) (rd : ℕ → Work (List Byte)) (wr : ℕ → List Byte → Work Unit) (x3 : Tab (List Byte))
    (x4 : List (List (ℕ × List ℕ × ℕ))) (hrd : ∀ a t, s₀.Kept t → KeptAt s₀ t (rd a)) (hwr : ∀ a b t, s₀.Kept t → KeptAt s₀ t (wr a b))
    {s : State} (hk : s₀.Kept s) :
  KeptAt s₀ s (Move.copy m rd wr x3 x4) := by
  unfold Move.copy
  try dsimp only
  repeat' first
    | with_reducible assumption | with_reducible apply keptAt_ite | with_reducible apply keptAt_get | with_reducible apply keptAt_set_bind
    | with_reducible apply keptAt_set | with_reducible apply hrd | with_reducible apply hwr | with_reducible apply kept_Move_copy
    | with_reducible apply keptAt_pure | with_reducible apply keptAt_forM | with_reducible apply keptAt_foldlM
    | with_reducible apply kept_foldl_fst | with_reducible apply kept_foldl_snd | with_reducible apply kept_foldl
    | (refine kept_fst (by with_reducible assumption) ?_) | (refine kept_snd (by with_reducible assumption) ?_)
    | with_reducible apply keptAt_bind | split | intro _

theorem kept_execGmeSpmm {s₀ : State} (c : CoreId) (t : Stream) (w : Word128) (s : State) (hs : s₀.Kept s) :
  KeptIf s₀ (execGmeSpmm c t w s) := by
  unfold execGmeSpmm
  try dsimp only
  repeat' first
    | with_reducible assumption | with_reducible apply keptIf_next | exact keptIf_refused _ | with_reducible apply kept_issueEngine
    | with_reducible apply kept_id

theorem kept_execGmeSddmm {s₀ : State} (c : CoreId) (t : Stream) (w : Word128) (s : State) (hs : s₀.Kept s) :
  KeptIf s₀ (execGmeSddmm c t w s) := by
  unfold execGmeSddmm
  try dsimp only
  repeat' first
    | with_reducible assumption | with_reducible apply keptIf_next | exact keptIf_refused _ | with_reducible apply kept_issueEngine
    | with_reducible apply kept_id

theorem kept_issueGme2 {s₀ : State} (opcode : ℕ) (late : State → ℕ → Word128 → StreamCtx → Option Stop) (c : CoreId) (t : Stream)
    (w : Word128) (s : State) (hs : s₀.Kept s) :
  KeptIf s₀ (issueGme2 opcode late c t w s) := by
  unfold issueGme2
  try dsimp only
  repeat' first
    | with_reducible assumption | with_reducible apply keptIf_next | exact keptIf_refused _ | with_reducible apply kept_issueEngine
    | with_reducible apply kept_id

theorem kept_execGmeGather {s₀ : State} (c : CoreId) (t : Stream) (w : Word128) (s : State) (hs : s₀.Kept s) :
  KeptIf s₀ (execGmeGather c t w s) := by
  unfold execGmeGather
  try dsimp only
  repeat' first
    | with_reducible assumption | with_reducible apply keptIf_next | exact keptIf_refused _ | with_reducible apply kept_issueGme2

theorem kept_execGmeScatteradd {s₀ : State} (c : CoreId) (t : Stream) (w : Word128) (s : State) (hs : s₀.Kept s) :
  KeptIf s₀ (execGmeScatteradd c t w s) := by
  unfold execGmeScatteradd
  try dsimp only
  repeat' first
    | with_reducible assumption | with_reducible apply keptIf_next | exact keptIf_refused _ | with_reducible apply kept_issueGme2

theorem kept_execGmeSegsum {s₀ : State} (c : CoreId) (t : Stream) (w : Word128) (s : State) (hs : s₀.Kept s) :
  KeptIf s₀ (execGmeSegsum c t w s) := by
  unfold execGmeSegsum
  try dsimp only
  repeat' first
    | with_reducible assumption | with_reducible apply keptIf_next | exact keptIf_refused _ | with_reducible apply kept_issueGme2

theorem kept_execGmeSort {s₀ : State} (c : CoreId) (t : Stream) (w : Word128) (s : State) (hs : s₀.Kept s) :
  KeptIf s₀ (execGmeSort c t w s) := by
  unfold execGmeSort
  try dsimp only
  repeat' first
    | with_reducible assumption | with_reducible apply keptIf_next | exact keptIf_refused _ | with_reducible apply kept_issueEngine
    | with_reducible apply kept_id

theorem kept_execGmeMerge {s₀ : State} (c : CoreId) (t : Stream) (w : Word128) (s : State) (hs : s₀.Kept s) :
  KeptIf s₀ (execGmeMerge c t w s) := by
  unfold execGmeMerge
  try dsimp only
  repeat' first
    | with_reducible assumption | with_reducible apply keptIf_next | exact keptIf_refused _ | with_reducible apply kept_issueEngine
    | with_reducible apply kept_id

theorem kept_execGmePack {s₀ : State} (c : CoreId) (t : Stream) (w : Word128) (s : State) (hs : s₀.Kept s) :
  KeptIf s₀ (execGmePack c t w s) := by
  unfold execGmePack
  try dsimp only
  repeat' first
    | with_reducible assumption | with_reducible apply keptIf_next | exact keptIf_refused _ | with_reducible apply kept_issueGme2

theorem kept_execGmeUnpack {s₀ : State} (c : CoreId) (t : Stream) (w : Word128) (s : State) (hs : s₀.Kept s) :
  KeptIf s₀ (execGmeUnpack c t w s) := by
  unfold execGmeUnpack
  try dsimp only
  repeat' first
    | with_reducible assumption | with_reducible apply keptIf_next | exact keptIf_refused _ | with_reducible apply kept_issueGme2

theorem kept_execGmeTranspose {s₀ : State} (c : CoreId) (t : Stream) (w : Word128) (s : State) (hs : s₀.Kept s) :
  KeptIf s₀ (execGmeTranspose c t w s) := by
  unfold execGmeTranspose
  try dsimp only
  repeat' first
    | with_reducible assumption | with_reducible apply keptIf_next | exact keptIf_refused _ | with_reducible apply kept_issueEngine
    | with_reducible apply kept_id

theorem kept_execGmeSelect {s₀ : State} (c : CoreId) (t : Stream) (w : Word128) (s : State) (hs : s₀.Kept s) :
  KeptIf s₀ (execGmeSelect c t w s) := by
  unfold execGmeSelect
  try dsimp only
  repeat' first
    | with_reducible assumption | with_reducible apply keptIf_next | exact keptIf_refused _ | with_reducible apply kept_issueEngine
    | with_reducible apply kept_id

theorem kept_modGme {s₀ : State} (n : ℕ) (f : Gme → Gme) {s : State} (hk : s₀.Kept s) :
  KeptAt s₀ s (modGme n f) := by
  unfold modGme
  try dsimp only
  repeat' first
    | with_reducible assumption | with_reducible apply keptAt_modify | with_reducible apply kept_modCore

theorem kept_gmeLine {s₀ : State} (n : ℕ) (d : Desc) (idx : List ℕ) (i : ℕ) (a : ℕ) {s : State} (hk : s₀.Kept s) :
  KeptAt s₀ s (gmeLine n d idx i a) := by
  unfold gmeLine
  try dsimp only
  repeat' first
    | with_reducible assumption | with_reducible apply keptAt_get | with_reducible apply kept_modGme | with_reducible apply kept_coreRead
    | with_reducible apply keptAt_pure | (refine kept_fst (by with_reducible assumption) ?_)
    | (refine kept_snd (by with_reducible assumption) ?_) | with_reducible apply keptAt_bind | split | intro _

theorem kept_gmeLines {s₀ : State} (n : ℕ) (d : Desc) (idx : List ℕ) (need : ℕ → Bool) (x4 : ℕ) (x5 : List ℕ) {s : State} (hk : s₀.Kept s) :
  KeptAt s₀ s (gmeLines n d idx need x4 x5) := by
  unfold gmeLines
  try dsimp only
  repeat' first
    | with_reducible assumption | with_reducible apply keptAt_ite | with_reducible apply kept_gmeLine | with_reducible apply kept_gmeLines
    | with_reducible apply keptAt_pure | (refine kept_fst (by with_reducible assumption) ?_)
    | (refine kept_snd (by with_reducible assumption) ?_) | with_reducible apply keptAt_bind | split | intro _

theorem kept_gmeRow {s₀ : State} (n : ℕ) (d : Desc) (idx : List ℕ) {s : State} (hk : s₀.Kept s) :
  KeptAt s₀ s (gmeRow n d idx) := by
  unfold gmeRow
  try dsimp only
  repeat' first
    | with_reducible assumption | with_reducible apply kept_gmeLines

theorem kept_gmeValues {s₀ : State} (n : ℕ) (d : Desc) (idx : List ℕ) {s : State} (hk : s₀.Kept s) :
  KeptAt s₀ s (gmeValues n d idx) := by
  unfold gmeValues
  try dsimp only
  repeat' first
    | with_reducible assumption | with_reducible apply kept_gmeRow | with_reducible apply keptAt_pure
    | (refine kept_fst (by with_reducible assumption) ?_) | (refine kept_snd (by with_reducible assumption) ?_)
    | with_reducible apply keptAt_bind | intro _

theorem kept_gmeCodes {s₀ : State} (n : ℕ) (d : Desc) (idx : List ℕ) {s : State} (hk : s₀.Kept s) :
  KeptAt s₀ s (gmeCodes n d idx) := by
  unfold gmeCodes
  try dsimp only
  repeat' first
    | with_reducible assumption | with_reducible apply kept_gmeRow | with_reducible apply keptAt_pure
    | (refine kept_fst (by with_reducible assumption) ?_) | (refine kept_snd (by with_reducible assumption) ?_)
    | with_reducible apply keptAt_bind | intro _

theorem kept_gmeSpan {s₀ : State} (n : ℕ) (d : Desc) (idx : List ℕ) (first : ℕ) (count : ℕ) {s : State} (hk : s₀.Kept s) :
  KeptAt s₀ s (gmeSpan n d idx first count) := by
  unfold gmeSpan
  try dsimp only
  repeat' first
    | with_reducible assumption | with_reducible apply kept_gmeLines | with_reducible apply kept_spanOf | with_reducible apply keptAt_pure
    | (refine kept_fst (by with_reducible assumption) ?_) | (refine kept_snd (by with_reducible assumption) ?_)
    | with_reducible apply keptAt_bind | intro _

theorem kept_dropAt {s₀ : State} (n : ℕ) (reg : ℕ) (kind : ℕ) (position : ℕ) (value : ℕ) {s : State} (hk : s₀.Kept s) :
  KeptAt s₀ s (dropAt n reg kind position value) := by
  unfold dropAt
  try dsimp only
  repeat' first
    | with_reducible assumption | with_reducible apply keptAt_ite | with_reducible apply keptAt_get | with_reducible apply kept_modGme

theorem kept_clampPointers {s₀ : State} (n : ℕ) (reg : ℕ) (E : ℕ) (x3 : ℕ) (x4 : List ℕ) {s : State} (hk : s₀.Kept s) :
  KeptAt s₀ s (clampPointers n reg E x3 x4) := by
  unfold clampPointers
  try dsimp only
  repeat' first
    | with_reducible assumption | with_reducible apply keptAt_ite | with_reducible apply kept_dropAt
    | with_reducible apply kept_clampPointers | with_reducible apply keptAt_pure | (refine kept_fst (by with_reducible assumption) ?_)
    | (refine kept_snd (by with_reducible assumption) ?_) | with_reducible apply keptAt_bind | split | intro _

theorem kept_rowRuns {s₀ : State} (n : ℕ) (reg : ℕ) (x2 : ℕ) (x3 : List ℕ) {s : State} (hk : s₀.Kept s) :
  KeptAt s₀ s (rowRuns n reg x2 x3) := by
  unfold rowRuns
  try dsimp only
  repeat' first
    | with_reducible assumption | with_reducible apply keptAt_ite | with_reducible apply kept_dropAt | with_reducible apply kept_rowRuns
    | with_reducible apply keptAt_pure | (refine kept_fst (by with_reducible assumption) ?_)
    | (refine kept_snd (by with_reducible assumption) ?_) | with_reducible apply keptAt_bind | split | intro _

theorem kept_keepEntries {s₀ : State} (n : ℕ) (reg : ℕ) (limit : ℕ) (x3 : Option ℕ) (x4 : List (ℕ × ℕ)) {s : State} (hk : s₀.Kept s) :
  KeptAt s₀ s (keepEntries n reg limit x3 x4) := by
  unfold keepEntries
  try dsimp only
  repeat' first
    | with_reducible assumption | with_reducible apply keptAt_ite | with_reducible apply kept_dropAt | with_reducible apply kept_keepEntries
    | with_reducible apply keptAt_pure | (refine kept_fst (by with_reducible assumption) ?_)
    | (refine kept_snd (by with_reducible assumption) ?_) | with_reducible apply keptAt_bind | split | intro _

theorem kept_keepRows {s₀ : State} (n : ℕ) (reg : ℕ) (limit : ℕ) (cols : List ℕ) (x4 : List (ℕ × ℕ)) {s : State} (hk : s₀.Kept s) :
  KeptAt s₀ s (keepRows n reg limit cols x4) := by
  unfold keepRows
  try dsimp only
  repeat' first
    | with_reducible assumption | with_reducible apply keptAt_get | with_reducible apply kept_keepEntries
    | with_reducible apply kept_keepRows | with_reducible apply keptAt_pure | (refine kept_fst (by with_reducible assumption) ?_)
    | (refine kept_snd (by with_reducible assumption) ?_) | with_reducible apply keptAt_bind | split | intro _

theorem kept_cut {s₀ : State} (n : ℕ) (o : EngOp) (k : ℕ) (M : ℕ) (limit : ℕ) {s : State} (hk : s₀.Kept s) :
  KeptAt s₀ s (cut n o k M limit) := by
  unfold cut
  try dsimp only
  repeat' first
    | with_reducible assumption | with_reducible apply kept_gmeLines | with_reducible apply kept_gmeCodes | with_reducible apply kept_modGme
    | with_reducible apply kept_rowRuns | with_reducible apply kept_keepRows | with_reducible apply kept_clampPointers
    | with_reducible apply keptAt_pure | (refine kept_fst (by with_reducible assumption) ?_)
    | (refine kept_snd (by with_reducible assumption) ?_) | with_reducible apply keptAt_bind | intro _

theorem kept_yealmVectors_chunk {s₀ : State} (n : ℕ) (v : Desc) (b : Desc) (N : ℕ) (x4 : List (List (ℕ × ℕ))) {s : State} (hk : s₀.Kept s) :
  KeptAt s₀ s (yealmVectors.chunk n v b N x4) := by
  revert s x4
  intro l
  induction l with
  | nil => intro s hk; exact keptAt_pure hk _
  | cons es r ih =>
    intro s hk
    unfold yealmVectors.chunk
    apply keptAt_bind
    · apply keptAt_foldlM
      · intro acc e t ht
        apply keptAt_bind (kept_gmeSpan _ _ _ _ _ ht)
        intro _ t ht
        apply keptAt_bind (kept_gmeSpan _ _ _ _ _ ht)
        intro _ t ht
        exact keptAt_pure ht _
      · exact hk
    · intro _ t ht
      exact keptAt_bind (ih ht) fun _ t ht => keptAt_pure ht _

theorem kept_yealmVectors {s₀ : State} (n : ℕ) (o : EngOp) (y : Yealm) {s : State} (hk : s₀.Kept s) :
  KeptAt s₀ s (yealmVectors n o y) := by
  unfold yealmVectors
  try dsimp only
  repeat' first
    | with_reducible assumption | with_reducible apply keptAt_ite | with_reducible apply keptAt_get | with_reducible apply kept_gmeSpan
    | with_reducible apply kept_yealmVectors_chunk

theorem kept_tileRow {s₀ : State} (n : ℕ) (o : EngOp) (row : ℕ) (ordinal : ℕ) {s : State} (hk : s₀.Kept s) :
  KeptAt s₀ s (tileRow n o row ordinal) := by
  unfold tileRow
  try dsimp only
  repeat' first
    | with_reducible assumption | with_reducible apply keptAt_ite | with_reducible apply kept_readRow32 | with_reducible apply keptAt_pure
    | (refine kept_fst (by with_reducible assumption) ?_) | (refine kept_snd (by with_reducible assumption) ?_)
    | with_reducible apply keptAt_bind | split | intro _

theorem kept_runSpmmYealm {s₀ : State} (n : ℕ) (o : EngOp) (lane : ℕ) (y : Yealm) {s : State} (hk : s₀.Kept s) :
  KeptAt s₀ s (runSpmmYealm n o lane y) := by
  unfold runSpmmYealm
  try dsimp only
  repeat' first
    | with_reducible assumption | with_reducible apply keptAt_ite | with_reducible apply keptAt_get | with_reducible apply kept_modGme
    | with_reducible apply kept_writeRow | with_reducible apply kept_yealmVectors | with_reducible apply kept_tileRow
    | with_reducible apply keptAt_pure | (refine kept_fst (by with_reducible assumption) ?_)
    | (refine kept_snd (by with_reducible assumption) ?_) | with_reducible apply keptAt_bind | split | intro _

theorem kept_runSddmmYealm {s₀ : State} (n : ℕ) (o : EngOp) (y : Yealm) {s : State} (hk : s₀.Kept s) :
  KeptAt s₀ s (runSddmmYealm n o y) := by
  unfold runSddmmYealm
  try dsimp only
  repeat' first
    | with_reducible assumption | with_reducible apply keptAt_ite | with_reducible apply kept_gmeSpan | with_reducible apply kept_modGme
    | with_reducible apply keptAt_pure | with_reducible apply keptAt_foldlM | with_reducible apply kept_foldl_fst
    | with_reducible apply kept_foldl_snd | with_reducible apply kept_foldl | (refine kept_fst (by with_reducible assumption) ?_)
    | (refine kept_snd (by with_reducible assumption) ?_) | with_reducible apply keptAt_bind | split | intro _

theorem kept_beginYealm {s₀ : State} (n : ℕ) (o : EngOp) (lane : ℕ) (owner : ℕ) (y : Yealm) {s : State} (hk : s₀.Kept s) :
  KeptAt s₀ s (beginYealm n o lane owner y) := by
  unfold beginYealm
  try dsimp only
  repeat' first
    | with_reducible assumption | with_reducible apply keptAt_ite | with_reducible apply keptAt_set_bind | with_reducible apply keptAt_set
    | with_reducible apply kept_modGme | with_reducible apply kept_runSddmmYealm | with_reducible apply kept_runSpmmYealm
    | with_reducible apply keptAt_pure | (refine kept_fst (by with_reducible assumption) ?_)
    | (refine kept_snd (by with_reducible assumption) ?_) | with_reducible apply keptAt_bind | split | intro _

theorem kept_execYealmBegin {s₀ : State} (c : CoreId) (lane : LaneId) (s : State) (hs : s₀.Kept s) :
  KeptOut s₀ (execYealmBegin c lane s) := by
  unfold execYealmBegin
  try dsimp only
  repeat' first
    | with_reducible assumption | with_reducible apply keptOut_next | with_reducible apply kept_runKeep
    | with_reducible apply kept_beginYealm | with_reducible apply keptAt_pure | with_reducible apply kept_id
    | (refine kept_fst (by with_reducible assumption) ?_) | (refine kept_snd (by with_reducible assumption) ?_) | split

theorem kept_execYealmSteal {s₀ : State} (c : CoreId) (lane : LaneId) (s : State) (hs : s₀.Kept s) :
  KeptOut s₀ (execYealmSteal c lane s) := by
  unfold execYealmSteal
  try dsimp only
  repeat' first
    | with_reducible assumption | with_reducible apply keptOut_next | with_reducible apply kept_runKeep
    | with_reducible apply kept_beginYealm | with_reducible apply kept_modGme | with_reducible apply kept_id
    | with_reducible apply keptAt_bind | split | intro _

theorem kept_foldDeferred {s₀ : State} (n : ℕ) (o : EngOp) (d : Deferred) {s : State} (hk : s₀.Kept s) :
  KeptAt s₀ s (foldDeferred n o d) := by
  unfold foldDeferred
  try dsimp only
  repeat' first
    | with_reducible assumption | with_reducible apply kept_modGme | with_reducible apply kept_writeRow
    | with_reducible apply kept_readRow32 | with_reducible apply keptAt_pure | (refine kept_fst (by with_reducible assumption) ?_)
    | (refine kept_snd (by with_reducible assumption) ?_) | with_reducible apply keptAt_bind | split | intro _

theorem kept_execMergeFold {s₀ : State} (c : CoreId) (row : ℕ) (s : State) (hs : s₀.Kept s) :
  KeptOut s₀ (execMergeFold c row s) := by
  unfold execMergeFold
  try dsimp only
  repeat' first
    | with_reducible assumption | with_reducible apply keptOut_next | with_reducible apply kept_foldDeferred
    | with_reducible apply kept_runKeep | with_reducible apply keptAt_pure | with_reducible apply kept_id
    | (refine kept_fst (by with_reducible assumption) ?_) | (refine kept_snd (by with_reducible assumption) ?_) | split

theorem kept_copyRow {s₀ : State} (n : ℕ) (src : Desc) (dst : Desc) (source : Option (List ℕ)) (idx : List ℕ) {s : State} (hk : s₀.Kept s) :
  KeptAt s₀ s (copyRow n src dst source idx) := by
  unfold copyRow
  try dsimp only
  repeat' first
    | with_reducible assumption | with_reducible apply kept_foldl | with_reducible apply kept_modCore | with_reducible apply kept_rowUe | with_reducible apply kept_gmeRow | with_reducible apply kept_writeLines | with_reducible apply keptAt_pure
    | (refine kept_fst (by with_reducible assumption) ?_) | (refine kept_snd (by with_reducible assumption) ?_)
    | with_reducible apply keptAt_bind | split | intro _

theorem kept_runGather {s₀ : State} (n : ℕ) (o : EngOp) {s : State} (hk : s₀.Kept s) :
  KeptAt s₀ s (runGather n o) := by
  unfold runGather
  try dsimp only
  repeat' first
    | with_reducible assumption | with_reducible apply keptAt_ite | with_reducible apply kept_dropAt | with_reducible apply kept_gmeCodes
    | with_reducible apply kept_copyRow | with_reducible apply keptAt_pure | with_reducible apply keptAt_forM
    | (refine kept_fst (by with_reducible assumption) ?_) | (refine kept_snd (by with_reducible assumption) ?_)
    | with_reducible apply keptAt_bind | split | intro _

theorem kept_readLengths {s₀ : State} (n : ℕ) (reg : ℕ) (L : ℕ) (x3 : ℕ) (x4 : List ℕ) {s : State} (hk : s₀.Kept s) :
  KeptAt s₀ s (readLengths n reg L x3 x4) := by
  unfold readLengths
  try dsimp only
  repeat' first
    | with_reducible assumption | with_reducible apply keptAt_ite | with_reducible apply kept_dropAt | with_reducible apply kept_readLengths
    | with_reducible apply keptAt_pure | (refine kept_fst (by with_reducible assumption) ?_)
    | (refine kept_snd (by with_reducible assumption) ?_) | with_reducible apply keptAt_bind | split | intro _

theorem kept_dropRow {s₀ : State} (n : ℕ) (reg : ℕ) (position : ℕ) (value : ℕ) {s : State} (hk : s₀.Kept s) :
  KeptAt s₀ s (dropRow n reg position value) := by
  unfold dropRow
  try dsimp only
  repeat' first
    | with_reducible assumption | with_reducible apply kept_modGme

theorem kept_runPack {s₀ : State} (n : ℕ) (o : EngOp) {s : State} (hk : s₀.Kept s) :
  KeptAt s₀ s (runPack n o) := by
  unfold runPack
  try dsimp only
  repeat' first
    | with_reducible assumption | with_reducible apply keptAt_get | with_reducible apply kept_gmeCodes | with_reducible apply kept_dropRow
    | with_reducible apply kept_copyRow | with_reducible apply kept_readLengths | with_reducible apply keptAt_pure
    | with_reducible apply keptAt_forM | (refine kept_fst (by with_reducible assumption) ?_)
    | (refine kept_snd (by with_reducible assumption) ?_) | with_reducible apply keptAt_bind | intro _

theorem kept_runUnpack {s₀ : State} (n : ℕ) (o : EngOp) {s : State} (hk : s₀.Kept s) :
  KeptAt s₀ s (runUnpack n o) := by
  unfold runUnpack
  try dsimp only
  repeat' first
    | with_reducible assumption | with_reducible apply keptAt_ite | with_reducible apply keptAt_get | with_reducible apply kept_gmeCodes
    | with_reducible apply kept_dropRow | with_reducible apply kept_copyRow | with_reducible apply kept_readLengths
    | with_reducible apply keptAt_pure | with_reducible apply keptAt_forM | (refine kept_fst (by with_reducible assumption) ?_)
    | (refine kept_snd (by with_reducible assumption) ?_) | with_reducible apply keptAt_bind | split | intro _

theorem kept_scatterLine {s₀ : State} (n : ℕ) (store : List (ℕ × List Byte)) (a : ℕ) (xs : List W32) {s : State} (hk : s₀.Kept s) :
  KeptAt s₀ s (scatterLine n store a xs) := by
  unfold scatterLine
  try dsimp only
  repeat' first
    | with_reducible assumption | with_reducible apply keptAt_ite | with_reducible apply keptAt_get | with_reducible apply kept_coreWrite
    | with_reducible apply kept_coreRead | with_reducible apply keptAt_pure | (refine kept_fst (by with_reducible assumption) ?_)
    | (refine kept_snd (by with_reducible assumption) ?_) | with_reducible apply keptAt_bind | split | intro _

theorem kept_runScatter {s₀ : State} (n : ℕ) (o : EngOp) {s : State} (hk : s₀.Kept s) :
  KeptAt s₀ s (runScatter n o) := by
  unfold runScatter
  try dsimp only
  repeat' first
    | with_reducible assumption | with_reducible apply keptAt_ite | with_reducible apply kept_dropAt | with_reducible apply kept_gmeCodes
    | with_reducible apply kept_gmeValues | with_reducible apply kept_coreWrite | with_reducible apply kept_scatterLine
    | with_reducible apply keptAt_pure | with_reducible apply keptAt_forM | with_reducible apply keptAt_foldlM
    | with_reducible apply kept_foldl_fst | with_reducible apply kept_foldl_snd | with_reducible apply kept_foldl
    | (refine kept_fst (by with_reducible assumption) ?_) | (refine kept_snd (by with_reducible assumption) ?_)
    | with_reducible apply keptAt_bind | split | intro _

theorem kept_runSegsum {s₀ : State} (n : ℕ) (o : EngOp) {s : State} (hk : s₀.Kept s) :
  KeptAt s₀ s (runSegsum n o) := by
  unfold runSegsum
  try dsimp only
  repeat' first
    | with_reducible assumption | with_reducible apply keptAt_get | with_reducible apply kept_gmeCodes | with_reducible apply kept_rowRuns
    | with_reducible apply kept_writeRow | with_reducible apply kept_gmeValues | with_reducible apply kept_clampPointers
    | with_reducible apply keptAt_pure | with_reducible apply keptAt_forM | with_reducible apply keptAt_foldlM
    | with_reducible apply kept_foldl_fst | with_reducible apply kept_foldl_snd | with_reducible apply kept_foldl
    | (refine kept_fst (by with_reducible assumption) ?_) | (refine kept_snd (by with_reducible assumption) ?_)
    | with_reducible apply keptAt_bind | intro _

theorem kept_runSort {s₀ : State} (n : ℕ) (o : EngOp) {s : State} (hk : s₀.Kept s) :
  KeptAt s₀ s (runSort n o) := by
  unfold runSort
  try dsimp only
  repeat' first
    | with_reducible assumption | with_reducible apply keptAt_ite | with_reducible apply kept_gmeCodes
    | with_reducible apply kept_writeCodes | with_reducible apply keptAt_pure | with_reducible apply keptAt_forM
    | (refine kept_fst (by with_reducible assumption) ?_) | (refine kept_snd (by with_reducible assumption) ?_)
    | with_reducible apply keptAt_bind | split | intro _

theorem kept_keepSorted {s₀ : State} (n : ℕ) (reg : ℕ) (lt : ℕ → ℕ → Bool) (x3 : Option ℕ) (x4 : List (ℕ × ℕ)) {s : State}
    (hk : s₀.Kept s) :
  KeptAt s₀ s (keepSorted n reg lt x3 x4) := by
  unfold keepSorted
  try dsimp only
  repeat' first
    | with_reducible assumption | with_reducible apply keptAt_ite | with_reducible apply kept_dropAt | with_reducible apply kept_keepSorted
    | with_reducible apply keptAt_pure | (refine kept_fst (by with_reducible assumption) ?_)
    | (refine kept_snd (by with_reducible assumption) ?_) | with_reducible apply keptAt_bind | split | intro _

theorem kept_runMerge {s₀ : State} (n : ℕ) (o : EngOp) {s : State} (hk : s₀.Kept s) :
  KeptAt s₀ s (runMerge n o) := by
  unfold runMerge
  try dsimp only
  repeat' first
    | with_reducible assumption | with_reducible apply keptAt_ite | with_reducible apply kept_keepSorted
    | with_reducible apply kept_gmeCodes | with_reducible apply kept_writeCodes | with_reducible apply keptAt_pure
    | (refine kept_fst (by with_reducible assumption) ?_) | (refine kept_snd (by with_reducible assumption) ?_)
    | with_reducible apply keptAt_bind | split | intro _

theorem kept_runSelect {s₀ : State} (n : ℕ) (o : EngOp) (l : Layer) {s : State} (hk : s₀.Kept s) :
  KeptAt s₀ s (runSelect n o l) := by
  unfold runSelect
  try dsimp only
  repeat' first
    | with_reducible assumption | with_reducible apply keptAt_ite | with_reducible apply keptAt_get | with_reducible apply kept_modGme
    | with_reducible apply kept_gmeValues | with_reducible apply kept_writeCodes | with_reducible apply keptAt_pure
    | with_reducible apply keptAt_foldlM | with_reducible apply kept_foldl_fst | with_reducible apply kept_foldl_snd
    | with_reducible apply kept_foldl | (refine kept_fst (by with_reducible assumption) ?_)
    | (refine kept_snd (by with_reducible assumption) ?_) | with_reducible apply keptAt_bind | split | intro _

theorem kept_beginCut {s₀ : State} (n : ℕ) (o : EngOp) {s : State} (hk : s₀.Kept s) :
  KeptAt s₀ s (beginCut n o) := by
  unfold beginCut
  try dsimp only
  repeat' first
    | with_reducible assumption | with_reducible apply keptAt_ite | with_reducible apply kept_cut | with_reducible apply keptAt_pure
    | (refine kept_fst (by with_reducible assumption) ?_) | (refine kept_snd (by with_reducible assumption) ?_)
    | with_reducible apply keptAt_bind | split | intro _

theorem kept_beginTranspose {s₀ : State} (o : EngOp) {s : State} (hk : s₀.Kept s) :
  KeptAt s₀ s (beginTranspose o) := by
  unfold beginTranspose
  try dsimp only
  repeat' first
    | with_reducible assumption | with_reducible apply keptAt_get | with_reducible apply keptAt_pure | with_reducible apply keptAt_stop
    | (refine kept_fst (by with_reducible assumption) ?_) | (refine kept_snd (by with_reducible assumption) ?_)
    | with_reducible apply keptAt_bind | split

theorem kept_beginGme {s₀ : State} (n : ℕ) (o : EngOp) {s : State} (hk : s₀.Kept s) :
  KeptAt s₀ s (beginGme n o) := by
  unfold beginGme
  repeat' first
    | with_reducible assumption | with_reducible apply kept_beginCut | with_reducible apply kept_beginTranspose
    | with_reducible apply keptAt_pure | split

theorem kept_execGmeInstructionBegin {s₀ : State} (c : CoreId) (s : State) (hs : s₀.Kept s) :
  KeptOut s₀ (execGmeInstructionBegin c s) := by
  unfold execGmeInstructionBegin
  try dsimp only
  repeat' first
    | with_reducible assumption | with_reducible apply keptOut_next | with_reducible apply kept_runKeep
    | with_reducible apply kept_beginGme | with_reducible apply kept_modGme | with_reducible apply kept_id
    | with_reducible apply keptAt_bind | split | intro _

theorem kept_emptyRows {s₀ : State} (n : ℕ) (o : EngOp) {s : State} (hk : s₀.Kept s) :
  KeptAt s₀ s (emptyRows n o) := by
  unfold emptyRows
  try dsimp only
  repeat' first
    | with_reducible assumption | with_reducible apply keptAt_ite | with_reducible apply keptAt_get | with_reducible apply kept_writeRow
    | with_reducible apply kept_tileRow | with_reducible apply keptAt_pure | with_reducible apply keptAt_forM
    | (refine kept_fst (by with_reducible assumption) ?_) | (refine kept_snd (by with_reducible assumption) ?_)
    | with_reducible apply keptAt_bind | split | intro _

theorem kept_writeSddmm {s₀ : State} (n : ℕ) (o : EngOp) {s : State} (hk : s₀.Kept s) :
  KeptAt s₀ s (writeSddmm n o) := by
  unfold writeSddmm
  try dsimp only
  repeat' first
    | with_reducible assumption | with_reducible apply keptAt_ite | with_reducible apply keptAt_get | with_reducible apply kept_writeCodes

theorem kept_gmeCompute {s₀ : State} (n : ℕ) (o : EngOp) {s : State} (hk : s₀.Kept s) :
  KeptAt s₀ s (gmeCompute n o) := by
  unfold gmeCompute
  try dsimp only
  repeat' first
    | with_reducible assumption | with_reducible apply keptAt_ite | with_reducible apply keptAt_get | with_reducible apply kept_runMerge
    | with_reducible apply kept_runSort | with_reducible apply kept_coreWrite | with_reducible apply kept_writeSddmm
    | with_reducible apply kept_emptyRows | with_reducible apply kept_runGather | with_reducible apply kept_runUnpack
    | with_reducible apply kept_Move_copy | with_reducible apply kept_runScatter | with_reducible apply kept_coreRead
    | with_reducible apply kept_runSegsum | with_reducible apply kept_runSelect | with_reducible apply kept_runPack
    | with_reducible apply keptAt_pure | (refine kept_fst (by with_reducible assumption) ?_)
    | (refine kept_snd (by with_reducible assumption) ?_) | with_reducible apply keptAt_bind | split | intro _

theorem kept_raiseDrops {s₀ : State} (s : State) (n : ℕ) (o : EngOp) (l : List DropNote) (hs : s₀.Kept s) :
  s₀.Kept (State.raiseDrops s n o l) := by
  unfold State.raiseDrops
  try dsimp only
  repeat' first
    | with_reducible assumption | with_reducible apply kept_raise | with_reducible apply kept_foldl_fst
    | with_reducible apply kept_foldl_snd | with_reducible apply kept_foldl | (refine kept_fst (by with_reducible assumption) ?_)
    | (refine kept_snd (by with_reducible assumption) ?_) | intro _

theorem kept_execGmeInstructionComplete {s₀ : State} (c : CoreId) (s : State) (hs : s₀.Kept s) :
  KeptOut s₀ (execGmeInstructionComplete c s) := by
  unfold execGmeInstructionComplete
  try dsimp only
  repeat' first
    | with_reducible assumption | with_reducible apply keptOut_next | with_reducible apply kept_gmeCompute
    | with_reducible apply kept_modCore | with_reducible apply kept_runKeep | with_reducible apply kept_raiseDrops
    | with_reducible apply kept_completeSignal | with_reducible apply keptAt_ite | with_reducible apply keptAt_pure
    | with_reducible apply kept_id | (refine kept_fst (by with_reducible assumption) ?_)
    | (refine kept_snd (by with_reducible assumption) ?_) | split | intro _

end Sys2Proof.Machine
end

