-- ==== Sys2Proof/Laws/KeptFabric.lean ====
section
/-! SUPPORT. The queue and the form of memory stand (State.Kept): the fabric ports and the DMA engine. -/

namespace Sys2Proof.Machine

open State

theorem kept_owe {s₀ : State} (s : State) (l : List (ℕ × ℕ × ℕ)) (hs : s₀.Kept s) :
  s₀.Kept (owe s l) := by
  unfold owe
  try dsimp only
  repeat' first
    | with_reducible assumption | with_reducible apply kept_modPort | with_reducible apply kept_foldl_fst
    | with_reducible apply kept_foldl_snd | with_reducible apply kept_foldl | (refine kept_fst (by with_reducible assumption) ?_)
    | (refine kept_snd (by with_reducible assumption) ?_) | intro _

theorem kept_pump {s₀ : State} (s : State) (p : ℕ) (hs : s₀.Kept s) :
  s₀.Kept (State.pump s p).1 := by
  unfold State.pump
  try dsimp only
  repeat' first
    | with_reducible assumption | with_reducible apply kept_foldl | with_reducible apply kept_modPort | with_reducible apply kept_owe

theorem kept_enqueue {s₀ : State} (s : State) (p : ℕ) (w : Waiting) (hs : s₀.Kept s) :
  s₀.Kept (State.enqueue s p w) := by
  unfold State.enqueue
  try dsimp only
  repeat' first
    | with_reducible assumption | with_reducible apply kept_modPort

theorem kept_deliver {s₀ : State} (s : State) (p : ℕ) (f : Frame) (hs : s₀.Kept s) :
  s₀.Kept (State.deliver s p f) := by
  unfold State.deliver
  try dsimp only
  repeat' first
    | with_reducible assumption | with_reducible apply kept_modPort

theorem kept_bounce {s₀ : State} (s : State) (p : ℕ) (l : List Waiting) (hs : s₀.Kept s) :
  s₀.Kept (State.bounce s p l) := by
  unfold State.bounce
  try dsimp only
  repeat' first
    | with_reducible assumption | with_reducible apply kept_modPort | with_reducible apply kept_pump | with_reducible apply kept_enqueue
    | with_reducible apply kept_deliver | with_reducible apply kept_foldl_fst | with_reducible apply kept_foldl_snd
    | with_reducible apply kept_foldl | (refine kept_fst (by with_reducible assumption) ?_)
    | (refine kept_snd (by with_reducible assumption) ?_) | split | intro _

theorem kept_pumpAll {s₀ : State} (s : State) (p : ℕ) (hs : s₀.Kept s) :
  s₀.Kept (State.pumpAll s p) := by
  unfold State.pumpAll
  try dsimp only
  repeat' first
    | with_reducible assumption | with_reducible apply kept_bounce | with_reducible apply kept_pump

theorem kept_forward {s₀ : State} (s : State) (f : Frame) (source : Option (ℕ × ℕ)) (hs : s₀.Kept s) :
  s₀.Kept (State.forward s f source) := by
  unfold State.forward
  try dsimp only
  repeat' first
    | with_reducible assumption | with_reducible apply kept_enqueue | with_reducible apply kept_pumpAll | with_reducible apply kept_deliver
    | (refine kept_fst (by with_reducible assumption) ?_) | (refine kept_snd (by with_reducible assumption) ?_) | split

theorem kept_sendFrame {s₀ : State} (s : State) (f : Frame) (hs : s₀.Kept s) :
  s₀.Kept (State.sendFrame s f) := by
  unfold State.sendFrame
  try dsimp only
  repeat' first
    | with_reducible assumption | with_reducible apply kept_enqueue | with_reducible apply kept_pumpAll | with_reducible apply kept_forward
    | with_reducible apply kept_deliver | (refine kept_fst (by with_reducible assumption) ?_)
    | (refine kept_snd (by with_reducible assumption) ?_) | split

theorem kept_portEvent {s₀ : State} (s : State) (code : ℕ) (p : ℕ) (hs : s₀.Kept s) :
  s₀.Kept (State.portEvent s code p) := by
  unfold State.portEvent
  try dsimp only
  repeat' first
    | with_reducible assumption | with_reducible apply kept_raise

theorem kept_takeFrame {s₀ : State} (s : State) (p : ℕ) (f : Frame) (hs : s₀.Kept s) {t : State} (e : State.takeFrame s p f = some t) :
  s₀.Kept t := by
  unfold State.takeFrame at e
  try dsimp only at e
  repeat' split at e
  all_goals try cases e
  repeat' first
    | with_reducible assumption | with_reducible apply kept_modPort | with_reducible apply kept_owe

theorem kept_malformed {s₀ : State} (s : State) (p : ℕ) (hs : s₀.Kept s) :
  s₀.Kept (State.malformed s p) := by
  unfold State.malformed
  try dsimp only
  repeat' first
    | with_reducible assumption | with_reducible apply kept_modPort

theorem kept_linkCtrl {s₀ : State} (s : State) (p : Nat) (f : Frame) (hs : s₀.Kept s) :
    s₀.Kept (State.linkCtrl s p f) := by
  unfold State.linkCtrl
  try dsimp only
  repeat' first
    | with_reducible assumption
    | with_reducible apply kept_malformed
    | with_reducible apply kept_modPort
    | with_reducible apply kept_pumpAll
    | with_reducible apply kept_foldl_fst | with_reducible apply kept_foldl_snd | with_reducible apply kept_foldl
    | (refine kept_fst (by with_reducible assumption) ?_) | (refine kept_snd (by with_reducible assumption) ?_) | split

theorem kept_execLinkCtrl {s₀ : State} (p : PortId) (f : Frame) (s : State) (hs : s₀.Kept s) :
  KeptOut s₀ (execLinkCtrl p f s) := by
  unfold execLinkCtrl
  try dsimp only
  repeat' first
    | with_reducible assumption | with_reducible apply kept_linkCtrl | with_reducible apply keptOut_next | with_reducible apply kept_modPort | with_reducible apply kept_pumpAll
    | (refine kept_fst (by with_reducible assumption) ?_) | (refine kept_snd (by with_reducible assumption) ?_) | split

theorem kept_resend {s₀ : State} (s : State) (p : ℕ) (first : Frame → Bool) (hs : s₀.Kept s) :
  s₀.Kept (resend s p first) := by
  unfold resend
  try dsimp only
  repeat' first
    | with_reducible assumption | with_reducible apply kept_modPort | with_reducible apply kept_portEvent
    | (refine kept_fst (by with_reducible assumption) ?_) | (refine kept_snd (by with_reducible assumption) ?_) | split

theorem kept_linkNack {s₀ : State} (s : State) (p : Nat) (f : Frame) (hs : s₀.Kept s) :
    s₀.Kept (State.linkNack s p f) := by
  unfold State.linkNack
  try dsimp only
  repeat' first
    | with_reducible assumption
    | with_reducible apply kept_malformed
    | with_reducible apply kept_resend
    | with_reducible apply kept_foldl_fst | with_reducible apply kept_foldl_snd | with_reducible apply kept_foldl
    | (refine kept_fst (by with_reducible assumption) ?_) | (refine kept_snd (by with_reducible assumption) ?_) | split

theorem kept_execLinkNack {s₀ : State} (p : PortId) (f : Frame) (s : State) (hs : s₀.Kept s) :
  KeptOut s₀ (execLinkNack p f s) := by
  unfold execLinkNack
  try dsimp only
  repeat' first
    | with_reducible assumption | with_reducible apply kept_linkNack | with_reducible apply keptOut_next | with_reducible apply kept_resend
    | (refine kept_fst (by with_reducible assumption) ?_) | (refine kept_snd (by with_reducible assumption) ?_) | split

theorem kept_acceptFrame {s₀ : State} (s : State) (p : PortId) (f : Frame) (hs : s₀.Kept s) :
    s₀.Kept (State.acceptFrame s p f) := by
  unfold State.acceptFrame
  try dsimp only
  repeat' first
    | with_reducible assumption
    | with_reducible apply kept_bounce
    | with_reducible apply kept_deliver
    | with_reducible apply kept_forward
    | with_reducible apply kept_malformed
    | with_reducible apply kept_modPort
    | with_reducible apply kept_owe
    | with_reducible apply kept_foldl_fst | with_reducible apply kept_foldl_snd | with_reducible apply kept_foldl
    | (refine kept_fst (by with_reducible assumption) ?_) | (refine kept_snd (by with_reducible assumption) ?_) | split

theorem kept_execLinkFrameReceive {s₀ : State} (p : PortId) (f : Frame) (crc : W32) (s : State) (hs : s₀.Kept s) :
  KeptOut s₀ (execLinkFrameReceive p f crc s) := by
  unfold execLinkFrameReceive
  try dsimp only
  repeat' first
    | with_reducible assumption | with_reducible apply kept_acceptFrame | with_reducible apply kept_linkCtrl | with_reducible apply kept_linkNack | with_reducible apply keptOut_next | with_reducible apply kept_modPort | with_reducible apply kept_bounce
    | with_reducible apply kept_forward | with_reducible apply kept_owe | with_reducible apply kept_malformed
    | with_reducible apply kept_deliver | (refine kept_fst (by with_reducible assumption) ?_)
    | (refine kept_snd (by with_reducible assumption) ?_) | split

theorem kept_execLinkResendTimeout {s₀ : State} (p : PortId) (s : State) (hs : s₀.Kept s) :
  KeptOut s₀ (execLinkResendTimeout p s) := by
  unfold execLinkResendTimeout
  try dsimp only
  repeat' first
    | with_reducible assumption | with_reducible apply keptOut_next | with_reducible apply kept_resend
    | (refine kept_fst (by with_reducible assumption) ?_) | (refine kept_snd (by with_reducible assumption) ?_) | split

theorem kept_execLinkAckDue {s₀ : State} (p : PortId) (s : State) (hs : s₀.Kept s) :
  KeptOut s₀ (execLinkAckDue p s) := by
  unfold execLinkAckDue
  try dsimp only
  repeat' first
    | with_reducible assumption | with_reducible apply keptOut_next | with_reducible apply kept_modPort

theorem kept_drainAxis {s₀ : State} (s : State) (k : ℕ) (hs : s₀.Kept s) :
  s₀.Kept (State.drainAxis s k) := by
  unfold State.drainAxis
  try dsimp only
  repeat' first
    | with_reducible assumption | with_reducible apply kept_hold | with_reducible apply kept_modPort

theorem kept_autoBypass {s₀ : State} (s : State) (p : ℕ) (hs : s₀.Kept s) :
  s₀.Kept (State.autoBypass s p) := by
  unfold State.autoBypass
  try dsimp only
  repeat' first
    | with_reducible assumption | with_reducible apply kept_drainAxis | with_reducible apply kept_portEvent
    | (refine kept_fst (by with_reducible assumption) ?_) | (refine kept_snd (by with_reducible assumption) ?_) | split | intro _
    | (simp only [kept_mk, kept_fields])

theorem kept_portFault {s₀ : State} (s : State) (p : ℕ) (hs : s₀.Kept s) :
  s₀.Kept (State.portFault s p) := by
  unfold State.portFault
  try dsimp only
  repeat' first
    | with_reducible assumption | with_reducible apply kept_modPort | with_reducible apply kept_autoBypass

theorem kept_execPortTrained {s₀ : State} (p : PortId) (neighbour : ModAddr) (s : State) (hs : s₀.Kept s) :
  KeptOut s₀ (execPortTrained p neighbour s) := by
  unfold execPortTrained
  try dsimp only
  repeat' first
    | with_reducible assumption | with_reducible apply keptOut_next | with_reducible apply kept_modPort | with_reducible apply kept_pumpAll
    | with_reducible apply kept_portFault | with_reducible apply kept_portEvent | (refine kept_fst (by with_reducible assumption) ?_)
    | (refine kept_snd (by with_reducible assumption) ?_) | split

theorem kept_execPortSignalLoss {s₀ : State} (l : SignalLoss) (s : State) (hs : s₀.Kept s) :
  KeptOut s₀ (execPortSignalLoss l s) := by
  unfold execPortSignalLoss
  try dsimp only
  repeat' first
    | with_reducible assumption | with_reducible apply keptOut_next | with_reducible apply kept_modPort
    | with_reducible apply kept_portFault | with_reducible apply kept_portEvent | (refine kept_fst (by with_reducible assumption) ?_)
    | (refine kept_snd (by with_reducible assumption) ?_) | split

theorem kept_loseActive {s₀ : State} (s : State) (p : ℕ) (lane : ℕ) (hs : s₀.Kept s) :
  s₀.Kept (State.loseActive s p lane) := by
  unfold State.loseActive
  try dsimp only
  repeat' first
    | with_reducible assumption | with_reducible apply kept_modPort | with_reducible apply kept_portFault
    | with_reducible apply kept_portEvent | (refine kept_fst (by with_reducible assumption) ?_)
    | (refine kept_snd (by with_reducible assumption) ?_) | split

theorem kept_loseRecal {s₀ : State} (s : State) (p : ℕ) (r : Recal) (hs : s₀.Kept s) :
  s₀.Kept (State.loseRecal s p r) := by
  unfold State.loseRecal
  try dsimp only
  repeat' first
    | with_reducible assumption | with_reducible apply kept_modPort | with_reducible apply kept_portFault
    | with_reducible apply kept_portEvent | (refine kept_fst (by with_reducible assumption) ?_)
    | (refine kept_snd (by with_reducible assumption) ?_) | split

theorem kept_failLane {s₀ : State} (s : State) (p : ℕ) (lane : ℕ) (hs : s₀.Kept s) :
  s₀.Kept (State.failLane s p lane) := by
  unfold State.failLane
  try dsimp only
  repeat' first
    | with_reducible assumption | with_reducible apply kept_modPort | with_reducible apply kept_loseActive
    | with_reducible apply kept_loseRecal | (refine kept_fst (by with_reducible assumption) ?_)
    | (refine kept_snd (by with_reducible assumption) ?_) | split

theorem kept_execLaneFailure {s₀ : State} (p : PortId) (e : LaneEvent) (s : State) (hs : s₀.Kept s) :
  KeptOut s₀ (execLaneFailure p e s) := by
  unfold execLaneFailure
  try dsimp only
  repeat' first
    | with_reducible assumption | with_reducible apply keptOut_next | with_reducible apply kept_modPort | with_reducible apply kept_failLane
    | (refine kept_fst (by with_reducible assumption) ?_) | (refine kept_snd (by with_reducible assumption) ?_) | split

theorem kept_recalibrate {s₀ : State} (s : State) (p : ℕ) (lane : ℕ) (hs : s₀.Kept s) :
  s₀.Kept (recalibrate s p lane) := by
  unfold recalibrate
  try dsimp only
  repeat' first
    | with_reducible assumption | with_reducible apply kept_modPort

theorem kept_execLaneRecalibration {s₀ : State} (p : PortId) (lane : ℕ) (s : State) (hs : s₀.Kept s) :
  KeptOut s₀ (execLaneRecalibration p lane s) := by
  unfold execLaneRecalibration
  try dsimp only
  repeat' first
    | with_reducible assumption | with_reducible apply keptOut_next | with_reducible apply kept_modPort
    | with_reducible apply kept_recalibrate | (refine kept_fst (by with_reducible assumption) ?_)
    | (refine kept_snd (by with_reducible assumption) ?_) | split

theorem kept_execRecalDeferExpiry {s₀ : State} (p : PortId) (atLeast1ms : Bool) (s : State) (hs : s₀.Kept s) :
  KeptOut s₀ (execRecalDeferExpiry p atLeast1ms s) := by
  unfold execRecalDeferExpiry
  try dsimp only
  repeat' first
    | with_reducible assumption | with_reducible apply keptOut_next | with_reducible apply kept_modPort
    | with_reducible apply kept_recalibrate | (refine kept_fst (by with_reducible assumption) ?_)
    | (refine kept_snd (by with_reducible assumption) ?_) | split

theorem kept_execLaneRecalEnd {s₀ : State} (p : PortId) (lane : ℕ) (s : State) (hs : s₀.Kept s) :
  KeptOut s₀ (execLaneRecalEnd p lane s) := by
  unfold execLaneRecalEnd
  try dsimp only
  repeat' first
    | with_reducible assumption | with_reducible apply keptOut_next | with_reducible apply kept_modPort
    | (refine kept_fst (by with_reducible assumption) ?_) | (refine kept_snd (by with_reducible assumption) ?_) | split

theorem kept_closeAxis {s₀ : State} (s : State) (k : ℕ) (hs : s₀.Kept s) :
  s₀.Kept (State.closeAxis s k) := by
  unfold State.closeAxis
  try dsimp only
  repeat' first
    | with_reducible assumption | with_reducible apply kept_modPort | (refine kept_fst (by with_reducible assumption) ?_)
    | (refine kept_snd (by with_reducible assumption) ?_) | split | intro _ | (simp only [kept_mk, kept_fields])

theorem kept_writeRemote {s₀ : State} (p : ℕ) (x1 : State) (x2 : ℕ) (x3 : List (List Byte)) (hx1 : s₀.Kept x1) :
  s₀.Kept (writeRemote p x1 x2 x3).1 := by
  unfold writeRemote
  try dsimp only
  repeat' first
    | with_reducible assumption | with_reducible apply kept_writeLine | with_reducible apply kept_writeRemote
    | (refine kept_fst (by with_reducible assumption) ?_) | (refine kept_snd (by with_reducible assumption) ?_) | split

theorem kept_slotWritten {s₀ : State} (s : State) (a : Nat) (hs : s₀.Kept s) :
    s₀.Kept (State.slotWritten s a) := by
  unfold State.slotWritten
  try dsimp only
  repeat' first
    | with_reducible assumption
    | with_reducible apply kept_foldl_fst | with_reducible apply kept_foldl_snd | with_reducible apply kept_foldl
    | (refine kept_fst (by with_reducible assumption) ?_) | (refine kept_snd (by with_reducible assumption) ?_) | split | intro _
    | (simp only [kept_mk, kept_fields])

theorem kept_noteCopies {s₀ : State} (s : State) (f : Frame) (a : Nat) (st : List Nat) (hs : s₀.Kept s) :
    s₀.Kept (State.noteCopies s f a st) := by
  unfold State.noteCopies
  try dsimp only
  repeat' first
    | with_reducible assumption
    | with_reducible apply kept_slotWritten
    | with_reducible apply kept_foldl_fst | with_reducible apply kept_foldl_snd | with_reducible apply kept_foldl
    | (refine kept_fst (by with_reducible assumption) ?_) | (refine kept_snd (by with_reducible assumption) ?_) | split | intro _

theorem kept_sendAck {s₀ : State} (s : State) (f : Frame) (a : ℕ) (n : ℕ) (hs : s₀.Kept s) :
  s₀.Kept (State.sendAck s f a n) := by
  unfold State.sendAck
  try dsimp only
  repeat' first
    | with_reducible assumption | with_reducible apply kept_sendFrame | (refine kept_fst (by with_reducible assumption) ?_)
    | (refine kept_snd (by with_reducible assumption) ?_) | split | intro _ | (simp only [kept_mk, kept_fields])

theorem kept_remoteWrite {s₀ : State} (s : State) (p : ℕ) (f : Frame) (acked : Bool) (hs : s₀.Kept s) :
  s₀.Kept (remoteWrite s p f acked) := by
  unfold remoteWrite
  try dsimp only
  repeat' first
    | with_reducible assumption | with_reducible apply kept_noteCopies | with_reducible apply kept_modPort | with_reducible apply kept_writeRemote
    | with_reducible apply kept_sendFrame | with_reducible apply kept_sendAck | with_reducible apply kept_malformed
    | (refine kept_fst (by with_reducible assumption) ?_) | (refine kept_snd (by with_reducible assumption) ?_) | split

theorem kept_execWriteFrame {s₀ : State} (p : PortId) (f : Frame) (s : State) (hs : s₀.Kept s) :
  KeptOut s₀ (execWriteFrame p f s) := by
  unfold execWriteFrame
  try dsimp only
  repeat' first
    | with_reducible assumption | with_reducible apply keptOut_next | with_reducible apply kept_remoteWrite
    | (refine kept_takeFrame _ _ _ ?_ (by with_reducible assumption)) | (refine kept_fst (by with_reducible assumption) ?_)
    | (refine kept_snd (by with_reducible assumption) ?_) | split

theorem kept_execWriteAcked {s₀ : State} (p : PortId) (f : Frame) (s : State) (hs : s₀.Kept s) :
  KeptOut s₀ (execWriteAcked p f s) := by
  unfold execWriteAcked
  try dsimp only
  repeat' first
    | with_reducible assumption | with_reducible apply keptOut_next | with_reducible apply kept_remoteWrite
    | (refine kept_takeFrame _ _ _ ?_ (by with_reducible assumption)) | (refine kept_fst (by with_reducible assumption) ?_)
    | (refine kept_snd (by with_reducible assumption) ?_) | split

theorem kept_readRemote {s₀ : State} (p : ℕ) (x1 : State) (x2 : List ℕ) (hx1 : s₀.Kept x1) :
  s₀.Kept (readRemote p x1 x2).1 := by
  unfold readRemote
  try dsimp only
  repeat' first
    | with_reducible assumption | with_reducible apply kept_modPort | with_reducible apply kept_raiseUe | with_reducible apply kept_readLine
    | with_reducible apply kept_readRemote | (refine kept_fst (by with_reducible assumption) ?_)
    | (refine kept_snd (by with_reducible assumption) ?_) | with_reducible apply keptEx_ok | with_reducible apply keptEx_error | split

theorem kept_answerRead {s₀ : State} (s : State) (p : PortId) (f : Frame) (hs : s₀.Kept s) :
  s₀.Kept (State.answerRead s p f) := by
  unfold State.answerRead
  try dsimp only
  repeat' first
    | with_reducible assumption | with_reducible apply kept_readRemote | with_reducible apply kept_sendFrame
    | (refine kept_fst (by with_reducible assumption) ?_) | (refine kept_snd (by with_reducible assumption) ?_)
    | with_reducible apply keptEx_ok | with_reducible apply keptEx_error | split | intro _ | (simp only [kept_mk, kept_fields])

theorem kept_execReadReq {s₀ : State} (p : PortId) (f : Frame) (s : State) (hs : s₀.Kept s) :
  KeptOut s₀ (execReadReq p f s) := by
  unfold execReadReq
  try dsimp only
  repeat' first
    | with_reducible assumption | with_reducible apply keptOut_next | with_reducible apply kept_answerRead
    | (refine kept_takeFrame _ _ _ ?_ (by with_reducible assumption)) | (refine kept_fst (by with_reducible assumption) ?_)
    | (refine kept_snd (by with_reducible assumption) ?_) | split

theorem kept_sendSignal {s₀ : State} (s : State) (c : ℕ) (g : OutSignal) (hs : s₀.Kept s) :
  s₀.Kept (State.sendSignal s c g) := by
  unfold State.sendSignal
  try dsimp only
  repeat' first
    | with_reducible assumption | with_reducible apply kept_sendFrame | with_reducible apply kept_incFlag
    | (refine kept_fst (by with_reducible assumption) ?_) | (refine kept_snd (by with_reducible assumption) ?_) | split

theorem kept_flushRemote {s₀ : State} (s : State) (c : ℕ) (m : ModAddr) (a : ℕ) (hs : s₀.Kept s) :
  s₀.Kept (State.flushRemote s c m a) := by
  unfold State.flushRemote
  try dsimp only
  repeat' first
    | with_reducible assumption | with_reducible apply kept_modCore | with_reducible apply kept_sendSignal
    | with_reducible apply kept_foldl_fst | with_reducible apply kept_foldl_snd | with_reducible apply kept_foldl
    | (refine kept_fst (by with_reducible assumption) ?_) | (refine kept_snd (by with_reducible assumption) ?_) | split | intro _

theorem kept_execIncrement {s₀ : State} (src : IncSource) (s : State) (hs : s₀.Kept s) :
  KeptOut s₀ (execIncrement src s) := by
  unfold execIncrement
  try dsimp only
  repeat' first
    | with_reducible assumption | with_reducible apply keptOut_next | with_reducible apply kept_flushArrivals
    | with_reducible apply kept_modCore | with_reducible apply kept_incFlag | with_reducible apply kept_sendSignal
    | (refine kept_takeFrame _ _ _ ?_ (by with_reducible assumption)) | (refine kept_fst (by with_reducible assumption) ?_)
    | (refine kept_snd (by with_reducible assumption) ?_) | split

theorem kept_modChan {s₀ : State} (s : State) (n : ℕ) (ch : ℕ) (f : DmaChan → DmaChan) (hs : s₀.Kept s) :
  s₀.Kept (State.modChan s n ch f) := by
  unfold State.modChan
  try dsimp only
  repeat' first
    | with_reducible assumption | with_reducible apply kept_modCore

theorem kept_execDmaStart {s₀ : State} (c : CoreId) (t : Stream) (w : Word128) (s : State) (hs : s₀.Kept s) :
  KeptIf s₀ (execDmaStart c t w s) := by
  unfold execDmaStart
  try dsimp only
  repeat' first
    | with_reducible assumption | with_reducible apply keptIf_next | exact keptIf_refused _ | with_reducible apply kept_issueEngine
    | with_reducible apply kept_id

theorem kept_execDmaStop {s₀ : State} (c : CoreId) (t : Stream) (w : Word128) (s : State) (hs : s₀.Kept s) :
  KeptIf s₀ (execDmaStop c t w s) := by
  unfold execDmaStop
  try dsimp only
  repeat' first
    | with_reducible assumption | with_reducible apply keptIf_next | exact keptIf_refused _ | with_reducible apply kept_issueEngine
    | with_reducible apply kept_id

theorem kept_execDmaQueueAdmit {s₀ : State} (c : CoreId) (s : State) (hs : s₀.Kept s) :
  KeptOut s₀ (execDmaQueueAdmit c s) := by
  unfold execDmaQueueAdmit
  try dsimp only
  repeat' first
    | with_reducible assumption | with_reducible apply keptOut_next | with_reducible apply kept_modChan | with_reducible apply kept_modCore
    | with_reducible apply kept_completeSignal | (refine kept_fst (by with_reducible assumption) ?_)
    | (refine kept_snd (by with_reducible assumption) ?_) | split

theorem kept_putRecord {s₀ : State} (s : State) (n : ℕ) (ch : ℕ) (b : RecordBody) (hs : s₀.Kept s) :
  s₀.Kept (State.putRecord s n ch b) := by
  unfold State.putRecord
  try dsimp only
  repeat' first
    | with_reducible assumption | with_reducible apply kept_modChan | with_reducible apply kept_incFlag
    | with_reducible apply kept_writeLine

theorem kept_dmaRead {s₀ : State} (s : State) (n : ℕ) (a : ℕ) (hs : s₀.Kept s) :
  s₀.Kept (dmaRead s n a).1 := by
  unfold dmaRead
  try dsimp only
  repeat' first
    | with_reducible assumption | with_reducible apply kept_raiseUe | with_reducible apply kept_readLine
    | (refine kept_fst (by with_reducible assumption) ?_) | (refine kept_snd (by with_reducible assumption) ?_)
    | with_reducible apply keptEx_ok | with_reducible apply keptEx_error | split

theorem kept_dmaGather {s₀ : State} (n : ℕ) (x1 : State) (x2 : Tab (List Byte)) (x3 : List ℕ) (hx1 : s₀.Kept x1) :
  s₀.Kept (dmaGather n x1 x2 x3).1 := by
  unfold dmaGather
  try dsimp only
  repeat' first
    | with_reducible assumption | with_reducible apply kept_dmaRead | with_reducible apply kept_dmaGather
    | (refine kept_fst (by with_reducible assumption) ?_) | (refine kept_snd (by with_reducible assumption) ?_)
    | with_reducible apply keptEx_ok | with_reducible apply keptEx_error | split

theorem kept_dmaWrites {s₀ : State} (n : ℕ) (m : Move) (c : Tab (List Byte)) (x3 : State) (x4 : ℕ) (x5 : List (ℕ × List ℕ × ℕ))
    (hx3 : s₀.Kept x3) :
  s₀.Kept (dmaWrites n m c x3 x4 x5).1 := by
  unfold dmaWrites
  try dsimp only
  repeat' first
    | with_reducible assumption | with_reducible apply kept_writeLine | with_reducible apply kept_dmaWrites
    | (refine kept_fst (by with_reducible assumption) ?_) | (refine kept_snd (by with_reducible assumption) ?_) | split

theorem kept_dmaCopy {s₀ : State} (n : ℕ) (m : Move) (x2 : State) (x3 : Tab (List Byte)) (x4 : ℕ) (x5 : List (List (ℕ × List ℕ × ℕ)))
    (hx2 : s₀.Kept x2) :
  s₀.Kept (dmaCopy n m x2 x3 x4 x5).1 := by
  unfold dmaCopy
  try dsimp only
  repeat' first
    | with_reducible assumption | with_reducible apply kept_dmaGather | with_reducible apply kept_dmaWrites
    | with_reducible apply kept_dmaCopy | (refine kept_fst (by with_reducible assumption) ?_)
    | (refine kept_snd (by with_reducible assumption) ?_) | with_reducible apply keptEx_ok | with_reducible apply keptEx_error | split

theorem kept_dmaLocal {s₀ : State} (s : State) (n : ℕ) (m : Move) (got : Tab (List Byte)) (hs : s₀.Kept s) :
  s₀.Kept (dmaLocal s n m got).1 := by
  unfold dmaLocal
  try dsimp only
  repeat' first
    | with_reducible assumption | with_reducible apply kept_dmaGather | with_reducible apply kept_dmaCopy
    | (refine kept_fst (by with_reducible assumption) ?_) | (refine kept_snd (by with_reducible assumption) ?_)
    | with_reducible apply keptEx_ok | with_reducible apply keptEx_error | split

theorem kept_outAdd {s₀ : State} (s : State) (o : Outstanding) (hs : s₀.Kept s) :
  s₀.Kept (State.outAdd s o) := by
  unfold State.outAdd
  try dsimp only
  repeat' first
    | with_reducible assumption | (refine kept_fst (by with_reducible assumption) ?_) | (refine kept_snd (by with_reducible assumption) ?_)
    | intro _ | (simp only [kept_mk, kept_fields])

theorem kept_modXfer {s₀ : State} (s : State) (n : ℕ) (ch : ℕ) (f : Xfer → Xfer) (hs : s₀.Kept s) :
  s₀.Kept (State.modXfer s n ch f) := by
  unfold State.modXfer
  try dsimp only
  repeat' first
    | with_reducible assumption | with_reducible apply kept_modChan

theorem kept_dmaNext {s₀ : State} (s : State) (n : ℕ) (m : Move) (x : Xfer) (k : ℕ) (hs : s₀.Kept s) :
  s₀.Kept (dmaNext s n m x k).1 := by
  unfold dmaNext
  try dsimp only
  repeat' first
    | with_reducible assumption | with_reducible apply kept_dmaGather | (refine kept_fst (by with_reducible assumption) ?_)
    | (refine kept_snd (by with_reducible assumption) ?_) | with_reducible apply keptEx_ok | with_reducible apply keptEx_error | split

theorem kept_dmaSend {s₀ : State} (n : ℕ) (ch : ℕ) (m : Move) (x3 : ℕ) (x4 : State) (hx4 : s₀.Kept x4) :
  s₀.Kept (dmaSend n ch m x3 x4) := by
  unfold dmaSend
  try dsimp only
  repeat' first
    | with_reducible assumption | with_reducible apply kept_flushRemote | with_reducible apply kept_outAdd
    | with_reducible apply kept_dmaNext | with_reducible apply kept_sendFrame | with_reducible apply kept_modXfer
    | with_reducible apply kept_dmaSend | (refine kept_fst (by with_reducible assumption) ?_)
    | (refine kept_snd (by with_reducible assumption) ?_) | with_reducible apply keptEx_ok | with_reducible apply keptEx_error | split

theorem kept_dmaSignal {s₀ : State} (s : State) (n : ℕ) (o : EngOp) (hs : s₀.Kept s) :
  s₀.Kept (State.dmaSignal s n o) := by
  unfold State.dmaSignal
  try dsimp only
  repeat' first
    | with_reducible assumption | with_reducible apply kept_flushRemote | with_reducible apply kept_sendSignal
    | with_reducible apply kept_completeSignal | (refine kept_fst (by with_reducible assumption) ?_)
    | (refine kept_snd (by with_reducible assumption) ?_) | split

theorem kept_dmaSettle {s₀ : State} (s : State) (n : ℕ) (ch : ℕ) (hs : s₀.Kept s) :
  s₀.Kept (State.dmaSettle s n ch) := by
  unfold State.dmaSettle
  try dsimp only
  repeat' first
    | with_reducible assumption | with_reducible apply kept_dmaSignal | with_reducible apply kept_modXfer
    | (refine kept_fst (by with_reducible assumption) ?_) | (refine kept_snd (by with_reducible assumption) ?_) | split

theorem kept_dmaGoOn {s₀ : State} (s : State) (n : ℕ) (ch : ℕ) (hs : s₀.Kept s) :
  s₀.Kept (State.dmaGoOn s n ch) := by
  unfold State.dmaGoOn
  try dsimp only
  repeat' first
    | with_reducible assumption | with_reducible apply kept_dmaSend | with_reducible apply kept_dmaSettle
    | (refine kept_fst (by with_reducible assumption) ?_) | (refine kept_snd (by with_reducible assumption) ?_) | split

theorem kept_detach {s₀ : State} (s : State) (n : ℕ) (ch : ℕ) (to_ : ℕ) (hs : s₀.Kept s) :
  s₀.Kept (State.detach s n ch to_) := by
  unfold State.detach
  try dsimp only
  repeat' first
    | with_reducible assumption | (refine kept_fst (by with_reducible assumption) ?_) | (refine kept_snd (by with_reducible assumption) ?_)
    | split | intro _ | (simp only [kept_mk, kept_fields])

theorem kept_deferSignal {s₀ : State} (s : State) (n : ℕ) (ch : ℕ) (x : Xfer) (hs : s₀.Kept s) :
  s₀.Kept (State.deferSignal s n ch x) := by
  unfold State.deferSignal
  try dsimp only
  repeat' first
    | with_reducible assumption | with_reducible apply kept_foldl | with_reducible apply kept_id | with_reducible apply kept_modCore | with_reducible apply kept_detach

theorem kept_dmaFinish {s₀ : State} (s : State) (n : ℕ) (ch : ℕ) (hs : s₀.Kept s) :
  s₀.Kept (State.dmaFinish s n ch) := by
  unfold State.dmaFinish
  try dsimp only
  repeat' first
    | with_reducible assumption | with_reducible apply kept_modChan | with_reducible apply kept_dmaSignal | with_reducible apply kept_raise
    | with_reducible apply kept_deferSignal | with_reducible apply kept_detach | with_reducible apply kept_haltOp
    | with_reducible apply kept_putRecord | (refine kept_fst (by with_reducible assumption) ?_)
    | (refine kept_snd (by with_reducible assumption) ?_) | split

theorem kept_lateAnswered {s₀ : State} (s : State) (n : ℕ) (id : ℕ) (hs : s₀.Kept s) :
  s₀.Kept (State.lateAnswered s n id) := by
  unfold State.lateAnswered
  try dsimp only
  repeat' first
    | with_reducible assumption | with_reducible apply kept_id | with_reducible apply kept_modCore | with_reducible apply kept_dmaSignal
    | (refine kept_fst (by with_reducible assumption) ?_) | (refine kept_snd (by with_reducible assumption) ?_) | split

theorem kept_lateFails {s₀ : State} (s : State) (n : ℕ) (id : ℕ) (hs : s₀.Kept s) :
  s₀.Kept (State.lateFails s n id) := by
  unfold State.lateFails
  try dsimp only
  repeat' first
    | with_reducible assumption | with_reducible apply kept_id | with_reducible apply kept_modCore

theorem kept_execTransferBegin {s₀ : State} (c : CoreId) (ch : ChanId) (s : State) (hs : s₀.Kept s) :
  KeptOut s₀ (execTransferBegin c ch s) := by
  unfold execTransferBegin
  try dsimp only
  repeat' first
    | with_reducible assumption | with_reducible apply keptOut_next | with_reducible apply kept_modChan
    | with_reducible apply kept_dmaFinish | with_reducible apply kept_dmaGoOn | (refine kept_fst (by with_reducible assumption) ?_)
    | (refine kept_snd (by with_reducible assumption) ?_) | split

theorem kept_execCompletionRecord {s₀ : State} (c : CoreId) (ch : ChanId) (s : State) (hs : s₀.Kept s) :
  KeptOut s₀ (execCompletionRecord c ch s) := by
  unfold execCompletionRecord
  try dsimp only
  repeat' first
    | with_reducible assumption | with_reducible apply keptOut_next | with_reducible apply kept_dmaFinish
    | with_reducible apply kept_dmaLocal | with_reducible apply kept_modXfer | (refine kept_fst (by with_reducible assumption) ?_)
    | (refine kept_snd (by with_reducible assumption) ?_) | split

theorem kept_execStoppedRecord {s₀ : State} (c : CoreId) (ch : ChanId) (s : State) (hs : s₀.Kept s) :
  KeptOut s₀ (execStoppedRecord c ch s) := by
  unfold execStoppedRecord
  try dsimp only
  repeat' first
    | with_reducible assumption | with_reducible apply keptOut_next | with_reducible apply kept_modChan
    | with_reducible apply kept_putRecord | (refine kept_fst (by with_reducible assumption) ?_)
    | (refine kept_snd (by with_reducible assumption) ?_) | split

end Sys2Proof.Machine
end

