-- ==== Sys2Proof/Laws/KeptValley.lean ====
section
/-! SUPPORT. The queue and the form of memory stand (State.Kept): expert traffic. -/

namespace Sys2Proof.Machine

open State

theorem kept_modVal {s₀ : State} (s : State) (c : ℕ) (f : Valley → Valley) (hs : s₀.Kept s) :
  s₀.Kept (State.modVal s c f) := by
  unfold State.modVal
  try dsimp only
  repeat' first
    | with_reducible assumption | with_reducible apply kept_modCourse

theorem kept_sendVal {s₀ : State} (s : State) (n : ℕ) (module : ModAddr) (txn : ℕ) (line : ℕ) (m : ValMsg) (hs : s₀.Kept s) :
  s₀.Kept (State.sendVal s n module txn line m) := by
  unfold State.sendVal
  try dsimp only
  repeat' first
    | with_reducible assumption | with_reducible apply kept_sendFrame | with_reducible apply kept_foldl_fst
    | with_reducible apply kept_foldl_snd | with_reducible apply kept_foldl | (refine kept_fst (by with_reducible assumption) ?_)
    | (refine kept_snd (by with_reducible assumption) ?_) | split | intro _ | (simp only [kept_mk, kept_fields])

theorem kept_takeFrames {s₀ : State} (p : ℕ) (x1 : State) (x2 : List Frame) (hx1 : s₀.Kept x1) {t : State}
    (e : takeFrames p x1 x2 = some t) :
  s₀.Kept t := by
  revert t x1
  induction x2 with
  | nil => intro s hs t e; simp only [takeFrames, Option.some.injEq] at e; exact e ▸ hs
  | cons f r ih =>
    intro s hs t e
    simp only [takeFrames, Option.bind_eq_some_iff] at e
    obtain ⟨u, hu, e⟩ := e
    exact ih u (kept_takeFrame _ _ _ hs hu) e

theorem kept_takeVal {s₀ : State} (s : State) (m : ValMsg) (hs : s₀.Kept s) {t : State} (e : State.takeVal s m = some t) :
  s₀.Kept t := by
  unfold State.takeVal at e
  dsimp only at e
  split at e
  · simp only [Option.map_eq_some_iff] at e
    obtain ⟨i, _, rfl⟩ := e
    exact kept_same hs rfl rfl
  · split at e
    · exact kept_takeFrames _ _ _ hs e
    · cases e
      exact hs

theorem kept_cancelBlock {s₀ : State} (s : State) (c : ℕ) (block : ℕ) (e : Byte) (hs : s₀.Kept s) :
  s₀.Kept (State.cancelBlock s c block e) := by
  unfold State.cancelBlock
  try dsimp only
  repeat' first
    | with_reducible assumption | with_reducible apply kept_forward | with_reducible apply kept_modVal | (refine kept_fst (by with_reducible assumption) ?_)
    | (refine kept_snd (by with_reducible assumption) ?_) | split | intro _ | (simp only [kept_mk, kept_fields])

theorem kept_staleDrop {s₀ : State} (s : State) (c : ℕ) (block : ℕ) (hs : s₀.Kept s) :
  s₀.Kept (State.staleDrop s c block) := by
  unfold State.staleDrop
  try dsimp only
  repeat' first
    | with_reducible assumption | with_reducible apply kept_modVal | with_reducible apply kept_raise
    | (refine kept_fst (by with_reducible assumption) ?_) | (refine kept_snd (by with_reducible assumption) ?_) | split

theorem kept_epochRule {s₀ : State} (s : State) (c : ℕ) (tag : BitVec 16) (e : Byte) (hs : s₀.Kept s) :
  s₀.Kept (State.epochRule s c tag e).1 := by
  unfold State.epochRule
  try dsimp only
  repeat' first
    | with_reducible assumption | with_reducible apply kept_staleDrop | with_reducible apply kept_cancelBlock
    | (refine kept_fst (by with_reducible assumption) ?_) | (refine kept_snd (by with_reducible assumption) ?_) | split

theorem kept_valFault {s₀ : State} (s : State) (c : ℕ) (addr : ℕ) (cause : ℕ) (hs : s₀.Kept s) :
  s₀.Kept (State.valFault s c addr cause) := by
  unfold State.valFault
  try dsimp only
  repeat' first
    | with_reducible assumption | with_reducible apply kept_modVal | with_reducible apply kept_raise

theorem kept_valLines {s₀ : State} (n : ℕ) (x1 : List ℕ) {s : State} (hk : s₀.Kept s) :
  KeptAt s₀ s (valLines n x1) := by
  unfold valLines
  try dsimp only
  repeat' first
    | with_reducible assumption | with_reducible apply keptAt_ite | with_reducible apply keptAt_get | with_reducible apply keptAt_set_bind
    | with_reducible apply keptAt_set | with_reducible apply kept_raiseUe | with_reducible apply kept_readLine
    | with_reducible apply kept_valLines | with_reducible apply keptAt_pure | with_reducible apply keptAt_stop
    | (refine kept_fst (by with_reducible assumption) ?_) | (refine kept_snd (by with_reducible assumption) ?_)
    | with_reducible apply keptAt_bind | split | intro _

theorem kept_valCodes {s₀ : State} (n : ℕ) (d : Desc) (idx : List ℕ) {s : State} (hk : s₀.Kept s) :
  KeptAt s₀ s (valCodes n d idx) := by
  unfold valCodes
  try dsimp only
  repeat' first
    | with_reducible assumption | with_reducible apply kept_valLines | with_reducible apply keptAt_pure
    | (refine kept_fst (by with_reducible assumption) ?_) | (refine kept_snd (by with_reducible assumption) ?_)
    | with_reducible apply keptAt_bind | split | intro _

theorem kept_valElem {s₀ : State} (n : ℕ) (d : Desc) (t : ℕ) {s : State} (hk : s₀.Kept s) :
  KeptAt s₀ s (valElem n d t) := by
  unfold valElem
  try dsimp only
  repeat' first
    | with_reducible assumption | with_reducible apply kept_valLines | with_reducible apply keptAt_pure
    | (refine kept_fst (by with_reducible assumption) ?_) | (refine kept_snd (by with_reducible assumption) ?_)
    | with_reducible apply keptAt_bind | split | intro _

theorem kept_putLines {s₀ : State} (master : ℕ) (x1 : ℕ) (x2 : State) (x3 : ℕ) (x4 : List Byte) (hx2 : s₀.Kept x2) :
  s₀.Kept (putLines master x1 x2 x3 x4) := by
  unfold putLines
  try dsimp only
  repeat' first
    | with_reducible assumption | with_reducible apply kept_writeLine | with_reducible apply kept_putLines
    | (refine kept_fst (by with_reducible assumption) ?_) | (refine kept_snd (by with_reducible assumption) ?_) | split

theorem kept_valPut {s₀ : State} (s : State) (c : ℕ) (a : ℕ) (lines : ℕ) (data : List Byte) (hs : s₀.Kept s) :
  s₀.Kept (State.valPut s c a lines data).1 := by
  unfold State.valPut
  try dsimp only
  repeat' first
    | with_reducible assumption | with_reducible apply kept_putLines | with_reducible apply kept_valFault
    | (refine kept_fst (by with_reducible assumption) ?_) | (refine kept_snd (by with_reducible assumption) ?_) | split

theorem kept_valGet {s₀ : State} (s : State) (c : ℕ) (lines : List ℕ) (hs : s₀.Kept s) :
  s₀.Kept (State.valGet s c lines).1 := by
  unfold State.valGet
  try dsimp only
  repeat' first
    | with_reducible assumption | with_reducible apply kept_raiseUe | with_reducible apply kept_readLine
    | with_reducible apply kept_valFault | with_reducible apply kept_foldl_fst | with_reducible apply kept_foldl_snd
    | with_reducible apply kept_foldl | (refine kept_fst (by with_reducible assumption) ?_)
    | (refine kept_snd (by with_reducible assumption) ?_) | split | intro _

theorem kept_issueVal {s₀ : State} (s : State) (n : ℕ) (t : Stream) (w : Word128) (r : IssueReq) (regs : List ℕ) (hs : s₀.Kept s) :
  KeptIf s₀ (State.issueVal s n t w r regs) := by
  unfold State.issueVal
  try dsimp only
  repeat' first
    | with_reducible assumption | with_reducible apply keptIf_next | exact keptIf_refused _ | (with_reducible apply keptEx_ok)
    | with_reducible apply kept_issue | with_reducible apply kept_modCore | (refine kept_fst (by with_reducible assumption) ?_)
    | (refine kept_snd (by with_reducible assumption) ?_) | with_reducible apply keptEx_ok | intro _

theorem kept_execValDispatch {s₀ : State} (c : CoreId) (t : Stream) (w : Word128) (s : State) (hs : s₀.Kept s) :
  KeptIf s₀ (execValDispatch c t w s) := by
  unfold execValDispatch
  try dsimp only
  repeat' first
    | with_reducible assumption | with_reducible apply keptIf_next | exact keptIf_refused _ | with_reducible apply kept_issueVal

theorem kept_execValCombine {s₀ : State} (c : CoreId) (t : Stream) (w : Word128) (s : State) (hs : s₀.Kept s) :
  KeptIf s₀ (execValCombine c t w s) := by
  unfold execValCombine
  try dsimp only
  repeat' first
    | with_reducible assumption | with_reducible apply keptIf_next | exact keptIf_refused _ | with_reducible apply kept_issueVal

theorem kept_execValReturn {s₀ : State} (c : CoreId) (t : Stream) (w : Word128) (s : State) (hs : s₀.Kept s) :
  KeptIf s₀ (execValReturn c t w s) := by
  unfold execValReturn
  try dsimp only
  repeat' first
    | with_reducible assumption | with_reducible apply keptIf_next | exact keptIf_refused _ | with_reducible apply kept_issueVal

theorem kept_execValCancel {s₀ : State} (c : CoreId) (t : Stream) (w : Word128) (s : State) (hs : s₀.Kept s) :
  KeptIf s₀ (execValCancel c t w s) := by
  unfold execValCancel
  try dsimp only
  repeat' first
    | with_reducible assumption | with_reducible apply keptIf_next | exact keptIf_refused _ | with_reducible apply kept_issueVal

theorem kept_readToken {s₀ : State} (n : ℕ) (o : EngOp) (k : ℕ) (E : ℕ) (t : ℕ) {s : State} (hk : s₀.Kept s) :
  KeptAt s₀ s (readToken n o k E t) := by
  unfold readToken
  try dsimp only
  repeat' first
    | with_reducible assumption | with_reducible apply keptAt_modify | with_reducible apply kept_valElem | with_reducible apply kept_modCore
    | with_reducible apply kept_valCodes | with_reducible apply keptAt_pure | (refine kept_fst (by with_reducible assumption) ?_)
    | (refine kept_snd (by with_reducible assumption) ?_) | with_reducible apply keptAt_bind | split | intro _

theorem kept_noteCopy {s₀ : State} (s : State) (c : ℕ) (txn : ℕ) (m : ModAddr) (token : ℕ) (b : BitVec 16) (hs : s₀.Kept s) :
  s₀.Kept (noteCopy s c txn m token b) := by
  unfold noteCopy
  try dsimp only
  repeat' first
    | with_reducible assumption | with_reducible apply kept_modVal

theorem kept_openTxn {s₀ : State} (s : State) (c : ℕ) (x : ValTxn) (hs : s₀.Kept s) :
  s₀.Kept (State.openTxn s c x).2 := by
  unfold State.openTxn
  try dsimp only
  repeat' first
    | with_reducible assumption | with_reducible apply kept_modVal

theorem kept_sendToken {s₀ : State} (n : ℕ) (d : Dispatch) (t : ℕ) (tok : Token) (data : List Byte) {s : State} (hk : s₀.Kept s) :
  KeptAt s₀ s (sendToken n d t tok data) := by
  unfold sendToken
  try dsimp only
  repeat' first
    | with_reducible assumption | with_reducible apply keptAt_ite | with_reducible apply keptAt_get | with_reducible apply keptAt_set_bind
    | with_reducible apply keptAt_set | with_reducible apply kept_noteCopy | with_reducible apply kept_sendVal
    | with_reducible apply keptAt_pure | with_reducible apply keptAt_forM | (refine kept_fst (by with_reducible assumption) ?_)
    | (refine kept_snd (by with_reducible assumption) ?_) | with_reducible apply keptAt_bind | split | intro _

theorem kept_runDispatch {s₀ : State} (n : ℕ) (o : EngOp) {s : State} (hk : s₀.Kept s) :
  KeptAt s₀ s (runDispatch n o) := by
  unfold runDispatch
  try dsimp only
  repeat' first
    | with_reducible assumption | with_reducible apply keptAt_ite | with_reducible apply keptAt_get | with_reducible apply keptAt_set_bind
    | with_reducible apply keptAt_set | with_reducible apply keptAt_modify | with_reducible apply kept_valLines
    | with_reducible apply kept_modVal | with_reducible apply kept_readToken | with_reducible apply kept_sendVal
    | with_reducible apply kept_sendToken | with_reducible apply kept_openTxn | with_reducible apply kept_valFault
    | with_reducible apply keptAt_pure | with_reducible apply keptAt_stop | with_reducible apply keptAt_forM
    | (refine kept_fst (by with_reducible assumption) ?_) | (refine kept_snd (by with_reducible assumption) ?_)
    | with_reducible apply keptAt_bind | split | intro _

theorem kept_modSet {s₀ : State} (s : State) (c : ℕ) (layer : ℕ) (tag : BitVec 16) (f : ValSet → ValSet) (hs : s₀.Kept s) :
  s₀.Kept (State.modSet s c layer tag f) := by
  unfold State.modSet
  try dsimp only
  repeat' first
    | with_reducible assumption | with_reducible apply kept_modVal

theorem kept_overflow {s₀ : State} (s : State) (c : ℕ) (layer : ℕ) (tag : BitVec 16) (hs : s₀.Kept s) :
  s₀.Kept (State.overflow s c layer tag) := by
  unfold State.overflow
  try dsimp only
  repeat' first
    | with_reducible assumption | with_reducible apply kept_modVal | with_reducible apply kept_modSet

theorem kept_landForward {s₀ : State} (s : State) (l : Layer) (r : ValRow) (i : ℕ) (e : Expert) (hs : s₀.Kept s) :
  s₀.Kept (landForward s l r i e) := by
  unfold landForward
  try dsimp only
  repeat' first
    | with_reducible assumption | with_reducible apply kept_landed | with_reducible apply kept_putLines | with_reducible apply kept_overflow | with_reducible apply kept_modVal | with_reducible apply kept_modSet
    | with_reducible apply kept_valPut | (refine kept_fst (by with_reducible assumption) ?_)
    | (refine kept_snd (by with_reducible assumption) ?_) | split

theorem kept_landBackward {s₀ : State} (s : State) (l : Layer) (r : ValRow) (i : ℕ) (e : Expert) (hs : s₀.Kept s) :
  s₀.Kept (landBackward s l r i e) := by
  unfold landBackward
  try dsimp only
  repeat' first
    | with_reducible assumption | with_reducible apply kept_modVal | with_reducible apply kept_valPut
    | (refine kept_fst (by with_reducible assumption) ?_) | (refine kept_snd (by with_reducible assumption) ?_) | split

theorem kept_execValleyRow {s₀ : State} (c : CourseId) (row : ValRow) (s : State) (hs : s₀.Kept s) :
  KeptOut s₀ (execValleyRow c row s) := by
  unfold execValleyRow
  try dsimp only
  repeat' first
    | with_reducible assumption | with_reducible apply keptOut_next | with_reducible apply kept_landForward
    | with_reducible apply kept_landBackward | (refine kept_takeVal _ _ ?_ (by with_reducible assumption))
    | with_reducible apply kept_epochRule | with_reducible apply kept_foldl_fst | with_reducible apply kept_foldl_snd
    | with_reducible apply kept_foldl | (refine kept_fst (by with_reducible assumption) ?_)
    | (refine kept_snd (by with_reducible assumption) ?_) | split | intro _

theorem kept_execCountHeader {s₀ : State} (c : CourseId) (h : CountHdr) (s : State) (hs : s₀.Kept s) :
  KeptOut s₀ (execCountHeader c h s) := by
  unfold execCountHeader
  try dsimp only
  repeat' first
    | with_reducible assumption | with_reducible apply keptOut_next | with_reducible apply kept_modVal
    | (refine kept_takeVal _ _ ?_ (by with_reducible assumption)) | with_reducible apply kept_epochRule
    | (refine kept_fst (by with_reducible assumption) ?_) | (refine kept_snd (by with_reducible assumption) ?_) | split | intro _
    | (simp only [kept_mk, kept_fields])

theorem kept_readLanded {s₀ : State} (l : Layer) (c : ℕ) (slot : ℕ) (cap : ℕ) (set_ : ℕ) (x5 : State) (x6 : List Landed)
    (hx5 : s₀.Kept x5) :
  s₀.Kept (readLanded l c slot cap set_ x5 x6).1 := by
  revert x5
  induction x6 with
  | nil => intro s hs; exact hs
  | cons x r ih =>
    intro s hs
    refine ih _ ?_
    split
    · exact kept_valGet _ _ _ hs
    · exact hs

theorem kept_placeRows {s₀ : State} (l : Layer) (c : ℕ) (slot : ℕ) (cap : ℕ) (set_ : ℕ) (x5 : State) (x6 : List Landed) (x7 : List
    (Landed × List Byte)) (hx5 : s₀.Kept x5) :
  s₀.Kept (placeRows l c slot cap set_ x5 x6 x7).1 := by
  unfold placeRows
  try dsimp only
  repeat' first
    | with_reducible assumption | with_reducible apply kept_valPut | with_reducible apply kept_placeRows
    | (refine kept_fst (by with_reducible assumption) ?_) | (refine kept_snd (by with_reducible assumption) ?_) | split

theorem kept_placeGates {s₀ : State} (l : Layer) (c : ℕ) (slot : ℕ) (set_ : ℕ) (gates : List W32) (s : State) (hs : s₀.Kept s) :
  s₀.Kept (placeGates l c slot set_ gates s) := by
  unfold placeGates
  try dsimp only
  repeat' first
    | with_reducible assumption | with_reducible apply kept_valPut | with_reducible apply kept_foldl_fst
    | with_reducible apply kept_foldl_snd | with_reducible apply kept_foldl | (refine kept_fst (by with_reducible assumption) ?_)
    | (refine kept_snd (by with_reducible assumption) ?_) | intro _

theorem kept_placeCounts {s₀ : State} (l : Layer) (back : Bool) (c : ℕ) (set_ : ℕ) (slots : List ℕ) (counts : Tab ℕ) (s : State)
    (hs : s₀.Kept s) :
  s₀.Kept (placeCounts l back c set_ slots counts s) := by
  unfold placeCounts
  try dsimp only
  repeat' first
    | with_reducible assumption | with_reducible apply kept_valPut | with_reducible apply kept_foldl_fst
    | with_reducible apply kept_foldl_snd | with_reducible apply kept_foldl | (refine kept_fst (by with_reducible assumption) ?_)
    | (refine kept_snd (by with_reducible assumption) ?_) | split | intro _

theorem kept_publish {s₀ : State} (l : Layer) (c : ℕ) (owners : List ℕ) (s : State) (hs : s₀.Kept s) :
  s₀.Kept (publish l c owners s) := by
  unfold publish
  try dsimp only
  repeat' first
    | with_reducible assumption | with_reducible apply kept_incFlag | with_reducible apply kept_foldl_fst
    | with_reducible apply kept_foldl_snd | with_reducible apply kept_foldl | (refine kept_fst (by with_reducible assumption) ?_)
    | (refine kept_snd (by with_reducible assumption) ?_) | intro _

theorem kept_execCompletionNotice {s₀ : State} (c : CourseId) (layer : ℕ) (tag : BitVec 16) (backward : Bool) (s : State) (hs : s₀.Kept s) :
  KeptOut s₀ (execCompletionNotice c layer tag backward s) := by
  unfold execCompletionNotice
  try dsimp only
  repeat' first
    | with_reducible assumption | with_reducible apply kept_id | with_reducible apply keptOut_next | with_reducible apply kept_readLanded
    | (refine kept_takeVal _ _ ?_ (by with_reducible assumption)) | with_reducible apply kept_placeRows | with_reducible apply kept_modSet
    | with_reducible apply kept_placeGates | with_reducible apply kept_publish | with_reducible apply kept_raise
    | with_reducible apply kept_placeCounts | with_reducible apply kept_foldl_fst | with_reducible apply kept_foldl_snd
    | with_reducible apply kept_foldl | (refine kept_fst (by with_reducible assumption) ?_)
    | (refine kept_snd (by with_reducible assumption) ?_) | split | intro _

theorem kept_runReturn {s₀ : State} (n : ℕ) (o : EngOp) {s : State} (hk : s₀.Kept s) :
  KeptAt s₀ s (runReturn n o) := by
  unfold runReturn
  try dsimp only
  repeat' first
    | with_reducible assumption | with_reducible apply keptAt_ite | with_reducible apply keptAt_get | with_reducible apply keptAt_set_bind
    | with_reducible apply keptAt_set | with_reducible apply keptAt_modify | with_reducible apply kept_valLines
    | with_reducible apply kept_noteCopy | with_reducible apply kept_modVal | with_reducible apply kept_modSet
    | with_reducible apply kept_sendVal | with_reducible apply kept_openTxn | with_reducible apply kept_valFault
    | with_reducible apply keptAt_pure | with_reducible apply keptAt_forM | with_reducible apply kept_foldl_fst
    | with_reducible apply kept_foldl_snd | with_reducible apply kept_foldl | (refine kept_fst (by with_reducible assumption) ?_)
    | (refine kept_snd (by with_reducible assumption) ?_) | with_reducible apply keptAt_bind | split | intro _

theorem kept_modHome {s₀ : State} (s : State) (n : ℕ) (layer : ℕ) (tag : BitVec 16) (back : Bool) (epoch : Byte) (f : HomeRec → HomeRec)
    (hs : s₀.Kept s) :
  s₀.Kept (State.modHome s n layer tag back epoch f) := by
  unfold State.modHome
  try dsimp only
  repeat' first
    | with_reducible assumption | with_reducible apply kept_modVal

theorem kept_settleHome {s₀ : State} (s : State) (n : ℕ) (layer : ℕ) (tag : BitVec 16) (back : Bool) (epoch : Byte) (hs : s₀.Kept s) :
  s₀.Kept (State.settleHome s n layer tag back epoch) := by
  unfold State.settleHome
  try dsimp only
  repeat' first
    | with_reducible assumption | with_reducible apply kept_modHome | with_reducible apply kept_incFlag
    | (refine kept_fst (by with_reducible assumption) ?_) | (refine kept_snd (by with_reducible assumption) ?_) | split

theorem kept_execReturnRow {s₀ : State} (c : CourseId) (row : RetRow) (s : State) (hs : s₀.Kept s) :
  KeptOut s₀ (execReturnRow c row s) := by
  unfold execReturnRow
  try dsimp only
  repeat' first
    | with_reducible assumption | with_reducible apply keptOut_next | with_reducible apply kept_modVal | with_reducible apply kept_modHome
    | (refine kept_takeVal _ _ ?_ (by with_reducible assumption)) | with_reducible apply kept_epochRule | with_reducible apply kept_valPut
    | (refine kept_fst (by with_reducible assumption) ?_) | (refine kept_snd (by with_reducible assumption) ?_) | split

theorem kept_execReturnCount {s₀ : State} (c : CourseId) (h : CountHdr) (fromModule : ModAddr) (fromCourse : ℕ) (s : State)
    (hs : s₀.Kept s) :
  KeptOut s₀ (execReturnCount c h fromModule fromCourse s) := by
  unfold execReturnCount
  try dsimp only
  repeat' first
    | with_reducible assumption | with_reducible apply keptOut_next | with_reducible apply kept_modHome
    | (refine kept_takeVal _ _ ?_ (by with_reducible assumption)) | with_reducible apply kept_epochRule
    | with_reducible apply kept_settleHome | (refine kept_fst (by with_reducible assumption) ?_)
    | (refine kept_snd (by with_reducible assumption) ?_) | split

theorem kept_returnedRow {s₀ : State} (n : ℕ) (o : EngOp) (l : Layer) (h : HomeRec) (t : ℕ) (i : ℕ) {s : State} (hk : s₀.Kept s) :
  KeptAt s₀ s (returnedRow n o l h t i) := by
  unfold returnedRow
  try dsimp only
  repeat' first
    | with_reducible assumption | with_reducible apply keptAt_ite | with_reducible apply keptAt_get | with_reducible apply keptAt_set_bind
    | with_reducible apply keptAt_set | with_reducible apply keptAt_modify | with_reducible apply keptAt_modifyGet
    | with_reducible apply kept_valGet | with_reducible apply keptAt_pure | with_reducible apply keptAt_stop
    | with_reducible apply keptAt_forM | with_reducible apply keptAt_foldlM | with_reducible apply keptAt_mapM
    | with_reducible apply keptAt_map | with_reducible apply kept_foldl_fst | with_reducible apply kept_foldl_snd
    | with_reducible apply kept_id | with_reducible apply kept_foldl | with_reducible apply kept_foldr
    | (refine kept_fst (by with_reducible assumption) ?_) | (refine kept_snd (by with_reducible assumption) ?_)
    | with_reducible apply keptAt_bind | split | intro _

theorem kept_combineToken {s₀ : State} (n : ℕ) (o : EngOp) (l : Layer) (h : HomeRec) (t : ℕ) (gates : List ℕ) (x6 : List ℕ)
    (x7 : List W32) (x8 : BitVec 16) (x9 : ℕ) {s : State} (hk : s₀.Kept s) :
  KeptAt s₀ s (combineToken n o l h t gates x6 x7 x8 x9) := by
  unfold combineToken
  try dsimp only
  repeat' first
    | with_reducible assumption | with_reducible apply kept_miss | with_reducible apply keptAt_get | with_reducible apply kept_returnedRow
    | with_reducible apply kept_combineToken | with_reducible apply keptAt_pure | (refine kept_fst (by with_reducible assumption) ?_)
    | (refine kept_snd (by with_reducible assumption) ?_) | with_reducible apply keptAt_bind | split | intro _

theorem kept_runCombine {s₀ : State} (n : ℕ) (o : EngOp) (l : Layer) (h : HomeRec) {s : State} (hk : s₀.Kept s) :
  KeptAt s₀ s (runCombine n o l h) := by
  unfold runCombine
  try dsimp only
  repeat' first
    | with_reducible assumption | with_reducible apply kept_forward | with_reducible apply keptAt_ite | with_reducible apply keptAt_modify | with_reducible apply kept_modVal
    | with_reducible apply kept_combineToken | with_reducible apply kept_valElem | with_reducible apply kept_modCore
    | with_reducible apply kept_writeRow | with_reducible apply kept_valCodes | with_reducible apply kept_valFault
    | with_reducible apply keptAt_pure | with_reducible apply keptAt_mapM | (refine kept_fst (by with_reducible assumption) ?_)
    | (refine kept_snd (by with_reducible assumption) ?_) | with_reducible apply keptAt_bind | split | intro _

theorem kept_execCombineBegin {s₀ : State} (c : CoreId) (s : State) (hs : s₀.Kept s) :
  KeptOut s₀ (execCombineBegin c s) := by
  unfold execCombineBegin
  try dsimp only
  repeat' first
    | with_reducible assumption | with_reducible apply keptOut_next | with_reducible apply kept_modCore
    | with_reducible apply kept_runCombine | with_reducible apply kept_runWork | with_reducible apply kept_haltOp
    | with_reducible apply keptAt_ite | with_reducible apply keptAt_pure | with_reducible apply kept_id
    | (refine kept_fst (by with_reducible assumption) ?_) | (refine kept_snd (by with_reducible assumption) ?_) | split | intro _

theorem kept_runCancel {s₀ : State} (s : State) (n : ℕ) (o : EngOp) (hs : s₀.Kept s) :
  s₀.Kept (State.runCancel s n o) := by
  unfold State.runCancel
  try dsimp only
  repeat' first
    | with_reducible assumption | with_reducible apply kept_sendVal | with_reducible apply kept_cancelBlock
    | with_reducible apply kept_foldl_fst | with_reducible apply kept_foldl_snd | with_reducible apply kept_foldl
    | (refine kept_fst (by with_reducible assumption) ?_) | (refine kept_snd (by with_reducible assumption) ?_) | split | intro _

theorem kept_execValleyCancel {s₀ : State} (c : CourseId) (block : Byte) (epoch : Byte) (s : State) (hs : s₀.Kept s) :
  KeptOut s₀ (execValleyCancel c block epoch s) := by
  unfold execValleyCancel
  try dsimp only
  repeat' first
    | with_reducible assumption | with_reducible apply keptOut_next | (refine kept_takeVal _ _ ?_ (by with_reducible assumption))
    | with_reducible apply kept_cancelBlock | (refine kept_fst (by with_reducible assumption) ?_)
    | (refine kept_snd (by with_reducible assumption) ?_) | split

theorem kept_valRun {s₀ : State} (s : State) (n : ℕ) (o : EngOp) (after : State → State) (hs : s₀.Kept s)
    (hafter : ∀ t , s₀.Kept t → s₀.Kept (after t )) :
  s₀.Kept (State.valRun s n o after) := by
  unfold State.valRun
  try dsimp only
  repeat' first
    | with_reducible assumption | with_reducible apply hafter | with_reducible apply kept_runReturn | with_reducible apply kept_runDispatch
    | with_reducible apply kept_runKeep | with_reducible apply kept_runCancel | with_reducible apply keptAt_pure
    | with_reducible apply kept_id | (refine kept_fst (by with_reducible assumption) ?_)
    | (refine kept_snd (by with_reducible assumption) ?_) | split

theorem kept_valComplete {s₀ : State} (s : State) (n : ℕ) (hs : s₀.Kept s) :
  s₀.Kept (State.valComplete s n) := by
  unfold State.valComplete
  try dsimp only
  repeat' first
    | with_reducible assumption | with_reducible apply kept_forward | with_reducible apply kept_modVal | with_reducible apply kept_modCore | with_reducible apply kept_valRun
    | with_reducible apply kept_completeSignal | with_reducible apply kept_id | (refine kept_fst (by with_reducible assumption) ?_)
    | (refine kept_snd (by with_reducible assumption) ?_) | split | intro _

end Sys2Proof.Machine
end

