-- ==== Sys2Proof/Laws/KeptSync.lean ====
section
/-! SUPPORT. The queue and the form of memory stand (State.Kept): synchronisation, halts, barriers and the collective engine. -/

namespace Sys2Proof.Machine

open State

theorem kept_execNop {s₀ : State} (c : CoreId) (t : Stream) (w : Word128) (s : State) (hs : s₀.Kept s) :
  KeptIf s₀ (execNop c t w s) := by
  unfold execNop
  try dsimp only
  repeat' first
    | with_reducible assumption | with_reducible apply keptIf_next | exact keptIf_refused _ | (with_reducible apply keptEx_ok)
    | with_reducible apply kept_issue

theorem kept_execWaitOp {s₀ : State} (c : CoreId) (t : Stream) (w : Word128) (s : State) (hs : s₀.Kept s) :
  KeptIf s₀ (execWaitOp c t w s) := by
  unfold execWaitOp
  try dsimp only
  repeat' first
    | with_reducible assumption | with_reducible apply keptIf_next | exact keptIf_refused _ | (with_reducible apply keptEx_ok)
    | with_reducible apply kept_issue

theorem kept_execFlagrd {s₀ : State} (c : CoreId) (t : Stream) (w : Word128) (s : State) (hs : s₀.Kept s) :
  KeptIf s₀ (execFlagrd c t w s) := by
  unfold execFlagrd
  try dsimp only
  repeat' first
    | with_reducible assumption | with_reducible apply keptIf_next | exact keptIf_refused _ | (with_reducible apply keptEx_ok)
    | with_reducible apply kept_issue | with_reducible apply kept_setSreg | (refine kept_fst (by with_reducible assumption) ?_)
    | (refine kept_snd (by with_reducible assumption) ?_) | with_reducible apply keptEx_ok | intro _

theorem kept_execHaltOp {s₀ : State} (c : CoreId) (t : Stream) (w : Word128) (s : State) (hs : s₀.Kept s) :
  KeptIf s₀ (execHaltOp c t w s) := by
  unfold execHaltOp
  try dsimp only
  repeat' first
    | with_reducible assumption | with_reducible apply keptIf_next | exact keptIf_refused _ | (with_reducible apply keptEx_ok)
    | with_reducible apply kept_issue | with_reducible apply kept_haltCore | (refine kept_fst (by with_reducible assumption) ?_)
    | (refine kept_snd (by with_reducible assumption) ?_) | with_reducible apply keptEx_ok | intro _

theorem kept_execTestwin {s₀ : State} (c : CoreId) (t : Stream) (w : Word128) (s : State) (hs : s₀.Kept s) :
  KeptIf s₀ (execTestwin c t w s) := by
  unfold execTestwin
  try dsimp only
  repeat' first
    | with_reducible assumption | with_reducible apply kept_hold | with_reducible apply keptIf_next | exact keptIf_refused _ | (with_reducible apply keptEx_ok)
    | with_reducible apply kept_issue | with_reducible apply kept_modCtx | (refine kept_fst (by with_reducible assumption) ?_)
    | (refine kept_snd (by with_reducible assumption) ?_) | with_reducible apply keptEx_ok | intro _

theorem kept_execSignal {s₀ : State} (c : CoreId) (t : Stream) (w : Word128) (s : State) (hs : s₀.Kept s) :
  KeptIf s₀ (execSignal c t w s) := by
  unfold execSignal
  try dsimp only
  repeat' first
    | with_reducible assumption | with_reducible apply kept_bind | with_reducible apply keptIf_next | exact keptIf_refused _ | (with_reducible apply keptEx_ok)
    | with_reducible apply kept_issue | with_reducible apply kept_modCore | (refine kept_fst (by with_reducible assumption) ?_)
    | (refine kept_snd (by with_reducible assumption) ?_) | with_reducible apply keptEx_ok | split | intro _

theorem kept_setBarrier {s₀ : State} (s : State) (level : ℕ) (course : ℕ) (index : ℕ) (b : Barrier) (hs : s₀.Kept s) :
  s₀.Kept (State.setBarrier s level course index b) := by
  unfold State.setBarrier
  try dsimp only
  repeat' first
    | with_reducible assumption | with_reducible apply kept_modCourse | (refine kept_fst (by with_reducible assumption) ?_)
    | (refine kept_snd (by with_reducible assumption) ?_) | split | intro _ | (simp only [kept_mk, kept_fields])

theorem kept_execBarrier {s₀ : State} (c : CoreId) (t : Stream) (w : Word128) (s : State) (hs : s₀.Kept s) :
  KeptIf s₀ (execBarrier c t w s) := by
  unfold execBarrier
  try dsimp only
  repeat' first
    | with_reducible assumption | with_reducible apply kept_modCtx | with_reducible apply keptIf_next | exact keptIf_refused _ | (with_reducible apply keptEx_ok)
    | with_reducible apply kept_issue | with_reducible apply kept_modCore | (refine kept_fst (by with_reducible assumption) ?_)
    | (refine kept_snd (by with_reducible assumption) ?_) | with_reducible apply keptEx_ok | intro _ | (simp only [kept_mk, kept_fields])

theorem kept_execWaitTimeout {s₀ : State} (c : CoreId) (t : Stream) (s : State) (hs : s₀.Kept s) :
  KeptOut s₀ (execWaitTimeout c t s) := by
  unfold execWaitTimeout
  try dsimp only
  repeat' first
    | with_reducible assumption | with_reducible apply keptOut_next | with_reducible apply kept_haltIssue | with_reducible apply kept_modCtx
    | (refine kept_fst (by with_reducible assumption) ?_) | (refine kept_snd (by with_reducible assumption) ?_) | split

theorem kept_execGateClose {s₀ : State} (c : CoreId) (s : State) (hs : s₀.Kept s) :
  KeptOut s₀ (execGateClose c s) := by
  unfold execGateClose
  try dsimp only
  repeat' first
    | with_reducible assumption | with_reducible apply keptOut_next | with_reducible apply kept_setCore
    | (refine kept_fst (by with_reducible assumption) ?_) | (refine kept_snd (by with_reducible assumption) ?_) | split

theorem kept_haltEvent {s₀ : State} (s : State) (n : ℕ) (hs : s₀.Kept s) :
  s₀.Kept (State.haltEvent s n) := by
  unfold State.haltEvent
  try dsimp only
  repeat' first
    | with_reducible assumption | with_reducible apply kept_raise

theorem kept_settleJob {s₀ : State} (s : State) (hs : s₀.Kept s) :
  s₀.Kept (State.settleJob s) := by
  unfold State.settleJob
  try dsimp only
  repeat' first
    | with_reducible assumption | with_reducible apply kept_jobMove | (refine kept_fst (by with_reducible assumption) ?_)
    | (refine kept_snd (by with_reducible assumption) ?_) | split

theorem kept_endDrain {s₀ : State} (s : State) (n : ℕ) (incomplete : Bool) (hs : s₀.Kept s) :
  s₀.Kept (State.endDrain s n incomplete) := by
  unfold State.endDrain
  try dsimp only
  repeat' first
    | with_reducible assumption | with_reducible apply kept_settleJob | with_reducible apply kept_modCore
    | with_reducible apply kept_haltEvent

theorem kept_execHaltDrainComplete {s₀ : State} (c : CoreId) (s : State) (hs : s₀.Kept s) :
  KeptOut s₀ (execHaltDrainComplete c s) := by
  unfold execHaltDrainComplete
  try dsimp only
  repeat' first
    | with_reducible assumption | with_reducible apply keptOut_next | with_reducible apply kept_endDrain
    | (refine kept_fst (by with_reducible assumption) ?_) | (refine kept_snd (by with_reducible assumption) ?_) | split

theorem kept_execDrainTimeout {s₀ : State} (c : CoreId) (s : State) (hs : s₀.Kept s) :
  KeptOut s₀ (execDrainTimeout c s) := by
  unfold execDrainTimeout
  try dsimp only
  repeat' first
    | with_reducible assumption | with_reducible apply keptOut_next | with_reducible apply kept_endDrain | with_reducible apply kept_setCore
    | (refine kept_fst (by with_reducible assumption) ?_) | (refine kept_snd (by with_reducible assumption) ?_) | split

theorem kept_icacheUe {s₀ : State} (s : State) (n : ℕ) (a : ℕ) (hs : s₀.Kept s) :
  s₀.Kept (State.icacheUe s n a) := by
  unfold State.icacheUe
  try dsimp only
  repeat' first
    | with_reducible assumption | with_reducible apply kept_modCore | with_reducible apply kept_raise

theorem kept_codeCacheUe {s₀ : State} (s : State) (n : ℕ) (a : ℕ) (hs : s₀.Kept s) :
  s₀.Kept (State.codeCacheUe s n a) := by
  unfold State.codeCacheUe
  try dsimp only
  repeat' first
    | with_reducible assumption | with_reducible apply kept_modCore | with_reducible apply kept_modCourse | with_reducible apply kept_raise

theorem kept_readCode {s₀ : State} (s : State) (n : ℕ) (region : ℕ) (a : ℕ) (hs : s₀.Kept s) :
  s₀.Kept (State.readCode s n region a).2 := by
  unfold State.readCode
  try dsimp only
  repeat' first
    | with_reducible assumption | with_reducible apply kept_modCore | with_reducible apply kept_modCourse
    | with_reducible apply kept_readLine | (refine kept_fst (by with_reducible assumption) ?_)
    | (refine kept_snd (by with_reducible assumption) ?_) | split

theorem kept_icacheCe {s₀ : State} (s : State) (n : Nat) (k : Nat) (hs : s₀.Kept s) :
    s₀.Kept (State.icacheCe s n k) := by
  unfold State.icacheCe
  try dsimp only
  repeat' first
    | with_reducible assumption
    | with_reducible apply kept_modCore

theorem kept_codeCacheCe {s₀ : State} (s : State) (n : Nat) (k : Nat) (hs : s₀.Kept s) :
    s₀.Kept (State.codeCacheCe s n k) := by
  unfold State.codeCacheCe
  try dsimp only
  repeat' first
    | with_reducible assumption
    | with_reducible apply kept_modCourse

theorem kept_bringLine {s₀ : State} (s : State) (n : ℕ) (region : ℕ) (a : ℕ) (demand : Bool) (cached : CacheRead) (hs : s₀.Kept s) :
  s₀.Kept (State.bringLine s n region a demand cached).2 := by
  unfold State.bringLine
  try dsimp only
  repeat' first
    | with_reducible assumption | with_reducible apply kept_codeCacheCe | with_reducible apply kept_icacheCe | with_reducible apply kept_icacheUe | with_reducible apply kept_modCore
    | with_reducible apply kept_readCode | with_reducible apply kept_codeCacheUe | (refine kept_fst (by with_reducible assumption) ?_)
    | (refine kept_snd (by with_reducible assumption) ?_) | split

theorem kept_demandLine {s₀ : State} (s : State) (n : ℕ) (t : Stream) (region : ℕ) (a : ℕ) (cached : CacheRead) (hs : s₀.Kept s) :
  s₀.Kept (State.demandLine s n t region a cached) := by
  unfold State.demandLine
  try dsimp only
  repeat' first
    | with_reducible assumption | with_reducible apply kept_hold | with_reducible apply kept_haltIssue | with_reducible apply kept_modCtx
    | with_reducible apply kept_bringLine | (refine kept_fst (by with_reducible assumption) ?_)
    | (refine kept_snd (by with_reducible assumption) ?_) | split

theorem kept_prefetchLine {s₀ : State} (s : State) (n : ℕ) (t : Stream) (cached : CacheRead) (hs : s₀.Kept s) :
  s₀.Kept (State.prefetchLine s n t cached) := by
  unfold State.prefetchLine
  try dsimp only
  repeat' first
    | with_reducible assumption | with_reducible apply kept_hold | with_reducible apply kept_haltIssue | with_reducible apply kept_modCtx
    | with_reducible apply kept_bringLine | (refine kept_fst (by with_reducible assumption) ?_)
    | (refine kept_snd (by with_reducible assumption) ?_) | split

theorem kept_execIcacheFill {s₀ : State} (c : CoreId) (t : Stream) (prefetch : Bool) (cached : CacheRead) (s : State) (hs : s₀.Kept s) :
  KeptOut s₀ (execIcacheFill c t prefetch cached s) := by
  unfold execIcacheFill
  try dsimp only
  repeat' first
    | with_reducible assumption | with_reducible apply keptOut_next | with_reducible apply kept_demandLine
    | with_reducible apply kept_haltIssue | with_reducible apply kept_modCtx | with_reducible apply kept_prefetchLine
    | (refine kept_fst (by with_reducible assumption) ?_) | (refine kept_snd (by with_reducible assumption) ?_) | split

theorem kept_releaseOne {s₀ : State} (s : State) (level : ℕ) (course : ℕ) (index : ℕ) (gen : ℕ) (p : ℕ × Stream) (hs : s₀.Kept s) :
  s₀.Kept (State.releaseOne s level course index gen p) := by
  unfold State.releaseOne
  try dsimp only
  repeat' first
    | with_reducible assumption | with_reducible apply kept_incFlag | with_reducible apply kept_modCtx
    | (refine kept_fst (by with_reducible assumption) ?_) | (refine kept_snd (by with_reducible assumption) ?_) | split

theorem kept_completeBarrier {s₀ : State} (s : State) (level : ℕ) (course : ℕ) (index : ℕ) (hs : s₀.Kept s) :
  s₀.Kept (State.completeBarrier s level course index) := by
  unfold State.completeBarrier
  try dsimp only
  repeat' first
    | with_reducible assumption | with_reducible apply kept_setBarrier | with_reducible apply kept_releaseOne
    | with_reducible apply kept_foldl_fst | with_reducible apply kept_foldl_snd | with_reducible apply kept_foldl
    | (refine kept_fst (by with_reducible assumption) ?_) | (refine kept_snd (by with_reducible assumption) ?_) | intro _

theorem kept_settleRoot {s₀ : State} (s : State) (index : ℕ) (hs : s₀.Kept s) :
  s₀.Kept (State.settleRoot s index) := by
  unfold State.settleRoot
  try dsimp only
  repeat' first
    | with_reducible assumption | with_reducible apply kept_setBarrier | with_reducible apply kept_sendFrame
    | with_reducible apply kept_completeBarrier | with_reducible apply kept_foldl_fst | with_reducible apply kept_foldl_snd
    | with_reducible apply kept_foldl | (refine kept_fst (by with_reducible assumption) ?_)
    | (refine kept_snd (by with_reducible assumption) ?_) | split | intro _

theorem kept_moduleArrives {s₀ : State} (s : State) (index : ℕ) (hs : s₀.Kept s) :
  s₀.Kept (State.moduleArrives s index) := by
  unfold State.moduleArrives
  try dsimp only
  repeat' first
    | with_reducible assumption | with_reducible apply kept_setBarrier | with_reducible apply kept_sendFrame
    | with_reducible apply kept_settleRoot | (refine kept_fst (by with_reducible assumption) ?_)
    | (refine kept_snd (by with_reducible assumption) ?_) | split

theorem kept_settleBarrier {s₀ : State} (s : State) (level : ℕ) (course : ℕ) (index : ℕ) (x4 : ℕ) (hs : s₀.Kept s) :
  s₀.Kept (State.settleBarrier s level course index x4) := by
  unfold State.settleBarrier
  try dsimp only
  repeat' first
    | with_reducible assumption | with_reducible apply kept_moduleArrives | with_reducible apply kept_completeBarrier
    | with_reducible apply kept_settleBarrier | (refine kept_fst (by with_reducible assumption) ?_)
    | (refine kept_snd (by with_reducible assumption) ?_) | split

theorem kept_execBarrierArrival {s₀ : State} (k : ℕ) (s : State) (hs : s₀.Kept s) :
  KeptOut s₀ (execBarrierArrival k s) := by
  unfold execBarrierArrival
  try dsimp only
  repeat' first
    | with_reducible assumption | with_reducible apply keptOut_next | with_reducible apply kept_setBarrier
    | with_reducible apply kept_settleBarrier | with_reducible apply kept_haltCore | with_reducible apply kept_modCtx
    | (refine kept_fst (by with_reducible assumption) ?_) | (refine kept_snd (by with_reducible assumption) ?_) | split | intro _
    | (simp only [kept_mk, kept_fields])

theorem kept_takeOperand {s₀ : State} (s : State) (type : ℕ) (src : ModAddr) (operand : ℕ) (hs : s₀.Kept s) {t : State}
    (e : State.takeOperand s type src operand = some t) :
  s₀.Kept t := by
  unfold State.takeOperand at e
  try dsimp only at e
  repeat' split at e
  all_goals try cases e
  repeat' first
    | with_reducible assumption | (refine kept_takeFrame _ _ _ ?_ (by with_reducible assumption))

theorem kept_execBarrierArrive {s₀ : State} (f : Fin 16) (gen : BitVec 2) (src : ModAddr) (s : State) (hs : s₀.Kept s) :
  KeptOut s₀ (execBarrierArrive f gen src s) := by
  unfold execBarrierArrive
  try dsimp only
  repeat' first
    | with_reducible assumption | with_reducible apply keptOut_next | with_reducible apply kept_setBarrier
    | with_reducible apply kept_settleBarrier | with_reducible apply kept_settleRoot
    | (refine kept_takeOperand _ _ _ _ ?_ (by with_reducible assumption)) | (refine kept_fst (by with_reducible assumption) ?_)
    | (refine kept_snd (by with_reducible assumption) ?_) | split

theorem kept_execBarrierRelease {s₀ : State} (f : Fin 16) (gen : BitVec 2) (s : State) (hs : s₀.Kept s) :
  KeptOut s₀ (execBarrierRelease f gen s) := by
  unfold execBarrierRelease
  try dsimp only
  repeat' first
    | with_reducible assumption | with_reducible apply keptOut_next | with_reducible apply kept_settleBarrier
    | with_reducible apply kept_completeBarrier | (refine kept_takeOperand _ _ _ _ ?_ (by with_reducible assumption))
    | (refine kept_fst (by with_reducible assumption) ?_) | (refine kept_snd (by with_reducible assumption) ?_) | split

theorem kept_publishSchedule {s₀ : State} (s : State) (c : ℕ) (hs : s₀.Kept s) :
  s₀.Kept (State.publishSchedule s c) := by
  unfold State.publishSchedule
  try dsimp only
  repeat' first
    | with_reducible assumption | with_reducible apply kept_modCourse

theorem kept_stepEvents {s₀ : State} (s : State) (c : ℕ) (hs : s₀.Kept s) :
  s₀.Kept (State.stepEvents s c) := by
  unfold State.stepEvents
  try dsimp only
  repeat' first
    | with_reducible assumption | with_reducible apply kept_raise | (refine kept_fst (by with_reducible assumption) ?_)
    | (refine kept_snd (by with_reducible assumption) ?_) | split | intro _ | (simp only [kept_mk, kept_fields])

theorem kept_execStepAdvance {s₀ : State} (c : CourseId) (s : State) (hs : s₀.Kept s) :
  KeptOut s₀ (execStepAdvance c s) := by
  unfold execStepAdvance
  try dsimp only
  repeat' first
    | with_reducible assumption | with_reducible apply keptOut_next | with_reducible apply kept_publishSchedule
    | with_reducible apply kept_stepEvents | with_reducible apply kept_modCourse | with_reducible apply kept_completeBarrier
    | (refine kept_fst (by with_reducible assumption) ?_) | (refine kept_snd (by with_reducible assumption) ?_) | split

theorem kept_collRead {s₀ : State} (s : State) (sl : ℕ) (a : ℕ) (hs : s₀.Kept s) :
  s₀.Kept (collRead s sl a).1 := by
  unfold collRead
  try dsimp only
  repeat' first
    | with_reducible assumption | with_reducible apply kept_raiseUe | with_reducible apply kept_readLine
    | (refine kept_fst (by with_reducible assumption) ?_) | (refine kept_snd (by with_reducible assumption) ?_)
    | with_reducible apply keptEx_ok | with_reducible apply keptEx_error | split

theorem kept_rowImage {s₀ : State} (sl : ℕ) (row : ℕ) (extent : ℕ) (need : List ℕ) (x4 : State) (x5 : List ℕ) (hx4 : s₀.Kept x4) :
  s₀.Kept (rowImage sl row extent need x4 x5).1 := by
  unfold rowImage
  try dsimp only
  repeat' first
    | with_reducible assumption | with_reducible apply kept_collRead | with_reducible apply kept_rowImage
    | (refine kept_fst (by with_reducible assumption) ?_) | (refine kept_snd (by with_reducible assumption) ?_)
    | with_reducible apply keptEx_ok | with_reducible apply keptEx_error | split

theorem kept_readFlat {s₀ : State} (sl : ℕ) (d : Desc) (f : Fmt) (x3 : State) (x4 : List Seg) (hx3 : s₀.Kept x3) :
  s₀.Kept (readFlat sl d f x3 x4).1 := by
  unfold readFlat
  try dsimp only
  repeat' first
    | with_reducible assumption | with_reducible apply kept_rowImage | with_reducible apply kept_readFlat
    | (refine kept_fst (by with_reducible assumption) ?_) | (refine kept_snd (by with_reducible assumption) ?_)
    | with_reducible apply keptEx_ok | with_reducible apply keptEx_error | split

theorem kept_modRun {s₀ : State} (s : State) (sl : ℕ) (f : CollRun → CollRun) (hs : s₀.Kept s) :
  s₀.Kept (State.modRun s sl f) := by
  unfold State.modRun
  try dsimp only
  repeat' first
    | with_reducible assumption | with_reducible apply kept_modColl

theorem kept_planRows {s₀ : State} (plan : State → Seg → State × Except Nat RowWrite) (x0 : State) (x1 : List Seg) (hplan : ∀ t a1, s₀.Kept t → s₀.Kept (plan t a1).1) (hx0 : s₀.Kept x0) :
    s₀.Kept (planRows plan x0 x1).1 := by
  unfold planRows
  try dsimp only
  repeat' first
    | with_reducible assumption
    | with_reducible apply hplan
    | with_reducible apply kept_planRows
    | with_reducible apply kept_foldl_fst | with_reducible apply kept_foldl_snd | with_reducible apply kept_foldl
    | (refine kept_fst (by with_reducible assumption) ?_) | (refine kept_snd (by with_reducible assumption) ?_) | split

theorem kept_putRow {s₀ : State} (sl : Nat) (s : State) (x : RowWrite) (hs : s₀.Kept s) :
    s₀.Kept (putRow sl s x) := by
  unfold putRow
  try dsimp only
  repeat' first
    | with_reducible assumption
    | with_reducible apply kept_writeLine
    | with_reducible apply kept_foldl_fst | with_reducible apply kept_foldl_snd | with_reducible apply kept_foldl
    | (refine kept_fst (by with_reducible assumption) ?_) | (refine kept_snd (by with_reducible assumption) ?_) | split | intro _

theorem kept_landRows {s₀ : State} (s : State) (sl : Nat) (plan : State → Seg → State × Except Nat RowWrite) (segs : List Seg) (hs : s₀.Kept s) (hplan : ∀ t a1, s₀.Kept t → s₀.Kept (plan t a1).1) :
    s₀.Kept (landRows s sl plan segs).1 := by
  unfold landRows
  try dsimp only
  repeat' first
    | with_reducible assumption
    | with_reducible apply hplan
    | with_reducible apply kept_planRows
    | with_reducible apply kept_putRow
    | with_reducible apply kept_foldl_fst | with_reducible apply kept_foldl_snd | with_reducible apply kept_foldl
    | (refine kept_fst (by with_reducible assumption) ?_) | (refine kept_snd (by with_reducible assumption) ?_) | split

theorem kept_plainRow {s₀ : State} (sl : Nat) (d : Desc) (f : Fmt) (vs : List W32) (s : State) (g : Seg) (hs : s₀.Kept s) :
    s₀.Kept (plainRow sl d f vs s g).1 := by
  unfold plainRow
  try dsimp only
  repeat' first
    | with_reducible assumption
    | with_reducible apply kept_rowImage
    | with_reducible apply kept_foldl_fst | with_reducible apply kept_foldl_snd | with_reducible apply kept_foldl
    | (refine kept_fst (by with_reducible assumption) ?_) | (refine kept_snd (by with_reducible assumption) ?_) | split

theorem kept_shingleRow {s₀ : State} (sl : Nat) (d : Desc) (f : Fmt) (pend : Tab W32) (start : Nat) (stop : Nat) (s : State) (g : Seg) (hs : s₀.Kept s) :
    s₀.Kept (shingleRow sl d f pend start stop s g).1 := by
  unfold shingleRow
  try dsimp only
  repeat' first
    | with_reducible assumption
    | with_reducible apply kept_rowImage
    | with_reducible apply kept_foldl_fst | with_reducible apply kept_foldl_snd | with_reducible apply kept_foldl
    | (refine kept_fst (by with_reducible assumption) ?_) | (refine kept_snd (by with_reducible assumption) ?_) | split

theorem kept_writeFlat {s₀ : State} (s : State) (sl : ℕ) (d : Desc) (start stop : ℕ) (vs : List W32) (hs : s₀.Kept s) :
  s₀.Kept (writeFlat s sl d start stop vs).1 := by
  unfold writeFlat
  try dsimp only
  repeat' first
    | with_reducible assumption | with_reducible apply kept_landRows | with_reducible apply kept_plainRow | with_reducible apply kept_shingleRow | with_reducible apply kept_modRun | (refine kept_fst (by with_reducible assumption) ?_)
    | (refine kept_snd (by with_reducible assumption) ?_) | with_reducible apply keptEx_ok | with_reducible apply keptEx_error | split

theorem kept_readRaw {s₀ : State} (sl : ℕ) (d : Desc) (x2 : State) (x3 : List ℕ) (hx2 : s₀.Kept x2) :
  s₀.Kept (readRaw sl d x2 x3).1 := by
  unfold readRaw
  try dsimp only
  repeat' first
    | with_reducible assumption | with_reducible apply kept_collRead | with_reducible apply kept_readRaw
    | (refine kept_fst (by with_reducible assumption) ?_) | (refine kept_snd (by with_reducible assumption) ?_)
    | with_reducible apply keptEx_ok | with_reducible apply keptEx_error | split

theorem kept_writeRaw {s₀ : State} (s : State) (sl : ℕ) (d : Desc) (start : ℕ) (ws : List W32) (hs : s₀.Kept s) :
  s₀.Kept (writeRaw s sl d start ws).1 := by
  unfold writeRaw
  try dsimp only
  repeat' first
    | with_reducible assumption | with_reducible apply kept_writeLine | with_reducible apply kept_foldl_fst
    | with_reducible apply kept_foldl_snd | with_reducible apply kept_foldl | (refine kept_fst (by with_reducible assumption) ?_)
    | (refine kept_snd (by with_reducible assumption) ?_) | with_reducible apply keptEx_ok | with_reducible apply keptEx_error | split
    | intro _

theorem kept_readWords {s₀ : State} (sl : ℕ) (d : Desc) (f : Fmt) (x3 : State) (x4 : List Seg) (hx3 : s₀.Kept x3) :
  s₀.Kept (readWords sl d f x3 x4).1 := by
  unfold readWords
  try dsimp only
  repeat' first
    | with_reducible assumption | with_reducible apply kept_rowImage | with_reducible apply kept_readWords
    | (refine kept_fst (by with_reducible assumption) ?_) | (refine kept_snd (by with_reducible assumption) ?_)
    | with_reducible apply keptEx_ok | with_reducible apply keptEx_error | split

theorem kept_codeRow {s₀ : State} (sl : Nat) (d : Desc) (f : Fmt) (cs : List Nat) (s : State) (g : Seg) (hs : s₀.Kept s) :
    s₀.Kept (codeRow sl d f cs s g).1 := by
  unfold codeRow
  try dsimp only
  repeat' first
    | with_reducible assumption
    | with_reducible apply kept_rowImage
    | with_reducible apply kept_foldl_fst | with_reducible apply kept_foldl_snd | with_reducible apply kept_foldl
    | (refine kept_fst (by with_reducible assumption) ?_) | (refine kept_snd (by with_reducible assumption) ?_) | split

theorem kept_writeWords {s₀ : State} (s : State) (sl : ℕ) (d : Desc) (start : ℕ) (ws : List W32) (hs : s₀.Kept s) :
  s₀.Kept (writeWords s sl d start ws).1 := by
  unfold writeWords
  try dsimp only
  repeat' first
    | with_reducible assumption | with_reducible apply kept_codeRow | with_reducible apply kept_landRows | (refine kept_fst (by with_reducible assumption) ?_)
    | (refine kept_snd (by with_reducible assumption) ?_) | with_reducible apply keptEx_ok | with_reducible apply keptEx_error | split

theorem kept_readLenTable {s₀ : State} (sl : ℕ) (entry : ℕ) (base : ℕ) (x3 : ℕ) (x4 : State) (x5 : List ℕ) (hx4 : s₀.Kept x4) :
  s₀.Kept (readLenTable sl entry base x3 x4 x5).1 := by
  unfold readLenTable
  try dsimp only
  repeat' first
    | with_reducible assumption | with_reducible apply kept_collRead | with_reducible apply kept_readLenTable
    | (refine kept_fst (by with_reducible assumption) ?_) | (refine kept_snd (by with_reducible assumption) ?_)
    | with_reducible apply keptEx_ok | with_reducible apply keptEx_error | split

theorem kept_entryLengths {s₀ : State} (s : State) (sl : ℕ) (k : ℕ) (e : CollEntry) (hs : s₀.Kept s) :
  s₀.Kept (State.entryLengths s sl k e).1 := by
  unfold State.entryLengths
  try dsimp only
  repeat' first
    | with_reducible assumption | with_reducible apply kept_readLenTable | (refine kept_fst (by with_reducible assumption) ?_)
    | (refine kept_snd (by with_reducible assumption) ?_) | split

theorem kept_sendColl {s₀ : State} (s : State) (sl : ℕ) (e : CollEntry) (entry : ℕ) (rank : ℕ) (type : ℕ) (arg : ℕ)
    (payload : List Byte) (hs : s₀.Kept s) :
  s₀.Kept (State.sendColl s sl e entry rank type arg payload) := by
  unfold State.sendColl
  try dsimp only
  repeat' first
    | with_reducible assumption | with_reducible apply kept_sendFrame | (refine kept_fst (by with_reducible assumption) ?_)
    | (refine kept_snd (by with_reducible assumption) ?_) | split

theorem kept_sendChunk {s₀ : State} (s : State) (sl : ℕ) (e : CollEntry) (entry : ℕ) (rank : ℕ) (k : ℕ) (elems : List W32)
    (hs : s₀.Kept s) :
  s₀.Kept (State.sendChunk s sl e entry rank k elems) := by
  unfold State.sendChunk
  try dsimp only
  repeat' first
    | with_reducible assumption | with_reducible apply kept_sendColl | with_reducible apply kept_foldl_fst
    | with_reducible apply kept_foldl_snd | with_reducible apply kept_foldl | (refine kept_fst (by with_reducible assumption) ?_)
    | (refine kept_snd (by with_reducible assumption) ?_) | intro _

theorem kept_sendCredit {s₀ : State} (s : State) (sl : ℕ) (e : CollEntry) (entry : ℕ) (rank : ℕ) (freed : ℕ) (hs : s₀.Kept s) :
  s₀.Kept (State.sendCredit s sl e entry rank freed) := by
  unfold State.sendCredit
  try dsimp only
  repeat' first
    | with_reducible assumption | with_reducible apply kept_sendColl

theorem kept_sendAbort {s₀ : State} (s : State) (sl : ℕ) (e : CollEntry) (entry : ℕ) (rank : ℕ) (k : ℕ) (cause : ℕ) (hs : s₀.Kept s) :
  s₀.Kept (State.sendAbort s sl e entry rank k cause) := by
  unfold State.sendAbort
  try dsimp only
  repeat' first
    | with_reducible assumption | with_reducible apply kept_sendColl

theorem kept_collFault {s₀ : State} (s : State) (sl : ℕ) (entry : ℕ) (k : ℕ) (rank : ℕ) (cause : ℕ) (hs : s₀.Kept s) :
  s₀.Kept (State.collFault s sl entry k rank cause) := by
  unfold State.collFault
  try dsimp only
  repeat' first
    | with_reducible assumption | with_reducible apply kept_modColl | with_reducible apply kept_raise

theorem kept_deliverGroup {s₀ : State} (sl : ℕ) (e : CollEntry) (x : Shard) (part : List W32) (s : State) (hs : s₀.Kept s) :
  s₀.Kept (deliverGroup sl e x part s) := by
  unfold deliverGroup
  try dsimp only
  repeat' first
    | with_reducible assumption | with_reducible apply kept_modColl | with_reducible apply kept_putLines | with_reducible apply kept_incFlag
    | (refine kept_fst (by with_reducible assumption) ?_) | (refine kept_snd (by with_reducible assumption) ?_) | split

theorem kept_landed {s₀ : State} (s : State) (sl : ℕ) (e : CollEntry) (entry : ℕ) (x : Landing) (hs : s₀.Kept s) :
  s₀.Kept (State.landed s sl e entry x) := by
  unfold State.landed
  try dsimp only
  repeat' first
    | with_reducible assumption | with_reducible apply kept_sendCredit | with_reducible apply kept_modRun
    | (refine kept_fst (by with_reducible assumption) ?_) | (refine kept_snd (by with_reducible assumption) ?_) | split

theorem kept_landOn {s₀ : State} (sl : ℕ) (e : CollEntry) (entry : ℕ) (x3 : ℕ) (x4 : State) (hx4 : s₀.Kept x4) :
  s₀.Kept (landOn sl e entry x3 x4) := by
  unfold landOn
  try dsimp only
  repeat' first
    | with_reducible assumption | with_reducible apply kept_modRun | with_reducible apply kept_landed
    | with_reducible apply kept_deliverGroup | with_reducible apply kept_landOn | (refine kept_fst (by with_reducible assumption) ?_)
    | (refine kept_snd (by with_reducible assumption) ?_) | split

theorem kept_landGoOn {s₀ : State} (s : State) (sl : ℕ) (hs : s₀.Kept s) :
  s₀.Kept (State.landGoOn s sl) := by
  unfold State.landGoOn
  try dsimp only
  repeat' first
    | with_reducible assumption | with_reducible apply kept_landOn | (refine kept_fst (by with_reducible assumption) ?_)
    | (refine kept_snd (by with_reducible assumption) ?_) | split

theorem kept_landRing {s₀ : State} (s : State) (sl : ℕ) (e : CollEntry) (k : ℕ) (start : ℕ) (vs : List W32) (owes : Bool) (hs : s₀.Kept s) :
  s₀.Kept (landRing s sl e k start vs owes).1 := by
  unfold landRing
  try dsimp only
  repeat' first
    | with_reducible assumption | with_reducible apply kept_landGoOn | with_reducible apply kept_modRun
    | (refine kept_fst (by with_reducible assumption) ?_) | (refine kept_snd (by with_reducible assumption) ?_)
    | with_reducible apply keptEx_ok | with_reducible apply keptEx_error | split

theorem kept_landFinal {s₀ : State} (s : State) (sl : ℕ) (e : CollEntry) (start : ℕ) (vs : List W32) (hs : s₀.Kept s) :
  s₀.Kept (landFinal s sl e start vs).1 := by
  unfold landFinal
  try dsimp only
  repeat' first
    | with_reducible assumption | with_reducible apply kept_writeFlat

theorem kept_ownPart {s₀ : State} (s : State) (sl : ℕ) (e : CollEntry) (start : ℕ) (count : ℕ) (hs : s₀.Kept s) :
  s₀.Kept (ownPart s sl e start count).1 := by
  unfold ownPart
  try dsimp only
  repeat' first
    | with_reducible assumption | with_reducible apply kept_readFlat | (refine kept_fst (by with_reducible assumption) ?_)
    | (refine kept_snd (by with_reducible assumption) ?_) | with_reducible apply keptEx_ok | split

theorem kept_abortEvent {s₀ : State} (s : State) (sl : Nat) (entry : Nat) (k : Nat) (cause : Nat) (r : Nat) (hs : s₀.Kept s) :
    s₀.Kept (State.abortEvent s sl entry k cause r) := by
  unfold State.abortEvent
  try dsimp only
  repeat' first
    | with_reducible assumption
    | with_reducible apply kept_collFault
    | with_reducible apply kept_modRun
    | with_reducible apply kept_foldl_fst | with_reducible apply kept_foldl_snd | with_reducible apply kept_foldl
    | (refine kept_fst (by with_reducible assumption) ?_) | (refine kept_snd (by with_reducible assumption) ?_) | split

theorem kept_passAbort {s₀ : State} (s : State) (sl : ℕ) (e : CollEntry) (entry : ℕ) (k : ℕ) (cause : ℕ) (chain : Bool) (hs : s₀.Kept s) :
  s₀.Kept (passAbort s sl e entry k cause chain) := by
  unfold passAbort
  try dsimp only
  repeat' first
    | with_reducible assumption | with_reducible apply kept_abortEvent | with_reducible apply kept_sendAbort | with_reducible apply kept_collFault
    | with_reducible apply kept_modRun | (refine kept_fst (by with_reducible assumption) ?_)
    | (refine kept_snd (by with_reducible assumption) ?_) | split

theorem kept_finalHere {s₀ : State} (s : State) (sl : ℕ) (e : CollEntry) (entry : ℕ) (k : ℕ) (start : ℕ) (vs : List W32) (owes : Bool)
    (hs : s₀.Kept s) :
  s₀.Kept (finalHere s sl e entry k start vs owes) := by
  unfold finalHere
  try dsimp only
  repeat' first
    | with_reducible assumption | with_reducible apply kept_deliver | with_reducible apply kept_passAbort | with_reducible apply kept_landFinal
    | with_reducible apply kept_sendCredit | with_reducible apply kept_modRun | with_reducible apply kept_sendChunk
    | with_reducible apply kept_landRing | (refine kept_fst (by with_reducible assumption) ?_)
    | (refine kept_snd (by with_reducible assumption) ?_) | with_reducible apply keptEx_ok | with_reducible apply keptEx_error | split

theorem kept_chainOut {s₀ : State} (s : State) (sl : ℕ) (e : CollEntry) (entry : ℕ) (k : ℕ) (c : ℕ × ℕ × ℕ) (vs : List W32)
    (hs : s₀.Kept s) :
  s₀.Kept (chainOut s sl e entry k c vs) := by
  unfold chainOut
  try dsimp only
  repeat' first
    | with_reducible assumption | with_reducible apply kept_modColl | with_reducible apply kept_modRun | with_reducible apply kept_finalHere
    | with_reducible apply kept_sendChunk | (refine kept_fst (by with_reducible assumption) ?_)
    | (refine kept_snd (by with_reducible assumption) ?_) | split

theorem kept_chainStage {s₀ : State} (s : State) (sl : ℕ) (e : CollEntry) (entry : ℕ) (k : ℕ) (c : ℕ × ℕ × ℕ) (partialSum : List W32)
    (hs : s₀.Kept s) :
  s₀.Kept (chainStage s sl e entry k c partialSum) := by
  unfold chainStage
  try dsimp only
  repeat' first
    | with_reducible assumption | with_reducible apply kept_passAbort | with_reducible apply kept_ownPart
    | with_reducible apply kept_chainOut | (refine kept_fst (by with_reducible assumption) ?_)
    | (refine kept_snd (by with_reducible assumption) ?_) | with_reducible apply keptEx_ok | with_reducible apply keptEx_error | split

theorem kept_chainFeed {s₀ : State} (sl : ℕ) (e : CollEntry) (entry : ℕ) (chunks : List (ℕ × ℕ × ℕ)) (x4 : ℕ) (x5 : State)
    (hx5 : s₀.Kept x5) :
  s₀.Kept (chainFeed sl e entry chunks x4 x5) := by
  unfold chainFeed
  try dsimp only
  repeat' first
    | with_reducible assumption | with_reducible apply kept_chainStage | with_reducible apply kept_modRun
    | with_reducible apply kept_chainFeed | (refine kept_fst (by with_reducible assumption) ?_)
    | (refine kept_snd (by with_reducible assumption) ?_) | split

theorem kept_chainPass {s₀ : State} (sl : Nat) (e : CollEntry) (entry : Nat) (chunks : List (Nat × Nat × Nat)) (x0 : Nat) (x1 : State) (hx1 : s₀.Kept x1) :
    s₀.Kept (chainPass sl e entry chunks x0 x1) := by
  unfold chainPass
  try dsimp only
  repeat' first
    | with_reducible assumption
    | with_reducible apply kept_chainStage
    | with_reducible apply kept_modRun
    | with_reducible apply kept_sendCredit
    | with_reducible apply kept_chainPass
    | with_reducible apply kept_foldl_fst | with_reducible apply kept_foldl_snd | with_reducible apply kept_foldl
    | (refine kept_fst (by with_reducible assumption) ?_) | (refine kept_snd (by with_reducible assumption) ?_) | split

theorem kept_feed {s₀ : State} (s : State) (sl : ℕ) (hs : s₀.Kept s) :
  s₀.Kept (State.feed s sl) := by
  unfold State.feed
  try dsimp only
  repeat' first
    | with_reducible assumption | with_reducible apply kept_chainPass | with_reducible apply kept_chainFeed | (refine kept_fst (by with_reducible assumption) ?_)
    | (refine kept_snd (by with_reducible assumption) ?_) | split

theorem kept_moveRead {s₀ : State} (s : State) (sl : ℕ) (e : CollEntry) (c : ℕ × ℕ) (hs : s₀.Kept s) :
  s₀.Kept (moveRead s sl e c).1 := by
  unfold moveRead
  try dsimp only
  repeat' first
    | with_reducible assumption | with_reducible apply kept_readWords | with_reducible apply kept_readFlat
    | with_reducible apply kept_readRaw | (refine kept_fst (by with_reducible assumption) ?_)
    | (refine kept_snd (by with_reducible assumption) ?_) | with_reducible apply keptEx_ok | split

theorem kept_moveLand {s₀ : State} (s : State) (sl : ℕ) (e : CollEntry) (j : ℕ) (k : ℕ) (vs : List W32) (hs : s₀.Kept s) :
  s₀.Kept (moveLand s sl e j k vs).1 := by
  unfold moveLand
  try dsimp only
  repeat' first
    | with_reducible assumption | with_reducible apply kept_writeRaw | with_reducible apply kept_writeFlat
    | with_reducible apply kept_writeWords | (refine kept_fst (by with_reducible assumption) ?_)
    | (refine kept_snd (by with_reducible assumption) ?_) | split

theorem kept_moveLost {s₀ : State} (s : State) (sl : ℕ) (entry : ℕ) (j : ℕ) (k : ℕ) (rank : ℕ) (cause : ℕ) (hs : s₀.Kept s) :
  s₀.Kept (moveLost s sl entry j k rank cause) := by
  unfold moveLost
  try dsimp only
  repeat' first
    | with_reducible assumption | with_reducible apply kept_collFault | with_reducible apply kept_modRun

theorem kept_moveSend {s₀ : State} (sl : ℕ) (e : CollEntry) (entry : ℕ) (k : ℕ) (vs : List W32) (s : State) (i : ℕ) (hs : s₀.Kept s) :
  s₀.Kept (moveSend sl e entry k vs s i) := by
  unfold moveSend
  try dsimp only
  repeat' first
    | with_reducible assumption | with_reducible apply kept_moveLost | with_reducible apply kept_moveLand | with_reducible apply kept_modRun
    | with_reducible apply kept_sendChunk | (refine kept_fst (by with_reducible assumption) ?_)
    | (refine kept_snd (by with_reducible assumption) ?_) | with_reducible apply keptEx_ok | with_reducible apply keptEx_error | split

theorem kept_moveOne {s₀ : State} (sl : ℕ) (e : CollEntry) (entry : ℕ) (ranks : List ℕ) (s : State) (x : (ℕ × ℕ) × ℕ) (hs : s₀.Kept s) :
  s₀.Kept (moveOne sl e entry ranks s x) := by
  unfold moveOne
  try dsimp only
  repeat' first
    | with_reducible assumption | with_reducible apply kept_sendAbort | with_reducible apply kept_collFault
    | with_reducible apply kept_modRun | with_reducible apply kept_moveSend | with_reducible apply kept_moveRead
    | with_reducible apply kept_foldl_fst | with_reducible apply kept_foldl_snd | with_reducible apply kept_foldl
    | (refine kept_fst (by with_reducible assumption) ?_) | (refine kept_snd (by with_reducible assumption) ?_)
    | with_reducible apply keptEx_ok | with_reducible apply keptEx_error | split | intro _

theorem kept_moveAll {s₀ : State} (s : State) (sl : ℕ) (e : CollEntry) (entry : ℕ) (hs : s₀.Kept s) :
  s₀.Kept (moveAll s sl e entry) := by
  unfold moveAll
  try dsimp only
  repeat' first
    | with_reducible assumption | with_reducible apply kept_moveOne | with_reducible apply kept_foldl_fst
    | with_reducible apply kept_foldl_snd | with_reducible apply kept_foldl

theorem kept_moveTo {s₀ : State} (sl : ℕ) (e : CollEntry) (entry : ℕ) (s : State) (i : ℕ) (hs : s₀.Kept s) :
  s₀.Kept (moveTo sl e entry s i) := by
  unfold moveTo
  try dsimp only
  repeat' first
    | with_reducible assumption | with_reducible apply kept_moveOne | with_reducible apply kept_sendChunk
    | with_reducible apply kept_foldl_fst | with_reducible apply kept_foldl_snd | with_reducible apply kept_foldl
    | (refine kept_fst (by with_reducible assumption) ?_) | (refine kept_snd (by with_reducible assumption) ?_) | split

theorem kept_startEntry {s₀ : State} (s : State) (sl : ℕ) (e : CollEntry) (k : ℕ) (hs : s₀.Kept s) :
  s₀.Kept (State.startEntry s sl e k) := by
  unfold State.startEntry
  try dsimp only
  repeat' first
    | with_reducible assumption | with_reducible apply kept_feed | with_reducible apply kept_modColl | with_reducible apply kept_moveAll
    | with_reducible apply kept_moduleArrives | with_reducible apply kept_modRun | with_reducible apply kept_moveTo
    | with_reducible apply kept_foldl_fst | with_reducible apply kept_foldl_snd | with_reducible apply kept_foldl
    | (refine kept_fst (by with_reducible assumption) ?_) | (refine kept_snd (by with_reducible assumption) ?_) | split

theorem kept_execCollEntryComplete {s₀ : State} (sl : SlopeId) (s : State) (hs : s₀.Kept s) :
  KeptOut s₀ (execCollEntryComplete sl s) := by
  unfold execCollEntryComplete
  try dsimp only
  repeat' first
    | with_reducible assumption | with_reducible apply keptOut_next | with_reducible apply kept_modColl | with_reducible apply kept_incFlag
    | (refine kept_fst (by with_reducible assumption) ?_) | (refine kept_snd (by with_reducible assumption) ?_) | split

theorem kept_takeChunk {s₀ : State} (s : State) (en : CollEntry) (src : ModAddr) (entry : ℕ) (chunk : ℕ) (bytes : List Byte) (hs : s₀.Kept s) {t : State}
    (e : State.takeChunk s en src entry chunk bytes = some t) :
  s₀.Kept t := by
  unfold State.takeChunk at e
  try dsimp only at e
  repeat' split at e
  all_goals try cases e
  repeat' first
    | with_reducible assumption | (refine kept_takeFrames _ _ _ ?_ (by with_reducible assumption))

theorem kept_dropColl {s₀ : State} (s : State) (type : Nat) (entry : Nat) (hs : s₀.Kept s) :
    s₀.Kept (State.dropColl s type entry) := by
  unfold State.dropColl
  try dsimp only
  repeat' first
    | with_reducible assumption
    | with_reducible apply kept_modPort
    | with_reducible apply kept_owe
    | with_reducible apply kept_foldl_fst | with_reducible apply kept_foldl_snd | with_reducible apply kept_foldl
    | (refine kept_fst (by with_reducible assumption) ?_) | (refine kept_snd (by with_reducible assumption) ?_) | split | intro _

theorem kept_strayColl {s₀ : State} (s : State) (type : Nat) (entry : Nat) (hs : s₀.Kept s) :
    s₀.Kept (State.strayColl s type entry) := by
  unfold State.strayColl
  try dsimp only
  repeat' first
    | with_reducible assumption
    | with_reducible apply kept_dropColl
    | with_reducible apply kept_foldl_fst | with_reducible apply kept_foldl_snd | with_reducible apply kept_foldl
    | (refine kept_fst (by with_reducible assumption) ?_) | (refine kept_snd (by with_reducible assumption) ?_) | split

theorem kept_execCollData {s₀ : State} (sl : SlopeId) (entry : ℕ) (chunk : ℕ) (fromRank : ℕ) (elems : List W32) (s : State)
    (hs : s₀.Kept s) :
  KeptOut s₀ (execCollData sl entry chunk fromRank elems s) := by
  unfold execCollData
  try dsimp only
  repeat' first
    | with_reducible assumption | with_reducible apply kept_strayColl | with_reducible apply kept_feed | with_reducible apply keptOut_next | with_reducible apply kept_chainStage
    | with_reducible apply kept_moveLost | with_reducible apply kept_moveLand | with_reducible apply kept_sendCredit
    | with_reducible apply kept_modRun | with_reducible apply kept_finalHere
    | (refine kept_takeChunk _ _ _ _ _ _ ?_ (by with_reducible assumption)) | (refine kept_fst (by with_reducible assumption) ?_)
    | (refine kept_snd (by with_reducible assumption) ?_) | with_reducible apply keptEx_ok | with_reducible apply keptEx_error | split

theorem kept_linkGrant {s₀ : State} (s : State) (sl : ℕ) (freed : ℕ) (hs : s₀.Kept s) :
  s₀.Kept (State.linkGrant s sl freed) := by
  unfold State.linkGrant
  try dsimp only
  repeat' first
    | with_reducible assumption | with_reducible apply kept_feed | with_reducible apply kept_modColl

theorem kept_takeColl {s₀ s t : State} {e : CollEntry} {type entry arg : Nat} {x : Option Nat} (hs : s₀.Kept s)
    (h : s.takeColl e type entry arg = some (x, t)) : s₀.Kept t := by
  unfold State.takeColl at h
  split at h
  · simp only [Option.map_eq_some_iff, Prod.mk.injEq] at h
    obtain ⟨u, hu, _, rfl⟩ := h
    exact kept_takeFrame _ _ _ hs hu
  · cases h
    exact hs

theorem kept_lateCredit {s₀ : State} (s : State) (entry : Nat) (freed : Nat) (hs : s₀.Kept s) :
    s₀.Kept (State.lateCredit s entry freed) := by
  unfold State.lateCredit
  split
  · cases h : s.takeFrame _ _ with
    | none => exact hs
    | some t => exact kept_takeFrame _ _ _ hs h
  · exact hs

theorem kept_execCollCredit {s₀ : State} (sl : SlopeId) (entry : ℕ) (freed : ℕ) (s : State) (hs : s₀.Kept s) :
  KeptOut s₀ (execCollCredit sl entry freed s) := by
  unfold execCollCredit
  split
  · split
    · exact keptOut_next (kept_lateCredit _ _ _ hs)
    · split
      · rename_i e
        exact keptOut_next (kept_linkGrant _ _ _ (kept_takeColl hs e))
      · exact keptOut_next hs
  · exact keptOut_next (kept_lateCredit _ _ _ hs)

theorem kept_execCollAbort {s₀ : State} (sl : SlopeId) (entry : ℕ) (chunk : ℕ) (cause : Byte) (s : State) (hs : s₀.Kept s) :
  KeptOut s₀ (execCollAbort sl entry chunk cause s) := by
  unfold execCollAbort
  split
  · split
    · exact keptOut_next (kept_strayColl _ _ _ hs)
    · split
      · exact keptOut_next hs
      · rename_i e
        have ht := kept_takeColl hs e
        repeat' first
          | with_reducible assumption | with_reducible apply keptOut_next | with_reducible apply kept_passAbort
          | with_reducible apply kept_moveLost | split
  · exact keptOut_next (kept_strayColl _ _ _ hs)

theorem kept_execLendWindowEnd {s₀ : State} (sl : SlopeId) (s : State) (hs : s₀.Kept s) :
  KeptOut s₀ (execLendWindowEnd sl s) := by
  unfold execLendWindowEnd
  try dsimp only
  repeat' first
    | with_reducible assumption | with_reducible apply keptOut_next | with_reducible apply kept_modColl
    | (refine kept_fst (by with_reducible assumption) ?_) | (refine kept_snd (by with_reducible assumption) ?_) | split

end Sys2Proof.Machine
end

