-- ==== Sys2Proof/Laws/KeptModule.lean ====
section
/-! SUPPORT. The queue and the form of memory stand (State.Kept): the completions of engines, sessions, health, digests, re-sharding, answers, banks and the ridge DMA. -/

namespace Sys2Proof.Machine

open State

theorem kept_modSession {s₀ : State} (s : State) (ss : ℕ) (f : Session → Session) (hs : s₀.Kept s) :
  s₀.Kept (State.modSession s ss f) := by
  unfold State.modSession
  try dsimp only
  repeat' first
    | with_reducible assumption | with_reducible apply kept_id | (refine kept_fst (by with_reducible assumption) ?_) | (refine kept_snd (by with_reducible assumption) ?_)
    | split | intro _ | (simp only [kept_mk, kept_fields])

theorem kept_send {s₀ : State} (s : State) (r : Reply) (hs : s₀.Kept s) :
  s₀.Kept (State.send s r) := by
  unfold State.send
  try dsimp only
  repeat' first
    | with_reducible assumption | (refine kept_fst (by with_reducible assumption) ?_) | (refine kept_snd (by with_reducible assumption) ?_)
    | intro _ | (simp only [kept_mk, kept_fields])

theorem kept_sendNet {s₀ : State} (s : State) (kind : NetKind) (dst : ℕ) (data : List Byte) (hs : s₀.Kept s) :
  s₀.Kept (State.sendNet s kind dst data) := by
  unfold State.sendNet
  try dsimp only
  repeat' first
    | with_reducible assumption | (refine kept_fst (by with_reducible assumption) ?_) | (refine kept_snd (by with_reducible assumption) ?_)
    | intro _ | (simp only [kept_mk, kept_fields])

theorem kept_dhcpDiscover {s₀ : State} (s : State) (hs : s₀.Kept s) :
    s₀.Kept (State.dhcpDiscover s) := by
  unfold State.dhcpDiscover
  try dsimp only
  repeat' first
    | with_reducible assumption
    | with_reducible apply kept_sendNet
    | with_reducible apply kept_dhcpDiscover
    | with_reducible apply kept_foldl_fst | with_reducible apply kept_foldl_snd | with_reducible apply kept_foldl
    | (refine kept_fst (by with_reducible assumption) ?_) | (refine kept_snd (by with_reducible assumption) ?_) | split | intro _
    | (simp only [kept_mk, kept_fields])

theorem kept_flushRun {s₀ : State} (s : State) (ss : ℕ) (hs : s₀.Kept s) :
  s₀.Kept (State.flushRun s ss) := by
  unfold State.flushRun
  try dsimp only
  repeat' first
    | with_reducible assumption | with_reducible apply kept_modSession | with_reducible apply kept_send
    | with_reducible apply kept_foldl_fst | with_reducible apply kept_foldl_snd | with_reducible apply kept_foldl
    | (refine kept_fst (by with_reducible assumption) ?_) | (refine kept_snd (by with_reducible assumption) ?_) | split

theorem kept_reply {s₀ : State} (s : State) (ss : ℕ) (seq : ℕ) (type : ℕ) (st : Status) (payload : List Byte) (hs : s₀.Kept s) :
  s₀.Kept (State.reply s ss seq type st payload) := by
  unfold State.reply
  try dsimp only
  repeat' first
    | with_reducible assumption | with_reducible apply kept_flushRun | with_reducible apply kept_modSession | with_reducible apply kept_send
    | (refine kept_fst (by with_reducible assumption) ?_) | (refine kept_snd (by with_reducible assumption) ?_) | split

theorem kept_refuse {s₀ : State} (s : State) (ss : ℕ) (seq : ℕ) (type : ℕ) (st : Status) (hs : s₀.Kept s) :
  s₀.Kept (State.refuse s ss seq type st) := by
  unfold State.refuse
  try dsimp only
  repeat' first
    | with_reducible assumption | with_reducible apply kept_reply

theorem kept_endSession {s₀ : State} (s : State) (ss : ℕ) (cause : ℕ) (hs : s₀.Kept s) :
  s₀.Kept (State.endSession s ss cause) := by
  unfold State.endSession
  try dsimp only
  repeat' first
    | with_reducible assumption | with_reducible apply kept_id | with_reducible apply kept_raise | (refine kept_fst (by with_reducible assumption) ?_)
    | (refine kept_snd (by with_reducible assumption) ?_) | split | intro _ | (simp only [kept_mk, kept_fields])

theorem kept_endSessions {s₀ : State} (s : State) (cause : ℕ) (hs : s₀.Kept s) :
  s₀.Kept (State.endSessions s cause) := by
  unfold State.endSessions
  try dsimp only
  repeat' first
    | with_reducible assumption | with_reducible apply kept_id | with_reducible apply kept_endSession | with_reducible apply kept_foldl_fst
    | with_reducible apply kept_foldl_snd | with_reducible apply kept_foldl | (refine kept_fst (by with_reducible assumption) ?_)
    | (refine kept_snd (by with_reducible assumption) ?_) | intro _

theorem kept_startLong {s₀ : State} (s : State) (c : LongCmd) (hs : s₀.Kept s) :
  s₀.Kept (State.startLong s c) := by
  unfold State.startLong
  try dsimp only
  repeat' first
    | with_reducible assumption | (refine kept_fst (by with_reducible assumption) ?_) | (refine kept_snd (by with_reducible assumption) ?_)
    | intro _ | (simp only [kept_mk, kept_fields])

theorem kept_suspectPos {s₀ : State} (s : State) (c : ℕ) (p : ℕ) (item : ℕ) (cause : ℕ) (hs : s₀.Kept s) :
  s₀.Kept (State.suspectPos s c p item cause) := by
  unfold State.suspectPos
  try dsimp only
  repeat' first
    | with_reducible assumption | with_reducible apply kept_modCourse | with_reducible apply kept_raise
    | (refine kept_fst (by with_reducible assumption) ?_) | (refine kept_snd (by with_reducible assumption) ?_) | split

theorem kept_suspectModule {s₀ : State} (s : State) (cause : ℕ) (domain : ℕ) (step : ℕ) (hs : s₀.Kept s) :
  s₀.Kept (State.suspectModule s cause domain step) := by
  unfold State.suspectModule
  try dsimp only
  repeat' first
    | with_reducible assumption | with_reducible apply kept_modCourse | with_reducible apply kept_raise
    | with_reducible apply kept_suspectPos | with_reducible apply kept_foldl_fst | with_reducible apply kept_foldl_snd
    | with_reducible apply kept_foldl | (refine kept_fst (by with_reducible assumption) ?_)
    | (refine kept_snd (by with_reducible assumption) ?_) | split | intro _ | (simp only [kept_mk, kept_fields])

theorem kept_settleMark {s₀ : State} (s : State) (hs : s₀.Kept s) :
  s₀.Kept (State.settleMark s) := by
  unfold State.settleMark
  try dsimp only
  repeat' first
    | with_reducible assumption | with_reducible apply kept_modCourse | with_reducible apply kept_raise
    | with_reducible apply kept_foldl_fst | with_reducible apply kept_foldl_snd | with_reducible apply kept_foldl
    | (refine kept_fst (by with_reducible assumption) ?_) | (refine kept_snd (by with_reducible assumption) ?_) | split | intro _
    | (simp only [kept_mk, kept_fields])

theorem kept_vote {s₀ : State} (s : State) (i : ℕ) (hs : s₀.Kept s) :
  s₀.Kept (State.vote s i) := by
  unfold State.vote
  try dsimp only
  repeat' first
    | with_reducible assumption | with_reducible apply kept_raise | (refine kept_fst (by with_reducible assumption) ?_)
    | (refine kept_snd (by with_reducible assumption) ?_) | split | intro _ | (simp only [kept_mk, kept_fields])

theorem kept_votes {s₀ : State} (s : State) (l : List ℕ) (hs : s₀.Kept s) :
  s₀.Kept (State.votes s l) := by
  unfold State.votes
  try dsimp only
  repeat' first
    | with_reducible assumption | with_reducible apply kept_vote | with_reducible apply kept_foldl_fst | with_reducible apply kept_foldl_snd
    | with_reducible apply kept_foldl

theorem kept_settleGuarantee {s₀ : State} (s : State) (hs : s₀.Kept s) :
  s₀.Kept (State.settleGuarantee s) := by
  unfold State.settleGuarantee
  try dsimp only
  repeat' first
    | with_reducible assumption | with_reducible apply kept_raise | with_reducible apply kept_foldl_fst
    | with_reducible apply kept_foldl_snd | with_reducible apply kept_foldl | (refine kept_fst (by with_reducible assumption) ?_)
    | (refine kept_snd (by with_reducible assumption) ?_) | split | intro _ | (simp only [kept_mk, kept_fields])

theorem kept_haltRole {s₀ : State} (s : State) (c : ℕ) (p : ℕ) (st : Stop) (hs : s₀.Kept s) :
  s₀.Kept (State.haltRole s c p st) := by
  unfold State.haltRole
  try dsimp only
  repeat' first
    | with_reducible assumption | with_reducible apply kept_haltCore | with_reducible apply kept_setCore
    | (refine kept_fst (by with_reducible assumption) ?_) | (refine kept_snd (by with_reducible assumption) ?_) | split

theorem kept_stopRotation {s₀ : State} (s : State) (c : ℕ) (p : ℕ) (hs : s₀.Kept s) :
  s₀.Kept (State.stopRotation s c p) := by
  unfold State.stopRotation
  try dsimp only
  repeat' first
    | with_reducible assumption | with_reducible apply kept_modCourse | with_reducible apply kept_raise
    | (refine kept_fst (by with_reducible assumption) ?_) | (refine kept_snd (by with_reducible assumption) ?_) | split | intro _
    | (simp only [kept_mk, kept_fields])

theorem kept_confirmedMismatch {s₀ : State} (s : State) (c : ℕ) (p : ℕ) (item : ℕ) (hs : s₀.Kept s) :
  s₀.Kept (State.confirmedMismatch s c p item) := by
  unfold State.confirmedMismatch
  try dsimp only
  repeat' first
    | with_reducible assumption | with_reducible apply kept_settleMark | with_reducible apply kept_settleGuarantee | with_reducible apply kept_modCourse
    | with_reducible apply kept_raise | with_reducible apply kept_haltRole | with_reducible apply kept_suspectPos
    | with_reducible apply kept_stopRotation | (refine kept_fst (by with_reducible assumption) ?_)
    | (refine kept_snd (by with_reducible assumption) ?_) | split

theorem kept_modDigest {s₀ : State} (s : State) (d : ℕ) (f : DigestState → DigestState) (hs : s₀.Kept s) :
  s₀.Kept (State.modDigest s d f) := by
  unfold State.modDigest
  try dsimp only
  repeat' first
    | with_reducible assumption | (refine kept_fst (by with_reducible assumption) ?_) | (refine kept_snd (by with_reducible assumption) ?_)
    | intro _ | (simp only [kept_mk, kept_fields])

theorem kept_takePayload {s₀ : State} (s : State) (type : ℕ) (src : ModAddr) (payload : List Byte) (hs : s₀.Kept s) {t : State}
    (e : State.takePayload s type src payload = some t) :
  s₀.Kept t := by
  unfold State.takePayload at e
  try dsimp only at e
  repeat' split at e
  all_goals try cases e
  repeat' first
    | with_reducible assumption | (refine kept_takeFrame _ _ _ ?_ (by with_reducible assumption))

theorem kept_compareDigest {s₀ : State} (s : State) (d : ℕ) (n : ℕ) (hs : s₀.Kept s) :
  s₀.Kept (State.compareDigest s d n) := by
  unfold State.compareDigest
  try dsimp only
  repeat' first
    | with_reducible assumption | with_reducible apply kept_settleGuarantee | with_reducible apply kept_suspectModule
    | with_reducible apply kept_modDigest | with_reducible apply kept_raise | with_reducible apply kept_settleMark
    | (refine kept_fst (by with_reducible assumption) ?_) | (refine kept_snd (by with_reducible assumption) ?_) | split | intro _
    | (simp only [kept_mk, kept_fields])

theorem kept_settleDigest {s₀ : State} (s : State) (d : ℕ) (hs : s₀.Kept s) :
  s₀.Kept (State.settleDigest s d) := by
  unfold State.settleDigest
  try dsimp only
  repeat' first
    | with_reducible assumption | with_reducible apply kept_compareDigest | (refine kept_fst (by with_reducible assumption) ?_)
    | (refine kept_snd (by with_reducible assumption) ?_) | split

theorem kept_sumDigest {s₀ : State} (s : State) (d : ℕ) (n : ℕ) (hs : s₀.Kept s) :
  s₀.Kept (State.sumDigest s d n).2 := by
  unfold State.sumDigest
  try dsimp only
  repeat' first
    | with_reducible assumption | with_reducible apply kept_modCourse | with_reducible apply kept_foldl_fst
    | with_reducible apply kept_foldl_snd | with_reducible apply kept_foldl | (refine kept_fst (by with_reducible assumption) ?_)
    | (refine kept_snd (by with_reducible assumption) ?_) | intro _

theorem kept_publishDigest {s₀ : State} (s : State) (d : ℕ) (n : ℕ) (a : DigAcc) (hs : s₀.Kept s) :
  s₀.Kept (State.publishDigest s d n a) := by
  unfold State.publishDigest
  try dsimp only
  repeat' first
    | with_reducible assumption | with_reducible apply kept_compareDigest | with_reducible apply kept_sendFrame
    | with_reducible apply kept_modDigest | with_reducible apply kept_settleDigest | with_reducible apply kept_foldl_fst
    | with_reducible apply kept_foldl_snd | with_reducible apply kept_foldl | (refine kept_fst (by with_reducible assumption) ?_)
    | (refine kept_snd (by with_reducible assumption) ?_) | split | intro _

theorem kept_execDigestClose {s₀ : State} (s : State) (hs : s₀.Kept s) :
  KeptOut s₀ (execDigestClose s) := by
  unfold execDigestClose
  try dsimp only
  repeat' first
    | with_reducible assumption | with_reducible apply keptOut_next | with_reducible apply kept_publishDigest
    | with_reducible apply kept_sumDigest | with_reducible apply kept_foldl_fst | with_reducible apply kept_foldl_snd
    | with_reducible apply kept_foldl | (refine kept_fst (by with_reducible assumption) ?_)
    | (refine kept_snd (by with_reducible assumption) ?_) | split | intro _ | (simp only [kept_mk, kept_fields])

theorem kept_execDigestRecord {s₀ : State} (r : DigestRec) (s : State) (hs : s₀.Kept s) :
  KeptOut s₀ (execDigestRecord r s) := by
  unfold execDigestRecord
  try dsimp only
  repeat' first
    | with_reducible assumption | with_reducible apply keptOut_next | with_reducible apply kept_modDigest
    | (refine kept_takePayload _ _ _ _ ?_ (by with_reducible assumption)) | with_reducible apply kept_settleDigest
    | (refine kept_fst (by with_reducible assumption) ?_) | (refine kept_snd (by with_reducible assumption) ?_) | split

theorem kept_readAlloc {s₀ : State} (master : ℕ) (x1 : State) (x2 : List ℕ) (hx1 : s₀.Kept x1) :
  s₀.Kept (readAlloc master x1 x2).1 := by
  unfold readAlloc
  try dsimp only
  repeat' first
    | with_reducible assumption | with_reducible apply kept_raiseUe | with_reducible apply kept_readLine
    | with_reducible apply kept_readAlloc | (refine kept_fst (by with_reducible assumption) ?_)
    | (refine kept_snd (by with_reducible assumption) ?_) | split

theorem kept_permTable {s₀ : State} (s : State) (sl : ℕ) (handle : ℕ) (hs : s₀.Kept s) :
  s₀.Kept (State.permTable s sl handle).1 := by
  unfold State.permTable
  try dsimp only
  repeat' first
    | with_reducible assumption | with_reducible apply kept_readAlloc | (refine kept_fst (by with_reducible assumption) ?_)
    | (refine kept_snd (by with_reducible assumption) ?_) | split

theorem kept_modCycle {s₀ : State} (s : State) (b : ℕ) (f : Cycle → Cycle) (hs : s₀.Kept s) :
  s₀.Kept (State.modCycle s b f) := by
  unfold State.modCycle
  try dsimp only
  repeat' first
    | with_reducible assumption | (refine kept_fst (by with_reducible assumption) ?_) | (refine kept_snd (by with_reducible assumption) ?_)
    | intro _ | (simp only [kept_mk, kept_fields])

theorem kept_copyAsk {s₀ : State} (s : State) (b : ℕ) (i : ℕ) (tag : ℕ) (m : ModAddr) (a : ℕ) (read : Bool) (f : Frame) (hs : s₀.Kept s) :
  s₀.Kept (State.copyAsk s b i tag m a read f) := by
  unfold State.copyAsk
  try dsimp only
  repeat' first
    | with_reducible assumption | with_reducible apply kept_outAdd | with_reducible apply kept_sendFrame
    | with_reducible apply kept_modCycle

theorem kept_copyPut {s₀ : State} (s : State) (b : ℕ) (dst : CopyEnd) (i : ℕ) (data : List Byte) (hs : s₀.Kept s) :
  s₀.Kept (State.copyPut s b dst i data) := by
  unfold State.copyPut
  try dsimp only
  repeat' first
    | with_reducible assumption | with_reducible apply kept_slotWritten | with_reducible apply kept_modCycle | with_reducible apply kept_copyAsk
    | with_reducible apply kept_writeLine | (refine kept_fst (by with_reducible assumption) ?_)
    | (refine kept_snd (by with_reducible assumption) ?_) | split

theorem kept_copyGoOn {s₀ : State} (b : ℕ) (src : CopyEnd) (dst : CopyEnd) (x3 : ℕ) (x4 : State) (hx4 : s₀.Kept x4) :
  s₀.Kept (copyGoOn b src dst x3 x4) := by
  unfold copyGoOn
  try dsimp only
  repeat' first
    | with_reducible assumption | with_reducible apply kept_modCycle | with_reducible apply kept_collRead
    | with_reducible apply kept_copyAsk | with_reducible apply kept_copyPut | with_reducible apply kept_copyGoOn
    | (refine kept_fst (by with_reducible assumption) ?_) | (refine kept_snd (by with_reducible assumption) ?_)
    | with_reducible apply keptEx_ok | with_reducible apply keptEx_error | split

theorem kept_reshardGoOn {s₀ : State} (s : State) (b : ℕ) (hs : s₀.Kept s) :
  s₀.Kept (State.reshardGoOn s b) := by
  unfold State.reshardGoOn
  try dsimp only
  repeat' first
    | with_reducible assumption | with_reducible apply kept_copyGoOn | (refine kept_fst (by with_reducible assumption) ?_)
    | (refine kept_snd (by with_reducible assumption) ?_) | split

theorem kept_copyBegin {s₀ : State} (s : State) (b : ℕ) (c : Cycle) (hs : s₀.Kept s) :
  s₀.Kept (State.copyBegin s b c) := by
  unfold State.copyBegin
  try dsimp only
  repeat' first
    | with_reducible assumption | with_reducible apply kept_reshardGoOn | (refine kept_fst (by with_reducible assumption) ?_)
    | (refine kept_snd (by with_reducible assumption) ?_) | intro _ | (simp only [kept_mk, kept_fields])

theorem kept_cycleNext {s₀ : State} (s : State) (b : ℕ) (hs : s₀.Kept s) :
  s₀.Kept (State.cycleNext s b) := by
  unfold State.cycleNext
  try dsimp only
  repeat' first
    | with_reducible assumption | with_reducible apply kept_copyBegin | (refine kept_fst (by with_reducible assumption) ?_)
    | (refine kept_snd (by with_reducible assumption) ?_) | split | intro _ | (simp only [kept_mk, kept_fields])

theorem kept_reshardEnd {s₀ : State} (s : State) (st : Status) (hs : s₀.Kept s) :
  s₀.Kept (State.reshardEnd s st) := by
  unfold State.reshardEnd
  try dsimp only
  repeat' first
    | with_reducible assumption | with_reducible apply kept_votes | with_reducible apply kept_raise | (refine kept_fst (by with_reducible assumption) ?_)
    | (refine kept_snd (by with_reducible assumption) ?_) | intro _ | (simp only [kept_mk, kept_fields])

theorem kept_reshardReplace {s₀ : State} (s : State) (hs : s₀.Kept s) :
  s₀.Kept (State.reshardReplace s) := by
  unfold State.reshardReplace
  try dsimp only
  repeat' first
    | with_reducible assumption | with_reducible apply kept_permTable | (refine kept_fst (by with_reducible assumption) ?_)
    | (refine kept_snd (by with_reducible assumption) ?_) | split | intro _ | (simp only [kept_mk, kept_fields])

theorem kept_reshardSettle {s₀ : State} (s : State) (hs : s₀.Kept s) :
  s₀.Kept (State.reshardSettle s) := by
  unfold State.reshardSettle
  try dsimp only
  repeat' first
    | with_reducible assumption | with_reducible apply kept_reshardEnd | with_reducible apply kept_reshardReplace
    | (refine kept_fst (by with_reducible assumption) ?_) | (refine kept_snd (by with_reducible assumption) ?_)
    | with_reducible apply keptEx_ok | split

theorem kept_reshardBegin {s₀ : State} (s : State) (hs : s₀.Kept s) :
  s₀.Kept (State.reshardBegin s) := by
  unfold State.reshardBegin
  try dsimp only
  repeat' first
    | with_reducible assumption | with_reducible apply kept_reshardEnd | with_reducible apply kept_cycleNext | with_reducible apply kept_reshardSettle
    | (refine kept_fst (by with_reducible assumption) ?_) | (refine kept_snd (by with_reducible assumption) ?_) | split | intro _
    | (simp only [kept_mk, kept_fields])

theorem kept_reshardReport {s₀ : State} (s : State) (hs : s₀.Kept s) :
    s₀.Kept (State.reshardReport s) := by
  unfold State.reshardReport
  try dsimp only
  repeat' first
    | with_reducible assumption
    | with_reducible apply kept_foldl_fst | with_reducible apply kept_foldl_snd | with_reducible apply kept_foldl
    | (refine kept_fst (by with_reducible assumption) ?_) | (refine kept_snd (by with_reducible assumption) ?_) | split | intro _
    | (simp only [kept_mk, kept_fields])

theorem kept_reshardFault {s₀ : State} (s : State) (cause : ℕ) (hs : s₀.Kept s) :
  s₀.Kept (State.reshardFault s cause) := by
  unfold State.reshardFault
  try dsimp only
  repeat' first
    | with_reducible assumption | with_reducible apply kept_reshardReport | with_reducible apply kept_reshardEnd | with_reducible apply kept_raise
    | (refine kept_fst (by with_reducible assumption) ?_) | (refine kept_snd (by with_reducible assumption) ?_) | split | intro _
    | (simp only [kept_mk, kept_fields])

theorem kept_reshardStop {s₀ : State} (s : State) (hs : s₀.Kept s) :
    s₀.Kept (State.reshardStop s) := by
  unfold State.reshardStop
  try dsimp only
  repeat' first
    | with_reducible assumption
    | with_reducible apply kept_bind
    | with_reducible apply kept_reshardEnd
    | with_reducible apply kept_reshardFault
    | with_reducible apply kept_reshardReport
    | with_reducible apply kept_foldl_fst | with_reducible apply kept_foldl_snd | with_reducible apply kept_foldl
    | (refine kept_fst (by with_reducible assumption) ?_) | (refine kept_snd (by with_reducible assumption) ?_) | split | intro _
    | (simp only [kept_mk, kept_fields])

theorem kept_reshardResult {s₀ : State} (s : State) (st : Status) (hs : s₀.Kept s) :
  s₀.Kept (State.reshardResult s st) := by
  unfold State.reshardResult
  try dsimp only
  repeat' first
    | with_reducible assumption | with_reducible apply kept_reshardEnd | with_reducible apply kept_reshardBegin
    | (refine kept_fst (by with_reducible assumption) ?_) | (refine kept_snd (by with_reducible assumption) ?_)
    | with_reducible apply keptEx_ok | split

theorem kept_settleVote {s₀ : State} (s : State) (digest : Word) (hs : s₀.Kept s) :
  s₀.Kept (State.settleVote s digest) := by
  unfold State.settleVote
  try dsimp only
  repeat' first
    | with_reducible assumption | with_reducible apply kept_votes | with_reducible apply kept_sendFrame | with_reducible apply kept_reshardResult
    | with_reducible apply kept_foldl_fst | with_reducible apply kept_foldl_snd | with_reducible apply kept_foldl
    | (refine kept_fst (by with_reducible assumption) ?_) | (refine kept_snd (by with_reducible assumption) ?_) | split | intro _

theorem kept_reshardVoteBegin {s₀ : State} (s : State) (sl : ℕ) (group : ℕ) (table : ℕ) (bytes : List Byte) (status : Status)
    (fromHost : Bool) (hs : s₀.Kept s) :
  s₀.Kept (State.reshardVoteBegin s sl group table bytes status fromHost) := by
  unfold State.reshardVoteBegin
  try dsimp only
  repeat' first
    | with_reducible assumption | with_reducible apply kept_votes | with_reducible apply kept_settleVote | with_reducible apply kept_sendFrame
    | (refine kept_fst (by with_reducible assumption) ?_) | (refine kept_snd (by with_reducible assumption) ?_) | split | intro _
    | (simp only [kept_mk, kept_fields])

theorem kept_execReshardVote {s₀ : State} (rank : ℕ) (digest : Word) (status : Status) (s : State) (hs : s₀.Kept s) :
  KeptOut s₀ (execReshardVote rank digest status s) := by
  unfold execReshardVote
  try dsimp only
  repeat' first
    | with_reducible assumption | with_reducible apply kept_votes | with_reducible apply keptOut_next | with_reducible apply kept_settleVote
    | with_reducible apply kept_reshardResult | (refine kept_takePayload _ _ _ _ ?_ (by with_reducible assumption))
    | (refine kept_fst (by with_reducible assumption) ?_) | (refine kept_snd (by with_reducible assumption) ?_) | split | intro _
    | (simp only [kept_mk, kept_fields])

theorem kept_execReshardCopyComplete {s₀ : State} (buffer : Fin 2) (cause : Byte) (s : State) (hs : s₀.Kept s) :
  KeptOut s₀ (execReshardCopyComplete buffer cause s) := by
  unfold execReshardCopyComplete
  try dsimp only
  repeat' first
    | with_reducible assumption | with_reducible apply keptOut_next | with_reducible apply kept_cycleNext
    | with_reducible apply kept_copyBegin | with_reducible apply kept_reshardFault | with_reducible apply kept_reshardSettle
    | (refine kept_fst (by with_reducible assumption) ?_) | (refine kept_snd (by with_reducible assumption) ?_) | split | intro _
    | (simp only [kept_mk, kept_fields])

theorem kept_reshardCtrl {s₀ : State} (s : State) (value : Word) (hs : s₀.Kept s) :
  s₀.Kept (reshardCtrl s value).2 := by
  unfold reshardCtrl
  try dsimp only
  repeat' first
    | with_reducible assumption | with_reducible apply kept_reshardVoteBegin | with_reducible apply kept_permTable
    | (refine kept_fst (by with_reducible assumption) ?_) | (refine kept_snd (by with_reducible assumption) ?_)
    | with_reducible apply keptEx_ok | split

theorem kept_takeEntry {s₀ : State} (s : State) (sl : ℕ) (k : ℕ) (e : CollEntry) (hs : s₀.Kept s) :
  s₀.Kept (State.takeEntry s sl k e) := by
  unfold State.takeEntry
  try dsimp only
  repeat' first
    | with_reducible assumption | with_reducible apply kept_modColl | with_reducible apply kept_entryLengths

theorem kept_execCollEntryBegin {s₀ : State} (sl : SlopeId) (s : State) (hs : s₀.Kept s) :
  KeptOut s₀ (execCollEntryBegin sl s) := by
  unfold execCollEntryBegin
  try dsimp only
  repeat' first
    | with_reducible assumption | with_reducible apply kept_malformed | with_reducible apply keptOut_next | with_reducible apply kept_reshardVoteBegin
    | with_reducible apply kept_takeEntry | with_reducible apply kept_startEntry | with_reducible apply kept_permTable
    | (refine kept_fst (by with_reducible assumption) ?_) | (refine kept_snd (by with_reducible assumption) ?_)
    | with_reducible apply keptEx_ok | split

theorem kept_outDrop {s₀ : State} (s : State) (o : Outstanding) (hs : s₀.Kept s) :
  s₀.Kept (State.outDrop s o) := by
  unfold State.outDrop
  try dsimp only
  repeat' first
    | with_reducible assumption | (refine kept_fst (by with_reducible assumption) ?_) | (refine kept_snd (by with_reducible assumption) ?_)
    | intro _ | (simp only [kept_mk, kept_fields])

theorem kept_lateAnswer {s₀ : State} (s : State) (p : ℕ) (hs : s₀.Kept s) :
  s₀.Kept (State.lateAnswer s p) := by
  unfold State.lateAnswer
  try dsimp only
  repeat' first
    | with_reducible assumption | with_reducible apply kept_modPort

theorem kept_dmaAnswered {s₀ : State} (s : State) (o : Outstanding) (f : Xfer → Xfer) (hs : s₀.Kept s) :
  s₀.Kept (State.dmaAnswered s o f) := by
  unfold State.dmaAnswered
  try dsimp only
  repeat' first
    | with_reducible assumption | with_reducible apply kept_dmaGoOn | with_reducible apply kept_modXfer

theorem kept_copyAnswered {s₀ : State} (s : State) (o : Outstanding) (data : Option (List Byte)) (hs : s₀.Kept s) :
  s₀.Kept (State.copyAnswered s o data) := by
  unfold State.copyAnswered
  try dsimp only
  repeat' first
    | with_reducible assumption | with_reducible apply kept_modCycle | with_reducible apply kept_copyPut
    | with_reducible apply kept_reshardGoOn | (refine kept_fst (by with_reducible assumption) ?_)
    | (refine kept_snd (by with_reducible assumption) ?_) | split

theorem kept_outFails {s₀ : State} (s : State) (o : Outstanding) (status : ℕ) (hs : s₀.Kept s) :
  s₀.Kept (State.outFails s o status) := by
  unfold State.outFails
  try dsimp only
  repeat' first
    | with_reducible assumption | with_reducible apply kept_modCycle | with_reducible apply kept_lateFails
    | with_reducible apply kept_modXfer | (refine kept_fst (by with_reducible assumption) ?_)
    | (refine kept_snd (by with_reducible assumption) ?_) | split

theorem kept_execWriteAck {s₀ : State} (p : PortId) (f : Frame) (s : State) (hs : s₀.Kept s) :
  KeptOut s₀ (execWriteAck p f s) := by
  unfold execWriteAck
  try dsimp only
  repeat' first
    | with_reducible assumption | with_reducible apply keptOut_next | with_reducible apply kept_dmaAnswered
    | with_reducible apply kept_outDrop | with_reducible apply kept_copyAnswered | with_reducible apply kept_lateAnswer
    | with_reducible apply kept_lateAnswered | (refine kept_takeFrame _ _ _ ?_ (by with_reducible assumption))
    | (refine kept_fst (by with_reducible assumption) ?_) | (refine kept_snd (by with_reducible assumption) ?_) | split

theorem kept_execReadResp {s₀ : State} (p : PortId) (f : Frame) (s : State) (hs : s₀.Kept s) :
  KeptOut s₀ (execReadResp p f s) := by
  unfold execReadResp
  try dsimp only
  repeat' first
    | with_reducible assumption | with_reducible apply keptOut_next | with_reducible apply kept_dmaAnswered
    | with_reducible apply kept_outFails | with_reducible apply kept_outDrop | with_reducible apply kept_copyAnswered
    | with_reducible apply kept_malformed | with_reducible apply kept_lateAnswer
    | (refine kept_takeFrame _ _ _ ?_ (by with_reducible assumption)) | (refine kept_fst (by with_reducible assumption) ?_)
    | (refine kept_snd (by with_reducible assumption) ?_) | split

theorem kept_execRefused {s₀ : State} (p : PortId) (f : Frame) (s : State) (hs : s₀.Kept s) :
  KeptOut s₀ (execRefused p f s) := by
  unfold execRefused
  try dsimp only
  repeat' first
    | with_reducible assumption | with_reducible apply keptOut_next | with_reducible apply kept_outFails | with_reducible apply kept_outDrop
    | with_reducible apply kept_lateAnswer | (refine kept_takeFrame _ _ _ ?_ (by with_reducible assumption))
    | (refine kept_fst (by with_reducible assumption) ?_) | (refine kept_snd (by with_reducible assumption) ?_) | split

theorem kept_valAbsent {s₀ : State} (s : State) (c : ℕ) (txn : ℕ) (type : ℕ) (line : ℕ) (m : ModAddr) (hs : s₀.Kept s) :
  s₀.Kept (State.valAbsent s c txn type line m) := by
  unfold State.valAbsent
  try dsimp only
  repeat' first
    | with_reducible assumption | with_reducible apply kept_modVal | with_reducible apply kept_modHome | with_reducible apply kept_raise
    | with_reducible apply kept_settleHome | (refine kept_fst (by with_reducible assumption) ?_)
    | (refine kept_snd (by with_reducible assumption) ?_) | split

theorem kept_abortTo {s₀ : State} (s : State) (sl : Nat) (e : CollEntry) (entry : Nat) (k : Nat) (q : Nat) (hs : s₀.Kept s) :
    s₀.Kept (State.abortTo s sl e entry k q) := by
  unfold State.abortTo
  try dsimp only
  repeat' first
    | with_reducible assumption
    | with_reducible apply kept_modRun
    | with_reducible apply kept_sendAbort
    | with_reducible apply kept_foldl_fst | with_reducible apply kept_foldl_snd | with_reducible apply kept_foldl
    | (refine kept_fst (by with_reducible assumption) ?_) | (refine kept_snd (by with_reducible assumption) ?_) | split

theorem kept_collAbsent {s₀ : State} (s : State) (sl : ℕ) (entry : ℕ) (k : ℕ) (m : ModAddr) (data : Bool) (hs : s₀.Kept s) :
  s₀.Kept (State.collAbsent s sl entry k m data) := by
  unfold State.collAbsent
  try dsimp only
  repeat' first
    | with_reducible assumption | with_reducible apply kept_abortEvent | with_reducible apply kept_abortTo | with_reducible apply kept_sendAbort | with_reducible apply kept_linkGrant
    | with_reducible apply kept_collFault | with_reducible apply kept_modRun | (refine kept_fst (by with_reducible assumption) ?_)
    | (refine kept_snd (by with_reducible assumption) ?_) | split

theorem kept_absentActs {s₀ : State} (s : State) (type : ℕ) (dst : ℕ) (master : ℕ) (tag : ℕ) (operand : ℕ) (hs : s₀.Kept s) :
  s₀.Kept (State.absentActs s type dst master tag operand) := by
  unfold State.absentActs
  try dsimp only
  repeat' first
    | with_reducible assumption | with_reducible apply kept_outFails | with_reducible apply kept_collAbsent
    | with_reducible apply kept_reshardFault | with_reducible apply kept_modCore | with_reducible apply kept_outDrop
    | with_reducible apply kept_raise | with_reducible apply kept_valAbsent | (refine kept_fst (by with_reducible assumption) ?_)
    | (refine kept_snd (by with_reducible assumption) ?_) | split

theorem kept_execDestAbsent {s₀ : State} (p : PortId) (f : Frame) (s : State) (hs : s₀.Kept s) :
  KeptOut s₀ (execDestAbsent p f s) := by
  unfold execDestAbsent
  try dsimp only
  repeat' first
    | with_reducible assumption | with_reducible apply keptOut_next | with_reducible apply kept_absentActs
    | (refine kept_takeFrame _ _ _ ?_ (by with_reducible assumption)) | (refine kept_fst (by with_reducible assumption) ?_)
    | (refine kept_snd (by with_reducible assumption) ?_) | split

theorem kept_execE2eTimeout {s₀ : State} (p : PortId) (master : BitVec 12) (tag : BitVec 6) (s : State) (hs : s₀.Kept s) :
  KeptOut s₀ (execE2eTimeout p master tag s) := by
  unfold execE2eTimeout
  try dsimp only
  repeat' first
    | with_reducible assumption | with_reducible apply keptOut_next | with_reducible apply kept_outFails | with_reducible apply kept_outDrop
    | with_reducible apply kept_lateAnswer | (refine kept_fst (by with_reducible assumption) ?_)
    | (refine kept_snd (by with_reducible assumption) ?_) | split

theorem kept_execBankWake {s₀ : State} (b : BankUnit) (s : State) (hs : s₀.Kept s) :
  KeptOut s₀ (execBankWake b s) := by
  unfold execBankWake
  try dsimp only
  repeat' first
    | with_reducible assumption | with_reducible apply keptOut_next | with_reducible apply kept_setBankState
    | (refine kept_fst (by with_reducible assumption) ?_) | (refine kept_snd (by with_reducible assumption) ?_) | split

theorem kept_execBankOffAccess {s₀ : State} (b : BankUnit) (master : BitVec 16) (s : State) (hs : s₀.Kept s) :
  KeptOut s₀ (execBankOffAccess b master s) := by
  unfold execBankOffAccess
  try dsimp only
  repeat' first
    | with_reducible assumption | with_reducible apply keptOut_next | with_reducible apply kept_wakeBank
    | (refine kept_fst (by with_reducible assumption) ?_) | (refine kept_snd (by with_reducible assumption) ?_) | split

theorem kept_modScrub {s₀ : State} (s : State) (u : ScrubUnit) (f : Scrub → Scrub) (hs : s₀.Kept s) :
  s₀.Kept (State.modScrub s u f) := by
  unfold State.modScrub
  try dsimp only
  repeat' first
    | with_reducible assumption | with_reducible apply kept_modCore | with_reducible apply kept_modCourse
    | with_reducible apply kept_modStack | (refine kept_fst (by with_reducible assumption) ?_)
    | (refine kept_snd (by with_reducible assumption) ?_) | split

theorem kept_modLap {s₀ : State} (s : State) (u : ScrubUnit) (b : ℕ) (f : Lap → Lap) (hs : s₀.Kept s) :
  s₀.Kept (State.modLap s u b f) := by
  unfold State.modLap
  try dsimp only
  repeat' first
    | with_reducible assumption | with_reducible apply kept_modScrub

theorem kept_scrubSpend {s₀ : State} (s : State) (u : ScrubUnit) (hs : s₀.Kept s) :
  s₀.Kept (State.scrubSpend s u) := by
  unfold State.scrubSpend
  try dsimp only
  repeat' first
    | with_reducible assumption | with_reducible apply kept_modStack | (refine kept_fst (by with_reducible assumption) ?_)
    | (refine kept_snd (by with_reducible assumption) ?_) | split

theorem kept_scrubFound {s₀ : State} (s : State) (u : ScrubUnit) (b : ℕ) (key : ℕ) (ce : ℕ) (hs : s₀.Kept s) :
  s₀.Kept (State.scrubFound s u b key ce) := by
  unfold State.scrubFound
  try dsimp only
  repeat' first
    | with_reducible assumption | with_reducible apply kept_modLap | with_reducible apply kept_modScrub

theorem kept_scrubCached {s₀ : State} (s : State) (u : ScrubUnit) (b : ℕ) (a : ℕ) (r : CacheRead) (hs : s₀.Kept s) :
  s₀.Kept (State.scrubCached s u b a r) := by
  unfold State.scrubCached
  try dsimp only
  repeat' first
    | with_reducible assumption | with_reducible apply kept_modLap | with_reducible apply kept_modCore | with_reducible apply kept_modCourse
    | with_reducible apply kept_raise | (refine kept_fst (by with_reducible assumption) ?_)
    | (refine kept_snd (by with_reducible assumption) ?_) | split

theorem kept_rowUe {s₀ : State} (s : State) (n : ℕ) (r : ℕ) (master : ℕ) (hs : s₀.Kept s) :
  s₀.Kept (State.rowUe s n r master) := by
  unfold State.rowUe
  exact kept_raise _ _ _ _ _ (kept_modCore _ _ _ hs)

theorem kept_scrubRow {s₀ : State} (s : State) (c : ℕ) (u : ScrubUnit) (b : ℕ) (i : ℕ) (hs : s₀.Kept s) :
  s₀.Kept (State.scrubRow s c u b i) := by
  unfold State.scrubRow
  try dsimp only
  repeat' first
    | with_reducible assumption | with_reducible apply kept_rowUe | with_reducible apply kept_modCore | with_reducible apply kept_raise | with_reducible apply kept_scrubFound
    | (refine kept_fst (by with_reducible assumption) ?_) | (refine kept_snd (by with_reducible assumption) ?_)
    | with_reducible apply keptEx_ok | split

theorem kept_scrubLine {s₀ : State} (s : State) (u : ScrubUnit) (b : ℕ) (i : ℕ) (cached : CacheRead) (hs : s₀.Kept s) :
  s₀.Kept (State.scrubLine s u b i cached) := by
  unfold State.scrubLine
  try dsimp only
  repeat' first
    | with_reducible assumption | with_reducible apply kept_countErr | with_reducible apply kept_scrubRow
    | with_reducible apply kept_raiseUe | with_reducible apply kept_scrubCached | with_reducible apply kept_scrubFound
    | (refine kept_fst (by with_reducible assumption) ?_) | (refine kept_snd (by with_reducible assumption) ?_) | split

theorem kept_endLap {s₀ : State} (s : State) (u : ScrubUnit) (b : ℕ) (hs : s₀.Kept s) :
  s₀.Kept (State.endLap s u b) := by
  unfold State.endLap
  try dsimp only
  repeat' first
    | with_reducible assumption | with_reducible apply kept_modLap | with_reducible apply kept_raise
    | (refine kept_fst (by with_reducible assumption) ?_) | (refine kept_snd (by with_reducible assumption) ?_) | split

theorem kept_scrubNext {s₀ : State} (s : State) (u : ScrubUnit) (bank : ℕ) (cached : CacheRead) (hs : s₀.Kept s) :
  s₀.Kept (State.scrubNext s u bank cached) := by
  unfold State.scrubNext
  try dsimp only
  repeat' first
    | with_reducible assumption | with_reducible apply kept_modLap | with_reducible apply kept_scrubSpend | with_reducible apply kept_endLap
    | with_reducible apply kept_scrubLine | (refine kept_fst (by with_reducible assumption) ?_)
    | (refine kept_snd (by with_reducible assumption) ?_) | split

theorem kept_scrubItem {s₀ : State} (s : State) (i : ℕ) (upset : Option (Fin 3)) (hs : s₀.Kept s) :
  s₀.Kept (State.scrubItem s i upset) := by
  unfold State.scrubItem
  try dsimp only
  repeat' first
    | with_reducible assumption | with_reducible apply kept_vote | (refine kept_fst (by with_reducible assumption) ?_)
    | (refine kept_snd (by with_reducible assumption) ?_) | split | intro _ | (simp only [kept_mk, kept_fields])

theorem kept_forceSlot {s₀ : State} (s : State) (u : ScrubUnit) (bank : Nat) (hs : s₀.Kept s) :
    s₀.Kept (State.forceSlot s u bank) := by
  unfold State.forceSlot
  try dsimp only
  repeat' first
    | with_reducible assumption
    | with_reducible apply kept_modCore
    | with_reducible apply kept_foldl_fst | with_reducible apply kept_foldl_snd | with_reducible apply kept_foldl
    | (refine kept_fst (by with_reducible assumption) ?_) | (refine kept_snd (by with_reducible assumption) ?_) | split

theorem kept_execScrubRead {s₀ : State} (u : ScrubUnit) (bank : ℕ) (cached : CacheRead) (forced : Bool) (s : State) (hs : s₀.Kept s) :
  KeptOut s₀ (execScrubRead u bank cached forced s) := by
  unfold execScrubRead
  try dsimp only
  repeat' first
    | with_reducible assumption | with_reducible apply kept_forceSlot | with_reducible apply keptOut_next | with_reducible apply kept_scrubItem
    | with_reducible apply kept_scrubNext | (refine kept_fst (by with_reducible assumption) ?_)
    | (refine kept_snd (by with_reducible assumption) ?_) | split

theorem kept_execScrubWriteBack {s₀ : State} (u : ScrubUnit) (line : ℕ) (s : State) (hs : s₀.Kept s) :
  KeptOut s₀ (execScrubWriteBack u line s) := by
  unfold execScrubWriteBack
  split
  · split
    · exact keptOut_next (kept_writeAcc _ _ _ hs)
    · exact keptOut_next hs
  · split
    · split
      · exact keptOut_next (kept_putLine _ _ _ (kept_scrubSpend _ _ hs))
      · exact keptOut_next (kept_modScrub _ _ _ hs)
    · exact keptOut_next hs
  · exact keptOut_next hs

theorem kept_modRidgeChan {s₀ : State} (s : State) (ch : ℕ) (f : RidgeChan → RidgeChan) (hs : s₀.Kept s) :
  s₀.Kept (State.modRidgeChan s ch f) := by
  unfold State.modRidgeChan
  try dsimp only
  repeat' first
    | with_reducible assumption | (refine kept_fst (by with_reducible assumption) ?_) | (refine kept_snd (by with_reducible assumption) ?_)
    | intro _ | (simp only [kept_mk, kept_fields])

theorem kept_ridgeWrite {s₀ : State} (s : State) (a : ℕ) (data : List Byte) (hs : s₀.Kept s) :
  s₀.Kept (State.ridgeWrite s a data).1 := by
  unfold State.ridgeWrite
  try dsimp only
  repeat' first
    | with_reducible assumption | with_reducible apply kept_writeLine | (refine kept_fst (by with_reducible assumption) ?_)
    | (refine kept_snd (by with_reducible assumption) ?_) | split

theorem kept_ridgeRecord {s₀ : State} (s : State) (ch : ℕ) (b : RecordBody) (hs : s₀.Kept s) :
  s₀.Kept (State.ridgeRecord s ch b) := by
  unfold State.ridgeRecord
  try dsimp only
  repeat' first
    | with_reducible assumption | with_reducible apply kept_modRidgeChan | with_reducible apply kept_raise
    | with_reducible apply kept_ridgeWrite | (refine kept_fst (by with_reducible assumption) ?_)
    | (refine kept_snd (by with_reducible assumption) ?_) | split

theorem kept_ridgePut {s₀ : State} (x0 : State) (x1 : ℕ) (x2 : ℕ) (x3 : List (List Byte)) (hx0 : s₀.Kept x0) :
  s₀.Kept (ridgePut x0 x1 x2 x3).1 := by
  unfold ridgePut
  try dsimp only
  repeat' first
    | with_reducible assumption | with_reducible apply kept_ridgeWrite | with_reducible apply kept_ridgePut
    | (refine kept_fst (by with_reducible assumption) ?_) | (refine kept_snd (by with_reducible assumption) ?_) | split

theorem kept_ridgeEnd {s₀ : State} (ch : ℕ) (r : State × ℕ × Option (ℕ × ℕ)) (hr : s₀.Kept r.1) :
  s₀.Kept (ridgeEnd ch r) := by
  unfold ridgeEnd
  exact kept_ridgeRecord _ _ _ hr

theorem kept_execTelemetrySnapshot {s₀ : State} (begun : Bool) (s : State) (hs : s₀.Kept s) :
  KeptOut s₀ (execTelemetrySnapshot begun s) := by
  unfold execTelemetrySnapshot
  try dsimp only
  repeat' first
    | with_reducible assumption | with_reducible apply keptOut_next | with_reducible apply kept_ridgePut
    | with_reducible apply kept_modRidgeChan | with_reducible apply kept_ridgeEnd | (refine kept_fst (by with_reducible assumption) ?_)
    | (refine kept_snd (by with_reducible assumption) ?_) | split | intro _ | (simp only [kept_mk, kept_fields])

theorem kept_spillPut {s₀ : State} (base : ℕ) (slots : ℕ) (x2 : State) (x3 : ℕ) (x4 : ℕ) (x5 : List Event) (hx2 : s₀.Kept x2) :
  s₀.Kept (spillPut base slots x2 x3 x4 x5).1 := by
  unfold spillPut
  try dsimp only
  repeat' first
    | with_reducible assumption | with_reducible apply kept_ridgePut | with_reducible apply kept_spillPut
    | (refine kept_fst (by with_reducible assumption) ?_) | (refine kept_snd (by with_reducible assumption) ?_) | split

theorem kept_execEventSpill {s₀ : State} (quiet : Bool) (s : State) (hs : s₀.Kept s) :
  KeptOut s₀ (execEventSpill quiet s) := by
  unfold execEventSpill
  try dsimp only
  repeat' first
    | with_reducible assumption | with_reducible apply keptOut_next | with_reducible apply kept_modRidgeChan
    | with_reducible apply kept_ridgeEnd | with_reducible apply kept_spillPut | (refine kept_fst (by with_reducible assumption) ?_)
    | (refine kept_snd (by with_reducible assumption) ?_) | split | intro _ | (simp only [kept_mk, kept_fields])

theorem kept_ridgeCqSet {s₀ : State} (s : State) (ch : ℕ) (value : Word) (hs : s₀.Kept s) :
  s₀.Kept (ridgeCqSet s ch value) := by
  unfold ridgeCqSet
  try dsimp only
  repeat' first
    | with_reducible assumption | with_reducible apply kept_modRidgeChan | with_reducible apply kept_ridgeWrite
    | with_reducible apply kept_foldl_fst | with_reducible apply kept_foldl_snd | with_reducible apply kept_foldl
    | (refine kept_fst (by with_reducible assumption) ?_) | (refine kept_snd (by with_reducible assumption) ?_) | split | intro _

theorem kept_veComplete {s₀ : State} (s : State) (n : ℕ) (hs : s₀.Kept s) :
  s₀.Kept (State.veComplete s n) := by
  unfold State.veComplete
  try dsimp only
  repeat' first
    | with_reducible assumption | with_reducible apply kept_modCore | with_reducible apply kept_runWork | with_reducible apply kept_veRun
    | with_reducible apply kept_completeSignal | with_reducible apply keptAt_ite | with_reducible apply keptAt_pure
    | with_reducible apply kept_id | (refine kept_fst (by with_reducible assumption) ?_)
    | (refine kept_snd (by with_reducible assumption) ?_) | split | intro _

theorem kept_landAll {s₀ : State} (s : State) (hs : s₀.Kept s) :
  s₀.Kept (State.landAll s) := by
  unfold State.landAll
  try dsimp only
  repeat' first
    | with_reducible assumption | with_reducible apply kept_feed | with_reducible apply kept_landGoOn | with_reducible apply kept_foldl_fst
    | with_reducible apply kept_foldl_snd | with_reducible apply kept_foldl | (refine kept_fst (by with_reducible assumption) ?_)
    | (refine kept_snd (by with_reducible assumption) ?_) | intro _

theorem kept_execEngineCompletion {s₀ : State} (c : CoreId) (e : EngKind) (m : Moment) (s : State) (hs : s₀.Kept s) :
  KeptOut s₀ (execEngineCompletion c e m s) := by
  unfold execEngineCompletion
  try dsimp only
  repeat' first
    | with_reducible assumption | with_reducible apply keptOut_next | with_reducible apply kept_veComplete
    | with_reducible apply kept_valComplete | with_reducible apply kept_landAll | with_reducible apply kept_deliverArrival
    | (refine kept_fst (by with_reducible assumption) ?_) | (refine kept_snd (by with_reducible assumption) ?_) | split

end Sys2Proof.Machine
end

