-- ==== Sys2Proof/Laws/KeptPower.lean ====
section
/-! SUPPORT. The queue and the form of memory stand (State.Kept): power, security, register writes and the bypass. -/

namespace Sys2Proof.Machine

open State

theorem kept_loseSram {s₀ : State} (s : State) (hs : s₀.Kept s) :
  s₀.Kept (State.loseSram s) := by
  unfold State.loseSram
  exact kept_mem hs rfl fun w => wf_filter _ _ w

theorem kept_wipeBank {s₀ : State} (s : State) (hs : s₀.Kept s) :
  s₀.Kept (State.wipeBank s) := by
  unfold State.wipeBank
  try dsimp only
  repeat' first
    | with_reducible assumption | (refine kept_fst (by with_reducible assumption) ?_) | (refine kept_snd (by with_reducible assumption) ?_)
    | intro _ | (simp only [kept_mk, kept_fields])

theorem kept_blowTamper {s₀ : State} (s : State) (found : ℕ) (hs : s₀.Kept s) :
  s₀.Kept (State.blowTamper s found) := by
  unfold State.blowTamper
  try dsimp only
  repeat' first
    | with_reducible assumption | with_reducible apply kept_raise | (refine kept_fst (by with_reducible assumption) ?_)
    | (refine kept_snd (by with_reducible assumption) ?_) | split | intro _ | (simp only [kept_mk, kept_fields])

theorem kept_raiseCounter {s₀ : State} (s : State) (hs : s₀.Kept s) :
    s₀.Kept (State.raiseCounter s) := by
  unfold State.raiseCounter
  try dsimp only
  repeat' first
    | with_reducible assumption
    | with_reducible apply kept_foldl_fst | with_reducible apply kept_foldl_snd | with_reducible apply kept_foldl
    | (refine kept_fst (by with_reducible assumption) ?_) | (refine kept_snd (by with_reducible assumption) ?_) | split | intro _
    | (simp only [kept_mk, kept_fields])

theorem kept_bootSlot {s₀ : State} (s : State) (slot : ℕ) (hs : s₀.Kept s) :
  s₀.Kept (State.bootSlot s slot) := by
  unfold State.bootSlot
  try dsimp only
  repeat' first
    | with_reducible assumption | (refine kept_fst (by with_reducible assumption) ?_) | (refine kept_snd (by with_reducible assumption) ?_)
    | split | intro _ | (simp only [kept_mk, kept_fields])

theorem kept_bootFails {s₀ : State} (s : State) (hs : s₀.Kept s) :
    s₀.Kept (State.bootFails s) := by
  unfold State.bootFails
  try dsimp only
  repeat' first
    | with_reducible assumption
    | with_reducible apply kept_foldl_fst | with_reducible apply kept_foldl_snd | with_reducible apply kept_foldl
    | (refine kept_fst (by with_reducible assumption) ?_) | (refine kept_snd (by with_reducible assumption) ?_) | split | intro _
    | (simp only [kept_mk, kept_fields])

theorem kept_bootFirmware {s₀ : State} (s : State) (hs : s₀.Kept s) :
  s₀.Kept (State.bootFirmware s) := by
  unfold State.bootFirmware
  try dsimp only
  repeat' first
    | with_reducible assumption | with_reducible apply kept_bootFails | with_reducible apply kept_raiseCounter | with_reducible apply kept_raise | with_reducible apply kept_votes | with_reducible apply kept_bootSlot
    | (refine kept_fst (by with_reducible assumption) ?_) | (refine kept_snd (by with_reducible assumption) ?_) | split

theorem kept_contentInForce {s₀ : State} (s : State) (hs : s₀.Kept s) :
  s₀.Kept (State.contentInForce s) := by
  unfold State.contentInForce
  try dsimp only
  repeat' first
    | with_reducible assumption | (refine kept_fst (by with_reducible assumption) ?_) | (refine kept_snd (by with_reducible assumption) ?_)
    | split | intro _ | (simp only [kept_mk, kept_fields])

theorem kept_retain {s₀ : State} (s : State) (hs : s₀.Kept s) :
  s₀.Kept (State.retain s) := by
  unfold State.retain
  exact kept_mem hs rfl fun _ => rfl

theorem kept_shutdown {s₀ : State} (s : State) (cause : ℕ) (hs : s₀.Kept s) :
  s₀.Kept (State.shutdown s cause) := by
  unfold State.shutdown
  try dsimp only
  repeat' first
    | with_reducible assumption | with_reducible apply kept_retain | (refine kept_fst (by with_reducible assumption) ?_)
    | (refine kept_snd (by with_reducible assumption) ?_) | split | intro _ | (simp only [kept_mk, kept_fields])

theorem kept_supplyLow {s₀ : State} (s : State) (mv : BitVec 16) (hs : s₀.Kept s) :
  s₀.Kept (State.supplyLow s mv) := by
  unfold State.supplyLow
  try dsimp only
  repeat' first
    | with_reducible assumption | with_reducible apply kept_settleGuarantee | with_reducible apply kept_raise
    | (refine kept_fst (by with_reducible assumption) ?_) | (refine kept_snd (by with_reducible assumption) ?_) | split | intro _
    | (simp only [kept_mk, kept_fields])

theorem kept_execSupplyWarn {s₀ : State} (mv : BitVec 16) (s : State) (hs : s₀.Kept s) :
  KeptOut s₀ (execSupplyWarn mv s) := by
  unfold execSupplyWarn
  try dsimp only
  repeat' first
    | with_reducible assumption | with_reducible apply kept_settleGuarantee | with_reducible apply keptOut_next | with_reducible apply kept_supplyLow
    | (refine kept_fst (by with_reducible assumption) ?_) | (refine kept_snd (by with_reducible assumption) ?_) | split | intro _
    | (simp only [kept_mk, kept_fields])

theorem kept_execSupplyRecovered {s₀ : State} (mv : BitVec 16) (s : State) (hs : s₀.Kept s) :
  KeptOut s₀ (execSupplyRecovered mv s) := by
  unfold execSupplyRecovered
  try dsimp only
  repeat' first
    | with_reducible assumption | with_reducible apply keptOut_next | with_reducible apply kept_settleGuarantee
    | (refine kept_fst (by with_reducible assumption) ?_) | (refine kept_snd (by with_reducible assumption) ?_) | split | intro _
    | (simp only [kept_mk, kept_fields])

theorem kept_execUndervoltage {s₀ : State} (mv : BitVec 16) (s : State) (hs : s₀.Kept s) :
  KeptOut s₀ (execUndervoltage mv s) := by
  unfold execUndervoltage
  try dsimp only
  repeat' first
    | with_reducible assumption | with_reducible apply keptOut_next | with_reducible apply kept_shutdown
    | (refine kept_fst (by with_reducible assumption) ?_) | (refine kept_snd (by with_reducible assumption) ?_) | split

theorem kept_execOvervoltage {s₀ : State} (mv : BitVec 16) (s : State) (hs : s₀.Kept s) :
  KeptOut s₀ (execOvervoltage mv s) := by
  unfold execOvervoltage
  try dsimp only
  repeat' first
    | with_reducible assumption | with_reducible apply keptOut_next | with_reducible apply kept_shutdown
    | (refine kept_fst (by with_reducible assumption) ?_) | (refine kept_snd (by with_reducible assumption) ?_) | split

theorem kept_execPdBreak {s₀ : State} (s : State) (hs : s₀.Kept s) :
  KeptOut s₀ (execPdBreak s) := by
  unfold execPdBreak
  try dsimp only
  repeat' first
    | with_reducible assumption | with_reducible apply keptOut_next | with_reducible apply kept_shutdown

theorem kept_execThermalTrip {s₀ : State} (x0 : SlopeId) (tj : BitVec 16) (s : State) (hs : s₀.Kept s) :
  KeptOut s₀ (execThermalTrip x0 tj s) := by
  unfold execThermalTrip
  try dsimp only
  repeat' first
    | with_reducible assumption | with_reducible apply keptOut_next | with_reducible apply kept_shutdown
    | (refine kept_fst (by with_reducible assumption) ?_) | (refine kept_snd (by with_reducible assumption) ?_) | split

theorem kept_coolant {s₀ : State} (s : State) (inlet : BitVec 16) (outlet : BitVec 16) (flow : BitVec 16) (bad : Bool) (hs : s₀.Kept s) :
  s₀.Kept (State.coolant s inlet outlet flow bad) := by
  unfold State.coolant
  try dsimp only
  repeat' first
    | with_reducible assumption | (refine kept_fst (by with_reducible assumption) ?_) | (refine kept_snd (by with_reducible assumption) ?_)
    | intro _ | (simp only [kept_mk, kept_fields])

theorem kept_execCoolantWarn {s₀ : State} (inlet : BitVec 16) (outlet : BitVec 16) (flow : BitVec 16) (s : State) (hs : s₀.Kept s) :
  KeptOut s₀ (execCoolantWarn inlet outlet flow s) := by
  unfold execCoolantWarn
  try dsimp only
  repeat' first
    | with_reducible assumption | with_reducible apply keptOut_next | with_reducible apply kept_settleGuarantee
    | with_reducible apply kept_coolant | with_reducible apply kept_raise | (refine kept_fst (by with_reducible assumption) ?_)
    | (refine kept_snd (by with_reducible assumption) ?_) | split

theorem kept_execCoolantRestored {s₀ : State} (inlet : BitVec 16) (outlet : BitVec 16) (flow : BitVec 16) (s : State) (hs : s₀.Kept s) :
  KeptOut s₀ (execCoolantRestored inlet outlet flow s) := by
  unfold execCoolantRestored
  try dsimp only
  repeat' first
    | with_reducible assumption | with_reducible apply keptOut_next | with_reducible apply kept_settleGuarantee
    | with_reducible apply kept_coolant | (refine kept_fst (by with_reducible assumption) ?_)
    | (refine kept_snd (by with_reducible assumption) ?_) | split

theorem kept_execSlopeHot {s₀ : State} (sl : SlopeId) (tj : BitVec 16) (stack : BitVec 16) (s : State) (hs : s₀.Kept s) :
  KeptOut s₀ (execSlopeHot sl tj stack s) := by
  unfold execSlopeHot
  try dsimp only
  repeat' first
    | with_reducible assumption | with_reducible apply keptOut_next | with_reducible apply kept_modSlope | with_reducible apply kept_raise
    | with_reducible apply kept_shutdown | (refine kept_fst (by with_reducible assumption) ?_)
    | (refine kept_snd (by with_reducible assumption) ?_) | split

theorem kept_execSlopeCool {s₀ : State} (sl : SlopeId) (tj : BitVec 16) (stack : BitVec 16) (s : State) (hs : s₀.Kept s) :
  KeptOut s₀ (execSlopeCool sl tj stack s) := by
  unfold execSlopeCool
  try dsimp only
  repeat' first
    | with_reducible assumption | with_reducible apply keptOut_next | with_reducible apply kept_modSlope
    | (refine kept_fst (by with_reducible assumption) ?_) | (refine kept_snd (by with_reducible assumption) ?_) | split

theorem kept_eachSlope {s₀ : State} (s : State) (f : Slope → Slope) (hs : s₀.Kept s) :
  s₀.Kept (State.eachSlope s f) := by
  unfold State.eachSlope
  try dsimp only
  repeat' first
    | with_reducible assumption | with_reducible apply kept_modSlope | with_reducible apply kept_foldl_fst
    | with_reducible apply kept_foldl_snd | with_reducible apply kept_foldl | (refine kept_fst (by with_reducible assumption) ?_)
    | (refine kept_snd (by with_reducible assumption) ?_) | intro _

theorem kept_governDown {s₀ : State} (s : State) (watts : List ℕ) (hs : s₀.Kept s) :
  s₀.Kept (State.governDown s watts) := by
  unfold State.governDown
  try dsimp only
  repeat' first
    | with_reducible assumption | with_reducible apply kept_eachSlope | with_reducible apply kept_modSlope
    | (refine kept_fst (by with_reducible assumption) ?_) | (refine kept_snd (by with_reducible assumption) ?_) | split

theorem kept_governUp {s₀ : State} (s : State) (hs : s₀.Kept s) :
  s₀.Kept (State.governUp s) := by
  unfold State.governUp
  try dsimp only
  repeat' first
    | with_reducible assumption | with_reducible apply kept_eachSlope | with_reducible apply kept_modSlope
    | (refine kept_fst (by with_reducible assumption) ?_) | (refine kept_snd (by with_reducible assumption) ?_) | split

theorem kept_govern {s₀ : State} (s : State) (p : ℕ) (watts : List ℕ) (hs : s₀.Kept s) :
  s₀.Kept (State.govern s p watts) := by
  unfold State.govern
  try dsimp only
  repeat' first
    | with_reducible assumption | with_reducible apply kept_governUp | with_reducible apply kept_eachSlope
    | with_reducible apply kept_governDown | (refine kept_fst (by with_reducible assumption) ?_)
    | (refine kept_snd (by with_reducible assumption) ?_) | split | intro _ | (simp only [kept_mk, kept_fields])

theorem kept_execGovernorPeriod {s₀ : State} (watts : ℕ) (slopeWatts : List ℕ) (s : State) (hs : s₀.Kept s) :
  KeptOut s₀ (execGovernorPeriod watts slopeWatts s) := by
  unfold execGovernorPeriod
  try dsimp only
  repeat' first
    | with_reducible assumption | with_reducible apply keptOut_next | with_reducible apply kept_govern
    | (refine kept_fst (by with_reducible assumption) ?_) | (refine kept_snd (by with_reducible assumption) ?_) | split

theorem kept_execClamp {s₀ : State} (watts : ℕ) (s : State) (hs : s₀.Kept s) :
  KeptOut s₀ (execClamp watts s) := by
  unfold execClamp
  try dsimp only
  repeat' first
    | with_reducible assumption | with_reducible apply keptOut_next | with_reducible apply kept_eachSlope | with_reducible apply kept_raise
    | (refine kept_fst (by with_reducible assumption) ?_) | (refine kept_snd (by with_reducible assumption) ?_) | split | intro _
    | (simp only [kept_mk, kept_fields])

theorem kept_retireFailed {s₀ : State} (s : State) (failed : List (ℕ × ℕ)) (hs : s₀.Kept s) :
  s₀.Kept (State.retireFailed s failed) := by
  unfold State.retireFailed
  try dsimp only
  repeat' first
    | with_reducible assumption | with_reducible apply kept_modCourse | with_reducible apply kept_foldl_fst
    | with_reducible apply kept_foldl_snd | with_reducible apply kept_foldl | (refine kept_fst (by with_reducible assumption) ?_)
    | (refine kept_snd (by with_reducible assumption) ?_) | intro _

theorem kept_bindCourses {s₀ : State} (s : State) (hs : s₀.Kept s) :
  s₀.Kept (State.bindCourses s) := by
  unfold State.bindCourses
  try dsimp only
  repeat' first
    | with_reducible assumption | with_reducible apply kept_bind | with_reducible apply kept_modCourse | with_reducible apply kept_foldl_fst
    | with_reducible apply kept_foldl_snd | with_reducible apply kept_foldl | (refine kept_fst (by with_reducible assumption) ?_)
    | (refine kept_snd (by with_reducible assumption) ?_) | split | intro _ | (simp only [kept_mk, kept_fields])

theorem kept_powerUp {s₀ : State} (s : State) (mv : BitVec 16) (failed : List (ℕ × ℕ)) (tamperOpen : Bool) (hs : s₀.Kept s) :
  s₀.Kept (State.powerUp s mv failed tamperOpen) := by
  unfold State.powerUp
  try dsimp only
  repeat' first
    | with_reducible assumption | with_reducible apply kept_votes | with_reducible apply kept_bindCourses | with_reducible apply kept_supplyLow
    | with_reducible apply kept_retain | with_reducible apply kept_retireFailed | with_reducible apply kept_bootFirmware
    | with_reducible apply kept_raise | with_reducible apply kept_wipeBank | with_reducible apply kept_blowTamper
    | with_reducible apply kept_contentInForce | (refine kept_fst (by with_reducible assumption) ?_)
    | (refine kept_snd (by with_reducible assumption) ?_) | split | intro _ | (simp only [kept_mk, kept_fields])

theorem kept_execPowerOn {s₀ : State} (input : PowerInput) (failed : List (ℕ × ℕ)) (tamperOpen : Bool) (s : State)
    (hs : s₀.Kept s) :
  KeptOut s₀ (execPowerOn input failed tamperOpen s) := by
  unfold execPowerOn
  try dsimp only
  repeat' first
    | with_reducible assumption | with_reducible apply keptOut_next | with_reducible apply kept_powerUp
    | (refine kept_fst (by with_reducible assumption) ?_) | (refine kept_snd (by with_reducible assumption) ?_) | split

theorem kept_functionPasses {s₀ : State} (s : State) (f : BringUp) (hs : s₀.Kept s) :
  s₀.Kept (State.functionPasses s f) := by
  unfold State.functionPasses
  try dsimp only
  repeat' first
    | with_reducible assumption | with_reducible apply kept_dhcpDiscover | with_reducible apply kept_modPort | (refine kept_fst (by with_reducible assumption) ?_)
    | (refine kept_snd (by with_reducible assumption) ?_) | split | intro _ | (simp only [kept_mk, kept_fields])

theorem kept_settleBringUp {s₀ : State} (s : State) (hs : s₀.Kept s) :
    s₀.Kept (State.settleBringUp s) := by
  unfold State.settleBringUp
  try dsimp only
  repeat' first
    | with_reducible assumption
    | with_reducible apply kept_foldl_fst | with_reducible apply kept_foldl_snd | with_reducible apply kept_foldl
    | (refine kept_fst (by with_reducible assumption) ?_) | (refine kept_snd (by with_reducible assumption) ?_) | split | intro _
    | (simp only [kept_mk, kept_fields])

theorem kept_functionFails {s₀ : State} (s : State) (f : BringUp) (test : ℕ) (hs : s₀.Kept s) :
  s₀.Kept (State.functionFails s f test) := by
  unfold State.functionFails
  try dsimp only
  repeat' first
    | with_reducible assumption | with_reducible apply kept_raise | with_reducible apply kept_portFault
    | (refine kept_fst (by with_reducible assumption) ?_) | (refine kept_snd (by with_reducible assumption) ?_) | split | intro _
    | (simp only [kept_mk, kept_fields])

theorem kept_execBringupFunctionDone {s₀ : State} (f : BringUp) (test : Option ℕ) (s : State) (hs : s₀.Kept s) :
  KeptOut s₀ (execBringupFunctionDone f test s) := by
  unfold execBringupFunctionDone
  try dsimp only
  repeat' first
    | with_reducible assumption | with_reducible apply kept_settleBringUp | with_reducible apply keptOut_next | with_reducible apply kept_draw
    | with_reducible apply kept_functionFails | with_reducible apply kept_functionPasses
    | (refine kept_fst (by with_reducible assumption) ?_) | (refine kept_snd (by with_reducible assumption) ?_) | split | intro _
    | (simp only [kept_mk, kept_fields])

theorem kept_execBringupDeadline {s₀ : State} (s : State) (hs : s₀.Kept s) :
  KeptOut s₀ (execBringupDeadline s) := by
  unfold execBringupDeadline
  try dsimp only
  repeat' first
    | with_reducible assumption | with_reducible apply kept_settleBringUp | with_reducible apply keptOut_next

theorem kept_closeAxes {s₀ : State} (s : State) (hs : s₀.Kept s) :
  s₀.Kept (State.closeAxes s) := by
  unfold State.closeAxes
  try dsimp only
  repeat' first
    | with_reducible assumption | with_reducible apply kept_closeAxis | with_reducible apply kept_foldl_fst
    | with_reducible apply kept_foldl_snd | with_reducible apply kept_foldl | (refine kept_fst (by with_reducible assumption) ?_)
    | (refine kept_snd (by with_reducible assumption) ?_) | split | intro _ | (simp only [kept_mk, kept_fields])

theorem kept_slopesOff {s₀ : State} (s : State) (hs : s₀.Kept s) :
  s₀.Kept (State.slopesOff s) := by
  unfold State.slopesOff
  try dsimp only
  repeat' first
    | with_reducible assumption | with_reducible apply kept_closeAxes | with_reducible apply kept_loseSram
    | (refine kept_fst (by with_reducible assumption) ?_) | (refine kept_snd (by with_reducible assumption) ?_) | intro _
    | (simp only [kept_mk, kept_fields])

theorem kept_drainFor {s₀ : State} (s : State) (d : ResetDue) (hs : s₀.Kept s) :
  s₀.Kept (State.drainFor s d) := by
  unfold State.drainFor
  try dsimp only
  repeat' first
    | with_reducible assumption | with_reducible apply kept_drainAxis | with_reducible apply kept_foldl_fst
    | with_reducible apply kept_foldl_snd | with_reducible apply kept_foldl | (refine kept_fst (by with_reducible assumption) ?_)
    | (refine kept_snd (by with_reducible assumption) ?_) | intro _ | (simp only [kept_mk, kept_fields])

theorem kept_enterStandby {s₀ : State} (s : State) (hs : s₀.Kept s) :
  s₀.Kept (State.enterStandby s) := by
  unfold State.enterStandby
  try dsimp only
  repeat' first
    | with_reducible assumption | with_reducible apply kept_drainFor | with_reducible apply kept_slopesOff
    | (refine kept_fst (by with_reducible assumption) ?_) | (refine kept_snd (by with_reducible assumption) ?_) | split | intro _
    | (simp only [kept_mk, kept_fields])

theorem kept_leaveStandby {s₀ : State} (s : State) (hs : s₀.Kept s) :
  s₀.Kept (State.leaveStandby s) := by
  unfold State.leaveStandby
  try dsimp only
  repeat' first
    | with_reducible assumption | (refine kept_fst (by with_reducible assumption) ?_) | (refine kept_snd (by with_reducible assumption) ?_)
    | split | intro _ | (simp only [kept_mk, kept_fields])

theorem kept_presenceEvent {s₀ : State} (s : State) (source : ℕ) (start : ℕ) (hs : s₀.Kept s) :
  s₀.Kept (State.presenceEvent s source start) := by
  unfold State.presenceEvent
  try dsimp only
  repeat' first
    | with_reducible assumption | with_reducible apply kept_raise

theorem kept_closeWindow {s₀ : State} (s : State) (hs : s₀.Kept s) :
  s₀.Kept (State.closeWindow s) := by
  unfold State.closeWindow
  try dsimp only
  repeat' first
    | with_reducible assumption | with_reducible apply kept_presenceEvent | (refine kept_fst (by with_reducible assumption) ?_)
    | (refine kept_snd (by with_reducible assumption) ?_) | split | intro _ | (simp only [kept_mk, kept_fields])

theorem kept_execPresenceButton {s₀ : State} (s : State) (hs : s₀.Kept s) :
  KeptOut s₀ (execPresenceButton s) := by
  unfold execPresenceButton
  try dsimp only
  repeat' first
    | with_reducible assumption | with_reducible apply kept_vote | with_reducible apply keptOut_next | with_reducible apply kept_presenceEvent
    | with_reducible apply kept_closeWindow | (refine kept_fst (by with_reducible assumption) ?_)
    | (refine kept_snd (by with_reducible assumption) ?_) | split | intro _ | (simp only [kept_mk, kept_fields])

theorem kept_execServiceJumper {s₀ : State} (fitted : Bool) (s : State) (hs : s₀.Kept s) :
  KeptOut s₀ (execServiceJumper fitted s) := by
  unfold execServiceJumper
  try dsimp only
  repeat' first
    | with_reducible assumption | with_reducible apply keptOut_next | with_reducible apply kept_presenceEvent
    | (refine kept_fst (by with_reducible assumption) ?_) | (refine kept_snd (by with_reducible assumption) ?_) | split | intro _
    | (simp only [kept_mk, kept_fields])

theorem kept_execPresenceWindowExpiry {s₀ : State} (s : State) (hs : s₀.Kept s) :
  KeptOut s₀ (execPresenceWindowExpiry s) := by
  unfold execPresenceWindowExpiry
  try dsimp only
  repeat' first
    | with_reducible assumption | with_reducible apply keptOut_next | with_reducible apply kept_closeWindow
    | (refine kept_fst (by with_reducible assumption) ?_) | (refine kept_snd (by with_reducible assumption) ?_) | split

theorem kept_execTamperBreak {s₀ : State} (s : State) (hs : s₀.Kept s) :
  KeptOut s₀ (execTamperBreak s) := by
  unfold execTamperBreak
  try dsimp only
  repeat' first
    | with_reducible assumption | with_reducible apply keptOut_next | with_reducible apply kept_closeWindow
    | with_reducible apply kept_endSessions | with_reducible apply kept_wipeBank | with_reducible apply kept_blowTamper
    | (refine kept_fst (by with_reducible assumption) ?_) | (refine kept_snd (by with_reducible assumption) ?_) | split

theorem kept_execSecureBankWipeEnd {s₀ : State} (s : State) (hs : s₀.Kept s) :
  KeptOut s₀ (execSecureBankWipeEnd s) := by
  unfold execSecureBankWipeEnd
  try dsimp only
  repeat' first
    | with_reducible assumption | with_reducible apply keptOut_next | (refine kept_fst (by with_reducible assumption) ?_)
    | (refine kept_snd (by with_reducible assumption) ?_) | intro _ | (simp only [kept_mk, kept_fields])

theorem kept_ownerWrite {s₀ : State} (s : State) (act : State → Status × State) (hact : ∀ t, s₀.Kept t → s₀.Kept (act t).2) (hs : s₀.Kept s) :
  s₀.Kept (State.ownerWrite s act).2 := by
  unfold State.ownerWrite
  try dsimp only
  repeat' first
    | with_reducible assumption | with_reducible apply kept_vote | with_reducible apply hact | split

theorem kept_keyInstall {s₀ : State} (s : State) (slot : ℕ) (hs : s₀.Kept s) :
  s₀.Kept (State.keyInstall s slot).2 := by
  unfold State.keyInstall
  try dsimp only
  repeat' first
    | with_reducible assumption | with_reducible apply kept_ownerWrite | (refine kept_fst (by with_reducible assumption) ?_) | (refine kept_snd (by with_reducible assumption) ?_)
    | with_reducible apply keptEx_ok | split | intro _ | (simp only [kept_mk, kept_fields])

theorem kept_keyRevoke {s₀ : State} (s : State) (slot : ℕ) (hs : s₀.Kept s) :
  s₀.Kept (State.keyRevoke s slot).2 := by
  unfold State.keyRevoke
  try dsimp only
  repeat' first
    | with_reducible assumption | with_reducible apply kept_ownerWrite | with_reducible apply kept_vote | (refine kept_fst (by with_reducible assumption) ?_) | (refine kept_snd (by with_reducible assumption) ?_)
    | with_reducible apply keptEx_ok | split | intro _ | (simp only [kept_mk, kept_fields])

theorem kept_policySet {s₀ : State} (s : State) (v : BitVec 4) (hs : s₀.Kept s) :
  s₀.Kept (State.policySet s v).2 := by
  unfold State.policySet
  try dsimp only
  repeat' first
    | with_reducible assumption | with_reducible apply kept_ownerWrite | (refine kept_fst (by with_reducible assumption) ?_) | (refine kept_snd (by with_reducible assumption) ?_)
    | with_reducible apply keptEx_ok | split | intro _ | (simp only [kept_mk, kept_fields])

theorem kept_debugSet {s₀ : State} (s : State) (unlock : Bool) (hs : s₀.Kept s) :
  s₀.Kept (State.debugSet s unlock).2 := by
  unfold State.debugSet
  try dsimp only
  repeat' first
    | with_reducible assumption | with_reducible apply kept_votes | with_reducible apply kept_raise | (refine kept_fst (by with_reducible assumption) ?_)
    | (refine kept_snd (by with_reducible assumption) ?_) | with_reducible apply keptEx_ok | split | intro _
    | (simp only [kept_mk, kept_fields])

theorem kept_nextChallenge {s₀ : State} (s : State) (hs : s₀.Kept s) :
  s₀.Kept (State.nextChallenge s) := by
  unfold State.nextChallenge
  try dsimp only
  repeat' first
    | with_reducible assumption | (refine kept_fst (by with_reducible assumption) ?_) | (refine kept_snd (by with_reducible assumption) ?_)
    | intro _ | (simp only [kept_mk, kept_fields])

theorem kept_readStaged {s₀ : State} (x0 : State) (x1 : List ℕ) (hx0 : s₀.Kept x0) :
  s₀.Kept (readStaged x0 x1).1 := by
  unfold readStaged
  try dsimp only
  repeat' first
    | with_reducible assumption | with_reducible apply kept_draw | with_reducible apply kept_countErr | with_reducible apply kept_raiseUe
    | with_reducible apply kept_readStaged | (refine kept_fst (by with_reducible assumption) ?_)
    | (refine kept_snd (by with_reducible assumption) ?_) | split

theorem kept_stage {s₀ : State} (s : State) (kind : ℕ) (b : List Byte) (hs : s₀.Kept s) :
  s₀.Kept (State.stage s kind b) := by
  unfold State.stage
  try dsimp only
  repeat' first
    | with_reducible assumption | (refine kept_fst (by with_reducible assumption) ?_) | (refine kept_snd (by with_reducible assumption) ?_)
    | split | intro _ | (simp only [kept_mk, kept_fields])

theorem kept_opFwStage {s₀ : State} (s : State) (ss : ℕ) (seq : ℕ) (staging : ℕ) (length : ℕ) (kind : ℕ) (hs : s₀.Kept s) :
  s₀.Kept (opFwStage s ss seq staging length kind) := by
  unfold opFwStage
  try dsimp only
  repeat' first
    | with_reducible assumption | with_reducible apply kept_malformed | with_reducible apply kept_votes | with_reducible apply kept_stage | with_reducible apply kept_refuse | with_reducible apply kept_startLong
    | with_reducible apply kept_readStaged | (refine kept_fst (by with_reducible assumption) ?_)
    | (refine kept_snd (by with_reducible assumption) ?_) | with_reducible apply keptEx_ok | split

theorem kept_commit {s₀ : State} (s : State) (kind : ℕ) (p : Package) (hs : s₀.Kept s) :
  s₀.Kept (State.commit s kind p) := by
  unfold State.commit
  try dsimp only
  repeat' first
    | with_reducible assumption | with_reducible apply kept_raise | (refine kept_fst (by with_reducible assumption) ?_)
    | (refine kept_snd (by with_reducible assumption) ?_) | split | intro _ | (simp only [kept_mk, kept_fields])

theorem kept_opFwCommit {s₀ : State} (s : State) (ss : ℕ) (seq : ℕ) (kind : ℕ) (hs : s₀.Kept s) :
  s₀.Kept (opFwCommit s ss seq kind) := by
  unfold opFwCommit
  try dsimp only
  repeat' first
    | with_reducible assumption | with_reducible apply kept_votes | with_reducible apply kept_refuse | with_reducible apply kept_startLong | with_reducible apply kept_commit
    | (refine kept_fst (by with_reducible assumption) ?_) | (refine kept_snd (by with_reducible assumption) ?_)
    | with_reducible apply keptEx_ok | split

theorem kept_fullWipe {s₀ : State} (s : State) (hs : s₀.Kept s) :
  s₀.Kept (State.fullWipe s) := by
  unfold State.fullWipe
  apply kept_wipeBank
  apply kept_loseSram
  exact kept_mem hs rfl fun _ => rfl

theorem kept_clearHealth {s₀ : State} (s : State) (hs : s₀.Kept s) :
    s₀.Kept (State.clearHealth s) := by
  unfold State.clearHealth
  try dsimp only
  repeat' first
    | with_reducible assumption
    | with_reducible apply kept_foldl_fst | with_reducible apply kept_foldl_snd | with_reducible apply kept_foldl
    | (refine kept_fst (by with_reducible assumption) ?_) | (refine kept_snd (by with_reducible assumption) ?_) | split | intro _
    | (simp only [kept_mk, kept_fields])

theorem kept_lcMove {s₀ : State} (s : State) (target : LcState) (hs : s₀.Kept s) :
  s₀.Kept (State.lcMove s target) := by
  unfold State.lcMove
  try dsimp only
  repeat' first
    | with_reducible assumption | with_reducible apply kept_clearHealth | with_reducible apply kept_fullWipe | with_reducible apply kept_raise | with_reducible apply kept_wipeBank
    | (refine kept_fst (by with_reducible assumption) ?_) | (refine kept_snd (by with_reducible assumption) ?_) | split | intro _
    | (simp only [kept_mk, kept_fields])

theorem kept_opLcChange {s₀ : State} (s : State) (ss : ℕ) (seq : ℕ) (target : ℕ) (r : ℕ) (g : ℕ) (hs : s₀.Kept s) :
  s₀.Kept (opLcChange s ss seq target r g) := by
  unfold opLcChange
  try dsimp only
  repeat' first
    | with_reducible assumption | with_reducible apply kept_vote | with_reducible apply kept_lcMove | with_reducible apply kept_refuse | with_reducible apply kept_startLong
    | (refine kept_fst (by with_reducible assumption) ?_) | (refine kept_snd (by with_reducible assumption) ?_)
    | with_reducible apply keptEx_ok | split

theorem kept_opSecureWipe {s₀ : State} (s : State) (ss : ℕ) (seq : ℕ) (scope : ℕ) (hs : s₀.Kept s) :
  s₀.Kept (opSecureWipe s ss seq scope) := by
  unfold opSecureWipe
  try dsimp only
  repeat' first
    | with_reducible assumption | with_reducible apply kept_refuse | with_reducible apply kept_fullWipe
    | with_reducible apply kept_startLong | with_reducible apply kept_wipeBank | (refine kept_fst (by with_reducible assumption) ?_)
    | (refine kept_snd (by with_reducible assumption) ?_) | with_reducible apply keptEx_ok | split

theorem kept_opAttest {s₀ : State} (s : State) (ss : ℕ) (seq : ℕ) (payload : List Byte) (hs : s₀.Kept s) :
  s₀.Kept (opAttest s ss seq payload) := by
  unfold opAttest
  try dsimp only
  repeat' first
    | with_reducible assumption | with_reducible apply kept_malformed | with_reducible apply kept_votes | with_reducible apply kept_reply | with_reducible apply kept_refuse
    | (refine kept_fst (by with_reducible assumption) ?_) | (refine kept_snd (by with_reducible assumption) ?_)
    | with_reducible apply keptEx_ok | split

theorem kept_setBanks {s₀ : State} (s : State) (base : ℕ) (size : ℕ) (v : ℕ) (hs : s₀.Kept s) :
  s₀.Kept (State.setBanks s base size v).2 := by
  unfold State.setBanks
  try dsimp only
  repeat' first
    | with_reducible assumption | with_reducible apply kept_zeroRange | with_reducible apply kept_setBankState
    | with_reducible apply kept_foldl_fst | with_reducible apply kept_foldl_snd | with_reducible apply kept_foldl
    | (refine kept_fst (by with_reducible assumption) ?_) | (refine kept_snd (by with_reducible assumption) ?_)
    | with_reducible apply keptEx_ok | split | intro _

theorem kept_setRegions {s₀ : State} (s : State) (o : RegionOwner) (t : Tab Region) (hs : s₀.Kept s) :
  s₀.Kept (State.setRegions s o t) := by
  unfold State.setRegions
  try dsimp only
  repeat' first
    | with_reducible assumption | with_reducible apply kept_modPort | (refine kept_fst (by with_reducible assumption) ?_)
    | (refine kept_snd (by with_reducible assumption) ?_) | split | intro _ | (simp only [kept_mk, kept_fields])

theorem kept_setRegion {s₀ : State} (s : State) (o : RegionOwner) (r : ℕ) (x : Region) (hs : s₀.Kept s) :
  s₀.Kept (State.setRegion s o r x).2 := by
  unfold State.setRegion
  try dsimp only
  repeat' first
    | with_reducible assumption | with_reducible apply kept_setRegions | (refine kept_fst (by with_reducible assumption) ?_)
    | (refine kept_snd (by with_reducible assumption) ?_) | with_reducible apply keptEx_ok | split

theorem kept_setRidgeCtrl {s₀ : State} (s : State) (v : ℕ) (hs : s₀.Kept s) :
  s₀.Kept (State.setRidgeCtrl s v).2 := by
  unfold State.setRidgeCtrl
  try dsimp only
  repeat' first
    | with_reducible assumption | with_reducible apply kept_modRidgeChan | (refine kept_fst (by with_reducible assumption) ?_)
    | (refine kept_snd (by with_reducible assumption) ?_) | with_reducible apply keptEx_ok | split | intro _
    | (simp only [kept_mk, kept_fields])

theorem kept_setKeyStream {s₀ : State} (s : State) (n : ℕ) (v : Word) (hs : s₀.Kept s) :
  s₀.Kept (State.setKeyStream s n v).2 := by
  unfold State.setKeyStream
  try dsimp only
  repeat' first
    | with_reducible assumption | (refine kept_fst (by with_reducible assumption) ?_) | (refine kept_snd (by with_reducible assumption) ?_)
    | with_reducible apply keptEx_ok | split | intro _ | (simp only [kept_mk, kept_fields])

theorem kept_setPowerCtrl {s₀ : State} (s : State) (priv : Bool) (v : ℕ) (hs : s₀.Kept s) :
  s₀.Kept (State.setPowerCtrl s priv v).2 := by
  unfold State.setPowerCtrl
  try dsimp only
  repeat' first
    | with_reducible assumption | with_reducible apply kept_leaveStandby | with_reducible apply kept_enterStandby
    | (refine kept_fst (by with_reducible assumption) ?_) | (refine kept_snd (by with_reducible assumption) ?_)
    | with_reducible apply keptEx_ok | split | intro _ | (simp only [kept_mk, kept_fields])

theorem kept_setRcpConfig {s₀ : State} (s : State) (v : ℕ) (hs : s₀.Kept s) :
  s₀.Kept (State.setRcpConfig s v).2 := by
  unfold State.setRcpConfig
  try dsimp only
  repeat' first
    | with_reducible assumption | (refine kept_fst (by with_reducible assumption) ?_) | (refine kept_snd (by with_reducible assumption) ?_)
    | with_reducible apply keptEx_ok | split | intro _ | (simp only [kept_mk, kept_fields])

theorem kept_setHostAddr {s₀ : State} (s : State) (v : ℕ) (hs : s₀.Kept s) :
  s₀.Kept (State.setHostAddr s v).2 := by
  unfold State.setHostAddr
  try dsimp only
  repeat' first
    | with_reducible assumption | with_reducible apply kept_dhcpDiscover | (refine kept_fst (by with_reducible assumption) ?_) | (refine kept_snd (by with_reducible assumption) ?_)
    | with_reducible apply keptEx_ok | split | intro _ | (simp only [kept_mk, kept_fields])

theorem kept_setScrub {s₀ : State} (s : State) (v : ℕ) (hs : s₀.Kept s) :
  s₀.Kept (State.setScrub s v).2 := by
  unfold State.setScrub
  try dsimp only
  repeat' first
    | with_reducible assumption | with_reducible apply kept_settleGuarantee | (refine kept_fst (by with_reducible assumption) ?_)
    | (refine kept_snd (by with_reducible assumption) ?_) | with_reducible apply keptEx_ok | split | intro _
    | (simp only [kept_mk, kept_fields])

theorem kept_setReshard {s₀ : State} (s : State) (v : Word) (hs : s₀.Kept s) :
  s₀.Kept (State.setReshard s v).2 := by
  unfold State.setReshard
  try dsimp only
  repeat' first
    | with_reducible assumption | with_reducible apply kept_reshardCtrl | (refine kept_fst (by with_reducible assumption) ?_)
    | (refine kept_snd (by with_reducible assumption) ?_) | with_reducible apply keptEx_ok | split | intro _
    | (simp only [kept_mk, kept_fields])

theorem kept_setBankWord {s₀ : State} (s : State) (n : ℕ) (v : Word) (hs : s₀.Kept s) :
  s₀.Kept (State.setBankWord s n v).2 := by
  unfold State.setBankWord
  try dsimp only
  repeat' first
    | with_reducible assumption | (refine kept_fst (by with_reducible assumption) ?_) | (refine kept_snd (by with_reducible assumption) ?_)
    | with_reducible apply keptEx_ok | split | intro _ | (simp only [kept_mk, kept_fields])

theorem kept_setKeyCtrl {s₀ : State} (s : State) (v : ℕ) (hs : s₀.Kept s) :
  s₀.Kept (State.setKeyCtrl s v).2 := by
  unfold State.setKeyCtrl
  try dsimp only
  repeat' first
    | with_reducible assumption | with_reducible apply kept_ownerWrite | with_reducible apply kept_keyRevoke | with_reducible apply kept_keyInstall
    | (refine kept_fst (by with_reducible assumption) ?_) | (refine kept_snd (by with_reducible assumption) ?_) | split | intro _

theorem kept_setReg {s₀ : State} (s : State) (priv : Bool) (r : WReg) (value : Word) (hs : s₀.Kept s) :
  s₀.Kept (State.setReg s priv r value).2 := by
  unfold State.setReg
  try dsimp only
  repeat' first
    | with_reducible assumption | with_reducible apply kept_reshardCtrl | with_reducible apply kept_setReshard | with_reducible apply kept_modRidgeChan
    | with_reducible apply kept_ridgeCqSet | with_reducible apply kept_setKeyStream | with_reducible apply kept_setScrub
    | with_reducible apply kept_modCore | with_reducible apply kept_setBanks | with_reducible apply kept_setBankWord
    | with_reducible apply kept_setPowerCtrl | with_reducible apply kept_modCourse | with_reducible apply kept_debugSet
    | with_reducible apply kept_modSlope | with_reducible apply kept_policySet | with_reducible apply kept_setRcpConfig
    | with_reducible apply kept_setHostAddr | with_reducible apply kept_setRegion | with_reducible apply kept_setRidgeCtrl
    | with_reducible apply kept_modStack | with_reducible apply kept_setKeyCtrl | (refine kept_fst (by with_reducible assumption) ?_)
    | (refine kept_snd (by with_reducible assumption) ?_) | with_reducible apply keptEx_ok | split | intro _
    | (simp only [kept_mk, kept_fields])

theorem kept_regWrite {s₀ : State} (s : State) (priv : Bool) (a : ℕ) (v : Word) (hs : s₀.Kept s) :
  s₀.Kept (State.regWrite s priv a v).2 := by
  unfold State.regWrite
  try dsimp only
  repeat' first
    | with_reducible assumption | with_reducible apply kept_malformed | with_reducible apply kept_presence | with_reducible apply kept_setReg | (refine kept_fst (by with_reducible assumption) ?_)
    | (refine kept_snd (by with_reducible assumption) ?_) | split

theorem kept_refuseAt {s₀ : State} (s : State) (ss : ℕ) (seq : ℕ) (type : ℕ) (st : Status) (i : ℕ) (hs : s₀.Kept s) :
  s₀.Kept (State.refuseAt s ss seq type st i) := by
  unfold State.refuseAt
  try dsimp only
  repeat' first
    | with_reducible assumption | with_reducible apply kept_reply

theorem kept_holdCmd {s₀ : State} (s : State) (u : Option ℕ × ℕ) (ss : ℕ) (seq : ℕ) (c : HeldCmd) (hs : s₀.Kept s) :
  s₀.Kept (State.holdCmd s u ss seq c) := by
  unfold State.holdCmd
  try dsimp only
  repeat' first
    | with_reducible assumption | (refine kept_fst (by with_reducible assumption) ?_) | (refine kept_snd (by with_reducible assumption) ?_)
    | intro _ | (simp only [kept_mk, kept_fields])

theorem kept_writeLoop {s₀ : State} (ss : ℕ) (seq : ℕ) (priv : Bool) (x3 : State) (x4 : ℕ) (x5 : List (Word × Word)) (hx3 : s₀.Kept x3) :
  s₀.Kept (writeLoop ss seq priv x3 x4 x5) := by
  unfold writeLoop
  try dsimp only
  repeat' first
    | with_reducible assumption | with_reducible apply kept_reply | with_reducible apply kept_holdCmd | with_reducible apply kept_refuseAt
    | with_reducible apply kept_regWrite | with_reducible apply kept_writeLoop | (refine kept_fst (by with_reducible assumption) ?_)
    | (refine kept_snd (by with_reducible assumption) ?_) | with_reducible apply keptEx_ok | split

theorem kept_opWriteReg {s₀ : State} (s : State) (ss : ℕ) (seq : ℕ) (priv : Bool) (pairs : List (Word × Word)) (hs : s₀.Kept s) :
  s₀.Kept (opWriteReg s ss seq priv pairs) := by
  unfold opWriteReg
  try dsimp only
  repeat' first
    | with_reducible assumption | with_reducible apply kept_malformed | with_reducible apply kept_refuseAt | with_reducible apply kept_refuse
    | with_reducible apply kept_writeLoop | (refine kept_fst (by with_reducible assumption) ?_)
    | (refine kept_snd (by with_reducible assumption) ?_) | split

theorem kept_readLoop {s₀ : State} (ss : ℕ) (seq : ℕ) (priv : Bool) (x3 : State) (x4 : List Word) (x5 : List Word) (hx3 : s₀.Kept x3) :
  s₀.Kept (readLoop ss seq priv x3 x4 x5) := by
  unfold readLoop
  try dsimp only
  repeat' first
    | with_reducible assumption | with_reducible apply kept_reply | with_reducible apply kept_holdCmd | with_reducible apply kept_refuseAt
    | with_reducible apply kept_votes | with_reducible apply kept_readLoop | (refine kept_fst (by with_reducible assumption) ?_)
    | (refine kept_snd (by with_reducible assumption) ?_) | with_reducible apply keptEx_ok | split

theorem kept_opReadReg {s₀ : State} (s : State) (ss : ℕ) (seq : ℕ) (priv : Bool) (addrs : List Word) (hs : s₀.Kept s) :
  s₀.Kept (opReadReg s ss seq priv addrs) := by
  unfold opReadReg
  try dsimp only
  repeat' first
    | with_reducible assumption | with_reducible apply kept_malformed | with_reducible apply kept_refuseAt | with_reducible apply kept_readLoop | with_reducible apply kept_refuse
    | (refine kept_fst (by with_reducible assumption) ?_) | (refine kept_snd (by with_reducible assumption) ?_) | split

theorem kept_openAxis {s₀ : State} (s : State) (k : ℕ) (hs : s₀.Kept s) :
  s₀.Kept (State.openAxis s k) := by
  unfold State.openAxis
  try dsimp only
  repeat' first
    | with_reducible assumption | with_reducible apply kept_modPort | (refine kept_fst (by with_reducible assumption) ?_)
    | (refine kept_snd (by with_reducible assumption) ?_) | split | intro _ | (simp only [kept_mk, kept_fields])

theorem kept_startDrain {s₀ : State} (s : State) (k : ℕ) (ss : ℕ) (seq : ℕ) (force : Bool) (hs : s₀.Kept s) :
  s₀.Kept (State.startDrain s k ss seq force) := by
  unfold State.startDrain
  try dsimp only
  repeat' first
    | with_reducible assumption | with_reducible apply kept_drainAxis | (refine kept_fst (by with_reducible assumption) ?_)
    | (refine kept_snd (by with_reducible assumption) ?_) | intro _ | (simp only [kept_mk, kept_fields])

theorem kept_opBypassSet {s₀ : State} (s : State) (ss : ℕ) (seq : ℕ) (pair : ℕ) (action : ℕ) (force : ℕ) (hs : s₀.Kept s) :
  s₀.Kept (opBypassSet s ss seq pair action force) := by
  unfold opBypassSet
  try dsimp only
  repeat' first
    | with_reducible assumption | with_reducible apply kept_reply | with_reducible apply kept_refuse | with_reducible apply kept_openAxis
    | with_reducible apply kept_startDrain | (refine kept_fst (by with_reducible assumption) ?_)
    | (refine kept_snd (by with_reducible assumption) ?_) | with_reducible apply keptEx_ok | split

theorem kept_axisDrained {s₀ : State} (s : State) (k : ℕ) (hs : s₀.Kept s) :
  s₀.Kept (State.axisDrained s k) := by
  unfold State.axisDrained
  try dsimp only
  repeat' first
    | with_reducible assumption | with_reducible apply kept_reply | with_reducible apply kept_closeAxis
    | with_reducible apply kept_foldl_fst | with_reducible apply kept_foldl_snd | with_reducible apply kept_foldl
    | (refine kept_fst (by with_reducible assumption) ?_) | (refine kept_snd (by with_reducible assumption) ?_)
    | with_reducible apply keptEx_ok | split | intro _ | (simp only [kept_mk, kept_fields])

end Sys2Proof.Machine
end

