-- ==== Sys2Proof/Laws/KeptScalar.lean ====
section
/-! SUPPORT. The queue and the form of memory stand (State.Kept): scalar, control and descriptor instructions. -/

namespace Sys2Proof.Machine

open State

theorem kept_scalar3 {s₀ : State} (opcode : ℕ) (op : Word → Word → Word) (n : ℕ) (t : Stream) (w : Word128) (s : State) (hs : s₀.Kept s) :
  KeptIf s₀ (scalar3 opcode op n t w s) := by
  unfold scalar3
  try dsimp only
  repeat' first
    | with_reducible assumption | with_reducible apply keptIf_next | exact keptIf_refused _ | (with_reducible apply keptEx_ok)
    | with_reducible apply kept_issue | with_reducible apply kept_setSreg | (refine kept_fst (by with_reducible assumption) ?_)
    | (refine kept_snd (by with_reducible assumption) ?_) | with_reducible apply keptEx_ok | intro _

theorem kept_scalarImm {s₀ : State} (opcode : ℕ) (used : ℕ) (op : Word → Word) (n : ℕ) (t : Stream) (w : Word128) (s : State)
    (hs : s₀.Kept s) :
  KeptIf s₀ (scalarImm opcode used op n t w s) := by
  unfold scalarImm
  try dsimp only
  repeat' first
    | with_reducible assumption | with_reducible apply keptIf_next | exact keptIf_refused _ | (with_reducible apply keptEx_ok)
    | with_reducible apply kept_issue | with_reducible apply kept_setSreg | (refine kept_fst (by with_reducible assumption) ?_)
    | (refine kept_snd (by with_reducible assumption) ?_) | with_reducible apply keptEx_ok | intro _

theorem kept_execAdd {s₀ : State} (c : CoreId) (t : Stream) (w : Word128) (s : State) (hs : s₀.Kept s) :
  KeptIf s₀ (execAdd c t w s) := by
  unfold execAdd
  try dsimp only
  repeat' first
    | with_reducible assumption | with_reducible apply keptIf_next | exact keptIf_refused _ | with_reducible apply kept_scalar3

theorem kept_execSub {s₀ : State} (c : CoreId) (t : Stream) (w : Word128) (s : State) (hs : s₀.Kept s) :
  KeptIf s₀ (execSub c t w s) := by
  unfold execSub
  try dsimp only
  repeat' first
    | with_reducible assumption | with_reducible apply keptIf_next | exact keptIf_refused _ | with_reducible apply kept_scalar3

theorem kept_execMul {s₀ : State} (c : CoreId) (t : Stream) (w : Word128) (s : State) (hs : s₀.Kept s) :
  KeptIf s₀ (execMul c t w s) := by
  unfold execMul
  try dsimp only
  repeat' first
    | with_reducible assumption | with_reducible apply keptIf_next | exact keptIf_refused _ | with_reducible apply kept_scalar3

theorem kept_execDivu {s₀ : State} (c : CoreId) (t : Stream) (w : Word128) (s : State) (hs : s₀.Kept s) :
  KeptIf s₀ (execDivu c t w s) := by
  unfold execDivu
  try dsimp only
  repeat' first
    | with_reducible assumption | with_reducible apply keptIf_next | exact keptIf_refused _ | with_reducible apply kept_scalar3

theorem kept_execRemu {s₀ : State} (c : CoreId) (t : Stream) (w : Word128) (s : State) (hs : s₀.Kept s) :
  KeptIf s₀ (execRemu c t w s) := by
  unfold execRemu
  try dsimp only
  repeat' first
    | with_reducible assumption | with_reducible apply keptIf_next | exact keptIf_refused _ | with_reducible apply kept_scalar3

theorem kept_execAndOp {s₀ : State} (c : CoreId) (t : Stream) (w : Word128) (s : State) (hs : s₀.Kept s) :
  KeptIf s₀ (execAndOp c t w s) := by
  unfold execAndOp
  try dsimp only
  repeat' first
    | with_reducible assumption | with_reducible apply keptIf_next | exact keptIf_refused _ | with_reducible apply kept_scalar3

theorem kept_execOrOp {s₀ : State} (c : CoreId) (t : Stream) (w : Word128) (s : State) (hs : s₀.Kept s) :
  KeptIf s₀ (execOrOp c t w s) := by
  unfold execOrOp
  try dsimp only
  repeat' first
    | with_reducible assumption | with_reducible apply keptIf_next | exact keptIf_refused _ | with_reducible apply kept_scalar3

theorem kept_execXorOp {s₀ : State} (c : CoreId) (t : Stream) (w : Word128) (s : State) (hs : s₀.Kept s) :
  KeptIf s₀ (execXorOp c t w s) := by
  unfold execXorOp
  try dsimp only
  repeat' first
    | with_reducible assumption | with_reducible apply keptIf_next | exact keptIf_refused _ | with_reducible apply kept_scalar3

theorem kept_execShl {s₀ : State} (c : CoreId) (t : Stream) (w : Word128) (s : State) (hs : s₀.Kept s) :
  KeptIf s₀ (execShl c t w s) := by
  unfold execShl
  try dsimp only
  repeat' first
    | with_reducible assumption | with_reducible apply keptIf_next | exact keptIf_refused _ | with_reducible apply kept_scalar3

theorem kept_execShr {s₀ : State} (c : CoreId) (t : Stream) (w : Word128) (s : State) (hs : s₀.Kept s) :
  KeptIf s₀ (execShr c t w s) := by
  unfold execShr
  try dsimp only
  repeat' first
    | with_reducible assumption | with_reducible apply keptIf_next | exact keptIf_refused _ | with_reducible apply kept_scalar3

theorem kept_execSar {s₀ : State} (c : CoreId) (t : Stream) (w : Word128) (s : State) (hs : s₀.Kept s) :
  KeptIf s₀ (execSar c t w s) := by
  unfold execSar
  try dsimp only
  repeat' first
    | with_reducible assumption | with_reducible apply keptIf_next | exact keptIf_refused _ | with_reducible apply kept_scalar3

theorem kept_execMinu {s₀ : State} (c : CoreId) (t : Stream) (w : Word128) (s : State) (hs : s₀.Kept s) :
  KeptIf s₀ (execMinu c t w s) := by
  unfold execMinu
  try dsimp only
  repeat' first
    | with_reducible assumption | with_reducible apply keptIf_next | exact keptIf_refused _ | with_reducible apply kept_scalar3

theorem kept_execMaxu {s₀ : State} (c : CoreId) (t : Stream) (w : Word128) (s : State) (hs : s₀.Kept s) :
  KeptIf s₀ (execMaxu c t w s) := by
  unfold execMaxu
  try dsimp only
  repeat' first
    | with_reducible assumption | with_reducible apply keptIf_next | exact keptIf_refused _ | with_reducible apply kept_scalar3

theorem kept_execAddi {s₀ : State} (c : CoreId) (t : Stream) (w : Word128) (s : State) (hs : s₀.Kept s) :
  KeptIf s₀ (execAddi c t w s) := by
  unfold execAddi
  try dsimp only
  repeat' first
    | with_reducible assumption | with_reducible apply keptIf_next | exact keptIf_refused _ | with_reducible apply kept_scalarImm

theorem kept_execAndi {s₀ : State} (c : CoreId) (t : Stream) (w : Word128) (s : State) (hs : s₀.Kept s) :
  KeptIf s₀ (execAndi c t w s) := by
  unfold execAndi
  try dsimp only
  repeat' first
    | with_reducible assumption | with_reducible apply keptIf_next | exact keptIf_refused _ | with_reducible apply kept_scalarImm

theorem kept_execShli {s₀ : State} (c : CoreId) (t : Stream) (w : Word128) (s : State) (hs : s₀.Kept s) :
  KeptIf s₀ (execShli c t w s) := by
  unfold execShli
  try dsimp only
  repeat' first
    | with_reducible assumption | with_reducible apply keptIf_next | exact keptIf_refused _ | with_reducible apply kept_scalarImm

theorem kept_execShri {s₀ : State} (c : CoreId) (t : Stream) (w : Word128) (s : State) (hs : s₀.Kept s) :
  KeptIf s₀ (execShri c t w s) := by
  unfold execShri
  try dsimp only
  repeat' first
    | with_reducible assumption | with_reducible apply keptIf_next | exact keptIf_refused _ | with_reducible apply kept_scalarImm

theorem kept_execLdi {s₀ : State} (c : CoreId) (t : Stream) (w : Word128) (s : State) (hs : s₀.Kept s) :
  KeptIf s₀ (execLdi c t w s) := by
  unfold execLdi
  try dsimp only
  repeat' first
    | with_reducible assumption | with_reducible apply keptIf_next | exact keptIf_refused _ | (with_reducible apply keptEx_ok)
    | with_reducible apply kept_issue | with_reducible apply kept_setSreg | (refine kept_fst (by with_reducible assumption) ?_)
    | (refine kept_snd (by with_reducible assumption) ?_) | with_reducible apply keptEx_ok | intro _

theorem kept_execLdih {s₀ : State} (c : CoreId) (t : Stream) (w : Word128) (s : State) (hs : s₀.Kept s) :
  KeptIf s₀ (execLdih c t w s) := by
  unfold execLdih
  try dsimp only
  repeat' first
    | with_reducible assumption | with_reducible apply keptIf_next | exact keptIf_refused _ | (with_reducible apply keptEx_ok)
    | with_reducible apply kept_issue | with_reducible apply kept_setSreg | (refine kept_fst (by with_reducible assumption) ?_)
    | (refine kept_snd (by with_reducible assumption) ?_) | with_reducible apply keptEx_ok | intro _

theorem kept_execLoopidx {s₀ : State} (c : CoreId) (t : Stream) (w : Word128) (s : State) (hs : s₀.Kept s) :
  KeptIf s₀ (execLoopidx c t w s) := by
  unfold execLoopidx
  try dsimp only
  repeat' first
    | with_reducible assumption | with_reducible apply keptIf_next | exact keptIf_refused _ | (with_reducible apply keptEx_ok)
    | with_reducible apply kept_issue | with_reducible apply kept_setSreg | (refine kept_fst (by with_reducible assumption) ?_)
    | (refine kept_snd (by with_reducible assumption) ?_) | with_reducible apply keptEx_ok | intro _

theorem kept_execRdid {s₀ : State} (c : CoreId) (t : Stream) (w : Word128) (s : State) (hs : s₀.Kept s) :
  KeptIf s₀ (execRdid c t w s) := by
  unfold execRdid
  try dsimp only
  repeat' first
    | with_reducible assumption | with_reducible apply keptIf_next | exact keptIf_refused _ | (with_reducible apply keptEx_ok)
    | with_reducible apply kept_issue | with_reducible apply kept_setSreg | (refine kept_fst (by with_reducible assumption) ?_)
    | (refine kept_snd (by with_reducible assumption) ?_) | with_reducible apply keptEx_ok | intro _

theorem kept_scalarRead_ok {s₀ s t : State} {n a : Nat} {l : List Byte} (e : scalarRead s n a = .ok (l, t)) (h : s₀.Kept s) : s₀.Kept t := by
  have hk := kept_readLine s a n h
  unfold scalarRead at e
  dsimp only at e
  split at e
  · injection e with e
    injection e with _ e
    exact e ▸ hk
  · cases e

theorem kept_scalarRead_error {s₀ s : State} {n a : Nat} {x : Stop × State} (e : scalarRead s n a = .error x) (h : s₀.Kept s) :
    KeptEx s₀ (.error x) := by
  have hk := kept_readLine s a n h
  unfold scalarRead at e
  dsimp only at e
  split at e
  · cases e
  · injection e with e
    exact e ▸ hk

theorem kept_execLdl {s₀ : State} (c : CoreId) (t : Stream) (w : Word128) (s : State) (hs : s₀.Kept s) :
  KeptIf s₀ (execLdl c t w s) := by
  unfold execLdl
  try dsimp only
  repeat' first
    | with_reducible assumption | with_reducible apply keptIf_next | exact keptIf_refused _ | (with_reducible apply keptEx_ok)
    | (with_reducible apply keptEx_error) | (refine kept_scalarRead_ok (by with_reducible assumption) ?_)
    | (refine kept_scalarRead_error (by with_reducible assumption) ?_) | with_reducible apply kept_issue | with_reducible apply kept_modCtx
    | (refine kept_fst (by with_reducible assumption) ?_) | (refine kept_snd (by with_reducible assumption) ?_)
    | with_reducible apply keptEx_ok | with_reducible apply keptEx_error | split | intro _

theorem kept_execStl {s₀ : State} (c : CoreId) (t : Stream) (w : Word128) (s : State) (hs : s₀.Kept s) :
  KeptIf s₀ (execStl c t w s) := by
  unfold execStl
  try dsimp only
  repeat' first
    | with_reducible assumption | with_reducible apply keptIf_next | exact keptIf_refused _ | (with_reducible apply keptEx_ok)
    | (with_reducible apply keptEx_error) | with_reducible apply kept_issue | with_reducible apply kept_writeLine
    | with_reducible apply kept_signal | (refine kept_fst (by with_reducible assumption) ?_)
    | (refine kept_snd (by with_reducible assumption) ?_) | with_reducible apply keptEx_ok | with_reducible apply keptEx_error | split
    | intro _

theorem kept_execLoop {s₀ : State} (c : CoreId) (t : Stream) (w : Word128) (s : State) (hs : s₀.Kept s) :
  KeptIf s₀ (execLoop c t w s) := by
  unfold execLoop
  try dsimp only
  repeat' first
    | with_reducible assumption | with_reducible apply keptIf_next | exact keptIf_refused _ | (with_reducible apply keptEx_ok)
    | with_reducible apply kept_issue | with_reducible apply kept_modCtx | (refine kept_fst (by with_reducible assumption) ?_)
    | (refine kept_snd (by with_reducible assumption) ?_) | with_reducible apply keptEx_ok | intro _

theorem kept_takeSwap {s₀ : State} (s : State) (n : ℕ) (t : Stream) (hs : s₀.Kept s) :
  s₀.Kept (State.takeSwap s n t) := by
  unfold State.takeSwap
  try dsimp only
  repeat' first
    | with_reducible assumption | with_reducible apply kept_settleCode | with_reducible apply kept_incFlag
    | with_reducible apply kept_modCtx | (refine kept_fst (by with_reducible assumption) ?_)
    | (refine kept_snd (by with_reducible assumption) ?_) | split

theorem kept_execEndloop {s₀ : State} (c : CoreId) (t : Stream) (w : Word128) (s : State) (hs : s₀.Kept s) :
  KeptIf s₀ (execEndloop c t w s) := by
  unfold execEndloop
  try dsimp only
  repeat' first
    | with_reducible assumption | with_reducible apply keptIf_next | exact keptIf_refused _ | (with_reducible apply keptEx_ok)
    | with_reducible apply kept_issue | with_reducible apply kept_takeSwap | with_reducible apply kept_modCtx
    | (refine kept_fst (by with_reducible assumption) ?_) | (refine kept_snd (by with_reducible assumption) ?_)
    | with_reducible apply keptEx_ok | intro _

theorem kept_execCall {s₀ : State} (c : CoreId) (t : Stream) (w : Word128) (s : State) (hs : s₀.Kept s) :
  KeptIf s₀ (execCall c t w s) := by
  unfold execCall
  try dsimp only
  repeat' first
    | with_reducible assumption | with_reducible apply keptIf_next | exact keptIf_refused _ | (with_reducible apply keptEx_ok)
    | with_reducible apply kept_issue | with_reducible apply kept_modCtx | (refine kept_fst (by with_reducible assumption) ?_)
    | (refine kept_snd (by with_reducible assumption) ?_) | with_reducible apply keptEx_ok | intro _

theorem kept_execRet {s₀ : State} (c : CoreId) (t : Stream) (w : Word128) (s : State) (hs : s₀.Kept s) :
  KeptIf s₀ (execRet c t w s) := by
  unfold execRet
  try dsimp only
  repeat' first
    | with_reducible assumption | with_reducible apply keptIf_next | exact keptIf_refused _ | (with_reducible apply keptEx_ok)
    | with_reducible apply kept_issue | with_reducible apply kept_settleCode | with_reducible apply kept_modCtx
    | (refine kept_fst (by with_reducible assumption) ?_) | (refine kept_snd (by with_reducible assumption) ?_)
    | with_reducible apply keptEx_ok | intro _

theorem kept_execJmp {s₀ : State} (c : CoreId) (t : Stream) (w : Word128) (s : State) (hs : s₀.Kept s) :
  KeptIf s₀ (execJmp c t w s) := by
  unfold execJmp
  try dsimp only
  repeat' first
    | with_reducible assumption | with_reducible apply keptIf_next | exact keptIf_refused _ | (with_reducible apply keptEx_ok)
    | with_reducible apply kept_issue | with_reducible apply kept_modCtx | (refine kept_fst (by with_reducible assumption) ?_)
    | (refine kept_snd (by with_reducible assumption) ?_) | with_reducible apply keptEx_ok | intro _

theorem kept_execCodeswap {s₀ : State} (c : CoreId) (t : Stream) (w : Word128) (s : State) (hs : s₀.Kept s) :
  KeptIf s₀ (execCodeswap c t w s) := by
  unfold execCodeswap
  try dsimp only
  repeat' first
    | with_reducible assumption | with_reducible apply keptIf_next | exact keptIf_refused _ | (with_reducible apply keptEx_ok)
    | with_reducible apply kept_issue | with_reducible apply kept_modCtx | (refine kept_fst (by with_reducible assumption) ?_)
    | (refine kept_snd (by with_reducible assumption) ?_) | with_reducible apply keptEx_ok | intro _ | (simp only [kept_mk, kept_fields])

theorem kept_bind {s₀ : State} (s : State) (n : ℕ) (t : Stream) (k : ℕ) (d : Desc) (hs : s₀.Kept s) :
  KeptEx s₀ (State.bind s n t k d) := by
  unfold State.bind
  try dsimp only
  repeat' first
    | with_reducible assumption | with_reducible apply kept_modCtx | (refine kept_fst (by with_reducible assumption) ?_)
    | (refine kept_snd (by with_reducible assumption) ?_) | with_reducible apply keptEx_ok | with_reducible apply keptEx_error | split

theorem kept_execLdd {s₀ : State} (c : CoreId) (t : Stream) (w : Word128) (s : State) (hs : s₀.Kept s) :
  KeptIf s₀ (execLdd c t w s) := by
  unfold execLdd
  try dsimp only
  repeat' first
    | with_reducible assumption | with_reducible apply keptIf_next | exact keptIf_refused _ | (with_reducible apply keptEx_ok)
    | (with_reducible apply keptEx_error) | (refine kept_scalarRead_ok (by with_reducible assumption) ?_)
    | (refine kept_scalarRead_error (by with_reducible assumption) ?_) | with_reducible apply kept_bind | with_reducible apply kept_issue
    | (refine kept_fst (by with_reducible assumption) ?_) | (refine kept_snd (by with_reducible assumption) ?_)
    | with_reducible apply keptEx_ok | with_reducible apply keptEx_error | split | intro _

theorem kept_execMovd {s₀ : State} (c : CoreId) (t : Stream) (w : Word128) (s : State) (hs : s₀.Kept s) :
  KeptIf s₀ (execMovd c t w s) := by
  unfold execMovd
  try dsimp only
  repeat' first
    | with_reducible assumption | with_reducible apply keptIf_next | exact keptIf_refused _ | (with_reducible apply keptEx_ok)
    | with_reducible apply kept_issue | with_reducible apply kept_modCtx | (refine kept_fst (by with_reducible assumption) ?_)
    | (refine kept_snd (by with_reducible assumption) ?_) | with_reducible apply keptEx_ok | split | intro _

theorem kept_execDbase {s₀ : State} (c : CoreId) (t : Stream) (w : Word128) (s : State) (hs : s₀.Kept s) :
  KeptIf s₀ (execDbase c t w s) := by
  unfold execDbase
  try dsimp only
  repeat' first
    | with_reducible assumption | with_reducible apply keptIf_next | exact keptIf_refused _ | (with_reducible apply keptEx_ok)
    | (with_reducible apply keptEx_error) | with_reducible apply kept_bind | with_reducible apply kept_issue
    | (refine kept_fst (by with_reducible assumption) ?_) | (refine kept_snd (by with_reducible assumption) ?_)
    | with_reducible apply keptEx_ok | with_reducible apply keptEx_error | split | intro _

theorem kept_execDsize {s₀ : State} (c : CoreId) (t : Stream) (w : Word128) (s : State) (hs : s₀.Kept s) :
  KeptIf s₀ (execDsize c t w s) := by
  unfold execDsize
  try dsimp only
  repeat' first
    | with_reducible assumption | with_reducible apply keptIf_next | exact keptIf_refused _ | (with_reducible apply keptEx_ok)
    | with_reducible apply kept_bind | with_reducible apply kept_issue | (refine kept_fst (by with_reducible assumption) ?_)
    | (refine kept_snd (by with_reducible assumption) ?_) | with_reducible apply keptEx_ok | split | intro _

theorem kept_execDclr {s₀ : State} (c : CoreId) (t : Stream) (w : Word128) (s : State) (hs : s₀.Kept s) :
  KeptIf s₀ (execDclr c t w s) := by
  unfold execDclr
  try dsimp only
  repeat' first
    | with_reducible assumption | with_reducible apply keptIf_next | exact keptIf_refused _ | (with_reducible apply keptEx_ok)
    | with_reducible apply kept_issue | with_reducible apply kept_modCtx | (refine kept_fst (by with_reducible assumption) ?_)
    | (refine kept_snd (by with_reducible assumption) ?_) | with_reducible apply keptEx_ok | intro _

end Sys2Proof.Machine
end

