-- ==== Sys2Proof/Laws/KeptJob.lean ====
section
/-! SUPPORT. The queue and the form of memory stand (State.Kept): images, the job, bulk transfers, resets and test windows. -/

namespace Sys2Proof.Machine

open State

theorem kept_readImage {s₀ : State} (x0 : State) (x1 : ℕ) (x2 : ℕ) (hx0 : s₀.Kept x0) :
  s₀.Kept (readImage x0 x1 x2).1 := by
  unfold readImage
  try dsimp only
  repeat' first
    | with_reducible assumption | with_reducible apply kept_raiseUe | with_reducible apply kept_readLine
    | with_reducible apply kept_readImage | (refine kept_fst (by with_reducible assumption) ?_)
    | (refine kept_snd (by with_reducible assumption) ?_) | split

theorem kept_judge {s₀ : State} (s : State) (b : ImageBodies) (hs : s₀.Kept s) :
  s₀.Kept (State.judge s b) := by
  unfold State.judge
  try dsimp only
  repeat' first
    | with_reducible assumption | (refine kept_fst (by with_reducible assumption) ?_) | (refine kept_snd (by with_reducible assumption) ?_)
    | intro _ | (simp only [kept_mk, kept_fields])

theorem kept_checkImage {s₀ : State} (s : State) (staging : ℕ) (given : Option ImageBodies) (hs : s₀.Kept s) :
  s₀.Kept (checkImage s staging given).1 := by
  unfold checkImage
  try dsimp only
  repeat' first
    | with_reducible assumption | with_reducible apply kept_vote | with_reducible apply kept_readImage | (refine kept_fst (by with_reducible assumption) ?_)
    | (refine kept_snd (by with_reducible assumption) ?_) | split

theorem kept_zeroQueues {s₀ : State} (s : State) (n : ℕ) (hs : s₀.Kept s) :
  s₀.Kept (State.zeroQueues s n) := by
  unfold State.zeroQueues
  try dsimp only
  repeat' first
    | with_reducible assumption | with_reducible apply kept_wakeBank | with_reducible apply kept_putLine | with_reducible apply kept_foldl_fst
    | with_reducible apply kept_foldl_snd | with_reducible apply kept_foldl | (refine kept_fst (by with_reducible assumption) ?_)
    | (refine kept_snd (by with_reducible assumption) ?_) | split | intro _

theorem kept_powerBanks {s₀ : State} (s : State) (base : ℕ) (size : ℕ) (v : List ℕ) (count : ℕ) (hs : s₀.Kept s) :
  s₀.Kept (State.powerBanks s base size v count) := by
  unfold State.powerBanks
  try dsimp only
  repeat' first
    | with_reducible assumption | with_reducible apply kept_zeroRange | with_reducible apply kept_setBankState
    | with_reducible apply kept_foldl_fst | with_reducible apply kept_foldl_snd | with_reducible apply kept_foldl
    | (refine kept_fst (by with_reducible assumption) ?_) | (refine kept_snd (by with_reducible assumption) ?_) | split | intro _

theorem kept_unload {s₀ : State} (s : State) (hs : s₀.Kept s) :
  s₀.Kept (State.unload s) := by
  unfold State.unload
  try dsimp only
  repeat' first
    | with_reducible assumption | (refine kept_fst (by with_reducible assumption) ?_) | (refine kept_snd (by with_reducible assumption) ?_)
    | intro _ | (simp only [kept_mk, kept_fields])

theorem kept_configure {s₀ : State} (s : State) (loaded : BitVec 64) (count : ℕ) (signed : Bool) (co : CoursesSec) (po : PolicySec)
    (b : ImageBodies) (hs : s₀.Kept s) :
  s₀.Kept (configure s loaded count signed co po b) := by
  unfold configure
  try dsimp only
  repeat' first
    | with_reducible assumption | with_reducible apply kept_hold | with_reducible apply kept_powerBanks | with_reducible apply kept_foldl_fst
    | with_reducible apply kept_foldl_snd | with_reducible apply kept_foldl | (refine kept_fst (by with_reducible assumption) ?_)
    | (refine kept_snd (by with_reducible assumption) ?_) | split | intro _ | (simp only [kept_mk, kept_fields])

theorem kept_writeContent {s₀ : State} (s : State) (ls : List (ℕ × ℕ × List Byte)) (hs : s₀.Kept s) :
  s₀.Kept (writeContent s ls) := by
  unfold writeContent
  try dsimp only
  repeat' first
    | with_reducible assumption | with_reducible apply kept_putLine | with_reducible apply kept_wakeBank
    | with_reducible apply kept_foldl_fst | with_reducible apply kept_foldl_snd | with_reducible apply kept_foldl
    | (refine kept_fst (by with_reducible assumption) ?_) | (refine kept_snd (by with_reducible assumption) ?_) | intro _

theorem kept_initialise {s₀ : State} (s : State) (hs : s₀.Kept s) :
  s₀.Kept (initialise s) := by
  unfold initialise
  try dsimp only
  repeat' first
    | with_reducible assumption | with_reducible apply kept_zeroQueues | with_reducible apply kept_modCore
    | with_reducible apply kept_modCourse | with_reducible apply kept_foldl_fst | with_reducible apply kept_foldl_snd
    | with_reducible apply kept_foldl | (refine kept_fst (by with_reducible assumption) ?_)
    | (refine kept_snd (by with_reducible assumption) ?_) | intro _ | (simp only [kept_mk, kept_fields])

theorem kept_applyImage {s₀ : State} (s : State) (k : LongCmd) (hs : s₀.Kept s) :
  s₀.Kept (applyImage s k).1 := by
  unfold applyImage
  try dsimp only
  repeat' first
    | with_reducible assumption | with_reducible apply kept_writeContent | with_reducible apply kept_readImage
    | with_reducible apply kept_configure | with_reducible apply kept_initialise | with_reducible apply kept_contentInForce
    | with_reducible apply kept_unload | (refine kept_fst (by with_reducible assumption) ?_)
    | (refine kept_snd (by with_reducible assumption) ?_) | split | intro _ | (simp only [kept_mk, kept_fields])

theorem kept_opLoadImage {s₀ : State} (s : State) (ss : ℕ) (seq : ℕ) (staging : ℕ) (given : Option ImageBodies) (hs : s₀.Kept s) :
  s₀.Kept (opLoadImage s ss seq staging given) := by
  unfold opLoadImage
  try dsimp only
  repeat' first
    | with_reducible assumption | with_reducible apply kept_vote | with_reducible apply kept_refuse | with_reducible apply kept_checkImage
    | with_reducible apply kept_startLong | with_reducible apply kept_jobMove | (refine kept_fst (by with_reducible assumption) ?_)
    | (refine kept_snd (by with_reducible assumption) ?_) | with_reducible apply keptEx_ok | split

theorem kept_imageFailed {s₀ : State} (s : State) (st : Status) (payload : List Byte) (hs : s₀.Kept s) :
  s₀.Kept (State.imageFailed s st payload) := by
  unfold State.imageFailed
  try dsimp only
  repeat' first
    | with_reducible assumption | (refine kept_fst (by with_reducible assumption) ?_) | (refine kept_snd (by with_reducible assumption) ?_)
    | intro _ | (simp only [kept_mk, kept_fields])

theorem kept_endLoad {s₀ : State} (s : State) (k : LongCmd) (hs : s₀.Kept s) :
  s₀.Kept (endLoad s k) := by
  unfold endLoad
  try dsimp only
  repeat' first
    | with_reducible assumption | with_reducible apply kept_reply | with_reducible apply kept_settleGuarantee
    | with_reducible apply kept_imageFailed | with_reducible apply kept_applyImage | with_reducible apply kept_jobMove
    | (refine kept_fst (by with_reducible assumption) ?_) | (refine kept_snd (by with_reducible assumption) ?_)
    | with_reducible apply keptEx_ok | split

theorem kept_execLongCommandComplete {s₀ : State} (s : State) (hs : s₀.Kept s) :
  KeptOut s₀ (execLongCommandComplete s) := by
  unfold execLongCommandComplete
  try dsimp only
  repeat' first
    | with_reducible assumption | with_reducible apply kept_raiseCounter | with_reducible apply keptOut_next | with_reducible apply kept_reply | with_reducible apply kept_endLoad
    | (refine kept_fst (by with_reducible assumption) ?_) | (refine kept_snd (by with_reducible assumption) ?_) | split | intro _
    | (simp only [kept_mk, kept_fields])

theorem kept_opUnloadImage {s₀ : State} (s : State) (ss : ℕ) (seq : ℕ) (hs : s₀.Kept s) :
  s₀.Kept (opUnloadImage s ss seq) := by
  unfold opUnloadImage
  try dsimp only
  repeat' first
    | with_reducible assumption | with_reducible apply kept_reply | with_reducible apply kept_refuse | with_reducible apply kept_jobMove
    | with_reducible apply kept_unload | (refine kept_fst (by with_reducible assumption) ?_)
    | (refine kept_snd (by with_reducible assumption) ?_) | with_reducible apply keptEx_ok | split

theorem kept_unpauseCore {s₀ : State} (s : State) (n : ℕ) (hs : s₀.Kept s) :
  s₀.Kept (State.unpauseCore s n) := by
  unfold State.unpauseCore
  try dsimp only
  repeat' first
    | with_reducible assumption | with_reducible apply kept_setCore | with_reducible apply kept_incFlag
    | (refine kept_fst (by with_reducible assumption) ?_) | (refine kept_snd (by with_reducible assumption) ?_) | split

theorem kept_unpauseAll {s₀ : State} (s : State) (hs : s₀.Kept s) :
  s₀.Kept (State.unpauseAll s) := by
  unfold State.unpauseAll
  try dsimp only
  repeat' first
    | with_reducible assumption | with_reducible apply kept_unpauseCore | with_reducible apply kept_foldl_fst
    | with_reducible apply kept_foldl_snd | with_reducible apply kept_foldl | (refine kept_fst (by with_reducible assumption) ?_)
    | (refine kept_snd (by with_reducible assumption) ?_) | intro _

theorem kept_noteRole {s₀ : State} (s : State) (n : ℕ) (hs : s₀.Kept s) :
  s₀.Kept (State.noteRole s n) := by
  unfold State.noteRole
  try dsimp only
  repeat' first
    | with_reducible assumption | with_reducible apply kept_modCourse

theorem kept_beginJob {s₀ : State} (s : State) (hs : s₀.Kept s) :
  s₀.Kept (State.beginJob s) := by
  unfold State.beginJob
  try dsimp only
  repeat' first
    | with_reducible assumption | with_reducible apply kept_settleJob | with_reducible apply kept_noteRole
    | with_reducible apply kept_jobMove | with_reducible apply kept_foldl_fst | with_reducible apply kept_foldl_snd
    | with_reducible apply kept_foldl | (refine kept_fst (by with_reducible assumption) ?_)
    | (refine kept_snd (by with_reducible assumption) ?_) | split | intro _

theorem kept_applyStreams {s₀ : State} (s : State) (hs : s₀.Kept s) :
  s₀.Kept (State.applyStreams s) := by
  unfold State.applyStreams
  try dsimp only
  repeat' first
    | with_reducible assumption | with_reducible apply kept_foldl_fst | with_reducible apply kept_foldl_snd
    | with_reducible apply kept_foldl | (refine kept_fst (by with_reducible assumption) ?_)
    | (refine kept_snd (by with_reducible assumption) ?_) | intro _ | (simp only [kept_mk, kept_fields])

theorem kept_pausing {s₀ : State} (s : State) (on : Bool) (hs : s₀.Kept s) :
  s₀.Kept (State.pausing s on) := by
  unfold State.pausing
  try dsimp only
  repeat' first
    | with_reducible assumption | (refine kept_fst (by with_reducible assumption) ?_) | (refine kept_snd (by with_reducible assumption) ?_)
    | intro _ | (simp only [kept_mk, kept_fields])

theorem kept_resumeRun {s₀ : State} (s : State) (hs : s₀.Kept s) :
  s₀.Kept (State.resumeRun s) := by
  unfold State.resumeRun
  try dsimp only
  repeat' first
    | with_reducible assumption | with_reducible apply kept_applyStreams | with_reducible apply kept_unpauseAll
    | with_reducible apply kept_pausing | with_reducible apply kept_settleJob | with_reducible apply kept_jobMove
    | (refine kept_fst (by with_reducible assumption) ?_) | (refine kept_snd (by with_reducible assumption) ?_) | split

theorem kept_opStartJob {s₀ : State} (s : State) (ss : ℕ) (seq : ℕ) (hs : s₀.Kept s) :
  s₀.Kept (opStartJob s ss seq) := by
  unfold opStartJob
  try dsimp only
  repeat' first
    | with_reducible assumption | with_reducible apply kept_reply | with_reducible apply kept_refuse | with_reducible apply kept_beginJob
    | (refine kept_fst (by with_reducible assumption) ?_) | (refine kept_snd (by with_reducible assumption) ?_)
    | with_reducible apply keptEx_ok | split

theorem kept_opPauseJob {s₀ : State} (s : State) (ss : ℕ) (seq : ℕ) (hs : s₀.Kept s) :
  s₀.Kept (opPauseJob s ss seq) := by
  unfold opPauseJob
  try dsimp only
  repeat' first
    | with_reducible assumption | with_reducible apply kept_reply | with_reducible apply kept_pausing | with_reducible apply kept_refuse
    | (refine kept_fst (by with_reducible assumption) ?_) | (refine kept_snd (by with_reducible assumption) ?_)
    | with_reducible apply keptEx_ok | split

theorem kept_execJobPaused {s₀ : State} (s : State) (hs : s₀.Kept s) :
  KeptOut s₀ (execJobPaused s) := by
  unfold execJobPaused
  try dsimp only
  repeat' first
    | with_reducible assumption | with_reducible apply keptOut_next | with_reducible apply kept_pausing | with_reducible apply kept_jobMove
    | (refine kept_fst (by with_reducible assumption) ?_) | (refine kept_snd (by with_reducible assumption) ?_) | split

theorem kept_opResumeJob {s₀ : State} (s : State) (ss : ℕ) (seq : ℕ) (hs : s₀.Kept s) :
  s₀.Kept (opResumeJob s ss seq) := by
  unfold opResumeJob
  try dsimp only
  repeat' first
    | with_reducible assumption | with_reducible apply kept_reply | with_reducible apply kept_resumeRun | with_reducible apply kept_refuse
    | (refine kept_fst (by with_reducible assumption) ?_) | (refine kept_snd (by with_reducible assumption) ?_)
    | with_reducible apply keptEx_ok | split

theorem kept_hostHalt {s₀ : State} (s : State) (n : ℕ) (seq : ℕ) (hs : s₀.Kept s) :
  s₀.Kept (State.hostHalt s n seq) := by
  unfold State.hostHalt
  try dsimp only
  repeat' first
    | with_reducible assumption | with_reducible apply kept_haltCore | (refine kept_fst (by with_reducible assumption) ?_)
    | (refine kept_snd (by with_reducible assumption) ?_) | split

theorem kept_cancelCore {s₀ : State} (s : State) (n : ℕ) (seq : ℕ) (hs : s₀.Kept s) :
  s₀.Kept (State.cancelCore s n seq) := by
  unfold State.cancelCore
  try dsimp only
  repeat' first
    | with_reducible assumption | with_reducible apply kept_modCourse | with_reducible apply kept_hostHalt
    | (refine kept_fst (by with_reducible assumption) ?_) | (refine kept_snd (by with_reducible assumption) ?_) | split

theorem kept_cancelRun {s₀ : State} (s : State) (seq : ℕ) (hs : s₀.Kept s) :
  s₀.Kept (State.cancelRun s seq) := by
  unfold State.cancelRun
  try dsimp only
  repeat' first
    | with_reducible assumption | with_reducible apply kept_pausing | with_reducible apply kept_modCourse
    | with_reducible apply kept_cancelCore | with_reducible apply kept_jobMove | with_reducible apply kept_foldl_fst
    | with_reducible apply kept_foldl_snd | with_reducible apply kept_foldl | (refine kept_fst (by with_reducible assumption) ?_)
    | (refine kept_snd (by with_reducible assumption) ?_) | split | intro _ | (simp only [kept_mk, kept_fields])

theorem kept_opCancelJob {s₀ : State} (s : State) (ss : ℕ) (seq : ℕ) (hs : s₀.Kept s) :
  s₀.Kept (opCancelJob s ss seq) := by
  unfold opCancelJob
  try dsimp only
  repeat' first
    | with_reducible assumption | with_reducible apply kept_reply | with_reducible apply kept_refuse | with_reducible apply kept_cancelRun
    | (refine kept_fst (by with_reducible assumption) ?_) | (refine kept_snd (by with_reducible assumption) ?_)
    | with_reducible apply keptEx_ok | split

theorem kept_execJobDrainComplete {s₀ : State} (s : State) (hs : s₀.Kept s) :
  KeptOut s₀ (execJobDrainComplete s) := by
  unfold execJobDrainComplete
  try dsimp only
  repeat' first
    | with_reducible assumption | with_reducible apply kept_reshardStop | with_reducible apply keptOut_next | with_reducible apply kept_jobMove
    | (refine kept_fst (by with_reducible assumption) ?_) | (refine kept_snd (by with_reducible assumption) ?_) | split | intro _
    | (simp only [kept_mk, kept_fields])

theorem kept_revive {s₀ : State} (s : State) (a : ℕ) (hs : s₀.Kept s) :
  s₀.Kept (State.revive s a) := by
  unfold State.revive
  try dsimp only
  repeat' first
    | with_reducible assumption | (refine kept_fst (by with_reducible assumption) ?_) | (refine kept_snd (by with_reducible assumption) ?_)
    | split | intro _ | (simp only [kept_mk, kept_fields])

theorem kept_bulkPut {s₀ : State} (s : State) (x1 : ℕ) (x2 : ℕ) (x3 : List Byte) (hs : s₀.Kept s) :
  s₀.Kept (State.bulkPut s x1 x2 x3) := by
  unfold State.bulkPut
  try dsimp only
  repeat' first
    | with_reducible assumption | with_reducible apply kept_revive | with_reducible apply kept_writeLine | with_reducible apply kept_bulkPut
    | (refine kept_fst (by with_reducible assumption) ?_) | (refine kept_snd (by with_reducible assumption) ?_) | split

theorem kept_joinRun {s₀ : State} (s : State) (ss : ℕ) (seq : ℕ) (hs : s₀.Kept s) :
  s₀.Kept (State.joinRun s ss seq) := by
  unfold State.joinRun
  try dsimp only
  repeat' first
    | with_reducible assumption | with_reducible apply kept_flushRun | with_reducible apply kept_modSession
    | (refine kept_fst (by with_reducible assumption) ?_) | (refine kept_snd (by with_reducible assumption) ?_) | split

theorem kept_bulkSignal {s₀ : State} (s : State) (ss : ℕ) (seq : ℕ) (coalesce : Bool) (p : List Byte) (hs : s₀.Kept s) :
  s₀.Kept (State.bulkSignal s ss seq coalesce p) := by
  unfold State.bulkSignal
  try dsimp only
  repeat' first
    | with_reducible assumption | with_reducible apply kept_signal | with_reducible apply kept_reply | with_reducible apply kept_incFlag | with_reducible apply kept_joinRun
    | (refine kept_fst (by with_reducible assumption) ?_) | (refine kept_snd (by with_reducible assumption) ?_)
    | with_reducible apply keptEx_ok | split

theorem kept_bulkEnd {s₀ : State} (s : State) (ss : ℕ) (seq : ℕ) (coalesce : Bool) (p : List Byte) (hs : s₀.Kept s) :
  s₀.Kept (State.bulkEnd s ss seq coalesce p) := by
  unfold State.bulkEnd
  try dsimp only
  repeat' first
    | with_reducible assumption | with_reducible apply kept_signal | with_reducible apply kept_holdCmd | with_reducible apply kept_bulkSignal
    | (refine kept_fst (by with_reducible assumption) ?_) | (refine kept_snd (by with_reducible assumption) ?_) | split

theorem kept_bulkDo {s₀ : State} (s : State) (ss : ℕ) (seq : ℕ) (coalesce : Bool) (p : List Byte) (hs : s₀.Kept s) :
  s₀.Kept (State.bulkDo s ss seq coalesce p) := by
  unfold State.bulkDo
  try dsimp only
  repeat' first
    | with_reducible assumption | with_reducible apply kept_holdCmd | with_reducible apply kept_bulkEnd | with_reducible apply kept_bulkPut

theorem kept_opBulkWrite {s₀ : State} (s : State) (ss : ℕ) (seq : ℕ) (coalesce : Bool) (p : List Byte) (hs : s₀.Kept s) :
  s₀.Kept (opBulkWrite s ss seq coalesce p) := by
  unfold opBulkWrite
  try dsimp only
  repeat' first
    | with_reducible assumption | with_reducible apply kept_refuse | with_reducible apply kept_bulkDo
    | (refine kept_fst (by with_reducible assumption) ?_) | (refine kept_snd (by with_reducible assumption) ?_) | split

theorem kept_bulkGet {s₀ : State} (x0 : State) (x1 : List ℕ) (hx0 : s₀.Kept x0) :
  s₀.Kept (bulkGet x0 x1).1 := by
  unfold bulkGet
  try dsimp only
  repeat' first
    | with_reducible assumption | with_reducible apply kept_raiseUe | with_reducible apply kept_readLine | with_reducible apply kept_bulkGet
    | (refine kept_fst (by with_reducible assumption) ?_) | (refine kept_snd (by with_reducible assumption) ?_) | split

theorem kept_bulkReply {s₀ : State} (s : State) (ss : ℕ) (seq : ℕ) (p : List Byte) (hs : s₀.Kept s) :
  s₀.Kept (State.bulkReply s ss seq p) := by
  unfold State.bulkReply
  try dsimp only
  repeat' first
    | with_reducible assumption | with_reducible apply kept_reply | with_reducible apply kept_bulkGet

theorem kept_bulkFetch {s₀ : State} (s : State) (ss : Nat) (seq : Nat) (p : List Byte) (hs : s₀.Kept s) :
    s₀.Kept (State.bulkFetch s ss seq p) := by
  unfold State.bulkFetch
  try dsimp only
  repeat' first
    | with_reducible assumption
    | with_reducible apply kept_bulkReply
    | with_reducible apply kept_holdCmd
    | with_reducible apply kept_foldl_fst | with_reducible apply kept_foldl_snd | with_reducible apply kept_foldl
    | (refine kept_fst (by with_reducible assumption) ?_) | (refine kept_snd (by with_reducible assumption) ?_) | split

theorem kept_opBulkRead {s₀ : State} (s : State) (ss : ℕ) (seq : ℕ) (p : List Byte) (hs : s₀.Kept s) :
  s₀.Kept (opBulkRead s ss seq p) := by
  unfold opBulkRead
  try dsimp only
  repeat' first
    | with_reducible assumption | with_reducible apply kept_bulkFetch | with_reducible apply kept_malformed | with_reducible apply kept_bulkReply | with_reducible apply kept_holdCmd | with_reducible apply kept_refuse
    | (refine kept_fst (by with_reducible assumption) ?_) | (refine kept_snd (by with_reducible assumption) ?_) | split

theorem kept_execCoalescedResponse {s₀ : State} (ss : ℕ) (s : State) (hs : s₀.Kept s) :
  KeptOut s₀ (execCoalescedResponse ss s) := by
  unfold execCoalescedResponse
  try dsimp only
  repeat' first
    | with_reducible assumption | with_reducible apply keptOut_next | with_reducible apply kept_flushRun

theorem kept_readsGoOn {s₀ : State} (s : State) (hs : s₀.Kept s) :
    s₀.Kept (State.readsGoOn s) := by
  unfold State.readsGoOn
  try dsimp only
  repeat' first
    | with_reducible assumption
    | with_reducible apply kept_dmaGoOn
    | with_reducible apply kept_landAll
    | with_reducible apply kept_reshardGoOn
    | with_reducible apply kept_foldl_fst | with_reducible apply kept_foldl_snd | with_reducible apply kept_foldl
    | (refine kept_fst (by with_reducible assumption) ?_) | (refine kept_snd (by with_reducible assumption) ?_) | split | intro _

theorem kept_applyHeld {s₀ : State} (s : State) (h : Held) (hs : s₀.Kept s) :
  s₀.Kept (State.applyHeld s h) := by
  unfold State.applyHeld
  try dsimp only
  repeat' first
    | with_reducible assumption | with_reducible apply kept_bulkFetch | with_reducible apply kept_bulkSignal | with_reducible apply kept_bulkReply | with_reducible apply kept_readLoop
    | with_reducible apply kept_sendAck | with_reducible apply kept_bulkEnd | with_reducible apply kept_incFlag
    | with_reducible apply kept_bulkDo | with_reducible apply kept_writeLoop | with_reducible apply kept_answerRead
    | with_reducible apply kept_writeLine | (refine kept_fst (by with_reducible assumption) ?_)
    | (refine kept_snd (by with_reducible assumption) ?_) | split

theorem kept_applyAll {s₀ : State} (s : State) (mine : Held → Bool) (hs : s₀.Kept s) :
  s₀.Kept (State.applyAll s mine) := by
  unfold State.applyAll
  try dsimp only
  repeat' first
    | with_reducible assumption | with_reducible apply kept_readsGoOn | with_reducible apply kept_applyHeld | with_reducible apply kept_foldl_fst
    | with_reducible apply kept_foldl_snd | with_reducible apply kept_foldl | (refine kept_fst (by with_reducible assumption) ?_)
    | (refine kept_snd (by with_reducible assumption) ?_) | split | intro _ | (simp only [kept_mk, kept_fields])

theorem kept_resetUnits {s₀ : State} (s : State) (hs : s₀.Kept s) :
  s₀.Kept (State.resetUnits s) := by
  unfold State.resetUnits
  try dsimp only
  repeat' first
    | with_reducible assumption | with_reducible apply kept_loseSram | (refine kept_fst (by with_reducible assumption) ?_)
    | (refine kept_snd (by with_reducible assumption) ?_) | intro _ | (simp only [kept_mk, kept_fields])

theorem kept_warmReset {s₀ : State} (s : State) (age : Option W32) (hs : s₀.Kept s) :
  s₀.Kept (State.warmReset s age) := by
  unfold State.warmReset
  try dsimp only
  repeat' first
    | with_reducible assumption | with_reducible apply kept_votes | with_reducible apply kept_closeWindow | with_reducible apply kept_endSessions
    | with_reducible apply kept_resetUnits | with_reducible apply kept_closeAxes | with_reducible apply kept_bootFirmware
    | with_reducible apply kept_raise | with_reducible apply kept_jobMove | with_reducible apply kept_unload
    | (refine kept_fst (by with_reducible assumption) ?_) | (refine kept_snd (by with_reducible assumption) ?_) | split

theorem kept_askWarmReset {s₀ : State} (s : State) (age : Option W32) (hs : s₀.Kept s) :
  s₀.Kept (State.askWarmReset s age) := by
  unfold State.askWarmReset
  try dsimp only
  repeat' first
    | with_reducible assumption | with_reducible apply kept_drainFor | with_reducible apply kept_warmReset
    | (refine kept_fst (by with_reducible assumption) ?_) | (refine kept_snd (by with_reducible assumption) ?_) | split

theorem kept_settleReset {s₀ : State} (s : State) (hs : s₀.Kept s) :
  s₀.Kept (State.settleReset s) := by
  unfold State.settleReset
  try dsimp only
  repeat' first
    | with_reducible assumption | with_reducible apply kept_slopesOff | with_reducible apply kept_warmReset
    | (refine kept_fst (by with_reducible assumption) ?_) | (refine kept_snd (by with_reducible assumption) ?_) | split | intro _
    | (simp only [kept_mk, kept_fields])

theorem kept_beginCoreReset {s₀ : State} (s : State) (n : ℕ) (ss : ℕ) (seq : ℕ) (hs : s₀.Kept s) :
  s₀.Kept (State.beginCoreReset s n ss seq) := by
  unfold State.beginCoreReset
  try dsimp only
  repeat' first
    | with_reducible assumption | (refine kept_fst (by with_reducible assumption) ?_) | (refine kept_snd (by with_reducible assumption) ?_)
    | intro _ | (simp only [kept_mk, kept_fields])

theorem kept_afterMigration {s₀ : State} (s : State) (c : ℕ) (m : Migration) (hs : s₀.Kept s) :
  s₀.Kept (State.afterMigration s c m) := by
  unfold State.afterMigration
  try dsimp only
  repeat' first
    | with_reducible assumption | with_reducible apply kept_beginCoreReset | with_reducible apply kept_hostHalt
    | (refine kept_fst (by with_reducible assumption) ?_) | (refine kept_snd (by with_reducible assumption) ?_) | split

theorem kept_askCoreReset {s₀ : State} (s : State) (n : ℕ) (ss : ℕ) (seq : ℕ) (hs : s₀.Kept s) :
  s₀.Kept (State.askCoreReset s n ss seq) := by
  unfold State.askCoreReset
  try dsimp only
  repeat' first
    | with_reducible assumption | with_reducible apply kept_modCourse | with_reducible apply kept_beginCoreReset
    | (refine kept_fst (by with_reducible assumption) ?_) | (refine kept_snd (by with_reducible assumption) ?_) | split

theorem kept_beginCourseReset {s₀ : State} (s : State) (c : ℕ) (ss : ℕ) (seq : ℕ) (hs : s₀.Kept s) :
  s₀.Kept (State.beginCourseReset s c ss seq) := by
  unfold State.beginCourseReset
  try dsimp only
  repeat' first
    | with_reducible assumption | with_reducible apply kept_afterMigration | with_reducible apply kept_modCourse
    | (refine kept_fst (by with_reducible assumption) ?_) | (refine kept_snd (by with_reducible assumption) ?_) | split | intro _
    | (simp only [kept_mk, kept_fields])

theorem kept_resetCore {s₀ : State} (s : State) (n : ℕ) (hs : s₀.Kept s) :
  s₀.Kept (State.resetCore s n) := by
  unfold State.resetCore
  try dsimp only
  repeat' first
    | with_reducible assumption | with_reducible apply kept_zeroQueues | with_reducible apply kept_powerBanks
    | with_reducible apply kept_modCore | (refine kept_fst (by with_reducible assumption) ?_)
    | (refine kept_snd (by with_reducible assumption) ?_) | split

theorem kept_resetCourse {s₀ : State} (s : State) (c : ℕ) (hs : s₀.Kept s) :
  s₀.Kept (State.resetCourse s c) := by
  unfold State.resetCourse
  try dsimp only
  repeat' first
    | with_reducible assumption | with_reducible apply kept_resetCore | with_reducible apply kept_powerBanks
    | with_reducible apply kept_modCourse | with_reducible apply kept_foldl_fst | with_reducible apply kept_foldl_snd
    | with_reducible apply kept_foldl | (refine kept_fst (by with_reducible assumption) ?_)
    | (refine kept_snd (by with_reducible assumption) ?_) | split | intro _

theorem kept_answerResets {s₀ : State} (s : State) (course : Bool) (i : ℕ) (hs : s₀.Kept s) :
  s₀.Kept (State.answerResets s course i) := by
  unfold State.answerResets
  try dsimp only
  repeat' first
    | with_reducible assumption | with_reducible apply kept_reply | with_reducible apply kept_foldl_fst
    | with_reducible apply kept_foldl_snd | with_reducible apply kept_foldl | (refine kept_fst (by with_reducible assumption) ?_)
    | (refine kept_snd (by with_reducible assumption) ?_) | with_reducible apply keptEx_ok | intro _ | (simp only [kept_mk, kept_fields])

theorem kept_opReset {s₀ : State} (s : State) (ss : ℕ) (seq : ℕ) (level : ℕ) (target : ℕ) (hs : s₀.Kept s) :
  s₀.Kept (opReset s ss seq level target) := by
  unfold opReset
  try dsimp only
  repeat' first
    | with_reducible assumption | with_reducible apply kept_reply | with_reducible apply kept_askCoreReset
    | with_reducible apply kept_askWarmReset | with_reducible apply kept_refuse | with_reducible apply kept_beginCourseReset
    | (refine kept_fst (by with_reducible assumption) ?_) | (refine kept_snd (by with_reducible assumption) ?_)
    | with_reducible apply keptEx_ok | split

theorem kept_execResetComplete {s₀ : State} (u : ResetUnit) (testPassed : Bool) (s : State) (hs : s₀.Kept s) :
  KeptOut s₀ (execResetComplete u testPassed s) := by
  unfold execResetComplete
  try dsimp only
  repeat' first
    | with_reducible assumption | with_reducible apply kept_settleBringUp | with_reducible apply kept_draw | with_reducible apply kept_functionFails | with_reducible apply keptOut_next | with_reducible apply kept_resetCore
    | with_reducible apply kept_resetCourse | with_reducible apply kept_answerResets | with_reducible apply kept_applyAll
    | (refine kept_fst (by with_reducible assumption) ?_) | (refine kept_snd (by with_reducible assumption) ?_) | split | intro _
    | (simp only [kept_mk, kept_fields])

theorem kept_execRidgeWatchdogExpiry {s₀ : State} (ageMs : W32) (s : State) (hs : s₀.Kept s) :
  KeptOut s₀ (execRidgeWatchdogExpiry ageMs s) := by
  unfold execRidgeWatchdogExpiry
  try dsimp only
  repeat' first
    | with_reducible assumption | with_reducible apply keptOut_next | with_reducible apply kept_askWarmReset
    | (refine kept_fst (by with_reducible assumption) ?_) | (refine kept_snd (by with_reducible assumption) ?_) | split

theorem kept_execBypassDrainComplete {s₀ : State} (pair : Fin 4) (s : State) (hs : s₀.Kept s) :
  KeptOut s₀ (execBypassDrainComplete pair s) := by
  unfold execBypassDrainComplete
  try dsimp only
  repeat' first
    | with_reducible assumption | with_reducible apply keptOut_next | with_reducible apply kept_axisDrained
    | with_reducible apply kept_settleReset | (refine kept_fst (by with_reducible assumption) ?_)
    | (refine kept_snd (by with_reducible assumption) ?_) | split

theorem kept_releaseCore {s₀ : State} (s : State) (n : ℕ) (paused : Bool) (hs : s₀.Kept s) :
  s₀.Kept (State.releaseCore s n paused) := by
  unfold State.releaseCore
  try dsimp only
  repeat' first
    | with_reducible assumption | with_reducible apply kept_setCore | with_reducible apply kept_incFlag
    | (refine kept_fst (by with_reducible assumption) ?_) | (refine kept_snd (by with_reducible assumption) ?_) | split

theorem kept_releaseCourse {s₀ : State} (s : State) (c : ℕ) (hs : s₀.Kept s) :
  s₀.Kept (State.releaseCourse s c) := by
  unfold State.releaseCourse
  try dsimp only
  repeat' first
    | with_reducible assumption | with_reducible apply kept_releaseCore | with_reducible apply kept_foldl_fst
    | with_reducible apply kept_foldl_snd | with_reducible apply kept_foldl | (refine kept_fst (by with_reducible assumption) ?_)
    | (refine kept_snd (by with_reducible assumption) ?_) | intro _

theorem kept_execTestWindowOpen {s₀ : State} (c : CourseId) (s : State) (hs : s₀.Kept s) :
  KeptOut s₀ (execTestWindowOpen c s) := by
  unfold execTestWindowOpen
  try dsimp only
  repeat' first
    | with_reducible assumption | with_reducible apply keptOut_next | with_reducible apply kept_settleGuarantee
    | with_reducible apply kept_modCore | with_reducible apply kept_releaseCourse | with_reducible apply kept_modCourse
    | with_reducible apply kept_foldl_fst | with_reducible apply kept_foldl_snd | with_reducible apply kept_foldl
    | (refine kept_fst (by with_reducible assumption) ?_) | (refine kept_snd (by with_reducible assumption) ?_) | split | intro _
    | (simp only [kept_mk, kept_fields])

theorem kept_execTestWindowAbandon {s₀ : State} (c : CourseId) (s : State) (hs : s₀.Kept s) :
  KeptOut s₀ (execTestWindowAbandon c s) := by
  unfold execTestWindowAbandon
  try dsimp only
  repeat' first
    | with_reducible assumption | with_reducible apply keptOut_next | with_reducible apply kept_modCourse | with_reducible apply kept_raise
    | with_reducible apply kept_releaseCore | with_reducible apply kept_foldl_fst | with_reducible apply kept_foldl_snd
    | with_reducible apply kept_foldl | (refine kept_fst (by with_reducible assumption) ?_)
    | (refine kept_snd (by with_reducible assumption) ?_) | split | intro _

theorem kept_execTestWindowLate {s₀ : State} (c : CourseId) (ms : W32) (s : State) (hs : s₀.Kept s) :
  KeptOut s₀ (execTestWindowLate c ms s) := by
  unfold execTestWindowLate
  try dsimp only
  repeat' first
    | with_reducible assumption | with_reducible apply keptOut_next | with_reducible apply kept_settleGuarantee
    | with_reducible apply kept_raise | (refine kept_fst (by with_reducible assumption) ?_)
    | (refine kept_snd (by with_reducible assumption) ?_) | split | intro _ | (simp only [kept_mk, kept_fields])

theorem kept_copyLine {s₀ : State} (s : State) (a : ℕ) (hs : s₀.Kept s) :
  s₀.Kept (State.copyLine s a) := by
  unfold State.copyLine
  dsimp only
  split
  · exact kept_mem (kept_countErr s a _ _ hs) rfl fun w => wf_memPutAll _ _ _ w
  · exact kept_raiseUe _ _ _ (kept_countErr s a _ _ hs)

theorem kept_copyRow_state {s₀ : State} (s : State) (n : ℕ) (r : ℕ) (hs : s₀.Kept s) :
  s₀.Kept (State.copyRow s n r) := by
  unfold State.copyRow
  try dsimp only
  repeat' first
    | with_reducible assumption | with_reducible apply kept_rowUe | with_reducible apply kept_modCore | with_reducible apply kept_raise | with_reducible apply kept_foldl_fst
    | with_reducible apply kept_foldl_snd | with_reducible apply kept_foldl | (refine kept_fst (by with_reducible assumption) ?_)
    | (refine kept_snd (by with_reducible assumption) ?_) | with_reducible apply keptEx_ok | split

theorem kept_copyRole {s₀ : State} (s : State) (n : ℕ) (hs : s₀.Kept s) :
  s₀.Kept (State.copyRole s n) := by
  unfold State.copyRole
  try dsimp only
  repeat' first
    | with_reducible assumption | with_reducible apply kept_copyRow | with_reducible apply kept_copyRow_state | with_reducible apply kept_copyLine
    | with_reducible apply kept_foldl_fst | with_reducible apply kept_foldl_snd | with_reducible apply kept_foldl
    | (refine kept_fst (by with_reducible assumption) ?_) | (refine kept_snd (by with_reducible assumption) ?_) | intro _

theorem kept_execMigrationSwitch {s₀ : State} (c : CourseId) (s : State) (hs : s₀.Kept s) :
  KeptOut s₀ (execMigrationSwitch c s) := by
  unfold execMigrationSwitch
  try dsimp only
  repeat' first
    | with_reducible assumption | with_reducible apply keptOut_next | with_reducible apply kept_ridgeRecord
    | with_reducible apply kept_modCore | with_reducible apply kept_releaseCourse | with_reducible apply kept_afterMigration
    | with_reducible apply kept_modCourse | with_reducible apply kept_copyRole | with_reducible apply kept_settleMark
    | with_reducible apply kept_applyAll | (refine kept_fst (by with_reducible assumption) ?_)
    | (refine kept_snd (by with_reducible assumption) ?_) | split | intro _ | (simp only [kept_mk, kept_fields])

theorem kept_noteMismatch {s₀ : State} (s : State) (c : ℕ) (p : ℕ) (hs : s₀.Kept s) :
  s₀.Kept (State.noteMismatch s c p) := by
  unfold State.noteMismatch
  try dsimp only
  repeat' first
    | with_reducible assumption | with_reducible apply kept_modCourse

theorem kept_itemOutcome {s₀ : State} (s : State) (c : ℕ) (p : ℕ) (item : ℕ) (pass : Bool) (rerunPass : Bool) (hs : s₀.Kept s) :
  s₀.Kept (State.itemOutcome s c p item pass rerunPass) := by
  unfold State.itemOutcome
  try dsimp only
  repeat' first
    | with_reducible assumption | with_reducible apply kept_modCourse | with_reducible apply kept_noteMismatch
    | with_reducible apply kept_confirmedMismatch | with_reducible apply kept_suspectPos
    | (refine kept_fst (by with_reducible assumption) ?_) | (refine kept_snd (by with_reducible assumption) ?_) | split

theorem kept_endPass {s₀ : State} (s : State) (c : ℕ) (p : ℕ) (hs : s₀.Kept s) :
  s₀.Kept (State.endPass s c p) := by
  unfold State.endPass
  try dsimp only
  repeat' first
    | with_reducible assumption | with_reducible apply kept_modCourse | with_reducible apply kept_raise
    | (refine kept_fst (by with_reducible assumption) ?_) | (refine kept_snd (by with_reducible assumption) ?_) | split

theorem kept_execTestItemResult {s₀ : State} (c : CourseId) (item : W32) (run rerun : TestRun) (lastOfPass : Bool)
    (s : State) (hs : s₀.Kept s) :
  KeptOut s₀ (execTestItemResult c item run rerun lastOfPass s) := by
  unfold execTestItemResult
  try dsimp only
  repeat' first
    | with_reducible assumption | with_reducible apply kept_hold | with_reducible apply keptOut_next | with_reducible apply kept_itemOutcome
    | with_reducible apply kept_endPass | with_reducible apply kept_modCourse | (refine kept_fst (by with_reducible assumption) ?_)
    | (refine kept_snd (by with_reducible assumption) ?_) | split

theorem kept_endSweep {s₀ : State} (s : State) (seconds : W32) (hs : s₀.Kept s) :
  s₀.Kept (State.endSweep s seconds) := by
  unfold State.endSweep
  try dsimp only
  repeat' first
    | with_reducible assumption | with_reducible apply kept_settleMark | (refine kept_fst (by with_reducible assumption) ?_)
    | (refine kept_snd (by with_reducible assumption) ?_) | split | intro _ | (simp only [kept_mk, kept_fields])

theorem kept_execSweepItem {s₀ : State} (kind : Byte) (index : ℕ) (item : W32) (pass : Bool) (rerunPass : Bool) (sweepDone : Option W32)
    (s : State) (hs : s₀.Kept s) :
  KeptOut s₀ (execSweepItem kind index item pass rerunPass sweepDone s) := by
  unfold execSweepItem
  try dsimp only
  repeat' first
    | with_reducible assumption | with_reducible apply keptOut_next | with_reducible apply kept_endSweep
    | with_reducible apply kept_suspectModule | with_reducible apply kept_raise | (refine kept_fst (by with_reducible assumption) ?_)
    | (refine kept_snd (by with_reducible assumption) ?_) | split | intro _ | (simp only [kept_mk, kept_fields])

theorem kept_execDigestComparisonOverdue {s₀ : State} (domain : Fin 4) (s : State) (hs : s₀.Kept s) :
  KeptOut s₀ (execDigestComparisonOverdue domain s) := by
  unfold execDigestComparisonOverdue
  try dsimp only
  repeat' first
    | with_reducible assumption | with_reducible apply keptOut_next | with_reducible apply kept_settleGuarantee
    | (refine kept_fst (by with_reducible assumption) ?_) | (refine kept_snd (by with_reducible assumption) ?_) | split | intro _
    | (simp only [kept_mk, kept_fields])

end Sys2Proof.Machine
end

