-- ==== Sys2Proof/Laws/KeptHost.lean ====
section
/-! SUPPORT. The queue and the form of memory stand (State.Kept): the host commands and the tick. -/

namespace Sys2Proof.Machine

open State

theorem kept_dropFrame {s₀ : State} (s : State) (hs : s₀.Kept s) :
  s₀.Kept (State.dropFrame s) := by
  unfold State.dropFrame
  try dsimp only
  repeat' first
    | with_reducible assumption | (refine kept_fst (by with_reducible assumption) ?_) | (refine kept_snd (by with_reducible assumption) ?_)
    | intro _ | (simp only [kept_mk, kept_fields])

theorem kept_onFrame {s₀ : State} (s : State) (f : EthFrame) (mine : Bool) (act : State → State) (hs : s₀.Kept s)
    (hact : ∀ t , s₀.Kept t → s₀.Kept (act t )) :
  KeptOut s₀ (State.onFrame s f mine act) := by
  unfold State.onFrame
  try dsimp only
  repeat' first
    | with_reducible assumption | with_reducible apply keptOut_next | with_reducible apply hact | with_reducible apply kept_dropFrame
    | (refine kept_fst (by with_reducible assumption) ?_) | (refine kept_snd (by with_reducible assumption) ?_) | split

theorem kept_answerFrame {s₀ : State} (s : State) (f : EthFrame) (kind : NetKind) (data : List Byte) (hs : s₀.Kept s) :
  s₀.Kept (State.answerFrame s f kind data) := by
  unfold State.answerFrame
  try dsimp only
  repeat' first
    | with_reducible assumption | with_reducible apply kept_sendNet | (refine kept_fst (by with_reducible assumption) ?_)
    | (refine kept_snd (by with_reducible assumption) ?_) | intro _ | (simp only [kept_mk, kept_fields])

theorem kept_execArpNdRequest {s₀ : State} (f : EthFrame) (target : BitVec 128) (s : State) (hs : s₀.Kept s) :
  KeptOut s₀ (execArpNdRequest f target s) := by
  unfold execArpNdRequest
  try dsimp only
  repeat' first
    | with_reducible assumption | with_reducible apply keptOut_next | with_reducible apply kept_answerFrame
    | with_reducible apply kept_onFrame | with_reducible apply kept_id | (refine kept_fst (by with_reducible assumption) ?_)
    | (refine kept_snd (by with_reducible assumption) ?_) | split | intro _

theorem kept_execIcmpEcho {s₀ : State} (f : EthFrame) (s : State) (hs : s₀.Kept s) :
  KeptOut s₀ (execIcmpEcho f s) := by
  unfold execIcmpEcho
  try dsimp only
  repeat' first
    | with_reducible assumption | with_reducible apply keptOut_next | with_reducible apply kept_answerFrame
    | with_reducible apply kept_onFrame | with_reducible apply kept_id | (refine kept_fst (by with_reducible assumption) ?_)
    | (refine kept_snd (by with_reducible assumption) ?_) | intro _

theorem kept_dhcpAnswer {s₀ : State} (s : State) (kind : DhcpKind) (a : W32) (hs : s₀.Kept s) :
    s₀.Kept (State.dhcpAnswer s kind a) := by
  unfold State.dhcpAnswer
  try dsimp only
  repeat' first
    | with_reducible assumption
    | with_reducible apply kept_dhcpDiscover
    | with_reducible apply kept_sendNet
    | with_reducible apply kept_foldl_fst | with_reducible apply kept_foldl_snd | with_reducible apply kept_foldl
    | (refine kept_fst (by with_reducible assumption) ?_) | (refine kept_snd (by with_reducible assumption) ?_) | split | intro _
    | (simp only [kept_mk, kept_fields])

theorem kept_execDhcpMessage {s₀ : State} (f : EthFrame) (kind : DhcpKind) (addr : BitVec 128) (s : State) (hs : s₀.Kept s) :
  KeptOut s₀ (execDhcpMessage f kind addr s) := by
  unfold execDhcpMessage
  try dsimp only
  repeat' first
    | with_reducible assumption | with_reducible apply kept_dhcpAnswer | with_reducible apply keptOut_next | with_reducible apply kept_onFrame
    | with_reducible apply kept_foldl_fst | with_reducible apply kept_foldl_snd | with_reducible apply kept_id
    | with_reducible apply kept_foldl | with_reducible apply kept_foldr | (refine kept_fst (by with_reducible assumption) ?_)
    | (refine kept_snd (by with_reducible assumption) ?_) | with_reducible apply keptEx_ok | with_reducible apply keptEx_error | split
    | intro _ | (simp only [kept_mk, kept_fields])

theorem kept_ptpAnnounce {s₀ : State} (s : State) (rank : List ℕ) (master : ℕ) (hs : s₀.Kept s) :
  s₀.Kept (State.ptpAnnounce s rank master) := by
  unfold State.ptpAnnounce
  try dsimp only
  repeat' first
    | with_reducible assumption | (refine kept_fst (by with_reducible assumption) ?_) | (refine kept_snd (by with_reducible assumption) ?_)
    | split | intro _ | (simp only [kept_mk, kept_fields])

theorem kept_ptpSync {s₀ : State} (s : State) (offset : ℤ) (hs : s₀.Kept s) :
  s₀.Kept (State.ptpSync s offset) := by
  unfold State.ptpSync
  try dsimp only
  repeat' first
    | with_reducible assumption | with_reducible apply kept_sendNet | with_reducible apply kept_raise
    | (refine kept_fst (by with_reducible assumption) ?_) | (refine kept_snd (by with_reducible assumption) ?_) | split | intro _
    | (simp only [kept_mk, kept_fields])

theorem kept_execPtpMessage {s₀ : State} (f : EthFrame) (m : PtpMsg) (s : State) (hs : s₀.Kept s) :
  KeptOut s₀ (execPtpMessage f m s) := by
  unfold execPtpMessage
  try dsimp only
  repeat' first
    | with_reducible assumption | with_reducible apply keptOut_next | with_reducible apply kept_ptpAnnounce
    | with_reducible apply kept_ptpSync | with_reducible apply kept_onFrame | with_reducible apply kept_id
    | (refine kept_fst (by with_reducible assumption) ?_) | (refine kept_snd (by with_reducible assumption) ?_) | split | intro _

theorem kept_bareReply {s₀ : State} (s : State) (src : ℕ) (port : ℕ) (type : ℕ) (st : Status) (ss : ℕ) (q : ℕ) (payload : List Byte)
    (hs : s₀.Kept s) :
  s₀.Kept (State.bareReply s src port type st ss q payload) := by
  unfold State.bareReply
  try dsimp only
  repeat' first
    | with_reducible assumption | with_reducible apply kept_send

theorem kept_openReply {s₀ : State} (s : State) (src : ℕ) (port : ℕ) (q : ℕ) (nonce : ℕ) (st : Status) (id : ℕ) (payload : List Byte)
    (hs : s₀.Kept s) :
  s₀.Kept (State.openReply s src port q nonce st id payload) := by
  unfold State.openReply
  try dsimp only
  repeat' first
    | with_reducible assumption | with_reducible apply kept_id | with_reducible apply kept_reply | with_reducible apply kept_send | (refine kept_fst (by with_reducible assumption) ?_)
    | (refine kept_snd (by with_reducible assumption) ?_) | intro _ | (simp only [kept_mk, kept_fields])

theorem kept_newSession {s₀ : State} (s : State) (src : ℕ) (port : ℕ) (q : ℕ) (notify : Bool) (owner : Bool) (nonce : ℕ) (hs : s₀.Kept s) :
  s₀.Kept (State.newSession s src port q notify owner nonce) := by
  unfold State.newSession
  try dsimp only
  repeat' first
    | with_reducible assumption | with_reducible apply kept_id | with_reducible apply kept_openReply | (refine kept_fst (by with_reducible assumption) ?_)
    | (refine kept_snd (by with_reducible assumption) ?_) | with_reducible apply keptEx_ok | intro _ | (simp only [kept_mk, kept_fields])

theorem kept_ownerProof {s₀ : State} (s : State) (owner : Bool) (p : List Byte) (hs : s₀.Kept s) :
  s₀.Kept (State.ownerProof s owner p).2 := by
  unfold State.ownerProof
  try dsimp only
  repeat' first
    | with_reducible assumption | with_reducible apply kept_vote | with_reducible apply kept_nextChallenge | (refine kept_fst (by with_reducible assumption) ?_)
    | (refine kept_snd (by with_reducible assumption) ?_) | split

theorem kept_opOpen {s₀ : State} (s : State) (src : ℕ) (port : ℕ) (q : ℕ) (notify : Bool) (p : List Byte) (hs : s₀.Kept s) :
  s₀.Kept (State.opOpen s src port q notify p) := by
  unfold State.opOpen
  try dsimp only
  repeat' first
    | with_reducible assumption | with_reducible apply kept_malformed | with_reducible apply kept_refuse | with_reducible apply kept_newSession | with_reducible apply kept_openReply
    | with_reducible apply kept_bareReply | with_reducible apply kept_ownerProof | with_reducible apply kept_send
    | (refine kept_fst (by with_reducible assumption) ?_) | (refine kept_snd (by with_reducible assumption) ?_) | split

theorem kept_opResume {s₀ : State} (s : State) (src : ℕ) (port : ℕ) (q : ℕ) (notify : Bool) (p : List Byte) (hs : s₀.Kept s) :
  s₀.Kept (State.opResume s src port q notify p) := by
  unfold State.opResume
  try dsimp only
  repeat' first
    | with_reducible assumption | with_reducible apply kept_malformed | with_reducible apply kept_refuse | with_reducible apply kept_modSession | with_reducible apply kept_openReply
    | with_reducible apply kept_bareReply | with_reducible apply kept_ownerProof | with_reducible apply kept_send
    | (refine kept_fst (by with_reducible assumption) ?_) | (refine kept_snd (by with_reducible assumption) ?_)
    | with_reducible apply keptEx_ok | split

theorem kept_execOpenSession {s₀ : State} (src : ℕ) (port : ℕ) (q : ℕ) (notify : Bool) (p : List Byte) (s : State) (hs : s₀.Kept s) :
  KeptOut s₀ (execOpenSession src port q notify p s) := by
  unfold execOpenSession
  try dsimp only
  repeat' first
    | with_reducible assumption | with_reducible apply keptOut_next | with_reducible apply kept_opOpen
    | (refine kept_fst (by with_reducible assumption) ?_) | (refine kept_snd (by with_reducible assumption) ?_) | split

theorem kept_execSessionResume {s₀ : State} (src : ℕ) (port : ℕ) (q : ℕ) (notify : Bool) (p : List Byte) (s : State) (hs : s₀.Kept s) :
  KeptOut s₀ (execSessionResume src port q notify p s) := by
  unfold execSessionResume
  try dsimp only
  repeat' first
    | with_reducible assumption | with_reducible apply keptOut_next | with_reducible apply kept_opResume
    | (refine kept_fst (by with_reducible assumption) ?_) | (refine kept_snd (by with_reducible assumption) ?_) | split

theorem kept_opCloseSession {s₀ : State} (s : State) (ss : ℕ) (seq : ℕ) (hs : s₀.Kept s) :
  s₀.Kept (opCloseSession s ss seq) := by
  unfold opCloseSession
  try dsimp only
  repeat' first
    | with_reducible assumption | with_reducible apply kept_reply | with_reducible apply kept_endSession

theorem kept_opStatus {s₀ : State} (s : State) (ss : ℕ) (seq : ℕ) (hs : s₀.Kept s) :
  s₀.Kept (opStatus s ss seq) := by
  unfold opStatus
  try dsimp only
  repeat' first
    | with_reducible assumption | with_reducible apply kept_reply

theorem kept_opEventFetch {s₀ : State} (s : State) (ss : ℕ) (seq : ℕ) (first : ℕ) (count : ℕ) (hs : s₀.Kept s) :
  s₀.Kept (opEventFetch s ss seq first count) := by
  unfold opEventFetch
  try dsimp only
  repeat' first
    | with_reducible assumption | with_reducible apply kept_reply | with_reducible apply kept_refuse
    | (refine kept_fst (by with_reducible assumption) ?_) | (refine kept_snd (by with_reducible assumption) ?_)
    | with_reducible apply keptEx_ok | split

theorem kept_runCommand {s₀ : State} (s : State) (ss : ℕ) (seq : ℕ) (type : ℕ) (flags : ℕ) (p : List Byte) (hs : s₀.Kept s) :
  s₀.Kept (runCommand s ss seq type flags p) := by
  unfold runCommand
  try dsimp only
  repeat' first
    | with_reducible assumption | with_reducible apply kept_malformed | with_reducible apply kept_opEventFetch | with_reducible apply kept_opSecureWipe
    | with_reducible apply kept_opCloseSession | with_reducible apply kept_opReset | with_reducible apply kept_opFwCommit
    | with_reducible apply kept_opBulkRead | with_reducible apply kept_opUnloadImage | with_reducible apply kept_refuse
    | with_reducible apply kept_opPauseJob | with_reducible apply kept_opBulkWrite | with_reducible apply kept_opResumeJob
    | with_reducible apply kept_opFwStage | with_reducible apply kept_opStatus | with_reducible apply kept_opAttest
    | with_reducible apply kept_opLoadImage | with_reducible apply kept_opWriteReg | with_reducible apply kept_opBypassSet
    | with_reducible apply kept_opLcChange | with_reducible apply kept_opCancelJob | with_reducible apply kept_opReadReg
    | with_reducible apply kept_opStartJob | (refine kept_fst (by with_reducible assumption) ?_)
    | (refine kept_snd (by with_reducible assumption) ?_) | split

theorem kept_advance {s₀ : State} (s : State) (ss : ℕ) (seq : ℕ) (hs : s₀.Kept s) :
  s₀.Kept (State.advance s ss seq) := by
  unfold State.advance
  try dsimp only
  repeat' first
    | with_reducible assumption | with_reducible apply kept_modSession | (refine kept_fst (by with_reducible assumption) ?_)
    | (refine kept_snd (by with_reducible assumption) ?_) | intro _ | (simp only [kept_mk, kept_fields])

theorem kept_runNext {s₀ : State} (s : State) (ss : ℕ) (seq : ℕ) (d : List Byte) (hs : s₀.Kept s) :
  s₀.Kept (State.runNext s ss seq d) := by
  unfold State.runNext
  try dsimp only
  repeat' first
    | with_reducible assumption | with_reducible apply kept_runCommand | with_reducible apply kept_advance

theorem kept_drainHeld {s₀ : State} (x0 : ℕ) (x1 : State) (x2 : ℕ) (hx1 : s₀.Kept x1) :
  s₀.Kept (State.drainHeld x0 x1 x2) := by
  unfold State.drainHeld
  try dsimp only
  repeat' first
    | with_reducible assumption | with_reducible apply kept_runNext | with_reducible apply kept_drainHeld
    | (refine kept_fst (by with_reducible assumption) ?_) | (refine kept_snd (by with_reducible assumption) ?_) | split

theorem kept_ordered {s₀ : State} (s : State) (x : Session) (q : ℕ) (d : List Byte) (hs : s₀.Kept s) :
  s₀.Kept (State.ordered s x q d) := by
  unfold State.ordered
  try dsimp only
  repeat' first
    | with_reducible assumption | with_reducible apply kept_id | with_reducible apply kept_modSession | with_reducible apply kept_drainHeld
    | with_reducible apply kept_runNext | with_reducible apply kept_bareReply | with_reducible apply kept_send
    | (refine kept_fst (by with_reducible assumption) ?_) | (refine kept_snd (by with_reducible assumption) ?_) | split

theorem kept_onMessage {s₀ : State} (s : State) (src : ℕ) (port : ℕ) (d : List Byte) (hs : s₀.Kept s) :
  s₀.Kept (State.onMessage s src port d) := by
  unfold State.onMessage
  try dsimp only
  repeat' first
    | with_reducible assumption | with_reducible apply kept_malformed | with_reducible apply kept_opResume | with_reducible apply kept_ordered | with_reducible apply kept_opOpen
    | with_reducible apply kept_bareReply | (refine kept_fst (by with_reducible assumption) ?_)
    | (refine kept_snd (by with_reducible assumption) ?_) | with_reducible apply keptEx_ok | split

theorem kept_onDatagram {s₀ : State} (s : State) (src : ℕ) (port : ℕ) (d : List Byte) (hs : s₀.Kept s) :
  s₀.Kept (State.onDatagram s src port d) := by
  unfold State.onDatagram
  try dsimp only
  repeat' first
    | with_reducible assumption | with_reducible apply kept_onMessage | (refine kept_fst (by with_reducible assumption) ?_)
    | (refine kept_snd (by with_reducible assumption) ?_) | split | intro _ | (simp only [kept_mk, kept_fields])

theorem kept_execRcpMessage {s₀ : State} (f : EthFrame) (s : State) (hs : s₀.Kept s) :
  KeptOut s₀ (execRcpMessage f s) := by
  unfold execRcpMessage
  try dsimp only
  repeat' first
    | with_reducible assumption | with_reducible apply keptOut_next | with_reducible apply kept_onDatagram
    | with_reducible apply kept_onFrame | with_reducible apply kept_id | (refine kept_fst (by with_reducible assumption) ?_)
    | (refine kept_snd (by with_reducible assumption) ?_) | intro _

theorem kept_execReorderTimeout {s₀ : State} (ss : ℕ) (q : ℕ) (s : State) (hs : s₀.Kept s) :
  KeptOut s₀ (execReorderTimeout ss q s) := by
  unfold execReorderTimeout
  try dsimp only
  repeat' first
    | with_reducible assumption | with_reducible apply keptOut_next | with_reducible apply kept_modSession
    | (refine kept_fst (by with_reducible assumption) ?_) | (refine kept_snd (by with_reducible assumption) ?_) | split | intro _
    | (simp only [kept_mk, kept_fields])

theorem kept_execSessionIdle {s₀ : State} (ss : ℕ) (s : State) (hs : s₀.Kept s) :
  KeptOut s₀ (execSessionIdle ss s) := by
  unfold execSessionIdle
  try dsimp only
  repeat' first
    | with_reducible assumption | with_reducible apply keptOut_next | with_reducible apply kept_endSession

theorem kept_execChallengeRollover {s₀ : State} (s : State) (hs : s₀.Kept s) :
  KeptOut s₀ (execChallengeRollover s) := by
  unfold execChallengeRollover
  try dsimp only
  repeat' first
    | with_reducible assumption | with_reducible apply keptOut_next | with_reducible apply kept_nextChallenge

theorem kept_execEventNotice {s₀ : State} (ss : ℕ) (s : State) (hs : s₀.Kept s) :
  KeptOut s₀ (execEventNotice ss s) := by
  unfold execEventNotice
  try dsimp only
  repeat' first
    | with_reducible assumption | with_reducible apply keptOut_next | with_reducible apply kept_modSession
    | with_reducible apply kept_bareReply | (refine kept_fst (by with_reducible assumption) ?_)
    | (refine kept_snd (by with_reducible assumption) ?_) | with_reducible apply keptEx_ok | split

theorem kept_runRow {s₀ : State} (s : State) (ss : ℕ) (f : State → ℕ → State) (hs : s₀.Kept s) (hf : ∀ t a, s₀.Kept t → s₀.Kept (f t a)) :
  KeptOut s₀ (State.runRow s ss f) := by
  unfold State.runRow
  try dsimp only
  repeat' first
    | with_reducible assumption | with_reducible apply keptOut_next | with_reducible apply hf | with_reducible apply kept_drainHeld
    | with_reducible apply kept_advance | (refine kept_fst (by with_reducible assumption) ?_)
    | (refine kept_snd (by with_reducible assumption) ?_) | split

theorem kept_execCloseSession {s₀ : State} (ss : ℕ) (s : State) (hs : s₀.Kept s) :
  KeptOut s₀ (execCloseSession ss s) := by
  unfold execCloseSession
  try dsimp only
  repeat' first
    | with_reducible assumption | with_reducible apply keptOut_next | with_reducible apply kept_opCloseSession
    | with_reducible apply kept_runRow | (refine kept_fst (by with_reducible assumption) ?_)
    | (refine kept_snd (by with_reducible assumption) ?_) | intro _

theorem kept_execStatusCmd {s₀ : State} (ss : ℕ) (s : State) (hs : s₀.Kept s) :
  KeptOut s₀ (execStatusCmd ss s) := by
  unfold execStatusCmd
  try dsimp only
  repeat' first
    | with_reducible assumption | with_reducible apply keptOut_next | with_reducible apply kept_runRow | with_reducible apply kept_opStatus
    | with_reducible apply kept_bareReply | (refine kept_fst (by with_reducible assumption) ?_)
    | (refine kept_snd (by with_reducible assumption) ?_) | with_reducible apply keptEx_ok | split | intro _

theorem kept_execReadReg {s₀ : State} (ss : ℕ) (priv : Bool) (addrs : List Word) (s : State) (hs : s₀.Kept s) :
  KeptOut s₀ (execReadReg ss priv addrs s) := by
  unfold execReadReg
  try dsimp only
  repeat' first
    | with_reducible assumption | with_reducible apply keptOut_next | with_reducible apply kept_runRow | with_reducible apply kept_opReadReg
    | (refine kept_fst (by with_reducible assumption) ?_) | (refine kept_snd (by with_reducible assumption) ?_) | intro _

theorem kept_execWriteReg {s₀ : State} (ss : ℕ) (priv : Bool) (pairs : List (Word × Word)) (s : State) (hs : s₀.Kept s) :
  KeptOut s₀ (execWriteReg ss priv pairs s) := by
  unfold execWriteReg
  try dsimp only
  repeat' first
    | with_reducible assumption | with_reducible apply keptOut_next | with_reducible apply kept_runRow
    | with_reducible apply kept_opWriteReg | (refine kept_fst (by with_reducible assumption) ?_)
    | (refine kept_snd (by with_reducible assumption) ?_) | intro _

theorem kept_execLoadImage {s₀ : State} (ss : ℕ) (staging : Word) (img : ImageBodies) (s : State) (hs : s₀.Kept s) :
  KeptOut s₀ (execLoadImage ss staging img s) := by
  unfold execLoadImage
  try dsimp only
  repeat' first
    | with_reducible assumption | with_reducible apply keptOut_next | with_reducible apply kept_runRow
    | with_reducible apply kept_opLoadImage | (refine kept_fst (by with_reducible assumption) ?_)
    | (refine kept_snd (by with_reducible assumption) ?_) | intro _

theorem kept_execUnloadImage {s₀ : State} (ss : ℕ) (s : State) (hs : s₀.Kept s) :
  KeptOut s₀ (execUnloadImage ss s) := by
  unfold execUnloadImage
  try dsimp only
  repeat' first
    | with_reducible assumption | with_reducible apply keptOut_next | with_reducible apply kept_runRow
    | with_reducible apply kept_opUnloadImage | (refine kept_fst (by with_reducible assumption) ?_)
    | (refine kept_snd (by with_reducible assumption) ?_) | intro _

theorem kept_execStartJob {s₀ : State} (ss : ℕ) (s : State) (hs : s₀.Kept s) :
  KeptOut s₀ (execStartJob ss s) := by
  unfold execStartJob
  try dsimp only
  repeat' first
    | with_reducible assumption | with_reducible apply keptOut_next | with_reducible apply kept_runRow
    | with_reducible apply kept_opStartJob | (refine kept_fst (by with_reducible assumption) ?_)
    | (refine kept_snd (by with_reducible assumption) ?_) | intro _

theorem kept_execPauseJob {s₀ : State} (ss : ℕ) (s : State) (hs : s₀.Kept s) :
  KeptOut s₀ (execPauseJob ss s) := by
  unfold execPauseJob
  try dsimp only
  repeat' first
    | with_reducible assumption | with_reducible apply keptOut_next | with_reducible apply kept_runRow
    | with_reducible apply kept_opPauseJob | (refine kept_fst (by with_reducible assumption) ?_)
    | (refine kept_snd (by with_reducible assumption) ?_) | intro _

theorem kept_execResumeJob {s₀ : State} (ss : ℕ) (s : State) (hs : s₀.Kept s) :
  KeptOut s₀ (execResumeJob ss s) := by
  unfold execResumeJob
  try dsimp only
  repeat' first
    | with_reducible assumption | with_reducible apply keptOut_next | with_reducible apply kept_runRow
    | with_reducible apply kept_opResumeJob | (refine kept_fst (by with_reducible assumption) ?_)
    | (refine kept_snd (by with_reducible assumption) ?_) | intro _

theorem kept_execCancelJob {s₀ : State} (ss : ℕ) (s : State) (hs : s₀.Kept s) :
  KeptOut s₀ (execCancelJob ss s) := by
  unfold execCancelJob
  try dsimp only
  repeat' first
    | with_reducible assumption | with_reducible apply keptOut_next | with_reducible apply kept_runRow
    | with_reducible apply kept_opCancelJob | (refine kept_fst (by with_reducible assumption) ?_)
    | (refine kept_snd (by with_reducible assumption) ?_) | intro _

theorem kept_execBulkWrite {s₀ : State} (ss : ℕ) (coalesce : Bool) (payload : List Byte) (s : State) (hs : s₀.Kept s) :
  KeptOut s₀ (execBulkWrite ss coalesce payload s) := by
  unfold execBulkWrite
  try dsimp only
  repeat' first
    | with_reducible assumption | with_reducible apply keptOut_next | with_reducible apply kept_runRow
    | with_reducible apply kept_opBulkWrite | (refine kept_fst (by with_reducible assumption) ?_)
    | (refine kept_snd (by with_reducible assumption) ?_) | intro _

theorem kept_execBulkRead {s₀ : State} (ss : ℕ) (payload : List Byte) (s : State) (hs : s₀.Kept s) :
  KeptOut s₀ (execBulkRead ss payload s) := by
  unfold execBulkRead
  try dsimp only
  repeat' first
    | with_reducible assumption | with_reducible apply keptOut_next | with_reducible apply kept_runRow
    | with_reducible apply kept_opBulkRead | (refine kept_fst (by with_reducible assumption) ?_)
    | (refine kept_snd (by with_reducible assumption) ?_) | intro _

theorem kept_execEventFetch {s₀ : State} (ss : ℕ) (first : Word) (count : BitVec 16) (s : State) (hs : s₀.Kept s) :
  KeptOut s₀ (execEventFetch ss first count s) := by
  unfold execEventFetch
  try dsimp only
  repeat' first
    | with_reducible assumption | with_reducible apply keptOut_next | with_reducible apply kept_opEventFetch
    | with_reducible apply kept_runRow | (refine kept_fst (by with_reducible assumption) ?_)
    | (refine kept_snd (by with_reducible assumption) ?_) | intro _

theorem kept_execAttest {s₀ : State} (ss : ℕ) (payload : List Byte) (s : State) (hs : s₀.Kept s) :
  KeptOut s₀ (execAttest ss payload s) := by
  unfold execAttest
  try dsimp only
  repeat' first
    | with_reducible assumption | with_reducible apply keptOut_next | with_reducible apply kept_runRow | with_reducible apply kept_opAttest
    | (refine kept_fst (by with_reducible assumption) ?_) | (refine kept_snd (by with_reducible assumption) ?_) | intro _

theorem kept_execFwStage {s₀ : State} (ss : ℕ) (staging : Word) (length : Word) (kind : Byte) (s : State) (hs : s₀.Kept s) :
  KeptOut s₀ (execFwStage ss staging length kind s) := by
  unfold execFwStage
  try dsimp only
  repeat' first
    | with_reducible assumption | with_reducible apply keptOut_next | with_reducible apply kept_runRow | with_reducible apply kept_opFwStage
    | (refine kept_fst (by with_reducible assumption) ?_) | (refine kept_snd (by with_reducible assumption) ?_) | intro _

theorem kept_execFwCommit {s₀ : State} (ss : ℕ) (kind : Byte) (s : State) (hs : s₀.Kept s) :
  KeptOut s₀ (execFwCommit ss kind s) := by
  unfold execFwCommit
  try dsimp only
  repeat' first
    | with_reducible assumption | with_reducible apply keptOut_next | with_reducible apply kept_runRow
    | with_reducible apply kept_opFwCommit | (refine kept_fst (by with_reducible assumption) ?_)
    | (refine kept_snd (by with_reducible assumption) ?_) | intro _

theorem kept_execLcChange {s₀ : State} (ss : ℕ) (target : Byte) (r : ℕ) (g : ℕ) (s : State) (hs : s₀.Kept s) :
  KeptOut s₀ (execLcChange ss target r g s) := by
  unfold execLcChange
  try dsimp only
  repeat' first
    | with_reducible assumption | with_reducible apply keptOut_next | with_reducible apply kept_runRow
    | with_reducible apply kept_opLcChange | (refine kept_fst (by with_reducible assumption) ?_)
    | (refine kept_snd (by with_reducible assumption) ?_) | intro _

theorem kept_execSecureWipe {s₀ : State} (ss : ℕ) (scope : Byte) (s : State) (hs : s₀.Kept s) :
  KeptOut s₀ (execSecureWipe ss scope s) := by
  unfold execSecureWipe
  try dsimp only
  repeat' first
    | with_reducible assumption | with_reducible apply keptOut_next | with_reducible apply kept_opSecureWipe
    | with_reducible apply kept_runRow | (refine kept_fst (by with_reducible assumption) ?_)
    | (refine kept_snd (by with_reducible assumption) ?_) | intro _

theorem kept_execSecureWipeFull {s₀ : State} (ss : ℕ) (s : State) (hs : s₀.Kept s) :
  KeptOut s₀ (execSecureWipeFull ss s) := by
  unfold execSecureWipeFull
  try dsimp only
  repeat' first
    | with_reducible assumption | with_reducible apply keptOut_next | with_reducible apply kept_opSecureWipe
    | with_reducible apply kept_runRow | (refine kept_fst (by with_reducible assumption) ?_)
    | (refine kept_snd (by with_reducible assumption) ?_) | intro _

theorem kept_execBypassOpen {s₀ : State} (ss : ℕ) (pair : Byte) (force : Byte) (s : State) (hs : s₀.Kept s) :
  KeptOut s₀ (execBypassOpen ss pair force s) := by
  unfold execBypassOpen
  try dsimp only
  repeat' first
    | with_reducible assumption | with_reducible apply keptOut_next | with_reducible apply kept_runRow
    | with_reducible apply kept_opBypassSet | (refine kept_fst (by with_reducible assumption) ?_)
    | (refine kept_snd (by with_reducible assumption) ?_) | intro _

theorem kept_execBypassClose {s₀ : State} (ss : ℕ) (pair : Byte) (force : Byte) (s : State) (hs : s₀.Kept s) :
  KeptOut s₀ (execBypassClose ss pair force s) := by
  unfold execBypassClose
  try dsimp only
  repeat' first
    | with_reducible assumption | with_reducible apply keptOut_next | with_reducible apply kept_runRow
    | with_reducible apply kept_opBypassSet | (refine kept_fst (by with_reducible assumption) ?_)
    | (refine kept_snd (by with_reducible assumption) ?_) | intro _

theorem kept_execModuleWarmReset {s₀ : State} (ss : ℕ) (s : State) (hs : s₀.Kept s) :
  KeptOut s₀ (execModuleWarmReset ss s) := by
  unfold execModuleWarmReset
  try dsimp only
  repeat' first
    | with_reducible assumption | with_reducible apply keptOut_next | with_reducible apply kept_runRow | with_reducible apply kept_opReset
    | (refine kept_fst (by with_reducible assumption) ?_) | (refine kept_snd (by with_reducible assumption) ?_) | intro _

theorem kept_execCourseReset {s₀ : State} (ss : ℕ) (target : BitVec 16) (s : State) (hs : s₀.Kept s) :
  KeptOut s₀ (execCourseReset ss target s) := by
  unfold execCourseReset
  try dsimp only
  repeat' first
    | with_reducible assumption | with_reducible apply keptOut_next | with_reducible apply kept_runRow | with_reducible apply kept_opReset
    | (refine kept_fst (by with_reducible assumption) ?_) | (refine kept_snd (by with_reducible assumption) ?_) | intro _

theorem kept_execCoreReset {s₀ : State} (ss : ℕ) (target : BitVec 16) (s : State) (hs : s₀.Kept s) :
  KeptOut s₀ (execCoreReset ss target s) := by
  unfold execCoreReset
  try dsimp only
  repeat' first
    | with_reducible assumption | with_reducible apply keptOut_next | with_reducible apply kept_runRow | with_reducible apply kept_opReset
    | (refine kept_fst (by with_reducible assumption) ?_) | (refine kept_snd (by with_reducible assumption) ?_) | intro _

theorem kept_regRow {s₀ : State} (s : State) (ss : ℕ) (priv : Bool) (mine : Bool) (a : ℕ) (v : Word) (hs : s₀.Kept s) :
  KeptOut s₀ (State.regRow s ss priv mine a v) := by
  unfold State.regRow
  try dsimp only
  repeat' first
    | with_reducible assumption | with_reducible apply keptOut_next | with_reducible apply kept_runRow
    | with_reducible apply kept_opWriteReg | (refine kept_fst (by with_reducible assumption) ?_)
    | (refine kept_snd (by with_reducible assumption) ?_) | split | intro _

theorem kept_execBankPower {s₀ : State} (ss : ℕ) (priv : Bool) (addr : Word) (value : Word) (s : State) (hs : s₀.Kept s) :
  KeptOut s₀ (execBankPower ss priv addr value s) := by
  unfold execBankPower
  try dsimp only
  repeat' first
    | with_reducible assumption | with_reducible apply keptOut_next | with_reducible apply kept_regRow

theorem kept_execRegionWrite {s₀ : State} (ss : ℕ) (priv : Bool) (addr : Word) (value : Word) (s : State) (hs : s₀.Kept s) :
  KeptOut s₀ (execRegionWrite ss priv addr value s) := by
  unfold execRegionWrite
  try dsimp only
  repeat' first
    | with_reducible assumption | with_reducible apply keptOut_next | with_reducible apply kept_regRow

theorem kept_execFlipArm {s₀ : State} (ss : ℕ) (priv : Bool) (addr : Word) (value : Word) (s : State) (hs : s₀.Kept s) :
  KeptOut s₀ (execFlipArm ss priv addr value s) := by
  unfold execFlipArm
  try dsimp only
  repeat' first
    | with_reducible assumption | with_reducible apply keptOut_next | with_reducible apply kept_regRow

theorem kept_execRngKeyStreamWrite {s₀ : State} (ss : ℕ) (priv : Bool) (key : Fin 8) (value : Word) (s : State) (hs : s₀.Kept s) :
  KeptOut s₀ (execRngKeyStreamWrite ss priv key value s) := by
  unfold execRngKeyStreamWrite
  try dsimp only
  repeat' first
    | with_reducible assumption | with_reducible apply keptOut_next | with_reducible apply kept_regRow

theorem kept_execReshardStart {s₀ : State} (ss : ℕ) (priv : Bool) (value : Word) (s : State) (hs : s₀.Kept s) :
  KeptOut s₀ (execReshardStart ss priv value s) := by
  unfold execReshardStart
  try dsimp only
  repeat' first
    | with_reducible assumption | with_reducible apply keptOut_next | with_reducible apply kept_regRow

theorem kept_execTelemetryControl {s₀ : State} (ss : ℕ) (priv : Bool) (value : Word) (s : State) (hs : s₀.Kept s) :
  KeptOut s₀ (execTelemetryControl ss priv value s) := by
  unfold execTelemetryControl
  try dsimp only
  repeat' first
    | with_reducible assumption | with_reducible apply keptOut_next | with_reducible apply kept_regRow

theorem kept_execSpillControl {s₀ : State} (ss : ℕ) (priv : Bool) (value : Word) (s : State) (hs : s₀.Kept s) :
  KeptOut s₀ (execSpillControl ss priv value s) := by
  unfold execSpillControl
  try dsimp only
  repeat' first
    | with_reducible assumption | with_reducible apply keptOut_next | with_reducible apply kept_regRow

theorem kept_execRidgeCqConfig {s₀ : State} (ss : ℕ) (priv : Bool) (ch : Fin 3) (value : Word) (s : State) (hs : s₀.Kept s) :
  KeptOut s₀ (execRidgeCqConfig ss priv ch value s) := by
  unfold execRidgeCqConfig
  try dsimp only
  repeat' first
    | with_reducible assumption | with_reducible apply keptOut_next | with_reducible apply kept_regRow

theorem kept_execRidgeCqRelease {s₀ : State} (ss : ℕ) (priv : Bool) (ch : Fin 3) (value : Word) (s : State) (hs : s₀.Kept s) :
  KeptOut s₀ (execRidgeCqRelease ss priv ch value s) := by
  unfold execRidgeCqRelease
  try dsimp only
  repeat' first
    | with_reducible assumption | with_reducible apply keptOut_next | with_reducible apply kept_regRow

theorem kept_execStandbyEnter {s₀ : State} (ss : ℕ) (priv : Bool) (value : Word) (s : State) (hs : s₀.Kept s) :
  KeptOut s₀ (execStandbyEnter ss priv value s) := by
  unfold execStandbyEnter
  try dsimp only
  repeat' first
    | with_reducible assumption | with_reducible apply keptOut_next | with_reducible apply kept_regRow

theorem kept_execStandbyExit {s₀ : State} (ss : ℕ) (priv : Bool) (value : Word) (s : State) (hs : s₀.Kept s) :
  KeptOut s₀ (execStandbyExit ss priv value s) := by
  unfold execStandbyExit
  try dsimp only
  repeat' first
    | with_reducible assumption | with_reducible apply keptOut_next | with_reducible apply kept_regRow

theorem kept_execOwnerKeyInstall {s₀ : State} (ss : ℕ) (priv : Bool) (slot : Fin 4) (s : State) (hs : s₀.Kept s) :
  KeptOut s₀ (execOwnerKeyInstall ss priv slot s) := by
  unfold execOwnerKeyInstall
  try dsimp only
  repeat' first
    | with_reducible assumption | with_reducible apply keptOut_next | with_reducible apply kept_regRow

theorem kept_execOwnerKeyRevoke {s₀ : State} (ss : ℕ) (priv : Bool) (slot : Fin 4) (s : State) (hs : s₀.Kept s) :
  KeptOut s₀ (execOwnerKeyRevoke ss priv slot s) := by
  unfold execOwnerKeyRevoke
  try dsimp only
  repeat' first
    | with_reducible assumption | with_reducible apply keptOut_next | with_reducible apply kept_regRow

theorem kept_execOwnerPolicyWrite {s₀ : State} (ss : ℕ) (priv : Bool) (value : Word) (s : State) (hs : s₀.Kept s) :
  KeptOut s₀ (execOwnerPolicyWrite ss priv value s) := by
  unfold execOwnerPolicyWrite
  try dsimp only
  repeat' first
    | with_reducible assumption | with_reducible apply keptOut_next | with_reducible apply kept_regRow

theorem kept_execDebugUnlock {s₀ : State} (ss : ℕ) (priv : Bool) (value : Word) (s : State) (hs : s₀.Kept s) :
  KeptOut s₀ (execDebugUnlock ss priv value s) := by
  unfold execDebugUnlock
  try dsimp only
  repeat' first
    | with_reducible assumption | with_reducible apply keptOut_next | with_reducible apply kept_regRow

theorem kept_execSecureBankAccess {s₀ : State} (ss : ℕ) (priv : Bool) (word : Fin 8) (value : Word) (s : State) (hs : s₀.Kept s) :
  KeptOut s₀ (execSecureBankAccess ss priv word value s) := by
  unfold execSecureBankAccess
  try dsimp only
  repeat' first
    | with_reducible assumption | with_reducible apply keptOut_next | with_reducible apply kept_regRow

theorem kept_tickSlopes {s₀ : State} (s : State) (hs : s₀.Kept s) :
  s₀.Kept (State.tickSlopes s) := by
  unfold State.tickSlopes
  try dsimp only
  repeat' first
    | with_reducible assumption | with_reducible apply kept_tick | with_reducible apply kept_modSlope | with_reducible apply kept_foldl_fst
    | with_reducible apply kept_foldl_snd | with_reducible apply kept_foldl | (refine kept_fst (by with_reducible assumption) ?_)
    | (refine kept_snd (by with_reducible assumption) ?_) | intro _

theorem kept_tickCores {s₀ : State} (s : State) (n : ℕ → ℕ) (hs : s₀.Kept s) :
  s₀.Kept (State.tickCores s n) := by
  unfold State.tickCores
  try dsimp only
  repeat' first
    | with_reducible assumption | with_reducible apply kept_tick | (refine kept_fst (by with_reducible assumption) ?_) | (refine kept_snd (by with_reducible assumption) ?_)
    | intro _ | (simp only [kept_mk, kept_fields])

theorem kept_tickPorts {s₀ : State} (s : State) (hs : s₀.Kept s) :
  s₀.Kept (State.tickPorts s) := by
  unfold State.tickPorts
  try dsimp only
  repeat' first
    | with_reducible assumption | (refine kept_fst (by with_reducible assumption) ?_) | (refine kept_snd (by with_reducible assumption) ?_)
    | split | intro _ | (simp only [kept_mk, kept_fields])

theorem kept_tickStacks {s₀ : State} (s : State) (hs : s₀.Kept s) :
  s₀.Kept (State.tickStacks s) := by
  unfold State.tickStacks
  try dsimp only
  repeat' first
    | with_reducible assumption | with_reducible apply kept_modStack | with_reducible apply kept_foldl_fst
    | with_reducible apply kept_foldl_snd | with_reducible apply kept_foldl | (refine kept_fst (by with_reducible assumption) ?_)
    | (refine kept_snd (by with_reducible assumption) ?_) | intro _

theorem kept_tickPtp {s₀ : State} (s : State) (hs : s₀.Kept s) :
  s₀.Kept (State.tickPtp s) := by
  unfold State.tickPtp
  try dsimp only
  repeat' first
    | with_reducible assumption | (refine kept_fst (by with_reducible assumption) ?_) | (refine kept_snd (by with_reducible assumption) ?_)
    | split | intro _ | (simp only [kept_mk, kept_fields])

theorem kept_tick {s₀ : State} (s : State) (hs : s₀.Kept s) :
  s₀.Kept (tick s) := by
  unfold tick
  try dsimp only
  repeat' first
    | with_reducible assumption | with_reducible apply kept_tickPtp | with_reducible apply kept_tickSlopes
    | with_reducible apply kept_tickPorts | with_reducible apply kept_tickCores | with_reducible apply kept_tickStacks
    | (refine kept_fst (by with_reducible assumption) ?_) | (refine kept_snd (by with_reducible assumption) ?_) | split | intro _
    | (simp only [kept_mk, kept_fields])

end Sys2Proof.Machine
end

