-- ==== Sys2Proof/Tests/Slice0.lean ====
section
/-! SUPPORT. The model's own tests: commands that WellFormed refuses; and for every statement with hypotheses, states and
operands that meet them, clause by clause. -/

-- Each test compares on its own; checked one after another they need less memory.
set_option Elab.async false

namespace Sys2Proof.Tests

open Sys2Proof Sys2Proof.Machine

/-! ### A small job -/

/-- An instruction word: opcode, engine, the registers dst, a, b and c, and the bits of the modifiers and the immediate. -/
def word (op eng dst a b c mods : Nat) : Word128 :=
  BitVec.ofNat 128 (op * 2 ^ 120 + eng * 2 ^ 117 + dst * 2 ^ 75 + a * 2 ^ 69 + b * 2 ^ 63 + c * 2 ^ 57 + mods)

/-- A descriptor in the scratchpad of core 0. -/
def desc (fmt : Byte) (size : List Nat) (stride : List Int := []) (write : Bool := false) : Desc :=
  { base := spadBase 0, fmt := fmt, write := write, rank := size.length, alloc := 1, size := bytes6 size, stride := stride ++ List.replicate (5 - stride.length) 0 }
where
  bytes6 (l : List Nat) : List Nat := l ++ List.replicate (6 - l.length) 0

/-- An FP32 matrix of four rows of 32 that may be written. -/
def matrix : Desc := desc 0x01 [32, 4] [2] true

/-- A stream in region 1, at index 2, with two registers and the descriptors given. -/
def demoStream (dregs : Tab Desc) : StreamCtx :=
  { hasEntry := true, pcRegion := 1, pcIndex := 2, sregs := [(1, 5), (2, 3)], dregs := dregs, fetchLine := some 0 }

def demoImage : ImageBodies :=
  { allocs := [(1, { base := spadBase 0, lines := 16384, domain := some 0 })]
    regions := [(1, { base := 0, lines := 4 }), (2, { base := 256, lines := 4 })]
    entries := [(0, .F, 1, 0)]
    layers := [(0, { theta := 0, cap := 1, forceTop1 := false, expertBase := 0, experts := 32, rowFormat := 0x01, rowWidth := 32, returnFormat := 0x01, group := 0, collector := 0, ring := 2, publishFlag := 1, returnsFlag := 2, placement := 1 })]
    groups := [(0, [(0, 0)])]
    experts := [(0, leBytes 8 (2 ^ 56) ++ leBytes 8 4)]
    params := [(0, { rule := 0, lrBase := 0x3F800000 }), (4, { rule := 4, lrBase := 0x3F800000 })] }

/-- Regions that give a master the scratchpad of core 0 and the lowest megabyte of HBM. -/
def demoRegions : Tab Region :=
  [(0, { enable := true, read := true, write := true, code := false, base := spadBase 0 / 64, limit := spadBase 0 / 64 + 16383 }),
   (1, { enable := true, read := true, write := true, code := true, base := 0, limit := 16383 })]

/-- A running job whose only loaded core is core 0, with stream F. -/
def demo (dregs : Tab Desc := []) : State :=
  { cores := [(0, { active := true, f := demoStream dregs, regions := demoRegions, chans := [(0, { declared := true, log2 := 4 })] })]
    job := { state := .running }, rng := { declared := 1 }, image := { loaded := true, bodies := demoImage } }

/-- The word in memory as the next instruction of stream F of core 0, whose fetch buffer holds its line. -/
def poised (s : State) (w : Word128) : State := { s with mem := memPutAll s.mem 32 (leBytes 16 w.toNat) }

/-- What `Passes` asks, as a value. -/
def goes (s : State) (n : CoreId) (t : Stream) (w : Word128) (r : IssueReq) : Bool :=
  fOpcode w == r.form.opcode && s.canIssue n t w && (s.core n).waitHolds t w && s.wordFree n t w && s.goesFirst n t &&
    issueCheck ((s.core n).ctx t) w r.form r.reserved r.needs r.late == none

theorem passes {s n t w r} (h : goes s n t w r = true) : Passes s n t w r := by
  simp only [goes, Bool.and_eq_true, beq_iff_eq] at h
  exact ⟨h.1.1.1.1.1, h.1.1.1.1.2, h.1.1.1.2, h.1.1.2, h.1.2, h.2⟩

/-- The word goes as the instruction that a request describes, once it is poised in the state. -/
def lets (req : State → CoreId → Stream → Word128 → IssueReq) (s : State) (w : Word128) : Bool :=
  goes (poised s w) 0 .F w (req (poised s w) 0 .F w)

/-- It passes. -/
abbrev Lets (req : State → CoreId → Stream → Word128 → IssueReq) (s : State) (w : Word128) : Prop :=
  Passes (poised s w) 0 .F w (req (poised s w) 0 .F w)

/-- Each row of a table of engine instructions goes in the state with the word given. -/
def rowsGo (rows : List EngineRow) (l : List (State × Word128)) : Bool :=
  rows.length == l.length && (rows.zip l).all fun x => lets x.1.req x.2.1 x.2.2 && ownWord x.1.ctor 0 .F x.2.2

theorem rows_go {rows : List EngineRow} {l : List (State × Word128)} (h : rowsGo rows l = true) :
    ∀ p ∈ rows, ∃ s n t w, ownWord p.ctor n t w = true ∧ Passes s n t w (p.req s n t w) := by
  simp only [rowsGo, Bool.and_eq_true, beq_iff_eq, List.all_eq_true] at h
  intro p hp
  obtain ⟨i, hi, rfl⟩ := List.mem_iff_getElem.1 hp
  have hz : (rows[i], l[i]'(h.1 ▸ hi)) ∈ rows.zip l := by
    rw [List.mem_iff_getElem]
    exact ⟨i, by simp only [List.length_zip]; omega, by simp⟩
  exact ⟨_, 0, .F, _, (h.2 _ hz).2, passes (h.2 _ hz).1⟩

/-! ### The core instructions pass their checks -/

theorem test_three_operand_pass : ∀ p ∈ threeOperand, ∃ s n t w, Passes s n t w p.req := by
  have h : (threeOperand.all fun p => lets (fun _ _ _ _ => p.req) (demo []) (word p.opcode 0 3 1 2 0 0)) = true := by decide +kernel
  exact fun p hp => ⟨_, 0, .F, _, passes (List.all_eq_true.1 h p hp)⟩

theorem test_immediate_operand_pass : ∀ p ∈ immediateOperand, ∃ s n t w, Passes s n t w p.req := by
  have h : (immediateOperand.all fun p =>
      lets (fun _ _ _ _ => p.req) (demo []) (word p.opcode 0 3 (if p.opcode = 0x18 then 0 else 1) 0 0 5)) = true := by decide +kernel
  exact fun p hp => ⟨_, 0, .F, _, passes (List.all_eq_true.1 h p hp)⟩

theorem test_readers_pass :
    Lets ldihReq (demo []) (word 0x19 0 3 0 0 0 7) ∧ Lets rdidReq (demo []) (word 0x1B 0 3 0 0 0 3) ∧
    Lets flagrdReq (demo []) (word 0xE7 6 3 0 0 0 511) :=
  ⟨passes (by decide +kernel), passes (by decide +kernel), passes (by decide +kernel)⟩

/-- The descriptor registers of the demonstration stream. -/
def regs : Tab Desc :=
  [(1, matrix), (2, matrix), (3, matrix), (4, desc 0x01 [1, 4] [1] true), (5, desc 0x01 [2, 4] [1] true), (6, desc 0x20 [32, 4] [2] true),
   (7, desc 0x02 [32, 4] [1]), (8, desc 0x22 [32, 32] [1]), (9, { desc 0xF0 [] with rflag := some ⟨0, 0, 7, 0, false⟩ }),
   (10, desc 0x21 [5]), (11, desc 0x20 [8]), (12, desc 0x01 [8] [] true), (13, desc 0x20 [4]), (14, desc 0x01 [16] [] true),
   (15, desc 0x01 [32, 4, 4] [2, 8] true), (16, desc 0x01 [4, 32] [1] true), (20, desc 0x20 [16, 4] [1] true),
   (21, desc 0x01 [16, 4] [1] true), (22, desc 0x20 [4] [] true), (30, desc 0x01 [32]), (31, desc 0x01 [32] [] true),
   (32, desc 0x21 [8] [] true), (33, desc 0x01 [32] [] true), (35, desc 0x02 [32] [] true), (40, desc 0x01 [4, 4] [1]),
   (41, desc 0x01 [1]), (42, desc 0x01 [4, 4] [1] true), (43, desc 0x06 [4, 4] [2] true)]

def withDa (f : DenseArray → DenseArray) : State := (demo regs).modCore 0 fun c => { c with da := f c.da }

def withValley (f : Valley → Valley) : State := (demo regs).modVal 0 f

theorem test_dense_rows_pass : ∀ p ∈ denseRows, ∃ s n t w, ownWord p.ctor n t w = true ∧ Passes s n t w (p.req s n t w) :=
  rows_go (l := [(demo regs, word 0x40 1 0 1 0 0 0), (demo regs, word 0x41 1 0 1 0 0 0),
    (withDa fun d => { d with shadowOwner := some .F }, word 0x42 1 0 0 0 0 0),
    (withDa fun d => { d with statOwner := some .F, issStat := { fmt := 0x01 } }, word 0x43 1 0 1 0 0 (32 * 2 ^ 37)),
    (withDa fun d => { d with statOwner := some .F, issStat := { fmt := 0x02, compressed := true, pattern := 1 } },
      word 0x44 1 0 7 8 0 (128 * 2 ^ 37)),
    (demo regs, word 0x45 1 1 0 0 0 0), (demo regs, word 0x46 1 0 0 0 0 (512 * 2 ^ 34))]) (by decide +kernel)

theorem test_gather_merge_rows_pass : ∀ p ∈ gmeRows, ∃ s n t w, ownWord p.ctor n t w = true ∧ Passes s n t w (p.req s n t w) :=
  rows_go (l := [word 0x60 2 2 10 1 0 0, word 0x61 2 12 1 2 10 0, word 0x62 2 2 1 13 0 0, word 0x63 2 2 1 13 0 0, word 0x64 2 2 1 10 0 0,
    word 0x65 2 12 12 0 0 0, word 0x66 2 20 1 0 0 0, word 0x67 2 14 12 12 0 0, word 0x68 2 2 15 13 0 0, word 0x69 2 15 1 13 0 0,
    word 0x6A 2 16 1 0 0 0].map fun w => (demo regs, w)) (by decide +kernel)

theorem test_vector_rows_pass : ∀ p ∈ vectorRows, ∃ s n t w, ownWord p.ctor n t w = true ∧ Passes s n t w (p.req s n t w) :=
  rows_go (l := [word 0x80 3 3 1 2 0 0, word 0x81 3 3 1 2 0 0, word 0x82 3 3 1 2 0 0, word 0x83 3 3 1 2 0 0, word 0x84 3 3 1 2 0 0,
    word 0x85 3 3 1 2 3 0, word 0x86 3 3 1 0 0 0, word 0x87 3 3 1 0 0 0, word 0x88 3 3 1 0 0 0x40000000, word 0x89 3 3 1 0 0 0,
    word 0x8A 3 3 0 0 0 0, word 0x8B 3 3 1 2 3 0, word 0x90 3 4 1 0 0 0, word 0x91 3 4 1 0 0 0, word 0x92 3 4 1 0 0 0,
    word 0x93 3 4 1 0 0 0, word 0x98 3 5 1 0 0 0, word 0x99 3 3 1 5 0 0, word 0x9A 3 3 1 2 0 0, word 0xA0 3 3 1 0 0 (7 * 2 ^ 32),
    word 0xA1 3 3 1 0 0 0, word 0xA2 3 3 1 0 0 0, word 0xA5 3 0 1 0 0 0, word 0xA6 3 6 0 0 0 0].map fun w => (demo regs, w)) (by decide +kernel)

theorem test_update_rows_pass : ∀ p ∈ optRows, ∃ s n t w, ownWord p.ctor n t w = true ∧ Passes s n t w (p.req s n t w) :=
  rows_go (l := [word 0xA4 3 31 30 0 0 0, word 0xA4 3 42 40 0 0 (4 * 2 ^ 46 + 2 ^ 44)].map fun w => (demo regs, w)) (by decide +kernel)

theorem test_move_rows_pass : ∀ p ∈ moveRows, ∃ s n t w, ownWord p.ctor n t w = true ∧ Passes s n t w (p.req s n t w) :=
  rows_go (l := [(demo regs, word 0xC0 4 2 1 0 0 0), (demo regs, word 0xC1 4 0 0 0 0 0), (demo regs, word 0xD0 5 0 1 20 0 0),
    (withValley fun v => { v with homes := [{ core := 0, layer := 0, tag := 0, backward := false, epoch := 0 }] }, word 0xD1 5 2 20 0 0 0),
    (withValley fun v => { v with sets := [{ layer := 0, tag := 0, counts := [(0, 4)], pubFwd := true }] }, word 0xD2 5 0 1 0 0 0),
    (demo regs, word 0xD3 5 0 0 0 0 0)]) (by decide +kernel)

/-- The demonstration job with stream F of core 0 changed. -/
def withF (f : StreamCtx → StreamCtx) : State := (demo regs).modCtx 0 .F f

/-- The demonstration job with bytes in memory. -/
def withBytes (a : Nat) (l : List Byte) : State := { demo regs with mem := memPutAll [] a l }

/-- LDI, signalling a flag k at issue. -/
def signalling (k : Nat) : Word128 := word 0x18 0 3 0 0 0 (2 ^ 98 + k * 2 ^ 89)

/-- NOP, waiting until flag 0 is at least s1. -/
def waiting : Word128 := word 0xE0 6 0 0 0 0 (2 ^ 116 + 1 * 2 ^ 99)

/-- DA_SWAP, whose shadow another stream owns. -/
def swapWord : Word128 := word 0x42 1 0 0 0 0 0
def otherShadow : State := poised (withDa fun d => { d with shadowOwner := some .B }) swapWord

theorem test_wait_and_queue_hold :
    (let s := poised (demo regs) waiting
     ownWord .nop 0 .F waiting = true ∧ s.canIssue 0 .F waiting = true ∧ (s.core 0).waitHolds .F waiting = false) ∧
    (ownWord .daSwap 0 .F swapWord = true ∧ otherShadow.canIssue 0 .F swapWord = true ∧ (otherShadow.core 0).waitHolds .F swapWord = true ∧
      otherShadow.wordFree 0 .F swapWord = false) := by decide +kernel

/-- A stream whose line is neither in its buffer nor in the cache, with and without a prefetch of that line; and the later of two streams
of one core that could both go. -/
theorem test_fetch_and_order_hold :
    (∀ q ∈ [none, some ((1 : Byte), 0)],
      let s := poised (withF fun x => { x with fetchLine := none, prefetch := q }) (signalling 0)
      ownWord .ldi 0 .F (signalling 0) = true ∧ s.presents 0 .F (signalling 0) = true ∧ s.fetched 0 .F = false ∧
        (((s.core 0).ctx .F).prefetch = none ∨ ((s.core 0).ctx .F).prefetch.map (·.2) = s.fetchAddr 0 .F)) ∧
    (let s := (poised (demo regs) (signalling 0)).modCore 0 fun c => { c with b := demoStream [], order := [.B, .F, .U] }
     ownWord .ldi 0 .F (signalling 0) = true ∧ s.canIssue 0 .F (signalling 0) = true ∧ (s.core 0).waitHolds .F (signalling 0) = true ∧
       s.wordFree 0 .F (signalling 0) = true ∧ s.eligible 0 .B = true ∧
       Stream.B ∈ (s.core 0).order.takeWhile (fun v => v != .F)) := by decide +kernel

theorem test_wait_conditions :
    fWaitEn (word 0xE0 6 0 0 0 0 0) = false ∧ (fWaitEn waiting = true ∧ fWaitCond waiting = 0) ∧
    (let w := word 0xE0 6 0 0 0 0 (2 ^ 116 + 1 * 2 ^ 105); fWaitEn w = true ∧ fWaitCond w = 1) ∧
    (let w := word 0xE0 6 0 0 0 0 (2 ^ 116 + 2 * 2 ^ 105); fWaitEn w = true ∧ fWaitCond w = 2) := by decide

theorem test_issue_checks_met :
    assigned (fOpcode (word 0 0 0 0 0 0 0)) = false ∧
    (assigned 0x18 = true ∧ fEngine (word 0x18 6 3 0 0 0 0) ≠ (ldiReq (demo regs) 0 .F 0).form.engine) ∧
    offending (ldiReq (demo regs) 0 .F 0).form (word 0x18 0 3 1 0 0 0) [] = some 69 ∧
    (offending (ldiReq (demo regs) 0 .F 0).form (signalling 480) [] = none ∧ fSigEn (signalling 480) = true ∧ 480 ≤ fSigFlag (signalling 480)) ∧
    (offending (ldiReq (demo regs) 0 .F 0).form (signalling 479) [] = none ∧ fSigEn (signalling 479) = true ∧ fSigFlag (signalling 479) < 480) := by
  decide

/-- The conditions of an instruction that goes, its own checks apart. -/
def free1 (s : State) (w : Word128) : Bool :=
  s.canIssue 0 .F w && (s.core 0).waitHolds .F w && s.wordFree 0 .F w && s.goesFirst 0 .F

theorem test_failed_check_met :
    let w := word 0x28 0 0 1 0 0 0
    let s := poised (demo regs) w
    let r := loopReq s 0 .F w
    ownWord .loop 0 .F w = true ∧ free1 s w = true ∧
      (issueCheck ((s.core 0).ctx .F) w r.form r.reserved r.needs r.late).isSome = true := by decide +kernel

theorem test_unlisted_opcode_met :
    let w := word 0x0E 0 0 0 0 0 0
    assigned (fOpcode w) = false ∧ free1 (poised (demo regs) w) w = true := by decide +kernel

theorem test_another_word_met :
    assigned (fOpcode (word 0x01 0 3 1 2 0 0)) = true ∧ ownWord .nop 0 .F (word 0x01 0 3 1 2 0 0) = false ∧
      ownWord .veOpt 0 .F (word 0xA4 3 42 40 0 0 (2 ^ 44)) = false := by decide

/-- The innermost of two loops, whose last instruction is the stream's next one. -/
def inLoop : List LoopEntry :=
  [{ start := 1, stop := 2, remaining := 2, iter := 6, region := 1, frame := 0 }, { start := 0, stop := 9, remaining := 1, iter := 0, region := 1, frame := 0 }]

theorem test_loopidx_passes : Lets loopidxReq (withF fun x => { x with loops := inLoop }) (word 0x1A 0 3 0 0 0 1) := passes (by decide +kernel)

theorem test_scalar_frame_met :
    let w := word 0x01 0 3 1 2 0 0
    Lets (fun _ _ _ _ => (threeOperand.head (by decide)).req) (demo regs) w ∧ ∃ u, exec (.add 0 .F w) (poised (demo regs) w) = .next u :=
  ⟨passes (by decide +kernel), _, rfl⟩

theorem test_register_zero_met : needA 0 ∈ [needA 0] ∧ (needA 0).operand < 4 ∧ (needA 0).reg = 0 := by decide

/-! LDL at 64 into s8 and into s0; STL of s8 at 1,024; and the addresses at which their checks fail. -/

def ldlWord (dst imm : Nat) : Word128 := word 0x20 0 dst 0 0 0 imm
def stlWord (a imm : Nat) : Word128 := word 0x21 0 0 a 0 0 imm

theorem test_ldl_met : ∀ dst ∈ [0, 8, 56], let s := poised (demo regs) (ldlWord dst 64)
    Lets ldlReq (demo regs) (ldlWord dst 64) ∧ fDst (ldlWord dst 64) = dst ∧
    lineStop s 0 .read 64 (some dst) = none ∧ ((s.retire 0 .F).readLine 64 0).1.isSome = true := by
  have h : (∀ dst ∈ [0, 8, 56], let s := poised (demo regs) (ldlWord dst 64)
      lets ldlReq (demo regs) (ldlWord dst 64) = true ∧ fDst (ldlWord dst 64) = dst ∧
      lineStop s 0 .read 64 (some dst) = none ∧ ((s.retire 0 .F).readLine 64 0).1.isSome = true) := by decide +kernel
  exact fun d hd => ⟨passes (h d hd).1, (h d hd).2⟩

theorem test_stl_met : let s := poised (demo regs) (stlWord 8 1024)
    Lets stlReq (demo regs) (stlWord 8 1024) ∧ lineStop s 0 .write 1024 (some 8) = none ∧ s.liveAt 1024 = none ∧
    s.lineHeld 1024 = false ∧ s.memOk :=
  ⟨passes (by decide +kernel), by decide +kernel, by decide +kernel, by decide +kernel, show Memory.wf (poised (demo regs) (stlWord 8 1024)).mem = true by decide +kernel⟩

theorem test_line_checks_met :
    (1 % 64 ≠ 0 ∧ 9 % 8 ≠ 0 ∧ (2 ^ 48 : Nat) % 64 = 0 ∧ (2 ^ 48 : Nat) ≠ 2 ^ 48 % 2 ^ 48) ∧
    (demo regs).permits ((demo regs).core 0).regions .read 0x100000 = false ∧
    (demo regs).permits ((demo regs).core 0).regions .read 0xFFFC0 = true := by decide

theorem test_line_halts_met :
    (Lets ldlReq (demo regs) (ldlWord 8 1) ∧ (lineStop (poised (demo regs) (ldlWord 8 1)) 0 .read 1 (some 8)).isSome = true) ∧
    (let w := word 0x30 0 8 0 0 0 0x100000; Lets lddReq (demo regs) w ∧ (lineStop (poised (demo regs) w) 0 .read 0x100000 none).isSome = true) ∧
    (Lets stlReq (demo regs) (stlWord 9 1024) ∧ (lineStop (poised (demo regs) (stlWord 9 1024)) 0 .write 1024 (some 9)).isSome = true) ∧
    (let s := poised (demo regs) (stlWord 8 64)
     Lets stlReq (demo regs) (stlWord 8 64) ∧ lineStop s 0 .write 64 (some 8) = none ∧ (s.liveAt 64).isSome = true) :=
  ⟨⟨passes (by decide +kernel), by decide +kernel⟩, ⟨passes (by decide +kernel), by decide +kernel⟩,
    ⟨passes (by decide +kernel), by decide +kernel⟩, passes (by decide +kernel), by decide +kernel, by decide +kernel⟩

theorem test_control_flow_met :
    Lets loopReq (demo regs) (word 0x28 0 0 1 0 0 3) ∧
    (let s := withF fun x => { x with loops := inLoop }
     Lets endloopReq s (word 0x29 0 0 0 0 0 0) ∧ ((s.core 0).ctx .F).swap = none) ∧
    Lets callReq (demo regs) (word 0x2A 0 0 0 0 0 (2 * 2 ^ 32 + 15)) ∧
    Lets retReq (withF fun x => { x with calls := [{ region := 2, index := 7 }] }) (word 0x2B 0 0 0 0 0 0) ∧
    Lets jmpReq (demo regs) (word 0x2C 0 0 0 0 0 (2 ^ 32 - 2)) ∧
    (let w := word 0x29 0 0 0 0 0 0
     let s := withF fun x => { x with loops := inLoop, swap := some (1, 2) }
     Lets endloopReq s w ∧ ((s.core 0).ctx .F).swap = some (1, 2) ∧ fSigEn w = false) :=
  ⟨passes (by decide +kernel), ⟨passes (by decide +kernel), by decide⟩, passes (by decide +kernel), passes (by decide +kernel),
    passes (by decide +kernel), passes (by decide +kernel), by decide, by decide⟩

/-- The last index of region 1 is a target, the next one is none. -/
theorem test_jump_targets_met :
    ((demo regs).region? 1).map (·.lines) = some 4 ∧
    ∀ imm ∈ [13, 14], let w := word 0x2C 0 0 0 0 0 imm
      let s := poised (demo regs) w
      let r := jmpReq s 0 .F w
      ownWord .jmp 0 .F w = true ∧ free1 s w = true ∧
        issueCheck ((s.core 0).ctx .F) w r.form r.reserved r.needs none = none ∧ r.late.isSome = (imm == 14) := by decide +kernel

/-- The bytes of a descriptor of four FP32 elements in the scratchpad of core 0. -/
def descBytes : List Byte :=
  leBytes 6 (spadBase 0) ++ leBytes 1 0x01 ++ leBytes 1 1 ++ leBytes 2 1 ++ leBytes 6 0 ++ leBytes 4 4

theorem test_ldd_met :
    let w := word 0x30 0 8 0 0 0 1024
    let s := poised (withBytes 1024 descBytes) w
    lets lddReq (withBytes 1024 descBytes) w = true ∧ lineStop s 0 .read 1024 none = none ∧
      (match scalarRead (s.retire 0 .F) 0 1024 with
       | .ok (l, u) => (lineStop u 0 .read 1088 none).isNone &&
          (match scalarRead u 0 1088 with
           | .ok (m, v) => (v.validate 8 (parseDesc (l ++ m))).isNone && ((parseDesc (l ++ m)).size.getD 0 0 == 4)
           | .error _ => false)
       | .error _ => false) = true := by decide +kernel

theorem test_descriptor_instructions_met :
    Lets movdReq (demo regs) (word 0x31 0 63 1 0 0 0) ∧
    (let w := word 0x32 0 50 1 2 0 0
     Lets dbaseReq (demo regs) w ∧ (((demo regs).core 0).ctx .F).dreg 1 = some matrix ∧
       movedBase matrix.base ((demo regs).sreg 0 .F 2) = some (matrix.base + 192) ∧
       ((poised (demo regs) w).retire 0 .F).validate 50 { matrix with base := matrix.base + 192 } = none) ∧
    (let w := word 0x33 0 50 1 2 0 (2 ^ 32)
     Lets dsizeReq (demo regs) w ∧
       ((poised (demo regs) w).retire 0 .F).validate 50 { matrix with size := matrix.size.set 1 3 } = none) ∧
    Lets dclrReq (demo regs) (word 0x34 0 1 0 0 0 0) ∧
    (let w := word 0x33 0 1 1 2 0 0
     let s := (demo regs).setSreg 0 .F 2 0xFFFFFFFF
     Lets dsizeReq s w ∧ (((poised s w).retire 0 .F).validate 1 { matrix with size := matrix.size.set 0 0xFFFFFFFF }).isSome = true) :=
  ⟨passes (by decide +kernel), ⟨passes (by decide +kernel), by decide, by decide, by decide +kernel⟩,
    ⟨passes (by decide +kernel), by decide +kernel⟩, passes (by decide +kernel), passes (by decide +kernel), by decide +kernel⟩

/-- A base that leaves the address space, one whose lines leave the allocation, and the two lines of no descriptor. -/
theorem test_descriptor_faults_met :
    (∀ x ∈ [(2 ^ 63, false), (16384, true)],
      let s := (demo regs).setSreg 0 .F 2 (BitVec.ofNat 64 x.1)
      let w := word 0x32 0 50 1 2 0 0
      lets dbaseReq s w = true ∧ ((s.core 0).ctx .F).dreg 1 = some matrix ∧
        (match movedBase matrix.base (s.sreg 0 .F 2) with
         | none => !x.2
         | some b => x.2 && (((poised s w).retire 0 .F).validate 50 { matrix with base := b }).isSome) = true) ∧
    (let w := word 0x30 0 8 0 0 0 1024
     let s := poised (demo regs) w
     lets lddReq (demo regs) w = true ∧ lineStop s 0 .read 1024 none = none ∧
      (match scalarRead (s.retire 0 .F) 0 1024 with
       | .ok (l, u) => (lineStop u 0 .read 1088 none).isNone &&
          (match scalarRead u 0 1088 with
           | .ok (m, v) => (v.validate 8 (parseDesc (l ++ m))).isSome
           | .error _ => false)
       | .error _ => false) = true) := by decide +kernel

/-- An ENDLOOP with a swap pending and a signal of its own, at the last pass of its loop and at one before. -/
theorem test_swap_at_endloop_met : let w := word 0x29 0 0 0 0 0 (2 ^ 98 + 5 * 2 ^ 89)
    (let s := withF fun x => { x with loops := [{ start := 1, stop := 2, remaining := 1, iter := 6, region := 1, frame := 0 }], swap := some (1, 2) }
     lets endloopReq s w = true ∧ ((s.core 0).ctx .F).swap = some (1, 2)) ∧
    (let s := withF fun x => { x with loops := inLoop, swap := some (1, 2) }
     lets endloopReq s w = true ∧ ((s.core 0).ctx .F).swap = some (1, 2)) ∧ fSigEn w = true ∧ fSigFlag w = 5 := by decide +kernel

theorem test_sync_met :
    Lets nopReq (demo regs) (word 0xE0 6 0 0 0 0 0) ∧ Lets waitOpReq (demo regs) (word 0xE1 6 0 0 0 0 0) ∧
    (∀ a ∈ [0, 9], Lets signalReq (demo regs) (word 0xE2 6 0 a 0 0 (2 ^ 98))) ∧
    Lets testwinReq (demo regs) (word 0xE4 6 0 0 0 0 0) ∧
    Lets codeswapReq (demo regs) (word 0xE5 6 0 0 0 0 (2 ^ 40 + 2 * 2 ^ 48)) ∧
    Lets haltOpReq (demo regs) (word 0xE6 6 0 0 0 0 77) ∧
    (∀ k : Fin 3, Lets barrierReq ((demo regs).setBarrier k 0 15 { declared := true, parts := [(0, .F)] })
      (word 0xE3 6 0 0 0 0 (15 * 2 ^ 32 + k * 2 ^ 38))) := by
  refine ⟨passes (by decide +kernel), passes (by decide +kernel), ?_, passes (by decide +kernel), passes (by decide +kernel),
    passes (by decide +kernel), ?_⟩
  · have h : (∀ a ∈ [0, 9], lets signalReq (demo regs) (word 0xE2 6 0 a 0 0 (2 ^ 98)) = true) := by decide +kernel
    exact fun a ha => passes (h a ha)
  · have h : (∀ k : Fin 3, lets barrierReq ((demo regs).setBarrier k 0 15 { declared := true, parts := [(0, .F)] })
      (word 0xE3 6 0 0 0 0 (15 * 2 ^ 32 + k * 2 ^ 38)) = true) := by decide +kernel
    exact fun k => passes (h k)

/-- The demonstration job with the halt record of core 0 changed. -/
def withHalt (h : HaltRec) : State := (demo regs).modCore 0 fun c => { c with halt := h }

theorem test_halt_record_met :
    ((demo regs).core 0).halt.halted = false ∧
    (let c := (withHalt { halted := true, draining := true, secondary := 0xFFFFFFFF }).core 0; c.halt.halted = true ∧ c.halt.draining = true) ∧
    (let c := (withHalt { halted := true }).core 0; c.halt.halted = true ∧ c.halt.draining = false) := by decide

/-- A loaded core, and one that the loaded image leaves inactive. -/
theorem test_increment_met : (demo regs).roleHeld 0 = false ∧ (demo regs).roleHeld 2047 = false ∧
    ¬ ((demo regs).image.loaded = true ∧ ((demo regs).core 0).active = false) ∧
    ((demo regs).image.loaded = true ∧ ((demo regs).core 2047).active = false) := by decide

/-! ### Engines, DMA and expert traffic -/

/-- An instruction of stream F of core 0 that stands in an engine, with the descriptors it names. -/
def op (w : Word128) (names : List Nat) : EngOp := (demo regs).engOp 0 .F w names

def ended {α : Type} (r : Except Stop α × State) : Bool := match r.1 with | .ok _ => true | .error _ => false

/-- The state without the regions of core 0, in which no access is permitted. -/
def shut (s : State) : State := s.modCore 0 fun c => { c with regions := [] }

def daOps : List EngOp :=
  [op (word 0x42 1 0 0 0 0 0) [], op (word 0x41 1 0 1 0 0 0) [1], op (word 0x46 1 0 0 0 0 (2 ^ 34)) [], op (word 0x45 1 4 0 0 0 0) [4]]

theorem test_dense_begin_met : ∀ o ∈ daOps, let s := withDa fun d => { d with queue := [o] }
    (s.core 0).da.queue = [o] ∧ (s.core 0).da.mayBegin o = true := by decide

theorem test_dense_units : daOps.map daUnitOf = [none, some .fill, some .stream, some .drain] := by decide

theorem test_dense_end_met : ∀ x ∈ [(DaUnit.fill, op (word 0x41 1 0 1 0 0 0) [1]), (.stream, op (word 0x46 1 0 0 0 0 (2 ^ 34)) []),
      (.drain, op (word 0x45 1 4 0 0 0 0) [4])],
    let s := withDa fun d => { d with running := [x] }
    ((s.core 0).da.running.find? fun y => y.1 == x.1) = some x ∧ ended ((daCompute 0 x.2).run s) = true := by decide +kernel

theorem test_dense_fault_met :
    let x := (DaUnit.drain, op (word 0x45 1 4 0 0 0 0) [4])
    let s := shut (withDa fun d => { d with running := [x], drained := [List.replicate 128 0] })
    ((s.core 0).da.running.find? fun y => y.1 == DaUnit.drain) = some x ∧ ended ((daCompute 0 x.2).run s) = false ∧
      (((daCompute 0 x.2).run s).2.core 0).halt.halted = false := by decide +kernel

/-- The state in which core 0 is in reset, its scratchpad held. -/
def held (s : State) : State := { s with coreReset := [0] }

/-- The work stops at a read that is held, and is still to do. -/
def waitsOn {α : Type} (r : Except Stop α × State) : Bool := match r.1 with | .ok _ => false | .error st => st.waits

/-- Work that meets a held read: a fill, a cut and a transposition at their begins, and an operation of the vector engine. -/
theorem test_held_work_met :
    waitsOn ((daCompute 0 (op (word 0x41 1 0 1 0 0 0) [1])).run (held (demo regs))) = true ∧
    waitsOn ((beginCut 0 (op (word 0x60 2 2 10 1 0 0) [10, 11, 12, 1, 2])).run (held (demo regs))) = true ∧
    waitsOn ((veRun 0 (op (word 0x86 3 3 1 0 0 0) [3, 1])).run (held (demo regs))) = true := by decide +kernel

/-- A drain that may begin, over rows that pass their code and over one that does not. -/
theorem test_drain_begin_met : ∀ bad ∈ [false, true],
    let o := op (word 0x45 1 4 0 0 0 0) [4]
    let s := withDa fun d => { d with queue := [o], accErr := if bad then [(0, [0, 1])] else [] }
    let u := s.modCore 0 fun c => { c with da := { c.da with queue := [], running := c.da.running ++ [(.drain, o)] } }
    (s.core 0).da.queue = [o] ∧ (s.core 0).da.mayBegin o = true ∧ daUnitOf o = some .drain ∧
      ended ((beginDrain 0 o).run u) = !bad ∧ (((beginDrain 0 o).run u).2.core 0).halt.halted = false := by decide +kernel

def withGme (f : Gme → Gme) : State := (demo regs).modCore 0 fun c => { c with gme := f c.gme }

def spmm : EngOp := op (word 0x60 2 2 10 1 0 0) [10, 11, 12, 1, 2]

def yealm (row ordinal : Nat) : Yealm :=
  { row := row, firstEntry := 0, firstChunk := 0, chunks := 1, ordinal := ordinal, last := true, entries := [(0, 0)], number := 0 }

theorem test_gme_begin_met : ∀ o ∈ [spmm, op (word 0x61 2 12 1 2 10 0) [12, 1, 2, 10, 11], op (word 0x6A 2 16 1 0 0 0) [16, 1],
      op (word 0x65 2 12 12 0 0 0) [12]],
    let s := withGme fun g => { g with queue := [o] }
    (s.core 0).gme.run = none ∧ (s.core 0).gme.queue = [o] := by decide

/-- A cut whose reads succeed, and one whose core may not read; a transposition onto its source, and one beside it. -/
theorem test_gme_work_met :
    ended ((beginCut 0 spmm).run (demo regs)) = true ∧
    (ended ((beginCut 0 spmm).run (shut (demo regs))) = false ∧ waitsOn ((beginCut 0 spmm).run (shut (demo regs))) = false) ∧
    ended ((beginTranspose (op (word 0x6A 2 16 1 0 0 0) [16, 1])).run (demo regs)) = false ∧
    ended ((beginTranspose { op (word 0x6A 2 16 1 0 0 0) [] with
      descs := [(16, { desc 0x01 [4, 32] [1] true with base := spadBase 0 + 4096 }), (1, matrix)] }).run (demo regs)) = true := by decide +kernel

/-- A yealm in the lane itself; one in the last lane, which the first lane takes; and a deferred sum whose row has finished
before it. -/
theorem test_yealms_met :
    (let s := withGme fun g => { g with run := some spmm, lanes := [(31, [yealm 0 0])] }
     (s.core 0).gme.run = some spmm ∧ (s.core 0).gme.ownYealm spmm 31 = some (yealm 0 0) ∧ (s.core 0).gme.ownYealm spmm 0 = none ∧
       (s.core 0).gme.stolen spmm 0 = some (31, yealm 0 0)) ∧
    (let d : Deferred := { row := 3, ordinal := 1, slots := 1, vectors := [] }
     let s := withGme fun g => { g with run := some spmm, finished := [(3, 1)], deferred := [d] }
     ((s.core 0).gme.deferred.find? fun d => d.row == 3 && d.ordinal == (s.core 0).gme.finishedFor 3) = some d) := by decide

theorem test_gme_end_met :
    let s := withGme fun g => { g with run := some spmm }
    (s.core 0).gme.run = some spmm ∧ (s.core 0).gme.drained = true ∧ ended ((gmeCompute 0 spmm).run s) = true := by decide +kernel

def fill1 : EngOp := op (word 0x8A 3 4 0 0 0 0x3F800000) [4]

theorem test_vector_end_met :
    let s := (demo regs).modCore 0 fun c => { c with ve := [fill1] }
    ((s.core 0).ve = [fill1] ∧ ended ((veRun 0 fill1).run s) = true) ∧
    (((shut s).core 0).ve = [fill1] ∧ ended ((veRun 0 fill1).run (shut s)) = false ∧
      (((veRun 0 fill1).run (shut s)).2.core 0).halt.halted = false) := by decide +kernel

/-- An arrival of an engine behind another engine's, which is on its path or not. -/
theorem test_arrival_met : ∀ path ∈ [true, false],
    let p : PendArrive := { eng := .ve, core := 0, flag := 479, amount := 2, onPath := true }
    let s := (demo regs).modCore 0 fun c => { c with arrives := [{ p with eng := .da, onPath := path }, p] }
    ((s.core 0).arrives.findIdx? fun p => p.eng == .ve) = some 1 ∧ (s.core 0).arrives[1]? = some p ∧ s.roleHeld p.core = false ∧
      ((s.core 0).arrives.take 1).all (fun q => !(p.onPath && q.onPath && q.core == p.core)) = !path := by decide

theorem test_signal_moments_met : (demo regs).roleHeld 0 = false ∧ (∀ w ∈ [0, 1, 2], ({ en := true, flag := 3, when_ := w, amount := 1 } : Sig).en = true) ∧
    onScratchpad (some matrix) = true ∧ onScratchpad (some { matrix with base := 0 }) = false := by decide

def start : EngOp := op (word 0xC0 4 2 1 0 0 0) [2, 1]
def stop : EngOp := op (word 0xC1 4 0 0 0 0 0) []

def withChan (f : DmaChan → DmaChan) : State := (demo regs).modChan 0 0 f
def withDma (l : List EngOp) : State := (demo regs).modCore 0 fun c => { c with dma := l }

theorem test_dma_admit_met :
    (((withDma [start]).core 0).dma = [start] ∧ opCode start.w ≠ 0xC1 ∧ ((withDma [start]).chan 0 (opChan start)).queue.length < Config.channelDepth) ∧
    (let s := (withDma [start]).modChan 0 0 fun x => { x with queue := List.replicate 8 start }
     (s.core 0).dma = [start] ∧ ¬ (s.chan 0 (opChan start)).queue.length < Config.channelDepth) ∧
    (((withDma [stop]).core 0).dma = [stop] ∧ opCode stop.w = 0xC1) := by decide

/-- A channel whose transfer may begin, and one whose transfer overlaps live code. -/
theorem test_transfer_begin_met :
    (let s := withChan fun x => { x with queue := [start] }
     let m := dmaMove start.w start.a start.dst
     (s.chan 0 0).queue = [start] ∧ (s.chan 0 0).cur = none ∧ (s.chan 0 0).stops = [] ∧ s.cqSlot 0 0 = true ∧
       m.beginStop s (fBits start.w 35 1 == 1) (fDst start.w) (fA start.w) = none ∧ m.src.remote = false ∧ m.dst.remote = false) ∧
    (let o : EngOp := { start with descs := [(1, matrix), (2, { matrix with base := 0 })] }
     let s := withChan fun x => { x with queue := [o] }
     (s.chan 0 0).queue = [o] ∧ s.cqSlot 0 0 = true ∧
       ((dmaMove o.w o.a o.dst).beginStop s (fBits o.w 35 1 == 1) (fDst o.w) (fA o.w)).isSome = true) := by decide +kernel

/-- A destination in another module. -/
def far : Desc := { matrix with remote := true, module := 1 }

/-- Transfers from another module and to one that may begin. -/
theorem test_far_transfers_met : ∀ x ∈ [(far, matrix), (matrix, far)],
    let o : EngOp := { start with descs := [(1, x.1), (2, x.2)] }
    let s := withChan fun y => { y with queue := [o] }
    let m := dmaMove o.w o.a o.dst
    (s.chan 0 0).queue = [o] ∧ s.cqSlot 0 0 = true ∧ m.beginStop s (fBits o.w 35 1 == 1) (fDst o.w) (fA o.w) = none ∧
      (m.src.remote || m.dst.remote) = true := by decide +kernel

/-- A local transfer whose source line is held, and one whose is not; one from another module with lines to come; and one to another module
with barrier 1 whose lines are all answered. -/
theorem test_waiting_records_met :
    (let s := withChan fun x => { x with cur := some { op := start } }
     s.moveHeld 0 (dmaMove start.w start.a start.dst) = false ∧ (held s).moveHeld 0 (dmaMove start.w start.a start.dst) = true) ∧
    (let o : EngOp := { start with descs := [(1, far), (2, matrix)] }
     let x : Xfer := { op := o, pending := 1 }
     x.op.dst.remote = false ∧ x.op.a.remote = true ∧ x.pending ≠ 0 ∧ x.todo = []) ∧
    (let o : EngOp := { start with w := word 0xC0 4 2 1 0 0 (2 ^ 34), descs := [(1, matrix), (2, far)] }
     let x : Xfer := { op := o }
     x.op.dst.remote = true ∧ fBits o.w 34 1 = 1 ∧ x.pending = 0 ∧ x.todo = []) := by decide +kernel

/-- A transfer under way, local, and to another module with barrier 0, and with barrier 1 and lines unanswered; a stop that is owed; and
a core without signals of a channel's flag. -/
theorem test_records_met :
    (let s := withChan fun x => { x with cur := some { op := start } }
     (s.chan 0 0).cur = some { op := start } ∧ start.dst.remote = false ∧ start.a.remote = false) ∧
    (∀ b ∈ [0, 1], let o : EngOp := { start with w := word 0xC0 4 2 1 0 0 (b * 2 ^ 34), descs := [(1, matrix), (2, far)] }
     let s := withChan fun x => { x with cur := some { op := o, pending := 1 } }
     (s.chan 0 0).cur = some { op := o, pending := 1 } ∧ o.dst.remote = true ∧ o.a.remote = false ∧ fBits o.w 34 1 = b) ∧
    (let s := withChan fun x => { x with stops := [{ cause := some stop, next := none }] }
     (s.chan 0 0).stops = [{ cause := some stop, next := none }] ∧ (s.chan 0 0).cur = none ∧ s.cqSlot 0 0 = true) ∧
    ((demo regs).roleHeld 0 = false ∧ (∀ p ∈ ((demo regs).core 0).arrives, p.flag ≠ 480) ∧
      (∀ g ∈ ((demo regs).core 0).outSignals, g.flag ≠ 480)) := by decide

def row (epoch : Byte) : ValRow :=
  { tag := 0, epoch := epoch, layer := 0, bitmap := 1, backward := false, count := 1, token := 0, sender := 0, ids := [0], gates := [0], data := [] }
def header : CountHdr := { backward := false, rows := 1, sender := 0, layer := 0, epoch := 0, tag := 0 }
def returned : RetRow := { tag := 0, epoch := 0, layer := 0, backward := false, token := 0, pos := 0, sender := 0, data := [] }

/-- Messages that stand on no path are taken as they come; and one that stands on the module's own path is taken off it. -/
theorem test_taken_met :
    (demo []).takeVal (.row 0 (row 0)) = some (demo []) ∧ (demo []).takeVal (.count 0 header) = some (demo []) ∧
    (demo []).takeVal (.back 0 returned) = some (demo []) ∧ (demo []).takeVal (.backCount 0 header 0 0) = some (demo []) ∧
    (demo []).takeVal (.cancel 0 255 1) = some (demo []) ∧ (demo []).takeVal (.notice 1 0 0 false) = some (demo []) ∧
    ({ demo [] with valPath := [{ source := 0, msg := .row 0 (row 0) }] } : State).takeVal (.row 0 (row 0)) = some (demo []) := by decide +kernel

/-- Rows of the current epoch, and of the oldest and the newest that are not. -/
theorem test_expert_rows_met :
    ((demo []).layer? 0).isSome = true ∧
    (((demo []).epochRule 0 0 0xFF).2 = false ∧ ((demo []).epochRule 0 0 0x81).2 = false ∧ ((demo []).epochRule 0 0 0x80).2 = true) ∧
    (demo []).epochRule 0 0 0 = (demo [], true) ∧
    ((demo []).layer? 0).map (fun l => (rowTargets (demo []) l (row 0)).map fun x => (x.1, x.2.course)) = some [(0, 0)] ∧
    (demo []).setHeld 0 0 2 0 = false ∧ (demo []).setHeld 1 0 2 0 = false ∧
    ((withValley fun v => { v with sets := [{ layer := 0, tag := 0 }] }).set? 0 0 0).isSome = true ∧
    (((demo []).valley 0).homes.find? fun h => h.core == 0 && h.layer == 0 && h.tag == 0 && h.backward == false) = none ∧
    128 ≤ (tget ((demo []).valley 0).epochs 255 0 - (0x80 : Byte)).toNat ∧ ¬ 128 ≤ (tget ((demo []).valley 0).epochs 255 0 - (0x81 : Byte)).toNat ∧
    ((demo []).layer? 0).map (fun l => layerSlots (demo []) l 1) = some [] := by decide +kernel

/-- The module whose dispatch group has some members. -/
def members (l : List (ModAddr × Nat)) : State :=
  let s := demo []
  { s with image := { s.image with bodies := { s.image.bodies with groups := [(0, l)] } } }

/-- A message of the current epoch; the only member's header, and that of one of two; and a line that the Valley engine's regions grant
it or not (which line a return row takes is the placement's, a value of Config). -/
theorem test_expert_traffic_met :
    (∀ m ∈ [ValMsg.row 0 (row 0), .count 0 header, .back 0 returned, .backCount 0 header 0 0],
      (demo []).takeVal m = some (demo []) ∧ tget ((demo []).valley 0).epochs (blockOf 0) 0 = 0) ∧
    ((demo []).layer? 0).map (fun l => (rowTargets (demo []) l (row 0)).map fun x => x.2.course) = some [0] ∧
    (∀ x ∈ [([((0 : ModAddr), 0)], true), ([(0, 0), (0, 1)], false)], let s := members x.1
      (s.layer? 0).map (fun l =>
        (List.range (layerMembers s l).length).all fun i => (insertNat header.sender (countSenders s 0 header)).contains i) = some x.2) ∧
    (let h : HomeRec := { core := 0, layer := 0, tag := 0, backward := false, epoch := 0 }
     (([h] : List HomeRec).find? fun h => h.is 0 0 0 false 0) = some h ∧ ((demo []).valley 0).homes = []) ∧
    (∀ x ∈ [true, false], let s := (demo []).modCourse 0 fun c => { c with valRegions := if x then demoRegions else [] }
      (s.valPut 0 (spadBase 0) 1 (List.replicate 64 0)).2 = x) := by decide +kernel

/-- A row on its way back; a set whose rows have been read, with nothing held of it; and a home record that a return names. -/
theorem test_expert_events_met :
    ((demo []).layer? 0).map (fun l => (rowTargets (demo []) l { row 0 with backward := true }).map fun x => (x.1, x.2.course)) = some [(0, 0)] ∧
    (let s := withValley fun v => { v with sets := [{ layer := 0, tag := 0 }] }
     s.takeVal (.notice 0 0 0 true) = some s ∧ (s.set? 0 0 0).isSome = true ∧
       (s.layer? 0).map (fun l => s.landedHeld l 0 0 0) = some false) ∧
    (let h : HomeRec := { core := 0, layer := 0, tag := 0, backward := false, epoch := 0 }
     let s := withValley fun v => { v with homes := [h] }
     ((s.layer? 0).map fun l => ((layerMembers s l).getD 0 (0, 0)).2) = some 0 ∧
       ((s.valley 0).homes.find? fun h => h.is 0 0 0 false 0) = some h ∧ s.takeVal (.back 0 returned) = some s) := by decide +kernel

def combine : EngOp := { op (word 0xD1 5 2 20 0 0 0) [2, 20, 21, 22] with epochs := [0] }

/-- A combine whose returns are complete, or not yet; and one whose tag was cancelled since its issue. -/
theorem test_combine_met :
    (∀ done : Bool,
      let h : HomeRec := { core := 0, layer := 0, tag := 0, backward := false, epoch := 0, complete := done }
      let s := (withValley fun v => { v with homes := [h] }).modCore 0 fun c => { c with val := [combine] }
      (s.core 0).val = [combine] ∧ opCode combine.w = 0xD1 ∧ combine.begun = false ∧ s.epochOf (courseOf 0) (immTag combine.w) = 0 ∧
        s.home? 0 combine.w = some h ∧ h.complete = done ∧
        (s.layer? (immLayer combine.w)).any (fun l => ended ((runCombine 0 combine l h).run s)) = true) ∧
    (let s := (withValley fun v => { v with epochs := [(0, 1)] }).modCore 0 fun c => { c with val := [combine] }
     (s.core 0).val = [combine] ∧ s.epochOf (courseOf 0) (immTag combine.w) ≠ combine.epochs.headD 0 ∧ (s.core 0).halt.halted = false) := by
  decide +kernel

/-! ### Halts, the cache, the gate, barriers -/

theorem test_draining_met :
    (let s := withHalt { halted := true, draining := true }; (s.core 0).halt.draining = true ∧ (s.core 0).drained = true) ∧
    (let s := (withHalt { halted := true, draining := true }).modCore 0 fun c => { c with ve := [fill1] }
     (s.core 0).halt.draining = true ∧ (s.core 0).drained = false) := by decide

/-- The only core at work drains, and one of two. -/
theorem test_last_drained_met : ∀ b : Bool,
    let s := withHalt { halted := true, draining := true }
    let s := if b then s else s.modCore 1 fun c => { c with active := true, f := demoStream [] }
    s.job.state = .running ∧ (match exec (.haltDrainComplete 0) s with | .next t => t.cores.all fun x => x.2.finished | _ => !b) = b := by decide +kernel

/-- A demanded line in the cache, in the course's code cache, in memory with and without a fault, and one that the core may not read; the
last line of a region; a line whose prefetch is under way, and that prefetch's end. -/
theorem test_fetch_met :
    let s := demo []
    let x := (s.core 0).ctx .F
    (s.region? x.pcRegion.toNat = some { base := 0, lines := 4 } ∧ x.hasEntry = true ∧ (s.core 0).halt.halted = false ∧ x.pcIndex.toNat / 4 < 4 ∧
      x.prefetch = none ∧ s.permits (s.core 0).regions .code 0 = true ∧ (s.lineRead 0).data.isSome = true) ∧
    ((s.modCore 0 fun c => c.cachePut 1 0).core 0).cacheHit 1 0 = true ∧
    ((s.core 0).cacheHit 1 0 = false ∧ ((s.modCourse 0 fun c => { c with codeCache := [0] }).course 0).codeCache.contains 0 = true) ∧
    (let u := { s with memErr := [(0, [0, 16])] }; (u.lineRead 0).data = none ∧ (u.core 0).cacheHit 1 0 = false) ∧
    (let u := shut ((demo []).modCtx 0 .F fun x => { x with pcIndex := 15 })
     ((u.core 0).ctx .F).pcIndex.toNat / 4 < 4 ∧ u.permits (u.core 0).regions .code 192 = false) ∧
    (let u := ((demo []).modCore 0 fun c => c.cachePut 1 0).modCtx 0 .F fun x => { x with prefetch := some (1, 0) }
     ((u.core 0).ctx .F).prefetch = some (1, 0) ∧ ((u.core 0).ctx .F).adrift = [] ∧ (u.core 0).cacheHit 1 0 = true) := by decide +kernel

/-- A watchdog that has reached its period, and one cycle below it. -/
theorem test_watchdog_met : ∀ n ∈ [2 ^ 32, 2 ^ 32 - 1],
    let s := poised (withF fun x => { x with wdog := n }) waiting
    s.waitsOn 0 .F = some waiting ∧ (s.core 0).halt.halted = false ∧ s.barksFirst 0 .F = false ∧
      decide (2 ^ (s.core 0).wdogLog2.toNat ≤ ((s.core 0).ctx .F).wdog) = (n == 2 ^ 32) := by decide +kernel

theorem test_gate_met :
    let s := poised (demo regs) waiting
    ((s.core 0).gated = false ∧ (s.core 0).quiet = true ∧ (∀ t ∈ allStreams, s.streamQuiet 0 t = true)) ∧
    (((withDma [stop]).core 0).quiet = false) := by decide +kernel

def arrival (round : Nat) : Arrival :=
  { level := 0, course := 0, barrier := 63, core := 0, stream := .F, round := round, region := 1, index := 2 }

/-- An arrival of the open generation, of the next one past the wrap, and of one that is neither. -/
theorem test_arrivals_met : ∀ round ∈ [3, 0, 1],
    let s := { (demo []).setBarrier 0 0 63 { declared := true, gen := 3, parts := [(0, .F)] } with arrivals := [arrival round] }
    let b := s.barrier 0 0 63
    s.arrivals[0]? = some (arrival round) ∧
      ((s.arrivals.take 0).any fun x => x.core == (arrival round).core && x.stream == (arrival round).stream) = false ∧
      (if round = 3 then round = b.gen else if round = 0 then round ≠ b.gen ∧ round = (b.gen + 1) % 4
       else round ≠ b.gen ∧ round ≠ (b.gen + 1) % 4 ∧ (s.core (arrival round).core).halt.halted = false) := by decide

theorem test_fabric_barrier_met :
    let b : Barrier := { declared := true, gen := 3, parts := [(0, .F)], members := [0, 1], localDone := true }
    let s := (demo []).setBarrier 2 0 15 b
    s.takeOperand 0x13 1 (15 + 3 * 16) = some s ∧ s.takeOperand 0x14 0 (15 + 3 * 16) = some s ∧ s.barrier 2 0 15 = b ∧
      b.declared = true ∧ b.root = s.fabric.coord ∧ b.localDone = true ∧ b.gen = (3 : BitVec 2).toNat := by decide +kernel

theorem test_step_met :
    let b : Barrier := { declared := true, parts := [(0, .F)], arrived := 1 }
    let s := (demo []).setBarrier 0 63 0 b
    s.image.loaded = true ∧ (s.barrier 0 63 s.image.bodies.stepBarrier) = b ∧ b.declared = true ∧ b.parts ≠ [] ∧ b.arrived = b.parts.length := by decide

/-! ### The fabric -/

def frame (type : BitVec 5) (vc : BitVec 3) (operand : BitVec 37 := 0) (payload : List Byte := []) : Frame :=
  { dst := 0, src := 1, vc := vc, type := type, operand := operand, payload := payload }

def withPort (p : Nat) (f : Port → Port) : State := (demo []).modPort p fun x => f { x with regions := demoRegions }

/-- The first increment of a core's queue, which leaves, and one behind another of its path, or of another path. -/
theorem test_outbound_met : ∀ vc ∈ [0, 1],
    let g : OutSignal := { module := 0, core := 2047, flag := 479, vc := 0, amount := 7 }
    let s := (demo []).modCore 0 fun c => { c with outSignals := [{ g with vc := vc }, g] }
    (s.core 0).outSignals[1]? = some g ∧ ((s.core 0).outSignals.take 1).any g.samePath = (vc == 0) ∧ g.module = s.fabric.coord ∧
      s.roleHeld g.core = false ∧ ∀ p ∈ (s.core 0).arrives, p.onPath = false := by decide +kernel

/-- The first increment of a core's queue, to another module. -/
theorem test_outbound_far_met :
    let g : OutSignal := { module := 3, core := 2047, flag := 479, vc := 0, amount := 7 }
    let s := (demo []).modCore 0 fun c => { c with outSignals := [g] }
    (s.core 0).outSignals[0]? = some g ∧ ((s.core 0).outSignals.take 0).any g.samePath = false ∧ g.module ≠ s.fabric.coord := by decide +kernel

/-- The operand of a frame that names core 2047 and a flag, and that of one that names the line at 1,024. -/
def atFlag (k : Nat) : BitVec 37 := BitVec.ofNat 37 (2047 + k * 2 ^ 11)
def atLine : BitVec 37 := 16

theorem test_remote_requests_met :
    (∀ k ∈ [479, 480, 511], let f := frame 0x04 0 (atFlag k) (leBytes 8 9)
     let s := withPort 7 fun x => { x with inbox := [f] }
     f.type = 0x04 ∧ (s.takeFrame 7 f).isSome = true ∧ s.roleHeld (fOp f 0 11) = false ∧ fOp f 11 9 = k) ∧
    (∀ t ∈ [1, 2], let f := frame (BitVec.ofNat 5 t) 0 atLine (List.replicate 512 1)
     let s := withPort 7 fun x => { x with inbox := [f] }
     (match s.takeFrame 7 f with
      | some u => frameLines f == some 8 && countOf (writeRemote 7 u (frameAddr f) (toLines 8 f.payload)).2 0x0A == 0 &&
         countOf (writeRemote 7 u (frameAddr f) (toLines 8 f.payload)).2 0x0C == 0
      | none => false) = true) ∧
    (let f := frame 0x01 0 0x4000 (List.replicate 64 1)
     (demo []).takeFrame 7 f = some (demo []) ∧ frameLines f = some 1 ∧ (demo []).permits ((demo []).port 7).regions .write (frameAddr f) = false) ∧
    ((withPort 7 id).permits ((withPort 7 id).port 7).regions .write 1024 = true ∧ (demo []).liveAt 1024 = none) := by decide +kernel

/-- A read of two lines that may be read, of ones that may not, and of ones in a core under reset. -/
theorem test_read_requests_met :
    let f := frame 0x05 1 atLine (leBytes 8 1)
    let g := frame 0x05 1 (BitVec.ofNat 37 (2 ^ 36)) (leBytes 8 1)
    (withPort 7 id).takeFrame 7 f = some (withPort 7 id) ∧ requestLines f = [1024, 1088] ∧
      (requestLines f).find? (withPort 7 id).lineHeld = none ∧
      (match (readRemote 7 (withPort 7 id) (requestLines f)).2 with | .ok _ => true | .error _ => false) = true ∧
      (match (readRemote 7 (demo []) (requestLines f)).2 with | .ok _ => true | .error _ => false) = false ∧
      (requestLines g).find? ({ withPort 7 id with coreReset := [0] } : State).lineHeld = some (spadBase 0) := by decide +kernel

/-- Acknowledgements behind a line that waits for a core's reset, and behind none. -/
theorem test_acknowledgements_met :
    ({ demo [] with held := [{ core := some 0, course := 0, op := .line 1088 [] 0 }] } : State).lineWaits 1024 2 = some (some 0, 0) ∧
    (demo []).lineWaits 1024 2 = none ∧ writeRemote 7 ((demo []).writeLine 1024 [] 2127) 1088 [] = ((demo []).writeLine 1024 [] 2127, []) := by
  decide +kernel

def waits (read : Bool) (chan : Nat) : Outstanding :=
  { master := 5, tag := 63, module := 1, read := read, core := 0, chan := chan, addr := 1024, lines := 1 }

def withWaiting (o : Outstanding) : State := { demo [] with fabric := { outstanding := [o] } }

def reply (type : BitVec 5) (operand : BitVec 37) (payload : List Byte := []) : Frame :=
  { frame type 2 operand payload with master := 5, tag := 63 }

theorem test_answers_met :
    (let f := reply 0x03 1; f.type = 0x03 ∧ (withWaiting (waits false 3)).takeFrame 0 f = some (withWaiting (waits false 3)) ∧
      (withWaiting (waits false 3)).outFind f.master f.tag (some f.src) [false] = some (waits false 3) ∧
      (withWaiting (waits true 3)).outFind f.master f.tag (some f.src) [false] = none) ∧
    (let f := reply 0x06 0 (List.replicate 64 7)
     (withWaiting (waits true 3)).takeFrame 0 f = some (withWaiting (waits true 3)) ∧
      (withWaiting (waits true 3)).outFind f.master f.tag (some f.src) [true] = some (waits true 3) ∧ fOp f 0 8 = 0 ∧ frameLines f = some 1 ∧
      (withWaiting (waits false 3)).outFind f.master f.tag (some f.src) [true] = none) ∧
    (let f := reply 0x06 0x0B; (withWaiting (waits true 3)).outFind f.master f.tag (some f.src) [true] = some (waits true 3) ∧ fOp f 0 8 ≠ 0) ∧
    (let f := reply 0x07 0x10A; (withWaiting (waits false 3)).outFind f.master f.tag (some f.src) [false] = some (waits false 3)) ∧
    (let f := reply 0x1C (2 * 8) (leBytes 16 (5 * 2 ^ 44 + 63 * 2 ^ 38 + 1 * 2 ^ 104))
     let h := natAt f.payload 0 16
     fOp f 3 5 = 0x02 ∧ (withWaiting (waits false 3)).takeFrame 0 f = some (withWaiting (waits false 3)) ∧
       (withWaiting (waits false 3)).outFind (BitVec.ofNat 12 (bits h 44 12)) (BitVec.ofNat 6 (bits h 38 6)) (some (BitVec.ofNat 24 (bits h 104 24)))
         [false] = some (waits false 3)) ∧
    ((withWaiting (waits false 17)).outFind 5 63 (some 1) [false] = some (waits false 17) ∧ 16 ≤ (waits false 17).chan) ∧
    (withWaiting (waits true 8)).outFind 5 63 none [true, false] = some (waits true 8) := by decide +kernel

/-- A DEST_ABSENT frame for the request of module 1 with a type, a master and an operand. -/
def lost (type master op : Nat) : Frame := reply 0x1C (BitVec.ofNat 37 (type * 8)) (leBytes 16 (op + 63 * 2 ^ 38 + master * 2 ^ 44 + 2 ^ 104))

/-- A read, an increment, a chunk and an abort of the outermost engines, barrier frames and a vote that return. -/
theorem test_absent_met :
    (let f := lost 0x05 5 0
     (withWaiting (waits true 3)).takeFrame 0 f = some (withWaiting (waits true 3)) ∧ fOp f 3 5 = 0x05 ∧
       (let h := natAt f.payload 0 16
        (withWaiting (waits true 3)).outFind (BitVec.ofNat 12 (bits h 44 12)) (BitVec.ofNat 6 (bits h 38 6)) (some (BitVec.ofNat 24 (bits h 104 24)))
          [true] = some (waits true 3))) ∧
    (∀ x ∈ [(0x04, 7), (0x10, 2112), (0x10, 2115), (0x12, 2112), (0x12, 2115), (0x13, 0), (0x14, 0), (0x16, 2112)],
      let f := lost x.1 x.2 65
      f.type = 0x1C ∧ (demo []).takeFrame 0 f = some (demo []) ∧ fOp f 3 5 = x.1 ∧ bits (natAt f.payload 0 16) 44 12 = x.2 ∧
        bits (natAt f.payload 0 16) 0 37 = 65) := by decide +kernel

/-- The first line of a row, and of one on its way back, whose module is absent. -/
theorem test_absent_row_met :
    let x : ValTxn := { core := 0, layer := 0, tag := 0, backward := false, epoch := 0, copies := [(1, [(0, 1)])] }
    let s := (demo []).modVal 0 fun v => { v with txns := [(63, x)] }
    tfind (s.valley 0).txns 63 = some x ∧ copyIndex s x true 0 = 0 ∧ copyIndex s x false 1 = 0 ∧
      (copiesOf (s.valley 0) 63 1).length = 1 ∧ x.lost.contains (1, 0) = false ∧
      ∀ t ∈ [0x08, 0x0B], let f := lost t 2048 0; s.takeFrame 0 f = some s ∧ fOp f 3 5 = t := by decide +kernel

def upPort (f : Port → Port) : State :=
  { withPort 0 fun x => f { x with state := 2 } with fabric := { open_ := 1 } }

theorem test_link_met :
    (let s := upPort fun x => { x with expect := 0xFFFF }
     let f := { frame 0x02 3 0 (List.replicate 512 0) with seq := 0xFFFF }
     (s.port 0).up = true ∧ s.fabric.open_.getLsbD 0 = true ∧ f.type ≠ 0x1E ∧ f.type ≠ 0x1F ∧ f.seq = (s.port 0).expect ∧
       f.payload.length % 8 = 0 ∧ f.payload.length ≤ 512 ∧ f.dst = s.fabric.coord ∧ (frameVcs f.type.toNat).contains f.vc.toNat = true) ∧
    (∀ b : Bool, let s := upPort fun x => { x with nacked := b }
     let f := { frame 0x02 3 with seq := 1 }
     (s.port 0).up = true ∧ f.seq ≠ (s.port 0).expect ∧ (s.port 0).nacked = b) ∧
    ((frame 0x1E 0 0 (leBytes 8 0)).payload.length = 8 ∧ (frame 0x1E 0).payload.length ≠ 8 ∧ ((demo []).port 0).waiting = []) ∧
    ((frame 0x1F 0).payload = [] ∧ (frame 0x1F 0 0 (leBytes 8 0)).payload ≠ []) ∧ (frameVcs 0x18).contains 6 = true ∧
    (frameCrc (frame 0x02 3) + 1 ≠ frameCrc (frame 0x02 3)) ∧
    (∀ k ∈ [14, 15], let s := upPort fun x => { x with replay := [frame 0x1E 0], episodes := k }
     (s.port 0).replay ≠ [] ∧ (s.port 0).up = true ∧ (if k = 14 then (s.port 0).episodes < 15 else 15 ≤ (s.port 0).episodes) ∧
       ((s.port 0).replay.any fun g => g.seq == BitVec.ofNat 16 (fOp (frame 0x1F 0) 0 16)) = true) ∧
    (∀ b : Bool, ((upPort fun x => { x with draining := b }).port 0).draining = b) := by decide +kernel

/-- Port 0 with the lanes from k on failed. -/
def lanesFrom (k : Nat) (f : Port → Port) : State :=
  upPort fun x => f { x with lanes := (List.range (34 - k)).map fun i => (k + i, 2) }

def after (s : State) (lane : Nat) : Port := { s.port 0 with lanes := tset (s.port 0).lanes lane 2 }

/-- Lane 0 fails: a spare stands in; none stands in, at the floor of 24 good lanes; and below it. -/
theorem test_lane_failures_met :
    (let s := upPort fun x => { x with lanes := [(5, 2), (33, 1)] }
     (s.port 0).laneState 0 = 0 ∧ (after s 0).goodLanes 0 < portActive 0 ∧ (after s 0).spare 0 = some 33) ∧
    (let s := lanesFrom 25 id
     (s.port 0).laneState 0 = 0 ∧ (s.port 0).state = 2 ∧ (after s 0).spare 0 = none ∧ portFloor 0 ≤ (after s 0).soundLanes 0) ∧
    (let s := lanesFrom 24 id
     (s.port 0).laneState 0 = 0 ∧ (after s 0).spare 0 = none ∧ (after s 0).soundLanes 0 < portFloor 0 ∧ s.fabric.open_.getLsbD 0 = true) := by
  decide +kernel

/-- Port 0 trained with some lanes good. -/
def training (good : Nat) : State := withPort 0 fun x => { x with state := 1, lanes := (List.range (34 - good)).map fun i => (good + i, 2) }

/-- A training port, with its floor of good lanes and one fewer; ports that lose their light; recalibrations that may begin, that must wait,
that are due, and that end for a lane with a spare, one without, and a spare lane. -/
theorem test_ports_met :
    (∀ g ∈ [34, 24, 23], let s := training g
     (s.port 0).state = 1 ∧ s.neighbourOk 0 1 = false ∧ s.neighbourOk 0 0 = true ∧ (s.port 0).waiting = [] ∧ (s.port 0).neighbour = 0 ∧
       decide (portFloor 0 ≤ (s.port 0).soundLanes 0) = (g != 23)) ∧
    (((withPort 0 fun x => { x with state := 1 }).port 0).neighbour ≠ 3 ∧ ((withPort 0 fun x => { x with state := 1 }).port 0).replay = []) ∧
    (((upPort id).port 0).up = true ∧ ((withPort 0 fun x => { x with state := 5 }).port 0).state = 5 ∧ (upPort id).fabric.open_.getLsbD 0 = true) ∧
    (let s := upPort fun x => { x with lanes := [(33, 1)] }
     33 < portLanes 0 ∧ (s.port 0).recalible 33 = true ∧ (s.port 0).recalible 0 = true ∧ (s.port 0).recal = none ∧ ((s.port 0).spare 0).isSome = true) ∧
    (let s := upPort fun x => { x with lanes := [(3, 3)], recal := some { lane := 3, standIn := none, place := some 3 } }
     (s.port 0).recal.isSome = true ∧ (s.port 0).recalible 33 = true) ∧
    (∀ r ∈ [({ lane := 3, standIn := some 33, place := some 3 } : Recal), { lane := 3, standIn := none, place := some 3 },
        { lane := 33, standIn := none, place := none }],
      ((upPort fun x => { x with recal := some r }).port 0).recal = some r) := by decide +kernel

/-- A recalibration that is due: with a free spare lane; with no frame waiting; after 10 ms; and one nanosecond earlier. -/
theorem test_deferred_met : ∀ x ∈ [(true, 0, 10), (false, 0, 10), (false, 1, 10000010), (false, 1, 10000009)],
    let s : State := { upPort fun y => { y with recalDue := [4], recalSince := [(4, 10)], lanes := if x.1 then [(33, 1)] else []
                                                waiting := List.replicate x.2.1 { frame := frame 0x02 3, source := none } } with clock := x.2.2 }
    (s.port 0).recalDue = [4] ∧ (s.port 0).recal = none ∧ (s.port 0).recalible 4 = true ∧ ((s.port 0).spare 0).isSome = x.1 ∧
      ((s.port 0).waiting = [] ↔ x.2.1 = 0) ∧ s.deferredFor 0 4 = x.2.2 - 10 := by decide +kernel

/-- Seventeen uncorrectable code words within the limit's span, and at its end. -/
theorem test_code_words_met :
    let p := (upPort id).port 0
    0 < portLanes 0 ∧ p.laneState 0 ≠ 2 ∧
      fecOver ((tget p.fec 0 {}).bad ++ ((List.range 17).map (· + (tget p.fec 0 {}).words))) = true ∧
      fecOver ((List.range 16).map id ++ [2 ^ 20]) = false := by decide +kernel

/-! ### Collectives, the re-shard, the weight digest -/

/-- The bytes of an entry whose flag 7 of core 0 triggers it at 5. -/
def entryBytes (op_ : Nat) : List Byte :=
  bytesAt (leBytes 4 op_ ++ leBytes 2 7 ++ leBytes 4 5 ++ leBytes 2 0 ++ leBytes 2 1 ++ leBytes 2 2 ++ leBytes 2 (if op_ = 6 then 7 else 0) ++
    leBytes 8 0 ++ leBytes 2 9 ++ leBytes 4 0 ++ leBytes 4 5 ++ leBytes 2 7) 0 64
def entry (op_ : Nat) : CollEntry := CollEntry.ofBytes (entryBytes op_)

def withEntry (op_ : Nat) (group : List ModAddr) (f : Coll → Coll) : State :=
  let s := (demo []).modColl 0 fun c => f { c with regions := demoRegions }
  { s with image := { s.image with bodies := { s.image.bodies with
      allocs := [(1, { base := spadBase 0, lines := 16384, domain := some 0 }), (7, { base := 0x8000, lines := 1 })]
      collGroups := [(0, group)], collTables := [(0, [entryBytes op_])], descs := [(1, matrix), (2, matrix)] } } }

def running (c : Coll) : Coll := { c with run := some { entry := 0 } }

/-- An entry whose trigger has come, a permute among them, and one whose has not. -/
theorem test_entry_begin_met :
    (entry 5).triggerFlag = 7 ∧ (entry 5).triggerInit = 5 ∧ (entry 5).doneFlag = 9 ∧ (entry 5).endFlag = 7 ∧ (entry 5).endCount = 5 ∧
    (entry 5).reservedClear = true ∧
    (∀ x ∈ [(5, 5), (5, 4), (6, 5)],
      let s := (withEntry x.1 [3, 0, 4] id).incFlag 0 7 (BitVec.ofNat 32 x.2)
      let e := entry x.1
      (s.coll 0).next = 0 ∧ (s.collTable 0)[0]? = some e ∧ s.entryHeld e = false ∧ tget (s.coll 0).triggers 0 e.triggerInit = 5 ∧ (s.coll 0).run = none ∧
        s.job.state = .running ∧ flagGe ((s.core e.triggerCore).flag e.triggerFlag) 5 = (x.2 == 5) ∧ e.op = x.1 ∧
        s.reshard.running = false ∧ ((s.takeEntry 0 0 e).collEntry? 0 0).isSome = true ∧
        (((s.takeEntry 0 0 e).permTable 0 7).2.isSome = true)) := by decide +kernel

/-- A reduction's chunk at a rank in the chain, and the final one at another rank than the last, for all ranks and for rank 0 alone. -/
theorem test_chunk_met :
    (let s := withEntry 0 [3, 0, 4] running
     let e := entry 0
     let r : CollRun := { entry := 0 }
     (s.coll 0).run = some r ∧ s.collEntry? 0 0 = some e ∧ s.entryHeld e = false ∧ s.rankIn e = 1 ∧ (s.groupOf e).length = 3 ∧ e.op ≤ 1 ∧
       r.sent.contains 0 = false ∧ r.staged = [] ∧ (s.reduceChunks e)[0]?.isSome = true ∧
       s.takeChunk e 3 0 0 (padElems [1, 2]) = some s) ∧
    (∀ x ∈ [(1, [(3 : ModAddr), 0, 4]), (0, [0, 3, 4])],
     let s := withEntry x.1 x.2 running
     let e := entry x.1
     s.collEntry? 0 0 = some e ∧ s.entryHeld e = false ∧ s.rankIn e + 1 < (s.groupOf e).length ∧ (s.rankIn e = 0 ↔ x.1 = 0) ∧ e.op = x.1 ∧
       (s.reduceChunks e)[0]?.isSome = true ∧ s.takeChunk e 4 0 0 (padElems [1, 2]) = some s) := by decide +kernel

/-- A staged chunk that may go on; one that wants a credit; and one of a job that drains. -/
theorem test_staged_met : ∀ x ∈ [(2, JobState.running), (0, .running), (2, .draining)],
    let s : State := { withEntry 0 [3, 0, 4] fun c => { c with run := some { entry := 0, staged := [(0, [1, 2])] }, linkFree := x.1 } with job := { state := x.2 } }
    (s.coll 0).run.map (·.staged) = some [(0, [1, 2])] ∧
      (s.reduceChunks (entry 0))[0]?.map (fun c => chainReady s 0 (entry 0) c) = some (x.1 != 0) ∧ s.job.state = x.2 := by decide +kernel

theorem test_moved_chunk_met :
    let s := withEntry 2 [3, 0, 4] running
    let e := entry 2
    s.collEntry? 0 0 = some e ∧ s.entryHeld e = false ∧ 2 ≤ e.op ∧ (0 ≠ s.rankIn e ∧ 0 < (s.groupOf e).length) ∧
      s.takeChunk e 3 0 0 (padElems [1, 2]) = some s ∧
      (match (moveLand s 0 e 0 0 [1, 2]).2 with | .ok _ => true | .error _ => false) = true := by decide +kernel

/-- Frames of an entry that does not run: a credit in an inbox, and one in none; and the states of a job that may begin it, and may not. -/
theorem test_stray_frames_met :
    (let f := { frame 0x11 3 with src := 3 }
     let s := (withEntry 0 [3, 0, 4] id).modPort 7 fun x => { x with inbox := [f] }
     (s.coll 0).run = none ∧ s.collFrame 0x11 0 0 = some (7, f) ∧ (s.takeFrame 7 f).isSome = true ∧ s.collFrame 0x11 0 1 = none) ∧
    (∀ j ∈ [JobState.running, .halted], (({ withEntry 0 [3, 0, 4] id with job := { state := j } } : State).coll 0).run = none) := by
  decide +kernel

/-- Credits and an abort without a frame, and an abort whose frame waits in an inbox; entries that are done; a lend window. -/
theorem test_collective_rest_met :
    (let s := withEntry 0 [3, 0, 4] running
     (s.coll 0).run = some { entry := 0 } ∧ s.collEntry? 0 0 = some (entry 0) ∧ (entry 0).op ≤ 1 ∧ (({ entry := 0 } : CollRun).aborted.contains 0) = false ∧
       s.takeColl (entry 0) 0x11 0 2 = some (none, s) ∧ s.takeColl (entry 0) 0x12 0 0 = some (none, s)) ∧
    (let s := withEntry 2 [3, 0, 4] running
     let f := { frame 0x12 3 with src := 3 }
     let t := s.modPort 7 fun x => { x with inbox := [f] }
     1 < (entry 2).op ∧ (t.takeColl (entry 2) 0x12 0 0).map (·.1) = some (some 0) ∧ (({ entry := 0 } : CollRun).aborted.contains (moveKey 0 0)) = false) ∧
    (let s := withEntry 7 [3, 0, 4] running
     s.collEntry? 0 0 = some (entry 7) ∧ s.entryDone 0 (entry 7) { entry := 0 } = true ∧ s.roleHeld (entry 7).doneCore = false) ∧
    (∀ v ∈ [5, 4], let s := (withEntry 7 [3, 0, 4] fun c => { c with lend := [(6, 0), (5, 0)] }).incFlag 0 7 (BitVec.ofNat 32 v)
     (s.coll 0).lend = [(6, 0), (5, 0)] ∧ s.collEntry? 0 0 = some (entry 7) ∧
       flagGe ((s.core (entry 7).endCore).flag (entry 7).endFlag) (entry 7).endCount = (v == 5)) := by decide +kernel

theorem test_votes_met :
    (let s := { withEntry 6 [3, 0] id with reshard := { running := true, voting := true } }
     0 < s.reshardGroup.idxOf s.fabric.coord ∧ s.takePayload 0x16 (s.reshardGroup.getD 0 0) (leBytes 8 9) = some s ∧ s.reshard.running = true ∧
       s.reshard.voting = true) ∧
    (let s := withEntry 6 [0, 3] id
     s.reshardGroup.idxOf s.fabric.coord = 0 ∧ s.takePayload 0x16 (s.reshardGroup.getD 1 0) (leBytes 8 9) = some s ∧ s.reshard.running = false) := by
  decide +kernel

theorem test_copies_met : ∀ x ∈ [(0, ([] : List Nat)), (1, []), (0, [64])],
    let c : Cycle := { anchor := 0, slots := [1], copies := x.1, todo := x.2 }
    let s := { demo [] with reshard := { running := true, buf1 := some c } }
    s.reshard.buf 1 = some c ∧ s.reshard.buf 0 = none ∧ s.reshard.running = true ∧ s.collHeld s.reshard.slope = false ∧
      s.job.state ≠ .draining ∧ c.cause = 0 ∧ c.pending = 0 ∧
      (if x.2 ≠ [] then c.todo ≠ [] else if x.1 = 0 then c.todo = [] ∧ c.copies + 1 ≠ c.slots.length + 1
       else c.todo = [] ∧ c.copies + 1 = c.slots.length + 1) := by decide +kernel

/-- A re-shard with no cycle left: a slot of this module wants a line, and none does; and a re-shard of a job that drains. -/
theorem test_slots_met :
    (∀ k ∈ [1, 0], let s : State := { demo [] with reshard := { running := true, await := [(1024, 2, k)] } }
      s.slotsFilled = (k == 0) ∧ s.reshard.voting = false ∧ s.reshard.buf0 = none ∧ s.reshard.buf1 = none ∧ s.reshard.todo = []) ∧
    (let s : State := { demo [] with job := { state := .draining }, reshard := { running := true, buf1 := some { anchor := 0, slots := [1] } } }
     s.reshard.buf 1 = some { anchor := 0, slots := [1] } ∧ s.collHeld s.reshard.slope = false ∧ s.job.state = .draining) := by decide +kernel

def digest (rank : Nat) (d0 : Nat) (step : Word := 1) : DigestRec := { step := step, domain := 0, rank := rank, d0 := d0, d1 := 0, groups := 1 }

def withDomain (l : List ModAddr) (active : Nat) : State :=
  let s := { (demo []).modCourse 0 fun c => { c with step := 2 } with nextClose := 1 }
  { s with image := { s.image with active := [(0, BitVec.ofNat 32 active)], courses := 1, bodies := { s.image.bodies with domains := [(0, l)] } } }

theorem test_digests_met :
    (let s := withDomain [] 1
     s.image.loaded = true ∧ s.activeCourses ≠ [] ∧ (∀ c ∈ s.activeCourses, s.nextClose < (s.course c).step.toNat) ∧
       (∀ d < 4, s.domain d = [])) ∧
    (let s := { withDomain [] 1 with nextClose := 2 }
     s.activeCourses ≠ [] ∧ ∃ c ∈ s.activeCourses, (s.course c).step.toNat ≤ s.nextClose) ∧
    (∀ step ∈ [1, 0], let s := withDomain [0, 3, 4] 1
     let r := digest 2 5 (BitVec.ofNat 64 step)
     r.rank < (s.domain r.domain).length ∧ r.rank ≠ (s.domain r.domain).idxOf s.fabric.coord ∧
       s.takePayload 0x15 ((s.domain r.domain).getD r.rank 0) (digestBytes r) = some s ∧
       (if step = 1 then s.nextClose ≤ r.step.toNat else (s.digestOf r.domain).awaited ≠ some r.step.toNat ∧ r.step.toNat < s.nextClose)) ∧
    (∀ n ∈ [600000000001, 600000000000], let s : State := { withDomain [0, 3] 1 with clock := n }
     s.image.loaded = true ∧ 2 ≤ (s.domain 0).length ∧ s.health.overdue.contains 0 = false ∧ s.sparesShort = false ∧
       (s.digestOf 0).compared = 0) ∧
    (majority [digest 0 5, digest 1 6, digest 2 5]).isSome = true := by decide +kernel

/-! ### The host -/

def session (id : Nat) (owner : Bool) : Session :=
  { id := id, owner := owner, src := 9, port := 47742, notify := true, lastSeq := 41, noticed := 0 }

/-- The demonstration module with its host port, an owner's session 7 and an observer's session 8, in a state of the job, with the
service jumper fitted. -/
def desk (job : JobState) : State :=
  { demo [] with
    job := { state := job }, rcp := { sessions := [session 7 true, session 8 false] }, sec := { jumper := true }
    power := { slopesOn := true }, ready := { hostPort := true, courses := 1 }
    bulkRegions := demoRegions, timebase := 5, log := { newest := 3, records := [{ seq := 3, time := 0, code := 1, kind := 0, source := 0, body := [] }] } }

/-- The state in which the next command of session 7 executes. -/
def turn (s : State) : State := s.advance 7 42

theorem test_turn_met (job : JobState) (f : State → State) (h : (f (desk job)).session? 7 = some (session 7 true)) :
    Turn (f (desk job)) 7 42 (turn (f (desk job))) := ⟨_, h, rfl, rfl⟩

theorem test_turn_sessions : ∀ job ∈ [JobState.empty, .loaded, .running, .paused, .faulted, .halted],
    (desk job).session? 7 = some (session 7 true) ∧ (desk job).session? 8 = some (session 8 false) ∧ (turn (desk job)).isOwner 7 = true := by
  decide +kernel

/-- What `MayWrite` asks, as a value. -/
def may (u : State) (ss : Nat) (priv : Bool) (a : Nat) (r : WReg) (v : Word) : Bool :=
  u.isOwner ss && (badAddr u [BitVec.ofNat 64 a]).isNone && decide (a < 2 ^ 32) && (u.regRefused priv a).isNone && (u.regHeld a).isNone &&
    writable a == some r && (priv || r.unprivileged) && (!priv || u.presence) && !r.reservedSet v.toNat

theorem may_write {u ss priv a r v} (h : may u ss priv a r v = true) : MayWrite u ss priv a r v := by
  simp only [may, Bool.and_eq_true, Option.isNone_iff_eq_none, decide_eq_true_eq, beq_iff_eq, Bool.or_eq_true, Bool.not_eq_true'] at h
  obtain ⟨⟨⟨⟨⟨⟨⟨⟨h1, h2⟩, h3⟩, h4⟩, h5⟩, h6⟩, h7⟩, h8⟩, h9⟩ := h
  exact ⟨h1, h2, h3, h4, h5, h6, h7, fun p => h8.resolve_left (by simp [p]), h9⟩

/-- The session may write the register, and the write ends with OK. -/
def writes (u : State) (priv : Bool) (a : Nat) (r : WReg) (v : Word) : Bool := may u 7 priv a r v && (u.setReg priv r v).1 == .ok

/-- Bank power of the last core, the last region limit of the bulk engine, a flip mask of the last stack, a command without
start, standby entered and left, and the completion queue of the last channel. -/
theorem test_register_writes_met :
    (writes (turn (desk .empty)) false 0x01FFE600 (.bankPower 2047) 0 && isBankPower (some (.bankPower 2047))) = true ∧
    (writes (turn (desk .empty)) true 0x1008F8 (.regionLimit .bulk 15) 0 && isRegion (some (.regionLimit .bulk 15))) = true ∧
    (writes (turn (desk .empty)) true 0x7B0010 (.hbmFlip 11) 0 && isFlip (some (.hbmFlip 11))) = true ∧
    writes (turn (desk .empty)) true 0x300010 .powerCtrl 1 = true ∧ writes (turn (desk .empty)) true 0x300010 .powerCtrl 0 = true ∧
    writes (turn (desk .empty)) false 0x400040 (.ridgeCq 2) (BitVec.ofNat 64 (12 * 2 ^ 59)) = true := by decide +kernel

/-- The paused module with a permutation table of no entry as allocation 3, and 256 banks for re-sharding. -/
def reshardDesk : State :=
  let s := desk .paused
  { s with image := { s.image with bodies := { s.image.bodies with
      allocs := [(3, { base := 0x8000, lines := 1 })]
      partitions := (List.range 4).map fun c => (c, [0, 0, 0, 64]) } } }

theorem test_reshard_start_met :
    writes (turn reshardDesk) true 0x680010 .reshardCtrl (BitVec.ofNat 64 (2 ^ 63 + 3)) = true ∧
      (BitVec.ofNat 64 (2 ^ 63 + 3)).getLsbD 63 = true := by decide +kernel

theorem test_key_stream_met :
    may (turn (desk .paused)) 7 false 0x208 (.keyStream 0) 9 = true ∧ (turn (desk .paused)).job.state = .paused ∧
      (turn (desk .paused)).rng.declared.getLsbD (0 : Fin 8) = true := by decide +kernel

theorem test_ridge_controls_met :
    (∀ period ∈ [1, 1000], may (turn (desk .running)) 7 false 0x400018 .ridgeCtrl (BitVec.ofNat 64 (period * 2 ^ 46)) = true ∧
      1 ≤ bits (BitVec.ofNat 64 (period * 2 ^ 46)).toNat 46 10 ∧ bits (BitVec.ofNat 64 (period * 2 ^ 46)).toNat 46 10 ≤ 1000) ∧
    may (turn (desk .running)) 7 false 0x400048 (.ridgeRelease 2) 5 = true := by decide +kernel

/-- The empty module with the generator of P-384 in its key data registers, and two owner keys. -/
def keyDesk : State :=
  let s := desk .empty
  { s with sec := { s.sec with
      keys := [(0, (1, 1)), (1, (2, 2))], lc := .service, policy := 8, bankLine := 1024
      keyData := [(0, 0x37058bbe22ca87aa), (1, 0x74ad20f31ec7b18e), (2, 0x989ba78b623b1d6e), (3, 0x382a5482e041f759), (4, 0x6c2955bf5df20255), (5, 0xb70a7672385e543a), (6, 0x6f2c26964ade1736), (7, 0x29dc9292bf989e5d), (8, 0x7c149a28bd1df4f8), (9, 0xc0b8f0b51331dae9), (10, 0x9d817e1dceb1600a), (11, 0x5f0eea907c1d437a)] } }

theorem test_owner_keys_met :
    let u := turn keyDesk
    u.job.state = .empty ∧ u.sec.lc = .service ∧ may u 7 true 0x200010 .keyCtrl 7 = true ∧ onCurve u.keyPoint = true ∧ thas u.sec.keys 3 = false ∧
      may u 7 true 0x200010 .keyCtrl 8 = true ∧ terase u.sec.keys 0 ≠ [] := by decide +kernel

theorem test_policy_debug_bank_met :
    let u := turn keyDesk
    may u 7 true 0x200008 .ownerPolicy 15 = true ∧ (may u 7 true 0x200090 .debugCtrl 1 = true ∧ u.sec.lc = .service ∧ u.sec.policy.getLsbD 3 = true) ∧
      may u 7 true 0x2000D8 (.bankData 7) 9 = true ∧ 1024 ≤ u.sec.bankLine.toNat := by decide +kernel

def ether (kind : IpKind) (port : Nat) : EthFrame :=
  { length := 64, vlan := none, kind := kind, srcAddr := 9, srcPort := 5, dstPort := port, data := [] }

theorem test_frames_met :
    (desk .empty).ready.hostPort = true ∧ (desk .empty).frameTaken (ether .udp 47742) = true ∧
    (desk .empty).frameTaken { ether .udp 47742 with length := 9217 } = false ∧ (desk .empty).rcp.udpPort.toNat = 47742 ∧
    (desk .empty).rcp.static = false ∧ (desk .empty).frameTaken (ether .udp 68) = true ∧
    (desk .empty).frameTaken (ether .arpNd 0) = true ∧ (desk .empty).frameTaken (ether .icmpEcho 0) = true ∧
    (desk .empty).ownAddress ((desk .empty).rcp.addr.zeroExtend 128) = true ∧ (desk .empty).ownAddress (2 ^ 100) = false := by decide +kernel

/-- The client's state when an offer, an acknowledgement of the address it asked for or of another, and a refusal come. -/
theorem test_dhcp_met : ∀ x ∈ [Dhcp.selecting, .requesting 9],
    let s : State := { desk .empty with rcp := { (desk .empty).rcp with dhcp := x } }
    s.ready.hostPort = true ∧ s.frameTaken (ether .udp 68) = true ∧ s.rcp.static = false ∧ s.rcp.dhcp = x ∧
      (9 : BitVec 128).setWidth 32 = (9 : W32) ∧ (10 : BitVec 128).setWidth 32 ≠ (9 : W32) := by decide

/-- A message of the master that is followed, before the first lock, at a later one and while locked; and one of another domain. -/
theorem test_ptp_met :
    (desk .empty).frameTaken (ether .udp 319) = true ∧ (desk .empty).rcp.ptpMaster = none ∧ (1 : Byte) ≠ (desk .empty).rcp.ptpDomain ∧
    ∀ x ∈ [(false, false), (true, false), (true, true)],
      let b : PtpMaster := { rank := [128], identity := 9, heard := 0 }
      let s : State := { desk .empty with rcp := { (desk .empty).rcp with ptpMaster := some b, everLocked := x.1, ptpLocked := x.2 } }
      s.ready.hostPort = true ∧ s.frameTaken (ether .udp 319) = true ∧ s.rcp.ptpMaster = some b ∧ s.rcp.everLocked = x.1 ∧ s.rcp.ptpLocked = x.2 := by
  decide

/-- The parameters of OPEN_SESSION: role, and for a resume the session. -/
def openPayload (role ss : Nat) : List Byte := bytesAt (leBytes 16 role ++ leBytes 4 ss) 0 128

/-- The module without its owner's session, under a policy, with a number of observers. -/
def free (policy : BitVec 4) (observers : Nat) : State :=
  let s := desk .empty
  { s with rcp := { s.rcp with sessions := List.replicate observers (session 8 false) }, sec := { s.sec with policy := policy } }

theorem test_opening_met :
    State.openForm (openPayload 0 0) = true ∧ State.openForm (openPayload 1 8) = true ∧ (free 0 3).repeated 9 47742 0 = none ∧
    (natAt (openPayload 1 8) 0 1 = 1 ∧ (free 0 3).observers < 4) ∧
    (natAt (openPayload 0 0) 0 1 = 0 ∧ (free 0 3).owner? = none ∧ (free 0 3).sec.policy.getLsbD 1 = false ∧ (free 2 3).sec.policy.getLsbD 1 = true) ∧
    (natAt (openPayload 1 8) 16 4 = 8 ∧ (desk .empty).session? 8 = some (session 8 false)) ∧
    (let o : Opening := { src := 9, port := 47742, nonce := 0, time := 0, reply := { dst := 9, port := 47742, type := 1 } }
     let s : State := { desk .empty with rcp := { (desk .empty).rcp with openings := [o] } }
     (s.repeated 9 47742 0).isSome = true) := by decide +kernel

theorem test_session_timers_met :
    (session 7 true).notify = true ∧ (session 7 true).noticed < (desk .empty).log.newest ∧
    (({ session 7 true with holdQ := [(43, [])] } : Session).holdQ.any fun h => h.1 == 43) = true := by decide

/-- Sequence numbers at the ends of each range; and a response in the cache. -/
theorem test_order_met :
    let x := session 7 true
    (42 = x.lastSeq + 1) ∧ (∀ q ∈ [43, 1065], x.lastSeq + 1 < q ∧ q ≤ x.lastSeq + 1024 ∧ (x.holdQ.any fun h => h.1 == q) = false) ∧
      x.lastSeq + 1024 < 1066 ∧
      (let y := x.remember 41 { dst := 1, port := 1, type := 3 }
       41 ≤ y.lastSeq ∧ (y.cache.find? fun c => c.1 == 41 && decide (y.lastSeq < 41 + 256)).isSome = true) := by decide

def block (addr lines : Nat) (data : List Byte) : List Byte := bytesAt (leBytes 8 addr ++ leBytes 2 lines) 0 32 ++ data

theorem test_reads_and_writes_met :
    (let u := turn (desk .running)
     badAddr u [0x300010] = none ∧ u.regRefused true 0x300010 = none ∧ u.regHeld 0x300010 = none ∧
       may u 7 false 0x300010 .powerCtrl 2 = true ∧ (u.setReg false .powerCtrl 2).1 = .ok ∧
       badAddr u [BitVec.ofNat 64 0x300000] = none ∧ writable 0x300000 = none ∧ u.regRefused false 0x300000 = none ∧ u.regHeld 0x300000 = none) ∧
    ((turn (desk .running)).log.records.getLast?.map (·.seq)) = some 3 := by decide +kernel

theorem test_bulk_met :
    let u := turn (desk .running)
    (let p := block 0x2000 128 (List.replicate 8192 1); u.bulkRefused p = none ∧ u.bulkHeld (bulkBlock p) = none ∧ (bulkBlock p).signal = false) ∧
    (∀ x ∈ [true, false],
      let p := bytesAt (leBytes 8 0x2000 ++ leBytes 2 1 ++ [1]) 0 32 ++ List.replicate 64 1
      let v := if x then { u with held := [{ core := some 0, course := 0, op := .cmd 7 41 (.bulkSignal false p) }] } else u
      v.bulkRefused p = none ∧ (bulkBlock p).signal = true ∧ ((v.bulkPut 1 0x2000 (p.drop 32)).bulkHeld (bulkBlock p) = none) ∧
        ((v.bulkPut 1 0x2000 (p.drop 32)).earlierHeld 7 42).isSome = x) ∧
    (let p := block (spadBase 0) 1 (List.replicate 64 1)
     let v : State := { u with coreReset := [0] }
     v.bulkRefused p = none ∧ ((v.bulkPut 1 (spadBase 0) (p.drop 32)).bulkHeld (bulkBlock p)).isSome = true) ∧
    (let p := block 0x2000 1 []; bulkForm p false = true ∧ u.bulkPermits .read (bulkBlock p) = true ∧ u.bulkHeld (bulkBlock p) = none) ∧
    (let p := block 0x400000 1 (List.replicate 64 1)
     bulkForm p true = true ∧ (bulkBlock p).core ≤ 2047 ∧ (bulkBlock p).flag ≤ 479 ∧ u.bulkPermits .write (bulkBlock p) = false) := by
  decide +kernel

/-! ### The job -/

theorem test_job_states_met :
    (let u := turn (desk .empty); u.sec.lc ≠ .manufacture ∧ u.sec.lc ≠ .decommissioned ∧ u.rcp.long = none ∧ u.job.state = .empty) ∧
    ((turn (desk .loaded)).job.state = .loaded ∧ (turn (desk .loaded)).courseMissing = false) ∧
    (turn (desk .faulted)).job.state = .faulted ∧ (turn (desk .paused)).job.state = .paused := by decide +kernel

theorem test_pause_ends_met :
    (let s := { (demo []).modCtx 0 .F (fun x => { x with hold := .paused }) with job := { state := .running, pausePending := true } }
     s.job.pausePending = true ∧ s.job.state = .running ∧ ∀ x ∈ s.cores, x.2.stoppedCore = true) ∧
    (let s := { withHalt { halted := true } with job := { state := .draining } }
     s.job.state = .draining ∧ s.allFinished = true ∧ (∀ x ∈ s.courses, x.2.migration = none) ∧ s.valPath = [] ∧
       ∀ sl < 4, s.collIdle sl = true) := by decide +kernel

theorem test_long_commands_met : ∀ t ∈ [0x06, 0x11, 0x10],
    let k : LongCmd := { session := 7, hostSeq := 42, type := BitVec.ofNat 8 t, status := .imageInvalid }
    let s : State := { desk .loading with rcp := { (desk .loading).rcp with long := some k } }
    s.rcp.long = some k ∧ k.status ≠ .ok ∧ (if t = 6 then k.type = 0x06 else if t = 0x11 then k.type = 0x11 else k.type ≠ 0x06 ∧ k.type ≠ 0x11) := by decide +kernel

/-! ### Security -/

def withSec (s : State) (f : Security → Security) : State := { s with sec := f s.sec }

/-- The button, the jumper, a window whose time is up, and the sixteenth break of the tamper mesh. -/
theorem test_presence_met :
    ((demo []).power.off = false ∧ (demo []).sec.policy.getLsbD 2 = false) ∧ ((demo []).sec.jumper ≠ true ∧ (desk .empty).sec.jumper ≠ false) ∧
    (let s := { withSec (demo []) (fun x => { x with windowEnd := some 9 }) with timebase := 9 }; s.sec.windowEnd = some 9 ∧ 9 ≤ s.timebase) ∧
    ∀ n ∈ [0, 14, 15], let s := withSec (demo []) (fun x => { x with tamperCount := BitVec.ofNat 4 n })
      s.power.off = false ∧ decide (s.sec.tamperCount = 15) = (n == 15) := by decide

/-- A package of a kind with an empty body and an empty certificate, padded to three lines. -/
def package (kind : Nat) : List Byte := bytesAt (bytesAt (leBytes 4 0x4B465750 ++ leBytes 1 kind) 0 160 ++ [0x30, 0]) 0 192

/-- The package in HBM from address 0. -/
def staged (kind : Nat) : State :=
  ((turn (desk .empty)).putLine 0 ((package kind).take 64)).putLine 128 ((package kind).drop 128)

theorem test_stage_met : ∀ kind ∈ [0, 1], let u := staged kind
    (u.isOwner 7 && u.presence && u.rcp.long.isNone) = true ∧ 192 % 64 = 0 ∧ 192 ≤ partBytes kind ∧
      (readStaged u (lineAddrs 0 3)).2 = some (package kind) ∧ packageForm kind (package kind) = true ∧
      ((readStaged u (lineAddrs 0 3)).1.votes [1, 2]).counterOf kind ≤ natAt ((package kind).take (packageLength (package kind))) 5 1 := by
  decide +kernel

theorem test_commit_met : ∀ kind ∈ [0, 1],
    let u := withSec (turn (desk .empty)) fun x => { x with
      staged := 3, packages := [(1, { rollback := 0, version := 2, items := 0, digest := 0 }), (3, { rollback := 63, version := 2, items := 1, digest := 0 })] }
    u.job.state = .empty ∧ u.sec.staged.getLsbD kind = true ∧
      ((tfind u.sec.packages (2 * kind + (1 - u.activeSlot kind))).any fun p => (u.votes [1, 2]).accepts kind p) = true := by decide +kernel

/-- A commit whose counter has still to rise. -/
theorem test_counter_met :
    let s := withSec (desk .empty) fun x => { x with committing := some 1, activeContent := true, packages := [(3, { rollback := 63, version := 2, items := 1, digest := 0 })] }
    s.sec.committing = some 1 ∧ (tfind s.sec.packages (2 * 1 + s.activeSlot 1)).map (·.rollback) = some 63 := by decide

/-- A transition with the counter at its limit, both to and not to the last state, and the first transition with a key and without. -/
theorem test_life_cycle_met :
    (∀ x ∈ [(63, 2), (64, 4)],
      let u := withSec (turn (desk .empty)) fun y => { y with keys := [(0, (1, 1))], transitions := x.1 }
      u.job.state = .empty ∧ u.sec.keys ≠ [] ∧
        ((lcOf x.2).any fun t =>
          (lcAuth u u.sec.lc t).isSome && (t == .decommissioned || decide (u.sec.transitions < 64) && !u.sec.tamperFinal)) = true) ∧
    (let u := withSec (turn (desk .empty)) fun y => { y with lc := .manufacture }
     lcOf 1 = some .provisioned ∧ (lcAuth u u.sec.lc .provisioned).isSome = true ∧ u.sec.transitions < 64) := by decide +kernel

theorem test_attest_met : ∀ chain ∈ [0, 1], let p := bytesAt [] 0 48 ++ leBytes 1 chain ++ bytesAt [] 0 15
    p.length = 64 ∧ (bytesAt p 49 15).any (· != 0) = false ∧ natAt p 48 1 = chain ∧ (turn (desk .running)).sec.lc ≠ .decommissioned := by
  decide +kernel

/-! ### Resets, supply, cooling and the governor -/

theorem test_resets_met :
    (∀ j ∈ [JobState.empty, .loaded, .halted], (turn (desk j)).isOwner 7 = true ∧ (turn (desk j)).job.state = j) ∧
    (demo []).fabric.open_ = 0 ∧ ((demo []).openAxes = [] ∧ ({ demo [] with fabric := { open_ := 8 } } : State).openAxes = [3] ∧
      ({ demo [] with resetDue := some (.warm none) } : State).resetDue = some (.warm none)) ∧ ((demo []).power.off = false ∧ 1000 ≤ (1000 : W32).toNat) ∧
    (((demo []).modCourse 63 fun x => { x with inReset := true }).course (63 : CourseId)).inReset = true ∧
    ({ demo [] with coreReset := [2047] } : State).coreReset.contains (2047 : CoreId).val = true := by decide +kernel

/-- Each limit, on both of its sides. -/
theorem test_supply_met :
    (State.reducedRange 44999 = false ∧ State.reducedRange 45000 = true ∧ State.reducedRange 49999 = true ∧ State.reducedRange 50000 = false ∧
      State.reducedRange 59500 = false ∧ State.reducedRange 59501 = true ∧ State.reducedRange 62000 = true ∧ State.reducedRange 62001 = false) ∧
    (State.operating 49999 = false ∧ State.operating 50000 = true ∧ State.operating 59500 = true ∧ State.operating 59501 = false) ∧
    (coolantOk 400 2000 = true ∧ coolantOk 401 2000 = false ∧ coolantOk 400 1999 = false) ∧
    (hotReading 1050 0 = true ∧ hotReading 0 950 = true ∧ hotReading 1049 949 = false) ∧ (1150 ≤ (1150 : BitVec 16).toInt ∧ (1149 : BitVec 16).toInt < 1150 ∧ hotReading 1150 0 = true) ∧
    (State.reducedRange 44999 = false ∧ State.operating 44999 = false) ∧
    ((demo []).power.lowNow = false ∧ (demo []).power.coolBad = false ∧ ((demo []).slope 3).hot = false ∧
      ((demo []).slope 3).lastThermal = none) ∧
    (let s : State := { demo [] with power := { lowNow := true, coolBad := true }, slopes := [(3, { hot := true })] }
     s.power.off = false ∧ s.power.lowNow = true ∧ s.power.coolBad = true ∧ (s.slope 3).hot = true) := by decide

/-- Slopes at given clocks, with their ceilings there, and every other at 600 MHz. -/
def slopesAt (k f : Nat) : State :=
  { demo [] with power := { slopesOn := true }, slopes := (List.range 4).map fun j => (j, { fMhz := if j = k then f else 600, ceiling := if j = k then f else 600 }) }

theorem test_governor_met : ∀ f ∈ [650, 1400], let s := slopesAt 2 f
    (s.power.off = false ∧ s.power.slopesOn = true) ∧ (∀ j < 4, (s.slope j).fMhz % 50 = 0 ∧ (s.slope j).ceiling % 50 = 0) ∧
      (∀ j < 4, (s.slope j).hot = false ∧ (s.slope j).fMhz = (s.slope j).ceiling ∧ (s.slope j).throttle = 0) ∧
      600 < (s.slope 2).fMhz ∧ ∀ j < 4, j ≠ 2 → (s.slope j).fMhz ≤ 600 := by decide

/-! ### Power-on and bring-up -/

/-- The module before some function's turn, with everything before it ready or failed. -/
def before (f : BringUp) : State :=
  let s := demo []
  match f with
  | .stack k => { s with ready := { hbm := BitVec.ofNat 12 (2 ^ k.val - 1) } }
  | .course c => { s with ready := { courses := BitVec.ofNat 64 (2 ^ c.val - 1) } }
  | _ => s

theorem test_bring_up_met :
    (∀ f ∈ [BringUp.hostPort, .stack 11, .course 63, .port 7], (before f).functionRuns f = true ∧ (before f).courseUnfit f = false) ∧
    ((0 : Fin 12) < 11 ∧ (demo []).ready.refreshed = false ∧ (demo []).functionDone (.stack 0) = false) ∧
    (48 % 16 < 1 % 16 ∧ (demo []).functionDone (.course 48) = false) ∧
    (let s := { demo [] with ready := { hostPort := true, hbm := BitVec.allOnes 12, ports := BitVec.ofNat 8 254, courses := BitVec.allOnes 64, failed := [.port 0] } }
     (∀ f ∈ allFunctions, s.functionReady f = true ∨ f ∈ s.ready.failed) ∧ s.power.off = false ∧ s.power.bootFailed = false ∧
       s.power.standbyBit = false ∧ s.ready.done = false) ∧
    (let s := { demo [] with ready := { hostPort := true, hbm := BitVec.allOnes 12, ports := BitVec.ofNat 8 127, courses := BitVec.allOnes 64 } }
     s.functionRuns (.port 7) = true ∧ s.courseUnfit (.port 7) = false ∧ s.power.standbyBit = false ∧
       ∀ g ∈ allFunctions, g ≠ .port 7 → s.functionReady g = true ∨ g ∈ s.ready.failed) ∧
    (∃ f ∈ allFunctions, (demo []).functionReady f = false ∧ f ∉ (demo []).ready.failed) := by decide +kernel

/-- A restart after a shutdown, and after a thermal trip. -/
theorem test_power_on_met : ∀ cause ∈ [1, 4],
    let s : State := { demo [] with power := { off := true, causeRecord := BitVec.ofNat 8 cause } }
    s.power.off = true ∧ s.power.causeRecord ≠ 0 ∧ decide (s.power.causeRecord = 4) = (cause == 4) ∧ State.operating 50000 = true ∧
      State.reducedRange 45000 = true ∧ (44999 : BitVec 16).toNat < 45000 := by decide

/-! ### Windows and tests -/

/-- The loaded course 0 with core 0 at the window, and core 1 at it or not. -/
def window (far : Bool) (f : Course → Course) : State :=
  let s := withDomain [] 3
  let s := s.modCtx 0 .F fun x => { x with atWindow := true, hold := .window }
  let s := s.setCore 1 { active := true, f := { demoStream [] with atWindow := far, hold := if far then .window else .none } }
  s.modCourse 0 f

theorem test_windows_met :
    (∀ x ∈ [(true, false), (false, false), (true, true)],
      let s := { window true (fun c => { c with passDone := x.1 }) with image := { (window true id).image with hold := x.2 } }
      s.gathers 0 = true ∧ (∀ n ∈ s.courseCores 0, (s.core n).countsAtWindow = true) ∧
        (match s.windowAct 0 with
         | .migrate _ => x == (true, false)
         | .held => x == (false, false)
         | .nothing => x == (true, true)) = true) ∧
    (let s := window false id
     s.gathers 0 = true ∧ ((s.courseCores 0).find? fun n => !(s.core n).countsAtWindow) = some 1) ∧
    (let s := window true id
     s.jobRuns = true ∧ s.courseLoaded 0 = true ∧ (s.course 0).tester.isSome = true ∧ s.health.lateCourses.contains 0 = false) ∧
    (let m : Migration := { k := 31, src := 31, dst := 32, suspect := false }
     let s := window true fun c => { c with migration := some m }
     (s.course 0).migration = some m ∧ s.ridgeSlot 2 = true) := by decide +kernel

/-- Items of a pass of two: the first, the last, and one that does not come after the one before; a run whose answers are right, and one whose
are wrong. -/
theorem test_items_met :
    (∀ x ∈ [(0, 0x06FFFFFE, false, true), (1, 0x06FFFFFF, true, true), (1, 0x06FFFFFE, true, false), (0, 0x07000000, false, false)],
      let s : State := { window true (fun c => { c with item := 0x06FFFFFE, passItems := x.1 }) with health := { contentItems := 2 } }
      (s.course 0).tester = some 32 ∧ s.image.selfTest = true ∧ (s.course 0).passDone = false ∧
        s.nextItem 0 (BitVec.ofNat 32 x.2.1) x.2.2.1 = x.2.2.2) ∧
    (let r : TestRun := { lines := [], p := (3, 5), q := (1, 2), index := 0, answers := (0, 0) }
     let a := (testLane r 3 1, testLane r 5 2)
     testPasses { r with answers := a } = true ∧ testPasses { r with answers := (a.1 + 1, a.2) } = false) ∧
    (0x10000005 : W32).toNat / 2 ^ 24 = 0x10 ∧ (0x11000000 : W32).toNat / 2 ^ 24 ≠ 0x10 ∧
    (let l := (List.range 5).flatMap fun k => (List.range (sweepUnits k)).map fun j => (k, j)
     ((List.range 5).all fun k => (List.range (sweepUnits k)).all fun j => (k, j) == (4, 7) || (l.filter (· != (4, 7))).contains (k, j)) = true) ∧
    (demo []).power.off = false ∧ ∀ x ∈ [(0, 3), (1, 3), (2, 0), (3, 11), (4, 7)], x.2 < sweepUnits (BitVec.ofNat 8 x.1).toNat := by decide +kernel

/-! ### The ridge DMA -/

def withRidge (r : Ridge) : State := { desk .running with ridge := { r with regions := demoRegions } }

/-- A free slot and none; a spill of one record after a quiet time, and of 32; a line that is granted, and one that is not. -/
theorem test_ridge_met :
    (withRidge { telemetryOn := true }).ridge.telemetryOn = true ∧
    (∀ n ∈ [15, 16], let s := withRidge { telemetryOn := true, chans := [(0, { declared := true, log2 := 4, records := BitVec.ofNat 32 n })] }
      s.ridgeSlot 0 = (n == 15)) ∧
    (∀ n ∈ [1, 32], let s := { withRidge { spillOn := true } with log := { newest := n, records := (List.range n).map fun i =>
          { seq := n - i, time := 0, code := 1, kind := 0, source := 0, body := [] } } }
      s.ridge.spillOn = true ∧ ((s.unspilled.take 32).getLast?.map (·.seq)) = some n ∧ (s.unspilled.take 32).length = n ∧
        s.ridgeSlot 1 = true) ∧
    (let s := withRidge {}
     s.permits s.ridge.regions .write 0x1000 = true ∧ s.liveAt 0x1000 = none ∧ s.permits s.ridge.regions .write 0x100000 = false) := by decide +kernel

/-! ### Banks, scrubbers and the bypass -/

theorem test_banks_met : ∀ b ∈ [BankUnit.spad 2047 31, .ul 63 63], ∀ k ∈ [0, 1, 2],
    ((demo []).setBankState (bankBase b) k).bankState (bankBase b) = k := by decide +kernel

/-- Line 0 of the scratchpad of core 0, with one flipped bit. -/
def flawed (fix : Bool) : State :=
  let s := { desk .running with memErr := [(storage (desk .running).hbmAffinity (spadBase 0) / 64, [5])] }
  if fix then s.modScrub (.spad 0) fun y => { y with fix := [spadBase 0 / 64] } else s

/-- Every memory in the midst of a lap and at its end, at its pace and without one. -/
theorem test_scrub_met :
    (∀ x ∈ [(ScrubUnit.spad 0, 0, 511), (.acc 0, 1, 255), (.ul 63, 63, 8191), (.hbm 11, 0, 2147483647), (.icache 0, 0, 1023), (.codeCache 0, 0, 16383)],
      ∀ next ∈ [0, x.2.2],
      let s := ((desk .running).modStack 11 fun k => { k with tokens := 1 }).modLap x.1 x.2.1 fun y => { y with next := next }
      s.scrubPaced x.1 = true ∧ s.scrubOn x.1 (bankFirst x.1 x.2.1 + next) = true ∧ (s.lapOf x.1 x.2.1).next = next ∧
        s.bankLines x.1 x.2.1 = x.2.2 + 1 ∧ ({ s with sramLapMs := 0, hbmRate := 0 } : State).scrubPaced x.1 = false) ∧
    (∀ x ∈ [(ScrubUnit.acc 0, 1), (.spad 0, 0)],
      let s := (demo []).modCore 0 fun c => { c with da := { c.da with running := [(.stream, op (word 0x41 1 0 1 0 0 0) [1])] } }
      (s.core 0).freezes 0 x.1 x.2 = true) ∧
    ((desk .running).sramLapMs ≠ 0 ∧ ∀ i : Fin 8, tget (desk .running).health.tmrOdd i [] = []) ∧
    (∀ fix ∈ [true, false], let s := flawed fix
      s.scrubAddress (.spad 0) 0 = some (spadBase 0) ∧ (s.scrubOf (.spad 0)).fix.contains (spadBase 0 / 64) = fix ∧
        (s.lineRead (spadBase 0)).data.isSome = true ∧ (s.lineRead (spadBase 0)).ce ≠ 0 ∧ s.bankState (spadBase 0) = 0 ∧
        (s.setBankState (spadBase 0) 1).bankState (spadBase 0) ≠ 0) ∧
    (let s := ((desk .running).modStack 0 fun k => { k with tokens := 1 }).modScrub (.hbm 0) fun y => { y with fix := [0] }
     s.scrubAddress (.hbm 0) 0 = some 0 ∧ (s.stack 0).scrub.fix.contains 0 = true ∧ s.hbmRate ≠ 0 ∧ (s.stack 0).tokens ≠ 0 ∧
       (s.lineRead 0).data.isSome = true) := by decide +kernel

def axes (open_ : BitVec 4) (ready : Bool) (job : JobState) : State :=
  let s := turn (desk job)
  { s with fabric := { s.fabric with open_ := open_, loaded := ready }, ready := { s.ready with ports := BitVec.allOnes 8 } }

theorem test_bypass_met :
    (∀ job ∈ [JobState.running, .loaded], ∀ k < 4, (axes 15 true job).fabric.open_.getLsbD k = true ∧ (axes 0 true job).fabric.open_.getLsbD k = false ∧
      (axes 0 true job).openable k = true ∧ (axes 0 false job).openable k = false ∧ (axes 15 true job).job.state = job ∧
      (axes 15 true job).isOwner 7 = true ∧ (axes 15 true job).presence = true) ∧
    ∀ k : Fin 4, ((axes 15 true .running).startDrain k 7 42 false).drained k = true ∧ (axes 15 true .running).drained k = false ∧
      ((axes 15 true .running).startDrain k 7 42 false).resetDue = none := by decide +kernel

/-! ### Data and the whole machine -/

theorem test_affinity_met : (0 % 3 = 0 ∧ 0 ≤ 384) ∧ 384 % 3 = 0 := by decide

theorem test_order_laws_met :
    (∀ a b : Nat, decide (a < b) = true → decide (b < a) = false) ∧
    (∀ a b c : Nat, decide (a < b) = false → decide (b < c) = false → decide (a < c) = false) ∧
    ((Fmt.ofCode 0x0C).any fun g => g.float?.isNone && g == .int32) = true ∧ ((Fmt.ofCode 0x20).any fun g => g.float?.isNone && g != .int32) = true ∧
    ((Fmt.ofCode 0x01).any fun g => g.float?.any fun f => (f.decode 0x7FC00000).isNan) = true := by
  refine ⟨?_, ?_, by decide⟩ <;> simp only [decide_eq_true_eq, decide_eq_false_iff_not] <;> omega

theorem test_reset_canonical : State.reset.memOk ∧ step State.reset = .next (tick State.reset) := ⟨rfl, rfl⟩

theorem test_well_formed_met :
    let s : State := { State.reset with pending := [.presenceButton, .clamp 2601] }
    (∀ c ∈ s.pending, WellFormed c = true) ∧ s.pending ≠ [] := by decide

/-! ### WellFormed refuses -/

/-- The word of another opcode, for every instruction. -/
theorem test_wf_words_refused : ∀ f ∈ [
  Instr.add, Instr.sub, Instr.mul, Instr.divu, Instr.remu, Instr.andOp, Instr.orOp, Instr.xorOp, Instr.shl,
  Instr.shr, Instr.sar, Instr.minu, Instr.maxu, Instr.addi, Instr.andi, Instr.shli, Instr.shri, Instr.ldi,
  Instr.ldih, Instr.loopidx, Instr.rdid, Instr.ldl, Instr.stl, Instr.loop, Instr.endloop, Instr.call, Instr.ret,
  Instr.jmp, Instr.ldd, Instr.movd, Instr.dbase, Instr.dsize, Instr.dclr, Instr.daFill, Instr.daFillt, Instr.daSwap,
  Instr.daMm, Instr.daMmnm, Instr.daDrain, Instr.daClear, Instr.gmeSpmm, Instr.gmeSddmm, Instr.gmeGather,
  Instr.gmeScatteradd, Instr.gmeSegsum, Instr.gmeSort, Instr.gmeSelect, Instr.gmeMerge, Instr.gmePack,
  Instr.gmeUnpack, Instr.gmeTranspose, Instr.veAdd, Instr.veSub, Instr.veMul, Instr.veMax, Instr.veMin, Instr.veFma,
  Instr.veAbs, Instr.veNeg, Instr.veScale, Instr.veCopy, Instr.veFill, Instr.veBlend, Instr.veRsum, Instr.veRmax,
  Instr.veRmin, Instr.veRsumsq, Instr.veSmstat, Instr.veSmnorm, Instr.veSmbwd, Instr.veFunc, Instr.veDfunc,
  Instr.veConvert, Instr.veOpt, Instr.veOptCommit, Instr.veDigest, Instr.veRng, Instr.dmaStart, Instr.dmaStop,
  Instr.valDispatch, Instr.valCombine, Instr.valReturn, Instr.valCancel, Instr.nop, Instr.waitOp, Instr.signal,
  Instr.barrier, Instr.testwin, Instr.codeswap, Instr.haltOp, Instr.flagrd],
    WellFormed (f 0 .F (word 0xFF 0 0 0 0 0 0)) = false := by decide

/-- An instruction's neighbour, and the two forms of VE_OPT: a commit is not an element update. -/
theorem test_wf_add_refuses_sub : WellFormed (.add 0 .F (word 0x02 0 0 0 0 0 0)) = false := by decide

theorem test_wf_opt_forms : WellFormed (.veOpt 0 .F (word 0xA4 3 0 0 0 0 (2 ^ 44))) = false ∧
    WellFormed (.veOptCommit 0 .F (word 0xA4 3 0 0 0 0 0)) = false := by decide

/-- A frame of a neighbouring type. -/
theorem test_wf_frames_refused :
    (∀ x ∈ [(Instr.writeFrame, 0x02), (Instr.writeAcked, 0x01), (Instr.writeAck, 0x02), (Instr.readReq, 0x06), (Instr.readResp, 0x05),
      (Instr.refused, 0x06), (Instr.destAbsent, 0x1B), (Instr.linkCtrl, 0x1F), (Instr.linkNack, 0x1E)],
        WellFormed (x.1 0 (frame (BitVec.ofNat 5 x.2) 0)) = false) ∧
    ∀ t ∈ [0x1E, 0x1F], WellFormed (.linkFrameReceive 0 (frame (BitVec.ofNat 5 t) 0) 0) = false := by decide

/-- Lanes, lengths and levels just outside their ranges. -/
theorem test_wf_ranges_refused :
    (∀ x ∈ [((1 : PortId), 34), (2, 17)], WellFormed (.laneFailure x.1 ⟨x.2, .lockLost⟩) = false ∧ WellFormed (.laneRecalibration x.1 x.2) = false ∧
      WellFormed (.laneRecalEnd x.1 x.2) = false) ∧
    WellFormed (.readReg 1 false []) = false ∧ WellFormed (.readReg 1 false (List.replicate 65 0)) = false ∧ WellFormed (.writeReg 1 false []) = false ∧
    WellFormed (.undervoltage 45000) = false ∧ WellFormed (.overvoltage 62000) = false ∧ WellFormed (.clamp 2600) = false ∧
    WellFormed (.governorPeriod 0 [0, 0, 0]) = false := by decide

/-! ### The manual's worked examples -/

/-- One block of Table 04-4 and what its conversions have written: scale, state and the code of the largest element. -/
def conversions : Byte → Byte → List Nat → List (Byte × Byte × Nat)
  | _, _, [] => []
  | scale, state, m :: r =>
    let o := convertBlock e4m3Fmt false 3 scale state ((List.range 32).map fun i => some (if i = 0 then .fin false m 0 else FVal.zero))
      (List.replicate 32 .near)
    (o.scale, o.state, o.codes.getD 0 0) :: conversions o.scale o.state r

/-- Table 04-4, with the code 0x7E of conversion 1 that the text after it gives. -/
theorem test_table_04_4 :
    (conversions 0x80 0 [1000, 1000, 300, 280, 200, 200]).map (fun o => (o.1, o.2.1)) =
      [(0x80, 0x80), (0x81, 0x00), (0x81, 0x01), (0x81, 0x02), (0x80, 0x00), (0x80, 0x01)] ∧
    ((conversions 0x80 0 [1000]).map fun o => o.2.2) = [0x7E] := by decide +kernel

/-- The allocation of Table 05-4, and its descriptor A. -/
def saved : State :=
  let s := demo []
  { s with image := { s.image with bodies := { s.image.bodies with allocs := [(0x21, { base := 0x40000000, lines := 1048576 })] } } }

def caseA : Desc :=
  { base := 0x40000000, fmt := 0x06, write := true, rank := 2, alloc := 0x21, size := [10240, 68, 0, 0, 0, 0], stride := [170, 0, 0, 0, 0] }

/-- Table 05-4, A to E, and the sentence after it. -/
theorem test_table_05_4 :
    saved.validate 12 caseA = none ∧ footprint caseA = some (0x40000000 / 64, 0x40000000 / 64 + 11559) ∧
    (let b := { caseA with write := false, base := 0x40000000 + 64 * 11390, stride := [-170, 0, 0, 0, 0] }
     saved.validate 12 b = none ∧ footprint b = footprint caseA) ∧
    (let c := { caseA with write := false, stride := [0, 0, 0, 0, 0] }
     saved.validate 12 c = none ∧ footprint c = some (0x40000000 / 64, 0x40000000 / 64 + 169)) ∧
    saved.validate 12 { caseA with size := [10240, 0xFFFFFFFF, 0, 0, 0, 0] } = some { reason := 0x05, info := 0x000040000000090C } ∧
    saved.validate 12 { caseA with rank := 3, size := [10240, 68, 2, 0, 0, 0], stride := [170, 5000, 0, 0, 0] } =
      some { reason := 0x06, info := 0x120C } ∧
    saved.validate 12 { caseA with stride := [0, 0, 0, 0, 0] } = some { reason := 0x06, info := 0x010C } := by decide +kernel

/-- A module whose logical core 1000, course 31, stack 4 and port 1 hold values to look up. -/
def looked : State :=
  let s := (demo []).modCore 1000 fun c => { c with flags := [(41, 77)], active := true }
  let s := s.modCourse 31 fun x => { x with coreMap := [(8, 32)], pos := [(7, { suspect := true })] }
  (s.modStack 4 fun x => { x with ce := 9 }).modPort 1 fun x => { x with state := 2 }

/-- The addresses of Table 18-7 name the registers it says. -/
theorem test_table_18_7 :
    regBlock 0x017D0010 = some (.core 1000, 0x010) ∧ regBlock 0x017D0210 = some (.core 1000, 0x210) ∧
    readAt looked false 0x017D1148 = some 77 ∧ regBlock 0x0087C828 = some (.course 31, 0x828) ∧
    readAt looked false 0x0087F038 = some (posWord (looked.course 31) 7) ∧
    (readAt looked false 0x0087F208).map (· % 64) = some 32 ∧ readAt looked false 0x00740000 = some 9 ∧
    regBlock 0x00610000 = some (.port 1, 0) ∧
    badAddr looked [0x017D0210, 0x017D1149, 0x0087F038] = some (.malformed, 1) := by decide +kernel

end Sys2Proof.Tests
end

section
/-! Register writes (O42): one rule for a WRITE_REG of one pair that the session may write, the register at each address with a
command of its own, and what each of those registers does with the value. -/

namespace Sys2Proof.Machine

/-! ### One write of one register -/

/-- R303: a command that is its session's next one executes in the state of its turn. -/
theorem runRow_of_turn {s u : State} {ss q : Nat} (t : Turn s ss q u) (f : State → Nat → State) :
    s.runRow ss f = followed (f u q) ss := by
  obtain ⟨x, hx, rfl, rfl⟩ := t
  simp only [State.runRow, hx, followed]

namespace MayWrite
variable {u v : State} {ss : Nat} {priv : Bool} {a : Nat} {r : WReg} {x : Word}

/-- The address decides which register is written. -/
theorem reg_eq (h : MayWrite u ss priv a r x) {r' : WReg} (hr : writable a = some r') : r = r' :=
  Option.some.inj (h.is.symm.trans hr)

theorem toNat_addr (h : MayWrite u ss priv a r x) : (BitVec.ofNat 64 a).toNat = a := by
  have := h.small
  rw [BitVec.toNat_ofNat]
  omega

/-- Nothing of R11 stands before the register's own rules. -/
theorem regWrite_eq (h : MayWrite u ss priv a r x) : u.regWrite priv a x = u.setReg priv r x := by
  have hview : (!priv && !r.unprivileged) = false := by
    rcases h.view with hp | hr
    · simp [hp]
    · simp [hr]
  have hshown : (priv && !u.presence) = false := by
    cases hp : priv with
    | false => rfl
    | true => simp [h.shown hp]
  simp [State.regWrite, h.is, hview, hshown, h.zeros]

/-- R299, R383, R384: a permitted write that its register takes is answered with OK. -/
theorem opWriteReg_eq (h : MayWrite u ss priv a r x) (hv : u.setReg priv r x = (.ok, v)) (q : Nat) :
    opWriteReg u ss q priv [(BitVec.ofNat 64 a, x)] = v.reply ss q 0x05 .ok := by
  have hw : u.regWrite priv a x = (.ok, v) := h.regWrite_eq.trans hv
  simp [opWriteReg, h.owner, h.form, writeLoop, h.toNat_addr, h.powered, h.free, hw]

/-- A command of its own kind is a WRITE_REG of its one pair. -/
theorem regRow_eq (h : MayWrite u ss priv a r x) {s : State} {q : Nat} (t : Turn s ss q u)
    (hv : u.setReg priv r x = (.ok, v)) {mine : Bool} (hm : mine = true) :
    s.regRow ss priv mine a x = answered v ss q 0x05 := by
  rw [State.regRow, if_pos hm, runRow_of_turn t, h.opWriteReg_eq hv, answered]

end MayWrite

/-! ### The registers at their addresses (Tables 14-10, 17-7, 18-2) -/

theorem writable_keyStream (key : Fin 8) : writable (0x208 + 16 * key.val) = some (.keyStream key.val) := by
  revert key; decide

theorem writable_ridgeCtrl : writable 0x400018 = some .ridgeCtrl := by decide

theorem writable_ridgeRelease (ch : Fin 3) : writable (0x400028 + 16 * ch.val) = some (.ridgeRelease ch.val) := by
  revert ch; decide

theorem writable_keyCtrl : writable 0x200010 = some .keyCtrl := by decide

theorem writable_ownerPolicy : writable 0x200008 = some .ownerPolicy := by decide

theorem writable_debugCtrl : writable 0x200090 = some .debugCtrl := by decide

theorem writable_bankData (i : Fin 8) : writable (0x2000A0 + 8 * i.val) = some (.bankData i.val) := by
  revert i; decide

namespace State

/-! ### Events and votes -/

/-- A raised event is in the log. -/
theorem exists_record_raise (s : State) (code kind source : Nat) (fields : List (Nat × Nat)) :
    ∃ e, e ∈ (s.raise code kind source fields).log.records ∧ e.code = BitVec.ofNat 16 code :=
  ⟨_, List.mem_cons_self, rfl⟩

@[simp] theorem sec_vote (s : State) (i : Nat) : (s.vote i).sec = s.sec := by
  unfold vote; split <;> rfl

@[simp] theorem sec_votes (s : State) (l : List Nat) : (s.votes l).sec = s.sec := by
  induction l generalizing s with
  | nil => rfl
  | cons i r ih => exact (ih (s.vote i)).trans (sec_vote s i)

/-! ### Owner keys and policy (R370, R371) -/

@[simp] theorem keyPoint_vote (s : State) (i : Nat) : (s.vote i).keyPoint = s.keyPoint := by
  simp only [keyPoint, sec_vote]

/-- With the job and the life cycle in their states, an owner's write takes effect after the vote on the life-cycle state. -/
theorem ownerWrite_eq {s : State} (hj : s.job.state = .empty ∨ s.job.state = .loaded ∨ s.job.state = .halted)
    (hl : s.sec.lc = .provisioned ∨ s.sec.lc = .deployed ∨ s.sec.lc = .service) (act : State → Status × State) :
    s.ownerWrite act = act (s.vote 0) := by
  have hjob : [JobState.empty, .loaded, .halted].contains s.job.state = true := by
    rcases hj with h | h | h <;> rw [h] <;> rfl
  have hlc : (s.vote 0).ownerStates = true := by
    rcases hl with h | h | h <;> rw [ownerStates, sec_vote, h] <;> rfl
  simp only [ownerWrite, hjob, hlc, Bool.not_true, Bool.false_eq_true, if_false]

section Owner
variable {s : State} (hj : s.job.state = .empty ∨ s.job.state = .loaded ∨ s.job.state = .halted)
  (hl : s.sec.lc = .provisioned ∨ s.sec.lc = .deployed ∨ s.sec.lc = .service)
include hj hl

theorem keyInstall_eq {slot : Nat} (hc : onCurve s.keyPoint = true) (hs : thas s.sec.keys slot = false) :
    s.keyInstall slot = (.ok, { s.vote 0 with sec := { s.sec with keys := tset s.sec.keys slot s.keyPoint } }) := by
  rw [keyInstall, ownerWrite_eq hj hl]
  simp [hc, hs]

theorem keyRevoke_eq {slot : Nat} (hk : terase s.sec.keys slot ≠ []) :
    s.keyRevoke slot = (.ok, { s.vote 0 with sec := { s.sec with keys := terase s.sec.keys slot } }) := by
  have hne : (terase s.sec.keys slot).isEmpty = false := List.isEmpty_eq_false_iff.mpr hk
  rw [keyRevoke, ownerWrite_eq hj hl]
  simp [hne]

theorem policySet_eq (v : BitVec 4) :
    s.policySet v = (.ok, { s.vote 0 with sec := { s.sec with policy := v } }) := by
  rw [policySet, ownerWrite_eq hj hl, sec_vote]

end Owner

/-- OWNER_KEY_CTRL's operation 1 installs the key of the slot in its bits 0 and 1. -/
theorem setKeyCtrl_install (s : State) (slot : Fin 4) :
    s.setKeyCtrl (BitVec.ofNat 64 (slot.val + 4)).toNat = s.keyInstall slot.val := by
  have hop : bits (BitVec.ofNat 64 (slot.val + 4)).toNat 2 2 = 1 := by revert slot; decide
  have hslot : bits (BitVec.ofNat 64 (slot.val + 4)).toNat 0 2 = slot.val := by revert slot; decide
  simp only [setKeyCtrl, hop, hslot]

/-- OWNER_KEY_CTRL's operation 2 revokes the key of the slot in its bits 0 and 1. -/
theorem setKeyCtrl_revoke (s : State) (slot : Fin 4) :
    s.setKeyCtrl (BitVec.ofNat 64 (slot.val + 8)).toNat = s.keyRevoke slot.val := by
  have hop : bits (BitVec.ofNat 64 (slot.val + 8)).toNat 2 2 = 2 := by revert slot; decide
  have hslot : bits (BitVec.ofNat 64 (slot.val + 8)).toNat 0 2 = slot.val := by revert slot; decide
  simp only [setKeyCtrl, hop, hslot]

/-! ### Debug access and the secure bank (R245, R374) -/

/-- In SERVICE, with the policy's debug bit, debug access is unlocked and DEBUG_UNLOCK raised. -/
theorem debugSet_unlocks {s : State} (hl : s.sec.lc = .service) (hp : s.sec.policy.getLsbD 3 = true) :
    ∃ v e, s.debugSet true = (.ok, v) ∧ v.sec.debugUnlocked = true ∧ e ∈ v.log.records ∧ e.code = 0x0125 := by
  obtain ⟨e, he, hcode⟩ := exists_record_raise
    { s.votes [0, 3] with sec := { (s.votes [0, 3]).sec with debugUnlocked := true } } 0x0125 0 0 []
  exact ⟨_, e, by simp [debugSet, hl, hp], rfl, he, hcode⟩

theorem setBankWord_eq {s : State} (h : 1024 ≤ s.sec.bankLine.toNat) (n : Nat) (x : Word) :
    s.setBankWord n x =
      (.ok, { s with sec := { s.sec with bank := tset s.sec.bank (8 * s.sec.bankLine.toNat + n) x } }) := by
  rw [setBankWord, if_neg (by omega)]

/-! ### Random key streams and the ridge DMA's controls (R203, R320) -/

theorem setKeyStream_eq {s : State} {n : Nat} (hj : s.job.state = .paused) (hd : s.rng.declared.getLsbD n = true) (x : Word) :
    s.setKeyStream n x = (.ok, { s with rng := { s.rng with written := tset s.rng.written n x, wrapWarned := false } }) := by
  simp [setKeyStream, hj, hd]

/-- A period of 1 to 1000 ms: telemetry, spill and the ring's base are as written, and memory is untouched. -/
theorem setRidgeCtrl_ok {s : State} {n : Nat} (hlo : 1 ≤ bits n 46 10) (hhi : bits n 46 10 ≤ 1000) :
    ∃ v, s.setRidgeCtrl n = (.ok, v) ∧ v.ridge.telemetryOn = n.testBit 56 ∧ v.ridge.spillOn = n.testBit 57 ∧
      v.ridge.ringBase = BitVec.ofNat 42 (bits n 0 42) ∧ v.mem = s.mem := by
  rw [setRidgeCtrl, if_neg (by omega)]
  refine ⟨_, rfl, rfl, rfl, rfl, ?_⟩
  dsimp only
  split <;> split <;> rfl

/-! ### Regions (R226) -/

@[simp] theorem regionsOf_setRegions (s : State) (o : RegionOwner) (t : Tab Region) : (s.setRegions o t).regionsOf o = t := by
  cases o with
  | bulk => rfl
  | ridge => rfl
  | port p => simp [setRegions, regionsOf]

@[simp] theorem mem_setRegions (s : State) (o : RegionOwner) (t : Tab Region) : (s.setRegions o t).mem = s.mem := by
  cases o <;> rfl

/-- A pair that would break the region is refused. -/
theorem setRegion_broken {s : State} {o : RegionOwner} {k : Nat} {x : Region} (h : regionBreaks x = true) :
    s.setRegion o k x = (.range, s) := by
  rw [setRegion, if_pos h]

theorem setRegion_whole {s : State} {o : RegionOwner} {k : Nat} {x : Region} (h : regionBreaks x = false) :
    s.setRegion o k x = (.ok, s.setRegions o (tset (s.regionsOf o) k x)) := by
  rw [setRegion, h, if_neg Bool.false_ne_true]

end State

end Sys2Proof.Machine

open Sys2Proof Sys2Proof.Machine

/-- Settles O42: each command is a WRITE_REG of its one pair (`MayWrite.regRow_eq`), and the register at its address does with
the value what its own rule says. -/
theorem registerWriteCommands : Obligations.RegisterWriteCommands := by
  unfold Obligations.RegisterWriteCommands
  refine ⟨?named, ?keyStream, ?ridgeCtrl, ?ridgeRelease, ?owner, ?debugAndBank, ?regions⟩
  case named =>
    intro s u v ss q priv r x t hv
    refine ⟨fun a h => ⟨fun hr => ?_, fun hr => ?_, fun hr => ?_⟩, fun h hx => h.regRow_eq t hv hx,
      fun h => ⟨fun hx => h.regRow_eq t hv hx, fun hx => ?_⟩, fun ch h => h.regRow_eq t hv rfl⟩
    · exact h.regRow_eq t hv (h.is ▸ hr)
    · exact h.regRow_eq t hv (h.is ▸ hr)
    · exact h.regRow_eq t hv (h.is ▸ hr)
    · exact h.regRow_eq t hv (by rw [hx]; rfl)
  case keyStream =>
    intro s u ss q priv key x r t h hj hd
    obtain rfl := h.reg_eq (writable_keyStream key)
    exact h.regRow_eq t (State.setKeyStream_eq hj hd x) rfl
  case ridgeCtrl =>
    intro s u ss q priv x r t h hlo hhi
    obtain rfl := h.reg_eq writable_ridgeCtrl
    obtain ⟨v, hv, hfields⟩ := State.setRidgeCtrl_ok (s := u) hlo hhi
    exact ⟨v, h.regRow_eq t hv rfl, h.regRow_eq t hv rfl, hfields⟩
  case ridgeRelease =>
    intro s u ss q priv ch x r t h
    obtain rfl := h.reg_eq (writable_ridgeRelease ch)
    exact h.regRow_eq t rfl rfl
  case owner =>
    rintro s u v ss q priv slot r t hj hl rfl
    refine ⟨fun h hc hs => ?_, fun h hk => ?_, fun x h => ?_⟩
    · obtain rfl := h.reg_eq writable_keyCtrl
      exact h.regRow_eq t ((State.setKeyCtrl_install u slot).trans (State.keyInstall_eq hj hl hc hs)) rfl
    · obtain rfl := h.reg_eq writable_keyCtrl
      exact h.regRow_eq t ((State.setKeyCtrl_revoke u slot).trans (State.keyRevoke_eq hj hl hk)) rfl
    · obtain rfl := h.reg_eq writable_ownerPolicy
      exact h.regRow_eq t (State.policySet_eq hj hl _) rfl
  case debugAndBank =>
    intro s u ss q priv x r t
    refine ⟨fun h hx hl hp => ?_, fun i h hb => ?_⟩
    · subst hx
      obtain rfl := h.reg_eq writable_debugCtrl
      obtain ⟨v, e, hv, hunlocked, hevent⟩ := State.debugSet_unlocks hl hp
      exact ⟨v, e, h.regRow_eq t hv rfl, hunlocked, hevent⟩
    · obtain rfl := h.reg_eq (writable_bankData i)
      exact h.regRow_eq t (State.setBankWord_eq hb i x) rfl
  case regions =>
    intro s o k x
    refine ⟨State.setRegion_broken, fun hx => ⟨_, State.setRegion_whole hx, ?_, ?_, fun j hj => ?_⟩⟩
    · rw [State.regionsOf_setRegions, tget_tset_same]
    · exact State.mem_setRegions _ _ _
    · rw [State.regionsOf_setRegions, tget_tset_other _ _ _ _ _ hj]

end

section
/-! Flags, barriers and waiting: what an increment does to its core, said once (O21, O33, O35); the sync instructions as issues
(O19); the watchdog (O32); arrivals and generations of barriers and the step (O34); and what leaves for another module or comes
from one (O35). -/

namespace Sys2Proof.Machine

/-! ### The gate of a core and its flags (R46, R50, R60) -/

namespace Core

/-- An opened gate counts a wake where it was closed. -/
theorem openGate_eq (c : Core) :
    c.openGate = { c with gated := false, gateWakes := c.gateWakes + if c.gated then 1 else 0 } := by
  unfold openGate
  split
  · simp
  · cases c; simp_all

@[simp] theorem gated_openGate (c : Core) : c.openGate.gated = false := by rw [openGate_eq]

@[simp] theorem gateWakes_openGate (c : Core) : c.openGate.gateWakes = c.gateWakes + if c.gated then 1 else 0 := by
  rw [openGate_eq]

@[simp] theorem halt_openGate (c : Core) : c.openGate.halt = c.halt := by rw [openGate_eq]
@[simp] theorem order_openGate (c : Core) : c.openGate.order = c.order := by rw [openGate_eq]
@[simp] theorem icache_openGate (c : Core) : c.openGate.icache = c.icache := by rw [openGate_eq]
@[simp] theorem outSignals_openGate (c : Core) : c.openGate.outSignals = c.outSignals := by rw [openGate_eq]
@[simp] theorem beside_openGate (c : Core) : c.openGate.beside = c.beside := by rw [openGate_eq]; rfl

@[simp] theorem gated_addFlag (c : Core) (k : Nat) (a : W32) : (c.addFlag k a).gated = c.gated := rfl
@[simp] theorem gateWakes_addFlag (c : Core) (k : Nat) (a : W32) : (c.addFlag k a).gateWakes = c.gateWakes := rfl
@[simp] theorem halt_addFlag (c : Core) (k : Nat) (a : W32) : (c.addFlag k a).halt = c.halt := rfl
@[simp] theorem order_addFlag (c : Core) (k : Nat) (a : W32) : (c.addFlag k a).order = c.order := rfl
@[simp] theorem icache_addFlag (c : Core) (k : Nat) (a : W32) : (c.addFlag k a).icache = c.icache := rfl
@[simp] theorem outSignals_addFlag (c : Core) (k : Nat) (a : W32) : (c.addFlag k a).outSignals = c.outSignals := rfl
@[simp] theorem beside_addFlag (c : Core) (k : Nat) (a : W32) : (c.addFlag k a).beside = c.beside := rfl

/-- An increment as a core takes it, with a clock that stays gated or one whose gate opens (R60, R284). -/
def bumped (c : Core) (stays : Bool) (k : Nat) (a : W32) : Core := if stays then c.addFlag k a else (c.addFlag k a).openGate

section
variable (c : Core) (stays : Bool) (k : Nat) (a : W32)

@[simp] theorem bumped_true : c.bumped true k a = c.addFlag k a := rfl
@[simp] theorem bumped_false : c.bumped false k a = (c.addFlag k a).openGate := rfl
@[simp] theorem flag_bumped (j : Nat) : (c.bumped stays k a).flag j = if j = k then c.flag k + a else c.flag j := by
  cases stays <;> simp
@[simp] theorem ctx_bumped (t : Stream) : (c.bumped stays k a).ctx t = c.ctx t := by cases stays <;> simp
@[simp] theorem halt_bumped : (c.bumped stays k a).halt = c.halt := by cases stays <;> simp
@[simp] theorem order_bumped : (c.bumped stays k a).order = c.order := by cases stays <;> simp
@[simp] theorem icache_bumped : (c.bumped stays k a).icache = c.icache := by cases stays <;> simp
@[simp] theorem outSignals_bumped : (c.bumped stays k a).outSignals = c.outSignals := by cases stays <;> simp
@[simp] theorem beside_bumped : (c.bumped stays k a).beside = c.beside := by cases stays <;> simp

end

end Core

namespace State

/-! ### What an increment leaves -/

theorem staysGated_eq_true (s : State) (n : Nat) :
    s.staysGated n = true ↔ s.image.loaded = true ∧ (s.core n).active = false := by
  simp [staysGated]

theorem staysGated_eq_false (s : State) (n : Nat) :
    s.staysGated n = false ↔ ¬ (s.image.loaded = true ∧ (s.core n).active = false) := by
  rw [← staysGated_eq_true, Bool.not_eq_true]

section Accepted
variable {s : State} {n : Nat} (h : s.roleHeld n = false) (k : Nat) (a : W32)
include h

/-- An increment that the flag unit accepts is one of its core alone. -/
theorem incFlag_accepted : s.incFlag n k a = s.modCore n fun c => c.bumped (s.staysGated n) k a := by
  simp only [incFlag, h, Bool.false_eq_true, if_false, Core.bumped]

theorem core_incFlag : (s.incFlag n k a).core n = (s.core n).bumped (s.staysGated n) k a := by
  simp [incFlag_accepted h]

/-- R46: the amount is added once, modulo 2^32. -/
theorem flag_incFlag : ((s.incFlag n k a).core n).flag k = (s.core n).flag k + a := by simp [core_incFlag h]

theorem core_incFlag_other {m : Nat} (hm : m ≠ n) : (s.incFlag n k a).core m = s.core m := by
  simp [incFlag_accepted h, hm]

theorem beside_incFlag : (s.incFlag n k a).beside = s.beside := by rw [incFlag_accepted h]; rfl

/-- R60: the gate of a core whose clock does not stay off opens. -/
theorem gated_incFlag (hg : s.staysGated n = false) : ((s.incFlag n k a).core n).gated = false := by
  simp [core_incFlag h, hg]

end Accepted

/-- No increment, accepted or held, touches a core's outbound queue. -/
theorem outSignals_incFlag (s : State) (n k : Nat) (a : W32) (m : Nat) :
    ((s.incFlag n k a).core m).outSignals = (s.core m).outSignals := by
  obtain h | h := Bool.eq_false_or_eq_true (s.roleHeld n)
  · rw [incFlag, if_pos h]; rfl
  · rw [incFlag_accepted h, core_modCore]
    split
    · next e => rw [e, Core.outSignals_bumped]
    · rfl

end State

/-! ### The first fault of a core (R41) -/

theorem State.halt_haltCore {s : State} {n : Nat} (h : (s.core n).halt.halted = false) (p : HaltAt) (st : Stop) :
    ((s.haltCore n p st).core n).halt = firstRecord (s.core n).halt p st := by
  rw [core_haltCore_first s n p st h]; rfl

theorem State.modBarriers_haltCore (s : State) (n : Nat) (p : HaltAt) (st : Stop) :
    (s.haltCore n p st).modBarriers = s.modBarriers := by
  unfold State.haltCore
  dsimp only
  repeat' split
  all_goals rfl

/-! ### What the sync instructions do once they have retired (R53, R66, R67) -/

/-- An instruction whose effect has no fault of its own has that effect whenever it passes. -/
theorem issues_of_ok {ctor : CoreInstr} {req : State → CoreId → Stream → Word128 → IssueReq}
    {cond : State → CoreId → Stream → Word128 → Prop} {eff : State → CoreId → Stream → Word128 → State → State}
    (h : ∀ s n t w, exec (ctor n t w) s = s.issue n t w (req s n t w) fun u => .ok (eff s n t w u)) :
    Issues ctor req cond eff :=
  fun s n t w hp _ => (h s n t w).trans (issue_passes hp rfl)

/-- R66: the round of stream t at the barrier that its word names. -/
def Core.roundOf (c : Core) (t : Stream) (w : Word128) : BitVec 2 := tget c.rounds (roundKey (fBits w 38 2) (fBits w 32 6) t) 0

/-- R67: the arrival of stream t at the barrier that its word names, in a round of its own. -/
def State.arrivalOf (s : State) (n : Nat) (t : Stream) (w : Word128) (round : BitVec 2) : Arrival :=
  { level := fBits w 38 2, course := courseOf n, barrier := fBits w 32 6, core := n, stream := t, round := round.toNat,
    region := ((s.core n).ctx t).pcRegion, index := ((s.core n).ctx t).pcIndex }

/-- The entry of an arrival that its stream keeps until the release. -/
def Arrival.waiting (a : Arrival) : Unreleased :=
  { level := a.level, course := a.course, barrier := a.barrier, gen := a.round, done := false }

/-- The core with an arrival not yet released, its stream's next round at the barrier being `next`. -/
def Core.arrive (c : Core) (a : Arrival) (next : BitVec 2) : Core :=
  { c.modCtx a.stream (fun y => { y with unreleased := y.unreleased ++ [a.waiting] }) with
    rounds := tset c.rounds (roundKey a.level a.barrier a.stream) next }

/-- The same with the arrival on its way to its barrier unit. -/
def State.arrive (s : State) (a : Arrival) (next : BitVec 2) : State :=
  { s.modCore a.core fun c => c.arrive a next with arrivals := s.arrivals ++ [a] }

theorem execBarrier_eq (s : State) (n : CoreId) (t : Stream) (w : Word128) :
    execBarrier n t w s = s.issue n t w (barrierReq s n t w) fun u =>
      .ok (u.arrive (s.arrivalOf n t w ((u.core n).roundOf t w)) ((u.core n).roundOf t w + 1)) := rfl

theorem Core.unreleased_arrive (c : Core) (a : Arrival) (next : BitVec 2) :
    ((c.arrive a next).ctx a.stream).unreleased = (c.ctx a.stream).unreleased ++ [a.waiting] := by
  unfold Core.arrive
  cases a.stream <;> rfl

theorem State.core_arrive (s : State) (a : Arrival) (next : BitVec 2) :
    (s.arrive a next).core a.core = (s.core a.core).arrive a next :=
  (State.core_modCore s a.core a.core fun c => c.arrive a next).trans (if_pos rfl)

theorem State.unreleased_arrive (s : State) (a : Arrival) (next : BitVec 2) :
    (((s.arrive a next).core a.core).ctx a.stream).unreleased = ((s.core a.core).ctx a.stream).unreleased ++ [a.waiting] := by
  rw [State.core_arrive, Core.unreleased_arrive]

/-- Retiring releases nothing. -/
theorem unreleased_retire (s : State) (n : Nat) (t : Stream) :
    (((s.retire n t).core n).ctx t).unreleased = ((s.core n).ctx t).unreleased := by
  obtain ⟨f, p, q, d, h⟩ := ctx_retire s n t
  rw [h]

/-! ### The watchdog (R61, R62) -/

/-- WAIT_TIMEOUT of an unmet wait: the flag, its value and the compare value. -/
def State.waitStop (s : State) (n : Nat) (t : Stream) (w : Word128) : Stop :=
  { reason := 0x0E, flag := fWaitFlag w,
    info := ((s.core n).flag (fWaitFlag w)).toNat * 2 ^ 32 + (s.sreg n t (fWaitSreg w)).toNat % 2 ^ 32 }

section
variable {s : State} {n : CoreId} {t : Stream} {w : Word128} (hw : s.waitsOn n t = some w)
include hw

theorem execWaitTimeout_due (hdue : (s.core n).barks t = true) (hfirst : s.barksFirst n t = false) :
    execWaitTimeout n t s =
      .next ((s.haltIssue n 6 t (s.waitStop n t w)).modCtx n t fun x => { x with wdog := 0 }) := by
  simp [execWaitTimeout, hw, hdue, hfirst, State.waitStop, State.sreg]

theorem execWaitTimeout_early (hearly : (s.core n).barks t = false) : execWaitTimeout n t s = .next s := by
  simp [execWaitTimeout, hw, hearly]

end

/-! ### Barriers (R67, R70) -/

/-- R67: an arrival of neither generation of its barrier takes its entry away and halts its core with BARRIER_OVERRUN. -/
def State.overrun (s : State) (a : Arrival) (gen : Nat) : State :=
  (s.modCtx a.core a.stream fun x =>
    { x with unreleased := x.unreleased.eraseP fun u =>
        u.level == a.level && u.barrier == a.barrier && u.gen == a.round && !u.done }).haltCore a.core
    { engine := 6, stream := a.stream.toNat, region := a.region, index := a.index }
    { reason := 0x0F, info := a.barrier + a.level * 2 ^ 8 + a.round * 2 ^ 10 + gen * 2 ^ 12 }

/-- What an arrival does that no earlier one of its stream goes before. -/
theorem execBarrierArrival_eq {s : State} {k : Nat} {a : Arrival} (ha : s.arrivals[k]? = some a)
    (hfirst : ((s.arrivals.take k).any fun x => x.core == a.core && x.stream == a.stream) = false) :
    let b := s.barrier a.level a.course a.barrier
    let u : State := { s with arrivals := s.arrivals.eraseIdx k }
    execBarrierArrival k s =
      if a.round = b.gen then
        .next ((u.setBarrier a.level a.course a.barrier { b with arrived := b.arrived + 1 }).settleBarrier
          a.level a.course a.barrier 2)
      else if a.round = (b.gen + 1) % 4 then
        .next (u.setBarrier a.level a.course a.barrier { b with look := b.look + 1 })
      else .next (u.overrun a b.gen) := by
  intro b u
  simp only [execBarrierArrival, ha, hfirst]
  rfl

theorem State.halt_overrun {s : State} {a : Arrival} (h : (s.core a.core).halt.halted = false) (gen : Nat) :
    ((s.overrun a gen).core a.core).halt.halted = true ∧ ((s.overrun a gen).core a.core).halt.reason = 0x0F := by
  rw [State.overrun, State.halt_haltCore (by simpa using h)]
  exact ⟨rfl, rfl⟩

theorem State.modBarriers_overrun (s : State) (a : Arrival) (gen : Nat) : (s.overrun a gen).modBarriers = s.modBarriers :=
  State.modBarriers_haltCore ..

/-- R70: a member's arrival is recorded at the root. -/
theorem execBarrierArrive_root {s u : State} {f : Fin 16} {gen : BitVec 2} {src : ModAddr}
    (htaken : s.takeOperand 0x13 src (f.val + gen.toNat * 16) = some u)
    (hdeclared : (u.barrier 2 0 f).declared = true) (hroot : (u.barrier 2 0 f).root = u.fabric.coord) :
    execBarrierArrive f gen src s = .next (((u.setBarrier 2 0 f { u.barrier 2 0 f with
      remote := (src, gen.toNat) :: (u.barrier 2 0 f).remote }).settleRoot f).settleBarrier 2 0 f 2) := by
  simp [execBarrierArrive, htaken, hdeclared, hroot]

/-- R70: the root's release completes the open generation of a member that has arrived. -/
theorem execBarrierRelease_arrived {s u : State} {f : Fin 16} {gen : BitVec 2}
    (htaken : s.takeOperand 0x14 (s.barrier 2 0 f).root (f.val + gen.toNat * 16) = some u)
    (hdeclared : (u.barrier 2 0 f).declared = true) (hdone : (u.barrier 2 0 f).localDone = true)
    (hgen : (u.barrier 2 0 f).gen = gen.toNat) :
    execBarrierRelease f gen s = .next ((u.completeBarrier 2 0 f).settleBarrier 2 0 f 2) := by
  simp [execBarrierRelease, htaken, hdeclared, hdone, hgen]

/-! ### The step (R215) -/

@[simp] theorem State.mem_publishSchedule (s : State) (c : Nat) : (s.publishSchedule c).mem = s.mem := rfl

@[simp] theorem State.course_publishSchedule (s : State) (c d : Nat) :
    (s.publishSchedule c).course d = if d = c then
      { s.course c with sched := s.image.bodies.params.map fun p => (p.1, scheduleAt p.2 (s.course c).step.toNat) }
    else s.course d := by
  simp [State.publishSchedule]

@[simp] theorem State.mem_stepEvents (s : State) (c : Nat) : (s.stepEvents c).mem = s.mem := by
  unfold State.stepEvents
  dsimp only
  repeat' split
  all_goals rfl

@[simp] theorem State.course_stepEvents (s : State) (c d : Nat) : (s.stepEvents c).course d = s.course d := by
  unfold State.stepEvents
  dsimp only
  repeat' split
  all_goals rfl

/-- The course's step advances, the values of that step are published, and its events are raised. -/
def State.advanceStep (s : State) (c : Nat) : State :=
  ((s.modCourse c fun x => { x with step := x.step + 1 }).publishSchedule c).stepEvents c

theorem State.course_advanceStep (s : State) (c d : Nat) :
    (s.advanceStep c).course d = if d = c then
      { s.course c with
        step := (s.course c).step + 1
        sched := s.image.bodies.params.map fun p => (p.1, scheduleAt p.2 ((s.course c).step + 1).toNat) }
    else s.course d := by
  by_cases h : d = c <;> simp [State.advanceStep, h]

theorem State.mem_advanceStep (s : State) (c : Nat) : (s.advanceStep c).mem = s.mem := by simp [State.advanceStep]

theorem execStepAdvance_full {s : State} {c : CourseId} (hloaded : s.image.loaded = true)
    (hdeclared : (s.barrier 0 c s.image.bodies.stepBarrier).declared = true)
    (hparts : (s.barrier 0 c s.image.bodies.stepBarrier).parts ≠ [])
    (hfull : (s.barrier 0 c s.image.bodies.stepBarrier).full = true) :
    execStepAdvance c s = .next ((s.advanceStep c).completeBarrier 0 c s.image.bodies.stepBarrier) := by
  simp [execStepAdvance, hloaded, hdeclared, hparts, hfull, State.advanceStep]

/-! ### Frames taken out of an inbox (R254) -/

/-- Credits are freed at ports alone. -/
theorem owe_eq (s : State) (l : List (Nat × Nat × Nat)) : ∃ ports, owe s l = { s with ports := ports } := by
  induction l generalizing s with
  | nil => exact ⟨s.ports, rfl⟩
  | cons x r ih =>
    obtain ⟨ports, h⟩ := ih (s.modPort x.1 fun q => q.free x.2.1 x.2.2)
    exact ⟨ports, h⟩

/-- A frame leaves the inbox and the pool of its port: nothing else of the module changes. -/
theorem State.takeFrame_eq {s u : State} {p : Nat} {f : Frame} (h : s.takeFrame p f = some u) :
    ∃ ports, u = { s with ports := ports } := by
  unfold State.takeFrame at h
  dsimp only at h
  split at h
  · next g _ =>
    split at h
    · split at h
      · exact ⟨_, (Option.some.inj h).symm⟩
      · obtain ⟨ports, e⟩ := owe_eq (s.modPort p fun y => { y with inbox := y.inbox.erase f }) [(p, s.hopKey p false f, frameCost f)]
        exact ⟨ports, (Option.some.inj h).symm.trans e⟩
    · split at h
      · cases h
      · exact ⟨s.ports, (Option.some.inj h).symm⟩
  · exact ⟨s.ports, (Option.some.inj h).symm⟩

/-! ### Increments that leave or arrive (R53, R55, R57) -/

/-- With no destination arrival on the path of its writes, a core's increments overtake nothing. -/
theorem State.flushArrivals_none {s : State} {n : Nat} (h : ∀ p ∈ (s.core n).arrives, p.onPath = false) (k : Nat) :
    s.flushArrivals n k = s := by
  have hdue : (s.core n).arrives.filter (fun p => p.onPath && p.core == k) = [] := by
    rw [List.filter_eq_nil_iff]
    intro p hp
    simp [h p hp]
  simp [State.flushArrivals, hdue]

/-- The state with the k-th entry of core c's outbound queue gone. -/
def State.dropSignal (s : State) (c k : Nat) : State :=
  s.modCore c fun x => { x with outSignals := x.outSignals.eraseIdx k }

@[simp] theorem State.outSignals_dropSignal (s : State) (c k : Nat) :
    ((s.dropSignal c k).core c).outSignals = (s.core c).outSignals.eraseIdx k := by simp [State.dropSignal]

@[simp] theorem State.flag_dropSignal (s : State) (c k n j : Nat) : ((s.dropSignal c k).core n).flag j = (s.core n).flag j := by
  rw [State.dropSignal, State.core_modCore]
  split
  · next h => rw [h]; rfl
  · rfl

section Outbound
variable {s : State} {c : CoreId} {k : Nat} {g : OutSignal} (hg : (s.core c).outSignals[k]? = some g)
include hg

/-- R55: an increment behind another of its path stays. -/
theorem execIncrement_behind (h : ((s.core c).outSignals.take k).any g.samePath = true) :
    execIncrement (.outbound c k) s = .next s := by
  simp [execIncrement, hg, h]

variable (hfirst : ((s.core c).outSignals.take k).any g.samePath = false)
include hfirst

theorem execIncrement_away (h : g.module ≠ s.fabric.coord) :
    execIncrement (.outbound c k) s = .next ((s.dropSignal c k).sendSignal c g) := by
  have hflush : (decide (g.module = s.fabric.coord) && g.vc == 0) = false := by simp [h]
  simp only [execIncrement, hg, hfirst, hflush, Bool.false_eq_true, if_false]
  rfl

theorem execIncrement_here (h : g.module = s.fabric.coord) (hpath : ∀ p ∈ (s.core c).arrives, p.onPath = false) :
    execIncrement (.outbound c k) s = .next ((s.dropSignal c k).incFlag g.core g.flag g.amount) := by
  have hsend : (s.dropSignal c k).sendSignal c g = (s.dropSignal c k).incFlag g.core g.flag g.amount := if_pos h
  simp only [execIncrement, hg, hfirst, Bool.false_eq_true, if_false, State.flushArrivals_none hpath, ite_self]
  exact congrArg _ hsend

end Outbound

section FrameIncrement
variable {s u : State} {p : PortId} {f : Frame} (htype : f.type = 0x04) (htaken : s.takeFrame p f = some u)
include htype htaken

theorem execIncrement_frame (h : fOp f 11 9 < 480) :
    execIncrement (.frame p f) s =
      .next (u.incFlag (fOp f 0 11) (fOp f 11 9) (BitVec.ofNat 32 (natAt f.payload 0 4))) := by
  simp [execIncrement, htype, htaken, h]

theorem execIncrement_noFlag (h : 480 ≤ fOp f 11 9) : execIncrement (.frame p f) s = .next u := by
  simp [execIncrement, htype, htaken, h]

end FrameIncrement

/-! ### Remote writes (R259, R276) -/

/-- A frame of whole lines carries at least one. -/
theorem frameLines_pos {f : Frame} {n : Nat} (h : frameLines f = some n) : 0 < n := by
  unfold frameLines at h
  dsimp only at h
  split at h
  · next hn => exact Option.some.inj h ▸ hn.2.1
  · cases h

/-- A frame none of whose lines is refused has them written, and is acknowledged if it asks for it. -/
theorem remoteWrite_permitted {s : State} {p : Nat} {f : Frame} {n : Nat} (hn : frameLines f = some n)
    (hregion : countOf (writeRemote p s (frameAddr f) (toLines n f.payload)).2 0x0A = 0)
    (hlive : countOf (writeRemote p s (frameAddr f) (toLines n f.payload)).2 0x0C = 0) (acked : Bool) :
    remoteWrite s p f acked =
      let x := writeRemote p s (frameAddr f) (toLines n f.payload)
      if acked then (x.1.noteCopies f (frameAddr f) x.2).sendAck (answer f 0x03 n) (frameAddr f) n
      else x.1.noteCopies f (frameAddr f) x.2 := by
  simp [remoteWrite, hn, hregion, hlive, frameLines_pos hn]

/-- No line of a re-shard's slot is noted for a line that was refused. -/
theorem State.noteCopies_refused (s : State) (f : Frame) (a : Nat) {st : Nat} (h : st ≠ 0) : s.noteCopies f a [st] = s := by
  simp [State.noteCopies, h]

/-- A frame of one line that its port's regions do not permit is counted and refused. -/
theorem remoteWrite_denied {s : State} {p : Nat} {f : Frame} (hn : frameLines f = some 1)
    (h : s.permits (s.port p).regions .write (frameAddr f) = false) (acked : Bool) :
    remoteWrite s p f acked = (s.modPort p fun y => { y with remoteRefused := sat32 y.remoteRefused 1 }).sendFrame
      (answer f 0x07 (0x0A + 2 ^ 8)) := by
  have hwrite : writeRemote p s (frameAddr f) (toLines 1 f.payload) = (s, [0x0A]) := by
    simp [toLines, writeRemote, h]
  simp [remoteWrite, hn, hwrite, State.noteCopies_refused, countOf]

theorem writeRemote_permitted {s : State} {p a : Nat} (hregion : s.permits (s.port p).regions .write a = true)
    (hlive : s.liveAt a = none) (l : List Byte) (r : List (List Byte)) :
    writeRemote p s a (l :: r) =
      ((writeRemote p (s.writeLine a l (2120 + p)) (a + 64) r).1, 0 :: (writeRemote p (s.writeLine a l (2120 + p)) (a + 64) r).2) := by
  simp [writeRemote, hregion, hlive]

theorem State.sendAck_committed {s : State} {a n : Nat} (h : s.lineWaits a n = none) (f : Frame) : s.sendAck f a n = s.sendFrame f := by
  simp [State.sendAck, h]

theorem State.sendAck_waits {s : State} {a n : Nat} {x : Option Nat × Nat} (h : s.lineWaits a n = some x) (f : Frame) :
    s.sendAck f a n = { s with held := s.held ++ [{ core := x.1, course := x.2, op := .ack f a n }] } := by
  simp [State.sendAck, h]

/-! ### Requests, once taken (R259) -/

section Taken
variable {s u : State} {p : PortId} {f : Frame} (htaken : s.takeFrame p f = some u)
include htaken

theorem execWriteFrame_taken (htype : f.type = 0x01) : execWriteFrame p f s = .next (remoteWrite u p f false) := by
  simp [execWriteFrame, htype, htaken]

theorem execWriteAcked_taken (htype : f.type = 0x02) : execWriteAcked p f s = .next (remoteWrite u p f true) := by
  simp [execWriteAcked, htype, htaken]

theorem execReadReq_taken (htype : f.type = 0x05) : execReadReq p f s = .next (u.answerRead p f) := by
  simp [execReadReq, htype, htaken]

end Taken

/-! ### Remote reads (R259, R337, R350) -/

section Read
variable {s v : State} {p : PortId} {f : Frame}

theorem State.answerRead_ok (hfree : (requestLines f).find? s.lineHeld = none) {d : List Byte}
    (h : readRemote p s (requestLines f) = (v, .ok d)) : s.answerRead p f = v.sendFrame (answer f 0x06 0 d) := by
  simp [State.answerRead, hfree, h]

theorem State.answerRead_error (hfree : (requestLines f).find? s.lineHeld = none) {e : Nat}
    (h : readRemote p s (requestLines f) = (v, .error e)) : s.answerRead p f = v.sendFrame (answer f 0x06 e) := by
  simp [State.answerRead, hfree, h]

theorem State.answerRead_held {a : Nat} (h : (requestLines f).find? s.lineHeld = some a) :
    s.answerRead p f =
      { s with held := s.held ++ [{ core := (State.heldUnit a).1, course := (State.heldUnit a).2, op := .read p f }] } := by
  simp [State.answerRead, h]

end Read

end Sys2Proof.Machine

open Sys2Proof Sys2Proof.Machine

/-- Settles O19: each goes through the issue stage with an effect that has no fault of its own (`issues_of_ok`), BARRIER's being
`State.arrive`. -/
theorem syncInstructions : Obligations.SyncInstructions := by
  refine ⟨?nop, ?wait, ?signal, ?testwin, ?codeswap, ?halt, ?barrier⟩
  case nop => exact issues_of_ok fun _ _ _ _ => rfl
  case wait => exact issues_of_ok fun _ _ _ _ => rfl
  case testwin => exact issues_of_ok fun _ _ _ _ => rfl
  case codeswap => exact issues_of_ok fun _ _ _ _ => rfl
  case halt => exact issues_of_ok fun _ _ _ _ => rfl
  case signal =>
    refine issues_of_ok fun s n t w => ?_
    rw [exec_signal, execSignal]
    congr 1
    funext u
    cases hd : ((s.core n).ctx t).dreg (fA w) with
    | none => rfl
    | some d =>
      cases hr : d.rflag with
      | none => simp [hr]
      | some r => cases hs : fSigEn w <;> simp [hr]
  case barrier =>
    intro s n t w h
    let round := ((s.retire n t).core n).roundOf t w
    let a := s.arrivalOf n t w round
    refine ⟨(s.retire n t).arrive a (round + 1), (execBarrier_eq s n t w).trans (issue_passes h rfl),
      a, rfl, rfl, rfl, rfl, rfl, rfl, rfl, rfl, round.isLt, ?_⟩
    calc ((((s.retire n t).arrive a (round + 1)).core n).ctx t).unreleased
        = (((s.retire n t).core n).ctx t).unreleased ++ [a.waiting] := State.unreleased_arrive (s.retire n t) a _
      _ = ((s.core n).ctx t).unreleased ++ [a.waiting] := by rw [unreleased_retire]

/-- Settles O21: an accepted increment changes its core alone (`State.incFlag_accepted`), and there one flag and the gate. -/
theorem incrementAddsOnce : Obligations.IncrementAddsOnce := by
  intro s n k a h
  rw [State.core_incFlag h, State.beside_incFlag h]
  refine ⟨?flag, ?otherFlags, ?opens, ?staysShut, ?halt, ?beside, ?ctx, ?order, ?icache, ?otherCores, rfl⟩
  case flag => simp
  case otherFlags => intro j hj; simp [hj]
  case opens =>
    intro hg
    rw [(s.staysGated_eq_false n).mpr hg]
    exact ⟨Core.gated_openGate _, Core.gateWakes_openGate _⟩
  case staysShut =>
    intro hl ha
    rw [(s.staysGated_eq_true n).mpr ⟨hl, ha⟩]
    exact ⟨rfl, rfl⟩
  case halt => exact Core.halt_bumped ..
  case beside => exact Core.beside_bumped ..
  case ctx => exact Core.ctx_bumped _ _ _ _
  case order => exact Core.order_bumped ..
  case icache => exact Core.icache_bumped ..
  case otherCores => exact fun m hm => State.core_incFlag_other h k a hm

/-- Settles O32: a watchdog that is due halts its core (`execWaitTimeout_due`), whose first fault is recorded. -/
theorem watchdogHaltsTheCore : Obligations.WatchdogHaltsTheCore := by
  intro s n t w hw hrun
  refine ⟨fun hdue hfirst => ?_, fun hbelow => ?_⟩
  · refine ⟨_, execWaitTimeout_due hw (decide_eq_true hdue) hfirst, ?_⟩
    rw [State.core_modCtx, if_pos rfl, Core.halt_modCtx]
    exact State.halt_haltCore hrun ..
  · exact execWaitTimeout_early hw (decide_eq_false (Nat.not_le.mpr hbelow))

/-- Settles O33: GATE_CLOSE asks for a quiet core and quiet streams, and an increment opens what it may (`State.gated_incFlag`). -/
theorem clockGate : Obligations.ClockGate := by
  refine ⟨?closes, ?busy, ?opens⟩
  case closes =>
    intro s n hopen hquiet hstreams
    simp [execGateClose, hopen, hquiet, hstreams]
  case busy =>
    intro s n hbusy
    simp [execGateClose, hbusy]
  case opens =>
    intro s n k a h hg
    exact State.gated_incFlag h k a ((s.staysGated_eq_false n).mpr hg)

/-- Settles O34: the three cases of an arrival (`execBarrierArrival_eq`), a member's arrival and the root's release (R70), and the
step that a full step barrier lets advance (`State.advanceStep`). -/
theorem barriersAndSteps : Obligations.BarriersAndSteps := by
  refine ⟨?arrival, ⟨?member, ?release⟩, ?step⟩
  case arrival =>
    intro s k a ha hfirst b u
    have harrives := execBarrierArrival_eq ha hfirst
    refine ⟨fun hopen => harrives.trans (if_pos hopen), fun hpast hnext => harrives.trans ?_, fun hpast hbeyond hrun => ?_⟩
    · rw [if_neg hpast, if_pos hnext]
    · obtain ⟨hhalted, hreason⟩ := State.halt_overrun (s := u) hrun b.gen
      refine ⟨u.overrun a b.gen, harrives.trans ?_, hhalted, hreason, State.modBarriers_overrun ..⟩
      rw [if_neg hpast, if_neg hbeyond]
  case member => exact fun s u f gen src => execBarrierArrive_root
  case release => exact fun s u f gen => execBarrierRelease_arrived
  case step =>
    intro s c b hloaded hdeclared hparts hfull
    refine ⟨s.advanceStep c, execStepAdvance_full hloaded hdeclared hparts (beq_iff_eq.mpr hfull), ?_, ?_,
      State.mem_advanceStep .., fun d hd => ?_⟩
    · rw [State.course_advanceStep, if_pos rfl]
    · rw [State.course_advanceStep, if_pos rfl]
    · rw [State.course_advanceStep, if_neg hd]

/-- Settles O35: increments that leave or come (`execIncrement_here`, `execIncrement_away`, `execIncrement_frame`), writes whose
lines are permitted or not (`remoteWrite_permitted`, `remoteWrite_denied`), and reads answered or held. -/
theorem remoteRequests : Obligations.RemoteRequests := by
  refine ⟨?outbound, ?increments, ?writes, ?denied, ?line, ?ack, ?read⟩
  case outbound =>
    intro s c k g hg
    refine ⟨fun hfirst hhere hrole hpath => ?_, fun hfirst haway => ?_, execIncrement_behind hg⟩
    · refine ⟨_, execIncrement_here hg hfirst hhere hpath, ?_, ?_, State.mem_incFlag ..⟩
      · rw [State.outSignals_incFlag, State.outSignals_dropSignal]
      · rw [State.flag_incFlag (s := s.dropSignal c k) hrole, State.flag_dropSignal]
    · exact (execIncrement_away hg hfirst haway).trans (congrArg _ (if_neg haway))
  case increments =>
    intro s u p f htype htaken
    refine ⟨fun hflag hrole => ?_, execIncrement_noFlag htype htaken⟩
    obtain ⟨ports, rfl⟩ := State.takeFrame_eq htaken
    exact ⟨_, execIncrement_frame htype htaken hflag, State.flag_incFlag (s := { s with ports := ports }) hrole .., State.mem_incFlag ..⟩
  case writes =>
    intro s u p f n htaken hn x hregion hlive
    refine ⟨fun htype => ?_, fun htype => ?_⟩
    · exact (execWriteFrame_taken htaken htype).trans (congrArg _ (remoteWrite_permitted hn hregion hlive false))
    · exact (execWriteAcked_taken htaken htype).trans (congrArg _ (remoteWrite_permitted hn hregion hlive true))
  case denied =>
    intro s u p f htype htaken hn hdenied
    exact (execWriteFrame_taken htaken htype).trans (congrArg _ (remoteWrite_denied hn hdenied false))
  case line =>
    intro s u p a l r hregion hlive hrest
    rw [writeRemote_permitted hregion hlive, hrest]
  case ack =>
    exact fun s f a n => ⟨fun h => State.sendAck_committed h f, fun x h => State.sendAck_waits h f⟩
  case read =>
    intro s u v p f htype htaken
    have hexec : exec (.readReq p f) s = .next (u.answerRead p f) := execReadReq_taken htaken htype
    refine ⟨fun hfree => ⟨fun d h => ?_, fun e h => ?_⟩, fun a h => ?_⟩
    · rw [hexec, State.answerRead_ok hfree h]
    · rw [hexec, State.answerRead_error hfree h]
    · rw [hexec, State.answerRead_held h]

end

section
/-! DMA: the engine's queue, the begin of a transfer and its record (O27, O28); what the record's own line leaves of its core, so that
each record counts once (O28); and the ridge DMA's snapshots and spills (O52). -/

namespace Sys2Proof.Machine

/-! ### What a write of a line leaves of a core's channels and flags -/

/-- Changing every unit of a table in what g does not show leaves what g shows of each unit. -/
theorem tget_map_keeps {α β : Type} (g : α → β) {F : Nat × α → Nat × α} (hF : ∀ x, (F x).1 = x.1 ∧ g (F x).2 = g x.2) (t : Tab α)
    (k : Nat) (d : α) : g (tget (t.map F) k d) = g (tget t k d) := by
  induction t with
  | nil => rfl
  | cons x r ih =>
    obtain ⟨hkey, hunit⟩ := hF x
    simp only [List.map_cons, tget, hkey]
    split
    · exact hunit
    · exact ih

@[simp] theorem inReset_setUlPower (c : Course) (b v : Nat) : (c.setUlPower b v).inReset = c.inReset := by
  unfold Course.setUlPower; split <;> rfl

@[simp] theorem migration_setUlPower (c : Course) (b v : Nat) : (c.setUlPower b v).migration = c.migration := by
  unfold Course.setUlPower; split <;> rfl

@[simp] theorem Core.chans_openGate (c : Core) : c.openGate.chans = c.chans := by rw [openGate_eq]

@[simp] theorem Core.chans_bumped (c : Core) (stays : Bool) (k : Nat) (a : W32) : (c.bumped stays k a).chans = c.chans := by
  cases stays
  · exact Core.chans_openGate _
  · rfl

namespace State

@[simp] theorem flag_freshRows (t bank : Nat) (c : Core) (j : Nat) : (freshRows t bank c).flag j = c.flag j := by
  unfold freshRows; split <;> rfl

@[simp] theorem chans_freshRows (t bank : Nat) (c : Core) : (freshRows t bank c).chans = c.chans := by
  unfold freshRows; split <;> rfl

/-- Whether the role of core n is held depends on the cores in reset, and on the reset and the migration of its course. -/
theorem roleHeld_congr {s t : State} {n : Nat} (hcores : t.coreReset = s.coreReset)
    (hreset : (t.course (courseOf n)).inReset = (s.course (courseOf n)).inReset)
    (hmig : (t.course (courseOf n)).migration = (s.course (courseOf n)).migration) : t.roleHeld n = s.roleHeld n := by
  simp only [roleHeld, hcores, hreset, hmig]

/-- What a record of core n's DMA engine counts in and increments: flag j, the channels, and whether an increment is held. -/
def recordView (s : State) (n j : Nat) : W32 × Tab DmaChan × Bool := ((s.core n).flag j, (s.core n).chans, s.roleHeld n)

section
variable (s : State) (n j : Nat)

theorem recordView_modCore (m : Nat) {f : Core → Core} (hflag : ∀ c, (f c).flag j = c.flag j) (hchans : ∀ c, (f c).chans = c.chans) :
    (s.modCore m f).recordView n j = s.recordView n j := by
  simp only [recordView, core_modCore, roleHeld_modCore]
  split
  · next e => rw [e, hflag, hchans]
  · rfl

theorem recordView_modCourse (c : Nat) {f : Course → Course} (hreset : ∀ x, (f x).inReset = x.inReset)
    (hmig : ∀ x, (f x).migration = x.migration) : (s.modCourse c f).recordView n j = s.recordView n j := by
  have hrole : (s.modCourse c f).roleHeld n = s.roleHeld n := by
    refine roleHeld_congr rfl ?_ ?_
    all_goals
      rw [course_modCourse]
      split
      · next e => simp only [e, hreset, hmig]
      · rfl
  rw [recordView, hrole]
  rfl

@[simp] theorem recordView_modStack (k : Nat) (f : Stack → Stack) : (s.modStack k f).recordView n j = s.recordView n j := rfl

@[simp] theorem recordView_raise (code kind source : Nat) (fields : List (Nat × Nat)) :
    (s.raise code kind source fields).recordView n j = s.recordView n j := rfl

@[simp] theorem recordView_zeroRange (base bytes : Nat) : (s.zeroRange base bytes).recordView n j = s.recordView n j := rfl

@[simp] theorem recordView_setBankState (a v : Nat) : (s.setBankState a v).recordView n j = s.recordView n j := by
  unfold setBankState
  dsimp only
  split
  · refine recordView_modCore _ _ _ _ (fun c => ?_) fun c => ?_
    · split
      · exact flag_freshRows ..
      · rfl
    · split
      · exact chans_freshRows ..
      · rfl
  · exact recordView_modCourse _ _ _ _ (fun c => inReset_setUlPower ..) fun c => migration_setUlPower ..
  · rfl

@[simp] theorem recordView_wakeBank (a master : Nat) : (s.wakeBank a master).recordView n j = s.recordView n j := by
  unfold wakeBank
  split
  · exact recordView_setBankState ..
  · rw [recordView_raise, recordView_setBankState, recordView_zeroRange]
  · rw [recordView_raise, recordView_setBankState, recordView_zeroRange]
  · rfl

@[simp] theorem recordView_takeFlip (a : Nat) : (s.takeFlip a).2.recordView n j = s.recordView n j := by
  unfold takeFlip
  split
  · dsimp only; split <;> rfl
  · dsimp only
    split
    · exact recordView_modCourse _ _ _ _ (fun _ => rfl) fun _ => rfl
    · rfl
  · dsimp only
    split
    · exact recordView_modCore _ _ _ _ (fun _ => rfl) fun _ => rfl
    · rfl
  · rfl

@[simp] theorem recordView_dropCodeCache (a : Nat) : (s.dropCodeCache a).recordView n j = s.recordView n j := by
  have hrole : (s.dropCodeCache a).roleHeld n = s.roleHeld n := by
    unfold dropCodeCache
    split
    · refine roleHeld_congr rfl (tget_map_keeps Course.inReset (fun x => ?_) s.courses _ _)
        (tget_map_keeps Course.migration (fun x => ?_) s.courses _ _)
      · exact ⟨rfl, rfl⟩
      · exact ⟨rfl, rfl⟩
    · rfl
  rw [recordView, hrole]
  unfold dropCodeCache
  split <;> rfl

/-- Storing a line touches memory, masks, scrubbers and code caches alone. -/
@[simp] theorem recordView_putLine (a : Nat) (l : List Byte) : (s.putLine a l).recordView n j = s.recordView n j := by
  have hcache : ∀ u : State, (if a < 0x018000000000 then u.dropCodeCache a else u).recordView n j = u.recordView n j := by
    intro u
    split
    · exact recordView_dropCodeCache ..
    · rfl
  have hstored (m : List Host.Cell) (e : Tab (List Nat)) :
      ({ (s.takeFlip a).2 with mem := m, memErr := e } : State).recordView n j = s.recordView n j := recordView_takeFlip s n j a
  unfold putLine
  dsimp only
  rw [hcache]
  split
  · exact (recordView_modStack ..).trans (hstored ..)
  · refine (recordView_modCourse _ n j _ ?_ ?_).trans (hstored ..)
    · exact fun _ => rfl
    · exact fun _ => rfl
  · refine (recordView_modCore _ n j _ ?_ ?_).trans (hstored ..)
    · exact fun _ => rfl
    · exact fun _ => rfl
  · exact hstored ..

theorem recordView_incFlag (m : Nat) {k : Nat} (a : W32) (hk : k ≠ j) : (s.incFlag m k a).recordView n j = s.recordView n j := by
  obtain h | h := Bool.eq_false_or_eq_true (s.roleHeld m)
  · rw [incFlag, if_pos h]; rfl
  · rw [incFlag_accepted h]
    exact recordView_modCore _ _ _ _ (fun c => by rw [Core.flag_bumped, if_neg hk.symm]) fun c => Core.chans_bumped ..

/-- Increments in a row of other flags leave what one leaves. -/
theorem recordView_incFlags {α : Type} (l : List α) (m k : α → Nat) (a : α → W32) (hk : ∀ p ∈ l, k p ≠ j) :
    (l.foldl (fun s p => s.incFlag (m p) (k p) (a p)) s).recordView n j = s.recordView n j := by
  induction l generalizing s with
  | nil => rfl
  | cons p r ih =>
    rw [List.forall_mem_cons] at hk
    exact (ih _ hk.2).trans (recordView_incFlag _ _ _ _ _ hk.1)

theorem recordView_flushArrivals (m k : Nat) (h : ∀ p ∈ (s.core m).arrives, p.flag ≠ j) :
    (s.flushArrivals m k).recordView n j = s.recordView n j := by
  unfold flushArrivals
  dsimp only
  split
  · rfl
  · exact (recordView_incFlags _ _ _ _ _ _ _ fun p hp => h p (List.mem_of_mem_filter hp)).trans
      (recordView_modCore _ _ _ _ (fun _ => rfl) fun _ => rfl)

theorem recordView_flushSignals (m k : Nat) (h : ∀ g ∈ (s.core m).outSignals, g.flag ≠ j) :
    (s.flushSignals m k).recordView n j = s.recordView n j := by
  unfold flushSignals
  dsimp only
  split
  · rfl
  · exact (recordView_incFlags _ _ _ _ _ _ _ fun g hg => h g (List.mem_of_mem_filter hg)).trans
      (recordView_modCore _ _ _ _ (fun _ => rfl) fun _ => rfl)

/-- The arrivals of a path leave the outbound queue of every core alone. -/
theorem outSignals_flushArrivals (m k : Nat) : ((s.flushArrivals m k).core n).outSignals = (s.core n).outSignals := by
  unfold flushArrivals
  dsimp only
  split
  · rfl
  · refine (keeps_incFlags _ (fun u => (u.core n).outSignals) _ _ _ (fun u m k a => outSignals_incFlag u m k a n) _).trans ?_
    rw [core_modCore]
    split
    · next e => rw [e]
    · rfl

end

section
variable {s : State} {m j : Nat} (harrives : ∀ p ∈ (s.core m).arrives, p.flag ≠ j) (hsignals : ∀ g ∈ (s.core m).outSignals, g.flag ≠ j)
include harrives hsignals

/-- What goes before a write of core m (R55) increments the flags that core m's arrivals and signals name, and no other. -/
theorem recordView_flushFor (n a : Nat) : (s.flushFor a m).recordView n j = s.recordView n j := by
  unfold flushFor
  split
  · next k _ =>
    split
    · refine (recordView_flushSignals _ _ _ _ _ fun g hg => hsignals g ?_).trans (recordView_flushArrivals _ _ _ _ _ harrives)
      rwa [outSignals_flushArrivals] at hg
    · rfl
  · rfl

/-- A write of core m, held (R337, R350) or stored, adds no increment of its own to those that go before it. -/
theorem recordView_writeLine (n a : Nat) (l : List Byte) : (s.writeLine a l m).recordView n j = s.recordView n j := by
  have hflush := recordView_flushFor harrives hsignals n a
  unfold writeLine
  dsimp only
  split
  · exact hflush
  · rw [recordView_putLine, recordView_wakeBank, hflush]

end

/-! ### Channels and their records (R116, R117) -/

@[simp] theorem core_modChan (s : State) (n ch m : Nat) (f : DmaChan → DmaChan) :
    (s.modChan n ch f).core m = if m = n then { s.core n with chans := tmod (s.core n).chans ch {} f } else s.core m :=
  core_modCore ..

@[simp] theorem chan_modChan (s : State) (n ch : Nat) (f : DmaChan → DmaChan) : (s.modChan n ch f).chan n ch = f (s.chan n ch) := by
  simp [chan, tmod]

@[simp] theorem flag_modChan (s : State) (n ch m j : Nat) (f : DmaChan → DmaChan) :
    ((s.modChan n ch f).core m).flag j = (s.core m).flag j := by
  rw [core_modChan]
  split
  · next e => rw [e]; rfl
  · rfl

/-- No increment touches a channel. -/
@[simp] theorem chan_incFlag (s : State) (n k : Nat) (a : W32) (m ch : Nat) : (s.incFlag n k a).chan m ch = s.chan m ch := by
  have hview := recordView_incFlag s m (k + 1) n a (Nat.ne_of_lt (Nat.lt_succ_self k))
  simp only [recordView, Prod.mk.injEq] at hview
  obtain ⟨-, hchans, -⟩ := hview
  rw [chan, hchans, chan]

/-- R116: a record is counted once, and its channel's flag takes one increment, unless its own line sets off others of that flag. -/
theorem putRecord_counts {s : State} {n k : Nat} (hrole : s.roleHeld n = false)
    (harrives : ∀ p ∈ (s.core n).arrives, p.flag ≠ 480 + k) (hsignals : ∀ g ∈ (s.core n).outSignals, g.flag ≠ 480 + k) (b : RecordBody) :
    ((s.putRecord n k b).chan n k).records = (s.chan n k).records + 1 ∧
      ((s.putRecord n k b).core n).flag (480 + k) = (s.core n).flag (480 + k) + 1 := by
  obtain ⟨a, l, hput⟩ : ∃ a l, s.putRecord n k b =
      ((s.writeLine a l n).modChan n k fun y => { y with records := y.records + 1 }).incFlag n (480 + k) 1 := ⟨_, _, rfl⟩
  have hview := recordView_writeLine harrives hsignals n a l
  simp only [recordView, Prod.mk.injEq] at hview
  obtain ⟨hflag, hchans, hheld⟩ := hview
  have hfree : ((s.writeLine a l n).modChan n k fun y => { y with records := y.records + 1 }).roleHeld n = false := hheld.trans hrole
  rw [hput]
  constructor
  · rw [chan_incFlag, chan_modChan, chan, hchans, chan]
  · rw [flag_incFlag hfree, flag_modChan, hflag]

end State

/-! ### The engine's queue (R115, R119) -/

section Admit
variable {s : State} {n : CoreId} {o : EngOp} {r : List EngOp} (hq : (s.core n).dma = o :: r)
include hq

theorem execDmaQueueAdmit_start (h : opCode o.w ≠ 0xC1) (hroom : (s.chan n (opChan o)).queue.length < Config.channelDepth) :
    execDmaQueueAdmit n s = .next ((s.modCore n fun c => { c with dma := r }).modChan n (opChan o) fun x =>
      { x with queue := x.queue ++ [o] }) := by
  simp only [execDmaQueueAdmit, hq, if_neg h, if_pos hroom]

theorem execDmaQueueAdmit_full (h : opCode o.w ≠ 0xC1) (hfull : ¬ (s.chan n (opChan o)).queue.length < Config.channelDepth) :
    execDmaQueueAdmit n s = .next s := by
  simp only [execDmaQueueAdmit, hq, if_neg h, if_neg hfull]

theorem execDmaQueueAdmit_stop (h : opCode o.w = 0xC1) :
    execDmaQueueAdmit n s = .next (((s.modCore n fun c => { c with dma := r }).modChan n (opChan o) fun x =>
      { x with queue := [], stops := x.stops ++ [{ cause := some o, next := x.queue.head? }] }).completeSignal n .dma o.sig none) := by
  simp only [execDmaQueueAdmit, hq, if_pos h]

end Admit

/-! ### The begin of a transfer (R113, R116, R117) -/

/-- The transfer of o as it begins, its lines not yet counted. -/
def EngOp.xfer (o : EngOp) (s : State) (n : Nat) : Xfer := { op := o, began := (s.slope (slopeOf (courseOf n))).arithCycles.toNat }

/-- The remote lines that a transfer has to ask for or to send. -/
def Move.remoteLines (m : Move) : List Nat :=
  if m.src.remote then (m.lines.flatMap fun y => m.sources y.2.1 y.2.2).dedup
  else if m.dst.remote then List.range m.blocks.flatten.length else []

/-- The channel with the transfer x under way and the transfers r behind it. -/
def State.startXfer (s : State) (n k : Nat) (r : List EngOp) (x : Xfer) : State := s.modChan n k fun y => { y with queue := r, cur := some x }

theorem State.chan_startXfer (s : State) (n k : Nat) (r : List EngOp) (x : Xfer) :
    (s.startXfer n k r x).chan n k = { s.chan n k with queue := r, cur := some x } := State.chan_modChan ..

/-- A channel with no transfer under way, no stop owed and a slot in its completion queue is held back by nothing. -/
theorem channel_ready {s : State} {n k : Nat} (hfree : (s.chan n k).cur = none) (hstops : (s.chan n k).stops = [])
    (hslot : s.cqSlot n k = true) : ((s.chan n k).cur.isSome || !(s.chan n k).stops.isEmpty || !s.cqSlot n k) = false := by
  simp [hfree, hstops, hslot]

section Begin
variable {s : State} {n : CoreId} {k : ChanId} {o : EngOp} {r : List EngOp} (hqueue : (s.chan n k).queue = o :: r)
  (hfree : (s.chan n k).cur = none) (hstops : (s.chan n k).stops = []) (hslot : s.cqSlot n k = true)
include hqueue hfree hstops hslot

theorem execTransferBegin_goes
    (h : (dmaMove o.w o.a o.dst).beginStop s (fBits o.w 35 1 == 1) (fDst o.w) (fA o.w) = none) :
    execTransferBegin n k s =
      .next ((s.startXfer n k r { o.xfer s n with todo := (dmaMove o.w o.a o.dst).remoteLines }).dmaGoOn n k) := by
  simp only [execTransferBegin, hqueue, channel_ready hfree hstops hslot, h, Bool.false_eq_true, if_false]
  rfl

theorem execTransferBegin_stops {st : Stop} {a : Nat}
    (h : (dmaMove o.w o.a o.dst).beginStop s (fBits o.w 35 1 == 1) (fDst o.w) (fA o.w) = some (st, a)) :
    execTransferBegin n k s =
      .next ((s.startXfer n k r { o.xfer s n with status := BitVec.ofNat 8 st.reason, own := true, addr := a }).dmaFinish n k) := by
  simp only [execTransferBegin, hqueue, channel_ready hfree hstops hslot, h, Bool.false_eq_true, if_false]
  rfl

end Begin

theorem dmaSend_nothing {s : State} {n k : Nat} {x : Xfer} (hcur : (s.chan n k).cur = some x) (htodo : x.todo = []) (m : Move)
    (fuel : Nat) : dmaSend n k m fuel s = s := by
  cases fuel with
  | zero => rfl
  | succ fuel =>
    cases htag : s.freeTag n <;> simp only [dmaSend, hcur, htag, htodo]

theorem State.dmaSettle_here {s : State} {n k : Nat} {x : Xfer} (hcur : (s.chan n k).cur = some x) (hdst : x.op.dst.remote = false) :
    s.dmaSettle n k = s := by
  simp only [State.dmaSettle, hcur, hdst, Bool.false_and, Bool.false_eq_true, if_false]

/-- A transfer within the module has nothing to ask for or to send. -/
theorem State.dmaGoOn_local {s : State} {n k : Nat} {x : Xfer} (hcur : (s.chan n k).cur = some x) (htodo : x.todo = [])
    (hdst : x.op.dst.remote = false) : s.dmaGoOn n k = s := by
  simp only [State.dmaGoOn, hcur, dmaSend_nothing hcur htodo, State.dmaSettle_here hcur hdst]

/-! ### The end of a transfer (R116, R118, R350) -/

/-- The transfer after its lines have moved: how many did, and the fault that ended it, if one did. -/
def Xfer.moved (x : Xfer) (lines : Nat) (e : Option MoveFault) : Xfer :=
  match e with
  | some e => ({ x with lines := lines } : Xfer).fail e
  | none => { x with lines := lines }

section Complete
variable {s : State} {n : CoreId} {k : ChanId} {x : Xfer} (hcur : (s.chan n k).cur = some x) (htodo : x.todo = [])
include hcur htodo

/-- With barrier 1, or lines of another module to come, a transfer waits for every answer. -/
theorem execCompletionRecord_waits (h : (x.op.a.remote || fBits x.op.w 34 1 == 1) = true) (hpending : x.pending ≠ 0) :
    execCompletionRecord n k s = .next s := by
  simp [execCompletionRecord, hcur, htodo, h, hpending]

theorem execCompletionRecord_here (hdst : x.op.dst.remote = false) (hpending : x.pending = 0) :
    execCompletionRecord n k s =
      if s.moveHeld n (dmaMove x.op.w x.op.a x.op.dst) then .next s
      else
        let y := dmaLocal s n (dmaMove x.op.w x.op.a x.op.dst) x.got
        .next ((y.1.modXfer n k fun z => z.moved y.2.1 y.2.2).dmaFinish n k) := by
  simp only [execCompletionRecord, hcur, htodo, hdst, hpending, List.isEmpty_nil, bne_self_eq_false, Bool.and_false, Bool.not_true,
    Bool.or_false, Bool.false_eq_true, if_false]
  rfl

theorem execCompletionRecord_away (hdst : x.op.dst.remote = true)
    (hend : (x.op.a.remote || fBits x.op.w 34 1 == 1) = false ∨ x.pending = 0) :
    execCompletionRecord n k s = .next ((s.modXfer n k fun y =>
      { y with lines := if x.op.a.remote || fBits x.op.w 34 1 == 1 then y.lines else y.sent - y.refused }).dmaFinish n k) := by
  have hnone : ((x.op.a.remote || fBits x.op.w 34 1 == 1) && x.pending != 0) = false := by
    rcases hend with h | h <;> simp [h]
  simp only [execCompletionRecord, hcur, htodo, hdst, hnone, List.isEmpty_nil, Bool.not_true, Bool.or_false, Bool.false_eq_true, if_false,
    if_true]

end Complete

theorem execStoppedRecord_owed {s : State} {n : CoreId} {k : ChanId} {st : Stopping} {r : List Stopping}
    (hstops : (s.chan n k).stops = st :: r) (hfree : (s.chan n k).cur = none) (hslot : s.cqSlot n k = true) :
    execStoppedRecord n k s =
      .next ((s.modChan n k fun y => { y with stops := r }).putRecord n k { status := 0x80, op := st.cause, next := st.next }) := by
  simp [execStoppedRecord, hstops, hfree, hslot]

/-! ### The ridge DMA (R120, R308, R310, R392) -/

section Telemetry
variable {s : State} (hon : s.ridge.telemetryOn = true)
include hon

theorem execTelemetrySnapshot_skipped :
    execTelemetrySnapshot false s = .next { s with ridge := { s.ridge with telemetrySkip := sat32 s.ridge.telemetrySkip 1 } } := by
  simp [execTelemetrySnapshot, hon]

theorem execTelemetrySnapshot_full (h : s.ridgeSlot 0 = false) : execTelemetrySnapshot true s = .next s := by
  simp [execTelemetrySnapshot, hon, h]

theorem execTelemetrySnapshot_written (h : s.ridgeSlot 0 = true) :
    execTelemetrySnapshot true s =
      .next (ridgeEnd 0 (ridgePut (s.modRidgeChan 0 fun y => { y with slot := (s.ridgeChan 0).slot + 1 })
        (64 * s.ridge.ringBase.toNat + 1024 * ((s.ridgeChan 0).slot % s.ringSlots)) 0 (toLines 16 (snapshotBytes s)))) := by
  simp [execTelemetrySnapshot, hon, h]

end Telemetry

/-- The state in which the spill channel has taken the next `count` slots of its ring, the newest record spilled being `seq`. -/
def State.spilling (s : State) (count seq : Nat) : State :=
  let u := s.modRidgeChan 1 fun y => { y with slot := (s.ridgeChan 1).slot + count }
  { u with ridge := { u.ridge with spilled := seq } }

theorem execEventSpill_copies {s : State} {quiet : Bool} {due : List Event} {last : Event} (hon : s.ridge.spillOn = true)
    (hdue : due = s.unspilled.take 32) (hlast : due.getLast? = some last) (hready : quiet = true ∨ due.length = 32)
    (hslot : s.ridgeSlot 1 = true) :
    execEventSpill quiet s = .next (ridgeEnd 1 (spillPut (64 * s.ridge.ringBase.toNat + 1024 * s.ringSlots) s.ringSlots
      (s.spilling due.length last.seq) (s.ridgeChan 1).slot 0 due)) := by
  subst hdue
  have hsome : (s.unspilled.take 32).isEmpty = false := by
    rw [List.isEmpty_eq_false_iff]
    intro hnil
    simp [hnil] at hlast
  have hwait : (!quiet && decide ((s.unspilled.take 32).length < 32)) = false := by
    rcases hready with h | h <;> simp [h]
  simp only [execEventSpill, hon, hsome, hwait, hslot, hlast, Bool.not_true, Bool.or_false, Bool.false_eq_true, if_false]
  rfl

theorem State.ridgeWrite_denied {s : State} {a : Nat} (h : s.permits s.ridge.regions .write a = false) (l : List Byte) :
    s.ridgeWrite a l = (s, some 0x0A) := by
  simp [State.ridgeWrite, h]

theorem State.ridgeWrite_permitted {s : State} {a : Nat} (h : s.permits s.ridge.regions .write a = true) (hlive : s.liveAt a = none)
    (l : List Byte) : s.ridgeWrite a l = (s.writeLine a l ridgeMaster, none) := by
  simp [State.ridgeWrite, h, hlive]

end Sys2Proof.Machine

open Sys2Proof Sys2Proof.Machine

/-- Settles O27: each instruction that leaves the queue has a rule of its own; a transfer begins or ends at once by its `beginStop`, and
one within the module has no remote line (`State.dmaGoOn_local`), so its begin moves nothing. -/
theorem dmaQueueAndTransferBegin : Obligations.DmaQueueAndTransferBegin := by
  refine ⟨?queue, ?begin⟩
  case queue =>
    intro s n o r hq
    exact ⟨execDmaQueueAdmit_start hq, execDmaQueueAdmit_full hq, execDmaQueueAdmit_stop hq⟩
  case begin =>
    intro s n k o r m hqueue hfree hstops hslot
    refine ⟨fun h hsrc hdst => ?_, execTransferBegin_goes hqueue hfree hstops hslot, fun st a =>
      execTransferBegin_stops hqueue hfree hstops hslot⟩
    have htodo : m.remoteLines = [] := by simp [Move.remoteLines, hsrc, hdst]
    have hchan := s.chan_startXfer n k r { o.xfer s n with todo := m.remoteLines }
    have hcur : ((s.startXfer n k r { o.xfer s n with todo := m.remoteLines }).chan n k).cur =
      some { o.xfer s n with todo := m.remoteLines } := by rw [hchan]
    refine ⟨s.startXfer n k r { o.xfer s n with todo := m.remoteLines }, _, ?_, hcur, rfl, rfl, rfl, by rw [hchan], rfl⟩
    exact (execTransferBegin_goes hqueue hfree hstops hslot h).trans (congrArg _ (State.dmaGoOn_local hcur htodo hdst))

/-- Settles O28: a transfer's end by the place of its destination and by what its record waits for, the STOPPED record of a channel,
and the count and the increment of every record (`State.putRecord_counts`). -/
theorem completionRecords : Obligations.CompletionRecords := by
  refine ⟨?here, ?away, ?stopped, ?counted⟩
  case here =>
    intro s n k x hcur htodo hdst
    refine ⟨fun hpending hgo y hy => ?_, fun hpending hheld => ?_, fun hsrc => ?_⟩
    · subst hy
      exact (execCompletionRecord_here hcur htodo hdst hpending).trans (if_neg (by simp [hgo]))
    · exact (execCompletionRecord_here hcur htodo hdst hpending).trans (if_pos hheld)
    · exact execCompletionRecord_waits hcur htodo (by simp [hsrc])
  case away =>
    intro s n k x hcur htodo hdst hsrc
    refine ⟨fun hbarrier => ?_, fun hbarrier hpending => ?_, fun hbarrier => ?_⟩
    · have hgo : (x.op.a.remote || fBits x.op.w 34 1 == 1) = false := by simp [hsrc, hbarrier]
      exact (execCompletionRecord_away hcur htodo hdst (.inl hgo)).trans (by rw [hgo]; rfl)
    · have hall : (x.op.a.remote || fBits x.op.w 34 1 == 1) = true := by simp [hbarrier]
      exact (execCompletionRecord_away hcur htodo hdst (.inr hpending)).trans (by rw [hall]; rfl)
    · exact execCompletionRecord_waits hcur htodo (by simp [hbarrier])
  case stopped => exact fun s n k st r => execStoppedRecord_owed
  case counted => exact fun s n k b hrole harrives hsignals => State.putRecord_counts hrole harrives hsignals b

/-- Settles O52: a period's snapshot is skipped, kept back by a full queue or written; a spill copies what is due
(`execEventSpill_copies`); and the regions permit a line of the ridge DMA or refuse it. -/
theorem ridgeDmaEvents : Obligations.RidgeDmaEvents := by
  refine ⟨?snapshot, ?spill, ?line⟩
  case snapshot =>
    intro s hon
    exact ⟨execTelemetrySnapshot_skipped hon, fun hslot => ⟨_, rfl, execTelemetrySnapshot_written hon hslot⟩,
      execTelemetrySnapshot_full hon⟩
  case spill =>
    intro s u quiet due last hon hdue hlast hready hslot hu
    subst hu
    exact execEventSpill_copies hon hdue hlast hready hslot
  case line => exact fun s a l => ⟨fun h => State.ridgeWrite_denied h l, fun h hlive => State.ridgeWrite_permitted h hlive l⟩

end

section
/-! The dense array (O24): what a fault of its instructions leaves (R40), its begins and its completions. -/

namespace Sys2Proof.Machine

/-! ### What a first fault and an undone instruction leave of the cores (R40) -/

@[simp] theorem Core.arrives_discard (c : Core) (e : Nat) : (c.discard e).arrives = c.arrives := by
  unfold Core.discard; split <;> rfl

theorem Core.arrives_stopChannels (c : Core) : c.stopChannels.arrives = c.arrives := rfl

namespace State

theorem memErr_haltCore (s : State) (n : Nat) (p : HaltAt) (st : Stop) : (s.haltCore n p st).memErr = s.memErr := by
  unfold haltCore
  dsimp only
  repeat' split
  all_goals rfl

section FirstFault
variable {s : State} {n : Nat} (h : (s.core n).halt.halted = false) (p : HaltAt) (st : Stop)
include h

theorem flag_haltCore (m k : Nat) : ((s.haltCore n p st).core m).flag k = (s.core m).flag k := by
  by_cases hm : m = n
  · subst hm
    rw [core_haltCore_first s m p st h]
    simp only [Core.flag, Core.flags_discard, flags_stopChannels]
  · rw [core_haltCore_other s n m p st hm]

theorem arrives_haltCore : ((s.haltCore n p st).core n).arrives = (s.core n).arrives := by
  rw [core_haltCore_first s n p st h]
  simp only [Core.arrives_discard, Core.arrives_stopChannels]

end FirstFault

/-- Undoing an instruction's writes changes nothing of a core but its scratchpad's flip mask and scrubber. -/
theorem core_undoWrites_keeps {β : Type} (g : Core → β)
    (hg : ∀ (c : Core) (flip : Flip) (scrub : Scrub), g { c with spadFlip := flip, spadScrub := scrub } = g c)
    (before after : State) (n : Nat) : g ((before.undoWrites after).core n) = g (after.core n) := by
  refine tget_map_keeps g ?_ after.cores n {}
  exact fun _ => ⟨rfl, hg ..⟩

theorem flag_undoWrites (before after : State) (n k : Nat) :
    ((before.undoWrites after).core n).flag k = (after.core n).flag k :=
  core_undoWrites_keeps (·.flag k) (fun _ _ _ => rfl) before after n

theorem halt_undoWrites (before after : State) (n : Nat) : ((before.undoWrites after).core n).halt = (after.core n).halt :=
  core_undoWrites_keeps (·.halt) (fun _ _ _ => rfl) before after n

theorem arrives_undoWrites (before after : State) (n : Nat) :
    ((before.undoWrites after).core n).arrives = (after.core n).arrives :=
  core_undoWrites_keeps (·.arrives) (fun _ _ _ => rfl) before after n

end State

/-! ### The units of the array (R124) -/

theorem find?_endRunning (l : List (DaUnit × EngOp)) (u : DaUnit) : ((endRunning l u).find? fun x => x.1 == u) = none := by
  simp [endRunning]

theorem find?_cutRunning (l : List (DaUnit × EngOp)) (u : DaUnit) : ((cutRunning l u).find? fun x => x.1 == u) = none := by
  simp only [cutRunning, List.find?_eq_none]
  intro x hx
  simpa using List.mem_takeWhile_imp hx

/-- The unit's instruction is gone and its unit free. -/
def DenseArray.free (d : DenseArray) (u : DaUnit) : DenseArray := { d with running := endRunning d.running u }

/-! ### A fault of an instruction of the array (R40) -/

/-- The array's units change by f as instruction o faults, and its core halts. -/
def State.denseFault (s : State) (n : Nat) (o : EngOp) (st : Stop) (f : DenseArray → DenseArray) : State :=
  (s.modCore n fun c => { c with da := f c.da }).haltOp n 1 o st

namespace State
variable {s : State} {n : Nat} (o : EngOp) (st : Stop) (f : DenseArray → DenseArray)

theorem mem_denseFault : (s.denseFault n o st f).mem = s.mem := mem_haltCore ..

theorem memErr_denseFault : (s.denseFault n o st f).memErr = s.memErr := memErr_haltCore ..

section FirstFault
variable (h : (s.core n).halt.halted = false)
include h

theorem halted_modCore_da : ((s.modCore n fun c => { c with da := f c.da }).core n).halt.halted = false := by
  simpa using h

theorem halt_denseFault : ((s.denseFault n o st f).core n).halt =
    firstRecord (s.core n).halt { engine := 1, stream := o.stream.toNat, region := o.region, index := o.index } st := by
  refine (halt_haltCore (halted_modCore_da f h) _ st).trans ?_
  rw [core_modCore, if_pos rfl]

theorem flag_denseFault (m k : Nat) : ((s.denseFault n o st f).core m).flag k = (s.core m).flag k := by
  refine (flag_haltCore (halted_modCore_da f h) _ st m k).trans ?_
  rw [core_modCore]
  split
  · subst m; rfl
  · rfl

theorem arrives_denseFault : ((s.denseFault n o st f).core n).arrives = (s.core n).arrives := by
  refine (arrives_haltCore (halted_modCore_da f h) _ st).trans ?_
  rw [core_modCore, if_pos rfl]

theorem da_denseFault : ((s.denseFault n o st f).core n).da = { f (s.core n).da with queue := [] } := by
  refine (congrArg Core.da (core_haltCore_first _ n _ st (halted_modCore_da f h))).trans ?_
  rw [core_modCore, if_pos rfl]
  rfl

end FirstFault

end State

/-! ### The begin of the head of the queue (R127, R141) -/

section Begin
variable {s : State} {n : CoreId} {o : EngOp} {r : List EngOp}
  (hqueue : (s.core n).da.queue = o :: r) (hfree : (s.core n).da.mayBegin o = true)
include hqueue hfree

theorem execDaInstructionBegin_swap (hunit : daUnitOf o = none) :
    execDaInstructionBegin n s = .next ((s.modCore n fun c =>
      { c with da := { c.da with stat := c.da.shadow, queue := r } }).completeSignal n .da o.sig none) := by
  simp only [execDaInstructionBegin, hqueue, hfree, hunit, swapTiles, Bool.not_true, Bool.false_eq_true, if_false]

/-- The instruction leaves the queue and occupies its unit. -/
def State.daOccupy (s : State) (n : Nat) (r : List EngOp) (u : DaUnit) (o : EngOp) : State :=
  s.modCore n fun c => { c with da := { c.da with queue := r, running := c.da.running ++ [(u, o)] } }

theorem execDaInstructionBegin_occupies {u : DaUnit} (hunit : daUnitOf o = some u) (hdrain : u ≠ .drain) :
    execDaInstructionBegin n s = .next (s.daOccupy n r u o) := by
  simp only [execDaInstructionBegin, hqueue, hfree, hunit, hdrain, Bool.not_true, Bool.false_eq_true, if_false, State.daOccupy]

section Drain
variable (hunit : daUnitOf o = some .drain) {v : State}
include hunit

theorem execDaInstructionBegin_drain (hrows : (beginDrain n o).run (s.daOccupy n r .drain o) = (.ok (), v)) :
    execDaInstructionBegin n s = .next v := by
  rw [State.daOccupy] at hrows
  simp only [execDaInstructionBegin, hqueue, hfree, hunit, hrows, Bool.not_true, Bool.false_eq_true, if_false, if_true]

theorem execDaInstructionBegin_drain_faults {st : Stop}
    (hrows : (beginDrain n o).run (s.daOccupy n r .drain o) = (.error st, v)) :
    execDaInstructionBegin n s = .next (v.denseFault n o st (·.free .drain)) := by
  rw [State.daOccupy] at hrows
  simp only [execDaInstructionBegin, hqueue, hfree, hunit, hrows, Bool.not_true, Bool.false_eq_true, if_false, if_true,
    State.denseFault, DenseArray.free]

end Drain

end Begin

/-! ### The completion of a unit's instruction (R26, R40, R350) -/

section Complete
variable {s v : State} {n : CoreId} {u : DaUnit} {o : EngOp} {st : Stop}
  (hrun : ((s.core n).da.running.find? fun x => x.1 == u) = some (u, o))
include hrun

theorem execDaInstructionComplete_ends (hwork : (daCompute n o).run s = (.ok (), v)) :
    execDaInstructionComplete n u s = .next ((v.modCore n fun c =>
      { c with da := { c.da with running := endRunning c.da.running u
                                 drained := if u = .drain then [] else c.da.drained } }).completeSignal n .da o.sig
      (if u = .drain then some o.dst else none)) := by
  simp only [execDaInstructionComplete, hrun, hwork]

theorem execDaInstructionComplete_held (hwork : (daCompute n o).run s = (.error st, v)) (hheld : st.waits = true) :
    execDaInstructionComplete n u s = .next s := by
  simp only [execDaInstructionComplete, hrun, hwork, hheld, if_true]

theorem execDaInstructionComplete_faults (hwork : (daCompute n o).run s = (.error st, v)) (hfault : st.waits = false) :
    execDaInstructionComplete n u s = .next ((s.undoWrites v).denseFault n o st (·.cut u)) := by
  simp only [execDaInstructionComplete, hrun, hwork, hfault, Bool.false_eq_true, if_false, State.denseFault]

end Complete

end Sys2Proof.Machine

open Sys2Proof Sys2Proof.Machine

/-- Settles O24: the three begins (a swap, a unit occupied, a drain that reads its rows) and the three ends of a unit's work; what
both faults leave is said once, of `State.denseFault`. -/
theorem denseInstructionEvents : Obligations.DenseInstructionEvents := by
  refine ⟨?begins, ?completes⟩
  case begins =>
    intro s n o r hqueue hfree
    refine ⟨execDaInstructionBegin_swap hqueue hfree, fun u => execDaInstructionBegin_occupies hqueue hfree, fun hunit u v hu => ?_⟩
    subst hu
    refine ⟨execDaInstructionBegin_drain hqueue hfree hunit, fun st hrows hrunning => ?_⟩
    have hhalt := State.halt_denseFault o st (·.free .drain) hrunning
    have hda := State.da_denseFault o st (·.free .drain) hrunning
    refine ⟨_, execDaInstructionBegin_drain_faults hqueue hfree hunit hrows, State.mem_denseFault .., congrArg HaltRec.halted hhalt,
      congrArg HaltRec.reason hhalt, congrArg HaltRec.engine hhalt, congrArg HaltRec.pcIndex hhalt,
      State.flag_denseFault o st _ hrunning, State.arrives_denseFault o st _ hrunning, congrArg DenseArray.queue hda,
      by rw [hda]; exact find?_endRunning _ _⟩
  case completes =>
    intro s v n u o st hrun
    refine ⟨execDaInstructionComplete_ends hrun, execDaInstructionComplete_held hrun, fun hwork hfault hrunning => ?_⟩
    have hundone : ((s.undoWrites v).core n).halt.halted = false := by rwa [State.halt_undoWrites]
    have hhalt := State.halt_denseFault o st (·.cut u) hundone
    have hda := State.da_denseFault o st (·.cut u) hundone
    refine ⟨_, execDaInstructionComplete_faults hrun hwork hfault, State.mem_denseFault .., State.memErr_denseFault .., fun m k => ?flag,
      ?arrives, congrArg HaltRec.halted hhalt, congrArg HaltRec.reason hhalt, congrArg HaltRec.engine hhalt,
      congrArg HaltRec.pcIndex hhalt, congrArg HaltRec.pcRegion hhalt,
      by rw [hda]; exact find?_cutRunning _ _⟩
    case flag => rw [State.flag_denseFault o st _ hundone, State.flag_undoWrites]
    case arrives => rw [State.arrives_denseFault o st _ hundone, State.arrives_undoWrites]

end

section
/-! The sort of the gather-merge engine (O57): what its insertion keeps of a list in order, and the order of the keys of each format
(R162). -/

namespace Sys2Proof.Machine

/-! ### Insertion into a list in order (R162) -/

theorem insertKey_eq_orderedInsert (lt : Nat → Nat → Bool) (e : Nat × Nat) (l : List (Nat × Nat)) :
    insertKey lt e l = l.orderedInsert (fun a b => lt a.1 b.1 = true) e := by
  induction l with
  | nil => rfl
  | cons x r ih => rw [insertKey, List.orderedInsert_cons, ih]

theorem insertKey_perm (lt : Nat → Nat → Bool) (e : Nat × Nat) (l : List (Nat × Nat)) : (insertKey lt e l).Perm (e :: l) :=
  insertKey_eq_orderedInsert lt e l ▸ List.perm_orderedInsert _ e l

/-- The sort inserts the last key into the keys before it, already sorted. -/
theorem sortKeys_append_singleton (lt : Nat → Nat → Bool) (ks : List (Nat × Nat)) (e : Nat × Nat) :
    sortKeys lt (ks ++ [e]) = insertKey lt e (sortKeys lt ks) := by
  simp [sortKeys, List.foldl_append]

theorem sortKeys_perm (lt : Nat → Nat → Bool) (ks : List (Nat × Nat)) : (sortKeys lt ks).Perm ks := by
  induction ks using List.reverseRecOn with
  | nil => exact .nil
  | append_singleton ks e ih =>
    rw [sortKeys_append_singleton]
    exact (insertKey_perm lt e _).trans ((ih.cons e).trans (List.perm_append_singleton e ks).symm)

/-- No element stands before one that it should follow. -/
def InKeyOrder (lt : Nat → Nat → Bool) (l : List (Nat × Nat)) : Prop := l.Pairwise fun a b => lt b.1 a.1 = false

/-- The element's key is neither below k nor above it. -/
def tiedWith (lt : Nat → Nat → Bool) (k : Nat) (x : Nat × Nat) : Bool := !lt x.1 k && !lt k x.1

section WeakOrder
variable {lt : Nat → Nat → Bool} (hasymm : ∀ a b, lt a b = true → lt b a = false)
  (htrans : ∀ a b c, lt a b = false → lt b c = false → lt a c = false)

section Asymmetric
include hasymm htrans

theorem inKeyOrder_insertKey (e : Nat × Nat) {l : List (Nat × Nat)} (hl : InKeyOrder lt l) : InKeyOrder lt (insertKey lt e l) := by
  induction l with
  | nil => exact List.pairwise_singleton _ e
  | cons x r ih =>
    obtain ⟨hx, hr⟩ := List.pairwise_cons.mp hl
    rw [insertKey]
    cases he : lt e.1 x.1 with
    | true =>
      have hxe : lt x.1 e.1 = false := hasymm _ _ he
      exact hl.cons (List.forall_mem_cons.mpr ⟨hxe, fun y hy => htrans _ _ _ (hx y hy) hxe⟩)
    | false =>
      refine (ih hr).cons fun y hy => ?_
      obtain rfl | hy := List.mem_cons.mp ((insertKey_perm lt e r).mem_iff.mp hy)
      · exact he
      · exact hx y hy

theorem inKeyOrder_sortKeys (ks : List (Nat × Nat)) : InKeyOrder lt (sortKeys lt ks) := by
  induction ks using List.reverseRecOn with
  | nil => exact .nil
  | append_singleton ks e ih =>
    rw [sortKeys_append_singleton]
    exact inKeyOrder_insertKey hasymm htrans e ih

end Asymmetric

section Ties
include htrans

/-- A key below the head of a list in order is below all of it. -/
theorem lt_of_lt_head {e x y : Nat × Nat} {r : List (Nat × Nat)} (hl : InKeyOrder lt (x :: r)) (he : lt e.1 x.1 = true)
    (hy : y ∈ x :: r) : lt e.1 y.1 = true := by
  obtain rfl | hy := List.mem_cons.mp hy
  · exact he
  · have hyx : lt y.1 x.1 = false := List.rel_of_pairwise_cons hl hy
    by_contra hey
    have hex := htrans _ _ _ (Bool.not_eq_true _ ▸ hey) hyx
    simp [he] at hex

theorem not_tiedWith_of_lt {k : Nat} {e y : Nat × Nat} (he : tiedWith lt k e = true) (hey : lt e.1 y.1 = true) :
    tiedWith lt k y = false := by
  by_contra hy
  simp only [tiedWith, Bool.not_eq_false, Bool.and_eq_true, Bool.not_eq_true'] at he hy
  have hey' : lt e.1 y.1 = false := htrans _ _ _ he.1 hy.2
  simp [hey] at hey'

/-- An inserted element comes after all the elements that are tied with it. -/
theorem filter_insertKey (k : Nat) (e : Nat × Nat) {l : List (Nat × Nat)} (hl : InKeyOrder lt l) :
    (insertKey lt e l).filter (tiedWith lt k) = l.filter (tiedWith lt k) ++ [e].filter (tiedWith lt k) := by
  induction l with
  | nil => rfl
  | cons x r ih =>
    rw [insertKey]
    cases hex : lt e.1 x.1 with
    | true =>
      rw [if_pos rfl, ← List.singleton_append, List.filter_append]
      cases he : tiedWith lt k e with
      | true =>
        have hnone : (x :: r).filter (tiedWith lt k) = [] := List.filter_eq_nil_iff.mpr fun y hy => by
          simp [not_tiedWith_of_lt htrans he (lt_of_lt_head htrans hl hex hy)]
        rw [hnone, List.append_nil, List.nil_append]
      | false => simp [he]
    | false =>
      rw [if_neg Bool.false_ne_true, List.filter_cons, List.filter_cons, ih hl.of_cons]
      split <;> rfl

end Ties

include hasymm htrans in
/-- Elements with tied keys keep their source order. -/
theorem filter_sortKeys (ks : List (Nat × Nat)) (k : Nat) :
    (sortKeys lt ks).filter (tiedWith lt k) = ks.filter (tiedWith lt k) := by
  induction ks using List.reverseRecOn with
  | nil => rfl
  | append_singleton ks e ih =>
    rw [sortKeys_append_singleton, filter_insertKey htrans k e (inKeyOrder_sortKeys hasymm htrans ks), ih, List.filter_append]

end WeakOrder

/-! ### The order of integer keys -/

theorem signed_eq_toInt (x : Nat) : signed 32 x = (BitVec.ofNat 32 x).toInt := by
  rw [BitVec.toInt_eq_toNat_cond, BitVec.toNat_ofNat, signed]
  split <;> split <;> omega

/-- The integer that a key's code stands for. -/
def Fmt.keyValue (g : Fmt) (x : Nat) : Int := if g = .int32 then (BitVec.ofNat 32 x).toInt else x

section IntegerKeys
variable {f : Byte} {g : Fmt} (hcode : Fmt.ofCode f = some g) (hint : g.float? = none)
include hcode hint

theorem keyLt_eq_keyValue_lt (a b : Nat) : keyLt f a b = decide (g.keyValue a < g.keyValue b) := by
  simp only [keyLt, hcode, hint, Fmt.keyValue, signed_eq_toInt]
  by_cases hg : g = .int32 <;> simp [hg]

theorem keyLt_asymm {a b : Nat} (h : keyLt f a b = true) : keyLt f b a = false := by
  simp only [keyLt_eq_keyValue_lt hcode hint, decide_eq_true_eq, decide_eq_false_iff_not] at h ⊢
  omega

theorem keyLt_negTrans {a b c : Nat} (hab : keyLt f a b = false) (hbc : keyLt f b c = false) : keyLt f a c = false := by
  simp only [keyLt_eq_keyValue_lt hcode hint, decide_eq_false_iff_not] at hab hbc ⊢
  omega

/-! A descending sort compares the keys the other way round. -/

theorem keyOrder_eq_keyValue_lt (w : Word128) (a b : Nat) :
    keyOrder w f a b = if sortDesc w then decide (g.keyValue b < g.keyValue a) else decide (g.keyValue a < g.keyValue b) := by
  simp only [keyOrder, keyLt_eq_keyValue_lt hcode hint]

theorem keyOrder_asymm (w : Word128) {a b : Nat} (h : keyOrder w f a b = true) : keyOrder w f b a = false := by
  by_cases hdesc : sortDesc w = true
  · rw [keyOrder, if_pos hdesc] at h ⊢
    exact keyLt_asymm hcode hint h
  · rw [keyOrder, if_neg hdesc] at h ⊢
    exact keyLt_asymm hcode hint h

theorem keyOrder_negTrans (w : Word128) {a b c : Nat} (hab : keyOrder w f a b = false) (hbc : keyOrder w f b c = false) :
    keyOrder w f a c = false := by
  by_cases hdesc : sortDesc w = true
  · rw [keyOrder, if_pos hdesc] at hab hbc ⊢
    exact keyLt_negTrans hcode hint hbc hab
  · rw [keyOrder, if_neg hdesc] at hab hbc ⊢
    exact keyLt_negTrans hcode hint hab hbc

end IntegerKeys

/-! ### NaN among floating-point keys -/

section FloatKeys
variable {f : Byte} {g : Fmt} {ff : FloatFmt} (hcode : Fmt.ofCode f = some g) (hfloat : g.float? = some ff) {b : Nat}
  (hnan : (ff.decode b).isNan = true) (a : Nat)
include hcode hfloat hnan

theorem keyLt_nan_right : keyLt f a b = !(ff.decode a).isNan := by
  cases ha : (ff.decode a).isNan <;> simp [keyLt, hcode, hfloat, hnan, ha]

theorem keyLt_nan_left : keyLt f b a = false := by
  simp [keyLt, hcode, hfloat, hnan]

end FloatKeys

end Sys2Proof.Machine

open Sys2Proof Sys2Proof.Machine

/-- Settles O57: each of the sort's insertions keeps the elements, their order and the ties (`filter_insertKey`); integer keys are
compared by their values (`keyOrder_eq_keyValue_lt`). -/
theorem sortIsStable : Obligations.SortIsStable := by
  refine ⟨?stable, ?integers, ?nan⟩
  case stable =>
    intro lt hasymm htrans ks
    exact ⟨sortKeys_perm lt ks, inKeyOrder_sortKeys hasymm htrans ks, filter_sortKeys hasymm htrans ks⟩
  case integers =>
    intro w f g hcode hint
    refine ⟨fun a b hg _ _ => ?signed, fun a b hg => ?unsigned, fun a b => keyOrder_asymm hcode hint w,
      fun a b c => keyOrder_negTrans hcode hint w⟩
    case signed => simp only [keyOrder_eq_keyValue_lt hcode hint, Fmt.keyValue, hg, if_true]
    case unsigned => simp only [keyOrder_eq_keyValue_lt hcode hint, Fmt.keyValue, hg, if_false, Nat.cast_lt]
  case nan => exact fun f g ff a b hcode hfloat hnan => ⟨keyLt_nan_right hcode hfloat hnan a, keyLt_nan_left hcode hfloat hnan a⟩

end

section
/-! The gather-merge engine's events (O25): what an engine's work comes to whose written lines stay (R163), the begin of the head of the
queue, the yealms and folds, and the completion. -/

namespace Sys2Proof.Machine

/-! ### An engine's work whose written lines stay (R163, R350) -/

namespace State
variable {s x : State} {n engine : Nat} {o : EngOp} {w : Work Unit} {st : Stop}

theorem runKeep_ok (hwork : w.run s = (.ok (), x)) (after : State → State) : s.runKeep n engine o w after = after x := by
  simp only [runKeep, hwork]

theorem runKeep_faults (hwork : w.run s = (.error st, x)) (hfault : st.waits = false) (after : State → State) :
    s.runKeep n engine o w after = x.haltOp n engine o st := by
  simp only [runKeep, hwork, hfault, Bool.false_eq_true, if_false]

theorem runKeep_held (hwork : w.run s = (.error st, x)) (hheld : st.waits = true) (after : State → State) :
    s.runKeep n engine o w after = s := by
  simp only [runKeep, hwork, hheld, if_true]

end State

/-! ### The begin of the head of the queue (R145) -/

/-- The state in which the work of instruction o begins: o has left the queue and nothing of the instruction before it is left. -/
def State.gmeStart (s : State) (n : Nat) (o : EngOp) (r : List EngOp) : State :=
  s.modCore n fun c => { c with gme := { c.gme.idle with queue := r, run := some o, lastOpcode := BitVec.ofNat 8 (fOpcode o.w) } }

theorem State.gme_gmeStart (s : State) (n : Nat) (o : EngOp) (r : List EngOp) : ((s.gmeStart n o r).core n).gme =
    { (s.core n).gme.idle with queue := r, run := some o, lastOpcode := BitVec.ofNat 8 (fOpcode o.w) } := by
  rw [gmeStart, core_modCore, if_pos rfl]

theorem beginGme_sparse {o : EngOp} (h : fOpcode o.w = 0x60 ∨ fOpcode o.w = 0x61) (n : Nat) : beginGme n o = beginCut n o := by
  rcases h with h | h <;> simp only [beginGme, h]

theorem beginGme_transpose {o : EngOp} (h : fOpcode o.w = 0x6A) (n : Nat) : beginGme n o = beginTranspose o := by
  simp only [beginGme, h]

theorem beginGme_other {o : EngOp} (h₀ : fOpcode o.w ≠ 0x60) (h₁ : fOpcode o.w ≠ 0x61) (h₂ : fOpcode o.w ≠ 0x6A) (n : Nat) :
    beginGme n o = pure () := by
  unfold beginGme
  split
  · exact absurd ‹_› h₀
  · exact absurd ‹_› h₁
  · exact absurd ‹_› h₂
  · rfl

/-- What the engine runs as it begins o: the head leaves the queue, then o's own work at its begin. -/
def startGme (n : Nat) (o : EngOp) (r : List EngOp) : Work Unit := do
  modGme n fun g => { g.idle with queue := r, run := some o, lastOpcode := BitVec.ofNat 8 (fOpcode o.w) }
  beginGme n o

theorem run_startGme (s : State) (n : Nat) (o : EngOp) (r : List EngOp) :
    (startGme n o r).run s = (beginGme n o).run (s.gmeStart n o r) := rfl

section Begin
variable {s x : State} {n : CoreId} {o : EngOp} {r : List EngOp} {st : Stop}
  (hrun : (s.core n).gme.run = none) (hqueue : (s.core n).gme.queue = o :: r)
include hrun hqueue

theorem execGmeInstructionBegin_eq_runKeep : execGmeInstructionBegin n s = .next (s.runKeep n 2 o (startGme n o r) id) := by
  simp only [execGmeInstructionBegin, hrun, hqueue, startGme]

theorem execGmeInstructionBegin_ends (hwork : (beginGme n o).run (s.gmeStart n o r) = (.ok (), x)) :
    execGmeInstructionBegin n s = .next x := by
  rw [← run_startGme] at hwork
  rw [execGmeInstructionBegin_eq_runKeep hrun hqueue, State.runKeep_ok hwork, id_eq]

theorem execGmeInstructionBegin_faults (hwork : (beginGme n o).run (s.gmeStart n o r) = (.error st, x)) (hfault : st.waits = false) :
    execGmeInstructionBegin n s = .next (x.haltOp n 2 o st) := by
  rw [← run_startGme] at hwork
  rw [execGmeInstructionBegin_eq_runKeep hrun hqueue, State.runKeep_faults hwork hfault]

theorem execGmeInstructionBegin_held (hwork : (beginGme n o).run (s.gmeStart n o r) = (.error st, x)) (hheld : st.waits = true) :
    execGmeInstructionBegin n s = .next s := by
  rw [← run_startGme] at hwork
  rw [execGmeInstructionBegin_eq_runKeep hrun hqueue, State.runKeep_held hwork hheld]

end Begin

/-! ### Yealms, folds and completion of the instruction that runs (R152 to R155, R145) -/

section Running
variable {s : State} {n : CoreId} {o : EngOp} (hrun : (s.core n).gme.run = some o)
include hrun

theorem execYealmBegin_own {lane : LaneId} {y : Yealm} (hown : (s.core n).gme.ownYealm o lane = some y) :
    execYealmBegin n lane s = .next (s.runKeep n 2 o (beginYealm n o lane lane y) id) := by
  simp only [execYealmBegin, hrun, hown]

theorem execYealmSteal_stolen {lane : LaneId} {k : Nat} {y : Yealm} (hown : (s.core n).gme.ownYealm o lane = none)
    (hstolen : (s.core n).gme.stolen o lane = some (k, y)) :
    execYealmSteal n lane s = .next (s.runKeep n 2 o (do
      modGme n fun g => { g with steals := sat32 g.steals 1 }
      beginYealm n o lane k y) id) := by
  simp only [execYealmSteal, hrun, hown, hstolen, Option.isSome_none, Bool.false_eq_true, if_false]

theorem execMergeFold_folds {row : Nat} {d : Deferred}
    (hd : ((s.core n).gme.deferred.find? fun d => d.row == row && d.ordinal == (s.core n).gme.finishedFor row) = some d) :
    execMergeFold n row s = .next (s.runKeep n 2 o (foldDeferred n o d) id) := by
  simp only [execMergeFold, hrun, hd]

theorem execGmeInstructionComplete_ends {v : State} (hdrained : (s.core n).gme.drained = true)
    (hwork : (gmeCompute n o).run s = (.ok (), v)) :
    execGmeInstructionComplete n s = .next (((v.modCore n fun c => { c with gme := { c.gme.idle with run := none } }).raiseDrops n o
      (v.core n).gme.drops).completeSignal n .gme o.sig (some o.dst)) := by
  simp only [execGmeInstructionComplete, hrun, hdrained, Bool.not_true, Bool.false_eq_true, if_false]
  exact congrArg _ (State.runKeep_ok hwork _)

end Running

end Sys2Proof.Machine

open Sys2Proof Sys2Proof.Machine

/-- Settles O25: the begin by what its work comes to from `State.gmeStart`, and one rule for each event of the instruction that
runs. -/
theorem gatherMergeEvents : Obligations.GatherMergeEvents := by
  refine ⟨?begins, fun s n lane o y hrun => execYealmBegin_own hrun,
    fun s n lane o k y hrun => execYealmSteal_stolen hrun, fun s n row o d hrun => execMergeFold_folds hrun,
    fun s v n o hrun => execGmeInstructionComplete_ends hrun⟩
  case begins =>
    intro s n o r hrun hqueue
    have hgme := s.gme_gmeStart n o r
    refine ⟨s.gmeStart n o r, congrArg Gme.run hgme, congrArg Gme.queue hgme, congrArg Gme.lastOpcode hgme, rfl,
      fun h₀ h₁ h₂ => ?other, fun work hwork => ?checked⟩
    case other => exact execGmeInstructionBegin_ends hrun hqueue (by rw [beginGme_other h₀ h₁ h₂]; rfl)
    case checked =>
      have hbegin : beginGme n o = work := by
        obtain ⟨hop, rfl⟩ | ⟨hop, rfl⟩ := hwork
        · exact beginGme_sparse hop n
        · exact beginGme_transpose hop n
      subst hbegin
      exact ⟨fun x => execGmeInstructionBegin_ends hrun hqueue, fun st x => execGmeInstructionBegin_faults hrun hqueue,
        fun st x => execGmeInstructionBegin_held hrun hqueue⟩

end

section
/-! Expert traffic (O29): a message taken off its path (R172) and the rule of its epoch (R179); what landing, placement and publication
leave of a core's flags, so that a notice reaches each owner once (R175); and what each event of a course does. -/

namespace Sys2Proof.Machine

/-! ### Messages and epochs (R172, R179) -/

/-- Frames of one payload leave the inboxes and the pools of their ports: nothing else of the module changes. -/
theorem takeFrames_eq {p : Nat} {l : List Frame} {s u : State} (h : takeFrames p s l = some u) :
    ∃ ports, u = { s with ports := ports } := by
  induction l generalizing s with
  | nil => exact ⟨s.ports, (Option.some.inj h).symm⟩
  | cons f r ih =>
    obtain ⟨v, hv, hu⟩ := Option.bind_eq_some_iff.mp h
    obtain ⟨ports, rfl⟩ := State.takeFrame_eq hv
    obtain ⟨ports', rfl⟩ := ih hu
    exact ⟨ports', rfl⟩

namespace State

/-- A message leaves the module's own path or the inboxes of a port: nothing else of the module changes. -/
theorem takeVal_eq {s u : State} {m : ValMsg} (h : s.takeVal m = some u) :
    ∃ ports path, u = { s with ports := ports, valPath := path } := by
  unfold takeVal at h
  dsimp only at h
  split at h
  · obtain ⟨i, -, rfl⟩ := Option.map_eq_some_iff.mp h
    exact ⟨s.ports, _, rfl⟩
  · split at h
    · obtain ⟨ports, rfl⟩ := takeFrames_eq h
      exact ⟨ports, s.valPath, rfl⟩
    · exact ⟨s.ports, s.valPath, (Option.some.inj h).symm⟩

theorem epochRule_current {s : State} {c : Nat} {tag : BitVec 16} {e : Byte} (h : tget (s.valley c).epochs (blockOf tag) 0 = e) :
    s.epochRule c tag e = (s, true) := by
  simp only [epochRule, h, BitVec.sub_self, BitVec.toNat_zero, if_true]

@[simp] theorem valley_modVal (s : State) (c d : Nat) (f : Valley → Valley) :
    (s.modVal c f).valley d = if d = c then f (s.valley c) else s.valley d := by
  simp only [valley, modVal, course_modCourse]
  split <;> rfl

end State

/-! What taking a message leaves, as the events of a course ask it. -/

section Taken
variable {s u : State} {m : ValMsg} (htaken : s.takeVal m = some u)
include htaken

theorem valley_takeVal (c : Nat) : u.valley c = s.valley c := by
  obtain ⟨ports, path, rfl⟩ := State.takeVal_eq htaken; rfl

theorem layerMembers_takeVal (l : Layer) : layerMembers u l = layerMembers s l := by
  obtain ⟨ports, path, rfl⟩ := State.takeVal_eq htaken; rfl

theorem recordView_takeVal (n j : Nat) : u.recordView n j = s.recordView n j := by
  obtain ⟨ports, path, rfl⟩ := State.takeVal_eq htaken; rfl

end Taken

theorem Comes.epochRule {s u : State} {c : CourseId} {m : ValMsg} {tag : BitVec 16} {e : Byte} (h : Comes s u c m tag e) :
    u.epochRule c tag e = (u, true) := by
  obtain ⟨htaken, hcurrent⟩ := h
  exact State.epochRule_current (by rwa [valley_takeVal htaken])

/-! ### Lists without repeats -/

theorem mem_insertNat {k m : Nat} {l : List Nat} : m ∈ insertNat k l ↔ m = k ∨ m ∈ l := by
  induction l with
  | nil => simp [insertNat]
  | cons j r ih =>
    rw [insertNat]
    split
    · exact List.mem_cons
    · split
      · next e => simp [e]
      · simp only [List.mem_cons, ih, or_left_comm]

theorem pairwise_lt_insertNat (k : Nat) {l : List Nat} (hl : l.Pairwise (· < ·)) : (insertNat k l).Pairwise (· < ·) := by
  induction l with
  | nil => exact List.pairwise_singleton _ k
  | cons j r ih =>
    obtain ⟨hj, hr⟩ := List.pairwise_cons.mp hl
    rw [insertNat]
    split
    · next hk => exact hl.cons (List.forall_mem_cons.mpr ⟨hk, fun m hm => hk.trans (hj m hm)⟩)
    · split
      · exact hl
      · refine (ih hr).cons fun m hm => ?_
        obtain rfl | hm := mem_insertNat.mp hm
        · omega
        · exact hj m hm

theorem sortNats_append_singleton (l : List Nat) (k : Nat) : sortNats (l ++ [k]) = insertNat k (sortNats l) := by
  simp [sortNats, List.foldl_append]

theorem mem_sortNats {m : Nat} {l : List Nat} : m ∈ sortNats l ↔ m ∈ l := by
  induction l using List.reverseRecOn with
  | nil => rfl
  | append_singleton l k ih => rw [sortNats_append_singleton, mem_insertNat, ih, List.mem_append, List.mem_singleton, or_comm]

theorem nodup_sortNats (l : List Nat) : (sortNats l).Nodup := by
  suffices h : (sortNats l).Pairwise (· < ·) from h.imp Nat.ne_of_lt
  induction l using List.reverseRecOn with
  | nil => exact .nil
  | append_singleton l k ih => rw [sortNats_append_singleton]; exact pairwise_lt_insertNat k ih

/-! ### What a Valley engine's reads and writes leave of a core's flags (R182, R244) -/

namespace State
variable (s : State) (n j : Nat)

@[simp] theorem recordView_modVal (c : Nat) (f : Valley → Valley) : (s.modVal c f).recordView n j = s.recordView n j :=
  recordView_modCourse _ _ _ _ (fun _ => rfl) fun _ => rfl

@[simp] theorem recordView_modSet (c layer : Nat) (tag : BitVec 16) (f : ValSet → ValSet) :
    (s.modSet c layer tag f).recordView n j = s.recordView n j :=
  recordView_modVal ..

@[simp] theorem recordView_raiseUe (a master : Nat) : (s.raiseUe a master).recordView n j = s.recordView n j := by
  unfold raiseUe; split <;> rfl

@[simp] theorem recordView_valFault (c a cause : Nat) : (s.valFault c a cause).recordView n j = s.recordView n j :=
  (recordView_raise ..).trans (recordView_modVal ..)

@[simp] theorem recordView_countErr (a ce ue : Nat) : (s.countErr a ce ue).recordView n j = s.recordView n j := by
  unfold countErr
  split
  · rfl
  · split
    · rfl
    · exact recordView_modCourse _ _ _ _ (fun _ => rfl) fun _ => rfl
    · exact recordView_modCore _ _ _ _ (fun _ => rfl) fun _ => rfl
    · rfl

@[simp] theorem recordView_readLine (a master : Nat) : (s.readLine a master).2.recordView n j = s.recordView n j :=
  (recordView_countErr ..).trans (recordView_wakeBank ..)

/-- Only a core's write brings along what its path carries (R55). -/
theorem flushFor_engine {master : Nat} (h : 2048 ≤ master) (a : Nat) : s.flushFor a master = s := by
  unfold flushFor
  split
  · exact if_neg (by omega)
  · rfl

theorem recordView_writeLine_engine {master : Nat} (h : 2048 ≤ master) (a : Nat) (l : List Byte) :
    (s.writeLine a l master).recordView n j = s.recordView n j := by
  unfold writeLine
  dsimp only
  rw [flushFor_engine s h]
  split
  · rfl
  · rw [recordView_putLine, recordView_wakeBank]

theorem recordView_putLines {master : Nat} (h : 2048 ≤ master) (lines a : Nat) (l : List Byte) :
    (putLines master lines s a l).recordView n j = s.recordView n j := by
  induction lines generalizing s a l with
  | zero => rfl
  | succ k ih => exact (ih ..).trans (recordView_writeLine_engine _ _ _ h _ _)

@[simp] theorem recordView_valPut (c a lines : Nat) (l : List Byte) : (s.valPut c a lines l).1.recordView n j = s.recordView n j := by
  unfold valPut
  split
  · exact recordView_valFault ..
  · exact recordView_putLines _ _ _ (Nat.le_add_right ..) _ _ _

@[simp] theorem recordView_valGet (c : Nat) (lines : List Nat) : (s.valGet c lines).1.recordView n j = s.recordView n j := by
  unfold valGet
  split
  · exact recordView_valFault ..
  · refine List.foldlRecOn (motive := fun x : State × Option (List Byte) => x.1.recordView n j = s.recordView n j) lines _ rfl
      fun x hx a _ => ?_
    dsimp only
    split
    · exact hx
    · split
      · exact (recordView_readLine ..).trans hx
      · rw [recordView_valFault, recordView_raiseUe, recordView_readLine, hx]

/-! ### What a placement leaves of a core's flags (R175) -/

theorem recordView_foldl {α : Type} {f : State → α → State} (hf : ∀ s x, (f s x).recordView n j = s.recordView n j) (l : List α) :
    (l.foldl f s).recordView n j = s.recordView n j :=
  List.foldlRecOn (motive := fun x : State => x.recordView n j = s.recordView n j) l f rfl fun x hx a _ => (hf x a).trans hx

@[simp] theorem recordView_readLanded (l : Layer) (c slot cap set_ : Nat) (rows : List Landed) :
    (readLanded l c slot cap set_ s rows).1.recordView n j = s.recordView n j := by
  induction rows generalizing s with
  | nil => rfl
  | cons x r ih =>
    refine (ih _).trans ?_
    split
    · exact recordView_valGet ..
    · rfl

@[simp] theorem recordView_placeRows (l : Layer) (c slot cap set_ : Nat) (done : List Landed) (rows : List (Landed × List Byte)) :
    (placeRows l c slot cap set_ s done rows).1.recordView n j = s.recordView n j := by
  induction rows generalizing s done with
  | nil => rfl
  | cons x r ih => exact (ih _ _).trans (recordView_valPut ..)

@[simp] theorem recordView_placeGates (l : Layer) (c slot set_ : Nat) (gates : List W32) :
    (placeGates l c slot set_ gates s).recordView n j = s.recordView n j :=
  recordView_foldl _ _ _ (fun _ _ => recordView_valPut ..) _

@[simp] theorem recordView_placeCounts (l : Layer) (back : Bool) (c set_ : Nat) (slots : List Nat) (counts : Tab Nat) :
    (placeCounts l back c set_ slots counts s).recordView n j = s.recordView n j :=
  recordView_foldl _ _ _ (fun _ _ => recordView_valPut ..) _

/-- The rows of an expert's slot are read where they landed, placed in rank order and recorded (R175). -/
def placeSlot (l : Layer) (c layer : Nat) (tag : BitVec 16) (s : State) (e : Expert) : State :=
  let kept := match s.set? c layer tag with | some v => tget v.rows e.slot [] | none => []
  let read := readLanded l c e.slot e.capacity (setIndex l tag) s kept
  let placed := placeRows l c e.slot e.capacity (setIndex l tag) read.1 [] read.2
  (placeGates l c e.slot (setIndex l tag) (placed.2.map (·.gate)) placed.1).modSet c layer tag fun v =>
    { v with rows := tset v.rows e.slot []
             route := tset v.route e.slot (placed.2.map fun (y : Landed) => (y.sender, y.token, y.pos))
             counts := tset v.counts e.slot placed.2.length }

@[simp] theorem recordView_placeSlot (l : Layer) (c layer : Nat) (tag : BitVec 16) (e : Expert) :
    (s.placeSlot l c layer tag e).recordView n j = s.recordView n j := by
  unfold placeSlot
  dsimp only
  rw [recordView_modSet, recordView_placeGates, recordView_placeRows, recordView_readLanded]

@[simp] theorem recordView_placeSlots (l : Layer) (c layer : Nat) (tag : BitVec 16) (slots : List Expert) :
    (slots.foldl (placeSlot l c layer tag) s).recordView n j = s.recordView n j :=
  recordView_foldl _ _ _ (fun _ _ => recordView_placeSlot ..) _

end State

/-! ### Publication (R175) -/

/-- An increment of one core, accepted or held, leaves every other. -/
theorem State.recordView_incFlag_other (s : State) {m n : Nat} (h : n ≠ m) (k : Nat) (a : W32) (j : Nat) :
    (s.incFlag m k a).recordView n j = s.recordView n j := by
  obtain hheld | hheld := Bool.eq_false_or_eq_true (s.roleHeld m)
  · rw [incFlag, if_pos hheld]; rfl
  · simp only [incFlag_accepted hheld, recordView, core_modCore, if_neg h, roleHeld_modCore]

theorem State.valley_incFlag (s : State) (n k : Nat) (a : W32) : (s.incFlag n k a).valley = s.valley := by
  unfold incFlag; split <;> rfl

theorem valley_publish (l : Layer) (c : Nat) (owners : List Nat) (s : State) : (publish l c owners s).valley = s.valley :=
  State.keeps_incFlags owners State.valley (fun k => 32 * c + k) (fun _ => l.publishFlag) (fun _ => 1) State.valley_incFlag s

theorem recordView_publish_other (l : Layer) (c : Nat) {owners : List Nat} {k : Nat} (h : k ∉ owners) (s : State) (j : Nat) :
    (publish l c owners s).recordView (32 * c + k) j = s.recordView (32 * c + k) j :=
  List.foldlRecOn (motive := fun x : State => x.recordView (32 * c + k) j = s.recordView (32 * c + k) j) _ _ rfl
    fun _ hx m hm => (State.recordView_incFlag_other _ (by have := ne_of_mem_of_not_mem hm h; omega) _ _ _).trans hx

/-- An owner that a publication names once takes one increment. -/
theorem flag_publish (l : Layer) (c : Nat) {owners : List Nat} {k : Nat} (hnodup : owners.Nodup) (hk : k ∈ owners) {s : State}
    (hrole : s.roleHeld (32 * c + k) = false) :
    ((publish l c owners s).core (32 * c + k)).flag l.publishFlag = (s.core (32 * c + k)).flag l.publishFlag + 1 := by
  obtain ⟨before, after, rfl⟩ := List.append_of_mem hk
  have honce : k ∉ before ++ after := (List.nodup_cons.mp (List.nodup_middle.mp hnodup)).1
  rw [List.mem_append, not_or] at honce
  obtain ⟨hbefore, hafter⟩ := honce
  have hsplit : publish l c (before ++ k :: after) s =
      publish l c after ((publish l c before s).incFlag (32 * c + k) l.publishFlag 1) := by simp [publish, List.foldl_append]
  have hfirst := recordView_publish_other l c hbefore s l.publishFlag
  have hlast := recordView_publish_other l c hafter ((publish l c before s).incFlag (32 * c + k) l.publishFlag 1) l.publishFlag
  simp only [State.recordView, Prod.mk.injEq] at hfirst hlast
  obtain ⟨hflag, -, hheld⟩ := hfirst
  obtain ⟨hflag', -⟩ := hlast
  rw [hsplit, hflag', State.flag_incFlag (hheld.trans hrole), hflag]

/-! ### The set of a tag (R174) -/

/-- Changing a tag's set, taken now where none held it, leaves the changed set as the tag's. -/
theorem State.set?_modSet (s : State) (c layer : Nat) (tag : BitVec 16) {f : ValSet → ValSet}
    (hkey : ∀ x, (f x).layer = x.layer ∧ (f x).tag = x.tag) : ∃ x, (s.modSet c layer tag f).set? c layer tag = some (f x) := by
  have hkeeps : ((fun x : ValSet => x.layer == layer && x.tag == tag) ∘ fun x => if x.layer = layer ∧ x.tag = tag then f x else x) =
      fun x => x.layer == layer && x.tag == tag := by
    funext x
    by_cases hx : x.layer = layer ∧ x.tag = tag
    · simp [hx, hkey]
    · simp [hx]
  simp only [set?, modSet, valley_modVal, if_true]
  split
  · next hany =>
    obtain ⟨x, hx⟩ := Option.isSome_iff_exists.mp (List.find?_isSome.mpr (List.any_eq_true.mp hany))
    have hx' : x.layer = layer ∧ x.tag = tag := by simpa using List.find?_some hx
    exact ⟨x, by rw [List.find?_map, hkeeps, hx, Option.map_some, if_pos hx']⟩
  · next hnone =>
    refine ⟨{ layer := layer, tag := tag, epoch := tget (s.valley c).epochs (blockOf tag) 0 }, ?_⟩
    rw [List.find?_append, List.find?_eq_none.mpr fun x hx h => hnone (List.any_eq_true.mpr ⟨x, hx, h⟩), Option.none_or,
      List.find?_cons_of_pos (by simp [hkey])]

/-! ### Rows (R173, R178, R179) -/

section Row
variable {s u : State} {c : CourseId} {row : ValRow} {l : Layer} (hlayer : s.layer? row.layer = some l)
include hlayer

theorem execValleyRow_stale (htaken : s.takeVal (.row c row) = some u) (hstale : (u.epochRule c row.tag row.epoch).2 = false) :
    execValleyRow c row s = .next (u.epochRule c row.tag row.epoch).1 := by
  simp only [execValleyRow, hlayer, htaken, hstale, Bool.not_false, if_true]

section One
variable {k : Nat} {e : Expert} (hcomes : Comes s u c (.row c row) row.tag row.epoch) (htargets : rowTargets s l row = [(k, e)])
  (hcourse : e.course = c.val)
include hcomes htargets hcourse

theorem execValleyRow_forward (hdir : row.backward = false) (hfree : s.setHeld c row.layer l.ring row.tag = false) :
    execValleyRow c row s = .next (landForward u l row k e) := by
  have hfree' : u.setHeld c row.layer l.ring row.tag = false := by rwa [State.setHeld, valley_takeVal hcomes.taken]
  simp only [execValleyRow, hlayer, hcomes.taken, hcomes.epochRule, htargets, hcourse, hdir, hfree', List.any_cons, List.any_nil,
    List.foldl_cons, List.foldl_nil, Bool.not_true, Bool.not_false, Bool.and_false, Bool.or_false, Bool.false_eq_true, if_false]

theorem execValleyRow_backward (hdir : row.backward = true) : execValleyRow c row s = .next (landBackward u l row k e) := by
  simp only [execValleyRow, hlayer, hcomes.taken, hcomes.epochRule, htargets, hcourse, hdir,
    List.foldl_cons, List.foldl_nil, Bool.not_true, Bool.false_and, Bool.false_eq_true, if_false, if_true]

end One

end Row

/-! ### Count headers (R175) -/

/-- The kept count headers of a course but those of a tag, layer and direction. -/
def countsBeside (s : State) (c : CourseId) (h : CountHdr) : List CountRec :=
  (s.valley c).counts.filter fun r => !(r.layer == h.layer && r.tag == h.tag && r.backward == h.backward)

/-- The course keeps the headers `counts`. -/
def State.setCounts (s : State) (c : CourseId) (counts : List CountRec) : State := s.modVal c fun v => { v with counts := counts }

theorem countSenders_forgotten (s : State) (c : CourseId) (h : CountHdr) : countSenders (s.setCounts c (countsBeside s c h)) c h = [] := by
  have hnone : ((countsBeside s c h).find? fun r => r.layer == h.layer && r.tag == h.tag && r.backward == h.backward) = none :=
    List.find?_eq_none.mpr fun r hr => by
      simpa only [Bool.not_eq_true, Bool.not_eq_true'] using (List.mem_filter.mp hr).2
  simp only [countSenders, State.setCounts, State.valley_modVal, if_true, hnone]

theorem countSenders_kept (s : State) (c : CourseId) (h : CountHdr) (got : List Nat) (rest : List CountRec) :
    countSenders (s.setCounts c ({ layer := h.layer, tag := h.tag, backward := h.backward, senders := got } :: rest)) c h = got := by
  simp [countSenders, State.setCounts]

section Count
variable {s u : State} {c : CourseId} {h : CountHdr} {l : Layer} (hlayer : s.layer? h.layer = some l)
  (hcomes : Comes s u c (.count c h) h.tag h.epoch)
include hlayer hcomes

theorem execCountHeader_last
    (hall : ((List.range (layerMembers s l).length).all fun i => (insertNat h.sender (countSenders s c h)).contains i) = true) :
    execCountHeader c h s = .next { u.setCounts c (countsBeside u c h) with
      valPath := u.valPath ++ (layerCourses s l).map fun k => { source := 32 * c, msg := .notice k h.layer h.tag h.backward } } := by
  simp only [execCountHeader, hlayer, hcomes.taken, hcomes.epochRule, Bool.not_true, Bool.false_eq_true, if_false]
  obtain ⟨ports, path, rfl⟩ := State.takeVal_eq hcomes.taken
  exact if_pos hall

theorem execCountHeader_more
    (hmissing : ((List.range (layerMembers s l).length).all fun i => (insertNat h.sender (countSenders s c h)).contains i) = false) :
    execCountHeader c h s = .next (u.setCounts c
      ({ layer := h.layer, tag := h.tag, backward := h.backward, senders := insertNat h.sender (countSenders s c h) } ::
        countsBeside u c h)) := by
  simp only [execCountHeader, hlayer, hcomes.taken, hcomes.epochRule, Bool.not_true, Bool.false_eq_true, if_false]
  obtain ⟨ports, path, rfl⟩ := State.takeVal_eq hcomes.taken
  exact if_neg (Bool.eq_false_iff.mp hmissing)

end Count

/-! ### Completion notices (R175, R178) -/

/-- The cores that own a slot of the layer in a course. -/
def slotOwners (s : State) (l : Layer) (c : CourseId) : List Nat := sortNats ((layerSlots s l c).map (·.owner))

/-- The course of a forward notice, its rows and counts placed, before it publishes. -/
def placedCourse (s u : State) (l : Layer) (c : CourseId) (layer : Nat) (tag : BitVec 16) : State :=
  let x := (layerSlots s l c).foldl (State.placeSlot l c layer tag) (u.modSet c layer tag id)
  (placeCounts l false c (setIndex l tag) ((layerSlots s l c).map (·.slot))
    ((x.set? c layer tag).getD { layer := layer, tag := tag }).counts x).modSet c layer tag fun y => { y with pubFwd := true }

section Placed
variable (s u : State) (l : Layer) (c : CourseId) (layer : Nat) (tag : BitVec 16)

theorem recordView_placedCourse (n j : Nat) : (placedCourse s u l c layer tag).recordView n j = u.recordView n j := by
  simp [placedCourse]

theorem pubFwd_placedCourse : ((placedCourse s u l c layer tag).set? c layer tag).map (·.pubFwd) = some true := by
  unfold placedCourse
  dsimp only
  obtain ⟨x, hx⟩ := State.set?_modSet _ c layer tag (f := fun y => { y with pubFwd := true }) fun _ => ⟨rfl, rfl⟩
  rw [hx]; rfl

end Placed

/-- R175: each owner of a slot takes one increment, however many slots it owns. -/
theorem flag_publish_placedCourse {s u : State} {c : CourseId} {layer : Nat} {tag : BitVec 16}
    (htaken : s.takeVal (.notice c layer tag false) = some u) {l : Layer} {e : Expert} (he : e ∈ layerSlots s l c)
    (hrole : s.roleHeld (32 * c + e.owner) = false) :
    ((publish l c (slotOwners s l c) (placedCourse s u l c layer tag)).core (32 * c + e.owner)).flag l.publishFlag =
      (s.core (32 * c + e.owner)).flag l.publishFlag + 1 := by
  have hview := (recordView_placedCourse s u l c layer tag (32 * c + e.owner) l.publishFlag).trans (recordView_takeVal htaken ..)
  simp only [State.recordView, Prod.mk.injEq] at hview
  obtain ⟨hflag, -, hheld⟩ := hview
  have honce : (slotOwners s l c).Nodup := nodup_sortNats _
  have howner : e.owner ∈ slotOwners s l c := mem_sortNats.mpr (List.mem_map_of_mem he)
  rw [flag_publish l c honce howner (hheld.trans hrole), hflag]

section Notice
variable {s u : State} {c : CourseId} {layer : Nat} {tag : BitVec 16} {l : Layer} (hlayer : s.layer? layer = some l)
include hlayer

theorem execCompletionNotice_backward {v : ValSet} (htaken : s.takeVal (.notice c layer tag true) = some u)
    (hset : u.set? c layer tag = some v) :
    execCompletionNotice c layer tag true s = .next (publish l c (slotOwners s l c)
      ((placeCounts l true c (setIndex l tag) ((layerSlots s l c).map (·.slot)) v.counts u).modSet c layer tag fun x =>
        { x with pubBwd := true })) := by
  simp only [execCompletionNotice, hlayer, htaken, hset, Bool.not_true, Bool.false_and, Bool.false_eq_true, if_false, if_true,
    slotOwners]

/-- A forward notice publishes to the owners; the rows that its set has dropped go to the event log. -/
theorem execCompletionNotice_forward (hfree : s.setHeld c layer l.ring tag = false) (hread : s.landedHeld l c layer tag = false)
    (htaken : s.takeVal (.notice c layer tag false) = some u) :
    ∃ log, execCompletionNotice c layer tag false s =
      .next { publish l c (slotOwners s l c) (placedCourse s u l c layer tag) with log := log } := by
  simp only [execCompletionNotice, hlayer, hfree, hread, htaken, Bool.or_false, Bool.and_false, Bool.false_eq_true, if_false]
  split <;> exact ⟨_, rfl⟩

end Notice

/-! ### Returns at the home (R176, R177, R179) -/

section Return
variable {s u : State} {c : CourseId} {row : RetRow} {l : Layer} {n : Nat} (hlayer : s.layer? row.layer = some l)
  (hcomes : Comes s u c (.back c row) row.tag row.epoch) (hcore : n = ((layerMembers s l).getD row.sender (0, 0)).2)
include hlayer hcomes hcore

theorem execReturnRow_gone (hhome : ((s.valley c).homes.find? fun h => h.is n row.layer row.tag row.backward row.epoch) = none) :
    execReturnRow c row s = .next (u.modVal c fun v => { v with staleReturn := sat32 v.staleReturn 1 }) := by
  rw [hcore] at hhome
  simp only [execReturnRow, hlayer, hcomes.taken, hcomes.epochRule, layerMembers_takeVal hcomes.taken, valley_takeVal hcomes.taken, hhome,
    Bool.not_true, Bool.false_eq_true, if_false]

section Home
variable {h : HomeRec} {y : State × Bool}
  (hhome : ((s.valley c).homes.find? fun h => h.is n row.layer row.tag row.backward row.epoch) = some h)
  (hput : y = u.valPut c (u.returnPlace l row.backward n row.token row.pos row.tag) (rowExtent l.returnFormat l.rowWidth) row.data)
include hhome hput

theorem execReturnRow_home : execReturnRow c row s = .next (if y.2 then
    y.1.modHome n row.layer row.tag row.backward row.epoch fun x => { x with returns := x.returns ++ [(row.token, row.pos)] } else y.1) := by
  rw [hcore] at hhome
  simp only [execReturnRow, hlayer, hcomes.taken, hcomes.epochRule, layerMembers_takeVal hcomes.taken, valley_takeVal hcomes.taken, hhome,
    hput, hcore, Bool.not_true, Bool.false_eq_true, if_false]
  split <;> rfl

end Home

end Return

theorem execReturnCount_current {s u : State} {c : CourseId} {h : CountHdr} {m : ModAddr} {k : Nat} {l : Layer} {n : Nat}
    (hlayer : s.layer? h.layer = some l) (hcomes : Comes s u c (.backCount c h m k) h.tag h.epoch)
    (hcore : n = ((layerMembers s l).getD h.sender (0, 0)).2) :
    execReturnCount c h m k s = .next ((u.modHome n h.layer h.tag h.backward h.epoch fun x =>
      { x with headers := (m, k) :: x.headers }).settleHome n h.layer h.tag h.backward h.epoch) := by
  simp only [execReturnCount, hlayer, hcomes.taken, hcomes.epochRule, layerMembers_takeVal hcomes.taken, hcore, Bool.not_true,
    Bool.false_eq_true, if_false]

/-! ### Cancellations (R180) -/

theorem execValleyCancel_taken {s u : State} {c : CourseId} {block epoch : Byte}
    (htaken : s.takeVal (.cancel c block.toNat epoch.toNat) = some u) :
    execValleyCancel c block epoch s = .next (if 128 ≤ (tget (s.valley c).epochs block.toNat 0 - epoch).toNat then
      u.cancelBlock c block.toNat epoch else u) := by
  simp only [execValleyCancel, htaken, valley_takeVal htaken]
  split <;> rfl

/-! ### The combine (R177, R180) -/

theorem State.runWork_ok {s v : State} {n engine : Nat} {o : EngOp} {w : Work Unit} (hwork : w.run s = (.ok (), v))
    (after : State → State) : s.runWork n engine o w after = after v := by
  simp only [runWork, hwork]

theorem tagState_info (w : Word128) (k : Nat) : (tagState w k).info = fOpcode w + k * 2 ^ 8 + (immTag w).toNat * 2 ^ 16 := by
  rw [tagState, notInState, Nat.mod_eq_of_lt (immTag w).isLt]

section Combine
variable {s : State} {n : CoreId} {o : EngOp} {r : List EngOp} (hqueue : (s.core n).val = o :: r) (hop : opCode o.w = 0xD1)
  (hnew : o.begun = false)
include hqueue hop hnew

section Home
variable {h : HomeRec} {l : Layer} (hepoch : s.epochOf (courseOf n) (immTag o.w) = o.epochs.headD 0) (hhome : s.home? n o.w = some h)
  (hlayer : s.layer? (immLayer o.w) = some l)
include hepoch hhome hlayer

theorem execCombineBegin_runs {v : State} (hcomplete : h.complete = true) (hwork : (runCombine n o l h).run s = (.ok (), v)) :
    execCombineBegin n s = .next (v.modCore n setBegun) := by
  simp only [execCombineBegin, hqueue, hop, hnew, hepoch, hhome, hlayer, hcomplete, State.runWork_ok hwork, ne_eq, not_true_eq_false,
    Bool.not_true, Bool.false_eq_true, or_self, if_false, if_true]

theorem execCombineBegin_waits (hmissing : h.complete = false) : execCombineBegin n s = .next s := by
  simp only [execCombineBegin, hqueue, hop, hnew, hepoch, hhome, hlayer, hmissing, ne_eq, not_true_eq_false,
    Bool.not_false, Bool.false_eq_true, or_self, if_false, if_true]

end Home

theorem execCombineBegin_gone (hgone : s.epochOf (courseOf n) (immTag o.w) ≠ o.epochs.headD 0 ∨ s.home? n o.w = none) :
    execCombineBegin n s = .next (s.haltOp n 5 o (tagState o.w 0x03)) := by
  have hnone : (if s.epochOf (courseOf n) (immTag o.w) = o.epochs.headD 0 then s.home? n o.w else none) = none :=
    ite_eq_right_iff.mpr fun hepoch => hgone.resolve_left (not_not_intro hepoch)
  simp only [execCombineBegin, hqueue, hop, hnew, hnone, ne_eq, not_true_eq_false, Bool.false_eq_true, or_self, if_false]

end Combine

end Sys2Proof.Machine

open Sys2Proof Sys2Proof.Machine

/-- Settles O29: one rule for each event, from what taking a message leaves (`State.takeVal_eq`); that a forward notice publishes once to
each owner is `flag_publish`, since placing the rows increments no flag (`recordView_placedCourse`). -/
theorem expertTrafficEvents : Obligations.ExpertTrafficEvents := by
  refine ⟨⟨fun s u c row l hlayer => execValleyRow_stale hlayer, ?rows, ?counts, ?backNotice, ?notice⟩,
    ⟨?returns, fun s u c h m k l n hlayer hcomes => execReturnCount_current hlayer hcomes, ?cancels⟩, ?combine⟩
  case rows =>
    exact fun s u c row l k e hlayer hcomes htargets hcourse => ⟨execValleyRow_forward hlayer hcomes htargets hcourse,
      execValleyRow_backward hlayer hcomes htargets hcourse⟩
  case counts =>
    rintro s u c h l hlayer hcomes got rfl
    exact ⟨fun hall => ⟨_, execCountHeader_last hlayer hcomes hall, countSenders_forgotten u c h, rfl⟩,
      fun hmissing => ⟨_, execCountHeader_more hlayer hcomes hmissing, countSenders_kept .., rfl⟩⟩
  case backNotice =>
    exact fun s u c layer tag l v hlayer htaken hset => ⟨_, execCompletionNotice_backward hlayer htaken hset, rfl⟩
  case notice =>
    intro s u c layer tag l hlayer hfree hread htaken
    obtain ⟨log, hexec⟩ := execCompletionNotice_forward hlayer hfree hread htaken
    refine ⟨_, hexec, ?published, fun e he hrole => flag_publish_placedCourse htaken he hrole⟩
    case published =>
      have hsets := valley_publish l c (slotOwners s l c) (placedCourse s u l c layer tag)
      have hpub := pubFwd_placedCourse s u l c layer tag
      rw [State.set?, ← hsets] at hpub
      exact hpub
  case returns =>
    intro s u c row l n hlayer hcomes hcore
    refine ⟨fun hhome => ⟨_, execReturnRow_gone hlayer hcomes hcore hhome, ?counted, rfl⟩, fun h y hhome hput => ?home⟩
    case counted => rw [State.valley_modVal, if_pos rfl, valley_takeVal hcomes.taken]
    case home =>
      have hexec := execReturnRow_home hlayer hcomes hcore hhome hput
      exact ⟨fun hy => hexec.trans (congrArg _ (if_pos hy)), fun hy => hexec.trans (congrArg _ (if_neg (Bool.eq_false_iff.mp hy)))⟩
  case cancels =>
    exact fun s u c block epoch htaken => ⟨fun h => (execValleyCancel_taken htaken).trans (congrArg _ (if_pos h)),
      fun h => (execValleyCancel_taken htaken).trans (congrArg _ (if_neg h))⟩
  case combine =>
    intro s n o r hqueue hop hnew
    refine ⟨fun h l hepoch hhome hlayer => ⟨fun v => execCombineBegin_runs hqueue hop hnew hepoch hhome hlayer,
      execCombineBegin_waits hqueue hop hnew hepoch hhome hlayer⟩, fun hgone hrunning => ?_⟩
    have hhalt := State.halt_haltCore hrunning { engine := 5, stream := o.stream.toNat, region := o.region, index := o.index }
      (tagState o.w 0x03)
    exact ⟨_, execCombineBegin_gone hqueue hop hnew hgone, congrArg HaltRec.halted hhalt, congrArg HaltRec.reason hhalt,
      (congrArg HaltRec.info hhalt).trans (congrArg (BitVec.ofNat 64) (tagState_info ..)), congrArg HaltRec.engine hhalt, mem_haltCore ..⟩

end

section
/-! The weight digest (O41): that sending frames, comparing records and publishing a sum leave the step to close next (R222); when a
step closes and which records are kept (R222, R223); the majority of a comparison's records (R223); and overdue comparisons (R345). -/

namespace Sys2Proof.Machine

namespace State

/-! ### What leaves the step to close next -/

theorem nextClose_foldl {α : Type} {f : State → α → State} (hf : ∀ s x, (f s x).nextClose = s.nextClose) (l : List α) (s : State) :
    (l.foldl f s).nextClose = s.nextClose :=
  List.foldlRecOn (motive := fun t : State => t.nextClose = s.nextClose) l f rfl fun t ht x _ => (hf t x).trans ht

/-! #### Frames -/

@[simp] theorem nextClose_enqueue (s : State) (p : Nat) (w : Waiting) : (s.enqueue p w).nextClose = s.nextClose := rfl

@[simp] theorem nextClose_deliver (s : State) (p : Nat) (f : Frame) : (s.deliver p f).nextClose = s.nextClose := rfl

@[simp] theorem nextClose_owe (s : State) (l : List (Nat × Nat × Nat)) : (owe s l).nextClose = s.nextClose := by
  obtain ⟨ports, h⟩ := owe_eq s l
  rw [h]

@[simp] theorem nextClose_pump (s : State) (p : Nat) : (s.pump p).1.nextClose = s.nextClose := nextClose_owe ..

@[simp] theorem nextClose_bounce (s : State) (p : Nat) (l : List Waiting) : (s.bounce p l).nextClose = s.nextClose := by
  refine nextClose_foldl (fun t w => ?_) l s
  dsimp only
  split
  · rfl
  · split
    · rfl
    · split
      · rw [nextClose_foldl fun _ _ => nextClose_modPort .., nextClose_pump, nextClose_enqueue, nextClose_modPort]
      · rfl

@[simp] theorem nextClose_pumpAll (s : State) (p : Nat) : (s.pumpAll p).nextClose = s.nextClose := by simp [pumpAll]

@[simp] theorem nextClose_sendFrame (s : State) (f : Frame) : (s.sendFrame f).nextClose = s.nextClose := by
  unfold sendFrame forward
  dsimp only
  split
  · simp
  · split
    · simp
    · split <;> simp

/-! #### Suspicion and the guarantee -/

@[simp] theorem nextClose_suspectPos (s : State) (c p item cause : Nat) : (s.suspectPos c p item cause).nextClose = s.nextClose := by
  unfold suspectPos
  dsimp only
  split <;> rfl

@[simp] theorem nextClose_suspectModule (s : State) (cause domain step : Nat) :
    (s.suspectModule cause domain step).nextClose = s.nextClose := by
  unfold suspectModule
  dsimp only
  rw [nextClose_foldl fun _ _ => nextClose_modCourse .., nextClose_foldl, nextClose_raise]
  intro t c
  split
  · refine nextClose_foldl (fun u p => ?_) _ t
    split
    · rfl
    · exact nextClose_suspectPos ..
  · rfl

@[simp] theorem nextClose_settleMark (s : State) : s.settleMark.nextClose = s.nextClose := by
  unfold settleMark
  split
  · rw [nextClose_raise, nextClose_foldl fun _ _ => nextClose_modCourse ..]
  · rfl

@[simp] theorem nextClose_settleGuarantee (s : State) : s.settleGuarantee.nextClose = s.nextClose := by
  simp [settleGuarantee, apply_ite nextClose, nextClose_foldl]

/-! #### Comparing and publishing -/

@[simp] theorem nextClose_modDigest (s : State) (d : Nat) (f : DigestState → DigestState) :
    (s.modDigest d f).nextClose = s.nextClose := rfl

@[simp] theorem nextClose_compareDigest (s : State) (d n : Nat) : (s.compareDigest d n).nextClose = s.nextClose := by
  simp only [compareDigest, apply_ite nextClose, nextClose_settleGuarantee, nextClose_settleMark, nextClose_suspectModule,
    nextClose_modDigest, nextClose_raise, ite_self]

@[simp] theorem nextClose_settleDigest (s : State) (d : Nat) : (s.settleDigest d).nextClose = s.nextClose := by
  unfold settleDigest
  split
  · dsimp only
    split
    · exact nextClose_compareDigest ..
    · rfl
  · rfl

@[simp] theorem nextClose_sumDigest (s : State) (d n : Nat) : (s.sumDigest d n).2.nextClose = s.nextClose :=
  List.foldlRecOn (motive := fun x : DigAcc × State => x.2.nextClose = s.nextClose) _ _ rfl fun _ hx _ _ => hx

@[simp] theorem nextClose_publishDigest (s : State) (d n : Nat) (a : DigAcc) : (s.publishDigest d n a).nextClose = s.nextClose := by
  unfold publishDigest
  dsimp only
  simp only [nextClose_settleDigest, nextClose_foldl, nextClose_sendFrame, implies_true, nextClose_modDigest]
  split
  · exact nextClose_compareDigest ..
  · rfl

/-! ### Closing a step (R222) -/

/-- What closing step n does to domain d, I the interval of the digest: its accumulators are summed and cleared, and the sum
published when n is a multiple of I. -/
def closeDomain (I n : Nat) (s : State) (d : Nat) : State :=
  if (s.domain d).isEmpty then s
  else if I ≠ 0 ∧ n % I = 0 then (s.sumDigest d n).2.publishDigest d n (s.sumDigest d n).1 else (s.sumDigest d n).2

theorem closeDomain_of_nil {s : State} {d : Nat} (h : s.domain d = []) (I n : Nat) : s.closeDomain I n d = s := by
  simp [closeDomain, h]

@[simp] theorem nextClose_closeDomain (I n : Nat) (s : State) (d : Nat) : (s.closeDomain I n d).nextClose = s.nextClose := by
  unfold closeDomain
  split
  · rfl
  · split <;> simp

end State

section Close
variable {s : State}

theorem execDigestClose_passed (hloaded : s.image.loaded = true) (hactive : s.activeCourses ≠ [])
    (hpassed : ∀ c, c ∈ s.activeCourses → s.nextClose < (s.course c).step.toNat) :
    execDigestClose s = .next ((List.range numDomains).foldl (State.closeDomain s.image.bodies.interval s.nextClose)
      { s with nextClose := s.nextClose + 1 }) := by
  have hnone : (s.activeCourses.any fun c => decide ((s.course c).step.toNat ≤ s.nextClose)) = false :=
    List.any_eq_false.mpr fun c hc => by simpa using hpassed c hc
  have hsome : s.activeCourses.isEmpty = false := List.isEmpty_eq_false_iff.mpr hactive
  simp only [execDigestClose, hloaded, hsome, hnone, Bool.not_true, Bool.or_self, Bool.false_eq_true, if_false]
  rfl

theorem execDigestClose_waits (hwaits : ∃ c, c ∈ s.activeCourses ∧ (s.course c).step.toNat ≤ s.nextClose) :
    execDigestClose s = .next s := by
  have hany : (s.activeCourses.any fun c => decide ((s.course c).step.toNat ≤ s.nextClose)) = true := by simpa using hwaits
  simp only [execDigestClose, hany, Bool.or_true, if_true]

theorem foldl_closeDomain_of_nil (hnil : ∀ d, d < 4 → s.domain d = []) (I n : Nat) :
    (List.range numDomains).foldl (State.closeDomain I n) s = s :=
  List.foldlRecOn (motive := fun t => t = s) _ _ rfl fun _ ht d hd => by
    subst ht
    exact State.closeDomain_of_nil (hnil d (List.mem_range.mp hd)) I n

end Close

/-! ### Records of other ranks (R223) -/

section Record
variable {s u : State} {r : DigestRec} (hrank : r.rank < (s.domain r.domain).length)
  (hother : r.rank ≠ (s.domain r.domain).idxOf s.fabric.coord)
  (htaken : s.takePayload 0x15 ((s.domain r.domain).getD r.rank 0) (digestBytes r) = some u)
include hrank hother htaken

/-- A record of another member's rank is kept while its step waits or is still to close, and discarded after. -/
theorem execDigestRecord_taken :
    execDigestRecord r s = if (u.digestOf r.domain).awaited = some r.step.toNat ∨ u.nextClose ≤ r.step.toNat then
      .next ((u.modDigest r.domain fun x => { x with records := r :: x.records }).settleDigest r.domain) else .next u := by
  have hmember : ¬ ((s.domain r.domain).length ≤ r.rank ∨ r.rank = (s.domain r.domain).idxOf s.fabric.coord) := by omega
  simp only [execDigestRecord, hmember, htaken, if_false, Bool.or_eq_true, beq_iff_eq, decide_eq_true_eq]

end Record

/-! ### Overdue comparisons (R345) -/

section Overdue
variable {s : State} {d : Fin 4}

theorem execDigestComparisonOverdue_lapses (hloaded : s.image.loaded = true) (hpaired : 2 ≤ (s.domain d).length)
    (hfirst : s.health.overdue.contains d.val = false) (hlate : (s.digestOf d).compared + s.digestSpacing < s.clock) :
    execDigestComparisonOverdue d s =
      .next ({ s with health := { s.health with overdue := d.val :: s.health.overdue } } : State).settleGuarantee := by
  have hclock : decide (s.clock ≤ (tget s.digest d.val {}).compared + s.digestSpacing) = false :=
    decide_eq_false (Nat.not_le.mpr hlate)
  have hmembers : decide ((s.domain d).length < 2) = false := decide_eq_false (Nat.not_lt.mpr hpaired)
  simp only [execDigestComparisonOverdue, hclock, hloaded, hmembers, hfirst, Bool.not_true, Bool.or_self, Bool.false_eq_true, if_false]

theorem execDigestComparisonOverdue_early (hearly : s.clock ≤ (s.digestOf d).compared + s.digestSpacing) :
    execDigestComparisonOverdue d s = .next s := by
  have hclock : decide (s.clock ≤ (tget s.digest d.val {}).compared + s.digestSpacing) = true := decide_eq_true hearly
  simp only [execDigestComparisonOverdue, hclock, Bool.true_or, if_true]

end Overdue

/-! ### The majority and the ranks outside it (R223) -/

theorem majority_eq_some {l : List DigestRec} {x : DigestRec} : majority l = some x ↔ 3 ≤ l.length ∧
    (l.find? fun x => decide (l.length < 2 * (l.filter fun y => agreeing x y).length)) = some x := by
  unfold majority
  split
  · exact iff_of_false nofun fun ⟨hthree, _⟩ => by omega
  · exact (and_iff_right (by omega)).symm

theorem mem_outsiders {l : List DigestRec} {x : DigestRec} (h : majority l = some x) (r : Nat) :
    r ∈ outsiders l ↔ ∃ y, y ∈ l ∧ agreeing x y = false ∧ y.rank = r := by
  simp only [outsiders, h, List.mem_map, List.mem_filter, Bool.not_eq_true', and_assoc]

end Sys2Proof.Machine

open Sys2Proof Sys2Proof.Machine

/-- Settles O41: closing acts on the domains one by one (`State.closeDomain`) and none of them changes the step to close next; a
record, a comparison overdue and the majority by one rule for each case. -/
theorem weightDigest : Obligations.WeightDigest := by
  refine ⟨fun s hloaded hactive => ⟨?unpaired, ?closes, ?waits⟩, fun s u r hrank hother htaken => ⟨?keeps, ?discards⟩,
    fun s d => ⟨?lapses, ?early⟩, ?majority⟩
  case unpaired =>
    intro hpassed hnil
    rw [exec_digestClose, execDigestClose_passed hloaded hactive hpassed,
      foldl_closeDomain_of_nil (s := { s with nextClose := s.nextClose + 1 }) hnil]
  case closes =>
    exact fun hpassed => ⟨_, execDigestClose_passed hloaded hactive hpassed,
      State.nextClose_foldl (State.nextClose_closeDomain _ _) _ _⟩
  case waits => exact execDigestClose_waits
  case keeps => exact fun hdue => (execDigestRecord_taken hrank hother htaken).trans (if_pos hdue)
  case discards =>
    exact fun hawaits hlate => (execDigestRecord_taken hrank hother htaken).trans (if_neg (by simp [hawaits, hlate]))
  case lapses => exact execDigestComparisonOverdue_lapses
  case early => exact execDigestComparisonOverdue_early
  case majority =>
    intro l x h
    obtain ⟨hthree, hfind⟩ := majority_eq_some.mp h
    exact ⟨hthree, List.mem_of_find?_eq_some hfind, of_decide_eq_true (List.find?_some hfind :), mem_outsiders h⟩

end

section
/-! Reads, writes and bulk transfers of the host (O45): each command of a session as its own operation in the state of its turn, and
what that operation leaves when nothing refuses or holds it. -/

namespace Sys2Proof.Machine

/-! ### READ_REG and WRITE_REG of one register (R299, R383, R384) -/

section Registers
variable {u : State} {a : Word}

/-- R237, R383: a permitted read of one register votes on the triplicated items that it shows. -/
theorem opReadReg_one {ss : Nat} {priv : Bool} (hview : priv = true → u.isOwner ss = true) (hform : badAddr u [a] = none)
    (hpower : u.regRefused priv a.toNat = none) (hfree : u.regHeld a.toNat = none) (q : Nat) :
    opReadReg u ss q priv [a] = (u.votes (registerItems a.toNat)).reply ss q 0x04 .ok
      (leBytes 8 ((readAt u priv a.toNat).getD 0 % 2 ^ 64)) := by
  have hsession : (priv && !u.isOwner ss) = false := by
    cases priv with
    | false => rfl
    | true => simp [hview rfl]
  simp [opReadReg, hsession, hform, readLoop, hpower, hfree]

/-- R299, R383: a register that no command may write is refused at its index. -/
theorem opWriteReg_readOnly {ss : Nat} {priv : Bool} {x : Word} (howner : u.isOwner ss = true) (hform : badAddr u [a] = none)
    (hpower : u.regRefused priv a.toNat = none) (hfree : u.regHeld a.toNat = none) (hwritable : writable a.toNat = none) (q : Nat) :
    opWriteReg u ss q priv [(a, x)] = u.reply ss q 0x05 .privilege (leBytes 8 0) := by
  have hwrite : u.regWrite priv a.toNat x = (.privilege, u) := by simp [State.regWrite, hwritable]
  simp [opWriteReg, howner, hform, writeLoop, hpower, hfree, hwrite, State.refuseAt, indexBytes]

end Registers

/-! ### EVENT_FETCH (R308, R309) -/

/-- The log still holds every record asked for: they are answered oldest first, at most count of them. -/
theorem opEventFetch_ok {u : State} {first count : Nat} {e : Event} (hlo : 1 ≤ count) (hhi : count ≤ 64)
    (holdest : u.log.records.getLast? = some e) (hkept : e.seq ≤ max first 1) (ss q : Nat) :
    opEventFetch u ss q first count = u.reply ss q 0x0E .ok
      (((u.log.records.filter fun e => decide (max first 1 ≤ e.seq)).reverse.take count).flatMap eventBytes) := by
  have hcount : ¬ (count < 1 ∨ 64 < count) := by omega
  have hnone_lost : ¬ (max first 1 < e.seq ∧ max first 1 ≤ u.log.newest) := by omega
  simp only [opEventFetch, hcount, holdest, hnone_lost, if_false]

/-! ### BULK_WRITE and BULK_READ (R317 to R319) -/

section Bulk
variable {u : State} {ss q : Nat} {p : List Byte}

theorem opBulkWrite_permitted (howner : u.isOwner ss = true) (hok : u.bulkRefused p = none) (coalesce : Bool) :
    opBulkWrite u ss q coalesce p = (u.bulkPut (bulkBlock p).lines (bulkBlock p).addr (p.drop 32)).bulkEnd ss q coalesce p := by
  simp [opBulkWrite, howner, hok, State.bulkDo]

/-- Outside the bulk engine's regions a write of good form ends with PRIVILEGE. -/
theorem opBulkWrite_outside (howner : u.isOwner ss = true) (hform : bulkForm p true = true) (hcore : (bulkBlock p).core ≤ 2047)
    (hflag : (bulkBlock p).flag ≤ 479) (hregion : u.bulkPermits .write (bulkBlock p) = false) (coalesce : Bool) :
    opBulkWrite u ss q coalesce p = u.reply ss q 0x0C .privilege := by
  have hrange : ¬ (2047 < (bulkBlock p).core ∨ 479 < (bulkBlock p).flag) := by omega
  have hrefused : u.bulkRefused p = some .privilege := by simp [State.bulkRefused, hform, hrange, hregion]
  simp [opBulkWrite, howner, hrefused, State.refuse]

theorem bulkEnd_held {h : Option Nat × Nat} (hheld : u.bulkHeld (bulkBlock p) = some h) (coalesce : Bool) :
    u.bulkEnd ss q coalesce p = u.holdCmd h ss q (.bulkSignal coalesce p) := by
  simp [State.bulkEnd, hheld]

section Free
variable (hfree : u.bulkHeld (bulkBlock p) = none)
include hfree

theorem bulkEnd_silent (hsignal : (bulkBlock p).signal = false) : u.bulkEnd ss q false p = u.reply ss q 0x0C .ok := by
  simp [State.bulkEnd, State.bulkSignal, hfree, hsignal]

theorem bulkEnd_signals (hsignal : (bulkBlock p).signal = true) (hfirst : u.earlierHeld ss q = none) :
    u.bulkEnd ss q false p = (u.incFlag (bulkBlock p).core (bulkBlock p).flag (bulkBlock p).amount).reply ss q 0x0C .ok := by
  simp [State.bulkEnd, State.bulkSignal, hfree, hsignal, hfirst]

/-- R318: the increment follows that of an earlier held write of its session. -/
theorem bulkEnd_follows {h : Option Nat × Nat} (hsignal : (bulkBlock p).signal = true) (hearlier : u.earlierHeld ss q = some h)
    (coalesce : Bool) : u.bulkEnd ss q coalesce p = u.holdCmd h ss q (.bulkSignal coalesce p) := by
  simp [State.bulkEnd, hfree, hsignal, hearlier]

theorem opBulkRead_permitted (hform : bulkForm p false = true) (hregion : u.bulkPermits .read (bulkBlock p) = true) :
    opBulkRead u ss q p = u.bulkReply ss q p := by
  simp [opBulkRead, hform, hregion, State.bulkFetch, hfree]

end Free

end Bulk

/-! ### Each command in its session's order (R303) -/

section Ordered
variable {s u : State} {ss q : Nat} (t : Turn s ss q u)
include t

theorem exec_readReg_of_turn (priv : Bool) (addrs : List Word) :
    exec (.readReg ss priv addrs) s = followed (opReadReg u ss q priv addrs) ss :=
  (exec_readReg ..).trans (runRow_of_turn t fun v n => opReadReg v ss n priv addrs)

theorem exec_writeReg_of_turn (priv : Bool) (pairs : List (Word × Word)) :
    exec (.writeReg ss priv pairs) s = followed (opWriteReg u ss q priv pairs) ss :=
  (exec_writeReg ..).trans (runRow_of_turn t fun v n => opWriteReg v ss n priv pairs)

theorem exec_eventFetch_of_turn (first : Word) (count : BitVec 16) :
    exec (.eventFetch ss first count) s = followed (opEventFetch u ss q first.toNat count.toNat) ss :=
  (exec_eventFetch ..).trans (runRow_of_turn t fun v n => opEventFetch v ss n first.toNat count.toNat)

theorem exec_bulkWrite_of_turn (coalesce : Bool) (p : List Byte) :
    exec (.bulkWrite ss coalesce p) s = followed (opBulkWrite u ss q coalesce p) ss :=
  (exec_bulkWrite ..).trans (runRow_of_turn t fun v n => opBulkWrite v ss n coalesce p)

theorem exec_bulkRead_of_turn (p : List Byte) :
    exec (.bulkRead ss p) s = followed (opBulkRead u ss q p) ss :=
  (exec_bulkRead ..).trans (runRow_of_turn t fun v n => opBulkRead v ss n p)

end Ordered

end Sys2Proof.Machine

open Sys2Proof Sys2Proof.Machine

/-- Settles O45: each command is its own operation in the state of its turn (`runRow_of_turn`), which under the clause's conditions
takes one branch. -/
theorem readsWritesAndBulk : Obligations.ReadsWritesAndBulk := by
  refine ⟨?read, ?write, ?readOnly, ?fetch, ?bulkWrite, ?bulkRead, ?outside⟩
  case read =>
    intro s u ss q priv a t hview hform hpower hfree
    rw [exec_readReg_of_turn t, opReadReg_one hview hform hpower hfree, answered]
  case write =>
    intro s u v ss q priv a r x t h hv
    rw [exec_writeReg_of_turn t, h.opWriteReg_eq hv, answered]
  case readOnly =>
    intro s u ss q priv a x t howner hform hsmall hpower hfree hwritable
    have haddr : (BitVec.ofNat 64 a).toNat = a := by rw [BitVec.toNat_ofNat, Nat.mod_eq_of_lt (by omega)]
    rw [← haddr] at hpower hfree hwritable
    rw [exec_writeReg_of_turn t, opWriteReg_readOnly howner hform hpower hfree hwritable]
  case fetch =>
    rintro s u ss q first count t hlo hhi ⟨e, holdest, hkept⟩
    rw [exec_eventFetch_of_turn t, opEventFetch_ok hlo hhi holdest hkept, answered]
  case bulkWrite =>
    rintro s u v ss q p t howner hok rfl
    rw [exec_bulkWrite_of_turn t, opBulkWrite_permitted howner hok]
    exact ⟨fun hfree => ⟨fun hsignal => congrArg (followed · ss) (bulkEnd_silent hfree hsignal),
        fun hsignal hfirst => congrArg (followed · ss) (bulkEnd_signals hfree hsignal hfirst),
        fun h hsignal hearlier => congrArg (followed · ss) (bulkEnd_follows hfree hsignal hearlier false)⟩,
      fun h hheld => congrArg (followed · ss) (bulkEnd_held hheld false)⟩
  case bulkRead =>
    intro s u ss q p t hform hregion hfree
    rw [exec_bulkRead_of_turn t, opBulkRead_permitted hfree hform hregion, State.bulkReply, answered, bulkLines]
  case outside =>
    intro s u ss q p t howner hform hcore hflag hregion
    rw [exec_bulkWrite_of_turn t, opBulkWrite_outside howner hform hcore hflag hregion]

end

section
/-! Banks and scrubbers (O53): the field of a bank in its power word, and what an access to a bank that is off leaves (R231); the laps of
a scrubber and what it meets at a line (R236, R238, R240); write-backs (R239, R389); forced slots (R390); and triplicated items (R237). -/

namespace Sys2Proof.Machine

/-! ### Fields and tables -/

/-- Bit j of field i is that of the value: the mask of the field takes the old one out. -/
theorem getLsbD_setField2 (w : Word) {i v j : Nat} (hi : i < 32) (hj : j < 2) :
    (setField2 w i v).getLsbD (2 * i + j) = v.testBit j := by
  have hplace : 2 * i + j < 64 := by omega
  have hfield (n : Nat) : (BitVec.ofNat 64 (n * 4 ^ i)).getLsbD (2 * i + j) = n.testBit j := by
    rw [BitVec.getLsbD_ofNat, decide_eq_true hplace, Bool.true_and, show (4 : Nat) ^ i = 2 ^ (2 * i) from (Nat.pow_mul 2 2 i).symm,
      Nat.testBit_mul_two_pow]
    simp
  have hmask : Nat.testBit 3 j = true := by
    obtain rfl | rfl : j = 0 ∨ j = 1 := by omega
    · rfl
    · rfl
  rw [setField2, BitVec.getLsbD_or, BitVec.getLsbD_and, BitVec.getLsbD_not, hfield, hfield, hmask]
  simp

/-- A two-bit field reads as it was set. -/
theorem bits_setField2 (w : Word) {i v : Nat} (hi : i < 32) (hv : v < 4) : bits (setField2 w i v).toNat (2 * i) 2 = v := by
  refine Nat.eq_of_testBit_eq fun j => ?_
  rw [bits, Nat.testBit_mod_two_pow, Nat.testBit_div_two_pow]
  by_cases hj : j < 2
  · rw [decide_eq_true hj, Bool.true_and, Nat.add_comm, BitVec.testBit_toNat, getLsbD_setField2 w hi hj]
  · have hhigh : v.testBit j = false :=
      Nat.testBit_lt_two_pow (lt_of_lt_of_le hv (Nat.pow_le_pow_right (n := 2) (i := 2) (by omega) (by omega)))
    rw [decide_eq_false hj, Bool.false_and, hhigh]

theorem tget_terase_same {α : Type} (t : Tab α) (k : Nat) (d : α) : tget (terase t k) k d = d := by
  induction t with
  | nil => rfl
  | cons x r ih =>
    obtain ⟨j, w⟩ := x
    by_cases e : j = k
    · simpa [terase, e] using ih
    · simpa [terase, e, tget] using ih

/-- A byte that was taken out of memory reads as zero. -/
theorem memGet_filter_out (p : Nat → Bool) {k : Nat} (hk : p k = false) (m : List Host.Cell) :
    memGet (m.filter fun x => p x.1) k = 0 := by
  induction m with
  | nil => rfl
  | cons x r ih =>
    obtain ⟨j, b⟩ := x
    cases hj : p j with
    | false => simpa [hj] using ih
    | true =>
      have hne : j ≠ k := by rintro rfl; simp [hj] at hk
      simpa [hj, memGet, tget, hne] using ih

/-! ### The addresses of a bank (R225, R231) -/

theorem memUnit_spad {a : Nat} (hlo : 0x200000000000 ≤ a) (hhi : a < 0x200000000000 + 2048 * 0x100000) :
    memUnit a = some (.sp ((a - 0x200000000000) / 0x100000)) := by
  rw [memUnit, if_neg (by omega), if_neg (by omega), if_pos ⟨hlo, hhi⟩]

theorem memUnit_ul {a : Nat} (hlo : 0x100000000000 ≤ a) (hhi : a < 0x100000000000 + 64 * 0x2000000) :
    memUnit a = some (.ul ((a - 0x100000000000) / 0x2000000)) := by
  rw [memUnit, if_neg (by omega), if_pos ⟨hlo, hhi⟩]

theorem memUnit_spadBank (c : CoreId) (b : Fin 32) : memUnit (bankBase (.spad c b)) = some (.sp c) := by
  simp only [bankBase, spadBase]
  rw [memUnit_spad (by omega) (by omega)]
  congr 2
  omega

theorem memUnit_ulBank (c : CourseId) (b : Fin 64) : memUnit (bankBase (.ul c b)) = some (.ul c) := by
  simp only [bankBase, ulBase]
  rw [memUnit_ul (by omega) (by omega)]
  congr 2
  omega

/-- A bank begins at its base. -/
theorem bankRange_bankBase (b : BankUnit) : (State.bankRange (bankBase b)).1 = bankBase b := by
  cases b with
  | spad c b =>
    rw [State.bankRange, memUnit_spadBank]
    simp only [bankBase, spadBase]
    omega
  | ul c b =>
    rw [State.bankRange, memUnit_ulBank]
    simp only [bankBase, ulBase]
    omega

/-- No bank lies in HBM. -/
theorem hbm_le_bankBase (b : BankUnit) : 0x018000000000 ≤ bankBase b := by
  cases b with
  | spad c b =>
    simp only [bankBase, spadBase]
    omega
  | ul c b =>
    simp only [bankBase, ulBase]
    omega

theorem ulPower_setUlPower (c : Course) {b v : Nat} (hb : b < 64) (hv : v < 4) : (c.setUlPower b v).ulPower b = v := by
  by_cases hlow : b < 32
  · rw [Course.ulPower, if_pos hlow, Course.setUlPower, if_pos hlow]
    exact bits_setField2 _ hlow hv
  · rw [Course.ulPower, if_neg hlow, Course.setUlPower, if_neg hlow]
    exact bits_setField2 _ (by omega) hv

namespace State

/-! ### Turning a bank on (R231) -/

@[simp] theorem bankState_zeroRange (s : State) (base bytes a : Nat) : (s.zeroRange base bytes).bankState a = s.bankState a := rfl

/-- Only banks of scratchpad and underlay have a state but 0. -/
theorem memUnit_of_bankState_ne_zero {s : State} {a : Nat} (h : s.bankState a ≠ 0) :
    (∃ n, memUnit a = some (.sp n)) ∨ ∃ c, memUnit a = some (.ul c) := by
  unfold bankState at h
  split at h
  · next n hu => exact .inl ⟨n, hu⟩
  · next c hu => exact .inr ⟨c, hu⟩
  · exact absurd rfl h

theorem bankState_setBankState {s : State} {a v : Nat} (hs : s.bankState a ≠ 0) (hv : v < 4) :
    (s.setBankState a v).bankState a = v := by
  obtain ⟨n, hu⟩ | ⟨c, hu⟩ := memUnit_of_bankState_ne_zero hs
  · simp only [bankState, setBankState, hu, core_modCore, if_true]
    exact bits_setField2 _ (by rw [spadBank]; omega) hv
  · simp only [bankState, setBankState, hu, course_modCourse, if_true]
    exact ulPower_setUlPower (s.course c) (by rw [ulBank]; omega) hv

/-- An access to a bank that is off zeroes it, turns it on and raises BANK_OFF_ACCESS. -/
theorem wakeBank_off {s : State} {a : Nat} (h : s.bankState a = 2) (master : Nat) : ∃ kind source fields,
    s.wakeBank a master = ((s.zeroRange (bankRange a).1 (bankRange a).2).setBankState a 0).raise 0x20 kind source fields := by
  obtain ⟨n, hu⟩ | ⟨c, hu⟩ := memUnit_of_bankState_ne_zero (s := s) (a := a) (by omega)
  · exact ⟨3, n, [(2, n), (1, spadBank a), (2, master)], by simp only [wakeBank, h, hu]⟩
  · exact ⟨2, c, [(1, c), (1, ulBank a), (2, master)], by simp only [wakeBank, h, hu]⟩

theorem bankState_wakeBank_off {s : State} {a : Nat} (h : s.bankState a = 2) (master : Nat) :
    (s.wakeBank a master).bankState a = 0 := by
  obtain ⟨kind, source, fields, hwake⟩ := wakeBank_off h master
  rw [hwake]
  refine bankState_setBankState (s := s.zeroRange _ _) ?_ (by decide)
  rw [bankState_zeroRange, h]
  decide

theorem byteAt_wakeBank_off {s : State} {b : BankUnit} (h : s.bankState (bankBase b) = 2) (master : Nat) {i : Nat}
    (hi : i < (bankRange (bankBase b)).2) : (s.wakeBank (bankBase b) master).byteAt (bankBase b + i) = 0 := by
  obtain ⟨kind, source, fields, hwake⟩ := wakeBank_off h master
  have hown : ¬ bankBase b + i < 0x018000000000 := by have := hbm_le_bankBase b; omega
  rw [byteAt, storage_own _ _ hown, hwake, mem_raise, mem_setBankState, bankRange_bankBase]
  refine memGet_filter_out (fun k => decide (k < bankBase b) || decide (bankBase b + (bankRange (bankBase b)).2 ≤ k)) ?_ s.mem
  simp only [Bool.or_eq_false_iff, decide_eq_false_iff_not]
  omega

/-! ### The scrubber of a memory and its laps (R236, R238) -/

@[simp] theorem lapOf_raise (s : State) (code kind source : Nat) (fields : List (Nat × Nat)) (u : ScrubUnit) (b : Nat) :
    (s.raise code kind source fields).lapOf u b = s.lapOf u b := by
  cases u <;> rfl

section Memory
variable {u : ScrubUnit} (hmem : ∀ i x, u ≠ .item i x)
include hmem

theorem scrubOf_modScrub (s : State) (f : Scrub → Scrub) : (s.modScrub u f).scrubOf u = f (s.scrubOf u) := by
  cases u with
  | item i x => exact absurd rfl (hmem i x)
  | _ => simp [modScrub, scrubOf]

theorem lapOf_modLap (s : State) (b : Nat) (f : Lap → Lap) : (s.modLap u b f).lapOf u b = f (s.lapOf u b) := by
  rw [lapOf, modLap, scrubOf_modScrub hmem]
  exact tget_tset_same ..

/-- The bank begins its next lap now; the number and the duration of the last one stay. -/
theorem lapOf_endLap (s : State) (b : Nat) : (s.endLap u b).lapOf u b =
    { next := 0, began := s.timebase, ce := 0, laps := (s.lapOf u b).laps + 1,
      lapMs := BitVec.ofNat 32 ((s.timebase - (s.lapOf u b).began) / 1000000) } := by
  unfold endLap
  dsimp only
  split
  · rw [lapOf_raise, lapOf_modLap hmem]
  · rw [lapOf_modLap hmem]

end Memory

@[simp] theorem mem_modScrub (s : State) (u : ScrubUnit) (f : Scrub → Scrub) : (s.modScrub u f).mem = s.mem := by
  cases u <;> rfl

@[simp] theorem mem_scrubFound (s : State) (u : ScrubUnit) (b key ce : Nat) : (s.scrubFound u b key ce).mem = s.mem := by
  rw [scrubFound, mem_modScrub, modLap, mem_modScrub]

section Line
variable {s : State} {u : ScrubUnit} {i a : Nat} (hacc : ∀ c, u ≠ .acc c) (ha : s.scrubAddress u i = some a)
include hacc ha

/-- Correctable words at a line of a memory are counted and await their write-back. -/
theorem scrubLine_corrects (hread : (s.lineRead a).data.isSome = true) (hce : (s.lineRead a).ce ≠ 0) (b : Nat) (r : CacheRead) :
    s.scrubLine u b i r = (s.countErr a (s.lineRead a).ce 0).scrubFound u b (a / 64) (s.lineRead a).ce := by
  have hnone : (s.lineRead a).data.isNone = false := by rwa [Option.isNone_eq_false_iff]
  unfold scrubLine
  split
  · next c => exact absurd rfl (hacc c)
  · next ha' =>
    obtain rfl := Option.some.inj (ha.symm.trans ha')
    simp only [hread, hnone, hce, if_true, if_false, Bool.false_eq_true]
  · next ha' => cases ha.symm.trans ha'

end Line

theorem mem_fix_scrubFound {u : ScrubUnit} (hmem : ∀ i x, u ≠ .item i x) (s : State) (b key ce : Nat) :
    key ∈ ((s.scrubFound u b key ce).scrubOf u).fix := by
  rw [scrubFound, scrubOf_modScrub hmem]
  exact List.mem_cons_self

/-! ### What a write of a line leaves of a stack's tokens (R389) -/

theorem tokens_modStack (s : State) (k m : Nat) {f : Stack → Stack} (hf : ∀ x, (f x).tokens = x.tokens) :
    ((s.modStack m f).stack k).tokens = (s.stack k).tokens := by
  rw [stack_modStack]
  split
  · next e => rw [hf, e]
  · rfl

@[simp] theorem stack_dropCodeCache (s : State) (a k : Nat) : (s.dropCodeCache a).stack k = s.stack k := by
  unfold dropCodeCache
  split <;> rfl

theorem tokens_takeFlip (s : State) (a k : Nat) : ((s.takeFlip a).2.stack k).tokens = (s.stack k).tokens := by
  unfold takeFlip
  split
  · dsimp only
    split
    · exact tokens_modStack _ _ _ fun _ => rfl
    · rfl
  · dsimp only
    split <;> rfl
  · dsimp only
    split <;> rfl
  · rfl

theorem tokens_putLine (s : State) (a : Nat) (d : List Byte) (k : Nat) : ((s.putLine a d).stack k).tokens = (s.stack k).tokens := by
  have hcache : ∀ t : State, ((if a < 0x018000000000 then t.dropCodeCache a else t).stack k).tokens = (t.stack k).tokens := by
    intro t
    split
    · rw [stack_dropCodeCache]
    · rfl
  have hstored (m : List Host.Cell) (e : Tab (List Nat)) :
      (({ (s.takeFlip a).2 with mem := m, memErr := e } : State).stack k).tokens = (s.stack k).tokens := tokens_takeFlip s a k
  unfold putLine
  dsimp only
  rw [hcache]
  split
  · refine (tokens_modStack _ _ _ ?_).trans (hstored ..)
    exact fun _ => rfl
  · rw [stack_modCourse]; exact hstored ..
  · rw [stack_modCore]; exact hstored ..
  · exact hstored ..

/-! ### Forced slots (R390) -/

theorem mem_forceSlot (s : State) (u : ScrubUnit) (bank : Nat) : (s.forceSlot u bank).mem = s.mem := by
  unfold forceSlot
  split <;> rfl

theorem core_forceSlot {s : State} {u : ScrubUnit} {bank : Nat} {c : CoreId} (hu : u = .spad c ∨ u = .acc c)
    (hfreezes : (s.core c).freezes c u bank = true) :
    (s.forceSlot u bank).core c =
      { s.core c with da := { (s.core c).da with freeze := (s.core c).da.freeze + 1 } } := by
  obtain rfl | rfl := hu
  · rw [forceSlot, core_modCore, if_pos rfl, if_pos hfreezes]
  · rw [forceSlot, core_modCore, if_pos rfl, if_pos hfreezes]

/-! ### Triplicated items (R237) -/

theorem vote_agreeing {s : State} {i : Nat} (h : tget s.health.tmrOdd i [] = []) : s.vote i = s := by
  rw [vote, h]

/-- What a vote that meets a differing copy of item i leaves, but for its event: it is counted, and rewritten if it can be. -/
def outvoted (s : State) (i : Nat) : State :=
  { s with health := { s.health with
      tmrItems := s.health.tmrItems ||| BitVec.ofNat 8 (2 ^ i)
      tmrCount := sat32 s.health.tmrCount 1
      tmrOdd := if i ≤ 2 then s.health.tmrOdd else terase s.health.tmrOdd i } }

theorem vote_differing {s : State} {i c : Nat} {l : List Nat} (h : tget s.health.tmrOdd i [] = c :: l) :
    s.vote i = (s.outvoted i).raise 0x23 0 0 [(1, i), (1, c)] := by
  rw [vote, h]
  rfl

theorem tmrOdd_outvoted (s : State) {i : Nat} (hi : 2 < i) : tget (s.outvoted i).health.tmrOdd i [] = [] := by
  rw [outvoted, if_neg (by omega)]
  exact tget_terase_same ..

/-- Item i with its copy c alone upset. -/
def upset (s : State) (i : Nat) (c : Fin 3) : State :=
  { s with health := { s.health with tmrOdd := tset s.health.tmrOdd i [c.val] } }

theorem scrubItem_upset {s : State} {i : Nat} (h : tget s.health.tmrOdd i [] = []) (c : Fin 3) :
    s.scrubItem i (some c) = ((s.upset i c).outvoted i).raise 0x23 0 0 [(1, i), (1, c)] := by
  rw [scrubItem, h]
  exact vote_differing (s := s.upset i c) (tget_tset_same ..)

end State

/-! ### The scrubbers' commands -/

section Read
variable {s : State} {u : ScrubUnit}

theorem execScrubRead_memory (hmem : ∀ i x, u ≠ .item i x) (bank : Nat) (r : CacheRead) (forced : Bool) :
    execScrubRead u bank r forced s =
      if s.scrubs u bank then .next ((if forced then s.forceSlot u bank else s).scrubNext u bank r) else .next s := by
  cases u with
  | item i x => exact absurd rfl (hmem i x)
  | _ => rfl

theorem scrubs_of_next {bank : Nat} (hpaced : s.scrubPaced u = true)
    (hon : s.scrubOn u (bankFirst u bank + (s.lapOf u bank).next) = true) (hnext : (s.lapOf u bank).next < s.bankLines u bank) :
    s.scrubs u bank = true := by
  simp [State.scrubs, hpaced, hon, hnext]

end Read

section WriteBack
variable {s : State} {u : ScrubUnit} {i a : Nat} (hacc : ∀ c, u ≠ .acc c) (ha : s.scrubAddress u i = some a)
include hacc ha

/-- R239: a line that a master has written since it was read is not written back. -/
theorem execScrubWriteBack_abandoned (hfix : (s.scrubOf u).fix.contains (a / 64) = false) : execScrubWriteBack u i s = .next s := by
  unfold execScrubWriteBack
  split
  · next c => exact absurd rfl (hacc c)
  · next ha' =>
    obtain rfl := Option.some.inj (ha.symm.trans ha')
    rw [hfix]
    rfl
  · rfl

/-- The corrected line goes back as the scrubber's access, if it has a pace and the line's bank is on. -/
theorem execScrubWriteBack_pending {d : List Byte} (hfix : (s.scrubOf u).fix.contains (a / 64) = true)
    (hread : (s.lineRead a).data = some d) : execScrubWriteBack u i s =
      if s.scrubPaced u && s.scrubOn u i then .next ((s.scrubSpend u).putLine a d) else .next s := by
  unfold execScrubWriteBack
  split
  · next c => exact absurd rfl (hacc c)
  · next ha' =>
    obtain rfl := Option.some.inj (ha.symm.trans ha')
    rw [hfix, hread, Bool.true_and]
  · next ha' => cases ha.symm.trans ha'

end WriteBack

/-- A memory with addresses that is neither an accumulator nor a stack paces by its lap, and is on where the line's bank is. -/
theorem bankScrub_eq {s : State} {u : ScrubUnit} {i a : Nat} (hacc : ∀ c, u ≠ .acc c) (hhbm : ∀ k, u ≠ .hbm k)
    (ha : s.scrubAddress u i = some a) :
    s.scrubPaced u = (s.sramLapMs != 0) ∧ s.scrubOn u i = (s.bankState a == 0) ∧ s.scrubSpend u = s := by
  cases u with
  | spad c => exact ⟨rfl, by rw [State.scrubOn, ha, Option.any_some], rfl⟩
  | ul c => exact ⟨rfl, by rw [State.scrubOn, ha, Option.any_some], rfl⟩
  | acc c => exact absurd rfl (hacc c)
  | hbm k => exact absurd rfl (hhbm k)
  | icache c => cases ha
  | codeCache c => cases ha
  | item i x => cases ha

/-- A memory's line with an address is not a triplicated item. -/
theorem not_item_of_scrubAddress {s : State} {u : ScrubUnit} {i a : Nat} (ha : s.scrubAddress u i = some a) :
    ∀ j x, u ≠ .item j x := by
  rintro j x rfl
  cases ha

end Sys2Proof.Machine

open Sys2Proof Sys2Proof.Machine

/-- Settles O53: one rule for each command of the scrubbers and banks; a bank's field reads as it was set (`bits_setField2`), and what a
scrubber does to its own laps is what its unit shows next (`scrubOf_modScrub`). -/
theorem banksAndScrubbers : Obligations.BanksAndScrubbers := by
  refine ⟨fun s b => ⟨?retained, ?off, ?on⟩, ?reads, ?frozen, ?unpaced, ?items, ?hbmWriteBack, ?bankWriteBack,
    ?abandoned, ?corrects, ?laps⟩
  case retained => exact fun h => if_pos h
  case off =>
    intro h m
    obtain ⟨kind, source, fields, hwake⟩ := State.wakeBank_off h m.toNat
    obtain ⟨e, he, hcode⟩ := State.exists_record_raise
      ((s.zeroRange (State.bankRange (bankBase b)).1 (State.bankRange (bankBase b)).2).setBankState (bankBase b) 0)
      0x20 kind source fields
    exact ⟨_, e, if_pos h, State.bankState_wakeBank_off h _, hwake ▸ he, hcode, fun i hi => State.byteAt_wakeBank_off h _ hi⟩
  case on => exact fun h => ⟨if_neg (by omega), fun m => if_neg (by omega)⟩
  case reads =>
    intro s u bank r hmem hpaced hon
    have hexec (forced : Bool) (hnext : (s.lapOf u bank).next < s.bankLines u bank) :
        exec (.scrubRead u bank r forced) s = .next ((if forced then s.forceSlot u bank else s).scrubNext u bank r) := by
      rw [exec_scrubRead, execScrubRead_memory hmem, if_pos (scrubs_of_next hpaced hon hnext)]
    refine ⟨fun hmore => ?_, fun hlast => ?_, hexec true⟩
    · rw [hexec false (by omega), if_neg Bool.false_ne_true, State.scrubNext, if_neg (by omega)]
    · rw [hexec false (by omega), if_neg Bool.false_ne_true, State.scrubNext, if_pos hlast]
  case frozen =>
    exact fun s u bank c hu hfreezes => ⟨by rw [State.core_forceSlot hu hfreezes], State.mem_forceSlot s u bank⟩
  case unpaced =>
    intro s u bank r forced hmem hpaced
    rw [exec_scrubRead, execScrubRead_memory hmem, State.scrubs, hpaced]
    rfl
  case items =>
    intro s i c bank r forced hlap hodd
    have hexec (upset : Option (Fin 3)) : exec (.scrubRead (.item i upset) bank r forced) s = .next (s.scrubItem i upset) :=
      if_neg hlap
    refine ⟨(hexec none).trans (congrArg _ (State.vote_agreeing hodd)), ?_⟩
    rw [hexec (some c), State.scrubItem_upset hodd]
    obtain ⟨e, he, hcode⟩ := State.exists_record_raise ((s.upset i c).outvoted i) 0x23 0 0 [(1, i), (1, c)]
    exact ⟨_, e, rfl, rfl, rfl, he, hcode, State.tmrOdd_outvoted _⟩
  case hbmWriteBack =>
    intro s k line a d ha hfix hrate htokens hread
    have hpaced : s.scrubPaced (.hbm k) = true := by
      rw [State.scrubPaced, bne_iff_ne.mpr hrate, bne_iff_ne.mpr htokens]
      rfl
    refine ⟨_, ?_, rfl, ?_⟩
    · rw [exec_scrubWriteBack, execScrubWriteBack_pending (fun c => ScrubUnit.noConfusion) ha hfix hread, hpaced]
      rfl
    · rw [State.tokens_putLine, State.scrubSpend, State.stack_modStack, if_pos rfl]
  case bankWriteBack =>
    intro s u i a d hacc hhbm ha hfix hlap hread
    obtain ⟨hpaced, hon, hspend⟩ := bankScrub_eq hacc hhbm ha
    rw [exec_scrubWriteBack, execScrubWriteBack_pending hacc ha hfix hread, hpaced, hon, hspend,
      bne_iff_ne.mpr hlap, Bool.true_and]
    exact ⟨fun h => if_pos (beq_iff_eq.mpr h), fun h => if_neg (mt beq_iff_eq.mp h)⟩
  case abandoned => exact fun s u i a hacc ha hfix => execScrubWriteBack_abandoned hacc ha hfix
  case corrects =>
    intro s u bank i a r hacc ha hread hce
    rw [State.scrubLine_corrects hacc ha hread hce]
    exact ⟨State.mem_fix_scrubFound (not_item_of_scrubAddress ha) .., by rw [State.mem_scrubFound, State.mem_countErr]⟩
  case laps =>
    intro s u bank hmem
    rw [State.lapOf_endLap hmem]
    exact ⟨rfl, rfl, rfl, rfl⟩

end

section
/-! Where memory stands (O55): the two parts of HBM with an affinity window of 3 * B GiB on each slope, the place of an address in
each, and that the inverse placement finds the address again (R227, R228). -/

namespace Sys2Proof.Machine

/-! ### The two parts of HBM (R227, R228) -/

/-- First address of the affinity windows, B GiB of each stack. -/
def windowsBase (B : Nat) : Nat := 12 * (128 - B) * 2 ^ 30

/-- Bytes of one slope's affinity window, on its three stacks. -/
def windowBytes (B : Nat) : Nat := 3 * B * 2 ^ 30

section Parts
variable {B x : Nat}

/-- An address of HBM lies below the windows, or in the window of one of the four slopes. -/
theorem hbm_parts (hB : B ≤ 128) (hx : x < 0x018000000000) :
    x < windowsBase B ∨ ∃ s r, s < 4 ∧ r < windowBytes B ∧ x = windowsBase B + s * windowBytes B + r := by
  obtain hlow | hhigh := Nat.lt_or_ge x (windowsBase B)
  · exact .inl hlow
  · have hspan : x - windowsBase B < 4 * windowBytes B := by
      simp only [windowsBase, windowBytes] at hhigh ⊢
      omega
    have hbytes : 0 < windowBytes B := by omega
    refine .inr ⟨(x - windowsBase B) / windowBytes B, (x - windowsBase B) % windowBytes B,
      Nat.div_lt_of_lt_mul (by rwa [Nat.mul_comm]), Nat.mod_lt _ hbytes, ?_⟩
    have := Nat.div_add_mod' (x - windowsBase B) (windowBytes B)
    omega

theorem windowsBase_eq (B : Nat) : (1536 - 4 * (3 * B)) * 2 ^ 30 = windowsBase B := by
  rw [windowsBase]
  omega

/-- First page of a stack's part of the windows. -/
theorem windowPages_eq (hB : B ≤ 128) : (128 * 2 ^ 30 - 3 * B / 3 * 2 ^ 30) / 4096 = (128 - B) * 2 ^ 18 := by
  omega

/-- Below the windows the pages go round the twelve stacks. -/
theorem hbmPlace_below (h : x < windowsBase B) : hbmPlace (3 * B) x = (x / 4096 % 12, x / 4096 / 12 * 4096 + x % 4096) :=
  hbmPlace_low _ _ ((windowsBase_eq B).symm ▸ h)

/-- In a window the pages go round the slope's three stacks. -/
theorem hbmPlace_window (hB : B ≤ 128) {s r : Nat} (hr : r < windowBytes B) :
    hbmPlace (3 * B) (windowsBase B + s * windowBytes B + r) =
      (3 * s + r / 4096 % 3, ((128 - B) * 2 ^ 18 + r / 4096 / 3) * 4096 + r % 4096) := by
  have hpage : (windowsBase B + s * windowBytes B + r) % 4096 = r % 4096 := by
    have hsplit : windowsBase B + s * windowBytes B + r = r + 4096 * (12 * (128 - B) * 2 ^ 18 + s * (3 * B * 2 ^ 18)) := by
      simp only [windowsBase, windowBytes]
      ring
    rw [hsplit, Nat.add_mul_mod_self_left]
  have hoffset : windowsBase B + s * windowBytes B + r - windowsBase B = s * windowBytes B + r := by omega
  have hslope : (s * windowBytes B + r) / windowBytes B = s := by
    rw [Nat.mul_comm, Nat.mul_add_div (by omega), Nat.div_eq_of_lt hr, Nat.add_zero]
  rw [hbmPlace_high _ _ _ (windowBytes B) _ (windowsBase_eq B) rfl (windowPages_eq hB) (by omega), hpage, hoffset, hslope,
    Nat.add_sub_cancel_left]

/-! ### The place is within one of the twelve stacks, and tells its address -/

theorem hbmPlace_bounds (hB : B ≤ 128) (hx : x < 0x018000000000) :
    (hbmPlace (3 * B) x).1 < 12 ∧ (hbmPlace (3 * B) x).2 < 128 * 2 ^ 30 := by
  obtain hlow | ⟨s, r, hs, hr, rfl⟩ := hbm_parts hB hx
  · rw [hbmPlace_below hlow]
    simp only [windowsBase] at hlow
    omega
  · rw [hbmPlace_window hB hr]
    simp only [windowBytes] at hr
    omega

/-- The scrubbers' address of a place is the address that is placed there. -/
theorem hbmAddress_hbmPlace (hB : B ≤ 128) (hx : x < 0x018000000000) :
    hbmAddress (3 * B) (hbmPlace (3 * B) x).1 (hbmPlace (3 * B) x).2 = x := by
  obtain hlow | ⟨s, r, hs, hr, rfl⟩ := hbm_parts hB hx
  · rw [hbmPlace_below hlow]
    have hpage : (x / 4096 / 12 * 4096 + x % 4096) / 4096 < (128 - B) * 2 ^ 18 := by
      simp only [windowsBase] at hlow
      omega
    simp only [hbmAddress, windowPages_eq hB, if_pos hpage]
    omega
  · rw [hbmPlace_window hB hr]
    have hpage : ¬ (((128 - B) * 2 ^ 18 + r / 4096 / 3) * 4096 + r % 4096) / 4096 < (128 - B) * 2 ^ 18 := by omega
    have hslope : (3 * s + r / 4096 % 3) / 3 = s := by omega
    simp only [hbmAddress, windowPages_eq hB, if_neg hpage, windowsBase_eq, hslope]
    rw [← windowBytes]
    omega

end Parts

/-! ### Places of the whole map -/

/-- The places of HBM lie below every other address. -/
theorem storage_hbm_lt {B x : Nat} (hB : B ≤ 128) (hx : x < 0x018000000000) : storage (3 * B) x < 0x018000000000 := by
  obtain ⟨hstack, hoffset⟩ := hbmPlace_bounds hB hx
  rw [storage_hbm _ _ hx]
  omega

theorem storage_hbm_inj {B x y : Nat} (hB : B ≤ 128) (hx : x < 0x018000000000) (hy : y < 0x018000000000)
    (h : storage (3 * B) x = storage (3 * B) y) : x = y := by
  obtain ⟨_, hxoffset⟩ := hbmPlace_bounds hB hx
  obtain ⟨_, hyoffset⟩ := hbmPlace_bounds hB hy
  rw [storage_hbm _ _ hx, storage_hbm _ _ hy] at h
  have hstack : (hbmPlace (3 * B) x).1 = (hbmPlace (3 * B) y).1 := by omega
  have hoffset : (hbmPlace (3 * B) x).2 = (hbmPlace (3 * B) y).2 := by omega
  rw [← hbmAddress_hbmPlace hB hx, hstack, hoffset, hbmAddress_hbmPlace hB hy]

theorem storage_inj {B x y : Nat} (hB : B ≤ 128) (h : storage (3 * B) x = storage (3 * B) y) : x = y := by
  by_cases hx : x < 0x018000000000
  · have hxplace := storage_hbm_lt hB hx
    by_cases hy : y < 0x018000000000
    · exact storage_hbm_inj hB hx hy h
    · rw [storage_own _ _ hy] at h
      omega
  · rw [storage_own _ _ hx] at h
    by_cases hy : y < 0x018000000000
    · have hyplace := storage_hbm_lt hB hy
      omega
    · rw [storage_own _ _ hy] at h
      exact h

end Sys2Proof.Machine

open Sys2Proof Sys2Proof.Machine

/-- Settles O55: a place in HBM tells its address (`hbmAddress_hbmPlace`), and any other address is its own place, above them. -/
theorem storageIsInjective : Obligations.StorageIsInjective := by
  intro A hthree hmax
  obtain ⟨B, rfl⟩ := Nat.dvd_of_mod_eq_zero hthree
  have hB : B ≤ 128 := by omega
  exact ⟨fun x y => storage_inj hB, fun x => hbmPlace_bounds hB⟩

end

section
/-! The SRAM code (O56): the Hamming position of a data bit, that no two of the 266 positions of a code word have one syndrome, and
so what one flip and two flips decode to (R233). -/

namespace Sys2Proof.Machine

/-! ### The Hamming positions of the data bits -/

/-- The test of a position by which `hamPos` finds that of data bit k: k data bits stand before it, and no check bit at it. -/
def holdsBit (k p : Nat) : Bool := p == k + 1 + Nat.log2 p + 1 && 2 ^ Nat.log2 p != p

/-- Data bit k has a position: with 2^e the greatest power of two before it, e + 1 check bits stand there beside the k data bits. -/
theorem exists_holdsBit {k : Nat} (hk : k < 256) : ∃ j, j < 10 ∧ holdsBit k (k + 1 + j) = true := by
  have hsome : ∃ e, k + e + 2 < 2 ^ (e + 1) := ⟨8, by omega⟩
  have hlt := Nat.find_spec hsome
  have hmin := fun e => Nat.find_min (m := e) hsome
  have hle : Nat.find hsome ≤ 8 := Nat.find_le (by omega)
  generalize Nat.find hsome = e at hlt hmin hle
  have hpos : e ≠ 0 := by rintro rfl; omega
  obtain ⟨d, rfl⟩ := Nat.exists_eq_succ_of_ne_zero hpos
  have hbelow : 2 ^ (d + 1) < k + d + 3 := by have := hmin d (by omega); omega
  have hlog : Nat.log2 (k + d + 3) = d + 1 := (Nat.log2_eq_iff (by omega)).mpr ⟨by omega, by simpa [Nat.add_assoc] using hlt⟩
  refine ⟨d + 2, by omega, ?_⟩
  have hplace : k + 1 + (d + 2) = k + d + 3 := by omega
  simp only [holdsBit, hplace, hlog, Bool.and_eq_true, beq_iff_eq, bne_iff_ne, ne_eq]
  omega

theorem hamPos_eq_find (k : Nat) : hamPos k = (((List.range 10).map fun j => k + 1 + j).find? (holdsBit k)).getD 0 := rfl

theorem hamPos_holdsBit {k : Nat} (hk : k < 256) : holdsBit k (hamPos k) = true ∧ hamPos k ≤ k + 10 := by
  obtain ⟨j, hj, hbit⟩ := exists_holdsBit hk
  have hfound : (((List.range 10).map fun j => k + 1 + j).find? (holdsBit k)).isSome = true :=
    List.find?_isSome.mpr ⟨_, List.mem_map_of_mem (List.mem_range.mpr hj), hbit⟩
  obtain ⟨p, hp⟩ := Option.isSome_iff_exists.mp hfound
  rw [hamPos_eq_find, hp, Option.getD_some]
  obtain ⟨i, hi, rfl⟩ := List.mem_map.mp (List.mem_of_find?_eq_some hp)
  exact ⟨List.find?_some hp, by have := List.mem_range.mp hi; omega⟩

section DataBit
variable {k : Nat} (hk : k < 256)
include hk

theorem hamPos_eq : hamPos k = k + 1 + Nat.log2 (hamPos k) + 1 := by
  have h := (hamPos_holdsBit hk).1
  simp only [holdsBit, Bool.and_eq_true, beq_iff_eq] at h
  exact h.1

/-- The check bits' positions are no data bit's. -/
theorem hamPos_ne_two_pow (j : Nat) : hamPos k ≠ 2 ^ j := by
  have h := (hamPos_holdsBit hk).1
  simp only [holdsBit, Bool.and_eq_true, bne_iff_ne, ne_eq] at h
  intro e
  rw [e, Nat.log2_two_pow] at h
  exact h.2 rfl

theorem hamPos_le : hamPos k ≤ 265 := by
  have := (hamPos_holdsBit hk).2
  omega

theorem hamPos_ne_zero : hamPos k ≠ 0 := by
  have := hamPos_eq hk
  omega

theorem hamPos_inj {m : Nat} (hm : m < 256) (h : hamPos k = hamPos m) : k = m := by
  have hkeq := hamPos_eq hk
  have hmeq := hamPos_eq hm
  rw [h] at hkeq
  omega

end DataBit

/-! ### The syndrome of one flip -/

theorem sramPos_data {p : Nat} (h : p < 256) : sramPos p = hamPos p := if_pos h

/-- Check bit 9, the parity of the whole word, has no Hamming position. -/
theorem sramPos_parity : sramPos 265 = 0 := rfl

theorem sramPos_check {p : Nat} (hlo : 256 ≤ p) (hhi : p < 265) : sramPos p = 2 ^ (p - 256) := by
  rw [sramPos, if_neg (by omega), if_pos hhi]

/-- A code-word position is a data bit's, one of the check bits 0 to 8, or the parity's. -/
theorem position_cases {p : Nat} (h : p < 266) : p < 256 ∨ (256 ≤ p ∧ p < 265) ∨ p = 265 := by omega

theorem sramPos_le {p : Nat} (h : p < 266) : sramPos p ≤ 265 := by
  obtain hd | ⟨hlo, hhi⟩ | rfl := position_cases h
  · rw [sramPos_data hd]
    exact hamPos_le hd
  · rw [sramPos_check hlo hhi]
    calc 2 ^ (p - 256) ≤ 2 ^ 8 := Nat.pow_le_pow_right (by omega) (by omega)
      _ ≤ 265 := by omega
  · rw [sramPos_parity]
    omega

/-- No data bit's syndrome is a check bit's. -/
theorem hamPos_ne_sramPos {k p : Nat} (hk : k < 256) (hlo : 256 ≤ p) (hhi : p < 266) : hamPos k ≠ sramPos p := by
  obtain hd | ⟨_, hc⟩ | rfl := position_cases hhi
  · omega
  · rw [sramPos_check hlo hc]
    exact hamPos_ne_two_pow hk _
  · exact hamPos_ne_zero hk

theorem sramPos_injOn_check {p q : Nat} (hp : 256 ≤ p) (hp' : p < 266) (hq : 256 ≤ q) (hq' : q < 266) (h : sramPos p = sramPos q) :
    p = q := by
  have hval {r : Nat} (hr : 256 ≤ r) : sramPos r = if r < 265 then 2 ^ (r - 256) else 0 := if_neg (by omega)
  have hpow (n : Nat) : (2 : Nat) ^ n ≠ 0 := by positivity
  rw [hval hp, hval hq] at h
  split at h
  · split at h
    · have := Nat.pow_right_injective (le_refl 2) h
      omega
    · exact absurd h (hpow _)
  · split at h
    · exact absurd h.symm (hpow _)
    · omega

/-- No two positions of a code word have one syndrome. -/
theorem sramPos_inj {p q : Nat} (hp : p < 266) (hq : q < 266) (h : sramPos p = sramPos q) : p = q := by
  obtain hpd | hpc := Nat.lt_or_ge p 256
  · obtain hqd | hqc := Nat.lt_or_ge q 256
    · rw [sramPos_data hpd, sramPos_data hqd] at h
      exact hamPos_inj hpd hqd h
    · rw [sramPos_data hpd] at h
      exact absurd h (hamPos_ne_sramPos hpd hqc hq)
  · obtain hqd | hqc := Nat.lt_or_ge q 256
    · rw [sramPos_data hqd] at h
      exact absurd h.symm (hamPos_ne_sramPos hqd hpc hp)
    · exact sramPos_injOn_check hpc hp hqc hq h

/-! ### One flip and two (R233) -/

theorem sramDecode_data {p : Nat} (h : p < 256) : sramDecode [p] = { ok := true, flips := [], corrected := true } := by
  have hle : sramPos p ≤ 265 := sramPos_le (by omega)
  simp [sramDecode, h, hle]

/-- A flipped check bit has the syndrome of no data bit, so that none is taken for flipped. -/
theorem sramDecode_check {p : Nat} (hlo : 256 ≤ p) (hhi : p < 266) :
    sramDecode [p] = { ok := true, flips := [], corrected := true } := by
  have hle : sramPos p ≤ 265 := sramPos_le hhi
  have hnone : ((List.range 256).filter fun k => hamPos k == sramPos p) = [] :=
    List.filter_eq_nil_iff.mpr fun k hk => by simpa using hamPos_ne_sramPos (List.mem_range.mp hk) hlo hhi
  have hcheck : ¬ p < 256 := by omega
  simp [sramDecode, hcheck, hle, hnone]

theorem sramDecode_two {p q : Nat} (hp : p < 266) (hq : q < 266) (hne : p ≠ q) : (sramDecode [p, q]).ok = false := by
  have hsyndrome : sramPos p ^^^ sramPos q ≠ 0 := fun h => hne (sramPos_inj hp hq (Nat.xor_eq_zero_iff.mp h))
  simp [sramDecode, hsyndrome]

end Sys2Proof.Machine

open Sys2Proof Sys2Proof.Machine

/-- Settles O56: one flip's syndrome is its own position's (`sramPos_inj`), and two flips' is not zero while their number is even. -/
theorem sramCodeCorrectsOneDetectsTwo : Obligations.SramCodeCorrectsOneDetectsTwo := by
  refine ⟨rfl, fun p hp => ?_, fun p q => sramDecode_two⟩
  obtain hd | hc := Nat.lt_or_ge p 256
  · exact sramDecode_data hd
  · exact sramDecode_check hc hp

end

section
/-! The link level (O37): what freeing credits, sending what waits and a resend episode leave of a port, and one rule for each frame that
a link receives. -/

namespace Sys2Proof.Machine

/-! ### Ports after credits are freed and waiting frames sent (R254, R256) -/

/-- Freeing credits changes what a port has of its pool and what it owes, nothing else of it. -/
theorem port_owe (s : State) (l : List (Nat × Nat × Nat)) (p : Nat) : ∃ pool owed shared,
    (owe s l).port p = { s.port p with pool := pool, owed := owed, owedShared := shared } := by
  induction l generalizing s with
  | nil => exact ⟨_, _, _, rfl⟩
  | cons x r ih =>
    obtain ⟨pool, owed, shared, h⟩ := ih (s.modPort x.1 fun q => q.free x.2.1 x.2.2)
    refine ⟨pool, owed, shared, h.trans ?_⟩
    rw [State.port_modPort]
    split
    · next e => rw [e]; rfl
    · rfl

namespace State

/-- A port with no frame waiting has nothing to send. -/
theorem pumpAll_idle {s : State} {p : Nat} (h : (s.port p).waiting = []) : s.pumpAll p = s.modPort p id := by
  have hport : (({ s.port p with waiting := [] } : Port)) = s.port p := by rw [← h]
  simp only [pumpAll, pump, h, List.foldl_nil, bounce, owe, modPort, tmod, id]
  exact congrArg (fun x => ({ s with ports := tset s.ports p x } : State)) hport

theorem port_pumpAll_idle {s : State} {p : Nat} (h : (s.port p).waiting = []) (q : Nat) : (s.pumpAll p).port q = s.port q := by
  rw [pumpAll_idle h, port_modPort]
  split
  · next e => rw [e, id]
  · rfl

@[simp] theorem port_portEvent (s : State) (code p q : Nat) : (s.portEvent code p).port q = s.port q := rfl

end State

/-! ### Frames received in sequence (R251, R252) -/

/-- A frame has been accepted at port p, and fills its pool. -/
def State.counted (s : State) (p : PortId) (f : Frame) : State :=
  s.modPort p fun y =>
    { y.fill (s.hopKey p false f) (frameCost f) with expect := y.expect + 1, nacked := false, framesRx := y.framesRx + 1 }

theorem State.port_counted (s : State) (p : PortId) (f : Frame) : (s.counted p f).port p =
    { (s.port p).fill (s.hopKey p false f) (frameCost f) with
      expect := (s.port p).expect + 1, nacked := false, framesRx := (s.port p).framesRx + 1 } := by
  simp [State.counted]

/-- A whole frame that is addressed here, on a channel of its type: the ridge firmware takes a management frame, any other is delivered. -/
theorem State.acceptFrame_here {s : State} {p : PortId} {f : Frame} (hunits : f.payload.length % 8 = 0) (hlength : f.payload.length ≤ 512)
    (hdst : f.dst = s.fabric.coord) (hvc : (frameVcs f.type.toNat).contains f.vc.toNat = true) :
    s.acceptFrame p f = if f.type = 0x18 then owe (s.counted p f) [(p.val, s.hopKey p false f, frameCost f)]
      else (s.counted p f).deliver p f := by
  have hwhole : ¬ (f.payload.length % 8 ≠ 0 ∨ 512 < f.payload.length) := by omega
  simp only [State.acceptFrame, hwhole, if_false, State.fabric_modPort, hdst, if_true, hvc, Bool.not_true, Bool.false_eq_true]
  rfl

/-- Where such a frame stands then, and what of the port has gone on. -/
theorem State.acceptFrame_leaves {s : State} {p : PortId} {f : Frame} (hunits : f.payload.length % 8 = 0)
    (hlength : f.payload.length ≤ 512) (hdst : f.dst = s.fabric.coord) (hvc : (frameVcs f.type.toNat).contains f.vc.toNat = true) :
    ((s.acceptFrame p f).port p).inbox = (s.port p).inbox ++ (if f.type = 0x18 then [] else [f]) ∧
      ((s.acceptFrame p f).port p).expect = (s.port p).expect + 1 ∧ ((s.acceptFrame p f).port p).nacked = false ∧
      (s.acceptFrame p f).cores = s.cores ∧ (s.acceptFrame p f).mem = s.mem := by
  rw [State.acceptFrame_here hunits hlength hdst hvc]
  split
  · obtain ⟨pool, owed, shared, hport⟩ := port_owe (s.counted p f) [(p.val, s.hopKey p false f, frameCost f)] p
    obtain ⟨ports, hstate⟩ := owe_eq (s.counted p f) [(p.val, s.hopKey p false f, frameCost f)]
    rw [hport, State.port_counted, hstate]
    exact ⟨(List.append_nil _).symm, rfl, rfl, rfl, rfl⟩
  · rw [State.deliver, State.port_modPort, if_pos rfl, State.port_counted]
    exact ⟨rfl, rfl, rfl, rfl, rfl⟩

/-! ### Refused frames (R254) -/

theorem nacked_nack (x : Port) : (nack x).nacked = true := by
  unfold nack
  split
  · assumption
  · rfl

/-- The LINK_NACK that answers a refused frame leaves what has been received, sent and counted. -/
theorem nack_leaves (x : Port) : (nack x).inbox = x.inbox ∧ (nack x).expect = x.expect ∧ (nack x).replay = x.replay ∧
    (nack x).linkCrcErr = x.linkCrcErr := by
  unfold nack
  split <;> exact ⟨rfl, rfl, rfl, rfl⟩

theorem nackSent_nack (x : Port) : (nack x).nackSent = if x.nacked then x.nackSent else some x.expect := by
  unfold nack
  split <;> rfl

/-! ### A frame at a link that is up (R254) -/

section Receive
variable {s : State} {p : PortId} (hup : (s.port p).up = true) (hopen : s.fabric.open_.getLsbD (p / 2) = true)
include hup hopen

theorem execLinkFrameReceive_badCrc {f : Frame} {crc : W32} (hcrc : crc ≠ frameCrc f) : execLinkFrameReceive p f crc s =
    .next (s.modPort p fun y => nack { y with linkCrcErr := sat32 y.linkCrcErr 1 }) := by
  simp [execLinkFrameReceive, hup, hopen, hcrc]

theorem execLinkFrameReceive_ctrl {f : Frame} (htype : f.type = 0x1E) :
    execLinkFrameReceive p f (frameCrc f) s = .next (s.linkCtrl p f) := by
  simp [execLinkFrameReceive, hup, hopen, htype]

theorem execLinkFrameReceive_nack {f : Frame} (htype : f.type = 0x1F) :
    execLinkFrameReceive p f (frameCrc f) s = .next (s.linkNack p f) := by
  simp [execLinkFrameReceive, hup, hopen, htype]

variable {f : Frame} (hctrl : f.type ≠ 0x1E) (hnack : f.type ≠ 0x1F)
include hctrl hnack

theorem execLinkFrameReceive_outOfSequence (hseq : f.seq ≠ (s.port p).expect) :
    execLinkFrameReceive p f (frameCrc f) s = .next (s.modPort p nack) := by
  have hlink : (!(s.port p).up || !s.fabric.open_.getLsbD (p / 2)) = false := by rw [hup, hopen]; rfl
  simp only [execLinkFrameReceive, hlink, hctrl, hnack, hseq, ne_eq, not_true_eq_false, not_false_eq_true, Bool.false_eq_true, if_false,
    if_true]

theorem execLinkFrameReceive_inSequence (hseq : f.seq = (s.port p).expect) :
    execLinkFrameReceive p f (frameCrc f) s = .next (s.acceptFrame p f) := by
  have hlink : (!(s.port p).up || !s.fabric.open_.getLsbD (p / 2)) = false := by rw [hup, hopen]; rfl
  simp only [execLinkFrameReceive, hlink, hctrl, hnack, hseq, ne_eq, not_true_eq_false, Bool.false_eq_true, if_false]

end Receive

/-! ### Acknowledgements (R255, R256) -/

/-- With no frame waiting, a LINK_CTRL of the right length frees what it acknowledges, and sends nothing. -/
theorem State.linkCtrl_leaves {s : State} {p : Nat} {f : Frame} (hlength : f.payload.length = 8) (hidle : (s.port p).waiting = []) :
    ((s.linkCtrl p f).port p).replay = afterAck (BitVec.ofNat 16 (fOp f 0 16)) (s.port p).replay ∧
      ((s.linkCtrl p f).port p).inbox = (s.port p).inbox := by
  rw [State.linkCtrl, if_neg (not_not_intro hlength), State.port_pumpAll_idle (by simpa using hidle), State.port_modPort, if_pos rfl]
  exact ⟨rfl, rfl⟩

theorem State.linkCtrl_malformed {s : State} {p : Nat} {f : Frame} (hlength : f.payload.length ≠ 8) : s.linkCtrl p f = s.malformed p := by
  rw [State.linkCtrl, if_pos hlength]

/-! ### Resend episodes (R255) -/

theorem Port.foldl_carry (x : Port) (l : List Frame) : ∃ stripe,
    l.foldl (fun y f => y.carry (frameBytes f)) x = { x with stripe := stripe } := by
  induction l generalizing x with
  | nil => exact ⟨_, rfl⟩
  | cons f r ih =>
    obtain ⟨stripe, h⟩ := ih (x.carry (frameBytes f))
    exact ⟨stripe, h⟩

/-- Sending frames again moves the place at which the next frame starts. -/
theorem Port.again_eq (x : Port) (l : List Frame) : ∃ stripe, x.again l = { x with stripe := stripe, resent := l } := by
  obtain ⟨stripe, h⟩ := x.foldl_carry l
  exact ⟨stripe, by rw [Port.again, h]⟩

/-- The port in a further episode, from the first frame that meets a test. -/
def Port.resending (x : Port) (first : Frame → Bool) : Port :=
  { x.again (x.replay.dropWhile fun g => !first g) with linkRetry := sat32 x.linkRetry 1, episodes := x.episodes + 1 }

theorem Port.resending_eq (x : Port) (first : Frame → Bool) : ∃ stripe, x.resending first =
    { x with stripe := stripe, resent := x.replay.dropWhile fun g => !first g, linkRetry := sat32 x.linkRetry 1
             episodes := x.episodes + 1 } := by
  obtain ⟨stripe, h⟩ := x.again_eq (x.replay.dropWhile fun g => !first g)
  exact ⟨stripe, by rw [Port.resending, h]⟩

/-- The sixteenth episode without an advance takes the link down. -/
theorem port_resend (s : State) (p : Nat) (first : Frame → Bool) : (resend s p first).port p =
    if 15 ≤ (s.port p).episodes then { (s.port p).resending first with state := 1, episodes := 0 } else (s.port p).resending first := by
  have hport : (s.modPort p fun x => x.resending first).port p = (s.port p).resending first := by simp
  have hepisodes : (16 ≤ ((s.port p).resending first).episodes) = (15 ≤ (s.port p).episodes) :=
    propext Nat.succ_le_succ_iff
  have hresend : resend s p first = if 16 ≤ ((s.modPort p fun x => x.resending first).port p).episodes then
      ((s.modPort p fun x => x.resending first).modPort p fun x => { x with state := 1, episodes := 0 }).portEvent 0x32 p
    else s.modPort p fun x => x.resending first := rfl
  simp only [hresend, hport, hepisodes]
  split <;> simp

theorem resend_leaves (s : State) (p : Nat) (first : Frame → Bool) :
    ((resend s p first).port p).linkRetry = sat32 (s.port p).linkRetry 1 ∧
      ((resend s p first).port p).replay = (s.port p).replay ∧
      ((resend s p first).port p).resent = (s.port p).replay.dropWhile fun g => !first g := by
  obtain ⟨stripe, h⟩ := (s.port p).resending_eq first
  rw [port_resend, h]
  split <;> exact ⟨rfl, rfl, rfl⟩

theorem resend_goesOn {s : State} {p : Nat} (h : (s.port p).episodes < 15) (first : Frame → Bool) :
    ((resend s p first).port p).state = (s.port p).state ∧ ((resend s p first).port p).episodes = (s.port p).episodes + 1 := by
  obtain ⟨stripe, e⟩ := (s.port p).resending_eq first
  rw [port_resend, if_neg (by omega), e]
  exact ⟨rfl, rfl⟩

theorem resend_takesDown {s : State} {p : Nat} (h : 15 ≤ (s.port p).episodes) (first : Frame → Bool) :
    ((resend s p first).port p).state = 1 := by
  rw [port_resend, if_pos h]

theorem execLinkResendTimeout_resends {s : State} {p : PortId} (hreplay : (s.port p).replay ≠ []) (hup : (s.port p).up = true) :
    execLinkResendTimeout p s = .next (resend s p fun _ => true) := by
  simp [execLinkResendTimeout, hreplay, hup]

theorem State.linkNack_malformed {s : State} {p : Nat} {f : Frame} (h : f.payload ≠ []) : s.linkNack p f = s.malformed p := by
  simp [State.linkNack, h]

theorem State.linkNack_resends {s : State} {p : Nat} {f : Frame} (h : f.payload = [])
    (hnamed : ((s.port p).replay.any fun g => g.seq == BitVec.ofNat 16 (fOp f 0 16)) = true) :
    s.linkNack p f = resend s p fun g => g.seq == BitVec.ofNat 16 (fOp f 0 16) := by
  simp only [State.linkNack, h, hnamed, List.isEmpty_nil, Bool.not_true, Bool.false_eq_true, if_false, if_true]

/-! ### LINK_CTRL as it leaves (R256, R264) -/

/-- What a port has after it has sent a LINK_CTRL: credits are returned with it unless the axis drains. -/
theorem execLinkAckDue_leaves (s : State) (p : PortId) : ∃ t, execLinkAckDue p s = .next t ∧
    (t.port p).ackSent = (s.port p).expect - 1 ∧
    ((s.port p).draining = false → (t.port p).granted = (s.port p).owed ∧ (t.port p).owed = [] ∧
      (t.port p).grantedShared = (s.port p).owedShared ∧ (t.port p).owedShared = []) ∧
    ((s.port p).draining = true → (t.port p).granted = [] ∧ (t.port p).owed = (s.port p).owed ∧
      (t.port p).owedShared = (s.port p).owedShared) := by
  refine ⟨_, rfl, ?_⟩
  rw [State.port_modPort, if_pos rfl]
  have hcarry : ((s.port p).carry 28).draining = (s.port p).draining := rfl
  simp only [hcarry]
  cases hdrain : (s.port p).draining with
  | false => exact ⟨rfl, fun _ => ⟨rfl, rfl, rfl, rfl⟩, nofun⟩
  | true => exact ⟨rfl, nofun, fun _ => ⟨rfl, rfl, rfl⟩⟩

end Sys2Proof.Machine

open Sys2Proof Sys2Proof.Machine

/-- Settles O37: a received frame by its CRC, its type and its number (`execLinkFrameReceive`'s cases), acknowledgements and resend
episodes by what they leave of the port (`State.linkCtrl_leaves`, `resend_leaves`). -/
theorem linkLevel : Obligations.LinkLevel := by
  refine ⟨?sequence, ?control, ?ctrl, ?timeout, ?malformedNack, ?nack, execLinkAckDue_leaves⟩
  case sequence =>
    intro s p f hup hopen hctrl hnack
    refine ⟨fun hseq hunits hlength hdst hvc => ?_, fun hseq => ?_⟩
    · exact ⟨_, execLinkFrameReceive_inSequence hup hopen hctrl hnack hseq, State.acceptFrame_leaves hunits hlength hdst hvc⟩
    · refine ⟨_, execLinkFrameReceive_outOfSequence hup hopen hctrl hnack hseq, ?_⟩
      obtain ⟨hinbox, hexpect, -, -⟩ := nack_leaves (s.port p)
      rw [State.port_modPort, if_pos rfl, nackSent_nack]
      exact ⟨nacked_nack _, hinbox, hexpect, fun h => by simp [h], fun h => by simp [h]⟩
  case control =>
    intro s p f hup hopen
    refine ⟨fun crc hcrc => ?_, fun htype => ?_, fun htype => ?_⟩
    · refine ⟨_, execLinkFrameReceive_badCrc hup hopen hcrc, ?_⟩
      obtain ⟨hinbox, -, hreplay, hcount⟩ := nack_leaves { s.port p with linkCrcErr := sat32 (s.port p).linkCrcErr 1 }
      rw [State.port_modPort, if_pos rfl]
      exact ⟨nacked_nack _, hinbox, hreplay, hcount⟩
    · exact (execLinkFrameReceive_ctrl hup hopen htype).trans (if_neg (not_not_intro htype)).symm
    · exact (execLinkFrameReceive_nack hup hopen htype).trans (if_neg (not_not_intro htype)).symm
  case ctrl =>
    intro s p f htype
    have hexec : exec (.linkCtrl p f) s = .next (s.linkCtrl p f) := if_neg (not_not_intro htype)
    refine ⟨fun hlength hidle => ⟨_, hexec, State.linkCtrl_leaves hlength hidle⟩, fun hlength => ?_⟩
    rw [hexec, State.linkCtrl_malformed hlength]
  case timeout =>
    intro s p hreplay hup
    obtain ⟨hretry, -, hresent⟩ := resend_leaves s p fun _ => true
    refine ⟨_, execLinkResendTimeout_resends hreplay hup, hretry, hresent.trans ?_, fun h => resend_goesOn h _,
      fun h => resend_takesDown h _⟩
    cases (s.port p).replay <;> rfl
  case malformedNack =>
    intro s p f htype hpayload
    exact (if_neg (not_not_intro htype)).trans (congrArg _ (State.linkNack_malformed hpayload))
  case nack =>
    intro s p f htype hpayload hnamed
    exact ⟨_, (if_neg (not_not_intro htype)).trans (congrArg _ (State.linkNack_resends hpayload hnamed)), resend_leaves ..⟩

end

section
/-! Ports and their lanes (O38): training, ports in fault, lanes that fail or recalibrate, and what each leaves of its port. -/

namespace Sys2Proof.Machine

/-! ### Events of a port -/

namespace State

theorem exists_event (s : State) (code p : Nat) : ∃ e, e ∈ (s.portEvent code p).log.records ∧ e.code = BitVec.ofNat 16 code ∧
    e.source = BitVec.ofNat 32 p :=
  ⟨_, List.mem_cons_self, rfl, rfl⟩

/-! ### A port in fault (R249, R263) -/

/-- The port drains from a moment, unless it does already. -/
def drainsFrom (now : Nat) (x : Port) : Port := if x.draining then x else { x with draining := true, drainAt := now }

theorem drainsFrom_leaves (now : Nat) (x : Port) : (drainsFrom now x).state = x.state ∧ (drainsFrom now x).replay = x.replay ∧
    (drainsFrom now x).draining = true := by
  unfold drainsFrom
  split
  · next h => exact ⟨rfl, rfl, h⟩
  · exact ⟨rfl, rfl, rfl⟩

theorem drainAxis_eq (s : State) (k : Nat) :
    s.drainAxis k = (s.modPort (2 * k) (drainsFrom s.clock)).modPort (2 * k + 1) (drainsFrom s.clock) := rfl

/-- Both ports of an axis drain from now, or have done so before. -/
theorem port_drainAxis (s : State) (p : Nat) : (s.drainAxis (p / 2)).port p = drainsFrom s.clock (s.port p) := by
  rw [drainAxis_eq, port_modPort, port_modPort, port_modPort]
  obtain h | h : p = 2 * (p / 2) ∨ p = 2 * (p / 2) + 1 := by omega
  · rw [if_neg (by omega), if_pos h, ← h]
  · rw [if_pos h, if_neg (by omega), ← h]

theorem port_autoBypass (s : State) (p : Nat) : (s.autoBypass p).port p =
    if s.fabric.open_.getLsbD (p / 2) = true then drainsFrom s.clock (s.port p) else s.port p := by
  unfold autoBypass
  dsimp only
  split
  · exact port_drainAxis { s with fabric := { s.fabric with auto := s.fabric.auto ||| BitVec.ofNat 4 (2 ^ (p / 2)) } } p
  · rfl

/-- A port in fault keeps its replay buffer, and its open axis starts to close. -/
theorem portFault_leaves (s : State) (p : Nat) : ((s.portFault p).port p).state = 4 ∧
    ((s.portFault p).port p).replay = (s.port p).replay ∧
    (s.fabric.open_.getLsbD (p / 2) = true → ((s.portFault p).port p).draining = true) := by
  rw [portFault, port_autoBypass, port_modPort, if_pos rfl, fabric_modPort]
  split
  · obtain ⟨hstate, hreplay, hdrains⟩ := drainsFrom_leaves s.clock { s.port p with state := 4 }
    exact ⟨hstate, hreplay, fun _ => hdrains⟩
  · next hshut => exact ⟨rfl, rfl, fun hopen => absurd hopen hshut⟩

theorem log_portFault (s : State) (p : Nat) : (s.portFault p).log = s.log ∨ (s.portFault p).log = (s.portEvent 0x33 p).log := by
  unfold portFault autoBypass
  dsimp only
  split
  · exact .inr rfl
  · exact .inl rfl

/-- The fault of a port leaves the event before it in the log. -/
theorem exists_event_portFault (s : State) (code p : Nat) :
    ∃ e, e ∈ ((s.portEvent code p).portFault p).log.records ∧ e.code = BitVec.ofNat 16 code := by
  obtain h | h := log_portFault (s.portEvent code p) p
  · rw [h]
    exact ⟨_, List.mem_cons_self, rfl⟩
  · rw [h]
    exact ⟨_, List.mem_cons_of_mem _ List.mem_cons_self, rfl⟩

end State

/-! ### What a port reads of its lanes (R249) -/

namespace Port

theorem soundLanes_congr {x y : Port} (h : x.lanes = y.lanes) (p : Nat) : x.soundLanes p = y.soundLanes p := by
  simp only [soundLanes, laneState, h]

theorem goodLanes_congr {x y : Port} (h : x.lanes = y.lanes) (p : Nat) : x.goodLanes p = y.goodLanes p := by
  simp only [goodLanes, laneState, h]

theorem spare_congr {x y : Port} (h : x.lanes = y.lanes) (p : Nat) : x.spare p = y.spare p := by
  simp only [spare, laneState, h]

/-- The first free spare lane is a spare lane. -/
theorem laneState_spare {x : Port} {p k : Nat} (h : x.spare p = some k) : x.laneState k = 1 := by
  simpa using List.find?_some h

/-- A lane that is set to anything else is no free spare. -/
theorem spare_ne {x : Port} {p k lane v : Nat} (h : ({ x with lanes := tset x.lanes lane v } : Port).spare p = some k) (hv : v ≠ 1) :
    k ≠ lane := by
  rintro rfl
  exact hv (by simpa [laneState] using laneState_spare h)

/-! ### Training (R255, R265) -/

theorem meet_same (x : Port) : x.meet x.neighbour = { x with nacked := false } := if_pos rfl

theorem meet_other {x : Port} {m : ModAddr} (h : x.neighbour ≠ m) : x.meet m =
    { x with neighbour := m, waiting := (x.replay.map fun f => { frame := f, source := none }) ++ x.waiting, replay := []
             nextSeq := 0, expect := 0, nacked := false, credit := [], shared := [], pool := [], owed := [], owedShared := [] } :=
  if_neg h

/-- The port once its lanes have trained and its neighbour has been met. -/
def trained (x : Port) (p : Nat) (m : ModAddr) : Port :=
  let x := { x.meet m with stripe := 0, order := (List.range (portLanes p)).filter fun i => x.laneState i == 0 }
  { x.again x.replay with state := if x.goodLanes p < portActive p then 3 else 2, episodes := 0 }

theorem lanes_meet (x : Port) (m : ModAddr) : (x.meet m).lanes = x.lanes := by
  unfold meet
  split <;> rfl

theorem neighbour_meet (x : Port) (m : ModAddr) : (x.meet m).neighbour = m := by
  unfold meet
  split
  · assumption
  · rfl

theorem trained_eq (x : Port) (p : Nat) (m : ModAddr) : ∃ stripe, x.trained p m =
    { x.meet m with stripe := stripe, resent := (x.meet m).replay
                    order := (List.range (portLanes p)).filter fun i => x.laneState i == 0
                    state := if x.goodLanes p < portActive p then 3 else 2, episodes := 0 } := by
  obtain ⟨stripe, h⟩ := Port.again_eq { x.meet m with
    stripe := 0, order := (List.range (portLanes p)).filter fun i => (x.meet m).laneState i == 0 } (x.meet m).replay
  refine ⟨stripe, ?_⟩
  have hgood (s : Nat) (o : List Nat) : ({ x.meet m with stripe := s, order := o } : Port).goodLanes p = x.goodLanes p :=
    goodLanes_congr (lanes_meet x m) p
  have hlane (i : Nat) : (x.meet m).laneState i = x.laneState i := by simp only [laneState, lanes_meet]
  simp only [hlane] at h
  simp only [trained, hgood, h]

end Port

section Trained
variable {s : State} {p : PortId} {m : ModAddr} (htrains : (s.port p).state = 1)
include htrains

theorem execPortTrained_stranger (hbad : s.neighbourOk p m = false) : execPortTrained p m s =
    .next ((s.modPort p fun x => { x with state := 5, neighbour := m }).portEvent 0x34 p) := by
  simp [execPortTrained, htrains, hbad]

variable (hgood : s.neighbourOk p m = true)
include hgood

/-- A port that has met its neighbour sends what waits, or is in fault below its floor of good lanes. -/
theorem execPortTrained_meets : execPortTrained p m s =
    if (s.port p).soundLanes p < portFloor p then .next ((s.modPort p fun x => x.trained p m).portFault p)
    else .next ((s.modPort p fun x => x.trained p m).pumpAll p) := by
  have hlanes : ((s.modPort p fun x => x.trained p m).port p).soundLanes p = (s.port p).soundLanes p := by
    obtain ⟨stripe, h⟩ := (s.port p).trained_eq p m
    rw [State.port_modPort, if_pos rfl, h]
    exact Port.soundLanes_congr (Port.lanes_meet _ m) p
  rw [← hlanes]
  simp only [execPortTrained, htrains, hgood, ne_eq, not_true_eq_false, if_false, Bool.not_true, Bool.false_eq_true]
  rfl

/-- With its old neighbour, or nothing unacknowledged, and no frame waiting, the port is up with its lanes in order. -/
theorem execPortTrained_leaves (hidle : (s.port p).waiting = []) (hlink : (s.port p).neighbour = m ∨ (s.port p).replay = [])
    (hsound : portFloor p ≤ (s.port p).soundLanes p) : ∃ t, execPortTrained p m s = .next t ∧
      (t.port p).state = (if (s.port p).goodLanes p < portActive p then 3 else 2) ∧ (t.port p).episodes = 0 ∧
      (t.port p).neighbour = m ∧ (t.port p).order = (List.range (portLanes p)).filter (fun i => (s.port p).laneState i == 0) ∧
      ((s.port p).neighbour = m → (t.port p).replay = (s.port p).replay ∧ (t.port p).nextSeq = (s.port p).nextSeq) := by
  obtain ⟨stripe, htrained⟩ := (s.port p).trained_eq p m
  have hport : (s.modPort p fun x => x.trained p m).port p = (s.port p).trained p m := by simp
  have hwaiting : ((s.port p).meet m).waiting = [] := by
    unfold Port.meet
    split
    · exact hidle
    · next h => simp [hidle, hlink.resolve_left h]
  have hnone : ((s.modPort p fun x => x.trained p m).port p).waiting = [] := by rw [hport, htrained]; exact hwaiting
  refine ⟨_, (execPortTrained_meets htrains hgood).trans (if_neg (Nat.not_lt.mpr hsound)), ?_⟩
  rw [State.port_pumpAll_idle hnone, hport, htrained]
  refine ⟨rfl, rfl, Port.neighbour_meet _ m, rfl, ?_⟩
  rintro rfl
  dsimp only
  rw [Port.meet_same]
  exact ⟨rfl, rfl⟩

end Trained

/-! ### Signal loss (R263) -/

section SignalLoss
variable {s : State} {p : PortId}

theorem execPortSignalLoss_retrains (h : (s.port p).up = true ∨ (s.port p).state = 5) : execPortSignalLoss ⟨p, false⟩ s =
    .next ((s.modPort p fun x => { x with state := 1 }).portEvent 0x32 p) := by
  have hcarries : (s.port p).state = 2 ∨ (s.port p).state = 3 ∨ (s.port p).state = 5 := by
    simpa [Port.up, or_assoc] using h
  rcases hcarries with h | h | h <;> simp [execPortSignalLoss, Port.up, h]

theorem execPortSignalLoss_faults (h : (s.port p).up = true ∨ (s.port p).state = 5 ∨ (s.port p).state = 1) :
    execPortSignalLoss ⟨p, true⟩ s = .next (s.portFault p) := by
  have hreports : (!(s.port p).up && (s.port p).state != 5 && (s.port p).state != 1) = false := by
    rcases h with h | h | h <;> simp [h]
  simp only [execPortSignalLoss, hreports, Bool.false_eq_true, if_false, if_true]

end SignalLoss

/-! ### A failed lane (R249) -/

namespace State

/-- The lane is failed, and awaits no recalibration. -/
def markFailed (s : State) (p lane : Nat) : State :=
  s.modPort p fun y =>
    { y with lanes := tset y.lanes lane 2, recalDue := y.recalDue.filter (· != lane), recalSince := terase y.recalSince lane }

@[simp] theorem port_markFailed (s : State) (p lane : Nat) : (s.markFailed p lane).port p = { s.port p with
    lanes := tset (s.port p).lanes lane 2, recalDue := (s.port p).recalDue.filter (· != lane)
    recalSince := terase (s.port p).recalSince lane } := by
  simp [markFailed]

theorem failLane_active {s : State} {p lane : Nat} (h : (s.port p).laneState lane = 0) :
    s.failLane p lane = (s.markFailed p lane).loseActive p lane := by
  simp only [failLane, h]
  rfl

/-- A spare takes the place of an active lane. -/
theorem loseActive_spare {s : State} {p lane k : Nat} (h : (s.port p).spare p = some k) : ∃ recal,
    (s.loseActive p lane).port p = { (s.port p).standFor lane k with recal := recal } ∧
      ∃ e, e ∈ (s.loseActive p lane).log.records ∧ e.code = 0x30 := by
  refine ⟨if (s.port p).recal.any fun r => r.standIn == some lane then (s.port p).recal.map fun r => { r with standIn := some k }
    else (s.port p).recal, ?_, ?_⟩
  · simp [loseActive, h]
  · obtain ⟨e, he, hcode, -⟩ := exists_event (s.modPort p fun y => { y.standFor lane k with
      recal := if (s.port p).recal.any fun r => r.standIn == some lane then y.recal.map fun r => { r with standIn := some k }
        else y.recal }) 0x30 p
    refine ⟨e, ?_, hcode⟩
    simpa only [loseActive, h] using he

/-- The port on the lanes that remain, no spare having taken the place of a lane, with its event. -/
def narrowed (s : State) (p lane : Nat) : State :=
  let stood := (s.port p).recal.any fun r => r.standIn == some lane
  (s.modPort p fun y =>
    let z := y.leave lane
    { z with recal := if stood then z.recal.map fun r => { r with standIn := none, place := some ((s.port p).order.idxOf lane) }
               else z.recal
             state := if y.state = 2 then 3 else y.state }).portEvent 0x31 p

theorem port_narrowed (s : State) (p lane : Nat) : ∃ stripe recal, (s.narrowed p lane).port p =
    { s.port p with order := (s.port p).order.filter (· != lane), stripe := stripe, recal := recal
                    state := if (s.port p).state = 2 then 3 else (s.port p).state } := by
  refine ⟨((s.narrowed p lane).port p).stripe, ((s.narrowed p lane).port p).recal, ?_⟩
  rw [narrowed, port_portEvent, port_modPort, if_pos rfl]
  rfl

theorem loseActive_narrows {s : State} {p lane : Nat} (h : (s.port p).spare p = none) : s.loseActive p lane =
    if (s.port p).soundLanes p < portFloor p then (s.narrowed p lane).portFault p else s.narrowed p lane := by
  have hsound : ((s.narrowed p lane).port p).soundLanes p = (s.port p).soundLanes p := by
    obtain ⟨stripe, recal, hport⟩ := s.port_narrowed p lane
    rw [hport]
    exact Port.soundLanes_congr rfl p
  rw [← hsound]
  simp only [loseActive, h]
  rfl

end State

section LaneFailure
variable {s : State} {p : PortId} {lane : Nat} (hlane : lane < portLanes p)
include hlane

theorem execLaneFailure_lockLost (h : (s.port p).laneState lane ≠ 2) :
    execLaneFailure p ⟨lane, .lockLost⟩ s = .next (s.failLane p lane) := by
  have hreports : ¬ (portLanes p ≤ lane ∨ (s.port p).laneState lane = 2) := by omega
  simp only [execLaneFailure, hreports, if_false]

theorem execLaneFailure_codeWords (h : (s.port p).laneState lane ≠ 2) {n corrected : Nat} {bad : List Nat} {l : FecLane}
    (hl : l = ((tget (s.port p).fec lane {}).decoded n bad).1) {u : State}
    (hu : u = s.modPort p fun y => { y with fec := tset y.fec lane l, fecCorrected := y.fecCorrected + BitVec.ofNat 64 corrected
                                            fecUncorrected := sat32 y.fecUncorrected bad.length }) :
    execLaneFailure p ⟨lane, .codeWords n corrected bad⟩ s =
      .next (if fecOver ((tget (s.port p).fec lane {}).bad ++ bad.map (· + (tget (s.port p).fec lane {}).words)) then u.failLane p lane
        else u) := by
  have hreports : ¬ (portLanes p ≤ lane ∨ (s.port p).laneState lane = 2) := by omega
  simp only [execLaneFailure, hreports, if_false, hu, hl]
  exact (apply_ite Host.Outcome.next ..).symm

/-! The lane is active. -/

variable (hactive : (s.port p).laneState lane = 0)
include hactive

theorem execLaneFailure_active : execLaneFailure p ⟨lane, .lockLost⟩ s = .next ((s.markFailed p lane).loseActive p lane) :=
  (execLaneFailure_lockLost hlane (by omega)).trans (congrArg _ (State.failLane_active hactive))

theorem execLaneFailure_spare {k : Nat}
    (hspare : ({ s.port p with lanes := tset (s.port p).lanes lane 2 } : Port).spare p = some k) :
    ∃ t e, execLaneFailure p ⟨lane, .lockLost⟩ s = .next t ∧ (t.port p).laneState lane = 2 ∧ (t.port p).laneState k = 0 ∧
      (t.port p).order = (s.port p).order.map (fun i => if i = lane then k else i) ∧
      (t.port p).state = (s.port p).state ∧ e ∈ t.log.records ∧ e.code = 0x30 := by
  have hk : ((s.markFailed p lane).port p).spare p = some k :=
    (Port.spare_congr (by rw [State.port_markFailed]) p).trans hspare
  have hne : lane ≠ k := (Port.spare_ne hspare (by decide)).symm
  obtain ⟨recal, hport, e, he, hcode⟩ := State.loseActive_spare (lane := lane) hk
  refine ⟨_, e, execLaneFailure_active hlane hactive, ?_, ?_, ?_, ?_, he, hcode⟩
  all_goals rw [hport, State.port_markFailed]
  · simp [Port.laneState, Port.standFor, Port.giveWay, hne]
  · simp [Port.laneState, Port.standFor, Port.giveWay]
  · rfl
  · rfl

variable (hnone : ({ s.port p with lanes := tset (s.port p).lanes lane 2 } : Port).spare p = none)
include hnone

/-- With no spare the port runs on the lanes that remain, or fails below its floor. -/
theorem execLaneFailure_noSpare : execLaneFailure p ⟨lane, .lockLost⟩ s =
    .next (if ({ s.port p with lanes := tset (s.port p).lanes lane 2 } : Port).soundLanes p < portFloor p then
      ((s.markFailed p lane).narrowed p lane).portFault p else (s.markFailed p lane).narrowed p lane) := by
  have hspare : ((s.markFailed p lane).port p).spare p = none := (Port.spare_congr (by rw [State.port_markFailed]) p).trans hnone
  have hsound : ((s.markFailed p lane).port p).soundLanes p =
      ({ s.port p with lanes := tset (s.port p).lanes lane 2 } : Port).soundLanes p :=
    Port.soundLanes_congr (by rw [State.port_markFailed]) p
  rw [execLaneFailure_active hlane hactive, State.loseActive_narrows hspare, hsound]

theorem execLaneFailure_degrades (hstate : (s.port p).state = 2)
    (hsound : portFloor p ≤ ({ s.port p with lanes := tset (s.port p).lanes lane 2 } : Port).soundLanes p) :
    ∃ t e, execLaneFailure p ⟨lane, .lockLost⟩ s = .next t ∧ (t.port p).laneState lane = 2 ∧ (t.port p).state = 3 ∧
      (t.port p).order = (s.port p).order.filter (· != lane) ∧ e ∈ t.log.records ∧ e.code = 0x31 := by
  obtain ⟨stripe, recal, hport⟩ := (s.markFailed p lane).port_narrowed p lane
  refine ⟨_, _, (execLaneFailure_noSpare hlane hactive hnone).trans (congrArg _ (if_neg (Nat.not_lt.mpr hsound))), ?_, ?_, ?_,
    List.mem_cons_self, rfl⟩
  all_goals rw [hport, State.port_markFailed]
  · simp [Port.laneState]
  · simp [hstate]

theorem execLaneFailure_fails (hsound : ({ s.port p with lanes := tset (s.port p).lanes lane 2 } : Port).soundLanes p < portFloor p) :
    ∃ t e, execLaneFailure p ⟨lane, .lockLost⟩ s = .next t ∧ (t.port p).state = 4 ∧ e ∈ t.log.records ∧ e.code = 0x31 ∧
      (s.fabric.open_.getLsbD (p / 2) = true → (t.port p).draining = true) := by
  obtain ⟨hstate, -, hdrains⟩ := ((s.markFailed p lane).narrowed p lane).portFault_leaves p
  obtain ⟨e, he, hcode⟩ := State.exists_event_portFault _ 0x31 p
  exact ⟨_, e, (execLaneFailure_noSpare hlane hactive hnone).trans (congrArg _ (if_pos hsound)), hstate, he, hcode, hdrains⟩

end LaneFailure

/-! ### Recalibration (R250, R391) -/

/-- A lane under recalibration carries nothing, and is due no more. -/
theorem recalibrate_leaves (s : State) (p lane : Nat) : ((recalibrate s p lane).port p).laneState lane = 3 ∧
    ((recalibrate s p lane).port p).recalDue = (s.port p).recalDue.erase lane ∧
    ((recalibrate s p lane).port p).recalDeferred = (s.port p).recalDeferred := by
  rw [recalibrate, State.port_modPort, if_pos rfl]
  dsimp only
  split
  · simp [Port.laneState]
  · split
    · next k hk =>
      have hne : lane ≠ k := by
        rintro rfl
        simpa [Port.laneState] using Port.laneState_spare hk
      simp [Port.laneState, Port.standFor, Port.giveWay, hne]
    · simp [Port.laneState, Port.leave]

section Recalibration
variable {s : State} {p : PortId} {lane : Nat}

theorem execLaneRecalibration_begins (hlane : lane < portLanes p) (hable : (s.port p).recalible lane = true)
    (hfree : (s.port p).recal = none) (hnow : ((s.port p).spare p).isSome = true ∨ (s.port p).waiting = []) :
    execLaneRecalibration p lane s = .next (recalibrate s p lane) := by
  have hbegins : ((s.port p).recal.isNone && (((s.port p).spare p).isSome || (s.port p).waiting.isEmpty)) = true := by
    rcases hnow with h | h <;> simp [hfree, h]
  simp [execLaneRecalibration, Nat.not_le.mpr hlane, hable, hbegins]

theorem execLaneRecalibration_defers (hlane : lane < portLanes p) (hable : (s.port p).recalible lane = true)
    (hbusy : (s.port p).recal.isSome = true) : execLaneRecalibration p lane s =
      .next (s.modPort p fun y => { y with recalDue := y.recalDue ++ [lane], recalSince := tset y.recalSince lane s.clock }) := by
  have hwaits : (s.port p).recal.isNone = false := by rw [Option.isNone_eq_false_iff]; exact hbusy
  simp [execLaneRecalibration, Nat.not_le.mpr hlane, hable, hwaits]

/-! The first lane due may be recalibrated, and no other is. -/

variable {r : List Nat} (hdue : (s.port p).recalDue = lane :: r) (hfree : (s.port p).recal = none)
  (hable : (s.port p).recalible lane = true)
include hdue hfree hable

theorem execRecalDeferExpiry_begins (hnow : ((s.port p).spare p).isSome = true ∨ (s.port p).waiting = [] ∨
      10000000 ≤ s.deferredFor p lane) {long : Bool} (hlong : long = decide (1000000 ≤ s.deferredFor p lane)) :
    execRecalDeferExpiry p long s =
      .next (recalibrate (s.modPort p fun y => { y with recalDeferred := sat32 y.recalDeferred (if long then 1 else 0) }) p lane) := by
  have hends : (((s.port p).spare p).isSome || (s.port p).waiting.isEmpty || decide (10000000 ≤ s.deferredFor p lane)) = true := by
    rcases hnow with h | h | h <;> simp [h]
  simp only [execRecalDeferExpiry, hdue, hfree, hable, hends, hlong, Option.isSome_none, Bool.not_true, bne_self_eq_false,
    Bool.or_self, Bool.false_eq_true, if_false]

theorem execRecalDeferExpiry_waits (hspare : (s.port p).spare p = none) (hwaiting : (s.port p).waiting ≠ [])
    (hearly : s.deferredFor p lane < 10000000) (long : Bool) : execRecalDeferExpiry p long s = .next s := by
  have hstays : (((s.port p).spare p).isSome || (s.port p).waiting.isEmpty || decide (10000000 ≤ s.deferredFor p lane)) = false := by
    simp [hspare, hwaiting, Nat.not_le.mpr hearly]
  simp only [execRecalDeferExpiry, hdue, hfree, hable, hstays, Option.isSome_none, Bool.not_true, Bool.not_false, Bool.or_true,
    Bool.false_eq_true, if_false, if_true]

end Recalibration

/-- The lane returns to its place, or is a spare again; so is the spare that stood in for it. -/
theorem Port.recalEnd_leaves (x : Port) (r : Recal) : (x.recalEnd r).recal = none ∧ (x.recalEnd r).state = x.state ∧
    ((r.standIn.isSome = true ∨ r.place.isSome = true) → (x.recalEnd r).laneState r.lane = 0) ∧
    (r.standIn = none → r.place = none → (x.recalEnd r).laneState r.lane = 1) ∧
    (∀ k, r.standIn = some k → k ≠ r.lane → (x.recalEnd r).laneState k = 1) := by
  unfold Port.recalEnd
  dsimp only
  split
  · next k _ hk => simp [hk, Port.laneState, Port.giveWay]
  · next place hnone hplace => simp [hnone, hplace, Port.laneState, Port.insertAt]
  · next hnone hplace => simp [hnone, hplace, Port.laneState]

theorem execLaneRecalEnd_returns {s : State} {p : PortId} {r : Recal} (h : (s.port p).recal = some r) :
    execLaneRecalEnd p r.lane s = .next (s.modPort p fun x => x.recalEnd r) := by
  simp [execLaneRecalEnd, h]

end Sys2Proof.Machine

open Sys2Proof Sys2Proof.Machine

/-- Settles O38: a trained port by its neighbour (`execPortTrained_meets`), a port in fault by `State.portFault_leaves`, and each lane
that fails or recalibrates by what its rule leaves of the port. -/
theorem portsAndLanes : Obligations.PortsAndLanes := by
  refine ⟨?trained, ?meet, ?signal, ?selfTest, ?spare, ?degraded, ?failed, ?codeWords, ?recalibration, ?deferred, ?recalEnd⟩
  case trained =>
    intro s p m htrains
    refine ⟨fun hbad => ?_, execPortTrained_leaves htrains, fun hgood hsound => ?_⟩
    · obtain ⟨e, he, hcode, hsource⟩ := State.exists_event (s.modPort p fun x => { x with state := 5, neighbour := m }) 0x34 p
      refine ⟨_, e, execPortTrained_stranger htrains hbad, ?_, ?_, he, hcode, hsource⟩
      all_goals rw [State.port_portEvent, State.port_modPort, if_pos rfl]
    · exact ⟨_, (execPortTrained_meets htrains hgood).trans (if_pos hsound), (State.portFault_leaves _ p).1⟩
  case meet =>
    intro x m h
    rw [Port.meet_other h]
    exact ⟨rfl, rfl, rfl, rfl, by simp [Function.comp_def]⟩
  case signal =>
    intro s p h
    refine ⟨?_, ?_⟩
    · obtain ⟨e, he, hcode, hsource⟩ := State.exists_event (s.modPort p fun x => { x with state := 1 }) 0x32 p
      refine ⟨_, e, execPortSignalLoss_retrains h, ?_, ?_, he, hcode, hsource⟩
      all_goals rw [State.port_portEvent, State.port_modPort, if_pos rfl]
    · exact ⟨_, execPortSignalLoss_faults (h.imp_right .inl), State.portFault_leaves s p⟩
  case selfTest =>
    intro s p h
    obtain ⟨hstate, -, hdrains⟩ := s.portFault_leaves p
    exact ⟨_, execPortSignalLoss_faults (.inr (.inr h)), hstate, hdrains⟩
  case spare => exact fun s p lane k hlane hactive hspare => execLaneFailure_spare hlane hactive hspare
  case degraded =>
    exact fun s p lane hlane hactive hstate hnone hsound => execLaneFailure_degrades hlane hactive hnone hstate hsound
  case failed => exact fun s p lane hlane hactive hnone hsound => execLaneFailure_fails hlane hactive hnone hsound
  case codeWords =>
    exact fun s u p lane n corrected bad l hlane hgood hl hu => execLaneFailure_codeWords hlane hgood hl hu
  case recalibration =>
    intro s p lane hlane hable
    refine ⟨fun hfree hnow => ?_, fun hbusy => ?_⟩
    · exact ⟨_, execLaneRecalibration_begins hlane hable hfree hnow, (recalibrate_leaves s p lane).1, rfl⟩
    · refine ⟨_, execLaneRecalibration_defers hlane hable hbusy, ?_, ?_⟩
      all_goals rw [State.port_modPort, if_pos rfl]
  case deferred =>
    intro s p lane r hdue hfree hable
    refine ⟨fun hnow long hlong => ?_, fun hspare hwaiting hearly long => ?_⟩
    · obtain ⟨hlane, hleft, hcount⟩ := recalibrate_leaves
        (s.modPort p fun y => { y with recalDeferred := sat32 y.recalDeferred (if long then 1 else 0) }) p lane
      refine ⟨_, execRecalDeferExpiry_begins hdue hfree hable hnow hlong, hlane, hleft.trans ?_, hcount.trans ?_⟩
      all_goals rw [State.port_modPort, if_pos rfl]
      rw [hdue, List.erase_cons_head]
    · exact execRecalDeferExpiry_waits hdue hfree hable hspare hwaiting hearly long
  case recalEnd =>
    intro s p r h
    refine ⟨_, execLaneRecalEnd_returns h, ?_⟩
    rw [State.port_modPort, if_pos rfl]
    exact (s.port p).recalEnd_leaves r

end

section
/-! Re-shards (O40): frames that come or leave change ports alone; votes, copies, the end and the fault of a re-shard. -/

namespace Sys2Proof.Machine

namespace State

/-! ### Frames change ports alone (R254) -/

/-- Everything of the module but its ports. -/
def butPorts (s : State) : State := { s with ports := [] }

@[simp] theorem butPorts_modPort (s : State) (p : Nat) (f : Port → Port) : (s.modPort p f).butPorts = s.butPorts := rfl

theorem butPorts_foldl {α : Type} {f : State → α → State} (hf : ∀ s x, (f s x).butPorts = s.butPorts) (l : List α) (s : State) :
    (l.foldl f s).butPorts = s.butPorts :=
  List.foldlRecOn (motive := fun t : State => t.butPorts = s.butPorts) l f rfl fun t ht x _ => (hf t x).trans ht

@[simp] theorem butPorts_owe (s : State) (l : List (Nat × Nat × Nat)) : (owe s l).butPorts = s.butPorts := by
  obtain ⟨ports, h⟩ := owe_eq s l
  rw [h]
  rfl

@[simp] theorem butPorts_pump (s : State) (p : Nat) : (s.pump p).1.butPorts = s.butPorts := butPorts_owe ..

@[simp] theorem butPorts_bounce (s : State) (p : Nat) (l : List Waiting) : (s.bounce p l).butPorts = s.butPorts := by
  refine butPorts_foldl (fun t w => ?_) l s
  dsimp only
  split
  · rfl
  · split
    · rfl
    · split
      · rw [butPorts_foldl fun _ _ => butPorts_modPort .., butPorts_pump]
        rfl
      · rfl

@[simp] theorem butPorts_pumpAll (s : State) (p : Nat) : (s.pumpAll p).butPorts = s.butPorts := by simp [pumpAll]

@[simp] theorem butPorts_sendFrame (s : State) (f : Frame) : (s.sendFrame f).butPorts = s.butPorts := by
  unfold sendFrame forward
  dsimp only
  split
  · rfl
  · split
    · exact butPorts_pumpAll ..
    · split
      · rfl
      · exact butPorts_pumpAll ..

@[simp] theorem mem_sendFrame (s : State) (f : Frame) : (s.sendFrame f).mem = s.mem :=
  (congrArg State.mem (s.butPorts_sendFrame f) :)

theorem takePayload_leaves {s u : State} {type : Nat} {src : ModAddr} {payload : List Byte}
    (h : s.takePayload type src payload = some u) : u.fabric = s.fabric ∧ u.reshard = s.reshard := by
  unfold takePayload at h
  dsimp only at h
  split at h
  · obtain ⟨ports, rfl⟩ := takeFrame_eq h
    exact ⟨rfl, rfl⟩
  · obtain rfl := Option.some.inj h
    exact ⟨rfl, rfl⟩

/-! ### The end and the fault of a re-shard (R277, R279) -/

theorem reshardEnd_leaves (s : State) (st : Status) : (s.reshardEnd st).reshard.running = false ∧
    (s.reshardEnd st).reshard.voting = false ∧ (s.reshardEnd st).reshard.result = (Config.statusCode st).setWidth 64 ∧
    (s.reshardEnd st).mem = s.mem := ⟨rfl, rfl, rfl, rfl⟩

@[simp] theorem mem_reshardReplace (s : State) : s.reshardReplace.mem = s.mem := by
  unfold reshardReplace
  split
  · rfl
  · dsimp only
    split <;> rfl

theorem reshardSettle_unfilled {s : State} (h : s.slotsFilled = false) : s.reshardSettle = s := by
  simp [reshardSettle, h]

/-- With no cycle left and every slot of this module filled, the re-shard ends. -/
theorem reshardSettle_ends {s : State} (hfilled : s.slotsFilled = true) (hruns : s.reshard.running = true)
    (hvoted : s.reshard.voting = false) (hbuf0 : s.reshard.buf0 = none) (hbuf1 : s.reshard.buf1 = none) (htodo : s.reshard.todo = []) :
    s.reshardSettle = s.reshardReplace.reshardEnd .ok := by
  simp [reshardSettle, hfilled, hruns, hvoted, hbuf0, hbuf1, htodo]

/-- The cycles in the two buffers are reported. -/
theorem interrupted_reshardReport (s : State) :
    s.reshardReport.reshard.interrupted = s.reshard.buf0.toList.length + s.reshard.buf1.toList.length := by
  have hbuf0 : s.reshard.buf 0 = s.reshard.buf0 := rfl
  have hbuf1 : s.reshard.buf 1 = s.reshard.buf1 := rfl
  simp only [reshardReport, hbuf0, hbuf1, List.length_append]
  cases s.reshard.buf0 <;> cases s.reshard.buf1 <;> rfl

/-- A fault leaves its event in the log, below that of the end. -/
theorem reshardFault_leaves (s : State) (cause : Nat) : ∃ e, e ∈ (s.reshardFault cause).log.records ∧ e.code = 0x35 ∧
    (s.reshardFault cause).reshard.running = false ∧ (s.reshardFault cause).reshard.buf0 = none ∧
    (s.reshardFault cause).reshard.buf1 = none ∧
    (s.reshardFault cause).reshard.interrupted = s.reshard.buf0.toList.length + s.reshard.buf1.toList.length ∧
    (s.reshardFault cause).mem = s.mem :=
  ⟨_, List.mem_cons_of_mem _ List.mem_cons_self, rfl, rfl, rfl, rfl, interrupted_reshardReport s, rfl⟩

end State

/-! ### Votes (R277) -/

section Vote
variable {s u : State} {digest : Word}

/-- Rank 0's result reaches a member that votes. -/
theorem execReshardVote_result (hmember : 0 < s.reshardGroup.idxOf s.fabric.coord)
    (htaken : s.takePayload 0x16 (s.reshardGroup.getD 0 0) (leBytes 8 digest.toNat) = some u) (hruns : s.reshard.running = true)
    (hvotes : s.reshard.voting = true) (st : Status) : execReshardVote 0 digest st s = .next (u.reshardResult st) := by
  obtain ⟨hfabric, hreshard⟩ := State.takePayload_leaves htaken
  have hrank : s.reshardGroup.idxOf s.fabric.coord ≠ 0 := by omega
  simp only [execReshardVote, htaken, hfabric, hreshard, hruns, hvotes, hrank, ne_eq, not_true_eq_false, not_false_eq_true, and_self,
    if_false, if_true]

/-- Rank 0 keeps the vote of another rank, and settles nothing before it has begun itself. -/
theorem execReshardVote_kept {rank : Nat} (hother : rank ≠ 0) (hroot : s.reshardGroup.idxOf s.fabric.coord = 0)
    (htaken : s.takePayload 0x16 (s.reshardGroup.getD rank 0) (leBytes 8 digest.toNat) = some u) (hidle : s.reshard.running = false)
    (st : Status) : execReshardVote rank digest st s = .next { u with reshard :=
      { u.reshard with votes := u.reshard.votes.filter (fun v => v.1 != rank) ++ [(rank, digest, st)] } } := by
  obtain ⟨hfabric, hreshard⟩ := State.takePayload_leaves htaken
  simp only [execReshardVote, htaken, hfabric, hreshard, hidle, hother, hroot, ne_eq, not_false_eq_true, and_self, if_true,
    Bool.false_and]

end Vote

/-! ### The copy in a buffer (R276, R279, R315) -/

section Copy
variable {s : State} {b : Fin 2}

theorem execReshardCopyComplete_empty (hbuf : s.reshard.buf b = none) :
    execReshardCopyComplete b 0 s = .next s.reshardSettle := by
  simp [execReshardCopyComplete, hbuf]

variable {c : Cycle} (hbuf : s.reshard.buf b = some c) (hruns : s.reshard.running = true) (hsound : c.cause = 0)
include hbuf hruns hsound

theorem execReshardCopyComplete_faults {cause : Byte} (hcause : cause ≠ 0) :
    execReshardCopyComplete b cause s = .next (s.reshardFault cause.toNat) := by
  simp only [execReshardCopyComplete, hbuf, hruns, hsound, hcause, ne_eq, not_false_eq_true, not_true_eq_false, true_or, Bool.not_true,
    Bool.false_eq_true, if_false, if_true]

/-- While the job drains, or lines of the copy are to do, nothing goes on. -/
theorem execReshardCopyComplete_waits (h : s.job.state = .draining ∨ c.todo ≠ []) : execReshardCopyComplete b 0 s = .next s := by
  rcases h with h | h <;> simp [execReshardCopyComplete, hbuf, hruns, hsound, h]

/-- Every line of the copy has been moved and has committed, and the job does not drain. -/
theorem execReshardCopyComplete_counts (hcommitted : s.collHeld s.reshard.slope = false) (hjob : s.job.state ≠ .draining)
    (htodo : c.todo = []) (hpending : c.pending = 0) : execReshardCopyComplete b 0 s =
      if c.copies + 1 = c.slots.length + 1 then
        .next ((({ s with reshard := s.reshard.setBuf b none }).cycleNext b).reshardSettle)
      else .next (s.copyBegin b { c with copies := c.copies + 1 }) := by
  simp [execReshardCopyComplete, hbuf, hruns, hsound, hcommitted, hjob, htodo, hpending]

end Copy

end Sys2Proof.Machine

open Sys2Proof Sys2Proof.Machine

/-- Settles O40: a vote that is taken changes ports alone (`State.takePayload_leaves`), a copy that completes by one rule for each case, and
the end by what `State.reshardEnd` leaves. -/
theorem reshardCommands : Obligations.ReshardCommands := by
  refine ⟨?result, ?vote, ?copy, ?empty, fun s => State.reshardSettle_unfilled, ?ends, State.reshardFault_leaves⟩
  case result =>
    intro s u digest st hmember htaken hruns hvotes
    have hexec := execReshardVote_result hmember htaken hruns hvotes st
    refine ⟨fun hok => hexec.trans (congrArg _ (if_pos hok)), fun hbad => ⟨_, hexec.trans (congrArg _ (if_neg hbad)), ?_⟩⟩
    exact u.reshardEnd_leaves st
  case vote =>
    intro s u rank digest st hother hroot htaken hidle
    exact ⟨_, execReshardVote_kept hother hroot htaken hidle st, List.mem_append_right _ List.mem_cons_self, rfl⟩
  case copy =>
    intro s b c hbuf hruns hcommitted
    refine ⟨fun cause hcause hsound => execReshardCopyComplete_faults hbuf hruns hsound hcause,
      fun hsound hjob => execReshardCopyComplete_waits hbuf hruns hsound (.inl hjob),
      fun hsound hjob htodo hpending hmore => ?_, fun hsound hjob htodo hpending hlast => ?_,
      fun hsound htodo => execReshardCopyComplete_waits hbuf hruns hsound (.inr htodo)⟩
    · exact (execReshardCopyComplete_counts hbuf hruns hsound hcommitted hjob htodo hpending).trans (if_neg hmore)
    · exact (execReshardCopyComplete_counts hbuf hruns hsound hcommitted hjob htodo hpending).trans (if_pos hlast)
  case empty => exact fun s b hbuf _ => execReshardCopyComplete_empty hbuf
  case ends =>
    intro s hfilled hruns hvoted hbuf0 hbuf1 htodo
    rw [State.reshardSettle_ends hfilled hruns hvoted hbuf0 hbuf1 htodo]
    obtain ⟨hstops, -, hresult, hmem⟩ := s.reshardReplace.reshardEnd_leaves .ok
    exact ⟨hstops, hresult, hmem.trans s.mem_reshardReplace⟩

end

section
/-! Collectives (O39): the begin of a sequencer entry, a chunk of the chain and one that lands, credits, aborts, the end of an entry and
of a lend window, and the frames of an entry that does not run. -/

namespace Sys2Proof.Machine

namespace State

/-! ### Reads leave the collective engines (R109) -/

@[simp] theorem colls_setBankState (s : State) (a v : Nat) : (s.setBankState a v).colls = s.colls := by
  unfold setBankState
  split <;> rfl

@[simp] theorem colls_wakeBank (s : State) (a master : Nat) : (s.wakeBank a master).colls = s.colls := by
  unfold wakeBank
  split
  · exact colls_setBankState ..
  · exact colls_setBankState ..
  · exact colls_setBankState ..
  · rfl

@[simp] theorem colls_countErr (s : State) (a ce ue : Nat) : (s.countErr a ce ue).colls = s.colls := by
  unfold countErr
  split
  · rfl
  · split <;> rfl

@[simp] theorem colls_readLine (s : State) (a master : Nat) : (s.readLine a master).2.colls = s.colls := by simp [readLine]

@[simp] theorem colls_raiseUe (s : State) (a master : Nat) : (s.raiseUe a master).colls = s.colls := by
  unfold raiseUe
  split <;> rfl

@[simp] theorem colls_collRead (s : State) (sl a : Nat) : (collRead s sl a).1.colls = s.colls := by
  unfold collRead
  split
  · rfl
  · dsimp only
    split <;> simp

theorem colls_readLenTable (sl entry base n : Nat) (s : State) (acc : List Nat) :
    (readLenTable sl entry base n s acc).1.colls = s.colls := by
  induction n generalizing s acc with
  | zero => rfl
  | succ n ih =>
    have hread := colls_collRead s sl (base + 64 * (acc.length / 8))
    rw [readLenTable]
    split
    · next h => exact (ih ..).trans (by rwa [h] at hread)
    · next h => exact (ih ..).trans (by rwa [h] at hread)

theorem colls_entryLengths (s : State) (sl k : Nat) (e : CollEntry) : (s.entryLengths sl k e).1.colls = s.colls := by
  unfold entryLengths
  split
  · rfl
  · split
    · rfl
    · exact colls_readLenTable ..

/-! ### The begin of an entry (R270) -/

/-- An entry that is taken up runs, and its trigger count has grown by its increment. -/
theorem coll_takeEntry (s : State) (sl k : Nat) (e : CollEntry) : (s.takeEntry sl k e).coll sl = { s.coll sl with
    run := some { entry := k, lengths := (s.entryLengths sl k e).2 }, last := k, linkFree := 2
    triggers := tset (s.coll sl).triggers k (tget (s.coll sl).triggers k e.triggerInit + BitVec.ofNat 32 e.triggerInc) } := by
  have hcoll : (s.entryLengths sl k e).1.coll sl = s.coll sl := by simp only [coll, colls_entryLengths]
  rw [takeEntry, coll_modColl, if_pos rfl, hcoll]

theorem entryDue_eq {s : State} {sl : Nat} {e : CollEntry} (hidle : (s.coll sl).run = none)
    (hjob : s.job.state = .running ∨ s.job.state = .paused ∨ s.job.state = .faulted) (hheld : s.entryHeld e = false) :
    s.entryDue sl e = (flagGe ((s.core e.triggerCore).flag e.triggerFlag)
      (tget (s.coll sl).triggers (s.coll sl).next e.triggerInit) && !(e.op == 6 && s.reshard.running)) := by
  have hstate : (s.job.state == .running || s.job.state == .paused || s.job.state == .faulted) = true := by
    rcases hjob with h | h | h <;> rw [h] <;> rfl
  simp only [entryDue, hidle, hstate, hheld, Option.isNone_none, Bool.true_and, Bool.not_false, Bool.and_true]

end State

section Begin
variable {s : State} {sl : SlopeId} {e : CollEntry} (hentry : (s.collTable sl)[(s.coll sl).next]? = some e)
include hentry

theorem execCollEntryBegin_notDue (hdue : s.entryDue sl e = false) : execCollEntryBegin sl s = .next s := by
  simp only [execCollEntryBegin, hentry, hdue, Bool.not_false, if_true]

variable (hdue : s.entryDue sl e = true)
include hdue

theorem execCollEntryBegin_starts (hop : e.op ≠ 6) {e' : CollEntry}
    (htaken : (s.takeEntry sl (s.coll sl).next e).collEntry? sl (s.coll sl).next = some e') : execCollEntryBegin sl s =
      .next ((s.takeEntry sl (s.coll sl).next e).startEntry sl e' (s.coll sl).next) := by
  simp only [execCollEntryBegin, hentry, hdue, hop, htaken, Bool.not_true, Bool.false_eq_true, if_false]

theorem execCollEntryBegin_votes (hop : e.op = 6) {u : State} {l : List Byte}
    (htable : (s.takeEntry sl (s.coll sl).next e).permTable sl e.lengths = (u, some l)) : execCollEntryBegin sl s =
      .next (u.reshardVoteBegin sl e.group e.lengths l
        (if stagingOk u (permEntries l.length l).1 then .ok else .reshardNoStaging) false) := by
  simp only [execCollEntryBegin, hentry, hdue, hop, htable, Bool.not_true, Bool.false_eq_true, if_false, if_true]

end Begin

/-! ### Chunks of the entry that runs (R272, R273) -/

/-- The chunk of a reduction from rank j is final, and does not come along the chain. -/
def finalFrom (s : State) (e : CollEntry) (run : CollRun) (chunk j : Nat) : Bool :=
  if e.op = 1 then j + 1 == (s.groupOf e).length && s.rankIn e + 1 != (s.groupOf e).length
  else (s.rankIn e == 0 && j + 1 == (s.groupOf e).length) || (run.sent.contains chunk && j + 1 == s.rankIn e)

section Running
variable {s u : State} {sl : SlopeId} {e : CollEntry} {entry : Nat} {run : CollRun} (hrun : (s.coll sl).run = some run)
  (hruns : run.entry = entry) (hentry : s.collEntry? sl entry = some e)
include hrun hruns hentry

section Data
variable {chunk j : Nat} {elems : List W32} (hheld : s.entryHeld e = false) (hmember : j < (s.groupOf e).length)
  (hother : j ≠ s.rankIn e) (htaken : s.takeChunk e ((s.groupOf e).getD j 0) entry chunk (padElems elems) = some u)
include hheld hmember hother htaken

section Reduction
variable (hop : e.op ≤ 1) {c : Nat × Nat × Nat} (hchunk : (s.reduceChunks e)[chunk]? = some c)
include hop hchunk

theorem execCollData_lands (hfinal : finalFrom s e run chunk j = true) :
    execCollData sl entry chunk j elems s = .next (finalHere u sl e entry chunk c.1 elems (e.op == 1)) := by
  have hcomes : ¬ ((s.groupOf e).length ≤ j ∨ j = s.rankIn e ∨ s.entryHeld e = true) := by simp [hheld, hother, hmember]
  unfold finalFrom at hfinal
  simp only [execCollData, hrun, hruns, hentry, hcomes, htaken, hop, hchunk, hfinal, ne_eq, not_true_eq_false, if_false, if_true]

/-- A chunk that comes along the chain is staged, once, while there is room. -/
theorem execCollData_stages (hfinal : finalFrom s e run chunk j = false) (hnext : j + 1 = s.rankIn e)
    (hsent : run.sent.contains chunk = false) (hnew : (run.staged.any fun x => x.1 == chunk) = false) (hroom : run.staged.length < 2) :
    execCollData sl entry chunk j elems s = .next ((u.modRun sl (runStaged (run.staged ++ [(chunk, elems)]))).feed sl) := by
  have hcomes : ¬ ((s.groupOf e).length ≤ j ∨ j = s.rankIn e ∨ s.entryHeld e = true) := by simp [hheld, hother, hmember]
  have hstays : ¬ (j + 1 ≠ s.rankIn e ∨ run.sent.contains chunk = true ∨ (run.staged.any fun x => x.1 == chunk) = true ∨
      2 ≤ run.staged.length) := by
    rw [hsent, hnew]
    simp [hnext, hroom]
  have hrunning : ¬ run.entry ≠ entry := not_not_intro hruns
  unfold finalFrom at hfinal
  simp only [execCollData, hrun, hrunning, hentry, hcomes, htaken, hop, hchunk, hfinal, hstays, Bool.false_eq_true, if_false, if_true]

end Reduction

/-- A moved chunk that meets no fault is written here. -/
theorem execCollData_moves (hop : 2 ≤ e.op) (helems : elems ≠ []) {v : State} (hland : moveLand u sl e j chunk elems = (v, .ok ())) :
    execCollData sl entry chunk j elems s = .next (v.modRun sl (runDone (moveKey j chunk))) := by
  have hcomes : ¬ ((s.groupOf e).length ≤ j ∨ j = s.rankIn e ∨ s.entryHeld e = true) := by simp [hheld, hother, hmember]
  have hmoves : ¬ e.op ≤ 1 := by omega
  have hfull : elems.isEmpty = false := List.isEmpty_eq_false_iff.mpr helems
  simp only [execCollData, hrun, hruns, hentry, hcomes, htaken, hmoves, hfull, hland, ne_eq, not_true_eq_false, if_false, Bool.false_and,
    Bool.false_eq_true]

end Data

theorem execCollCredit_grants {freed : Nat} {src : Option Nat} (htaken : s.takeColl e 0x11 entry freed = some (src, u)) :
    execCollCredit sl entry freed s = .next (u.linkGrant sl freed) := by
  simp only [execCollCredit, hrun, hruns, hentry, htaken, ne_eq, not_true_eq_false, if_false]

section Abort
variable {chunk : Nat} {src : Option Nat} (htaken : s.takeColl e 0x12 entry chunk = some (src, u)) (cause : Byte)
include htaken

theorem execCollAbort_passes (hop : e.op ≤ 1) (hfirst : run.aborted.contains chunk = false) :
    execCollAbort sl entry chunk cause s = .next (passAbort u sl e entry chunk cause.toNat (abortInChain u e run chunk)) := by
  simp only [execCollAbort, hrun, hruns, hentry, htaken, hop, hfirst, ne_eq, not_true_eq_false, if_false, if_true, Bool.false_eq_true]

theorem execCollAbort_loses {j : Nat} (hop : 1 < e.op) (hsrc : src = some j) (hfirst : run.aborted.contains (moveKey j chunk) = false) :
    execCollAbort sl entry chunk cause s = .next (moveLost u sl entry j chunk (u.rankIn e) cause.toNat) := by
  have hmoves : ¬ e.op ≤ 1 := by omega
  simp only [execCollAbort, hrun, hruns, hentry, htaken, hmoves, hsrc, hfirst, ne_eq, not_true_eq_false, if_false, Bool.false_eq_true,
    Option.orElse_some]

end Abort

end Running

/-! ### The chain (R272, R315) -/

section Chain
variable {s : State} {sl n : Nat} {e : CollEntry} {entry k : Nat} {chunks : List (Nat × Nat × Nat)} {run : CollRun} {vs : List W32}
  {l : List (Nat × List W32)} {c : Nat × Nat × Nat} (hrun : (s.coll sl).run = some run) (hstaged : run.staged = (k, vs) :: l)
  (hchunk : chunks[k]? = some c)
include hrun hstaged hchunk

/-- The first chunk staged goes on while this rank can take it through and the job does not drain. -/
theorem chainPass_staged : chainPass sl e entry chunks (n + 1) s =
    if s.job.state = .draining ∨ !chainReady s sl e c then s
    else chainPass sl e entry chunks n
      ((chainStage (s.modRun sl (runStaged l)) sl e entry k c vs).sendCredit sl e entry (s.rankIn e - 1) 1) := by
  simp only [chainPass, hrun, hstaged, hchunk]

end Chain

/-! ### Frames of an entry that does not run (R315) -/

section Stray
variable {s : State} {sl : SlopeId} (hidle : (s.coll sl).run = none)
include hidle

theorem execCollCredit_late (entry freed : Nat) : execCollCredit sl entry freed s = .next (s.lateCredit entry freed) := by
  simp [execCollCredit, hidle]

theorem execCollData_stray (entry chunk j : Nat) (elems : List W32) :
    execCollData sl entry chunk j elems s = .next (s.strayColl 0x10 entry) := by
  simp [execCollData, hidle]

theorem execCollAbort_stray (entry chunk : Nat) (cause : Byte) : execCollAbort sl entry chunk cause s = .next (s.strayColl 0x12 entry) := by
  simp [execCollAbort, hidle]

end Stray

namespace State

theorem lateCredit_taken {s u : State} {entry freed p : Nat} {f : Frame} (hframe : s.collFrame 0x11 entry freed = some (p, f))
    (htaken : s.takeFrame p f = some u) : s.lateCredit entry freed = u := by
  simp only [lateCredit, hframe, htaken, Option.getD_some]

theorem lateCredit_none {s : State} {entry freed : Nat} (hframe : s.collFrame 0x11 entry freed = none) : s.lateCredit entry freed = s := by
  simp only [lateCredit, hframe]

/-- A job that may begin the entry keeps its frames. -/
theorem strayColl_waits {s : State} (hjob : s.job.state = .loaded ∨ s.job.state = .running ∨ s.job.state = .paused ∨
    s.job.state = .faulted) (type entry : Nat) : s.strayColl type entry = s := by
  rcases hjob with h | h | h | h <;> simp [strayColl, h]

theorem strayColl_drops {s : State} (hjob : s.job.state = .halted ∨ s.job.state = .empty) (type entry : Nat) :
    s.strayColl type entry = s.dropColl type entry := by
  rcases hjob with h | h <;> simp [strayColl, h]

/-! ### Aborts write no memory (R275) -/

@[simp] theorem mem_modRun (s : State) (sl : Nat) (f : CollRun → CollRun) : (s.modRun sl f).mem = s.mem := rfl

@[simp] theorem mem_sendAbort (s : State) (sl : Nat) (e : CollEntry) (entry rank k cause : Nat) :
    (s.sendAbort sl e entry rank k cause).mem = s.mem := by
  unfold sendAbort sendColl
  split
  · rfl
  · exact mem_sendFrame ..

@[simp] theorem mem_abortEvent (s : State) (sl entry k cause r : Nat) : (s.abortEvent sl entry k cause r).mem = s.mem := by
  unfold abortEvent
  exact (apply_ite State.mem ..).trans (ite_self _)

theorem mem_passAbort (s : State) (sl : Nat) (e : CollEntry) (entry k cause : Nat) (chain : Bool) :
    (passAbort s sl e entry k cause chain).mem = s.mem := by
  unfold passAbort
  dsimp only
  repeat' split
  all_goals simp only [mem_sendAbort, mem_modRun, mem_abortEvent]

/-! ### The end of an entry (R270) -/

@[simp] theorem coll_incFlag (s : State) (n k : Nat) (a : W32) (sl : Nat) : (s.incFlag n k a).coll sl = s.coll sl := by
  unfold incFlag
  split <;> rfl

/-- The entry that ran has ended, and the one behind it in the table is next. -/
def endEntry (s : State) (sl : Nat) (run : CollRun) : State :=
  s.modColl sl fun c =>
    { c with run := none, last := run.entry, next := (run.entry + 1) % max 1 (s.collTable sl).length, linkFree := 2 }

@[simp] theorem coll_endEntry (s : State) (sl : Nat) (run : CollRun) : (s.endEntry sl run).coll sl =
    { s.coll sl with run := none, last := run.entry, next := (run.entry + 1) % max 1 (s.collTable sl).length, linkFree := 2 } := by
  simp [endEntry]

end State

theorem execCollEntryComplete_done {s : State} {sl : SlopeId} {e : CollEntry} {run : CollRun} (hrun : (s.coll sl).run = some run)
    (hentry : s.collEntry? sl run.entry = some e) (hdone : s.entryDone sl e run = true) :
    execCollEntryComplete sl s = .next ((s.endEntry sl run).incFlag e.doneCore e.doneFlag 1) := by
  simp only [execCollEntryComplete, hrun, hentry, hdone, if_true]
  rfl

/-! ### The end of a lend window (R268) -/

section Lend
variable {s : State} {sl : SlopeId} {e : CollEntry} {k : Nat} (hall : ∀ x, x ∈ (s.coll sl).lend → x.2 = k)
  (hentry : s.collEntry? sl k = some e)
include hall hentry

/-- The windows of one entry end together. -/
theorem execLendWindowEnd_ends (hopen : (s.coll sl).lend ≠ [])
    (htrigger : flagGe ((s.core e.endCore).flag e.endFlag) e.endCount = true) :
    execLendWindowEnd sl s = .next (s.modColl sl fun c => { c with lend := c.lend.filter fun y => y.2 != k }) := by
  obtain ⟨x, l, hlend⟩ := List.exists_cons_of_ne_nil hopen
  obtain rfl := hall x (hlend ▸ List.mem_cons_self)
  simp only [execLendWindowEnd, hlend, List.find?_cons, hentry, htrigger]

theorem execLendWindowEnd_waits (htrigger : flagGe ((s.core e.endCore).flag e.endFlag) e.endCount = false) :
    execLendWindowEnd sl s = .next s := by
  unfold execLendWindowEnd
  dsimp only
  split
  · next x hdue =>
    have hends := List.find?_some hdue
    simp [hall x (List.mem_of_find?_eq_some hdue), hentry, htrigger] at hends
  · rfl

end Lend

end Sys2Proof.Machine

open Sys2Proof Sys2Proof.Machine

/-- Settles O39: an entry begins when it is due (`State.entryDue_eq`), and every other event of the engine by the rule of its case. -/
theorem collectiveSequencer : Obligations.CollectiveSequencer := by
  refine ⟨?begins, ?stages, ?chain, ?final, ?moves, ?credit, ?stray, ?abort, ?completes, ?lend⟩
  case begins =>
    rintro s t sl e k count rfl hentry rfl hidle hjob hheld rfl
    have hdue := State.entryDue_eq hidle hjob hheld
    rw [State.coll_takeEntry]
    refine ⟨fun hflag hop e' htaken => ?_, fun hflag hop hfree u l htable => ?_, fun hflag => ?_, tget_tset_same .., rfl, rfl, rfl⟩
    · exact execCollEntryBegin_starts hentry (by simp [hdue, hflag, hop]) hop htaken
    · exact execCollEntryBegin_votes hentry (by simp [hdue, hflag, hfree]) hop htable
    · exact execCollEntryBegin_notDue hentry (by simp [hdue, hflag])
  case stages =>
    rintro s u sl e entry chunk r N run elems c hrun hruns hentry hheld rfl rfl hlater hmember hop hsent hchunk hnew hfree htaken
    have hfinal : finalFrom s e run chunk (s.rankIn e - 1) = false := by
      have hlast : s.rankIn e - 1 + 1 ≠ (s.groupOf e).length := by omega
      rw [finalFrom, hsent]
      split
      · simp [hlast]
      · simp [Nat.ne_of_gt hlater]
    exact execCollData_stages hrun hruns hentry hheld (by omega) (by omega) htaken hop hchunk hfinal (by omega) hsent hnew hfree
  case chain =>
    intro s sl n e entry k chunks run vs l c hrun hstaged hchunk
    have hpass := chainPass_staged (n := n) (e := e) (entry := entry) hrun hstaged hchunk
    refine ⟨fun hjob hready => hpass.trans (if_neg (by simp [hjob, hready])), fun h => hpass.trans (if_pos ?_)⟩
    simpa using h
  case final =>
    rintro s u sl e entry chunk N run elems c hrun hruns hentry hheld rfl hmember hchunk htaken
    have hlast : (s.groupOf e).length - 1 + 1 = (s.groupOf e).length := by omega
    refine ⟨fun hop => ?_, fun hop hroot => ?_⟩
    · have hfinal : finalFrom s e run chunk ((s.groupOf e).length - 1) = true := by
        simp [finalFrom, hop, hlast, Nat.ne_of_lt hmember]
      rw [exec_collData, execCollData_lands hrun hruns hentry hheld (by omega) (by omega) htaken (by omega) hchunk hfinal, hop]
      rfl
    · have hfinal : finalFrom s e run chunk ((s.groupOf e).length - 1) = true := by
        simp [finalFrom, hop, hlast, hroot]
      rw [exec_collData, execCollData_lands hrun hruns hentry hheld (by omega) (by omega) htaken (by omega) hchunk hfinal, hop]
      rfl
  case moves =>
    intro s u v sl e entry chunk j run elems hrun hruns hentry hheld hop helems hmember hother htaken hland
    exact execCollData_moves hrun hruns hentry hheld hmember hother htaken hop helems hland
  case credit =>
    intro s u sl e entry freed run src hrun hruns hentry htaken
    exact execCollCredit_grants hrun hruns hentry htaken
  case stray =>
    intro s sl entry chunk j freed elems cause hidle
    rw [exec_collCredit, exec_collData, exec_collAbort, execCollCredit_late hidle, execCollData_stray hidle, execCollAbort_stray hidle]
    refine ⟨fun p f u hframe htaken => ?_, fun hframe => ?_, fun hjob => ?_, fun hjob => ?_⟩
    · rw [State.lateCredit_taken hframe htaken]
    · rw [State.lateCredit_none hframe]
    · rw [State.strayColl_waits hjob, State.strayColl_waits hjob]
      exact ⟨rfl, rfl⟩
    · rw [State.strayColl_drops hjob, State.strayColl_drops hjob]
      exact ⟨rfl, rfl⟩
  case abort =>
    intro s u sl e entry chunk cause run src hrun hruns hentry htaken
    refine ⟨fun hop hfirst => ?_, fun j hop hsrc hfirst => ?_⟩
    · exact ⟨_, execCollAbort_passes hrun hruns hentry htaken cause hop hfirst, rfl, State.mem_passAbort ..⟩
    · exact execCollAbort_loses hrun hruns hentry htaken cause hop hsrc hfirst
  case completes =>
    intro s sl e run hrun hentry hdone hrole
    refine ⟨_, execCollEntryComplete_done hrun hentry hdone, ?_, ?_, ?_, ?_, State.mem_incFlag ..⟩
    · rw [State.coll_incFlag, State.coll_endEntry]
    · rw [State.coll_incFlag, State.coll_endEntry]
    · rw [State.coll_incFlag, State.coll_endEntry]
    · exact State.flag_incFlag (s := s.endEntry sl run) hrole ..
  case lend =>
    intro s sl e k hopen hall hentry
    refine ⟨fun htrigger => ⟨_, execLendWindowEnd_ends hall hentry hopen htrigger, ?_, rfl⟩, execLendWindowEnd_waits hall hentry⟩
    rw [State.coll_modColl, if_pos rfl]
    exact List.filter_eq_nil_iff.mpr fun x hx => by simp [hall x hx]

end

section
/-! Resets and the bypass (O48, O54): each statement fails at one clause, shown by a state that meets the clause's hypotheses. -/

namespace Sys2Proof.Machine

/-! ### A warm reset that waits for the drain of an axis (R264, R303) -/

/-- A warm reset of the owner is answered and asked for; the held commands that it frees follow. -/
theorem exec_moduleWarmReset_of_turn {s u : State} {ss q : Nat} (t : Turn s ss q u) (howner : u.isOwner ss = true) :
    exec (.moduleWarmReset ss) s = followed ((u.reply ss q 0x15 .ok).askWarmReset none) ss := by
  rw [exec_moduleWarmReset, execModuleWarmReset, runRow_of_turn t]
  simp [opReset, State.turnAway, howner]

/-- Axis 0 is open, and the owner has opened session 1. -/
def openState : State :=
  { fabric := { open_ := 1 }
    rcp := { sessions := [{ id := 1, owner := true, src := 0, port := 0, notify := false, lastSeq := 0, noticed := 0 }] } }

/-- STATUS as command 2 of session 1 (Table 14-1): the header, no payload, and its CRC. -/
def statusDatagram : List Byte :=
  leBytes 2 0x4B4E ++ [1, 0x03] ++ leBytes 4 0 ++ leBytes 4 1 ++ leBytes 4 0 ++ leBytes 8 2 ++ leBytes 8 0 ++ leBytes 4 (crc32c []).toNat

/-- The STATUS has come before command 1, and session 1 holds it (R303). -/
def holdingState : State := openState.onDatagram 0 0 statusDatagram

/-- The module as the warm reset of `holdingState` leaves it, before any held command. -/
def askedState : State := ((holdingState.advance 1 1).reply 1 1 0x15 .ok).askWarmReset none

theorem turn_holdingState : Turn holdingState 1 1 (holdingState.advance 1 1) := ⟨_, rfl, rfl, rfl⟩

theorem isOwner_holdingState : (holdingState.advance 1 1).isOwner 1 = true := by decide

theorem hostSeq_askedState : askedState.rcp.hostSeq = 1 := by decide

theorem hostSeq_drainHeld_askedState : (askedState.drainHeld State.holdLimit 1).rcp.hostSeq = 2 := by decide

/-! ### A port in fault stays in fault when its axis closes (R263, R264) -/

/-- Axis 0 is open, both its ports up. -/
def litAxis : State := { ports := [(0, { state := 2 }), (1, { state := 2 })], fabric := { open_ := 1 } }

/-- Port 0 has failed, and the drain of its axis has lasted for 1 ms. -/
def faultedAxis : State := { litAxis.portFault 0 with clock := 1000000 }

theorem drained_faultedAxis : faultedAxis.drained 0 = true := by decide

theorem execBypassDrainComplete_faultedAxis :
    ∃ t, execBypassDrainComplete 0 faultedAxis = .next t ∧ (t.port 0).state = 4 := ⟨_, rfl, by decide⟩

end Sys2Proof.Machine

open Sys2Proof Sys2Proof.Machine

/-- Refutes O48: while the warm reset waits for the drain of an open axis its session stands, and the session's held STATUS, whose turn
has come, executes in the same step; the statement leaves the held commands out. -/
theorem not_resetCommands : ¬ Obligations.ResetCommands := by
  unfold Obligations.ResetCommands
  rintro ⟨hcommands, -⟩
  have hclaimed := (hcommands holdingState _ 1 1 turn_holdingState isOwner_holdingState).1
  rw [exec_moduleWarmReset_of_turn turn_holdingState isOwner_holdingState] at hclaimed
  have hsame : askedState.drainHeld State.holdLimit 1 = askedState := Host.Outcome.next.inj hclaimed
  have hseq := hostSeq_drainHeld_askedState
  rw [hsame, hostSeq_askedState] at hseq
  exact absurd hseq (by decide)

/-- Refutes O54: a port in fault, whose axis closes after its drain (R263), stays in state 4 where the statement asks for 0. -/
theorem not_bypassCommands : ¬ Obligations.BypassCommands := by
  unfold Obligations.BypassCommands
  rintro ⟨-, -, hcloses⟩
  obtain ⟨t, hexec, hfault⟩ := execBypassDrainComplete_faultedAxis
  obtain ⟨v, hclaimed, -, hdark, -⟩ := hcloses faultedAxis 0 drained_faultedAxis rfl
  obtain rfl : t = v := Host.Outcome.next.inj (hexec.symm.trans hclaimed)
  exact absurd (hfault.symm.trans hdark) (by decide)

end

section
/-! Sessions of the host (O44): what the table of sessions shows after each of its updates, said once, and the order of a session's
commands (R303, R304). -/

namespace Sys2Proof.Machine

namespace State

/-! ### The table of sessions -/

theorem session?_id {s : State} {ss : Nat} {x : Session} (h : s.session? ss = some x) : x.id = ss := by
  simpa using List.find?_some h

/-- An update of a session that leaves its id. -/
theorem session?_modSession {s : State} {ss : Nat} {x : Session} (h : s.session? ss = some x) {f : Session → Session}
    (hid : ∀ y, (f y).id = y.id) : (s.modSession ss f).session? ss = some (f x) := by
  have hsame : ((fun y : Session => y.id == ss) ∘ fun y => if y.id = ss then f y else y) = fun y => y.id == ss := by
    funext y
    by_cases hy : y.id = ss <;> simp [hy, hid]
  have hfound : s.rcp.sessions.find? (fun y => y.id == ss) = some x := h
  simp only [session?, modSession, List.find?_map, hsame, hfound, Option.map_some, session?_id h, if_true]

/-- R302: a closed session is in the table no more. -/
theorem session?_endSession (s : State) (ss cause : Nat) : (s.endSession ss cause).session? ss = none := by
  unfold endSession
  split
  · assumption
  · simp [session?]

theorem tx_endSession (s : State) (ss cause : Nat) : (s.endSession ss cause).rcp.tx = s.rcp.tx := by
  unfold endSession
  split <;> rfl

/-- A session that is closed holds no command. -/
theorem drainHeld_closed {s : State} {ss : Nat} (h : s.session? ss = none) (n : Nat) : s.drainHeld n ss = s := by
  cases n with
  | zero => rfl
  | succ n => simp only [drainHeld, h]

/-! ### The order of a session's commands (R303, R304) -/

section Order
variable {s : State} {x : Session} {q : Nat} (d : List Byte)

theorem ordered_next (h : q = x.lastSeq + 1) : s.ordered x q d = (s.runNext x.id q d).drainHeld holdLimit x.id := by
  simp only [ordered, if_pos h]

theorem ordered_early (hlo : x.lastSeq + 1 < q) (hhi : q ≤ x.lastSeq + 1024) (hnew : (x.holdQ.any fun h => h.1 == q) = false) :
    s.ordered x q d = s.modSession x.id fun y => { y with holdQ := y.holdQ ++ [(q, d)] } := by
  have hturn : ¬ q = x.lastSeq + 1 := by omega
  have hroom : ¬ x.lastSeq + holdLimit < q := Nat.not_lt.mpr hhi
  have hahead : x.lastSeq < q := by omega
  simp only [ordered, hturn, hroom, hahead, hnew, if_true, if_false, Bool.false_eq_true]

theorem ordered_beyond (h : x.lastSeq + 1024 < q) :
    s.ordered x q d = s.bareReply x.src x.port (natAt d 3 1) .busy x.id q := by
  have hturn : ¬ q = x.lastSeq + 1 := by omega
  have hfull : x.lastSeq + holdLimit < q := h
  simp only [ordered, hturn, hfull, if_true, if_false]

theorem ordered_repeat {c : Nat × Reply} (h : q ≤ x.lastSeq)
    (hcached : x.cache.find? (fun c => c.1 == q && decide (x.lastSeq < q + 256)) = some c) :
    s.ordered x q d = s.send { c.2 with dst := x.src, port := x.port } := by
  have hturn : ¬ q = x.lastSeq + 1 := by omega
  have hroom : ¬ x.lastSeq + holdLimit < q := by omega
  have hpast : ¬ x.lastSeq < q := by omega
  simp only [ordered, hturn, hroom, hpast, hcached, if_false]

end Order

end State

end Sys2Proof.Machine

open Sys2Proof Sys2Proof.Machine

/-- Settles O44: the sequence number decides the branch of `State.ordered`, and the table of sessions shows what it leaves. -/
theorem sessionOrder : Obligations.SessionOrder := by
  intro s x q d hx
  refine ⟨State.ordered_next d, fun hlo hhi hnew => ?early, fun hbeyond => ?beyond, fun c hpast hcached => ?again⟩
  case early =>
    rw [State.ordered_early d hlo hhi hnew]
    exact ⟨State.session?_modSession hx fun _ => rfl, rfl⟩
  case beyond =>
    rw [State.ordered_beyond d hbeyond]
    exact ⟨_, rfl, rfl, hx⟩
  case again =>
    rw [State.ordered_repeat d hpast hcached]
    exact ⟨rfl, rfl, rfl, rfl⟩

end

section
/-! The host port (O43): the frames that it takes (R294, R295), the PTP master (R296), and the opening, resuming, closing and timers of
a session (R300 to R302, R307, R308), over the rules of the table of sessions. -/

namespace Sys2Proof.Machine

namespace State

/-! ### Frames (R294, R295) -/

section Frames
variable {s : State} {f : EthFrame} (hport : s.ready.hostPort = true)
include hport

theorem onFrame_refuses (htaken : s.frameTaken f = false) (mine : Bool) (act : State → State) :
    s.onFrame f mine act = .next s.dropFrame := by
  simp [onFrame, hport, htaken]

theorem onFrame_acts (htaken : s.frameTaken f = true) {mine : Bool} (hmine : mine = true) (act : State → State) :
    s.onFrame f mine act = .next (act s) := by
  simp [onFrame, hport, htaken, hmine]

theorem exec_rcpMessage_refused (hrefused : s.frameTaken f = false) : exec (.rcpMessage f) s = .next s.dropFrame := by
  rw [exec_rcpMessage, execRcpMessage, onFrame_refuses hport hrefused]

variable (htaken : s.frameTaken f = true)
include htaken

theorem exec_rcpMessage_taken (hkind : f.kind = .udp) (hdst : f.dstPort = s.rcp.udpPort.toNat) :
    exec (.rcpMessage f) s = .next (s.onDatagram f.srcAddr f.srcPort f.data) := by
  rw [exec_rcpMessage, execRcpMessage, onFrame_acts hport htaken (by simp [hkind, hdst])]

theorem exec_arpNdRequest_taken (hkind : f.kind = .arpNd) (target : BitVec 128) :
    exec (.arpNdRequest f target) s = .next (if s.ownAddress target then
      s.answerFrame f .arpNdReply (leBytes 16 target.toNat ++ leBytes 6 hostMac) else s) := by
  rw [exec_arpNdRequest, execArpNdRequest, onFrame_acts hport htaken (by simp [hkind])]

theorem exec_icmpEcho_taken (hkind : f.kind = .icmpEcho) :
    exec (.icmpEcho f) s = .next (s.answerFrame f .echoReply f.data) := by
  rw [exec_icmpEcho, execIcmpEcho, onFrame_acts hport htaken (by simp [hkind])]

theorem exec_dhcpMessage_router (hkind : f.kind = .arpNd) (a : BitVec 128) :
    exec (.dhcpMessage f .router a) s = .next { s with rcp :=
      { s.rcp with addr6 := some (BitVec.ofNat 128 (a.toNat / 2 ^ 64 * 2 ^ 64 + interfaceId)) } } := by
  rw [exec_dhcpMessage, execDhcpMessage, if_pos rfl, onFrame_acts hport htaken (by simp [hkind])]

/-- R295: a server's message comes to the DHCPv4 client of an address that is not static. -/
theorem exec_dhcpMessage_client (hkind : f.kind = .udp) (hdst : f.dstPort = 68) (hclient : s.rcp.static = false) {kind : DhcpKind}
    (hserver : kind ≠ .router) (a : BitVec 128) :
    exec (.dhcpMessage f kind a) s = .next (s.dhcpAnswer kind (a.setWidth 32)) := by
  rw [exec_dhcpMessage, execDhcpMessage, if_neg hserver, onFrame_acts hport htaken (by simp [hkind, hdst, hclient])]

end Frames

/-! #### What the client does with each message -/

section Dhcp
variable {s : State}

theorem dhcpAnswer_offer (h : s.rcp.dhcp = .selecting) (a : W32) : s.dhcpAnswer .offer a =
    ({ s with rcp := { s.rcp with dhcp := .requesting a } } : State).sendNet .dhcpRequest 0xFFFFFFFF
      (leBytes 6 hostMac ++ leBytes 4 a.toNat) := by
  simp only [dhcpAnswer, h]

theorem dhcpAnswer_ack {b : W32} (h : s.rcp.dhcp = .requesting b) (a : W32) : s.dhcpAnswer .ack a =
    if a = b then { s with rcp := { s.rcp with addr := a, dhcp := .bound } } else s := by
  simp only [dhcpAnswer, h]

theorem dhcpAnswer_nak {b : W32} (h : s.rcp.dhcp = .requesting b) (a : W32) : s.dhcpAnswer .nak a = s.dhcpDiscover := by
  simp only [dhcpAnswer, h]

theorem dhcpAnswer_ack_unasked (h : s.rcp.dhcp = .selecting) (a : W32) : s.dhcpAnswer .ack a = s := by
  simp only [dhcpAnswer, h]

end Dhcp

/-! ### The PTP master (R296) -/

/-- The measurement of an offset: the first one steps the timebase, a later one leaves it the offset to work off. -/
def ptpMeasured (s : State) (offset : Int) : State :=
  { s with
    timebase := if s.rcp.everLocked then s.timebase else (s.timebase - offset).toNat
    rcp := { s.rcp with ptpLocked := true, everLocked := true, ptpOffset := BitVec.ofInt 32 offset
                        ptpSlew := if s.rcp.everLocked then offset else 0 } }

section Ptp
variable {s : State}

/-- The exchange with the followed master asks it for the delay, and a lock raises PTP_LOCK. -/
theorem ptpSync_eq {b : PtpMaster} (hmaster : s.rcp.ptpMaster = some b) (offset : Int) : s.ptpSync offset =
    if s.rcp.ptpLocked then (s.ptpMeasured offset).sendNet .ptpDelayReq b.identity []
    else ((s.ptpMeasured offset).sendNet .ptpDelayReq b.identity []).raise 0x5 0 0 [] := by
  cases hever : s.rcp.everLocked <;> cases hlocked : s.rcp.ptpLocked <;>
    simp [ptpSync, ptpMeasured, hmaster, hever, hlocked]

theorem rcp_ptpSync {b : PtpMaster} (hmaster : s.rcp.ptpMaster = some b) (offset : Int) :
    (s.ptpSync offset).rcp = ((s.ptpMeasured offset).sendNet .ptpDelayReq b.identity []).rcp := by
  rw [ptpSync_eq hmaster]
  split <;> rfl

theorem timebase_ptpSync {b : PtpMaster} (hmaster : s.rcp.ptpMaster = some b) (offset : Int) :
    (s.ptpSync offset).timebase = if s.rcp.everLocked then s.timebase else (s.timebase - offset).toNat := by
  rw [ptpSync_eq hmaster]
  split <;> rfl

theorem exists_record_ptpSync {b : PtpMaster} (hmaster : s.rcp.ptpMaster = some b) (hfree : s.rcp.ptpLocked = false) (offset : Int) :
    ∃ e, e ∈ (s.ptpSync offset).log.records ∧ e.code = 0x5 := by
  rw [ptpSync_eq hmaster, hfree]
  exact exists_record_raise ..

theorem ptpAnnounce_first (hnone : s.rcp.ptpMaster = none) (rank : List Nat) (master : Nat) : s.ptpAnnounce rank master =
    { s with rcp := { s.rcp with ptpMaster := some { rank := rank, identity := master, heard := s.clock } } } := by
  simp only [ptpAnnounce, hnone]

theorem ptpFrame {f : EthFrame} (hkind : f.kind = .udp) (hdst : f.dstPort = 319 ∨ f.dstPort = 320) :
    (f.kind == .udp && (f.dstPort == 319 || f.dstPort == 320)) = true := by
  simpa [hkind] using hdst

variable {f : EthFrame} (hport : s.ready.hostPort = true) (htaken : s.frameTaken f = true) (hkind : f.kind = .udp)
  (hdst : f.dstPort = 319 ∨ f.dstPort = 320)
include hport htaken hkind hdst

theorem exec_ptpMessage_sync {b : PtpMaster} (hmaster : s.rcp.ptpMaster = some b) (offset : Int) :
    exec (.ptpMessage f (.sync s.rcp.ptpDomain b.identity offset)) s = .next (s.ptpSync offset) := by
  rw [exec_ptpMessage, execPtpMessage, onFrame_acts hport htaken (ptpFrame hkind hdst)]
  simp [hmaster]

theorem exec_ptpMessage_announce (rank : List Nat) (master : Nat) :
    exec (.ptpMessage f (.announce s.rcp.ptpDomain rank master)) s = .next (s.ptpAnnounce rank master) := by
  rw [exec_ptpMessage, execPtpMessage, onFrame_acts hport htaken (ptpFrame hkind hdst)]
  simp

theorem exec_ptpMessage_elsewhere {d : Byte} (hd : d ≠ s.rcp.ptpDomain) (master : Nat) (offset : Int) :
    exec (.ptpMessage f (.sync d master offset)) s = .next s := by
  rw [exec_ptpMessage, execPtpMessage, onFrame_acts hport htaken (ptpFrame hkind hdst)]
  simp [hd]

end Ptp

/-! ### Opening, resuming and closing (R300 to R302) -/

theorem ownerProof_unsigned {s : State} (h : s.sec.policy.getLsbD 1 = false) (p : List Byte) :
    s.ownerProof true p = (true, s.vote 3) := by
  simp only [ownerProof, sec_vote, h, if_true, if_false, Bool.false_eq_true]

theorem ownerProof_signed {s : State} (h : s.sec.policy.getLsbD 1 = true) (p : List Byte) :
    s.ownerProof true p = ((s.vote 3).openSigned p, (s.vote 3).nextChallenge) := by
  simp only [ownerProof, sec_vote, h, if_true]

/-- The session has moved to the source of its resume. -/
def moved (s : State) (ss src port : Nat) (notify : Bool) : State :=
  s.modSession ss fun y => { y with src := src, port := port, notify := notify }

section Opening
variable {s : State} {src port q : Nat} {notify : Bool} {p : List Byte} (hform : openForm p = true)
include hform

theorem opOpen_repeat {r : Reply} (hrep : s.repeated src port (natAt p 8 8) = some r) :
    s.opOpen src port q notify p = s.send r := by
  simp [opOpen, hform, hrep]

theorem opResume_repeat {r : Reply} (hrep : s.repeated src port (natAt p 8 8) = some r) :
    s.opResume src port q notify p = s.send r := by
  simp [opResume, hform, hrep]

variable (hnew : s.repeated src port (natAt p 8 8) = none)
include hnew

theorem opOpen_observer (hrole : natAt p 0 1 = 1) (hroom : s.observers < 4) :
    s.opOpen src port q notify p = s.newSession src port q notify false (natAt p 8 8) := by
  simp [opOpen, hform, hnew, hrole, hroom, ownerProof]

/-- R301: with no owner, an owner opens, if the proof that the policy asks for holds. -/
theorem opOpen_owner (hrole : natAt p 0 1 = 0) (hnone : s.owner? = none) :
    s.opOpen src port q notify p = if (s.ownerProof true p).1
      then (s.ownerProof true p).2.newSession src port q notify true (natAt p 8 8)
      else (s.ownerProof true p).2.openReply src port q (natAt p 8 8) .signature 0 [] := by
  cases hproof : s.ownerProof true p with
  | mk ok u => cases ok <;> simp [opOpen, hform, hnew, hrole, hnone, hproof]

theorem opResume_observer {x : Session} (hx : s.session? (natAt p 16 4) = some x) (hrole : natAt p 0 1 = 1) (howner : x.owner = false) :
    s.opResume src port q notify p =
      (s.moved (natAt p 16 4) src port notify).openReply src port q (natAt p 8 8) .ok (natAt p 16 4)
        ((s.moved (natAt p 16 4) src port notify).openBytes (natAt p 16 4) x.lastSeq) := by
  simp [opResume, hform, hnew, hx, hrole, howner, ownerProof, moved]

end Opening

/-! ### Timers of a session (R303, R307, R308) -/

/-- The module after the gap below a held command has stayed open for too long: the command is dropped and counted. -/
def dropHeld (s : State) (ss q : Nat) : State :=
  let t := s.modSession ss fun y => { y with holdQ := y.holdQ.filter fun h => h.1 != q }
  { t with rcp := { t.rcp with reorderDrop := sat32 t.rcp.reorderDrop 1 } }

section Timers
variable {s : State} {ss : Nat} {x : Session} (hx : s.session? ss = some x)
include hx

theorem execEventNotice_due (hnotify : x.notify = true) (hnewer : x.noticed < s.log.newest) :
    execEventNotice ss s = .next ((s.bareReply x.src x.port 0x40 .ok ss 0).modSession ss
      fun y => { y with noticed := s.log.newest }) := by
  simp [execEventNotice, hx, hnotify, hnewer, bareReply, send]

theorem execReorderTimeout_held {q : Nat} (hheld : (x.holdQ.any fun h => h.1 == q) = true) :
    execReorderTimeout ss q s = .next (s.dropHeld ss q) := by
  simp only [execReorderTimeout, hx, hheld, if_true, dropHeld]

theorem session?_dropHeld (q : Nat) :
    (s.dropHeld ss q).session? ss = some { x with holdQ := x.holdQ.filter fun h => h.1 != q } :=
  session?_modSession (f := fun y => { y with holdQ := y.holdQ.filter fun h => h.1 != q }) hx fun _ => rfl

end Timers

end State

section Turns
variable {s u : State} {ss q : Nat} (t : Turn s ss q u)
include t

/-- R302: a session closes after its answer, and none of its held commands executes. -/
theorem exec_closeSession_of_turn : exec (.closeSession ss) s = .next ((u.reply ss q 0x02 .ok).endSession ss 0) := by
  rw [exec_closeSession, execCloseSession, runRow_of_turn t, opCloseSession, followed, State.drainHeld_closed (State.session?_endSession ..)]

theorem exec_statusCmd_of_turn (hss : ss ≠ 0) : exec (.statusCmd ss) s = answered u ss q 0x03 (statusBytes u) := by
  rw [exec_statusCmd, execStatusCmd, if_neg hss, runRow_of_turn t]
  rfl

end Turns

end Sys2Proof.Machine

open Sys2Proof Sys2Proof.Machine

/-- Settles O43: a frame of its protocol comes to its operation (`State.onFrame_acts`), each opening takes one branch of its operation,
and the table of sessions shows what a session's commands and timers leave. -/
theorem hostPortAndSessions : Obligations.HostPortAndSessions := by
  refine ⟨fun s f hport => ⟨fun hrefused => ?refused, fun htaken => ⟨fun hkind hdst => ?datagram, fun hkind target => ⟨fun hown => ?arp,
      fun hother => ?arpOther, ?router⟩, fun hkind => ?echo, fun a b hkind hdst hclient => ?dhcp, fun hkind hdst => ?ptp⟩⟩,
    ?repeated, ?opens, ?resumes, ?closes, fun s u ss q t hss => exec_statusCmd_of_turn t hss, ?status, ?timers,
    fun s => ⟨_, rfl, rfl, rfl⟩⟩
  case refused => exact ⟨_, State.exec_rcpMessage_refused hport hrefused, rfl, rfl⟩
  case datagram => exact State.exec_rcpMessage_taken hport htaken hkind hdst
  case arp => exact ⟨_, (State.exec_arpNdRequest_taken hport htaken hkind target).trans (by rw [if_pos hown]), rfl, rfl⟩
  case arpOther => rw [State.exec_arpNdRequest_taken hport htaken hkind, hother]; rfl
  case router => exact ⟨_, State.exec_dhcpMessage_router hport htaken hkind target, rfl, rfl⟩
  case echo => exact ⟨_, State.exec_icmpEcho_taken hport htaken hkind, rfl, rfl⟩
  case dhcp =>
    have hexec {kind : DhcpKind} (hserver : kind ≠ .router) := State.exec_dhcpMessage_client hport htaken hkind hdst hclient hserver a
    refine ⟨fun hselecting => ?_, fun hrequesting => ⟨fun hsame => ?_, fun hother => ?_, ?_⟩, fun hselecting => ?_⟩
    · rw [hexec (by decide), State.dhcpAnswer_offer hselecting]
      exact ⟨_, rfl, rfl, rfl, rfl⟩
    · rw [hexec (by decide), State.dhcpAnswer_ack hrequesting, if_pos hsame]
      exact ⟨_, rfl, hsame, rfl, rfl⟩
    · rw [hexec (by decide), State.dhcpAnswer_ack hrequesting, if_neg hother]
    · rw [hexec (by decide), State.dhcpAnswer_nak hrequesting]
    · rw [hexec (by decide), State.dhcpAnswer_ack_unasked hselecting]
  case ptp =>
    refine ⟨fun b offset hmaster => ?_, fun rank master hnone => ?_, fun d master offset hd =>
      State.exec_ptpMessage_elsewhere hport htaken hkind hdst hd master offset⟩
    · have hrcp := State.rcp_ptpSync hmaster offset
      have htime := State.timebase_ptpSync hmaster offset
      refine ⟨_, State.exec_ptpMessage_sync hport htaken hkind hdst hmaster offset, ?_, ?_, fun hever => ⟨?_, ?_⟩, fun hfirst => ?_,
        fun hfree => State.exists_record_ptpSync hmaster hfree offset⟩
      · rw [hrcp]; rfl
      · rw [hrcp]; rfl
      · rw [htime, if_pos hever]
      · rw [hrcp]; exact if_pos hever
      · rw [htime, hfirst]
        simp only [Bool.false_eq_true, if_false]
        omega
    · rw [State.exec_ptpMessage_announce hport htaken hkind hdst, State.ptpAnnounce_first hnone]
      exact ⟨_, rfl, rfl, rfl⟩
  case repeated =>
    intro s src port q notify p r hport hform hrep
    rw [exec_openSession, execOpenSession, if_pos hport, State.opOpen_repeat hform hrep,
      exec_sessionResume, execSessionResume, if_pos hport, State.opResume_repeat hform hrep]
    exact ⟨rfl, rfl⟩
  case opens =>
    intro s src port q notify p hport hform hnew
    rw [exec_openSession, execOpenSession, if_pos hport]
    refine ⟨fun hrole hroom => ?_, fun hrole hnone hpolicy => ?_, fun hrole hnone hpolicy => ?_⟩
    · rw [State.opOpen_observer hform hnew hrole hroom]
    · rw [State.opOpen_owner hform hnew hrole hnone, State.ownerProof_unsigned hpolicy, if_pos rfl]
    · rw [State.opOpen_owner hform hnew hrole hnone, State.ownerProof_signed hpolicy]
  case resumes =>
    intro s src port q notify p x hport hform hnew hx hrole howner
    rw [exec_sessionResume, execSessionResume, if_pos hport, State.opResume_observer hform hnew hx hrole howner]
    exact ⟨_, rfl, State.session?_modSession hx fun _ => rfl, rfl⟩
  case closes => exact fun s u ss q t => ⟨_, rfl, exec_closeSession_of_turn t, State.session?_endSession ..⟩
  case status =>
    intro s hport
    rw [exec_statusCmd, execStatusCmd, if_pos rfl, if_pos hport]
  case timers =>
    intro s ss x hx
    refine ⟨⟨_, rfl, State.session?_endSession .., State.tx_endSession ..⟩, fun hnotify hnewer => ?_, fun q hheld => ?_, rfl⟩
    · exact ⟨_, State.execEventNotice_due hx hnotify hnewer, State.session?_modSession hx fun _ => rfl, rfl⟩
    · exact ⟨_, State.execReorderTimeout_held hx hheld, State.session?_dropHeld hx q, rfl⟩

end

section
/-! The job (O46): what a response leaves alone; each command of an image or a job as its own operation in the state of its turn
(R303, R312 to R315); the ends of a pause and of a drain; and the end of a long command (R305, R366). -/

namespace Sys2Proof.Machine

namespace State

/-! ### What votes, responses and job moves leave -/

theorem job_vote (s : State) (i : Nat) : (s.vote i).job = s.job := by
  unfold vote; split <;> rfl

theorem rcp_vote (s : State) (i : Nat) : (s.vote i).rcp = s.rcp := by
  unfold vote; split <;> rfl

/-- A response to a run of coalesced writes changes nothing but the host port. -/
theorem flushRun_eq (s : State) (ss : Nat) : ∃ r, s.flushRun ss = { s with rcp := r } := by
  unfold flushRun
  split
  · exact ⟨_, rfl⟩
  · split
    · exact ⟨_, rfl⟩
    · exact ⟨_, rfl⟩

/-- A response changes nothing but the host port. -/
theorem reply_eq (s : State) (ss seq type : Nat) (st : Status) (payload : List Byte) :
    ∃ r, s.reply ss seq type st payload = { s with rcp := r } := by
  obtain ⟨r, hflush⟩ := s.flushRun_eq ss
  unfold reply
  rw [hflush]
  dsimp only
  split
  · exact ⟨_, rfl⟩
  · exact ⟨_, rfl⟩

theorem exists_record_jobMove (s : State) (target : JobState) (cause : Nat) :
    ∃ e, e ∈ (s.jobMove target cause).log.records ∧ e.code = 0x2 := exists_record_raise ..

/-! ### Commands that R299 lets through -/

section Owner
variable {s : State} {ss : Nat} (howner : s.isOwner ss = true)
include howner

/-- The owner's command passes in a state of the job that its rule lists. -/
theorem turnAway_passes {states : List JobState} (h : states.contains s.job.state = true) : s.turnAway ss true states false = none := by
  simp only [turnAway, howner, h, Bool.not_true, Bool.and_false, Bool.false_and, Bool.false_eq_true, if_false]

theorem turnAway_wrongState {states : List JobState} (hsome : states.isEmpty = false) (h : states.contains s.job.state = false) :
    s.turnAway ss true states false = some .wrongState := by
  simp only [turnAway, howner, hsome, h, Bool.not_true, Bool.not_false, Bool.and_false, Bool.and_self, Bool.false_eq_true, if_false, if_true]

variable (q : Nat)

/-- R291, R305: a load checks the image that the command carries, and is then the module's long command. -/
theorem opLoadImage_starts (hjob : [JobState.empty, .loaded, .halted].contains s.job.state = true)
    (hmade : s.sec.lc ≠ .manufacture) (halive : s.sec.lc ≠ .decommissioned) (hlong : s.rcp.long = none) (staging : Nat) (img : ImageBodies) :
    ∃ k : LongCmd, opLoadImage s ss q staging (some img) =
        (checkImage ((s.vote 0).jobMove .loading 0x01) staging (some img)).1.startLong k ∧
      k.session = ss ∧ k.hostSeq = q ∧ k.type = 0x06 ∧ k.fromState = s.job.state := by
  have hlc : ¬ ((s.vote 0).sec.lc = .manufacture ∨ (s.vote 0).sec.lc = .decommissioned) := by simp [hmade, halive]
  have hfree : (s.vote 0).rcp.long.isSome = false := by rw [rcp_vote, hlong]; rfl
  simp only [opLoadImage, turnAway_passes howner hjob, hlc, hfree, if_false, Bool.false_eq_true, job_vote]
  split
  · exact ⟨_, rfl, rfl, rfl, rfl, rfl⟩
  · exact ⟨_, rfl, rfl, rfl, rfl, rfl⟩

theorem opUnloadImage_passes (hjob : [JobState.loaded, .halted].contains s.job.state = true) :
    opUnloadImage s ss q = (s.unload.jobMove .empty 0x05).reply ss q 0x07 .ok := by
  simp only [opUnloadImage, turnAway_passes howner hjob]

theorem opStartJob_passes (hjob : s.job.state = .loaded) (hready : s.courseMissing = false) :
    opStartJob s ss q = s.beginJob.reply ss q 0x08 .ok := by
  have hpass := turnAway_passes howner (states := [.loaded]) (by rw [hjob]; rfl)
  simp only [opStartJob, hpass, hready, if_false, Bool.false_eq_true]

theorem opStartJob_empty (hjob : s.job.state = .empty) :
    opStartJob s ss q = s.reply ss q 0x08 .wrongState (leBytes 1 s.job.state.code) := by
  have hrefused := turnAway_wrongState howner (states := [.loaded]) rfl (by rw [hjob]; rfl)
  simp only [opStartJob, hrefused, refuse, if_true]

theorem opPauseJob_passes (hjob : [JobState.running, .faulted].contains s.job.state = true) :
    opPauseJob s ss q = (s.pausing true).reply ss q 0x09 .ok := by
  simp only [opPauseJob, turnAway_passes howner hjob]

/-- R314: a pause ends, or is withdrawn while it is pending. -/
theorem opResumeJob_passes
    (hjob : s.job.state = .paused ∨ (s.job.state = .running ∨ s.job.state = .faulted) ∧ s.job.pausePending = true) :
    opResumeJob s ss q = s.resumeRun.reply ss q 0x0A .ok := by
  have hlisted : [JobState.paused, .running, .faulted].contains s.job.state = true := by
    rcases hjob with h | ⟨h | h, -⟩ <;> rw [h] <;> rfl
  have hpause : ¬ (s.job.state ≠ .paused ∧ s.job.pausePending = false) := by
    rintro ⟨hstate, hpending⟩
    rcases hjob with h | ⟨-, h⟩
    · exact hstate h
    · simp [hpending] at h
  simp only [opResumeJob, turnAway_passes howner hlisted, hpause, if_false]

theorem opCancelJob_passes (hjob : [JobState.running, .paused, .faulted].contains s.job.state = true) :
    opCancelJob s ss q = (s.cancelRun q).reply ss q 0x0B .ok := by
  simp only [opCancelJob, turnAway_passes howner hjob]

end Owner

/-! ### The ends of a pause and of a drain (R314, R315) -/

theorem execJobPaused_stops {s : State} (hpending : s.job.pausePending = true) (hjob : s.job.state = .running ∨ s.job.state = .faulted)
    (hstopped : ∀ x, x ∈ s.cores → x.2.stoppedCore = true) :
    execJobPaused s = .next ((s.pausing false).jobMove .paused 0x09) := by
  have hcores : s.cores.all (fun x => x.2.stoppedCore) = true := List.all_eq_true.mpr hstopped
  have hstate : (s.job.state == .running || s.job.state == .faulted) = true := by simpa using hjob
  simp only [execJobPaused, hpending, hstate, hcores, Bool.and_self, if_true]

theorem mem_reshardStop (s : State) : s.reshardStop.mem = s.mem := by
  unfold reshardStop
  split
  · rfl
  · split <;> rfl

/-- R315: with every core's halt drained and the Valley and collective engines idle, no entry stays under way and the job is HALTED. -/
theorem execJobDrainComplete_halts {s : State} (hjob : s.job.state = .draining) (hcores : s.allFinished = true)
    (hcourses : ∀ x, x ∈ s.courses → x.2.migration = none) (hpath : s.valPath = []) (hidle : ∀ sl, sl < 4 → s.collIdle sl = true) :
    execJobDrainComplete s = .next (({ s.reshardStop with colls := s.reshardStop.colls.map fun x => (x.1, { x.2 with run := none }) }
      : State).jobMove .halted 0x0C) := by
  have hmigrations : s.courses.all (fun x => x.2.migration.isNone) = true :=
    List.all_eq_true.mpr fun x hx => by rw [hcourses x hx]; rfl
  have hslopes : ([0, 1, 2, 3] : List Nat).all s.collIdle = true := by simp [hidle]
  have hdraining : (s.job.state == .draining) = true := by rw [hjob]; rfl
  simp only [execJobDrainComplete, hdraining, hcores, hmigrations, hpath, hslopes, List.isEmpty_nil, Bool.and_self, if_true]

/-! ### The end of a long command (R305, R366) -/

section Long
variable {s : State} {k : LongCmd} (h : s.rcp.long = some k)
include h

theorem execLongCommandComplete_load (htype : k.type = 0x06) :
    execLongCommandComplete s = .next (endLoad { s with rcp := { s.rcp with long := none } } k) := by
  simp [execLongCommandComplete, h, htype]

theorem execLongCommandComplete_commit (htype : k.type = 0x11) :
    execLongCommandComplete s = .next (({ s with rcp := { s.rcp with long := none } } : State).raiseCounter.reply
      k.session k.hostSeq 0x11 k.status k.payload) := by
  simp [execLongCommandComplete, h, htype]

theorem execLongCommandComplete_other (hload : k.type ≠ 0x06) (hcommit : k.type ≠ 0x11) :
    execLongCommandComplete s = .next (({ s with rcp := { s.rcp with long := none } } : State).reply
      k.session k.hostSeq k.type.toNat k.status k.payload) := by
  simp only [execLongCommandComplete, h, hload, hcommit, if_false]

end Long

/-- R292: a load that fails leaves the job as it was and reports its status, and memory is untouched. -/
theorem endLoad_fails {k : LongCmd} (h : k.status ≠ .ok) (s : State) : (endLoad s k).job.state = k.fromState ∧
    (endLoad s k).image.lastStatus = some k.status ∧ (endLoad s k).mem = s.mem := by
  obtain ⟨r, hreply⟩ := ((s.imageFailed k.status k.payload).jobMove k.fromState 0x03).reply_eq k.session k.hostSeq 0x06 k.status k.payload
  rw [endLoad, if_pos h, hreply]
  exact ⟨rfl, rfl, rfl⟩

end State

/-! ### Each command in its session's order (R303) -/

section Ordered
variable {s u : State} {ss q : Nat} (t : Turn s ss q u)
include t

theorem exec_loadImage_of_turn (staging : Word) (img : ImageBodies) :
    exec (.loadImage ss staging img) s = followed (opLoadImage u ss q staging.toNat (some img)) ss :=
  (exec_loadImage ..).trans (runRow_of_turn t fun v n => opLoadImage v ss n staging.toNat (some img))

theorem exec_unloadImage_of_turn : exec (.unloadImage ss) s = followed (opUnloadImage u ss q) ss :=
  (exec_unloadImage ..).trans (runRow_of_turn t fun v n => opUnloadImage v ss n)

theorem exec_startJob_of_turn : exec (.startJob ss) s = followed (opStartJob u ss q) ss :=
  (exec_startJob ..).trans (runRow_of_turn t fun v n => opStartJob v ss n)

theorem exec_pauseJob_of_turn : exec (.pauseJob ss) s = followed (opPauseJob u ss q) ss :=
  (exec_pauseJob ..).trans (runRow_of_turn t fun v n => opPauseJob v ss n)

theorem exec_resumeJob_of_turn : exec (.resumeJob ss) s = followed (opResumeJob u ss q) ss :=
  (exec_resumeJob ..).trans (runRow_of_turn t fun v n => opResumeJob v ss n)

theorem exec_cancelJob_of_turn : exec (.cancelJob ss) s = followed (opCancelJob u ss q) ss :=
  (exec_cancelJob ..).trans (runRow_of_turn t fun v n => opCancelJob v ss n)

end Ordered

end Sys2Proof.Machine

open Sys2Proof Sys2Proof.Machine

/-- Settles O46: each command is its own operation in the state of its turn, which R299 lets through; the rows that end a pause, a
drain or a long command take the branch that the clause's conditions name. -/
theorem jobCommands : Obligations.JobCommands := by
  refine ⟨?commands, ?paused, ?drained, ?long, fun s k h => State.endLoad_fails h s⟩
  case commands =>
    intro s u ss q t howner
    refine ⟨fun staging img hjob hmade halive hlong => ?load, fun hjob => ?unload, fun hjob hready => ?start, fun hjob => ?pause,
      fun hjob => ?resume, fun hjob => ?cancel, fun hjob => ?refused⟩
    case load =>
      have hlisted : [JobState.empty, .loaded, .halted].contains u.job.state = true := by simpa using hjob
      obtain ⟨k, hload, hk⟩ := State.opLoadImage_starts howner q hlisted hmade halive hlong staging.toNat img
      exact ⟨k, by rw [exec_loadImage_of_turn t, hload], hk⟩
    case unload => rw [exec_unloadImage_of_turn t, State.opUnloadImage_passes howner q (by simpa using hjob), answered]
    case start => rw [exec_startJob_of_turn t, State.opStartJob_passes howner q hjob hready, answered]
    case pause => rw [exec_pauseJob_of_turn t, State.opPauseJob_passes howner q (by simpa using hjob), answered]
    case resume => rw [exec_resumeJob_of_turn t, State.opResumeJob_passes howner q hjob, answered]
    case cancel => rw [exec_cancelJob_of_turn t, State.opCancelJob_passes howner q (by simpa using hjob), answered]
    case refused => rw [exec_startJob_of_turn t, State.opStartJob_empty howner q hjob]
  case paused =>
    intro s hpending hjob hstopped
    obtain ⟨e, he, hcode⟩ := State.exists_record_jobMove (s.pausing false) .paused 0x09
    exact ⟨_, e, State.execJobPaused_stops hpending hjob hstopped, rfl, rfl, rfl, rfl, he, hcode⟩
  case drained =>
    intro s hjob hcores hcourses hpath hidle
    obtain ⟨e, he, hcode⟩ := State.exists_record_jobMove
      { s.reshardStop with colls := s.reshardStop.colls.map fun x => (x.1, { x.2 with run := none }) } .halted 0x0C
    exact ⟨_, e, State.execJobDrainComplete_halts hjob hcores hcourses hpath hidle, rfl, s.mem_reshardStop, he, hcode⟩
  case long =>
    exact fun s k h => ⟨State.execLongCommandComplete_load h, State.execLongCommandComplete_commit h,
      State.execLongCommandComplete_other h⟩

end

section
/-! A nanosecond (O2): what the counters of the units leave alone, and the bounds within which the timebase slews (R296). -/

namespace Sys2Proof.Machine

namespace State

/-- Everything of the module but the units that count cycles. -/
def butUnits (s : State) : State := { s with cores := [], ports := [], slopes := [], hbm := [] }

theorem butUnits_foldl {α : Type} {f : State → α → State} (hf : ∀ s x, (f s x).butUnits = s.butUnits) (l : List α) (s : State) :
    (l.foldl f s).butUnits = s.butUnits :=
  List.foldlRecOn (motive := fun t : State => t.butUnits = s.butUnits) l f rfl fun t ht x _ => (hf t x).trans ht

theorem butUnits_tickSlopes (s : State) : s.tickSlopes.butUnits = s.butUnits :=
  butUnits_foldl (f := fun s k => s.modSlope k Slope.tick) (fun _ _ => rfl) _ s

theorem butUnits_tickStacks (s : State) : s.tickStacks.butUnits = s.butUnits :=
  butUnits_foldl (f := fun t k => t.modStack k fun x => x.gain t.hbmRate.toNat) (fun _ _ => rfl) _ s

/-- The units count a nanosecond, while the slopes have power. -/
def tickUnits (s : State) : State :=
  if s.power.off || !s.power.slopesOn then s
  else (((s.tickCores fun k => (s.slope k).cycles).tickPorts).tickSlopes).tickStacks

theorem butUnits_tickUnits (s : State) : s.tickUnits.butUnits = s.butUnits := by
  unfold tickUnits
  split
  · rfl
  · rw [butUnits_tickStacks, butUnits_tickSlopes]
    rfl

/-! ### The master and the timebase (R296) -/

/-- A master that has not been heard for 6 s is no longer followed. -/
def masterHeard (s : State) : State :=
  if s.rcp.ptpMaster.any fun m => decide (m.heard + 6000000000 ≤ s.clock) then
    { s with rcp := { s.rcp with ptpMaster := none, ptpLocked := false } } else s

/-- What the check of the master leaves: all but the host port, and no lead to work off that was not there. -/
theorem masterHeard_eq (s : State) : ∃ r, s.masterHeard = { s with rcp := r } ∧
    (s.rcp.ptpLocked = false ∨ s.rcp.ptpSlew = 0 → r.ptpLocked = false ∨ r.ptpSlew = 0) := by
  unfold masterHeard
  split
  · exact ⟨_, rfl, fun _ => .inl rfl⟩
  · exact ⟨_, rfl, id⟩

/-- The timebase works off a nanosecond of its lead over the master or of its lag behind it. -/
def slewed (s : State) : State :=
  if s.rcp.ptpLocked && s.clock % 10000 == 9999 && s.rcp.ptpSlew != 0 then
    if 0 < s.rcp.ptpSlew then { s with timebase := s.timebase - 1, rcp := { s.rcp with ptpSlew := s.rcp.ptpSlew - 1 } }
    else { s with timebase := s.timebase + 1, rcp := { s.rcp with ptpSlew := s.rcp.ptpSlew + 1 } }
  else s

theorem slewed_eq (s : State) : ∃ r t, s.slewed = { s with rcp := r, timebase := t } ∧
    (s.rcp.ptpLocked = false ∨ s.rcp.ptpSlew = 0 → t = s.timebase) ∧ s.timebase ≤ t + 1 ∧ t ≤ s.timebase + 1 := by
  unfold slewed
  split
  next hworks =>
    have hbusy : ¬ (s.rcp.ptpLocked = false ∨ s.rcp.ptpSlew = 0) := fun h => by
      rcases h with h | h <;> simp [h] at hworks
    split
    · exact ⟨_, _, rfl, fun h => absurd h hbusy, by omega, by omega⟩
    · exact ⟨_, _, rfl, fun h => absurd h hbusy, by omega, by omega⟩
  next => exact ⟨_, _, rfl, fun _ => rfl, by omega, by omega⟩

theorem tickPtp_eq_slewed (s : State) : s.tickPtp = s.masterHeard.slewed := rfl

/-- R296: what a nanosecond makes of the timebase of a module that follows a master. -/
theorem tickPtp_eq (s : State) : ∃ r t, s.tickPtp = { s with rcp := r, timebase := t } ∧
    (s.rcp.ptpLocked = false ∨ s.rcp.ptpSlew = 0 → t = s.timebase) ∧ s.timebase ≤ t + 1 ∧ t ≤ s.timebase + 1 := by
  obtain ⟨r, hheard, hidle⟩ := s.masterHeard_eq
  obtain ⟨r', t, hslewed, hstands, hlo, hhi⟩ := State.slewed_eq { s with rcp := r }
  exact ⟨r', t, by rw [tickPtp_eq_slewed, hheard, hslewed], fun h => hstands (hidle h), hlo, hhi⟩

end State

theorem tick_eq (s : State) : tick s = ({ s.tickUnits with timebase := s.timebase + 1, clock := s.clock + 1 } : State).tickPtp := rfl

theorem step_of_empty {s : State} (h : s.pending = []) : step s = .next (tick s) := by
  simp only [step, h]

end Sys2Proof.Machine

open Sys2Proof Sys2Proof.Machine

/-- Settles O2: the units' counters leave all that the statement names, and the slewing moves the timebase by at most one. -/
theorem emptyQueueIsANanosecond : Obligations.EmptyQueueIsANanosecond := by
  intro s hempty
  have hunits := s.butUnits_tickUnits
  have hrcp : s.tickUnits.rcp = s.rcp := (congrArg State.rcp hunits :)
  obtain ⟨r, t, htick, hidle, hlo, hhi⟩ :=
    State.tickPtp_eq { s.tickUnits with timebase := s.timebase + 1, clock := s.clock + 1 }
  refine ⟨_, step_of_empty hempty, ?_⟩
  rw [tick_eq, htick]
  dsimp only at hidle hlo hhi
  rw [hrcp] at hidle
  exact ⟨rfl, (congrArg State.mem hunits :), (congrArg State.log hunits :), (congrArg State.pending hunits :).trans hempty,
    (congrArg State.job hunits :), hidle, Nat.le_of_succ_le_succ hlo, hhi⟩

end

section
/-! Steps (O1, O59, O60): every command answers when it is well-formed, and leaves the queue and the form of memory as they are, by the
law of its own meaning among Laws/Kept*. -/

namespace Sys2Proof.Machine

/-- What a step needs of a command in the state s: the queue and the form of memory stand in any state it answers, and it answers one if it is
well-formed. -/
structure Carried (s : State) (c : Instr) : Prop where
  kept : KeptIf s (exec c s)
  answers : WellFormed c = true → ∃ t, exec c s = .next t

variable {s : State} {c : Instr}

theorem carried_of_keptOut (h : KeptOut s (exec c s)) : Carried s c := by
  obtain ⟨t, hnext, -⟩ := id h
  exact ⟨keptOut_if h, fun _ => ⟨t, hnext⟩⟩

/-- A word that is an instruction's own is no other instruction's, and nothing else is refused at issue (R22). -/
theorem coreTable_answers {p : CoreInstr × (State → CoreId → Stream → Word128 → IssueReq)} (hp : p ∈ coreTable) {n : CoreId} {t : Stream}
    {w : Word128} (h : ownWord p.1 n t w = true) : ∃ u, exec (p.1 n t w) s = .next u := by
  obtain ⟨hopcode, eff, hissue⟩ := coreTable_issue p hp s n t w h
  obtain hnext | ⟨-, hother, -⟩ := issue_total s n t w (p.2 s n t w) eff
  · rwa [hissue]
  · exact absurd hopcode hother

/-- A core instruction, by its row of the table. -/
theorem carried_of_row {p : CoreInstr × (State → CoreId → Stream → Word128 → IssueReq)} {n : CoreId} {t : Stream} {w : Word128} (row : Nat)
    (hrow : coreTable[row]? = some p) (hc : c = p.1 n t w) (h : KeptIf s (exec c s)) : Carried s c := by
  subst hc
  exact ⟨h, coreTable_answers (List.mem_of_getElem? hrow)⟩

/-- Every command, by the law of its own meaning; a core instruction also by the place of its row in the table. -/
theorem exec_carried (s : State) : ∀ c, Carried s c
  | .add .. => carried_of_row 0 rfl rfl (kept_execAdd _ _ _ s (kept_refl s))
  | .sub .. => carried_of_row 1 rfl rfl (kept_execSub _ _ _ s (kept_refl s))
  | .mul .. => carried_of_row 2 rfl rfl (kept_execMul _ _ _ s (kept_refl s))
  | .divu .. => carried_of_row 3 rfl rfl (kept_execDivu _ _ _ s (kept_refl s))
  | .remu .. => carried_of_row 4 rfl rfl (kept_execRemu _ _ _ s (kept_refl s))
  | .andOp .. => carried_of_row 5 rfl rfl (kept_execAndOp _ _ _ s (kept_refl s))
  | .orOp .. => carried_of_row 6 rfl rfl (kept_execOrOp _ _ _ s (kept_refl s))
  | .xorOp .. => carried_of_row 7 rfl rfl (kept_execXorOp _ _ _ s (kept_refl s))
  | .shl .. => carried_of_row 8 rfl rfl (kept_execShl _ _ _ s (kept_refl s))
  | .shr .. => carried_of_row 9 rfl rfl (kept_execShr _ _ _ s (kept_refl s))
  | .sar .. => carried_of_row 10 rfl rfl (kept_execSar _ _ _ s (kept_refl s))
  | .minu .. => carried_of_row 11 rfl rfl (kept_execMinu _ _ _ s (kept_refl s))
  | .maxu .. => carried_of_row 12 rfl rfl (kept_execMaxu _ _ _ s (kept_refl s))
  | .addi .. => carried_of_row 13 rfl rfl (kept_execAddi _ _ _ s (kept_refl s))
  | .andi .. => carried_of_row 14 rfl rfl (kept_execAndi _ _ _ s (kept_refl s))
  | .shli .. => carried_of_row 15 rfl rfl (kept_execShli _ _ _ s (kept_refl s))
  | .shri .. => carried_of_row 16 rfl rfl (kept_execShri _ _ _ s (kept_refl s))
  | .ldi .. => carried_of_row 17 rfl rfl (kept_execLdi _ _ _ s (kept_refl s))
  | .ldih .. => carried_of_row 18 rfl rfl (kept_execLdih _ _ _ s (kept_refl s))
  | .loopidx .. => carried_of_row 19 rfl rfl (kept_execLoopidx _ _ _ s (kept_refl s))
  | .rdid .. => carried_of_row 20 rfl rfl (kept_execRdid _ _ _ s (kept_refl s))
  | .ldl .. => carried_of_row 22 rfl rfl (kept_execLdl _ _ _ s (kept_refl s))
  | .stl .. => carried_of_row 23 rfl rfl (kept_execStl _ _ _ s (kept_refl s))
  | .loop .. => carried_of_row 24 rfl rfl (kept_execLoop _ _ _ s (kept_refl s))
  | .endloop .. => carried_of_row 25 rfl rfl (kept_execEndloop _ _ _ s (kept_refl s))
  | .call .. => carried_of_row 26 rfl rfl (kept_execCall _ _ _ s (kept_refl s))
  | .ret .. => carried_of_row 27 rfl rfl (kept_execRet _ _ _ s (kept_refl s))
  | .jmp .. => carried_of_row 28 rfl rfl (kept_execJmp _ _ _ s (kept_refl s))
  | .ldd .. => carried_of_row 29 rfl rfl (kept_execLdd _ _ _ s (kept_refl s))
  | .movd .. => carried_of_row 30 rfl rfl (kept_execMovd _ _ _ s (kept_refl s))
  | .dbase .. => carried_of_row 31 rfl rfl (kept_execDbase _ _ _ s (kept_refl s))
  | .dsize .. => carried_of_row 32 rfl rfl (kept_execDsize _ _ _ s (kept_refl s))
  | .dclr .. => carried_of_row 33 rfl rfl (kept_execDclr _ _ _ s (kept_refl s))
  | .daFill .. => carried_of_row 41 rfl rfl (kept_execDaFill _ _ _ s (kept_refl s))
  | .daFillt .. => carried_of_row 42 rfl rfl (kept_execDaFillt _ _ _ s (kept_refl s))
  | .daSwap .. => carried_of_row 43 rfl rfl (kept_execDaSwap _ _ _ s (kept_refl s))
  | .daMm .. => carried_of_row 44 rfl rfl (kept_execDaMm _ _ _ s (kept_refl s))
  | .daMmnm .. => carried_of_row 45 rfl rfl (kept_execDaMmnm _ _ _ s (kept_refl s))
  | .daDrain .. => carried_of_row 46 rfl rfl (kept_execDaDrain _ _ _ s (kept_refl s))
  | .daClear .. => carried_of_row 47 rfl rfl (kept_execDaClear _ _ _ s (kept_refl s))
  | .daInstructionBegin .. => carried_of_keptOut (kept_execDaInstructionBegin _ s (kept_refl s))
  | .daInstructionComplete .. => carried_of_keptOut (kept_execDaInstructionComplete _ _ s (kept_refl s))
  | .gmeSpmm .. => carried_of_row 48 rfl rfl (kept_execGmeSpmm _ _ _ s (kept_refl s))
  | .gmeSddmm .. => carried_of_row 49 rfl rfl (kept_execGmeSddmm _ _ _ s (kept_refl s))
  | .gmeGather .. => carried_of_row 50 rfl rfl (kept_execGmeGather _ _ _ s (kept_refl s))
  | .gmeScatteradd .. => carried_of_row 51 rfl rfl (kept_execGmeScatteradd _ _ _ s (kept_refl s))
  | .gmeSegsum .. => carried_of_row 52 rfl rfl (kept_execGmeSegsum _ _ _ s (kept_refl s))
  | .gmeSort .. => carried_of_row 53 rfl rfl (kept_execGmeSort _ _ _ s (kept_refl s))
  | .gmeSelect .. => carried_of_row 54 rfl rfl (kept_execGmeSelect _ _ _ s (kept_refl s))
  | .gmeMerge .. => carried_of_row 55 rfl rfl (kept_execGmeMerge _ _ _ s (kept_refl s))
  | .gmePack .. => carried_of_row 56 rfl rfl (kept_execGmePack _ _ _ s (kept_refl s))
  | .gmeUnpack .. => carried_of_row 57 rfl rfl (kept_execGmeUnpack _ _ _ s (kept_refl s))
  | .gmeTranspose .. => carried_of_row 58 rfl rfl (kept_execGmeTranspose _ _ _ s (kept_refl s))
  | .gmeInstructionBegin .. => carried_of_keptOut (kept_execGmeInstructionBegin _ s (kept_refl s))
  | .yealmBegin .. => carried_of_keptOut (kept_execYealmBegin _ _ s (kept_refl s))
  | .yealmSteal .. => carried_of_keptOut (kept_execYealmSteal _ _ s (kept_refl s))
  | .mergeFold .. => carried_of_keptOut (kept_execMergeFold _ _ s (kept_refl s))
  | .gmeInstructionComplete .. => carried_of_keptOut (kept_execGmeInstructionComplete _ s (kept_refl s))
  | .veAdd .. => carried_of_row 59 rfl rfl (kept_execVeAdd _ _ _ s (kept_refl s))
  | .veSub .. => carried_of_row 60 rfl rfl (kept_execVeSub _ _ _ s (kept_refl s))
  | .veMul .. => carried_of_row 61 rfl rfl (kept_execVeMul _ _ _ s (kept_refl s))
  | .veMax .. => carried_of_row 62 rfl rfl (kept_execVeMax _ _ _ s (kept_refl s))
  | .veMin .. => carried_of_row 63 rfl rfl (kept_execVeMin _ _ _ s (kept_refl s))
  | .veFma .. => carried_of_row 64 rfl rfl (kept_execVeFma _ _ _ s (kept_refl s))
  | .veAbs .. => carried_of_row 65 rfl rfl (kept_execVeAbs _ _ _ s (kept_refl s))
  | .veNeg .. => carried_of_row 66 rfl rfl (kept_execVeNeg _ _ _ s (kept_refl s))
  | .veScale .. => carried_of_row 67 rfl rfl (kept_execVeScale _ _ _ s (kept_refl s))
  | .veCopy .. => carried_of_row 68 rfl rfl (kept_execVeCopy _ _ _ s (kept_refl s))
  | .veFill .. => carried_of_row 69 rfl rfl (kept_execVeFill _ _ _ s (kept_refl s))
  | .veBlend .. => carried_of_row 70 rfl rfl (kept_execVeBlend _ _ _ s (kept_refl s))
  | .veRsum .. => carried_of_row 71 rfl rfl (kept_execVeRsum _ _ _ s (kept_refl s))
  | .veRmax .. => carried_of_row 72 rfl rfl (kept_execVeRmax _ _ _ s (kept_refl s))
  | .veRmin .. => carried_of_row 73 rfl rfl (kept_execVeRmin _ _ _ s (kept_refl s))
  | .veRsumsq .. => carried_of_row 74 rfl rfl (kept_execVeRsumsq _ _ _ s (kept_refl s))
  | .veSmstat .. => carried_of_row 75 rfl rfl (kept_execVeSmstat _ _ _ s (kept_refl s))
  | .veSmnorm .. => carried_of_row 76 rfl rfl (kept_execVeSmnorm _ _ _ s (kept_refl s))
  | .veSmbwd .. => carried_of_row 77 rfl rfl (kept_execVeSmbwd _ _ _ s (kept_refl s))
  | .veFunc .. => carried_of_row 78 rfl rfl (kept_execVeFunc _ _ _ s (kept_refl s))
  | .veDfunc .. => carried_of_row 79 rfl rfl (kept_execVeDfunc _ _ _ s (kept_refl s))
  | .veConvert .. => carried_of_row 80 rfl rfl (kept_execVeConvert _ _ _ s (kept_refl s))
  | .veOpt .. => carried_of_row 83 rfl rfl (kept_execVeOpt _ _ _ s (kept_refl s))
  | .veOptCommit .. => carried_of_row 84 rfl rfl (kept_execVeOptCommit _ _ _ s (kept_refl s))
  | .veDigest .. => carried_of_row 81 rfl rfl (kept_execVeDigest _ _ _ s (kept_refl s))
  | .veRng .. => carried_of_row 82 rfl rfl (kept_execVeRng _ _ _ s (kept_refl s))
  | .engineCompletion .. => carried_of_keptOut (kept_execEngineCompletion _ _ _ s (kept_refl s))
  | .dmaStart .. => carried_of_row 85 rfl rfl (kept_execDmaStart _ _ _ s (kept_refl s))
  | .dmaStop .. => carried_of_row 86 rfl rfl (kept_execDmaStop _ _ _ s (kept_refl s))
  | .dmaQueueAdmit .. => carried_of_keptOut (kept_execDmaQueueAdmit _ s (kept_refl s))
  | .transferBegin .. => carried_of_keptOut (kept_execTransferBegin _ _ s (kept_refl s))
  | .completionRecord .. => carried_of_keptOut (kept_execCompletionRecord _ _ s (kept_refl s))
  | .stoppedRecord .. => carried_of_keptOut (kept_execStoppedRecord _ _ s (kept_refl s))
  | .valDispatch .. => carried_of_row 87 rfl rfl (kept_execValDispatch _ _ _ s (kept_refl s))
  | .valCombine .. => carried_of_row 88 rfl rfl (kept_execValCombine _ _ _ s (kept_refl s))
  | .combineBegin .. => carried_of_keptOut (kept_execCombineBegin _ s (kept_refl s))
  | .valReturn .. => carried_of_row 89 rfl rfl (kept_execValReturn _ _ _ s (kept_refl s))
  | .valCancel .. => carried_of_row 90 rfl rfl (kept_execValCancel _ _ _ s (kept_refl s))
  | .nop .. => carried_of_row 34 rfl rfl (kept_execNop _ _ _ s (kept_refl s))
  | .waitOp .. => carried_of_row 35 rfl rfl (kept_execWaitOp _ _ _ s (kept_refl s))
  | .signal .. => carried_of_row 36 rfl rfl (kept_execSignal _ _ _ s (kept_refl s))
  | .barrier .. => carried_of_row 37 rfl rfl (kept_execBarrier _ _ _ s (kept_refl s))
  | .testwin .. => carried_of_row 38 rfl rfl (kept_execTestwin _ _ _ s (kept_refl s))
  | .codeswap .. => carried_of_row 39 rfl rfl (kept_execCodeswap _ _ _ s (kept_refl s))
  | .haltOp .. => carried_of_row 40 rfl rfl (kept_execHaltOp _ _ _ s (kept_refl s))
  | .flagrd .. => carried_of_row 21 rfl rfl (kept_execFlagrd _ _ _ s (kept_refl s))
  | .haltDrainComplete .. => carried_of_keptOut (kept_execHaltDrainComplete _ s (kept_refl s))
  | .drainTimeout .. => carried_of_keptOut (kept_execDrainTimeout _ s (kept_refl s))
  | .icacheFill .. => carried_of_keptOut (kept_execIcacheFill _ _ _ _ s (kept_refl s))
  | .waitTimeout .. => carried_of_keptOut (kept_execWaitTimeout _ _ s (kept_refl s))
  | .gateClose .. => carried_of_keptOut (kept_execGateClose _ s (kept_refl s))
  | .barrierArrival .. => carried_of_keptOut (kept_execBarrierArrival _ s (kept_refl s))
  | .barrierArrive .. => carried_of_keptOut (kept_execBarrierArrive _ _ _ s (kept_refl s))
  | .barrierRelease .. => carried_of_keptOut (kept_execBarrierRelease _ _ s (kept_refl s))
  | .increment .. => carried_of_keptOut (kept_execIncrement _ s (kept_refl s))
  | .writeFrame .. => carried_of_keptOut (kept_execWriteFrame _ _ s (kept_refl s))
  | .writeAcked .. => carried_of_keptOut (kept_execWriteAcked _ _ s (kept_refl s))
  | .writeAck .. => carried_of_keptOut (kept_execWriteAck _ _ s (kept_refl s))
  | .readReq .. => carried_of_keptOut (kept_execReadReq _ _ s (kept_refl s))
  | .readResp .. => carried_of_keptOut (kept_execReadResp _ _ s (kept_refl s))
  | .refused .. => carried_of_keptOut (kept_execRefused _ _ s (kept_refl s))
  | .destAbsent .. => carried_of_keptOut (kept_execDestAbsent _ _ s (kept_refl s))
  | .e2eTimeout .. => carried_of_keptOut (kept_execE2eTimeout _ _ _ s (kept_refl s))
  | .linkFrameReceive .. => carried_of_keptOut (kept_execLinkFrameReceive _ _ _ s (kept_refl s))
  | .linkCtrl .. => carried_of_keptOut (kept_execLinkCtrl _ _ s (kept_refl s))
  | .linkNack .. => carried_of_keptOut (kept_execLinkNack _ _ s (kept_refl s))
  | .linkAckDue .. => carried_of_keptOut (kept_execLinkAckDue _ s (kept_refl s))
  | .linkResendTimeout .. => carried_of_keptOut (kept_execLinkResendTimeout _ s (kept_refl s))
  | .portTrained .. => carried_of_keptOut (kept_execPortTrained _ _ s (kept_refl s))
  | .portSignalLoss .. => carried_of_keptOut (kept_execPortSignalLoss _ s (kept_refl s))
  | .laneFailure .. => carried_of_keptOut (kept_execLaneFailure _ _ s (kept_refl s))
  | .laneRecalibration .. => carried_of_keptOut (kept_execLaneRecalibration _ _ s (kept_refl s))
  | .recalDeferExpiry .. => carried_of_keptOut (kept_execRecalDeferExpiry _ _ s (kept_refl s))
  | .laneRecalEnd .. => carried_of_keptOut (kept_execLaneRecalEnd _ _ s (kept_refl s))
  | .bypassOpen .. => carried_of_keptOut (kept_execBypassOpen _ _ _ s (kept_refl s))
  | .bypassClose .. => carried_of_keptOut (kept_execBypassClose _ _ _ s (kept_refl s))
  | .bypassDrainComplete .. => carried_of_keptOut (kept_execBypassDrainComplete _ s (kept_refl s))
  | .valleyRow .. => carried_of_keptOut (kept_execValleyRow _ _ s (kept_refl s))
  | .countHeader .. => carried_of_keptOut (kept_execCountHeader _ _ s (kept_refl s))
  | .completionNotice .. => carried_of_keptOut (kept_execCompletionNotice _ _ _ _ s (kept_refl s))
  | .valleyCancel .. => carried_of_keptOut (kept_execValleyCancel _ _ _ s (kept_refl s))
  | .returnRow .. => carried_of_keptOut (kept_execReturnRow _ _ s (kept_refl s))
  | .returnCount .. => carried_of_keptOut (kept_execReturnCount _ _ _ _ s (kept_refl s))
  | .collEntryBegin .. => carried_of_keptOut (kept_execCollEntryBegin _ s (kept_refl s))
  | .collEntryComplete .. => carried_of_keptOut (kept_execCollEntryComplete _ s (kept_refl s))
  | .collData .. => carried_of_keptOut (kept_execCollData _ _ _ _ _ s (kept_refl s))
  | .collCredit .. => carried_of_keptOut (kept_execCollCredit _ _ _ s (kept_refl s))
  | .collAbort .. => carried_of_keptOut (kept_execCollAbort _ _ _ _ s (kept_refl s))
  | .lendWindowEnd .. => carried_of_keptOut (kept_execLendWindowEnd _ s (kept_refl s))
  | .reshardStart .. => carried_of_keptOut (kept_execReshardStart _ _ _ s (kept_refl s))
  | .reshardVote .. => carried_of_keptOut (kept_execReshardVote _ _ _ s (kept_refl s))
  | .reshardCopyComplete .. => carried_of_keptOut (kept_execReshardCopyComplete _ _ s (kept_refl s))
  | .stepAdvance .. => carried_of_keptOut (kept_execStepAdvance _ s (kept_refl s))
  | .digestClose => carried_of_keptOut (kept_execDigestClose s (kept_refl s))
  | .digestRecord .. => carried_of_keptOut (kept_execDigestRecord _ s (kept_refl s))
  | .scrubRead .. => carried_of_keptOut (kept_execScrubRead _ _ _ _ s (kept_refl s))
  | .scrubWriteBack .. => carried_of_keptOut (kept_execScrubWriteBack _ _ s (kept_refl s))
  | .bankWake .. => carried_of_keptOut (kept_execBankWake _ s (kept_refl s))
  | .bankOffAccess .. => carried_of_keptOut (kept_execBankOffAccess _ _ s (kept_refl s))
  | .bankPower .. => carried_of_keptOut (kept_execBankPower _ _ _ _ s (kept_refl s))
  | .regionWrite .. => carried_of_keptOut (kept_execRegionWrite _ _ _ _ s (kept_refl s))
  | .flipArm .. => carried_of_keptOut (kept_execFlipArm _ _ _ _ s (kept_refl s))
  | .rngKeyStreamWrite .. => carried_of_keptOut (kept_execRngKeyStreamWrite _ _ _ _ s (kept_refl s))
  | .rcpMessage .. => carried_of_keptOut (kept_execRcpMessage _ s (kept_refl s))
  | .arpNdRequest .. => carried_of_keptOut (kept_execArpNdRequest _ _ s (kept_refl s))
  | .icmpEcho .. => carried_of_keptOut (kept_execIcmpEcho _ s (kept_refl s))
  | .dhcpMessage .. => carried_of_keptOut (kept_execDhcpMessage _ _ _ s (kept_refl s))
  | .ptpMessage .. => carried_of_keptOut (kept_execPtpMessage _ _ s (kept_refl s))
  | .openSession .. => carried_of_keptOut (kept_execOpenSession _ _ _ _ _ s (kept_refl s))
  | .sessionResume .. => carried_of_keptOut (kept_execSessionResume _ _ _ _ _ s (kept_refl s))
  | .closeSession .. => carried_of_keptOut (kept_execCloseSession _ s (kept_refl s))
  | .statusCmd .. => carried_of_keptOut (kept_execStatusCmd _ s (kept_refl s))
  | .readReg .. => carried_of_keptOut (kept_execReadReg _ _ _ s (kept_refl s))
  | .writeReg .. => carried_of_keptOut (kept_execWriteReg _ _ _ s (kept_refl s))
  | .loadImage .. => carried_of_keptOut (kept_execLoadImage _ _ _ s (kept_refl s))
  | .unloadImage .. => carried_of_keptOut (kept_execUnloadImage _ s (kept_refl s))
  | .startJob .. => carried_of_keptOut (kept_execStartJob _ s (kept_refl s))
  | .pauseJob .. => carried_of_keptOut (kept_execPauseJob _ s (kept_refl s))
  | .jobPaused => carried_of_keptOut (kept_execJobPaused s (kept_refl s))
  | .resumeJob .. => carried_of_keptOut (kept_execResumeJob _ s (kept_refl s))
  | .cancelJob .. => carried_of_keptOut (kept_execCancelJob _ s (kept_refl s))
  | .jobDrainComplete => carried_of_keptOut (kept_execJobDrainComplete s (kept_refl s))
  | .bulkWrite .. => carried_of_keptOut (kept_execBulkWrite _ _ _ s (kept_refl s))
  | .bulkRead .. => carried_of_keptOut (kept_execBulkRead _ _ s (kept_refl s))
  | .eventFetch .. => carried_of_keptOut (kept_execEventFetch _ _ _ s (kept_refl s))
  | .eventNotice .. => carried_of_keptOut (kept_execEventNotice _ s (kept_refl s))
  | .coalescedResponse .. => carried_of_keptOut (kept_execCoalescedResponse _ s (kept_refl s))
  | .reorderTimeout .. => carried_of_keptOut (kept_execReorderTimeout _ _ s (kept_refl s))
  | .sessionIdle .. => carried_of_keptOut (kept_execSessionIdle _ s (kept_refl s))
  | .challengeRollover => carried_of_keptOut (kept_execChallengeRollover s (kept_refl s))
  | .longCommandComplete => carried_of_keptOut (kept_execLongCommandComplete s (kept_refl s))
  | .attest .. => carried_of_keptOut (kept_execAttest _ _ s (kept_refl s))
  | .fwStage .. => carried_of_keptOut (kept_execFwStage _ _ _ _ s (kept_refl s))
  | .fwCommit .. => carried_of_keptOut (kept_execFwCommit _ _ s (kept_refl s))
  | .lcChange .. => carried_of_keptOut (kept_execLcChange _ _ _ _ s (kept_refl s))
  | .secureWipe .. => carried_of_keptOut (kept_execSecureWipe _ _ s (kept_refl s))
  | .secureWipeFull .. => carried_of_keptOut (kept_execSecureWipeFull _ s (kept_refl s))
  | .moduleWarmReset .. => carried_of_keptOut (kept_execModuleWarmReset _ s (kept_refl s))
  | .courseReset .. => carried_of_keptOut (kept_execCourseReset _ _ s (kept_refl s))
  | .coreReset .. => carried_of_keptOut (kept_execCoreReset _ _ s (kept_refl s))
  | .resetComplete .. => carried_of_keptOut (kept_execResetComplete _ _ s (kept_refl s))
  | .telemetryControl .. => carried_of_keptOut (kept_execTelemetryControl _ _ _ s (kept_refl s))
  | .spillControl .. => carried_of_keptOut (kept_execSpillControl _ _ _ s (kept_refl s))
  | .ridgeCqConfig .. => carried_of_keptOut (kept_execRidgeCqConfig _ _ _ _ s (kept_refl s))
  | .ridgeCqRelease .. => carried_of_keptOut (kept_execRidgeCqRelease _ _ _ _ s (kept_refl s))
  | .telemetrySnapshot .. => carried_of_keptOut (kept_execTelemetrySnapshot _ s (kept_refl s))
  | .eventSpill .. => carried_of_keptOut (kept_execEventSpill _ s (kept_refl s))
  | .powerOn .. => carried_of_keptOut (kept_execPowerOn _ _ _ s (kept_refl s))
  | .bringupFunctionDone .. => carried_of_keptOut (kept_execBringupFunctionDone _ _ s (kept_refl s))
  | .bringupDeadline => carried_of_keptOut (kept_execBringupDeadline s (kept_refl s))
  | .supplyWarn .. => carried_of_keptOut (kept_execSupplyWarn _ s (kept_refl s))
  | .supplyRecovered .. => carried_of_keptOut (kept_execSupplyRecovered _ s (kept_refl s))
  | .undervoltage .. => carried_of_keptOut (kept_execUndervoltage _ s (kept_refl s))
  | .overvoltage .. => carried_of_keptOut (kept_execOvervoltage _ s (kept_refl s))
  | .pdBreak => carried_of_keptOut (kept_execPdBreak s (kept_refl s))
  | .thermalTrip sl tj => carried_of_keptOut (kept_execThermalTrip sl tj s (kept_refl s))
  | .coolantWarn .. => carried_of_keptOut (kept_execCoolantWarn _ _ _ s (kept_refl s))
  | .slopeHot .. => carried_of_keptOut (kept_execSlopeHot _ _ _ s (kept_refl s))
  | .slopeCool .. => carried_of_keptOut (kept_execSlopeCool _ _ _ s (kept_refl s))
  | .governorPeriod .. => carried_of_keptOut (kept_execGovernorPeriod _ _ s (kept_refl s))
  | .clamp .. => carried_of_keptOut (kept_execClamp _ s (kept_refl s))
  | .standbyEnter .. => carried_of_keptOut (kept_execStandbyEnter _ _ _ s (kept_refl s))
  | .standbyExit .. => carried_of_keptOut (kept_execStandbyExit _ _ _ s (kept_refl s))
  | .ridgeWatchdogExpiry .. => carried_of_keptOut (kept_execRidgeWatchdogExpiry _ s (kept_refl s))
  | .testWindowOpen .. => carried_of_keptOut (kept_execTestWindowOpen _ s (kept_refl s))
  | .testWindowAbandon .. => carried_of_keptOut (kept_execTestWindowAbandon _ s (kept_refl s))
  | .migrationSwitch .. => carried_of_keptOut (kept_execMigrationSwitch _ s (kept_refl s))
  | .testItemResult .. => carried_of_keptOut (kept_execTestItemResult _ _ _ _ _ s (kept_refl s))
  | .sweepItem .. => carried_of_keptOut (kept_execSweepItem _ _ _ _ _ _ s (kept_refl s))
  | .testWindowLate .. => carried_of_keptOut (kept_execTestWindowLate _ _ s (kept_refl s))
  | .presenceButton => carried_of_keptOut (kept_execPresenceButton s (kept_refl s))
  | .serviceJumper .. => carried_of_keptOut (kept_execServiceJumper _ s (kept_refl s))
  | .presenceWindowExpiry => carried_of_keptOut (kept_execPresenceWindowExpiry s (kept_refl s))
  | .tamperBreak => carried_of_keptOut (kept_execTamperBreak s (kept_refl s))
  | .ownerKeyInstall .. => carried_of_keptOut (kept_execOwnerKeyInstall _ _ _ s (kept_refl s))
  | .ownerKeyRevoke .. => carried_of_keptOut (kept_execOwnerKeyRevoke _ _ _ s (kept_refl s))
  | .ownerPolicyWrite .. => carried_of_keptOut (kept_execOwnerPolicyWrite _ _ _ s (kept_refl s))
  | .debugUnlock .. => carried_of_keptOut (kept_execDebugUnlock _ _ _ s (kept_refl s))
  | .secureBankAccess .. => carried_of_keptOut (kept_execSecureBankAccess _ _ _ _ s (kept_refl s))
  | .coolantRestored .. => carried_of_keptOut (kept_execCoolantRestored _ _ _ s (kept_refl s))
  | .digestComparisonOverdue .. => carried_of_keptOut (kept_execDigestComparisonOverdue _ s (kept_refl s))
  | .secureBankWipeEnd => carried_of_keptOut (kept_execSecureBankWipeEnd s (kept_refl s))

/-- A step with commands waiting is the front one's effect on the state with the rest of the queue. -/
theorem step_cons {r : List Instr} (h : s.pending = c :: r) : step s = exec c { s with pending := r } := by
  simp only [step, h]

end Sys2Proof.Machine

open Sys2Proof Sys2Proof.Machine

/-- Settles O1: the queue's front names the command, and the rest is what remains of it. -/
theorem stepRunsFront : Obligations.StepRunsFront :=
  fun _ r s => step_cons (s := { s with pending := _ :: r }) rfl

/-- Settles O59: a nanosecond leaves memory, and every command keeps its form. -/
theorem memoryStaysCanonical : Obligations.MemoryStaysCanonical := by
  intro s t hmem hstep
  cases hpending : s.pending with
  | nil =>
    rw [step_of_empty hpending] at hstep
    exact (keptIf_next (kept_tick s (kept_refl s)) t hstep).mem hmem
  | cons c r =>
    rw [step_cons hpending] at hstep
    exact ((exec_carried _ c).kept t hstep).mem hmem

/-- Settles O60: a nanosecond needs no command, and a well-formed command at the front answers and leaves the rest of the queue. -/
theorem wellFormedCommandsAreCarriedOut : Obligations.WellFormedCommandsAreCarriedOut := by
  intro s hwf
  cases hpending : s.pending with
  | nil => exact ⟨_, step_of_empty hpending, (kept_tick s (kept_refl s)).pending.trans hpending⟩
  | cons c r =>
    have hc := exec_carried { s with pending := r } c
    obtain ⟨t, hnext⟩ := hc.answers (hwf c (hpending ▸ List.mem_cons_self))
    exact ⟨t, (step_cons hpending).trans hnext, (hc.kept t hnext).pending⟩

end

section
/-! The module after power-on (O58): no table lists its cores, and their streams' registers are clear (Table 15-9). -/

namespace Sys2Proof.Machine

theorem State.ctx_reset (n : Nat) (t : Stream) : (State.reset.core n).ctx t = {} := by cases t <;> rfl

theorem StreamCtx.sreg_fresh (k : Nat) : ({} : StreamCtx).sreg k = 0 := by
  unfold StreamCtx.sreg
  split <;> rfl

theorem StreamCtx.dreg_fresh (k : Nat) : ({} : StreamCtx).dreg k = none := by
  unfold StreamCtx.dreg
  split <;> rfl

end Sys2Proof.Machine

open Sys2Proof Sys2Proof.Machine

/-- Settles O58: what no table lists reads as clear, and so does every register of a stream that nothing has written. -/
theorem resetState : Obligations.ResetState := by
  refine ⟨rfl, wf_reset, fun _ => rfl, rfl, rfl, rfl, rfl, rfl, by decide, rfl, fun n => ⟨fun _ => rfl, rfl, fun t k => ?_, rfl⟩⟩
  rw [State.sreg, State.ctx_reset]
  exact ⟨StreamCtx.sreg_fresh k, StreamCtx.dreg_fresh k⟩

end

section
/-! The event log (O47, O49, O50): which events a command adds, which of those already there stay among its newest, and what the vote of an
item and the evaluation of the guarantee leave beside it (R237, R308, R345). -/

namespace Sys2Proof.Machine

namespace State

/-- An event of the code is among the n newest records. -/
def Recent (s : State) (n : Nat) (code : BitVec 16) : Prop := ∃ e, e ∈ s.log.records.take n ∧ e.code = code

/-- Every record of the code in t is one of s. -/
def NoNew (s t : State) (code : BitVec 16) : Prop := ∀ e, e ∈ t.log.records → e.code = code → e ∈ s.log.records

/-- Everything of the module but its health and its events. -/
def butEvents (s : State) : State := { s with health := {}, log := { boot := s.log.boot } }

section
variable {s t : State} {n : Nat} {c : BitVec 16}

theorem Recent.of_log (h : s.Recent n c) (hlog : t.log = s.log) : t.Recent n c := by
  unfold Recent
  rwa [hlog]

theorem Recent.mono {m : Nat} (h : s.Recent n c) (hle : n ≤ m) : s.Recent m c := by
  obtain ⟨e, he, hcode⟩ := h
  exact ⟨e, (List.take_sublist_take_left hle).subset he, hcode⟩

theorem Recent.record (h : s.Recent n c) : ∃ e, e ∈ s.log.records ∧ e.code = c := by
  obtain ⟨e, he, hcode⟩ := h
  exact ⟨e, List.mem_of_mem_take he, hcode⟩

theorem recent_raise_self (s : State) (code kind source : Nat) (fields : List (Nat × Nat)) :
    (s.raise code kind source fields).Recent 1 (BitVec.ofNat 16 code) :=
  ⟨_, List.mem_cons_self, rfl⟩

/-- The log keeps 4,096 records, so one more leaves the newest of before (R308). -/
theorem Recent.raise (h : s.Recent n c) (hn : n < 4096) (code kind source : Nat) (fields : List (Nat × Nat)) :
    (s.raise code kind source fields).Recent (n + 1) c := by
  obtain ⟨e, he, hcode⟩ := h
  refine ⟨e, ?_, hcode⟩
  simp only [State.raise, List.take_take, Nat.min_eq_left (show n + 1 ≤ 4096 by omega)]
  exact List.mem_cons_of_mem _ he

theorem Recent.foldl {α : Type} {f : State → α → State}
    (hf : ∀ s x n, Recent s n c → n < 4096 → (f s x).Recent (n + 1) c) (l : List α) :
    ∀ {s n}, Recent s n c → n + l.length ≤ 4096 → (l.foldl f s).Recent (n + l.length) c := by
  induction l with
  | nil => exact fun h _ => h
  | cons x r ih =>
    intro s n h hn
    rw [List.length_cons] at hn ⊢
    exact (ih (hf s x n h (by omega)) (by omega)).mono (by omega)

theorem noNew_of_log (h : t.log = s.log) : s.NoNew t c := fun _ he _ => h ▸ he

theorem NoNew.trans {u : State} (h : s.NoNew t c) (k : t.NoNew u c) : s.NoNew u c := fun e he hc => h e (k e he hc) hc

theorem noNew_raise (s : State) {code : Nat} (hcode : BitVec.ofNat 16 code ≠ c) (kind source : Nat) (fields : List (Nat × Nat)) :
    s.NoNew (s.raise code kind source fields) c := by
  intro e he hc
  obtain rfl | hold := List.mem_cons.mp (List.mem_of_mem_take he)
  · exact absurd hc hcode
  · exact hold

end

/-! ### Votes and the guarantee -/

theorem butEvents_vote (s : State) (i : Nat) : (s.vote i).butEvents = s.butEvents := by
  unfold vote
  split <;> rfl

theorem butEvents_votes (s : State) (l : List Nat) : (s.votes l).butEvents = s.butEvents :=
  List.foldlRecOn (motive := fun t : State => t.butEvents = s.butEvents) l vote rfl fun t ht i _ => (butEvents_vote t i).trans ht

theorem Recent.vote {s : State} {n : Nat} {c : BitVec 16} (h : s.Recent n c) (hn : n < 4096) (i : Nat) : (s.vote i).Recent (n + 1) c := by
  unfold State.vote
  split
  · exact h.mono (Nat.le_succ n)
  · exact (h.of_log rfl).raise hn ..

theorem Recent.votes {s : State} {n : Nat} {c : BitVec 16} (h : s.Recent n c) (l : List Nat) (hn : n + l.length ≤ 4096) :
    (s.votes l).Recent (n + l.length) c :=
  Recent.foldl (fun _ i _ h hn => h.vote hn i) l h hn

/-- One lapse for each condition that stops holding. -/
def lapse (before now : BitVec 6) (s : State) (b : Nat) : State :=
  if before.getLsbD b && !now.getLsbD b then s.raise 0x0119 0 0 [(1, b)] else s

/-- The conditions as they are now, with the lapses of those that stopped holding. -/
def lapsed (s : State) : State :=
  (List.range 6).foldl (lapse s.health.conditions s.guaranteeBits)
    { s with health := { s.health with conditions := s.guaranteeBits, held := s.guaranteeBits == 63 } }

theorem settleGuarantee_cases (s : State) : s.settleGuarantee = s ∨ s.settleGuarantee = s.lapsed ∨
    s.settleGuarantee = s.lapsed.raise 0x011A 0 0 [] := by
  unfold settleGuarantee
  split
  · exact .inl rfl
  · dsimp only
    split
    · exact .inr (.inr rfl)
    · exact .inr (.inl rfl)

theorem butEvents_lapse (x y : BitVec 6) (s : State) (b : Nat) : (lapse x y s b).butEvents = s.butEvents := by
  unfold lapse
  split <;> rfl

theorem butEvents_lapsed (s : State) : s.lapsed.butEvents = s.butEvents :=
  List.foldlRecOn (motive := fun t : State => t.butEvents = s.butEvents) _ _ rfl fun t ht b _ => (butEvents_lapse _ _ t b).trans ht

theorem butEvents_settleGuarantee (s : State) : s.settleGuarantee.butEvents = s.butEvents := by
  obtain h | h | h := s.settleGuarantee_cases
  · rw [h]
  · rw [h, butEvents_lapsed]
  · rw [h]
    exact s.butEvents_lapsed

theorem power_settleGuarantee (s : State) : s.settleGuarantee.power = s.power :=
  (congrArg State.power s.butEvents_settleGuarantee :)

theorem Recent.settleGuarantee {s : State} {n : Nat} {c : BitVec 16} (h : s.Recent n c) (hn : n + 7 ≤ 4096) :
    s.settleGuarantee.Recent (n + 7) c := by
  have hlapsed : s.lapsed.Recent (n + 6) c := by
    refine Recent.foldl (fun t b m ht hm => ?_) (List.range 6) (h.of_log rfl) (by rw [List.length_range]; omega)
    unfold lapse
    split
    · exact ht.raise hm ..
    · exact ht.mono (Nat.le_succ m)
  obtain heq | heq | heq := s.settleGuarantee_cases
  · rw [heq]
    exact h.mono (by omega)
  · rw [heq]
    exact hlapsed.mono (by omega)
  · rw [heq]
    exact hlapsed.raise (by omega) ..

theorem noNew_settleGuarantee (s : State) {c : BitVec 16} (hlapse : 0x0119 ≠ c) (hrestored : 0x011A ≠ c) : s.NoNew s.settleGuarantee c := by
  have hlapsed : s.NoNew s.lapsed c := by
    refine List.foldlRecOn (motive := fun t : State => s.NoNew t c) _ _ (noNew_of_log rfl) fun t ht b _ => ?_
    unfold lapse
    split
    · exact ht.trans (t.noNew_raise hlapse _ _ _)
    · exact ht
  obtain heq | heq | heq := s.settleGuarantee_cases
  · rw [heq]
    exact noNew_of_log rfl
  · rw [heq]
    exact hlapsed
  · rw [heq]
    exact hlapsed.trans (s.lapsed.noNew_raise hrestored _ _ _)

end State

end Sys2Proof.Machine
end

section
/-! Supply and cooling (O49): shutdowns (R324), the supply and the coolant as they enter and leave their limits (R322, R323, R325), each
slope's readings, and the governor's period, by what it leaves each slope's clock (R328 to R331). -/

namespace Sys2Proof.Machine

namespace State

/-! ### Shutdowns (R324) -/

/-- A protective shutdown leaves what stands without power, and its cause. -/
theorem shutdown_eq {s : State} (h : s.power.off = false) (cause : Nat) : s.shutdown cause =
    { s.retain with power := { s.retain.power with off := true, causeRecord := BitVec.ofNat 8 cause } } := by
  simp only [shutdown, h, Bool.false_eq_true, if_false]

/-! ### The input (R322, R323) -/

/-- The input as it stands in the reduced range. -/
def withLow (s : State) (mv : BitVec 16) : State :=
  { s with power :=
    { s.power with inputMv := mv, outOfRange := true, lowNow := true, reduced := s.power.reduced || decide (mv.toNat < 50000) } }

theorem supplyLow_entered {s : State} (h : s.power.lowNow = false) (mv : BitVec 16) :
    s.supplyLow mv = ((s.withLow mv).raise 0x0101 0 0 [(2, mv.toNat)]).settleGuarantee := by
  simp only [supplyLow, h, Bool.false_eq_true, if_false]
  rfl

theorem supplyLow_lasts {s : State} (h : s.power.lowNow = true) (mv : BitVec 16) :
    s.supplyLow mv = (s.withLow mv).settleGuarantee := by
  simp only [supplyLow, h, if_true]
  rfl

theorem power_supplyLow (s : State) (mv : BitVec 16) : (s.supplyLow mv).power = (s.withLow mv).power := by
  cases h : s.power.lowNow with
  | false => rw [supplyLow_entered h, power_settleGuarantee, power_raise]
  | true => rw [supplyLow_lasts h, power_settleGuarantee]

theorem exists_record_supplyLow {s : State} (h : s.power.lowNow = false) (mv : BitVec 16) :
    ∃ e, e ∈ (s.supplyLow mv).log.records ∧ e.code = 0x0101 := by
  rw [supplyLow_entered h]
  exact ((recent_raise_self ..).settleGuarantee (by omega)).record

theorem noNew_supplyLow {s : State} (h : s.power.lowNow = true) (mv : BitVec 16) : s.NoNew (s.supplyLow mv) 0x0101 := by
  rw [supplyLow_lasts h]
  exact (s.withLow mv).noNew_settleGuarantee (by decide) (by decide)

theorem reducedRange_of_operating {mv : Nat} (h : operating mv = true) : reducedRange mv = false := by
  simp only [operating, reducedRange, decide_eq_true_eq, Bool.or_eq_false_iff, decide_eq_false_iff_not] at h ⊢
  omega

/-! ### Slopes -/

/-- The slope with readings that make it hot. -/
def heated (s : State) (sl : Nat) (tj stack : BitVec 16) : State := s.modSlope sl fun y => { y with tj := tj, stackMax := stack, hot := true }

theorem slope_heated (s : State) (sl : Nat) (tj stack : BitVec 16) :
    (s.heated sl tj stack).slope sl = { s.slope sl with tj := tj, stackMax := stack, hot := true } := by
  rw [heated, slope_modSlope, if_pos rfl]

/-- The slope has had no THERMAL_LIMIT within 60 s. -/
def limitDue (s : State) (sl : Nat) : Bool :=
  match (s.slope sl).lastThermal with
  | some t => decide (t + thermalGap ≤ s.clock)
  | none => true

end State

section Supply
variable {s : State} (hon : s.power.off = false)
include hon

theorem execSupplyWarn_reduced {mv : BitVec 16} (h : State.reducedRange mv.toNat = true) : execSupplyWarn mv s = .next (s.supplyLow mv) := by
  simp only [execSupplyWarn, hon, h, Bool.false_eq_true, if_false, if_true]

/-- R324: the input is beyond a limit. -/
theorem execSupplyWarn_beyond {mv : BitVec 16} (hreduced : State.reducedRange mv.toNat = false)
    (hoperating : State.operating mv.toNat = false) :
    execSupplyWarn mv s = .next ({ s with power := { s.power with
      inputMv := mv, lowNow := false, outOfRange := true, reduced := s.power.reduced || decide (mv.toNat < 50000) } } : State).settleGuarantee := by
  simp only [execSupplyWarn, hon, hreduced, hoperating, Bool.false_eq_true, if_false]

/-- R323: the input is back in the operating range. -/
theorem execSupplyWarn_operating {mv : BitVec 16} (h : State.operating mv.toNat = true) :
    execSupplyWarn mv s = .next ({ s with power := { s.power with inputMv := mv, lowNow := false } } : State).settleGuarantee := by
  simp only [execSupplyWarn, hon, State.reducedRange_of_operating h, h, Bool.false_eq_true, if_false, if_true]

theorem execSupplyRecovered_operating {mv : BitVec 16} (h : State.operating mv.toNat = true) :
    execSupplyRecovered mv s = .next ({ s with power :=
      { s.power with inputMv := mv, outOfRange := false, lowNow := false, reduced := false } } : State).settleGuarantee := by
  simp only [execSupplyRecovered, hon, h, Bool.not_true, Bool.or_self, Bool.false_eq_true, if_false]

/-! ### The coolant (R325) -/

theorem execCoolantWarn_begins {inlet outlet flow : BitVec 16} (h : coolantOk inlet flow = false) (hwas : s.power.coolBad = false) :
    execCoolantWarn inlet outlet flow s = .next
      ((s.coolant inlet outlet flow true).raise 0x0102 0 0 [(2, inlet.toNat), (2, flow.toNat)]).settleGuarantee := by
  simp only [execCoolantWarn, hon, h, hwas, Bool.or_self, Bool.false_eq_true, if_false]

theorem execCoolantWarn_lasts {inlet outlet flow : BitVec 16} (h : coolantOk inlet flow = false) (hwas : s.power.coolBad = true) :
    execCoolantWarn inlet outlet flow s = .next (s.coolant inlet outlet flow true).settleGuarantee := by
  simp only [execCoolantWarn, hon, h, hwas, Bool.or_self, Bool.false_eq_true, if_false, if_true]

theorem execCoolantRestored_ok {inlet outlet flow : BitVec 16} (h : coolantOk inlet flow = true) :
    execCoolantRestored inlet outlet flow s = .next (s.coolant inlet outlet flow false).settleGuarantee := by
  simp only [execCoolantRestored, hon, h, Bool.not_true, Bool.or_self, Bool.false_eq_true, if_false]

/-! ### Each slope's readings (R325) -/

theorem execSlopeHot_trips (sl : SlopeId) {tj stack : BitVec 16} (h : hotReading tj stack = true) (htrip : 1150 ≤ tj.toInt) :
    execSlopeHot sl tj stack s = .next (s.shutdown 4) := by
  simp only [execSlopeHot, hon, h, htrip, Bool.not_true, Bool.or_self, Bool.false_eq_true, if_false, if_true]

/-- A slope that was hot before is hot still, without an event. -/
theorem execSlopeHot_lasts {sl : SlopeId} {tj stack : BitVec 16} (h : hotReading tj stack = true) (htrip : tj.toInt < 1150)
    (hwas : (s.slope sl).hot = true) : execSlopeHot sl tj stack s = .next (s.heated sl tj stack) := by
  simp only [execSlopeHot, hon, h, Int.not_le.mpr htrip, hwas, Bool.not_true, Bool.or_self, Bool.false_and, Bool.false_eq_true, if_false]
  rfl

/-- A slope that becomes hot has its THERMAL_LIMIT unless it had one less than 60 s before. -/
theorem execSlopeHot_begins {sl : SlopeId} {tj stack : BitVec 16} (h : hotReading tj stack = true) (htrip : tj.toInt < 1150)
    (hwas : (s.slope sl).hot = false) :
    execSlopeHot sl tj stack s = .next (if s.limitDue sl then
      ((s.heated sl tj stack).modSlope sl fun y => { y with lastThermal := some s.clock }).raise 0x0103 1 sl [(2, tj.toNat), (2, stack.toNat)]
      else s.heated sl tj stack) := by
  simp only [execSlopeHot, hon, h, Int.not_le.mpr htrip, hwas, Bool.not_true, Bool.not_false, Bool.or_self, Bool.true_and, Bool.false_eq_true,
    if_false]
  rw [apply_ite Host.Outcome.next]
  rfl

theorem execSlopeCool_cools (sl : SlopeId) {tj stack : BitVec 16} (h : hotReading tj stack = false) :
    execSlopeCool sl tj stack s = .next (s.modSlope sl fun y => { y with tj := tj, stackMax := stack, hot := false }) := by
  simp only [execSlopeCool, hon, h, Bool.or_self, Bool.false_eq_true, if_false]

end Supply

/-! ### The governor (R328 to R331) -/

theorem bestSlope_mem {key : Nat → Nat} {l : List Nat} {k : Nat} (h : bestSlope key l = some k) : k ∈ l := by
  induction l generalizing k with
  | nil => exact absurd h (by simp [bestSlope])
  | cons a r ih =>
    rw [bestSlope] at h
    split at h
    · exact Option.some.inj h ▸ List.mem_cons_self
    · next j hj =>
      split at h
      · exact Option.some.inj h ▸ List.mem_cons_self
      · exact Option.some.inj h ▸ List.mem_cons_of_mem a (ih hj)

theorem execGovernorPeriod_governs {s : State} (hon : s.power.off = false) (p : Nat) (watts : List Nat) :
    execGovernorPeriod p watts s = .next (s.govern p watts) := by
  simp only [execGovernorPeriod, hon, Bool.false_eq_true, if_false]

/-- R331: the power is above the limit that the clamp keeps. -/
theorem execClamp_above {s : State} {w : Nat} (hon : s.power.off = false) (hw : 2600 < w) : execClamp w s = .next
    (({ s.eachSlope (fun x => { x with fMhz := min x.fMhz 800 }) with power :=
      { (s.eachSlope fun x => { x with fMhz := min x.fMhz 800 }).power with
        clampEvents := sat32 (s.eachSlope fun x => { x with fMhz := min x.fMhz 800 }).power.clampEvents 1 } } : State).raise
      0x0105 0 0 [(2, w)]) := by
  simp only [execClamp, hon, Nat.not_le.mpr hw, decide_false, Bool.or_self, Bool.false_eq_true, if_false]

/-- A slope's clock stands on the governor's grid of 50 MHz, at or below the ceiling. -/
structure Slope.Governed (x : Slope) (ceiling : Nat) : Prop where
  same : x.ceiling = ceiling
  ceilingGrid : ceiling % 50 = 0
  grid : x.fMhz % 50 = 0
  below : x.fMhz ≤ ceiling

namespace Slope.Governed
variable {x : Slope} {c : Nat} (h : x.Governed c)
include h

theorem throttled (n : Nat) : Slope.Governed { x with throttle := n } c := ⟨h.same, h.ceilingGrid, h.grid, h.below⟩

theorem slower (hfast : 600 < x.fMhz) : Slope.Governed { x with fMhz := x.fMhz - 50 } c := by
  obtain ⟨hsame, hceiling, hgrid, hbelow⟩ := h
  exact ⟨hsame, hceiling, by dsimp only; omega, by dsimp only; omega⟩

theorem faster (hslow : x.fMhz < x.ceiling) : Slope.Governed { x with fMhz := x.fMhz + 50 } c := by
  obtain ⟨rfl, hceiling, hgrid, -⟩ := h
  exact ⟨rfl, hceiling, by dsimp only; omega, by dsimp only; omega⟩

theorem down : x.down.Governed c := by
  unfold Slope.down
  split
  · exact h.slower ‹_›
  · exact h.throttled _

end Slope.Governed

namespace State

/-- Everything of the module but its slopes. -/
def butSlopes (s : State) : State := { s with slopes := [] }

theorem butSlopes_eachSlope (s : State) (f : Slope → Slope) : (s.eachSlope f).butSlopes = s.butSlopes :=
  List.foldlRecOn (motive := fun t : State => t.butSlopes = s.butSlopes) _ _ rfl fun _ ht _ _ => ht

theorem slope_eachSlope (s : State) (f : Slope → Slope) {k : Nat} (hk : k < 4) : (s.eachSlope f).slope k = f (s.slope k) := by
  have hrange : List.range numSlopes = [0, 1, 2, 3] := rfl
  simp only [eachSlope, hrange, List.foldl_cons, List.foldl_nil, slope_modSlope]
  obtain rfl | rfl | rfl | rfl : k = 0 ∨ k = 1 ∨ k = 2 ∨ k = 3 := by omega
  all_goals rfl

/-- Every slope's clock is on the grid, at or below the ceiling that the slope has in s. -/
def Governs (s t : State) : Prop := ∀ k, k < 4 → (t.slope k).Governed (s.slope k).ceiling

theorem Governs.eachSlope {s t : State} (h : s.Governs t) {f : Slope → Slope} (hf : ∀ x c, Slope.Governed x c → (f x).Governed c) :
    s.Governs (t.eachSlope f) := by
  intro k hk
  rw [slope_eachSlope t f hk]
  exact hf _ _ (h k hk)

theorem Governs.modSlope {s t : State} (h : s.Governs t) {j : Nat} {f : Slope → Slope}
    (hf : ∀ c, (t.slope j).Governed c → (f (t.slope j)).Governed c) : s.Governs (t.modSlope j f) := by
  intro k hk
  rw [slope_modSlope]
  split
  · next hkj =>
    subst hkj
    exact hf _ (h k hk)
  · exact h k hk

theorem Governs.governDown {s t : State} (h : s.Governs t) (watts : List Nat) : s.Governs (t.governDown watts) := by
  unfold State.governDown
  split
  · next k hbest =>
    have hfast : 600 < (t.slope k).fMhz := of_decide_eq_true (List.mem_filter.mp (bestSlope_mem hbest)).2
    exact h.modSlope fun _ hk => hk.slower hfast
  · exact h.eachSlope fun _ _ hx => hx.throttled _

theorem Governs.governUp {s t : State} (h : s.Governs t) : s.Governs t.governUp := by
  unfold State.governUp
  split
  · exact h.eachSlope fun _ _ hx => hx.throttled _
  · split
    · next k hbest =>
      have hslow : (t.slope k).fMhz < (t.slope k).ceiling := of_decide_eq_true (List.mem_filter.mp (bestSlope_mem hbest)).2
      exact h.modSlope fun _ hk => hk.faster hslow
    · exact h

theorem butSlopes_governDown (s : State) (watts : List Nat) : (s.governDown watts).butSlopes = s.butSlopes := by
  unfold governDown
  split
  · rfl
  · exact butSlopes_eachSlope ..

theorem butSlopes_governUp (s : State) : s.governUp.butSlopes = s.butSlopes := by
  unfold governUp
  split
  · exact butSlopes_eachSlope ..
  · split <;> rfl

/-- No clock above its ceiling, and each hot slope one step down. -/
def capped (s : State) : State :=
  (s.eachSlope fun x => { x with fMhz := min x.fMhz x.ceiling }).eachSlope fun x => if x.hot then x.down else x

theorem butSlopes_capped (s : State) : s.capped.butSlopes = s.butSlopes := by
  rw [capped, butSlopes_eachSlope, butSlopes_eachSlope]

theorem slope_capped (s : State) {k : Nat} (hk : k < 4) : s.capped.slope k =
    if (s.slope k).hot then Slope.down { s.slope k with fMhz := min (s.slope k).fMhz (s.slope k).ceiling }
    else { s.slope k with fMhz := min (s.slope k).fMhz (s.slope k).ceiling } := by
  rw [capped, slope_eachSlope _ _ hk, slope_eachSlope _ _ hk]

theorem governs_capped {s : State} (h : ∀ j, j < 4 → (s.slope j).fMhz % 50 = 0 ∧ (s.slope j).ceiling % 50 = 0) : s.Governs s.capped := by
  intro k hk
  obtain ⟨hgrid, hceiling⟩ := h k hk
  have hmin : Slope.Governed { s.slope k with fMhz := min (s.slope k).fMhz (s.slope k).ceiling } (s.slope k).ceiling := by
    refine ⟨rfl, hceiling, ?_, Nat.min_le_right ..⟩
    dsimp only
    omega
  rw [slope_capped s hk]
  split
  · exact hmin.down
  · exact hmin

/-- Consecutive periods, with this one, that leave more than 50 W below the cap. -/
def roomPeriods (s : State) (p : Nat) : Nat := if p + 50 < s.effectiveCap then s.power.lowPeriods + 1 else 0

def metered (s : State) (p : Nat) : State :=
  { s with power := { s.power with inputW := BitVec.ofNat 16 p, lowPeriods := min (s.roomPeriods p) 10 } }

def cool (s : State) : Bool :=
  (List.range numSlopes).all fun k => decide ((s.slope k).tj.toInt < 1000) && decide ((s.slope k).stackMax.toInt < 900)

/-- A period caps the clocks and meters the power, then lowers or raises a clock. -/
theorem govern_eq (s : State) (p : Nat) (watts : List Nat) : s.govern p watts =
    if s.capped.effectiveCap < p then (s.capped.metered p).governDown watts
    else if decide (10 ≤ s.capped.roomPeriods p) && (s.capped.metered p).cool then (s.capped.metered p).governUp
    else s.capped.metered p := rfl

theorem govern_cases (s : State) (p : Nat) (watts : List Nat) :
    s.govern p watts = s.capped.metered p ∨ s.govern p watts = (s.capped.metered p).governUp ∨
      s.govern p watts = (s.capped.metered p).governDown watts := by
  rw [govern_eq]
  split
  · exact .inr (.inr rfl)
  · split
    · exact .inr (.inl rfl)
    · exact .inl rfl

theorem governs_govern {s : State} (h : ∀ j, j < 4 → (s.slope j).fMhz % 50 = 0 ∧ (s.slope j).ceiling % 50 = 0) (p : Nat) (watts : List Nat) :
    s.Governs (s.govern p watts) := by
  have hmetered : s.Governs (s.capped.metered p) := governs_capped h
  obtain hcase | hcase | hcase := s.govern_cases p watts
  · rw [hcase]
    exact hmetered
  · rw [hcase]
    exact hmetered.governUp
  · rw [hcase]
    exact hmetered.governDown watts

theorem butSlopes_govern (s : State) (p : Nat) (watts : List Nat) : (s.govern p watts).butSlopes = (s.capped.metered p).butSlopes := by
  obtain hcase | hcase | hcase := s.govern_cases p watts
  · rw [hcase]
  · rw [hcase, butSlopes_governUp]
  · rw [hcase, butSlopes_governDown]

theorem govern_above {s : State} {p : Nat} (h : s.effectiveCap < p) (watts : List Nat) :
    s.govern p watts = (s.capped.metered p).governDown watts := by
  have hpower : s.capped.power = s.power := (congrArg State.power s.butSlopes_capped :)
  have hcap : s.capped.effectiveCap = s.effectiveCap := by rw [effectiveCap, hpower, effectiveCap]
  have habove : s.capped.effectiveCap < p := by rwa [hcap]
  rw [govern_eq, if_pos habove]

/-- Of four slopes one alone passes a test. -/
theorem filter_slopes {f : Nat → Bool} {k : Nat} (hk : k < 4) (hf : f k = true) (hother : ∀ j, j < 4 → j ≠ k → f j = false) :
    (List.range numSlopes).filter f = [k] := by
  have hrange : List.range numSlopes = [0, 1, 2, 3] := rfl
  have hall : ∀ j, j < 4 → f j = decide (j = k) := fun j hj => by
    by_cases h : j = k
    · simp [h, hf]
    · simp [h, hother j hj h]
  rw [hrange]
  obtain rfl | rfl | rfl | rfl : k = 0 ∨ k = 1 ∨ k = 2 ∨ k = 3 := by omega
  all_goals simp [hall]

/-- R330: above the cap the one slope that runs faster than 600 MHz gives way. -/
theorem slope_governDown_one {s : State} {k : Nat} (hk : k < 4) (hfast : 600 < (s.slope k).fMhz)
    (hslow : ∀ j, j < 4 → j ≠ k → (s.slope j).fMhz ≤ 600) (watts : List Nat) :
    ((s.governDown watts).slope k).fMhz = (s.slope k).fMhz - 50 := by
  have hone : (List.range numSlopes).filter (fun j => decide (600 < (s.slope j).fMhz)) = [k] :=
    filter_slopes hk (decide_eq_true hfast) fun j hj hne => decide_eq_false (Nat.not_lt.mpr (hslow j hj hne))
  simp only [governDown, hone, bestSlope, slope_modSlope, if_true]

end State

end Sys2Proof.Machine

open Sys2Proof Sys2Proof.Machine State

/-- Settles O49: each command takes the branch that its readings name; the evaluation of the guarantee that follows leaves the power block,
keeps the event and adds none of its code; and a period keeps every clock on its grid below its ceiling. -/
theorem supplyAndCooling : Obligations.SupplyAndCooling := by
  refine ⟨fun s hon => ?shutdowns, fun s hon => ⟨fun mv h => ?reduced, fun mv hreduced hoperating => ?beyond, fun mv h => ?operating,
    fun inlet outlet flow => ?coolant, fun sl tj stack => ?slope⟩, fun s w hon hw => ?clamp, fun s p l hon hgrid => ?period,
    fun s l k hk hon hidle hfast hslow => ?above⟩
  case shutdowns =>
    refine ⟨fun mv h => ⟨s.shutdown 1, if_pos h, ?_⟩, fun mv h => ⟨s.shutdown 2, if_pos h, ?_⟩, ⟨s.shutdown 3, rfl, ?_⟩,
      fun sl tj h => ⟨s.shutdown 4, if_pos h, ?_⟩⟩
    all_goals rw [shutdown_eq hon]
    · exact ⟨rfl, rfl, rfl, rfl, rfl⟩
    · exact ⟨rfl, rfl, rfl⟩
    · exact ⟨rfl, rfl, rfl, rfl⟩
    · exact ⟨rfl, rfl, rfl⟩
  case reduced =>
    refine ⟨_, execSupplyWarn_reduced hon h, ?_⟩
    rw [power_supplyLow]
    refine ⟨rfl, rfl, rfl, fun hlow => ?_, fun hwas => exists_record_supplyLow hwas mv, fun hwas => noNew_supplyLow hwas mv⟩
    simp [withLow, hlow]
  case beyond =>
    refine ⟨_, execSupplyWarn_beyond hon hreduced hoperating, ?_⟩
    rw [power_settleGuarantee]
    exact ⟨rfl, rfl, noNew_settleGuarantee _ (by decide) (by decide)⟩
  case operating =>
    refine ⟨⟨_, execSupplyWarn_operating hon h, ?_⟩, ⟨_, execSupplyRecovered_operating hon h, ?_⟩⟩
    · rw [power_settleGuarantee]
      exact ⟨rfl, rfl, rfl, noNew_settleGuarantee _ (by decide) (by decide)⟩
    · rw [power_settleGuarantee]
      exact ⟨rfl, rfl, rfl⟩
  case coolant =>
    refine ⟨fun h => ?_, fun h => ⟨_, execCoolantRestored_ok hon h, ?_⟩⟩
    · cases hwas : s.power.coolBad with
      | false =>
        refine ⟨_, execCoolantWarn_begins hon h hwas, ?_⟩
        rw [power_settleGuarantee]
        exact ⟨rfl, rfl, fun _ => ((recent_raise_self ..).settleGuarantee (by omega)).record, fun h => absurd h Bool.false_ne_true⟩
      | true =>
        refine ⟨_, execCoolantWarn_lasts hon h hwas, ?_⟩
        rw [power_settleGuarantee]
        exact ⟨rfl, rfl, fun h => absurd h.symm Bool.false_ne_true, fun _ => noNew_settleGuarantee _ (by decide) (by decide)⟩
    · rw [power_settleGuarantee]
      exact ⟨rfl, rfl⟩
  case slope =>
    refine ⟨fun h htrip => execSlopeHot_trips hon sl h htrip, fun h htrip => ?_, fun h => ⟨_, execSlopeCool_cools hon sl h, ?_⟩⟩
    · cases hwas : (s.slope sl).hot with
      | false =>
        refine ⟨_, execSlopeHot_begins hon h htrip hwas, ?_⟩
        cases hdue : s.limitDue sl with
        | false =>
          rw [if_neg Bool.false_ne_true, slope_heated]
          refine ⟨rfl, rfl, fun _ hnone => ?_, fun h => absurd h Bool.false_ne_true⟩
          simp [limitDue, hnone] at hdue
        | true =>
          rw [if_pos rfl, slope_raise, slope_modSlope, if_pos rfl, slope_heated]
          exact ⟨rfl, rfl, fun _ _ => exists_record_raise .., fun h => absurd h Bool.false_ne_true⟩
      | true =>
        refine ⟨_, execSlopeHot_lasts hon h htrip hwas, ?_⟩
        rw [slope_heated]
        exact ⟨rfl, rfl, fun h => absurd h.symm Bool.false_ne_true, fun _ => rfl⟩
    · rw [slope_modSlope, if_pos rfl]
      exact ⟨rfl, rfl⟩
  case clamp =>
    have hbut := s.butSlopes_eachSlope fun x => { x with fMhz := min x.fMhz 800 }
    obtain ⟨e, he, hcode⟩ := exists_record_raise _ 0x0105 0 0 [(2, w)]
    refine ⟨_, e, execClamp_above hon hw, fun k hk => ?_, ?_, he, hcode, (congrArg State.mem hbut :)⟩
    · rw [slope_raise]
      exact congrArg Slope.fMhz (slope_eachSlope s _ hk)
    · rw [power_raise]
      exact congrArg (sat32 · 1) (congrArg (·.power.clampEvents) hbut :)
  case period =>
    have hbut := s.butSlopes_govern p l
    have hcapped := s.butSlopes_capped
    refine ⟨_, execGovernorPeriod_governs hon p l, (congrArg (·.power.inputW) hbut :), ?_, fun k hk => ?_⟩
    · exact (congrArg State.mem hbut :).trans (congrArg State.mem hcapped :)
    · have hk := governs_govern hgrid p l k hk
      exact ⟨hk.below, hk.same⟩
  case above =>
    have hcapped : ∀ j, j < 4 → s.capped.slope j = s.slope j := fun j hj => by
      obtain ⟨hcool, hceiling, -⟩ := hidle j hj
      rw [slope_capped s hj, hcool, if_neg Bool.false_ne_true, ← hceiling, Nat.min_self]
    refine ⟨_, execGovernorPeriod_governs hon _ l, ?_⟩
    rw [govern_above (Nat.lt_succ_self _), slope_governDown_one hk]
    · exact congrArg (·.fMhz - 50) (hcapped k hk)
    · exact (hcapped k hk).symm ▸ hfast
    · exact fun j hj hne => (hcapped j hj).symm ▸ hslow j hj hne
end

section
/-! Power-on and bring-up (O50): what the steps of power-on leave of what they do not concern, and their events (R338, R364); which function
may run (R339), and what passing or failing its test leaves of the others and of the end of bring-up (R340, R341). -/

namespace Sys2Proof.Machine

namespace State

/-! ### What the steps of power-on leave (R324, R338, R364) -/

/-- What power-on settles before the first function of bring-up: memory, the job, readiness, the boot count, the last shutdown, the input,
and the owner's part of the security block. -/
def bootView (s : State) : State :=
  { pending := s.pending, mem := s.mem, job := s.job, ready := s.ready, log := { boot := s.log.boot },
    power := { off := s.power.off, lastShutdown := s.power.lastShutdown, causeRecord := s.power.causeRecord, inputMv := s.power.inputMv },
    sec := { keys := s.sec.keys, lc := s.sec.lc } }

theorem bootView_of_butEvents {s t : State} (h : t.butEvents = s.butEvents) : t.bootView = s.bootView := (congrArg bootView h :)

theorem bootView_raise (s : State) (code kind source : Nat) (fields : List (Nat × Nat)) :
    (s.raise code kind source fields).bootView = s.bootView := rfl

theorem bootView_retireFailed (s : State) (failed : List (Nat × Nat)) : (s.retireFailed failed).bootView = s.bootView :=
  List.foldlRecOn (motive := fun t : State => t.bootView = s.bootView) failed _ rfl fun _ ht _ _ => ht

theorem bootView_bindCourses (s : State) : s.bindCourses.bootView = s.bootView := by
  refine List.foldlRecOn (motive := fun t : State => t.bootView = s.bootView) _ _ rfl fun t ht c _ => ?_
  dsimp only
  split
  · exact ht
  · exact ht

theorem raiseCounter_leaves (s : State) : s.raiseCounter.bootView = s.bootView ∧ s.raiseCounter.log = s.log := by
  unfold raiseCounter
  split
  · exact ⟨rfl, rfl⟩
  · dsimp only
    split
    · exact ⟨rfl, rfl⟩
    · split
      · exact ⟨rfl, rfl⟩
      · split <;> exact ⟨rfl, rfl⟩

theorem bootSlot_leaves (s : State) (slot : Nat) : (s.bootSlot slot).bootView = s.bootView ∧ (s.bootSlot slot).log = s.log := by
  unfold bootSlot
  split <;> exact ⟨rfl, rfl⟩

/-- A module none of whose slots boots stays as unready as it is after power-on (R339). -/
theorem bootView_bootFails {s : State} (h : s.ready = {}) : s.bootFails.bootView = s.bootView := by
  simp only [bootView, bootFails, h]

theorem bootFirmware_cases (s : State) : (∃ slot, s.bootFirmware = s.raiseCounter.bootSlot slot) ∨
    (∃ slot fields, s.bootFirmware = (s.raiseCounter.bootSlot slot).raise 0x0120 0 0 fields) ∨
      s.bootFirmware = s.raiseCounter.bootFails := by
  unfold bootFirmware
  dsimp only
  split
  · exact .inl ⟨_, rfl⟩
  · split
    · exact .inr (.inl ⟨_, _, rfl⟩)
    · exact .inr (.inr rfl)

theorem bootView_bootFirmware {s : State} (h : s.ready = {}) : s.bootFirmware.bootView = s.bootView := by
  have hcounter := s.raiseCounter_leaves.1
  obtain ⟨slot, hboot⟩ | ⟨slot, fields, hboot⟩ | hboot := s.bootFirmware_cases
  · rw [hboot, (bootSlot_leaves ..).1, hcounter]
  · rw [hboot, bootView_raise, (bootSlot_leaves ..).1, hcounter]
  · have hready : s.raiseCounter.ready = s.ready := (congrArg State.ready hcounter :)
    rw [hboot, bootView_bootFails (hready.trans h), hcounter]

theorem Recent.bootFirmware {s : State} {n : Nat} {c : BitVec 16} (h : s.Recent n c) (hn : n < 4096) :
    s.bootFirmware.Recent (n + 1) c := by
  have hcounter : s.raiseCounter.Recent n c := h.of_log s.raiseCounter_leaves.2
  obtain ⟨slot, hboot⟩ | ⟨slot, fields, hboot⟩ | hboot := s.bootFirmware_cases
  · rw [hboot]
    exact (hcounter.of_log (bootSlot_leaves ..).2).mono (Nat.le_succ n)
  · rw [hboot]
    exact (hcounter.of_log (bootSlot_leaves ..).2).raise hn ..
  · rw [hboot]
    exact (hcounter.of_log rfl).mono (Nat.le_succ n)

theorem bootView_blowTamper (s : State) (found : Nat) : (s.blowTamper found).bootView = s.bootView := by
  unfold blowTamper
  dsimp only
  split <;> rfl

theorem Recent.blowTamper {s : State} {n : Nat} {c : BitVec 16} (h : s.Recent n c) (hn : n < 4096) (found : Nat) :
    (s.blowTamper found).Recent (n + 1) c := (h.of_log rfl).raise hn ..

theorem contentInForce_leaves (s : State) : s.contentInForce.bootView = s.bootView ∧ s.contentInForce.log = s.log := by
  unfold contentInForce
  split
  · split <;> exact ⟨rfl, rfl⟩
  · exact ⟨rfl, rfl⟩

theorem bootView_supplyLow {s : State} {mv : BitVec 16} (h : s.power.inputMv = mv) : (s.supplyLow mv).bootView = s.bootView := by
  have hlow : (s.withLow mv).bootView = s.bootView := by
    subst h
    rfl
  cases hwas : s.power.lowNow with
  | false =>
    rw [supplyLow_entered hwas, bootView_of_butEvents (butEvents_settleGuarantee _)]
    exact hlow
  | true => rw [supplyLow_lasts hwas, bootView_of_butEvents (butEvents_settleGuarantee _), hlow]

theorem Recent.supplyLow {s : State} {n : Nat} {c : BitVec 16} (h : s.Recent n c) (hn : n + 8 ≤ 4096) (mv : BitVec 16) :
    (s.supplyLow mv).Recent (n + 8) c := by
  have hlow : (s.withLow mv).Recent n c := h.of_log rfl
  cases hwas : s.power.lowNow with
  | false =>
    rw [supplyLow_entered hwas]
    exact (hlow.raise (by omega) ..).settleGuarantee (by omega)
  | true =>
    rw [supplyLow_lasts hwas]
    exact (hlow.settleGuarantee (by omega)).mono (by omega)

/-! ### Power-on -/

/-- The module as its input comes: the boot is counted, and the cause of the last shutdown kept. -/
def powered (s : State) (mv : BitVec 16) : State :=
  { s.retain with
    log := { s.retain.log with boot := s.retain.log.boot + 1 }
    power := { s.retain.power with lastShutdown := s.power.causeRecord, causeRecord := 0, inputMv := mv }
    sec := { s.retain.sec with keyed := s.retain.sec.identity } }

/-- The courses are bound, and the last shutdown is reported. -/
def reported (s : State) (mv : BitVec 16) (failed : List (Nat × Nat)) : State :=
  if s.power.causeRecord = 0 then ((s.powered mv).retireFailed failed).bindCourses
  else (((s.powered mv).retireFailed failed).bindCourses).raise 0x0104 0 0 [(1, s.power.causeRecord.toNat)]

/-- The boot ROM has run, and the items of Table 11-2 are read. -/
def booted (s : State) (mv : BitVec 16) (failed : List (Nat × Nat)) (tamperOpen : Bool) : State :=
  ((if tamperOpen then (s.reported mv failed).bootFirmware.wipeBank.blowTamper 1 else (s.reported mv failed).bootFirmware).votes
    bootItems).contentInForce

theorem powerUp_eq (s : State) (mv : BitVec 16) (failed : List (Nat × Nat)) (tamperOpen : Bool) : s.powerUp mv failed tamperOpen =
    if reducedRange mv.toNat then (s.booted mv failed tamperOpen).supplyLow mv else s.booted mv failed tamperOpen := rfl

theorem bootView_reported (s : State) (mv : BitVec 16) (failed : List (Nat × Nat)) :
    (s.reported mv failed).bootView = (s.powered mv).bootView := by
  have hbound : (((s.powered mv).retireFailed failed).bindCourses).bootView = (s.powered mv).bootView := by
    rw [bootView_bindCourses, bootView_retireFailed]
  unfold reported
  split
  · exact hbound
  · rw [bootView_raise, hbound]

theorem bootView_booted (s : State) (mv : BitVec 16) (failed : List (Nat × Nat)) (tamperOpen : Bool) :
    (s.booted mv failed tamperOpen).bootView = (s.powered mv).bootView := by
  have hreported := s.bootView_reported mv failed
  have hready : (s.reported mv failed).ready = (s.powered mv).ready := (congrArg State.ready hreported :)
  have hfirmware := (bootView_bootFirmware (hready.trans rfl)).trans hreported
  rw [booted, (contentInForce_leaves _).1, bootView_of_butEvents (butEvents_votes ..)]
  split
  · exact (bootView_blowTamper ..).trans hfirmware
  · exact hfirmware

theorem bootView_powerUp (s : State) (mv : BitVec 16) (failed : List (Nat × Nat)) (tamperOpen : Bool) :
    (s.powerUp mv failed tamperOpen).bootView = (s.powered mv).bootView := by
  have hbooted := s.bootView_booted mv failed tamperOpen
  have hmv : (s.booted mv failed tamperOpen).power.inputMv = mv := (congrArg (·.power.inputMv) hbooted :)
  rw [powerUp_eq]
  split
  · exact (bootView_supplyLow hmv).trans hbooted
  · exact hbooted

/-- R338: the cause of the last shutdown is among the first events of the boot. -/
theorem recent_powerUp {s : State} (h : s.power.causeRecord ≠ 0) (mv : BitVec 16) (failed : List (Nat × Nat)) (tamperOpen : Bool) :
    (s.powerUp mv failed tamperOpen).Recent 16 0x0104 := by
  have hreported : (s.reported mv failed).Recent 1 0x0104 := by
    rw [reported, if_neg h]
    exact recent_raise_self ..
  have hfirmware : (s.reported mv failed).bootFirmware.Recent 2 0x0104 := hreported.bootFirmware (by omega)
  have htamper : (if tamperOpen then (s.reported mv failed).bootFirmware.wipeBank.blowTamper 1
      else (s.reported mv failed).bootFirmware).Recent 3 0x0104 := by
    split
    · exact (hfirmware.of_log rfl).blowTamper (by omega) 1
    · exact hfirmware.mono (by omega)
  have hbooted : (s.booted mv failed tamperOpen).Recent 8 0x0104 := (htamper.votes bootItems (by decide)).of_log (contentInForce_leaves _).2
  rw [powerUp_eq]
  split
  · exact hbooted.supplyLow (by omega) mv
  · exact hbooted.mono (by omega)

theorem execPowerOn_comes {s : State} {mv : BitVec 16} {reapplied : Bool} (h : s.mayPowerOn mv.toNat reapplied = true)
    (failed : List (Nat × Nat)) (tamperOpen : Bool) :
    execPowerOn ⟨mv, reapplied⟩ failed tamperOpen s = .next (s.powerUp mv failed tamperOpen) := by
  simp only [execPowerOn, h, if_true]

theorem execPowerOn_stays {s : State} {mv : BitVec 16} {reapplied : Bool} (h : s.mayPowerOn mv.toNat reapplied = false)
    (failed : List (Nat × Nat)) (tamperOpen : Bool) : execPowerOn ⟨mv, reapplied⟩ failed tamperOpen s = .next s := by
  simp only [execPowerOn, h, Bool.false_eq_true, if_false]

theorem mayPowerOn_low (s : State) {mv : Nat} (h : mv < 45000) (reapplied : Bool) : s.mayPowerOn mv reapplied = false := by
  have hoperating : operating mv = false := decide_eq_false (by omega)
  have hreduced : reducedRange mv = false := by
    simp only [reducedRange, Bool.or_eq_false_iff, decide_eq_false_iff_not]
    omega
  cases reapplied <;> simp [mayPowerOn, hoperating, hreduced]

/-! ### The turn of a function (R339) -/

theorem execBringupFunctionDone_idle {s : State} {f : BringUp} (h : s.functionTurn f = false) (test : Option Nat) :
    execBringupFunctionDone f test s = .next s := by
  simp [execBringupFunctionDone, functionRuns, h]

/-- A stack waits for those of lower number, unless the stacks come out of self-refresh. -/
theorem functionTurn_stack {s : State} {k j : Fin 12} (hj : j < k) (hcold : s.ready.refreshed = false)
    (hdone : s.functionDone (.stack j) = false) : s.functionTurn (.stack k) = false := by
  simp only [functionTurn, hcold, Bool.false_or, List.all_eq_false]
  exact ⟨j, List.mem_finRange j, by simp [hdone, hj]⟩

/-- A course waits for those of the rounds before. -/
theorem functionTurn_course {s : State} {c d : CourseId} (hd : d.val % 16 < c.val % 16) (hdone : s.functionDone (.course d) = false) :
    s.functionTurn (.course c) = false := by
  simp only [functionTurn, List.all_eq_false]
  exact ⟨d, List.mem_finRange d, by simp [hdone, hd]⟩

/-! ### Readiness (Table 15-13) -/

theorem functionDone_iff {s : State} {f : BringUp} : s.functionDone f = true ↔ s.functionReady f = true ∨ f ∈ s.ready.failed := by
  simp [functionDone]

/-- Readiness alone says which functions are ready. -/
theorem functionReady_of_ready {s t : State} (h : t.ready = s.ready) (f : BringUp) : t.functionReady f = s.functionReady f := by
  cases f <;> simp only [functionReady, h]

end State

/-- Readiness once a function has passed its test. -/
def Ready.passed (r : Ready) : BringUp → Ready
  | .hostPort => { r with hostPort := true }
  | .stack k => { r with hbm := r.hbm ||| BitVec.ofNat 12 (2 ^ k.val) }
  | .course c => { r with courses := r.courses ||| BitVec.ofNat 64 (2 ^ c.val) }
  | .port p => { r with ports := r.ports ||| BitVec.ofNat 8 (2 ^ p.val) }

/-- One more bit is set. -/
theorem getLsbD_or_twoPow {w : Nat} (x : BitVec w) (k j : Fin w) :
    (x ||| BitVec.ofNat w (2 ^ k.val)).getLsbD j = (x.getLsbD j || decide (j = k)) := by
  simp only [BitVec.getLsbD_or, BitVec.getLsbD_ofNat, Nat.testBit_two_pow, j.isLt, decide_true, Bool.true_and, Fin.ext_iff,
    eq_comm (a := k.val)]

namespace State

/-- A function that passes leaves the power block as it is. -/
theorem functionPasses_leaves (s : State) (f : BringUp) :
    (s.functionPasses f).ready = s.ready.passed f ∧ (s.functionPasses f).power = s.power := by
  cases f with
  | hostPort =>
    unfold functionPasses dhcpDiscover
    dsimp only
    split <;> exact ⟨rfl, rfl⟩
  | stack k => exact ⟨rfl, rfl⟩
  | course c => exact ⟨rfl, rfl⟩
  | port p => exact ⟨rfl, rfl⟩

/-- The function that passes is ready, and of the others the ones that were. -/
theorem functionReady_functionPasses (s : State) (f g : BringUp) :
    (s.functionPasses f).functionReady g = (s.functionReady g || decide (g = f)) := by
  have hready := (s.functionPasses_leaves f).1
  cases f <;> cases g <;>
    simp only [functionReady, hready, Ready.passed, getLsbD_or_twoPow, BringUp.stack.injEq, BringUp.course.injEq,
      BringUp.port.injEq, reduceCtorEq, decide_true, decide_false, Bool.or_false, Bool.or_true]

/-! ### The end of bring-up (R340) -/

theorem settleBringUp_eq (s : State) : ∃ d, s.settleBringUp = { s with ready := { s.ready with done := d } } := by
  unfold settleBringUp
  split
  · exact ⟨_, rfl⟩
  · exact ⟨_, rfl⟩

theorem functionReady_settleBringUp (s : State) (f : BringUp) : s.settleBringUp.functionReady f = s.functionReady f := by
  obtain ⟨d, h⟩ := s.settleBringUp_eq
  rw [h]
  cases f <;> rfl

theorem failed_settleBringUp (s : State) : s.settleBringUp.ready.failed = s.ready.failed := by
  obtain ⟨d, h⟩ := s.settleBringUp_eq
  rw [h]

theorem log_settleBringUp (s : State) : s.settleBringUp.log = s.log := by
  obtain ⟨d, h⟩ := s.settleBringUp_eq
  rw [h]

theorem settleBringUp_open {s : State} {f : BringUp} (hf : f ∈ allFunctions) (h : s.functionDone f = false) : s.settleBringUp = s := by
  have hall : allFunctions.all s.functionDone = false := List.all_eq_false.mpr ⟨f, hf, by rw [h]; exact Bool.false_ne_true⟩
  simp only [settleBringUp, hall, Bool.not_false, Bool.or_true, if_true]

section
variable {s : State} (hon : s.power.off = false) (hboot : s.power.bootFailed = false) (hstandby : s.power.standbyBit = false)
  (hall : ∀ f, f ∈ allFunctions → s.functionDone f = true)
include hon hboot hstandby hall

theorem settleBringUp_ends (hopen : s.ready.done = false) : s.settleBringUp = { s with ready := { s.ready with done := true } } := by
  simp only [settleBringUp, hon, hboot, hstandby, hopen, List.all_eq_true.mpr hall, Bool.not_true, Bool.or_self, Bool.false_eq_true,
    if_false]

theorem done_settleBringUp : s.settleBringUp.ready.done = true := by
  cases hopen : s.ready.done with
  | false => rw [settleBringUp_ends hon hboot hstandby hall hopen]
  | true => simp only [settleBringUp, hopen, Bool.or_true, Bool.true_or, if_true]

end

/-! ### A function's test (R340, R341) -/

/-- The slopes have power from the first function other than the host port. -/
def slopesFor (s : State) (f : BringUp) : State :=
  if f = .hostPort then s else { s with power := { s.power with slopesOn := true } }

theorem slopesFor_eq (s : State) (f : BringUp) : ∃ b, s.slopesFor f = { s with power := { s.power with slopesOn := b } } := by
  unfold slopesFor
  split
  · exact ⟨_, rfl⟩
  · exact ⟨_, rfl⟩

theorem functionReady_slopesFor (s : State) (f g : BringUp) : (s.slopesFor f).functionReady g = s.functionReady g := by
  obtain ⟨b, h⟩ := s.slopesFor_eq f
  rw [h]
  exact functionReady_of_ready rfl g

section
variable {s : State} {f : BringUp} (h : s.functionRuns f = true)
include h

/-- A function that runs is not done yet, and has power. -/
theorem power_of_functionRuns : s.power.off = false ∧ s.power.bootFailed = false ∧ s.functionDone f = false := by
  simp only [functionRuns, Bool.and_eq_true, Bool.not_eq_true'] at h
  obtain ⟨⟨⟨⟨⟨hon, hboot⟩, hdone⟩, -⟩, -⟩, -⟩ := h
  exact ⟨hon, hboot, hdone⟩

theorem execBringupFunctionDone_fails (test : Nat) :
    execBringupFunctionDone f (some test) s = .next ((s.slopesFor f).functionFails f test).settleBringUp := by
  simp only [execBringupFunctionDone, h, Bool.not_true, Bool.false_eq_true, if_false]
  rfl

theorem functionReady_of_functionRuns : s.functionReady f = false :=
  (Bool.or_eq_false_iff.mp (power_of_functionRuns h).2.2).1

theorem execBringupFunctionDone_passes (hfit : s.courseUnfit f = false) :
    execBringupFunctionDone f none s = .next ((s.slopesFor f).functionPasses f).settleBringUp := by
  have hslopes : (s.slopesFor f).courseUnfit f = false := by
    obtain ⟨b, hb⟩ := s.slopesFor_eq f
    rw [hb]
    exact hfit
  simp only [execBringupFunctionDone, h, Bool.not_true, Bool.false_eq_true, if_false]
  exact if_neg (Bool.eq_false_iff.mp hslopes)

end

theorem failed_slopesFor_functionPasses (s : State) (f : BringUp) :
    ((s.slopesFor f).functionPasses f).ready.failed = s.ready.failed := by
  obtain ⟨b, h⟩ := s.slopesFor_eq f
  rw [(functionPasses_leaves ..).1, h]
  cases f <;> rfl

theorem power_slopesFor_functionPasses (s : State) (f : BringUp) :
    ∃ b, ((s.slopesFor f).functionPasses f).power = { s.power with slopesOn := b } := by
  obtain ⟨b, h⟩ := s.slopesFor_eq f
  rw [(functionPasses_leaves ..).2, h]
  exact ⟨b, rfl⟩

theorem ready_portFault (s : State) (p : Nat) : (s.portFault p).ready = s.ready := by
  unfold portFault autoBypass
  dsimp only
  split
  · rfl
  · rfl

theorem functionFails_leaves (s : State) (f : BringUp) (test : Nat) :
    (s.functionFails f test).ready = { s.ready with failed := f :: s.ready.failed } ∧ (s.functionFails f test).Recent 1 0x0100 := by
  refine ⟨?_, recent_raise_self ..⟩
  cases f with
  | port p => exact ready_portFault _ p
  | hostPort => rfl
  | stack k => rfl
  | course c => rfl

theorem functionReady_functionFails (s : State) (f g : BringUp) (test : Nat) :
    (s.functionFails f test).functionReady g = s.functionReady g := by
  have hready := functionReady_of_ready (s := { s with ready := { s.ready with failed := f :: s.ready.failed } })
    (s.functionFails_leaves f test).1 g
  rw [hready]
  cases g <;> rfl

end State

end Sys2Proof.Machine

open Sys2Proof Sys2Proof.Machine State

/-- Settles O50: the steps of power-on leave what the statement names, and the newest events hold the last shutdown; a function runs only in
its turn; its test moves its own readiness alone, and bring-up ends with the last of them. -/
theorem powerOnAndBringUp : Obligations.PowerOnAndBringUp := by
  refine ⟨fun s mv reapplied failed tamperOpen => ⟨fun hoff htrip => ?tripped, fun hlow => ?low, fun hmay => ?comes⟩,
    fun s k j test hj hcold hdone => execBringupFunctionDone_idle (functionTurn_stack hj hcold hdone) test,
    fun s c d test hd hdone => execBringupFunctionDone_idle (functionTurn_course hd hdone) test,
    fun s f hruns => ⟨fun test => ?fails, fun hfit => ?passes⟩, fun s hon hboot hstandby hopen => ⟨fun hall => ?done, fun hsome => ?open_⟩⟩
  case tripped => exact execPowerOn_stays (by simp [mayPowerOn, htrip]) failed tamperOpen
  case low => exact execPowerOn_stays (mayPowerOn_low s hlow reapplied) failed tamperOpen
  case comes =>
    have hpower : s.mayPowerOn mv.toNat reapplied = true := by
      rcases hmay with ⟨rfl, hrange⟩ | ⟨hoff, hcause, hrange⟩
      · simpa [mayPowerOn] using hrange
      · cases reapplied with
        | false => simpa [mayPowerOn, hoff, hrange] using hcause
        | true => simp [mayPowerOn, hrange]
    have hview := s.bootView_powerUp mv failed tamperOpen
    refine ⟨_, execPowerOn_comes hpower failed tamperOpen, (congrArg (·.log.boot) hview :), (congrArg (·.power.off) hview :),
      (congrArg (·.power.lastShutdown) hview :), (congrArg (·.power.causeRecord) hview :), (congrArg (·.power.inputMv) hview :),
      (congrArg State.mem hview :), (congrArg (·.job.state) hview :), (congrArg (·.ready.hostPort) hview :),
      (congrArg (·.ready.courses) hview :), (congrArg (·.ready.hbm) hview :), (congrArg (·.ready.ports) hview :),
      (congrArg (·.sec.keys) hview :), (congrArg (·.sec.lc) hview :), (congrArg State.pending hview :),
      fun hcause => (recent_powerUp hcause mv failed tamperOpen).record⟩
  case fails =>
    obtain ⟨hready, hrecent⟩ := (s.slopesFor f).functionFails_leaves f test
    obtain ⟨e, he, hcode⟩ := hrecent.record
    refine ⟨_, e, execBringupFunctionDone_fails hruns test, ?_, ?_, (log_settleBringUp _).symm ▸ he, hcode⟩
    · rw [functionReady_settleBringUp, functionReady_functionFails, functionReady_slopesFor, functionReady_of_functionRuns hruns]
    · rw [failed_settleBringUp, hready]
      exact List.mem_cons_self
  case passes =>
    have hready : ∀ g, ((s.slopesFor f).functionPasses f).functionReady g = (s.functionReady g || decide (g = f)) := fun g => by
      rw [functionReady_functionPasses, functionReady_slopesFor]
    have hfailed := s.failed_slopesFor_functionPasses f
    refine ⟨_, execBringupFunctionDone_passes hruns hfit, ?_, ?_, fun g hg => ?_, fun hstandby hothers => ?_⟩
    · rw [functionReady_settleBringUp, hready, decide_eq_true rfl, Bool.or_true]
    · rw [failed_settleBringUp, hfailed]
    · rw [functionReady_settleBringUp, hready, decide_eq_false hg, Bool.or_false]
    · obtain ⟨hon, hboot, -⟩ := power_of_functionRuns hruns
      obtain ⟨b, hpower⟩ := s.power_slopesFor_functionPasses f
      refine done_settleBringUp (by rw [hpower]; exact hon) (by rw [hpower]; exact hboot) (by rw [hpower]; exact hstandby) fun g hg => ?_
      rw [functionDone_iff, hready, hfailed]
      by_cases hgf : g = f
      · exact .inl (by rw [decide_eq_true hgf, Bool.or_true])
      · rw [decide_eq_false hgf, Bool.or_false]
        exact hothers g hg hgf
  case done => exact congrArg _ (settleBringUp_ends hon hboot hstandby (fun f hf => functionDone_iff.mpr (hall f hf)) hopen)
  case open_ =>
    obtain ⟨f, hf, hready, hfailed⟩ := hsome
    have hdone : s.functionDone f = false := by
      rw [Bool.eq_false_iff, Ne, functionDone_iff]
      simp [hready, hfailed]
    exact congrArg _ (settleBringUp_open hf hdone)
end

section
/-! Security (O47): presence and tamper (R372, R375), what each security command comes to once R299 lets it through (R365 to R369, R373), and
what a transition of the life cycle leaves (R369). -/

namespace Sys2Proof.Machine

namespace State

/-! ### Presence (R372) -/

/-- The end of a window changes nothing but the window and the log. -/
theorem closeWindow_eq (s : State) :
    ∃ l, s.closeWindow = { s with sec := { s.sec with windowEnd := none }, log := l } := by
  unfold closeWindow
  split
  · exact ⟨_, rfl⟩
  · next h =>
    have hnone : s.sec.windowEnd = none := by simpa using h
    exact ⟨s.log, by rw [← hnone]⟩

/-- A window stands open. -/
def windowLive (s : State) : Bool :=
  match s.sec.windowEnd with
  | some t => decide (s.timebase < t)
  | none => false

/-- A window of 300 s from now. -/
def openWindow (s : State) : State := { s with sec := { s.sec with windowEnd := some (s.timebase + windowNs) } }

/-- A press opens a window, or begins the open one afresh. -/
def pressed (s : State) : State :=
  if s.windowLive then s.openWindow else s.closeWindow.openWindow.presenceEvent 0 1

theorem execPresenceButton_opens {s : State} (hon : s.power.off = false) (hpolicy : s.sec.policy.getLsbD 2 = false) :
    execPresenceButton s = .next (s.vote 3).pressed := by
  have hvote : (s.vote 3).sec.policy.getLsbD 2 = false := by rwa [sec_vote]
  have hsteps : execPresenceButton s = if s.power.off then .next s else if (s.vote 3).sec.policy.getLsbD 2 then .next (s.vote 3) else
      .next (if (s.vote 3).windowLive then (if (s.vote 3).windowLive then s.vote 3 else (s.vote 3).closeWindow).openWindow
        else (if (s.vote 3).windowLive then s.vote 3 else (s.vote 3).closeWindow).openWindow.presenceEvent 0 1) := rfl
  rw [hsteps, hon, hvote, pressed]
  cases (s.vote 3).windowLive <;> rfl

theorem pressed_leaves (s : State) : s.pressed.sec.windowEnd = some (s.timebase + windowNs) ∧ s.pressed.timebase = s.timebase := by
  unfold pressed
  split
  · exact ⟨rfl, rfl⟩
  · obtain ⟨l, h⟩ := s.closeWindow_eq
    rw [h]
    exact ⟨rfl, rfl⟩

theorem presence_of_window {s : State} {e : Nat} (h : s.sec.windowEnd = some e) (hlive : s.timebase < e) : s.presence = true := by
  simp only [presence, h, decide_eq_true hlive, Bool.or_true]

theorem timebase_vote (s : State) (i : Nat) : (s.vote i).timebase = s.timebase := (congrArg State.timebase (s.butEvents_vote i) :)

theorem execServiceJumper_moves {s : State} {fitted : Bool} (h : s.sec.jumper ≠ fitted) : execServiceJumper fitted s =
    .next (if s.power.off then { s with sec := { s.sec with jumper := fitted } }
      else ({ s with sec := { s.sec with jumper := fitted } } : State).presenceEvent 1 (b2n fitted)) := by
  simp only [execServiceJumper, beq_eq_false_iff_ne.mpr h, Bool.false_eq_true, if_false]

theorem execPresenceWindowExpiry_ends {s : State} {e : Nat} (h : s.sec.windowEnd = some e) (hover : e ≤ s.timebase) :
    execPresenceWindowExpiry s = .next s.closeWindow := by
  simp only [execPresenceWindowExpiry, h, hover, if_true]

/-! ### Tamper (R375) -/

/-- A session's end changes its port and the log alone, and takes the session out of the table. -/
theorem endSession_eq (s : State) (ss cause : Nat) : ∃ r l, s.endSession ss cause = { s with rcp := r, log := l } ∧
    ∀ x, x ∈ r.sessions → x ∈ s.rcp.sessions ∧ x.id ≠ ss := by
  unfold endSession
  split
  · next h =>
    refine ⟨s.rcp, s.log, rfl, fun x hx => ⟨hx, fun hid => ?_⟩⟩
    exact absurd (List.find?_eq_none.mp h x hx) (by simp [hid])
  · refine ⟨_, _, rfl, fun x hx => ?_⟩
    simpa using hx

/-- Every session whose number is listed ends. -/
theorem foldl_endSession_eq (cause : Nat) (l : List Session) (s : State) :
    ∃ r g, l.foldl (fun s x => s.endSession x.id cause) s = { s with rcp := r, log := g } ∧
      ∀ x, x ∈ r.sessions → x ∈ s.rcp.sessions ∧ ∀ y, y ∈ l → x.id ≠ y.id := by
  induction l generalizing s with
  | nil => exact ⟨s.rcp, s.log, rfl, fun x hx => ⟨hx, fun y hy => absurd hy List.not_mem_nil⟩⟩
  | cons y r ih =>
    obtain ⟨p, g, hfirst, hgone⟩ := s.endSession_eq y.id cause
    obtain ⟨p', g', hrest, hothers⟩ := ih { s with rcp := p, log := g }
    refine ⟨p', g', by rw [List.foldl_cons, hfirst, hrest], fun x hx => ?_⟩
    obtain ⟨hmem, hne⟩ := hothers x hx
    obtain ⟨hold, hid⟩ := hgone x hmem
    exact ⟨hold, List.forall_mem_cons.mpr ⟨hid, hne⟩⟩

theorem endSessions_eq (s : State) (cause : Nat) :
    ∃ r l, s.endSessions cause = { s with rcp := r, log := l } ∧ r.sessions = [] := by
  obtain ⟨r, l, h, hgone⟩ := foldl_endSession_eq cause s.rcp.sessions s
  refine ⟨r, l, h, List.eq_nil_iff_forall_not_mem.mpr fun x hx => ?_⟩
  obtain ⟨hmem, hne⟩ := hgone x hx
  exact hne x hmem rfl

/-- The fuse that a tamper blows, and the final one once fifteen are blown. -/
theorem blowTamper_eq (s : State) (found : Nat) : ∃ l, s.blowTamper found =
    { s with sec := { s.sec with
               tamperCount := if s.sec.tamperCount = 15 then 15 else s.sec.tamperCount + 1
               tamperFinal := if s.sec.tamperCount = 15 then true else s.sec.tamperFinal }, log := l } := by
  unfold blowTamper
  dsimp only
  split
  · next h => exact ⟨_, by rw [← h]; rfl⟩
  · exact ⟨_, rfl⟩

theorem execTamperBreak_wipes {s : State} (hon : s.power.off = false) :
    execTamperBreak s = .next ((s.wipeBank.closeWindow.endSessions 3).blowTamper 0) := by
  simp only [execTamperBreak, hon, Bool.false_eq_true, if_false]

end State

/-! ### Commands that R299 lets through with presence shown -/

section Shown
variable {s : State} {ss : Nat} (howner : s.isOwner ss = true) (hshown : s.presence = true)
include howner hshown

namespace State

theorem turnAway_shown {states : List JobState} (h : states = [] ∨ states.contains s.job.state = true) :
    s.turnAway ss true states true = none := by
  have hjob : (!states.isEmpty && !states.contains s.job.state) = false := by
    obtain rfl | h := h
    · rfl
    · rw [h, Bool.not_true, Bool.and_false]
  simp only [turnAway, howner, hshown, hjob, Bool.not_true, Bool.and_false, Bool.false_eq_true, if_false]

end State

variable (hfree : s.rcp.long = none) (q : Nat)
include hfree

/-- R365: a package that is read whole and has a package's form is staged if its signature verifies and its rollback index is not below the
counter. -/
theorem opFwStage_reads {staging length kind : Nat} {b : List Byte} {v : State} (hstaging : staging % 64 = 0) (hlength : length % 64 = 0)
    (hsome : length ≠ 0) (hend : staging + length ≤ 0x018000000000) (hkind : kind ≤ 1) (hpart : length ≤ partBytes kind)
    (hread : readStaged s (lineAddrs staging (length / 64)) = (v, some b)) (hform : packageForm kind b = true)
    (hcounter : (v.votes [1, 2]).counterOf kind ≤ natAt (b.take (packageLength b)) 5 1) :
    opFwStage s ss q staging length kind = if packageSigned (v.votes [1, 2]).sec.rootDigest (b.take (packageLength b)) then
      ((v.votes [1, 2]).stage kind (b.take (packageLength b))).startLong (longDone ss q 0x10 .ok)
      else (v.votes [1, 2]).reply ss q 0x10 .signature := by
  have hrange : ¬ (staging % 64 ≠ 0 ∨ length % 64 ≠ 0 ∨ length = 0 ∨ 0x018000000000 < staging + length ∨ 1 < kind ∨ partBytes kind < length) := by
    omega
  have hindex : decide (natAt (b.take (packageLength b)) 5 1 < (v.votes [1, 2]).counterOf kind) = false :=
    decide_eq_false (Nat.not_lt.mpr hcounter)
  simp only [opFwStage, State.turnAway_shown howner hshown (.inl rfl), if_neg hrange, hfree, Option.isSome_none, hread, hform, hindex,
    Bool.not_true, Bool.or_false, Bool.false_eq_true, if_false]
  cases packageSigned (v.votes [1, 2]).sec.rootDigest (b.take (packageLength b)) <;> rfl

/-- R366: a staged package is committed if it is acceptable. -/
theorem opFwCommit_staged {kind : Nat} {p : Package} (hjob : s.job.state = .empty) (hkind : kind ≤ 1)
    (hstaged : s.sec.staged.getLsbD kind = true) (hslot : tfind s.sec.packages (2 * kind + (1 - s.activeSlot kind)) = some p) :
    opFwCommit s ss q kind = if (s.votes [1, 2]).accepts kind p then
      ((s.votes [1, 2]).commit kind p).startLong (longDone ss q 0x11 .ok) else (s.votes [1, 2]).reply ss q 0x11 .signature := by
  have hpass := State.turnAway_shown howner hshown (states := [.empty, .loaded, .halted]) (.inr (by rw [hjob]; rfl))
  simp only [opFwCommit, hpass, Nat.not_lt.mpr hkind, hfree, Option.isSome_none, hstaged, hslot, Bool.false_eq_true, if_false]
  cases (s.votes [1, 2]).accepts kind p <;> rfl

/-- R369: a transition of Table 17-4 is authorised by the signature of one who may, over the hash of the two states. -/
theorem opLcChange_asked {target : Nat} {t : LcState} {who : Bool × Bool} (hjob : s.job.state = .empty) (htarget : lcOf target = some t)
    (hauth : lcAuth (s.vote 0) s.sec.lc t = some who)
    (hleft : t = .decommissioned ∨ s.sec.transitions < 64 ∧ s.sec.tamperFinal = false)
    (hkeys : s.sec.keys ≠ [] ∨ t ≠ .deployed) (r g : Nat) :
    opLcChange s ss q target r g = if (who.1 && (s.vote 0).ownerSigned (lcHash (s.vote 0) t) r g) ||
        (who.2 && ecdsaOk Config.factoryKey (lcHash (s.vote 0) t) r g) then
      ((s.vote 0).lcMove t).startLong (longDone ss q 0x12 .ok) else (s.vote 0).reply ss q 0x12 .signature := by
  have hpass := State.turnAway_shown howner hshown (states := [.empty]) (.inr (by rw [hjob]; rfl))
  have hrange : ¬ (t ≠ .decommissioned ∧ (64 ≤ s.sec.transitions ∨ s.sec.tamperFinal = true)) := by
    rintro ⟨hother, hspent | hfinal⟩
    · obtain ht | ⟨hroom, -⟩ := hleft
      · exact hother ht
      · omega
    · obtain ht | ⟨-, hwhole⟩ := hleft
      · exact hother ht
      · exact absurd (hwhole.symm.trans hfinal) Bool.false_ne_true
  have hready : (s.sec.lc == .provisioned && t == .deployed && s.sec.keys.isEmpty) = false := by
    obtain h | h := hkeys
    · rw [List.isEmpty_eq_false_iff.mpr h, Bool.and_false]
    · rw [beq_eq_false_iff_ne.mpr h, Bool.and_false, Bool.false_and]
  simp only [opLcChange, hpass, htarget, State.sec_vote, hauth, if_neg hrange, State.rcp_vote, hfree, Option.isSome_none, hready,
    Bool.false_eq_true, if_false]
  rfl

/-- R373: a wipe of the secure bank, and a full one. -/
theorem opSecureWipe_empty (hjob : s.job.state = .empty) :
    opSecureWipe s ss q 0 = s.wipeBank.startLong (longDone ss q 0x13 .ok) ∧
      opSecureWipe s ss q 1 = s.fullWipe.startLong (longDone ss q 0x13 .ok) := by
  have hbank := State.turnAway_shown howner hshown (states := [.empty, .loaded, .halted]) (.inr (by rw [hjob]; rfl))
  have hfull := State.turnAway_shown howner hshown (states := [.empty]) (.inr (by rw [hjob]; rfl))
  constructor
  · simp only [opSecureWipe, Nat.zero_ne_one, if_false, hbank, hfree, Option.isSome_none, Bool.false_eq_true, Nat.not_lt_zero]
  · simp only [opSecureWipe, if_true, hfull, hfree, Option.isSome_none, Bool.false_eq_true, if_false, Nat.lt_irrefl]

end Shown

/-- R368: a well-formed request for a report. -/
theorem opAttest_asked {s : State} {p : List Byte} (hlength : p.length = 64) (hzeros : (bytesAt p 49 15).any (· != 0) = false)
    (hchain : natAt p 48 1 ≤ 1) (halive : s.sec.lc ≠ .decommissioned) (ss q : Nat) :
    opAttest s ss q p = (s.votes [0, 2, 7]).reply ss q 0x0F .ok (report (s.votes [0, 2, 7]) p (natAt p 48 1 == 1)) := by
  simp only [opAttest, hlength, hzeros, Nat.not_lt.mpr hchain, State.sec_votes, halive, ne_eq, not_true_eq_false, Bool.false_eq_true,
    or_self, if_false]

/-! ### Each command in its session's order (R303) -/

section Ordered
variable {s u : State} {ss q : Nat} (t : Turn s ss q u)
include t

theorem exec_attest_of_turn (p : List Byte) : exec (.attest ss p) s = followed (opAttest u ss q p) ss :=
  (exec_attest ..).trans (runRow_of_turn t fun v n => opAttest v ss n p)

theorem exec_fwStage_of_turn (staging length : Word) (kind : Byte) :
    exec (.fwStage ss staging length kind) s = followed (opFwStage u ss q staging.toNat length.toNat kind.toNat) ss :=
  (exec_fwStage ..).trans (runRow_of_turn t fun v n => opFwStage v ss n staging.toNat length.toNat kind.toNat)

theorem exec_fwCommit_of_turn (kind : Byte) : exec (.fwCommit ss kind) s = followed (opFwCommit u ss q kind.toNat) ss :=
  (exec_fwCommit ..).trans (runRow_of_turn t fun v n => opFwCommit v ss n kind.toNat)

theorem exec_lcChange_of_turn (target : Byte) (r g : Nat) :
    exec (.lcChange ss target r g) s = followed (opLcChange u ss q target.toNat r g) ss :=
  (exec_lcChange ..).trans (runRow_of_turn t fun v n => opLcChange v ss n target.toNat r g)

theorem exec_secureWipe_of_turn (scope : Byte) : exec (.secureWipe ss scope) s = followed (opSecureWipe u ss q scope.toNat) ss :=
  (exec_secureWipe ..).trans (runRow_of_turn t fun v n => opSecureWipe v ss n scope.toNat)

theorem exec_secureWipeFull_of_turn : exec (.secureWipeFull ss) s = followed (opSecureWipe u ss q 1) ss :=
  (exec_secureWipeFull ..).trans (runRow_of_turn t fun v n => opSecureWipe v ss n 1)

end Ordered

namespace State

/-! ### The end of a commit (R366) -/

/-- The fused counter rises to the index of the package that is now active, and never falls. -/
theorem raiseCounter_raises {s : State} {kind : Nat} {p : Package} (hcommit : s.sec.committing = some kind) (hindex : p.rollback ≤ 63)
    (hslot : tfind s.sec.packages (2 * kind + s.activeSlot kind) = some p) :
    s.raiseCounter.sec.committing = none ∧ s.raiseCounter.counterOf kind = max (s.counterOf kind) p.rollback := by
  have hsteps : s.raiseCounter = if p.rollback ≤ s.counterOf kind then { s with sec := { s.sec with committing := none } }
      else if kind = 0 then { s with sec := { s.sec with committing := none, rollback0 := BitVec.ofNat 6 p.rollback } }
      else { s with sec := { s.sec with committing := none, rollback1 := BitVec.ofNat 6 p.rollback } } := by
    have hslot' : tfind s.sec.packages (2 * kind + State.activeSlot { s with sec := { s.sec with committing := none } } kind) = some p := hslot
    simp only [raiseCounter, hcommit, hslot']
    rfl
  have hfits : p.rollback % 2 ^ 6 = p.rollback := Nat.mod_eq_of_lt (by omega)
  rw [hsteps]
  split
  · next hle => exact ⟨rfl, (Nat.max_eq_left hle).symm⟩
  · next hlt =>
    split
    · next hkind =>
      subst hkind
      refine ⟨rfl, ?_⟩
      rw [Nat.max_eq_right (by omega)]
      simp only [counterOf, if_true, BitVec.toNat_ofNat, hfits]
    · next hkind =>
      refine ⟨rfl, ?_⟩
      rw [Nat.max_eq_right (by omega)]
      simp only [counterOf, hkind, if_false, BitVec.toNat_ofNat, hfits]

end State

/-! ### The life cycle (R369, R373) -/

/-- A unit of a table whose every unit has changed by f. -/
theorem tget_map {α : Type} {f : α → α} {d : α} (hd : f d = d) (t : Tab α) (k : Nat) :
    tget (t.map fun x => (x.1, f x.2)) k d = f (tget t k d) := by
  induction t with
  | nil => exact hd.symm
  | cons x r ih =>
    simp only [List.map_cons, tget]
    split
    · rfl
    · exact ih

/-- A position that the health table no longer names. -/
def PosHealth.cleared (h : PosHealth) : PosHealth :=
  { h with retired := false, suspect := false, ownSuspect := false, confirmed := 0, transient := 0 }

namespace State

theorem health_clearHealth (s : State) (c p : Nat) : (s.clearHealth.course c).health p = ((s.course c).health p).cleared := by
  have hcourse : s.clearHealth.course c = { s.course c with pos := (s.course c).pos.map fun h => (h.1, h.2.cleared) } :=
    tget_map (f := fun x : Course => { x with pos := x.pos.map fun h => (h.1, h.2.cleared) }) rfl s.courses c
  rw [hcourse]
  exact tget_map rfl ..

/-- A wipe leaves what is known of the positions. -/
theorem health_fullWipe (s : State) (c p : Nat) : (s.fullWipe.course c).health p = (s.course c).health p :=
  tget_map_keeps (fun x : Course => x.health p) (F := fun x => (x.1, { x.2 with codeCache := [] })) (fun _ => ⟨rfl, rfl⟩) s.courses c {}

theorem lcMove_decommissions (s : State) : s.lcMove .decommissioned =
    ((({ s with sec := { s.sec with
        lc := .decommissioned, transitions := min (s.sec.transitions + 1) 64, debugUnlocked := false, keys := [], policy := 0,
        chain := false, decommissioned := true, identity := false } } : State).clearHealth.fullWipe).raise 0x0122 0 0
      [(1, s.sec.lc.code), (1, LcState.decommissioned.code)]) := rfl

/-- A transition to a state in which the module lives on wipes the secure bank, and changes the security block alone. -/
theorem lcMove_lives {t : LcState} (h : t ≠ .decommissioned) (s : State) : ∃ x l, s.lcMove t = { s with sec := x, log := l } ∧
    x.lc = t ∧ x.bank = [] ∧ x.wiping = true := by
  have hsteps : ∃ x : Security, x.lc = t ∧ s.lcMove t =
      ({ s with sec := x } : State).wipeBank.raise 0x0122 0 0 [(1, s.sec.lc.code), (1, t.code)] := by
    cases t with
    | decommissioned => exact absurd rfl h
    | provisioned =>
      refine ⟨_, ?_, rfl⟩
      dsimp only
      split <;> rfl
    | manufacture => exact ⟨_, rfl, rfl⟩
    | deployed => exact ⟨_, rfl, rfl⟩
    | service => exact ⟨_, rfl, rfl⟩
  obtain ⟨x, hlc, hmove⟩ := hsteps
  exact ⟨_, _, hmove, hlc, rfl, rfl⟩

end State

end Sys2Proof.Machine

open Sys2Proof Sys2Proof.Machine State

/-- Settles O47: each event takes the branch that its conditions name; each command is its own operation in the state of its turn, past its
refusals; a commit's end never lowers the counter; and a transition wipes the secure bank, or with the last one all that the owner left. -/
theorem securityCommands : Obligations.SecurityCommands := by
  refine ⟨fun s hon hpolicy => ?button, fun s fitted h => ?jumper, fun s e h hover => ?expiry, fun s hon => ?tamper, fun s => rfl,
    fun s u ss q t howner hshown hfree => ⟨fun staging length kind b v => ?stage, fun kind p w hkind hjob hstaged hslot => ?commit,
      fun target t' r g who w hjob htarget => ?change, fun hjob => ?wipe⟩,
    fun s u ss q p t hlength hzeros hchain halive => ?attest, fun s kind p hcommit _ hindex hslot => raiseCounter_raises hcommit hindex hslot,
    fun s t => ?move⟩
  case button =>
    obtain ⟨hwindow, htime⟩ := (s.vote 3).pressed_leaves
    rw [timebase_vote] at hwindow htime
    exact ⟨_, execPresenceButton_opens hon hpolicy, hwindow, presence_of_window hwindow (by rw [htime, windowNs]; omega)⟩
  case jumper =>
    refine ⟨_, execServiceJumper_moves h, ?_, fun hon => ?_⟩
    · split <;> rfl
    · rw [hon]
      exact exists_record_raise ..
  case expiry =>
    obtain ⟨l, hclose⟩ := s.closeWindow_eq
    refine ⟨_, execPresenceWindowExpiry_ends h hover, ?_⟩
    rw [hclose]
    exact ⟨rfl, rfl⟩
  case tamper =>
    obtain ⟨l, hclose⟩ := s.wipeBank.closeWindow_eq
    obtain ⟨r, l', hend, hgone⟩ := s.wipeBank.closeWindow.endSessions_eq 3
    obtain ⟨l'', hblow⟩ := blowTamper_eq (s.wipeBank.closeWindow.endSessions 3) 0
    refine ⟨_, execTamperBreak_wipes hon, ?_⟩
    rw [hblow, hend, hclose]
    exact ⟨rfl, rfl, rfl, hgone, rfl, fun h => if_pos h⟩
  case stage =>
    rintro hstaging hlength hsome hend hkind hpart hread hform w k rfl rfl hcounter
    have hsome' : length.toNat ≠ 0 := fun h => hsome (BitVec.eq_of_toNat_eq h)
    rw [exec_fwStage_of_turn t,
      opFwStage_reads howner hshown hfree q hstaging hlength hsome' hend hkind hpart hread hform hcounter]
    exact apply_ite (followed · ss) ..
  case commit =>
    rintro rfl
    rw [exec_fwCommit_of_turn t, opFwCommit_staged howner hshown hfree q hjob hkind hstaged hslot]
    exact apply_ite (followed · ss) ..
  case change =>
    rintro rfl hauth hleft hkeys
    rw [sec_vote] at hauth hleft hkeys
    rw [exec_lcChange_of_turn t, opLcChange_asked howner hshown hfree q hjob htarget hauth hleft hkeys r g]
    exact apply_ite (followed · ss) ..
  case wipe =>
    obtain ⟨hbank, hfull⟩ := opSecureWipe_empty howner hshown hfree q hjob
    refine ⟨?_, ?_, ?_⟩
    · rw [exec_secureWipe_of_turn t, ← hbank]
      rfl
    · rw [exec_secureWipe_of_turn t, ← hfull]
      rfl
    · rw [exec_secureWipeFull_of_turn t, hfull]
  case attest => rw [exec_attest_of_turn t, opAttest_asked hlength hzeros hchain halive, answered]
  case move =>
    by_cases h : t = .decommissioned
    · subst h
      rw [lcMove_decommissions]
      refine ⟨rfl, rfl, rfl, fun _ => ⟨rfl, rfl, rfl, rfl, fun c p => ?_⟩, fun h => absurd rfl h⟩
      rw [course_raise, health_fullWipe, health_clearHealth]
      rfl
    · obtain ⟨x, l, hmove, hlc, hbank, hwiping⟩ := lcMove_lives h s
      rw [hmove]
      exact ⟨hlc, hbank, hwiping, fun h' => absurd h' h, fun _ => rfl⟩
end

section
/-! The issue stage (O3 to O8): the ways in which an instruction stays, the checks of Table 02-5, and the halt at the first that fails. -/

namespace Sys2Proof.Machine

/-- A prefetch that is no other line's than the demanded one's stands (R35). -/
theorem StreamCtx.abandonPrefetch_same {x : StreamCtx} {a : Option Nat} (h : x.prefetch = none ∨ x.prefetch.map (·.2) = a) :
    x.abandonPrefetch a = x := by
  unfold StreamCtx.abandonPrefetch
  split
  · next p hp =>
    have hline : a = some p.2 := by simpa [hp, eq_comm] using h
    rw [if_pos hline]
  · rfl

/-- A demand changes a stream's prefetches alone. -/
theorem StreamCtx.abandonPrefetch_eq (x : StreamCtx) (a : Option Nat) :
    x.abandonPrefetch a = { x with prefetch := (x.abandonPrefetch a).prefetch, adrift := (x.abandonPrefetch a).adrift } := by
  unfold StreamCtx.abandonPrefetch
  repeat' split
  all_goals rfl

/-- A stream of which another that is eligible stands before in the order does not go first (R20). -/
theorem State.goesFirst_of_eligible {s : State} {n : Nat} {t u : Stream} (he : s.eligible n u = true)
    (hu : u ∈ (s.core n).order.takeWhile fun v => v != t) : s.goesFirst n t = false := by
  rw [State.goesFirst, List.all_eq_false]
  exact ⟨u, hu, by simp [he]⟩

/-! ### Commands and the words they carry (R27; log entry 3) -/

theorem wordField_optOp (w : Word128) : wordField w 44 2 = optOp w := rfl

/-- VE.OPT and VE.OPT_COMMIT share an opcode: each refuses the other's operation and issues any other word. -/
theorem optRow_exec : ∀ p ∈ optRows, ∀ (s : State) (n : CoreId) (t : Stream) (w : Word128),
    (ownWord p.ctor n t w = (fOpcode w == (p.req s n t w).form.opcode) ∧
      ∃ eff, exec (p.ctor n t w) s = s.issue n t w (p.req s n t w) eff) ∨
    (fOpcode w = 0xA4 ∧ exec (p.ctor n t w) s = .refused (.otherInstruction (BitVec.ofNat 8 (fOpcode w)))) := by
  simp only [optRows, List.forall_mem_cons]
  refine ⟨fun s n t w => ?_, fun s n t w => ?_, by simp⟩
  · rw [exec_veOpt, execVeOpt]
    by_cases hother : fOpcode w = 0xA4 ∧ optOp w = 1
    · exact .inr ⟨hother.1, by rw [if_pos hother, hother.1]; rfl⟩
    · refine .inl ⟨?_, by rw [if_neg hother, State.issueOpt]; exact ⟨_, rfl⟩⟩
      by_cases hop : fOpcode w = 0xA4
      · simp [ownWord, WellFormed, wordField_opcode, wordField_optOp, veOptReq, hop, not_and.mp hother hop]
      · simp [ownWord, WellFormed, wordField_opcode, veOptReq, hop]
  · rw [exec_veOptCommit, execVeOptCommit]
    by_cases hother : fOpcode w = 0xA4 ∧ optOp w ≠ 1
    · exact .inr ⟨hother.1, by rw [if_pos hother, hother.1]; rfl⟩
    · refine .inl ⟨?_, by rw [if_neg hother, State.issueOpt]; exact ⟨_, rfl⟩⟩
      by_cases hop : fOpcode w = 0xA4
      · simp [ownWord, WellFormed, wordField_opcode, wordField_optOp, veOptCommitReq, hop, not_not.mp (not_and.mp hother hop)]
      · simp [ownWord, WellFormed, wordField_opcode, veOptCommitReq, hop]

/-- Every command of the table issues its word, unless the word is one that the other of VE.OPT's two commands carries. -/
theorem coreTable_exec {p : CoreInstr × (State → CoreId → Stream → Word128 → IssueReq)} (hp : p ∈ coreTable) (s : State)
    (n : CoreId) (t : Stream) (w : Word128) :
    (ownWord p.1 n t w = (fOpcode w == (p.2 s n t w).form.opcode) ∧ ∃ eff, exec (p.1 n t w) s = s.issue n t w (p.2 s n t w) eff) ∨
    (fOpcode w = 0xA4 ∧ exec (p.1 n t w) s = .refused (.otherInstruction (BitVec.ofNat 8 (fOpcode w)))) := by
  rcases coreTable_cases p hp with ⟨q, hq, rfl⟩ | hp | ⟨q, hq, rfl⟩ | ⟨q, hq, rfl⟩
  · exact .inl ⟨scalarRow_own q hq n t w, _, scalarRow_issue q hq s n t w⟩
  · exact .inl (singleTable_issue p hp s n t w)
  · exact .inl ⟨engineRow_own q hq s n t w, _, engineRow_issue q hq s n t w⟩
  · exact optRow_exec q hq s n t w

/-! ### The wait condition (R25, R48) -/

theorem condHolds_ge (f c : W32) : condHolds 0 f c = true ↔ (f.toNat + 2 ^ 32 - c.toNat) % 2 ^ 32 < 2 ^ 31 := by
  simp only [condHolds, flagGe, decide_eq_true_eq]
  bv_omega

theorem condHolds_eq (f c : W32) : condHolds 1 f c = true ↔ (f.toNat + 2 ^ 32 - c.toNat) % 2 ^ 32 = 0 := by
  simp only [condHolds, beq_iff_eq]
  bv_omega

theorem condHolds_ne (f c : W32) : condHolds 2 f c = true ↔ (f.toNat + 2 ^ 32 - c.toNat) % 2 ^ 32 ≠ 0 := by
  simp only [condHolds, bne_iff_ne]
  bv_omega

/-- A word with a wait enabled waits for its condition. -/
theorem Core.waitHolds_enabled {w : Word128} (h : fWaitEn w = true) (c : Core) (t : Stream) :
    c.waitHolds t w = condHolds (fWaitCond w) (c.flag (fWaitFlag w)) (((c.ctx t).sreg (fWaitSreg w)).truncate 32) := by
  simp [waitHolds, h]

/-! ### The checks of Table 02-5 -/

section Check
variable {x : StreamCtx} {w : Word128} {f : Form} {reserved : List Nat} {needs : List Need} {late : Option Stop}

theorem issueCheck_unassigned (h : assigned (fOpcode w) = false) :
    issueCheck x w f reserved needs late = some { reason := 0x01, info := w.toNat / 2 ^ 64 } := by
  simp only [issueCheck, h, Bool.not_false, if_true]

variable (ha : assigned (fOpcode w) = true)
include ha

theorem issueCheck_engine (h : fEngine w ≠ f.engine) :
    issueCheck x w f reserved needs late = some { reason := 0x03, info := fOpcode w + fEngine w * 2 ^ 8 } := by
  simp only [issueCheck, ha, Bool.not_true, Bool.false_eq_true, if_false, h, ne_eq, not_false_eq_true, if_true]

variable (he : fEngine w = f.engine)
include he

theorem issueCheck_reserved {b : Nat} (h : offending f w reserved = some b) :
    issueCheck x w f reserved needs late = some { reason := 0x02, info := fOpcode w + b * 2 ^ 8 } := by
  simp only [issueCheck, ha, Bool.not_true, Bool.false_eq_true, if_false, he, ne_eq, not_true_eq_false, h]

variable (ho : offending f w reserved = none)
include ho

theorem issueCheck_signal (hs : fSigEn w = true) (hf : 480 ≤ fSigFlag w) :
    issueCheck x w f reserved needs late = some { reason := 0x10, info := fOpcode w, flag := fSigFlag w } := by
  simp only [issueCheck, ha, Bool.not_true, Bool.false_eq_true, if_false, he, ne_eq, not_true_eq_false, ho, hs, hf, decide_true,
    Bool.and_self, if_true]

/-- Past the first four checks the descriptors that are required come before the instruction's own checks. -/
theorem issueCheck_own (h : fSigEn w = true → fSigFlag w < 480) :
    issueCheck x w f reserved needs late = (unsetStop x (fOpcode w) needs).or late := by
  have hs : (fSigEn w && decide (480 ≤ fSigFlag w)) = false := by
    rw [Bool.and_eq_false_imp]
    exact fun hen => decide_eq_false (Nat.not_le.mpr (h hen))
  simp only [issueCheck, ha, Bool.not_true, Bool.false_eq_true, if_false, he, ne_eq, not_true_eq_false, ho, hs]
  cases unsetStop x (fOpcode w) needs <;> rfl

end Check

/-! ### The halt at a failed check (R24, R41) -/

section Halt
variable {s : State} {n : Nat} (hrun : (s.core n).halt.halted = false) (t : Stream) (st : Stop)
include hrun

theorem halt_haltIssue : ((s.haltIssue n 6 t st).core n).halt = firstRecord (s.core n).halt (s.haltPlace n t 6) st :=
  State.halt_haltCore hrun ..

/-- The issue stage discards no engine's queue as it halts its core. -/
theorem queues_haltIssue :
    let u := s.haltIssue n 6 t st
    (u.core n).flags = (s.core n).flags ∧ (u.core n).ve = (s.core n).ve ∧ (u.core n).da = (s.core n).da ∧
      (u.core n).gme = (s.core n).gme ∧ (u.core n).val = (s.core n).val ∧ (u.core n).outSignals = (s.core n).outSignals := by
  dsimp only
  rw [State.haltIssue, core_haltCore_first _ _ _ _ hrun]
  exact ⟨rfl, rfl, rfl, rfl, rfl, rfl⟩

end Halt

end Sys2Proof.Machine

open Sys2Proof Sys2Proof.Machine

/-- Settles O3: each row's command is an issue (`coreTable_issue`), which answers at the first condition of R19 or R20 that fails. -/
theorem waitAndFullQueueHoldTheStream : Obligations.WaitAndFullQueueHoldTheStream := by
  refine ⟨?wait, ?queue, ?fetch, ?order⟩
  case wait =>
    intro p hp s n t w hown hi hw
    obtain ⟨hop, eff, he⟩ := coreTable_issue p hp s n t w hown
    exact he.trans (issue_wait s n t w _ eff (fun _ => hop) hi hw)
  case queue =>
    intro p hp s n t w hown hi hw hfull
    obtain ⟨hop, eff, he⟩ := coreTable_issue p hp s n t w hown
    exact he.trans (issue_queue s n t w _ eff (fun _ => hop) hi hw hfull)
  case fetch =>
    intro p hp s n t w hown hpres hmiss
    obtain ⟨hop, eff, he⟩ := coreTable_issue p hp s n t w hown
    have hexec := he.trans (issue_miss s n t w _ eff (fun _ => hop) hpres hmiss)
    let y := ((s.core n).ctx t).abandonPrefetch (s.fetchAddr n t)
    refine ⟨y.prefetch, y.adrift, hexec.trans ?_, fun h => ?_⟩
    · have hy := StreamCtx.abandonPrefetch_eq ((s.core n).ctx t) (s.fetchAddr n t)
      simp only [State.miss, State.modCtx, State.modCore, Core.modCtx]
      rw [hy]
    · have hy : y = (s.core n).ctx t := StreamCtx.abandonPrefetch_same h
      rw [hy]
      exact ⟨rfl, rfl⟩
  case order =>
    intro p hp s n t u w hown hi hw hfree _ helig hu
    obtain ⟨hop, eff, he⟩ := coreTable_issue p hp s n t w hown
    exact he.trans (issue_later s n t w _ eff (fun _ => hop) hi hw hfree (State.goesFirst_of_eligible helig hu))

/-- Settles O4: each condition compares by the difference modulo 2^32 (`condHolds_ge`, `condHolds_eq`, `condHolds_ne`). -/
theorem waitConditionComparesModulo : Obligations.WaitConditionComparesModulo := by
  intro c t w f v d
  have hv : (((c.ctx t).sreg (fWaitSreg w)).truncate 32).toNat = v := BitVec.toNat_setWidth ..
  refine ⟨Nat.mod_lt _ (by decide), fun hoff => ?_, fun hon hcond => ?_, fun hon hcond => ?_, fun hon hcond => ?_⟩
  · simp [Core.waitHolds, hoff]
  · rw [Core.waitHolds_enabled hon, hcond, condHolds_ge, hv]
  · rw [Core.waitHolds_enabled hon, hcond, condHolds_eq, hv]
  · rw [Core.waitHolds_enabled hon, hcond, condHolds_ne, hv]

/-- Settles O5: one rule for each check, under those before it. -/
theorem issueChecksInOrder : Obligations.IssueChecksInOrder :=
  fun _ _ _ _ _ _ => ⟨issueCheck_unassigned, issueCheck_engine, fun ha he _ => issueCheck_reserved ha he, issueCheck_signal,
    issueCheck_own⟩

/-- Settles O6: a trap at issue is a halt reported by engine 6 (`State.haltIssue`), which discards no queue of the engines named. -/
theorem failedCheckHaltsTheCore : Obligations.FailedCheckHaltsTheCore := by
  intro p hp s n t w st hown hi hw hfree hfirst hcheck
  obtain ⟨hop, eff, he⟩ := coreTable_issue p hp s n t w hown
  have hrun := canIssue_running s n t w hi
  obtain ⟨hflags, hve, hda, hgme, hval, hout⟩ := queues_haltIssue hrun t st
  exact ⟨_, he.trans (issue_trap s n t w _ eff st (fun _ => hop) hi hw hfree hfirst hcheck), halt_haltIssue hrun t st,
    hflags, hve, hda, hgme, hval, hout, mem_haltCore ..⟩

/-- Settles O7: 0xA4 is assigned, so the command issues its word, and the first check fails. -/
theorem unlistedOpcodeIsIllegal : Obligations.UnlistedOpcodeIsIllegal := by
  refine ⟨by decide, fun p hp s n t w hun hi hw hfree hfirst => ?_⟩
  obtain ⟨-, eff, he⟩ | ⟨hop, -⟩ := coreTable_exec hp s n t w
  · exact ⟨_, he.trans (issue_trap s n t w _ eff _ (fun h => absurd h (by simp [hun])) hi hw hfree hfirst (issueCheck_unassigned hun)),
      halt_haltIssue (canIssue_running s n t w hi) t _⟩
  · rw [hop] at hun
    exact absurd hun (by decide)

/-- Settles O8: a row that does not issue the word refuses it, and one that issues it meets another opcode. -/
theorem anotherInstructionsWordIsRefused : Obligations.AnotherInstructionsWordIsRefused := by
  intro p hp s n t w hassigned hother
  obtain ⟨hown, eff, he⟩ | ⟨-, he⟩ := coreTable_exec hp s n t w
  · exact he.trans (issue_other s n t w _ eff hassigned (beq_eq_false_iff_ne.mp (hown.symm.trans hother)))
  · exact he

end

section
/-! What retiring and an instruction's signal leave (O11, O23); the scalar results and their frame (O9 to O12), the first fault (O20), and
the engines' instructions as they issue (O22, O23). -/

namespace Sys2Proof.Machine

/-! ### What retiring leaves (R20, R35, R61) -/

section Retire
variable (s : State) (n : Nat) (t : Stream)

theorem flags_retire (m : Nat) : ((s.retire n t).core m).flags = (s.core m).flags := by
  by_cases hm : m = n
  · subst hm
    obtain ⟨i, f, p, q, d, h⟩ := core_retire s m t
    rw [h]
    exact Core.flags_setCtx ..
  · rw [core_retire_other s n m t hm]

theorem halt_retire (m : Nat) : ((s.retire n t).core m).halt = (s.core m).halt := by
  by_cases hm : m = n
  · subst hm
    obtain ⟨i, f, p, q, d, h⟩ := core_retire s m t
    rw [h]
    exact Core.halt_setCtx ..
  · rw [core_retire_other s n m t hm]

/-- Retiring moves its stream and its core's order, and uses the instruction cache: everything else of the core stays. -/
theorem Core.beside_retire : ((s.retire n t).core n).beside = (s.core n).beside := by
  obtain ⟨i, f, p, q, d, h⟩ := core_retire s n t
  rw [h]
  cases t <;> rfl

/-- Of a stream it leaves what reads neither its PC, its watchdog, its hold nor its fetch buffer. -/
theorem keeps_ctx_retire {β : Type} (g : StreamCtx → β)
    (hg : ∀ x f p q d i, g { x with fetchLine := f, prefLine := p, prefetch := q, adrift := d, pcIndex := i, wdog := 0, hold := .none,
                                    held := none } = g x) (m : Nat) (t' : Stream) :
    g (((s.retire n t).core m).ctx t') = g ((s.core m).ctx t') := by
  by_cases hm : m = n
  · subst hm
    by_cases ht : t' = t
    · subst ht
      obtain ⟨f, p, q, d, h⟩ := ctx_retire s m t'
      rw [h, hg]
    · rw [ctx_retire_other s m t t' ht]
  · rw [core_retire_other s n m t hm]

theorem sreg_retire (m : Nat) (t' : Stream) (k : Nat) : (s.retire n t).sreg m t' k = s.sreg m t' k :=
  keeps_ctx_retire s n t (·.sreg k) (fun _ _ _ _ _ _ => rfl) m t'

theorem dreg_retire (m : Nat) (t' : Stream) (k : Nat) : (((s.retire n t).core m).ctx t').dreg k = ((s.core m).ctx t').dreg k :=
  keeps_ctx_retire s n t (·.dreg k) (fun _ _ _ _ _ _ => rfl) m t'

end Retire

/-! ### The signal of an instruction that issues (R26) -/

section Signalled
variable {s u : State} {n : CoreId} {t : Stream} {w : Word128} {r : IssueReq} (h : u.roleHeld n = false)
include h

/-- A core after the signal is as before, or it is the signal's own core and has taken its increment. -/
theorem core_signalled (m : Nat) : (signalled s n t w r u).core m = u.core m ∨
    (m = n ∧ fSigEn w = true ∧ issueSignal r w = true ∧ (signalled s n t w r u).core m =
      (u.core m).bumped (u.staysGated n) (fSigFlag w) (sigAmount ((s.core n).ctx t) w)) := by
  unfold signalled
  split
  · next hsends =>
    by_cases hen : fSigEn w = true
    · simp only [State.signal, sigOf, hen, if_true, State.incFlag_accepted h, State.core_modCore]
      by_cases hm : m = n
      · subst hm
        exact .inr ⟨rfl, trivial, hsends, if_pos rfl⟩
      · exact .inl (if_neg hm)
    · exact .inl (by simp [State.signal, sigOf, hen])
  · exact .inl rfl

/-- The signal leaves what of a core reads neither its flags nor its gate. -/
theorem keeps_signalled {β : Type} (g : Core → β) (hg : ∀ c stays k a, g (Core.bumped c stays k a) = g c) (m : Nat) :
    g ((signalled s n t w r u).core m) = g (u.core m) := by
  obtain e | ⟨-, -, -, e⟩ := core_signalled (s := s) (t := t) (w := w) (r := r) h m
  · rw [e]
  · rw [e, hg]

theorem core_signalled_other {m : Nat} (hm : m ≠ n) : (signalled s n t w r u).core m = u.core m := by
  obtain e | ⟨e, -⟩ := core_signalled (s := s) (t := t) (w := w) (r := r) h m
  · exact e
  · exact absurd e hm

/-- It adds to the one flag that the word names. -/
theorem flag_signalled (m k : Nat) : (fSigEn w = true ∧ issueSignal r w = true ∧ fSigFlag w = k) ∨
    ((signalled s n t w r u).core m).flag k = (u.core m).flag k := by
  obtain e | ⟨-, hen, hsends, e⟩ := core_signalled (s := s) (t := t) (w := w) (r := r) h m
  · exact .inr (by rw [e])
  · by_cases hk : fSigFlag w = k
    · exact .inl ⟨hen, hsends, hk⟩
    · exact .inr (by rw [e, Core.flag_bumped, if_neg (Ne.symm hk)])

theorem beside_signalled : (signalled s n t w r u).beside = u.beside := by
  unfold signalled State.signal
  split
  · split
    · exact State.beside_incFlag h ..
    · rfl
  · rfl

end Signalled

/-! The cores hold neither memory nor the roles of cores. -/

theorem State.roleHeld_beside (s : State) (n : Nat) : s.beside.roleHeld n = s.roleHeld n := rfl

theorem State.byteAt_beside (s : State) (a : Nat) : s.beside.byteAt a = s.byteAt a := rfl

theorem roleHeld_of_beside {s u : State} (h : u.beside = s.beside) (n : Nat) : u.roleHeld n = s.roleHeld n := by
  rw [← u.roleHeld_beside, h, s.roleHeld_beside]

theorem byteAt_of_beside {s u : State} (h : u.beside = s.beside) (a : Nat) : u.byteAt a = s.byteAt a := by
  rw [← u.byteAt_beside, h, s.byteAt_beside]

theorem Passes.role {s : State} {n : CoreId} {t : Stream} {w : Word128} {r : IssueReq} (h : Passes s n t w r) :
    s.roleHeld n = false := canIssue_role s n t w h.may

/-- An instruction that passes and whose effect has no fault of its own. -/
theorem issue_ok {s : State} {n : CoreId} {t : Stream} {w : Word128} {r : IssueReq} (h : Passes s n t w r) (f : State → State) :
    (s.issue n t w r fun u => .ok (f u)) = .next (signalled s n t w r (f (s.retire n t))) := issue_passes h rfl

/-! ### The scalar instructions that write a register (Tables 02-6, 02-7) -/

theorem State.ctx_setSreg (s : State) (n : Nat) (t t' : Stream) (k : Nat) (v : Word) :
    ((s.setSreg n t k v).core n).ctx t' = if t' = t then ((s.core n).ctx t).setSreg k v else (s.core n).ctx t' := by
  rw [State.setSreg, State.core_modCtx, if_pos rfl, Core.ctx_modCtx]

theorem beside_setSreg (x : StreamCtx) (k : Nat) (v : Word) : (x.setSreg k v).beside = x.beside := by
  unfold StreamCtx.setSreg; split <;> rfl

theorem scalarRow_passes {p : ScalarRow} (hp : p ∈ threeOperand ++ immediateOperand) {s : State} {n : CoreId} {t : Stream}
    {w : Word128} (h : Passes s n t w p.req) :
    exec (p.ctor n t w) s = .next (signalled s n t w p.req
      ((s.retire n t).setSreg n t (fDst w) (p.value w (s.sreg n t (fA w)) (s.sreg n t (fB w))))) :=
  (scalarRow_issue p hp s n t w).trans (issue_passes h rfl)

/-- Every row of the table writes its destination register, and has no fault of its own. -/
theorem scalarTable_issue : ∀ p ∈ scalarTable, ∀ (s : State) (n : CoreId) (t : Stream) (w : Word128), ∃ v : State → Word,
    exec (p.1 n t w) s = s.issue n t w (p.2 s n t w) fun u => .ok (u.setSreg n t (fDst w) (v u)) := by
  intro p hp s n t w
  rw [scalarTable, List.mem_append, List.mem_map] at hp
  obtain ⟨q, hq, rfl⟩ | hp := hp
  · exact ⟨_, scalarRow_issue q hq s n t w⟩
  · simp only [List.mem_cons, List.not_mem_nil, or_false] at hp
    obtain rfl | rfl | rfl | rfl := hp
    · rw [exec_ldih, execLdih]; exact ⟨_, rfl⟩
    · rw [exec_loopidx, execLoopidx]; exact ⟨_, rfl⟩
    · rw [exec_rdid, execRdid]; exact ⟨_, rfl⟩
    · rw [exec_flagrd, execFlagrd]; exact ⟨_, rfl⟩

/-! ### The engines' instructions as they issue (R19, R21) -/

/-- From u to v, of core n, nothing but its engines and their queues has changed, and of the module nothing else. -/
structure QueuesOnly (n : Nat) (u v : State) : Prop where
  beside : v.beside = u.beside
  others : ∀ m, m ≠ n → v.core m = u.core m
  ctx : ∀ t, (v.core n).ctx t = (u.core n).ctx t
  halt : (v.core n).halt = (u.core n).halt
  flags : (v.core n).flags = (u.core n).flags

theorem QueuesOnly.refl (n : Nat) (u : State) : QueuesOnly n u u := ⟨rfl, fun _ _ => rfl, fun _ => rfl, rfl, rfl⟩

theorem QueuesOnly.trans {n : Nat} {u v x : State} (h : QueuesOnly n u v) (h' : QueuesOnly n v x) : QueuesOnly n u x :=
  ⟨h'.beside.trans h.beside, fun m hm => (h'.others m hm).trans (h.others m hm), fun t => (h'.ctx t).trans (h.ctx t),
    h'.halt.trans h.halt, h'.flags.trans h.flags⟩

theorem QueuesOnly.modCore {n : Nat} {u : State} {f : Core → Core} (hctx : ∀ c t, (f c).ctx t = c.ctx t) (hhalt : ∀ c, (f c).halt = c.halt)
    (hflags : ∀ c, (f c).flags = c.flags) : QueuesOnly n u (u.modCore n f) := by
  refine ⟨rfl, fun m hm => ?_, fun t => ?_, ?_, ?_⟩
  · rw [State.core_modCore, if_neg hm]
  · rw [State.core_modCore, if_pos rfl, hctx]
  · rw [State.core_modCore, if_pos rfl, hhalt]
  · rw [State.core_modCore, if_pos rfl, hflags]

/-- An instruction's entry in a queue. -/
theorem queuesOnly_push (n : Nat) (u : State) (e : EngKind) (o : EngOp) : QueuesOnly n u (u.modCore n fun c => c.push e o) := by
  refine .modCore (fun c t => ?_) (fun c => ?_) fun c => ?_
  · cases e <;> cases t <;> rfl
  · cases e <;> rfl
  · cases e <;> rfl

theorem queuesOnly_fillOwns (transposed : Bool) (s : State) (n : CoreId) (t : Stream) (w : Word128) (u : State) :
    QueuesOnly n u (fillOwns transposed s n t w u) :=
  .modCore (fun _ t => by cases t <;> rfl) (fun _ => rfl) fun _ => rfl

theorem queuesOnly_swapOwns (n : CoreId) (t : Stream) (u : State) : QueuesOnly n u (swapOwns n t u) :=
  .modCore (fun _ t => by cases t <;> rfl) (fun _ => rfl) fun _ => rfl

/-- But for the owners of the dense array's tiles, issue changes nothing beyond the queue. -/
theorem engineRow_upd : ∀ p ∈ denseRows.drop 3 ++ gmeRows ++ vectorRows ++ moveRows, p.upd = fun _ _ _ _ u => u := by
  simp [denseRows, gmeRows, vectorRows, moveRows]

theorem queuesOnly_upd : ∀ p ∈ denseRows ++ gmeRows ++ vectorRows ++ moveRows, ∀ (s : State) (n : CoreId) (t : Stream) (w : Word128)
    (u : State), QueuesOnly n u (p.upd s n t w u) := by
  have hrows : denseRows ++ gmeRows ++ vectorRows ++ moveRows =
      denseRows.take 3 ++ (denseRows.drop 3 ++ gmeRows ++ vectorRows ++ moveRows) := rfl
  intro p hp s n t w u
  rw [hrows, List.mem_append] at hp
  obtain hp | hp := hp
  · simp only [denseRows, List.take_succ_cons, List.take_zero, List.mem_cons, List.not_mem_nil, or_false] at hp
    obtain rfl | rfl | rfl := hp
    · exact queuesOnly_fillOwns ..
    · exact queuesOnly_fillOwns ..
    · exact queuesOnly_swapOwns ..
  · rw [engineRow_upd p hp]
    exact .refl n u

/-- The operands of VE.OPT's two operations, as they enter the queue. -/
theorem optRow_queued : ∀ p ∈ [(Instr.veOpt, veOptReq, optRegs),
    (Instr.veOptCommit, veOptCommitReq, fun _ w => [fA w, fA w + 1, fDst w, fDst w + 1])],
    ∀ (s : State) (n : CoreId) (t : Stream) (w : Word128), ownWord p.1 n t w = true → exec (p.1 n t w) s =
      s.issue n t w (p.2.1 s n t w) fun u => .ok (u.modCore n fun c =>
        c.push .ve { s.engOp n t w (p.2.2 s w) with sched := tget (s.course (courseOf n)).sched (optGroup w) {} }) := by
  simp only [List.forall_mem_cons]
  refine ⟨fun s n t w hown => ?_, fun s n t w hown => ?_, by simp⟩
  · have hop : optOp w ≠ 1 := by
      simp only [ownWord, WellFormed, Bool.and_eq_true, bne_iff_ne] at hown
      exact hown.2
    rw [exec_veOpt, execVeOpt, if_neg fun e => hop e.2]
    rfl
  · have hop : optOp w = 1 := by
      simp only [ownWord, WellFormed, Bool.and_eq_true, beq_iff_eq] at hown
      exact hown.2
    rw [exec_veOptCommit, execVeOptCommit, if_neg fun e => e.2 hop]
    rfl

theorem engineRow_passes {p : EngineRow} (hp : p ∈ denseRows ++ gmeRows ++ vectorRows ++ moveRows) {s : State} {n : CoreId} {t : Stream}
    {w : Word128} (h : Passes s n t w (p.req s n t w)) : exec (p.ctor n t w) s = .next (p.queued s n t w) :=
  (engineRow_issue p hp s n t w).trans (issue_passes h rfl)

/-- Every instruction of an engine has, at issue, an effect on its core's engines and queues alone. -/
theorem engineTable_issue {p : EngineRow} (hp : p ∈ denseRows ++ gmeRows ++ vectorRows ++ optRows ++ moveRows) (s : State) (n : CoreId)
    (t : Stream) (w : Word128) (hown : ownWord p.ctor n t w = true) :
    ∃ f : State → State, exec (p.ctor n t w) s = (s.issue n t w (p.req s n t w) fun u => .ok (f u)) ∧ ∀ u, QueuesOnly n u (f u) := by
  by_cases hopt : p ∈ optRows
  · obtain ⟨l, he⟩ := optRow_issue p hopt s n t w hown
    exact ⟨_, he, fun u => queuesOnly_push ..⟩
  · have hp' : p ∈ denseRows ++ gmeRows ++ vectorRows ++ moveRows := by
      simpa only [List.mem_append, hopt, or_false] using hp
    exact ⟨_, engineRow_issue p hp' s n t w, fun u => (queuesOnly_push ..).trans (queuesOnly_upd p hp' ..)⟩

/-- The form of each names its own engine. -/
theorem engineTable_engine : ∀ p ∈ denseRows ++ gmeRows ++ vectorRows ++ optRows ++ moveRows, ∀ (s : State) (n : CoreId) (t : Stream)
    (w : Word128), (p.req s n t w).form.engine = EngKind.field p.eng := by
  simp only [denseRows, gmeRows, vectorRows, optRows, moveRows, List.cons_append, List.nil_append, List.forall_mem_cons,
    List.not_mem_nil, false_implies, implies_true, and_true]
  and_intros
  all_goals exact fun _ _ _ _ => rfl

theorem EngKind.field_ne (e : EngKind) : EngKind.field e ≠ 0 ∧ EngKind.field e ≠ 6 := by cases e <;> decide

/-- So its signal at issue is that of sig_when 0 (R26). -/
theorem engineTable_signal {p : EngineRow} (hp : p ∈ denseRows ++ gmeRows ++ vectorRows ++ optRows ++ moveRows) {s : State} {n : CoreId}
    {t : Stream} {w : Word128} (h : issueSignal (p.req s n t w) w = true) : fSigWhen w = 0 := by
  obtain ⟨hscalar, hsync⟩ := EngKind.field_ne p.eng
  simp only [issueSignal, engineTable_engine p hp s n t w, hscalar, hsync, beq_iff_eq, Bool.and_eq_true, Bool.or_eq_true, false_or] at h
  exact h.2

end Sys2Proof.Machine

open Sys2Proof Sys2Proof.Machine

/-- Settles O9: each row is an issue whose effect is the write of its value (`scalarRow_issue`). -/
theorem threeOperandScalarResults : Obligations.ThreeOperandScalarResults :=
  fun _ hp _ _ _ _ h => scalarRow_passes (List.mem_append_left _ hp) h

/-- Settles O10: as O9, and LDIH reads its old half from the state in which it has retired, whose registers are the same. -/
theorem immediateAndReadingScalarResults : Obligations.ImmediateAndReadingScalarResults := by
  refine ⟨fun _ hp _ _ _ _ h => scalarRow_passes (List.mem_append_right _ hp) h, ?ldih, ?loopidx, ?rdid, ?flagrd⟩
  case ldih =>
    intro s n t w h _
    rw [exec_ldih, execLdih, issue_ok h fun u => u.setSreg n t (fDst w) (ldihOp (u.sreg n t (fDst w)) (fImm w)), sreg_retire, ldihOp]
  case loopidx => exact issues_of_ok fun _ _ _ _ => rfl
  case rdid => exact issues_of_ok fun _ _ _ _ => rfl
  case flagrd => exact issues_of_ok fun _ _ _ _ => rfl

/-- Settles O11: a row writes one register of the stream that has retired (`scalarTable_issue`), and the signal adds to one flag. -/
theorem scalarFrame : Obligations.ScalarFrame := by
  intro p hp s u n t w h hexec
  obtain ⟨v, hissue⟩ := scalarTable_issue p hp s n t w
  obtain rfl : signalled s n t w (p.2 s n t w) ((s.retire n t).setSreg n t (fDst w) (v (s.retire n t))) = u := by
    have he := hissue.symm.trans hexec
    rw [issue_ok h fun u => u.setSreg n t (fDst w) (v u)] at he
    injection he
  generalize v (s.retire n t) = x
  have hrole : ((s.retire n t).setSreg n t (fDst w) x).roleHeld n = false := h.role
  have hbeside : (signalled s n t w (p.2 s n t w) ((s.retire n t).setSreg n t (fDst w) x)).beside = s.beside := beside_signalled hrole
  have hctx (t' : Stream) := keeps_signalled (s := s) (t := t) (w := w) (r := p.2 s n t w) hrole (·.ctx t')
    (fun c stays k a => Core.ctx_bumped c stays k a t') n
  refine ⟨hbeside, fun m hm => ?others, ?core, fun t' ht => ?streams, ?stream, fun k hk => ?sregs, ?zero, fun k => ?flags,
    byteAt_of_beside hbeside⟩
  case others => rw [core_signalled_other hrole hm, State.setSreg, State.core_modCtx, if_neg hm, core_retire_other s n m t hm]
  case core =>
    rw [keeps_signalled hrole Core.beside Core.beside_bumped, State.setSreg, State.core_modCtx, if_pos rfl, Core.modCtx,
      Core.beside_setCtx, Core.beside_retire]
  case streams => rw [hctx, State.ctx_setSreg, if_neg ht, ctx_retire_other s n t t' ht]
  case stream =>
    rw [hctx, State.ctx_setSreg, if_pos rfl, beside_setSreg]
    exact keeps_ctx_retire s n t StreamCtx.beside (fun _ _ _ _ _ _ => rfl) n t
  case sregs =>
    rw [State.sreg, hctx, State.ctx_setSreg, if_pos rfl, StreamCtx.sreg_setSreg, if_neg fun e => hk e.1]
    exact sreg_retire s n t n t k
  case zero => exact StreamCtx.sreg_zero _
  case flags =>
    refine (flag_signalled hrole n k).imp (fun e => ⟨e.1, e.2.2⟩) fun e => e.trans ?_
    rw [Core.flag, State.setSreg, State.core_modCtx, if_pos rfl, Core.flags_modCtx, flags_retire, Core.flag]

/-- Settles O12: d0 as a required operand is among those that `unsetStop` finds. -/
theorem registerZero : Obligations.RegisterZero := by
  refine fun x => ⟨rfl, fun _ => rfl, rfl, fun _ => rfl, fun op needs k hk _ hzero => ?_⟩
  have hmem : k ∈ needs.filter fun k => k.reg == 0 || (!k.write && (x.dreg k.reg).isNone) :=
    List.mem_filter.mpr ⟨hk, by simp [hzero]⟩
  unfold unsetStop
  split
  · next hnil => rw [hnil] at hmem; simp at hmem
  · exact ⟨_, rfl, rfl⟩
  · exact ⟨_, rfl, rfl⟩

/-- Settles O22: each row is an issue whose effect is the entry in its queue (`engineRow_issue`, `optRow_queued`). -/
theorem engineInstructionsEnterTheirQueue : Obligations.EngineInstructionsEnterTheirQueue := by
  refine ⟨fun p hp s n t w => engineRow_passes ?_, fun p hp s n t w => engineRow_passes ?_,
    ⟨fun p hp s n t w => engineRow_passes ?_, fun p hp s n t w hown h => ?opt⟩, fun p hp s n t w => engineRow_passes ?_⟩
  case opt =>
    exact (optRow_queued p hp s n t w hown).trans (issue_passes h rfl)
  all_goals simp only [List.mem_append, hp, true_or, or_true]

/-- Settles O23: at issue an engine's instruction changes its core's engines and queues alone (`engineTable_issue`). -/
theorem engineIssueFrame : Obligations.EngineIssueFrame := by
  intro p hp s u n t w hown h hexec
  obtain ⟨f, hissue, hf⟩ := engineTable_issue hp s n t w hown
  obtain rfl : signalled s n t w (p.req s n t w) (f (s.retire n t)) = u := by
    have he := hissue.symm.trans hexec
    rw [issue_ok h f] at he
    injection he
  obtain ⟨hbeside, hothers, hctx, hhalt, hflags⟩ := hf (s.retire n t)
  have hrole : (f (s.retire n t)).roleHeld n = false := (roleHeld_of_beside hbeside n).trans h.role
  have hall := (beside_signalled (s := s) (t := t) (w := w) (r := p.req s n t w) hrole).trans hbeside
  have hstream (t' : Stream) : ((signalled s n t w (p.req s n t w) (f (s.retire n t))).core n).ctx t' = ((s.retire n t).core n).ctx t' :=
    (keeps_signalled hrole (·.ctx t') (fun c stays k a => Core.ctx_bumped c stays k a t') n).trans (hctx t')
  refine ⟨hall, fun m hm => ?others, fun k => ?sregs, fun t' k => ?dregs, fun t' ht => ?streams, ?halt, fun k => ?flags, byteAt_of_beside hall⟩
  case others => rw [core_signalled_other hrole hm, hothers m hm, core_retire_other s n m t hm]
  case sregs =>
    rw [State.sreg, hstream]
    exact sreg_retire s n t n t k
  case dregs => rw [hstream, dreg_retire]
  case streams => rw [hstream, ctx_retire_other s n t t' ht]
  case halt => rw [keeps_signalled hrole Core.halt Core.halt_bumped, hhalt, halt_retire]
  case flags =>
    refine (flag_signalled hrole n k).imp (fun e => ⟨e.1, engineTable_signal hp e.2.1, e.2.2⟩) fun e => e.trans ?_
    rw [Core.flag, hflags, flags_retire, Core.flag]

/-- Settles O20: the three cases of `State.haltCore`, the first as `core_haltCore_first` says it. -/
theorem firstFaultIsRecorded : Obligations.FirstFaultIsRecorded := by
  intro s n p st
  refine ⟨fun hrun => ⟨State.halt_haltCore hrun p st, fun t => ?_, ?_, mem_haltCore s n p st⟩,
    fun hhalted hdrains => ?_, fun hhalted hdone => ?_⟩
  · rw [core_haltCore_first s n p st hrun]
    cases t <;> exact ⟨rfl, rfl⟩
  · rw [core_haltCore_first s n p st hrun]
    exact Core.flags_discard ..
  · simp [State.haltCore, hhalted, hdrains, sat32]
  · simp [State.haltCore, hhalted, hdone]

end

section
/-! The scalar unit's memory (O13 to O15): what reading and writing a line leave of the streams, the registers of a line, and the checks
of R28. -/

namespace Sys2Proof.Machine

/-! ### What a read of a line leaves of a core (R231, R232) -/

/-- What g shows of a core does not depend on its banks' power, their scrubbers and the counters of errors. -/
def BlindToBanks {β : Type} (g : Core → β) : Prop :=
  ∀ c power spad acc ce ue,
    g { c with bankPower := power, spadScrub := spad, accScrub := acc, spadCe := ce, spadUe := ue } = g c

/-- A change of one core that g does not show. -/
theorem State.keeps_modCore {β : Type} {g : Core → β} {s : State} {n : Nat} {f : Core → Core} (hf : ∀ c, g (f c) = g c) (m : Nat) :
    g ((s.modCore n f).core m) = g (s.core m) := by
  rw [State.core_modCore]
  split
  · next e => rw [e, hf]
  · rfl

section
variable {β : Type} {g : Core → β} (hg : BlindToBanks g)
include hg

theorem State.keeps_setBankState (s : State) (a v m : Nat) : g ((s.setBankState a v).core m) = g (s.core m) := by
  unfold State.setBankState
  dsimp only
  split
  · refine State.keeps_modCore (fun c => ?_) m
    have hrows : ∃ acc, (if (v == 0 && s.bankState a != 0) = true then freshRows s.timebase (spadBank a) c else c) =
        { c with accScrub := acc } := by
      unfold freshRows
      repeat' split
      · exact ⟨_, rfl⟩
      · exact ⟨_, rfl⟩
      · exact ⟨_, rfl⟩
    obtain ⟨acc, e⟩ := hrows
    rw [e]
    exact hg c _ _ acc c.spadCe c.spadUe
  · rfl
  · rfl

theorem State.keeps_wakeBank (s : State) (a master m : Nat) : g ((s.wakeBank a master).core m) = g (s.core m) := by
  unfold State.wakeBank
  split
  · exact keeps_setBankState hg ..
  · exact keeps_setBankState hg ..
  · exact keeps_setBankState hg ..
  · rfl

theorem State.keeps_countErr (s : State) (a ce ue m : Nat) : g ((s.countErr a ce ue).core m) = g (s.core m) := by
  unfold State.countErr
  split
  · rfl
  · split
    · rfl
    · rfl
    · exact State.keeps_modCore (fun c => hg c c.bankPower c.spadScrub c.accScrub _ _) m
    · rfl

theorem State.keeps_readLine (s : State) (a master m : Nat) : g ((s.readLine a master).2.core m) = g (s.core m) :=
  (keeps_countErr hg ..).trans (keeps_wakeBank hg ..)

end

theorem blindToBanks_ctx (t : Stream) : BlindToBanks (·.ctx t) := fun _ _ _ _ _ _ => by cases t <;> rfl

theorem blindToBanks_flag (k : Nat) : BlindToBanks (·.flag k) := fun _ _ _ _ _ _ => rfl

theorem Core.bankPower_beside (c : Core) : c.beside.bankPower = c.bankPower := rfl

theorem Core.bankPower_bumped (c : Core) (stays : Bool) (k : Nat) (a : W32) : (c.bumped stays k a).bankPower = c.bankPower := by
  rw [← Core.bankPower_beside, Core.beside_bumped, Core.bankPower_beside]

/-- The power of a bank is written in its core or in its course. -/
theorem State.bankState_congr {s u : State} {a : Nat} (hcore : ∀ m, (u.core m).bankPower = (s.core m).bankPower)
    (hcourse : ∀ c, u.course c = s.course c) : u.bankState a = s.bankState a := by
  simp only [State.bankState, hcore, hcourse]

theorem bankState_retire (s : State) (n : Nat) (t : Stream) (a : Nat) : (s.retire n t).bankState a = s.bankState a := by
  refine State.bankState_congr (fun m => ?_) fun _ => rfl
  by_cases hm : m = n
  · subst hm
    rw [← Core.bankPower_beside, Core.beside_retire, Core.bankPower_beside]
  · rw [core_retire_other s n m t hm]

/-! ### The registers of a line (R28) -/

/-- The eight words of a line go to eight consecutive registers, of which s0 takes none. -/
theorem sreg_setGroup (x : StreamCtx) (r : Nat) (l : List Byte) (k : Nat) :
    (setGroup x r l).sreg k = if r ≤ k ∧ k < r + 8 ∧ k ≠ 0 then BitVec.ofNat 64 (natAt l (8 * (k - r)) 8) else x.sreg k := by
  suffices h : ∀ m, ((List.range m).foldl (fun x i => x.setSreg (r + i) (BitVec.ofNat 64 (natAt l (8 * i) 8))) x).sreg k =
      if r ≤ k ∧ k < r + m ∧ k ≠ 0 then BitVec.ofNat 64 (natAt l (8 * (k - r)) 8) else x.sreg k from h 8
  intro m
  induction m with
  | zero =>
    have hnone : ¬ (r ≤ k ∧ k < r + 0 ∧ k ≠ 0) := by omega
    rw [if_neg hnone, List.range_zero, List.foldl_nil]
  | succ m ih =>
    rw [List.range_succ, List.foldl_append, List.foldl_cons, List.foldl_nil, StreamCtx.sreg_setSreg, ih]
    by_cases hlast : k = r + m ∧ r + m ≠ 0
    · have hin : r ≤ k ∧ k < r + (m + 1) ∧ k ≠ 0 := by omega
      rw [if_pos hlast, if_pos hin, hlast.1, Nat.add_sub_cancel_left]
    · rw [if_neg hlast]
      refine if_congr ?_ rfl rfl
      omega

theorem leBytes_getElem? (v : Nat) {n j : Nat} (hj : j < n) : (leBytes n v)[j]? = some (BitVec.ofNat 8 (v / 256 ^ j)) := by
  simp [leBytes, hj]

/-- In a row of pieces of eight bytes, byte 8 i + j is byte j of piece i. -/
theorem getElem?_flatMap_range {α : Type} (f : Nat → List α) (hf : ∀ i, (f i).length = 8) {m i j : Nat} (hi : i < m) (hj : j < 8) :
    ((List.range m).flatMap f)[8 * i + j]? = (f i)[j]? := by
  have hlength (k : Nat) : ((List.range k).flatMap f).length = 8 * k := by
    simp [List.length_flatMap, hf, Nat.mul_comm]
  induction m with
  | zero => omega
  | succ m ih =>
    rw [List.range_succ, List.flatMap_append, List.flatMap_cons, List.flatMap_nil, List.append_nil]
    by_cases hlast : i = m
    · rw [List.getElem?_append_right (by rw [hlength]; omega), hlength, hlast, Nat.add_sub_cancel_left]
    · rw [List.getElem?_append_left (by rw [hlength]; omega), ih (by omega)]

/-- Byte 8 i + j of the line that a group of registers makes is byte j of its register i. -/
theorem getElem?_groupLine (x : StreamCtx) (r : Nat) {i j : Nat} (hi : i < 8) (hj : j < 8) :
    (groupLine x r)[8 * i + j]? = some (BitVec.ofNat 8 ((x.sreg (r + i)).toNat / 256 ^ j)) := by
  rw [groupLine, ← leBytes_getElem? (x.sreg (r + i)).toNat hj]
  exact getElem?_flatMap_range _ (fun k => by simp [leBytes]) hi hj

/-! ### What a write of a line leaves of the streams (R55, R232, R242) -/

namespace State
variable (s : State) (n : Nat) (t : Stream)

theorem ctx_incFlag (m k : Nat) (a : W32) : ((s.incFlag m k a).core n).ctx t = (s.core n).ctx t := by
  obtain h | h := Bool.eq_false_or_eq_true (s.roleHeld m)
  · rw [incFlag, if_pos h]; rfl
  · rw [incFlag_accepted h]
    exact keeps_modCore (g := (·.ctx t)) (fun c => Core.ctx_bumped ..) n

theorem ctx_signal (m : Nat) (g : Sig) : ((s.signal m g).core n).ctx t = (s.core n).ctx t := by
  unfold signal
  split
  · exact ctx_incFlag ..
  · rfl

/-- What g shows of the module is left by the increments that go before a write of a line (R55), when it shows neither them nor what
increments on their way a core has. -/
theorem keeps_flushFor {β : Type} {g : State → β}
    (harrives : ∀ (s : State) (n : Nat) (l : Core → List PendArrive), g (s.modCore n fun c => { c with arrives := l c }) = g s)
    (hsignals : ∀ (s : State) (n : Nat) (l : Core → List OutSignal), g (s.modCore n fun c => { c with outSignals := l c }) = g s)
    (hinc : ∀ s n k a, g (State.incFlag s n k a) = g s) (a master : Nat) : g (s.flushFor a master) = g s := by
  have arrivals (u : State) (n k : Nat) : g (u.flushArrivals n k) = g u := by
    unfold flushArrivals
    dsimp only
    split
    · rfl
    · exact (keeps_incFlags _ g _ _ _ hinc _).trans (harrives ..)
  have signals (u : State) (n k : Nat) : g (u.flushSignals n k) = g u := by
    unfold flushSignals
    dsimp only
    split
    · rfl
    · exact (keeps_incFlags _ g _ _ _ hinc _).trans (hsignals ..)
  unfold flushFor
  split
  · split
    · exact (signals ..).trans (arrivals ..)
    · rfl
  · rfl

theorem ctx_flushFor (a master : Nat) : ((s.flushFor a master).core n).ctx t = (s.core n).ctx t := by
  refine s.keeps_flushFor (g := fun u => (u.core n).ctx t) (fun u m l => ?_) (fun u m l => ?_)
    (fun u m k v => ctx_incFlag u n t m k v) a master
  · exact keeps_modCore (g := (·.ctx t)) (fun c => by cases t <;> rfl) n
  · exact keeps_modCore (g := (·.ctx t)) (fun c => by cases t <;> rfl) n

theorem ctx_takeFlip (a : Nat) : ((s.takeFlip a).2.core n).ctx t = (s.core n).ctx t := by
  unfold takeFlip
  split
  · dsimp only; split <;> rfl
  · dsimp only; split <;> rfl
  · dsimp only
    split
    · exact keeps_modCore (g := (·.ctx t)) (fun c => by cases t <;> rfl) n
    · rfl
  · rfl

theorem core_dropCodeCache (a : Nat) : (s.dropCodeCache a).core n = s.core n := by
  unfold dropCodeCache; split <;> rfl

theorem ctx_putLine (a : Nat) (l : List Byte) : ((s.putLine a l).core n).ctx t = (s.core n).ctx t := by
  have hcache : ∀ u : State, ((if a < 0x018000000000 then u.dropCodeCache a else u).core n).ctx t = (u.core n).ctx t := by
    intro u
    split
    · rw [core_dropCodeCache]
    · rfl
  have hstored (m : List Host.Cell) (e : Tab (List Nat)) :
      (({ (s.takeFlip a).2 with mem := m, memErr := e } : State).core n).ctx t = (s.core n).ctx t := ctx_takeFlip s n t a
  unfold putLine
  dsimp only
  rw [hcache]
  split
  · rw [core_modStack, hstored]
  · rw [core_modCourse, hstored]
  · refine (keeps_modCore (g := (·.ctx t)) (fun c => ?_) n).trans (hstored _ _)
    cases t <;> rfl
  · rw [hstored]

theorem ctx_writeLine (a : Nat) (l : List Byte) (master : Nat) : ((s.writeLine a l master).core n).ctx t = (s.core n).ctx t := by
  unfold writeLine
  dsimp only
  split
  · exact ctx_flushFor ..
  · exact (ctx_putLine ..).trans ((keeps_wakeBank (blindToBanks_ctx t) ..).trans (ctx_flushFor ..))

end State

/-! ### What a write of a line leaves of memory (R55, R231, R232) -/

namespace State
variable (s : State)

theorem mem_signal (n : Nat) (g : Sig) : (s.signal n g).mem = s.mem := by
  unfold signal
  split
  · exact mem_incFlag ..
  · rfl

theorem hbmAffinity_signal (n : Nat) (g : Sig) : (s.signal n g).hbmAffinity = s.hbmAffinity := by
  unfold signal
  split
  · exact hbmAffinity_incFlag ..
  · rfl

theorem hbmAffinity_flushFor (a master : Nat) : (s.flushFor a master).hbmAffinity = s.hbmAffinity :=
  s.keeps_flushFor (g := State.hbmAffinity) (fun _ _ _ => rfl) (fun _ _ _ => rfl) hbmAffinity_incFlag a master

theorem roleHeld_incFlag (n k : Nat) (a : W32) (m : Nat) : (s.incFlag n k a).roleHeld m = s.roleHeld m := by
  unfold incFlag; split <;> rfl

theorem lineHeld_incFlag (n k : Nat) (a : W32) (b : Nat) : (s.incFlag n k a).lineHeld b = s.lineHeld b := by
  unfold incFlag; split <;> rfl

theorem lineHeld_flushFor (a master : Nat) : (s.flushFor a master).lineHeld a = s.lineHeld a :=
  s.keeps_flushFor (g := (·.lineHeld a)) (fun _ _ _ => rfl) (fun _ _ _ => rfl) (fun s n k v => lineHeld_incFlag s n k v a) a master

theorem hbmAffinity_takeFlip (a : Nat) : (s.takeFlip a).2.hbmAffinity = s.hbmAffinity := by
  unfold takeFlip
  split
  · dsimp only; split <;> rfl
  · dsimp only; split <;> rfl
  · dsimp only; split <;> rfl
  · rfl

theorem hbmAffinity_dropCodeCache (a : Nat) : (s.dropCodeCache a).hbmAffinity = s.hbmAffinity := by
  unfold dropCodeCache; split <;> rfl

theorem hbmAffinity_putLine (a : Nat) (l : List Byte) : (s.putLine a l).hbmAffinity = s.hbmAffinity := by
  have hcache : ∀ u : State, (if a < 0x018000000000 then u.dropCodeCache a else u).hbmAffinity = u.hbmAffinity := by
    intro u
    split
    · exact hbmAffinity_dropCodeCache ..
    · rfl
  have hstored (m : List Host.Cell) (e : Tab (List Nat)) :
      ({ (s.takeFlip a).2 with mem := m, memErr := e } : State).hbmAffinity = s.hbmAffinity := hbmAffinity_takeFlip s a
  unfold putLine
  dsimp only
  rw [hcache]
  split
  · rw [hbmAffinity_modStack, hstored]
  · rw [hbmAffinity_modCourse, hstored]
  · rw [hbmAffinity_modCore, hstored]
  · rw [hstored]

theorem bankState_flushFor (a master b : Nat) : (s.flushFor a master).bankState b = s.bankState b := by
  refine s.keeps_flushFor (g := (·.bankState b)) (fun u n l => ?_) (fun u n l => ?_) (fun u n k v => ?_) a master
  · exact bankState_congr (keeps_modCore fun _ => rfl) fun _ => rfl
  · exact bankState_congr (keeps_modCore fun _ => rfl) fun _ => rfl
  · obtain h | h := Bool.eq_false_or_eq_true (u.roleHeld n)
    · rw [incFlag, if_pos h]; rfl
    · rw [incFlag_accepted h]
      exact bankState_congr (keeps_modCore fun c => Core.bankPower_bumped ..) fun _ => rfl

section Stored
variable {s : State} {a : Nat} (hheld : s.lineHeld a = false) (l : List Byte) (master : Nat)
include hheld

theorem writeLine_stored : s.writeLine a l master = ((s.flushFor a master).wakeBank a master).putLine a l := by
  unfold writeLine
  dsimp only
  rw [lineHeld_flushFor, hheld, if_neg Bool.false_ne_true]

theorem hbmAffinity_writeLine : (s.writeLine a l master).hbmAffinity = s.hbmAffinity := by
  rw [writeLine_stored hheld, hbmAffinity_putLine, hbmAffinity_wakeBank, hbmAffinity_flushFor]

theorem mem_writeLine : (s.writeLine a l master).mem =
    memPutAll ((s.flushFor a master).wakeBank a master).mem (storage s.hbmAffinity a) (bytesAt l 0 64) := by
  rw [writeLine_stored hheld, mem_putLine, hbmAffinity_wakeBank, hbmAffinity_flushFor]

/-- A byte of the line is the one stored. -/
theorem byteAt_writeLine (hwf : s.memOk) (ha : a % 64 = 0) {d : Nat} (hd : d < 64) :
    (s.writeLine a l master).byteAt (a + d) = l.getD d 0 := by
  have hmem : Memory.wf ((s.flushFor a master).wakeBank a master).mem = true := wf_wakeBank _ _ _ (by rw [mem_flushFor]; exact hwf)
  rw [byteAt, hbmAffinity_writeLine hheld, mem_writeLine hheld, storage_line _ _ _ ha hd,
    memGet_memPutAll _ _ _ _ hmem (by simpa [bytesAt] using hd)]
  simp [bytesAt]

/-- A byte outside the line is as before, unless it lies in the bank of the line and that was off (R231). -/
theorem byteAt_writeLine_other {b : Nat}
    (hb : storage s.hbmAffinity b < storage s.hbmAffinity a ∨ storage s.hbmAffinity a + 64 ≤ storage s.hbmAffinity b) :
    (s.bankState a = 2 ∧ (bankRange a).1 ≤ storage s.hbmAffinity b ∧ storage s.hbmAffinity b < (bankRange a).1 + (bankRange a).2) ∨
      (s.writeLine a l master).byteAt b = s.byteAt b := by
  have hput : (s.writeLine a l master).byteAt b =
      memGet ((s.flushFor a master).wakeBank a master).mem (storage s.hbmAffinity b) := by
    rw [byteAt, hbmAffinity_writeLine hheld, mem_writeLine hheld, memGet_memPutAll_other _ _ _ _ (by simpa [bytesAt] using hb)]
  obtain hmem | ⟨hoff, hmem⟩ := mem_wakeBank (s.flushFor a master) a master
  · exact .inr (by rw [hput, hmem, mem_flushFor, byteAt])
  · rw [bankState_flushFor] at hoff
    by_cases hin : (bankRange a).1 ≤ storage s.hbmAffinity b ∧ storage s.hbmAffinity b < (bankRange a).1 + (bankRange a).2
    · exact .inl ⟨hoff, hin⟩
    · refine .inr ?_
      rw [hput, hmem, memGet_filter (fun k => decide (k < (bankRange a).1) || decide ((bankRange a).1 + (bankRange a).2 ≤ k)),
        mem_flushFor, byteAt]
      rw [Bool.or_eq_true, decide_eq_true_eq, decide_eq_true_eq]
      omega

end Stored

end State

/-! ### The checks of R28 -/

theorem groupOff_eq (group : Option Nat) : groupOff group = true ↔ ∃ g, group = some g ∧ g % 8 ≠ 0 := by
  cases group <;> simp [groupOff]

section Checks
variable (s : State) (n : Nat) (p : Perm) (a : Word) (group : Option Nat)

theorem lineStop_unaligned (h : a.toNat % 64 ≠ 0) : lineStop s n p a group = some { reason := 0x09, info := a.toNat % 2 ^ 48 } := by
  simp only [lineStop, if_pos h]

variable (h : a.toNat % 64 = 0)
include h

theorem lineStop_group {g : Nat} (hg : g % 8 ≠ 0) :
    lineStop s n p a (some g) = some { reason := 0x09, info := g + 2 ^ 56 } := by
  simp [lineStop, h, groupOff, hg]

variable (hgroup : groupOff group = false)
include hgroup

theorem lineStop_high (hhigh : a.toNat ≠ a.toNat % 2 ^ 48) : lineStop s n p a group =
    some { denied p (a.toNat % 2 ^ 48) with info := (denied p (a.toNat % 2 ^ 48)).info + 2 ^ 51 } := by
  have hlarge : 2 ^ 48 ≤ a.toNat := by omega
  simp only [lineStop, h, hgroup, hlarge, ne_eq, not_true_eq_false, if_false, Bool.false_eq_true, if_true]

variable (hlow : a.toNat = a.toNat % 2 ^ 48)
include hlow

theorem lineStop_permits : lineStop s n p a group =
    if s.permits (s.core n).regions p (a.toNat % 2 ^ 48) then none else some (denied p (a.toNat % 2 ^ 48)) := by
  have hsmall : ¬ 2 ^ 48 ≤ a.toNat := by omega
  simp only [lineStop, h, hgroup, hsmall, ne_eq, not_true_eq_false, if_false, Bool.false_eq_true]
  cases s.permits (s.core n).regions p (a.toNat % 2 ^ 48) <;> simp

end Checks

/-- What stops none of R28's checks is an aligned address. -/
theorem lineStop_aligned {s : State} {n : Nat} {p : Perm} {a : Word} {group : Option Nat} (h : lineStop s n p a group = none) :
    a.toNat % 64 = 0 := by
  by_contra hoff
  rw [lineStop_unaligned s n p a group hoff] at h
  exact absurd h (by simp)

theorem info_denied (p : Perm) (k : Nat) : ∃ i, (i = 48 ∨ i = 49 ∨ i = 50) ∧ (denied p k).info = k % 2 ^ 48 + 2 ^ i := by
  cases p
  · exact ⟨48, .inl rfl, rfl⟩
  · exact ⟨49, .inr (.inl rfl), rfl⟩
  · exact ⟨50, .inr (.inr rfl), rfl⟩

/-! ### The live code regions (R36, R38) -/

/-- What some unit of a table shows is what some unit shows after the change of one that shows the same. -/
theorem any_tset {α : Type} (p : α → Bool) {d : α} (hd : p d = false) (t : Tab α) {k : Nat} {v : α} (hv : p v = p (tget t k d)) :
    (tset t k v).any (fun x => p x.2) = t.any fun x => p x.2 := by
  have hget (t : Tab α) (h : p (tget t k d) = true) : t.any (fun x => p x.2) = true := by
    induction t with
    | nil => rw [tget, hd] at h; exact absurd h Bool.false_ne_true
    | cons x r ih =>
      rw [tget] at h
      rw [List.any_cons, Bool.or_eq_true]
      split at h
      · exact .inl h
      · exact .inr (ih h)
  induction t with
  | nil =>
    rw [tget, hd] at hv
    simp [tset, hv]
  | cons x r ih =>
    rw [tget] at hv
    rw [tset]
    by_cases hk : x.1 = k
    · rw [if_pos hk] at hv
      rw [if_pos hk, List.any_cons, List.any_cons, hv]
    · rw [if_neg hk] at hv
      rw [if_neg hk]
      split
      · rw [List.any_cons, hv]
        cases hp : p (tget r k d) with
        | false => rfl
        | true => rw [Bool.true_or, List.any_cons, hget r hp, Bool.or_true]
      · rw [List.any_cons, List.any_cons, ih hv]

theorem Core.codeMap_retire (s : State) (n : Nat) (t : Stream) : ((s.retire n t).core n).codeMap = (s.core n).codeMap := by
  have hctx (t' : Stream) := keeps_ctx_retire s n t StreamCtx.codeMap (fun _ _ _ _ _ _ => rfl) n t'
  have hf := hctx .F
  have hb := hctx .B
  have hu := hctx .U
  simp only [Core.ctx] at hf hb hu
  simp only [Core.codeMap, hf, hb, hu]

theorem State.liveAt_retire (s : State) (n : Nat) (t : Stream) (a : Nat) : (s.retire n t).liveAt a = s.liveAt a := by
  have hlive (r : Nat) : (s.retire n t).isLive r = s.isLive r := by
    refine any_tset (fun c : Core => c.codeMap.contains r) (d := {}) rfl s.cores ?_
    have h := Core.codeMap_retire s n t
    rw [State.retire, State.core_modCore, if_pos rfl] at h
    exact congrArg (·.contains r) h
  simp only [State.liveAt, hlive]
  rfl

/-! ### LDL, STL and LDD past the issue stage (R28) -/

section Line
variable {s : State} {n : CoreId} {t : Stream} {w : Word128} {st : Stop}

/-- A fault of the scalar unit on the state in which its instruction has retired is its core's first. -/
theorem halt_retire_haltCore {r : IssueReq} (h : Passes s n t w r) (p : HaltAt) (st : Stop) :
    (((s.retire n t).haltCore n p st).core n).halt = firstRecord (s.core n).halt p st := by
  have hrun : ((s.retire n t).core n).halt.halted = false := by
    rw [halt_retire]
    exact canIssue_running s n t w h.may
  rw [State.halt_haltCore hrun, halt_retire]

theorem execLdl_stops (h : Passes s n t w (ldlReq s n t w))
    (hstop : lineStop s n .read (s.sreg n t (fA w) + sextImm w) (some (fDst w)) = some st) :
    exec (.ldl n t w) s = .next ((s.retire n t).haltCore n (s.haltPlace n t 0) st) := by
  rw [exec_ldl, execLdl]
  exact issue_faults h (by simp only [hstop])

theorem execLdl_loads {l : List Byte} {u : State} (h : Passes s n t w (ldlReq s n t w))
    (hstop : lineStop s n .read (s.sreg n t (fA w) + sextImm w) (some (fDst w)) = none)
    (hread : (s.retire n t).readLine (s.sreg n t (fA w) + sextImm w).toNat n = (some l, u)) :
    exec (.ldl n t w) s = .next (signalled s n t w (ldlReq s n t w) (u.modCtx n t fun x => setGroup x (fDst w) l)) := by
  rw [exec_ldl, execLdl]
  exact issue_passes h (by simp only [hstop, scalarRead, hread])

theorem execLdd_stops (h : Passes s n t w (lddReq s n t w))
    (hstop : lineStop s n .read (s.sreg n t (fA w) + sextImm w) none = some st) :
    exec (.ldd n t w) s = .next ((s.retire n t).haltCore n (s.haltPlace n t 0) st) := by
  rw [exec_ldd, execLdd]
  exact issue_faults h (by simp only [hstop])

theorem execStl_stops (h : Passes s n t w (stlReq s n t w))
    (hstop : lineStop s n .write (s.sreg n t (fB w) + sextImm w) (some (fA w)) = some st) :
    exec (.stl n t w) s = .next ((s.retire n t).haltCore n (s.haltPlace n t 0) st) := by
  rw [State.sreg] at hstop
  rw [exec_stl, execStl]
  exact issue_faults h (by simp only [hstop])

theorem execStl_live {r : Nat} (h : Passes s n t w (stlReq s n t w))
    (hstop : lineStop s n .write (s.sreg n t (fB w) + sextImm w) (some (fA w)) = none)
    (hlive : s.liveAt (s.sreg n t (fB w) + sextImm w).toNat = some r) :
    exec (.stl n t w) s = .next ((s.retire n t).haltCore n (s.haltPlace n t 0)
      { reason := 0x0C, info := (s.sreg n t (fB w) + sextImm w).toNat + r * 2 ^ 48 }) := by
  rw [State.sreg] at hstop hlive ⊢
  rw [← s.liveAt_retire n t] at hlive
  rw [exec_stl, execStl]
  exact issue_faults h (by simp only [hstop, hlive])

/-- The core that a store's signal at destination arrival increments (R26). -/
def arrivalOwner (n a : Nat) : Nat := match memUnit a with | some (.sp k) => k | _ => n

theorem execStl_stores (h : Passes s n t w (stlReq s n t w))
    (hstop : lineStop s n .write (s.sreg n t (fB w) + sextImm w) (some (fA w)) = none)
    (hlive : s.liveAt (s.sreg n t (fB w) + sextImm w).toNat = none) :
    let a := (s.sreg n t (fB w) + sextImm w).toNat
    let u := (s.retire n t).writeLine a (groupLine ((s.core n).ctx t) (fA w)) n
    exec (.stl n t w) s = .next (signalled s n t w (stlReq s n t w)
      (if fSigWhen w = 2 then u.signal (arrivalOwner n a) (sigOf ((s.core n).ctx t) w) else u)) := by
  rw [State.sreg] at hstop hlive ⊢
  rw [← s.liveAt_retire n t] at hlive
  rw [exec_stl, execStl]
  refine issue_passes h ?_
  simp only [hstop, hlive]
  rfl

end Line

theorem mem_signalled (s u : State) (n : CoreId) (t : Stream) (w : Word128) (r : IssueReq) : (signalled s n t w r u).mem = u.mem := by
  unfold signalled
  split
  · exact State.mem_signal ..
  · rfl

theorem hbmAffinity_signalled (s u : State) (n : CoreId) (t : Stream) (w : Word128) (r : IssueReq) :
    (signalled s n t w r u).hbmAffinity = u.hbmAffinity := by
  unfold signalled
  split
  · exact State.hbmAffinity_signal ..
  · rfl

theorem byteAt_signalled (s u : State) (n : CoreId) (t : Stream) (w : Word128) (r : IssueReq) (b : Nat) :
    (signalled s n t w r u).byteAt b = u.byteAt b := by
  rw [State.byteAt, mem_signalled, hbmAffinity_signalled, State.byteAt]

theorem sreg_signalled (s u : State) (n : CoreId) (t : Stream) (w : Word128) (r : IssueReq) (m : Nat) (t' : Stream) (k : Nat) :
    (signalled s n t w r u).sreg m t' k = u.sreg m t' k := by
  unfold signalled
  split
  · rw [State.sreg, State.ctx_signal, State.sreg]
  · rfl

end Sys2Proof.Machine

open Sys2Proof Sys2Proof.Machine

/-- Settles O13: the registers are those of `setGroup` on the line read, and a read changes no stream, no flag and, but where it turns a
bank on, no byte. -/
theorem ldlLoadsEightRegisters : Obligations.LdlLoadsEightRegisters := by
  intro s n t w l a u h hstop hread
  have hpair : (s.retire n t).readLine (s.sreg n t (fA w) + sextImm w).toNat n = (some l, u.2) := Prod.ext hread rfl
  have hctx : ((u.2.modCtx n t fun x => setGroup x (fDst w) l).core n).ctx t = setGroup ((u.2.core n).ctx t) (fDst w) l := by
    rw [State.core_modCtx, if_pos rfl, Core.ctx_modCtx, if_pos rfl]
  refine ⟨_, execLdl_loads h hstop hpair, fun i hi hne => ?loaded, fun k hk => ?others, StreamCtx.sreg_zero _, fun m k => ?flags, ?mem⟩
  case loaded =>
    have hin : fDst w ≤ fDst w + i ∧ fDst w + i < fDst w + 8 ∧ fDst w + i ≠ 0 := by omega
    rw [State.sreg, hctx, sreg_setGroup, if_pos hin, Nat.add_sub_cancel_left]
  case others =>
    have hout : ¬ (fDst w ≤ k ∧ k < fDst w + 8 ∧ k ≠ 0) := by omega
    rw [State.sreg, hctx, sreg_setGroup, if_neg hout, State.keeps_readLine (blindToBanks_ctx t)]
    exact sreg_retire s n t n t k
  case flags =>
    refine (State.keeps_modCore (g := (·.flag k)) (fun c => ?_) m).trans ((State.keeps_readLine (blindToBanks_flag k) ..).trans ?_)
    · rw [Core.flag, Core.flags_modCtx, Core.flag]
    · rw [Core.flag, flags_retire, Core.flag]
  case mem =>
    rw [State.mem_modCtx, State.mem_readLine]
    refine (State.mem_wakeBank ..).imp (fun e => e) fun e => ?_
    rw [← bankState_retire s n t]
    exact e.1

/-- Settles O14: the effect is one `State.writeLine`, whose bytes and whose frame are said of it, then a signal, which leaves both. -/
theorem stlStoresOneLine : Obligations.StlStoresOneLine := by
  intro s n t w a h hstop hlive hheld hwf
  have ha : a % 64 = 0 := lineStop_aligned hstop
  let u := (s.retire n t).writeLine a (groupLine ((s.core n).ctx t) (fA w)) n
  let v := signalled s n t w (stlReq s n t w) (if fSigWhen w = 2 then u.signal (arrivalOwner n a) (sigOf ((s.core n).ctx t) w) else u)
  have hbyte (b : Nat) : v.byteAt b = u.byteAt b := by
    rw [byteAt_signalled]
    split
    · rw [State.byteAt, State.mem_signal, State.hbmAffinity_signal, State.byteAt]
    · rfl
  refine ⟨v, execStl_stores h hstop hlive, fun i j hi hj => ?line, fun b hb => ?others, fun m t' k => ?sregs⟩
  case line =>
    have hbyte' := State.byteAt_writeLine (s := s.retire n t) hheld (groupLine ((s.core n).ctx t) (fA w)) n hwf ha
      (d := 8 * i + j) (by omega)
    rw [hbyte, Nat.add_assoc, hbyte', List.getD_eq_getElem?_getD, getElem?_groupLine _ _ hi hj]
    rfl
  case others =>
    rw [hbyte, ← bankState_retire s n t]
    exact State.byteAt_writeLine_other (s := s.retire n t) hheld _ n hb
  case sregs =>
    have hu : u.sreg m t' k = s.sreg m t' k := by
      rw [State.sreg, State.ctx_writeLine]
      exact sreg_retire s n t m t' k
    rw [sreg_signalled]
    split
    · rw [State.sreg, State.ctx_signal]
      exact hu
    · exact hu

/-- Settles O15: one rule for each check, and one for the halt that each instruction makes of it. -/
theorem lineChecksInOrder : Obligations.LineChecksInOrder := by
  refine ⟨?checks, ?stops, ?zero⟩
  case checks =>
    intro s n p a group lo off
    have hoff (h : ¬ off) : groupOff group = false := by
      rw [← Bool.not_eq_true, groupOff_eq]
      exact h
    refine ⟨lineStop_unaligned s n p a group, fun h g hg hodd => ?_, fun h hno hhigh => ?_, fun h hno hlow hdenied => ?_,
      fun h hno hlow hpermits => ?_⟩
    · rw [hg, lineStop_group s n p a h hodd]
    · refine ⟨_, lineStop_high s n p a group h (hoff hno) hhigh, rfl, ?_⟩
      obtain ⟨i, hi, hinfo⟩ := info_denied p lo
      have hlo : lo % 2 ^ 48 = lo := Nat.mod_mod _ _
      have hbound : lo < 2 ^ 48 := Nat.mod_lt _ (by decide)
      dsimp only
      rw [hinfo, hlo, Nat.testBit_eq_decide_div_mod_eq, decide_eq_true_eq]
      obtain rfl | rfl | rfl := hi
      · omega
      · omega
      · omega
    · exact ⟨_, by rw [lineStop_permits s n p a group h (hoff hno) hlow, hdenied, if_neg Bool.false_ne_true], rfl⟩
    · rw [lineStop_permits s n p a group h (hoff hno) hlow, hpermits, if_pos rfl]
  case stops =>
    intro s n t w st
    refine ⟨fun h hstop => ⟨_, execLdl_stops h hstop, halt_retire_haltCore h ..⟩,
      fun h hstop => ⟨_, execLdd_stops h hstop, halt_retire_haltCore h ..⟩,
      fun h hstop => ⟨_, execStl_stops h hstop, halt_retire_haltCore h .., mem_haltCore ..⟩,
      fun r h hstop hlive => ⟨_, execStl_live h hstop hlive, ?_, ?_, mem_haltCore ..⟩⟩
    · rw [halt_retire_haltCore h]; rfl
    · rw [halt_retire_haltCore h]; rfl
  case zero =>
    intro s n t w l h hdst hstop hread
    obtain ⟨v, hexec, hloaded, -, -, -, -⟩ := ldlLoadsEightRegisters s n t w l h hstop hread
    refine ⟨_, hexec, StreamCtx.sreg_zero _, fun i hpos hi => ?_⟩
    have hi' := hloaded i hi (by omega)
    rw [hdst, Nat.zero_add] at hi'
    rw [sreg_signalled, hi']

end

section
/-! Control flow and descriptor registers (O16 to O18): a swap at ENDLOOP, the bounds of a JMP, and what the scalar unit leaves of a core as it
binds a descriptor or halts. -/

namespace Sys2Proof.Machine

/-! ### The retirement of code regions (R37, R38) -/

section Settle
variable {β : Type} {g : Core → β} (hepoch : ∀ c : Core, g c.nextEpoch = g c)
  (hretired : ∀ (c : Core) (r : Nat) (d : Option CodeRegion), g (c.regionRetired r d) = g c)
include hepoch hretired

/-- Settling the maps of a core leaves what of a core reads neither epochs, the instruction cache nor fetch buffers. -/
theorem keeps_settleCode (b s : State) (n m : Nat) : g ((State.settleCode b s n).core m) = g (s.core m) := by
  unfold State.settleCode
  dsimp only
  generalize ((b.core n).codeMap.dedup.filter fun r => !(s.core n).codeMap.contains r) = gone
  induction gone generalizing s with
  | nil => rfl
  | cons r l ih =>
    rw [List.foldl_cons, ih]
    have hnext : g ((s.modCore n Core.nextEpoch).core m) = g (s.core m) := State.keeps_modCore hepoch m
    split
    · exact hnext
    · refine Eq.trans ?_ hnext
      refine tget_map_keeps g ?_ (s.modCore n Core.nextEpoch).cores m {}
      exact fun x => ⟨rfl, hretired ..⟩

end Settle

theorem roleHeld_settleCode (b s : State) (n m : Nat) : (State.settleCode b s n).roleHeld m = s.roleHeld m := by
  unfold State.settleCode
  dsimp only
  generalize ((b.core n).codeMap.dedup.filter fun r => !(s.core n).codeMap.contains r) = gone
  induction gone generalizing s with
  | nil => rfl
  | cons r l ih =>
    rw [List.foldl_cons, ih]
    split <;> rfl

theorem flag_settleCode (b s : State) (n m k : Nat) : ((State.settleCode b s n).core m).flag k = (s.core m).flag k := by
  refine keeps_settleCode (g := (·.flag k)) (fun _ => rfl) (fun c r d => ?_) b s n m
  cases d <;> rfl

/-- Of a stream it leaves what does not read its fetch buffer. -/
theorem keeps_ctx_settleCode {β : Type} {g : StreamCtx → β} (hg : ∀ x f p, g { x with fetchLine := f, prefLine := p } = g x) (b s : State)
    (n m : Nat) (t : Stream) : g (((State.settleCode b s n).core m).ctx t) = g ((s.core m).ctx t) := by
  refine keeps_settleCode (g := fun c => g (c.ctx t)) (fun c => ?_) (fun c r d => ?_) b s n m
  · cases t <;> rfl
  · cases d with
    | none => cases t <;> rfl
    | some d => cases t <;> exact hg ..

/-! ### A swap that takes effect at an ENDLOOP (R37) -/

/-- A stream whose pending swap of o by nw has taken effect. -/
structure Swapped (x y : StreamCtx) (o nw : Byte) : Prop where
  swap : y.swap = none
  region : y.pcRegion = if x.pcRegion = o then nw else x.pcRegion
  calls : y.calls = x.calls.map fun e => if e.region = o then { e with region := nw } else e
  loops : y.loops = x.loops.map fun e => if e.region = o then { e with region := nw } else e
  sregs : y.sregs = x.sregs

theorem swapped_applySwap {x : StreamCtx} {o nw : Byte} (h : x.swap = some (o, nw)) : Swapped x x.applySwap o nw := by
  unfold StreamCtx.applySwap
  rw [h]
  exact ⟨rfl, rfl, rfl, rfl, rfl⟩

/-- ENDLOOP moves the stream in its loops and its index alone, and its loops by its loops alone. -/
theorem StreamCtx.endLoop_eq (x : StreamCtx) (pc : W32) : ∃ l i, x.endLoop pc = { x with loops := l, pcIndex := i } := by
  unfold StreamCtx.endLoop
  repeat' split
  · exact ⟨_, _, rfl⟩
  · exact ⟨_, _, rfl⟩
  · exact ⟨_, _, rfl⟩

theorem StreamCtx.loops_endLoop {x y : StreamCtx} (h : y.loops = x.loops) (pc : W32) : (y.endLoop pc).loops = (x.endLoop pc).loops := by
  unfold StreamCtx.endLoop
  rw [h]
  repeat' split
  · exact h
  · rfl
  · rfl

/-- R31: another round of the innermost loop unless one remains. -/
theorem StreamCtx.endLoop_cons {x : StreamCtx} {l : LoopEntry} {r : List LoopEntry} (h : x.loops = l :: r) (pc : W32) : x.endLoop pc =
    if l.remaining ≠ 1 then { x with loops := { l with remaining := l.remaining - 1, iter := l.iter + 1 } :: r, pcIndex := l.start }
    else { x with loops := r, pcIndex := pc + 1 } := by
  have hlast : l.remaining - 1 ≠ 0 ↔ l.remaining ≠ 1 := by bv_omega
  simp only [StreamCtx.endLoop, h, hlast]

theorem StreamCtx.endLoop_nil {x : StreamCtx} (h : x.loops = []) (pc : W32) : x.endLoop pc = x := by
  simp only [StreamCtx.endLoop, h]

theorem State.takeSwap_none {s : State} {n : Nat} {t : Stream} (h : ((s.core n).ctx t).swap = none) : s.takeSwap n t = s := by
  rw [State.takeSwap, h]

theorem State.takeSwap_some {s : State} {n : Nat} {t : Stream} {p : Byte × Byte} (h : ((s.core n).ctx t).swap = some p) :
    s.takeSwap n t = (State.settleCode s (s.modCtx n t StreamCtx.applySwap) n).incFlag n (swapFlag t) 1 := by
  rw [State.takeSwap, h]

theorem State.ctx_modCtx_self (s : State) (n : Nat) (t : Stream) (f : StreamCtx → StreamCtx) :
    ((s.modCtx n t f).core n).ctx t = f ((s.core n).ctx t) := by
  rw [State.core_modCtx, if_pos rfl, Core.ctx_modCtx, if_pos rfl]

/-- The state in which an ENDLOOP has retired and stepped its stream's loops. -/
def State.endLooped (s : State) (n : Nat) (t : Stream) : State :=
  (s.retire n t).modCtx n t fun y => y.endLoop ((s.core n).ctx t).pcIndex

/-- What of a stream does not read its loops, its place, its hold and its fetch buffer. -/
theorem keeps_ctx_endLooped {β : Type} {g : StreamCtx → β} (hloop : ∀ x l i, g { x with loops := l, pcIndex := i } = g x)
    (hretire : ∀ x f p q d i, g { x with fetchLine := f, prefLine := p, prefetch := q, adrift := d, pcIndex := i, wdog := 0,
                                         hold := .none, held := none } = g x) (s : State) (n : Nat) (t : Stream) :
    g (((s.endLooped n t).core n).ctx t) = g ((s.core n).ctx t) := by
  obtain ⟨l, i, e⟩ := (((s.retire n t).core n).ctx t).endLoop_eq ((s.core n).ctx t).pcIndex
  rw [State.endLooped, State.ctx_modCtx_self, e, hloop, keeps_ctx_retire s n t g hretire]

theorem loops_endLooped (s : State) (n : Nat) (t : Stream) :
    (((s.endLooped n t).core n).ctx t).loops = (((s.core n).ctx t).endLoop ((s.core n).ctx t).pcIndex).loops := by
  rw [State.endLooped, State.ctx_modCtx_self]
  exact StreamCtx.loops_endLoop (keeps_ctx_retire s n t StreamCtx.loops (fun _ _ _ _ _ _ => rfl) n t) _

theorem swap_endLooped (s : State) (n : Nat) (t : Stream) : (((s.endLooped n t).core n).ctx t).swap = ((s.core n).ctx t).swap :=
  keeps_ctx_endLooped (g := StreamCtx.swap) (fun _ _ _ => rfl) (fun _ _ _ _ _ _ => rfl) s n t

theorem flag_endLooped (s : State) (n : Nat) (t : Stream) (k : Nat) : ((s.endLooped n t).core n).flag k = (s.core n).flag k := by
  rw [State.endLooped, Core.flag, State.core_modCtx, if_pos rfl, Core.flags_modCtx, flags_retire, Core.flag]

/-- The flag that a word signals at issue. -/
theorem flag_signalled_sent {s u : State} {n : CoreId} {t : Stream} {w : Word128} {r : IssueReq} (h : u.roleHeld n = false)
    (hen : fSigEn w = true) (hsends : issueSignal r w = true) : ((signalled s n t w r u).core n).flag (fSigFlag w) =
      (u.core n).flag (fSigFlag w) + sigAmount ((s.core n).ctx t) w := by
  simp only [signalled, hsends, State.signal, sigOf, hen, if_true]
  exact State.flag_incFlag h ..

section TakeSwap
variable {s : State} {n : Nat} {t : Stream} {o nw : Byte} (h : ((s.core n).ctx t).swap = some (o, nw))
include h

/-- Of the stream, a swap that takes effect leaves what `applySwap` says, but for its fetch buffer. -/
theorem keeps_ctx_takeSwap {β : Type} {g : StreamCtx → β} (hg : ∀ x f p, g { x with fetchLine := f, prefLine := p } = g x) :
    g (((s.takeSwap n t).core n).ctx t) = g ((s.core n).ctx t).applySwap := by
  rw [State.takeSwap_some h, State.ctx_incFlag, keeps_ctx_settleCode hg, State.ctx_modCtx_self]

theorem roleHeld_takeSwap (m : Nat) : (s.takeSwap n t).roleHeld m = s.roleHeld m := by
  rw [State.takeSwap_some h, State.roleHeld_incFlag, roleHeld_settleCode]
  rfl

/-- R37: the completion flag of the stream increments, and no other flag of the core. -/
theorem flag_takeSwap (hrole : s.roleHeld n = false) (k : Nat) : ((s.takeSwap n t).core n).flag k =
    if k = swapFlag t then (s.core n).flag (swapFlag t) + 1 else (s.core n).flag k := by
  have hflag (j : Nat) : ((State.settleCode s (s.modCtx n t StreamCtx.applySwap) n).core n).flag j = (s.core n).flag j := by
    rw [flag_settleCode, Core.flag, State.core_modCtx, if_pos rfl, Core.flags_modCtx, Core.flag]
  have hrole' : (State.settleCode s (s.modCtx n t StreamCtx.applySwap) n).roleHeld n = false :=
    (roleHeld_settleCode ..).trans hrole
  rw [State.takeSwap_some h, State.core_incFlag hrole', Core.flag_bumped, hflag, hflag]

end TakeSwap

/-! ### A JMP's bounds (R33) -/

theorem jmpOk_iff {s : State} {x : StreamCtx} {target : Int} : jmpOk s x target = true ↔
    (∃ r, s.region? x.pcRegion.toNat = some r ∧ 0 ≤ target ∧ target < 4 * r.lines) ∧
      ∀ l, x.frameLoop = some l → (l.start.toNat : Int) ≤ target ∧ target ≤ l.stop := by
  rw [jmpOk, Bool.and_eq_true]
  refine and_congr ?_ ?_
  · cases s.region? x.pcRegion.toNat <;> simp
  · cases x.frameLoop <;> simp

/-- An instruction's own checks come into play when no other fails. -/
theorem issueCheck_or (x : StreamCtx) (w : Word128) (f : Form) (reserved : List Nat) (needs : List Need) (late : Option Stop) :
    issueCheck x w f reserved needs late = (issueCheck x w f reserved needs none).or late := by
  unfold issueCheck
  dsimp only
  repeat' split
  all_goals rfl

/-! ### Descriptors (R105) -/

theorem State.bind_valid {s : State} {k : Nat} {d : Desc} (h : s.validate k d = none) (n : Nat) (t : Stream) :
    s.bind n t k d = .ok (s.modCtx n t fun x => x.setDreg k d) := by
  simp only [State.bind, h]

theorem State.bind_invalid {s : State} {k : Nat} {d : Desc} {st : Stop} (h : s.validate k d = some st) (n : Nat) (t : Stream) :
    s.bind n t k d = .error (st, s) := by
  simp only [State.bind, h]

/-- The state v, as far as a fault of the scalar unit goes, has of core n what s has. -/
structure SameForFault (s v : State) (n : Nat) (t : Stream) : Prop where
  halt : (v.core n).halt = (s.core n).halt
  flags : (v.core n).flags = (s.core n).flags
  dregs : ((v.core n).ctx t).dregs = ((s.core n).ctx t).dregs

theorem sameForFault_retire (s : State) (n : Nat) (t : Stream) : SameForFault s (s.retire n t) n t :=
  ⟨halt_retire s n t n, flags_retire s n t n, keeps_ctx_retire s n t StreamCtx.dregs (fun _ _ _ _ _ _ => rfl) n t⟩

/-- A line that the scalar unit reads leaves it so. -/
theorem SameForFault.scalarRead {s u v : State} {n : Nat} {t : Stream} {a : Nat} {l : List Byte} (h : SameForFault s u n t)
    (hread : scalarRead u n a = .ok (l, v)) : SameForFault s v n t := by
  have hv : v = (u.readLine a n).2 := by
    unfold Machine.scalarRead at hread
    dsimp only at hread
    split at hread
    · cases hread; rfl
    · cases hread
  subst hv
  refine ⟨?_, ?_, ?_⟩
  · rw [State.keeps_readLine (g := Core.halt) (fun _ _ _ _ _ _ => rfl), h.halt]
  · rw [State.keeps_readLine (g := Core.flags) (fun _ _ _ _ _ _ => rfl), h.flags]
  · rw [State.keeps_readLine (blindToBanks_ctx t), h.dregs]

/-- The fault is recorded as the core's first, and leaves its flags and its stream's descriptor registers. -/
theorem SameForFault.haltCore {s v : State} {n : Nat} {t : Stream} (h : SameForFault s v n t) (hrun : (s.core n).halt.halted = false)
    (p : HaltAt) (st : Stop) :
    ((v.haltCore n p st).core n).halt = firstRecord (s.core n).halt p st ∧
      (((v.haltCore n p st).core n).ctx t).dregs = ((s.core n).ctx t).dregs ∧ ((v.haltCore n p st).core n).flags = (s.core n).flags := by
  have hrun' : (v.core n).halt.halted = false := by rw [h.halt]; exact hrun
  refine ⟨by rw [State.halt_haltCore hrun', h.halt], ?_, ?_⟩
  · rw [core_haltCore_first v n p st hrun', ← h.dregs]
    cases t <;> rfl
  · rw [core_haltCore_first v n p st hrun', ← h.flags]
    exact Core.flags_discard ..

section Descriptors
variable {s : State} {n : CoreId} {t : Stream} {w : Word128} {r : IssueReq} {eff : State → Except (Stop × State) State}

/-- What the statements say of an instruction whose descriptor fails a check. -/
theorem issue_invalid {v : State} {st : Stop} (h : Passes s n t w r) (heff : eff (s.retire n t) = .error (st, v))
    (hsame : SameForFault s v n t) :
    ∃ u, s.issue n t w r eff = .next u ∧ (u.core n).halt = firstRecord (s.core n).halt (s.haltPlace n t 0) st ∧
      ((u.core n).ctx t).dregs = ((s.core n).ctx t).dregs ∧ (u.core n).flags = (s.core n).flags :=
  ⟨_, issue_faults h heff, hsame.haltCore (canIssue_running s n t w h.may) ..⟩

end Descriptors

/-- A word that passes its checks signals no reserved flag (Table 02-5, check 4). -/
theorem issueCheck_sigFlag {x : StreamCtx} {w : Word128} {f : Form} {reserved : List Nat} {needs : List Need} {late : Option Stop}
    (h : issueCheck x w f reserved needs late = none) (hen : fSigEn w = true) : fSigFlag w < 480 := by
  by_contra hf
  simp only [issueCheck, hen, Nat.not_lt.mp hf, decide_true, Bool.and_self, if_true] at h
  repeat' split at h
  all_goals exact absurd h (by simp)

end Sys2Proof.Machine

open Sys2Proof Sys2Proof.Machine

/-- Settles O16: none has a fault of its own (`issues_of_ok`); a pending swap leaves of its stream what `StreamCtx.applySwap` says, and
increments its flag, which no word that passes its checks signals. -/
theorem loopsCallsAndJumps : Obligations.LoopsCallsAndJumps := by
  refine ⟨⟨?loop, ?endloop, ?call, ?ret, ?jmp⟩, ?swap⟩
  case loop => exact issues_of_ok fun _ _ _ _ => rfl
  case call => exact issues_of_ok fun _ _ _ _ => rfl
  case ret => exact issues_of_ok fun _ _ _ _ => rfl
  case jmp => exact issues_of_ok fun _ _ _ _ => rfl
  case endloop =>
    intro s n t w h hswap
    rw [exec_endloop, execEndloop, issue_ok h fun u => (u.modCtx n t fun y => y.endLoop ((s.core n).ctx t).pcIndex).takeSwap n t]
    rw [← State.endLooped, State.takeSwap_none ((swap_endLooped s n t).trans hswap), State.endLooped]
    congr 3
    funext y
    cases hloops : y.loops with
    | nil => exact StreamCtx.endLoop_nil hloops _
    | cons l r => exact StreamCtx.endLoop_cons hloops _
  case swap =>
    intro s n t w o nw h hswap
    let x := s.endLooped n t
    have hexec : exec (.endloop n t w) s = .next (signalled s n t w (endloopReq s n t w) (x.takeSwap n t)) := by
      rw [exec_endloop, execEndloop]
      exact issue_ok h fun u => (u.modCtx n t fun y => y.endLoop ((s.core n).ctx t).pcIndex).takeSwap n t
    have hswap' : ((x.core n).ctx t).swap = some (o, nw) := (swap_endLooped s n t).trans hswap
    have hrole : (x.takeSwap n t).roleHeld n = false := (roleHeld_takeSwap hswap' n).trans h.role
    have hsig (hen : fSigEn w = true) : fSigFlag w ≠ swapFlag t := by
      have := issueCheck_sigFlag h.checks hen
      unfold swapFlag
      omega
    have hflag (k : Nat) : (((x.takeSwap n t).core n).flag k) =
        if k = swapFlag t then (s.core n).flag (swapFlag t) + 1 else (s.core n).flag k := by
      rw [flag_takeSwap hswap' h.role, flag_endLooped, flag_endLooped]
    have hview {β : Type} {g : StreamCtx → β} (hg : ∀ y f p, g { y with fetchLine := f, prefLine := p } = g y) :
        g (((signalled s n t w (endloopReq s n t w) (x.takeSwap n t)).core n).ctx t) = g ((x.core n).ctx t).applySwap := by
      rw [keeps_signalled hrole (·.ctx t) (fun c stays k a => Core.ctx_bumped c stays k a t), keeps_ctx_takeSwap hswap' hg]
    obtain ⟨hnone, hregion, hcalls, hloops, hsregs⟩ := swapped_applySwap hswap'
    refine ⟨_, hexec, ?swap, ?region, ?calls, ?loops, ?complete, fun hen => ?signal, fun k => ?sregs⟩
    case swap => rw [hview (g := StreamCtx.swap) fun _ _ _ => rfl, hnone]
    case region =>
      rw [hview (g := StreamCtx.pcRegion) fun _ _ _ => rfl, hregion,
        keeps_ctx_endLooped (g := StreamCtx.pcRegion) (fun _ _ _ => rfl) fun _ _ _ _ _ _ => rfl]
    case calls =>
      rw [hview (g := StreamCtx.calls) fun _ _ _ => rfl, hcalls,
        keeps_ctx_endLooped (g := StreamCtx.calls) (fun _ _ _ => rfl) fun _ _ _ _ _ _ => rfl]
    case loops => rw [hview (g := StreamCtx.loops) fun _ _ _ => rfl, hloops, loops_endLooped]
    case complete =>
      obtain ⟨hen, -, hk⟩ | hk := flag_signalled (s := s) (t := t) (w := w) (r := endloopReq s n t w) hrole n (swapFlag t)
      · exact absurd hk (hsig hen)
      · rw [hk, hflag, if_pos rfl]
    case signal => rw [flag_signalled_sent hrole hen rfl, hflag, if_neg (hsig hen)]
    case sregs =>
      rw [State.sreg, hview (g := (·.sreg k)) fun _ _ _ => rfl]
      refine Eq.trans ?_ (keeps_ctx_endLooped (g := (·.sreg k)) (fun _ _ _ => rfl) (fun _ _ _ _ _ _ => rfl) s n t)
      simp only [StreamCtx.sreg, hsregs]
      rfl

/-- Settles O17: JMP's own check is the bounds of R33 (`jmpOk_iff`), and it comes last. -/
theorem jumpTargetBounds : Obligations.JumpTargetBounds := by
  intro s n t w x r target inRegion inLoop hown hi hw hfree hfirst hcheck
  have hop : fOpcode w = (jmpReq s n t w).form.opcode := beq_iff_eq.mp hown
  have hlate : issueCheck x w r.form r.reserved r.needs r.late = r.late := by
    rw [issueCheck_or, hcheck, Option.none_or]
  refine ⟨fun hin => ?inside, fun hout => ?outside⟩
  case inside =>
    have hok : jmpOk s x target = true := jmpOk_iff.mpr hin
    have hpass : Passes s n t w r := ⟨hop, hi, hw, hfree, hfirst, hlate.trans (if_pos hok)⟩
    have hrole : ((s.retire n t).modCtx n t fun y => { y with pcIndex := BitVec.ofInt 32 target }).roleHeld n = false := hpass.role
    have hctx := keeps_signalled (s := s) (t := t) (w := w) (r := r) hrole (·.ctx t) (fun c stays k a => Core.ctx_bumped c stays k a t) n
    rw [State.ctx_modCtx_self] at hctx
    refine ⟨_, issue_ok hpass fun u => u.modCtx n t fun y => { y with pcIndex := BitVec.ofInt 32 target }, ?_, ?_, ?_⟩
    · rw [hctx]
    · rw [hctx]
      exact keeps_ctx_retire s n t StreamCtx.pcRegion (fun _ _ _ _ _ _ => rfl) n t
    · rw [keeps_signalled hrole Core.halt Core.halt_bumped, State.core_modCtx, if_pos rfl, Core.halt_modCtx, halt_retire]
  case outside =>
    have hno : ¬ jmpOk s x target = true := fun hok => hout (jmpOk_iff.mp hok)
    have hstop := hlate.trans (if_neg hno)
    have hhalt := halt_haltIssue (canIssue_running s n t w hi) t (stackStop 0 2 x.loops.length)
    rw [exec_jmp, execJmp]
    refine ⟨_, issue_trap s n t w r _ _ (fun _ => hop) hi hw hfree hfirst hstop, ?_, ?_⟩
    · rw [hhalt]; rfl
    · rw [hhalt]; rfl

/-- Settles O18: each binds by `State.bind`; what has been read by then leaves of the core all that the fault's record asks
(`SameForFault`). -/
theorem descriptorInstructions : Obligations.DescriptorInstructions := by
  refine ⟨⟨?ldd, ?movd, ?dbase, ?dsize, ?dclr⟩, ?dsizeStops, ?dbaseStops, ?lddStops⟩
  case ldd =>
    intro s u v n t w l m a h hstop hread hstop' hread' hvalid
    rw [exec_ldd, execLdd]
    refine issue_passes h ?_
    simp only [a] at hstop hread hstop' hread'
    simp only [hstop, hread, hstop', hread', State.bind_valid hvalid]
  case movd =>
    refine issues_of_ok fun s n t w => ?_
    rw [exec_movd, execMovd]
    congr 1
    funext u
    cases hd : ((s.core n).ctx t).dreg (fA w) with
    | none => simp only
    | some d => simp only
  case dclr => exact issues_of_ok fun _ _ _ _ => rfl
  case dbase =>
    intro s n t w d b h hd hbase hvalid
    rw [State.sreg] at hbase
    rw [exec_dbase, execDbase]
    exact issue_passes h (by simp only [hd, hbase, State.bind_valid hvalid])
  case dsize =>
    intro s n t w d e h hd hvalid
    rw [exec_dsize, execDsize]
    refine issue_passes h ?_
    simp only [hd]
    exact State.bind_valid hvalid n t
  case dsizeStops =>
    intro s n t w d st e h hd hinvalid
    rw [exec_dsize, execDsize]
    refine issue_invalid h ?_ (sameForFault_retire s n t)
    simp only [hd]
    exact State.bind_invalid hinvalid n t
  case dbaseStops =>
    intro s n t w d st h hd hinvalid
    rw [exec_dbase, execDbase]
    refine issue_invalid h ?_ (sameForFault_retire s n t)
    rw [State.sreg] at hinvalid
    cases hbase : movedBase d.base (((s.core n).ctx t).sreg (fB w)) with
    | none =>
      rw [hbase] at hinvalid
      simp only [hd, hbase, hinvalid]
    | some b =>
      rw [hbase] at hinvalid
      simp only [hd, hbase, State.bind_invalid hinvalid]
  case lddStops =>
    intro s u v n t w l m st a h hstop hread hstop' hread' hinvalid
    rw [exec_ldd, execLdd]
    refine issue_invalid h ?_ (((sameForFault_retire s n t).scalarRead hread).scalarRead hread')
    simp only [a] at hstop hread hstop' hread'
    simp only [hstop, hread, hstop', hread', State.bind_invalid hinvalid]

end

section
/-! The vector engine's completion and destination arrivals (O26): what an increment leaves of the arrivals on their way, what a path leaves
as it is flushed (R55), and the three ends of the vector engine's work. The end of a drain (O30). -/

namespace Sys2Proof.Machine

/-! ### Arrivals and increments on their way (R55) -/

theorem filter_not_of_isEmpty {α : Type} {p : α → Bool} {l : List α} (h : (l.filter p).isEmpty = true) : l.filter (fun x => !p x) = l := by
  rw [List.isEmpty_iff, List.filter_eq_nil_iff] at h
  rw [List.filter_eq_self]
  exact fun x hx => by simpa using h x hx

theorem Core.arrives_bumped (c : Core) (stays : Bool) (k : Nat) (a : W32) : (c.bumped stays k a).arrives = c.arrives := by
  cases stays
  · rw [Core.bumped_false, Core.openGate_eq]; rfl
  · rfl

namespace State
variable (s : State)

theorem arrives_incFlag (n k : Nat) (a : W32) (m : Nat) : ((s.incFlag n k a).core m).arrives = (s.core m).arrives := by
  obtain h | h := Bool.eq_false_or_eq_true (s.roleHeld n)
  · rw [incFlag, if_pos h]; rfl
  · rw [incFlag_accepted h]
    exact keeps_modCore (g := (·.arrives)) (fun c => Core.arrives_bumped ..) m

/-- A path that is flushed keeps none of its arrivals. -/
theorem arrives_flushArrivals (n k : Nat) : ((s.flushArrivals n k).core n).arrives =
    (s.core n).arrives.filter fun p => !(p.onPath && p.core == k) := by
  unfold flushArrivals
  dsimp only
  split
  · next hnone => exact (filter_not_of_isEmpty hnone).symm
  · refine (keeps_incFlags _ (fun u => (u.core n).arrives) _ _ _ (fun u m k a => arrives_incFlag u m k a n) _).trans ?_
    rw [core_modCore, if_pos rfl]

theorem arrives_flushSignals (n k m : Nat) : ((s.flushSignals n k).core m).arrives = (s.core m).arrives := by
  unfold flushSignals
  dsimp only
  split
  · rfl
  · refine (keeps_incFlags _ (fun u => (u.core m).arrives) _ _ _ (fun u m' k a => arrives_incFlag u m' k a m) _).trans ?_
    rw [core_modCore]
    split
    · next e => rw [e]
    · rfl

theorem fabric_incFlag (n k : Nat) (a : W32) : (s.incFlag n k a).fabric = s.fabric := by
  unfold incFlag; split <;> rfl

theorem fabric_flushArrivals (n k : Nat) : (s.flushArrivals n k).fabric = s.fabric := by
  unfold flushArrivals
  dsimp only
  split
  · rfl
  · exact keeps_incFlags _ State.fabric _ _ _ fabric_incFlag _

/-- And none of its SIGNALs. -/
theorem outSignals_flushSignals (n k : Nat) : ((s.flushSignals n k).core n).outSignals =
    (s.core n).outSignals.filter fun g => !(g.module == s.fabric.coord && g.core == k && g.vc == 0) := by
  unfold flushSignals
  dsimp only
  split
  · next hnone => exact (filter_not_of_isEmpty hnone).symm
  · refine (keeps_incFlags _ (fun u => (u.core n).outSignals) _ _ _ (fun u m k a => outSignals_incFlag u m k a n) _).trans ?_
    rw [core_modCore, if_pos rfl]

section Path
variable (n k : Nat)

theorem arrives_flushPath : ∀ p ∈ ((s.flushPath n k).core n).arrives, ¬ (p.onPath = true ∧ p.core = k) := by
  intro p hp
  rw [flushPath, arrives_flushSignals, arrives_flushArrivals] at hp
  simpa [Bool.not_eq_true', imp_iff_not_or] using (List.mem_filter.mp hp).2

theorem outSignals_flushPath : ∀ g ∈ ((s.flushPath n k).core n).outSignals,
    ¬ (g.module = s.fabric.coord ∧ g.core = k ∧ g.vc = 0) := by
  intro g hg
  rw [flushPath, outSignals_flushSignals, fabric_flushArrivals] at hg
  simpa [imp_iff_not_or, or_assoc] using (List.mem_filter.mp hg).2

end Path

end State

/-! ### An arrival that is delivered (R55) -/

/-- An earlier arrival of the path of p. -/
def PendArrive.behind (p q : PendArrive) : Bool := p.onPath && q.onPath && q.core == p.core

/-- Core n with the arrivals l on their way. -/
def State.withArrives (s : State) (n : Nat) (l : List PendArrive) : State := s.modCore n fun c => { c with arrives := l }

theorem State.arrives_withArrives (s : State) (n : Nat) (l : List PendArrive) : ((s.withArrives n l).core n).arrives = l := by
  rw [withArrives, core_modCore, if_pos rfl]

theorem State.flag_withArrives (s : State) (n : Nat) (l : List PendArrive) (m k : Nat) :
    ((s.withArrives n l).core m).flag k = (s.core m).flag k :=
  keeps_modCore (g := (·.flag k)) (f := fun c => { c with arrives := l }) (fun _ => rfl) m

section Deliver
variable {s : State} {n : Nat} {e : EngKind} {p : PendArrive} {i : Nat}
  (hi : ((s.core n).arrives.findIdx? fun p => p.eng == e) = some i) (hp : (s.core n).arrives[i]? = some p)
include hi hp

theorem deliverArrival_eq : s.deliverArrival n e =
    (((s.core n).arrives.take i).filter p.behind ++ [p]).foldl (fun s q => s.incFlag q.core q.flag q.amount)
      (s.withArrives n ((((s.core n).arrives.take i).filter fun q => !p.behind q) ++ (s.core n).arrives.drop (i + 1))) := by
  simp only [State.deliverArrival, hi, hp]
  rfl

theorem arrives_deliverArrival : ((s.deliverArrival n e).core n).arrives =
    (((s.core n).arrives.take i).filter fun q => !p.behind q) ++ (s.core n).arrives.drop (i + 1) := by
  rw [deliverArrival_eq hi hp]
  refine (State.keeps_incFlags _ (fun u => (u.core n).arrives) _ _ _ (fun u m k a => State.arrives_incFlag u m k a n) _).trans ?_
  exact State.arrives_withArrives ..

/-- With none of its path before it, the arrival is the one increment. -/
theorem flag_deliverArrival (hrole : s.roleHeld p.core = false)
    (hfirst : ((s.core n).arrives.take i).all (fun q => !p.behind q) = true) :
    ((s.deliverArrival n e).core p.core).flag p.flag = (s.core p.core).flag p.flag + p.amount := by
  have hnone : ((s.core n).arrives.take i).filter p.behind = [] := by
    rw [List.filter_eq_nil_iff]
    exact fun q hq => by simpa using List.all_eq_true.mp hfirst q hq
  rw [deliverArrival_eq hi hp, hnone, List.nil_append, List.foldl_cons, List.foldl_nil]
  have hrole' (l : List PendArrive) : (s.withArrives n l).roleHeld p.core = false := hrole
  rw [State.flag_incFlag (hrole' _), State.flag_withArrives]

end Deliver

/-! ### The moments of a signal (R26) -/

/-- The arrival of the last write to d, which the signal g waits for. -/
def awaitedArrival (n : Nat) (e : EngKind) (g : Sig) (d : Desc) : PendArrive :=
  { eng := e, core := arrivalCore n (some d), flag := g.flag, amount := g.amount, onPath := onScratchpad (some d) }

section Moments
variable (s : State) (n : Nat) (e : EngKind) {g : Sig}

theorem completeSignal_off (h : g.en = false) (x : Option Desc) : s.completeSignal n e g x = s := by
  simp [State.completeSignal, h]

variable (hen : g.en = true)
include hen

theorem completeSignal_issue (h : g.when_ = 0) (x : Option Desc) : s.completeSignal n e g x = s := by
  simp [State.completeSignal, hen, h]

theorem completeSignal_completion (h : g.when_ = 1) (x : Option Desc) : s.completeSignal n e g x = s.incFlag n g.flag g.amount := by
  simp [State.completeSignal, hen, h]

theorem completeSignal_noWrite (h : g.when_ = 2) : s.completeSignal n e g none = s.incFlag n g.flag g.amount := by
  simp [State.completeSignal, hen, h]

theorem completeSignal_arrival (h : g.when_ = 2) (d : Desc) : s.completeSignal n e g (some d) =
    (s.joinPath n (some d)).modCore n fun c => { c with arrives := c.arrives ++ [awaitedArrival n e g d] } := by
  simp [State.completeSignal, hen, h, awaitedArrival]

end Moments

/-! ### The vector engine's work (R29, R40, R350) -/

section Vector
variable {s v : State} {n : CoreId} {o : EngOp} {r : List EngOp} {st : Stop} (hqueue : (s.core n).ve = o :: r)
include hqueue

theorem veComplete_ends (hwork : (veRun n o).run s = (.ok (), v)) : s.veComplete n =
    (v.modCore n fun c => { c with ve := c.ve.tail }).completeSignal n .ve o.sig (if opCode o.w = 0xA5 then none else some o.dst) := by
  simp only [State.veComplete, hqueue, State.runWork_ok hwork]

theorem veComplete_held (hwork : (veRun n o).run s = (.error st, v)) (hheld : st.waits = true) : s.veComplete n = s := by
  simp only [State.veComplete, hqueue, State.runWork, hwork, hheld, if_true]

theorem veComplete_faults (hwork : (veRun n o).run s = (.error st, v)) (hfault : st.waits = false) :
    s.veComplete n = (s.undoWrites v).haltOp n 3 o st := by
  simp only [State.veComplete, hqueue, State.runWork, hwork, hfault, Bool.false_eq_true, if_false]

end Vector

/-! ### The end of a drain (R40, R313) -/

/-- A record that is the log's newest stays through one more event (R308). -/
theorem mem_records_raise {s : State} {e : Event} {l : List Event} (h : s.log.records = e :: l) (code kind source : Nat)
    (fields : List (Nat × Nat)) : e ∈ (s.raise code kind source fields).log.records := by
  simp [State.raise, h]

section Drain
variable (s : State) (n : Nat) (incomplete : Bool)

/-- The core's drain has ended, as its halt record says. -/
def State.drainedCore : State := s.modCore n fun c => { c with halt := { c.halt with draining := false, drainIncomplete := incomplete } }

theorem settleJob_cases : s.settleJob = s ∨ ((s.job.state = .running ∨ s.job.state = .faulted) ∧ s.allFinished = true ∧
    s.settleJob = s.jobMove .halted 0x08) := by
  unfold State.settleJob
  split
  · next h =>
    rw [Bool.and_eq_true, Bool.or_eq_true, beq_iff_eq, beq_iff_eq] at h
    exact .inr ⟨h.1, h.2, rfl⟩
  · exact .inl rfl

theorem settleJob_halts (hjob : s.job.state = .running ∨ s.job.state = .faulted) (hall : s.allFinished = true) :
    s.settleJob = s.jobMove .halted 0x08 := by
  obtain h | h := hjob
  · simp [State.settleJob, h, hall]
  · simp [State.settleJob, h, hall]

theorem cores_settleJob : s.settleJob.cores = s.cores := by
  obtain h | ⟨-, -, h⟩ := settleJob_cases s
  · rw [h]
  · rw [h]; rfl

theorem mem_settleJob : s.settleJob.mem = s.mem := by
  obtain h | ⟨-, -, h⟩ := settleJob_cases s
  · rw [h]
  · rw [h]; rfl

theorem core_settleJob (m : Nat) : s.settleJob.core m = s.core m := by
  obtain h | ⟨-, -, h⟩ := settleJob_cases s
  · rw [h]
  · rw [h, State.core_jobMove]

theorem endDrain_eq : s.endDrain n incomplete = ((s.drainedCore n incomplete).haltEvent n).settleJob := rfl

theorem core_endDrain : (s.endDrain n incomplete).core n =
    { s.core n with halt := { (s.core n).halt with draining := false, drainIncomplete := incomplete } } := by
  rw [endDrain_eq, core_settleJob, State.haltEvent, State.core_raise, State.drainedCore, State.core_modCore, if_pos rfl]

theorem mem_endDrain : (s.endDrain n incomplete).mem = s.mem := mem_settleJob _

/-- The event HALT of the core is in the log. -/
theorem record_endDrain : ∃ e, e ∈ (s.endDrain n incomplete).log.records ∧ e.code = 0x1 ∧ e.source = BitVec.ofNat 32 n ∧ e.kind = 3 := by
  obtain ⟨e, l, hnewest, hcode, hsource, hkind⟩ : ∃ e l, ((s.drainedCore n incomplete).haltEvent n).log.records = e :: l ∧ e.code = 0x1 ∧
      e.source = BitVec.ofNat 32 n ∧ e.kind = 3 := ⟨_, _, rfl, rfl, rfl, rfl⟩
  refine ⟨e, ?_, hcode, hsource, hkind⟩
  rw [endDrain_eq]
  obtain h | ⟨-, -, h⟩ := settleJob_cases ((s.drainedCore n incomplete).haltEvent n)
  · rw [h, hnewest]
    exact List.mem_cons_self
  · rw [h, State.jobMove]
    exact mem_records_raise hnewest ..

/-- R313: the job as the drain of a core ends. -/
theorem job_endDrain : let t := s.endDrain n incomplete
    ((s.job.state = .running ∨ s.job.state = .faulted) → (∀ x ∈ t.cores, x.2.finished = true) → t.job.state = .halted) ∧
      ∀ x ∈ t.cores, x.2.finished = false → t.job = s.job := by
  dsimp only
  rw [endDrain_eq, cores_settleJob]
  refine ⟨fun hjob hall => ?_, fun x hx hunfinished => ?_⟩
  · rw [settleJob_halts ((s.drainedCore n incomplete).haltEvent n) hjob (List.all_eq_true.mpr hall)]
    rfl
  · obtain h | ⟨-, hall, -⟩ := settleJob_cases ((s.drainedCore n incomplete).haltEvent n)
    · rw [h]
      rfl
    · exact absurd (List.all_eq_true.mp hall x hx) (by simp [hunfinished])

theorem execHaltDrainComplete_ends {s : State} {n : CoreId} (hdraining : (s.core n).halt.draining = true)
    (hdrained : (s.core n).drained = true) : exec (.haltDrainComplete n) s = .next (s.endDrain n false) := by
  rw [exec_haltDrainComplete, execHaltDrainComplete]
  simp [hdraining, hdrained]

theorem execDrainTimeout_ends {s : State} {n : CoreId} (hdraining : (s.core n).halt.draining = true)
    (hleft : (s.core n).drained = false) : exec (.drainTimeout n) s = .next ((s.setCore n (s.core n).abandon).endDrain n true) := by
  rw [exec_drainTimeout, execDrainTimeout]
  simp [hdraining, hleft]

end Drain

end Sys2Proof.Machine

open Sys2Proof Sys2Proof.Machine

/-- Settles O26: the three ends of the vector engine's work, an arrival as `State.deliverArrival` takes it with those of its path before
it, and each moment of a signal; a path that is flushed keeps nothing of its own (`State.arrives_flushPath`). -/
theorem engineCompletions : Obligations.EngineCompletions := by
  refine ⟨⟨fun s v n o r hqueue hwork => ?ends, fun s v n o r st hqueue hwork hheld => ?held,
    fun s v n o r st hqueue hwork hfault hrun => ?faults, fun s n e p i hi hp hrole => ?arrives⟩, fun s n e g d hrole => ?moments⟩
  case ends => rw [exec_engineCompletion, execEngineCompletion, veComplete_ends hqueue hwork]
  case held => rw [exec_engineCompletion, execEngineCompletion, veComplete_held hqueue hwork hheld]
  case faults =>
    have hrun' : ((s.undoWrites v).core n).halt.halted = false := by rwa [State.halt_undoWrites]
    have hhalt := State.halt_haltCore hrun' { engine := 3, stream := o.stream.toNat, region := o.region, index := o.index } st
    refine ⟨(s.undoWrites v).haltOp n 3 o st, ?_, mem_haltCore .., ?_, ?_, ?_, ?_⟩
    · rw [exec_engineCompletion, execEngineCompletion, veComplete_faults hqueue hwork hfault]
    · rw [State.haltOp, core_haltCore_first _ _ _ _ hrun']
      rfl
    · rw [State.haltOp, hhalt]; rfl
    · rw [State.haltOp, hhalt]; rfl
    · rw [State.haltOp, hhalt]; rfl
  case arrives =>
    exact ⟨s.deliverArrival n e, exec_engineCompletion .., arrives_deliverArrival hi hp, flag_deliverArrival hi hp hrole⟩
  case moments =>
    refine ⟨fun h => completeSignal_off s n e h, fun hen h => completeSignal_issue s n e hen h, fun hen h => completeSignal_completion s n e hen h,
      fun hen h => completeSignal_noWrite s n e hen h, fun hen h hpath => ?path, fun hen h hpath => ?noPath⟩
    case path =>
      rw [completeSignal_arrival s n e hen h, State.joinPath, if_pos hpath, State.core_modCore, if_pos rfl, awaitedArrival, hpath]
      exact ⟨_, rfl, State.arrives_flushPath s n _, State.outSignals_flushPath s n _⟩
    case noPath =>
      rw [completeSignal_arrival s n e hen h, State.joinPath, hpath, if_neg Bool.false_ne_true, State.core_modCore,
        if_pos rfl, awaitedArrival, hpath]
      exact ⟨rfl, fun _ => rfl⟩

/-- Settles O30: both ends of a drain are `State.endDrain`, which raises HALT, then settles the job by the cores that it leaves. -/
theorem drainingEnds : Obligations.DrainingEnds := by
  intro s n hdraining
  refine ⟨fun hdrained => ?complete, fun hleft => ?waits, fun hleft => ?bound, fun t h => ?job⟩
  case complete =>
    obtain ⟨e, he, hcode, hsource, hkind⟩ := record_endDrain s n false
    refine ⟨_, e, execHaltDrainComplete_ends hdraining hdrained, ?_, ?_, he, hcode, hsource, hkind, mem_endDrain ..⟩
    · rw [core_endDrain]
    · rw [core_endDrain]
  case waits =>
    rw [exec_haltDrainComplete, execHaltDrainComplete]
    simp [hleft]
  case bound =>
    have hcore := core_endDrain (s.setCore n (s.core n).abandon) n true
    rw [State.core_setCore, if_pos rfl] at hcore
    refine ⟨_, execDrainTimeout_ends hdraining hleft, ?_, ?_, ?_, ?_, ?_, mem_endDrain ..⟩
    all_goals exact hcore ▸ rfl
  case job =>
    obtain ⟨hdrained, hexec⟩ | ⟨hleft, hexec⟩ := h
    · rw [execHaltDrainComplete_ends hdraining hdrained] at hexec
      injection hexec with ht
      subst ht
      exact job_endDrain s n false
    · rw [execDrainTimeout_ends hdraining hleft] at hexec
      injection hexec with ht
      subst ht
      exact job_endDrain (s.setCore n (s.core n).abandon) n true

end

section
/-! Instruction fetch (O31): the statement fails where a code region lies in a scratchpad bank that is off, since waking the bank clears the
errors of its lines (R231). -/

namespace Sys2Proof.Machine

/-- Stream F of core 0 runs from a code region of one line at the start of the core's scratchpad, whose bank is off, and which the core may
read as code; the line bears two flipped bits, which its code detects and does not correct (R233). -/
def sleepingCode : State :=
  { cores := [(0, { f := { hasEntry := true }, bankPower := 2,
                    regions := [(0, { enable := true, code := true, base := 0x8000000000, limit := 0x8000000000 })] })]
    image := { bodies := { regions := [(0, { base := 0x200000000000, lines := 1 })] } }
    memErr := [(0x8000000000, [0, 1])] }

theorem lineRead_sleepingCode : (sleepingCode.lineRead 0x200000000000).data = none := by decide

theorem execIcacheFill_sleepingCode :
    ∃ u, exec (.icacheFill 0 .F false {}) sleepingCode = .next u ∧ (u.core 0).halt.halted = false := ⟨_, rfl, by decide⟩

end Sys2Proof.Machine

open Sys2Proof Sys2Proof.Machine

/-- Refutes O31: a line that cannot be corrected lies in a bank that is off, so the read turns the bank on and delivers zeros (R231),
and the core does not halt. -/
theorem not_instructionFetch : ¬ Obligations.InstructionFetch := by
  unfold Obligations.InstructionFetch
  intro h
  obtain ⟨hdemand, -⟩ := h sleepingCode 0 .F { base := 0x200000000000, lines := 1 } (by decide) rfl rfl
  obtain ⟨-, -, -, hbad, -⟩ := hdemand (by decide)
  obtain ⟨u, hexec, hrunning⟩ := execIcacheFill_sleepingCode
  obtain ⟨v, hclaimed, hhalt⟩ := hbad (by decide) (by decide) (by decide) lineRead_sleepingCode
  obtain rfl : u = v := Host.Outcome.next.inj (hexec.symm.trans hclaimed)
  have hhalted := congrArg HaltRec.halted hhalt
  exact absurd (hrunning.symm.trans hhalted) (by decide)

end

section
/-! Answers (O36): each answer with the request that it answers or with none, what a request becomes whose module is absent, and the end-to-end
timeout. -/

namespace Sys2Proof.Machine

/-! ### Acknowledgements, responses and refusals (R26, R259, R260) -/

section Answer
variable {s u : State} {p : PortId} {f : Frame} {o : Outstanding} (htaken : s.takeFrame p f = some u)
include htaken

section WriteAck
variable (htype : f.type = 0x03)
include htype

theorem execWriteAck_none (hnone : u.outFind f.master f.tag (some f.src) [false] = none) :
    execWriteAck p f s = .next (u.lateAnswer p) := by
  simp only [execWriteAck, htype, htaken, hnone, ne_eq, not_true_eq_false, if_false]

variable (hfound : u.outFind f.master f.tag (some f.src) [false] = some o)
include hfound

theorem execWriteAck_dma (hchan : o.chan < 4) :
    execWriteAck p f s = .next ((u.outDrop o).dmaAnswered o fun x => { x with lines := x.lines + fOp f 0 4 }) := by
  simp only [execWriteAck, htype, htaken, hfound, hchan, ne_eq, not_true_eq_false, if_false, if_true]

theorem execWriteAck_late (hchan : 16 ≤ o.chan) :
    execWriteAck p f s = .next ((u.outDrop o).lateAnswered o.core (o.chan - 16)) := by
  have hdma : ¬ o.chan < 4 := by omega
  have hcopy : o.chan ≠ 8 := by omega
  simp only [execWriteAck, htype, htaken, hfound, hchan, hdma, hcopy, ne_eq, not_true_eq_false, if_false, if_true]

end WriteAck

section ReadResp
variable (htype : f.type = 0x06)
include htype

theorem execReadResp_none (hnone : u.outFind f.master f.tag (some f.src) [true] = none) :
    execReadResp p f s = .next (u.lateAnswer p) := by
  simp only [execReadResp, htype, htaken, hnone, ne_eq, not_true_eq_false, if_false]

variable (hfound : u.outFind f.master f.tag (some f.src) [true] = some o)
include hfound

theorem execReadResp_lines {n : Nat} (hok : fOp f 0 8 = 0) (hlines : frameLines f = some n) (hchan : o.chan < 4) :
    execReadResp p f s =
      .next ((u.outDrop o).dmaAnswered o fun x => { x with got := tset x.got o.addr (bytesAt f.payload 0 64) }) := by
  simp only [execReadResp, htype, htaken, hfound, hok, hlines, hchan, ne_eq, not_true_eq_false, if_false, if_true]

theorem execReadResp_fails (hstatus : fOp f 0 8 ≠ 0) :
    execReadResp p f s = .next ((u.outDrop o).outFails o (fOp f 0 8)) := by
  simp only [execReadResp, htype, htaken, hfound, hstatus, ne_eq, not_true_eq_false, if_false]

end ReadResp

theorem execRefused_fails (htype : f.type = 0x07) (hfound : u.outFind f.master f.tag (some f.src) [false] = some o) :
    execRefused p f s = .next ((u.outDrop o).outFails o (fOp f 0 8)) := by
  simp only [execRefused, htype, htaken, hfound, ne_eq, not_true_eq_false, if_false]

/-! ### Requests whose module is absent (R54, R70, R182, R265, R275, R279) -/

theorem execDestAbsent_acts (htype : f.type = 0x1C) : execDestAbsent p f s =
    .next (u.absentActs (fOp f 3 5) (bits (natAt f.payload 0 16) 104 24) (bits (natAt f.payload 0 16) 44 12)
      (bits (natAt f.payload 0 16) 38 6) (bits (natAt f.payload 0 16) 0 37)) := by
  simp only [execDestAbsent, htype, htaken, ne_eq, not_true_eq_false, if_false]

end Answer

namespace State
variable (s : State)

section Request
variable {s : State} {o : Outstanding} {dst master tag : Nat} (operand : Nat)

/-- A request to write ends with a failing status. -/
theorem absentActs_write
    (hfound : s.outFind (BitVec.ofNat 12 master) (BitVec.ofNat 6 tag) (some (BitVec.ofNat 24 dst)) [false] = some o) :
    s.absentActs 0x02 dst master tag operand = (s.outDrop o).outFails o 0x81 := by
  simp only [absentActs, Nat.reduceBEq, hfound]

/-- So does one to read. -/
theorem absentActs_read
    (hfound : s.outFind (BitVec.ofNat 12 master) (BitVec.ofNat 6 tag) (some (BitVec.ofNat 24 dst)) [true] = some o) :
    s.absentActs 0x05 dst master tag operand = (s.outDrop o).outFails o 0x81 := by
  simp only [absentActs, Nat.reduceBEq, hfound]

end Request

/-- Expert traffic comes from a course's Valley engine. -/
theorem absentActs_valley {s : State} {type dst master tag operand : Nat} (htype : type = 0x08 ∨ type = 0x0B) (hlo : 2048 ≤ master)
    (hhi : master < 2112) : s.absentActs type dst master tag operand =
      s.valAbsent (master - 2048) tag type (bits operand 6 31) (BitVec.ofNat 24 dst) := by
  obtain rfl | rfl := htype
  · exact if_pos ⟨hlo, hhi⟩
  · exact if_pos ⟨hlo, hhi⟩

theorem absentDrop_modVal {f : Valley → Valley} (hf : ∀ v, (f v).absentDrop = v.absentDrop) (c d : Nat) :
    ((s.modVal c f).valley d).absentDrop = (s.valley d).absentDrop := by
  rw [valley_modVal]
  split
  · next e => rw [e, hf]
  · rfl

theorem absentDrop_settleHome (n layer : Nat) (tag : BitVec 16) (back : Bool) (epoch : Byte) (c : Nat) :
    ((s.settleHome n layer tag back epoch).valley c).absentDrop = (s.valley c).absentDrop := by
  have hinc (u : State) (m k : Nat) (a : W32) : (u.incFlag m k a).valley c = u.valley c := by
    unfold incFlag; split <;> rfl
  unfold settleHome
  split
  · split
    · rw [hinc, modHome]
      refine absentDrop_modVal _ (fun v => ?_) _ c
      rfl
    · rfl
  · rfl

/-- The lost entries of copy k of transfer txn to module m are counted, and the copy is marked. -/
def countLost (s : State) (c txn : Nat) (x : ValTxn) (m : ModAddr) (k : Nat) : State :=
  s.modVal c fun v =>
    { v with absentDrop := sat32 v.absentDrop (bitCount ((copiesOf (s.valley c) txn m).getD k (0, 0)).2)
             txns := tset v.txns txn { x with lost := (m, k) :: x.lost } }

/-- The one event for a module, a tag and a direction. -/
def reportAbsent (s : State) (c : Nat) (x : ValTxn) (m : ModAddr) : State :=
  if (s.valley c).absent.contains (m, x.tag, x.backward) then s
  else (s.modVal c fun v => { v with absent := (m, x.tag, x.backward) :: v.absent }).raise 0x15 2 c [(4, m.toNat), (2, x.tag.toNat)]

/-- The home of the tag no longer waits for the module. -/
def homeAbsent (s : State) (x : ValTxn) (m : ModAddr) : State :=
  (s.modHome x.core x.layer x.tag x.backward x.epoch fun h =>
    { h with absent := if h.absent.contains m then h.absent else m :: h.absent }).settleHome x.core x.layer x.tag x.backward x.epoch

theorem absentDrop_countLost (s : State) (c txn : Nat) (x : ValTxn) (m : ModAddr) (k : Nat) :
    ((s.countLost c txn x m k).valley c).absentDrop =
      sat32 (s.valley c).absentDrop (bitCount ((copiesOf (s.valley c) txn m).getD k (0, 0)).2) := by
  rw [countLost, valley_modVal, if_pos rfl]

theorem absentDrop_reportAbsent (s : State) (c : Nat) (x : ValTxn) (m : ModAddr) :
    ((s.reportAbsent c x m).valley c).absentDrop = (s.valley c).absentDrop := by
  unfold reportAbsent
  split
  · rfl
  · refine absentDrop_modVal s (f := fun v => { v with absent := (m, x.tag, x.backward) :: v.absent }) (fun v => ?_) c c
    rfl

theorem absentDrop_homeAbsent (s : State) (x : ValTxn) (m : ModAddr) (c : Nat) :
    ((s.homeAbsent x m).valley c).absentDrop = (s.valley c).absentDrop := by
  rw [homeAbsent, absentDrop_settleHome, modHome]
  refine absentDrop_modVal s (fun v => ?_) _ c
  rfl

section Lost
variable {s : State} {c txn type line k : Nat} {m : ModAddr} {x : ValTxn} (hrow : type = 0x08 ∨ type = 0x0B)
  (htxn : tfind (s.valley c).txns txn = some x) (hk : k = copyIndex s x (decide (type = 0x0B)) line)
  (hcopy : k < (copiesOf (s.valley c) txn m).length) (hnew : x.lost.contains (m, k) = false)
include hrow htxn hk hcopy hnew

theorem valAbsent_row : s.valAbsent c txn type line m =
    if type = 0x0B then (s.countLost c txn x m k).reportAbsent c x m
    else ((s.countLost c txn x m k).reportAbsent c x m).homeAbsent x m := by
  have hback : (decide (type = 0x0B) || decide (type = 0x0C)) = decide (type = 0x0B) := by
    obtain rfl | rfl := hrow
    · rfl
    · rfl
  have hrow' : (decide (type = 0x08) || decide (type = 0x0B)) = true := by simpa using hrow
  simp only [valAbsent, htxn, hback, ← hk, hrow', hcopy, hnew, decide_true, Bool.not_false, Bool.and_self, if_true, decide_eq_true_eq]
  rfl

/-- R182: an entry of a copy to an absent module is counted once. -/
theorem absentDrop_valAbsent : ((s.valAbsent c txn type line m).valley c).absentDrop =
    sat32 (s.valley c).absentDrop (bitCount ((copiesOf (s.valley c) txn m).getD k (0, 0)).2) := by
  rw [valAbsent_row hrow htxn hk hcopy hnew]
  split
  · rw [absentDrop_reportAbsent, absentDrop_countLost]
  · rw [absentDrop_homeAbsent, absentDrop_reportAbsent, absentDrop_countLost]

end Lost

end State

theorem mem_outFails (s : State) (o : Outstanding) (status : Nat) : (s.outFails o status).mem = s.mem := by
  unfold State.outFails
  repeat' split
  all_goals rfl

end Sys2Proof.Machine

open Sys2Proof Sys2Proof.Machine

/-- Settles O36: one rule for each answer with its request or with none, and one for each type of a request whose module is absent. -/
theorem answersFinishTheirRequest : Obligations.AnswersFinishTheirRequest := by
  refine ⟨fun s u p f o htype htaken hfound hchan => execWriteAck_dma htaken htype hfound hchan,
    fun s u p f o htype htaken hfound hchan => execWriteAck_late htaken htype hfound hchan,
    fun s u p f o n htype htaken hfound hok hlines hchan => execReadResp_lines htaken htype hfound hok hlines hchan,
    fun s u p f o htype htaken hfound hstatus => execReadResp_fails htaken htype hfound hstatus,
    fun s u p f o htype htaken hfound => execRefused_fails htaken htype hfound,
    fun s u p f htaken => ⟨fun htype hnone => ?ack, fun htype hnone => ?resp⟩,
    fun s u p f o htype htaken hwrite hfound => ?absentWrite, fun s u p f htype htaken => ?absent, fun s p master tag o hfound => ?timeout⟩
  case ack =>
    refine ⟨_, execWriteAck_none htaken htype hnone, ?_, rfl, rfl⟩
    rw [State.lateAnswer, State.port_modPort, if_pos rfl]
  case resp =>
    refine ⟨_, execReadResp_none htaken htype hnone, ?_, rfl, rfl⟩
    rw [State.lateAnswer, State.port_modPort, if_pos rfl]
  case absentWrite =>
    rw [exec_destAbsent, execDestAbsent_acts htaken htype, hwrite, State.absentActs_write _ hfound]
  case absent =>
    rw [exec_destAbsent, execDestAbsent_acts htaken htype]
    refine ⟨fun o hread hfound => ?read, fun hinc => ?inc, fun x k hrow hlo hhi htxn hk hcopy hnew => ?row,
      fun hlo hhi => ⟨fun hchunk => ?chunk, fun habort => ?abort⟩,
      fun hbarrier => ?barrier, fun hvote => ?vote⟩
    case read => rw [hread, State.absentActs_read _ hfound]
    case inc => rw [hinc]; rfl
    case row =>
      refine ⟨_, rfl, ?_⟩
      rw [State.absentActs_valley hrow hlo hhi]
      exact State.absentDrop_valAbsent hrow htxn hk hcopy hnew
    case chunk => rw [hchunk]; exact congrArg _ (if_pos ⟨hlo, hhi⟩)
    case abort => rw [habort]; exact congrArg _ (if_pos ⟨hlo, hhi⟩)
    case barrier =>
      obtain h | h := hbarrier
      · rw [h]; rfl
      · rw [h]; rfl
    case vote => rw [hvote]; rfl
  case timeout =>
    refine ⟨_, ?_, rfl, ?_⟩
    · simp only [exec_e2eTimeout, execE2eTimeout, hfound]
    · rw [mem_outFails]
      rfl

end
